-- ==== Sys2Proof/Word.lean ====
section
/-!
DEFINITION. The word types of the Nymari 2048 and their plainest readings: a 64-bit register, a byte, a 512-bit wide beat,
and the two readings of a word as an integer.
-/

namespace Sys2Proof

/-- A 64-bit register, narrow payload or memory word (spec 02 R25, 08 R128). -/
abbrev Word := BitVec 64

/-- A byte of memory. -/
abbrev Byte := BitVec 8

/-- A 512-bit wide beat (spec 04 R72). A narrow payload is held in its low 64 bits, the rest being 0. -/
abbrev Beat := BitVec 512

/-- A narrow payload as the low 64 bits of a beat. -/
def Word.toBeat (w : Word) : Beat := w.setWidth 512

/-- The narrow payload of a beat. -/
def Beat.toWord (b : Beat) : Word := b.setWidth 64

end Sys2Proof
end

