-- ==== Sys2Proof/Syntax.lean ====
section
/-!
DEFINITION. The syntax of the Nymari 2048: operand selectors, the fields of the five action forms (spec 04 R63 to R73), and ONE
inductive, `Instr`, with one constructor for every row of the opcode table. The first 171 constructors are actions that a slot
word encodes; the rest are the indivisible steps of the device's other agents and of the world outside it
(spec 95_what_each_step_holds.md), which have no encoding.
-/

namespace Sys2Proof

/-- The kind of an element site (spec 00 R3, 08 R129 `eid`.KIND). -/
inductive Kind
  | ce | fe | se | le | xe | me
  deriving DecidableEq, Repr

/-- A source selector (spec 04 R71). `ch n` is i0 to i3; on SE, LE and ME `ch 2` and `ch 3` are wi0 and wi1. -/
inductive Src
  | d (n : Fin 8)
  | ch (n : Fin 4)
  | zero
  | c0
  | c1
  | k
  deriving DecidableEq, Repr

/-- A destination selector (spec 04 R71). `ch n` is o0 to o3; on SE, LE and ME `ch 2` and `ch 3` are wo0 and wo1. -/
inductive Dst
  | d (n : Fin 8)
  | ch (n : Fin 4)
  | none
  | c0
  | c1
  | fan
  deriving DecidableEq, Repr

/-- The output tags that an action can choose (spec 04 R65). -/
inductive OTag
  | data | last | mark | alt
  deriving DecidableEq, Repr

/-- The predicate update of an action: pmode with its pk (spec 04 R65). -/
inductive PUpd
  | none
  | result (k : Fin 8)
  | one (k : Fin 8)
  | zero (k : Fin 8)
  deriving DecidableEq, Repr

/-- The common fields of an R-form action (spec 04 R66); fm is held by each constructor in its own terms. -/
structure RAct where
  dst : Dst
  sa : Src
  sb : Src
  otag : OTag
  upd : PUpd
  peek : Bool
  deriving DecidableEq, Repr

/-- The fields of an I-form action (spec 04 R67). -/
structure IAct where
  dst : Dst
  sa : Src
  imm : BitVec 12
  upd : PUpd
  deriving DecidableEq, Repr

/-- The access size of an M-form action (spec 04 R68). -/
inductive MSize
  | b1 | b2 | b4 | b8
  deriving DecidableEq, Repr

/-- The ord field of an M-form action (spec 04 R68). -/
inductive MOrd
  | plain | ordered | nonTemporal | fineGrain
  deriving DecidableEq, Repr

/-- The four scopes (spec 17 R303). -/
inductive Scope
  | plot | parcel | device | system
  deriving DecidableEq, Repr

/-- The F, C and S bits (spec 02 R37). -/
structure Fcs where
  f : Bool
  c : Bool
  s : Bool
  deriving DecidableEq, Repr

/-- The atomic operations, aop 0 to 11 (spec 16 R289). -/
inductive AtomOp
  | add | min | max | minn | maxn | and | or | xor | xchg | fadd | fmin | fmax
  deriving DecidableEq, Repr

/-- The common fields of an M-form action (spec 04 R68). -/
structure MAct where
  dst : Dst
  sa : Src
  sb : Src
  size : MSize
  ord : MOrd
  scope : Scope
  deriving DecidableEq, Repr

/-- The common fields of an E-form action (spec 04 R69). -/
structure EAct where
  dst : Dst
  sa : Src
  sb : Src
  scope : Scope
  deriving DecidableEq, Repr

/-- The lane width of an integer instruction (spec 04 R73, 09 R151). -/
inductive LaneW
  | w64 | w32 | w16 | w8
  deriving DecidableEq, Repr

/-- fm of the integer and lane class: width, signedness, saturation (spec 04 R73). -/
structure IntCtl where
  w : LaneW
  signed : Bool
  sat : Bool
  deriving DecidableEq, Repr

/-- The condition of `cmp` and `ccmp` (spec 09 R158). -/
inductive Cond
  | eq | ne | lt | le
  deriving DecidableEq, Repr

/-- fm of `cmp` and `ccmp` (spec 09 R158). -/
structure CmpCtl where
  w : LaneW
  signed : Bool
  cond : Cond
  deriving DecidableEq, Repr

/-- The lane formats of the floating-point class (spec 04 R73). -/
inductive FpFmt
  | f64 | f32 | bf16 | f16
  deriving DecidableEq, Repr

/-- fm of the floating-point class (spec 04 R73). -/
structure FpCtl where
  fmt : FpFmt
  fcs : Fcs
  deriving DecidableEq, Repr

/-- Rounding codes 0 to 5 (spec 02 R33). -/
inductive RCode
  | rne | rtz | rdn | rup | sr | rna
  deriving DecidableEq, Repr

/-- The role of a stage-ring instruction (spec 16 R287). -/
inductive Role
  | producer | consumer
  deriving DecidableEq, Repr

/-- The source of `tmr.rd` (spec 09 R146). -/
inductive TmrSrc
  | ts | cyc
  deriving DecidableEq, Repr

/-- The special registers, numbers 0 to 8 (spec 09 R148). -/
inductive Spec
  | flg | fpm | pix | ws | eid | pxy | tcnt | pptr | wave
  deriving DecidableEq, Repr

/-- The four repairs (spec 18 R318, R326). -/
inductive Repair
  | resume | retry | subst | kill
  deriving DecidableEq, Repr

/-- The reach of `tlb.inv` (spec 18 R326, R327). -/
inductive TlbReach
  | all | page | die
  deriving DecidableEq, Repr

/-- The mode of an issue watchpoint (spec 13 R234). -/
inductive WpMode
  | off | rd | wr | rw
  deriving DecidableEq, Repr

/-- The three dataflows (spec 04 R70). -/
inductive Flow
  | inner | outer | row
  deriving DecidableEq, Repr

/-- The adapter id source (spec 04 R70): `none` means ad = 0. -/
inductive Ids
  | none | i0 | i1 | rows
  deriving DecidableEq, Repr

/-- The fields of `mma` (spec 15 R264). -/
structure MmaAct where
  flow : Flow
  an : Fin 4
  sa : Src
  sb : Src
  ids : Ids
  upd : PUpd
  tb : Bool
  fcs : Fcs
  deriving DecidableEq, Repr

/-- The fields of the other X-form actions (spec 15 R267, R268): sb is decoded as a destination. -/
structure XAct where
  an : Fin 4
  sa : Src
  dst : Dst
  upd : PUpd
  deriving DecidableEq, Repr

/-- The tags of a token, codes 0 to 7 (spec 08 R130). -/
inductive Tag
  | data | last | hdr | eor | fault | psum | mark | alt
  deriving DecidableEq, Repr

/-- The tag test of a trigger: TN and TV (spec 04 R63). -/
structure TagTest where
  neg : Bool
  tag : Tag
  deriving DecidableEq, Repr

/-- The width of a firing (spec 04 R63): W codes 000 to 100. -/
inductive Width
  | w1 | w2 | w4 | w8 | w16
  deriving DecidableEq, Repr

/-- The trigger of a valid slot (spec 04 R63). -/
structure Trig where
  pc : Fin 4
  w : Width
  ic : BitVec 4
  test : Option TagTest
  pm : BitVec 8
  pv : BitVec 8
  deriving DecidableEq, Repr

/-- An element's place: plot index (y × 32 + x for the user plots, 512 + die for a headland plot) and site. -/
structure Loc where
  plot : Nat
  site : Nat
  deriving DecidableEq, Repr

/-- Where an ECC or parity error stands (spec 19 R330). -/
inductive ErrPlace
  | plotStore (plot line : Nat)
  | cslot (plot slot : Nat)
  | elemConfig (l : Loc)
  | plotConfig (plot : Nat)
  | live (l : Loc)
  | channel (l : Loc) (port : Fin 4) (pos : Nat)
  | commons (pa : Nat) (dirty : Bool)
  | hbm (pa : Nat)
  | secondTier (pa : Nat)
  | adapterCache (plot index : Nat)
  | tlb (die index : Nat)
  | nodeCache (die index : Nat)
  | traceBuffer (plot index : Nat)
  deriving DecidableEq, Repr

/-- A contribution to a reduction window as it arrives at the home-side switch (spec 16 R298). `req` is the request of this
package that made it, 0 for another package's. -/
structure Contribution where
  ctx : Nat
  win : Nat
  off : Nat
  rank : Nat
  op : AtomOp
  size : MSize
  fcs : Fcs
  fast : Bool
  count : Nat
  home : Nat
  value : Word
  req : Nat
  deriving DecidableEq, Repr

/-- One element record of a headland configuration: the words of R50 and R52 (spec 18 R319). -/
structure HeadElem where
  site : Nat
  words : List Word
  deriving DecidableEq, Repr

/-- Every row of the opcode table: the actions of slot words (rows 0 to 170) and the steps of the device and of the world
around it (rows 171 to 252). -/
inductive Instr
  -- control, predicates, counters, flags, synchronisation, special registers (spec 09 R138 to R150, 16 R283 to R287)
  | nop (r : RAct)
  | mov (r : RAct)
  | movi (i : IAct)
  | drop (r : RAct)
  | sel (r : RAct) (n : Fin 8)
  | route (r : RAct)
  | eos (r : RAct) (rc0 rc1 : Bool)
  | pand (pa pb : Fin 8) (upd : PUpd)
  | por (pa pb : Fin 8) (upd : PUpd)
  | pxor (pa pb : Fin 8) (upd : PUpd)
  | pandn (pa pb : Fin 8) (upd : PUpd)
  | cntAdd (i : IAct)
  | cntSet (i : IAct)
  | flgRd (r : RAct)
  | flgClr (i : IAct)
  | rest (upd : PUpd)
  | barArv (g : Fin 32) (upd : PUpd)
  | barWch (dst : Dst) (sa : Src) (g : Fin 32) (upd : PUpd)
  | barMem (sa : Src) (g : Fin 32) (upd : PUpd) (peek : Bool)
  | stgAcq (dst : Dst) (ring : Fin 8) (role : Role) (upd : PUpd)
  | stgRel (sa : Src) (ring : Fin 8) (role : Role) (upd : PUpd)
  | tmrRd (r : RAct) (src : TmrSrc)
  | trap (i : IAct)
  | brk (i : IAct)
  | specRd (dst : Dst) (reg : Spec) (upd : PUpd)
  | specWr (sa : Src) (reg : Spec) (upd : PUpd)
  | waveNx (upd : PUpd)
  -- integer and lane instructions (spec 09 R151 to R163)
  | add (r : RAct) (c : IntCtl)
  | sub (r : RAct) (c : IntCtl)
  | addi (i : IAct)
  | mul (r : RAct) (c : IntCtl)
  | mulh (r : RAct) (c : IntCtl)
  | mad (r : RAct) (c : IntCtl)
  | div (r : RAct) (c : IntCtl)
  | rem (r : RAct) (c : IntCtl)
  | neg (r : RAct) (c : IntCtl)
  | abs (r : RAct) (c : IntCtl)
  | min (r : RAct) (c : IntCtl)
  | max (r : RAct) (c : IntCtl)
  | and (r : RAct) (c : IntCtl)
  | or (r : RAct) (c : IntCtl)
  | xor (r : RAct) (c : IntCtl)
  | andn (r : RAct) (c : IntCtl)
  | not (r : RAct) (c : IntCtl)
  | shl (r : RAct) (c : IntCtl)
  | shr (r : RAct) (c : IntCtl)
  | sar (r : RAct) (c : IntCtl)
  | rot (r : RAct) (c : IntCtl)
  | shli (i : IAct)
  | clz (r : RAct) (c : IntCtl)
  | ctz (r : RAct) (c : IntCtl)
  | popc (r : RAct) (c : IntCtl)
  | bfe (r : RAct) (c : IntCtl)
  | bfi (r : RAct) (c : IntCtl)
  | ext (r : RAct) (c : IntCtl)
  | lea (r : RAct) (c : IntCtl)
  | cmp (r : RAct) (c : CmpCtl)
  | ccmp (r : RAct) (c : CmpCtl)
  | iota (r : RAct) (c : IntCtl)
  | pack (r : RAct) (c : IntCtl)
  | unpk (r : RAct) (c : IntCtl)
  | shuf (r : RAct) (c : IntCtl)
  | bcast (r : RAct) (c : IntCtl)
  | vred (r : RAct) (c : IntCtl)
  | vscn (r : RAct) (c : IntCtl)
  | filt (r : RAct) (c : IntCtl)
  | xpnd (r : RAct) (c : IntCtl)
  | zpack (r : RAct) (c : IntCtl)
  | zunpk (r : RAct) (c : IntCtl)
  | hash (r : RAct) (c : IntCtl)
  -- floating point, conversion, Q4N, random (spec 10 R165 to R182)
  | fadd (r : RAct) (c : FpCtl)
  | fsub (r : RAct) (c : FpCtl)
  | fmul (r : RAct) (c : FpCtl)
  | ffma (r : RAct) (c : FpCtl)
  | fmin (r : RAct) (c : FpCtl)
  | fmax (r : RAct) (c : FpCtl)
  | fabs (r : RAct) (c : FpCtl)
  | fneg (r : RAct) (c : FpCtl)
  | fclt (r : RAct) (c : FpCtl)
  | fcle (r : RAct) (c : FpCtl)
  | fceq (r : RAct) (c : FpCtl)
  | fcun (r : RAct) (c : FpCtl)
  | fcvt (r : RAct) (fcs : Fcs)
  | f2i (r : RAct) (signed trunc : Bool) (c : FpCtl)
  | i2f (r : RAct) (signed : Bool) (c : FpCtl)
  | frnd (r : RAct) (rd : Option RCode) (c : FpCtl)
  | fscl (r : RAct) (c : FpCtl)
  | fcls (r : RAct) (c : FpCtl)
  | fdot (r : RAct) (c : FpCtl)
  | q4dq (r : RAct) (c : FpCtl)
  | q4q (r : RAct) (c : FpCtl)
  | dropm (r : RAct) (c : FpCtl)
  | rnd (r : RAct) (c : FpCtl)
  -- special functions (spec 10 R183)
  | frcp (r : RAct) (c : FpCtl)
  | frsq (r : RAct) (c : FpCtl)
  | fsqrt (r : RAct) (c : FpCtl)
  | fex2 (r : RAct) (c : FpCtl)
  | flg2 (r : RAct) (c : FpCtl)
  | fsin (r : RAct) (c : FpCtl)
  | fcos (r : RAct) (c : FpCtl)
  | ftnh (r : RAct) (c : FpCtl)
  | fsgm (r : RAct) (c : FpCtl)
  | fslu (r : RAct) (c : FpCtl)
  | fdiv (r : RAct) (c : FpCtl)
  -- loads, stores, atomics, fences, seals (spec 13 R225 to R229, 16 R288 to R292)
  | ld (m : MAct) (sx : Bool)
  | st (m : MAct)
  | amo (m : MAct) (op : AtomOp) (fcs : Fcs)
  | amoCas (m : MAct)
  | red (m : MAct) (op : AtomOp) (fcs : Fcs)
  | wfence (dst : Dst) (scope : Scope)
  | mseal (dst : Dst) (sa sb : Src)
  | munseal (dst : Dst) (sa : Src)
  -- privileged headland instructions (spec 18 R325 to R328)
  | fltRd (dst : Dst) (upd : PUpd)
  | rpr (r : RAct) (act : Repair)
  | rqRd (r : RAct)
  | rqWr (r : RAct)
  | rqInj (r : RAct) (val : Bool)
  | ctxSv (r : RAct)
  | ctxLd (r : RAct)
  | tlbInv (r : RAct) (reach : TlbReach)
  | frz (r : RAct)
  | thw (r : RAct)
  | cfgRld (r : RAct)
  | trCtl (r : RAct)
  | wpSet (r : RAct) (n : Fin 8)
  | irq (r : RAct)
  | spareMap (r : RAct)
  | polWr (r : RAct)
  -- scratchpad instructions (spec 13 R215 to R224)
  | tileNew (r : RAct)
  | tileFree (r : RAct)
  | tileShp (r : RAct)
  | tileRd (r : RAct)
  | tileWr (r : RAct)
  | tileGat (r : RAct)
  | tileSct (r : RAct)
  | tileAcc (r : RAct) (fcs : Fcs)
  | tileFil (r : RAct)
  | tileCpy (r : RAct)
  | tileQry (r : RAct)
  | hashSet (r : RAct)
  | bankRd (r : RAct)
  | bankClr (r : RAct)
  -- load-store endpoint instructions (spec 13 R231 to R234)
  | strmOpn (r : RAct) (m : Fin 8)
  | strmCls (r : RAct) (m : Fin 8)
  | sbar (mask : BitVec 8) (upd : PUpd)
  | strmSt (r : RAct) (m : Fin 8)
  | tlbPf (r : RAct)
  | wpArm (r : RAct) (n : Fin 2) (mode : WpMode)
  | cmbFl (r : RAct)
  -- engine commands (spec 13 R235 to R245, 16 R293)
  | cpy (e : EAct)
  | cpyNd (e : EAct)
  | cpyIx (e : EAct)
  | cpyIs (e : EAct)
  | gat (e : EAct)
  | sct (e : EAct)
  | sctAdd (e : EAct) (fcs : Fcs)
  | rdcTree (e : EAct) (fcs : Fcs)
  | coll (e : EAct) (fcs : Fcs)
  | put (e : EAct)
  | get (e : EAct)
  | drillPush (e : EAct) (n : Fin 9)
  | sig (e : EAct) (raise : Bool) (vec : BitVec 10)
  | adPf (e : EAct) (me : Fin 4) (a b : Bool)
  -- matrix instructions (spec 15 R264 to R273, R278)
  | mma (x : MmaAct)
  | accClr (x : XAct)
  | accRd (x : XAct) (fcs : Fcs)
  | accLd (x : XAct)
  | accRel (x : XAct) (fcs : Fcs)
  | adInv (x : XAct)
  | meCnt (x : XAct)
  | meIdl (x : XAct)
  -- steps of elements and their units
  | firingBeat (l : Loc)
  | mmaStep (l : Loc)
  | mmaComplete (l : Loc)
  | adapterClose (l : Loc) (an : Fin 4)
  | accumulatorRelease (l : Loc) (an : Fin 4)
  | releaseBeat (l : Loc) (wo : Fin 2)
  | operandPacketFill (l : Loc) (nodeB : Bool)
  | adapterSliceFill (plot fill : Nat)
  -- steps of channels and banks
  | tokenArrive (l : Loc) (port : Fin 4)
  | tokenDepart (l : Loc) (port : Fin 4)
  | creditReturn (l : Loc) (port : Fin 4)
  | asyncResultVisible (op : Nat)
  | bankGrant (plot bank : Nat)
  -- steps of memory paths and engines
  | streamAccess (l : Loc) (m : Fin 8)
  | streamComplete (l : Loc) (m : Fin 8)
  | waveEnter (req : Nat)
  | pageWalkComplete (die miss : Nat)
  | homeAccessPerform (req : Nat)
  | memoryResponse (req : Nat)
  | combineLineTimeout (l : Loc) (line : Nat)
  | engineAcceptCommand (cmd : Nat)
  | engineComplete (cmd : Nat)
  -- steps of reductions and barriers
  | treePacketAccept (packet : Nat)
  | treeForward (plot tree grp : Nat)
  | treeTimeout (plot tree grp : Nat)
  | windowContribution (c : Contribution)
  | windowRoundEnd (ctx win off : Nat)
  | windowTimeout (ctx win off : Nat)
  | barrierArrivalCount (l : Loc)
  | watchComplete (l : Loc)
  | watchExpire (l : Loc)
  | fidAssign (die : Nat)
  -- the host and the world outside
  | launchLf3 (fn : Nat) (q : Nat) (rec : BitVec 512)
  | launchLf2 (fn : Nat) (q : Nat) (rec : BitVec 256)
  | queueDrain (fn : Nat) (q : Nat)
  | queueAbort (fn : Nat) (q : Nat)
  | hostReply (die : Nat) (v : Word)
  | registerWrite (fn off width : Nat) (value : BitVec 256)
  | hostMemoryWrite (fn off : Nat) (bytes : List Byte)
  | hostMemoryRead (fn off len : Nat)
  | hostAtomicRequest (fn off : Nat)
  -- the drill
  | drillTakeRecord (q : Nat)
  | signalNode (launch node : Nat)
  | branchNode (launch node : Nat)
  | waitPoll (launch node : Nat)
  | waitTimeout (launch node : Nat)
  | subgraphStart (launch node : Nat)
  | granaryEnter (launch node : Nat)
  | nodeAgeing (launch node : Nat)
  | launchTimeout (launch : Nat)
  | engineNodeDispatch (launch node : Nat)
  | placeSection (launch node : Nat)
  | jerixLookup (launch node : Nat)
  | translationComplete (xlate : Nat)
  | preemptSection (parcel : Nat)
  | parcelFrozen (parcel : Nat)
  | saveAreaWritten (parcel : Nat)
  | resumeSection (parcel : Nat)
  | configPacket (plot packet : Nat)
  | plotStart (plot : Nat)
  | killParcelFree (parcel : Nat)
  | settleScan (parcel : Nat)
  | sectionRetire (parcel : Nat)
  | sectionWatchdog (parcel : Nat)
  -- reliability, power, firmware, trace
  | configRegionError (p : ErrPlace)
  | configReloadDone (p : ErrPlace)
  | memoryError (p : ErrPlace) (correctable : Bool)
  | scrubRead (p : ErrPlace)
  | powerThrottle (milliwatts : Nat) (temp16 : Nat)
  | thermalTrip (temp16 : Nat)
  | dvlLaneFail (port : Fin 12)
  | linkDown (port : Option (Fin 12))
  | tracePostCount (plot : Nat)
  | headlandConfigurationLoad (die : Nat) (elems : List HeadElem) (routes : List Word)
  -- further steps of the Reeve, the drill and the world outside
  | hbmChannelSpare (stack : Fin 8) (pa : Nat)
  | postPackageRepair (pa : Nat)
  | siloPurge
  | firmwareUpdate
  | firmwareSwitch
  | attestationRequest
  | drillStep
  | powerUp
  deriving DecidableEq, Repr

/-- A valid slot: its trigger and its action (spec 04 R63). -/
structure Slot where
  trig : Trig
  act : Instr
  deriving DecidableEq, Repr

end Sys2Proof
end

