-- ==== Sys2Proof/Config.lean ====
section
/-!
DEFINITION. What one part fixes and the manual leaves to it, and the FREE VALUES: constants with no body, of which nothing can
be proved beyond their type. Each is named in the assumption log.
-/

namespace Sys2Proof.Config

/-- The special functions whose f32 and f64 results are faithful (spec 10 R183). -/
inductive FaithfulFn
  | ex2 | lg2 | sin | cos | tanh | sigmoid | silu
  deriving DecidableEq, Repr

/-- FREE VALUE (spec 02 R39, 10 R183): whether a faithful function returns the bracketing value farther from zero, fixed for each
input pattern and common to every part. -/
opaque bracketAway : FaithfulFn → FpFmt → Word → Bool

/-- FREE VALUE (spec 13 R242, 16 R299): which values of a fast-mode sum are added next, by a counter of sums and the place in the sum. -/
opaque fastPick : Nat → Nat → Nat

/-- FREE VALUE (spec 20 R355): whether the firmware image at a host address verifies under the Ebsirov key. -/
opaque firmwareVerifies : Nat → Nat → Bool

/-- FREE VALUE (spec 20 R356, R357): byte j of the signature and certificate of report n, whose keys the manual does not give. -/
opaque attestByte : Nat → Nat → Byte

/-- FREE VALUE (spec 20 R356): the measured hash of the firmware bank or headland configuration number n. -/
opaque measuredHash : Nat → BitVec 256

/-- FREE VALUE (spec 13 R242, 12 R196): what another package's memory returns for a read of a byte, by access counter and address. -/
opaque peerByte : Nat → Nat → Byte

/-- FREE VALUE (spec 20 R356): the number of bytes of the certificate that is appended to each report. -/
opaque certificateLength : Nat

/-- FREE VALUE (spec 18 R314): the syndrome of a MEMERR, by the number of its record. -/
opaque syndrome : Nat → Word

/-- FREE VALUE (spec 19 R330): what a host read of a poisoned line returns, by access counter and address. -/
opaque damagedByte : Nat → Nat → Byte

/-- FREE VALUE (spec 16 R289, R291): the completion of a host AtomicOp can be Unsupported Request or Completer Abort. -/
opaque hostAtomicRefused : Nat → Bool

/-- The forms in which the part is supplied (spec 00 R2): a field die, the package NYM-2048-P, and the module NYM-2048-M. -/
inductive Form
  | die | package | module
  deriving DecidableEq, Repr, Inhabited

/-- FREE VALUE (spec 00 R2; log 1): the form of the part. -/
opaque form : Form

/-- Only the module has the 1 TiB of second-tier memory (spec 00 R2). -/
def secondTier : Bool := form == .module

/-- FREE VALUES (spec 20 R350; log 10): the part's own stepping and serial number. -/
opaque stepping : BitVec 16
opaque serial : BitVec 64

/-- FREE VALUE (spec 12 R196; log 1): the number of this package in the system. -/
opaque packageNumber : Nat

/-- FREE VALUES (spec 05 R101; log 27): what firmware sets: the high half of the translator's version, and the place and size of the code heap. -/
opaque translatorHigh : BitVec 16
opaque heapPlace : Nat
opaque heapBytes : Nat

/-- FREE VALUES (spec 18 R322; log 20): of a save area, by the counter of free values, a byte at an offset whose layout the manual does not give, and the
used bytes of the element records and of the matrix extension of a plot index. -/
opaque frameByte : Nat → Nat → Byte
opaque elementBytes : Nat → Nat → Nat
opaque matrixBytes : Nat → Nat → Nat

/-- FREE VALUE (spec 05 R100; log 29): the nanoseconds for which the power was off before a power-up, by the counter of free values. -/
opaque nsOff : Nat → Nat

end Sys2Proof.Config
end

