-- ==== Sys2Proof/WellFormed.lean ====
section
/-!
DEFINITION. Which actions and slots are legal configuration on which kind of element (spec 04 R64 to R73 and R81, and the limits
of each instruction's entry: 09 R164, 10 R184, 13 R246, 15 R280, 18 R325). Every check is a Bool, so that a term can be tested.
-/

namespace Sys2Proof

/-- Kinds with data registers, counters and k (spec 08 R128). -/
def Kind.hasRegs : Kind → Bool
  | .ce | .fe => true
  | _ => false

/-- Kinds whose channels 2 and 3 are wide (spec 04 R71). -/
def Kind.hasWide : Kind → Bool
  | .se | .le | .me => true
  | _ => false

/-- Kinds that hold `fpm` (spec 08 R128). -/
def Kind.hasFpm : Kind → Bool
  | .ce | .fe | .me => true
  | _ => false

/-- The number of beats of a width code (spec 04 R63). -/
def Width.beats : Width → Nat
  | .w1 => 1
  | .w2 => 2
  | .w4 => 4
  | .w8 => 8
  | .w16 => 16

/-- Whether channel n of a kind is wide (spec 04 R71). -/
def Kind.wideCh (k : Kind) (n : Fin 4) : Bool := k.hasWide && decide (2 ≤ n.val)

/-- A source selector legal on the kind (spec 04 R71). -/
def Src.legal (k : Kind) : Src → Bool
  | .d _ | .c0 | .c1 | .k => k.hasRegs
  | .ch _ | .zero => true

/-- A destination selector legal on the kind (spec 04 R71). -/
def Dst.legal (k : Kind) : Dst → Bool
  | .d _ | .c0 | .c1 => k.hasRegs
  | .ch _ | .none | .fan => true

def Src.isCh : Src → Bool
  | .ch _ => true
  | _ => false

/-- A wide source channel. -/
def Src.isWide (k : Kind) : Src → Bool
  | .ch n => k.wideCh n
  | _ => false

/-- A narrow source: legal, and no wide channel. -/
def Src.narrow (k : Kind) (s : Src) : Bool := s.legal k && !s.isWide k

/-- A narrow source channel. -/
def Src.narrowCh (k : Kind) (s : Src) : Bool := s.isCh && !s.isWide k

def Src.narrowChOrZero (k : Kind) (s : Src) : Bool := s.narrowCh k || s == .zero

def Dst.isCh : Dst → Bool
  | .ch _ => true
  | _ => false

def Dst.isWide (k : Kind) : Dst → Bool
  | .ch n => k.wideCh n
  | _ => false

/-- d0 to d7, c0 or c1. -/
def Dst.isReg : Dst → Bool
  | .d _ | .c0 | .c1 => true
  | _ => false

/-- A destination that takes a 64-bit value: legal, and no wide channel. -/
def Dst.narrow (k : Kind) (d : Dst) : Bool := d.legal k && !d.isWide k

def Dst.narrowCh (k : Kind) (d : Dst) : Bool := d.isCh && !d.isWide k

def Dst.narrowChOrNone (k : Kind) (d : Dst) : Bool := d.narrowCh k || d == .none

/-- A destination of an instruction whose entry names no limit but a narrow one: the fan too (spec 04 R71). -/
def Dst.ackDst (k : Kind) (d : Dst) : Bool := d.narrowChOrNone k || d == .fan

/-- A register of the kind, or a narrow channel. -/
def Dst.regOrNarrowCh (k : Kind) (d : Dst) : Bool := (d.isReg && d.legal k) || d.narrowCh k

/-- pmode 01 (spec 04 R65). -/
def PUpd.isResult : PUpd → Bool
  | .result _ => true
  | _ => false

/-- Two operand channels have one width; a register, `zero` or `none` fits either (spec 04 R72, 09 R139). -/
def sameWidth (k : Kind) (s : Src) (d : Dst) : Bool :=
  match s, d with
  | .ch a, .ch b => k.wideCh a == k.wideCh b
  | _, _ => true

def sameWidthSrc (k : Kind) (s t : Src) : Bool :=
  match s, t with
  | .ch a, .ch b => k.wideCh a == k.wideCh b
  | _, _ => true

/-- The rules of the R-form that hold for every instruction: the selectors are legal, an output tag needs a channel or fan
(spec 04 R65), and peek needs a source channel (R66). -/
def RAct.base (k : Kind) (r : RAct) : Bool :=
  r.dst.legal k && r.sa.legal k && r.sb.legal k &&
  (r.otag == .data || r.dst.isCh || r.dst == .fan) &&
  (!r.peek || r.sa.isCh || r.sb.isCh)

/-- An R-form action all of whose operands are narrow. -/
def RAct.narrow (k : Kind) (r : RAct) : Bool :=
  r.base k && r.dst.narrow k && !r.sa.isWide k && !r.sb.isWide k

def RAct.noSb (r : RAct) : Bool := r.sb == .zero

/-- otag and peek are 0 (spec 13 R215, 18 R325). -/
def RAct.plain (r : RAct) : Bool := r.otag == .data && !r.peek

def IAct.base (k : Kind) (i : IAct) : Bool := i.dst.narrow k && i.sa.narrow k

def Fcs.isZero (x : Fcs) : Bool := !x.f && !x.c && !x.s

/-- The M-form's common rules on CE and LE (spec 13 R225). -/
def MAct.base (k : Kind) (m : MAct) : Bool :=
  (k == .ce || k == .le) && m.dst.narrow k && m.sa.narrow k && m.sb.narrow k

def AtomOp.usesFcs : AtomOp → Bool
  | .fadd | .fmin | .fmax => true
  | _ => false

def MSize.atomic : MSize → Bool
  | .b4 | .b8 => true
  | _ => false

def MOrd.atomic : MOrd → Bool
  | .plain | .ordered => true
  | _ => false

/-- An integer instruction of the group that compute and function elements both run (spec 09 R151). -/
def wfInt (k : Kind) (r : RAct) : Bool := k.hasRegs && r.narrow k

/-- A lane scan or compaction of the compute element (spec 04 R75). -/
def wfIntCe (k : Kind) (r : RAct) : Bool := k == .ce && r.narrow k

/-- A privileged instruction (spec 18 R325). -/
def wfPriv (k : Kind) (hl : Bool) (r : RAct) : Bool :=
  k == .ce && hl && r.narrow k && r.plain && (r.dst.isCh || r.dst == .none) && !r.upd.isResult

/-- A scratchpad instruction (spec 13 R215). -/
def wfSe (k : Kind) (r : RAct) : Bool := k == .se && r.base k && r.plain && r.sa.narrowCh k

/-- An endpoint instruction in the R-form (spec 13 R231). -/
def wfLe (k : Kind) (r : RAct) : Bool := k == .le && r.narrow k && r.plain

/-- An engine command (spec 13 R235); its completion goes to a channel, to the fan (spec 04 R71), or nowhere. -/
def wfXe (k : Kind) (e : EAct) : Bool :=
  k == .xe && e.dst.ackDst k && e.sa.narrowChOrZero k && e.sb.narrowChOrZero k

/-- The special registers of a kind (spec 09 R148). -/
def Spec.onKind (k : Kind) : Spec → Bool
  | .fpm => k.hasFpm
  | .tcnt => k == .me
  | .wave => k == .ce || k == .le
  | _ => true

/-- Whether the action is legal configuration on the kind; `hl` says that the element stands in a headland plot (spec 04 R78). -/
def Instr.wf (k : Kind) (hl : Bool) : Instr → Bool
  | .nop r => r.dst == .none && r.sa == .zero && r.sb == .zero && r.plain
  | .mov r => r.base k && r.noSb && sameWidth k r.sa r.dst
  | .movi i => i.dst.regOrNarrowCh k && i.sa == .zero
  | .drop r => r.dst == .none && r.plain && r.sa.isCh && (r.sb == .zero || r.sb.isCh)
  | .sel r _ => r.base k && sameWidth k r.sa r.dst && sameWidth k r.sb r.dst && sameWidthSrc k r.sa r.sb
  | .route r => r.base k && r.dst == .fan && r.otag == .data && r.sa.isCh && r.sb.narrow k
  | .eos r a b => r.base k && (r.dst.isCh || r.dst == .fan) && (r.sa.isCh || r.sa == .zero) && r.noSb && r.otag == .data &&
      (k.hasRegs || (!a && !b))
  | .pand _ _ u | .por _ _ u | .pxor _ _ u | .pandn _ _ u => u != .none
  | .cntAdd i => k.hasRegs && (i.dst == .c0 || i.dst == .c1) && (i.sa == .zero || i.sa.isCh)
  | .cntSet i => k.hasRegs && (i.dst == .c0 || i.dst == .c1)
  | .flgRd r => r.narrow k && r.sa == .zero && r.noSb
  | .flgClr i => i.dst == .none && i.sa == .zero && i.imm.extractLsb' 7 5 == 0#5
  | .rest _ => true
  | .barArv _ _ => true
  | .barWch dst sa _ u => dst.narrowChOrNone k && sa.narrow k && !u.isResult
  | .barMem sa _ _ pk => sa.narrow k && (!pk || sa.isCh)
  | .stgAcq dst _ _ _ => dst.regOrNarrowCh k
  | .stgRel sa _ _ _ => sa.narrow k && sa != .zero
  | .tmrRd r _ => r.narrow k && r.sa == .zero && r.noSb
  | .trap i | .brk i => i.dst == .none && i.sa.legal k
  | .specRd dst reg _ => dst.regOrNarrowCh k && reg.onKind k
  | .specWr sa reg _ => sa.narrow k && (reg == .flg || (reg == .fpm && k.hasFpm))
  | .waveNx _ => k == .ce || k == .le
  | .add r _ | .sub r _ | .mul r _ | .shl r _ | .iota r _ => wfInt k r
  | .addi i => k.hasRegs && i.base k
  | .shli i => k.hasRegs && i.base k && i.imm.extractLsb' 6 6 == 0#6
  | .mulh r c | .div r c | .rem r c | .min r c | .max r c | .and r c | .or r c | .xor r c | .andn r c
  | .shr r c | .sar r c | .rot r c | .lea r c | .shuf r c | .bcast r c => wfInt k r && !c.sat
  | .mad r _ => wfInt k r && r.dst.isReg
  | .neg r _ | .abs r _ => wfInt k r && r.noSb
  | .not r c | .clz r c | .ctz r c | .popc r c | .ext r c => wfInt k r && r.noSb && !c.sat
  | .bfe r c => wfInt k r && c.w == .w64 && !c.sat
  | .bfi r c => wfInt k r && c.w == .w64 && !c.sat && r.dst.isReg
  | .cmp r _ => wfInt k r
  | .ccmp r _ => wfInt k r && r.upd.isResult
  | .pack r c => wfInt k r && c.w != .w8
  | .unpk r c => wfInt k r && c.w != .w64 && !c.sat
  | .vred r _ | .vscn r _ => wfIntCe k r
  | .filt r c | .xpnd r c | .hash r c => wfIntCe k r && !c.sat
  | .zpack r c | .zunpk r c => wfIntCe k r && !c.sat && r.noSb && r.dst != .c0 && r.dst != .c1
  | .fadd r _ | .fsub r _ | .fmul r _ | .fmin r _ | .fmax r _ | .fclt r _ | .fcle r _ | .fceq r _ | .fcun r _
  | .fcvt r _ | .fscl r _ | .dropm r _ => wfInt k r
  | .ffma r _ | .q4q r _ => wfInt k r && r.dst.isReg
  | .fabs r _ | .fneg r _ | .fcls r _ | .f2i r _ _ _ | .i2f r _ _ => wfInt k r && r.noSb
  | .frnd r rd _ => wfInt k r && r.noSb && rd != some .sr
  | .fdot r c => wfInt k r && r.dst.isReg && c.fmt != .f64
  | .q4dq r c => wfInt k r && (c.fmt == .f64 || c.fmt == .f32)
  | .rnd r _ => wfInt k r && r.sa == .zero && r.noSb
  | .frcp r _ | .frsq r _ | .fsqrt r _ | .fex2 r _ | .flg2 r _ | .fsin r _ | .fcos r _ | .ftnh r _ | .fsgm r _ | .fslu r _ =>
      k == .fe && r.narrow k && r.noSb
  | .fdiv r _ => k == .fe && r.narrow k
  | .ld m sx => m.base k && (m.dst.isCh || m.dst == .fan || m.dst == .none) && m.sb == .zero && !(sx && m.size == .b8)
  | .st m => m.base k && (m.dst.isCh || m.dst == .none)
  | .amo m op fcs => m.base k && (m.dst.isCh || m.dst == .fan || m.dst == .none) && m.size.atomic && m.ord.atomic &&
      (op.usesFcs || fcs.isZero)
  | .amoCas m => m.base k && (m.dst.isCh || m.dst == .fan || m.dst == .none) && m.size.atomic && m.ord.atomic &&
      (match m.sb with
        | .d n => n.val % 2 == 0
        | .ch _ => true
        | _ => false)
  | .red m op fcs => m.base k && (m.dst.isCh || m.dst == .none) && m.size.atomic && m.ord.atomic && op != .xchg &&
      (op.usesFcs || fcs.isZero)
  | .wfence dst _ => (k == .ce || k == .le) && dst.narrowChOrNone k
  | .mseal dst sa sb => (k == .ce || k == .le) && dst.narrowChOrNone k && sa.narrow k && sb.narrow k
  | .munseal dst sa => (k == .ce || k == .le) && dst.narrowChOrNone k && sa.narrow k
  | .fltRd dst _ => k == .ce && hl && dst.legal k
  | .rpr r _ | .rqWr r | .rqInj r _ | .ctxSv r | .ctxLd r | .tlbInv r _ | .trCtl r | .wpSet r _ | .irq r => wfPriv k hl r
  | .rqRd r | .frz r | .thw r | .cfgRld r | .spareMap r => wfPriv k hl r && r.noSb
  | .polWr r => k == .ce && hl && r.narrow k && r.plain
  | .tileNew r => wfSe k r && r.noSb && r.dst.narrowChOrNone k
  | .tileFree r | .hashSet r | .bankClr r => wfSe k r && r.noSb && r.dst == .none
  | .tileShp r => wfSe k r && r.sb.narrowCh k && r.dst.narrowChOrNone k
  | .tileRd r => wfSe k r && r.sb.narrowChOrZero k && r.dst.isWide k && !r.upd.isResult
  | .tileGat r => wfSe k r && r.sb.narrowCh k && r.dst.isWide k && !r.upd.isResult
  | .tileWr r | .tileSct r | .tileAcc r _ => wfSe k r && r.sb.isWide k && r.dst.narrowChOrNone k && !r.upd.isResult
  | .tileFil r | .tileCpy r => wfSe k r && r.sb.narrowCh k && r.dst.narrowChOrNone k && !r.upd.isResult
  | .tileQry r | .bankRd r => wfSe k r && r.noSb && r.dst.narrowCh k
  | .strmOpn r _ => wfLe k r && r.sa.narrowCh k && r.sb.narrowChOrZero k && r.dst.ackDst k && !r.upd.isResult
  | .strmCls r _ => wfLe k r && r.dst == .none && r.sa == .zero && r.noSb
  | .sbar _ _ => k == .le
  | .strmSt r _ => wfLe k r && r.dst.narrowCh k && r.sa == .zero && r.noSb
  | .tlbPf r => wfLe k r && r.sa.narrowChOrZero k && r.noSb && r.dst.ackDst k && !r.upd.isResult
  | .wpArm r _ mode => wfLe k r && r.dst == .none && (mode == .off || (r.sa.isCh && r.sb.isCh))
  | .cmbFl r => wfLe k r && r.sa == .zero && r.noSb && r.dst.ackDst k && !r.upd.isResult
  | .cpy e | .cpyNd e | .put e | .get e => wfXe k e && e.sb == .zero
  | .cpyIx e | .cpyIs e | .gat e | .sct e | .sctAdd e _ => wfXe k e
  | .rdcTree e _ | .coll e _ => wfXe k e && e.sb == .zero && e.scope == .plot
  | .drillPush e _ => wfXe k e && e.scope == .plot
  | .sig e _ _ => wfXe k e
  | .adPf e _ a b => wfXe k e && e.sb == .zero && e.scope == .plot && (a || b)
  | .mma x => k == .me && (x.sa == .zero || x.sa.isWide k) && (x.sb.isWide k || (x.sb == .zero && x.flow != .row))
  | .accClr x => k == .me && x.sa == .zero && x.dst == .none
  | .accRd x _ => k == .me && x.sa.narrowChOrZero k && x.dst.isCh && !x.upd.isResult
  | .accLd x => k == .me && x.sa.isWide k && x.dst == .none && !x.upd.isResult
  | .accRel x _ => k == .me && x.sa.narrowChOrZero k && (x.dst == .none || x.dst.isWide k)
  | .adInv x => k == .me && x.an == 0 && x.sa.narrowCh k && x.dst.narrowChOrNone k && !x.upd.isResult
  | .meCnt x => k == .me && x.sa == .zero && x.dst.ackDst k
  | .meIdl x => k == .me && x.an == 0 && x.sa.narrowCh k && x.dst.ackDst k
  -- the steps of the device and of the world outside are no configuration
  | .firingBeat _ | .mmaStep _ | .mmaComplete _ | .adapterClose _ _ | .accumulatorRelease _ _ | .releaseBeat _ _
  | .operandPacketFill _ _ | .adapterSliceFill _ _ | .tokenArrive _ _ | .tokenDepart _ _ | .creditReturn _ _
  | .asyncResultVisible _ | .bankGrant _ _ | .streamAccess _ _ | .streamComplete _ _ | .waveEnter _ | .pageWalkComplete _ _
  | .homeAccessPerform _ | .memoryResponse _ | .combineLineTimeout _ _ | .engineAcceptCommand _ | .engineComplete _
  | .treePacketAccept _ | .treeForward _ _ _ | .treeTimeout _ _ _ | .windowContribution _ | .windowRoundEnd _ _ _
  | .windowTimeout _ _ _ | .barrierArrivalCount _ | .watchComplete _ | .watchExpire _ | .fidAssign _ | .launchLf3 _ _ _
  | .launchLf2 _ _ _ | .queueDrain _ _ | .queueAbort _ _ | .siloPurge | .hostReply _ _ | .firmwareUpdate | .firmwareSwitch
  | .attestationRequest | .registerWrite _ _ _ _ | .hostMemoryWrite _ _ _ | .hostMemoryRead _ _ _ | .hostAtomicRequest _ _
  | .drillTakeRecord _ | .drillStep | .signalNode _ _ | .branchNode _ _ | .waitPoll _ _ | .waitTimeout _ _
  | .subgraphStart _ _ | .granaryEnter _ _ | .nodeAgeing _ _ | .launchTimeout _ | .engineNodeDispatch _ _ | .placeSection _ _
  | .jerixLookup _ _ | .translationComplete _ | .preemptSection _ | .parcelFrozen _ | .saveAreaWritten _ | .resumeSection _
  | .configPacket _ _ | .plotStart _ | .killParcelFree _ | .settleScan _ | .sectionRetire _ | .sectionWatchdog _
  | .configRegionError _ | .configReloadDone _ | .memoryError _ _ | .scrubRead _ | .powerThrottle _ _ | .thermalTrip _
  | .dvlLaneFail _ | .linkDown _ | .hbmChannelSpare _ _ | .powerUp | .tracePostCount _ | .postPackageRepair _
  | .headlandConfigurationLoad _ _ _ => false

/-- The input channels that an action names as sources, which must be in IC (spec 04 R72; 15 R264 for the id channel). -/
def Src.chans : Src → List (Fin 4)
  | .ch n => [n]
  | _ => []

def RAct.chans (r : RAct) : List (Fin 4) := r.sa.chans ++ r.sb.chans

def Instr.chans : Instr → List (Fin 4)
  | .nop r | .mov r | .drop r | .sel r _ | .route r | .eos r _ _ | .flgRd r | .tmrRd r _
  | .add r _ | .sub r _ | .mul r _ | .mulh r _ | .mad r _ | .div r _ | .rem r _ | .neg r _ | .abs r _ | .min r _ | .max r _
  | .and r _ | .or r _ | .xor r _ | .andn r _ | .not r _ | .shl r _ | .shr r _ | .sar r _ | .rot r _ | .clz r _ | .ctz r _
  | .popc r _ | .bfe r _ | .bfi r _ | .ext r _ | .lea r _ | .cmp r _ | .ccmp r _ | .iota r _ | .pack r _ | .unpk r _
  | .shuf r _ | .bcast r _ | .vred r _ | .vscn r _ | .filt r _ | .xpnd r _ | .zpack r _ | .zunpk r _ | .hash r _
  | .fadd r _ | .fsub r _ | .fmul r _ | .ffma r _ | .fmin r _ | .fmax r _ | .fabs r _ | .fneg r _ | .fclt r _ | .fcle r _
  | .fceq r _ | .fcun r _ | .fcvt r _ | .f2i r _ _ _ | .i2f r _ _ | .frnd r _ _ | .fscl r _ | .fcls r _ | .fdot r _
  | .q4dq r _ | .q4q r _ | .dropm r _ | .rnd r _ | .frcp r _ | .frsq r _ | .fsqrt r _ | .fex2 r _ | .flg2 r _ | .fsin r _
  | .fcos r _ | .ftnh r _ | .fsgm r _ | .fslu r _ | .fdiv r _
  | .rpr r _ | .rqRd r | .rqWr r | .rqInj r _ | .ctxSv r | .ctxLd r | .tlbInv r _ | .frz r | .thw r | .cfgRld r | .trCtl r
  | .wpSet r _ | .irq r | .spareMap r | .polWr r
  | .tileNew r | .tileFree r | .tileShp r | .tileRd r | .tileWr r | .tileGat r | .tileSct r | .tileAcc r _ | .tileFil r
  | .tileCpy r | .tileQry r | .hashSet r | .bankRd r | .bankClr r
  | .strmOpn r _ | .strmCls r _ | .strmSt r _ | .tlbPf r | .wpArm r _ _ | .cmbFl r => r.chans
  | .movi i | .cntAdd i | .cntSet i | .flgClr i | .trap i | .brk i | .addi i | .shli i => i.sa.chans
  | .barWch _ sa _ _ | .barMem sa _ _ _ | .stgRel sa _ _ _ | .specWr sa _ _ | .munseal _ sa => sa.chans
  | .ld m _ | .st m | .amo m _ _ | .amoCas m | .red m _ _ => m.sa.chans ++ m.sb.chans
  | .mseal _ sa sb => sa.chans ++ sb.chans
  | .cpy e | .cpyNd e | .cpyIx e | .cpyIs e | .gat e | .sct e | .sctAdd e _ | .rdcTree e _ | .coll e _ | .put e | .get e
  | .drillPush e _ | .sig e _ _ | .adPf e _ _ _ => e.sa.chans ++ e.sb.chans
  | .mma x => x.sa.chans ++ x.sb.chans ++ (match x.ids with
      | .i0 => [0]
      | .i1 => [1]
      | _ => [])
  | .accClr x | .accRd x _ | .accLd x | .accRel x _ | .adInv x | .meCnt x | .meIdl x => x.sa.chans
  | _ => []

/-- The destination of an action, `none` where it has none. -/
def Instr.dst : Instr → Dst
  | .nop r | .mov r | .drop r | .sel r _ | .route r | .eos r _ _ | .flgRd r | .tmrRd r _
  | .add r _ | .sub r _ | .mul r _ | .mulh r _ | .mad r _ | .div r _ | .rem r _ | .neg r _ | .abs r _ | .min r _ | .max r _
  | .and r _ | .or r _ | .xor r _ | .andn r _ | .not r _ | .shl r _ | .shr r _ | .sar r _ | .rot r _ | .clz r _ | .ctz r _
  | .popc r _ | .bfe r _ | .bfi r _ | .ext r _ | .lea r _ | .cmp r _ | .ccmp r _ | .iota r _ | .pack r _ | .unpk r _
  | .shuf r _ | .bcast r _ | .vred r _ | .vscn r _ | .filt r _ | .xpnd r _ | .zpack r _ | .zunpk r _ | .hash r _
  | .fadd r _ | .fsub r _ | .fmul r _ | .ffma r _ | .fmin r _ | .fmax r _ | .fabs r _ | .fneg r _ | .fclt r _ | .fcle r _
  | .fceq r _ | .fcun r _ | .fcvt r _ | .f2i r _ _ _ | .i2f r _ _ | .frnd r _ _ | .fscl r _ | .fcls r _ | .fdot r _
  | .q4dq r _ | .q4q r _ | .dropm r _ | .rnd r _ | .frcp r _ | .frsq r _ | .fsqrt r _ | .fex2 r _ | .flg2 r _ | .fsin r _
  | .fcos r _ | .ftnh r _ | .fsgm r _ | .fslu r _ | .fdiv r _
  | .rpr r _ | .rqRd r | .rqWr r | .rqInj r _ | .ctxSv r | .ctxLd r | .tlbInv r _ | .frz r | .thw r | .cfgRld r | .trCtl r
  | .wpSet r _ | .irq r | .spareMap r | .polWr r
  | .tileNew r | .tileFree r | .tileShp r | .tileRd r | .tileWr r | .tileGat r | .tileSct r | .tileAcc r _ | .tileFil r
  | .tileCpy r | .tileQry r | .hashSet r | .bankRd r | .bankClr r
  | .strmOpn r _ | .strmCls r _ | .strmSt r _ | .tlbPf r | .wpArm r _ _ | .cmbFl r => r.dst
  | .movi i | .cntAdd i | .cntSet i | .flgClr i | .trap i | .brk i | .addi i | .shli i => i.dst
  | .barWch dst _ _ _ | .stgAcq dst _ _ _ | .specRd dst _ _ | .wfence dst _ | .mseal dst _ _ | .munseal dst _ | .fltRd dst _ => dst
  | .ld m _ | .st m | .amo m _ _ | .amoCas m | .red m _ _ => m.dst
  | .cpy e | .cpyNd e | .cpyIx e | .cpyIs e | .gat e | .sct e | .sctAdd e _ | .rdcTree e _ | .coll e _ | .put e | .get e
  | .drillPush e _ | .sig e _ _ | .adPf e _ _ _ => e.dst
  | .accClr x | .accRd x _ | .accLd x | .accRel x _ | .adInv x | .meCnt x | .meIdl x => x.dst
  | _ => .none

/-- The widths at which an entry allows its instruction to fire: any, or only 1, or only 8 for `flt.rd`
(spec 09 R140, 13 R215, R231, R235, 15 R264, R267, 18 R325). -/
def Instr.widthOk (w : Width) : Instr → Bool
  | .route _
  | .rpr _ _ | .rqRd _ | .rqWr _ | .rqInj _ _ | .ctxSv _ | .ctxLd _ | .tlbInv _ _ | .frz _ | .thw _ | .cfgRld _ | .trCtl _
  | .wpSet _ _ | .irq _ | .spareMap _ | .polWr _
  | .tileNew _ | .tileFree _ | .tileShp _ | .tileRd _ | .tileWr _ | .tileGat _ | .tileSct _ | .tileAcc _ _ | .tileFil _
  | .tileCpy _ | .tileQry _ | .hashSet _ | .bankRd _ | .bankClr _
  | .strmOpn _ _ | .strmCls _ _ | .sbar _ _ | .strmSt _ _ | .tlbPf _ | .wpArm _ _ _ | .cmbFl _
  | .cpy _ | .cpyNd _ | .cpyIx _ | .cpyIs _ | .gat _ | .sct _ | .sctAdd _ _ | .rdcTree _ _ | .coll _ _ | .put _ | .get _
  | .drillPush _ _ | .sig _ _ _ | .adPf _ _ _ _
  | .mma _ | .accClr _ | .accRd _ _ | .accLd _ | .accRel _ _ | .adInv _ | .meCnt _ | .meIdl _ => w == .w1
  | .fltRd _ _ => w == .w8
  | _ => true

/-- The channel source whose width decides the width of what a fan write carries (spec 04 R72): `mov`, `sel` and `route` carry
their source; `eos` fits either; every other entry writes a narrow value. -/
def fanWidthOk (k : Kind) (fan : BitVec 4) : Instr → Bool
  | .mov r | .route r => r.sa.chans.all (fun n => k.wideCh n == (fan.extractLsb' 2 2 != 0#2))
  | .sel r _ => (r.sa.chans ++ r.sb.chans).all (fun n => k.wideCh n == (fan.extractLsb' 2 2 != 0#2))
  | .eos _ _ _ => true
  | _ => fan.extractLsb' 2 2 == 0#2

/-- The rules of a fan destination under the element's fan mask (spec 04 R64, R72). -/
def fanOk (k : Kind) (fan : BitVec 4) (w : Width) (i : Instr) : Bool :=
  i.dst != .fan ||
  (fan != 0#4 &&
   (!k.hasWide ||
     ((fan.extractLsb' 0 2 == 0#2 || fan.extractLsb' 2 2 == 0#2) &&
      (fan.extractLsb' 2 2 == 0#2 || decide (w.beats ≤ 4)) &&
      fanWidthOk k fan i)))

/-- The trigger's own rules (spec 04 R64). -/
def Trig.wf (k : Kind) (t : Trig) : Bool :=
  (t.test.isNone || t.ic != 0#4) && (t.pv &&& ~~~t.pm) == 0#8 &&
  (!k.hasWide || decide (t.w.beats ≤ 4) || t.ic.extractLsb' 2 2 == 0#2)

/-- A legal slot (spec 04 R81): its trigger, its action and the rules that join them. -/
def Slot.wf (k : Kind) (hl : Bool) (fan : BitVec 4) (s : Slot) : Bool :=
  s.trig.wf k && s.act.wf k hl && s.act.widthOk s.trig.w &&
  s.act.chans.all (fun n => s.trig.ic.getLsbD n.val) &&
  (decide (s.trig.w.beats ≤ 4) || !s.act.dst.isWide k) &&
  fanOk k fan s.trig.w s.act

end Sys2Proof
end

