-- ==== Sys2Proof/Decode.lean ====
section
/-!
DEFINITION. Decoding: total on any bits, refusing by name, and after it the encoder. Opcodes are decoded per element kind
(spec 04 R74 to R80); the forms are those of R66 to R70 and the entries' own; D1 and D2 words are translated first (R83 to R86).
-/

namespace Sys2Proof

/-- Why a word is illegal configuration (spec 04 R81, R83 to R86). -/
inductive Reject
  | reservedOpcode
  | reservedBit
  | reservedCode
  | pkWithoutPmode
  | invalidSlotNotZero
  | widthCode
  | tagTestFields
  | illegalTrigger
  | illegalAction
  | illegalSlot
  | generation
  | slotBeyondGeneration
  | tooShort
  deriving DecidableEq, Repr

namespace Dec

/-! ### Fields -/

/-- The source a selector code names (spec 04 R71). -/
def src (b : BitVec 4) : Src :=
  if h : b.toNat < 8 then .d ⟨b.toNat, h⟩
  else if b.toNat < 12 then .ch (Fin.ofNat 4 (b.toNat - 8))
  else if b.toNat = 12 then .zero
  else if b.toNat = 13 then .c0
  else if b.toNat = 14 then .c1
  else .k

/-- The destination a selector code names (spec 04 R71). -/
def dst (b : BitVec 4) : Dst :=
  if h : b.toNat < 8 then .d ⟨b.toNat, h⟩
  else if b.toNat < 12 then .ch (Fin.ofNat 4 (b.toNat - 8))
  else if b.toNat = 12 then .none
  else if b.toNat = 13 then .c0
  else if b.toNat = 14 then .c1
  else .fan

def fin8 (b : BitVec 3) : Fin 8 := ⟨b.toNat, b.isLt⟩
def fin4 (b : BitVec 2) : Fin 4 := ⟨b.toNat, b.isLt⟩

def otag (b : BitVec 2) : OTag :=
  match b.toNat with
  | 0 => .data
  | 1 => .last
  | 2 => .mark
  | _ => .alt

/-- pmode and pk; pk must be 0 under pmode 00 (spec 04 R65). -/
def upd (mode : BitVec 2) (pk : BitVec 3) : Except Reject PUpd :=
  match mode.toNat with
  | 0 => if pk = 0#3 then .ok .none else .error .pkWithoutPmode
  | 1 => .ok (.result (fin8 pk))
  | 2 => .ok (.one (fin8 pk))
  | _ => .ok (.zero (fin8 pk))

def fcs (b : BitVec 3) : Fcs := ⟨b.getLsbD 2, b.getLsbD 1, b.getLsbD 0⟩

def scope (b : BitVec 2) : Scope :=
  match b.toNat with
  | 0 => .plot
  | 1 => .parcel
  | 2 => .device
  | _ => .system

def size (b : BitVec 2) : MSize :=
  match b.toNat with
  | 0 => .b1
  | 1 => .b2
  | 2 => .b4
  | _ => .b8

def ord (b : BitVec 2) : MOrd :=
  match b.toNat with
  | 0 => .plain
  | 1 => .ordered
  | 2 => .nonTemporal
  | _ => .fineGrain

def laneW (b : BitVec 2) : LaneW :=
  match b.toNat with
  | 0 => .w64
  | 1 => .w32
  | 2 => .w16
  | _ => .w8

def fpFmt (b : BitVec 2) : FpFmt :=
  match b.toNat with
  | 0 => .f64
  | 1 => .f32
  | 2 => .bf16
  | _ => .f16

def cond (b : BitVec 2) : Cond :=
  match b.toNat with
  | 0 => .eq
  | 1 => .ne
  | 2 => .lt
  | _ => .le

/-- The atomic operation of an aop code; 12 to 15 are reserved (spec 16 R289). -/
def atomOp (b : BitVec 4) : Except Reject AtomOp :=
  match b.toNat with
  | 0 => .ok .add
  | 1 => .ok .min
  | 2 => .ok .max
  | 3 => .ok .minn
  | 4 => .ok .maxn
  | 5 => .ok .and
  | 6 => .ok .or
  | 7 => .ok .xor
  | 8 => .ok .xchg
  | 9 => .ok .fadd
  | 10 => .ok .fmin
  | 11 => .ok .fmax
  | _ => .error .reservedCode

def tag (b : BitVec 3) : Tag :=
  match b.toNat with
  | 0 => .data
  | 1 => .last
  | 2 => .hdr
  | 3 => .eor
  | 4 => .fault
  | 5 => .psum
  | 6 => .mark
  | _ => .alt

def specReg (b : BitVec 12) : Except Reject Spec :=
  match b.toNat with
  | 0 => .ok .flg
  | 1 => .ok .fpm
  | 2 => .ok .pix
  | 3 => .ok .ws
  | 4 => .ok .eid
  | 5 => .ok .pxy
  | 6 => .ok .tcnt
  | 7 => .ok .pptr
  | 8 => .ok .wave
  | _ => .error .reservedCode

/-! ### Forms -/

def fm (w : BitVec 32) : BitVec 5 := w.extractLsb' 0 5
def imm (w : BitVec 32) : BitVec 12 := w.extractLsb' 5 12
def selDst (w : BitVec 32) : BitVec 4 := w.extractLsb' 21 4
def selSa (w : BitVec 32) : BitVec 4 := w.extractLsb' 17 4
def selSb (w : BitVec 32) : BitVec 4 := w.extractLsb' 13 4

/-- A check that refuses under a name, and then goes on. -/
def guard {α : Type} (b : Bool) (r : Reject) (x : Except Reject α) : Except Reject α := if b then x else .error r

/-- The R-form with every selector read as such (spec 04 R66). -/
def rForm (w : BitVec 32) (f : RAct → Except Reject Instr) : Except Reject Instr :=
  match upd (w.extractLsb' 9 2) (w.extractLsb' 6 3) with
  | .error e => .error e
  | .ok u => f { dst := dst (selDst w), sa := src (selSa w), sb := src (selSb w), otag := otag (w.extractLsb' 11 2), upd := u,
                 peek := w.getLsbD 5 }

/-- The R-form with fm = 0. -/
def rPlain (w : BitVec 32) (f : RAct → Instr) : Except Reject Instr :=
  rForm w fun r => guard (fm w == 0#5) .reservedBit (.ok (f r))

/-- The R-form of the integer class: fm[0] is reserved (spec 04 R73). -/
def rInt (w : BitVec 32) (f : RAct → IntCtl → Instr) : Except Reject Instr :=
  rForm w fun r => guard (!w.getLsbD 0) .reservedBit
    (.ok (f r ⟨laneW (w.extractLsb' 3 2), w.getLsbD 2, w.getLsbD 1⟩))

def rCmp (w : BitVec 32) (f : RAct → CmpCtl → Instr) : Except Reject Instr :=
  rForm w fun r => .ok (f r ⟨laneW (w.extractLsb' 3 2), w.getLsbD 2, cond (w.extractLsb' 0 2)⟩)

/-- The R-form of the floating-point class (spec 04 R73). -/
def rFp (w : BitVec 32) (f : RAct → FpCtl → Instr) : Except Reject Instr :=
  rForm w fun r => .ok (f r ⟨fpFmt (w.extractLsb' 3 2), fcs (w.extractLsb' 0 3)⟩)

/-- The R-form of `f2i`, `i2f` and `frnd`, whose sb field holds bits (spec 10 R171 to R173). -/
def rBits (w : BitVec 32) (f : RAct → BitVec 4 → FpCtl → Except Reject Instr) : Except Reject Instr :=
  rForm w fun r => f { r with sb := .zero } (selSb w) ⟨fpFmt (w.extractLsb' 3 2), fcs (w.extractLsb' 0 3)⟩

/-- The R-form with FCS in fm[2:0] and no format (`fcvt`, `tile.acc`). -/
def rFcs (w : BitVec 32) (f : RAct → Fcs → Instr) : Except Reject Instr :=
  rForm w fun r => guard (w.extractLsb' 3 2 == 0#2) .reservedBit (.ok (f r (fcs (w.extractLsb' 0 3))))

/-- The R-form with a three-bit number in fm[2:0]. -/
def rNum (w : BitVec 32) (f : RAct → Fin 8 → Instr) : Except Reject Instr :=
  rForm w fun r => guard (w.extractLsb' 3 2 == 0#2) .reservedBit (.ok (f r (fin8 (w.extractLsb' 0 3))))

def iForm (w : BitVec 32) (f : IAct → Except Reject Instr) : Except Reject Instr :=
  match upd (w.extractLsb' 3 2) (w.extractLsb' 0 3) with
  | .error e => .error e
  | .ok u => f { dst := dst (selDst w), sa := src (selSa w), imm := imm w, upd := u }

def iPlain (w : BitVec 32) (f : IAct → Instr) : Except Reject Instr := iForm w fun i => .ok (f i)

/-- A predicate instruction: sa and sb hold predicate numbers, dst is 12, otag, peek and fm are 0 (spec 04 R71, 09 R142). -/
def pForm (w : BitVec 32) (f : Fin 8 → Fin 8 → PUpd → Instr) : Except Reject Instr :=
  rForm w fun r =>
    guard (r.dst == .none && r.plain && fm w == 0#5) .reservedBit
      (guard (decide ((selSa w).toNat < 8) && decide ((selSb w).toNat < 8)) .reservedCode
        (.ok (f (fin8 ((selSa w).setWidth 3)) (fin8 ((selSb w).setWidth 3)) r.upd)))

def mAct (w : BitVec 32) : MAct :=
  { dst := dst (selDst w), sa := src (selSa w), sb := src (selSb w), size := size (w.extractLsb' 11 2),
    ord := ord (w.extractLsb' 9 2), scope := scope (w.extractLsb' 7 2) }

def eAct (w : BitVec 32) : EAct :=
  { dst := dst (selDst w), sa := src (selSa w), sb := src (selSb w), scope := scope (w.extractLsb' 11 2) }

/-- An engine command whose defined flags lie under `mask` (spec 04 R69). -/
def eForm (w : BitVec 32) (mask : BitVec 11) (x : Except Reject Instr) : Except Reject Instr :=
  guard ((w.extractLsb' 0 11 &&& ~~~mask) == 0#11) .reservedBit x

/-- An X-form action other than `mma`: df, ad, ids and tb are 0, and so is FCS unless the entry uses it (spec 04 R70, 15 R267). -/
def xForm (w : BitVec 32) (useFcs : Bool) (f : XAct → Fcs → Instr) : Except Reject Instr :=
  guard (w.extractLsb' 23 2 == 0#2 && w.extractLsb' 10 3 == 0#3 && w.extractLsb' 3 2 == 0#2) .reservedBit
    (guard (useFcs || w.extractLsb' 0 3 == 0#3) .reservedBit
      (match upd (w.extractLsb' 8 2) (w.extractLsb' 5 3) with
        | .error e => .error e
        | .ok u => .ok (f { an := fin4 (w.extractLsb' 21 2), sa := src (selSa w), dst := dst (selSb w), upd := u }
                         (fcs (w.extractLsb' 0 3)))))

def mmaForm (w : BitVec 32) : Except Reject Instr :=
  guard (!w.getLsbD 3) .reservedBit
    (guard (w.getLsbD 12 == (w.extractLsb' 10 2 != 0#2)) .reservedCode
      (match upd (w.extractLsb' 8 2) (w.extractLsb' 5 3) with
        | .error e => .error e
        | .ok u =>
          let x : MmaAct :=
            { flow := .inner, an := fin4 (w.extractLsb' 21 2), sa := src (selSa w), sb := src (selSb w),
              ids := (match (w.extractLsb' 10 2).toNat with
                | 0 => .none
                | 1 => .i0
                | 2 => .i1
                | _ => .rows),
              upd := u, tb := w.getLsbD 4, fcs := fcs (w.extractLsb' 0 3) }
          match (w.extractLsb' 23 2).toNat with
          | 0 => .ok (.mma x)
          | 1 => .ok (.mma { x with flow := .outer })
          | 2 => .ok (.mma { x with flow := .row })
          | _ => .error .reservedCode))

/-- A barrier or ring number in imm12: the bits above it are 0. -/
def immLow (w : BitVec 32) (n : Nat) : Bool := (imm w) >>> n == 0#12

/-! ### The opcode map (spec 04 R74 to R80) -/

/-- Opcodes 0x00 to 0x1A, on every kind (spec 04 R74). -/
def common (op : Nat) (w : BitVec 32) : Except Reject Instr :=
  match op with
  | 0x00 => rPlain w .nop
  | 0x01 => rPlain w .mov
  | 0x02 => iPlain w .movi
  | 0x03 => rPlain w .drop
  | 0x04 => pForm w .pand
  | 0x05 => pForm w .por
  | 0x06 => pForm w .pxor
  | 0x07 => pForm w .pandn
  | 0x08 => rForm w fun r => guard (w.extractLsb' 2 3 == 0#3) .reservedBit (.ok (.eos r (w.getLsbD 0) (w.getLsbD 1)))
  | 0x09 => rPlain w .route
  | 0x0A => rNum w fun r n => .sel r n
  | 0x0B => iPlain w .cntAdd
  | 0x0C => iPlain w .cntSet
  | 0x0D => rPlain w .flgRd
  | 0x0E => iPlain w .flgClr
  | 0x0F => rForm w fun r =>
      guard (r.dst == .none && r.sa == .zero && r.sb == .zero && r.plain && fm w == 0#5) .reservedBit (.ok (.rest r.upd))
  | 0x10 => iForm w fun i => guard (i.dst == .none && i.sa == .zero && immLow w 5) .reservedBit
      (.ok (.barArv (Fin.ofNat 32 (imm w).toNat) i.upd))
  | 0x11 => iForm w fun i => guard (immLow w 5) .reservedBit (.ok (.barWch i.dst i.sa (Fin.ofNat 32 (imm w).toNat) i.upd))
  | 0x12 => rForm w fun r => guard (r.dst == .none && r.sb == .zero && r.otag == .data) .reservedBit
      (.ok (.barMem r.sa (Fin.ofNat 32 (fm w).toNat) r.upd r.peek))
  | 0x13 => iForm w fun i => guard (i.sa == .zero && immLow w 4) .reservedBit
      (.ok (.stgAcq i.dst (Fin.ofNat 8 (imm w).toNat) (if (imm w).getLsbD 3 then .consumer else .producer) i.upd))
  | 0x14 => iForm w fun i => guard (i.dst == .none && immLow w 4) .reservedBit
      (.ok (.stgRel i.sa (Fin.ofNat 8 (imm w).toNat) (if (imm w).getLsbD 3 then .consumer else .producer) i.upd))
  | 0x15 => rForm w fun r => guard (w.extractLsb' 1 4 == 0#4) .reservedCode (.ok (.tmrRd r (if w.getLsbD 0 then .cyc else .ts)))
  | 0x16 => iPlain w .trap
  | 0x17 => iPlain w .brk
  | 0x18 => iForm w fun i => guard (i.sa == .zero) .reservedBit
      (match specReg (imm w) with
        | .error e => .error e
        | .ok s => .ok (.specRd i.dst s i.upd))
  | 0x19 => iForm w fun i => guard (i.dst == .none) .reservedBit
      (match specReg (imm w) with
        | .error e => .error e
        | .ok s => .ok (.specWr i.sa s i.upd))
  | 0x1A => iForm w fun i => guard (i.dst == .none && i.sa == .zero && imm w == 0#12) .reservedBit (.ok (.waveNx i.upd))
  | _ => .error .reservedOpcode

/-- Opcodes 0x20 to 0x66 of compute and function elements (spec 04 R75, R76). -/
def arith (op : Nat) (w : BitVec 32) : Except Reject Instr :=
  match op with
  | 0x20 => rInt w .add
  | 0x21 => rInt w .sub
  | 0x22 => iPlain w .addi
  | 0x23 => rInt w .mul
  | 0x24 => rInt w .mulh
  | 0x25 => rInt w .mad
  | 0x26 => rInt w .div
  | 0x27 => rInt w .rem
  | 0x28 => rInt w .neg
  | 0x29 => rInt w .abs
  | 0x2A => rInt w .min
  | 0x2B => rInt w .max
  | 0x2C => rInt w .and
  | 0x2D => rInt w .or
  | 0x2E => rInt w .xor
  | 0x2F => rInt w .andn
  | 0x30 => rInt w .not
  | 0x31 => rInt w .shl
  | 0x32 => rInt w .shr
  | 0x33 => rInt w .sar
  | 0x34 => rInt w .rot
  | 0x35 => iPlain w .shli
  | 0x36 => rInt w .clz
  | 0x37 => rInt w .ctz
  | 0x38 => rInt w .popc
  | 0x39 => rInt w .bfe
  | 0x3A => rInt w .bfi
  | 0x3B => rInt w .ext
  | 0x3C => rInt w .lea
  | 0x3D => rCmp w .cmp
  | 0x3E => rCmp w .ccmp
  | 0x3F => rInt w .iota
  | 0x40 => rInt w .pack
  | 0x41 => rInt w .unpk
  | 0x42 => rInt w .shuf
  | 0x43 => rInt w .bcast
  | 0x44 => rInt w .vred
  | 0x45 => rInt w .vscn
  | 0x46 => rInt w .filt
  | 0x47 => rInt w .xpnd
  | 0x48 => rInt w .zpack
  | 0x49 => rInt w .zunpk
  | 0x4A => rInt w .hash
  | 0x50 => rFp w .fadd
  | 0x51 => rFp w .fsub
  | 0x52 => rFp w .fmul
  | 0x53 => rFp w .ffma
  | 0x54 => rFp w .fmin
  | 0x55 => rFp w .fmax
  | 0x56 => rFp w .fabs
  | 0x57 => rFp w .fneg
  | 0x58 => rFp w .fclt
  | 0x59 => rFp w .fcle
  | 0x5A => rFp w .fceq
  | 0x5B => rFp w .fcun
  | 0x5C => rFcs w .fcvt
  | 0x5D => rBits w fun r b c => guard (b.extractLsb' 0 2 == 0#2) .reservedBit (.ok (.f2i r (b.getLsbD 3) (b.getLsbD 2) c))
  | 0x5E => rBits w fun r b c => guard (b.extractLsb' 0 3 == 0#3) .reservedBit (.ok (.i2f r (b.getLsbD 3) c))
  | 0x5F => rBits w fun r b c =>
      if b.getLsbD 3 then
        match (b.extractLsb' 0 3).toNat with
        | 0 => .ok (.frnd r (some .rne) c)
        | 1 => .ok (.frnd r (some .rtz) c)
        | 2 => .ok (.frnd r (some .rdn) c)
        | 3 => .ok (.frnd r (some .rup) c)
        | 5 => .ok (.frnd r (some .rna) c)
        | _ => .error .reservedCode
      else guard (b.extractLsb' 0 3 == 0#3) .reservedBit (.ok (.frnd r none c))
  | 0x60 => rFp w .fscl
  | 0x61 => rFp w .fcls
  | 0x62 => rFp w .fdot
  | 0x63 => rFp w .q4dq
  | 0x64 => rFp w .q4q
  | 0x65 => rFp w .dropm
  | 0x66 => rFp w .rnd
  | _ => .error .reservedOpcode

/-- Opcodes 0x68 to 0x6F of compute elements and load-store endpoints (spec 04 R77, 13 R225, 16 R288). -/
def memory (op : Nat) (w : BitVec 32) : Except Reject Instr :=
  let m := mAct w
  let aop := w.extractLsb' 3 4
  let bare := w.extractLsb' 9 4 == 0#4 && w.extractLsb' 0 7 == 0#7
  match op with
  | 0x68 => guard (w.extractLsb' 0 6 == 0#6) .reservedBit (.ok (.ld m (w.getLsbD 6)))
  | 0x69 => guard (w.extractLsb' 0 7 == 0#7) .reservedBit (.ok (.st m))
  | 0x6A => match atomOp aop with
      | .error e => .error e
      | .ok o => .ok (.amo m o (fcs (w.extractLsb' 0 3)))
  | 0x6B => guard (w.extractLsb' 0 7 == 0#7) .reservedBit (.ok (.amoCas m))
  | 0x6C => match atomOp aop with
      | .error e => .error e
      | .ok o => .ok (.red m o (fcs (w.extractLsb' 0 3)))
  | 0x6D => guard (bare && m.sa == .zero && m.sb == .zero) .reservedBit (.ok (.wfence m.dst m.scope))
  | 0x6E => guard (bare && m.scope == .plot) .reservedBit (.ok (.mseal m.dst m.sa m.sb))
  | 0x6F => guard (bare && m.scope == .plot && m.sb == .zero) .reservedBit (.ok (.munseal m.dst m.sa))
  | _ => .error .reservedOpcode

/-- Opcodes 0x70 to 0x7F of a headland compute element (spec 04 R78, 18 R326). -/
def privileged (op : Nat) (w : BitVec 32) : Except Reject Instr :=
  match op with
  | 0x70 => rForm w fun r => guard (r.sa == .zero && r.sb == .zero && r.plain && fm w == 0#5) .reservedBit (.ok (.fltRd r.dst r.upd))
  | 0x71 => rForm w fun r => guard (w.extractLsb' 2 3 == 0#3) .reservedBit
      (.ok (.rpr r (match (w.extractLsb' 0 2).toNat with
        | 0 => .resume
        | 1 => .retry
        | 2 => .subst
        | _ => .kill)))
  | 0x72 => rPlain w .rqRd
  | 0x73 => rPlain w .rqWr
  | 0x74 => rForm w fun r => guard (w.extractLsb' 1 4 == 0#4) .reservedBit (.ok (.rqInj r (w.getLsbD 0)))
  | 0x75 => rPlain w .ctxSv
  | 0x76 => rPlain w .ctxLd
  | 0x77 => rForm w fun r => guard (w.extractLsb' 2 3 == 0#3) .reservedBit
      (match (w.extractLsb' 0 2).toNat with
        | 0 => .ok (.tlbInv r .all)
        | 1 => .ok (.tlbInv r .page)
        | 2 => .ok (.tlbInv r .die)
        | _ => .error .reservedCode)
  | 0x78 => rPlain w .frz
  | 0x79 => rPlain w .thw
  | 0x7A => rPlain w .cfgRld
  | 0x7B => rPlain w .trCtl
  | 0x7C => rNum w fun r n => .wpSet r n
  | 0x7D => rPlain w .irq
  | 0x7E => rPlain w .spareMap
  | 0x7F => rPlain w .polWr
  | _ => .error .reservedOpcode

/-- Opcodes 0x70 to 0x7A of a function element (spec 04 R79). -/
def special (op : Nat) (w : BitVec 32) : Except Reject Instr :=
  match op with
  | 0x70 => rFp w .frcp
  | 0x71 => rFp w .frsq
  | 0x72 => rFp w .fsqrt
  | 0x73 => rFp w .fex2
  | 0x74 => rFp w .flg2
  | 0x75 => rFp w .fsin
  | 0x76 => rFp w .fcos
  | 0x77 => rFp w .ftnh
  | 0x78 => rFp w .fsgm
  | 0x79 => rFp w .fslu
  | 0x7A => rFp w .fdiv
  | _ => .error .reservedOpcode

/-- The scratchpad element's opcodes (spec 04 R80, 13 R216). -/
def scratch (op : Nat) (w : BitVec 32) : Except Reject Instr :=
  match op with
  | 0x20 => rPlain w .tileNew
  | 0x21 => rPlain w .tileFree
  | 0x22 => rPlain w .tileShp
  | 0x23 => rPlain w .tileRd
  | 0x24 => rPlain w .tileWr
  | 0x25 => rPlain w .tileGat
  | 0x26 => rPlain w .tileSct
  | 0x27 => rFcs w .tileAcc
  | 0x28 => rPlain w .tileFil
  | 0x29 => rPlain w .tileCpy
  | 0x2A => rPlain w .tileQry
  | 0x2B => rPlain w .hashSet
  | 0x2C => rPlain w .bankRd
  | 0x2D => rPlain w .bankClr
  | _ => .error .reservedOpcode

/-- The load-store endpoint's opcodes (spec 04 R80, 13 R231). -/
def endpoint (op : Nat) (w : BitVec 32) : Except Reject Instr :=
  match op with
  | 0x20 => rNum w fun r n => .strmOpn r n
  | 0x21 => rNum w fun r n => .strmCls r n
  | 0x22 => iForm w fun i => guard (i.dst == .none && i.sa == .zero && immLow w 8) .reservedBit
      (.ok (.sbar ((imm w).setWidth 8) i.upd))
  | 0x23 => rNum w fun r n => .strmSt r n
  | 0x24 => rPlain w .tlbPf
  | 0x25 => rForm w fun r => guard (w.extractLsb' 3 2 == 0#2) .reservedBit
      (.ok (.wpArm r (if w.getLsbD 0 then 1 else 0) (match (w.extractLsb' 1 2).toNat with
        | 0 => .off
        | 1 => .rd
        | 2 => .wr
        | _ => .rw)))
  | 0x26 => rPlain w .cmbFl
  | _ => .error .reservedOpcode

/-- The engine port element's opcodes (spec 04 R80, 13 R236). -/
def engine (op : Nat) (w : BitVec 32) : Except Reject Instr :=
  let e := eAct w
  match op with
  | 0x20 => eForm w 0 (.ok (.cpy e))
  | 0x21 => eForm w 0 (.ok (.cpyNd e))
  | 0x22 => eForm w 0 (.ok (.cpyIx e))
  | 0x23 => eForm w 0 (.ok (.cpyIs e))
  | 0x24 => eForm w 0 (.ok (.gat e))
  | 0x25 => eForm w 0 (.ok (.sct e))
  | 0x26 => eForm w 7 (.ok (.sctAdd e (fcs (w.extractLsb' 0 3))))
  | 0x27 => eForm w 7 (.ok (.rdcTree e (fcs (w.extractLsb' 0 3))))
  | 0x28 => eForm w 7 (.ok (.coll e (fcs (w.extractLsb' 0 3))))
  | 0x29 => eForm w 0 (.ok (.put e))
  | 0x2A => eForm w 0 (.ok (.get e))
  | 0x2B => eForm w 15 (if h : (w.extractLsb' 0 4).toNat < 9 then .ok (.drillPush e ⟨_, h⟩) else .error .reservedCode)
  | 0x2C => eForm w 0x7FF (.ok (.sig e (w.getLsbD 10) (w.extractLsb' 0 10)))
  | 0x2D => eForm w 15 (.ok (.adPf e (fin4 (w.extractLsb' 2 2)) (w.getLsbD 1) (w.getLsbD 0)))
  | _ => .error .reservedOpcode

/-- The matrix element's opcodes (spec 04 R80, 15 R264, R268, R273, R278). -/
def matrix (op : Nat) (w : BitVec 32) : Except Reject Instr :=
  match op with
  | 0x20 => mmaForm w
  | 0x21 => xForm w false fun x _ => .accClr x
  | 0x22 => xForm w true .accRd
  | 0x23 => xForm w false fun x _ => .accLd x
  | 0x24 => xForm w true .accRel
  | 0x25 => xForm w false fun x _ => .adInv x
  | 0x26 => xForm w false fun x _ => .meCnt x
  | 0x27 => xForm w false fun x _ => .meIdl x
  | _ => .error .reservedOpcode

/-- The opcode map: which table a kind reads an opcode in (spec 04 R74 to R80). -/
def byKind (k : Kind) (hl : Bool) (op : Nat) (w : BitVec 32) : Except Reject Instr :=
  if op < 0x20 then common op w
  else match k with
    | .ce => if op < 0x68 then arith op w else if op < 0x70 then memory op w else if hl then privileged op w else .error .reservedOpcode
    | .fe => if op < 0x44 || (0x50 ≤ op && op < 0x68) then arith op w else if 0x70 ≤ op then special op w else .error .reservedOpcode
    | .se => scratch op w
    | .le => if op < 0x68 then endpoint op w else memory op w
    | .xe => engine op w
    | .me => matrix op w

end Dec

/-- The action of an action word on an element of kind k (spec 04 R65 to R81). -/
def decodeAction (k : Kind) (hl : Bool) (w : BitVec 32) : Except Reject Instr :=
  match Dec.byKind k hl (w.extractLsb' 25 7).toNat w with
  | .error e => .error e
  | .ok i => if i.wf k hl then .ok i else .error .illegalAction

/-- The trigger of a trigger word whose V is 1 (spec 04 R63). -/
def decodeTrig (w : BitVec 32) : Except Reject Trig :=
  let t (wd : Width) : Except Reject Trig :=
    if w.getLsbD 20 || w.extractLsb' 16 4 == 0#4 then
      .ok { pc := Dec.fin4 (w.extractLsb' 28 2), w := wd, ic := w.extractLsb' 21 4,
            test := if w.getLsbD 20 then some ⟨w.getLsbD 19, Dec.tag (w.extractLsb' 16 3)⟩ else none,
            pm := w.extractLsb' 8 8, pv := w.extractLsb' 0 8 }
    else .error .tagTestFields
  if w.getLsbD 30 then .error .reservedBit
  else match (w.extractLsb' 25 3).toNat with
    | 0 => t .w1
    | 1 => t .w2
    | 2 => t .w4
    | 3 => t .w8
    | 4 => t .w16
    | _ => .error .widthCode

/-- The slot of a D3 slot word: none when V = 0 and every other bit is 0 (spec 04 R63, R81). -/
def decodeSlot (k : Kind) (hl : Bool) (fan : BitVec 4) (w : BitVec 64) : Except Reject (Option Slot) :=
  if w.getLsbD 63 then
    match decodeTrig (w.extractLsb' 32 32), decodeAction k hl (w.extractLsb' 0 32) with
    | .error e, _ => .error e
    | .ok _, .error e => .error e
    | .ok t, .ok a =>
      let s : Slot := ⟨t, a⟩
      if !t.wf k then .error .illegalTrigger
      else if s.wf k hl fan then .ok (some s) else .error .illegalSlot
  else if w = 0#64 then .ok none else .error .invalidSlotNotZero

/-! ### Earlier generations (spec 04 R83 to R86) -/

/-- The generation of a kernel (spec 03 R47). -/
inductive Gen
  | d1 | d2 | d3
  deriving DecidableEq, Repr

/-- The slots of an element of each generation (spec 03 R50). -/
def Gen.slots : Gen → Nat
  | .d1 => 8
  | .d2 => 12
  | .d3 => 16

/-- The D3 trigger word of a D2 trigger word (spec 04 R83): PC := 3, W, IC, TE and TV move, TN := 0, six predicates. -/
def trigD2 (t : BitVec 32) : Except Reject (BitVec 32) :=
  if t.getLsbD 30 || t.getLsbD 18 || t.extractLsb' 0 6 != 0#6 || decide (3 < (t.extractLsb' 27 3).toNat) then .error .generation
  else .ok (t.extractLsb' 31 1 ++ 0#1 ++ 3#2 ++ t.extractLsb' 27 3 ++ t.extractLsb' 23 4 ++ t.extractLsb' 22 1 ++ 0#1 ++
    t.extractLsb' 19 3 ++ (0#2 ++ t.extractLsb' 12 6) ++ (0#2 ++ t.extractLsb' 6 6))

/-- The D3 trigger word of a D1 trigger word (spec 04 R84). -/
def trigD1 (t : BitVec 32) : Except Reject (BitVec 32) :=
  if t.extractLsb' 16 5 != 0#5 || t.extractLsb' 0 8 != 0#8 || t.extractLsb' 29 2 == 3#2 then .error .generation
  else .ok (t.extractLsb' 31 1 ++ 0#1 ++ 3#2 ++ (0#1 ++ t.extractLsb' 29 2) ++ t.extractLsb' 25 4 ++ t.extractLsb' 24 1 ++ 0#1 ++
    t.extractLsb' 21 3 ++ (0#4 ++ t.extractLsb' 12 4) ++ (0#4 ++ t.extractLsb' 8 4))

/-- Opcodes that a generation's kernels may not use on a kind (spec 04 R85). -/
def opcodeLater (g : Gen) (k : Kind) (op : Nat) : Bool :=
  let core := k == .ce || k == .fe
  let d2 := (core && (op == 0x48 || op == 0x49 || op == 0x63 || op == 0x64)) ||
    ((k == .ce || k == .le) && (op == 0x6E || op == 0x6F)) ||
    (k == .le && op == 0x25) || (k == .xe && op == 0x2D) || (k == .me && op == 0x25)
  let d1 := d2 || (0x18 ≤ op && op ≤ 0x1A) ||
    (core && ((0x3E ≤ op && op ≤ 0x4A) || (0x60 ≤ op && op ≤ 0x66))) ||
    ((k == .ce || k == .le) && 0x6A ≤ op && op ≤ 0x6F) ||
    (k == .fe && 0x75 ≤ op && op ≤ 0x7A) || (k == .se && 0x25 ≤ op && op ≤ 0x2D) || (k == .le && 0x22 ≤ op && op ≤ 0x26)
  match g with
  | .d1 => d1
  | .d2 => d2
  | .d3 => false

/-- The predicate number that an action writes. -/
def PUpd.num : PUpd → Nat
  | .none => 0
  | .result k | .one k | .zero k => k.val

/-- The predicate update of an action, `none` where its form has no predicate field. -/
def Instr.upd : Instr → PUpd
  | .nop r | .mov r | .drop r | .sel r _ | .route r | .eos r _ _ | .flgRd r | .tmrRd r _
  | .add r _ | .sub r _ | .mul r _ | .mulh r _ | .mad r _ | .div r _ | .rem r _ | .neg r _ | .abs r _ | .min r _ | .max r _
  | .and r _ | .or r _ | .xor r _ | .andn r _ | .not r _ | .shl r _ | .shr r _ | .sar r _ | .rot r _ | .clz r _ | .ctz r _
  | .popc r _ | .bfe r _ | .bfi r _ | .ext r _ | .lea r _ | .cmp r _ | .ccmp r _ | .iota r _ | .pack r _ | .unpk r _
  | .shuf r _ | .bcast r _ | .vred r _ | .vscn r _ | .filt r _ | .xpnd r _ | .zpack r _ | .zunpk r _ | .hash r _
  | .fadd r _ | .fsub r _ | .fmul r _ | .ffma r _ | .fmin r _ | .fmax r _ | .fabs r _ | .fneg r _ | .fclt r _ | .fcle r _
  | .fceq r _ | .fcun r _ | .fcvt r _ | .f2i r _ _ _ | .i2f r _ _ | .frnd r _ _ | .fscl r _ | .fcls r _ | .fdot r _
  | .q4dq r _ | .q4q r _ | .dropm r _ | .rnd r _ | .frcp r _ | .frsq r _ | .fsqrt r _ | .fex2 r _ | .flg2 r _ | .fsin r _
  | .fcos r _ | .ftnh r _ | .fsgm r _ | .fslu r _ | .fdiv r _
  | .rpr r _ | .rqRd r | .rqWr r | .rqInj r _ | .ctxSv r | .ctxLd r | .tlbInv r _ | .frz r | .thw r | .cfgRld r | .trCtl r
  | .wpSet r _ | .irq r | .spareMap r | .polWr r
  | .tileNew r | .tileFree r | .tileShp r | .tileRd r | .tileWr r | .tileGat r | .tileSct r | .tileAcc r _ | .tileFil r
  | .tileCpy r | .tileQry r | .hashSet r | .bankRd r | .bankClr r
  | .strmOpn r _ | .strmCls r _ | .strmSt r _ | .tlbPf r | .wpArm r _ _ | .cmbFl r => r.upd
  | .movi i | .cntAdd i | .cntSet i | .flgClr i | .trap i | .brk i | .addi i | .shli i => i.upd
  | .pand _ _ u | .por _ _ u | .pxor _ _ u | .pandn _ _ u | .rest u | .barArv _ u | .barWch _ _ _ u | .barMem _ _ u _
  | .stgAcq _ _ _ u | .stgRel _ _ _ u | .specRd _ _ u | .specWr _ _ u | .waveNx u | .sbar _ u | .fltRd _ u => u
  | .mma x => x.upd
  | .accClr x | .accRd x _ | .accLd x | .accRel x _ | .adInv x | .meCnt x | .meIdl x => x.upd
  | _ => .none

/-- A word whose X-form df, ad and ids fields a D2 image leaves 0: `mma` becomes OUTER (spec 04 R83). -/
def actD2 (k : Kind) (a : BitVec 32) : Except Reject (BitVec 32) :=
  if k = .me ∧ 0x20 ≤ (a.extractLsb' 25 7).toNat then
    if a.extractLsb' 23 2 != 0#2 || a.extractLsb' 10 3 != 0#3 then .error .generation
    else if (a.extractLsb' 25 7).toNat = 0x20 then .ok (a ||| 0x00800000#32) else .ok a
  else .ok a

/-- Slot n of an element in a kernel of generation g (spec 04 R63, R81 to R85). The tables of R83 and R84 limit the predicate that a word writes and those that its
trigger tests; a source predicate of a form is not limited (log 54). -/
def decodeSlotGen (g : Gen) (k : Kind) (hl : Bool) (fan : BitVec 4) (n : Nat) (w : BitVec 64) : Except Reject (Option Slot) :=
  if g.slots ≤ n then (if w = 0#64 then .ok none else .error .slotBeyondGeneration)
  else if w = 0#64 then .ok none
  else match g with
    | .d3 => decodeSlot k hl fan w
    | _ =>
      if opcodeLater g k (w.extractLsb' 25 7).toNat || (g == .d1 && (k == .xe || k == .me)) then .error .generation
      else
        match (if g = .d1 then trigD1 (w.extractLsb' 32 32) else trigD2 (w.extractLsb' 32 32)),
              (if g = .d2 then actD2 k (w.extractLsb' 0 32) else .ok (w.extractLsb' 0 32)) with
        | .error e, _ => .error e
        | .ok _, .error e => .error e
        | .ok t, .ok a =>
          match decodeSlot k hl fan (t ++ a) with
          | .error e => .error e
          | .ok none => .ok none
          | .ok (some s) =>
            if s.act.upd.num < (if g = .d1 then 4 else 6) &&
               !(g == .d1 && k.hasWide && (s.act.chans.any (fun n => decide (2 ≤ n.val)) || s.act.dst.isWide k)) then .ok (some s)
            else .error .generation

/-- The little-endian word of bytes (spec 02 R25). -/
def leWord : List Byte → Nat
  | [] => 0
  | b :: bs => b.toNat + 256 * leWord bs

/-- Decoding from bytes as an element record holds them: one slot word is eight bytes, little-endian (spec 03 R50). -/
def decodeBytes (k : Kind) (hl : Bool) (fan : BitVec 4) (bs : List Byte) : Except Reject (Option Slot × List Byte) :=
  if bs.length < 8 then .error .tooShort
  else match decodeSlot k hl fan (BitVec.ofNat 64 (leWord (bs.take 8))) with
    | .error e => .error e
    | .ok s => .ok (s, bs.drop 8)

/-! ### The encoder -/

namespace Enc

def src : Src → BitVec 4
  | .d n => BitVec.ofNat 4 n.val
  | .ch n => BitVec.ofNat 4 (8 + n.val)
  | .zero => 12
  | .c0 => 13
  | .c1 => 14
  | .k => 15

def dst : Dst → BitVec 4
  | .d n => BitVec.ofNat 4 n.val
  | .ch n => BitVec.ofNat 4 (8 + n.val)
  | .none => 12
  | .c0 => 13
  | .c1 => 14
  | .fan => 15

def bit (b : Bool) : BitVec 1 := BitVec.ofBool b

def otag : OTag → BitVec 2
  | .data => 0
  | .last => 1
  | .mark => 2
  | .alt => 3

/-- pmode and pk, side by side. -/
def upd : PUpd → BitVec 5
  | .none => 0
  | .result k => 1#2 ++ BitVec.ofNat 3 k.val
  | .one k => 2#2 ++ BitVec.ofNat 3 k.val
  | .zero k => 3#2 ++ BitVec.ofNat 3 k.val

def fcs (x : Fcs) : BitVec 3 := bit x.f ++ bit x.c ++ bit x.s

def scope : Scope → BitVec 2
  | .plot => 0
  | .parcel => 1
  | .device => 2
  | .system => 3

def size : MSize → BitVec 2
  | .b1 => 0
  | .b2 => 1
  | .b4 => 2
  | .b8 => 3

def ord : MOrd → BitVec 2
  | .plain => 0
  | .ordered => 1
  | .nonTemporal => 2
  | .fineGrain => 3

def laneW : LaneW → BitVec 2
  | .w64 => 0
  | .w32 => 1
  | .w16 => 2
  | .w8 => 3

def fpFmt : FpFmt → BitVec 2
  | .f64 => 0
  | .f32 => 1
  | .bf16 => 2
  | .f16 => 3

def cond : Cond → BitVec 2
  | .eq => 0
  | .ne => 1
  | .lt => 2
  | .le => 3

def atomOp : AtomOp → BitVec 4
  | .add => 0
  | .min => 1
  | .max => 2
  | .minn => 3
  | .maxn => 4
  | .and => 5
  | .or => 6
  | .xor => 7
  | .xchg => 8
  | .fadd => 9
  | .fmin => 10
  | .fmax => 11

def tag : Tag → BitVec 3
  | .data => 0
  | .last => 1
  | .hdr => 2
  | .eor => 3
  | .fault => 4
  | .psum => 5
  | .mark => 6
  | .alt => 7

def specReg : Spec → BitVec 12
  | .flg => 0
  | .fpm => 1
  | .pix => 2
  | .ws => 3
  | .eid => 4
  | .pxy => 5
  | .tcnt => 6
  | .pptr => 7
  | .wave => 8

def width : Width → BitVec 3
  | .w1 => 0
  | .w2 => 1
  | .w4 => 2
  | .w8 => 3
  | .w16 => 4

def intCtl (c : IntCtl) : BitVec 5 := laneW c.w ++ bit c.signed ++ bit c.sat ++ 0#1
def cmpCtl (c : CmpCtl) : BitVec 5 := laneW c.w ++ bit c.signed ++ cond c.cond
def fpCtl (c : FpCtl) : BitVec 5 := fpFmt c.fmt ++ fcs c.fcs

/-- The R-form (spec 04 R66). -/
def rWord (op : BitVec 7) (dst sa sb : BitVec 4) (tag : BitVec 2) (u : BitVec 5) (peek : Bool) (fm : BitVec 5) : BitVec 32 :=
  op ++ dst ++ sa ++ sb ++ tag ++ u ++ bit peek ++ fm

def r (op : BitVec 7) (a : RAct) (fm : BitVec 5) : BitVec 32 :=
  rWord op (dst a.dst) (src a.sa) (src a.sb) (otag a.otag) (upd a.upd) a.peek fm

/-- The R-form whose sb field holds bits (spec 10 R171 to R173). -/
def rb (op : BitVec 7) (a : RAct) (b : BitVec 4) (fm : BitVec 5) : BitVec 32 :=
  rWord op (dst a.dst) (src a.sa) b (otag a.otag) (upd a.upd) a.peek fm

/-- The I-form (spec 04 R67). -/
def i (op : BitVec 7) (d : Dst) (sa : Src) (imm : BitVec 12) (u : PUpd) : BitVec 32 := op ++ dst d ++ src sa ++ imm ++ upd u

def ia (op : BitVec 7) (a : IAct) : BitVec 32 := i op a.dst a.sa a.imm a.upd

/-- The M-form (spec 04 R68). -/
def m (op : BitVec 7) (a : MAct) (aop : BitVec 4) (f : BitVec 3) : BitVec 32 :=
  op ++ dst a.dst ++ src a.sa ++ src a.sb ++ size a.size ++ ord a.ord ++ scope a.scope ++ aop ++ f

/-- The E-form (spec 04 R69). -/
def e (op : BitVec 7) (a : EAct) (flags : BitVec 11) : BitVec 32 :=
  op ++ dst a.dst ++ src a.sa ++ src a.sb ++ scope a.scope ++ flags

/-- The X-form of the accumulator and counter instructions (spec 15 R267). -/
def x (op : BitVec 7) (a : XAct) (f : BitVec 3) : BitVec 32 :=
  op ++ 0#2 ++ BitVec.ofNat 2 a.an.val ++ src a.sa ++ dst a.dst ++ 0#3 ++ upd a.upd ++ 0#2 ++ f

def mma (a : MmaAct) : BitVec 32 :=
  0x20#7 ++ (match a.flow with
    | .inner => 0#2
    | .outer => 1#2
    | .row => 2#2) ++ BitVec.ofNat 2 a.an.val ++ src a.sa ++ src a.sb ++
  (match a.ids with
    | .none => 0#3
    | .i0 => 5#3
    | .i1 => 6#3
    | .rows => 7#3) ++ upd a.upd ++ bit a.tb ++ 0#1 ++ fcs a.fcs

/-- A predicate instruction (spec 09 R142). -/
def p (op : BitVec 7) (a b : Fin 8) (u : PUpd) : BitVec 32 :=
  rWord op 12 (BitVec.ofNat 4 a.val) (BitVec.ofNat 4 b.val) 0 (upd u) false 0

def rcode : RCode → BitVec 4
  | .rne => 8
  | .rtz => 9
  | .rdn => 10
  | .rup => 11
  | .sr => 12
  | .rna => 13

def repair : Repair → BitVec 5
  | .resume => 0
  | .retry => 1
  | .subst => 2
  | .kill => 3

def reach : TlbReach → BitVec 5
  | .all => 0
  | .page => 1
  | .die => 2

def wpMode : WpMode → BitVec 2
  | .off => 0
  | .rd => 1
  | .wr => 2
  | .rw => 3

def role : Role → BitVec 1
  | .producer => 0
  | .consumer => 1

/-- fm or imm12 that holds a small number. -/
def num5 (n : Nat) : BitVec 5 := BitVec.ofNat 5 n
def num12 (n : Nat) : BitVec 12 := BitVec.ofNat 12 n

end Enc

/-- The action word of an action; a step of the device has none (spec 04 R65 to R80). -/
def encodeAction : Instr → Option (BitVec 32)
  | .nop a => some (Enc.r 0x00 a 0)
  | .mov a => some (Enc.r 0x01 a 0)
  | .movi a => some (Enc.ia 0x02 a)
  | .drop a => some (Enc.r 0x03 a 0)
  | .sel a n => some (Enc.r 0x0A a (Enc.num5 n.val))
  | .route a => some (Enc.r 0x09 a 0)
  | .eos a c0 c1 => some (Enc.r 0x08 a (0#3 ++ Enc.bit c1 ++ Enc.bit c0))
  | .pand a b u => some (Enc.p 0x04 a b u)
  | .por a b u => some (Enc.p 0x05 a b u)
  | .pxor a b u => some (Enc.p 0x06 a b u)
  | .pandn a b u => some (Enc.p 0x07 a b u)
  | .cntAdd a => some (Enc.ia 0x0B a)
  | .cntSet a => some (Enc.ia 0x0C a)
  | .flgRd a => some (Enc.r 0x0D a 0)
  | .flgClr a => some (Enc.ia 0x0E a)
  | .rest u => some (Enc.rWord 0x0F 12 12 12 0 (Enc.upd u) false 0)
  | .barArv g u => some (Enc.i 0x10 .none .zero (Enc.num12 g.val) u)
  | .barWch d s g u => some (Enc.i 0x11 d s (Enc.num12 g.val) u)
  | .barMem s g u pk => some (Enc.rWord 0x12 12 (Enc.src s) 12 0 (Enc.upd u) pk (Enc.num5 g.val))
  | .stgAcq d n ro u => some (Enc.i 0x13 d .zero (0#8 ++ Enc.role ro ++ BitVec.ofNat 3 n.val) u)
  | .stgRel s n ro u => some (Enc.i 0x14 .none s (0#8 ++ Enc.role ro ++ BitVec.ofNat 3 n.val) u)
  | .tmrRd a t => some (Enc.r 0x15 a (match t with
      | .ts => 0
      | .cyc => 1))
  | .trap a => some (Enc.ia 0x16 a)
  | .brk a => some (Enc.ia 0x17 a)
  | .specRd d s u => some (Enc.i 0x18 d .zero (Enc.specReg s) u)
  | .specWr a s u => some (Enc.i 0x19 .none a (Enc.specReg s) u)
  | .waveNx u => some (Enc.i 0x1A .none .zero 0 u)
  | .add a c => some (Enc.r 0x20 a (Enc.intCtl c))
  | .sub a c => some (Enc.r 0x21 a (Enc.intCtl c))
  | .addi a => some (Enc.ia 0x22 a)
  | .mul a c => some (Enc.r 0x23 a (Enc.intCtl c))
  | .mulh a c => some (Enc.r 0x24 a (Enc.intCtl c))
  | .mad a c => some (Enc.r 0x25 a (Enc.intCtl c))
  | .div a c => some (Enc.r 0x26 a (Enc.intCtl c))
  | .rem a c => some (Enc.r 0x27 a (Enc.intCtl c))
  | .neg a c => some (Enc.r 0x28 a (Enc.intCtl c))
  | .abs a c => some (Enc.r 0x29 a (Enc.intCtl c))
  | .min a c => some (Enc.r 0x2A a (Enc.intCtl c))
  | .max a c => some (Enc.r 0x2B a (Enc.intCtl c))
  | .and a c => some (Enc.r 0x2C a (Enc.intCtl c))
  | .or a c => some (Enc.r 0x2D a (Enc.intCtl c))
  | .xor a c => some (Enc.r 0x2E a (Enc.intCtl c))
  | .andn a c => some (Enc.r 0x2F a (Enc.intCtl c))
  | .not a c => some (Enc.r 0x30 a (Enc.intCtl c))
  | .shl a c => some (Enc.r 0x31 a (Enc.intCtl c))
  | .shr a c => some (Enc.r 0x32 a (Enc.intCtl c))
  | .sar a c => some (Enc.r 0x33 a (Enc.intCtl c))
  | .rot a c => some (Enc.r 0x34 a (Enc.intCtl c))
  | .shli a => some (Enc.ia 0x35 a)
  | .clz a c => some (Enc.r 0x36 a (Enc.intCtl c))
  | .ctz a c => some (Enc.r 0x37 a (Enc.intCtl c))
  | .popc a c => some (Enc.r 0x38 a (Enc.intCtl c))
  | .bfe a c => some (Enc.r 0x39 a (Enc.intCtl c))
  | .bfi a c => some (Enc.r 0x3A a (Enc.intCtl c))
  | .ext a c => some (Enc.r 0x3B a (Enc.intCtl c))
  | .lea a c => some (Enc.r 0x3C a (Enc.intCtl c))
  | .cmp a c => some (Enc.r 0x3D a (Enc.cmpCtl c))
  | .ccmp a c => some (Enc.r 0x3E a (Enc.cmpCtl c))
  | .iota a c => some (Enc.r 0x3F a (Enc.intCtl c))
  | .pack a c => some (Enc.r 0x40 a (Enc.intCtl c))
  | .unpk a c => some (Enc.r 0x41 a (Enc.intCtl c))
  | .shuf a c => some (Enc.r 0x42 a (Enc.intCtl c))
  | .bcast a c => some (Enc.r 0x43 a (Enc.intCtl c))
  | .vred a c => some (Enc.r 0x44 a (Enc.intCtl c))
  | .vscn a c => some (Enc.r 0x45 a (Enc.intCtl c))
  | .filt a c => some (Enc.r 0x46 a (Enc.intCtl c))
  | .xpnd a c => some (Enc.r 0x47 a (Enc.intCtl c))
  | .zpack a c => some (Enc.r 0x48 a (Enc.intCtl c))
  | .zunpk a c => some (Enc.r 0x49 a (Enc.intCtl c))
  | .hash a c => some (Enc.r 0x4A a (Enc.intCtl c))
  | .fadd a c => some (Enc.r 0x50 a (Enc.fpCtl c))
  | .fsub a c => some (Enc.r 0x51 a (Enc.fpCtl c))
  | .fmul a c => some (Enc.r 0x52 a (Enc.fpCtl c))
  | .ffma a c => some (Enc.r 0x53 a (Enc.fpCtl c))
  | .fmin a c => some (Enc.r 0x54 a (Enc.fpCtl c))
  | .fmax a c => some (Enc.r 0x55 a (Enc.fpCtl c))
  | .fabs a c => some (Enc.r 0x56 a (Enc.fpCtl c))
  | .fneg a c => some (Enc.r 0x57 a (Enc.fpCtl c))
  | .fclt a c => some (Enc.r 0x58 a (Enc.fpCtl c))
  | .fcle a c => some (Enc.r 0x59 a (Enc.fpCtl c))
  | .fceq a c => some (Enc.r 0x5A a (Enc.fpCtl c))
  | .fcun a c => some (Enc.r 0x5B a (Enc.fpCtl c))
  | .fcvt a f => some (Enc.r 0x5C a (0#2 ++ Enc.fcs f))
  | .f2i a s t c => some (Enc.rb 0x5D a (Enc.bit s ++ Enc.bit t ++ 0#2) (Enc.fpCtl c))
  | .i2f a s c => some (Enc.rb 0x5E a (Enc.bit s ++ 0#3) (Enc.fpCtl c))
  | .frnd a none c => some (Enc.rb 0x5F a 0 (Enc.fpCtl c))
  | .frnd a (some q) c => some (Enc.rb 0x5F a (Enc.rcode q) (Enc.fpCtl c))
  | .fscl a c => some (Enc.r 0x60 a (Enc.fpCtl c))
  | .fcls a c => some (Enc.r 0x61 a (Enc.fpCtl c))
  | .fdot a c => some (Enc.r 0x62 a (Enc.fpCtl c))
  | .q4dq a c => some (Enc.r 0x63 a (Enc.fpCtl c))
  | .q4q a c => some (Enc.r 0x64 a (Enc.fpCtl c))
  | .dropm a c => some (Enc.r 0x65 a (Enc.fpCtl c))
  | .rnd a c => some (Enc.r 0x66 a (Enc.fpCtl c))
  | .frcp a c => some (Enc.r 0x70 a (Enc.fpCtl c))
  | .frsq a c => some (Enc.r 0x71 a (Enc.fpCtl c))
  | .fsqrt a c => some (Enc.r 0x72 a (Enc.fpCtl c))
  | .fex2 a c => some (Enc.r 0x73 a (Enc.fpCtl c))
  | .flg2 a c => some (Enc.r 0x74 a (Enc.fpCtl c))
  | .fsin a c => some (Enc.r 0x75 a (Enc.fpCtl c))
  | .fcos a c => some (Enc.r 0x76 a (Enc.fpCtl c))
  | .ftnh a c => some (Enc.r 0x77 a (Enc.fpCtl c))
  | .fsgm a c => some (Enc.r 0x78 a (Enc.fpCtl c))
  | .fslu a c => some (Enc.r 0x79 a (Enc.fpCtl c))
  | .fdiv a c => some (Enc.r 0x7A a (Enc.fpCtl c))
  | .ld a sx => some (Enc.m 0x68 a (Enc.bit sx ++ 0#3) 0)
  | .st a => some (Enc.m 0x69 a 0 0)
  | .amo a o f => some (Enc.m 0x6A a (Enc.atomOp o) (Enc.fcs f))
  | .amoCas a => some (Enc.m 0x6B a 0 0)
  | .red a o f => some (Enc.m 0x6C a (Enc.atomOp o) (Enc.fcs f))
  | .wfence d s => some (Enc.m 0x6D ⟨d, .zero, .zero, .b1, .plain, s⟩ 0 0)
  | .mseal d a b => some (Enc.m 0x6E ⟨d, a, b, .b1, .plain, .plot⟩ 0 0)
  | .munseal d a => some (Enc.m 0x6F ⟨d, a, .zero, .b1, .plain, .plot⟩ 0 0)
  | .fltRd d u => some (Enc.rWord 0x70 (Enc.dst d) 12 12 0 (Enc.upd u) false 0)
  | .rpr a q => some (Enc.r 0x71 a (Enc.repair q))
  | .rqRd a => some (Enc.r 0x72 a 0)
  | .rqWr a => some (Enc.r 0x73 a 0)
  | .rqInj a v => some (Enc.r 0x74 a (0#4 ++ Enc.bit v))
  | .ctxSv a => some (Enc.r 0x75 a 0)
  | .ctxLd a => some (Enc.r 0x76 a 0)
  | .tlbInv a q => some (Enc.r 0x77 a (Enc.reach q))
  | .frz a => some (Enc.r 0x78 a 0)
  | .thw a => some (Enc.r 0x79 a 0)
  | .cfgRld a => some (Enc.r 0x7A a 0)
  | .trCtl a => some (Enc.r 0x7B a 0)
  | .wpSet a n => some (Enc.r 0x7C a (Enc.num5 n.val))
  | .irq a => some (Enc.r 0x7D a 0)
  | .spareMap a => some (Enc.r 0x7E a 0)
  | .polWr a => some (Enc.r 0x7F a 0)
  | .tileNew a => some (Enc.r 0x20 a 0)
  | .tileFree a => some (Enc.r 0x21 a 0)
  | .tileShp a => some (Enc.r 0x22 a 0)
  | .tileRd a => some (Enc.r 0x23 a 0)
  | .tileWr a => some (Enc.r 0x24 a 0)
  | .tileGat a => some (Enc.r 0x25 a 0)
  | .tileSct a => some (Enc.r 0x26 a 0)
  | .tileAcc a f => some (Enc.r 0x27 a (0#2 ++ Enc.fcs f))
  | .tileFil a => some (Enc.r 0x28 a 0)
  | .tileCpy a => some (Enc.r 0x29 a 0)
  | .tileQry a => some (Enc.r 0x2A a 0)
  | .hashSet a => some (Enc.r 0x2B a 0)
  | .bankRd a => some (Enc.r 0x2C a 0)
  | .bankClr a => some (Enc.r 0x2D a 0)
  | .strmOpn a n => some (Enc.r 0x20 a (Enc.num5 n.val))
  | .strmCls a n => some (Enc.r 0x21 a (Enc.num5 n.val))
  | .sbar k u => some (Enc.i 0x22 .none .zero (0#4 ++ k) u)
  | .strmSt a n => some (Enc.r 0x23 a (Enc.num5 n.val))
  | .tlbPf a => some (Enc.r 0x24 a 0)
  | .wpArm a n q => some (Enc.r 0x25 a (0#2 ++ Enc.wpMode q ++ BitVec.ofNat 1 n.val))
  | .cmbFl a => some (Enc.r 0x26 a 0)
  | .cpy a => some (Enc.e 0x20 a 0)
  | .cpyNd a => some (Enc.e 0x21 a 0)
  | .cpyIx a => some (Enc.e 0x22 a 0)
  | .cpyIs a => some (Enc.e 0x23 a 0)
  | .gat a => some (Enc.e 0x24 a 0)
  | .sct a => some (Enc.e 0x25 a 0)
  | .sctAdd a f => some (Enc.e 0x26 a (0#8 ++ Enc.fcs f))
  | .rdcTree a f => some (Enc.e 0x27 a (0#8 ++ Enc.fcs f))
  | .coll a f => some (Enc.e 0x28 a (0#8 ++ Enc.fcs f))
  | .put a => some (Enc.e 0x29 a 0)
  | .get a => some (Enc.e 0x2A a 0)
  | .drillPush a n => some (Enc.e 0x2B a (BitVec.ofNat 11 n.val))
  | .sig a ra v => some (Enc.e 0x2C a (Enc.bit ra ++ v))
  | .adPf a n fa fb => some (Enc.e 0x2D a (0#7 ++ BitVec.ofNat 2 n.val ++ Enc.bit fa ++ Enc.bit fb))
  | .mma a => some (Enc.mma a)
  | .accClr a => some (Enc.x 0x21 a 0)
  | .accRd a f => some (Enc.x 0x22 a (Enc.fcs f))
  | .accLd a => some (Enc.x 0x23 a 0)
  | .accRel a f => some (Enc.x 0x24 a (Enc.fcs f))
  | .adInv a => some (Enc.x 0x25 a 0)
  | .meCnt a => some (Enc.x 0x26 a 0)
  | .meIdl a => some (Enc.x 0x27 a 0)
  | _ => none

/-- The trigger word of a trigger, with V = 1 (spec 04 R63). -/
def encodeTrig (t : Trig) : BitVec 32 :=
  1#1 ++ 0#1 ++ BitVec.ofNat 2 t.pc.val ++ Enc.width t.w ++ t.ic ++
  (match t.test with
    | some q => 1#1 ++ Enc.bit q.neg ++ Enc.tag q.tag
    | none => 0#5) ++ t.pm ++ t.pv

/-- The slot word of a slot whose action has a word (spec 04 R63). -/
def encodeSlot (s : Slot) : Option (BitVec 64) :=
  match encodeAction s.act with
  | some a => some (encodeTrig s.trig ++ a)
  | none => none

/-! ### The host's table words -/

/-- The kinds in the order of their `eid` codes (spec 08 R129). -/
def kindOfCode (n : Nat) : Kind :=
  match n with
  | 0 => .ce
  | 1 => .fe
  | 2 => .se
  | 3 => .le
  | 4 => .xe
  | _ => .me

/-- The kind under which a table word is read. The table gives its rows no bits and an opcode means what the element kind makes
of it (spec 04 R74), so a word of at most 32 bits is an action word, tried on CE, FE, SE, LE, XE, ME and a headland CE in
turn; a longer word is a slot word with the kind's code in bits [66:64] and the headland bit in bit 67 (log 12). -/
def tableWord (nbits w : Nat) : Option (Kind × Bool × BitVec 32 × Instr) :=
  let a := BitVec.ofNat 32 w
  let try1 (k : Kind) (hl : Bool) : Option (Kind × Bool × BitVec 32 × Instr) :=
    match decodeAction k hl a with
    | .ok i => some (k, hl, a, i)
    | .error _ => none
  if nbits ≤ 32 then
    (try1 .ce false).orElse fun _ => (try1 .fe false).orElse fun _ => (try1 .se false).orElse fun _ =>
    (try1 .le false).orElse fun _ => (try1 .xe false).orElse fun _ => (try1 .me false).orElse fun _ => try1 .ce true
  else try1 (kindOfCode (w / 2 ^ 64 % 8)) (w / 2 ^ 67 % 2 == 1)

/-- What the decoder reads from a word numbered as the opcode table numbers them. -/
def decodeTableWord (nbits w : Nat) : Option Instr := (tableWord nbits w).map fun x => x.2.2.2

end Sys2Proof
end

