-- ==== Sys2Proof/Machine/Tbl.lean ====
section
/-!
DEFINITION. Finite maps with natural-number keys, kept as association lists in rising key order, and lists used as a fixed number
of like things. They are plain data, so that states can be compared.
-/

namespace Sys2Proof.Machine

/-- A finite map: pairs of key and value, keys strictly rising. -/
abbrev Tbl (α : Type) := List (Nat × α)

/-- The value at a key. -/
def Tbl.find {α : Type} : Tbl α → Nat → Option α
  | [], _ => none
  | (k, v) :: t, n => if n = k then some v else Tbl.find t n

/-- The value at a key, or the given one. -/
def Tbl.findD {α : Type} (t : Tbl α) (n : Nat) (d : α) : α := (Tbl.find t n).getD d

/-- Put a value at a key, keeping the order of keys. -/
def Tbl.put {α : Type} : Tbl α → Nat → α → Tbl α
  | [], n, x => [(n, x)]
  | (k, v) :: t, n, x =>
    if n < k then (n, x) :: (k, v) :: t
    else if n = k then (n, x) :: t
    else (k, v) :: Tbl.put t n x

/-- Remove a key. -/
def Tbl.drop {α : Type} : Tbl α → Nat → Tbl α
  | [], _ => []
  | (k, v) :: t, n => if n = k then t else (k, v) :: Tbl.drop t n

/-- Change the value at a key, if there is one. -/
def Tbl.alter {α : Type} (t : Tbl α) (n : Nat) (f : α → α) : Tbl α :=
  match Tbl.find t n with
  | some v => Tbl.put t n (f v)
  | none => t

/-- The numbers lo, lo + 1, ..., n of them. -/
def upFrom : Nat → Nat → List Nat
  | _, 0 => []
  | lo, n + 1 => lo :: upFrom (lo + 1) n

/-- The first element that meets a test, with its place. -/
def findIdx {α : Type} (p : α → Bool) : Nat → List α → Option (Nat × α)
  | _, [] => none
  | n, x :: xs => if p x then some (n, x) else findIdx p (n + 1) xs

/-- Replace the elements that meet a test. -/
def mapIf {α : Type} (p : α → Bool) (f : α → α) (xs : List α) : List α := xs.map fun x => if p x then f x else x

end Sys2Proof.Machine
end

