-- ==== Sys2Proof/Machine/Bits.lean ====
section
/-!
DEFINITION. Lanes of a 64-bit register, signed and unsigned readings, byte order, and the bits of the sticky flags
(spec 02 R25, R29, R36).
-/

namespace Sys2Proof.Machine

/-- A set of sticky flags, in the layout of `flg` [6:0] (spec 02 R36). -/
abbrev Flags := BitVec 7

def fNV : Flags := 0x01
def fDZ : Flags := 0x02
def fOF : Flags := 0x04
def fUF : Flags := 0x08
def fNX : Flags := 0x10
def fSAT : Flags := 0x20
def fIOV : Flags := 0x40

/-- A flag if a condition holds. -/
def flagIf (b : Bool) (f : Flags) : Flags := if b then f else 0

/-- The bits of a lane width (spec 09 R151). -/
def laneBits : LaneW → Nat
  | .w64 => 64
  | .w32 => 32
  | .w16 => 16
  | .w8 => 8

/-- The lanes of a register. -/
def laneCount (w : LaneW) : Nat := 64 / laneBits w

/-- Bits [hi:lo] of a number. -/
def bitsOf (x hi lo : Nat) : Nat := (x >>> lo) % 2 ^ (hi + 1 - lo)

/-- Bit n of a number. -/
def bitOf (x n : Nat) : Bool := x.testBit n

/-- Lane j of width w (spec 02 R25). -/
def laneOf (w j : Nat) (x : Word) : Nat := (x.toNat >>> (w * j)) % 2 ^ w

/-- The first n lanes of width w. -/
def lanesOf (w n : Nat) (x : Word) : List Nat := (List.range n).map fun j => laneOf w j x

/-- Lanes of width w joined, lane 0 lowest. -/
def joinLanes (w : Nat) : List Nat → Nat
  | [] => 0
  | x :: xs => x % 2 ^ w + 2 ^ w * joinLanes w xs

def wordOfLanes (w : Nat) (xs : List Nat) : Word := BitVec.ofNat 64 (joinLanes w xs)

/-- A w-bit number read as two's complement. -/
def signedOf (w n : Nat) : Int := if n < 2 ^ (w - 1) then (n : Int) else (n : Int) - 2 ^ w

/-- A w-bit number read as signed or unsigned. -/
def intOf (signed : Bool) (w n : Nat) : Int := if signed then signedOf w n else (n : Int)

/-- An integer modulo 2^w. -/
def wrapTo (w : Nat) (r : Int) : Nat := (r % (2 ^ w : Int)).toNat

/-- The least and the greatest value of a range (spec 02 R29). -/
def loBound (signed : Bool) (w : Nat) : Int := if signed then -(2 ^ (w - 1) : Int) else 0
def hiBound (signed : Bool) (w : Nat) : Int := if signed then (2 ^ (w - 1) : Int) - 1 else (2 ^ w : Int) - 1

/-- All bits of a lane. -/
def allOnes (w : Nat) : Nat := 2 ^ w - 1

/-- Replace bits [lo + n - 1 : lo] of a word. -/
def insertBits (x : Word) (lo n v : Nat) : Word :=
  let m : Word := BitVec.ofNat 64 ((2 ^ n - 1) <<< lo)
  (x &&& ~~~m) ||| (BitVec.ofNat 64 (v <<< lo) &&& m)

/-- The number of set bits among the low n. -/
def popCount : Nat → Nat → Nat
  | 0, _ => 0
  | n + 1, x => x % 2 + popCount n (x / 2)

/-- Leading zeros of a w-bit number. -/
def leadZeros (w x : Nat) : Nat := if x = 0 then w else w - 1 - Nat.log2 x

/-- Trailing zeros of a w-bit number, looking at w bits. -/
def trailZeros : Nat → Nat → Nat
  | 0, _ => 0
  | w + 1, x => if x % 2 = 1 then 0 else 1 + trailZeros w (x / 2)

/-- The bytes of a number, little-endian (spec 02 R25). -/
def bytesOf : Nat → Nat → List Byte
  | 0, _ => []
  | n + 1, x => BitVec.ofNat 8 x :: bytesOf n (x / 256)

/-- The number whose little-endian bytes are given. -/
def ofBytes : List Byte → Nat
  | [] => 0
  | b :: bs => b.toNat + 256 * ofBytes bs

/-- A little-endian field of a byte list. -/
def fieldAt (bs : List Byte) (off n : Nat) : Nat := ofBytes ((bs.drop off).take n)

/-- The base-2 logarithm rounded up. -/
def ceilLog2 (n : Nat) : Nat := if n ≤ 1 then 0 else Nat.log2 (n - 1) + 1

/-- n rounded up to a multiple of m. -/
def roundUp (n m : Nat) : Nat := ((n + m - 1) / m) * m

/-- SowHash (spec 02 R38). -/
def sowHash (k x : Word) : Word :=
  let h := (x ^^^ k) * 0x9A4F3D27C61B85E5#64
  let h := h ^^^ (h >>> 29)
  let h := h * 0xC3D85B1F6E29A473#64
  h ^^^ (h >>> 32)

end Sys2Proof.Machine
end

