-- ==== Sys2Proof/Machine/Num.lean ====
section
/-!
DEFINITION. The number formats (spec 02 R24 to R32), the one rounding function of the device (R33 to R35), NaN selection (R37), and
the matrix path's sums (R40 to R43).
-/

namespace Sys2Proof.Machine

/-- The floating-point formats (spec 02 R24): codes 0 to 5. -/
inductive Fmt
  | f64 | f32 | bf16 | f16 | e4m3 | e5m2
  deriving DecidableEq, Repr

/-- The format of a float lane (spec 04 R73). -/
def fmtOf : FpFmt → Fmt
  | .f64 => .f64
  | .f32 => .f32
  | .bf16 => .bf16
  | .f16 => .f16

/-- A floating-point format code, 0 to 5 (spec 02 R24). -/
def fmtOfCode : Nat → Option Fmt
  | 0 => some .f64
  | 1 => some .f32
  | 2 => some .bf16
  | 3 => some .f16
  | 4 => some .e4m3
  | 5 => some .e5m2
  | _ => none

def fmtWidth : Fmt → Nat
  | .f64 => 64
  | .f32 => 32
  | .bf16 | .f16 => 16
  | .e4m3 | .e5m2 => 8

/-- Fraction bits (spec 02 R26 to R28). -/
def fracBits : Fmt → Nat
  | .f64 => 52
  | .f32 => 23
  | .bf16 => 7
  | .f16 => 10
  | .e4m3 => 3
  | .e5m2 => 2

def expBits : Fmt → Nat
  | .f64 => 11
  | .f32 | .bf16 => 8
  | .f16 | .e5m2 => 5
  | .e4m3 => 4

def expBias : Fmt → Nat
  | .f64 => 1023
  | .f32 | .bf16 => 127
  | .f16 | .e5m2 => 15
  | .e4m3 => 7

/-- The bits of the largest finite magnitude (spec 02 R26 to R28). -/
def maxFinite : Fmt → Nat
  | .f64 => 0x7FEFFFFFFFFFFFFF
  | .f32 => 0x7F7FFFFF
  | .bf16 => 0x7F7F
  | .f16 => 0x7BFF
  | .e4m3 => 0x7E
  | .e5m2 => 0x7B

/-- The canonical NaN (spec 02 R37). -/
def canonNaN : Fmt → Nat
  | .f64 => 0x7FF8000000000000
  | .f32 => 0x7FC00000
  | .bf16 => 0x7FC0
  | .f16 => 0x7E00
  | .e4m3 => 0x7F
  | .e5m2 => 0x7E

/-- The sign bit of a format. -/
def signBit (f : Fmt) (neg : Bool) : Nat := if neg then 2 ^ (fmtWidth f - 1) else 0

/-- The bits of an infinity; e4m3 has none (its NaN stands there, spec 02 R34). -/
def infBits (f : Fmt) (neg : Bool) : Nat :=
  signBit f neg + (match f with | .e4m3 => 0x7F | _ => (2 ^ expBits f - 1) <<< fracBits f)

/-- A number as read: `fin neg m e` is ±m × 2^e, with m = 0 for a zero of either sign; `nan q` is quiet or signalling. -/
inductive Val
  | nan (quiet : Bool)
  | inf (neg : Bool)
  | fin (neg : Bool) (m : Nat) (e : Int)
  deriving DecidableEq, Repr

def Val.isNaN : Val → Bool
  | .nan _ => true
  | _ => false

def Val.isSNaN : Val → Bool
  | .nan q => !q
  | _ => false

def Val.isInf : Val → Bool
  | .inf _ => true
  | _ => false

def Val.isZero : Val → Bool
  | .fin _ m _ => m == 0
  | _ => false

def Val.neg? : Val → Bool
  | .nan _ => false
  | .inf n => n
  | .fin n _ _ => n

/-- Read the bits of a format (spec 02 R26 to R28). -/
def unpack (f : Fmt) (x : Nat) : Val :=
  let neg := x.testBit (fmtWidth f - 1)
  let fr := x % 2 ^ fracBits f
  let ex := (x >>> fracBits f) % 2 ^ expBits f
  match f with
  | .e4m3 =>
    if ex = 15 ∧ fr = 7 then .nan true
    else if ex = 0 then .fin neg fr (-9)
    else .fin neg (fr + 8) ((ex : Int) - 10)
  | _ =>
    if ex = 2 ^ expBits f - 1 then
      if fr = 0 then .inf neg else .nan (fr.testBit (fracBits f - 1))
    else if ex = 0 then .fin neg fr (1 - (expBias f : Int) - fracBits f)
    else .fin neg (fr + 2 ^ fracBits f) ((ex : Int) - expBias f - fracBits f)

/-- A subnormal value of a format (spec 02 R37). -/
def isSubnormal (f : Fmt) (x : Nat) : Bool :=
  (x >>> fracBits f) % 2 ^ expBits f == 0 && x % 2 ^ fracBits f != 0

/-- Read(x): x, or a zero of its sign when F is set and x is subnormal (spec 10 R165). -/
def readBits (f : Fmt) (fcs : Fcs) (x : Nat) : Nat :=
  if fcs.f && isSubnormal f x then signBit f (x.testBit (fmtWidth f - 1)) else x

/-- The rounding directions with, for SR, its 16-bit random word (spec 02 R33, R35). -/
inductive Dir
  | rne | rtz | rdn | rup | rna
  | sr (rw : Nat)
  deriving DecidableEq, Repr

/-- The direction of `fpm`.RD (spec 02 R33, R36). -/
def dirOf : Nat → Dir
  | 0 => .rne
  | 1 => .rtz
  | 2 => .rdn
  | _ => .rup

/-- Whether a magnitude q + rem / 2^sh goes away from zero (spec 02 R33, R35). -/
def roundsUp (rd : Dir) (neg : Bool) (q rem sh : Nat) : Bool :=
  if rem = 0 then false
  else match rd with
    | .rne => decide (2 ^ sh < 2 * rem) || (decide (2 * rem = 2 ^ sh) && q % 2 == 1)
    | .rna => decide (2 ^ sh ≤ 2 * rem)
    | .rtz => false
    | .rdn => neg
    | .rup => !neg
    | .sr rw => decide (2 ^ 16 ≤ (if sh ≤ 16 then rem <<< (16 - sh) else rem >>> (sh - 16)) + rw)

/-- m × 2^e rounded to a multiple of 2^g: the multiple, and whether it is exact. -/
def roundAt (rd : Dir) (neg : Bool) (m : Nat) (e g : Int) : Nat × Bool :=
  if g ≤ e then (m <<< (e - g).toNat, true)
  else
    let sh := (g - e).toNat
    let q := m >>> sh
    let rem := m % 2 ^ sh
    (if roundsUp rd neg q rem sh then q + 1 else q, rem == 0)

/-- The bits of m × 2^e where m fits the format's significand and the value is finite in it: subnormal or normal. -/
def packFinite (f : Fmt) (neg : Bool) (m : Nat) (e : Int) : Nat :=
  let emin : Int := 1 - (expBias f : Int) - fracBits f
  if m = 0 then signBit f neg
  else
    -- bring the leading bit to the hidden place, or the lowest bit to the subnormal grid
    let top : Int := (Nat.log2 m : Int) + e
    let g : Int := if top - fracBits f < emin then emin else top - fracBits f
    let sig := if g ≤ e then m <<< (e - g).toNat else m >>> (g - e).toNat
    if sig < 2 ^ fracBits f then signBit f neg + sig
    else signBit f neg + ((g - emin + 1).toNat <<< fracBits f) + sig % 2 ^ fracBits f

/-- Whether m × 2^e is greater than the largest finite magnitude. -/
def overMax (f : Fmt) (m : Nat) (e : Int) : Bool :=
  match unpack f (maxFinite f) with
  | .fin _ m' e' =>
    let g := if e ≤ e' then e else e'
    decide (m' <<< (e' - g).toNat < m <<< (e - g).toNat)
  | _ => false

/-- Round of a finite nonzero magnitude m × 2^e (spec 02 R34). -/
def roundFin (f : Fmt) (rd : Dir) (fcs : Fcs) (neg : Bool) (m : Nat) (e : Int) : Nat × Flags :=
  let p : Int := fracBits f + 1
  let top : Int := (Nat.log2 m : Int) + e
  let g := top + 1 - p
  let (y, exact) := roundAt rd neg m e g
  if overMax f y g then
    let toInf := match rd with
      | .rne | .rna | .sr _ => true
      | .rup => !neg
      | .rdn => neg
      | .rtz => false
    if toInf && !fcs.s then (infBits f neg, fOF ||| fNX)
    else (signBit f neg + maxFinite f, fOF ||| fNX ||| flagIf (toInf && fcs.s) fSAT)
  else
    let emin : Int := 1 - (expBias f : Int) - fracBits f
    let minNormal := 2 ^ fracBits f      -- in units of 2^emin
    if g < emin && decide (y < minNormal <<< (emin - g).toNat) then
      if fcs.f then (signBit f neg, fUF ||| fNX)
      else
        let (z, exz) := roundAt rd neg m e emin
        (packFinite f neg z emin, flagIf (!exz) (fUF ||| fNX))
    else (packFinite f neg y g, flagIf (!exact) fNX)

/-- Round(v, fmt, rd, fcs) (spec 02 R34) of a value that is no NaN. -/
def roundVal (f : Fmt) (rd : Dir) (fcs : Fcs) : Val → Nat × Flags
  | .nan _ => (canonNaN f, 0)
  | .inf neg =>
    if f = .e4m3 then
      if fcs.s then (signBit f neg + maxFinite f, fSAT) else (signBit f neg + 0x7F, 0)
    else (infBits f neg, 0)
  | .fin neg m e => if m = 0 then (signBit f neg, 0) else roundFin f rd fcs neg m e

/-- A NaN of format f carried to format g with its quiet bit set: sign kept, payload cut to its top bits or padded with zeros
(spec 02 R37, 10 R170). -/
def carryNaN (f g : Fmt) (x : Nat) : Nat :=
  let neg := x.testBit (fmtWidth f - 1)
  match g with
  | .e4m3 => signBit g neg + 0x7F
  | _ =>
    let fr := x % 2 ^ fracBits f ||| 2 ^ (fracBits f - 1)
    let fr' := if fracBits g ≤ fracBits f then fr >>> (fracBits f - fracBits g) else fr <<< (fracBits g - fracBits f)
    signBit g neg + ((2 ^ expBits g - 1) <<< fracBits g) + fr'

/-- The NaN that NaN operands give, in operand order (spec 02 R37): none if no operand is NaN. -/
def nanOf (g : Fmt) (fcs : Fcs) (xs : List (Fmt × Nat)) : Option (Nat × Flags) :=
  if xs.any fun x => (unpack x.1 x.2).isSNaN then some (canonNaN g, fNV)
  else match xs.find? fun x => (unpack x.1 x.2).isNaN with
    | some x => some (if fcs.c then canonNaN g else carryNaN x.1 g x.2, 0)
    | none => none

/-- An invalid operation (spec 02 R37). -/
def invalid (g : Fmt) : Nat × Flags := (canonNaN g, fNV)

/-- The exact product of two values that are no NaN; none for 0 × ∞. -/
def mulVal : Val → Val → Option Val
  | .fin n m e, .fin n' m' e' => some (.fin (n != n') (m * m') (e + e'))
  | .inf n, .inf n' => some (.inf (n != n'))
  | .inf n, .fin n' m _ | .fin n m _, .inf n' => if m = 0 then none else some (.inf (n != n'))
  | _, _ => none

/-- A signed dyadic number as an integer and an exponent. -/
def sgn (neg : Bool) (m : Nat) : Int := if neg then -(m : Int) else (m : Int)

/-- The exact sum of two values that are no NaN, with the sign of an exact zero by the direction (spec 10 R166); none for
∞ − ∞. -/
def addVal (rd : Dir) : Val → Val → Option Val
  | .inf n, .inf n' => if n = n' then some (.inf n) else none
  | .inf n, _ => some (.inf n)
  | _, .inf n => some (.inf n)
  | .fin n m e, .fin n' m' e' =>
    let g := if e ≤ e' then e else e'
    let x := sgn n (m <<< (e - g).toNat) + sgn n' (m' <<< (e' - g).toNat)
    if x = 0 then
      -- x + x keeps its sign; operands of opposite sign give +0, or −0 under RDN
      if n = n' then some (.fin n 0 g) else some (.fin (rd == .rdn) 0 g)
    else some (.fin (decide (x < 0)) x.natAbs g)
  | _, _ => none

/-- Whether a value is less than another; −0 equals +0, and a NaN is less than nothing and nothing less than it. -/
def ltVal (a b : Val) : Bool :=
  match a, b with
  | .nan _, _ => false
  | _, .nan _ => false
  | .inf n, .inf n' => n && !n'
  | .inf n, _ => n
  | _, .inf n' => !n'
  | .fin n m e, .fin n' m' e' =>
    let g := if e ≤ e' then e else e'
    decide (sgn n (m <<< (e - g).toNat) < sgn n' (m' <<< (e' - g).toNat))

/-- Whether two values are equal, no NaN among them; −0 equals +0. -/
def eqVal (a b : Val) : Bool := !a.isNaN && !b.isNaN && !ltVal a b && !ltVal b a

/-! ### Q4N -/

/-- code[q] × 256 (spec 02 R30). -/
def q4Code (q : Nat) : Int :=
  [-256, -178, -134, -101, -73, -47, -23, 0, 20, 41, 63, 86, 113, 144, 185, 256].getD q 0

/-- S_g must be finite with bits [15:0] zero (spec 02 R31). -/
def q4ScaleOk (sg : Nat) : Bool := sg % 2 ^ 16 == 0 && (match unpack .f32 sg with | .fin _ _ _ => true | _ => false)

/-- The scale s = S_g × (c_b + 1) / 256 (spec 02 R31). -/
def q4Scale (sg cb : Nat) : Val :=
  match unpack .f32 sg with
  | .fin n m e => .fin n (m * (cb + 1)) (e - 8)
  | v => v

/-- code[q] × s, +0 for code 7 (spec 02 R31). -/
def q4Value (q : Nat) (s : Val) : Val :=
  let c := q4Code q
  if c = 0 then .fin false 0 0
  else match s with
    | .fin n m e => .fin (n != decide (c < 0)) (m * c.natAbs) (e - 8)
    | v => v

/-- Whether 256 × num / den compared with twice-code arithmetic: the distance |y − code| doubled is avoided by comparing
|256 × num − c × den| for integers num / den = y. -/
def q4Dist (num den : Int) (q : Nat) : Nat := (256 * num - q4Code q * den).natAbs

/-- The nearest code to y = num / den, ties to the smaller magnitude (spec 02 R32). -/
def q4Nearest (num den : Int) : Nat :=
  (List.range 16).foldl (fun best q =>
    let d := q4Dist num den q
    let db := q4Dist num den best
    if d < db || (d == db && (q4Code q).natAbs < (q4Code best).natAbs) then q else best) 7

/-- The code of x under the scale s (spec 02 R32). -/
def q4Encode (x s : Val) : Nat × Flags :=
  match x, s with
  | .nan _, _ => (7, fNV)
  | .inf n, .fin ns ms _ => if ms = 0 then (7, fNV) else (if n != ns then 0 else 15, fSAT ||| fNX)
  | .fin n m e, .fin ns ms es =>
    if m = 0 ∨ ms = 0 then (7, 0)
    else
      let g := if e ≤ es then e else es
      let num := sgn (n != ns) (m <<< (e - g).toNat)
      let den : Int := (ms <<< (es - g).toNat : Nat)
      if den < (num.natAbs : Int) then (if num < 0 then 0 else 15, fSAT ||| fNX)
      else
        let q := q4Nearest num den
        (q, flagIf (q4Dist num den q != 0) fNX)
  | _, _ => (7, fNV)

/-! ### The order of sums -/

/-- The paths of a matrix element (spec 02 R40). -/
inductive MPath
  | narrow | wide | integer
  deriving DecidableEq, Repr

def pathWindow : MPath → Int
  | .wide => 128
  | _ => 40

/-- L, the width of S and C. -/
def pathWidth : MPath → Nat
  | .wide => 192
  | _ => 72

/-- X of an accumulator entry (spec 02 R42). -/
inductive XState
  | none | pinf | ninf | nan
  deriving DecidableEq, Repr

/-- An accumulator entry (e, S, C, X); e is none while the exponent is absent (spec 02 R42). -/
structure Acc where
  e : Option Int := none
  s : Int := 0
  c : Int := 0
  x : XState := .none
  deriving DecidableEq, Repr

/-- EMPTY (spec 02 R42). -/
def Acc.isEmpty (a : Acc) : Bool := a == {}

/-- A group sum: an exact integer with its exponent, or a special. -/
inductive GSum
  | fin (e : Int) (g : Int)
  | inf (neg : Bool)
  | nan
  deriving DecidableEq, Repr

/-- Read a matrix operand: F reads subnormal inputs as zero (spec 02 R41). -/
def matRead (fcs : Fcs) (f : Fmt) (x : Nat) : Val := unpack f (readBits f fcs x)

/-- floor(log2 |p|) of a finite nonzero value. -/
def log2Val : Val → Int
  | .fin _ m e => (Nat.log2 m : Int) + e
  | _ => 0

/-- sign(p) × floor(|p| / 2^eG). -/
def truncAt (eG : Int) : Val → Int
  | .fin n m e => sgn n (if eG ≤ e then m <<< (e - eG).toNat else m >>> (eG - e).toNat)
  | _ => 0

/-- The greatest of a list of integers over a starting value. -/
def maxInt (x : Int) (xs : List Int) : Int := xs.foldl (fun a b => if a < b then b else a) x

/-- GroupSum over the pairs of values of one K-group (spec 02 R41), with NV where R37 requires it. -/
def groupSum (path : MPath) (ps : List (Val × Val)) : GSum × Flags :=
  match path with
  | .integer =>
    (.fin 0 ((ps.map fun ab => match ab.1, ab.2 with
      | .fin n m _, .fin n' m' _ => sgn n m * sgn n' m'
      | _, _ => 0).foldl (· + ·) 0), 0)
  | _ =>
    let anyNaN := ps.any fun ab => ab.1.isNaN || ab.2.isNaN
    let anyS := ps.any fun ab => ab.1.isSNaN || ab.2.isSNaN
    let prods := ps.filterMap fun ab => if ab.1.isNaN || ab.2.isNaN then none else some (mulVal ab.1 ab.2)
    let bad := prods.any fun p => p.isNone
    let vals := prods.filterMap id
    let pos := vals.any fun v => v.isInf && !v.neg?
    let neg := vals.any fun v => v.isInf && v.neg?
    if anyNaN || bad || (pos && neg) then (.nan, flagIf (anyS || bad || (pos && neg)) fNV)
    else if pos then (.inf false, 0)
    else if neg then (.inf true, 0)
    else
      match vals.filter fun v => !v.isZero with
      | [] => (.fin 0 0, 0)
      | v :: vs =>
        let eG := maxInt (log2Val v) (vs.map log2Val) - pathWindow path + 1
        (.fin eG (((v :: vs).map (truncAt eG)).foldl (· + ·) 0), 0)

/-- A number modulo 2^L as two's complement. -/
def wrapS (l : Nat) (x : Int) : Int := signedOf l (wrapTo l x)

/-- S and C shifted right by 2 until both lie in the guarded range; fuel bounds the shifts (spec 02 R42). -/
def guardAcc (l : Nat) : Nat → Int → Int → Int → Int × Int × Int
  | 0, e, s, c => (e, s, c)
  | n + 1, e, s, c =>
    let b : Int := 2 ^ (l - 4)
    if decide (-b ≤ s) && decide (s < b) && decide (-b ≤ c) && decide (c < b) then (e, s, c)
    else guardAcc l n (e + 2) (s >>> 2) (c >>> 2)

/-- The carry-save step on L-bit words (spec 02 R42). -/
def csa (l : Nat) (s c g : Int) : Int × Int :=
  let m := 2 ^ l
  let sn := wrapTo l s
  let cn := wrapTo l c
  let gn := wrapTo l g
  (signedOf l (sn ^^^ cn ^^^ gn), signedOf l ((((sn &&& cn) ||| (sn &&& gn) ||| (cn &&& gn)) <<< 1) % m))

/-- AccAdd (spec 02 R42). S and C are words modulo 2^L, and so is their sum on the integer path. -/
def accAdd (path : MPath) (a : Acc) : GSum → Acc × Flags
  | .nan => ({ a with x := .nan }, 0)
  | .inf neg =>
    match a.x with
    | .nan => (a, 0)
    | .pinf => if neg then ({ a with x := .nan }, fNV) else (a, 0)
    | .ninf => if neg then (a, 0) else ({ a with x := .nan }, fNV)
    | .none => ({ a with x := if neg then .ninf else .pinf }, 0)
  | .fin eG g =>
    if a.x = .nan ∨ g = 0 then (a, 0)
    else
      let l := pathWidth path
      match a.e with
      | none => ({ a with e := some eG, s := wrapS l g, c := 0 }, flagIf (decide (path = .integer) && decide (2 ^ 70 ≤ g.natAbs)) fIOV)
      | some e =>
        let (e', s, c, g') :=
          if e < eG then (eG, a.s >>> (eG - e).toNat, a.c >>> (eG - e).toNat, g) else (e, a.s, a.c, g >>> (e - eG).toNat)
        let (s2, c2) := csa l s c g'
        if path = .integer then
          ({ a with e := some e', s := s2, c := c2 }, flagIf (decide (2 ^ 70 ≤ (wrapS l (s + c) + g').natAbs)) fIOV)
        else
          let (e3, s3, c3) := guardAcc l l e' s2 c2
          ({ a with e := some e3, s := s3, c := c3 }, 0)

/-- Normalise to a floating-point format (spec 02 R43). -/
def normaliseFp (a : Acc) (f : Fmt) (rd : Dir) (fcs : Fcs) : Nat × Flags :=
  if a.isEmpty then (0, 0)
  else match a.x with
    | .nan => (canonNaN f, 0)
    | .pinf => if fcs.s then (maxFinite f, fSAT) else (infBits f false, 0)
    | .ninf => if fcs.s then (signBit f true + maxFinite f, fSAT) else (infBits f true, 0)
    | .none =>
      let v := a.s + a.c
      if v = 0 then (signBit f (rd == .rdn), 0)
      else roundFin f rd fcs (decide (v < 0)) v.natAbs (a.e.getD 0)

/-- Normalise to i32 on the integer path (spec 02 R43). -/
def normaliseI32 (a : Acc) (fcs : Fcs) : Nat × Flags :=
  let v := wrapS (pathWidth .integer) (a.s + a.c)
  if decide (-(2 ^ 31) ≤ v) && decide (v < 2 ^ 31) then (wrapTo 32 v, 0)
  else if fcs.s then (wrapTo 32 (if v < 0 then -(2 ^ 31) else 2 ^ 31 - 1), fSAT)
  else (wrapTo 32 v, fIOV)

end Sys2Proof.Machine
end

