-- ==== Sys2Proof/Machine/State.lean ====
section
/-!
DEFINITION. The state of one Nymari 2048 package, as plain data: every piece of state that the manual names, and beside it the
model's own schedule. INVENTORY.md lists each field with its rule and its reset value.
-/

namespace Sys2Proof.Machine

/-- Bits [6:0] of a flag word (spec 02 R36, R45). -/
abbrev Flags7 := BitVec 7

/-- The reasons a step can stop with a fault. -/
inductive Fault
  /-- Raised by an element's instruction when the cursor names no element that is present: no slot can be firing there.
  Safe: the device never reaches it. -/
  | noElement
  deriving DecidableEq, Repr

/-- The reasons a step can be refused. -/
inductive Refusal
  /-- Raised by Dispatch for an instruction that has no meaning yet, named. Safe. -/
  | notModelled (mnemonic : String)
  deriving DecidableEq, Repr

/-! ### Tokens, queues and channels -/

/-- A token: its tag and its payload, a narrow payload in the low 64 bits (spec 08 R130). -/
structure Token where
  tag : Tag := .data
  val : Beat := 0
  deriving DecidableEq, Repr

/-- A queue entry: its own number (by which a request, or a fault, finds it), the element whose asynchronous result
it carries, its token, or none while it is only reserved
(spec 13 R215), and the first cycle that sees it. -/
structure Entry where
  rid : Nat := 0
  own : Option Loc := none
  body : Option Token := none
  since : Nat := 0
  deriving DecidableEq, Repr

/-- A queue, head first, with the number of entries taken from it in the cycle `popAt`: occupancy is sampled at the start of a
cycle (spec 08 R137). -/
structure Queue where
  es : List Entry := []
  popAt : Nat := 0
  pops : Nat := 0
  deriving DecidableEq, Repr

/-- A channel as configured (spec 03 R53): where its tokens go, for a long channel 1 + H + 4X (spec 08 R131), and OUT. -/
structure Route where
  dst : Loc
  port : Fin 4
  long : Bool
  dist : Nat
  secOut : Bool := false
  deriving DecidableEq, Repr

/-- An output: its channel, and for a long channel its output queue, its credits and what is in flight either way; on a matrix element's wide
output the release packet that it is sending, and the nodes whose reductions are ending towards it (spec 14 R254, 15 R267). -/
structure OutPort where
  route : Option Route := none
  pkt : List Token := []
  owed : Nat := 0
  q : Queue := {}
  credits : Nat := 0
  flight : List (Nat × Entry) := []
  back : List Nat := []
  deriving DecidableEq, Repr

/-- An input: its queue, the output that feeds it, and whether the channel is a section output (spec 02 R45). -/
structure InPort where
  q : Queue := {}
  src : Option (Loc × Fin 4) := none
  dist : Nat := 0
  long : Bool := false
  secOut : Bool := false
  deriving DecidableEq, Repr

/-! ### Faults and repair -/

/-- A containment policy (spec 03 R50). -/
inductive Policy
  | defer | ignore | retry | killSelf | killParent
  deriving DecidableEq, Repr

/-- The classes of faults (spec 18 R313). -/
inductive FaultClass
  | translate | sealed | align | format | operand | overrun | timeout | arith | memerr | link | watchdog | trap | brk
  deriving DecidableEq, Repr

/-- The kind of a replay-queue entry (spec 18 R317). -/
inductive RqKind
  | firing | store | atomic | cas
  deriving DecidableEq, Repr

/-- A replay-queue entry (spec 18 R317), with the number of the fault record or request that it belongs to. -/
structure RqEntry where
  kind : RqKind
  slot : Nat
  beat : Nat
  wfid : Bool
  fid : Nat
  act : BitVec 32
  a : Word
  b : Word
  c : Word
  owner : Nat
  depth : Nat := 0
  deriving DecidableEq, Repr

/-- How a beat runs: as a slot fires, or re-executed after a repair (spec 18 R318). -/
inductive BeatMode
  | normal
  | resume
  | subst (v : Word)
  deriving DecidableEq, Repr

/-- A beat that a repair completes with a value. -/
def BeatMode.isSubst : BeatMode → Bool
  | .subst _ => true
  | _ => false

/-- A firing to be re-executed: its slot, beat, mode, and the operands that its entry holds. -/
structure Redo where
  slot : Nat
  beat : Nat
  mode : BeatMode
  a : Word
  b : Word
  c : Word
  depth : Nat
  deriving DecidableEq, Repr

/-- What a fault holds (spec 18 R313, R318). -/
inductive HeldWhat
  /-- a token that stands as FAULT, or waits for its FID, with the request that made it (0 for none) -/
  | token (rid req : Nat) (wide : Bool)
  /-- a FAULT beat in place of a plot-store line, with the line access that made it -/
  | lineToken (rid line : Nat)
  /-- a store, atomic, engine access or drill access held as a request -/
  | access (req : Nat)
  /-- a firing held in an entry of its element's replay queue -/
  | firing (l : Loc) (entry : Nat)
  /-- an adapter directory read or slice fetch of a matrix element of a plot -/
  | adapter (plot fill : Nat)
  /-- an argument patch of a plot that configures -/
  | patch (plot idx : Nat)
  /-- an engine command, at its present item -/
  | command (cmd : Nat)
  /-- an access of a SIGNAL, WAIT or BRANCH node -/
  | node (launch node : Nat)
  /-- an element whose live state is lost, or whose configuration is -/
  | element (l : Loc)
  /-- a whole parcel -/
  | parcel (p : Nat)
  deriving DecidableEq, Repr

/-- One held item and the number of times that it has been re-executed. -/
structure Held where
  what : HeldWhat
  depth : Nat
  deriving DecidableEq, Repr

/-- A fault record (spec 18 R314), its items, and whether it stands in the fault store. `fid` is none while every FID of the die
is open; `key` is the owner and pending-miss entry that further faults merge by (spec 18 R316), `own` the parcel of the owner. `seenAt` is the first cycle
whose triggers see it in the fault store (08 R135), and `unheard` marks one whose die has no handler until the cycle's end answers it (18 R319). -/
structure FaultRec where
  id : Nat
  die : Nat
  fid : Option Nat
  cls : FaultClass
  sub : Nat
  ctx : Nat
  depth : Nat
  flags : Nat
  x : Nat
  y : Nat
  site : Nat
  slot : Nat
  entry : Nat
  strm : Nat
  wave : Nat
  addr : Nat
  info0 : Word
  info1 : Word
  src : Nat
  count : Nat
  ts : Nat
  node : Nat
  items : List Held
  report : Bool
  queued : Bool
  key : Option (Nat × Nat)
  own : Option Nat := none
  seenAt : Nat := 0
  unheard : Bool := false
  deriving DecidableEq, Repr

/-- A repair as it was answered (spec 18 R318). -/
structure Answer where
  act : Repair
  value : Word
  deriving DecidableEq, Repr

/-! ### Memory requests -/

/-- The threads of the memory model (spec 17 R301). -/
inductive Thread
  | wave (l : Loc) (n : Nat)
  | stream (l : Loc) (m : Fin 8)
  | cmd (id : Nat)
  | drill (launch : Nat)
  | host (fn : Nat)
  deriving DecidableEq, Repr

/-- What a request does at its home. -/
inductive ReqOp
  | load (sx : Bool)
  | store
  | amo (op : AtomOp) (fcs : Fcs)
  | cas
  | red (op : AtomOp) (fcs : Fcs)
  | fence
  /-- `mseal` of the address with a length, and `munseal` of the address (spec 13 R229) -/
  | seal (len : Word)
  | unseal
  /-- `tlb.pf` (spec 13 R234) -/
  | prefetch
  /-- the pattern record of `strm.opn`, with the BASE that sb gives (spec 13 R232) -/
  | pattern (base : Option Word)
  /-- the header, or 8 bits of the bitmask, of a compressed image that a stream expands (spec 12 R209) -/
  | header
  | maskByte
  deriving DecidableEq, Repr

/-- How far a request has come. -/
inductive Phase
  /-- in its wave buffer, not yet in its wave's order (spec 12 R204) -/
  | waiting
  /-- in its thread's order, to be translated -/
  | entered
  /-- joined to a pending-miss entry of a die (spec 12 R199) -/
  | walking (die miss : Nat)
  /-- translated, to be performed at the home of the physical address -/
  | translated (pa : Nat) (nc : Bool)
  /-- performed for its own plot, held by the plot's memory port (spec 17 R304) -/
  | atPort (pa : Nat)
  /-- on its way to a reduction window as a contribution at an offset (spec 16 R298) -/
  | contributing (win off : Nat)
  /-- held in a line of its endpoint's combining buffer (spec 13 R230) -/
  | combining
  /-- performed; the response or acknowledgement carries the data, and the flags raised at the home (spec 16 R289) -/
  | performed (data : Beat) (flags : Flags7)
  /-- held by a fault of a class -/
  | held (cls : FaultClass)
  deriving DecidableEq, Repr

/-- A request to memory from an element's wave or a stream: its thread, the element that issued it and the endpoint that carries it, its
context, slot, beat and action word, its operation on `size` bytes at `va` (a multiple of `algn`), its operands, its order and scope, its
wave numbers, its phase, its place in its thread's order (0 before it has one), the requests that must be performed before it, each at a
scope, the reserved entry and the tag of its response with its position in a wide beat, and whether its response is discarded, its depth,
whether an issue watchpoint matched it and is still to hold it, the cycle in which it was issued, and whether its element lies in a part of an
image that is not stored (spec 12 R209). -/
structure Req where
  id : Nat := 0
  thr : Thread
  issuer : Loc
  le : Loc
  ctx : Nat := 0
  slot : Nat := 0xFF
  beat : Nat := 0
  act : BitVec 32 := 0
  op : ReqOp
  va : Nat := 0
  size : Nat := 0
  algn : Nat := 1
  data : Beat := 0
  data2 : Word := 0
  ord : MOrd := .plain
  scope : Scope := .device
  seq : Nat := 31
  pred : Nat := 31
  phase : Phase := .waiting
  place : Nat := 0
  after : List (Nat × Scope) := []
  rid : Nat := 0
  tag : Tag := .data
  pos : Nat := 0
  discard : Bool := false
  depth : Nat := 0
  watch : Bool := false
  born : Nat := 0
  bad : Bool := false
  deriving DecidableEq, Repr

/-- An asynchronous result that is ready to become visible (spec 13 R215): the entry that it fills, its token, and for which
element's count of joins. -/
structure Result where
  id : Nat
  rid : Nat
  tok : Token
  deriving DecidableEq, Repr

/-- A pattern record as it is read (spec 12 R201). -/
structure Pattern where
  base : Nat := 0
  esz : Nat := 0
  ndim : Nat := 1
  store : Bool := false
  fg : Nat := 0
  cmp : Bool := false
  nt : Bool := false
  fmt : Nat := 0
  ch : Fin 4 := 0
  tagp : Nat := 0
  cpl : Nat := 12
  res : Nat := 0
  dims : List (Nat × Int) := []
  deriving DecidableEq, Repr

/-- A wide beat that a load stream gathers: its reserved entry, its tag, the accesses still to come, and its bytes so far. -/
structure Gather where
  rid : Nat
  tag : Tag
  left : Nat
  data : Beat
  deriving DecidableEq, Repr

/-- How far an expanding stream has read its image (spec 12 R209). -/
inductive ImgPhase
  | unread | asked | known
  deriving DecidableEq, Repr

/-- A stream of a load-store endpoint (spec 12 R201 to R203, R208, R209, 13 R232, R233): its record; whether it is open, closing,
or stopped; elements generated, transferred and faulted; whether a LAST is due and whether the last one has been sent; the beats being
gathered and the beat being taken apart; of a compressed image its phase, the bitmask byte in hand, the values counted, whether it has
overrun, the first element that is not stored, and the bytes still to be written; whether the place of the next element is taken by a read of the
image; and the accesses that later ones must follow. -/
structure Stream where
  pat : Pattern := {}
  opened : Bool := false
  closing : Bool := false
  stopped : Bool := false
  idx : Nat := 0
  done : Nat := 0
  faulted : Nat := 0
  lastDue : Bool := false
  lastSent : Bool := false
  gathers : List Gather := []
  line : Beat := 0
  img : ImgPhase := .unread
  maskOk : Bool := false
  mask : Nat := 0
  nz : Nat := 0
  stored : Nat := 0
  overran : Bool := false
  badFrom : Option Nat := none
  placed : Bool := false
  tail : List (Nat × Byte) := []
  ended : Bool := false
  before : List (Nat × Scope) := []
  deriving DecidableEq, Repr

/-- An entry of a translation buffer (spec 12 R199): context, page base, page size in bytes, physical base, permissions. -/
structure TlbEntry where
  ctx : Nat
  va : Nat
  size : Nat
  pa : Nat
  w : Bool
  nc : Bool
  deriving DecidableEq, Repr

/-- A pending-miss entry (spec 12 R199): its key, and whether an invalidation discards its walk (spec 18 R327). -/
structure Miss where
  id : Nat
  ctx : Nat
  va : Nat
  stale : Bool
  deriving DecidableEq, Repr

/-- An issue watchpoint (spec 12 R210, 13 R234). -/
structure WatchPt where
  mode : WpMode := .off
  base : Nat := 0
  len : Nat := 0
  deriving DecidableEq, Repr

/-- A home watchpoint (spec 12 R210, 18 R326). -/
structure HomeWp where
  base : Nat := 0
  len : Nat := 0
  deriving DecidableEq, Repr

/-- A line of a combining buffer (spec 13 R230): its physical line address, its stream or wave, the bytes gathered, the stores that they come
from, and the cycle in which it was opened. -/
structure CombLine where
  pa : Nat
  thr : Thread
  bytes : List Host.Cell
  reqs : List Nat
  opened : Nat
  deriving DecidableEq, Repr

/-- The state of a load-store endpoint beside its element (spec 08 R128); `arming` holds what `wp.arm` has set in this cycle, for the next one on. -/
structure LeUnit where
  streams : Vector Stream 8 := Vector.replicate 8 {}
  tlb : List TlbEntry := []
  wps : Vector WatchPt 2 := Vector.replicate 2 {}
  arming : List (Fin 2 × WatchPt) := []
  comb : List CombLine := []
  deriving DecidableEq, Repr

/-! ### Tiles -/

/-- A tile-table entry (spec 11 R185): its fields (rows and row bytes as counts), its storage and its generation, which outlives it. `base` is
the offset in the store that holds it, or the number of the operand-node buffer; `size` the bytes of storage allocated (13 R217). -/
structure Tile where
  alloc : Bool := false
  ring : Bool := false
  level : Nat := 0
  fmt : Nat := 0
  layout : Nat := 0
  rows : Nat := 0
  rb : Nat := 0
  site : Nat := 0
  ndy : Int := 0
  ndx : Int := 0
  gen : Nat := 0
  infl : Nat := 0
  base : Nat := 0
  size : Nat := 0
  deriving DecidableEq, Repr

/-! ### Scratchpad elements -/

/-- What a line access does when its bank performs it (spec 11 R191, 13 R215 to R222). -/
inductive LineAct
  /-- read n bytes from `lo` of the line to `to_` of the beat that fills a reserved entry -/
  | read (rid lo n to_ : Nat)
  /-- write the line -/
  | write (data : Beat)
  /-- write the line's bytes [3:0], as a q4n packet's S_g does (R219) -/
  | writeSg (sg : Nat)
  /-- add the line lane by lane in a format, under FCS (R221) -/
  | acc (fmt : Nat) (fcs : Fcs) (data : Beat)
  /-- read the line of a copy: it is written to line n of the target (R222) -/
  | copy (n : Nat)
  /-- write a record that a lane of a matrix element spills (14 R260) -/
  | spill (me : Loc) (data : Beat)
  /-- read a spilled record back into lane i of a matrix element (14 R260) -/
  | readBack (me : Loc) (lane : Nat)
  deriving DecidableEq, Repr

/-- A line access offered to, or admitted by, a bank (spec 11 R191): the store and the offset, the port that offers it, the handle whose
in-flight count it raises, whether it has, the element and the operation that it is part of, whether a fault holds it, and a line that substitutes what it
reads. -/
structure LineReq where
  id : Nat
  plot : Nat
  off : Nat
  port : Nat
  from_ : Loc
  hplot : Nat
  handle : Nat
  admitted : Bool := false
  counted : Bool := false
  held : Bool := false
  depth : Nat := 0
  sub : Option Beat := none
  act : LineAct
  op : Nat
  deriving DecidableEq, Repr

/-- An asynchronous scratchpad operation whose writes are not all performed: the element, the entry of its acknowledgement, the writes left,
the lines written, whether every line has been issued, the target tile with its handle, and for a level-0 tile the header that its buffer records
when the last line is performed (spec 13 R216, R223, 14 R248). -/
structure SpadAck where
  op : Nat
  l : Loc
  rid : Nat
  left : Nat
  lines : Nat
  issued : Bool
  tile : Tile
  handle : Nat
  hdr : Option Beat := none
  deriving DecidableEq, Repr

/-- A beat that waits for more than one line access, or whose tag is not DATA: its entry, its tag, the accesses still to come, its bytes. -/
structure BeatGather where
  rid : Nat
  tag : Tag
  left : Nat
  data : Beat
  deriving DecidableEq, Repr

/-- A streaming scratchpad instruction in progress (spec 13 R215, R218 to R221): what it is, its slot, the tile as its reference found it with
the handle, the entry of its acknowledgement and its operation, the range word, the header taken, the beats sent or taken, the row and
column in hand, whether the rest is to be discarded (18 R318), whether a fault holds it, its count of re-executions, its captured operands, and the narrow operand that
an answer gives. -/
structure SpadOp where
  i : Instr
  slot : Fin 16
  op : Nat
  handle : Nat
  tile : Tile
  range : Option Word := none
  hdr : Beat := 0
  pos : Nat := 0
  row : Option Nat := none
  col : Nat := 0
  ending : Bool := false
  drain : Bool := false
  held : Bool := false
  depth : Nat := 0
  a : Word := 0
  b : Word := 0
  given : Option Word := none
  deriving DecidableEq, Repr

/-- The state of a scratchpad element beside its element. -/
structure SeUnit where
  op : Option SpadOp := none
  acks : List SpadAck := []
  gathers : List BeatGather := []
  deriving DecidableEq, Repr

/-! ### Matrix elements -/

/-- A line of an operand buffer that took a FAULT beat: its offset, and the number of the token that a repair replaces (15 R279). -/
structure BadLine where
  off : Nat
  rid : Nat
  deriving DecidableEq, Repr

/-- A buffer of an operand node (spec 14 R247, R248): its full bit; the recorded header, with rows and row bytes as counts, the bytes from
one row to the next, the offset of its q4n lines, and whether the header or the packet broke R194; its bytes, its faulted lines, the use
count of node B; and the beats taken of the packet that is arriving. -/
structure OpBuf where
  full : Bool := false
  fmt : Nat := 0
  layout : Nat := 0
  rows : Nat := 0
  rb : Nat := 0
  kpos : Nat := 0
  sg : Nat := 0
  scb : Nat := 0
  stride : Nat := 0
  qoff : Nat := 0
  broken : Option Word := none
  cells : List Host.Cell := []
  bad : List BadLine := []
  uses : Nat := 0
  taken : Nat := 0
  deriving DecidableEq, Repr

/-- An operand node: its buffers and its head; `fill` is the buffer that the next packet enters. -/
structure OpNode where
  bufs : List OpBuf := [{}]
  head : Nat := 0
  fill : Nat := 0
  deriving DecidableEq, Repr

/-- The state of an accumulator node (spec 15 R267). -/
inductive NState
  | free | opened | closing | closed
  deriving DecidableEq, Repr

/-- How a reduction ends (spec 15 R267): the release channel or none to hold the node, the FCS, whether the tile count goes down, and its place
in the order of the element's EndReductions. -/
structure Closing where
  dest : Option (Fin 2)
  fcs : Fcs
  counts : Bool
  seq : Nat
  deriving DecidableEq, Repr

/-- A cached directory entry (spec 15 R274): id, tag, and the entry's fields; rank 0 is the base model. -/
structure DirEnt where
  aid : Nat
  tag : Nat
  abase : Nat
  bbase : Nat
  alpha : Nat
  col0 : Nat
  klen : Nat
  nlen : Nat
  rank : Nat
  deriving DecidableEq, Repr

/-- An accumulator node (spec 14 R247, R253, 15 R265 to R267): state, path, f, its configured reduction count, normaliser and release
channel (03 R52), whether it was opened with ad = 1 and its latched ids, its entries by 16 i + n (those not listed are EMPTY), the adapter
values u by 64 i + t, and how it is ending, with the adapted rows that are closed, what the next one waits for, as a chunk does, and the slice to
which it is pinned, by its number and with its entry (15 R277). -/
structure AccNode where
  state : NState := .free
  path : MPath := .narrow
  f : Nat := 0
  count : Nat := 0
  norm : Nat := 0
  chan : Fin 2 := 0
  ad : Bool := false
  ids : List Nat := []
  ents : Tbl Acc := []
  u : Tbl Acc := []
  closing : Option Closing := none
  closedRows : Nat := 0
  closeWait : Option (Option (Bool × Nat)) := none
  closePin : Option (Nat × DirEnt) := none
  deriving DecidableEq, Repr

/-- A product as a row merger keeps it (spec 14 R260): column, X (0 finite, 1 +∞, 2 −∞, 3 NaN), and S × 2^E. -/
structure Prod where
  col : Nat
  x : Nat
  s : Int
  e : Int
  deriving DecidableEq, Repr

/-- A lane of a ROW firing (spec 14 R259, R260): the K offsets of its row's nonzeros, its open group, the products in its merger, the records that
it has spilled, and whether a product of the group sets NV. -/
structure Lane where
  ks : List Nat := []
  group : Option Nat := none
  prods : List Prod := []
  spilled : Nat := 0
  nv : Bool := false
  deriving DecidableEq, Repr

/-- An `mma` firing in progress (spec 15 R265): the action, its slot, its K-step or lock step, its steps, the next cycle in which it can take a
step (14 R261), whether a fault holds it and whether `fpm`.TE is ignored for the step, the rows that the adapter unit
has taken, and of ROW its lanes, whether the groups that its lock step leaves are closed, the index tokens sent and the rows taken of the lock step, the beats of the row in hand, and whether the index LAST has been sent and the row LAST taken. -/
structure Firing where
  x : MmaAct
  slot : Fin 16
  step : Nat := 0
  steps : Nat := 0
  due : Nat := 0
  pad : Bool := false
  held : Bool := false
  depth : Nat := 0
  noTrap : Bool := false
  adRow : Nat := 0
  lanes : Option (List Lane) := none
  closedStep : Bool := false
  sent : Nat := 0
  idled : Bool := false
  taken : Nat := 0
  beats : List Beat := []
  lastSent : Bool := false
  lastTaken : Bool := false
  deriving DecidableEq, Repr

/-- A streaming `acc.rd` or `acc.ld` in progress (spec 15 R270, R271): its slot, node and output, the tokens still to be sent, or the first beat
of a pair, the beats so far, and whether a fault holds it and `fpm`.TE is ignored for the pair. -/
structure AccOp where
  slot : Fin 16
  an : Fin 4
  load : Bool
  sa : Src
  dst : Dst
  upd : PUpd
  todo : List Token := []
  first : Option Beat := none
  pos : Nat := 0
  held : Bool := false
  depth : Nat := 0
  noTrap : Bool := false
  deriving DecidableEq, Repr

/-- A chunk of the row replay buffer (spec 15 R277): node, row, id, the K position and the K-group size, the format, the row's values of the
groups still to be taken, FCS, and what it waits for: the directory, or a slice by kind and block. -/
structure Chunk where
  an : Fin 4
  row : Nat
  aid : Nat
  kpos : Nat
  g : Nat
  fmt : Nat
  vals : List Nat
  fcs : Fcs
  wait : Option (Option (Bool × Nat)) := none
  deriving DecidableEq, Repr

/-- The state of a matrix element beside its element (spec 14 R247, 03 R52): its configuration, its operand nodes, its accumulator nodes, what it
is doing, the nodes whose entries stand in the cells and the buffer resident there, the lane idle counters, the row-id vector register, the
row replay buffer, the directory-entry cache, most recently used first, and the miss counter. -/
structure MeUnit where
  reuse : Nat := 1
  spillHandle : Nat := 0
  spillSite : Nat := 0
  tag : Nat := 0
  dir : Nat := 0
  nodeA : OpNode := {}
  nodeB : OpNode := {}
  accs : Vector AccNode 4 := Vector.replicate 4 {}
  fire : Option Firing := none
  op : Option AccOp := none
  cells : Option (Fin 4) := none
  resident : Option Nat := none
  idle : List Nat := List.replicate 16 0
  rowIds : List Nat := List.replicate 16 0
  replay : List Chunk := []
  dirs : List DirEnt := []
  misses : Nat := 0
  deriving DecidableEq, Repr

/-- A slice of an adapter cache (spec 15 R275): its tag and its bytes, the number by which rows are pinned to it, and whether it is invalidated
once its pin falls (R278). The cache lists the most recently used first, which gives the ages; PIN is `pinOf`. -/
structure Slice where
  kindB : Bool
  aid : Nat
  tag : Nat
  block : Nat
  data : List Byte
  id : Nat := 0
  stale : Bool := false
  deriving DecidableEq, Repr

/-- A directory read or a slice fetch in flight (spec 15 R277, R279): the matrix element that missed, what is fetched, and whether a fault holds it,
with the value that substitutes what cannot be fetched; `again` says that an invalidation has since taken the entry that names it (R278). -/
structure Fill where
  id : Nat
  l : Loc
  ctx : Nat
  aid : Nat
  tag : Nat
  /-- none for the directory; else whether it is a B slice, its block, and the entry that names it -/
  slice : Option (Bool × Nat × DirEnt)
  held : Bool := false
  sub : Option Word := none
  depth : Nat := 0
  again : Bool := false
  deriving DecidableEq, Repr

/-- An acknowledgement of `ad.inv` that waits for pinned slices (spec 15 R278): its entry, its count, and the slices still to go. -/
structure AdInv where
  rid : Nat
  count : Nat
  left : List Nat
  deriving DecidableEq, Repr

/-! ### Engines -/

/-- The engines of a die that take commands (spec 12 R211). -/
inductive Engine
  | copy (die n : Nat)
  | winnow (die : Nat)
  | coll (die : Nat)
  | dvl (die : Nat)
  | agent (die : Nat)
  deriving DecidableEq, Repr

/-- How far a command has come. -/
inductive CmdPhase
  /-- in its engine's queue -/
  | queued
  /-- its record is to be read -/
  | fetch
  /-- it performs its accesses -/
  | run
  /-- its packet is on its way in a reduction tree -/
  | wait
  /-- held by a fault -/
  | held
  /-- all its accesses are done -/
  | done
  deriving DecidableEq, Repr

/-- An engine command (spec 13 R235 to R245), of an engine port element or of a COPY or COLLECTIVE node: its operands, the index channel
that it reads, its inline words, the indexes read (none for one whose read was killed) and whether there are more, its record, the bytes in
hand (none for one whose read was killed), the unit and the access in hand, its counts, status and flags, the entry of its completion,
whether an access of it was killed and whether the next one is, its count of re-executions, the value that substitutes a read, the
adapter entry that it has read, what a node's completion reports of the kill, whether the read of its record is held, and for an element's command the
first cycle whose triggers see it (08 R135). -/
structure Cmd where
  id : Nat
  l : Loc
  parcel : Option Nat := none
  node : Option (Nat × Nat) := none
  ctx : Nat := 0
  i : Instr
  eng : Engine
  a : Word := 0
  b : Word := 0
  feed : Option (Fin 4) := none
  inl : List Word := []
  idx : List (Option Nat) := []
  idxEnd : Bool := false
  phase : CmdPhase := .queued
  record : List Byte := []
  buf : List (Option Byte) := []
  acc : Nat := 0
  pos : Nat := 0
  good : Bool := true
  cnt : Nat := 0
  bad : Nat := 0
  status : Nat := 0
  flags : Flags7 := 0
  rid : Nat := 0
  killed : Bool := false
  skip : Bool := false
  broken : Bool := false
  depth : Nat := 0
  sub : Option Word := none
  ent : Option DirEnt := none
  kinfo : Word := 0
  fetching : Bool := false
  born : Nat := 0
  deriving DecidableEq, Repr

/-- A packet of a reduction tree (spec 16 R294) on its way to a router: the port that it enters (0 local, 1 west, 2 east, 3 north, 4 south),
its lanes, the plots that it includes, its marks and flags, the command that sent it, with RES, and the cycle in which it arrives. -/
structure TreePkt where
  id : Nat
  plot : Nat
  tree : Nat
  grp : Nat
  port : Nat
  fmt : Nat
  fcs : Fcs
  lanes : List Nat
  bits : Nat
  partial_ : Bool
  mark : Bool
  flags : Flags7
  cmd : Nat
  res : Nat
  at_ : Nat
  deriving DecidableEq, Repr

/-- A group that is open at a router: FMT and FCS of its first input, the inputs by port (one that mismatched has no lanes), the section cycle
in which the first came, its marks, and whether its timer has expired. -/
structure TreeGroup where
  plot : Nat
  tree : Nat
  grp : Nat
  fmt : Nat
  fcs : Fcs
  ins : Tbl TreePkt := []
  since : Nat
  mark : Bool := false
  rootBad : Bool := false
  expired : Bool := false
  deriving DecidableEq, Repr

/-! ### Elements -/

/-- An arrival record (spec 16 R281, R283): its group and generation, DONE, whether it has been counted, the section cycle in which it is
counted, once it is countable, and the earlier requests of the element that must be performed before it is. -/
structure Arrival where
  group : Fin 32
  gen : Nat
  done : Bool
  counted : Bool
  countAt : Option Nat
  after : List Nat
  deriving DecidableEq, Repr

/-- An armed watch (spec 16 R284): its group, its target generation, the section cycle in which it was armed and the one in which it
expires, its predicate update, the entry that its result fills, and the slot that armed it. -/
structure Watch where
  group : Fin 32
  target : Nat
  armedAt : Nat
  expireAt : Option Nat
  upd : PUpd
  rid : Nat
  deriving DecidableEq, Repr

/-- One element (spec 08 R128): its configuration, its registers, its channels and its unit's own state. `late` holds the arrivals that are still to be
counted behind the arrival record (spec 16 R283), `joined` the tokens of its own that were dequeued in this cycle (spec 08 R135). -/
structure Elem where
  present : Bool := false
  kind : Kind := .ce
  slots : Vector Word 16 := Vector.replicate 16 0
  wave : Vector (BitVec 16) 16 := Vector.replicate 16 0x7FFF
  fan : BitVec 4 := 0
  pol : Policy := .defer
  err : Bool := false
  p : BitVec 8 := 0
  flg : Word := 0
  fpm : Word := 0
  pix : Word := 0
  ws : Word := 0
  ptr : Vector (Fin 16) 3 := Vector.replicate 3 0
  d : Vector Word 8 := Vector.replicate 8 0
  c0 : Word := 0
  c1 : Word := 0
  k : Word := 0
  ins : Vector InPort 4 := Vector.replicate 4 {}
  outs : Vector OutPort 4 := Vector.replicate 4 {}
  resting : Bool := false
  blocked : Bool := false
  killed : Bool := false
  cfgFrozen : Bool := false
  dead : Bool := false
  firedAt : Nat := 0
  arrival : Option Arrival := none
  late : List Arrival := []
  watch : Option Watch := none
  rq : Tbl RqEntry := []
  redo : List Redo := []
  waveNo : BitVec 16 := 0
  waveSeen : List Nat := []
  joins : List Nat := []
  joinFl : List (Nat × Flags7) := []
  joined : List Nat := []
  bound : Nat := 0
  tcnt : BitVec 32 := 0
  resv : Nat := 0
  reading : List Word := []
  deriving DecidableEq, Repr

/-! ### The schedule -/

/-- The firing that the next instruction of an element is part of: element, slot, width in beats, beat, mode, and the operands
and the count of re-executions of a re-executed beat. MODEL's own. -/
structure Cursor where
  l : Loc := ⟨0, 0⟩
  slot : Fin 16 := 0
  beats : Nat := 1
  beat : Nat := 0
  mode : BeatMode := .normal
  cap : Option (Word × Word × Word) := none
  depth : Nat := 0
  deriving DecidableEq, Repr

/-- A turn of the cycle's agenda: an element, or a step of another agent. MODEL's own. -/
inductive Turn
  | elem (l : Loc)
  | ev (i : Instr)
  deriving DecidableEq, Repr

/-- The clock, and the model's own schedule (log 2, 3, 4). -/
structure Sched where
  cycle : Nat := 0
  tsBase : Nat := 0
  moves : List Instr := []
  agenda : List Turn := []
  stalls : List Bool := []
  cur : Cursor := {}
  nextId : Nat := 1
  freeCtr : Nat := 0
  deriving DecidableEq, Repr

/-! ### Plots -/

/-- A stage of a ring (spec 11 R192). -/
structure Stage where
  full : Bool := false
  owner : Nat := 63
  handle : Nat
  deriving DecidableEq, Repr

/-- A stage ring with its indexes, its two arbiters' pointers, and the sites that they grant in this cycle (spec 11 R192, R193). -/
structure Ring where
  stages : List Stage
  pi : Nat := 0
  ci : Nat := 0
  ptrP : Nat := 0
  ptrC : Nat := 0
  grantP : Option Nat := none
  grantC : Option Nat := none
  deriving DecidableEq, Repr

/-- The state of a configuration slot (spec 07 R123). -/
inductive CState
  | invalid | filling | valid | pinned
  deriving DecidableEq, Repr

/-- A configuration slot (spec 07 R123): its tag, its block, the offsets of the packets still to come, and its last placement. -/
structure CSlot where
  st : CState := .invalid
  ctx : Nat := 0
  desc : Nat := 0
  hash : Nat := 0
  idx : Nat := 0
  shape : Nat := 0
  blen : Nat := 0
  block : List Byte := []
  todo : List Nat := []
  sig : Nat := 0
  last : Nat := 0
  deriving DecidableEq, Repr

/-- What a plot's trace unit is told of in a cycle (spec 19 R337): the site, TYPE (none for an event that only triggers), bits [91:0], whether it is the
trigger event (R338), and whether it is a firing. -/
structure TraceRec where
  site : Nat
  type : Option Nat
  body : Nat
  trig : Bool
  firing : Bool
  deriving DecidableEq, Repr

/-- The trace unit of a plot (spec 19 R337, R338): control word, records, write position, records still to be written after the
trigger, the events of the present cycle, and the records that were dropped and not yet reported. -/
structure Trace where
  ctl : Word := 0
  buf : Tbl (BitVec 128) := []
  pos : Nat := 0
  post : Option Nat := none
  evs : List TraceRec := []
  lost : Nat := 0
  deriving DecidableEq, Repr

/-- A bank of the plot store (spec 11 R191): its waiting set in order of admission, its admission pointer, its counter. -/
structure Bank where
  wait : List Nat := []
  ptr : Nat := 0
  conflicts : Nat := 0
  deriving DecidableEq, Repr

/-- One plot. `cslot` is the configuration slot that its section uses, `loaded` says that its elements are configured, `patchWords` gives the argument words
read so far, `subst` the value that a repair gives for the next one, `depth` its count of re-executions, and `restore` says that a saved
state is to be restored in place of the start sequence (spec 07 R122). `owner` is the context whose bytes the store holds (01 R18). `tileWas` holds what an entry changed in a cycle was at its start (spec 08 R135, 13 R215). -/
structure Plot where
  parcel : Option Nat := none
  started : Bool := false
  empty : Bool := false
  active : Bool := false
  cfgFrozen : Bool := false
  held : Bool := false
  withdrawn : Bool := false
  store : List Host.Cell := []
  poison : List Nat := []
  owner : Option Nat := none
  tiles : Tbl Tile := []
  tileWas : Tbl (Nat × Tile) := []
  slices : List Slice := []
  fills : List Fill := []
  invs : List AdInv := []
  hash : List (BitVec 32) := [0x40, 0x80, 0x100, 0x200, 0x400]
  hashAt : Nat := 0
  banks : Tbl Bank := []
  rings : Tbl Ring := []
  cslots : Vector CSlot 4 := Vector.replicate 4 {}
  cslot : Option Nat := none
  loaded : Bool := false
  patchWords : List Word := []
  subst : Option Word := none
  depth : Nat := 0
  restore : Bool := false
  trace : Trace := {}
  deriving DecidableEq, Repr

/-! ### Parcels -/

/-- Whether a parcel runs, is coming to a freeze, or is frozen; `drill` tells a freeze for pre-emption or by the drill. -/
inductive Frz
  | run
  | stopping (drill : Bool)
  | frozen (drill : Bool)
  deriving DecidableEq, Repr

/-- A barrier group (spec 16 R281): members and pending masks by plot, generation, counted arrivals, and the cycles in which
completions are observed. -/
structure BarGroup where
  members : Tbl (BitVec 32) := []
  gen : Nat := 0
  arrived : List Loc := []
  pending : Tbl (BitVec 32) := []
  seen : List (Nat × Nat) := []
  deriving DecidableEq, Repr

/-- A region record (spec 03 R56): tree or containment region, its rectangle in parcel offsets, root, policy and timeout. -/
structure Region where
  tree : Bool
  id : Nat
  dx : Nat
  dy : Nat
  w : Nat
  h : Nat
  rx : Nat
  ry : Nat
  pol : Policy
  tmo : Nat
  deriving DecidableEq, Repr

/-- How a section was ended before it settled, and what its completion reports (spec 04 R82, 20 R341). -/
structure Ending where
  status : Nat
  sub : Nat := 0
  info : Word := 0
  deriving DecidableEq, Repr

/-- Where a section that is pre-empted stands (spec 07 R122, 18 R323). -/
inductive SaveStage
  | placed | freezing | saving | saved | resuming
  deriving DecidableEq, Repr

/-- A repair of a fault, or of one of its items, or a policy, recorded while its owner is frozen or saved (spec 18 R324). -/
inductive Recorded
  | repair (fault : Nat) (item : Option HeldWhat) (ans : Answer)
  | policy (target : Word) (code : Nat)
  deriving DecidableEq, Repr

/-- A placed section (spec 01 R15, 07 R121): its node, rectangle and priority, what its image gives, and what it gathers. `sites` gives the
element records of each plot's block (03 R49), `chans` the channels (R53), `phys` says that its image stands in the code heap (05 R102), `desc` its descriptor, `plotOffs` the offsets of its plot blocks (R48), `patches` and `args`
its argument patches (R57), `inl` the inline words of a push (13 R243), `pinned` the origin that a placement by FIXED or override keeps,
`tokens` the initial tokens of a translated image (05 R97), and `kern` the address and the length of its kernel (03 R47). -/
structure Parcel where
  ctx : Nat := 0
  launch : Nat := 0
  node : Nat := 0
  x0 : Nat := 0
  y0 : Nat := 0
  w : Nat := 1
  h : Nat := 1
  prio : Nat := 0
  pol : Policy := .defer
  image : Nat := 0
  tiles : Nat := 0
  flagWord : Flags7 := 0
  sample : Bool := false
  cycles : Nat := 0
  frz : Frz := .run
  recorded : List Recorded := []
  frzAcks : List Nat := []
  wdog : Nat := 0
  wdogRan : Nat := 0
  wdogOn : Bool := false
  sites : Tbl (BitVec 32) := []
  chans : List (Loc × Fin 4 × Route) := []
  bars : Tbl BarGroup := []
  regions : List Region := []
  armed : Bool := false
  settled : Bool := false
  anyKill : Option (FaultClass × Nat × Nat) := none
  timedOut : Option Word := none
  ending : Option Ending := none
  treePkts : List TreePkt := []
  treeGroups : List TreeGroup := []
  treeShut : List (Nat × Nat × List Nat) := []
  hash : Nat := 0
  kflags : Nat := 0
  phys : Bool := false
  gen : Nat := 3
  desc : Nat := 0
  plotOffs : List Nat := []
  patches : List Word := []
  args : Nat := 0
  inl : List Word := []
  pinned : Option (Nat × Nat) := none
  tokens : List (Nat × Nat × List Token) := []
  kern : Nat × Nat := (0, 0)
  saveSlot : Option Nat := none
  stage : SaveStage := .placed
  deriving DecidableEq, Repr

/-! ### Contexts and dies -/

/-- An open round of a reduction window (spec 16 R298). -/
structure Round where
  off : Nat
  since : Nat
  first : Contribution
  all : List Contribution
  deriving DecidableEq, Repr

/-- A reduction window (spec 16 R297). -/
structure Window where
  whpa : Word := 0
  wlen : Word := 0
  wctl : BitVec 32 := 0
  wcnt : BitVec 32 := 0
  wrank : BitVec 32 := 0
  wtmo : BitVec 32 := 0
  wstat : BitVec 32 := 0
  weoff : Word := 0
  rounds : List Round := []
  deriving DecidableEq, Repr

/-- A context (spec 20 R348, 12 R207, 16 R297). -/
structure Ctx where
  troot : Word := 0
  ccfg : BitVec 32 := 0
  csvb : Word := 0
  csvn : BitVec 32 := 0
  saveUsed : List Nat := []
  seals : List (Nat × Nat) := []
  wins : Tbl Window := []
  deriving DecidableEq, Repr

/-- A field die's own state; `spareUsed` holds the logical plots whose physical ones have been retired (spec 19 R333). -/
structure Die where
  handler : Bool := false
  store : List Nat := []
  nextFid : Nat := 0
  fidWait : List Nat := []
  tlb : List TlbEntry := []
  misses : List Miss := []
  wps : Vector HomeWp 8 := Vector.replicate 8 {}
  hmsg : Word := 0
  hfn : Nat := 0
  hvec : Nat := 0
  hpend : Bool := false
  hrid : Nat := 0
  hreply : Word := 0
  nodeCache : List Nat := []
  corrected : Nat := 0
  dropped : Nat := 0
  reported : List Nat := []
  spareUsed : List Nat := []
  copyLast : Tbl Nat := []
  deriving DecidableEq, Repr

/-! ### The drill (spec 06) -/

/-- A record in a queue, as LF3 bytes, with its sequence number and the time of its acceptance (spec 06 R106 to R108). -/
structure LRec where
  raw : List Byte
  seq : Nat
  tacc : Nat
  deriving DecidableEq, Repr

/-- A launch queue (spec 06 R105): its registers, the accepted records, and the outcomes of its last 1,024 launches. -/
structure LQueue where
  qcfg : BitVec 32 := 0
  qstat : BitVec 32 := 0
  hold : Bool := false
  reset : Nat := 0
  qirq : BitVec 32 := 0
  accept : Nat := 0
  recs : List LRec := []
  past : List (Nat × Nat) := []
  deriving DecidableEq, Repr

/-- How far a node of a launch has come. -/
inductive NPhase
  /-- waiting on its count -/
  | counting
  /-- ready, outside a full granary -/
  | outside
  /-- in the granary -/
  | granary
  /-- dispatched, or executed by the drill -/
  | running
  /-- completed: its completion has arrived, or has been applied -/
  | arrived
  | done
  deriving DecidableEq, Repr

/-- A node of a launch (spec 03 R59 to R62, 06 R113): its record and successors as read, its count, priority and place in the granary, when
it became ready or last aged, what runs it, and how it ended. `agent` is the die whose dispatch agent keeps it in its part of the granary (06 R113). `absorbed` says that a successor has absorbed its failure. -/
structure NodeSt where
  addr : Nat
  raw : List Byte := []
  succ : List Nat := []
  count : Nat := 0
  phase : NPhase := .counting
  pbase : Nat := 0
  prio : Nat := 0
  order : Nat := 0
  since : Nat := 0
  retried : Bool := false
  again : Bool := false
  inl : List Word := []
  pushed : Bool := false
  held : Bool := false
  sub_ : Option Word := none
  depth : Nat := 0
  timer : Nat := 0
  pollAt : Nat := 0
  chosen : List Nat := []
  parcel : Option Nat := none
  cmd : Option Nat := none
  nested : Option Nat := none
  origin : Option (Nat × Nat) := none
  agent : Option Nat := none
  reserved : Option (Nat × Nat) := none
  image : Option Nat := none
  xlate : Option Nat := none
  status : Nat := 0
  sub : Nat := 0
  info : Word := 0
  flags : Flags7 := 0
  absorbed : Bool := false
  deriving DecidableEq, Repr

/-- How a launch is being ended (spec 06 R115 to R118). -/
inductive LEnd
  | no | drain | abort | timeout | killParent | killed
  deriving DecidableEq, Repr

/-- A status other than OK that a node of a launch wrote and that nothing has absorbed yet (spec 06 R118): the node and its record's address, or no node
for a launch that AFTER names, and what was written. -/
structure Failure where
  node : Option Nat
  addr : Nat
  status : Nat
  sub : Nat := 0
  info : Word := 0
  deriving DecidableEq, Repr

/-- A launch in the drill's table (spec 06 R111, R118): its record and context, its parent where it is nested, its nodes by number, the node records
and successors that it has read, by address (03 R61), and what its completion record needs. -/
structure Launch where
  ctx : Nat := 0
  pol : Policy := .defer
  queue : Nat := 0
  seq : Nat := 0
  raw : List Byte := []
  tacc : Nat := 0
  order : Nat := 0
  taken : Nat := 0
  parent : Option (Nat × Nat) := none
  level : Nat := 0
  waits : Bool := false
  nodes : Tbl NodeSt := []
  ends : LEnd := .no
  cancelled : Bool := false
  aborted : Bool := false
  records : Tbl (List Byte × List Nat) := []
  first : List Failure := []
  flags : Flags7 := 0
  nrun : Nat := 0
  logs : Nat := 0
  elapsed : Nat := 0
  kill : Word := 0
  deriving DecidableEq, Repr

/-- A translation in progress (spec 05 R97): its key, the context and the address of its function entry, the shape, and what the translator has
read: the entry, its offset from the Jerix header, and the kernel from that header on. -/
structure Xlate where
  id : Nat
  key : BitVec 256
  ctx : Nat
  fun_ : Nat
  shape : Nat
  entry : List Byte
  at_ : Nat
  body : List Byte
  deriving DecidableEq, Repr

/-- An image in the code heap (spec 05 R102): its key, its place and its last dispatch. -/
structure HeapEnt where
  key : BitVec 256
  addr : Nat
  len : Nat
  last : Nat
  tokens : List (Nat × Nat × List Token)
  deriving DecidableEq, Repr

/-- An entry of the silo (spec 05 R99, R100): its key, its image with the initial tokens, its hits and the nanosecond of the last one (before 0 for one
before the present power-up), its flash block, and its trailer of a key and a CRC. -/
structure SiloEnt where
  key : BitVec 256
  image : List Byte
  tokens : List (Nat × Nat × List Token)
  hits : Nat
  last : Int
  block : Nat
  trailKey : BitVec 256
  trailCrc : Word
  deriving DecidableEq, Repr

/-- The drill's own state (spec 06, 05). Kills of launches and contexts that the containment chain asks for,
and of control nodes, each with what its completion reports (20 R341). -/
structure Drill where
  queues : Tbl LQueue := []
  lastQ : Tbl Nat := []
  launches : Tbl Launch := []
  killLaunch : List (Nat × Word) := []
  killCtx : List (Nat × Word) := []
  killNode : List (Nat × Nat × Word) := []
  xlates : List Xlate := []
  heap : List HeapEnt := []
  silo : List SiloEnt := []
  erased : Tbl Nat := []
  hits : Nat := 0
  misses : Nat := 0
  purging : Bool := false
  kernels : List (Nat × Nat × Nat) := []
  deriving DecidableEq, Repr

/-! ### The Reeve and the world outside (spec 19, 20) -/

/-- A DVL port (spec 20 R352). -/
structure DvlPort where
  up : Bool := true
  lanes : Nat := 2
  spare : Bool := false
  failed : Nat := 0
  peer : Nat := 0
  deriving DecidableEq, Repr

/-- The Reeve's registers (spec 20 R354), whether it holds plots from firing (R353), the firmware image that it has staged and the components still
to switch (19 R335), its signature index, its measurement log and what of it the report in progress holds (R356, R357), the spare channels used per stack (19 R334), and the PCIe link. -/
structure Reeve where
  bank : Nat := 0
  tripped : Bool := false
  power : Nat := 0
  temp : Nat := 0
  pcap : BitVec 32 := 0
  lock : Bool := false
  fwaddr : Word := 0
  fwstat : Nat := 0
  staged : Bool := false
  toSwitch : Nat := 0
  ataddr : Word := 0
  nonce : BitVec 256 := 0
  atstat : Nat := 0
  atindex : Nat := 0
  mlog : List (BitVec 256) := []
  snap : List (BitVec 256) := []
  told : List (Loc × FaultClass × Nat) := []
  holding : Bool := false
  spares : Tbl Nat := []
  repairs : List Nat := []
  ports : List DvlPort := List.replicate 12 {}
  pcieUp : Bool := true
  railsOff : Bool := false
  deriving DecidableEq, Repr

/-- A write that was handed to the PCIe link (spec 17 R310): its address, its length, whether it carries Relaxed Ordering, and its cycle. -/
structure PcieWrite where
  addr : Nat
  len : Nat
  relaxed : Bool
  at_ : Nat
  deriving DecidableEq, Repr

/-- What the save area of a parcel holds beside its plot stores (spec 18 R322; log 20): the base, the origin and shape of the parcel as saved,
and its state. -/
structure Saved where
  base : Nat
  x0 : Nat
  y0 : Nat
  w : Nat
  h : Nat
  owner : Nat
  parcel : Parcel
  elems : Tbl Elem
  plots : Tbl Plot
  les : Tbl LeUnit
  ses : Tbl SeUnit
  mes : Tbl MeUnit
  reqs : List Req
  results : List Result
  lines : List LineReq
  cmds : List Cmd
  deriving DecidableEq, Repr

/-- The machine's state. -/
structure State where
  sched : Sched := {}
  elems : Tbl Elem := []
  plots : Tbl Plot := []
  parcels : Tbl Parcel := []
  dies : Tbl Die := []
  ctxs : Tbl Ctx := []
  faults : List FaultRec := []
  reqs : List Req := []
  results : List Result := []
  les : Tbl LeUnit := []
  ses : Tbl SeUnit := []
  mes : Tbl MeUnit := []
  lines : List LineReq := []
  cmds : List Cmd := []
  drill : Drill := {}
  reeve : Reeve := {}
  saved : List Saved := []
  outputs : List (List Byte) := []
  dvl : Tbl Word := []
  dvlWrites : List (Nat × Word) := []
  pcie : List PcieWrite := []
  mem : List Host.Cell := []
  memPoison : List Nat := []
  msix : List (Nat × Nat × Nat) := []
  deriving DecidableEq, Repr

/-- The machine right after reset. -/
def State.reset : State := {}

end Sys2Proof.Machine
end

