-- ==== Sys2Proof/Machine/Access.lean ====
section
/-!
DEFINITION. The one home of each piece of state: reading and writing an element, a plot, a parcel, a die and a context; the special
registers laid out by spec 02 R36 and 08 R129; queues, channels and their tokens (spec 08 R130, R131, R135, R137).
-/

namespace Sys2Proof.Machine

/-! ### Tables -/

/-- Insert into a list ordered by a key. -/
def insertKey {α : Type} (lt : α → α → Bool) (x : α) : List α → List α
  | [] => [x]
  | y :: ys => if lt x y then x :: y :: ys else y :: insertKey lt x ys
def sortKey {α : Type} (lt : α → α → Bool) (xs : List α) : List α := xs.foldl (fun ys x => insertKey lt x ys) []

/-- The key of an element. -/
def locKey (l : Loc) : Nat := l.plot * 32 + l.site
def locOfKey (n : Nat) : Loc := ⟨n / 32, n % 32⟩

/-- The element at a place; an absent site holds nothing (spec 03 R49). -/
def getElem (s : State) (l : Loc) : Elem := Tbl.findD s.elems (locKey l) {}
def setElem (s : State) (l : Loc) (e : Elem) : State := { s with elems := Tbl.put s.elems (locKey l) e }
def modElem (s : State) (l : Loc) (f : Elem → Elem) : State := setElem s l (f (getElem s l))

def getPlot (s : State) (n : Nat) : Plot := Tbl.findD s.plots n {}
def setPlot (s : State) (n : Nat) (p : Plot) : State := { s with plots := Tbl.put s.plots n p }
def modPlot (s : State) (n : Nat) (f : Plot → Plot) : State := setPlot s n (f (getPlot s n))

def getParcel (s : State) (n : Nat) : Parcel := Tbl.findD s.parcels n {}
def setParcel (s : State) (n : Nat) (p : Parcel) : State := { s with parcels := Tbl.put s.parcels n p }
def modParcel (s : State) (n : Nat) (f : Parcel → Parcel) : State := { s with parcels := Tbl.alter s.parcels n f }

def getDie (s : State) (n : Nat) : Die := Tbl.findD s.dies n {}
def setDie (s : State) (n : Nat) (d : Die) : State := { s with dies := Tbl.put s.dies n d }
def modDie (s : State) (n : Nat) (f : Die → Die) : State := setDie s n (f (getDie s n))

def getCtx (s : State) (n : Nat) : Ctx := Tbl.findD s.ctxs n {}
def setCtx (s : State) (n : Nat) (c : Ctx) : State := { s with ctxs := Tbl.put s.ctxs n c }
def modCtx (s : State) (n : Nat) (f : Ctx → Ctx) : State := setCtx s n (f (getCtx s n))

/-- The schedule changed. -/
def modSched (s : State) (f : Sched → Sched) : State := { s with sched := f s.sched }

/-- The present cycle. -/
def now (s : State) : Nat := s.sched.cycle

/-- A number that nothing in the state bears yet (log 4). -/
def freshId (s : State) : Nat := s.sched.nextId
def bumpId (s : State) : State := modSched s fun c => { c with nextId := c.nextId + 1 }

/-! ### Places -/

/-- A headland plot (spec 00 R3): 512 + die. -/
def isHeadland (plot : Nat) : Bool := decide (512 ≤ plot)
def plotX (plot : Nat) : Nat := plot % 32
def plotY (plot : Nat) : Nat := plot / 32
def plotAt (x y : Nat) : Nat := y * 32 + x

/-- The plots of a rectangle, by plot index. -/
def rectPlots (x0 y0 w h : Nat) : List Nat := (List.range (w * h)).map fun i => plotAt (x0 + i % w) (y0 + i / w)

/-- The plots of a parcel. -/
def parcelPlots (p : Parcel) : List Nat := rectPlots p.x0 p.y0 p.w p.h

/-- The block of a plot of a parcel is known: it is empty, or has been read (spec 07 R125, R126). -/
def blockKnown (s : State) (p : Parcel) (plot : Nat) : Bool := (getPlot s plot).empty || (Tbl.find p.sites plot).isSome

/-- The field die of a plot (spec 00 R3). -/
def dieOf (plot : Nat) : Nat := if 512 ≤ plot then plot - 512 else plotX plot / 16 + 2 * (plotY plot / 8)

/-- The kind of a site (spec 00 R3). -/
def kindOfSite (site : Nat) : Kind :=
  if site < 16 then .ce else if site < 20 then .me else if site < 24 then .se else if site < 28 then .le
  else if site < 30 then .xe else .fe

/-- `eid`.KIND (spec 08 R129). -/
def kindCode : Kind → Nat
  | .ce => 0
  | .fe => 1
  | .se => 2
  | .le => 3
  | .xe => 4
  | .me => 5

/-- Die boundaries between two plots (spec 00 R3). -/
def crossings (a b : Nat) : Nat :=
  (if plotX a / 16 = plotX b / 16 then 0 else 1) + (if plotY a / 8 = plotY b / 8 then 0 else 1)

/-- The logical plots whose physical ones have been retired (spec 19 R333). -/
def retired (s : State) : List Nat := s.dies.flatMap fun x => x.2.spareUsed

/-- A route from a along its row, and then along the column of b, passes a retired position of the plots n (spec 19 R333; log 53). -/
def passesRetired (a b n : Nat) : Bool :=
  (plotY n == plotY a && decide (min (plotX a) (plotX b) < plotX n) && decide (plotX n ≤ max (plotX a) (plotX b))) ||
  (plotX n == plotX b && plotY n != plotY a && decide (min (plotY a) (plotY b) ≤ plotY n) && decide (plotY n ≤ max (plotY a) (plotY b)))

/-- 1 + H + 4X of a long channel, H at least 1 (spec 08 R131), and a cycle for each retired position that it passes (19 R333). -/
def longDist (gone : List Nat) (a b : Nat) : Nat :=
  let h := (max (plotX a) (plotX b) - min (plotX a) (plotX b)) + (max (plotY a) (plotY b) - min (plotY a) (plotY b))
  1 + max 1 h + 4 * crossings a b + (gone.filter (passesRetired a b)).length

/-- The context that an element works for; a headland plot belongs to none (spec 18 R319). -/
def ctxOf (s : State) (plot : Nat) : Nat :=
  match (getPlot s plot).parcel with
  | some p => (getParcel s p).ctx
  | none => 0

/-- Whether the parcel of a plot is frozen or coming to a freeze (spec 18 R321). -/
def plotFrozen (s : State) (plot : Nat) : Bool :=
  match (getPlot s plot).parcel with
  | some p => (getParcel s p).frz != .run || !(getParcel s p).recorded.isEmpty
  | none => false

/-- Whether the parcel of a plot has stopped, or has recorded answers still to be applied: what was due before it stopped is over (spec 18 R321,
R324). -/
def plotStopped (s : State) (plot : Nat) : Bool :=
  match (getPlot s plot).parcel with
  | some p => (match (getParcel s p).frz with
    | .frozen _ => true
    | _ => false) || !(getParcel s p).recorded.isEmpty
  | none => false

/-- Whether the section of a plot has been ended (spec 04 R82). -/
def plotEnded (s : State) (plot : Nat) : Bool :=
  match (getPlot s plot).parcel with
  | some p => (getParcel s p).ending.isSome
  | none => false

/-- Nanoseconds of the package timestamp counter (spec 00 R4; log 3). -/
def timestamp (s : State) : Nat := s.sched.tsBase + now s * 10 / 27

/-- ceil(t × 2.7) field cycles for t nanoseconds (spec 00 R11). -/
def cyclesOfNs (t : Nat) : Nat := (t * 27 + 9) / 10

/-! ### Special registers -/

/-- `eid` (spec 08 R129). -/
def eidOf (l : Loc) : Word := BitVec.ofNat 64 (kindCode (kindOfSite l.site) * 32 + l.site)

/-- `pxy` (spec 08 R129). -/
def pxyOf (s : State) (plot : Nat) : Word :=
  match (getPlot s plot).parcel with
  | some p =>
    let q := getParcel s p
    BitVec.ofNat 64 (plotX plot + 256 * (plotY plot + 256 * ((plotX plot - q.x0) + 256 * (plotY plot - q.y0))))
  | none => 0

/-- `pix` as laid out by spec 08 R129. -/
def pixWord (step beat : Nat) (act : Bool) (slot : Nat) : Word :=
  BitVec.ofNat 64 (step % 65536 * 65536 + beat % 32 * 32 + (if act then 16 else 0) + slot % 16)
def pixStep (w : Word) : Nat := bitsOf w.toNat 31 16
def pixBeat (w : Word) : Nat := bitsOf w.toNat 9 5
def pixAct (w : Word) : Bool := w.getLsbD 4
def pixSlot (w : Word) : Fin 16 := ⟨w.toNat % 16, Nat.mod_lt _ (by decide)⟩

/-- A firing that has completed part of its work is in progress (spec 08 R129, R133). -/
def midFiring (e : Elem) : Bool := pixAct e.pix && (pixBeat e.pix != 0 || pixStep e.pix != 0)

/-- TE and RD of `fpm` (spec 02 R36). -/
def fpmTE (w : Word) : Flags := w.extractLsb' 8 7
def fpmRD (w : Word) : Nat := w.toNat % 4
def fpmMask : Word := 0x7F03

/-- `flg` [6:0]. -/
def flgBits (w : Word) : Flags := w.setWidth 7

/-- OR flags into `flg` (spec 02 R36). -/
def orFlags (e : Elem) (f : Flags) : Elem := { e with flg := e.flg ||| f.setWidth 64 }

/-- `ws` (spec 08 R129): 0 IDLE, 1 ARMED, 2 COMPLETE, 3 EXPIRED. -/
def wsWord (grp st : Nat) : Word := BitVec.ofNat 64 (grp % 32 * 4 + st % 4)
def wsState (w : Word) : Nat := w.toNat % 4

/-- A predicate, and a predicate written. -/
def predOf (e : Elem) (k : Fin 8) : Bool := e.p.getLsbD k.val
def setPredBit (e : Elem) (k : Fin 8) (v : Bool) : Elem :=
  let m : BitVec 8 := 1#8 <<< k.val
  { e with p := (e.p &&& ~~~m) ||| (if v then m else 0) }

/-- SetPred(pmode, pk, v) (spec 08 R135). -/
def setPred (e : Elem) (u : PUpd) (v : Bool) : Elem :=
  match u with
  | .none => e
  | .result k => setPredBit e k v
  | .one k => setPredBit e k true
  | .zero k => setPredBit e k false

/-! ### Bytes

Memory lists the bytes that are not 0, in strictly rising address order; an unlisted byte reads as 0 (log 7, 8). -/

/-- What an unlisted byte reads as (log 7, 8). -/
def blankByte : Byte := 0

/-- The canonical form: strictly rising addresses, and no byte that is blank. -/
def Memory.wf : List Host.Cell → Bool
  | [] => true
  | (_, v) :: [] => v != blankByte
  | (a, v) :: (b, w) :: t => v != blankByte && decide (a < b) && Memory.wf ((b, w) :: t)

/-- The byte at an address. -/
def readByte : List Host.Cell → Nat → Byte
  | [], _ => blankByte
  | (a, v) :: t, n => if n = a then v else if n < a then blankByte else readByte t n

/-- Write one byte, keeping the canonical form. -/
def writeByte : List Host.Cell → Nat → Byte → List Host.Cell
  | [], n, x => if x = blankByte then [] else [(n, x)]
  | (a, v) :: t, n, x =>
    if n < a then (if x = blankByte then (a, v) :: t else (n, x) :: (a, v) :: t)
    else if n = a then (if x = blankByte then t else (n, x) :: t)
    else (a, v) :: writeByte t n x

/-- n bytes from an address on. -/
def readBytes (m : List Host.Cell) (a n : Nat) : List Byte := (upFrom a n).map (readByte m)

/-- Write bytes from an address on. -/
def writeBytes : List Host.Cell → Nat → List Byte → List Host.Cell
  | m, _, [] => m
  | m, a, b :: bs => writeBytes (writeByte m a b) (a + 1) bs

/-- A little-endian number of n bytes (spec 02 R25). -/
def readNum (m : List Host.Cell) (a n : Nat) : Nat := ofBytes (readBytes m a n)
def writeNum (m : List Host.Cell) (a n v : Nat) : List Host.Cell := writeBytes m a (bytesOf n v)

/-! ### Queues -/

/-- Entries taken from the queue in this cycle. -/
def popsAt (t : Nat) (q : Queue) : Nat := if q.popAt = t then q.pops else 0

/-- Places that a producer sees free in cycle t: pops of the same cycle are not seen (spec 08 R137). -/
def queueFree (depth t : Nat) (q : Queue) : Nat := depth - (q.es.length + popsAt t q)

/-- The tokens that a consumer sees in cycle t, head first: up to the first entry that is reserved or not yet seen. -/
def seenTokens (t : Nat) : List Entry → List Token
  | [] => []
  | e :: es =>
    match e.body with
    | some tok => if e.since ≤ t then tok :: seenTokens t es else []
    | none => []

/-- Remove the head in cycle t. -/
def queuePop (t : Nat) (q : Queue) : Queue := { es := q.es.tail, popAt := t, pops := popsAt t q + 1 }

def queuePush (q : Queue) (x : Entry) : Queue := { q with es := q.es ++ [x] }

/-- Entries of an input queue or an output queue (spec 08 R131). -/
def inDepth (k : Kind) (n : Fin 4) : Nat := if k.wideCh n then 4 else 16
def longDepth : Nat := 8

/-- Channel n exists on the kind: i2, i3 and their outputs stand on CE, FE and XE, the wide ones on SE, LE and ME. -/
def inPort (e : Elem) (n : Fin 4) : InPort := e.ins[n]
def outPort (e : Elem) (n : Fin 4) : OutPort := e.outs[n]
def setIn (e : Elem) (n : Fin 4) (p : InPort) : Elem := { e with ins := e.ins.set n p }
def setOut (e : Elem) (n : Fin 4) (p : OutPort) : Elem := { e with outs := e.outs.set n p }

/-- The tokens that input n shows in this cycle. -/
def headTokens (s : State) (l : Loc) (n : Fin 4) : List Token := seenTokens (now s) (inPort (getElem s l) n).q.es

/-- The head of input n. -/
def headToken (s : State) (l : Loc) (n : Fin 4) : Option Token := (headTokens s l n).head?

/-- An element that takes tokens: one that is present and not blocked (spec 03 R49, 04 R82). -/
def accepts (e : Elem) : Bool := e.present && !e.blocked

/-- Free entries of output n's channel (spec 08 R131, R137). A killed consumer discards and never fills (spec 18 R320). -/
def outRoom (s : State) (l : Loc) (n : Fin 4) : Nat :=
  let o := outPort (getElem s l) n
  match o.route with
  | none => 0
  | some r =>
    if r.long then queueFree longDepth (now s) o.q
    else
      let e := getElem s r.dst
      if e.killed then inDepth e.kind r.port
      else if accepts e then queueFree (inDepth e.kind r.port) (now s) (inPort e r.port).q
      else 0

/-- Free entries that a slot sees: behind a release packet of an earlier firing there are none (spec 14 R254). -/
def outFree (s : State) (l : Loc) (n : Fin 4) : Nat :=
  let o := outPort (getElem s l) n
  if !o.pkt.isEmpty || o.owed != 0 then 0 else outRoom s l n

/-- Mark a plot active (spec 01 R22). -/
def markActive (s : State) (plot : Nat) : State := modPlot s plot fun p => { p with active := true }

/-- Append an entry to output n: to the destination queue of a plot-switch route, or to the output queue of a long channel. -/
def pushOut (s : State) (l : Loc) (n : Fin 4) (x : Entry) : State :=
  let e := getElem s l
  let o := outPort e n
  match o.route with
  | none => s
  | some r =>
    let s := markActive s l.plot
    if r.long then setElem s l (setOut e n { o with q := queuePush o.q x })
    else
      let d := getElem s r.dst
      if d.killed then s
      else
        let i := inPort d r.port
        setElem s r.dst (setIn d r.port { i with q := queuePush i.q x })

/-- Enqueue(o, v, tag), visible from the next cycle (spec 08 R135). -/
def enqueue (s : State) (l : Loc) (n : Fin 4) (tok : Token) : State :=
  pushOut s l n { body := some tok, since := now s + 1 }

/-- The outputs that a destination names (spec 04 R71): one, or those of the fan mask in ascending order. -/
def outsOf (e : Elem) : Dst → List (Fin 4)
  | .ch n => [n]
  | .fan => [(0 : Fin 4), 1, 2, 3].filter fun n => e.fan.getLsbD n.val
  | _ => []

/-- Every output that a destination names shows n free entries (spec 08 R133). -/
def roomFor (s : State) (l : Loc) (d : Dst) (n : Nat) : Bool :=
  (outsOf (getElem s l) d).all fun o => decide (n ≤ outFree s l o)

/-- Reserve an entry, numbered rid, on every output of the destination for an asynchronous result (spec 13 R215); where `join` says so,
the tokens are a memory request's or a command's, which are joined when they are dequeued (spec 17 R305). -/
def reserve (s : State) (l : Loc) (d : Dst) (rid : Nat) (join : Bool) : State :=
  let outs := outsOf (getElem s l) d
  let s := if join then modElem s l fun e => { e with joins := e.joins ++ outs.map fun _ => rid } else s
  outs.foldl (fun s o =>
    pushOut s l o { rid := rid, own := if join then some l else none, body := none, since := now s + 1 }) s

/-- Whether an element has a memory request or an engine command that is not joined (spec 09 R145, 17 R305). -/
def unjoined (s : State) (l : Loc) : Bool :=
  !(getElem s l).joins.isEmpty || s.reqs.any (fun r => r.issuer == l) || s.cmds.any (fun c => c.l == l)

/-- Give every entry numbered rid a token, from the next cycle on. -/
def fillEntry (rid : Nat) (tok : Token) (t : Nat) (x : Entry) : Entry :=
  if x.rid = rid ∧ rid ≠ 0 then { x with body := some tok, since := t } else x

def fillQueue (rid : Nat) (tok : Token) (t : Nat) (q : Queue) : Queue := { q with es := q.es.map (fillEntry rid tok t) }

def fillElem (rid : Nat) (tok : Token) (t : Nat) (e : Elem) : Elem :=
  { e with
    ins := e.ins.map fun i => { i with q := fillQueue rid tok t i.q }
    outs := e.outs.map fun o =>
      { o with q := fillQueue rid tok t o.q, flight := o.flight.map fun x => (x.1, fillEntry rid tok t x.2) } }

/-- A repair replaces a faulted line of an operand buffer in place (spec 15 R279). -/
def fillBuf (rid : Nat) (tok : Token) (b : OpBuf) : OpBuf :=
  if tok.tag = .fault then b
  else { b with cells := (b.bad.filter fun x => x.rid == rid).foldl (fun c x => writeBytes c x.off (bytesOf 64 tok.val.toNat)) b.cells
                bad := b.bad.filter fun x => x.rid != rid }

def fillNode (rid : Nat) (tok : Token) (n : OpNode) : OpNode := { n with bufs := n.bufs.map (fillBuf rid tok) }

/-- Fill the entries numbered rid, wherever they stand: a reserved entry, or a token or buffer line that a repair replaces in place. -/
def fillRid (s : State) (rid : Nat) (tok : Token) : State :=
  { s with
    elems := s.elems.map fun x => (x.1, fillElem rid tok (now s + 1) x.2)
    mes := s.mes.map fun x => (x.1, { x.2 with nodeA := fillNode rid tok x.2.nodeA, nodeB := fillNode rid tok x.2.nodeB }) }

/-- The output, and the long channel's delay, of which an input is the end. -/
def creditBack (t : Nat) (i : InPort) (o : OutPort) : OutPort := { o with back := o.back ++ [t + i.dist] }

/-- Forget one joined token: the flags of its command are ORed in (spec 12 R213, 13 R240). -/
def dropJoin (rid : Nat) (e : Elem) : Elem :=
  let f := (e.joinFl.filter fun x => x.1 == rid).foldl (fun f x => f ||| x.2) 0
  { orFlags e f with joins := e.joins.erase rid, joinFl := e.joinFl.filter fun x => x.1 != rid }

/-- The tokens of an element that were dequeued in a cycle are joined at its end: no firing of that cycle sees it (spec 08 R135). -/
def joinAll (e : Elem) : Elem := e.joined.foldl (fun e n => dropJoin n e) { e with joined := [] }

/-- Dequeue(c) (spec 08 R135): the head leaves; a long channel is given a credit back (R131), an asynchronous result is to be joined,
and a LAST on a section output takes a sample of the flags (spec 02 R45). -/
def dequeue (s : State) (l : Loc) (n : Fin 4) : State :=
  let e := getElem s l
  let i := inPort e n
  match i.q.es with
  | [] => s
  | x :: _ =>
    let s := setElem s l (setIn e n { i with q := queuePop (now s) i.q })
    let s := match i.src with
      | some (sl, so) => if i.long then modElem s sl fun d => setOut d so (creditBack (now s) i (outPort d so)) else s
      | none => s
    let s := match x.own with
      | some o => modElem s o fun d => { d with joined := d.joined ++ [x.rid] }
      | none => s
    match x.body, (getPlot s l.plot).parcel with
    | some tok, some p => if i.secOut && tok.tag == .last then modParcel s p fun q => { q with sample := true } else s
    | _, _ => s

/-- Dequeue each channel of a list once (spec 04 R72). -/
def dequeueAll (s : State) (l : Loc) (cs : List (Fin 4)) : State := cs.eraseDups.foldl (fun s n => dequeue s l n) s

/-- The payload as Value reads it: a LAST reads 0 (spec 08 R130, 09 R138). -/
def payload (t : Token) : Beat := if t.tag = .last then 0 else t.val

/-- A register source. -/
def regValue (e : Elem) : Src → Word
  | .d n => e.d[n]
  | .c0 => e.c0
  | .c1 => e.c1
  | .k => e.k
  | _ => 0

/-- Write a register destination. -/
def writeReg (e : Elem) (v : Word) : Dst → Elem
  | .d n => { e with d := e.d.set n v }
  | .c0 => { e with c0 := v }
  | .c1 => { e with c1 := v }
  | _ => e

/-- The old value of a destination register, for the instructions that read it (spec 09 R152, 10 R165). -/
def dstValue (e : Elem) : Dst → Word
  | .d n => e.d[n]
  | .c0 => e.c0
  | .c1 => e.c1
  | _ => 0

end Sys2Proof.Machine
end

