-- ==== Sys2Proof/Machine/Ops.lean ====
section
/-!
DEFINITION. The named operations: bytes of memory and of plot stores, MSI-X, the trace unit, taking an exception (RaiseFault, spec 18
R316, with the replay queue of R317) and the return from one (repair and containment, R318 to R320).
-/

namespace Sys2Proof.Machine

/-! ### The part (spec 00 R2) -/

/-- The part has a field die: a bare one is die 0 (00 R3; log 1). -/
def dieExists (d : Nat) : Bool := d == 0 || Config.form != .die
/-- The part has a plot: a bare field die has those of die 0. -/
def plotExists (plot : Nat) : Bool := dieExists (dieOf plot)

/-! ### Physical memory -/

/-- A write to memory clears the poison of the lines that it covers whole (spec 19 R330). -/
def clearPoison (ps : List Nat) (a n : Nat) : List Nat := ps.filter fun l => !(decide (a ≤ l) && decide (l + 64 ≤ a + n))

/-- Write bytes of physical memory. -/
def memWrite (s : State) (pa : Nat) (bs : List Byte) : State :=
  { s with mem := writeBytes s.mem pa bs, memPoison := clearPoison s.memPoison pa bs.length }

/-- Whether a read of n bytes touches a poisoned line. -/
def poisoned (ps : List Nat) (a n : Nat) : Bool := ps.any fun l => decide (l < a + n) && decide (a < l + 64)

/-! ### MSI-X -/

/-- Raise an MSI-X vector of a function (spec 20 R345; log 10). -/
def raiseMsix (s : State) (fn vec : Nat) : State := { s with msix := s.msix ++ [(fn, vec, now s)] }

/-! ### Trace (spec 19 R337, R338) -/

/-- What a plot's trace unit is told of: a firing, a memory event, or a fault. -/
inductive TraceEv
  | fire (site slot pBefore pAfter ptrs : Nat)
  | mem (site kind stream va : Nat)
  | fault (site fid cls : Nat)
  deriving DecidableEq, Repr

/-- Bits [91:0] of an event's record. -/
def traceBody : TraceEv → Nat
  | .fire site slot p p' ptrs => site <<< 87 + slot <<< 83 + p <<< 75 + p' <<< 67 + ptrs <<< 55
  | .mem site kind stream va => site <<< 87 + kind <<< 84 + stream <<< 80 + (va % 2 ^ 52) <<< 28
  | .fault _ fid cls => fid <<< 76 + cls <<< 68

/-- Whether the control word records an event, and under which TYPE. -/
def traceType (ctl : Nat) : TraceEv → Option Nat
  | .fire site _ _ _ _ => if bitOf ctl 1 && bitOf ctl (16 + site) then some 1 else none
  | .mem site _ _ _ => if bitOf ctl 2 && bitOf ctl (16 + site) then some 2 else none
  | .fault .. => if bitOf ctl 3 then some 3 else none

/-- Whether an event is the trigger event. -/
def traceTriggers (ctl : Nat) : TraceEv → Bool
  | .fire site slot _ _ _ => bitsOf ctl 51 48 == 1 && bitsOf ctl 56 52 == site && bitsOf ctl 60 57 == slot
  | .mem site _ _ _ => bitsOf ctl 51 48 == 3 && bitsOf ctl 56 52 == site
  | .fault _ _ cls => bitsOf ctl 51 48 == 2 && bitsOf ctl 60 57 == cls

/-- Whether an event is a firing. -/
def TraceEv.isFire : TraceEv → Bool
  | .fire .. => true
  | .mem .. | .fault .. => false

/-- The site of an event; a fault that no element raises comes after every site. -/
def traceSite : TraceEv → Nat
  | .fire site .. | .mem site .. | .fault site _ _ => site

/-- Tell a plot's trace unit of an event of the present cycle. -/
def traceEvent (s : State) (plot : Nat) (e : TraceEv) : State :=
  let ctl := (getPlot s plot).trace.ctl.toNat
  let x : TraceRec := ⟨traceSite e, traceType ctl e, traceBody e, traceTriggers ctl e, e.isFire⟩
  if bitOf ctl 0 && !bitOf ctl 5 && (x.type.isSome || x.trig) then
    modPlot s plot fun p => { p with trace := { p.trace with evs := p.trace.evs ++ [x] } }
  else s

/-- The trace unit in the middle of a cycle's writing: records written so far, and records dropped. -/
structure TraceAcc where
  r : Trace
  n : Nat := 0
  lost : Nat := 0

/-- One record is written at the next place, which a full buffer has only with WRAP. -/
def tracePut (ts ty body : Nat) (a : TraceAcc) : TraceAcc :=
  if a.r.pos < 2048 ∨ bitOf a.r.ctl.toNat 4 then
    { a with r := { a.r with buf := Tbl.put a.r.buf (a.r.pos % 2048) (BitVec.ofNat 128 (ty <<< 124 + (ts % 2 ^ 32) <<< 92 + body)),
                             pos := a.r.pos + 1, post := a.r.post.map fun n => n - 1 }
             n := a.n + 1 }
  else a

/-- A record of the cycle: at most four are written, one of them kept for a trigger that is still to come, and the others are dropped and counted. With POST
records written after the trigger nothing is recorded. -/
def traceOne (ts limit : Nat) (a : TraceAcc) (ty body : Nat) : TraceAcc :=
  if a.r.post = some 0 then a
  else if limit ≤ a.n then { a with lost := a.lost + 1 }
  else tracePut ts ty body a

/-- Bits [91:0] of a trigger record: SITE, and of a firing the rest too, whether the event has a record of its own or not. -/
def triggerBody (x : TraceRec) : Nat := if x.firing then x.body else (x.site % 32) <<< 87

/-- The events of a cycle in ascending site order: each with its record, and the first trigger event with a TYPE 4 record after it. -/
def traceAll (ts : Nat) : TraceAcc → List TraceRec → TraceAcc
  | a, [] => a
  | a, x :: xs =>
    let waits := a.r.post.isNone && (x.trig || xs.any fun y => y.trig)
    let a := match x.type with
      | some ty => traceOne ts (if waits then 3 else 4) a ty x.body
      | none => a
    let a := if x.trig && a.r.post.isNone then
        let b := traceOne ts 4 a 4 (triggerBody x)
        { b with r := { b.r with post := some (bitsOf a.r.ctl.toNat 15 8 * 8) } }
      else a
    traceAll ts a xs

/-- The end of a cycle of a trace unit: a TYPE 5 record of what was dropped before, and the records of the cycle. -/
def traceCycle (ts : Nat) (r : Trace) : Trace :=
  if r.evs.isEmpty && r.lost == 0 then r
  else if !bitOf r.ctl.toNat 0 || bitOf r.ctl.toNat 5 then { r with evs := [] }
  else
    let start : TraceAcc := { r := { r with evs := [], lost := 0 } }
    let a := traceAll ts (if r.lost = 0 then start else traceOne ts 4 start 5 (r.lost <<< 60)) (sortKey (fun (x y : TraceRec) => decide (x.site < y.site)) r.evs)
    { a.r with lost := a.lost }

/-- A record of a trace buffer as it is read through the Reeve: while LOCK = 1 one of TYPE 0 (20 R354). -/
def traceRead (s : State) (plot n : Nat) : BitVec 128 := if s.reeve.lock then 0 else Tbl.findD (getPlot s plot).trace.buf n 0

/-! ### Taking an exception (spec 18 R313 to R317) -/

/-- Class codes (spec 18 R313). -/
def classCode : FaultClass → Nat
  | .translate => 1
  | .sealed => 2
  | .align => 3
  | .format => 4
  | .operand => 5
  | .overrun => 6
  | .timeout => 7
  | .arith => 8
  | .memerr => 9
  | .link => 10
  | .watchdog => 11
  | .trap => 12
  | .brk => 13

/-- What the detector of a fault knows of it (spec 18 R314). -/
structure FaultInfo where
  cls : FaultClass
  sub : Nat := 0
  plot : Nat
  site : Nat := 0xFF
  slot : Nat := 0xFF
  entry : Nat := 0xFF
  strm : Nat := 0xFF
  wave : Nat := 0
  addr : Nat := 0
  info0 : Word := 0
  info1 : Word := 0
  src : Nat := 0
  flags : Nat := 0
  depth : Nat := 0
  report : Bool := false
  what : Option HeldWhat := none
  key : Option (Nat × Nat) := none
  ctx : Option Nat := none
  node : Option Nat := none
  die : Option Nat := none
  deriving DecidableEq, Repr

/-- The fault reference of a FAULT token (spec 18 R315). -/
def faultRef (r : FaultRec) : Nat := (r.fid.getD 0) % 65536 + r.die % 4 * 65536 + classCode r.cls * 262144
def faultToken (r : FaultRec) : Token := { tag := .fault, val := BitVec.ofNat 512 (faultRef r) }

/-- The identifiers open on a die. -/
def openFids (s : State) (die : Nat) : List Nat := s.faults.filterMap fun r => if r.die = die then r.fid else none

/-- The first identifier from n on that is not open; fuel bounds the search by the 65,536 identifiers. -/
def firstFree (used : List Nat) : Nat → Nat → Option Nat
  | 0, _ => none
  | fuel + 1, n => if used.contains (n % 65536) then firstFree used fuel (n + 1) else some (n % 65536)

def freeFid (s : State) (die : Nat) : Option Nat := firstFree (openFids s die) 65536 (getDie s die).nextFid

def findFault (s : State) (id : Nat) : Option FaultRec := s.faults.find? fun r => r.id == id
def setFault (s : State) (r : FaultRec) : State := { s with faults := s.faults.map fun x => if x.id = r.id then r else x }
/-- An identifier closes: its record leaves the faults of the device and, if it has not been taken, the fault store. -/
def dropFault (s : State) (id : Nat) : State :=
  { s with faults := s.faults.filter fun x => x.id != id
           dies := s.dies.map fun d => (d.1, { d.2 with store := d.2.store.filter fun n => n != id }) }

/-- Change a replay-queue entry. -/
def modRq (s : State) (l : Loc) (n : Nat) (f : RqEntry → RqEntry) : State :=
  modElem s l fun e => { e with rq := Tbl.alter e.rq n f }

/-- Let one held item show its identifier: a token becomes visible, an entry loses WFID (spec 18 R316). -/
def showItem (r : FaultRec) (s : State) (h : Held) : State :=
  match h.what with
  | .token rid _ _ | .lineToken rid _ => fillRid s rid (faultToken r)
  | .firing l n => modRq s l n fun x => { x with fid := r.fid.getD 0, wfid := false }
  | .access req =>
    { s with elems := s.elems.map fun x =>
        (x.1, { x.2 with rq := x.2.rq.map fun y =>
          if y.2.owner = req ∧ y.2.kind ≠ .firing then (y.1, { y.2 with fid := r.fid.getD 0, wfid := false }) else y }) }
  | _ => s

/-- Give a record its identifier: it enters the die's fault store in arrival order, seen from the next cycle on, and its items show it. The last identifier that is free
sets the die's FIDFULL, and the Reeve raises MSI-X vector 0 (spec 18 R316). -/
def giveFid (s : State) (id fid : Nat) : State :=
  match findFault s id with
  | none => s
  | some r =>
    let r := { r with fid := some fid, queued := true, seenAt := now s + 1 }
    let s := setFault s r
    let s := modDie s r.die fun d =>
      { d with store := d.store ++ [id], nextFid := (fid + 1) % 65536, reported := d.reported.filter fun n => n != fid }
    let s := traceEvent s (plotAt r.x r.y) (.fault r.site fid (classCode r.cls))
    let s := if (freeFid s r.die).isNone then raiseMsix s 0 0 else s
    r.items.foldl (showItem r) s

/-- Containment policies from the element up (spec 18 R320). -/
inductive Level
  | elem
  | region (n : Nat)
  | parcel
  | launch
  | context
  deriving DecidableEq, Repr

/-- The policy coded by a number (spec 03 R50). -/
def policyOf : Nat → Policy
  | 1 => .ignore
  | 2 => .retry
  | 3 => .killSelf
  | 4 => .killParent
  | _ => .defer

def codeOfPolicy : Policy → Nat
  | .defer => 0
  | .ignore => 1
  | .retry => 2
  | .killSelf => 3
  | .killParent => 4

/-- The area of a region. -/
def regionArea (r : Region) : Nat := r.w * r.h

/-- Whether a region's rectangle holds a plot of its parcel. -/
def regionHolds (p : Parcel) (r : Region) (plot : Nat) : Bool :=
  let dx := plotX plot - p.x0
  let dy := plotY plot - p.y0
  decide (r.dx ≤ dx) && decide (dx < r.dx + r.w) && decide (r.dy ≤ dy) && decide (dy < r.dy + r.h)

/-- The smallest containment region that holds a plot, lowest ID among equals. -/
def regionOf (p : Parcel) (plot : Nat) : Option Region :=
  (p.regions.filter fun r => !r.tree && regionHolds p r plot).foldl
    (fun best r => match best with
      | none => some r
      | some b =>
        if regionArea r < regionArea b ∨ (regionArea r = regionArea b ∧ r.id < b.id) then some r else some b) none

/-- The graph node whose access, or whose command's access, a record holds (spec 03 R399). -/
def nodeHeld (s : State) (r : FaultRec) : Option (Nat × Nat) :=
  r.items.findSome? fun h => match h.what with
    | .node a b => some (a, b)
    | .command c => (s.cmds.find? fun x => x.id == c).bind (·.node)
    | _ => none

/-- A node of a launch. -/
def nodeState (s : State) (n : Nat × Nat) : Option NodeSt := Tbl.find (Tbl.findD s.drill.launches n.1 {}).nodes n.2

/-- The chain of an access of the drill or of a node's command: the node's POL, its launch, its context. -/
def nodeChain (s : State) (r : FaultRec) (n : Nat × Nat) : List (Level × Policy) :=
  [(.parcel, policyOf (match nodeState s n with
      | some x => (x.raw.getD 1 0).toNat % 8
      | none => 0)),
    (.launch, (Tbl.findD s.drill.launches n.1 {}).pol), (.context, policyOf (bitsOf (getCtx s r.ctx).ccfg.toNat 6 4))]

/-- The chain of levels that resolves a kill, each with its policy, lowest first (spec 18 R320). -/
def elemChain (s : State) (r : FaultRec) : List (Level × Policy) :=
  let plot := plotAt r.x r.y
  let low : List (Level × Policy) :=
    if r.site < 32 ∧ r.cls ≠ .watchdog then [(.elem, (getElem s ⟨plot, r.site⟩).pol)] else []
  let above := match r.own with
    | some n =>
      let p := getParcel s n
      (match if r.site < 32 then regionOf p plot else none with
        | some g => [(Level.region g.id, g.pol)]
        | none => []) ++
      [(.parcel, p.pol), (.launch, (Tbl.findD s.drill.launches p.launch {}).pol)]
    | none => []
  low ++ above ++ [(.context, policyOf (bitsOf (getCtx s r.ctx).ccfg.toNat 6 4))]

/-- The chain that a record's kill climbs. -/
def chainOf (s : State) (r : FaultRec) : List (Level × Policy) :=
  match nodeHeld s r with
  | some n => nodeChain s r n
  | none => elemChain s r

/-- The deciding level with its policy; every level DEFER gives KILL_SELF at the parcel. KILL_PARENT names the next level up. -/
def decideChain : List (Level × Policy) → Level × Policy
  | [] => (.parcel, .killSelf)
  | (_, .defer) :: t => decideChain t
  | (l, .killParent) :: t =>
    match t with
    | (u, _) :: _ => (u, .killSelf)
    | [] => (l, .killSelf)
  | (l, p) :: _ => (l, p)

/-- The request with a number. -/
def findReq (s : State) (id : Nat) : Option Req := s.reqs.find? fun r => r.id == id
def modReq (s : State) (id : Nat) (f : Req → Req) : State := { s with reqs := s.reqs.map fun r => if r.id = id then f r else r }
def dropReq (s : State) (id : Nat) : State := { s with reqs := s.reqs.filter fun r => r.id != id }
def modCmd (s : State) (id : Nat) (f : Cmd → Cmd) : State := { s with cmds := s.cmds.map fun c => if c.id = id then f c else c }

/-- Put a request into its thread's order: at the next place (spec 12 R203, R204). -/
def enterReq (s : State) (id : Nat) : State :=
  bumpId (modReq s id fun q => { q with phase := .entered, place := freshId s })

/-- Requests in ascending SEQ. -/
def insertBySeq (q : Req) : List Req → List Req
  | [] => [q]
  | r :: rs => if q.seq < r.seq then q :: r :: rs else r :: insertBySeq q rs
def sortBySeq : List Req → List Req
  | [] => []
  | q :: qs => insertBySeq q (sortBySeq qs)

/-- The thread of an element's present wave. -/
def waveThread (s : State) (l : Loc) : Thread := .wave l (getElem s l).waveNo.toNat

/-- End an element's wave (spec 12 R204, 09 R150): its waiting requests enter in ascending SEQ, and the wave number goes up. -/
def endWave (s : State) (l : Loc) : State :=
  let thr := waveThread s l
  let waiting := sortBySeq (s.reqs.filter fun q => q.thr == thr && q.phase == .waiting)
  let s := waiting.foldl (fun s q => enterReq s q.id) s
  modElem s l fun e => { e with waveNo := e.waveNo + 1, waveSeen := [] }

/-- A result to become visible in an entry (spec 13 R215). -/
def postResult (s : State) (rid : Nat) (tok : Token) : State :=
  if rid = 0 then s
  else bumpId { s with results := s.results ++ [{ id := freshId s, rid := rid, tok := tok }] }

/-- Remove a reserved entry whose result is discarded (spec 04 R82, 18 R320). -/
def dropRidQ (rid : Nat) (q : Queue) : Queue := { q with es := q.es.filter fun x => !(x.rid == rid && x.body.isNone) }
def dropRid (s : State) (rid : Nat) : State :=
  if rid = 0 then s
  else { s with elems := s.elems.map fun x =>
    (x.1, { x.2 with
      ins := x.2.ins.map fun i => { i with q := dropRidQ rid i.q }
      outs := x.2.outs.map fun o => { o with q := dropRidQ rid o.q }
      joins := x.2.joins.filter fun n => n != rid }) }

/-- End a section as killed (spec 04 R82, 18 R320, 20 R341). -/
def sectionKill (s : State) (n : Nat) (r : FaultRec) : State :=
  modParcel s n fun p =>
    { p with
      anyKill := match p.anyKill with | some k => some k | none => some (r.cls, r.die, r.fid.getD 0)
      ending := match p.ending with
        | some e => some e
        | none => some { status := 4, info := BitVec.ofNat 64 (classCode r.cls * 262144 + r.die * 65536 + r.fid.getD 0) } }

/-- Note the first kill of a unit of a section (spec 20 R341). -/
def noteKill (s : State) (plot : Nat) (r : FaultRec) : State :=
  match (getPlot s plot).parcel with
  | some n => modParcel s n fun p =>
      { p with anyKill := match p.anyKill with | some k => some k | none => some (r.cls, r.die, r.fid.getD 0) }
  | none => s

/-- Discard the tokens of an input and give their credits back (spec 18 R320). -/
def drainIn (s : State) (l : Loc) (n : Fin 4) : State :=
  let i := inPort (getElem s l) n
  i.q.es.foldl (fun s x => match x.body with
    | some _ => dequeue s l n
    | none => s) s

/-- A streaming scratchpad firing that is held is given up: its acknowledgement stands as FAULT. -/
def dropSpad (s : State) (l : Loc) (slot : Nat) (r : FaultRec) : State :=
  match (Tbl.findD s.ses (locKey l) {}).op with
  | some o =>
    if o.held ∧ o.slot.val = slot then
      let s := ((Tbl.findD s.ses (locKey l) {}).acks.filter fun a => a.op == o.op).foldl (fun s a => postResult s a.rid (faultToken r)) s
      { s with ses := Tbl.alter s.ses (locKey l) fun u => { u with op := none, acks := u.acks.filter fun a => a.op != o.op } }
    else s
  | none => s

/-- The matrix elements of a plot. -/
def meSites (plot : Nat) : List Loc := [⟨plot, 16⟩, ⟨plot, 17⟩, ⟨plot, 18⟩, ⟨plot, 19⟩]

/-- PIN of a slice of a plot's adapter cache (spec 15 R275, R277): the rows that are pinned to it. -/
def pinOf (s : State) (plot id : Nat) : Nat :=
  ((meSites plot).flatMap fun l => (Tbl.findD s.mes (locKey l) {}).accs.toList.filter fun n => n.closePin.map (·.1) == some id).length

/-- A slice that is invalidated goes once its pin has fallen, and an acknowledgement of `ad.inv` follows the last of its slices (spec 15 R278). -/
def settleInvs (s : State) (plot : Nat) : State :=
  let kept := (getPlot s plot).slices.filter fun x => !(x.stale && pinOf s plot x.id == 0)
  let invs := (getPlot s plot).invs.map fun i => { i with left := i.left.filter fun n => kept.any fun x => x.id == n }
  let s := modPlot s plot fun p => { p with slices := kept, invs := invs.filter fun i => !i.left.isEmpty }
  (invs.filter fun i => i.left.isEmpty).foldl (fun s i => postResult s i.rid { tag := .data, val := BitVec.ofNat 512 i.count }) s

/-- The matrix element of a plot, other than one, that waits for a slice. -/
def otherWaiter (s : State) (plot : Nat) (f : Fill) (k : Bool) (b : Nat) : Option Loc :=
  let waits (u : MeUnit) : Bool := u.tag == f.tag &&
    (u.replay.any (fun c => c.aid == f.aid && c.wait == some (some (k, b))) || u.accs.toList.any (fun n => n.closeWait == some (some (k, b))))
  (s.mes.find? fun x => x.1 / 32 == plot && x.1 != locKey f.l && waits x.2).map fun x => locOfKey x.1

/-- An adapter fetch whose matrix element is killed goes on for another that waits for the same slice, and else it ends (spec 15 R275). -/
def dropFill (s : State) (plot fid : Nat) : State :=
  let keep (f : Fill) : Option Fill :=
    if f.id = fid then
      (match f.slice with
      | some (k, b, _) => (otherWaiter s plot f k b).map fun l => { f with l := l, held := false }
      | none => none)
    else some f
  modPlot s plot fun p => { p with fills := p.fills.filterMap keep }

/-- The beat that an entry was gathering is settled. -/
def dropGather (s : State) (rid : Nat) : State :=
  { s with
    les := s.les.map fun x => (x.1, { x.2 with streams := x.2.streams.map fun st => { st with gathers := st.gathers.filter fun g => g.rid != rid } })
    ses := s.ses.map fun x => (x.1, { x.2 with gathers := x.2.gathers.filter fun g => g.rid != rid }) }

/-- The in-flight count of a handle goes up or down (spec 11 R189). -/
def addInfl (s : State) (plot h : Nat) (up : Bool) : State :=
  modPlot s plot fun p => { p with tiles := Tbl.alter p.tiles h fun t => { t with infl := if up then t.infl + 1 else t.infl - 1 } }

/-- A held line access is done with: it is in flight no longer. -/
def dropLine (s : State) (line : Nat) : State :=
  match s.lines.find? fun x => x.id == line with
  | some x => addInfl { s with lines := s.lines.filter fun x => x.id != line } x.hplot x.handle false
  | none => s

/-- A part of an image that an expanding stream reads (spec 12 R209). -/
def imagePart (op : ReqOp) : Bool := op == .header || op == .maskByte

/-- The read of a part of an image is given up, and with it the element that it was read for: what the element still owes is not generated. -/
def giveUpPart (s : State) (req : Nat) : State :=
  match findReq s req with
  | some q => (match q.thr with
    | .stream l m =>
      if imagePart q.op then
        { s with les := Tbl.alter s.les (locKey l) fun u => { u with streams := u.streams.set m { u.streams[m] with placed := false } }
                 reqs := s.reqs.filter fun r => !(r.thr == q.thr && r.phase == .waiting) }
      else s
    | _ => s)
  | none => s

/-- A held line of a plot store is given up: its entry stands as FAULT, and so does the acknowledgement of an operation that writes. -/
def giveUpLine (r : FaultRec) (s : State) (rid line : Nat) : State :=
  match s.lines.find? fun x => x.id == line with
  | none => s
  | some x =>
    let s := dropGather (dropLine s line) rid
    if rid ≠ 0 then fillRid s rid (faultToken r)
    else
      let s := ((Tbl.findD s.ses (locKey x.from_) {}).acks.filter fun a => a.op == x.op).foldl (fun s a => postResult s a.rid (faultToken r)) s
      { s with ses := Tbl.alter s.ses (locKey x.from_) fun u => { u with acks := u.acks.filter fun a => a.op != x.op } }

/-- `pix` no longer shows a firing of a slot that is given up. -/
def clearPix (slot : Nat) (e : Elem) : Elem := if (pixSlot e.pix).val = slot then { e with pix := 0 } else e

/-- Discard a held item for good: its acknowledgement or response stands as FAULT (spec 18 R320). -/
def discardItem (r : FaultRec) (s : State) (h : Held) : State :=
  match h.what with
  | .token rid req _ => dropGather (dropReq (fillRid (giveUpPart s req) rid (faultToken r)) req) rid
  | .lineToken rid line => giveUpLine r s rid line
  | .access req =>
    match findReq s req with
    | some q =>
      let s := postResult s q.rid (faultToken r)
      let s := dropReq s req
      { s with elems := s.elems.map fun x => (x.1, { x.2 with rq := x.2.rq.filter fun y => !(y.2.owner == req && y.2.kind != .firing) }) }
    | none => s
  | .firing l n =>
    (match Tbl.find (getElem s l).rq n with
    | some x => modElem (dropSpad s l x.slot r) l fun e => clearPix x.slot { e with rq := Tbl.drop e.rq n }
    | none => s)
  | .adapter plot fill => dropFill s plot fill
  | .patch plot idx =>
    if idx < 0x10000 then modPlot s plot fun p => { p with held := false, depth := 0, subst := none, patchWords := p.patchWords ++ [0] } else s
  | .command c => modCmd s c fun x =>
      if x.broken || x.fetching then { x with killed := true, phase := .done, bad := x.bad + (if x.broken then 0 else 1), kinfo := BitVec.ofNat 64 (faultRef r) }
      else { x with killed := true, skip := true, phase := .run, bad := x.bad + 1, kinfo := BitVec.ofNat 64 (faultRef r) }
  | .node a b => { s with drill := { s.drill with killNode := s.drill.killNode ++ [(a, b, BitVec.ofNat 64 (faultRef r))] } }
  | _ => s

/-- Kill an element: it fires nothing more, its queues discard, its held items are discarded, and what it has issued that is not held
is performed without a response (spec 18 R320). -/
def killElem (s : State) (l : Loc) : State :=
  let s := [(0 : Fin 4), 1, 2, 3].foldl (fun s n => drainIn s l n) s
  let own := s.faults.filter fun r => plotAt r.x r.y == l.plot && r.site == l.site && r.own == (getPlot s l.plot).parcel && !r.report
  let s := own.foldl (fun s r => r.items.foldl (discardItem r) (dropFault s r.id)) s
  let s := endWave s l
  let s := (s.reqs.filter fun q => q.issuer == l && q.phase == .waiting).foldl (fun s q => enterReq s q.id) s
  let s := modElem s l fun e => { e with killed := true, rq := [], redo := [], watch := none, pix := 0 }
  settleInvs { s with
    ses := Tbl.alter s.ses (locKey l) fun u => { u with op := none }
    mes := Tbl.alter s.mes (locKey l) fun u => { u with fire := none, op := none, replay := [], accs := u.accs.map fun n => { n with closePin := none } }
    les := Tbl.alter s.les (locKey l) fun u => { u with streams := u.streams.map fun x => { x with closing := true } }
    reqs := s.reqs.map fun q => if q.issuer = l then { q with discard := true } else q } l.plot

/-- Kill the unit of a level (spec 18 R320): at the element level, the stream or the command where the item is theirs. -/
def killUnit (s : State) (r : FaultRec) : Level → State
  | .elem =>
    let l : Loc := ⟨plotAt r.x r.y, r.site⟩
    let s := noteKill s l.plot r
    if r.strm < 8 then
      { s with les := Tbl.alter s.les (locKey l) fun u =>
          { u with streams := u.streams.mapIdx fun i x => if i = r.strm then { x with closing := x.closing || x.opened } else x } }
    else if bitOf r.flags 3 then s
    else killElem s l
  | .region n =>
    let plot := plotAt r.x r.y
    match (getPlot s plot).parcel with
    | none => s
    | some k =>
      let p := getParcel s k
      let s := noteKill s plot r
      match p.regions.find? fun g => !g.tree && g.id == n with
      | none => s
      | some g =>
        (s.elems.filter fun x => (getPlot s (x.1 / 32)).parcel == some k && regionHolds p g (x.1 / 32)).foldl
          (fun s x => killElem s (locOfKey x.1)) s
  | .parcel =>
    match nodeHeld s r, r.own with
    | some _, _ => s
    | none, some k => sectionKill s k r
    | none, none => s
  | .launch =>
    match nodeHeld s r, r.own with
    | some n, _ => { s with drill := { s.drill with killLaunch := s.drill.killLaunch ++ [(n.1, BitVec.ofNat 64 (faultRef r))] } }
    | none, some k =>
      let s := sectionKill s k r
      { s with drill := { s.drill with killLaunch := s.drill.killLaunch ++ [((getParcel s k).launch, BitVec.ofNat 64 (faultRef r))] } }
    | none, none => s
  | .context =>
    let s := match nodeHeld s r, r.own with
      | none, some k => sectionKill s k r
      | _, _ => s
    { s with drill := { s.drill with killCtx := s.drill.killCtx ++ [(r.ctx, BitVec.ofNat 64 (faultRef r))] } }

/-! ### The return from an exception (spec 18 R318) -/

/-- A value in every 8 bytes of a beat. -/
def splat (v : Word) : Beat := BitVec.ofNat 512 (joinLanes 64 (List.replicate 8 v.toNat))

/-- The firing of a replay-queue entry is to be re-executed. -/
def redoOf (x : RqEntry) (mode : BeatMode) : Redo :=
  { slot := x.slot, beat := x.beat, mode := mode, a := x.a, b := x.b, c := x.c, depth := x.depth + 1 }

/-- The element holds a firing of the slot that has done part of its work: a streaming one, or an `mma`. -/
def heldPart (s : State) (l : Loc) (slot : Nat) : Bool :=
  (match (Tbl.findD s.ses (locKey l) {}).op with
    | some o => o.held && o.slot.val == slot
    | none => false) ||
  (match (Tbl.findD s.mes (locKey l) {}).fire with
    | some f => f.held && f.slot.val == slot
    | none => false) ||
  (match (Tbl.findD s.mes (locKey l) {}).op with
    | some o => o.held && o.slot.val == slot
    | none => false)

/-- The one firing of an element that goes on in steps goes on again: a scratchpad's stream is discarded under substitute, which in `tile.gat` gives the beat that
faulted (log 35), and else takes its narrow operand from its entry (R317); an `mma` or `acc.ld` takes its step again without traps (R318). -/
def releasePart (s : State) (l : Loc) (v : Word) (subst : Bool) : State :=
  { s with
    ses := Tbl.alter s.ses (locKey l) fun u => { u with op := u.op.map fun o => { o with held := false, drain := o.drain || subst, depth := o.depth + 1, given := some v } }
    mes := Tbl.alter s.mes (locKey l) fun u =>
      { u with fire := u.fire.map fun f => { f with held := false, noTrap := true, depth := f.depth + 1 }
               op := u.op.map fun o => { o with held := false, noTrap := true, depth := o.depth + 1 } } }

/-- A held access is performed again in its place. -/
def againReq (s : State) (req : Nat) : State := modReq s req fun q => { q with phase := .entered, depth := q.depth + 1 }

/-- A read of a part of an image: its bytes tell what its stream goes on with. -/
def imageRead (s : State) (req : Nat) : Bool :=
  match findReq s req with
  | some q => imagePart q.op
  | none => false

/-- Apply resume, retry or substitute to one held item (spec 18 R318). The fill value of a part of an image is what its read yields (log 35). -/
def repairItem (_r : FaultRec) (ans : Answer) (s : State) (h : Held) : State :=
  match h.what with
  | .token rid req wide =>
    if ans.act = .subst then
      (if imageRead s req then modReq s req fun q => { q with phase := .performed (splat ans.value) 0 }
       else dropGather (dropReq (fillRid s rid { tag := .data, val := if wide then splat ans.value else ans.value.setWidth 512 }) req) rid)
    else againReq s req
  | .lineToken rid line =>
    if ans.act = .subst ∧ rid ≠ 0 then dropGather (dropLine (fillRid s rid { tag := .data, val := splat ans.value }) line) rid
    else
      { s with lines := mapIf (fun x => x.id == line) (fun x =>
          { x with held := false, admitted := false, depth := x.depth + 1, sub := if ans.act = .subst then some (splat ans.value) else none }) s.lines }
  | .access req =>
    let s := { s with elems := s.elems.map fun x =>
      (x.1, { x.2 with rq := x.2.rq.filter fun y => !(y.2.owner == req && y.2.kind != .firing) }) }
    if ans.act = .subst then
      match findReq s req with
      | some q =>
        let v : Word := match q.op with
          | .amo .. | .cas => ans.value
          | _ => 0
        dropReq (postResult s q.rid { tag := .data, val := v.setWidth 512 }) req
      | none => s
    else againReq s req
  | .firing l n =>
    match Tbl.find (getElem s l).rq n with
    | none => s
    | some x =>
      let s := modElem s l fun e => { e with rq := Tbl.drop e.rq n }
      if heldPart s l x.slot then releasePart s l (if ans.act = .subst then ans.value else x.b) (ans.act == .subst)
      else match ans.act with
        | .retry => modElem s l (clearPix x.slot)
        | .subst => modElem s l fun e => { e with redo := e.redo ++ [redoOf x (.subst ans.value)] }
        | _ => modElem s l fun e => { e with redo := e.redo ++ [redoOf x .resume] }
  | .adapter plot fill => modPlot s plot fun p =>
      { p with fills := mapIf (fun x => x.id == fill) (fun x =>
          { x with held := false, depth := x.depth + 1, sub := if ans.act = .subst then some ans.value else none }) p.fills }
  | .patch plot _ => modPlot s plot fun p => { p with held := false, depth := h.depth + 1, subst := if ans.act = .subst then some ans.value else none }
  | .command c =>
    modCmd s c fun x => if x.broken then { x with phase := .done } else { x with phase := if x.fetching then .fetch else .run, depth := x.depth + 1, sub := if ans.act = .subst then some ans.value else none }
  | .parcel n => modParcel s n fun p => { p with frz := .run, wdogRan := 0, wdogOn := true }
  | .node a b =>
    { s with drill := { s.drill with launches := Tbl.alter s.drill.launches a fun x =>
        { x with nodes := Tbl.alter x.nodes b fun n =>
            { n with held := false, sub_ := if ans.act = .subst then some ans.value else none, depth := n.depth + 1 } } } }
  | _ => s

/-- The held accesses of items, in the order in which they were issued. -/
def heldReqs (s : State) (items : List Held) : List Req :=
  sortKey (fun (a b : Req) => decide (a.place < b.place)) (items.filterMap fun h => match h.what with
    | .token _ req _ | .access req => findReq s req
    | _ => none)

/-- Each of a list of accesses is performed after the one before it. -/
def chainReqs : List Req → State → State
  | p :: q :: rest, s => chainReqs (q :: rest) (modReq s q.id fun r => { r with after := r.after ++ [(p.id, .device)] })
  | _, s => s

/-- Apply resume, retry or substitute to the items of a record: the accesses that are performed again are so in stream order (spec 12 R200, 18 R316). -/
def repairItems (r : FaultRec) (ans : Answer) (items : List Held) (s : State) : State :=
  items.foldl (repairItem r ans) (if ans.act = .subst then s else chainReqs (heldReqs s items) s)

/-- A fault that IGNORE resolves as resume: an ARITH firing is committed, and `trap` and `brk` complete (spec 18 R320, 09 R147). -/
def ignoreResumes (r : FaultRec) : Bool := r.cls == .arith || r.cls == .trap || (r.cls == .brk && r.sub == 0)

/-- A record that an answer can only kill (spec 19 R330): live state is lost, or a token without its parity is not given a value. -/
def onlyKill (r : FaultRec) (act : Repair) : Bool := r.cls == .memerr && (r.sub == 4 || (r.sub == 5 && act != .subst))

/-- Containment of a record's items (spec 18 R320): the chain's deciding level ignores, retries or kills. -/
def containRec (s : State) (r : FaultRec) : State :=
  let (lvl, pol) := decideChain (chainOf s r)
  let s := dropFault s r.id
  let kill (s : State) : State := killUnit (r.items.foldl (discardItem r) s) r lvl
  match pol with
  | .ignore =>
    let ans : Answer := if ignoreResumes r then ⟨.resume, 0⟩ else ⟨.subst, 0⟩
    if r.cls = .format ∨ (r.cls = .overrun ∧ r.sub = 1) ∨ onlyKill r ans.act then kill s else repairItems r ans r.items s
  | .retry => if 1 ≤ r.depth ∨ onlyKill r .resume then kill s else repairItems r ⟨.resume, 0⟩ r.items s
  | _ => kill s

/-- Answer a record (spec 18 R318). -/
def answerRec (s : State) (r : FaultRec) (ans : Answer) : State :=
  if ans.act = .kill ∨ onlyKill r ans.act then containRec s r else repairItems r ans r.items (dropFault s r.id)

/-- A parcel that is not running, or that has recorded repairs still to be applied: repairs for its faults are recorded (spec 18 R324). -/
def frozenOwner (s : State) (r : FaultRec) : Option Nat :=
  match r.own with
  | some n =>
    if ((getParcel s n).frz = .run ∧ (getParcel s n).recorded = []) ∨ (r.cls = .watchdog ∧ (getParcel s n).stage = .placed) ∨ (nodeHeld s r).isSome then none else some n
  | none => none

/-- A fault is answered: at once, or recorded for the thaw of its owner. -/
def answerFid (s : State) (r : FaultRec) (ans : Answer) : State :=
  match frozenOwner s r with
  | some n => modParcel s n fun p => { p with recorded := p.recorded ++ [.repair r.id none ans] }
  | none => answerRec s r ans

/-- One item of a record is answered by `rq.inj` (spec 18 R326); the identifier closes with the last. -/
def answerItem (s : State) (r : FaultRec) (h : Held) (ans : Answer) : State :=
  let rest := r.items.filter fun x => x != h
  if rest.isEmpty then answerRec s r ans
  else
    let s := setFault s { r with items := rest }
    if ans.act = .kill ∨ onlyKill r ans.act then containRec s { r with items := [h], id := 0 } else repairItem r ans s h

/-- RaiseFault (spec 18 R316): TAKING AN EXCEPTION. The item is held as the detector has held it; the fault joins an unresolved record
of its owner and pending-miss entry, or makes a record of its own, which takes the die's next free identifier and enters the headland's
fault store. With every identifier open a report is dropped and another record waits. With no handler loaded the fault is resolved as a
kill at the end of the cycle (08 R135), which has no effect on a report, and a fault of a headland element is reported to the Reeve and blocks that element
(R319). -/
def raiseFault (s : State) (f : FaultInfo) : State :=
  if isHeadland f.plot && f.die.isNone then
    modElem { s with reeve := { s.reeve with told := s.reeve.told ++ [(⟨f.plot, f.site⟩, f.cls, f.sub)] } } ⟨f.plot, f.site⟩ fun e => { e with blocked := true }
  else
    let die := f.die.getD (dieOf f.plot)
    let held : List Held := match f.what with
      | some w => [⟨w, f.depth⟩]
      | none => []
    match s.faults.find? fun r => r.die == die && f.key.isSome && r.key == f.key && r.own == (getPlot s f.plot).parcel && !r.report with
    | some r =>
      let r' := { r with count := r.count + 1, items := r.items ++ held }
      let s := setFault s r'
      if r.fid.isSome then held.foldl (showItem r') s else s
    | none =>
      let id := freshId s
      let s := bumpId s
      let nr : FaultRec :=
        { id := id, die := die, fid := none, cls := f.cls, sub := f.sub, ctx := f.ctx.getD (ctxOf s f.plot), depth := f.depth,
          flags := f.flags ||| (if f.report then 16 else 0), x := plotX f.plot, y := plotY f.plot, site := f.site, slot := f.slot,
          entry := f.entry, strm := f.strm, wave := f.wave, addr := f.addr, info0 := if f.cls = .memerr then Config.syndrome id else f.info0, info1 := f.info1, src := f.src,
          count := 1, ts := timestamp s,
          node := f.node.getD (match (getPlot s f.plot).parcel with | some n => (getParcel s n).node | none => 0),
          items := held, report := f.report, queued := false, key := f.key, own := (getPlot s f.plot).parcel }
      match freeFid s die with
      | some fid =>
        giveFid { s with faults := s.faults ++ [{ nr with unheard := !(getDie s die).handler && !f.report }] } id fid
      | none =>
        if f.report then modDie s die fun d => { d with dropped := d.dropped + 1 }
        else modDie { s with faults := s.faults ++ [nr] } die fun d => { d with fidWait := d.fidWait ++ [id] }

/-- The lowest free entry of a replay queue (spec 18 R317). -/
def freeEntry (q : Tbl RqEntry) : Option Nat := (List.range 16).find? fun n => (Tbl.find q n).isNone

/-- A firing that traps or faults in a beat (spec 18 R317): it takes an entry with its captured operands, `pix` shows its slot and beat
(spec 08 R136), and the fault is raised. -/
def holdFiring (s : State) (l : Loc) (slot : Fin 16) (beat step : Nat) (act : BitVec 32) (a b c : Word) (depth : Nat)
    (f : FaultInfo) : State :=
  let e := getElem s l
  match freeEntry e.rq with
  | none => s
  | some n =>
    let x : RqEntry := { kind := .firing, slot := slot, beat := beat, wfid := true, fid := 0, act := act, a := a, b := b, c := c,
                         owner := 0, depth := depth }
    let s := setElem s l { e with rq := Tbl.put e.rq n x, pix := pixWord step beat true slot }
    raiseFault s { f with plot := l.plot, site := l.site, slot := slot, entry := n, flags := f.flags ||| 2, depth := depth,
                          wave := e.waveNo.toNat, what := some (.firing l n) }

end Sys2Proof.Machine
end

