-- ==== Sys2Proof/Machine/Operands.lean ====
section
/-!
DEFINITION. Operands and the one shared firing (spec 08 R135, R136; 09 R138): what a beat reads, what it gives, and how it commits.
An instruction that gives a value is described by a `FireSpec`; `runBeat` runs one beat of it at the cursor.
-/

namespace Sys2Proof.Machine

/-- The outcome type of a step. -/
abbrev Out := Host.Outcome State Fault Refusal

/-- What one beat reads: the state, and of it the element as committed, the operands, the tag of sa's head, the timers, and the element's place. -/
structure BeatIn where
  s : State
  e : Elem
  l : Loc
  a : Beat
  b : Beat
  old : Word
  tagA : Tag
  ts : Word
  cyc : Word
  pxy : Word
  tc : Word
  brkEn : Bool
  mode : BeatMode

/-- What one beat gives: its result, its flags, what pmode 01 writes, its other effects on the element and (`post`)
on the rest of the state, and for the instructions that forward a token, the token and the one output that takes it. -/
structure BeatOut where
  v : Beat := 0
  flags : Flags := 0
  pred : Bool := false
  upd : Elem → Elem := id
  tok : Option Token := none
  only : Option (Fin 4) := none
  post : State → State := id

/-- A beat completes, or raises a fault of its firing. -/
inductive BeatRes
  | ok (o : BeatOut)
  | bad (cls : FaultClass) (sub : Nat) (info0 info1 : Word)

/-- An instruction that reads operands and gives a result in each beat. `third` says that it reads its dst as an operand; `soft` is
`trap` and `brk`, which complete by R147 whatever value repairs them; `ready` is its further implicit condition (spec 08 R133);
`async` says that its result comes later: `post` reserves the entry of dst (spec 13 R215); `stream` is the source that a streaming instruction takes beat by
beat in its unit, which an entry captures as the second operand (spec 18 R317). -/
structure FireSpec where
  dst : Dst
  sa : Src
  sb : Src
  otag : OTag := .data
  upd : PUpd := .none
  peek : Bool := false
  third : Bool := false
  soft : Bool := false
  async : Bool := false
  stream : Option Src := none
  ready : State → Loc → Bool := fun _ _ => true
  op : BeatIn → BeatRes

/-- The tag that otag names (spec 04 R65). -/
def otagTag : OTag → Tag
  | .data => .data
  | .last => .last
  | .mark => .mark
  | .alt => .alt

/-- The token of a result: LAST carries payload 0 whatever the result (spec 04 R65). -/
def resultToken (t : OTag) (v : Beat) : Token :=
  match t with
  | .last => { tag := .last, val := 0 }
  | t => { tag := otagTag t, val := v }

/-- Value(sel, j) (spec 09 R138): the register, or the token that stands i entries behind the head; none where no token is seen. -/
def srcValue (s : State) (l : Loc) (sel : Src) (i : Nat) : Option Beat :=
  match sel with
  | .ch n => ((headTokens s l n)[i]?).map payload
  | _ => some ((regValue (getElem s l) sel).setWidth 512)

/-- The tag of the head of a source channel. -/
def srcTag (s : State) (l : Loc) (sel : Src) : Tag :=
  match sel with
  | .ch n => match headToken s l n with
    | some t => t.tag
    | none => .data
  | _ => .data

/-- A source shows n tokens. -/
def srcReady (s : State) (l : Loc) (n : Nat) : Src → Bool
  | .ch c => decide (n ≤ (headTokens s l c).length)
  | _ => true

/-- Section cycles (spec 09 R146). -/
def sectionCycles (s : State) (plot : Nat) : Nat :=
  match (getPlot s plot).parcel with
  | some p => (getParcel s p).cycles
  | none => 0

/-- The operands of the present beat. In a re-executed beat a narrow operand is the one that the replay entry holds
(spec 18 R317, R318). -/
def beatIn (sp : FireSpec) (s : State) : Option BeatIn :=
  let c := s.sched.cur
  let e := getElem s c.l
  let i := if sp.peek then c.beat else 0
  let pick (sel : Src) (cap : (Word × Word × Word) → Word) : Option Beat :=
    match c.cap with
    | some x => if sel.isWide e.kind then srcValue s c.l sel i else some ((cap x).setWidth 512)
    | none => srcValue s c.l sel i
  match pick sp.sa (·.1), pick sp.sb (·.2.1) with
  | some a, some b =>
    some { s := s, e := e, l := c.l, a := a, b := b,
           old := match c.cap with
             | some x => x.2.2
             | none => dstValue e sp.dst
           tagA := srcTag s c.l sp.sa
           ts := BitVec.ofNat 64 (timestamp s), cyc := BitVec.ofNat 64 (sectionCycles s c.l.plot),
           pxy := pxyOf s c.l.plot,
           tc := BitVec.ofNat 64 (e.tcnt.toNat + 2 ^ 32 * (e.resv % 8)),
           brkEn := (getCtx s (ctxOf s c.l.plot)).ccfg.getLsbD 7,
           mode := c.mode }
  | _, _ => none

/-- Enqueue a result on every output that dst names, or on the one output chosen. -/
def writeTokens (s : State) (l : Loc) (dst : Dst) (tok : Token) (only : Option (Fin 4)) : State :=
  match only with
  | some n => enqueue s l n tok
  | none => (outsOf (getElem s l) dst).foldl (fun s n => enqueue s l n tok) s

/-- Dequeue the channels that sa and sb name, each once, unless peek (spec 04 R72, 08 R135). -/
def dequeueNamed (s : State) (l : Loc) (sp : FireSpec) : State :=
  if sp.peek then s else dequeueAll s l (sp.sa.chans ++ sp.sb.chans)

/-- `pix` after a beat of a firing of w beats (spec 08 R136). -/
def pixAfter (w j : Nat) (slot : Fin 16) : Word := if j + 1 < w then pixWord 0 (j + 1) true slot else 0

/-- The element's own part of a commit: flags, other effects, the register written, the predicate at the last beat, `pix`. -/
def commitElem (sp : FireSpec) (c : Cursor) (t : Nat) (o : BeatOut) (e : Elem) : Elem :=
  let e := writeReg (o.upd (orFlags e o.flags)) o.v.toWord sp.dst
  let e := if c.beat + 1 < c.beats then e else setPred e sp.upd o.pred
  { e with pix := pixAfter c.beats c.beat c.slot, firedAt := t + 1 }

/-- The trace record of a firing that ends (spec 19 R337). -/
def traceFiring (s : State) (l : Loc) (slot : Fin 16) (before : Elem) : State :=
  let e := getElem s l
  traceEvent s l.plot
    (.fire l.site slot before.p.toNat e.p.toNat
      (before.ptr[0].val + 16 * before.ptr[1].val + 256 * before.ptr[2].val))

/-- A firing of a slot goes on in its element's unit after this beat: a stream of a scratchpad element or a matrix element's work. -/
def goesOnInUnit (s : State) (l : Loc) (slot : Fin 16) : Bool :=
  (match (Tbl.findD s.ses (locKey l) {}).op with
    | some o => o.slot == slot
    | none => false) ||
  (match (Tbl.findD s.mes (locKey l) {}).fire with
    | some f => f.slot == slot
    | none => false) ||
  (match (Tbl.findD s.mes (locKey l) {}).op with
    | some o => o.slot == slot
    | none => false)

/-- Commit a beat (spec 08 R136): all its effects as one step. -/
def commitBeat (sp : FireSpec) (s : State) (o : BeatOut) : State :=
  let c := s.sched.cur
  let before := getElem s c.l
  let tok := o.tok.getD (resultToken sp.otag o.v)
  let s := modElem s c.l (commitElem sp c (now s) o)
  let s := if sp.async && !c.mode.isSubst then s else writeTokens s c.l sp.dst tok o.only
  let s := dequeueNamed s c.l sp
  let s := o.post (markActive s c.l.plot)
  if c.beat + 1 < c.beats || goesOnInUnit s c.l c.slot then s else traceFiring s c.l c.slot before

/-- The action word of the firing. -/
def curAct (s : State) : BitVec 32 := (getElem s s.sched.cur.l).slots[s.sched.cur.slot].setWidth 32

/-- The second operand of a beat: of a streaming instruction the head of the stream that its unit takes. -/
def secondOf (sp : FireSpec) (x : BeatIn) : Word :=
  match sp.stream with
  | some src => if src.isWide x.e.kind then 0 else ((srcValue x.s x.l src 0).map (·.toWord)).getD 0
  | none => if sp.sb.isWide x.e.kind then 0 else x.b.toWord

/-- The operands that an entry captures: a wide operand as 0 (spec 18 R317). -/
def captured (sp : FireSpec) (x : BeatIn) : Word × Word × Word :=
  (if sp.sa.isWide x.e.kind then 0 else x.a.toWord, secondOf sp x, if sp.third then x.old else 0)

/-- Hold the present beat as a fault. -/
def holdBeat (sp : FireSpec) (s : State) (x : BeatIn) (cls : FaultClass) (sub : Nat) (i0 i1 : Word) : State :=
  let c := s.sched.cur
  let k := captured sp x
  holdFiring s c.l c.slot c.beat 0 (curAct s) k.1 k.2.1 k.2.2 c.depth { cls := cls, sub := sub, plot := c.l.plot, info0 := i0, info1 := i1 }

/-- What is needed before a beat runs: source tokens and free output entries for this and the later beats (spec 08 R133, R136). A beat
that is re-executed has its narrow operands in its entry. -/
def beatReady (sp : FireSpec) (s : State) : Bool :=
  let c := s.sched.cur
  let need := if sp.peek then c.beats else c.beats - c.beat
  (c.cap.isSome || (srcReady s c.l need sp.sa && srcReady s c.l need sp.sb)) &&
  roomFor s c.l sp.dst (c.beats - c.beat) && sp.ready s c.l

/-- One beat of an instruction at the cursor (spec 08 R135, R136). A firing that is not ready does nothing (log 2). A flag whose trap is
enabled raises the arithmetic trap and commits nothing, save in a beat re-executed by resume (spec 02 R36, 18 R318). -/
def runBeat (sp : FireSpec) (s : State) : Out :=
  let c := s.sched.cur
  if !(getElem s c.l).present then .fault .noElement
  else if !beatReady sp s then .next s
  else
    match beatIn sp s with
    | none => .next s
    | some x =>
      match c.mode, sp.soft with
      | .subst v, false =>
        .next (commitBeat sp s { v := v.setWidth 512, pred := v.getLsbD 0 })
      | _, _ =>
        match sp.op x with
        | .bad cls sub i0 i1 => .next (holdBeat sp s x cls sub i0 i1)
        | .ok o =>
          if c.mode = .normal ∧ o.flags &&& fpmTE x.e.fpm ≠ 0 then
            .next (holdBeat sp s x .arith 0 ((o.flags &&& fpmTE x.e.fpm).setWidth 64) 0)
          else .next (commitBeat sp s o)

/-- Reserve the acknowledgement's entry: its number, 0 for none. -/
def reserveAck (s : State) (l : Loc) (dst : Dst) (join : Bool) : State × Nat :=
  if dst = .none then (s, 0) else (reserve (bumpId s) l dst (freshId s) join, freshId s)

/-- A result word with its predicate bit 0 (spec 09 R138). -/
def okWord (v : Word) : BeatRes := .ok { v := v.setWidth 512, pred := v.getLsbD 0 }
/-- A result word with flags. -/
def okFlags (v : Word) (f : Flags) : BeatRes := .ok { v := v.setWidth 512, flags := f, pred := v.getLsbD 0 }
/-- A full beat. -/
def okBeat (v : Beat) : BeatRes := .ok { v := v, pred := v.getLsbD 0 }
/-- An OPERAND fault that names the offending word (spec 18 R314). -/
def badOperand (w : Word) : BeatRes := .bad .operand 0 w 0

/-- An R-form instruction whose result is a function of the beat. -/
def specR (r : RAct) (op : BeatIn → BeatRes) : FireSpec :=
  { dst := r.dst, sa := r.sa, sb := r.sb, otag := r.otag, upd := r.upd, peek := r.peek, op := op }

/-- The same for an instruction that reads its dst. -/
def specR3 (r : RAct) (op : BeatIn → BeatRes) : FireSpec := { specR r op with third := true }

/-- An I-form instruction: DATA, no peek (spec 04 R67). -/
def specI (i : IAct) (op : BeatIn → BeatRes) : FireSpec :=
  { dst := i.dst, sa := i.sa, sb := .zero, upd := i.upd, op := op }

/-- imm12 sign-extended to 64 bits (spec 04 R67). -/
def simm (i : IAct) : Word := i.imm.signExtend 64

end Sys2Proof.Machine
end

