-- ==== Sys2Proof/Machine/Flags.lean ====
section
/-!
DEFINITION. The flags that integer lanes compute: Fit (spec 09 R151), and the lane-wise application of an operation to a register with
its flags ORed together.
-/

namespace Sys2Proof.Machine

/-- Fit(r, w) on a range of w bits (spec 09 R151): the value, or the nearest bound with SAT, or r modulo 2^w with IOV. -/
def fit (signed sat : Bool) (w : Nat) (r : Int) : Nat × Flags :=
  if decide (loBound signed w ≤ r) && decide (r ≤ hiBound signed w) then (wrapTo w r, 0)
  else if sat then (wrapTo w (if r < loBound signed w then loBound signed w else hiBound signed w), fSAT)
  else (wrapTo w r, fIOV)

/-- Lanes with flags joined into a word, lane 0 lowest, flags ORed. -/
def joinFlagged (w : Nat) (xs : List (Nat × Flags)) : Word × Flags :=
  (wordOfLanes w (xs.map (·.1)), xs.foldl (fun f x => f ||| x.2) 0)

/-- A result of lanes. -/
def okLanes (w : Nat) (xs : List (Nat × Flags)) : BeatRes := let r := joinFlagged w xs; okFlags r.1 r.2

/-- Apply a two-operand lane operation. -/
def mapLanes2 (w : LaneW) (a b : Word) (f : Nat → Nat → Nat × Flags) : List (Nat × Flags) :=
  (List.range (laneCount w)).map fun j => f (laneOf (laneBits w) j a) (laneOf (laneBits w) j b)

/-- Apply a one-operand lane operation. -/
def mapLanes1 (w : LaneW) (a : Word) (f : Nat → Nat × Flags) : List (Nat × Flags) :=
  (List.range (laneCount w)).map fun j => f (laneOf (laneBits w) j a)

/-- The lanes of a beat's two operands. -/
def lanes2 (w : LaneW) (x : BeatIn) (f : Nat → Nat → Nat × Flags) : BeatRes :=
  okLanes (laneBits w) (mapLanes2 w x.a.toWord x.b.toWord f)

def lanes1 (w : LaneW) (x : BeatIn) (f : Nat → Nat × Flags) : BeatRes :=
  okLanes (laneBits w) (mapLanes1 w x.a.toWord f)

/-- Lanes that set no flag. -/
def quiet (n : Nat) : Nat × Flags := (n, 0)

end Sys2Proof.Machine
end

