-- ==== Sys2Proof/Machine/Control.lean ====
section
/-!
DEFINITION. The control family (spec 09 R138 to R150): moves, selection, routing, ends of streams, predicates, counters, flags, rest,
timers, software traps, special registers and waves. Barriers and stage rings are in Sync.
-/

namespace Sys2Proof.Machine

/-- `nop` (R139): SetPred(pmode, pk, 0). -/
def specNop (r : RAct) : FireSpec := specR r fun _ => .ok {}
def execNop (r : RAct) (s : State) : Out := runBeat (specNop r) s

/-- `mov` (R139). -/
def specMov (r : RAct) : FireSpec := specR r fun x => okBeat x.a
def execMov (r : RAct) (s : State) : Out := runBeat (specMov r) s

/-- `movi` (R139). -/
def specMovi (i : IAct) : FireSpec := specI i fun _ => okWord (simm i)
def execMovi (i : IAct) (s : State) : Out := runBeat (specMovi i) s

/-- `drop` (R139): v is the payload of the sa head. -/
def specDrop (r : RAct) : FireSpec := specR r fun x => okBeat x.a
def execDrop (r : RAct) (s : State) : Out := runBeat (specDrop r) s

/-- `sel` (R139): pN as committed chooses; both sources are dequeued. -/
def specSel (r : RAct) (n : Fin 8) : FireSpec := specR r fun x => okBeat (if predOf x.e n then x.a else x.b)
def execSel (r : RAct) (n : Fin 8) (s : State) : Out := runBeat (specSel r n) s

/-- `route` (R140): the head token of sa goes, tag and payload unchanged, to the output numbered Value(sb) modulo the number of
outputs in the fan mask. -/
def specRoute (r : RAct) : FireSpec := specR r fun x =>
  let outs := outsOf x.e .fan
  match outs[x.b.toWord.toNat % outs.length]? with
  | some n => .ok { v := x.a, pred := x.a.getLsbD 0, tok := some { tag := x.tagA, val := x.a }, only := some n }
  | none => .ok { v := x.a, pred := x.a.getLsbD 0 }
def execRoute (r : RAct) (s : State) : Out := runBeat (specRoute r) s

/-- `eos` (R141). -/
def specEos (r : RAct) (rc0 rc1 : Bool) : FireSpec := specR r fun x =>
  .ok { pred := !r.sa.isCh || x.tagA == .last
        tok := some { tag := .last, val := 0 }
        upd := fun e => { e with c0 := if rc0 then 0 else e.c0, c1 := if rc1 then 0 else e.c1 } }
def execEos (r : RAct) (rc0 rc1 : Bool) (s : State) : Out := runBeat (specEos r rc0 rc1) s

/-- A predicate operation (R142): dst, sa and sb name no operand. -/
def specPred (u : PUpd) (f : Elem → Bool) : FireSpec :=
  { dst := .none, sa := .zero, sb := .zero, upd := u, op := fun x => .ok { pred := f x.e } }

def specPand (a b : Fin 8) (u : PUpd) : FireSpec := specPred u fun e => predOf e a && predOf e b
def specPor (a b : Fin 8) (u : PUpd) : FireSpec := specPred u fun e => predOf e a || predOf e b
def specPxor (a b : Fin 8) (u : PUpd) : FireSpec := specPred u fun e => predOf e a != predOf e b
def specPandn (a b : Fin 8) (u : PUpd) : FireSpec := specPred u fun e => predOf e a && !predOf e b
def execPand (a b : Fin 8) (u : PUpd) (s : State) : Out := runBeat (specPand a b u) s
def execPor (a b : Fin 8) (u : PUpd) (s : State) : Out := runBeat (specPor a b u) s
def execPxor (a b : Fin 8) (u : PUpd) (s : State) : Out := runBeat (specPxor a b u) s
def execPandn (a b : Fin 8) (u : PUpd) (s : State) : Out := runBeat (specPandn a b u) s

/-- `cnt.add` (R143): pmode 01 writes whether the counter's new value is 0. -/
def specCntAdd (i : IAct) : FireSpec := specI i fun x =>
  let v := dstValue x.e i.dst + simm i
  .ok { v := v.setWidth 512, pred := v == 0 }
def execCntAdd (i : IAct) (s : State) : Out := runBeat (specCntAdd i) s

/-- `cnt.set` (R143). -/
def specCntSet (i : IAct) : FireSpec := specI i fun x =>
  let v := x.a.toWord + simm i
  .ok { v := v.setWidth 512, pred := v == 0 }
def execCntSet (i : IAct) (s : State) : Out := runBeat (specCntSet i) s

/-- `flg.rd` (R144). -/
def specFlgRd (r : RAct) : FireSpec := specR r fun x => okWord ((flgBits x.e.flg).setWidth 64)
def execFlgRd (r : RAct) (s : State) : Out := runBeat (specFlgRd r) s

/-- `flg.clr` (R144): pmode 01 writes whether a flag was cleared. -/
def specFlgClr (i : IAct) : FireSpec := specI i fun x =>
  let m : Word := (i.imm.extractLsb' 0 7).setWidth 64
  .ok { v := (x.e.flg &&& m).setWidth 512, pred := (x.e.flg &&& m) != 0, upd := fun e => { e with flg := e.flg &&& ~~~m } }
def execFlgClr (i : IAct) (s : State) : Out := runBeat (specFlgClr i) s

/-- Whether `rest` is ready (R145). -/
def restReady (s : State) (l : Loc) : Bool := !unjoined s l && (Tbl.findD s.mes (locKey l) {}).replay.isEmpty

/-- `rest` (R145). -/
def specRest (u : PUpd) : FireSpec :=
  { dst := .none, sa := .zero, sb := .zero, upd := u, ready := restReady
    op := fun _ => .ok { upd := fun e => { e with resting := true } } }
def execRest (u : PUpd) (s : State) : Out := runBeat (specRest u) s

/-- `tmr.rd` (R146). -/
def specTmrRd (r : RAct) (src : TmrSrc) : FireSpec := specR r fun x =>
  okWord (match src with
    | .ts => x.ts
    | .cyc => x.cyc)
def execTmrRd (r : RAct) (src : TmrSrc) (s : State) : Out := runBeat (specTmrRd r src) s

/-- The unsigned code of `trap` and `brk` (R147). -/
def trapCode (i : IAct) : Word := i.imm.setWidth 64

/-- A firing of `trap` or `brk` in its first beat, not repaired: a later beat comes only after the repair that completes the firing (R147). -/
def trapsNow (x : BeatIn) : Bool := x.mode == .normal && x.s.sched.cur.beat == 0

/-- `trap` (R147): a normal firing raises the software trap; a repaired one completes and writes 0 under pmode 01. -/
def specTrap (i : IAct) : FireSpec :=
  { specI i fun x => if trapsNow x then .bad .trap 0 (trapCode i) x.a.toWord else .ok {} with soft := true }
def execTrap (i : IAct) (s : State) : Out := runBeat (specTrap i) s

/-- `brk` (R147): as `trap` while the context's breakpoint enable is set, else a `nop` that dequeues sa. -/
def specBrk (i : IAct) : FireSpec :=
  { specI i fun x => if trapsNow x && x.brkEn then .bad .brk 0 (trapCode i) x.a.toWord else .ok {} with soft := true }
def execBrk (i : IAct) (s : State) : Out := runBeat (specBrk i) s

/-- `pptr` (R148). -/
def pptrOf (e : Elem) : Word := BitVec.ofNat 64 (e.ptr[0].val + 16 * e.ptr[1].val + 256 * e.ptr[2].val)

/-- A special register as `spec.rd` reads it (R148); `tc` is the tile count and the reservations of a matrix element. -/
def specValue (x : BeatIn) (tc : Word) : Spec → Word
  | .flg => (flgBits x.e.flg).setWidth 64
  | .fpm => x.e.fpm
  | .pix => x.e.pix
  | .ws => x.e.ws
  | .eid => eidOf x.l
  | .pxy => x.pxy
  | .tcnt => tc
  | .pptr => pptrOf x.e
  | .wave => x.e.waveNo.setWidth 64

/-- `spec.rd` (R149). -/
def specSpecRd (dst : Dst) (reg : Spec) (u : PUpd) : FireSpec :=
  { dst := dst, sa := .zero, sb := .zero, upd := u, op := fun x => okWord (specValue x x.tc reg) }
def execSpecRd (dst : Dst) (reg : Spec) (u : PUpd) (s : State) : Out := runBeat (specSpecRd dst reg u) s

/-- `spec.wr` (R149): a write to `flg` sets bits, and traps as any flag that is set; a write to `fpm` keeps TE and RD. -/
def specSpecWr (sa : Src) (reg : Spec) (u : PUpd) : FireSpec :=
  { dst := .none, sa := sa, sb := .zero, upd := u
    op := fun x =>
      let v := x.a.toWord
      match reg with
      | .flg => okFlags v (v.setWidth 7)
      | .fpm => .ok { v := x.a, pred := v.getLsbD 0, upd := fun e => { e with fpm := v &&& fpmMask } }
      | _ => okWord v }
def execSpecWr (sa : Src) (reg : Spec) (u : PUpd) (s : State) : Out := runBeat (specSpecWr sa reg u) s

/-- `wave.nx` (R150): ends the element's wave. -/
def specWaveNx (u : PUpd) : FireSpec :=
  { dst := .none, sa := .zero, sb := .zero, upd := u, op := fun x => .ok { post := fun s => endWave s x.l } }
def execWaveNx (u : PUpd) (s : State) : Out := runBeat (specWaveNx u) s

end Sys2Proof.Machine
end

