-- ==== Sys2Proof/Machine/Float.lean ====
section
/-!
DEFINITION. The floating-point, conversion, Q4N and random family (spec 10 R165 to R182).
-/

namespace Sys2Proof.Machine

/-- The width and the number of the lanes of a float format (spec 04 R73). -/
def fpWidth (c : FpCtl) : Nat := fmtWidth (fmtOf c.fmt)
def fpCount (c : FpCtl) : Nat := 64 / fpWidth c

/-- Lane j of a word in the instruction's format, as read (spec 10 R165). -/
def fpLane (c : FpCtl) (j : Nat) (x : Word) : Nat := readBits (fmtOf c.fmt) c.fcs (laneOf (fpWidth c) j x)

/-- `fpm`.RD of the element as committed. -/
def rdOf (x : BeatIn) : Dir := dirOf (fpmRD x.e.fpm)

/-- Lane-wise application to the read lanes of sa and sb. -/
def fpLanes (c : FpCtl) (x : BeatIn) (f : Nat → Nat → Nat × Flags) : BeatRes :=
  okLanes (fpWidth c) ((List.range (fpCount c)).map fun j => f (fpLane c j x.a.toWord) (fpLane c j x.b.toWord))

/-- Lane-wise application to the read lanes of sa, sb and the old dst. -/
def fpLanes3 (c : FpCtl) (x : BeatIn) (f : Nat → Nat → Nat → Nat × Flags) : BeatRes :=
  okLanes (fpWidth c) ((List.range (fpCount c)).map fun j =>
    f (fpLane c j x.a.toWord) (fpLane c j x.b.toWord) (fpLane c j x.old))

/-- Round an exact value, or the invalid operation where there is none (spec 10 R166). -/
def roundOr (f : Fmt) (rd : Dir) (fcs : Fcs) : Option Val → Nat × Flags
  | some v => roundVal f rd fcs v
  | none => invalid f

/-- a + b in a format, with its NaNs (R166). -/
def fpAdd (f : Fmt) (rd : Dir) (fcs : Fcs) (a b : Nat) : Nat × Flags :=
  match nanOf f fcs [(f, a), (f, b)] with
  | some r => r
  | none => roundOr f rd fcs (addVal rd (unpack f a) (unpack f b))

/-- The sign bit of a lane inverted, a NaN left as it is. -/
def flipSign (f : Fmt) (a : Nat) : Nat := if (unpack f a).isNaN then a else a ^^^ 2 ^ (fmtWidth f - 1)

/-- a × b in a format, with its NaNs (R166). -/
def fpMul (f : Fmt) (rd : Dir) (fcs : Fcs) (a b : Nat) : Nat × Flags :=
  match nanOf f fcs [(f, a), (f, b)] with
  | some r => r
  | none => roundOr f rd fcs (mulVal (unpack f a) (unpack f b))

/-- a × b + c rounded once (R166): the invalid product wins over a NaN in c. -/
def fpFma (f : Fmt) (rd : Dir) (fcs : Fcs) (a b c : Nat) : Nat × Flags :=
  match nanOf f fcs [(f, a), (f, b)], mulVal (unpack f a) (unpack f b) with
  | none, none => invalid f
  | _, p =>
    match nanOf f fcs [(f, a), (f, b), (f, c)], p with
    | some r, _ => r
    | none, some p => roundOr f rd fcs (addVal rd p (unpack f c))
    | none, none => invalid f

/-- `fadd` (R166). -/
def specFadd (r : RAct) (c : FpCtl) : FireSpec := specR r fun x => fpLanes c x (fpAdd (fmtOf c.fmt) (rdOf x) c.fcs)
def execFadd (r : RAct) (c : FpCtl) (s : State) : Out := runBeat (specFadd r c) s

/-- `fsub` (R166). -/
def specFsub (r : RAct) (c : FpCtl) : FireSpec := specR r fun x =>
  fpLanes c x fun a b => fpAdd (fmtOf c.fmt) (rdOf x) c.fcs a (flipSign (fmtOf c.fmt) b)
def execFsub (r : RAct) (c : FpCtl) (s : State) : Out := runBeat (specFsub r c) s

/-- `fmul` (R166). -/
def specFmul (r : RAct) (c : FpCtl) : FireSpec := specR r fun x => fpLanes c x (fpMul (fmtOf c.fmt) (rdOf x) c.fcs)
def execFmul (r : RAct) (c : FpCtl) (s : State) : Out := runBeat (specFmul r c) s

/-- `ffma` (R166: reads its dst). -/
def specFfma (r : RAct) (c : FpCtl) : FireSpec := specR3 r fun x => fpLanes3 c x (fpFma (fmtOf c.fmt) (rdOf x) c.fcs)
def execFfma (r : RAct) (c : FpCtl) (s : State) : Out := runBeat (specFfma r c) s

/-- Whether a goes before b in the order of `fmin`, where −0 is smaller than +0 (R167). -/
def fpBefore (a b : Val) : Bool := ltVal a b || (a.isZero && b.isZero && a.neg? && !b.neg?)

/-- The selection of `fmin` and `fmax` (R167), with erratum E2-01 for one signalling NaN (spec 04 R86). -/
def fpSelect (f : Fmt) (fcs : Fcs) (err less : Bool) (a b : Nat) : Nat × Flags :=
  let va := unpack f a
  let vb := unpack f b
  if err && va.isSNaN && !vb.isSNaN then (b, 0)
  else if err && vb.isSNaN && !va.isSNaN then (a, 0)
  else if va.isSNaN || vb.isSNaN then invalid f
  else if va.isNaN && vb.isNaN then (nanOf f fcs [(f, a), (f, b)]).getD (canonNaN f, 0)
  else if va.isNaN then (b, 0)
  else if vb.isNaN then (a, 0)
  else if less then (if fpBefore vb va then b else a, 0)
  else (if fpBefore va vb then b else a, 0)

/-- `fmin` (R167). -/
def specFmin (r : RAct) (c : FpCtl) : FireSpec := specR r fun x => fpLanes c x (fpSelect (fmtOf c.fmt) c.fcs x.e.err true)
def execFmin (r : RAct) (c : FpCtl) (s : State) : Out := runBeat (specFmin r c) s

/-- `fmax` (R167). -/
def specFmax (r : RAct) (c : FpCtl) : FireSpec := specR r fun x => fpLanes c x (fpSelect (fmtOf c.fmt) c.fcs x.e.err false)
def execFmax (r : RAct) (c : FpCtl) (s : State) : Out := runBeat (specFmax r c) s

/-- A sign operation: signalling NaNs are invalid, a quiet NaN is canonical when C is set (R167). -/
def fpSignOp (f : Fmt) (fcs : Fcs) (op : Nat → Nat) (a : Nat) : Nat × Flags :=
  match unpack f a with
  | .nan false => invalid f
  | .nan true => (if fcs.c then canonNaN f else op a, 0)
  | _ => (op a, 0)

/-- `fabs` (R167). -/
def specFabs (r : RAct) (c : FpCtl) : FireSpec := specR r fun x =>
  fpLanes c x fun a _ => fpSignOp (fmtOf c.fmt) c.fcs (fun a => a % 2 ^ (fpWidth c - 1)) a
def execFabs (r : RAct) (c : FpCtl) (s : State) : Out := runBeat (specFabs r c) s

/-- `fneg` (R167). -/
def specFneg (r : RAct) (c : FpCtl) : FireSpec := specR r fun x =>
  fpLanes c x fun a _ => fpSignOp (fmtOf c.fmt) c.fcs (fun a => a ^^^ 2 ^ (fpWidth c - 1)) a
def execFneg (r : RAct) (c : FpCtl) (s : State) : Out := runBeat (specFneg r c) s

/-- A comparison of lanes (R168): `quiet` comparisons set NV for signalling NaNs only. -/
def fpCompare (f : Fmt) (quietCmp : Bool) (test : Val → Val → Bool) (a b : Nat) : Nat × Flags :=
  let va := unpack f a
  let vb := unpack f b
  (if test va vb then allOnes (fmtWidth f) else 0,
   flagIf (if quietCmp then va.isSNaN || vb.isSNaN else va.isNaN || vb.isNaN) fNV)

/-- `fclt` (R168). -/
def specFclt (r : RAct) (c : FpCtl) : FireSpec := specR r fun x => fpLanes c x (fpCompare (fmtOf c.fmt) false ltVal)
def execFclt (r : RAct) (c : FpCtl) (s : State) : Out := runBeat (specFclt r c) s

/-- `fcle` (R168). -/
def specFcle (r : RAct) (c : FpCtl) : FireSpec := specR r fun x => 
  fpLanes c x (fpCompare (fmtOf c.fmt) false fun a b => ltVal a b || eqVal a b)
def execFcle (r : RAct) (c : FpCtl) (s : State) : Out := runBeat (specFcle r c) s

/-- `fceq` (R168). -/
def specFceq (r : RAct) (c : FpCtl) : FireSpec := specR r fun x => fpLanes c x (fpCompare (fmtOf c.fmt) true eqVal)
def execFceq (r : RAct) (c : FpCtl) (s : State) : Out := runBeat (specFceq r c) s

/-- `fcun` (R168). -/
def specFcun (r : RAct) (c : FpCtl) : FireSpec := specR r fun x => 
  fpLanes c x (fpCompare (fmtOf c.fmt) true fun a b => a.isNaN || b.isNaN)
def execFcun (r : RAct) (c : FpCtl) (s : State) : Out := runBeat (specFcun r c) s

/-! ### Conversions -/

/-- A conversion descriptor (R169): source, destination, rounding code, lane group. -/
structure CvtDesc where
  src : Fmt
  dst : Fmt
  rnd : Nat
  part : Nat
  deriving DecidableEq, Repr

/-- The descriptor of `fcvt`, checked by R169 and R170. -/
def cvtDesc (d : Word) : Option CvtDesc :=
  match fmtOfCode (bitsOf d.toNat 3 0), fmtOfCode (bitsOf d.toNat 7 4) with
  | some f, some g =>
    let rnd := bitsOf d.toNat 10 8
    let part := bitsOf d.toNat 18 16
    let big := max (fmtWidth f) (fmtWidth g)
    let small := min (fmtWidth f) (fmtWidth g)
    if rnd ≤ 5 ∧ bitsOf d.toNat 15 11 = 0 ∧ bitsOf d.toNat 63 19 = 0 ∧ part < big / small then some ⟨f, g, rnd, part⟩ else none
  | _, _ => none

/-- A rounding code with the random word of a draw (spec 02 R33, R35). -/
def dirOfCode (code : Nat) (rw : Nat) : Dir :=
  match code with
  | 4 => .sr rw
  | 5 => .rna
  | n => dirOf n

/-- One lane converted (R170). -/
def cvtLane (f g : Fmt) (rd : Dir) (fcs : Fcs) (a : Nat) : Nat × Flags :=
  let a := readBits f fcs a
  match nanOf g fcs [(f, a)] with
  | some r => r
  | none => roundVal g rd fcs (unpack f a)

/-- The state of `fcvt` along its lanes: the word so far, the flags, c1. -/
structure CvtState where
  v : Word
  flags : Flags
  c1 : Word
  deriving DecidableEq, Repr

/-- Lane i of a conversion: c1 advances at each lane under SR, at inexact lanes only under erratum E2-04 (R170, 04 R86). -/
def cvtStep (d : CvtDesc) (fcs : Fcs) (err : Bool) (k a : Word) (n i : Nat) (st : CvtState) : CvtState :=
  let sw := fmtWidth d.src
  let dw := fmtWidth d.dst
  let si := if dw ≤ sw then i else d.part * n + i
  let ti := if dw ≤ sw then d.part * n + i else i
  let rd := dirOfCode d.rnd ((sowHash k st.c1).toNat % 2 ^ 16)
  let r := cvtLane d.src d.dst rd fcs (laneOf sw si a)
  let draws := d.rnd == 4 && (!err || r.2 &&& fNX != 0)
  { v := insertBits st.v (dw * ti) dw r.1, flags := st.flags ||| r.2, c1 := if draws then st.c1 + 1 else st.c1 }

/-- `fcvt` (R170). -/
def specFcvt (r : RAct) (fcs : Fcs) : FireSpec := specR3 r fun x =>
  match cvtDesc x.b.toWord with
  | none => badOperand x.b.toWord
  | some d =>
    let n := 64 / max (fmtWidth d.src) (fmtWidth d.dst)
    let base : Word := if fmtWidth d.dst < fmtWidth d.src then (if r.dst.isReg then x.old else 0) else 0
    let st := (List.range n).foldl (fun st i => cvtStep d fcs x.e.err x.e.k x.a.toWord n i st) ⟨base, 0, x.e.c1⟩
    .ok { v := st.v.setWidth 512, flags := st.flags, pred := st.v.getLsbD 0, upd := fun e => { e with c1 := st.c1 } }
def execFcvt (r : RAct) (fcs : Fcs) (s : State) : Out := runBeat (specFcvt r fcs) s

/-- A finite value rounded to an integer: the magnitude and whether it is exact (R171). -/
def toInteger (rd : Dir) (neg : Bool) (m : Nat) (e : Int) : Nat × Bool := roundAt rd neg m e 0

/-- One lane of `f2i` (R171). -/
def f2iLane (f : Fmt) (signed : Bool) (rd : Dir) (a : Nat) : Nat × Flags :=
  let w := fmtWidth f
  match unpack f a with
  | .nan _ => (0, fNV)
  | .inf neg => (wrapTo w (if neg then loBound signed w else hiBound signed w), fNV)
  | .fin neg m e =>
    let z := toInteger rd neg m e
    let v := sgn neg z.1
    if v < loBound signed w then (wrapTo w (loBound signed w), fNV)
    else if hiBound signed w < v then (wrapTo w (hiBound signed w), fNV)
    else (wrapTo w v, flagIf (!z.2) fNX)

/-- `f2i` (R171). -/
def specF2i (r : RAct) (signed trunc : Bool) (c : FpCtl) : FireSpec := specR r fun x =>
  fpLanes c x fun a _ => f2iLane (fmtOf c.fmt) signed (if trunc then .rtz else rdOf x) a
def execF2i (r : RAct) (signed trunc : Bool) (c : FpCtl) (s : State) : Out := runBeat (specF2i r signed trunc c) s

/-- `i2f` (R172). -/
def specI2f (r : RAct) (signed : Bool) (c : FpCtl) : FireSpec := specR r fun x =>
  okLanes (fpWidth c) ((lanesOf (fpWidth c) (fpCount c) x.a.toWord).map fun a =>
    let v := intOf signed (fpWidth c) a
    roundVal (fmtOf c.fmt) (rdOf x) c.fcs (.fin (decide (v < 0)) v.natAbs 0))
def execI2f (r : RAct) (signed : Bool) (c : FpCtl) (s : State) : Out := runBeat (specI2f r signed c) s

/-- The direction of an explicit rounding code of `frnd` (R173). -/
def dirOfRCode : RCode → Dir
  | .rne => .rne
  | .rtz => .rtz
  | .rdn => .rdn
  | .rup => .rup
  | .sr => .sr 0
  | .rna => .rna

/-- One lane of `frnd` (R173). -/
def frndLane (f : Fmt) (rd : Dir) (fcs : Fcs) (a : Nat) : Nat × Flags :=
  match nanOf f fcs [(f, a)] with
  | some r => r
  | none =>
    match unpack f a with
    | .fin neg m e => let z := toInteger rd neg m e; ((roundVal f .rne fcs (.fin neg z.1 0)).1, flagIf (!z.2) fNX)
    | _ => (a, 0)

/-- `frnd` (R173). -/
def specFrnd (r : RAct) (rd : Option RCode) (c : FpCtl) : FireSpec := specR r fun x =>
  fpLanes c x fun a _ => frndLane (fmtOf c.fmt) (match rd with
    | some k => dirOfRCode k
    | none => rdOf x) c.fcs a
def execFrnd (r : RAct) (rd : Option RCode) (c : FpCtl) (s : State) : Out := runBeat (specFrnd r rd c) s

/-- A power of two beyond which every format has overflowed or vanished: the exponent n is cut there, with the same result. -/
def clampExp (n : Int) : Int := if n < -10000 then -10000 else if 10000 < n then 10000 else n

/-- One lane of `fscl` (R174). -/
def fsclLane (f : Fmt) (rd : Dir) (fcs : Fcs) (a n : Nat) : Nat × Flags :=
  match nanOf f fcs [(f, a)] with
  | some r => r
  | none =>
    match unpack f a with
    | .fin neg m e => roundVal f rd fcs (.fin neg m (e + clampExp (signedOf (fmtWidth f) n)))
    | v => roundVal f rd fcs v

/-- `fscl` (R174: sb holds integers). -/
def specFscl (r : RAct) (c : FpCtl) : FireSpec := specR r fun x =>
  okLanes (fpWidth c) ((List.range (fpCount c)).map fun j =>
    fsclLane (fmtOf c.fmt) (rdOf x) c.fcs (fpLane c j x.a.toWord) (laneOf (fpWidth c) j x.b.toWord))
def execFscl (r : RAct) (c : FpCtl) (s : State) : Out := runBeat (specFscl r c) s

/-- The class bit of a lane as stored (R175). -/
def fpClass (f : Fmt) (a : Nat) : Nat :=
  match unpack f a with
  | .inf neg => if neg then 0 else 7
  | .nan q => if q then 9 else 8
  | .fin neg m _ =>
    if m = 0 then (if neg then 3 else 4)
    else if isSubnormal f a then (if neg then 2 else 5)
    else (if neg then 1 else 6)

/-- `fcls` (R175). -/
def specFcls (r : RAct) (c : FpCtl) : FireSpec := specR r fun x =>
  okLanes (fpWidth c) ((lanesOf (fpWidth c) (fpCount c) x.a.toWord).map fun a => quiet (2 ^ fpClass (fmtOf c.fmt) a))
def execFcls (r : RAct) (c : FpCtl) (s : State) : Out := runBeat (specFcls r c) s

/-- A product of two operands neither of which is a NaN: none for 0 × ∞. -/
def cleanProd (a b : Val) : List (Option Val) := if a.isNaN || b.isNaN then [] else [mulVal a b]

/-- a0 × b0 + a1 × b1 + c, rounded once (R176): an invalid product, or infinities of opposite sign in the sum, come before NaN selection
(log 21). -/
def dotLane (f g : Fmt) (rd : Dir) (fcs : Fcs) (a0 a1 b0 b1 c : Nat) : Nat × Flags :=
  let terms := cleanProd (unpack f a0) (unpack f b0) ++ cleanProd (unpack f a1) (unpack f b1) ++ [some (unpack g c)]
  let inf (neg : Bool) : Bool := terms.any fun t => t == some (.inf neg)
  if terms.contains none || (inf false && inf true) then invalid g
  else match nanOf g fcs [(f, a0), (f, a1), (f, b0), (f, b1), (g, c)] with
    | some r => r
    | none =>
      match mulVal (unpack f a0) (unpack f b0), mulVal (unpack f a1) (unpack f b1) with
      | some p, some q =>
        match addVal rd p q with
        | some t => roundOr g rd fcs (addVal rd t (unpack g c))
        | none => invalid g
      | _, _ => invalid g

/-- The format of `fdot`'s result lanes (R176). -/
def dotFmt : FpFmt → Fmt
  | .bf16 | .f16 => .f32
  | _ => .f64

/-- `fdot` (R176: accumulates into dst). -/
def specFdot (r : RAct) (c : FpCtl) : FireSpec := specR3 r fun x =>
  let g := dotFmt c.fmt
  okLanes (fmtWidth g) ((List.range (64 / fmtWidth g)).map fun i =>
    dotLane (fmtOf c.fmt) g (rdOf x) c.fcs (fpLane c (2 * i) x.a.toWord) (fpLane c (2 * i + 1) x.a.toWord)
      (fpLane c (2 * i) x.b.toWord) (fpLane c (2 * i + 1) x.b.toWord) (readBits g c.fcs (laneOf (fmtWidth g) i x.old)))
def execFdot (r : RAct) (c : FpCtl) (s : State) : Out := runBeat (specFdot r c) s

/-! ### Q4N -/

/-- The position and the scale of a scale word (R177). -/
def q4Word (c : FpCtl) (d : Word) : Option (Nat × Val) :=
  let sg := bitsOf d.toNat 31 0
  let p := bitsOf d.toNat 43 40
  if bitsOf d.toNat 63 44 = 0 ∧ p < 16 / fpCount c ∧ q4ScaleOk sg then some (p, q4Scale sg (bitsOf d.toNat 39 32)) else none

/-- `q4.dq` (R178: exact, no flag). -/
def specQ4dq (r : RAct) (c : FpCtl) : FireSpec := specR r fun x =>
  match q4Word c x.b.toWord with
  | none => badOperand x.b.toWord
  | some (p, sc) =>
    okLanes (fpWidth c) ((List.range (fpCount c)).map fun j =>
      quiet (roundVal (fmtOf c.fmt) .rne ⟨false, false, false⟩ (q4Value (laneOf 4 (fpCount c * p + j) x.a.toWord) sc)).1)
def execQ4dq (r : RAct) (c : FpCtl) (s : State) : Out := runBeat (specQ4dq r c) s

/-- `q4.q` (R179: reads its dst). -/
def specQ4q (r : RAct) (c : FpCtl) : FireSpec := specR3 r fun x =>
  match q4Word c x.b.toWord with
  | none => badOperand x.b.toWord
  | some (p, sc) =>
    let st := (List.range (fpCount c)).foldl (fun (st : Word × Flags) j =>
      let q := q4Encode (unpack (fmtOf c.fmt) (fpLane c j x.a.toWord)) sc
      (insertBits st.1 (4 * (fpCount c * p + j)) 4 q.1, st.2 ||| q.2)) (x.old, 0)
    okFlags st.1 st.2
def execQ4q (r : RAct) (c : FpCtl) (s : State) : Out := runBeat (specQ4q r c) s

/-! ### Random streams -/

/-- One kept lane of `dropm`: Read(a) × m with m an f32 value (R180). -/
def dropmLane (f : Fmt) (rd : Dir) (fcs : Fcs) (a m : Nat) : Nat × Flags :=
  match nanOf f fcs [(f, a), (.f32, m)] with
  | some r => r
  | none => roundOr f rd fcs (mulVal (unpack f a) (unpack .f32 m))

/-- Whether the draw at counter value n keeps a lane (R180). -/
def dropmKeeps (k n : Word) (q : Nat) : Bool := decide ((sowHash k n).toNat % 2 ^ 16 ≤ q)

/-- `dropm` (R180: c0 advances once per lane; pmode 01 writes whether lane 0 is kept). -/
def specDropm (r : RAct) (c : FpCtl) : FireSpec := specR r fun x =>
  let d := x.b.toWord
  if bitsOf d.toNat 31 16 ≠ 0 then badOperand d
  else
    let q := bitsOf d.toNat 15 0
    let lanes := (List.range (fpCount c)).map fun j =>
      if dropmKeeps x.e.k (x.e.c0 + BitVec.ofNat 64 j) q then
        dropmLane (fmtOf c.fmt) (rdOf x) c.fcs (fpLane c j x.a.toWord) (bitsOf d.toNat 63 32)
      else (0, 0)
    let v := joinFlagged (fpWidth c) lanes
    .ok { v := v.1.setWidth 512, flags := v.2, pred := dropmKeeps x.e.k x.e.c0 q
          upd := fun e => { e with c0 := e.c0 + BitVec.ofNat 64 (fpCount c) } }
def execDropm (r : RAct) (c : FpCtl) (s : State) : Out := runBeat (specDropm r c) s

/-- The lane of `rnd` from a 64-bit draw (R181). -/
def rndLane (f : FpFmt) (h : Word) : Nat :=
  let n := match f with
    | .f64 => 53
    | .f32 => 24
    | .bf16 => 8
    | .f16 => 11
  (roundVal (fmtOf f) .rne ⟨false, false, false⟩ (.fin false (h.toNat >>> (64 - n)) (-(n : Int)))).1

/-- `rnd` (R181: c1 advances once per lane). -/
def specRnd (r : RAct) (c : FpCtl) : FireSpec := specR r fun x =>
  let v := wordOfLanes (fpWidth c) ((List.range (fpCount c)).map fun j => rndLane c.fmt (sowHash x.e.k (x.e.c1 + BitVec.ofNat 64 j)))
  .ok { v := v.setWidth 512, pred := v.getLsbD 0, upd := fun e => { e with c1 := e.c1 + BitVec.ofNat 64 (fpCount c) } }
def execRnd (r : RAct) (c : FpCtl) (s : State) : Out := runBeat (specRnd r c) s

end Sys2Proof.Machine
end

