-- ==== Sys2Proof/Machine/Path.lean ====
section
/-!
DEFINITION. Memory paths: the regions of physical memory (spec 12 R196), page tables and translation buffers (R197 to R199), a request's
way from its element to its home (R200 to R204, 17 R302 to R305), the combining buffer (13 R230), seals (12 R207), watchpoints (R210)
and the home's operations (16 R289 to R292).
-/

namespace Sys2Proof.Machine

/-! ### Physical addresses -/

/-- Where a physical address leads (spec 12 R196). -/
inductive Home
  /-- HBM of this package -/
  | hbm (pa : Nat)
  /-- the second tier of this package, by PA -/
  | tier (pa : Nat)
  /-- host memory, by PCIe address -/
  | host (pa : Nat)
  /-- another package's memory -/
  | remote (pkg addr : Nat)
  /-- reduction window of the issuing context, and offset -/
  | window (n off : Nat)
  /-- unpopulated -/
  | absent
  deriving DecidableEq, Repr

/-- The end of HBM. -/
def hbmEnd : Nat := 2 ^ 39

/-- The second tier's bytes; the package form has none (spec 12 R196; log 1). -/
def inTier (pa : Nat) : Bool := Config.secondTier && decide (2 ^ 40 ≤ pa) && decide (pa < 2 ^ 41)

/-- The home of a physical address (spec 12 R196). -/
def homeOf (s : State) (pa : Nat) : Home :=
  if pa < hbmEnd then .hbm pa
  else if inTier pa then .tier pa
  else if bitsOf pa 51 48 = 8 then .host pa
  else if bitsOf pa 51 48 = 12 then
    let w := (Tbl.findD s.dvl (bitsOf pa 47 40) 0).toNat
    let addr := bitsOf w 51 40 * 2 ^ 40 + bitsOf pa 39 0
    if bitOf w 63 && (decide (addr < hbmEnd) || (decide (2 ^ 40 ≤ addr) && decide (addr < 2 ^ 41))) then
      if bitsOf w 11 0 = Config.packageNumber then (if addr < hbmEnd then .hbm addr else if inTier addr then .tier addr else .absent) else .remote (bitsOf w 11 0) addr
    else .absent
  else if bitsOf pa 51 43 = 0x1C0 then .window (bitsOf pa 42 40) (bitsOf pa 39 0)
  else .absent

/-- The field die whose stacks hold an HBM byte. -/
def hbmDie (pa : Nat) : Nat := bitsOf pa 38 37

/-- The field die that reports an error of a byte of device memory: for the second tier die 0 (log 32). -/
def paDie (pa : Nat) : Nat := if pa < hbmEnd then hbmDie pa else 0

/-- SUB of a MEMERR of a poisoned line at a home (18 R313): HBM 1, second tier 2. Other homes have no poisoned lines of this package. -/
def memSub : Home → Option Nat
  | .hbm _ => some 1
  | .tier _ => some 2
  | .host _ | .remote .. | .window .. | .absent => none

/-- What a read of n bytes at a home meets: the SUB of its MEMERR where it touches a poisoned line (19 R330). -/
def poisonAt (s : State) (h : Home) (pa n : Nat) : Option Nat := if poisoned s.memPoison pa n then memSub h else none

/-! ### Page tables -/

/-- A page found by a walk. -/
structure Page where
  va : Nat
  size : Nat
  pa : Nat
  w : Bool
  nc : Bool
  deriving DecidableEq, Repr

/-- One level of a walk (spec 12 R197): lowest index bit, index bits, alignment of the next table, and whether a leaf is allowed. -/
structure WalkLevel where
  lo : Nat
  bits : Nat
  next : Nat
  leafOk : Bool
  deriving DecidableEq, Repr

def walkLevels : List WalkLevel := [⟨39, 13, 4096, false⟩, ⟨30, 9, 4096, true⟩, ⟨21, 9, 256, true⟩, ⟨16, 5, 1, true⟩]

/-- Walk the levels from a table on (spec 12 R198): none is a fault of kind not present. -/
def walkTable (mem : List Host.Cell) (va : Nat) : List WalkLevel → Nat → Option Page
  | [], _ => none
  | lv :: rest, table =>
    let addr := table + 8 * bitsOf va (lv.lo + lv.bits - 1) lv.lo
    if hbmEnd < addr + 8 then none
    else
      let e := readNum mem addr 8
      let target := bitsOf e 51 8 * 256
      if !bitOf e 0 || bitsOf e 63 52 != 0 || bitsOf e 7 5 != 0 || bitOf e 3 then none
      else if bitOf e 1 then
        if lv.leafOk && target % 2 ^ lv.lo == 0 then some ⟨va / 2 ^ lv.lo * 2 ^ lv.lo, 2 ^ lv.lo, target, bitOf e 2, bitOf e 4⟩ else none
      else if rest.isEmpty || bitOf e 2 || bitOf e 4 || target % lv.next != 0 || decide (hbmEnd ≤ target) then none
      else walkTable mem va rest target

/-- The entry in an uncorrectable line that a walk from a table on reads (spec 19 R330), by its physical address. -/
def walkPoisoned (mem : List Host.Cell) (bad : List Nat) (va : Nat) : List WalkLevel → Nat → Option Nat
  | [], _ => none
  | lv :: rest, table =>
    let addr := table + 8 * bitsOf va (lv.lo + lv.bits - 1) lv.lo
    let e := readNum mem addr 8
    if hbmEnd < addr + 8 then none
    else if poisoned bad addr 8 then some addr
    else if bitOf e 0 && !bitOf e 1 then walkPoisoned mem bad va rest (bitsOf e 51 8 * 256) else none

/-- An address that a walk starts for: within 52 bits, with a root that is aligned and in HBM (spec 12 R197). -/
def walkStarts (s : State) (ctx va : Nat) : Bool :=
  decide (va < 2 ^ 52) && decide ((getCtx s ctx).troot.toNat % 65536 = 0) && decide ((getCtx s ctx).troot.toNat < hbmEnd)

/-- The entry in an uncorrectable line of a table that a walk meets. -/
def walkMemErr (s : State) (ctx va : Nat) : Option Nat :=
  if walkStarts s ctx va && !s.memPoison.isEmpty then walkPoisoned s.mem s.memPoison va walkLevels (getCtx s ctx).troot.toNat else none

/-- The page of an address in a context (spec 12 R197); none where no walk starts, or it finds none. -/
def walk (s : State) (ctx va : Nat) : Option Page :=
  if walkStarts s ctx va && (walkMemErr s ctx va).isNone then walkTable s.mem va walkLevels (getCtx s ctx).troot.toNat else none

/-- Why bytes cannot be read or written: the fault, and the ADDR of its record (spec 18 R314), which is the virtual address of the access and for a
MEMERR the physical address. -/
structure VBad where
  cls : FaultClass
  sub : Nat
  va : Nat
  deriving DecidableEq, Repr

/-- The fault of a walk that finds no page: not present, or MEMERR of HBM at the entry that it cannot read. -/
def walkFault (s : State) (ctx va : Nat) : VBad :=
  match walkMemErr s ctx va with
  | some pa => ⟨.memerr, 1, pa⟩
  | none => ⟨.translate, 0, va⟩

/-! ### Translation buffers -/

def getLe (s : State) (l : Loc) : LeUnit := Tbl.findD s.les (locKey l) {}
def modLe (s : State) (l : Loc) (f : LeUnit → LeUnit) : State := { s with les := Tbl.put s.les (locKey l) (f (getLe s l)) }

def tlbFind (t : List TlbEntry) (ctx va : Nat) : Option TlbEntry := t.find? fun e => e.ctx == ctx && decide (e.va ≤ va) && decide (va < e.va + e.size)

/-- Put a page first in a buffer of n entries. -/
def tlbPut (n : Nat) (t : List TlbEntry) (e : TlbEntry) : List TlbEntry := (e :: t.filter fun x => x != e).take n

def tlbOf (ctx : Nat) (p : Page) : TlbEntry := { ctx := ctx, va := p.va, size := p.size, pa := p.pa, w := p.w, nc := p.nc }

/-- Look an address up in the endpoint's buffer and then in the die's (spec 12 R199). -/
def tlbLookup (s : State) (le : Loc) (ctx va : Nat) : Option TlbEntry :=
  (tlbFind (getLe s le).tlb ctx va).orElse fun _ => tlbFind (getDie s (dieOf le.plot)).tlb ctx va

/-- Fill a page into the endpoint's and the die's buffers. -/
def tlbFill (s : State) (le : Loc) (e : TlbEntry) : State :=
  modDie (modLe s le fun u => { u with tlb := tlbPut 256 u.tlb e }) (dieOf le.plot) fun d => { d with tlb := tlbPut 16384 d.tlb e }

/-- The translation of an engine's, the drill's or a plot's own access: through the die's buffer, and else by a walk that fills it. -/
def transNow (s : State) (die ctx va : Nat) : State × Option TlbEntry :=
  match tlbFind (getDie s die).tlb ctx va with
  | some e => (s, some e)
  | none =>
    match walk s ctx va with
    | some p => (modDie s die fun d => { d with tlb := tlbPut 16384 d.tlb (tlbOf ctx p) }, some (tlbOf ctx p))
    | none => (s, none)

/-- The physical address of an address under a translation. -/
def physOf (e : TlbEntry) (va : Nat) : Nat := e.pa + (va - e.va)

/-! ### Orders -/

def isStoreOp : ReqOp → Bool
  | .store | .amo .. | .cas | .red .. => true
  | _ => false

/-- A request of the M-form (spec 13 R225): what fences, releases and acquires order. -/
def isMForm (q : Req) : Bool :=
  match q.thr, q.op with
  | .wave .., .prefetch | .wave .., .pattern _ => false
  | .wave .., _ => true
  | _, _ => false

/-- Performed at a scope (spec 17 R303). -/
def performedAt (sc : Scope) : Phase → Bool
  | .performed .. => true
  | .atPort _ => sc == .plot
  | _ => false

/-- What a request must follow is performed. -/
def depsDone (s : State) (after : List (Nat × Scope)) : Bool :=
  after.all fun x => match findReq s x.1 with
    | some r => performedAt x.2 r.phase
    | none => true

/-- The physical address of an offset in a reduction window (spec 12 R196). -/
def windowPa (n off : Nat) : Nat := 0x1C0 * 2 ^ 43 + n * 2 ^ 40 + off

/-- The physical address that a request has, a combining one in its line; none before it is translated, and while a fault holds it. -/
def reqPa (s : State) (q : Req) : Option Nat :=
  match q.phase with
  | .translated pa _ | .atPort pa => some pa
  | .contributing n off => some (windowPa n off)
  | .combining => ((getLe s q.le).comb.find? fun c => c.reqs.contains q.id).map fun c => c.pa + q.va % 64
  | _ => none

/-- A request as its record shows it where the bytes that it met lie at a physical address. -/
def Req.metAt (q : Req) (pa : Nat) : Req := { q with phase := .translated pa false }

/-- Two byte ranges overlap. -/
def overlaps (a n b m : Nat) : Bool := decide (a < b + m) && decide (b < a + n)

/-- The physical address that a request has or, were it translated now, would have; none while a translation fault holds it. -/
def likelyPa (s : State) (q : Req) : Option Nat :=
  match q.phase with
  | .held .translate => none
  | _ => ((reqPa s q).orElse fun _ => (tlbLookup s q.le q.ctx q.va).map fun e => physOf e q.va).orElse fun _ =>
      (walk s q.ctx q.va).map fun p => p.pa + (q.va - p.va)

/-- An access, which reads or writes bytes at its address. -/
def isAccess : ReqOp → Bool
  | .fence | .seal _ | .unseal | .prefetch => false
  | _ => true

/-- An access that counts for the order within its thread: placed, and not unordered by its wave numbers (spec 03 R51, 12 R203, R204). -/
def inOrder (q : Req) : Bool :=
  match q.thr with
  | .wave .. => q.place != 0 && q.seq != 31 && q.pred != 31
  | _ => q.place != 0

def isSettled : Phase → Bool
  | .performed .. | .atPort _ => true
  | _ => false

/-- q may touch bytes of an earlier access r (spec 12 R203). While r is still to be translated its physical address is known up to its page, which is 64 KiB
or more, and no access crosses a line: q may touch it where the offsets in 64 KiB overlap. Else they are compared physically where both have
a physical address, and virtually while r is held for a translation fault. -/
def mayTouch (s : State) (q r : Req) : Bool :=
  match r.phase with
  | .entered | .walking .. => overlaps (r.va % 65536) r.size (q.va % 65536) q.size
  | _ => match likelyPa s r, likelyPa s q with
    | some a, some b => overlaps a r.size b q.size
    | _, _ => overlaps r.va r.size q.va q.size

/-- An earlier access of the thread that q must follow (spec 12 R203): one not performed whose bytes it may touch. -/
def blocksIn (s : State) (q r : Req) : Bool :=
  r.thr == q.thr && isAccess r.op && inOrder r && decide (r.place < q.place) && !isSettled r.phase && mayTouch s q r

def orderOk (s : State) (q : Req) : Bool := !inOrder q || !(s.reqs.any (blocksIn s q))

/-- A write of the plot that its memory port holds over some of the bytes (spec 17 R304). -/
def portHolds (plot pa n : Nat) (r : Req) : Bool :=
  r.issuer.plot == plot && (match r.phase with
    | .atPort p => overlaps p r.size pa n
    | _ => false)

/-! ### Faults of requests -/

/-- A request of a stream on a wide channel. -/
def onWide (s : State) (q : Req) : Bool :=
  match q.thr with
  | .stream l m => decide (2 ≤ (getLe s l).streams[m].pat.ch.val)
  | _ => false

/-- What a faulted request holds (spec 12 R200): a store or atomic itself, else the token of its response. -/
def heldOf (s : State) (q : Req) : HeldWhat := if isStoreOp q.op then .access q.id else .token q.rid q.id (onWide s q)

/-- The stream of a request, 0xFF for a wave's. -/
def streamNo (q : Req) : Nat :=
  match q.thr with
  | .stream _ m => m.val
  | _ => 0xFF

def waveNoOf (q : Req) : Nat :=
  match q.thr with
  | .wave _ n => n
  | _ => 0

/-- The owner by which faults of one pending miss merge (spec 18 R316). -/
def ownerKey (q : Req) : Nat := locKey q.issuer * 256 + streamNo q

/-- The pending-miss entry of an access, as context and 64 KiB page (spec 12 R199), with the kind of its fault. -/
def missKey (q : Req) (sub : Nat) : Nat := q.va / 2 ^ 16 * 128 + sub * 64 + q.ctx

/-- The key by which the elements that an image does not store join the fault of its header (spec 12 R209). -/
def badKey : Nat := 2 ^ 128

/-- The key by which the accesses that join one pending-miss entry join the MEMERR of its walk (spec 18 R316). -/
def walkKey (q : Req) : Nat := 2 ^ 129 + missKey q 0

/-- The kind of a replay-queue entry of a held access (spec 18 R317). -/
def rqKindOf : ReqOp → RqKind
  | .cas => .cas
  | .amo .. | .red .. => .atomic
  | _ => .store

/-- The entry that holds a store or atomic. -/
def rqOf (q : Req) (fid : Nat) (wfid : Bool) : RqEntry :=
  { kind := rqKindOf q.op, slot := q.slot, beat := q.beat, wfid := wfid, fid := fid, act := q.act, a := BitVec.ofNat 64 q.va,
    b := q.data.toWord, c := q.data2, owner := q.id, depth := q.depth }

/-- A held store or atomic may take an entry: fewer than 15 of all are occupied, so that the last stays for a firing (spec 18 R317). -/
def entryFor (e : Elem) : Bool := decide (e.rq.length < 15)

/-- An entry for a held access, where one may be taken. -/
def takeHeld (s : State) (q : Req) : State × Nat :=
  let e := getElem s q.issuer
  match q.thr with
  | .wave .. =>
    if isStoreOp q.op && entryFor e then
      match freeEntry e.rq with
      | some n => (setElem s q.issuer { e with rq := Tbl.put e.rq n (rqOf q 0 true) }, n)
      | none => (s, 0xFF)
    else (s, 0xFF)
  | _ => (s, 0xFF)

/-- A request faults (spec 12 R200, 18 R316): it is held in its place. -/
def faultReq (s : State) (q : Req) (cls : FaultClass) (sub : Nat) (info0 : Word) (miss : Option Nat) : State :=
  let s := modReq s q.id fun r => { r with phase := .held cls, watch := r.watch && (cls != .brk) }
  let (s, entry) := takeHeld s q
  let s := match q.thr with
    | .stream l m => if q.depth = 0 then modLe s l fun u => { u with streams := u.streams.set m { u.streams[m] with faulted := u.streams[m].faulted + 1 } }
      else s
    | _ => s
  raiseFault s
    { cls := cls, sub := sub, plot := q.issuer.plot, site := q.issuer.site, slot := q.slot, entry := entry, strm := streamNo q,
      wave := waveNoOf q, addr := if cls = .memerr then (reqPa s q).getD q.va else q.va, info0 := info0, ctx := some q.ctx, depth := q.depth,
      flags := (if isStoreOp q.op then 0 else 1) + (if entry = 0xFF then 0 else 2) + (if streamNo q = 0xFF then 0 else 4),
      what := some (heldOf s q), key := if cls = .translate then some (ownerKey q, missKey q sub) else miss.map fun n => (ownerKey q, n) }

/-- A list in ascending place. -/
def byPlace (qs : List Req) : List Req := sortKey (fun (a b : Req) => decide (a.place < b.place)) qs

/-- Held accesses that found no entry enter entries as they free, in the order of their threads (spec 18 R317). -/
def enterHeld (s : State) : State :=
  (byPlace (s.reqs.filter fun q => isMForm q && isStoreOp q.op && (match q.phase with | .held _ => true | _ => false) &&
      !((getElem s q.issuer).rq.any fun x => x.2.owner == q.id && x.2.kind != .firing))).foldl
    (fun s q =>
      let rec_ := s.faults.find? fun r => r.items.any fun h => h.what == .access q.id
      let e := getElem s q.issuer
      if entryFor e then
        match freeEntry e.rq, rec_ with
        | some n, some r => setElem s q.issuer { e with rq := Tbl.put e.rq n (rqOf q (r.fid.getD 0) r.fid.isNone) }
        | _, _ => s
      else s) s

/-! ### Watchpoints and seals -/

/-- The context's seals overlap a range (spec 12 R207). -/
def sealedRange (s : State) (ctx va n : Nat) : Bool := (getCtx s ctx).seals.any fun x => overlaps x.1 x.2 va n

/-- The pages of 64 KiB of a sealed range as a context maps them now overlap physical bytes. -/
def sealMaps (s : State) (ctx base len pa n : Nat) : Bool :=
  (List.range (len / 65536)).any fun i => match walk s ctx (base + 65536 * i) with
    | some p => overlaps (p.pa + (base + 65536 * i - p.va)) 65536 pa n
    | none => false

/-- Physical bytes are sealed, in whatever context and under whatever alias (spec 17 R309). -/
def sealedPa (s : State) (pa n : Nat) : Bool := s.ctxs.any fun c => c.2.seals.any fun x => sealMaps s c.1 x.1 x.2 pa n

/-- An issue watchpoint matches an access of its endpoint as it is issued (spec 12 R210, 13 R234). -/
def watchMatches (s : State) (q : Req) : Bool :=
  (getLe s q.le).wps.toList.any fun w =>
    decide (0 < w.len) && overlaps w.base w.len q.va q.size &&
    (match w.mode, isStoreOp q.op with
      | .off, _ => false
      | .rd, st => !st
      | .wr, st => st
      | .rw, _ => true)

/-- The source word of a home watchpoint's report (spec 12 R210). -/
def srcElement (ctx : Nat) (l : Loc) : Nat := ctx % 64 * 2 ^ 22 + plotX l.plot * 2 ^ 16 + plotY l.plot * 2 ^ 12 + l.site * 2 ^ 7
def srcEngine (kind ctx die eng : Nat) : Nat := kind * 2 ^ 28 + ctx % 64 * 2 ^ 22 + die * 2 ^ 16 + eng * 2 ^ 12
/-- The source word of what a DVL link brings from a package, and of the drill's and the Reeve's own writes. -/
def srcRemote (pkg : Nat) : Nat := 4 * 2 ^ 28 + pkg % 2 ^ 12
def srcDrill : Nat := 6 * 2 ^ 28
def srcReeve : Nat := 7 * 2 ^ 28

/-- A home watchpoint reports a write: report-only, BREAK, SUB 2 (spec 12 R210, 18 R313). -/
def raiseWatch (s : State) (pa src plot site : Nat) : State :=
  raiseFault s { cls := .brk, sub := 2, plot := plot, site := site, addr := pa, src := src, report := true, die := some (hbmDie pa) }

/-- Report the home watchpoints that a write matches. -/
def reportWatch (s : State) (pa n src plot site : Nat) : State :=
  (getDie s (hbmDie pa)).wps.toList.foldl (fun s w =>
    if decide (0 < w.len) && overlaps w.base w.len pa n then raiseWatch s pa src plot site else s) s

/-- The lines of a range that a home watchpoint of a die matches. -/
def watchedLines (die : Nat) (w : HomeWp) (pa n : Nat) : List Nat :=
  let lo := max w.base pa / 64
  if overlaps w.base w.len pa n then
    ((List.range ((min (w.base + w.len) (pa + n) + 63) / 64 - lo)).map fun i => max pa (64 * (lo + i))).filter fun a => hbmDie a == die
  else []

/-- Report the home watchpoints that a write of many lines by the drill or the Reeve matches, each line on its own (log 20). -/
def reportRange (s : State) (pa n src : Nat) : State :=
  s.dies.foldl (fun s d => d.2.wps.toList.foldl (fun s w => (watchedLines d.1 w pa n).foldl (fun s a => raiseWatch s a src 512 0xFF) s) s) s

/-! ### Performing at the home -/

/-- The poisoned lines of a range are reported. -/
def reportPoison (s : State) (pa n : Nat) : State :=
  (s.memPoison.filter fun l => overlaps l 64 pa n).foldl (fun s l =>
    raiseFault s { cls := .memerr, sub := (memSub (homeOf s l)).getD 1, plot := 512 + paDie l, addr := l, report := true, die := some (paDie l) }) s

/-- Bytes read at a home. Another package's bytes are FREE VALUES (log 14). -/
def homeRead (s : State) (h : Home) (n : Nat) : State × List Byte :=
  match h with
  | .hbm pa | .tier pa | .host pa => (s, readBytes s.mem pa n)
  | .remote _ addr => (modSched s fun c => { c with freeCtr := c.freeCtr + 1 }, (upFrom addr n).map (Config.peerByte s.sched.freeCtr))
  | _ => (s, List.replicate n 0)

/-- A write is handed to the PCIe link: with Relaxed Ordering only as a line of a combining buffer (spec 17 R310; log 31). -/
def handToPcie (s : State) (pa n : Nat) (relaxed : Bool) : State := { s with pcie := s.pcie ++ [⟨pa, n, relaxed, now s⟩] }

/-- Bytes written at a home: HBM with its watchpoints, the second tier, host memory; a write to another package leaves this one (log 14). -/
def homeWrite (s : State) (h : Home) (bs : List Byte) (src plot site : Nat) : State :=
  match h with
  | .hbm pa => reportWatch (memWrite s pa bs) pa bs.length src plot site
  | .tier pa => memWrite s pa bs
  | .host pa => handToPcie (memWrite s pa bs) pa bs.length false
  | _ => s

/-- n(o, v) of an atomic on w bits, with its flags (spec 16 R289). -/
def atomValue (op : AtomOp) (fcs : Fcs) (w : Nat) (o v : Nat) : Nat × Flags :=
  let f : Fmt := if w = 32 then .f32 else .f64
  let ro := readBits f fcs o
  let rv := readBits f fcs v
  match op with
  | .add => ((o + v) % 2 ^ w, 0)
  | .min => (if signedOf w v < signedOf w o then v else o, 0)
  | .max => (if signedOf w o < signedOf w v then v else o, 0)
  | .minn => (min o v, 0)
  | .maxn => (max o v, 0)
  | .and => (o &&& v, 0)
  | .or => (o ||| v, 0)
  | .xor => (o ^^^ v, 0)
  | .xchg => (v, 0)
  | .fadd => fpAdd f .rne fcs ro rv
  | .fmin => fpSelect f fcs false true ro rv
  | .fmax => fpSelect f fcs false false ro rv

/-- The bytes that a plot's element reads (spec 17 R304): of each byte the latest write that its own port holds, else the home's. -/
def portByte (s : State) (plot pa : Nat) (home : Byte) : Byte :=
  match (s.reqs.filter (portHolds plot pa 1)).getLast? with
  | some r => (match r.phase with
    | .atPort p => BitVec.ofNat 8 (r.data.toNat >>> (8 * (pa - p)))
    | _ => home)
  | none => home

def portRead (s : State) (plot pa : Nat) (bs : List Byte) : List Byte := bs.mapIdx fun i b => portByte s plot (pa + i) b

/-- The request is performed. -/
def setPerformed (s : State) (id : Nat) (data : Beat) (f : Flags) : State := modReq s id fun q => { q with phase := .performed data f }

/-- A request moved behind every other: the order in which the port accepts writes. -/
def moveLast (s : State) (id : Nat) : State :=
  { s with reqs := s.reqs.filter (fun q => q.id != id) ++ s.reqs.filter (fun q => q.id == id) }

/-! ### The combining buffer (spec 13 R230) -/

/-- Hand a line to PCIe. -/
def sendLine (s : State) (le : Loc) (c : CombLine) : State :=
  let s := c.bytes.foldl (fun s x => memWrite s x.1 [x.2]) s
  let s := handToPcie s c.pa 64 true
  let s := c.reqs.foldl (fun s id => setPerformed s id 0 0) s
  modLe s le fun u => { u with comb := u.comb.filter fun x => x != c }

/-- Hand every line that meets a test to PCIe, oldest first. -/
def sendLines (s : State) (le : Loc) (p : CombLine → Bool) : State := ((getLe s le).comb.filter p).foldl (fun s c => sendLine s le c) s

/-- A system-scope release first sends the lines that hold earlier stores of its own wave (spec 17 R305). -/
def sendBefore (s : State) (q : Req) : State :=
  sendLines s q.le fun c => c.thr == q.thr && c.reqs.any fun id => q.after.any fun x => x.1 == id

/-- Gather a non-temporal store to host memory into a line of its stream or wave. -/
def combine (s : State) (q : Req) (pa : Nat) : State :=
  let bs := bytesOf q.size q.data.toNat
  let cells := bs.mapIdx fun i b => (pa + i, b)
  let line := pa / 64 * 64
  let s := modReq s q.id fun r => { r with phase := .combining }
  let s := if (getLe s q.le).comb.any (fun c => c.pa == line && c.thr == q.thr) ∨ (getLe s q.le).comb.length < 16 then s
    else match (getLe s q.le).comb with
      | c :: _ => sendLine s q.le c
      | [] => s
  let put (c : CombLine) : CombLine :=
    { c with bytes := c.bytes.filter (fun x => !(cells.any fun y => y.1 == x.1)) ++ cells, reqs := c.reqs ++ [q.id] }
  let s := modLe s q.le fun u =>
    if u.comb.any fun c => c.pa == line && c.thr == q.thr then
      { u with comb := mapIf (fun c => c.pa == line && c.thr == q.thr) put u.comb }
    else { u with comb := u.comb ++ [put { pa := line, thr := q.thr, bytes := [], reqs := [], opened := now s }] }
  sendLines s q.le fun c => decide (64 ≤ c.bytes.length)

/-! ### Reduction windows, as the issuing package sees them (spec 16 R297) -/

/-- A window as its own package sees it. -/
def windowOf (s : State) (ctx n : Nat) : Window := Tbl.findD (getCtx s ctx).wins n {}

/-- A window contribution may enter (spec 16 R297). -/
def windowOpen (w : Window) (off n : Nat) : Bool := w.wctl.getLsbD 0 && decide (off + n ≤ w.wlen.toNat)

/-! ### The pattern record (spec 12 R201) -/

/-- Bytes of a format code that a compressed view may name (spec 02 R24, 12 R201). -/
def viewBytes : Nat → Option Nat
  | 0 | 10 => some 8
  | 1 | 9 => some 4
  | 2 | 3 => some 2
  | 4 | 5 | 6 | 7 => some 1
  | _ => none

/-- Element sizes by code. -/
def eszBytes : Nat → Option Nat
  | 0 => some 1
  | 1 => some 2
  | 2 => some 4
  | 3 => some 8
  | 4 => some 16
  | 5 => some 64
  | _ => none

/-- The dimension pairs of a record, NDIM of them. -/
def patternDims (bs : List Byte) (n : Nat) : List (Nat × Int) :=
  (List.range n).map fun i => (fieldAt bs (0x18 + 8 * i) 4, signedOf 32 (fieldAt bs (0x1C + 8 * i) 4))

/-- The layout of a pattern record, before its checks. -/
def readPattern (bs : List Byte) : Pattern :=
  let mode := fieldAt bs 0x0A 1
  { base := fieldAt bs 0 8, esz := fieldAt bs 8 1, ndim := fieldAt bs 9 1, store := bitOf mode 0, fg := bitsOf mode 2 1,
    cmp := bitsOf mode 4 3 == 1, nt := bitOf mode 5, fmt := fieldAt bs 0x0B 1, ch := ⟨fieldAt bs 0x0C 1 % 4, Nat.mod_lt _ (by decide)⟩,
    tagp := fieldAt bs 0x0D 1, cpl := fieldAt bs 0x0E 1, res := fieldAt bs 0x10 4,
    dims := patternDims bs (min (fieldAt bs 9 1) 4) }

/-- Whether output or input n of an element has a route. -/
def hasRoute (e : Elem) (store : Bool) (n : Fin 4) : Bool :=
  if store then (inPort e n).src.isSome else (outPort e n).route.isSome

/-- The checks of R201. -/
def patternOk (e : Elem) (bs : List Byte) : Bool :=
  let p := readPattern bs
  let mode := fieldAt bs 0x0A 1
  let wide := decide (2 ≤ p.ch.val)
  decide (p.esz ≤ 5) && decide (1 ≤ p.ndim) && decide (p.ndim ≤ 4) && decide (bitsOf mode 4 3 ≤ 1) && decide (bitsOf mode 7 6 = 0) &&
  decide (fieldAt bs 0x0C 1 < 4) && decide (p.tagp ≤ 2) && decide (fieldAt bs 0x0F 1 = 0) && decide (fieldAt bs 0x14 4 = 0) &&
  decide (fieldAt bs 0x38 8 = 0) && (wide || decide (p.esz ≤ 3)) && hasRoute e p.store p.ch &&
  (p.cpl == 12 || (p.cpl == 8 && (outPort e 0).route.isSome) || (p.cpl == 9 && (outPort e 1).route.isSome)) &&
  (!p.cmp || (viewBytes p.fmt == eszBytes p.esz && (viewBytes p.fmt).isSome && (patternDims bs 4).all fun d => d.2 == 0))

/-- A stream opens with a record (spec 13 R232); what an earlier `sbar` made it wait for stays (R233). -/
def openStream (s : State) (l : Loc) (m : Fin 8) (p : Pattern) : State :=
  modLe (traceEvent s l.plot (.mem l.site 3 m.val p.base)) l fun u => { u with streams := u.streams.set m { pat := p, opened := true, before := u.streams[m].before } }

/-! ### One request -/

/-- A request that would need a new pending-miss entry while its die's table is full (spec 12 R199). -/
def wantsEntry (s : State) (q : Req) : Bool :=
  let die := dieOf q.le.plot
  q.phase == .entered && decide (4096 ≤ (getDie s die).misses.length) && (tlbLookup s q.le q.ctx q.va).isNone &&
  !((getDie s die).misses.any fun m => m.ctx == q.ctx && m.va == q.va / 65536 * 65536)

/-- A thread that issues nothing further: an earlier request of it waits for a free entry. -/
def threadWaits (s : State) (le : Loc) (thr : Thread) (place : Nat) : Bool :=
  decide (4096 ≤ (getDie s (dieOf le.plot)).misses.length) && s.reqs.any fun r => r.thr == thr && r.place != 0 && decide (r.place < place) && wantsEntry s r

/-- A request is given its translation, or joins or opens a pending-miss entry (spec 12 R199); with the table full it stays. -/
def missReq (s : State) (q : Req) : State :=
  let die := dieOf q.le.plot
  let page := q.va / 65536 * 65536
  match (getDie s die).misses.find? fun m => m.ctx == q.ctx && m.va == page with
  | some m => modReq s q.id fun r => { r with phase := .walking die m.id }
  | none =>
    if (getDie s die).misses.length < 4096 then
      let id := freshId s
      let s := bumpId (modDie s die fun d => { d with misses := d.misses ++ [{ id := id, ctx := q.ctx, va := page, stale := false }] })
      modReq s q.id fun r => { r with phase := .walking die id }
    else s

/-- The result word of a load (spec 13 R226). -/
def loadWord (sx : Bool) (n : Nat) (v : Nat) : Nat := if sx then wrapTo 64 (signedOf (8 * n) v) else v

/-- Read for a load or a part of an image, at the port or at the home (spec 17 R304): an uncorrectable line faults (spec 19 R330). -/
def readFor (s : State) (q : Req) (h : Home) (pa : Nat) : State :=
  match h with
  | .hbm _ | .tier _ | .host _ | .remote .. =>
    match poisonAt s h pa q.size with
    | some sub => faultReq s q .memerr sub 0 none
    | none =>
      let (s, bs) := homeRead s h q.size
      let v := ofBytes (portRead s q.issuer.plot pa bs)
      let v := match q.op with
        | .load sx => if q.size ≤ 8 then loadWord sx q.size v else v
        | _ => v
      setPerformed s q.id (BitVec.ofNat 512 v) 0
  | .window .. => faultReq s q .operand 0 (BitVec.ofNat 64 q.va) none
  | .absent => faultReq s q .translate 0 0 none

/-- A store: the port accepts it, and then the home performs it (spec 17 R304); to host memory a non-temporal one is combined, after the older
writes to its bytes that the port holds. -/
def storeAt (s : State) (q : Req) (h : Home) (pa : Nat) : State :=
  match h with
  | .window .. => faultReq s q .operand 0 (BitVec.ofNat 64 q.va) none
  | .absent => faultReq s q .translate 0 0 none
  | .host _ =>
    if q.ord = .nonTemporal then (if s.reqs.any (portHolds q.issuer.plot pa q.size) then s else combine s q pa)
    else moveLast (modReq s q.id fun r => { r with phase := .atPort pa }) q.id
  | _ => moveLast (modReq s q.id fun r => { r with phase := .atPort pa }) q.id

/-- A write that the port holds goes to its home, after the older writes to its bytes. -/
def drainPort (s : State) (q : Req) (pa : Nat) : State :=
  let older := s.reqs.takeWhile fun r => r.id != q.id
  if older.any (portHolds q.issuer.plot pa q.size) then s
  else
    let s := homeWrite s (homeOf s pa) (bytesOf q.size q.data.toNat) (srcElement q.ctx q.issuer) q.issuer.plot q.issuer.site
    setPerformed s q.id 0 0

/-- The host answers an AtomicOp it cannot perform with an error (spec 16 R291: FREE VALUE). -/
def hostTakes (op : ReqOp) : Bool :=
  match op with
  | .amo .add _ | .amo .xchg _ | .cas => true
  | _ => false

/-- An atomic at its home (spec 16 R289 to R292). -/
def atomicAt (s : State) (q : Req) (h : Home) (pa : Nat) : State :=
  let w := 8 * q.size
  let op (old : Nat) : Option (Nat × Flags) := match q.op with
    | .amo o f | .red o f => some (atomValue o f w old (q.data.toNat % 2 ^ w))
    | .cas => if old = q.data.toNat % 2 ^ w then some (q.data2.toNat % 2 ^ w, 0) else none
    | _ => none
  let run (s : State) : State :=
    let (s, bs) := homeRead s h q.size
    let old := ofBytes bs
    let back : Nat := match q.op with
      | .red .. => 0
      | _ => old
    match op old with
    | some (n, f) =>
      setPerformed (homeWrite s h (bytesOf q.size n) (srcElement q.ctx q.issuer) q.issuer.plot q.issuer.site) q.id (BitVec.ofNat 512 back) f
    | none => setPerformed s q.id (BitVec.ofNat 512 back) 0
  if s.reqs.any (portHolds q.issuer.plot pa q.size) then s
  else match h with
    | .hbm _ | .tier _ => (match poisonAt s h pa q.size with
      | some sub => faultReq s q .memerr sub 0 none
      | none => run s)
    | .remote .. => run s
    | .host _ =>
      if !hostTakes q.op then faultReq s q .operand 0 (BitVec.ofNat 64 q.va) none
      else if Config.hostAtomicRefused s.sched.freeCtr then
        faultReq (modSched s fun c => { c with freeCtr := c.freeCtr + 1 }) q .operand 0 (BitVec.ofNat 64 q.va) none
      else run (modSched s fun c => { c with freeCtr := c.freeCtr + 1 })
    | .window n off =>
      (match q.op with
      | .red .. =>
        if windowOpen (windowOf s q.ctx n) off q.size then modReq s q.id fun r => { r with phase := .contributing n off }
        else faultReq s q .translate 0 0 none
      | _ => faultReq s q .operand 0 (BitVec.ofNat 64 q.va) none)
    | .absent => faultReq s q .translate 0 0 none

/-- A write that a port or a combining line holds, to bytes of a range as its context maps it: it is performed before the seal of the range. -/
def holdsSealed (s : State) (ctx base len : Nat) (r : Req) : Bool :=
  match r.phase with
  | .atPort _ | .combining =>
    (r.ctx == ctx && overlaps base len r.va r.size) || (reqPa s r).any fun pa => sealMaps s ctx base len pa r.size
  | _ => false

/-- Enter a seal (spec 13 R229): its status. -/
def enterSeal (s : State) (q : Req) (len : Nat) : State :=
  let c := getCtx s q.ctx
  if s.reqs.any (holdsSealed s q.ctx q.va len) then s
  else if c.seals.any fun x => overlaps x.1 x.2 q.va len then setPerformed s q.id 2 0
  else if 64 ≤ c.seals.length then setPerformed s q.id 1 0
  else setPerformed (modCtx s q.ctx fun c => { c with seals := c.seals ++ [(q.va, len)] }) q.id 0 0

/-- Remove a seal by its exact base. No replica outlives it: a sealed byte keeps its value (log 9). -/
def dropSeal (s : State) (q : Req) : State :=
  if (getCtx s q.ctx).seals.any fun x => x.1 == q.va then
    setPerformed (modCtx s q.ctx fun c => { c with seals := c.seals.filter fun x => x.1 != q.va }) q.id 0 0
  else setPerformed s q.id 3 0

/-- The record of `strm.opn` read (spec 13 R232): the stream opens, or an OPERAND fault stands for its acknowledgement. -/
def readRecord (s : State) (q : Req) (h : Home) (pa : Nat) (base : Option Word) : State :=
  match h with
  | .window .. => faultReq s q .operand 0 (BitVec.ofNat 64 q.va) none
  | .absent => faultReq s q .translate 0 0 none
  | _ =>
    match poisonAt s h pa 64 with
    | some sub => faultReq s q .memerr sub 0 none
    | none =>
      let (s, bs) := homeRead s h 64
      let bs := portRead s q.issuer.plot pa bs
      let bs := match base with
        | some b => bytesOf 8 b.toNat ++ bs.drop 8
        | none => bs
      match q.thr with
      | .stream l m =>
        if patternOk (getElem s l) bs then setPerformed (openStream s l m (readPattern bs)) q.id 0 0
        else faultReq s q .operand 0 (BitVec.ofNat 64 (fieldAt bs 8 8)) none
      | _ => setPerformed s q.id 0 0

/-- What a request that has its physical address does. -/
def actReq (s : State) (q : Req) (pa : Nat) : State :=
  let h := homeOf s pa
  match q.op with
  | .load _ | .maskByte | .header => readFor s q h pa
  | .store => storeAt s q h pa
  | .amo .. | .cas | .red .. => atomicAt s q h pa
  | .pattern b => readRecord s q h pa b
  | .prefetch => setPerformed s q.id 1 0
  | .fence | .seal _ | .unseal => s

/-- The checks of an access before it is translated (spec 12 R200, R207, R210, 13 R225): a stream's address that leaves the 52-bit space is an
alignment fault by R200, an M-form address a translation fault by R225. -/
def checkReq (s : State) (q : Req) : Option (FaultClass × Nat × Word) :=
  if q.bad then some (.operand, 0, BitVec.ofNat 64 q.va)
  else if 2 ^ 52 ≤ q.va then some (if streamNo q = 0xFF then .translate else .align, 0, 0)
  else if q.va % q.algn ≠ 0 then some (.align, 0, 0)
  else if q.watch then some (.brk, 1, 0)
  else if isStoreOp q.op && sealedRange s q.ctx q.va q.size then some (.sealed, 0, 0)
  else none

/-- The request under its translation: a write needs W (spec 12 R198), and no seal on its bytes. -/
def withPage (s : State) (q : Req) (e : TlbEntry) : State :=
  if isStoreOp q.op && !e.w then faultReq s q .translate 1 0 none
  else if isStoreOp q.op && sealedPa s (physOf e q.va) q.size then faultReq s q .sealed 0 0 none
  else
    let q' := { q with phase := .translated (physOf e q.va) e.nc }
    actReq (modReq s q.id fun _ => q') q' (physOf e q.va)

/-- HOME_ACCESS_PERFORM on a request: what it waits for being done, it is checked and translated, or performed. -/
def performReq (s : State) (q : Req) : State :=
  match q.phase with
  | .atPort pa => drainPort s q pa
  | .translated pa _ =>
    if depsDone s q.after && orderOk s q then
      (if isStoreOp q.op && (sealedRange s q.ctx q.va q.size || sealedPa s pa q.size) then faultReq s q .sealed 0 0 none else actReq s q pa)
    else s
  | .entered =>
    if !depsDone s q.after then (if isStoreOp q.op && q.ord == .ordered && q.scope == .system then sendBefore s q else s)
    else if threadWaits s q.le q.thr q.place then s
    else match q.op with
      | .fence => setPerformed s q.id 0 0
      | .seal len => enterSeal s q len.toNat
      | .unseal => dropSeal s q
      | .prefetch =>
        (match tlbLookup s q.le q.ctx q.va with
        | some e => setPerformed (tlbFill s q.le e) q.id 1 0
        | none => if 2 ^ 52 ≤ q.va then setPerformed s q.id 0 0 else missReq s q)
      | _ =>
        if !orderOk s q then s
        else match checkReq s q with
          | some (c, sub, w) => faultReq s q c sub w (if q.bad then some badKey else none)
          | none =>
            match tlbLookup s q.le q.ctx q.va with
            | some e => withPage (tlbFill s q.le e) q e
            | none => missReq s q
  | _ => s

/-! ### Issue -/

/-- The endpoint of an element (spec 12 R204). -/
def endpointOf (l : Loc) : Loc := if l.site < 16 then ⟨l.plot, 24 + l.site % 4⟩ else l

/-- Requests that occupy the wave buffer of an endpoint as a firing of this cycle sees it: those that were issued in an earlier one (spec 08 R135). -/
def waveLoad (s : State) (le : Loc) : Nat :=
  (s.reqs.filter fun q => q.le == le && isMForm q && decide (q.born ≠ now s + 1) && (match q.phase with | .held _ => false | _ => true)).length

/-- A release waits for every earlier M-form request of its element, a fence and a seal too; every later one waits for fences and
acquires that are not performed (spec 17 R305). -/
def isRelease (op : ReqOp) (ord : MOrd) : Bool :=
  match op with
  | .store | .amo .. | .cas | .red .. => ord == .ordered
  | .fence | .seal _ => true
  | _ => false

def isAcquire (q : Req) : Bool :=
  match q.op with
  | .load _ | .amo .. | .cas => q.ord == .ordered
  | .fence => true
  | _ => false

def depsOf (s : State) (l : Loc) (op : ReqOp) (ord : MOrd) (sc : Scope) : List (Nat × Scope) :=
  (s.reqs.filter fun q => q.issuer == l && isMForm q && (isRelease op ord || isAcquire q)).map fun q =>
    (q.id, if isRelease op ord then sc else q.scope)

/-- Enter a request of the element's present wave: its SEQ has been seen. -/
def enterWave (s : State) (q : Req) : State :=
  let s := enterReq s q.id
  if q.thr = waveThread s q.issuer ∧ q.seq ≠ 31 then modElem s q.issuer fun e => { e with waveSeen := q.seq :: e.waveSeen } else s

/-- The wave-table entry of a slot (spec 03 R51): LIW, SEQ, PRED, SUCC. -/
def waveLiw (w : BitVec 16) : Bool := w.getLsbD 15
def waveSeq (w : BitVec 16) : Nat := bitsOf w.toNat 14 10
def wavePred (w : BitVec 16) : Nat := bitsOf w.toNat 9 5
def waveSucc (w : BitVec 16) : Nat := bitsOf w.toNat 4 0

/-- The KIND of the trace record of an access (19 R337). -/
def traceKind : ReqOp → Option Nat
  | .load _ => some 0
  | .store => some 1
  | .amo .. | .cas | .red .. => some 2
  | .fence | .seal _ | .unseal | .prefetch | .pattern _ | .header | .maskByte => none

/-- The stream of a thread, or 0xF for a wave (19 R337). -/
def traceStream : Thread → Nat
  | .stream _ m => m.val
  | _ => 0xF

/-- A request enters the endpoint: a watchpoint may match it, and the plot's trace unit is told of a load, a store or an atomic. -/
def addReq (s : State) (q : Req) : State :=
  let s := bumpId { s with reqs := s.reqs ++ [{ q with watch := watchMatches s q }] }
  match traceKind q.op with
  | some k => traceEvent s q.issuer.plot (.mem q.issuer.site k (traceStream q.thr) q.va)
  | none => s

/-- Issue an M-form request from a firing (spec 12 R204): a SEQ seen before first ends the wave; the request enters at once or waits for
its predecessor; and it ends the wave by LIW or by a back edge. -/
def issueReq (s : State) (l : Loc) (slot : Fin 16) (q : Req) : State :=
  let w := (getElem s l).wave[slot]
  let s := if waveSeq w ≠ 31 ∧ (getElem s l).waveSeen.contains (waveSeq w) then endWave s l else s
  let q := { q with id := freshId s, thr := waveThread s l, issuer := l, le := endpointOf l, ctx := ctxOf s l.plot, slot := slot.val,
                    seq := waveSeq w, pred := wavePred w, after := depsOf s l q.op q.ord q.scope, born := now s + 1 }
  let s := addReq s q
  let s := if waveSeq w = 31 ∨ wavePred w = 31 ∨ (getElem s l).waveSeen.contains (wavePred w) then enterWave s q else s
  if waveLiw w ∨ (waveSeq w ≠ 31 ∧ waveSucc w ≠ 31 ∧ waveSucc w ≤ waveSeq w) then endWave s l else s

end Sys2Proof.Machine
end

