-- ==== Sys2Proof/Machine/Memory.lean ====
section
/-!
DEFINITION. Loads, stores, atomics, fences and seals (spec 13 R225 to R229, 16 R288 to R292): the firing issues a request, and its
response, where there is one, is given its place on dst (13 R215).
-/

namespace Sys2Proof.Machine

/-- Bytes of an access size (spec 04 R68). -/
def sizeBytes : MSize → Nat
  | .b1 => 1
  | .b2 => 2
  | .b4 => 4
  | .b8 => 8

/-- A free entry of the endpoint's wave buffer (spec 13 R225). -/
def waveRoom (s : State) (l : Loc) : Bool := decide (waveLoad s (endpointOf l) < 32)

/-- The effect of a firing that issues a request: the entry for its response is reserved and the request goes to the endpoint. -/
def issueEffect (dst : Dst) (q : Req) (s : State) : State :=
  let c := s.sched.cur
  let rid := if dst = .none then 0 else freshId s
  let s := if dst = .none then s else reserve (bumpId s) c.l dst rid true
  issueReq s c.l c.slot { q with rid := rid, beat := c.beat, act := curAct s }

/-- An M-form request of an operation (spec 13 R225): the address is Value(sa). -/
def memReq (m : MAct) (op : ReqOp) (x : BeatIn) : Req :=
  { thr := .wave x.l 0, issuer := x.l, le := x.l, op := op, va := x.a.toWord.toNat, size := sizeBytes m.size, algn := sizeBytes m.size,
    data := x.b, ord := m.ord, scope := if m.ord = .ordered then m.scope else .device }

/-- The firing of an M-form instruction. -/
def specMem (m : MAct) (op : ReqOp) : FireSpec :=
  { dst := m.dst, sa := m.sa, sb := m.sb, async := true, ready := waveRoom
    op := fun x => .ok { post := issueEffect m.dst (memReq m op x) } }

/-- `ld` (R226). -/
def specLd (m : MAct) (sx : Bool) : FireSpec := specMem m (.load sx)
def execLd (m : MAct) (sx : Bool) (s : State) : Out := runBeat (specLd m sx) s

/-- `st` (R227). -/
def specSt (m : MAct) : FireSpec := specMem m .store
def execSt (m : MAct) (s : State) : Out := runBeat (specSt m) s

/-- `amo` (R288, R289). -/
def specAmo (m : MAct) (op : AtomOp) (fcs : Fcs) : FireSpec := specMem m (.amo op fcs)
def execAmo (m : MAct) (op : AtomOp) (fcs : Fcs) (s : State) : Out := runBeat (specAmo m op fcs) s

/-- `red` (R288, R289). -/
def specRed (m : MAct) (op : AtomOp) (fcs : Fcs) : FireSpec := specMem m (.red op fcs)
def execRed (m : MAct) (op : AtomOp) (fcs : Fcs) (s : State) : Out := runBeat (specRed m op fcs) s

/-- The new value of `amo.cas` (R288): the odd register above the comparand's, or the entry behind it. -/
def casNew (x : BeatIn) : Src → Word
  | .d n => x.e.d[n + 1]
  | .ch n => match ((inPort x.e n).q.es[1]?).bind (·.body) with
    | some t => (payload t).toWord
    | none => 0
  | _ => 0

/-- A channel operand of `amo.cas` shows two entries for each beat to come (R288). -/
def casReady (sb : Src) (s : State) (l : Loc) : Bool :=
  waveRoom s l && (match sb with
    | .ch n => decide (2 * (s.sched.cur.beats - s.sched.cur.beat) ≤ (headTokens s l n).length)
    | _ => true)

/-- `amo.cas` (R288, R290): both entries of a channel pair are dequeued. -/
def specAmoCas (m : MAct) : FireSpec :=
  { dst := m.dst, sa := m.sa, sb := m.sb, async := true, ready := casReady m.sb
    op := fun x =>
      .ok { post := fun s => issueEffect m.dst { memReq m .cas x with data2 := casNew x m.sb } (dequeueAll s x.l m.sb.chans) } }
def execAmoCas (m : MAct) (s : State) : Out := runBeat (specAmoCas m) s

/-- The effect of `wfence` (R228): the acknowledgement's entry, the end of the wave, and a request that every earlier one precedes. -/
def fenceEffect (dst : Dst) (scope : Scope) (l : Loc) (s : State) : State :=
  let rid := if dst = .none then 0 else freshId s
  let s := if dst = .none then s else reserve (bumpId s) l dst rid true
  let s := endWave s l
  let q : Req := { id := freshId s, thr := waveThread s l, issuer := l, le := endpointOf l, ctx := ctxOf s l.plot, op := .fence, scope := scope,
                   phase := .entered, after := depsOf s l .fence .ordered scope, rid := rid, born := now s + 1 }
  bumpId { s with reqs := s.reqs ++ [q] }

/-- `wfence` (R228). -/
def specWfence (dst : Dst) (scope : Scope) : FireSpec :=
  { dst := dst, sa := .zero, sb := .zero, async := true, ready := waveRoom
    op := fun x => .ok { post := fenceEffect dst scope x.l } }
def execWfence (dst : Dst) (scope : Scope) (s : State) : Out := runBeat (specWfence dst scope) s

/-- A range that `mseal` takes (R229): multiples of 64 KiB, not empty, within the 52-bit space. -/
def sealRangeOk (base len : Word) : Bool :=
  decide (base.toNat % 65536 = 0) && decide (len.toNat % 65536 = 0) && decide (len ≠ 0) && decide (base.toNat + len.toNat ≤ 2 ^ 52)

/-- The request of `mseal` or `munseal`. -/
def sealReq (op : ReqOp) (x : BeatIn) : Req :=
  { thr := .wave x.l 0, issuer := x.l, le := x.l, op := op, va := x.a.toWord.toNat, ord := .ordered, scope := .device }

/-- `mseal` (R229). -/
def specMseal (dst : Dst) (sa sb : Src) : FireSpec :=
  { dst := dst, sa := sa, sb := sb, async := true, ready := waveRoom
    op := fun x =>
      if sealRangeOk x.a.toWord x.b.toWord then .ok { post := issueEffect dst (sealReq (.seal x.b.toWord) x) }
      else badOperand (if x.a.toWord.toNat % 65536 = 0 then x.b.toWord else x.a.toWord) }
def execMseal (dst : Dst) (sa sb : Src) (s : State) : Out := runBeat (specMseal dst sa sb) s

/-- `munseal` (R229). -/
def specMunseal (dst : Dst) (sa : Src) : FireSpec :=
  { dst := dst, sa := sa, sb := .zero, async := true, ready := waveRoom
    op := fun x => .ok { post := issueEffect dst (sealReq .unseal x) } }
def execMunseal (dst : Dst) (sa : Src) (s : State) : Out := runBeat (specMunseal dst sa) s

end Sys2Proof.Machine
end

