-- ==== Sys2Proof/Machine/Endpoint.lean ====
section
/-!
DEFINITION. The load-store endpoint's instructions (spec 13 R231 to R234), and the steps of its streams: STREAM_ACCESS and STREAM_COMPLETE
(spec 12 R201, R202, R208, R209, 13 R232).
-/

namespace Sys2Proof.Machine

def getStream (s : State) (l : Loc) (m : Fin 8) : Stream := (getLe s l).streams[m]
def modStream (s : State) (l : Loc) (m : Fin 8) (f : Stream → Stream) : State :=
  modLe s l fun u => { u with streams := u.streams.set m (f u.streams[m]) }

/-- Requests of a stream. -/
def streamReqs (s : State) (l : Loc) (m : Fin 8) : List Req := s.reqs.filter fun q => q.thr == .stream l m

/-! ### Instructions -/

/-- `strm.opn` (R232): ready when mN is closed with no access outstanding. -/
def openEffect (dst : Dst) (m : Fin 8) (x : BeatIn) (hasBase : Bool) (s : State) : State :=
  let (s, rid) := reserveAck s x.l dst false
  let id := freshId s
  let q : Req := { id := id, thr := .stream x.l m, issuer := x.l, le := x.l, ctx := ctxOf s x.l.plot, slot := s.sched.cur.slot.val, act := curAct s,
                   op := .pattern (if hasBase then some x.b.toWord else none), va := x.a.toWord.toNat, size := 64, algn := 64,
                   phase := .entered, place := id, rid := rid }
  addReq s q
def specStrmOpn (r : RAct) (m : Fin 8) : FireSpec :=
  { dst := r.dst, sa := r.sa, sb := r.sb, upd := r.upd, async := true
    ready := fun s l => !(getStream s l m).opened && (streamReqs s l m).isEmpty
    op := fun x => .ok { post := openEffect r.dst m x r.sb.isCh } }
def execStrmOpn (r : RAct) (m : Fin 8) (s : State) : Out := runBeat (specStrmOpn r m) s

/-- `strm.cls` (R232): address generation stops at the next element boundary. -/
def specStrmCls (r : RAct) (m : Fin 8) : FireSpec := specR r fun x =>
  .ok { post := fun s => modStream s x.l m fun st => { st with closing := st.opened } }
def execStrmCls (r : RAct) (m : Fin 8) (s : State) : Out := runBeat (specStrmCls r m) s

/-- The streams of a mask. -/
def maskStreams (mask : BitVec 8) : List (Fin 8) := [(0 : Fin 8), 1, 2, 3, 4, 5, 6, 7].filter fun m => mask.getLsbD m.val

/-- The next place that an `sbar` keeps, in the order before it, for an access that the element in progress still owes. -/
def owedReq (s : State) (l : Loc) (m : Fin 8) : Option Req := (streamReqs s l m).find? fun q => q.phase == .waiting

/-- Accesses that the element in progress of a stream is still to generate, at most: of an expanded one its bitmask byte and its value (R209), of a
compressed one the bytes that it has still to write; 0 where an earlier `sbar` keeps their places. -/
def owedCount (s : State) (l : Loc) (m : Fin 8) : Nat :=
  let st := getStream s l m
  if (owedReq s l m).isSome then 0
  else st.tail.length + (if !st.placed then 0 else if st.maskOk || (streamReqs s l m).any (fun q => q.op == .maskByte) then 1 else 2)

/-- Keep a place in a stream's order, behind what an earlier `sbar` puts before it. -/
def oweReq (l : Loc) (m : Fin 8) (s : State) : State :=
  bumpId { s with reqs := s.reqs ++ [{ id := freshId s, thr := .stream l m, issuer := l, le := l, op := .fence, va := 0, phase := .waiting
                                       after := (getStream s l m).before }] }

/-- Keep the places of the element in progress: a stream is split at its next element boundary (R233). -/
def oweReqs (l : Loc) (s : State) (m : Fin 8) : State := (List.range (owedCount s l m)).foldl (fun s _ => oweReq l m s) s

/-- `sbar` (R233): what the streams of the mask have generated, and what their elements in progress still owe, precedes what they generate from now on. -/
def barEffect (mask : BitVec 8) (l : Loc) (s : State) : State :=
  let ms := maskStreams mask
  let s := ms.foldl (oweReqs l) s
  let ids := ms.flatMap fun m => (streamReqs s l m).map fun q => (q.id, Scope.device)
  ms.foldl (fun s m => modStream s l m fun st => { st with before := (st.before.filter fun x => (findReq s x.1).isSome) ++ ids }) s
def specSbar (mask : BitVec 8) (u : PUpd) : FireSpec :=
  { dst := .none, sa := .zero, sb := .zero, upd := u, op := fun x => .ok { post := barEffect mask x.l } }
def execSbar (mask : BitVec 8) (u : PUpd) (s : State) : Out := runBeat (specSbar mask u) s

/-- The status word of a stream (R232). -/
def streamStatus (st : Stream) : Word :=
  BitVec.ofNat 64 (st.idx % 2 ^ 32 + min st.faulted 65535 * 2 ^ 32 + (if st.opened then 2 ^ 48 else 0) + (if st.lastSent then 2 ^ 49 else 0))

/-- `strm.st` (R232): the status enters its narrow channel with the firing. -/
def specStrmSt (r : RAct) (m : Fin 8) : FireSpec :=
  { dst := r.dst, sa := .zero, sb := .zero, upd := r.upd, op := fun x => okWord (streamStatus (getStream x.s x.l m)) }
def execStrmSt (r : RAct) (m : Fin 8) (s : State) : Out := runBeat (specStrmSt r m) s

/-- `tlb.pf` (R234). -/
def prefetchEffect (dst : Dst) (x : BeatIn) (s : State) : State :=
  let (s, rid) := reserveAck s x.l dst false
  let q : Req := { id := freshId s, thr := waveThread s x.l, issuer := x.l, le := x.l, ctx := ctxOf s x.l.plot, op := .prefetch,
                   va := x.a.toWord.toNat, phase := .entered, rid := rid }
  bumpId { s with reqs := s.reqs ++ [q] }
def specTlbPf (r : RAct) : FireSpec :=
  { dst := r.dst, sa := r.sa, sb := r.sb, upd := r.upd, async := true, op := fun x => .ok { post := prefetchEffect r.dst x } }
def execTlbPf (r : RAct) (s : State) : Out := runBeat (specTlbPf r) s

/-- `wp.arm` (R234): the setting applies from the next cycle on. -/
def specWpArm (r : RAct) (n : Fin 2) (mode : WpMode) : FireSpec := specR r fun x =>
  if mode ≠ .off ∧ x.b.toWord = 0 then badOperand x.b.toWord
  else .ok { post := fun s => modLe s x.l fun u =>
      { u with arming := u.arming ++ [(n, if mode = .off then {} else { mode := mode, base := x.a.toWord.toNat, len := x.b.toWord.toNat })] } }
def execWpArm (r : RAct) (n : Fin 2) (mode : WpMode) (s : State) : Out := runBeat (specWpArm r n mode) s

/-- `cmb.fl` (R230, R231): every line is handed to PCIe. -/
def flushEffect (dst : Dst) (l : Loc) (s : State) : State :=
  let (s, rid) := reserveAck s l dst true
  postResult (sendLines s l fun _ => true) rid {}
def specCmbFl (r : RAct) : FireSpec :=
  { dst := r.dst, sa := .zero, sb := .zero, upd := r.upd, async := true, op := fun x => .ok { post := flushEffect r.dst x.l } }
def execCmbFl (r : RAct) (s : State) : Out := runBeat (specCmbFl r) s

/-! ### Address generation (spec 12 R202) -/

/-- The number of elements: the product of the counts. -/
def patCount (p : Pattern) : Nat := p.dims.foldl (fun n d => n * d.1) 1

/-- The indexes of element number n, dimension 0 first. -/
def patIndex : List (Nat × Int) → Nat → List Nat
  | [], _ => []
  | d :: ds, n => n % d.1 :: patIndex ds (n / d.1)

/-- The exact address of element n. -/
def patSum (p : Pattern) (n : Nat) : Int := ((patIndex p.dims n).zip p.dims).foldl (fun a x => a + (x.1 : Int) * x.2.2) (p.base : Int)

/-- The address of element n: one below 0 or above 64 bits stands outside the 52-bit space with the low 64 bits that its record shows, and faults
(R200). -/
def patAddr (p : Pattern) (n : Nat) : Nat :=
  if 0 ≤ patSum p n ∧ patSum p n < 2 ^ 64 then (patSum p n).toNat else 2 ^ 64 + wrapTo 64 (patSum p n)

def innerCount (p : Pattern) : Nat := (p.dims.map (·.1)).headD 1
def innerIndex (p : Pattern) (n : Nat) : Nat := n % innerCount p
def runEnds (p : Pattern) (n : Nat) : Bool := innerIndex p n + 1 == innerCount p

/-- Bytes of an element. -/
def patBytes (p : Pattern) : Nat := (eszBytes p.esz).getD 1

/-- A stream on a wide channel, and the elements of a full beat. -/
def patWide (p : Pattern) : Bool := decide (2 ≤ p.ch.val)
def perBeat (p : Pattern) : Nat := if patWide p then 64 / patBytes p else 1

/-- The place of element n in its beat, and the elements of the beat from n on (R202). -/
def beatPos (p : Pattern) (n : Nat) : Nat := (if p.tagp = 0 then n else innerIndex p n) % perBeat p
def beatLen (p : Pattern) (n : Nat) : Nat :=
  min (perBeat p) (if p.tagp = 0 then patCount p - n else innerCount p - innerIndex p n)

/-- V, the offset of the values of a compressed view (R208). -/
def viewV (p : Pattern) : Nat := roundUp (16 + (patCount p + 7) / 8) (patBytes p)

/-- The order mark of a stream's accesses. -/
def patOrd (p : Pattern) : MOrd := if p.nt then .nonTemporal else if p.fg = 0 then .plain else .fineGrain

/-- A plot that runs: started, and its section neither frozen nor ended. -/
def plotRuns (s : State) (plot : Nat) : Bool := (getPlot s plot).started && !plotFrozen s plot && !plotEnded s plot && !(getPlot s plot).cfgFrozen

/-- Issue an access of a stream, in its thread's order behind what `sbar` puts before it: in the place that one keeps for it, where there is such. -/
def issueStream (s : State) (l : Loc) (m : Fin 8) (q : Req) : State :=
  let st := getStream s l m
  let q := { q with thr := .stream l m, issuer := l, le := l, ctx := ctxOf s l.plot, phase := .entered, ord := patOrd st.pat }
  match owedReq s l m with
  | some w => addReq (dropReq s w.id) { q with id := w.id, place := w.id, after := w.after }
  | none => addReq s { q with id := freshId s, place := freshId s, after := st.before }

/-- The places that the element leaves unused are given up with its end. -/
def dropOwed (s : State) (l : Loc) (m : Fin 8) : State :=
  { s with reqs := s.reqs.filter fun q => !(q.thr == .stream l m && q.phase == .waiting) }

/-- An empty request of a stream. -/
def streamReq (l : Loc) (m : Fin 8) (op : ReqOp) (va size algn : Nat) : Req :=
  { thr := .stream l m, issuer := l, le := l, op := op, va := va, size := size, algn := algn }

/-- An element's bytes stand in a wide beat; the beat that is complete becomes visible. -/
def fillGather (s : State) (l : Loc) (m : Fin 8) (rid pos n v : Nat) : State :=
  let st := getStream s l m
  match st.gathers.find? fun g => g.rid == rid with
  | none => s
  | some g =>
    let g' := { g with left := g.left - 1, data := g.data ||| BitVec.ofNat 512 (v <<< (8 * n * pos)) }
    if g'.left = 0 then
      fillRid (modStream s l m fun st => { st with gathers := st.gathers.filter fun x => x.rid != rid }) rid { tag := g.tag, val := g'.data }
    else modStream s l m fun st => { st with gathers := mapIf (fun x => x.rid == rid) (fun _ => g') st.gathers }

/-- The tag of the token or beat that element n belongs to (R202). -/
def patTag (p : Pattern) (n : Nat) : Tag :=
  if p.tagp = 2 ∧ innerIndex p n + beatLen p n = innerCount p then .mark else .data

/-- What a load stream delivers for its next element: a value at once, or an access that brings it. -/
inductive Source
  | value (v : Nat)
  | access (q : Req)
  deriving DecidableEq, Repr

/-- The place of element idx of a load stream in its channel is taken: an entry of its own, or of the beat that it begins. -/
def placeElem (s : State) (l : Loc) (m : Fin 8) : State :=
  let st := getStream s l m
  let p := st.pat
  if !st.placed && (!patWide p || beatPos p st.idx == 0) then
    let rid := freshId s
    let s := pushOut (bumpId s) l p.ch { rid := rid, since := now s + 1 }
    modStream s l m fun st => { st with gathers := st.gathers ++ [{ rid := rid, tag := patTag p st.idx, left := beatLen p st.idx, data := 0 }] }
  else s

/-- The entry of the element that is being placed. -/
def placeRid (s : State) (l : Loc) (m : Fin 8) : Nat :=
  match (getStream s l m).gathers.getLast? with
  | some g => g.rid
  | none => 0

/-- Read a part of an image that the next element needs (R209): the element's place is taken, and a fault of the read stands there (R200). -/
def readImagePart (s : State) (l : Loc) (m : Fin 8) (q : Req) : State :=
  let s := modStream (placeElem s l m) l m fun st => { st with placed := true }
  issueStream s l m { q with rid := placeRid s l m }

/-- Deliver element idx of a load stream: its place in the channel is taken, and filled now or by the access's response. -/
def deliverElem (s : State) (l : Loc) (m : Fin 8) (src : Source) : State :=
  let st := getStream s l m
  let p := st.pat
  let n := st.idx
  let pos := beatPos p n
  let tag := patTag p n
  let s := placeElem s l m
  let rid := placeRid s l m
  let s := modStream s l m fun st =>
    { st with idx := n + 1, placed := false, lastDue := p.tagp == 1 && runEnds p n
              done := match src with | .value _ => st.done + 1 | .access _ => st.done }
  match src with
  | .value v => fillGather (dropOwed s l m) l m rid pos (patBytes p) v
  | .access q => dropOwed (issueStream s l m { q with rid := rid, pos := pos, tag := tag }) l m

/-- What element idx of an expanding stream needs next (R209): the header, its bitmask byte, or the element itself. An element whose value, or whether it has
one, depends on a part that could not be read waits for its repair (log 35). -/
def expandNext (s : State) (l : Loc) (m : Fin 8) : State :=
  let st := getStream s l m
  let p := st.pat
  let n := st.idx
  match st.img with
  | .unread =>
    readImagePart (modStream s l m fun st => { st with img := .asked }) l m (streamReq l m .header p.base 16 16)
  | .asked => s
  | .known =>
    let badReq := { streamReq l m (.load false) (p.base + viewV p) (patBytes p) 1 with bad := true }
    if st.badFrom.isSome then deliverElem s l m (.access badReq)
    else if !st.maskOk then
      if (streamReqs s l m).any fun q => q.op == .maskByte then s
      else readImagePart s l m (streamReq l m .maskByte (p.base + 16 + n / 8) 1 1)
    else
      let s := if n % 8 = 7 then modStream s l m fun st => { st with maskOk := false } else s
      if !bitOf st.mask (n % 8) then deliverElem s l m (.value 0)
      else if st.stored ≤ st.nz then deliverElem (modStream s l m fun st => { st with badFrom := some n }) l m (.access badReq)
      else
        deliverElem (modStream s l m fun st => { st with nz := st.nz + 1 }) l m
          (.access (streamReq l m (.load false) (p.base + viewV p + st.nz * patBytes p) (patBytes p) (patBytes p)))

/-- The next element of a load stream, while its channel has room. -/
def loadNext (s : State) (l : Loc) (m : Fin 8) : State :=
  let st := getStream s l m
  let p := st.pat
  if !st.placed && (!patWide p || beatPos p st.idx == 0) && outFree s l p.ch == 0 then s
  else if p.cmp then expandNext s l m
  else deliverElem s l m (.access (streamReq l m (.load false) (patAddr p st.idx) (patBytes p) (patBytes p)))

/-- Bytes of a compressed image that are still to be written, cut at RES (R209). -/
def tailBytes (p : Pattern) (off : Nat) (bs : List Byte) : List (Nat × Byte) :=
  (bs.mapIdx fun i b => (off + i, b)).filter fun x => decide (x.1 < p.res)

/-- The complete form of an image would pass RES: a value did not fit, or what goes round the values does not (R208, R209). -/
def passesRes (st : Stream) : Bool :=
  st.overran || decide (st.pat.res < roundUp (viewV st.pat + st.nz * patBytes st.pat) 64)

/-- The header of a compressed image (R208, R209). -/
def viewHeader (st : Stream) : List Byte :=
  bytesOf 4 (st.nz + (if passesRes st then 2 ^ 31 else 0)) ++ bytesOf 4 (patCount st.pat) ++ bytesOf 8 (st.pat.fmt % 16)

/-- Take one element into a compressed image (R208, R209). -/
def compressElem (s : State) (l : Loc) (m : Fin 8) (v : Nat) : State :=
  let st := getStream s l m
  let p := st.pat
  let n := st.idx
  let b := patBytes p
  let off := viewV p + st.nz * b
  let fits := decide (off + b ≤ p.res)
  let s := if v = 0 then s
    else if fits then
      modStream (issueStream s l m { streamReq l m .store (p.base + off) b b with data := BitVec.ofNat 512 v }) l m fun st => { st with nz := st.nz + 1 }
    else if st.overran then s
    else raiseFault (modStream s l m fun st => { st with overran := true })
      { cls := .overrun, plot := l.plot, site := l.site, strm := m.val, addr := p.base + off, flags := 4, report := true }
  let mask := st.mask + (if v = 0 then 0 else 2 ^ (n % 8))
  let last := n + 1 == patCount p
  let flush := n % 8 == 7 || last
  let s := modStream s l m fun st =>
    { st with idx := n + 1, done := st.done + 1, mask := if flush then 0 else mask
              tail := st.tail ++ (if flush then tailBytes p (16 + n / 8) [BitVec.ofNat 8 mask] else []) }
  if last then
    let st := getStream s l m
    let mb := (patCount p + 7) / 8
    let e := viewV p + st.nz * b
    modStream s l m fun st =>
      { st with tail := st.tail ++ tailBytes p (16 + mb) (List.replicate (viewV p - 16 - mb) 0) ++
          (if st.overran then [] else tailBytes p e (List.replicate (roundUp e 64 - e) 0)) ++ tailBytes p 0 (viewHeader st) }
  else s

/-- The next element of a store stream (R202): a beat is taken from the channel at its first element. -/
def storeNext (s : State) (l : Loc) (m : Fin 8) : State :=
  let st := getStream s l m
  let p := st.pat
  let pos := beatPos p st.idx
  let go (s : State) : State :=
    let v := ((getStream s l m).line.toNat >>> (8 * patBytes p * pos)) % 2 ^ (8 * patBytes p)
    if p.cmp then compressElem s l m v
    else
      modStream (issueStream s l m { streamReq l m .store (patAddr p st.idx) (patBytes p) (patBytes p) with data := BitVec.ofNat 512 v }) l m
        fun st => { st with idx := st.idx + 1 }
  if patWide p ∧ pos ≠ 0 then go s
  else match headToken s l p.ch with
    | none => s
    | some t =>
      if t.tag = .data ∨ t.tag = .mark ∨ t.tag = .alt then go (modStream (dequeue s l p.ch) l m fun st => { st with line := t.val })
      else
        raiseFault (modStream s l m fun st => { st with stopped := true })
          { cls := .operand, plot := l.plot, site := l.site, strm := m.val, info0 := t.val.toWord, flags := 4 }

/-- A stream that is closed inside a beat ends the beat there, padded with zeros. -/
def cutBeat (s : State) (l : Loc) (m : Fin 8) : State :=
  let st := getStream s l m
  let p := st.pat
  let pos := beatPos p st.idx
  match st.gathers.getLast? with
  | some g =>
    if st.pat.store ∨ !patWide p ∨ pos = 0 ∨ patCount p ≤ st.idx then s
    else
      let rest := beatLen p (st.idx - pos) - pos
      if g.left ≤ rest then
        fillRid (modStream s l m fun st => { st with gathers := st.gathers.dropLast }) g.rid { tag := g.tag, val := g.data }
      else modStream s l m fun st => { st with gathers := st.gathers.dropLast ++ [{ g with left := g.left - rest }] }
  | none => s

/-- A LAST on a load stream's channel. -/
def sendLast (s : State) (l : Loc) (m : Fin 8) : State :=
  let st := getStream s l m
  if outFree s l st.pat.ch = 0 then s
  else
    modStream (enqueue s l st.pat.ch { tag := .last, val := 0 }) l m fun st =>
      { st with lastDue := false, lastSent := st.lastSent || st.closing || decide (patCount st.pat ≤ st.idx) }

/-- STREAM_ACCESS (spec 12 R202, R208, R209): the next thing that an open stream does. One that is closed stops at its next element boundary (R232), so not
while an element's part of the image is read. -/
def streamStep (s : State) (l : Loc) (m : Fin 8) : State :=
  let st := getStream s l m
  if threadWaits s l (.stream l m) (freshId s) then s
  else if !st.opened || st.ended || !plotRuns s l.plot || (getElem s l).dead || (getElem s l).cfgFrozen then s
  else match st.tail with
    | (off, b) :: rest =>
      modStream (issueStream s l m { streamReq l m .store (st.pat.base + off) 1 1 with data := b.setWidth 512 }) l m fun st => { st with tail := rest }
    | [] =>
      if st.lastDue then sendLast s l m
      else if (st.closing && !st.placed) || decide (patCount st.pat ≤ st.idx) then
        (if st.pat.store || st.lastSent then modStream s l m fun st => { st with ended := true, lastSent := true }
         else sendLast (cutBeat s l m) l m)
      else if st.pat.store then (if st.stopped then s else storeNext s l m)
      else loadNext s l m

def execStreamAccess (l : Loc) (m : Fin 8) (s : State) : Out := .next (streamStep s l m)

/-- The completion token's payload (R202). -/
def completion (st : Stream) : Beat := BitVec.ofNat 512 (st.done % 2 ^ 32 + min st.faulted 65535 * 2 ^ 32)

/-- The completion channel of a record. -/
def cplChan (p : Pattern) : Option (Fin 4) := if p.cpl = 8 then some 0 else if p.cpl = 9 then some 1 else none

/-- The stream closes. -/
def shutStream (s : State) (l : Loc) (m : Fin 8) : State :=
  modStream (traceEvent s l.plot (.mem l.site 4 m.val (getStream s l m).pat.base)) l m fun st => { st with opened := false, closing := false, gathers := [] }

/-- STREAM_COMPLETE (R202, R232): every access being performed or resolved, the completion is sent and the stream closes itself. -/
def streamEnd (s : State) (l : Loc) (m : Fin 8) : State :=
  let st := getStream s l m
  if !st.opened || !st.ended || !st.tail.isEmpty || !(streamReqs s l m).isEmpty || !plotRuns s l.plot then s
  else match cplChan st.pat with
    | some c =>
      if outFree s l c = 0 then s
      else shutStream (enqueue s l c { tag := .data, val := completion st }) l m
    | none => shutStream s l m

def execStreamComplete (l : Loc) (m : Fin 8) (s : State) : Out := .next (streamEnd s l m)

end Sys2Proof.Machine
end

