-- ==== Sys2Proof/Machine/Tiles.lean ====
section
/-!
DEFINITION. The tile table (spec 11 R185 to R189): handle references, shapes, the placing of storage, and the line accesses that are
offered to the banks (R191).
-/

namespace Sys2Proof.Machine

/-! ### The slots of an element -/

/-- The decoded slot of an element; the words of a started element are legal (spec 04 R82). -/
def slotOf (e : Elem) (plot : Nat) (n : Fin 16) : Option Slot :=
  match decodeSlot e.kind (isHeadland plot) e.fan e.slots[n] with
  | .ok x => x
  | .error _ => none

/-- The 16 slot numbers. -/
def slotNums : List (Fin 16) := [0, 1, 2, 3, 4, 5, 6, 7, 8, 9, 10, 11, 12, 13, 14, 15]

/-! ### Handle references (spec 11 R186) -/

/-- A handle reference word. -/
structure Ref where
  rv : Bool
  ring : Nat
  stage : Nat
  gen : Nat
  gchk : Bool
  handle : Nat
  deriving DecidableEq, Repr

/-- A word read as a reference: none where a reserved bit is set. -/
def readRef (w : Word) : Option Ref :=
  let n := w.toNat
  if bitsOf n 63 32 ≠ 0 ∨ bitsOf n 15 9 ≠ 0 then none
  else some ⟨bitOf n 31, bitsOf n 30 28, bitsOf n 27 24, bitsOf n 23 16, bitOf n 8, bitsOf n 7 0⟩

/-- The word of a reference. -/
def refWord (r : Ref) : Word :=
  BitVec.ofNat 64 ((if r.rv then 2 ^ 31 else 0) + r.ring % 8 * 2 ^ 28 + r.stage % 16 * 2 ^ 24 + r.gen % 256 * 2 ^ 16 +
    (if r.gchk then 256 else 0) + r.handle % 256)

/-! ### The tile table -/

/-- An entry as it stands: what `tile.new`, `tile.shp` and `tile.free` see, of lower sites in the same cycle (spec 13 R215). -/
def tileNow (s : State) (plot h : Nat) : Tile := Tbl.findD (getPlot s plot).tiles h {}

/-- An entry as committed at the start of the cycle: what every other use sees (spec 08 R135). -/
def tileSeen (s : State) (plot h : Nat) : Tile :=
  match Tbl.find (getPlot s plot).tileWas h with
  | some (t, old) => if t = now s then { old with infl := (tileNow s plot h).infl } else tileNow s plot h
  | none => tileNow s plot h

/-- Change an entry, remembering what it was at the start of the cycle. -/
def setTile (s : State) (plot h : Nat) (t : Tile) : State :=
  let old := tileSeen s plot h
  modPlot s plot fun p => { p with tiles := Tbl.put p.tiles h t, tileWas := Tbl.put p.tileWas h (now s, old) }

/-- A word used as a reference to an entry: its handle must be allocated and, with GCHK, of the generation named (R186). -/
def useRefIn (t : Nat → Tile) (w : Word) : Option (Ref × Tile) :=
  match readRef w with
  | some r => if (t r.handle).alloc && (!r.gchk || (t r.handle).gen == r.gen) then some (r, t r.handle) else none
  | none => none
def useRef (s : State) (plot : Nat) (w : Word) : Option (Ref × Tile) := useRefIn (tileSeen s plot) w

/-- No access to the handle is in flight (R189): one that is not admitted yet has not been issued (R191), and keeps the storage that its
operation's reference found (log 51). -/
def handleIdle (s : State) (plot h : Nat) : Bool := (tileNow s plot h).infl == 0

/-- Scale beats, or lines, of rows × row bytes of q4n data (R187, R194). -/
def scaleLines (bytes : Nat) : Nat := (bytes + 2047) / 2048

/-- The data bytes and the storage size of a tile (R187). -/
def tileData (t : Tile) : Nat := t.rows * t.rb
def tileSize (t : Tile) : Nat := tileData t + (if t.fmt = 8 then 64 + 64 * scaleLines (tileData t) else 0)

/-- Twice the bytes of an element of a format code (spec 02 R24); 0 for a reserved code. -/
def fmtHalves : Nat → Nat
  | 0 | 10 => 16
  | 1 | 9 => 8
  | 2 | 3 => 4
  | 4 | 5 | 6 | 7 => 2
  | 8 => 1
  | _ => 0

/-- A tile descriptor (spec 03 R54): none where a reserved bit is set. -/
def readDesc (w : Word) : Option (Nat × Tile) :=
  let n := w.toNat
  if bitsOf n 63 45 ≠ 0 ∨ bitOf n 15 then none
  else some (bitsOf n 7 0,
    { level := bitsOf n 14 13, fmt := bitsOf n 33 30, layout := bitsOf n 35 34, rows := bitsOf n 23 16 + 1, rb := (bitsOf n 29 24 + 1) * 64,
      site := bitsOf n 12 8, ndy := signedOf 4 (bitsOf n 44 41), ndx := signedOf 5 (bitsOf n 40 36) })

/-- The plot at an offset from another, if it lies in the same parcel. -/
def neighbour (s : State) (plot : Nat) (dx dy : Int) : Option Nat :=
  match (getPlot s plot).parcel with
  | some n =>
    let p := getParcel s n
    let x : Int := plotX plot + dx
    let y : Int := plotY plot + dy
    if (p.x0 : Int) ≤ x ∧ x < p.x0 + p.w ∧ (p.y0 : Int) ≤ y ∧ y < p.y0 + p.h then some (plotAt x.toNat y.toNat) else none
  | none => none

/-- The limits of a shape (R187, 03 R54). -/
def shapeOk (s : State) (plot : Nat) (t : Tile) : Bool :=
  decide (t.level ≤ 2) && decide (t.layout ≤ 2) && decide (t.fmt ≤ 10) &&
  (t.level != 0 || (decide (t.rows ≤ 16) && decide (t.rb ≤ 512))) && (t.fmt != 8 || decide (tileData t ≤ 8192)) &&
  (if t.level = 2 then (t.ndx != 0 || t.ndy != 0) && (neighbour s plot t.ndx t.ndy).isSome else t.ndx == 0 && t.ndy == 0)

/-- The plot whose store holds a tile of a plot (R188). -/
def storeOf (s : State) (plot : Nat) (t : Tile) : Nat := if t.level = 2 then (neighbour s plot t.ndx t.ndy).getD plot else plot

/-- Runs in ascending order of their bases. -/
def insertRun (r : Nat × Nat) : List (Nat × Nat) → List (Nat × Nat)
  | [] => [r]
  | x :: xs => if r.1 < x.1 then r :: x :: xs else x :: insertRun r xs

/-- The runs of a plot store that tiles hold: the plot's own, and those that plots of the same parcel hold at level 2. -/
def usedRuns (s : State) (plot : Nat) : List (Nat × Nat) :=
  let own := (getPlot s plot).tiles.filterMap fun x => if x.2.alloc && x.2.level == 1 then some (x.2.base, x.2.size) else none
  let far := s.plots.flatMap fun q =>
    if q.2.parcel.isSome && q.2.parcel == (getPlot s plot).parcel then
      q.2.tiles.filterMap fun x => if x.2.alloc && x.2.level == 2 && storeOf s q.1 x.2 == plot then some (x.2.base, x.2.size) else none
    else []
  (own ++ far).foldl (fun rs r => insertRun r rs) []

/-- Bytes of a plot store (spec 00 R6). -/
def storeBytes : Nat := 3145728

/-- The gaps between runs, as base and end. -/
def gaps : Nat → List (Nat × Nat) → List (Nat × Nat)
  | pos, [] => [(pos, storeBytes)]
  | pos, r :: rs => (pos, r.1) :: gaps (r.1 + r.2) rs

/-- The lowest or the highest run of n bytes (R188). -/
def findRun (s : State) (plot n : Nat) (high : Bool) : Option Nat :=
  let fit := (gaps 0 (usedRuns s plot)).filter fun g => decide (g.1 + n ≤ g.2)
  if high then fit.getLast?.map fun g => g.2 - n else fit.head?.map (·.1)

/-- The valid `mma` slots of an element. -/
def mmaSlots (e : Elem) (plot : Nat) : List MmaAct :=
  slotNums.filterMap fun n => match slotOf e plot n with
    | some ⟨_, .mma x⟩ => some x
    | _ => none

/-- The channel that feeds an operand node, where a port does (spec 14 R248). -/
def portOf (e : Elem) (plot : Nat) (nodeB : Bool) : Option (Fin 4) :=
  (mmaSlots e plot).findSome? fun x =>
    if nodeB then (match x.flow, x.sb with
      | .row, _ => none
      | _, .ch n => some n
      | _, _ => none)
    else match x.sa with
      | .ch n => some n
      | _ => none

/-- The paired matrix element of a scratchpad site, and the operand node of a handle (R188). -/
def pairedMe (plot site : Nat) : Loc := ⟨plot, site - 4⟩
def getMe (s : State) (l : Loc) : MeUnit := Tbl.findD s.mes (locKey l) {}
def modMe (s : State) (l : Loc) (f : MeUnit → MeUnit) : State := { s with mes := Tbl.put s.mes (locKey l) (f (getMe s l)) }
def nodeOf (u : MeUnit) (nodeB : Bool) : OpNode := if nodeB then u.nodeB else u.nodeA
def modNode (nodeB : Bool) (f : OpNode → OpNode) (u : MeUnit) : MeUnit :=
  if nodeB then { u with nodeB := f u.nodeB } else { u with nodeA := f u.nodeA }
def modBuf (i : Nat) (f : OpBuf → OpBuf) (n : OpNode) : OpNode := { n with bufs := n.bufs.mapIdx fun k b => if k = i then f b else b }

/-- The next free buffer for a level-0 handle: none on a port-fed node, or where every buffer has its handle (R188). -/
def freeBuffer (s : State) (plot h : Nat) (t : Tile) : Option Nat :=
  let me := pairedMe plot t.site
  let e := getElem s me
  let nodeB := h % 2 == 1
  if !e.present || e.kind != .me || (portOf e plot nodeB).isSome then none
  else
    (List.range (nodeOf (getMe s me) nodeB).bufs.length).find? fun i =>
      !((getPlot s plot).tiles.any fun x => x.2.alloc && x.2.level == 0 && x.2.site == t.site && x.1 % 2 == h % 2 && x.2.base == i)

/-- Place a tile's storage (R188). -/
def placeTile (s : State) (plot h : Nat) (t : Tile) : Option Tile :=
  let at_ : Option Nat :=
    if t.level = 0 then freeBuffer s plot h t else findRun s (storeOf s plot t) (tileSize t) (t.level == 2)
  at_.map fun b => { t with alloc := true, base := b, size := tileSize t }

/-! ### Line accesses -/

def getSe (s : State) (l : Loc) : SeUnit := Tbl.findD s.ses (locKey l) {}
def modSe (s : State) (l : Loc) (f : SeUnit → SeUnit) : State := { s with ses := Tbl.put s.ses (locKey l) (f (getSe s l)) }

/-- The bank of a store offset: bit b is the parity of the offset under mask b (R190). -/
def bankOf (masks : List (BitVec 32)) (off : Nat) : Nat :=
  joinLanes 1 (masks.map fun m => popCount 32 (off &&& m.toNat) % 2)

/-- The port of a bank at which an element of a plot offers its accesses: one for each scratchpad element, and the mesh (R191). -/
def bankPort (l : Loc) (store : Nat) : Nat := if l.plot = store then l.site % 4 else 4

/-- Accesses of an element in bank retry queues, and accesses that it holds because they found no place (R191). -/
def retrying (s : State) (l : Loc) : Nat := (s.lines.filter fun x => x.from_ == l && x.admitted).length
def offering (s : State) (l : Loc) (op : Nat) : Bool := s.lines.any fun x => x.from_ == l && x.op == op && !x.admitted && !x.held

/-- A line access can be issued (R191, 13 R215). -/
def lineReady (s : State) (l : Loc) (h : Nat) : Bool := decide (retrying s l < 16) && decide ((tileNow s l.plot h).infl < 255)

/-- Offer an access to byte offset `off` of a tile to its bank. -/
def offerLine (s : State) (l : Loc) (t : Tile) (h off op : Nat) (act : LineAct) : State :=
  let store := storeOf s l.plot t
  bumpId { s with lines := s.lines ++
    [{ id := freshId s, plot := store, off := t.base + off, port := bankPort l store, from_ := l, hplot := l.plot, handle := h, act := act, op := op }] }

end Sys2Proof.Machine
end

