-- ==== Sys2Proof/Machine/Matrix.lean ====
section
/-!
DEFINITION. What a matrix element computes with: operand buffers and their layouts (spec 14 R247 to R252), format pairs (15 R263), group sums
into accumulator nodes (02 R40 to R42), the normaliser and release packets (14 R253 to R256), and the end of a reduction (15 R267).
-/

namespace Sys2Proof.Machine

/-! ### Operands -/

/-- A value of a format code other than q4n (spec 02 R24, R41). -/
def matVal (fmt : Nat) (fcs : Fcs) (x : Nat) : Val :=
  match fmtOfCode fmt with
  | some f => matRead fcs f x
  | none => if fmt = 6 then .fin (decide (128 ≤ x % 256)) (signedOf 8 (x % 256)).natAbs 0 else .fin false (x % 256) 0

/-- The head buffer of a node. -/
def headBuf (n : OpNode) : OpBuf := n.bufs.getD n.head {}

/-- HDR bits [63:0] of a recorded header (spec 18 R314). -/
def bufHdr (b : OpBuf) : Word :=
  BitVec.ofNat 64 (b.fmt % 16 + b.layout % 4 * 2 ^ 4 + (b.rows - 1) % 256 * 2 ^ 8 + (b.rb / 64 - 1) % 64 * 2 ^ 16 + b.scb % 256 * 2 ^ 24 +
    b.sg % 2 ^ 32 * 2 ^ 32)

/-- Bits of element i of a DENSE tile, in storage order (spec 14 R250, 02 R25): a q4n element is half a byte. -/
def denseBits (b : OpBuf) (i : Nat) : Nat :=
  let h := fmtHalves b.fmt
  let per := b.rb * 2 / h
  let half := i / per * b.stride * 2 + i % per * h
  if h = 1 then bitsOf (readByte b.cells (half / 2)).toNat (4 * (half % 2) + 3) (4 * (half % 2)) else readNum b.cells (half / 2) (h / 2)

/-- Element i of a DENSE tile. FCS.F reads a subnormal element of an unpacked format as zero; a q4n element keeps its dequantised value, whatever its
size (log 52). -/
def denseVal (b : OpBuf) (fcs : Fcs) (i : Nat) : Val :=
  if b.fmt = 8 then q4Value (denseBits b i) (q4Scale b.sg (readByte b.cells (b.qoff + 64 + i / 64)).toNat) else matVal b.fmt fcs (denseBits b i)

/-- The present offsets of a row of a sparse tile, and where its values begin in the row; none where it breaks R250. -/
def sparseKs (b : OpBuf) (r d : Nat) : Option (List Nat × Nat) :=
  let at_ := r * b.stride
  let take (ks : List Nat) (voff : Nat) : Option (List Nat × Nat) :=
    if b.rb < voff + ks.length * (fmtHalves b.fmt / 2) then none else some (ks, voff)
  if b.layout = 1 then
    let m := readNum b.cells at_ 64
    if m / 2 ^ d ≠ 0 then none else take ((List.range d).filter (bitOf m)) 64
  else
    let c := readNum b.cells at_ 2
    let ks := (List.range c).map fun j => readNum b.cells (at_ + 4 + 2 * j) 2
    if d < c ∨ readNum b.cells (at_ + 2) 2 ≠ 0 then none
    else if (ks.zip (ks.drop 1)).any (fun x => decide (x.2 ≤ x.1)) || ks.any (fun k => decide (d ≤ k)) then none
    else take ks ((4 + 2 * c + 63) / 64 * 64)

/-- The byte of value j of row r of a sparse tile whose values begin at `voff`. -/
def sparseAt (b : OpBuf) (r voff j : Nat) : Nat := r * b.stride + voff + j * (fmtHalves b.fmt / 2)

/-- A row of a sparse tile: its present offsets and their bits. -/
def sparseRow (b : OpBuf) (r d : Nat) : Option (List (Nat × Nat)) :=
  (sparseKs b r d).map fun x => x.1.mapIdx fun j k => (k, readNum b.cells (sparseAt b r x.2 j) (fmtHalves b.fmt / 2))

/-! ### Faulted lines (15 R279) -/

/-- A byte of a buffer lies in a faulted line. -/
def lineBad (b : OpBuf) (off : Nat) : Bool := b.bad.any fun x => x.off == off / 64 * 64

/-- Lines that say which offsets of a sparse row are present: the mask, or the count with the offsets. -/
def headLines (b : OpBuf) (r : Nat) : Nat := if b.layout = 1 then 1 else (4 + 2 * readNum b.cells (r * b.stride) 2 + 63) / 64

/-- The present offsets of a row cannot be told, because a line that says so is faulted. -/
def headBad (b : OpBuf) (r : Nat) : Bool := b.layout != 0 && (List.range (headLines b r)).any fun j => lineBad b (r * b.stride + 64 * j)

/-- A value of a sparse row whose offset meets a test lies in a faulted line. -/
def sparseBad (b : OpBuf) (r d : Nat) (p : Nat → Bool) : Bool :=
  match sparseKs b r d with
  | some (ks, voff) => (ks.mapIdx fun j k => p k && lineBad b (sparseAt b r voff j)).any id
  | none => false

/-- A row, or a column of B, as the operand of a firing: its present offsets where it is sparse, and the bits of an offset; an absent
position is 0 (R252). -/
structure MRow where
  ks : Option (List Nat)
  at_ : Nat → Nat
  val : Nat → Val

/-- Row r of a tile, K offsets counted from its KPOS. -/
def rowOf (b : OpBuf) (fcs : Fcs) (r d : Nat) : Option MRow :=
  if b.layout = 0 then
    let per := b.rb * 2 / fmtHalves b.fmt
    some { ks := none, at_ := fun k => denseBits b (r * per + k), val := fun k => denseVal b fcs (r * per + k) }
  else
    (sparseRow b r d).map fun xs =>
      { ks := some (xs.map (·.1)), at_ := fun k => ((xs.find? fun x => x.1 == k).map (·.2)).getD 0
        val := fun k => matVal b.fmt fcs (((xs.find? fun x => x.1 == k).map (·.2)).getD 0) }

/-- Column n of B: row n, or with tb the elements 16 k + n (R249). -/
def colOf (b : OpBuf) (fcs : Fcs) (tb : Bool) (n d : Nat) : Option MRow :=
  if tb then some { ks := none, at_ := fun k => denseBits b (16 * k + n), val := fun k => denseVal b fcs (16 * k + n) } else rowOf b fcs n d

/-! ### The shape of a firing -/

/-- What the headers make of a firing (spec 14 R249, 15 R263): path, K-group size, D, K, output rows and columns, and the MAC rate. -/
structure MmaGeo where
  path : MPath
  g : Nat
  d : Nat
  k : Nat
  rows : Nat
  n : Nat
  rate : Nat
  deriving DecidableEq, Repr

/-- The legal format pairs (R263). -/
def pairPath (fa fb : Nat) : Option MPath :=
  if fa = fb ∧ fa ≤ 1 then some .wide
  else if (fa = fb ∧ (fa = 2 ∨ fa = 3)) ∨ (fa = 2 ∧ fb = 8) ∨ ((fa = 4 ∨ fa = 5) ∧ (fb = 4 ∨ fb = 5)) then some .narrow
  else if (fa = 6 ∨ fa = 7) ∧ (fb = 6 ∨ fb = 7) then some .integer
  else none

/-- MACs per cycle by twice the bytes of the wider format (R261). -/
def macRate : Nat → Nat
  | 16 => 32
  | 8 => 64
  | 4 => 512
  | _ => 1024

/-- The layouts that a dataflow accepts (R251). -/
def flowTakes (f : Flow) (la lb : Nat) : Bool :=
  match f with
  | .inner => decide (la ≤ 1) && decide (lb ≤ 1)
  | .outer => decide (la ≤ 2) && lb == 0
  | .row => decide (la ≤ 2)

/-- The checks of R249, R251 and R263 on the head headers; in ROW B takes A's format (R259). -/
def mmaGeo (x : MmaAct) (a b : OpBuf) : Option MmaGeo :=
  let fb := if x.flow = .row then a.fmt else b.fmt
  match pairPath a.fmt fb with
  | none => none
  | some path =>
    let ha := fmtHalves a.fmt
    let hb := fmtHalves fb
    let hw := max ha hb
    let g := 128 / hw
    let d := 1024 / hw
    let k := if a.layout = 0 then a.rb * 2 / ha else d
    let n := if x.flow = .row ∨ x.tb then 16 else b.rows
    let okA := a.broken.isNone && flowTakes x.flow a.layout b.layout && decide (a.rows ≤ 16) && decide (a.rows * a.rb ≤ 8192) &&
      decide (k ≤ d) && k % g == 0 && a.kpos % g == 0
    let okB := x.flow == .row || (b.broken.isNone && decide (b.rows * b.rb ≤ 8192) && b.kpos == a.kpos && (fb != 8 || b.layout == 0) &&
      (if x.tb then b.layout == 0 && decide (16 * k ≤ b.rows * b.rb * 2 / hb)
       else decide (n ≤ 16) && (b.layout != 0 || b.rb == (k * hb + 127) / 128 * 64) && (b.layout != 1 || k == d)))
    if okA && okB then some { path := path, g := g, d := d, k := k, rows := a.rows, n := n, rate := macRate hw } else none

/-! ### Accumulator nodes -/

def nodeAt (u : MeUnit) (an : Fin 4) : AccNode := u.accs[an]
def setNode (s : State) (l : Loc) (an : Fin 4) (n : AccNode) : State := modMe s l fun u => { u with accs := u.accs.set an n }

/-- Add a group sum to entry (i, n) of a node. -/
def addEntry (path : MPath) (st : Tbl Acc × Flags) (key : Nat) (g : GSum × Flags) : Tbl Acc × Flags :=
  match g.1 with
  | .fin _ 0 => (st.1, st.2 ||| g.2)
  | _ =>
    let (a, f) := accAdd path (Tbl.findD st.1 key {}) g.1
    (Tbl.put st.1 key a, st.2 ||| g.2 ||| f)

/-- A normaliser that a path allows (spec 03 R52, 14 R254). -/
def normOk (norm : Nat) (path : MPath) : Bool :=
  match norm, path with
  | 0, _ => true
  | 4, p => p == .integer
  | 3, p => p == .wide
  | _, p => p != .integer

/-- Normalise an entry by code (R255). -/
def normEntry (norm : Nat) (rd : Dir) (fcs : Fcs) (a : Acc) : Nat × Flags :=
  match norm with
  | 1 => normaliseFp a .f32 rd fcs
  | 2 => normaliseFp a .bf16 rd fcs
  | 3 => normaliseFp a .f64 rd fcs
  | _ => normaliseI32 a fcs

/-- Format code, bits of an entry, and beats of a row (R255). -/
def normShape : Nat → Nat × Nat × Nat
  | 1 => (1, 32, 1)
  | 2 => (2, 16, 1)
  | 3 => (0, 64, 2)
  | _ => (9, 32, 1)

/-- The 16 values of row i, with their flags. -/
def normRow (nd : AccNode) (rd : Dir) (fcs : Fcs) (i : Nat) : List Nat × Flags :=
  let vs := (List.range 16).map fun n => normEntry nd.norm rd fcs (Tbl.findD nd.ents (16 * i + n) {})
  (vs.map (·.1), vs.foldl (fun f v => f ||| v.2) 0)

/-- The code of a path (R256). -/
def pathCode : MPath → Nat
  | .narrow => 0
  | .wide => 1
  | .integer => 2

def xCode : XState → Nat
  | .none => 0
  | .pinf => 1
  | .ninf => 2
  | .nan => 3

/-- The PSUM pair of entry (i, n) (R256). -/
def psumPair (nd : AccNode) (i n : Nat) : List Token :=
  let a := Tbl.findD nd.ents (16 * i + n) {}
  let first := pathCode nd.path * 2 ^ 216 + i * 2 ^ 212 + n * 2 ^ 208 + (if a.isEmpty then 2 ^ 207 else 0) + xCode a.x * 2 ^ 205 +
    wrapTo 13 (a.e.getD 0) * 2 ^ 192 + wrapTo 192 a.s
  [{ tag := .psum, val := BitVec.ofNat 512 first }, { tag := .psum, val := BitVec.ofNat 512 (wrapTo 192 a.c) }]

def lastToken : Token := { tag := .last, val := 0 }

/-- Rows of a node as a tile packet, or as PSUM pairs (R255, R256, 15 R270). -/
def packetOf (nd : AccNode) (an : Fin 4) (rd : Dir) (fcs : Fcs) (r0 nr : Nat) : List Token × Flags :=
  if nd.norm = 0 then
    ((upFrom r0 nr).flatMap (fun i => (List.range 16).flatMap fun n => psumPair nd i n) ++ [lastToken], 0)
  else
    let (fmt, w, beats) := normShape nd.norm
    let hdr := fmt + (nr - 1) * 2 ^ 8 + (beats - 1) * 2 ^ 16 + an.val * 2 ^ 96
    let rows := (upFrom r0 nr).map (normRow nd rd fcs)
    let beatsOf (vs : List Nat) : List Token := (List.range beats).map fun b =>
      { tag := .data, val := BitVec.ofNat 512 (joinLanes w vs >>> (512 * b)) }
    ({ tag := .hdr, val := BitVec.ofNat 512 hdr } :: rows.flatMap (fun r => beatsOf r.1) ++ [lastToken], rows.foldl (fun f r => f ||| r.2) 0)

/-- Rows of a node as narrow tokens (15 R270). -/
def narrowOf (nd : AccNode) (rd : Dir) (fcs : Fcs) (r0 nr : Nat) : List Token × Flags :=
  let (_, w, _) := normShape nd.norm
  let rows := (upFrom r0 nr).map (normRow nd rd fcs)
  let tokens (vs : List Nat) : List Token := (List.range (w / 4)).map fun j => { tag := .data, val := BitVec.ofNat 512 (joinLanes w vs >>> (64 * j) % 2 ^ 64) }
  (rows.flatMap (fun r => tokens r.1) ++ [lastToken], rows.foldl (fun f r => f ||| r.2) 0)

/-! ### The tile count (spec 01 R20) -/

/-- T = 0xFFFF_FFFF means unlimited. -/
def unlimited (e : Elem) : Bool := e.tcnt == 0xFFFFFFFF#32

/-- A new output tile may be reserved. -/
def mayOpen (e : Elem) : Bool := unlimited e || decide (e.resv < e.tcnt.toNat)

/-- One tile is released: count and reservations go down. -/
def countTile (e : Elem) : Elem := { e with resv := e.resv - 1, tcnt := if unlimited e then e.tcnt else e.tcnt - 1 }

/-! ### The end of a reduction (15 R267) -/

/-- The wide output of a release channel. -/
def relPort (c : Fin 2) : Fin 4 := ⟨c.val + 2, by omega⟩

/-- A node whose adapters, if any, are closed. -/
def adaptersDone (n : AccNode) : Bool := !n.ad || decide (16 ≤ n.closedRows)

/-- A node ends earlier than another towards the same channel. -/
def endsBefore (u : MeUnit) (c : Closing) : Bool :=
  u.accs.toList.any fun n => n.state == .closing && (match n.closing with
    | some d => d.dest == c.dest && decide (d.seq < c.seq)
    | none => false)

/-- Release a node into a buffer (14 R254): its entries leave, it is FREE, and the tile is counted. The flags that its normalisation raises after the firing
that ended the node, or in the firing of `acc.rel`, go into `flg` and trap in no case: 02 R36 does not say (log 55). -/
def releaseNode (s : State) (l : Loc) (an : Fin 4) (c : Closing) (ch : Fin 2) : State :=
  let nd := nodeAt (getMe s l) an
  let (toks, f) := packetOf nd an (dirOf (fpmRD (getElem s l).fpm)) c.fcs 0 16
  let s := setNode s l an { count := nd.count, norm := nd.norm, chan := nd.chan }
  modElem s l fun e =>
    let e := if c.counts then countTile e else e
    let o := outPort e (relPort ch)
    orFlags (setOut e (relPort ch) { o with pkt := toks, owed := o.owed - 1 }) f

/-- ACCUMULATOR_RELEASE: a CLOSING node is held, or released once its channel's buffer is free and no earlier one waits for it. -/
def tryRelease (s : State) (l : Loc) (an : Fin 4) : State :=
  let u := getMe s l
  let nd := nodeAt u an
  match nd.state, nd.closing with
  | .closing, some c =>
    if !adaptersDone nd then s
    else match c.dest with
      | none =>
        let s := setNode s l an { nd with state := .closed, closing := none }
        if c.counts then modElem s l countTile else s
      | some ch =>
        if (outPort (getElem s l) (relPort ch)).pkt.isEmpty && !endsBefore u c then releaseNode s l an c ch else s
  | _, _ => s

/-- EndReduction(n, d): at once where nothing is to be waited for. -/
def endReduction (s : State) (l : Loc) (an : Fin 4) (dest : Option (Fin 2)) (fcs : Fcs) (counts : Bool) : State :=
  let nd := nodeAt (getMe s l) an
  let s := setNode s l an { nd with state := .closing, closing := some ⟨dest, fcs, counts, freshId s⟩ }
  let s := match dest with
    | some ch => modElem s l fun e => setOut e (relPort ch) { outPort e (relPort ch) with owed := (outPort e (relPort ch)).owed + 1 }
    | none => s
  tryRelease (bumpId s) l an

end Sys2Proof.Machine
end

