-- ==== Sys2Proof/Machine/VMem.lean ====
section
/-!
DEFINITION. Reading and writing a context's memory for the agents that translate each line as they reach it: adapter units, engines, the drill
and the plots that patch their arguments (spec 12 R197 to R200, R211, 15 R275, 18 R318).
-/

namespace Sys2Proof.Machine

/-- The parts of a byte range in its 64-byte lines. -/
def linePieces (va n : Nat) : List (Nat × Nat) :=
  if n = 0 then []
  else (List.range ((va % 64 + n + 63) / 64)).map fun i =>
    let base := va / 64 * 64 + 64 * i
    (max va base, min (va + n) (base + 64) - max va base)

/-- The home of a line, or why it has none. -/
def lineHome (s : State) (die ctx : Nat) (write : Bool) (va n : Nat) : State × Except VBad (Home × Nat) :=
  if 2 ^ 52 ≤ va then (s, .error ⟨.translate, 0, va⟩)
  else if write && sealedRange s ctx va n then (s, .error ⟨.sealed, 0, va⟩)
  else match transNow s die ctx va with
    | (s, none) => (s, .error (walkFault s ctx va))
    | (s, some e) =>
      if write && !e.w then (s, .error ⟨.translate, 1, va⟩)
      else if write && sealedPa s (physOf e va) n then (s, .error ⟨.sealed, 0, va⟩)
      else match homeOf s (physOf e va) with
        | .absent => (s, .error ⟨.translate, 0, va⟩)
        | .window .. => (s, .error ⟨.operand, 0, va⟩)
        | h => (s, .ok (h, physOf e va))

/-- What a reader sees of bytes at a home: an element of a plot sees the writes that its plot's port holds (spec 17 R304), another reader none. -/
def seenBy (s : State) (own : Option Nat) (pa : Nat) (bs : List Byte) : List Byte :=
  match own with
  | some plot => portRead s plot pa bs
  | none => bs

/-- Read one line's part, for an element of the plot `own` where one is given. -/
def readPieceOf (own : Option Nat) (s : State) (die ctx : Nat) (p : Nat × Nat) : State × Except VBad (List Byte) :=
  match lineHome s die ctx false p.1 p.2 with
  | (s, .error b) => (s, .error b)
  | (s, .ok (h, pa)) =>
    match poisonAt s h pa p.2 with
    | some sub => (s, .error ⟨.memerr, sub, pa⟩)
    | none => ((homeRead s h p.2).1, .ok (seenBy s own pa (homeRead s h p.2).2))

def readPiece (s : State) (die ctx : Nat) (p : Nat × Nat) : State × Except VBad (List Byte) := readPieceOf none s die ctx p

/-- Read a byte range: the first line that cannot be read faults, or where `sub` is given reads as that value in every 8 bytes. -/
def readVirtOf (own : Option Nat) (s : State) (die ctx va n : Nat) (sub : Option Word) : State × Except VBad (List Byte) :=
  (linePieces va n).foldl (fun (acc : State × Except VBad (List Byte)) p =>
    match acc with
    | (s, .error b) => (s, .error b)
    | (s, .ok bs) =>
      match readPieceOf own s die ctx p, sub with
      | (s, .ok xs), _ => (s, .ok (bs ++ xs))
      | (s, .error _), some v => (s, .ok (bs ++ ((List.range p.2).map fun i => (bytesOf 8 v.toNat).getD ((p.1 + i) % 8) 0)))
      | (s, .error b), none => (s, .error b)) (s, .ok [])

/-- The same for a reader that is no element. -/
def readVirt (s : State) (die ctx va n : Nat) (sub : Option Word) : State × Except VBad (List Byte) := readVirtOf none s die ctx va n sub

/-- Write one line's part. -/
def writePiece (s : State) (die ctx : Nat) (va : Nat) (bs : List Byte) (src plot site : Nat) : State × Option VBad :=
  match lineHome s die ctx true va bs.length with
  | (s, .error b) => (s, some b)
  | (s, .ok (h, _)) => (homeWrite s h bs src plot site, none)

end Sys2Proof.Machine
end

