-- ==== Sys2Proof/Machine/Adapter.lean ====
section
/-!
DEFINITION. The adapter unit of a matrix element (spec 15 R274 to R277): the directory and the plot's adapter cache, the adapter groups of each
row, misses and row replay, and the steps ADAPTER_SLICE_FILL and ADAPTER_CLOSE.
-/

namespace Sys2Proof.Machine

/-! ### The directory (R274) -/

/-- r_p, and the K positions or columns of a slice (R274, R275). -/
def rankPad (d : DirEnt) : Nat := if d.rank ≤ 32 then 32 else 64
def sliceSpan (d : DirEnt) : Nat := 4096 / rankPad d

/-- The base model: no adapter term. -/
def baseEnt (aid tag : Nat) : DirEnt := ⟨aid, tag, 0, 0, 0, 0, 0, 0, 0⟩

/-- The directory's answer: an entry, a line that cannot be read, or a word that breaks R274. -/
inductive DirRes
  | ok (d : DirEnt)
  | bad (b : VBad)
  | broken (w : Word)
  deriving DecidableEq, Repr

/-- The header, for a tag: the number of ids and of tags; none where it breaks R274. -/
def readDirHead (bs : List Byte) (tag : Nat) : Option (Nat × Nat) :=
  if fieldAt bs 0 4 = 0x4E444441 ∧ (bs.drop 8).all (fun b => b == 0) ∧ tag < fieldAt bs 6 2 then some (fieldAt bs 4 2, fieldAt bs 6 2) else none

/-- The first word of an entry that breaks R274; one with RANK 0 is the base model, and breaks nothing. -/
def entFault (bs : List Byte) : Option Word :=
  let word (o : Nat) : Option Word := some (BitVec.ofNat 64 (fieldAt bs o 8))
  if fieldAt bs 32 1 = 0 then none
  else if fieldAt bs 0 8 % 64 ≠ 0 then word 0
  else if fieldAt bs 8 8 % 64 ≠ 0 then word 8
  else if (match unpack .f32 (fieldAt bs 16 4) with
    | .fin .. => false
    | _ => true) || fieldAt bs 20 4 % 16 != 0 then word 16
  else if 64 < fieldAt bs 32 1 ∨ (bs.drop 33).any (fun b => b != 0) then word 32
  else none

def readEnt (aid tag : Nat) (bs : List Byte) : DirEnt :=
  ⟨aid, tag, fieldAt bs 0 8, fieldAt bs 8 8, fieldAt bs 16 4, fieldAt bs 20 4, fieldAt bs 24 4, fieldAt bs 28 4, fieldAt bs 32 1⟩

/-- Read a directory for an id and a tag, as an element of the plot `own` where one is given. -/
def readDir (own : Option Nat) (s : State) (plot dir aid tag : Nat) (sub : Option Word) : State × DirRes :=
  match readVirtOf own s (dieOf plot) (ctxOf s plot) dir 64 sub with
  | (s, .error b) => (s, .bad b)
  | (s, .ok hd) =>
    match readDirHead hd tag with
    | none => (s, .broken (BitVec.ofNat 64 (fieldAt hd 0 8)))
    | some (nid, ntag) =>
      if nid ≤ aid ∨ aid = 0 then (s, .ok (baseEnt aid tag))
      else match readVirtOf own s (dieOf plot) (ctxOf s plot) (dir + 64 + (aid * ntag + tag) * 64) 64 sub with
        | (s, .error b) => (s, .bad b)
        | (s, .ok bs) => match entFault bs with
          | some w => (s, .broken w)
          | none => (s, .ok (readEnt aid tag bs))

/-- A cached entry becomes the most recently used of the 64. -/
def putDir (ds : List DirEnt) (d : DirEnt) : List DirEnt := (d :: ds.filter fun x => !(x.aid == d.aid && x.tag == d.tag)).take 64

/-! ### The adapter cache (R275) -/

def sliceIs (k : Bool) (aid tag b : Nat) (x : Slice) : Bool := x.kindB == k && x.aid == aid && x.tag == tag && x.block == b
def sliceSet (x : Slice) : Nat := (x.aid ^^^ x.tag ^^^ x.block ^^^ (if x.kindB then 1 else 0)) % 8

/-- A slice becomes the most recently used. -/
def moveFirst (xs : List Slice) (x : Slice) : List Slice := x :: xs.filter fun y => y != x

/-- The slices that a fill leaves: where its set is full, the least recently used way that is not pinned goes; none where every way is pinned. -/
def putSlice (pinned : Slice → Bool) (xs : List Slice) (x : Slice) : Option (List Slice) :=
  let ways := xs.filter fun y => sliceSet y == sliceSet x
  if ways.length < 8 then some (x :: xs)
  else ((ways.filter fun y => !pinned y).getLast?).map fun old => x :: xs.filter fun y => y != old

/-- A valid slice: one that is invalidated serves the rows pinned to it alone (R278). -/
def findSlice (s : State) (plot : Nat) (k : Bool) (aid tag b : Nat) : Option Slice :=
  (getPlot s plot).slices.find? fun x => sliceIs k aid tag b x && !x.stale
def touchSlice (s : State) (plot : Nat) (x : Slice) : State := modPlot s plot fun p => { p with slices := moveFirst p.slices x }

/-- What a fill of a slice would leave in the cache of a plot; none where it must wait for a way. -/
def sliceRoom (s : State) (plot : Nat) (x : Slice) : Option (List Slice) :=
  putSlice (fun y => decide (pinOf s plot y.id ≠ 0)) (getPlot s plot).slices x

/-- The slice that a fill brings, before its bytes are read; its number is that of the fill, or a fresh one. -/
def newSlice (k : Bool) (aid tag b id : Nat) (data : List Byte) : Slice := { kindB := k, aid := aid, tag := tag, block := b, data := data, id := id }

/-- Bytes of a slice that its entry fetches: rows or columns beyond KLEN or NLEN are not (R274). -/
def sliceBytes (d : DirEnt) (k : Bool) (b : Nat) : Nat :=
  2 * rankPad d * min (sliceSpan d) ((if k then d.nlen else d.klen) - b * sliceSpan d)

/-- Value t of row (or column) number n of a slice: zero at t ≥ RANK and beyond KLEN or NLEN (R274). -/
def sliceVal (d : DirEnt) (k : Bool) (fcs : Fcs) (data : List Byte) (n t : Nat) : Val :=
  if d.rank ≤ t ∨ (if k then d.nlen else d.klen) ≤ n then .fin false 0 0
  else matRead fcs .bf16 (fieldAt data (2 * (rankPad d * (n % sliceSpan d) + t)) 2)

/-! ### Lookups -/

/-- What a row waits for: the directory, or a slice. -/
abbrev AdWait := Option (Bool × Nat)

/-- A lookup that misses (R277): it is counted, and fetched unless a fetch of it is in flight. -/
def missAdapter (s : State) (l : Loc) (aid : Nat) (w : AdWait) : State :=
  let u := getMe s l
  let s := modMe s l fun u => { u with misses := min 0xFFFF (u.misses + 1) }
  let inFlight := (getPlot s l.plot).fills.any fun f => f.aid == aid && f.tag == u.tag &&
    (match f.slice, w with
      | none, none => f.l == l
      | some (k, b, _), some (k', b') => k == k' && b == b'
      | _, _ => false)
  if inFlight then s
  else
    let slice : Option (Option (Bool × Nat × DirEnt)) := match w with
      | none => some none
      | some (k, b) => (u.dirs.find? fun d => d.aid == aid && d.tag == u.tag).map fun d => some (k, b, d)
    match slice with
    | some sl =>
      bumpId (modPlot s l.plot fun p =>
        { p with fills := p.fills ++ [{ id := freshId s, l := l, ctx := ctxOf s l.plot, aid := aid, tag := u.tag, slice := sl }] })
    | none => s

/-- The slice of a block that an entry needs: none needed, the slice, or a miss. A lookup that hits makes it the most recently used. -/
def lookSlice (s : State) (l : Loc) (d : DirEnt) (k : Bool) (b : Nat) : State × Except AdWait (List Byte) :=
  if (if k then d.nlen else d.klen) ≤ b * sliceSpan d then (s, .ok [])
  else match findSlice s l.plot k d.aid d.tag b with
    | some x => (touchSlice s l.plot x, .ok x.data)
    | none => (s, .error (some (k, b)))

/-- The directory entry of an id. -/
def lookDir (s : State) (l : Loc) (aid : Nat) : State × Except AdWait DirEnt :=
  let u := getMe s l
  match u.dirs.find? fun d => d.aid == aid && d.tag == u.tag with
  | some d => (modMe s l fun u => { u with dirs := putDir u.dirs d }, .ok d)
  | none => (s, .error none)

/-! ### The adapter groups (R276) -/

/-- AdapterGroup(i, g): the values of one K-group of row i meet the rows of A from K position `kpos` on. -/
def adapterGroup (d : DirEnt) (data : List Byte) (c : Chunk) (u : Tbl Acc) : Tbl Acc × Flags :=
  (List.range (rankPad d)).foldl (fun st t =>
    addEntry .narrow st (64 * c.row + t)
      (groupSum .narrow ((c.vals.take c.g).mapIdx fun k x => (matVal c.fmt c.fcs x, sliceVal d false c.fcs data (c.kpos + k) t)))) (u, 0)

/-- The next group of a chunk is taken, or what it waits for. -/
def takeGroup (s : State) (l : Loc) (c : Chunk) : State × Option AdWait :=
  match lookDir s l c.aid with
  | (s, .error w) => (s, some w)
  | (s, .ok d) =>
    if d.rank = 0 then (s, none)
    else match lookSlice s l d false (c.kpos / sliceSpan d) with
      | (s, .error w) => (s, some w)
      | (s, .ok data) =>
        let nd := nodeAt (getMe s l) c.an
        let (u, f) := adapterGroup d data c nd.u
        (modElem (setNode s l c.an { nd with u := u }) l fun e => orFlags e f, none)

/-- A chunk without its first group. -/
def nextGroup (c : Chunk) : Chunk := { c with kpos := c.kpos + c.g, vals := c.vals.drop c.g, wait := none }

/-- Take n groups of a chunk, up to one that misses: what is then deferred. -/
def runChunk (s : State) (l : Loc) : Nat → Chunk → State × Option Chunk
  | 0, _ => (s, none)
  | n + 1, c =>
    match takeGroup s l c with
    | (s, none) => runChunk s l n (nextGroup c)
    | (s, some w) => (s, some { c with wait := some w })

def chunkGroups (c : Chunk) : Nat := c.vals.length / c.g

/-- The row of a firing is taken: at once, or into the row replay buffer; none where a full buffer keeps the firing where it is (R277). -/
def takeRow (s : State) (l : Loc) (c : Chunk) : Option State :=
  let full (s : State) : Bool := decide (32 ≤ (getMe s l).replay.length)
  if c.aid = 0 then some s
  else if (getMe s l).replay.any fun x => x.an == c.an && x.row == c.row then
    if full s then none else some (modMe s l fun u => { u with replay := u.replay ++ [c] })
  else
    match runChunk s l (chunkGroups c) c with
    | (s', none) => some s'
    | (s', some d) =>
      if full s then none
      else
        let s' := modMe s' l fun u => { u with replay := u.replay ++ [d] }
        some (match d.wait with
          | some w => missAdapter s' l d.aid w
          | none => s')

/-- Replay the chunks of a row in buffer order, up to one that waits; fuel bounds them by the 32 of the buffer. -/
def replayRow (l : Loc) (an : Fin 4) (row : Nat) : Nat → State → State
  | 0, s => s
  | n + 1, s =>
    match (getMe s l).replay.find? fun c => c.an == an && c.row == row with
    | none => s
    | some c =>
      if c.wait.isSome then s
      else
        match runChunk s l (chunkGroups c) c with
        | (s, none) => replayRow l an row n (modMe s l fun u => { u with replay := u.replay.erase c })
        | (s, some d) =>
          let s := modMe s l fun u => { u with replay := mapIf (fun x => x == c) (fun _ => d) u.replay }
          match d.wait with
          | some w => missAdapter s l d.aid w
          | none => s

/-- A fetch has arrived at a matrix element: what waits for it goes on, in buffer order; a row that is to be closed is pinned to the slice. -/
def wakeRows (aid tag : Nat) (w : AdWait) (pin : Option (Nat × DirEnt)) (s : State) (l : Loc) : State :=
  if (getMe s l).tag ≠ tag then s
  else
    let hit (c : Chunk) : Bool := c.aid == aid && c.wait == some w
    let rows := (((getMe s l).replay.filter hit).map fun c => (c.an, c.row)).eraseDups
    let s := modMe s l fun u =>
      { u with replay := mapIf hit (fun c => { c with wait := none }) u.replay
               accs := u.accs.map fun n =>
                 if n.closeWait = some w ∧ n.ids.getD n.closedRows 0 = aid then { n with closeWait := none, closePin := pin } else n }
    rows.foldl (fun s x => replayRow l x.1 x.2 33 s) s

/-! ### ADAPTER_SLICE_FILL -/

/-- An A slice is filled in the order of the misses (R275). -/
def fillTurn (p : Plot) (f : Fill) : Bool :=
  !f.held && (match f.slice with
    | some (false, _, _) => ((p.fills.filter fun x => match x.slice with
        | some (false, _, _) => true
        | _ => false).head?.map (·.id)) == some f.id
    | _ => true)

/-- A directory read or slice fetch faults: it is held, and the row stays deferred (R279). -/
def faultFill (s : State) (plot : Nat) (f : Fill) (cls : FaultClass) (sub addr : Nat) (w : Word) : State :=
  let s := modPlot s plot fun p => { p with fills := mapIf (fun x => x.id == f.id) (fun x => { x with held := true }) p.fills }
  raiseFault s { cls := cls, sub := sub, plot := plot, site := f.l.site, addr := addr, info0 := w, depth := f.depth, what := some (.adapter plot f.id) }

def endFill (s : State) (plot : Nat) (f : Fill) : State := modPlot s plot fun p => { p with fills := p.fills.filter fun x => x.id != f.id }

/-- A fetch of a slice goes on with a directory entry that it has just read again, where that still has the slice; else its rows look up anew. -/
def renewFill (s : State) (plot : Nat) (f : Fill) (k : Bool) (b : Nat) (d : DirEnt) : State :=
  if d.rank ≠ 0 ∧ b * sliceSpan d < (if k then d.nlen else d.klen) then
    modPlot s plot fun p => { p with fills := mapIf (fun x => x.id == f.id) (fun x => { x with again := false, slice := some (k, b, d) }) p.fills }
  else (meSites plot).foldl (wakeRows f.aid f.tag (some (k, b)) none) (endFill s plot f)

/-- A fetch is performed: its matrix element sees the writes that its plot's port holds (17 R304). -/
def performFill (s : State) (plot : Nat) (f : Fill) : State :=
  match f.slice with
  | none =>
    (match readDir (some plot) s plot (getMe s f.l).dir f.aid f.tag f.sub with
    | (s, .ok d) => wakeRows f.aid f.tag none none (modMe (endFill s plot f) f.l fun u => { u with dirs := putDir u.dirs d }) f.l
    | (s, .bad b) => faultFill s plot f b.cls b.sub b.va 0
    | (s, .broken w) => faultFill s plot f .operand 0 0 w)
  | some (k, b, d) =>
    if f.again then
      match readDir (some plot) s plot (getMe s f.l).dir f.aid f.tag f.sub with
      | (s, .ok d) => renewFill s plot f k b d
      | (s, .bad b) => faultFill s plot f b.cls b.sub b.va 0
      | (s, .broken w) => faultFill s plot f .operand 0 0 w
    else if (sliceRoom s plot (newSlice k f.aid f.tag b f.id [])).isNone then s
    else match readVirtOf (some plot) s (dieOf plot) f.ctx ((if k then d.bbase else d.abase) + 8192 * b) (sliceBytes d k b) f.sub with
      | (s, .ok data) =>
        let xs := (sliceRoom s plot (newSlice k f.aid f.tag b f.id data)).getD []
        let s := modPlot (endFill s plot f) plot fun p => { p with slices := xs }
        (meSites plot).foldl (wakeRows f.aid f.tag (some (k, b)) (some (f.id, d))) s
      | (s, .error v) => faultFill s plot f v.cls v.sub v.va (if v.cls = .operand then BitVec.ofNat 64 v.va else 0)

def execAdapterSliceFill (plot fill : Nat) (s : State) : Out :=
  match (getPlot s plot).fills.find? fun f => f.id == fill with
  | some f => .next (if fillTurn (getPlot s plot) f && !plotFrozen s plot then performFill s plot f else s)
  | none => .next s

/-! ### ADAPTER_CLOSE (R276) -/

/-- w_i[t]: one rounding of the exact product by α. -/
def adapterW (rd : Dir) (fcs : Fcs) (alpha : Nat) (a : Acc) : Nat × Flags :=
  let (n, f) := normaliseFp a .f32 rd fcs
  let (w, g) := match unpack .f32 n with
    | .nan _ => (canonNaN .bf16, 0)
    | v => roundOr .bf16 rd fcs (mulVal v (unpack .f32 alpha))
  (w, f ||| g)

/-- The adapter groups of row i: into entry (i, n), 32 values of t at a time. -/
def closeRow (rd : Dir) (fcs : Fcs) (d : DirEnt) (data : List Byte) (nd : AccNode) (i : Nat) : AccNode × Flags :=
  let ws := (List.range (rankPad d)).map fun t => adapterW rd fcs d.alpha (Tbl.findD nd.u (64 * i + t) {})
  let f0 := ws.foldl (fun f w => f ||| w.2) 0
  let (ents, f) := (List.range 16).foldl (fun st n =>
    (List.range (rankPad d / 32)).foldl (fun st h =>
      addEntry .narrow st (16 * i + n)
        (groupSum .narrow ((upFrom (32 * h) 32).map fun t =>
          (matRead fcs .bf16 (ws.getD t (0, 0)).1, sliceVal d true fcs data (d.col0 + n) t)))) st) (nd.ents, f0)
  ({ nd with ents := ents }, f)

/-- The entry and the slice with which a row is closed: those to which it is pinned, or what a lookup gives; none for the base model. -/
def closeLook (s : State) (l : Loc) (nd : AccNode) : State × Except AdWait (Option (DirEnt × List Byte)) :=
  match nd.closePin.bind fun x => ((getPlot s l.plot).slices.find? fun y => y.id == x.1).map fun y => (x.2, y.data) with
  | some x => (s, .ok (some x))
  | none =>
    match lookDir s l (nd.ids.getD nd.closedRows 0) with
    | (s, .error w) => (s, .error w)
    | (s, .ok d) =>
      if d.rank = 0 then (s, .ok none)
      else match lookSlice s l d true (d.col0 / sliceSpan d) with
        | (s, .error w) => (s, .error w)
        | (s, .ok data) => (s, .ok (some (d, data)))

/-- Close the rows of a node that is ending, from the next one on, up to one that misses; fuel counts the 16 rows. -/
def closeRows (l : Loc) (an : Fin 4) (fcs : Fcs) : Nat → State → State
  | 0, s => s
  | n + 1, s =>
    let nd := nodeAt (getMe s l) an
    let i := nd.closedRows
    let next (s : State) : State :=
      closeRows l an fcs n (modMe s l fun u => { u with accs := u.accs.set an { u.accs[an] with closedRows := i + 1, closePin := none } })
    let miss (s : State) (w : AdWait) : State :=
      missAdapter (modMe s l fun u => { u with accs := u.accs.set an { u.accs[an] with closeWait := some w } }) l (nd.ids.getD i 0) w
    if 16 ≤ i then s
    else if nd.ids.getD i 0 = 0 then next s
    else match closeLook s l nd with
      | (s, .error w) => miss s w
      | (s, .ok none) => next s
      | (s, .ok (some (d, data))) =>
        let (nd', f) := closeRow (dirOf (fpmRD (getElem s l).fpm)) fcs d data (nodeAt (getMe s l) an) i
        next (modElem (setNode s l an nd') l fun e => orFlags e f)

/-- A node with adapters that is ending, no row of which has chunks in the buffer. -/
def closeTurn (s : State) (l : Loc) (an : Fin 4) : Option Closing :=
  let u := getMe s l
  let nd := nodeAt u an
  if nd.state = .closing ∧ nd.ad ∧ nd.closedRows < 16 ∧ nd.closeWait.isNone ∧ !(u.replay.any fun c => c.an == an) then nd.closing else none

/-- The adapter state of the node is cleared once its rows are closed. -/
def adapterCloseStep (s : State) (l : Loc) (an : Fin 4) : State :=
  match closeTurn s l an with
  | some c =>
    let s := settleInvs (closeRows l an c.fcs 17 s) l.plot
    let nd := nodeAt (getMe s l) an
    if 16 ≤ nd.closedRows then tryRelease (setNode s l an { nd with u := [] }) l an else s
  | none => s

def execAdapterClose (l : Loc) (an : Fin 4) (s : State) : Out :=
  .next (if plotFrozen s l.plot || (getElem s l).killed then s else adapterCloseStep s l an)

end Sys2Proof.Machine
end

