-- ==== Sys2Proof/Machine/Engine.lean ====
section
/-!
DEFINITION. Engine commands (spec 12 R211 to R213, 13 R235 to R245): the firings that issue them, their records, and the accesses that they
perform one at a time. A `drill.push` is taken by the drill, and the packet of `rdc.tree` by its router, in files of their own.
-/

namespace Sys2Proof.Machine

/-! ### Issue -/

/-- Commands that wait in a copy engine's queue (R211), as the cycle's triggers see it (08 R133): what other ports issue in the same cycle waits too, beyond
the 64 entries if it must (log 55). -/
def queueLoad (s : State) (g : Engine) : Nat := (s.cmds.filter fun c => c.eng == g && c.phase == .queued && c.born != now s + 1).length

/-- The copy engine that a port's configuration binds: with 4, the lowest-numbered one of the die with a free queue entry. -/
def copyEngine (s : State) (die bound : Nat) : Option Engine :=
  ((if bound < 4 then [bound] else [0, 1, 2, 3]).map fun n => Engine.copy die n).find? fun g => decide (queueLoad s g < 64)

/-- Copies and gathers stop when their parcel freezes (18 R321). -/
def isCopy : Instr → Bool
  | .cpy _ | .cpyNd _ | .cpyIx _ | .cpyIs _ => true
  | _ => false
def isWinnow : Instr → Bool
  | .gat _ | .sct _ | .sctAdd _ _ => true
  | _ => false

/-- The engine that takes a command of a plot; none while its queue is full. -/
def engineFor (s : State) (die bound : Nat) (i : Instr) : Option Engine :=
  if isCopy i then copyEngine s die bound
  else if isWinnow i then some (.winnow die)
  else match i with
    | .coll _ _ => some (.coll die)
    | .put _ | .get _ => some (.dvl die)
    | _ => some (.agent die)

/-- Inline words that a `drill.push` takes from sb (R243). -/
def inlineCount : Instr → Nat
  | .drillPush _ n => n.val
  | _ => 0

/-- A command enters its engine. Of `sa` and `sb` naming one channel it is dequeued once (04 R72). -/
def issueCmd (e : EAct) (i : Instr) (x : BeatIn) (s : State) : State :=
  match engineFor x.s (dieOf x.l.plot) x.e.bound i with
  | none => s
  | some g =>
    let n := inlineCount i
    let (s, rid) := reserveAck s x.l e.dst true
    let inl := match e.sb with
      | .ch c => (((headTokens x.s x.l c).take n).map fun t => (payload t).toWord)
      | _ => []
    let s := match e.sb with
      | .ch c => (List.range (if e.sa = e.sb then n - 1 else n)).foldl (fun s _ => dequeue s x.l c) s
      | _ => s
    let feed := match i with
      | .cpyIx _ | .cpyIs _ | .gat _ | .sct _ | .sctAdd _ _ => (match e.sb with
        | .ch c => some c
        | _ => none)
      | _ => none
    let c : Cmd :=
      { id := freshId s, l := x.l, parcel := (getPlot s x.l.plot).parcel, ctx := ctxOf s x.l.plot, i := i, eng := g, a := x.a.toWord, b := x.b.toWord,
        feed := feed, inl := inl, phase := if isCopy i then .queued else .fetch, rid := rid, born := now s + 1 }
    traceEvent (bumpId { s with cmds := s.cmds ++ [c] }) x.l.plot (.mem x.l.site 5 15 x.a.toWord.toNat)

/-- An engine command's firing, the fork (R213, R235): its engine accepts it, and its inline words are there. -/
def specEngine (e : EAct) (i : Instr) (both : Bool) : FireSpec :=
  { dst := e.dst, sa := e.sa, sb := if both then e.sb else .zero, async := true
    ready := fun s l => (engineFor s (dieOf l.plot) (getElem s l).bound i).isSome && srcReady s l (inlineCount i) e.sb
    op := fun x => .ok { post := issueCmd e i x } }

def specCpy (e : EAct) : FireSpec := specEngine e (.cpy e) false
def execCpy (e : EAct) (s : State) : Out := runBeat (specCpy e) s
def specCpyNd (e : EAct) : FireSpec := specEngine e (.cpyNd e) false
def execCpyNd (e : EAct) (s : State) : Out := runBeat (specCpyNd e) s
def specCpyIx (e : EAct) : FireSpec := specEngine e (.cpyIx e) false
def execCpyIx (e : EAct) (s : State) : Out := runBeat (specCpyIx e) s
def specCpyIs (e : EAct) : FireSpec := specEngine e (.cpyIs e) false
def execCpyIs (e : EAct) (s : State) : Out := runBeat (specCpyIs e) s
def specGat (e : EAct) : FireSpec := specEngine e (.gat e) false
def execGat (e : EAct) (s : State) : Out := runBeat (specGat e) s
def specSct (e : EAct) : FireSpec := specEngine e (.sct e) false
def execSct (e : EAct) (s : State) : Out := runBeat (specSct e) s
def specSctAdd (e : EAct) (fcs : Fcs) : FireSpec := specEngine e (.sctAdd e fcs) false
def execSctAdd (e : EAct) (fcs : Fcs) (s : State) : Out := runBeat (specSctAdd e fcs) s
def specRdcTree (e : EAct) (fcs : Fcs) : FireSpec := specEngine e (.rdcTree e fcs) false
def execRdcTree (e : EAct) (fcs : Fcs) (s : State) : Out := runBeat (specRdcTree e fcs) s
def specColl (e : EAct) (fcs : Fcs) : FireSpec := specEngine e (.coll e fcs) false
def execColl (e : EAct) (fcs : Fcs) (s : State) : Out := runBeat (specColl e fcs) s
def specPut (e : EAct) : FireSpec := specEngine e (.put e) false
def execPut (e : EAct) (s : State) : Out := runBeat (specPut e) s
def specGet (e : EAct) : FireSpec := specEngine e (.get e) false
def execGet (e : EAct) (s : State) : Out := runBeat (specGet e) s
def specDrillPush (e : EAct) (n : Fin 9) : FireSpec := specEngine e (.drillPush e n) false
def execDrillPush (e : EAct) (n : Fin 9) (s : State) : Out := runBeat (specDrillPush e n) s
def specSig (e : EAct) (raise : Bool) (vec : BitVec 10) : FireSpec := specEngine e (.sig e raise vec) true
def execSig (e : EAct) (raise : Bool) (vec : BitVec 10) (s : State) : Out := runBeat (specSig e raise vec) s
def specAdPf (e : EAct) (me : Fin 4) (a b : Bool) : FireSpec := specEngine e (.adPf e me a b) false
def execAdPf (e : EAct) (me : Fin 4) (a b : Bool) (s : State) : Out := runBeat (specAdPf e me a b) s

/-! ### Faults of commands -/

def findCmd (s : State) (id : Nat) : Option Cmd := s.cmds.find? fun c => c.id == id

/-- The POL, address and die of the node that runs a command, where one does. -/
def cmdNode (s : State) (c : Cmd) : Option NodeSt := c.node.bind fun n => Tbl.find (Tbl.findD s.drill.launches n.1 {}).nodes n.2

/-- A fault of a command (18 R314): it carries ENGINE, and for a node's command the die that the node names. -/
def cmdFault (s : State) (c : Cmd) (cls : FaultClass) (sub addr : Nat) (w : Word) (what : Option HeldWhat) : State :=
  let f : FaultInfo := { cls := cls, sub := sub, plot := c.l.plot, site := c.l.site, addr := addr, info0 := w, flags := 8, depth := c.depth,
                         report := what.isNone, what := what, ctx := some c.ctx }
  match cmdNode s c with
  | some n => raiseFault s { f with site := 0xFF, node := some n.addr, die := some (fieldAt n.raw 0x18 1 % 4) }
  | none => raiseFault s f

/-- An access of a command is held until repair (R235). -/
def holdCmd (s : State) (c : Cmd) (b : VBad) : State :=
  cmdFault (modCmd s c.id fun x => { x with phase := .held }) c b.cls b.sub b.va (if b.cls = .operand then BitVec.ofNat 64 b.va else 0)
    (some (.command c.id))

/-- A record fault (R235): it holds the command (18 R313), which performs no access and, once the fault is answered, completes with
FAULT_CONTAINED. -/
def recordFault (s : State) (c : Cmd) (cls : FaultClass) (sub addr : Nat) (w : Word) : State :=
  cmdFault (modCmd s c.id fun x => { x with phase := .held, status := 4, broken := true }) c cls sub addr w (some (.command c.id))

/-! ### Ports that are down (20 R352) -/

/-- Packages can be reached: none of the ports that lead to one is down (20 R352). -/
def peersUp (s : State) (pkgs : List Nat) : Bool :=
  pkgs.all fun p => p == Config.packageNumber || !(s.reeve.ports.any fun q => q.peer == p && !q.up)

/-- An access of a command at an address goes out at a port that is down. -/
def accessCut (s : State) (c : Cmd) (va : Nat) : Bool :=
  match (transNow s (dieOf c.l.plot) c.ctx va).2 with
  | some e => (match homeOf s (physOf e va) with
    | .remote pkg _ => !peersUp s [pkg]
    | .hbm _ | .tier _ | .host _ | .window .. | .absent => false)
  | none => false

/-- A command that uses a port that is down ends (20 R352), with FAULT_CONTAINED (R242; log 14). -/
def cutCmd (s : State) (c : Cmd) : State := modCmd s c.id fun x => { x with phase := .done, status := 4 }

/-! ### Command records (R237, R241, R242) -/

/-- Bytes from an offset of a record on are all zero. -/
def zeroFrom (r : List Byte) (off : Nat) : Bool := (r.drop off).all fun b => b == 0
def zeroIn (r : List Byte) (off n : Nat) : Bool := ((r.drop off).take n).all fun b => b == 0

/-- Bytes of an element in a format that a winnow or a collective takes. -/
def elemBytes (fmt : Nat) : Nat := fmtHalves fmt / 2

/-- A reduction code of R242, as an atomic's operation (04 R68). -/
def redOp : Nat → Option AtomOp
  | 0 => some .add
  | 1 => some .min
  | 2 => some .max
  | 9 => some .fadd
  | 10 => some .fmin
  | 11 => some .fmax
  | _ => none

/-- The tree that a command's record names in its parcel, where the command's plot lies in its rectangle (16 R296). -/
def treeOf (s : State) (plot tree : Nat) : Option Region :=
  (getPlot s plot).parcel.bind fun n =>
    (getParcel s n).regions.find? fun r => r.tree && r.id == tree && regionHolds (getParcel s n) r plot

/-- The root plot of a tree (16 R293). -/
def rootPlot (p : Parcel) (g : Region) : Nat := plotAt (p.x0 + g.rx) (p.y0 + g.ry)

/-- A group at a router (16 R294), and those closed there, of which it remembers 16. -/
def isGroup (plot tree grp : Nat) (g : TreeGroup) : Bool := g.plot == plot && g.tree == tree && g.grp == grp
def shutGroups (p : Parcel) (plot tree : Nat) : List Nat :=
  ((p.treeShut.find? fun x => x.1 == plot && x.2.1 == tree).map fun x => x.2.2).getD []
def shutGroup (p : Parcel) (plot tree grp : Nat) : Parcel :=
  { p with treeGroups := p.treeGroups.filter fun g => !isGroup plot tree grp g
           treeShut := (plot, tree, (grp :: shutGroups p plot tree).take 16) :: p.treeShut.filter fun x => !(x.1 == plot && x.2.1 == tree) }

/-- A command at the root plot of its tree, with the tree's parcel. -/
def atRoot (s : State) (c : Cmd) (tree : Nat) : Option Nat :=
  match c.parcel, treeOf s c.l.plot tree with
  | some n, some g => if rootPlot (getParcel s n) g = c.l.plot then some n else none
  | _, _ => none

/-- The checks of a record. -/
def recordOk (s : State) (c : Cmd) (r : List Byte) : Bool :=
  let ifmt := fieldAt r 0x24 1
  let wfmt := fieldAt r 0x20 1
  let wOk (add : Bool) : Bool :=
    (if add then wfmt == 0 || wfmt == 1 || wfmt == 9 || wfmt == 10 else decide (wfmt ≤ 3) || wfmt == 9 || wfmt == 10) &&
    (fieldAt r 0x21 1 == 9 || fieldAt r 0x21 1 == 10) && decide (6 ≤ fieldAt r 0x22 1) && decide (fieldAt r 0x22 1 ≤ 46) && zeroFrom r 0x23
  match c.i with
  | .cpy _ | .put _ | .get _ => zeroFrom r 0x18
  | .cpyNd _ => decide (fieldAt r 0x10 1 ≤ 5) && decide (1 ≤ fieldAt r 0x11 1) && decide (fieldAt r 0x11 1 ≤ 3) && zeroIn r 0x12 6 && zeroFrom r 0x3C
  | .cpyIx _ | .cpyIs _ =>
    let rb := fieldAt r 0x1C 4
    rb % 8 == 0 && decide (8 ≤ rb) && decide (rb ≤ 1048576) && (ifmt == 9 || ifmt == 10) && zeroIn r 0x25 3 && zeroFrom r 0x30
  | .gat _ | .sct _ => wOk false
  | .sctAdd _ _ => wOk true
  | .rdcTree _ _ => fieldAt r 0 8 % 64 == 0 && decide (fieldAt r 0x11 1 ≤ 1) && zeroFrom r 0x14 && (treeOf s c.l.plot (fieldAt r 0x10 1)).isSome &&
      ((atRoot s c (fieldAt r 0x10 1)).isNone || fieldAt r 8 8 % 64 == 0)
  | .coll _ _ =>
    decide (fieldAt r 0x20 1 ≤ 3) && (redOp (fieldAt r 0x21 1)).isSome && (wfmtOk (fieldAt r 0x22 1)) && decide (fieldAt r 0x23 1 ≤ 1) && zeroFrom r 0x28
  | _ => true
where wfmtOk (f : Nat) : Bool := f == 0 || f == 1 || f == 9 || f == 10

/-- A record that breaks its rules. A misaligned RES at the root of a tree closes the group there (R241). -/
def badRecord (s : State) (c : Cmd) (r : List Byte) : State :=
  let s := recordFault s c .operand 0 c.a.toNat (BitVec.ofNat 64 (fieldAt r 0x10 8))
  match c.i with
  | .rdcTree _ _ =>
    (match atRoot s c (fieldAt r 0x10 1) with
    | some n => if fieldAt r 8 8 % 64 = 0 then s else modParcel s n fun p => shutGroup p c.l.plot (fieldAt r 0x10 1) (fieldAt r 0x12 2)
    | none => s)
  | _ => s

/-- Read a command's record: one 64-byte access. One that cannot be translated is a record fault; an uncorrectable line is an access fault, whose repair
reads the record again (R235). -/
def fetchRecord (s : State) (c : Cmd) : State :=
  let run (s : State) (r : List Byte) : State :=
    modCmd s c.id fun x => { x with phase := .run, record := r, fetching := false, sub := none, depth := 0 }
  match c.i with
  | .sig .. => run s []
  | .adPf .. => if 2 ^ 32 ≤ c.a.toNat then recordFault s c .operand 0 0 c.a else run s []
  | _ =>
    if c.a.toNat % 64 ≠ 0 then recordFault s c .operand 0 c.a.toNat c.a
    else if accessCut s c c.a.toNat then cutCmd s c
    else match readVirt s (dieOf c.l.plot) c.ctx c.a.toNat 64 c.sub with
      | (s, .error b) =>
        if b.cls = .memerr then holdCmd (modCmd s c.id fun x => { x with fetching := true }) c b
        else recordFault s c b.cls b.sub b.va (if b.cls = .operand then BitVec.ofNat 64 b.va else 0)
      | (s, .ok r) => if recordOk s c r then run s r else badRecord s c r

/-! ### Units -/

/-- One unit of a command: what it reads, what it writes, and an addition in place. -/
structure CUnit where
  src : Option Nat := none
  dst : Option Nat := none
  len : Nat := 0
  add : Option (Nat × Fcs) := none
  counts : Bool := true
  bad : Bool := false
  deriving DecidableEq, Repr

/-- The units of a command, where they are known before its indexes are. -/
def unitCount (c : Cmd) : Option Nat :=
  let r := c.record
  match c.i with
  | .cpyNd _ => some (((List.range (fieldAt r 0x11 1)).map fun d => fieldAt r (0x18 + 4 * d) 4).foldl (· * ·) 1)
  | .cpyIx _ | .cpyIs _ | .gat _ | .sct _ | .sctAdd _ _ => if c.feed.isSome then none else if c.idxEnd then some c.idx.length else some (fieldAt r 0x18 4)
  | _ => some 1

/-- The address of element n of a strided pattern: base, counts, and the offset of the strides in the record (R237). -/
def ndAddr (r : List Byte) (base soff n : Nat) : Nat :=
  let d := fieldAt r 0x11 1
  let counts := (List.range d).map fun i => fieldAt r (0x18 + 4 * i) 4
  let go := (List.range d).foldl (fun (st : Int × Nat) i =>
    (st.1 + ((st.2 % (counts.getD i 1) : Nat) : Int) * signedOf 32 (fieldAt r (soff + 4 * i) 4), st.2 / counts.getD i 1)) ((base : Int), n)
  wrapTo 64 go.1

/-- Unit number j. -/
def unitOf (c : Cmd) (j : Nat) : CUnit :=
  let r := c.record
  let x : Option Nat := (c.idx.getD j none)
  let two64 := 2 ^ 64
  match c.i with
  | .cpy _ | .put _ => { src := some (fieldAt r 0 8), dst := some (fieldAt r 8 8), len := fieldAt r 0x10 8, counts := false }
  | .get _ => { src := some (fieldAt r 8 8), dst := some (fieldAt r 0 8), len := fieldAt r 0x10 8, counts := false }
  | .cpyNd _ =>
    { src := some (ndAddr r (fieldAt r 0 8) 0x24 j), dst := some (ndAddr r (fieldAt r 8 8) 0x30 j), len := (eszBytes (fieldAt r 0x10 1)).getD 1 }
  | .cpyIx _ | .cpyIs _ =>
    let rb := fieldAt r 0x1C 4
    let dense (base : Nat) : Nat := wrapTo 64 ((base : Int) + (j : Int) * signedOf 64 (fieldAt r 0x28 8))
    let ix := (match c.i with
      | .cpyIx _ => true
      | _ => false)
    (match x with
    | none => { counts := false }
    | some n =>
      if fieldAt r 0x20 4 ≤ n then
        (if ix then { dst := some (dense (fieldAt r 8 8)), len := rb, counts := false, bad := true } else { counts := false, bad := true })
      else if ix then { src := some ((fieldAt r 0 8 + n * rb) % two64), dst := some (dense (fieldAt r 8 8)), len := rb }
      else { src := some (dense (fieldAt r 0 8)), dst := some ((fieldAt r 8 8 + n * rb) % two64), len := rb })
  | .gat _ =>
    let e := elemBytes (fieldAt r 0x20 1)
    let vec := (fieldAt r 8 8 + j * e) % two64
    (match x with
    | none => { counts := false }
    | some n =>
      if fieldAt r 0x1C 4 ≤ n then { dst := some vec, len := e, counts := false, bad := true }
      else { src := some ((fieldAt r 0 8 + n * e) % two64), dst := some vec, len := e })
  | .sct _ | .sctAdd _ _ =>
    let e := elemBytes (fieldAt r 0x20 1)
    let add := (match c.i with
      | .sctAdd _ f => some (fieldAt r 0x20 1, f)
      | _ => none)
    (match x with
    | none => { counts := false }
    | some n =>
      if fieldAt r 0x1C 4 ≤ n then { counts := false, bad := true }
      else { src := some ((fieldAt r 8 8 + j * e) % two64), dst := some ((fieldAt r 0 8 + n * e) % two64), len := e, add := add })
  | .rdcTree _ _ => { src := some (fieldAt r 0 8), len := 128, counts := false }
  | .sig .. => { dst := some c.a.toNat, len := 8, counts := false }
  | _ => { counts := false }

/-- The part of a byte range that its line number k holds. -/
def pieceAt (va n k : Nat) : Nat × Nat :=
  let base := va / 64 * 64 + 64 * k
  (max va base, min (va + n) (base + 64) - max va base)
def pieceCount (va n : Nat) : Nat := if n = 0 then 0 else (va % 64 + n + 63) / 64

/-! ### Accesses -/

/-- The package that a `put` writes to, or a `get` reads from. -/
def cmdPeer (s : State) (c : Cmd) : Option Nat :=
  match (transNow s (dieOf c.l.plot) c.ctx (fieldAt c.record 8 8)).2 with
  | some e => (match homeOf s (physOf e (fieldAt c.record 8 8)) with
    | .remote pkg _ => some pkg
    | .hbm _ | .tier _ | .host _ | .window .. | .absent => none)
  | none => none

/-- The package whose bytes a command of the DVL engine writes: of a `get` the peer, of a `put` this one. -/
def dvlSource (s : State) (c : Cmd) : Nat :=
  match c.i with
  | .get _ => (cmdPeer s c).getD Config.packageNumber
  | _ => Config.packageNumber

/-- The source word of an engine's writes (12 R210). -/
def cmdSrc (s : State) (c : Cmd) : Nat :=
  match c.eng with
  | .copy d n => srcEngine 1 c.ctx d n
  | .winnow d => srcEngine 2 c.ctx d 0
  | .coll d => srcEngine 3 c.ctx d 0
  | .dvl _ => srcRemote (dvlSource s c)
  | .agent d => srcEngine 6 0 d 0

/-- An access is over: the next one, with nothing left of a repair. -/
def nextPiece (f : Cmd → Cmd) (c : Cmd) : Cmd := { f c with pos := c.pos + 1, skip := false, sub := none, depth := 0 }

/-- Read a piece into the bytes in hand. -/
def cmdRead (s : State) (c : Cmd) (p : Nat × Nat) : State :=
  let take (s : State) (bs : List (Option Byte)) (good : Bool) : State :=
    modCmd s c.id (nextPiece fun x => { x with buf := x.buf ++ bs, good := x.good && good })
  if c.skip then take s (List.replicate p.2 none) false
  else match readPiece s (dieOf c.l.plot) c.ctx p, c.sub with
    | (s, .ok bs), none => take s (bs.map some) true
    | (s, _), some v => take s ((List.range p.2).map fun i => (bytesOf 8 v.toNat)[(p.1 + i) % 8]?) true
    | (s, .error b), none => holdCmd s c b

/-- Write bytes, those of killed reads left out. -/
def putBytes (s : State) (c : Cmd) (va : Nat) (bs : List (Option Byte)) : State :=
  if bs.all (·.isSome) then (writePiece s (dieOf c.l.plot) c.ctx va (bs.filterMap id) (cmdSrc s c) c.l.plot c.l.site).1
  else (bs.zip (List.range bs.length)).foldl (fun s x =>
    match x.1 with
    | some b => (writePiece s (dieOf c.l.plot) c.ctx (va + x.2) [b] (cmdSrc s c) c.l.plot c.l.site).1
    | none => s) s

/-- Write a piece from the bytes in hand; a killed or substituted write is not performed. -/
def cmdWrite (s : State) (c : Cmd) (p : Nat × Nat) (off : Nat) : State :=
  let bytes := match c.i with
    | .cpy _ | .put _ | .get _ => p.2
    | _ => 0
  if c.skip || c.sub.isSome then modCmd s c.id (nextPiece fun x => { x with good := false })
  else match lineHome s (dieOf c.l.plot) c.ctx true p.1 p.2 with
    | (s, .error b) => holdCmd s c b
    | (s, .ok _) =>
      let bs := (c.buf.drop off).take p.2
      let whole := bs.all (·.isSome)
      modCmd (putBytes s c p.1 bs) c.id (nextPiece fun x => { x with cnt := x.cnt + (if whole then bytes else 0), good := x.good && whole })

/-- An element added in place (R240): f32 and f64 rounded RNE, integers wrapped. -/
def cmdAdd (s : State) (c : Cmd) (va n fmt : Nat) (fcs : Fcs) : State :=
  if c.skip || c.sub.isSome || c.buf.any (·.isNone) then modCmd s c.id (nextPiece fun x => { x with good := false })
  else
    let bad := (linePieces va n).findSome? fun p => match (lineHome s (dieOf c.l.plot) c.ctx true p.1 p.2).2 with
      | .error b => some b
      | .ok _ => none
    match bad, readVirt s (dieOf c.l.plot) c.ctx va n none with
    | some b, _ | none, (_, .error b) => holdCmd s c b
    | none, (s, .ok old) =>
      let op : AtomOp := if fmt ≤ 1 then .fadd else .add
      let (v, f) := atomValue op fcs (8 * n) (ofBytes old) (ofBytes (c.buf.filterMap id))
      let s := (linePieces va n).foldl (fun s p => putBytes s c p.1 ((((bytesOf n v).drop (p.1 - va)).take p.2).map some)) s
      modCmd s c.id (nextPiece fun x => { x with flags := x.flags ||| f })

/-- A unit is over. -/
def nextUnit (s : State) (c : Cmd) (u : CUnit) : State :=
  modCmd s c.id fun x =>
    { x with acc := c.acc + 1, pos := 0, buf := [], good := true, bad := x.bad + (if u.bad then 1 else 0),
             cnt := x.cnt + (if u.counts && x.good then 1 else 0) }

/-- The accesses of a unit, one at a time: its reads, then its writes; a port that is down ends the command. -/
def runUnit (s : State) (c : Cmd) (u : CUnit) (endUnit : State → Cmd → State) : State :=
  let nr := match u.src with
    | some a => pieceCount a u.len
    | none => 0
  let nw := match u.dst, u.add with
    | some a, none => pieceCount a u.len
    | some _, some _ => 1
    | none, _ => 0
  if c.pos < nr then
    let p := pieceAt (u.src.getD 0) u.len c.pos
    if !c.skip && accessCut s c p.1 then cutCmd s c else cmdRead s c p
  else if c.pos < nr + nw && !c.skip && accessCut s c (pieceAt (u.dst.getD 0) u.len (c.pos - nr)).1 then cutCmd s c
  else if c.pos < nr + nw then
    let c := if u.src.isNone && c.buf.isEmpty then { c with buf := List.replicate u.len (some 0) } else c
    match u.add with
    | some (fmt, fcs) => cmdAdd s c (u.dst.getD 0) u.len fmt fcs
    | none =>
      let p := pieceAt (u.dst.getD 0) u.len (c.pos - nr)
      cmdWrite s c p (p.1 - u.dst.getD 0)
  else endUnit s c

/-! ### Indexes (R237) -/

/-- The value of an index token. -/
def indexOf (r : List Byte) (c : Cmd) (v : Nat) : Nat :=
  let f := match c.i with
    | .cpyIx _ | .cpyIs _ => fieldAt r 0x24 1
    | _ => fieldAt r 0x21 1
  if f = 9 then v % 2 ^ 32 else v % 2 ^ 64

/-- Take the next index from the channel, which an element whose configuration is frozen grants no credit (07 R127); a token of another tag holds the command
until repair, which gives an index or leaves it out. -/
def takeIndex (s : State) (c : Cmd) (ch : Fin 4) : State :=
  let put (x : Option Nat) : State :=
    modCmd (dequeue s c.l ch) c.id fun y => { y with idx := y.idx ++ [x], skip := false, sub := none, depth := 0 }
  if (getElem s c.l).cfgFrozen || (getPlot s c.l.plot).cfgFrozen then s
  else match headToken s c.l ch with
  | none => s
  | some t =>
    match t.tag with
    | .fault => s
    | .last => modCmd (dequeue s c.l ch) c.id fun x => { x with feed := none, idxEnd := true }
    | .data | .mark | .alt => put (some (indexOf c.record c t.val.toWord.toNat))
    | _ =>
      if c.skip then put none
      else match c.sub with
        | some v => put (some (indexOf c.record c v.toNat))
        | none => cmdFault (modCmd s c.id fun x => { x with phase := .held }) c .operand 0 0 t.val.toWord (some (.command c.id))

/-- Read the next index from IDX: a killed read leaves its index out. -/
def readIndex (s : State) (c : Cmd) : State :=
  let w := match c.i with
    | .cpyIx _ | .cpyIs _ => if fieldAt c.record 0x24 1 = 9 then 4 else 8
    | _ => if fieldAt c.record 0x21 1 = 9 then 4 else 8
  let put (s : State) (x : Option Nat) : State := modCmd s c.id fun y => { y with idx := y.idx ++ [x], skip := false, sub := none, depth := 0 }
  let a := (fieldAt c.record 0x10 8 + w * c.acc) % 2 ^ 64
  if c.skip then put s none
  else if accessCut s c a then cutCmd s c
  else match readVirt s (dieOf c.l.plot) c.ctx a w c.sub with
    | (s, .ok bs) => put s (some (ofBytes bs))
    | (s, .error b) => holdCmd s c b

def usesIndexes : Instr → Bool
  | .cpyIx _ | .cpyIs _ | .gat _ | .sct _ | .sctAdd _ _ => true
  | _ => false

/-! ### `coll` (R242) -/

/-- The members of a group: its size, the issuer's rank and the package numbers. -/
def groupOk (n rank : Nat) : Bool := decide (2 ≤ n) && decide (n ≤ 4096) && decide (rank < n)

/-- Elements that a rank gives, and that it receives. -/
def collSizes (op n count : Nat) : Nat × Nat :=
  match op with
  | 1 => (count, count / n)
  | 2 => (count / n, count)
  | _ => (count, count)

/-- The contribution of another rank: its elements are FREE VALUES, which its package gives (log 14). -/
def peerElem (ctr w rank k : Nat) : Nat := ofBytes ((List.range w).map fun b => Config.peerByte ctr ((rank * 2 ^ 40 + k) * 8 + b))

/-- A fast-mode sum (R242, 16 R299): FREE VALUES pick the two values that are added next, until one is left; fuel is their number. -/
def fastSum (add : Nat → Nat → Nat) (ctr : Nat) : Nat → List Nat → Nat
  | n + 1, x :: y :: xs =>
    let all := x :: y :: xs
    let i := Config.fastPick ctr (2 * n) % all.length
    let rest := all.eraseIdx i
    let j := Config.fastPick ctr (2 * n + 1) % rest.length
    fastSum add ctr n (add (all.getD i 0) (rest.getD j 0) :: rest.eraseIdx j)
  | _, xs => xs.headD 0

/-- A sum of terms: in ascending rank, or in fast mode in any association (R242). -/
def collSum (op : AtomOp) (fcs : Fcs) (w : Nat) (fast : Bool) (ctr : Nat) (xs : List Nat) : Nat :=
  let add (a b : Nat) : Nat := (atomValue op fcs (8 * w) a b).1
  if fast then fastSum add ctr xs.length xs else match xs with
    | [] => 0
    | x :: xs => xs.foldl add x

/-- What DST receives. -/
def collResult (c : Cmd) (fcs : Fcs) (ctr n rank : Nat) (own : List Byte) : List Byte :=
  let r := c.record
  let w := elemBytes (fieldAt r 0x22 1)
  let count := fieldAt r 0x10 8
  let op := (redOp (fieldAt r 0x21 1)).getD .add
  let mine (k : Nat) : Nat := fieldAt own (k * w) w
  let elem (q k : Nat) : Nat := if q = rank then mine k else peerElem ctr w q k
  let reduce (k : Nat) : Nat := collSum op fcs w (fieldAt r 0x23 1 == 1) (ctr + k) ((List.range n).map fun q => elem q k)
  let out : List Nat := match fieldAt r 0x20 1 with
    | 0 => (List.range count).map reduce
    | 1 => (upFrom (rank * (count / n)) (count / n)).map reduce
    | 2 => (List.range count).map fun k => elem (k / (count / n)) (k % (count / n))
    | _ => (List.range count).map fun k => elem (fieldAt r 0x24 4) k
  out.flatMap (bytesOf w)

/-- `coll`: the group descriptor, then SRC, then DST. -/
def runColl (s : State) (c : Cmd) (fcs : Fcs) : State :=
  let r := c.record
  let count := fieldAt r 0x10 8
  let w := elemBytes (fieldAt r 0x22 1)
  let op := fieldAt r 0x20 1
  match c.inl with
  | [] =>
    if c.skip then modCmd s c.id fun x => { x with phase := .done, skip := false }
    else (match readVirt s (dieOf c.l.plot) c.ctx (fieldAt r 0x18 8) 8 c.sub with
    | (s, .error b) => holdCmd s c b
    | (s, .ok g) =>
      let n := fieldAt g 0 4
      let rank := fieldAt g 4 4
      if !groupOk n rank || ((op == 1 || op == 2) && count % n != 0) || (op == 3 && decide (n ≤ fieldAt r 0x24 4)) then
        recordFault s c .operand 0 (fieldAt r 0x18 8) (BitVec.ofNat 64 (fieldAt g 0 8))
      else match readVirt s (dieOf c.l.plot) c.ctx (fieldAt r 0x18 8 + 8) (2 * n) c.sub with
        | (s, .error b) => holdCmd s c b
        | (s, .ok ps) =>
          let pkgs := (List.range n).map fun k => fieldAt ps (2 * k) 2
          if peersUp s pkgs then
            modCmd s c.id fun x => { x with inl := BitVec.ofNat 64 n :: BitVec.ofNat 64 rank :: pkgs.map (BitVec.ofNat 64), sub := none, depth := 0 }
          else cutCmd s c)
  | n :: rank :: _ =>
    let (ns, nd) := collSizes op n.toNat count
    if c.acc = 0 then
      runUnit s c { src := some (fieldAt r 0 8), len := ns * w } fun s c =>
        let ctr := s.sched.freeCtr
        let whole := c.buf.all (·.isSome)
        let out := collResult c fcs ctr n.toNat rank.toNat (c.buf.filterMap id)
        modCmd (modSched s fun x => { x with freeCtr := ctr + count + 1 }) c.id fun x =>
          { x with acc := 1, pos := 0, buf := if whole then out.map some else List.replicate (nd * w) none }
    else
      runUnit s c { dst := some (fieldAt r 8 8), len := nd * w } fun s c =>
        modCmd s c.id fun x => { x with phase := .done, cnt := if x.good then count else 0 }
  | _ => s

/-! ### `ad.pf` (R245) -/

/-- The slices that a command fills: kind and block. -/
def prefetchSlices (d : DirEnt) (a b : Bool) : List (Bool × Nat) :=
  let n (len : Nat) : Nat := (len + sliceSpan d - 1) / sliceSpan d
  if d.rank = 0 then []
  else (if a then (List.range (n d.klen)).map fun k => (false, k) else []) ++ (if b then (List.range (n d.nlen)).map fun k => (true, k) else [])

def runPrefetch (s : State) (c : Cmd) (me : Fin 4) (a b : Bool) : State :=
  let l : Loc := ⟨c.l.plot, 16 + me.val⟩
  let aid := c.a.toNat % 65536
  let tag := c.a.toNat / 65536 % 65536
  match c.ent with
  | none =>
    if c.skip then modCmd s c.id fun x => { x with phase := .done, skip := false }
    else (match readDir none s c.l.plot (getMe s l).dir aid tag c.sub with
    | (s, .bad v) => holdCmd s c v
    | (s, .broken w) => recordFault s c .operand 0 0 w
    | (s, .ok d) => modCmd (modMe s l fun u => { u with dirs := putDir u.dirs d }) c.id fun x => { x with ent := some d, sub := none, depth := 0 })
  | some d =>
    match (prefetchSlices d a b)[c.acc]? with
    | none => modCmd s c.id fun x => { x with phase := .done }
    | some (k, blk) =>
      if c.skip || (findSlice s c.l.plot k aid tag blk).isSome then modCmd s c.id fun x => { x with acc := c.acc + 1, skip := false }
      else if (sliceRoom s c.l.plot (newSlice k aid tag blk (freshId s) [])).isNone then s
      else match readVirt s (dieOf c.l.plot) c.ctx ((if k then d.bbase else d.abase) + 8192 * blk) (sliceBytes d k blk) c.sub with
        | (s, .error v) => holdCmd s c v
        | (s, .ok data) =>
          let xs := (sliceRoom s c.l.plot (newSlice k aid tag blk (freshId s) data)).getD []
          modCmd (bumpId (modPlot s c.l.plot fun p => { p with slices := xs })) c.id fun x => { x with acc := c.acc + 1, cnt := x.cnt + 1, sub := none, depth := 0 }

/-! ### One step of a command -/

/-- `sig` (R244): the write; the interrupt follows it. -/
def runSig (s : State) (c : Cmd) (raise : Bool) (vec : BitVec 10) : State :=
  if c.a.toNat % 8 ≠ 0 ∧ !c.skip ∧ c.sub.isNone then holdCmd s c ⟨.align, 0, c.a.toNat⟩
  else
    let c := { c with buf := (bytesOf 8 c.b.toNat).map some }
    runUnit s c (unitOf c 0) fun s c =>
      let s := if raise && !c.killed then raiseMsix s c.ctx vec.toNat else s
      modCmd s c.id fun x => { x with phase := .done }

/-- A packet enters a tree at its plot's router (16 R294). -/
def enterTree (s : State) (c : Cmd) (fcs : Fcs) : State :=
  let r := c.record
  let fmt := fieldAt r 0x11 1
  let w := if fmt = 0 then 8 else 4
  let bs := c.buf.filterMap id
  match c.parcel, treeOf s c.l.plot (fieldAt r 0x10 1) with
  | some p, some g =>
    let q := getParcel s p
    let bit := (plotY c.l.plot - q.y0 - g.dy) * g.w + (plotX c.l.plot - q.x0 - g.dx)
    let k : TreePkt :=
      { id := freshId s, plot := c.l.plot, tree := g.id, grp := fieldAt r 0x12 2, port := 0, fmt := fmt, fcs := fcs,
        lanes := (List.range (128 / w)).map fun i => fieldAt bs (i * w) w, bits := 2 ^ bit, partial_ := false, mark := false, flags := 0,
        cmd := c.id, res := fieldAt r 8 8, at_ := now s }
    modCmd (bumpId (modParcel s p fun q => { q with treePkts := q.treePkts ++ [k] })) c.id fun x => { x with phase := .wait }
  | _, _ => modCmd s c.id fun x => { x with phase := .done, status := 4 }

/-- The result of a tree at its root: 128 bytes at RES and the bitmap behind them (R241). -/
def runTree (s : State) (c : Cmd) (fcs : Fcs) : State :=
  if c.acc = 0 then
    runUnit s c (unitOf c 0) fun s c => if c.buf.all (·.isSome) then enterTree s c fcs else modCmd s c.id fun x => { x with phase := .done, status := 4 }
  else runUnit s c { dst := some (fieldAt c.record 8 8), len := 192 } fun s c => modCmd s c.id fun x => { x with phase := .done }

/-- The next access of a command that runs. -/
def runCmd (s : State) (c : Cmd) : State :=
  match c.i with
  | .sig _ raise vec => runSig s c raise vec
  | .adPf _ me a b => runPrefetch s c me a b
  | .coll _ fcs => runColl s c fcs
  | .rdcTree _ fcs => runTree s c fcs
  | _ =>
    if usesIndexes c.i && decide (c.idx.length ≤ c.acc) then
      (match c.feed, unitCount c with
      | some ch, _ => takeIndex s c ch
      | none, some n => if n ≤ c.acc then modCmd s c.id fun x => { x with phase := .done } else readIndex s c
      | none, none => s)
    else match unitCount c with
      | some n => if n ≤ c.acc then modCmd s c.id fun x => { x with phase := .done } else runUnit s c (unitOf c c.acc) fun s x => nextUnit s x (unitOf c c.acc)
      | none => runUnit s c (unitOf c c.acc) fun s x => nextUnit s x (unitOf c c.acc)

/-- A copy or a winnow stands between two of its 64-byte items, elements, rows or indexes: an item of `cpy`, which reads all of SRC before it writes (R238),
is a line read or a line written (log 20). -/
def atBoundary (c : Cmd) : Bool :=
  match c.i with
  | .cpy _ => true
  | _ => c.pos == 0 && (!usesIndexes c.i || decide (c.idx.length ≤ c.acc))

/-- The parcel of a command is frozen, or coming to a freeze. -/
def cmdFrozen (s : State) (c : Cmd) : Bool := c.parcel.any fun p => (getParcel s p).frz != .run

/-- The parcel of a command does not let it go on (18 R321): it stops after the item that it is performing. -/
def cmdStops (s : State) (c : Cmd) : Bool := (isCopy c.i || isWinnow c.i) && atBoundary c && cmdFrozen s c

/-- HOME_ACCESS_PERFORM on a command, a `drill.push` apart. -/
def performCmd (s : State) (c : Cmd) : State :=
  if cmdStops s c then s
  else match c.phase with
    | .fetch => fetchRecord s c
    | .run => runCmd s c
    | _ => s

/-- Copy-engine commands that run at once (R211). -/
def engineLoad (s : State) (g : Engine) : Nat := (s.cmds.filter fun c => c.eng == g && c.phase != .queued).length

/-- The ports of a copy engine with a queued command of a parcel that runs, as keys, and the one whose turn it is: round robin, from the port after the
last. -/
def portKey (c : Cmd) : Nat := if c.node.isSome then 0 else locKey c.l + 1
def nextPort (s : State) (die n : Nat) : Option Nat :=
  let ports := (s.cmds.filter fun c => c.eng == .copy die n && c.phase == .queued && !cmdFrozen s c).map portKey
  let last := Tbl.findD (getDie s die).copyLast n 0
  let least (xs : List Nat) : Option Nat := match xs with
    | [] => none
    | x :: xs => some (xs.foldl min x)
  (least (ports.filter fun p => decide (last < p))).orElse fun _ => least ports

/-- ENGINE_ACCEPT_COMMAND (R211): a copy engine takes the oldest command of the port whose turn it is. -/
def acceptCmd (s : State) (c : Cmd) : State :=
  match c.eng, c.phase with
  | .copy die n, .queued =>
    if engineLoad s c.eng < 16 ∧ nextPort s die n = some (portKey c) ∧
        (s.cmds.find? fun x => x.eng == c.eng && x.phase == .queued && portKey x == portKey c).map (·.id) = some c.id then
      modDie (modCmd s c.id fun x => { x with phase := .fetch }) die fun d => { d with copyLast := Tbl.put d.copyLast n (portKey c) }
    else s
  | _, _ => s
def execEngineAcceptCommand (cmd : Nat) (s : State) : Out :=
  match findCmd s cmd with
  | some c => .next (acceptCmd s c)
  | none => .next s

/-- The payload of a completion token (R235). -/
def completionWord (c : Cmd) : Nat :=
  min c.bad 65535 * 2 ^ 48 + c.cnt % 2 ^ 32 * 2 ^ 16 + (if c.killed then 4 else c.status)

end Sys2Proof.Machine
end

