-- ==== Sys2Proof/Machine/Integer.lean ====
section
/-!
DEFINITION. The integer and lane family (spec 09 R151 to R163). Erratum behaviour of a D2 kernel with ERR = 1 follows spec 04 R86.
-/

namespace Sys2Proof.Machine

/-- A lane result through Fit under the instruction's own signedness and saturation (R151). -/
def fitCtl (c : IntCtl) (r : Int) : Nat × Flags := fit c.signed c.sat (laneBits c.w) r

/-- A lane read as signed or unsigned. -/
def ival (c : IntCtl) (n : Nat) : Int := intOf c.signed (laneBits c.w) n

/-- `add` (R152). -/
def specAdd (r : RAct) (c : IntCtl) : FireSpec := specR r fun x => lanes2 c.w x fun a b => fitCtl c (ival c a + ival c b)
def execAdd (r : RAct) (c : IntCtl) (s : State) : Out := runBeat (specAdd r c) s

/-- `sub` (R152). -/
def specSub (r : RAct) (c : IntCtl) : FireSpec := specR r fun x => lanes2 c.w x fun a b => fitCtl c (ival c a - ival c b)
def execSub (r : RAct) (c : IntCtl) (s : State) : Out := runBeat (specSub r c) s

/-- `addi` (R156): one signed 64-bit lane. -/
def specAddi (i : IAct) : FireSpec := specI i fun x =>
  let r := fit true false 64 (signedOf 64 x.a.toWord.toNat + i.imm.toInt)
  okFlags (BitVec.ofNat 64 r.1) r.2
def execAddi (i : IAct) (s : State) : Out := runBeat (specAddi i) s

/-- `mul` (R152). -/
def specMul (r : RAct) (c : IntCtl) : FireSpec := specR r fun x => lanes2 c.w x fun a b => fitCtl c (ival c a * ival c b)
def execMul (r : RAct) (c : IntCtl) (s : State) : Out := runBeat (specMul r c) s

/-- `mulh` (R152). -/
def specMulh (r : RAct) (c : IntCtl) : FireSpec := specR r fun x => lanes2 c.w x fun a b => quiet (wrapTo (laneBits c.w) ((ival c a * ival c b) / 2 ^ laneBits c.w))
def execMulh (r : RAct) (c : IntCtl) (s : State) : Out := runBeat (specMulh r c) s

/-- Lanes of sa, sb and the old dst. -/
def lanes3 (w : LaneW) (x : BeatIn) (f : Nat → Nat → Nat → Nat × Flags) : BeatRes :=
  okLanes (laneBits w) ((List.range (laneCount w)).map fun j =>
    f (laneOf (laneBits w) j x.a.toWord) (laneOf (laneBits w) j x.b.toWord) (laneOf (laneBits w) j x.old))

/-- `mad` (R152: reads its dst). -/
def specMad (r : RAct) (c : IntCtl) : FireSpec := specR3 r fun x => lanes3 c.w x fun a b d => fitCtl c (ival c d + ival c a * ival c b)
def execMad (r : RAct) (c : IntCtl) (s : State) : Out := runBeat (specMad r c) s

/-- The quotient and remainder of a lane with their flags (R153): truncation toward zero, division by zero, and the one signed
overflow, which erratum E2-05 makes 0 without a flag (spec 04 R86). -/
def divLane (c : IntCtl) (err : Bool) (a b : Nat) : (Nat × Flags) × (Nat × Flags) :=
  let w := laneBits c.w
  let x := ival c a
  let y := ival c b
  if b = 0 then ((allOnes w, fDZ), (a, fDZ))
  else if c.signed ∧ x = loBound true w ∧ y = -1 then
    (if err then (0, 0) else (a, fIOV), (0, 0))
  else
    let q := Int.tdiv x y
    ((wrapTo w q, 0), (wrapTo w (x - y * q), 0))

/-- `div` (R153). -/
def specDiv (r : RAct) (c : IntCtl) : FireSpec := specR r fun x => lanes2 c.w x fun a b => (divLane c x.e.err a b).1
def execDiv (r : RAct) (c : IntCtl) (s : State) : Out := runBeat (specDiv r c) s

/-- `rem` (R153). -/
def specRem (r : RAct) (c : IntCtl) : FireSpec := specR r fun x => lanes2 c.w x fun a b => (divLane c x.e.err a b).2
def execRem (r : RAct) (c : IntCtl) (s : State) : Out := runBeat (specRem r c) s

/-- `neg` (R152). -/
def specNeg (r : RAct) (c : IntCtl) : FireSpec := specR r fun x => lanes1 c.w x fun a => fitCtl c (-(ival c a))
def execNeg (r : RAct) (c : IntCtl) (s : State) : Out := runBeat (specNeg r c) s

/-- `abs` (R152: unsigned lanes are returned). -/
def specAbs (r : RAct) (c : IntCtl) : FireSpec := specR r fun x => lanes1 c.w x fun a => if c.signed then fitCtl c ((ival c a).natAbs : Int) else quiet a
def execAbs (r : RAct) (c : IntCtl) (s : State) : Out := runBeat (specAbs r c) s

/-- `min` (R152). -/
def specMin (r : RAct) (c : IntCtl) : FireSpec := specR r fun x => lanes2 c.w x fun a b => quiet (if ival c b < ival c a then b else a)
def execMin (r : RAct) (c : IntCtl) (s : State) : Out := runBeat (specMin r c) s

/-- `max` (R152). -/
def specMax (r : RAct) (c : IntCtl) : FireSpec := specR r fun x => lanes2 c.w x fun a b => quiet (if ival c a < ival c b then b else a)
def execMax (r : RAct) (c : IntCtl) (s : State) : Out := runBeat (specMax r c) s

/-- `and` (R154). -/
def specAnd (r : RAct) (_c : IntCtl) : FireSpec := specR r fun x => okWord (x.a.toWord &&& x.b.toWord)
def execAnd (r : RAct) (c : IntCtl) (s : State) : Out := runBeat (specAnd r c) s

/-- `or` (R154). -/
def specOr (r : RAct) (_c : IntCtl) : FireSpec := specR r fun x => okWord (x.a.toWord ||| x.b.toWord)
def execOr (r : RAct) (c : IntCtl) (s : State) : Out := runBeat (specOr r c) s

/-- `xor` (R154). -/
def specXor (r : RAct) (_c : IntCtl) : FireSpec := specR r fun x => okWord (x.a.toWord ^^^ x.b.toWord)
def execXor (r : RAct) (c : IntCtl) (s : State) : Out := runBeat (specXor r c) s

/-- `andn` (R154). -/
def specAndn (r : RAct) (_c : IntCtl) : FireSpec := specR r fun x => okWord (x.a.toWord &&& ~~~x.b.toWord)
def execAndn (r : RAct) (c : IntCtl) (s : State) : Out := runBeat (specAndn r c) s

/-- `not` (R154). -/
def specNot (r : RAct) (_c : IntCtl) : FireSpec := specR r fun x => okWord (~~~x.a.toWord)
def execNot (r : RAct) (c : IntCtl) (s : State) : Out := runBeat (specNot r c) s

/-- The count of a shift: erratum E2-02 takes it modulo the lane width (spec 04 R86). -/
def shiftCount (w : Nat) (err : Bool) (b : Nat) : Nat := if err then b % w else b

/-- `shl` (R155: Fit of the exact shifted value; a count of w or more of a nonzero lane lies outside every range). -/
def specShl (r : RAct) (c : IntCtl) : FireSpec := specR r fun x => lanes2 c.w x fun a b =>
  let n := shiftCount (laneBits c.w) x.e.err b
  fitCtl c (ival c a * 2 ^ (if 2 * laneBits c.w < n then 2 * laneBits c.w else n))
def execShl (r : RAct) (c : IntCtl) (s : State) : Out := runBeat (specShl r c) s

/-- `shr` (R155). -/
def specShr (r : RAct) (c : IntCtl) : FireSpec := specR r fun x => lanes2 c.w x fun a b =>
  let n := shiftCount (laneBits c.w) x.e.err b
  quiet (if laneBits c.w ≤ n then 0 else a >>> n)
def execShr (r : RAct) (c : IntCtl) (s : State) : Out := runBeat (specShr r c) s

/-- `sar` (R155). -/
def specSar (r : RAct) (c : IntCtl) : FireSpec := specR r fun x => lanes2 c.w x fun a b =>
  let n := shiftCount (laneBits c.w) x.e.err b
  quiet (wrapTo (laneBits c.w) (signedOf (laneBits c.w) a >>> (if laneBits c.w < n then laneBits c.w else n)))
def execSar (r : RAct) (c : IntCtl) (s : State) : Out := runBeat (specSar r c) s

/-- `rot` (R155: left, by the count modulo w). -/
def specRot (r : RAct) (c : IntCtl) : FireSpec := specR r fun x => lanes2 c.w x fun a b =>
  let w := laneBits c.w
  let n := b % w
  quiet ((a <<< n ||| a >>> (w - n)) % 2 ^ w)
def execRot (r : RAct) (c : IntCtl) (s : State) : Out := runBeat (specRot r c) s

/-- `shli` (R156). -/
def specShli (i : IAct) : FireSpec := specI i fun x => okWord (x.a.toWord <<< (i.imm.toNat % 64))
def execShli (i : IAct) (s : State) : Out := runBeat (specShli i) s

/-- `clz` (R157). -/
def specClz (r : RAct) (c : IntCtl) : FireSpec := specR r fun x => lanes1 c.w x fun a => quiet (leadZeros (laneBits c.w) a)
def execClz (r : RAct) (c : IntCtl) (s : State) : Out := runBeat (specClz r c) s

/-- `ctz` (R157). -/
def specCtz (r : RAct) (c : IntCtl) : FireSpec := specR r fun x => lanes1 c.w x fun a => quiet (trailZeros (laneBits c.w) a)
def execCtz (r : RAct) (c : IntCtl) (s : State) : Out := runBeat (specCtz r c) s

/-- `popc` (R157). -/
def specPopc (r : RAct) (c : IntCtl) : FireSpec := specR r fun x => lanes1 c.w x fun a => quiet (popCount (laneBits c.w) a)
def execPopc (r : RAct) (c : IntCtl) (s : State) : Out := runBeat (specPopc r c) s

/-- pos and len of a bit-field word (R157). -/
def fieldPos (b : Word) : Nat := b.toNat % 64
def fieldLen (b : Word) : Nat := min (bitsOf b.toNat 14 8) 64

/-- The field that `bfe` takes out (R157). -/
def extractField (signed : Bool) (a b : Word) : Word :=
  let f := (a.toNat >>> fieldPos b) % 2 ^ fieldLen b
  if signed && decide (0 < fieldLen b) then BitVec.ofInt 64 (signedOf (fieldLen b) f) else BitVec.ofNat 64 f

/-- `bfe` (R157). -/
def specBfe (r : RAct) (c : IntCtl) : FireSpec := specR r fun x => okWord (extractField c.signed x.a.toWord x.b.toWord)
def execBfe (r : RAct) (c : IntCtl) (s : State) : Out := runBeat (specBfe r c) s

/-- `bfi` (R157: reads its dst). -/
def specBfi (r : RAct) (_c : IntCtl) : FireSpec := specR3 r fun x => okWord (insertBits x.old (fieldPos x.b.toWord) (fieldLen x.b.toWord) x.a.toWord.toNat)
def execBfi (r : RAct) (c : IntCtl) (s : State) : Out := runBeat (specBfi r c) s

/-- `ext` (R157). -/
def specExt (r : RAct) (c : IntCtl) : FireSpec := specR r fun x => okWord (BitVec.ofInt 64 (ival c (laneOf (laneBits c.w) 0 x.a.toWord)))
def execExt (r : RAct) (c : IntCtl) (s : State) : Out := runBeat (specExt r c) s

/-- S of `lea` (R157): fm[4:3] = 00, 01, 10, 11 for 8, 4, 2, 1. -/
def leaScale : LaneW → Nat
  | .w64 => 8
  | .w32 => 4
  | .w16 => 2
  | .w8 => 1

/-- `lea` (R157: fm[2] = 1 takes the whole of sb, 0 its low 32 bits). -/
def specLea (r : RAct) (c : IntCtl) : FireSpec := specR r fun x => 
  let y := if c.signed then x.b.toWord.toNat else x.b.toWord.toNat % 2 ^ 32
  okWord (x.a.toWord + BitVec.ofNat 64 (y * leaScale c.w))
def execLea (r : RAct) (c : IntCtl) (s : State) : Out := runBeat (specLea r c) s

/-- A condition on two lanes (R158). -/
def condHolds (c : CmpCtl) (a b : Nat) : Bool :=
  let x := intOf c.signed (laneBits c.w) a
  let y := intOf c.signed (laneBits c.w) b
  match c.cond with
  | .eq => x == y
  | .ne => x != y
  | .lt => decide (x < y)
  | .le => decide (x ≤ y)

/-- A lane of all ones or of zeros. -/
def maskLane (w : Nat) (b : Bool) : Nat × Flags := quiet (if b then allOnes w else 0)

/-- `cmp` (R158). -/
def specCmp (r : RAct) (c : CmpCtl) : FireSpec := specR r fun x => lanes2 c.w x fun a b => maskLane (laneBits c.w) (condHolds c a b)
def execCmp (r : RAct) (c : CmpCtl) (s : State) : Out := runBeat (specCmp r c) s

/-- The predicate that `ccmp` reads and writes. -/
def updPred (u : PUpd) (e : Elem) : Bool :=
  match u with
  | .result k | .one k | .zero k => predOf e k
  | .none => false

/-- `ccmp` (R158: each outcome is ANDed with pK as committed). -/
def specCcmp (r : RAct) (c : CmpCtl) : FireSpec := specR r fun x => lanes2 c.w x fun a b => maskLane (laneBits c.w) (condHolds c a b && updPred r.upd x.e)
def execCcmp (r : RAct) (c : CmpCtl) (s : State) : Out := runBeat (specCcmp r c) s

/-- `iota` (R159). -/
def specIota (r : RAct) (c : IntCtl) : FireSpec := specR r fun x => 
  let a := ival c (laneOf (laneBits c.w) 0 x.a.toWord)
  let b := ival c (laneOf (laneBits c.w) 0 x.b.toWord)
  okLanes (laneBits c.w) ((List.range (laneCount c.w)).map fun (j : Nat) => fitCtl c (a + (j : Int) * b))
def execIota (r : RAct) (c : IntCtl) (s : State) : Out := runBeat (specIota r c) s

/-- `pack` (R159: Fit on the range of the half-width lane). -/
def specPack (r : RAct) (c : IntCtl) : FireSpec := specR r fun x => 
  let w := laneBits c.w
  let n := laneCount c.w
  okLanes (w / 2) ((lanesOf w n x.a.toWord ++ lanesOf w n x.b.toWord).map fun v => fit c.signed c.sat (w / 2) (ival c v))
def execPack (r : RAct) (c : IntCtl) (s : State) : Out := runBeat (specPack r c) s

/-- `unpk` (R159: h = Value(sb)[0] chooses the half). -/
def specUnpk (r : RAct) (c : IntCtl) : FireSpec := specR r fun x => 
  let w := laneBits c.w
  let n := laneCount c.w
  let h := x.b.toWord.toNat % 2
  okLanes (2 * w) ((List.range (n / 2)).map fun j => quiet (wrapTo (2 * w) (ival c (laneOf w (h * (n / 2) + j) x.a.toWord))))
def execUnpk (r : RAct) (c : IntCtl) (s : State) : Out := runBeat (specUnpk r c) s

/-- `shuf` (R159). -/
def specShuf (r : RAct) (c : IntCtl) : FireSpec := specR r fun x => 
  let w := laneBits c.w
  let n := laneCount c.w
  okLanes w ((List.range n).map fun j =>
    let y := laneOf 4 j x.b.toWord
    quiet (if 8 ≤ y then 0 else laneOf w (y % 8 % n) x.a.toWord))
def execShuf (r : RAct) (c : IntCtl) (s : State) : Out := runBeat (specShuf r c) s

/-- `bcast` (R159). -/
def specBcast (r : RAct) (c : IntCtl) : FireSpec := specR r fun x => 
  let w := laneBits c.w
  let n := laneCount c.w
  okLanes w ((List.range n).map fun _ => quiet (laneOf w (x.b.toWord.toNat % 8 % n) x.a.toWord))
def execBcast (r : RAct) (c : IntCtl) (s : State) : Out := runBeat (specBcast r c) s

/-- The sum of a list of integers. -/
def sumInt (xs : List Int) : Int := xs.foldl (· + ·) 0

/-- `vred` (R160: fitted on 64 bits). -/
def specVred (r : RAct) (c : IntCtl) : FireSpec := specR r fun x => 
  let r := fit c.signed c.sat 64
    (sumInt ((lanesOf (laneBits c.w) (laneCount c.w) x.a.toWord).map (ival c)) + intOf c.signed 64 x.b.toWord.toNat)
  okFlags (BitVec.ofNat 64 r.1) r.2
def execVred (r : RAct) (c : IntCtl) (s : State) : Out := runBeat (specVred r c) s

/-- `vscn` (R160: exact prefix sums, each lane fitted alone). -/
def specVscn (r : RAct) (c : IntCtl) : FireSpec := specR r fun x => 
  let w := laneBits c.w
  let b := ival c (laneOf w 0 x.b.toWord)
  let as := (lanesOf w (laneCount c.w) x.a.toWord).map (ival c)
  okLanes w ((List.range (laneCount c.w)).map fun j => fitCtl c (sumInt (as.take (j + 1)) + b))
def execVscn (r : RAct) (c : IntCtl) (s : State) : Out := runBeat (specVscn r c) s

/-- The lanes chosen by a mask, moved down; and lanes taken back to the places of a mask (R161). -/
def filterLanes (w n : Nat) (a : Word) (m : Nat) : Word :=
  wordOfLanes w (((List.range n).filter fun j => m.testBit j).map fun j => laneOf w j a)
def expandLanes (w n : Nat) (a : Word) (m : Nat) : Word :=
  wordOfLanes w ((List.range n).map fun j => if m.testBit j then laneOf w (popCount j m) a else 0)

/-- `filt` (R161: pmode 01 writes whether the mask is nonzero). -/
def specFilt (r : RAct) (c : IntCtl) : FireSpec := specR r fun x => 
  let n := laneCount c.w
  let m := x.b.toWord.toNat % 2 ^ n
  .ok { v := (filterLanes (laneBits c.w) n x.a.toWord m).setWidth 512, pred := m != 0 }
def execFilt (r : RAct) (c : IntCtl) (s : State) : Out := runBeat (specFilt r c) s

/-- `xpnd` (R161). -/
def specXpnd (r : RAct) (c : IntCtl) : FireSpec := specR r fun x => okWord (expandLanes (laneBits c.w) (laneCount c.w) x.a.toWord (x.b.toWord.toNat % 2 ^ laneCount c.w))
def execXpnd (r : RAct) (c : IntCtl) (s : State) : Out := runBeat (specXpnd r c) s

/-- The mask of lanes that are not all zero bits (R162). -/
def nonzeroMask (w n : Nat) (a : Word) : Nat :=
  ((List.range n).map fun j => if laneOf w j a = 0 then 0 else 2 ^ j).foldl (· + ·) 0

/-- `zpack` (R162: counts in c0, masks into the top of c1). -/
def specZpack (r : RAct) (c : IntCtl) : FireSpec := specR r fun x => 
  let n := laneCount c.w
  let m := nonzeroMask (laneBits c.w) n x.a.toWord
  let v := filterLanes (laneBits c.w) n x.a.toWord m
  .ok { v := v.setWidth 512, pred := v.getLsbD 0
        upd := fun e => { e with
          c0 := e.c0 + BitVec.ofNat 64 (popCount n m)
          c1 := (e.c1 >>> n) ||| BitVec.ofNat 64 (m <<< (64 - n)) } }
def execZpack (r : RAct) (c : IntCtl) (s : State) : Out := runBeat (specZpack r c) s

/-- `zunpk` (R162: masks from the bottom of c1). -/
def specZunpk (r : RAct) (c : IntCtl) : FireSpec := specR r fun x => 
  let n := laneCount c.w
  let v := expandLanes (laneBits c.w) n x.a.toWord (x.e.c1.toNat % 2 ^ n)
  .ok { v := v.setWidth 512, pred := v.getLsbD 0, upd := fun e => { e with c1 := e.c1 >>> n } }
def execZunpk (r : RAct) (c : IntCtl) (s : State) : Out := runBeat (specZunpk r c) s

/-- `hash` (R163: sb supplies k, sa supplies x). -/
def specHash (r : RAct) (_c : IntCtl) : FireSpec := specR r fun x => okWord (sowHash x.b.toWord x.a.toWord)
def execHash (r : RAct) (c : IntCtl) (s : State) : Out := runBeat (specHash r c) s

end Sys2Proof.Machine
end

