-- ==== Sys2Proof/Machine/Banks.lean ====
section
/-!
DEFINITION. The banks of the plot store: BANK_GRANT (spec 11 R189 to R191), what a line access does when its bank performs it (13 R215 to
R222), the acknowledgements of asynchronous scratchpad operations (R216), and the direct writes of level-0 tiles (R223, 14 R248).
-/

namespace Sys2Proof.Machine

/-! ### Acknowledgements -/

/-- The header that a buffer records (14 R248): the packet's, or the handle's with KPOS 0 and SG from the first q4n line. -/
def recordHdr (t : Tile) (hdr : Option Beat) (b : OpBuf) : OpBuf :=
  match hdr with
  | some h =>
    let n := h.toNat
    { b with full := true, uses := 0, fmt := bitsOf n 3 0, layout := bitsOf n 5 4, rows := bitsOf n 15 8 + 1, rb := (bitsOf n 21 16 + 1) * 64,
             kpos := bitsOf n 95 64, sg := bitsOf n 63 32, stride := t.rb, qoff := tileData t, broken := none }
  | none =>
    { b with full := true, uses := 0, fmt := t.fmt, layout := t.layout, rows := t.rows, rb := t.rb, kpos := 0,
             sg := if t.fmt = 8 then readNum b.cells (tileData t) 4 else 0, stride := t.rb, qoff := tileData t, broken := none }

/-- An operation whose lines are all issued and performed: its buffer's full bit is set, and its acknowledgement counts the lines; that of a
killed element is discarded (spec 18 R320). -/
def settleAck (s : State) (l : Loc) (op : Nat) : State :=
  match (getSe s l).acks.find? fun a => a.op == op with
  | some a =>
    if a.issued ∧ a.left = 0 then
      let s := modSe s l fun u => { u with acks := u.acks.filter fun x => x.op != op }
      let s := if a.tile.level = 0 then
          modMe s (pairedMe l.plot a.tile.site) (modNode (a.handle % 2 == 1) (modBuf a.tile.base (recordHdr a.tile a.hdr)))
        else s
      if (getElem s l).killed then dropRid s a.rid else postResult s a.rid { tag := .data, val := BitVec.ofNat 512 a.lines }
    else s
  | none => s

def modAck (s : State) (l : Loc) (op : Nat) (f : SpadAck → SpadAck) : State :=
  modSe s l fun u => { u with acks := mapIf (fun a => a.op == op) f u.acks }

/-- A line of a level-0 tile is written at once: no bank takes part (R188). -/
def writeDirect (s : State) (plot : Nat) (t : Tile) (h off : Nat) (bs : List Byte) : State :=
  modMe s (pairedMe plot t.site) (modNode (h % 2 == 1) (modBuf t.base fun b => { b with cells := writeBytes b.cells off bs }))

/-- Write one line of an operation's target: at once at level 0, else through its bank. -/
def writeLine (s : State) (l : Loc) (t : Tile) (h off op : Nat) (act : LineAct) : State :=
  if t.level = 0 then
    let bs : List Byte := match act with
      | .write v => bytesOf 64 v.toNat
      | .writeSg sg => bytesOf 4 sg
      | _ => []
    modAck (writeDirect s l.plot t h off bs) l op fun a => { a with lines := a.lines + 1 }
  else modAck (offerLine s l t h off op act) l op fun a => { a with left := a.left + 1, lines := a.lines + 1 }

/-! ### A line access is performed -/

/-- Lanes of a line under `tile.acc` (R221), with their flags. -/
def accLine (fmt : Nat) (fcs : Fcs) (old new : Nat) : Nat × Flags :=
  let w := if fmt = 0 ∨ fmt = 10 then 64 else 32
  let lane (i : Nat) : Nat × Flags :=
    let a := (old >>> (w * i)) % 2 ^ w
    let b := (new >>> (w * i)) % 2 ^ w
    if fmt = 0 then fpAdd .f64 .rne fcs a b
    else if fmt = 1 then fpAdd .f32 .rne fcs a b
    else
      let r := signedOf w a + signedOf w b
      (wrapTo w r, flagIf (decide (r < loBound true w) || decide (hiBound true w < r)) fIOV)
  let rs := (List.range (512 / w)).map lane
  (joinLanes w (rs.map (·.1)), rs.foldl (fun f r => f ||| r.2) 0)

/-- Bytes arrive for a beat, which fills its entry when it is whole. -/
def gatherBytes (s : State) (l : Loc) (rid : Nat) (part : Nat) : State :=
  match (getSe s l).gathers.find? fun g => g.rid == rid with
  | none => s
  | some g =>
    let g' := { g with left := g.left - 1, data := g.data ||| BitVec.ofNat 512 part }
    if g'.left = 0 then
      let s := modSe s l fun u => { u with gathers := u.gathers.filter fun x => x.rid != rid }
      if (getElem s l).killed then dropRid s rid else fillRid s rid { tag := g.tag, val := g'.data }
    else modSe s l fun u => { u with gathers := mapIf (fun x => x.rid == rid) (fun _ => g') u.gathers }

/-- The entry that an access fills with what it reads, 0 for none. -/
def lineRid : LineAct → Nat
  | .read rid .. => rid
  | _ => 0

/-- The element whose access it is: a matrix element reaches its spill tile through the port of the tile's owner (14 R260). -/
def lineOwner (x : LineReq) : Loc :=
  match x.act with
  | .spill me _ | .readBack me _ => me
  | _ => x.from_

/-- The later accesses of the same element to the same line: they do not overtake it (R191). -/
def followers (s : State) (x : LineReq) : List Nat :=
  (((s.lines.dropWhile fun y => y.id != x.id).drop 1).filter fun y =>
    lineOwner y == lineOwner x && y.plot == x.plot && y.off / 64 == x.off / 64).map (·.id)

/-- An uncorrectable line (spec 11 R195, 19 R330): a FAULT beat stands in place, or the access is held. It is not performed, so it stays in flight
(R189), and what its element has for the line after it leaves the waiting set of the bank until the repair. -/
def faultLine (s : State) (bank : Nat) (x : LineReq) : State :=
  let fs := followers s x
  let s := { s with lines := mapIf (fun y => fs.contains y.id) (fun y => { y with admitted := false }) s.lines }
  let s := modPlot s x.plot fun p => { p with banks := Tbl.alter p.banks bank fun b => { b with wait := b.wait.filter fun n => !fs.contains n } }
  let s := { s with lines := mapIf (fun y => y.id == x.id) (fun y => { y with held := true, admitted := false }) s.lines }
  let o := lineOwner x
  raiseFault s { cls := .memerr, sub := 0, plot := o.plot, site := o.site, addr := x.off, depth := x.depth,
                 flags := if lineRid x.act = 0 then 0 else 1, what := some (.lineToken (lineRid x.act) x.id) }

/-- Whether an access reads its line. -/
def readsLine : LineAct → Bool
  | .write _ | .writeSg _ | .spill .. => false
  | _ => true

/-- An access that meets an uncorrectable line, and that no fill value replaces. -/
def lineFails (s : State) (x : LineReq) : Bool := readsLine x.act && x.sub.isNone && poisoned (getPlot s x.plot).poison x.off 64

/-- The store of a plot with a line written: the line is good again. -/
def storeWrite (s : State) (plot off : Nat) (bs : List Byte) : State :=
  modPlot s plot fun p => { p with store := writeBytes p.store off bs, poison := clearPoison p.poison off bs.length }

/-- One write of an operation is performed. -/
def wroteLine (s : State) (x : LineReq) : State :=
  settleAck (modAck s x.from_ x.op fun a => { a with left := a.left - 1 }) x.from_ x.op

/-- A record of a spill, read (14 R260). -/
def readRecord64 (bs : List Byte) : Prod :=
  ⟨fieldAt bs 26 1 % 16, fieldAt bs 27 1 % 4, signedOf 192 (fieldAt bs 0 24), signedOf 16 (fieldAt bs 24 2)⟩

/-- A lane has one of its spilled records back. -/
def takeBack (bs : List Byte) (ln : Lane) : Lane := { ln with prods := ln.prods ++ [readRecord64 bs], spilled := ln.spilled - 1 }

def setLane (i : Nat) (f : Lane → Lane) (ls : List Lane) : List Lane := ls.mapIdx fun j x => if j = i then f x else x

/-- Perform an access: each is indivisible (R215). The flags of an addition that a bank performs go into `flg` (R221), and trap in no case: 02 R36 does not say
(log 55). -/
def performLine (s : State) (x : LineReq) : State :=
  let line := match x.sub with
    | some v => v.toNat
    | none => readNum (getPlot s x.plot).store x.off 64
  match x.act with
    | .read rid lo n to_ => gatherBytes s x.from_ rid (((line >>> (8 * lo)) % 2 ^ (8 * n)) <<< (8 * to_))
    | .write v => wroteLine (storeWrite s x.plot x.off (bytesOf 64 v.toNat)) x
    | .writeSg sg => wroteLine (storeWrite s x.plot x.off (bytesOf 4 sg)) x
    | .acc fmt fcs v =>
      let (r, f) := accLine fmt fcs line v.toNat
      wroteLine (modElem (storeWrite s x.plot x.off (bytesOf 64 r)) x.from_ fun e => orFlags e f) x
    | .copy n =>
      match (getSe s x.from_).acks.find? fun a => a.op == x.op with
      | none => s
      | some a =>
        if a.tile.level = 0 then
          wroteLine (writeDirect s x.from_.plot a.tile a.handle (64 * n) (bytesOf 64 line)) x
        else offerLine s x.from_ a.tile a.handle (64 * n) x.op (.write (BitVec.ofNat 512 line))
    | .spill _ v => storeWrite s x.plot x.off (bytesOf 64 v.toNat)
    | .readBack me i =>
      modMe s me fun u => { u with fire := u.fire.map fun f => { f with lanes := f.lanes.map (setLane i (takeBack (bytesOf 64 line))) } }

/-! ### One cycle of a bank -/

/-- The accesses of a bank. -/
def bankLines (s : State) (plot bank : Nat) : List LineReq :=
  s.lines.filter fun x => x.plot == plot && bankOf (getPlot s plot).hash x.off == bank && !x.held

def modBank (s : State) (plot bank : Nat) (f : Bank → Bank) : State :=
  modPlot s plot fun p => { p with banks := Tbl.put p.banks bank (f (Tbl.findD p.banks bank {})) }

/-- An earlier access of the same element to the same line is held: a later one does not overtake it (R191). -/
def behindHeld (s : State) (x : LineReq) : Bool :=
  (s.lines.takeWhile fun y => y.id != x.id).any fun y => y.held && lineOwner y == lineOwner x && y.plot == x.plot && y.off / 64 == x.off / 64

/-- Admit the first new access of a port, if the waiting set, the element's retry queue and the in-flight count allow (R191); one that is admitted
again after a fault is in flight already. -/
def admitPort (plot bank : Nat) (s : State) (port : Nat) : State :=
  match (bankLines s plot bank).find? fun x => !x.admitted && x.port == port && !behindHeld s x with
  | none => s
  | some x =>
    if (Tbl.findD (getPlot s plot).banks bank {}).wait.length < 16 ∧ retrying s x.from_ < 16 ∧ (x.counted ∨ lineReady s x.from_ x.handle) then
      let s := { s with lines := mapIf (fun y => y.id == x.id) (fun y => { y with admitted := true, counted := true }) s.lines }
      modBank (if x.counted then s else addInfl s x.hplot x.handle true) plot bank fun b => { b with wait := b.wait ++ [x.id], ptr := (port + 1) % 5 }
    else s

/-- The ports from a pointer on. -/
def portsFrom (n : Nat) : List Nat := (List.range 5).map fun k => (n + k) % 5

/-- BANK_GRANT: a bank admits, grants the access that it admitted earliest, and counts those that it does not grant. -/
def bankStep (s : State) (plot bank : Nat) : State :=
  let s := (portsFrom (Tbl.findD (getPlot s plot).banks bank {}).ptr).foldl (admitPort plot bank) s
  match (Tbl.findD (getPlot s plot).banks bank {}).wait with
  | [] => s
  | id :: rest =>
    let s := modBank s plot bank fun b => { b with wait := rest, conflicts := min (b.conflicts + rest.length) 0xFFFFFFFF }
    match s.lines.find? fun x => x.id == id with
    | none => s
    | some x => if lineFails s x then faultLine s bank x else performLine (addInfl { s with lines := s.lines.filter fun y => y.id != id } x.hplot x.handle false) x
def execBankGrant (plot bank : Nat) (s : State) : Out := .next (bankStep s plot bank)

end Sys2Proof.Machine
end

