-- ==== Sys2Proof/Machine/MatrixSteps.lean ====
section
/-!
DEFINITION. What a matrix element does between firings: OPERAND_PACKET_FILL (spec 14 R248), MMA_STEP and MMA_COMPLETE (14 R257 to R262,
15 R265, R277, R279), the steps of `acc.rd` and `acc.ld` (15 R270, R271), ACCUMULATOR_RELEASE and RELEASE_BEAT (14 R254, 15 R267).
-/

namespace Sys2Proof.Machine

/-! ### OPERAND_PACKET_FILL (14 R248) -/

/-- The header beat of a packet, recorded: one that breaks R194, or holds more than a buffer, is kept as broken. A reserved FMT and a bad S_g are
FORMAT faults here, as R194 has them (log 52). -/
def takeHdr (v : Nat) (b : OpBuf) : OpBuf :=
  let rows := bitsOf v 15 8 + 1
  let rb := (bitsOf v 21 16 + 1) * 64
  let fmt := bitsOf v 3 0
  let scb := bitsOf v 31 24
  let bad := v / 2 ^ 112 != 0 || bitsOf v 23 22 != 0 || bitsOf v 7 6 != 0 || bitsOf v 5 4 == 3 || decide (10 < fmt) ||
    scb != (if fmt = 8 then scaleLines (rows * rb) else 0) || (fmt == 8 && !q4ScaleOk (bitsOf v 63 32)) || decide (8192 < rows * rb)
  { b with fmt := fmt, layout := bitsOf v 5 4, rows := rows, rb := rb, kpos := bitsOf v 95 64, sg := bitsOf v 63 32, scb := scb, stride := rb,
           qoff := 8192, broken := if bad then some (BitVec.ofNat 64 v) else none, cells := [], bad := [], uses := 0, taken := 1 }

/-- The packet has broken R194: its header is what the FORMAT fault reports. -/
def breakBuf (b : OpBuf) : OpBuf := { b with broken := some (b.broken.getD (bufHdr b)), taken := b.taken + 1 }

/-- The line of the next beat of a packet: its scale beats, then its data; none where LAST is due. -/
def nextLine (b : OpBuf) : Option Nat :=
  let i := b.taken - 1
  if i < b.scb then some (b.qoff + 64 + 64 * i) else if i < b.scb + b.rows * b.rb / 64 then some (64 * (i - b.scb)) else none

/-- A buffer takes one beat; `rid` links a FAULT beat to its repair. -/
def takeBeat (tok : Token) (rid : Nat) (b : OpBuf) : OpBuf :=
  if tok.tag = .last then
    let b := if b.taken = 0 ∨ (nextLine b).isSome then breakBuf b else b
    { b with full := true, taken := 0, uses := 0 }
  else if b.taken = 0 then
    (if tok.tag = .hdr then takeHdr tok.val.toNat b
     else breakBuf { b with broken := some tok.val.toWord, cells := [], bad := [] })
  else if b.broken.isSome then breakBuf b
  else match nextLine b with
    | none => breakBuf b
    | some off =>
      if tok.tag = .fault then { b with bad := b.bad ++ [{ off := off, rid := rid }], taken := b.taken + 1 }
      else if tok.tag = .data then { b with cells := writeBytes b.cells off (bytesOf 64 tok.val.toNat), taken := b.taken + 1 }
      else breakBuf b

/-- A FAULT where no line is due waits in the channel for its repair. -/
def beatWaits (tok : Token) (b : OpBuf) : Bool := tok.tag == .fault && (b.taken == 0 || (b.broken.isNone && (nextLine b).isNone))

/-- One beat of a tile packet enters the next buffer of a port-fed node. -/
def operandFill (s : State) (l : Loc) (nodeB : Bool) : State :=
  match portOf (getElem s l) l.plot nodeB with
  | none => s
  | some n =>
    let nd := nodeOf (getMe s l) nodeB
    let b := nd.bufs.getD nd.fill {}
    match headToken s l n, (inPort (getElem s l) n).q.es.head? with
    | some tok, some x =>
      if b.full || beatWaits tok b then s
      else
        let s := dequeue s l n
        modMe s l (modNode nodeB fun nd =>
          let nd := modBuf nd.fill (takeBeat tok x.rid) nd
          if tok.tag = .last then { nd with fill := (nd.fill + 1) % nd.bufs.length } else nd)
    | _, _ => s

/-- A matrix element whose units run: present, its plot started and neither frozen nor ended. -/
def meRuns (s : State) (l : Loc) : Bool :=
  let e := getElem s l
  let p := getPlot s l.plot
  e.present && !e.blocked && !e.killed && !e.dead && !e.cfgFrozen && p.started && !p.cfgFrozen && !plotFrozen s l.plot && !plotEnded s l.plot

def execOperandPacketFill (l : Loc) (nodeB : Bool) (s : State) : Out := .next (if meRuns s l then operandFill s l nodeB else s)

/-! ### The steps of a firing -/

def modFire (s : State) (l : Loc) (f : Firing → Firing) : State := modMe s l fun u => { u with fire := u.fire.map f }

/-- A fault in the middle of a firing: it takes a replay entry and is held at its step (15 R279). -/
def holdMma (s : State) (l : Loc) (f : Firing) (cls : FaultClass) (sub : Nat) (info : Word) : State :=
  let s := modFire s l fun f => { f with held := true }
  holdFiring s l f.slot 0 f.step ((getElem s l).slots[f.slot].setWidth 32) 0 0 0 f.depth { cls := cls, sub := sub, plot := l.plot, info0 := info }

/-- Byte offset of element i of a DENSE tile. -/
def elemByte (b : OpBuf) (i : Nat) : Nat :=
  let h := fmtHalves b.fmt
  let per := b.rb * 2 / h
  (i / per * b.stride * 2 + i % per * h) / 2

/-- Element i of a DENSE tile, or its scale code, lies in a faulted line. -/
def denseBad (b : OpBuf) (i : Nat) : Bool :=
  lineBad b (elemByte b i) || (b.fmt == 8 && (lineBad b b.qoff || lineBad b (b.qoff + 64 + i / 64)))

/-- K positions lo to lo + n − 1 of row r of a tile, of offsets below d, read a faulted line. -/
def rowReadsBad (b : OpBuf) (r d lo n : Nat) : Bool :=
  if b.layout = 0 then (upFrom (r * (b.rb * 2 / fmtHalves b.fmt) + lo) n).any (denseBad b)
  else headBad b r || sparseBad b r d fun k => decide (lo ≤ k) && decide (k < lo + n)

/-- A step that takes K positions lo to lo + n − 1 of a tile's rows reads a faulted line (15 R279); with tb rows are the K positions (R249). -/
def readsBad (b : OpBuf) (tb : Bool) (rows d lo n : Nat) : Bool :=
  !b.bad.isEmpty && (if tb then (upFrom (16 * lo) (16 * n)).any (denseBad b) else (List.range rows).any fun r => rowReadsBad b r d lo n)

/-- The rows of A and columns of B of a firing; none where a sparse row breaks R250. -/
def operandsOf (f : Firing) (geo : MmaGeo) (a b : OpBuf) : Option (List MRow × List MRow) :=
  let rows := (List.range geo.rows).mapM fun i => rowOf a f.x.fcs i geo.d
  let cols := (List.range geo.n).mapM fun n => colOf b f.x.fcs f.x.tb n geo.d
  match rows, cols with
  | some r, some c => some (r, c)
  | _, _ => none

/-- K-step g of the main products (14 R257, R258, R262): one GroupSum for each entry of the output. -/
def mainStep (geo : MmaGeo) (rows cols : List MRow) (g : Nat) (ents : Tbl Acc) : Tbl Acc × Flags :=
  let ks := upFrom (g * geo.g) geo.g
  (rows.zip (List.range rows.length)).foldl (fun st r =>
    (cols.zip (List.range cols.length)).foldl (fun st c =>
      addEntry geo.path st (16 * r.2 + c.2) (groupSum geo.path (ks.map fun k => (r.1.val k, c.1.val k)))) st) (ents, 0)

/-- An infinity or a NaN. -/
def Val.special : Val → Bool
  | .fin .. => false
  | _ => true

def MRow.has (r : MRow) (k : Nat) : Bool :=
  match r.ks with
  | none => true
  | some ks => ks.contains k

/-- Positions that a cell forms in a group, with those that R252 requires. -/
def formedAt (a b : MRow) (k : Nat) : Bool := (a.has k && b.has k) || (a.has k && (a.val k).special) || (b.has k && (b.val k).special)

/-- Cycles of K-step g (14 R261). -/
def stepCost (flow : Flow) (geo : MmaGeo) (rows cols : List MRow) (g : Nat) : Nat :=
  let ks := upFrom (g * geo.g) geo.g
  let dense := rows.all (fun r => r.ks.isNone) && cols.all fun c => c.ks.isNone
  match flow with
  | .outer =>
    let a := if dense then 16 * geo.g
      else (rows.map fun r => (ks.filter fun k => r.has k || cols.any fun c => (c.val k).special).length).foldl (· + ·) 0
    max 1 ((16 * a + geo.rate - 1) / geo.rate)
  | _ =>
    let m := if dense then geo.g
      else (rows.flatMap fun r => cols.map fun c => (ks.filter fun k => formedAt r c k).length).foldl max 0
    max 1 ((256 * m + geo.rate - 1) / geo.rate)

/-- Commit a step: its entries, its flags and `pix`.STEP. -/
def commitStep (s : State) (l : Loc) (f : Firing) (ents : Tbl Acc) (fl : Flags) (f' : Firing → Firing) : State :=
  let nd := nodeAt (getMe s l) f.x.an
  let s := setNode s l f.x.an { nd with ents := ents }
  let s := modFire s l fun x => { f' x with noTrap := false }
  modElem s l fun e => orFlags e fl

/-- The flags of a step that trap (02 R36). -/
def trapsIn (s : State) (l : Loc) (f : Firing) (fl : Flags) : Flags := if f.noTrap then 0 else fl &&& fpmTE (getElem s l).fpm

def showStep (s : State) (l : Loc) (slot : Fin 16) (n : Nat) : State := modElem s l fun e => { e with pix := pixWord n 0 true slot }

/-- A K-step of INNER or OUTER. -/
def gridStep (s : State) (l : Loc) (f : Firing) (geo : MmaGeo) (a b : OpBuf) : State :=
  let lo := f.step * geo.g
  if readsBad a false geo.rows geo.d lo geo.g || readsBad b f.x.tb geo.n geo.d lo geo.g then s
  else match operandsOf f geo a b with
    | none => holdMma s l f .format 0 (bufHdr a)
    | some (rows, cols) =>
      let (ents, fl) := mainStep geo rows cols f.step (nodeAt (getMe s l) f.x.an).ents
      if trapsIn s l f fl ≠ 0 then holdMma s l f .arith 0 ((trapsIn s l f fl).setWidth 64)
      else
        let last := decide (f.steps ≤ f.step + 1)
        let s := commitStep s l f ents fl fun x =>
          { x with step := f.step + 1, pad := last, due := f.due + (if last then 12 else stepCost f.x.flow geo rows cols (f.step + 1)) }
        showStep s l f.slot (f.step + 1)

/-! ### ROW (14 R259, R260) -/

/-- The offsets of the nonzeros of row i that can be told, and whether they are all of them: those of a DENSE row up to its first faulted line, those of
a sparse row once its present offsets are read; none for a row that breaks R250. -/
def laneKs (b : OpBuf) (fcs : Fcs) (geo : MmaGeo) (i : Nat) : Option (List Nat × Bool) :=
  if headBad b i then some ([], false)
  else (rowOf b fcs i geo.d).map fun r =>
    match r.ks with
    | some ks => (ks, true)
    | none =>
      let good := (List.range geo.k).takeWhile fun k => !rowReadsBad b i geo.d k 1
      (good.filter fun k => !(r.val k).isZero, good.length == geo.k)

/-- A product as a merger keeps it; none for an exact zero, and whether it sets NV (02 R37). -/
def rowProduct (a b : Val) (n : Nat) : Option Prod × Bool :=
  if a.isNaN || b.isNaN then (some ⟨n, 3, 0, 0⟩, a.isSNaN || b.isSNaN)
  else match mulVal a b with
    | none => (some ⟨n, 3, 0, 0⟩, true)
    | some (.inf neg) => (some ⟨n, if neg then 2 else 1, 0, 0⟩, false)
    | some (.fin neg m e) => (if m = 0 then none else some ⟨n, 0, sgn neg m, e⟩, false)
    | some (.nan _) => (some ⟨n, 3, 0, 0⟩, false)

/-- The value of a kept product. -/
def prodVal (p : Prod) : Val :=
  match p.x with
  | 0 => .fin (decide (p.s < 0)) p.s.natAbs p.e
  | 1 => .inf false
  | 2 => .inf true
  | _ => .nan true

/-- The tile that the spill handle of an element names (R260). -/
def spillTile (s : State) (l : Loc) : Option Tile :=
  let u := getMe s l
  let t := tileSeen s l.plot u.spillHandle
  if u.spillSite ≠ 0 ∧ t.alloc ∧ t.level = 1 ∧ t.layout = 0 ∧ t.fmt = 10 ∧ t.site = u.spillSite then some t else none

/-- Lines of a lane's run. -/
def spillRun (t : Tile) : Nat := tileData t / 64 / 16

/-- A record of R260. -/
def spillRecord (lane g : Nat) (p : Prod) : List Byte :=
  bytesOf 24 (wrapTo 192 p.s) ++ bytesOf 2 (wrapTo 16 p.e) ++ bytesOf 1 (lane * 16 + p.col) ++ bytesOf 1 p.x ++ bytesOf 4 g ++ bytesOf 32 0

/-- Offer an access to line j of a lane's run through the bank port of the scratchpad element that owns the spill tile (R260). -/
def offerSpill (s : State) (l : Loc) (t : Tile) (i j : Nat) (act : LineAct) : State :=
  offerLine s ⟨l.plot, t.site⟩ t (getMe s l).spillHandle ((i * spillRun t + j) * 64) (freshId s) act

/-- Spill a lane's products (R260): the records go to the lane's next lines. -/
def spillLane (s : State) (l : Loc) (t : Tile) (i : Nat) (ln : Lane) : State :=
  (ln.prods.zip (List.range ln.prods.length)).foldl
    (fun s x => offerSpill s l t i (ln.spilled + x.2) (.spill l (BitVec.ofNat 512 (ofBytes (spillRecord i (ln.group.getD 0) x.1))))) s

/-- Accesses of an element to its spill tile that are not performed. -/
def spillBusy (s : State) (l : Loc) : Bool := s.lines.any fun x => match x.act with
  | .spill me _ | .readBack me _ => me == l
  | _ => false

/-- Read the spilled records of lanes back (R260). -/
def readBackLanes (s : State) (l : Loc) (t : Tile) (lanes : List (Lane × Nat)) : State :=
  lanes.foldl (fun s x => (List.range x.1.spilled).foldl (fun s j => offerSpill s l t x.2 j (.readBack l x.2)) s) s

/-- Close a lane's open group: one GroupSum for each column that has a product. -/
def closeLane (path : MPath) (i : Nat) (ps : List Prod) (nv : Bool) (st : Tbl Acc × Flags) : Tbl Acc × Flags :=
  (List.range 16).foldl (fun st n =>
    match ps.filter fun p => p.col == n with
    | [] => st
    | qs => addEntry path st (16 * i + n) (groupSum path (qs.map fun p => (prodVal p, .fin false 1 0)))) (st.1, st.2 ||| flagIf nv fNV)

/-- Close the lanes that a test picks. -/
def closeLanes (s : State) (l : Loc) (geo : MmaGeo) (an : Fin 4) (lanes : List Lane) (pick : Nat → Lane → Bool) : List Lane × Tbl Acc × Flags :=
  (lanes.zip (List.range lanes.length)).foldl (fun acc x =>
    if pick x.2 x.1 && x.1.group.isSome then
      let (e, f) := closeLane geo.path x.2 x.1.prods x.1.nv acc.2
      (acc.1 ++ [{ x.1 with group := none, prods := [], nv := false }], e, f)
    else (acc.1 ++ [x.1], acc.2)) ([], (nodeAt (getMe s l) an).ents, 0)

/-- The lanes that are active in a lock step, with their offsets. -/
def activeLanes (lanes : List Lane) (step : Nat) : List (Nat × Nat) :=
  (lanes.zip (List.range lanes.length)).filterMap fun x => (x.1.ks[step]?).map fun k => (x.2, k)

/-- Close groups as one commit, once the records that their lanes have spilled are back, or hold the firing. -/
def closeCommit (s : State) (l : Loc) (f : Firing) (geo : MmaGeo) (lanes : List Lane) (pick : Nat → Lane → Bool)
    (f' : List Lane → Firing → Firing) : State :=
  let away := (lanes.zip (List.range lanes.length)).filter fun x => pick x.2 x.1 && x.1.group.isSome && x.1.spilled != 0
  if away.isEmpty then
    let (lanes', ents, fl) := closeLanes s l geo f.x.an lanes pick
    if trapsIn s l f fl ≠ 0 then holdMma s l f .arith 0 ((trapsIn s l f fl).setWidth 64)
    else commitStep s l f ents fl (f' lanes')
  else match spillTile s l with
    | none => holdMma s l f .operand 0 (BitVec.ofNat 64 (getMe s l).spillHandle)
    | some t => modFire (readBackLanes s l t away) l fun x => { x with due := max f.due (now s) + (away.map (·.1.spilled)).sum }

/-- The start of a lock step: the groups that it leaves are closed, and lanes with a row that are not active count idle. -/
def lockStart (s : State) (l : Loc) (f : Firing) (geo : MmaGeo) (lanes : List Lane) : State :=
  let act := activeLanes lanes f.step
  let leaves (i : Nat) (ln : Lane) : Bool := act.any fun x => x.1 == i && ln.group.any fun g => decide (g < x.2 / geo.g)
  let s' := closeCommit s l f geo lanes leaves fun ls x => { x with lanes := some ls, closedStep := true, sent := 0, taken := 0, beats := [] }
  if ((getMe s' l).fire.map (·.closedStep)) = some true then
    modMe s' l fun u => { u with idle := u.idle.mapIdx fun i n =>
      if i < lanes.length ∧ !(act.any fun x => x.1 == i) then min 0xFFFFFFFF (n + 1) else n }
  else s'

/-- Send the index token of the next active lane. -/
def lockSend (s : State) (l : Loc) (f : Firing) (geo : MmaGeo) (i k : Nat) : State :=
  if outFree s l 0 = 0 then s
  else
    let s := enqueue s l 0 { tag := .data, val := BitVec.ofNat 512 k }
    modFire s l fun x => { x with sent := f.sent + 1, lanes := x.lanes.map (setLane i fun ln => { ln with group := some (k / geo.g) }) }

/-- The lock step has taken all its rows. -/
def lockNext (s : State) (l : Loc) (f : Firing) (n : Nat) : State :=
  if f.taken + 1 < n then s
  else showStep (modFire s l fun x => { x with step := f.step + 1, closedStep := false }) l f.slot (f.step + 1)

/-- Insert the products of a gathered row into lane i's merger, spilling first where they do not fit; the wide channel's head, the
row's last beat, is taken with it. -/
def lockInsert (s : State) (l : Loc) (f : Firing) (geo : MmaGeo) (a : OpBuf) (ch : Fin 4) (i k n : Nat) (ln : Lane) (row : Nat) : State :=
  let e := fmtHalves a.fmt * 4
  match rowOf a f.x.fcs i geo.d with
  | none => holdMma s l f .format 0 (bufHdr a)
  | some r =>
    let new := (List.range 16).map fun c => rowProduct (r.val k) (matVal a.fmt f.x.fcs (row >>> (e * c) % 2 ^ e)) c
    let ps := new.filterMap (·.1)
    let nv := new.any (·.2)
    let put (s : State) (ln : Lane) (wait : Nat) : State :=
      let s := modFire (dequeue s l ch) l fun x =>
        { x with taken := f.taken + 1, beats := [], due := max f.due (now s) + wait,
                 lanes := x.lanes.map (setLane i fun _ => { ln with prods := ln.prods ++ ps, nv := ln.nv || nv }) }
      lockNext s l f n
    if ln.prods.length + ps.length ≤ 64 then put s ln 0
    else match spillTile s l with
      | none => holdMma s l f .operand 0 (BitVec.ofNat 64 (getMe s l).spillHandle)
      | some t =>
        if spillRun t < ln.spilled + ln.prods.length then holdMma s l f .overrun 1 0
        else put (spillLane s l t i ln) { ln with prods := [], spilled := ln.spilled + ln.prods.length } ln.prods.length

/-- Take a beat of the next active lane's row. -/
def lockTake (s : State) (l : Loc) (f : Firing) (geo : MmaGeo) (a : OpBuf) (lanes : List Lane) (i k n : Nat) : State :=
  match f.x.sb with
  | .ch ch =>
    (match headToken s l ch with
    | none => s
    | some t =>
      if t.tag = .fault then s
      else if t.tag ≠ .data then holdMma s l f .format 0 (bufHdr a)
      else if f.beats.length + 1 < (fmtHalves a.fmt * 8 + 63) / 64 then modFire (dequeue s l ch) l fun x => { x with beats := f.beats ++ [t.val] }
      else lockInsert s l f geo a ch i k n (lanes.getD i {}) (joinLanes 512 ((f.beats ++ [t.val]).map (·.toNat))))
  | _ => s

/-- The end of a ROW firing: the index LAST, the LAST of sb, and every open group closed. -/
def rowEnd (s : State) (l : Loc) (f : Firing) (geo : MmaGeo) (a : OpBuf) (lanes : List Lane) : State :=
  if !f.lastSent then
    (if outFree s l 0 = 0 then s else modFire (enqueue s l 0 lastToken) l fun x => { x with lastSent := true })
  else if !f.lastTaken then
    (match f.x.sb with
    | .ch ch => (match headToken s l ch with
      | none => s
      | some t =>
        if t.tag = .fault then s
        else if t.tag = .last then modFire (dequeue s l ch) l fun x => { x with lastTaken := true }
        else holdMma s l f .format 0 (bufHdr a))
    | _ => s)
  else closeCommit s l f geo lanes (fun _ _ => true) fun ls x => { x with lanes := some ls, pad := true, due := now s + 12 }

/-- A step of a ROW firing: it waits while a lane's offset or its value lies in a faulted line (15 R279). -/
def rowStep (s : State) (l : Loc) (f : Firing) (geo : MmaGeo) (a : OpBuf) : State :=
  match (List.range geo.rows).mapM (laneKs a f.x.fcs geo) with
  | none => holdMma s l f .format 0 (bufHdr a)
  | some offs =>
    let lanes := (f.lanes.getD (List.replicate geo.rows {})).zipWith (fun ln o => { ln with ks := o.1 }) offs
    let act := activeLanes lanes f.step
    if (offs.any fun o => !o.2 && decide (o.1.length ≤ f.step)) || act.any (fun x => rowReadsBad a x.1 geo.d x.2 1) then s
    else
      let f := { f with lanes := some lanes, steps := (offs.map fun o => o.1.length).foldl max 0 }
      let s := modFire s l fun _ => f
      if f.steps ≤ f.step then rowEnd s l f geo a lanes
      else if !f.closedStep then lockStart s l f geo lanes
      else match act[f.sent]?, act[f.taken]? with
        | some (i, k), _ => lockSend s l f geo i k
        | none, some (i, k) => lockTake s l f geo a lanes i k act.length
        | none, none => s

/-! ### MMA_STEP and MMA_COMPLETE -/

/-- The chunk of row i of a firing (15 R277). -/
def chunkOf (f : Firing) (geo : MmaGeo) (a : OpBuf) (nd : AccNode) (i : Nat) : Chunk :=
  { an := f.x.an, row := i, aid := nd.ids.getD i 0, kpos := a.kpos, g := geo.g, fmt := a.fmt, fcs := f.x.fcs,
    vals := match rowOf a f.x.fcs i geo.d with
      | some r => (List.range geo.k).map r.at_
      | none => [] }

/-- The adapter unit takes the rows of the firing, from the next on; fuel counts the 16 rows. -/
def adapterIntake (l : Loc) (geo : MmaGeo) (a : OpBuf) : Nat → State → State
  | 0, s => s
  | n + 1, s =>
    match (getMe s l).fire with
    | some f =>
      if geo.rows ≤ f.adRow then s
      else match takeRow s l (chunkOf f geo a (nodeAt (getMe s l) f.x.an) f.adRow) with
        | some s => adapterIntake l geo a n (modFire s l fun x => { x with adRow := f.adRow + 1 })
        | none => s
    | none => s

/-- The head buffers of a firing in progress and its shape. -/
def fireGeo (s : State) (l : Loc) (f : Firing) : Option (MmaGeo × OpBuf × OpBuf) :=
  let u := getMe s l
  (mmaGeo f.x (headBuf u.nodeA) (headBuf u.nodeB)).map fun g => (g, headBuf u.nodeA, headBuf u.nodeB)

/-- MMA_STEP: the rows are offered to the adapter unit, and unless its buffer is full, or records of a spill are on their way, the next step is
taken. -/
def mmaStepOn (s : State) (l : Loc) : State :=
  match (getMe s l).fire with
  | none => s
  | some f =>
    if f.held || f.pad || decide (now s < f.due) || spillBusy s l then s
    else match fireGeo s l f with
      | none => s
      | some (geo, a, b) =>
        let ad := f.x.ids != .none && a.bad.isEmpty
        let s := if ad then adapterIntake l geo a 16 s else s
        match (getMe s l).fire with
        | some f =>
          if ad && decide (f.adRow < geo.rows) then s
          else if f.x.flow = .row then rowStep s l f geo a
          else gridStep s l f geo a b
        | none => s
def execMmaStep (l : Loc) (s : State) : Out := .next (if meRuns s l then mmaStepOn s l else s)

/-- The head buffer of a node is freed (14 R248). -/
def freeHead (n : OpNode) : OpNode :=
  { modBuf n.head (fun b => { b with full := false, uses := 0, bad := [], broken := none, taken := 0 }) n with head := (n.head + 1) % n.bufs.length }

/-- A firing that ends frees its buffers (14 R248): B by its use count in OUTER, at once in INNER, and never in ROW. -/
def freeOperands (flow : Flow) (u : MeUnit) : MeUnit :=
  let u := { u with nodeA := freeHead u.nodeA }
  match flow with
  | .row => u
  | .inner => { u with nodeB := freeHead u.nodeB, resident := none }
  | .outer =>
    let n := (headBuf u.nodeB).uses + 1
    if u.reuse ≤ n then { u with nodeB := freeHead u.nodeB, resident := none }
    else { u with nodeB := modBuf u.nodeB.head (fun b => { b with uses := n }) u.nodeB }

/-- The firing's end: a release of a normaliser that its path forbids faults (14 R254). -/
def mmaEnd (s : State) (l : Loc) (f : Firing) : State :=
  let nd := nodeAt (getMe s l) f.x.an
  let ends := nd.count != 0 && nd.f + 1 == nd.count
  if ends && !normOk nd.norm nd.path then holdMma s l f .format 0 0
  else
    let s := modMe s l fun u => freeOperands f.x.flow { u with fire := none }
    let s := setNode s l f.x.an { nd with f := nd.f + 1 }
    let before := getElem s l
    let s := traceFiring (modElem s l fun e => { setPred e f.x.upd ends with pix := 0, firedAt := now s + 1 }) l f.slot before
    if ends then endReduction s l f.x.an (some nd.chan) f.x.fcs true else s

/-- MMA_COMPLETE: every step committed, the fill over, and the adapter unit done with every row. -/
def mmaCompleteOn (s : State) (l : Loc) : State :=
  match (getMe s l).fire with
  | none => s
  | some f =>
    if f.held || !f.pad || decide (now s < f.due) then s
    else match fireGeo s l f with
      | none => s
      | some (geo, a, _) =>
        let s := if f.x.ids != .none && a.bad.isEmpty then adapterIntake l geo a 16 s else s
        match (getMe s l).fire with
        | some f => if f.x.ids != .none && decide (f.adRow < geo.rows) then s else mmaEnd s l f
        | none => s
def execMmaComplete (l : Loc) (s : State) : Out := .next (if meRuns s l then mmaCompleteOn s l else s)

/-! ### Release -/

def execAccumulatorRelease (l : Loc) (an : Fin 4) (s : State) : Out := .next (if meRuns s l then tryRelease s l an else s)

/-- RELEASE_BEAT (14 R254): one beat of a release packet leaves while the output has room. -/
def releaseBeatOn (s : State) (l : Loc) (c : Fin 2) : State :=
  match (outPort (getElem s l) (relPort c)).pkt with
  | [] => s
  | t :: ts =>
    if outRoom s l (relPort c) = 0 then s
    else
      let s := enqueue s l (relPort c) t
      modElem s l fun e => setOut e (relPort c) { outPort e (relPort c) with pkt := ts }
def execReleaseBeat (l : Loc) (wo : Fin 2) (s : State) : Out := .next (if meRuns s l then releaseBeatOn s l wo else s)

/-! ### Steps of `acc.rd` and `acc.ld` -/

def modAccOp (s : State) (l : Loc) (f : AccOp → AccOp) : State := modMe s l fun u => { u with op := u.op.map f }

/-- One token or beat more is done. -/
def accBeat (s : State) (l : Loc) (o : AccOp) (f : AccOp → AccOp) : State :=
  let s := modAccOp s l fun x => f { x with pos := o.pos + 1 }
  modElem s l fun e => { e with pix := pixWord (o.pos + 1) 0 true o.slot, firedAt := now s + 1 }

def endAcc (s : State) (l : Loc) (o : AccOp) : State :=
  let s := modMe s l fun u => { u with op := none }
  let before := getElem s l
  traceFiring (modElem s l fun e => { setPred e o.upd false with pix := 0, firedAt := now s + 1 }) l o.slot before

def holdAcc (s : State) (l : Loc) (o : AccOp) (cls : FaultClass) (info : Word) : State :=
  let s := modAccOp s l fun x => { x with held := true }
  holdFiring s l o.slot 0 o.pos ((getElem s l).slots[o.slot].setWidth 32) 0 0 0 o.depth { cls := cls, plot := l.plot, info0 := info }

/-- The fields of a PSUM pair (14 R256). -/
structure Pair where
  path : Option MPath
  key : Nat
  empty : Bool
  x : Nat
  e : Int
  s : Int
  c : Int

def readPair (a b : Nat) : Pair :=
  let path : Option MPath := match bitsOf a 217 216 with
    | 0 => some .narrow
    | 1 => some .wide
    | 2 => some .integer
    | _ => none
  let w := match path with
    | some p => pathWidth p
    | none => 192
  { path := path, key := 16 * bitsOf a 215 212 + bitsOf a 211 208, empty := bitOf a 207, x := bitsOf a 206 205, e := signedOf 13 (bitsOf a 204 192),
    s := wrapS w (signedOf 192 (a % 2 ^ 192)), c := wrapS w (signedOf 192 (b % 2 ^ 192)) }

/-- The entry of a pair added to a node (02 R42): X, then (e, S), then (e, C). -/
def addPair (path : MPath) (ents : Tbl Acc) (p : Pair) : Tbl Acc × Flags :=
  let x : List GSum := match p.x with
    | 1 => [.inf false]
    | 2 => [.inf true]
    | 3 => [.nan]
    | _ => []
  (x ++ [GSum.fin p.e p.s, GSum.fin p.e p.c]).foldl (fun st g => addEntry path st p.key (g, 0)) (ents, 0)

/-- A pair is added, or faults (15 R271). -/
def takePair (s : State) (l : Loc) (o : AccOp) (ch : Fin 4) (p : Pair) (info : Word) : State :=
  let nd := nodeAt (getMe s l) o.an
  match p.path with
  | none => holdAcc s l o .format info
  | some path =>
    if path = .integer ∧ p.x ≠ 0 then holdAcc s l o .format info
    else if nd.state = .opened ∧ nd.path ≠ path then holdAcc s l o .format info
    else if p.empty then accBeat (dequeue s l ch) l o fun x => { x with first := none, noTrap := false }
    else
      let (ents, f) := addPair path nd.ents p
      let t := if o.noTrap then 0 else f &&& fpmTE (getElem s l).fpm
      if t ≠ 0 then holdAcc s l o .arith (t.setWidth 64)
      else
        let opens := decide (nd.state ≠ .opened)
        let s := setNode s l o.an { nd with ents := ents, state := .opened, path := path }
        let s := modElem s l fun e => { orFlags e f with resv := if opens then e.resv + 1 else e.resv }
        accBeat (dequeue s l ch) l o fun x => { x with first := none, noTrap := false }

/-- The next beat of `acc.ld`: a FAULT beat waits for its repair. -/
def loadStep (s : State) (l : Loc) (o : AccOp) (ch : Fin 4) : State :=
  match headToken s l ch with
  | none => s
  | some t =>
    if t.tag = .fault then s
    else match o.first with
      | none =>
        if t.tag = .last then endAcc (dequeue s l ch) l o
        else if t.tag = .psum then accBeat (dequeue s l ch) l o fun x => { x with first := some t.val }
        else holdAcc s l o .format t.val.toWord
      | some v => if t.tag = .psum then takePair s l o ch (readPair v.toNat t.val.toNat) t.val.toWord else holdAcc s l o .format t.val.toWord

/-- The next token of `acc.rd`. -/
def readStep (s : State) (l : Loc) (o : AccOp) : State :=
  match o.dst, o.todo with
  | .ch n, t :: ts =>
    if outFree s l n = 0 then s
    else
      let s := enqueue s l n t
      if ts.isEmpty then endAcc s l o else accBeat s l o fun x => { x with todo := ts }
  | _, _ => endAcc s l o

/-- One step of a streaming accumulator instruction in progress. -/
def accStep (s : State) (l : Loc) : State :=
  match (getMe s l).op with
  | none => s
  | some o =>
    if o.held then s
    else match o.load, o.sa with
      | true, .ch ch => loadStep s l o ch
      | _, _ => readStep s l o

end Sys2Proof.Machine
end

