-- ==== Sys2Proof/Machine/MatrixOps.lean ====
section
/-!
DEFINITION. The instructions of a matrix element (spec 15 R264 to R273, R278): `mma`, the accumulator instructions, `ad.inv` and the counters.
-/

namespace Sys2Proof.Machine

/-! ### `mma` -/

/-- The channel that brings the adapter ids. -/
def idChan : Ids → Option (Fin 4)
  | .i0 => some 0
  | .i1 => some 1
  | _ => none

/-- Tokens that AdapterIds() dequeues: four ids in each, of at most 16 rows (R265; log 52). -/
def idTokens (rows : Nat) : Nat := (min rows 16 + 3) / 4

/-- The shape that the head buffers of an element give a firing. -/
def headGeo (s : State) (l : Loc) (x : MmaAct) : Option MmaGeo :=
  mmaGeo x (headBuf (getMe s l).nodeA) (headBuf (getMe s l).nodeB)

/-- `mma` is ready beyond its trigger (08 R133, 14 R248, R254, 15 R266): its head buffers full, its node not ending, the tile count open
where it opens the node, the buffer of a release that it would cause empty, the row replay buffer not full, and its ids present. -/
def mmaReady (x : MmaAct) (s : State) (l : Loc) : Bool :=
  let u := getMe s l
  let nd := nodeAt u x.an
  (headBuf u.nodeA).full && (x.flow == .row || (headBuf u.nodeB).full) &&
  (nd.state == .opened || (nd.state == .free && mayOpen (getElem s l))) &&
  (nd.count == 0 || nd.f + 1 != nd.count || (outPort (getElem s l) (relPort nd.chan)).pkt.isEmpty) &&
  decide (u.replay.length < 32) &&
  (match idChan x.ids with
    | some c => srcReady s l (idTokens (headBuf u.nodeA).rows) (.ch c)
    | none => true)

/-- AdapterIds() (R265): one id per row, 0 above the rows. -/
def adapterIds (s : State) (l : Loc) (x : MmaAct) (rows : Nat) : List Nat :=
  match idChan x.ids with
  | some c =>
    let ts := (headTokens s l c).take (idTokens rows)
    (List.range 16).map fun i => if i < rows then laneOf 16 (i % 4) ((ts.getD (i / 4) {}).val.toWord) else 0
  | none => if x.ids = .rows then (getMe s l).rowIds.mapIdx fun i v => if i < rows then v else 0 else []

/-- No row that can be read breaks R250. -/
def sparseOk (b : OpBuf) (n d : Nat) : Bool := b.layout == 0 || (List.range n).all fun r => headBad b r || (sparseKs b r d).isSome

/-- The group scale of a q4n operand is one that R31 allows: a buffer that records a handle's header can hold another. -/
def scaleUsable (b : OpBuf) : Bool := b.fmt != 8 || q4ScaleOk b.sg

/-- The start of a firing (R265): ids dequeued and kept, the node opened, the buffers' move into the cells begun. -/
def startMma (x : MmaAct) (geo : MmaGeo) (ids : List Nat) (l : Loc) (s : State) : State :=
  let c := s.sched.cur
  let s := match idChan x.ids with
    | some ch => modMe ((List.range (idTokens geo.rows)).foldl (fun s _ => dequeue s l ch) s) l fun u => { u with rowIds := ids }
    | none => s
  let u := getMe s l
  let nd := nodeAt u x.an
  let s := if nd.state = .free then
      modElem (setNode s l x.an { nd with state := .opened, path := geo.path, ad := x.ids != .none, ids := ids, closedRows := 0 }) l fun e =>
        { e with resv := e.resv + 1 }
    else s
  let moves : Bool := match x.flow with
    | .inner => u.cells != some x.an
    | .outer => u.resident != some u.nodeB.head
    | .row => false
  let cost : Nat := match x.flow with
    | .row => 1
    | _ =>
      match operandsOf { x := x, slot := c.slot } geo (headBuf u.nodeA) (headBuf u.nodeB) with
      | some (r, cs) => stepCost x.flow geo r cs 0
      | none => 1
  let f : Firing := { x := x, slot := c.slot, steps := geo.k / geo.g, due := now s + (if moves then 16 else 0) + cost - 1, depth := c.depth }
  let s := modMe s l fun u =>
    { u with fire := some f
             cells := match x.flow with
               | .inner => some x.an
               | .outer => none
               | .row => u.cells
             resident := match x.flow with
               | .inner => none
               | .outer => some u.nodeB.head
               | .row => u.resident }
  modElem s l fun e => { e with pix := pixWord 0 0 true c.slot }

/-- `mma` (R264, R265): what is checked before any accumulation, and the firing begun. -/
def specMma (x : MmaAct) : FireSpec :=
  { dst := .none, sa := .zero, sb := .zero, soft := true, ready := mmaReady x
    op := fun i =>
      let u := getMe i.s i.l
      let a := headBuf u.nodeA
      let b := headBuf u.nodeB
      let nd := nodeAt u x.an
      match headGeo i.s i.l x with
      | none => .bad .format 0 (bufHdr a) 0
      | some g =>
        let ids := adapterIds i.s i.l x g.rows
        let ad := x.ids != .none
        if !sparseOk a g.rows g.d || (x.flow != .row && !sparseOk b g.n g.d) then .bad .format 0 (bufHdr a) 0
        else if ad && g.path != .narrow then .bad .format 0 (bufHdr a) 0
        else if nd.state = .opened ∧ nd.path ≠ g.path then .bad .format 0 (bufHdr a) 0
        else if x.flow ≠ .row ∧ !scaleUsable b then badOperand (BitVec.ofNat 64 b.sg)
        else if nd.state = .opened ∧ (nd.ad ≠ ad ∨ (ad ∧ ids.take g.rows ≠ nd.ids.take g.rows)) then
          badOperand (BitVec.ofNat 64 (joinLanes 16 (ids.take 4)))
        else .ok { post := startMma x g ids i.l } }
def execMma (x : MmaAct) (s : State) : Out := runBeat (specMma x) s

/-! ### The accumulator instructions -/

/-- A node that is not ending: every instruction waits for one that is (R267). -/
def nodeRests (an : Fin 4) (s : State) (l : Loc) : Bool := (nodeAt (getMe s l) an).state != .closing

/-- A node as it is when FREE, with its configuration. -/
def clearNode (n : AccNode) : AccNode := { count := n.count, norm := n.norm, chan := n.chan }

/-- `acc.clr` (R269). -/
def specAccClr (x : XAct) : FireSpec :=
  { dst := .none, sa := x.sa, sb := .zero, upd := x.upd, ready := nodeRests x.an
    op := fun i =>
      let nd := nodeAt (getMe i.s i.l) x.an
      .ok { pred := nd.state != .free
            upd := fun e => if nd.state = .opened then { e with resv := e.resv - 1 } else e
            post := fun s => modMe s i.l fun u =>
              { u with accs := u.accs.set x.an (clearNode nd), replay := u.replay.filter fun c => c.an != x.an } } }
def execAccClr (x : XAct) (s : State) : Out := runBeat (specAccClr x) s

/-- The first row and the number of rows that a range word selects (R270). -/
def accRange (w : Word) : Option (Nat × Nat) :=
  let n := w.toNat
  if n / 256 ≠ 0 ∨ 16 ≤ bitsOf n 3 0 + bitsOf n 7 4 then none else some (bitsOf n 3 0, bitsOf n 7 4 + 1)

/-- The tokens of `acc.rd` (R270). -/
def accTokens (nd : AccNode) (an : Fin 4) (rd : Dir) (fcs : Fcs) (dst : Dst) (r0 nr : Nat) : List Token × Flags :=
  match dst with
  | .ch n => if 2 ≤ n.val then packetOf nd an rd fcs r0 nr else narrowOf nd rd fcs r0 nr
  | _ => ([], 0)

/-- `acc.rd` begins, and sends its first token. -/
def startAccRd (x : XAct) (toks : List Token) (l : Loc) (s : State) : State :=
  let c := s.sched.cur
  let s := modMe s l fun u => { u with op := some { slot := c.slot, an := x.an, load := false, sa := x.sa, dst := x.dst, upd := x.upd, todo := toks } }
  accStep (modElem s l fun e => { e with pix := pixWord 0 0 true c.slot }) l

/-- `acc.rd` (R270). -/
def specAccRd (x : XAct) (fcs : Fcs) : FireSpec :=
  { dst := x.dst, sa := x.sa, sb := .zero, async := true, ready := nodeRests x.an
    op := fun i =>
      let nd := nodeAt (getMe i.s i.l) x.an
      match if x.sa.isCh then accRange i.a.toWord else some (0, 16) with
      | none => badOperand i.a.toWord
      | some (r0, nr) =>
        if nd.state ≠ .free ∧ !normOk nd.norm nd.path then .bad .format 0 0 0
        else
          let (toks, f) := accTokens nd x.an (dirOf (fpmRD i.e.fpm)) fcs x.dst r0 nr
          .ok { flags := f, post := startAccRd x toks i.l } }
def execAccRd (x : XAct) (fcs : Fcs) (s : State) : Out := runBeat (specAccRd x fcs) s

/-- `acc.ld` is ready (R267, R271): its node is FREE or OPEN, and a FREE one may be reserved; its stream shows a beat. -/
def accLdReady (x : XAct) (s : State) (l : Loc) : Bool :=
  let nd := nodeAt (getMe s l) x.an
  srcReady s l 1 x.sa && (nd.state == .opened || (nd.state == .free && mayOpen (getElem s l)))

def startAccLd (x : XAct) (l : Loc) (s : State) : State :=
  let c := s.sched.cur
  let s := modMe s l fun u => { u with op := some { slot := c.slot, an := x.an, load := true, sa := x.sa, dst := .none, upd := x.upd } }
  accStep (modElem s l fun e => { e with pix := pixWord 0 0 true c.slot }) l

/-- `acc.ld` (R271): the stream on sa is taken beat by beat. -/
def specAccLd (x : XAct) : FireSpec :=
  { dst := .none, sa := .zero, sb := .zero, soft := true, ready := accLdReady x, op := fun i => .ok { post := startAccLd x i.l } }
def execAccLd (x : XAct) (s : State) : Out := runBeat (specAccLd x) s

/-- The release channel that a destination names; 12 holds the node. -/
def relChan : Dst → Option (Fin 2)
  | .ch n => if n.val = 3 then some 1 else some 0
  | _ => none

/-- The effect of `acc.rel` on its node (R272). -/
def releaseEffect (x : XAct) (fcs : Fcs) (l : Loc) (s : State) : State :=
  let nd := nodeAt (getMe s l) x.an
  match nd.state, relChan x.dst with
  | .opened, d => endReduction s l x.an d fcs true
  | .closed, some ch => endReduction s l x.an (some ch) fcs false
  | _, _ => s

/-- `acc.rel` (R272). -/
def specAccRel (x : XAct) (fcs : Fcs) : FireSpec :=
  { dst := .none, sa := x.sa, sb := .zero, upd := x.upd, ready := nodeRests x.an
    op := fun i =>
      let nd := nodeAt (getMe i.s i.l) x.an
      if nd.state ≠ .free ∧ (relChan x.dst).isSome ∧ !normOk nd.norm nd.path then .bad .format 0 0 0
      else .ok { pred := nd.state == .opened, post := releaseEffect x fcs i.l } }
def execAccRel (x : XAct) (fcs : Fcs) (s : State) : Out := runBeat (specAccRel x fcs) s

/-! ### `ad.inv` and the counters -/

/-- The ids and tags that a selector word of `ad.inv` matches (R278). -/
def invMatches (w : Nat) (aid tag : Nat) : Bool := bitOf w 63 || (aid == bitsOf w 15 0 && (bitOf w 62 || tag == bitsOf w 31 16))

/-- Invalidate slices and directory entries of the plot; a slice that is pinned stays for the rows pinned to it, and a fetch in flight reads the entry
that names its slice again (log 52). The acknowledgement counts the slices, and follows the last of them. -/
def invEffect (dst : Dst) (l : Loc) (w : Nat) (s : State) : State :=
  let (s, rid) := reserveAck s l dst false
  let hit := (getPlot s l.plot).slices.filter fun x => !x.stale && invMatches w x.aid x.tag
  let s := modPlot s l.plot fun p =>
    { p with slices := mapIf (fun x => invMatches w x.aid x.tag) (fun x => { x with stale := true }) p.slices
             fills := mapIf (fun f => invMatches w f.aid f.tag) (fun f => { f with again := true }) p.fills
             invs := if rid = 0 then p.invs else p.invs ++ [⟨rid, hit.length, hit.map (·.id)⟩] }
  settleInvs { s with mes := s.mes.map fun x =>
    if x.1 / 32 = l.plot then (x.1, { x.2 with dirs := x.2.dirs.filter fun d => !invMatches w d.aid d.tag }) else x } l.plot

/-- `ad.inv` (R278). -/
def specAdInv (x : XAct) : FireSpec :=
  { dst := x.dst, sa := x.sa, sb := .zero, upd := x.upd, async := true
    op := fun i =>
      if bitsOf i.a.toWord.toNat 61 32 ≠ 0 then badOperand i.a.toWord
      else .ok { post := invEffect x.dst i.l i.a.toWord.toNat } }
def execAdInv (x : XAct) (s : State) : Out := runBeat (specAdInv x) s

def stateCode : NState → Nat
  | .free => 0
  | .opened => 1
  | .closing => 2
  | .closed => 3

/-- The word of `me.cnt` (R273). -/
def meCntWord (u : MeUnit) (an : Fin 4) : Word :=
  let nd := nodeAt u an
  let deferred := (u.replay.filter fun c => c.an == an).foldl (fun m c => m ||| 2 ^ c.row) 0
  BitVec.ofNat 64 (u.misses % 65536 * 2 ^ 48 + deferred % 65536 * 2 ^ 32 + u.replay.length % 64 * 2 ^ 20 +
    (if nd.ad then 2 ^ 19 else 0) + stateCode nd.state * 2 ^ 16 + min nd.f 0xFFFF)

/-- `me.cnt` (R273). -/
def specMeCnt (x : XAct) : FireSpec :=
  { dst := x.dst, sa := x.sa, sb := .zero, upd := x.upd, op := fun i => okWord (meCntWord (getMe i.s i.l) x.an) }
def execMeCnt (x : XAct) (s : State) : Out := runBeat (specMeCnt x) s

/-- `me.idl` (R273): lane in [3:0], CLR in [8]. -/
def specMeIdl (x : XAct) : FireSpec :=
  { dst := x.dst, sa := x.sa, sb := .zero, upd := x.upd
    op := fun i =>
      let w := i.a.toWord.toNat
      let v := (getMe i.s i.l).idle.getD (w % 16) 0
      if w / 512 ≠ 0 ∨ bitsOf w 7 4 ≠ 0 then badOperand i.a.toWord
      else .ok { v := BitVec.ofNat 512 v, pred := bitOf v 0
                 post := fun s => if bitOf w 8 then modMe s i.l fun u => { u with idle := u.idle.set (w % 16) 0 } else s } }
def execMeIdl (x : XAct) (s : State) : Out := runBeat (specMeIdl x) s

end Sys2Proof.Machine
end

