-- ==== Sys2Proof/Machine/Scratch.lean ====
section
/-!
DEFINITION. The scratchpad instructions (spec 13 R215 to R224, 11 R185 to R195). A streaming instruction's firing starts it; `spadStep` sends
or takes one beat more in each cycle until its beat ends.
-/

namespace Sys2Proof.Machine

/-! ### The tile table (R217) -/

/-- Handles, in tokens and tables. -/
def newRef (h : Nat) (t : Tile) : Word := refWord ⟨false, 0, 0, t.gen, true, h⟩

/-- `tile.new`: what it allocates, if it may. -/
def newTile (s : State) (l : Loc) (w : Word) : Option (Nat × Tile) :=
  match readDesc w with
  | some (h, t) =>
    if !(tileNow s l.plot h).alloc && t.site == l.site && shapeOk s l.plot t then
      (placeTile s l.plot h { t with ring := (tileNow s l.plot h).ring, gen := ((tileNow s l.plot h).gen + 1) % 256 }).map fun t => (h, t)
    else none
  | none => none

/-- `tile.new` (R217). -/
def specTileNew (r : RAct) : FireSpec := specR r fun x =>
  match newTile x.s x.l x.a.toWord with
  | some (h, t) => .ok { v := (newRef h t).setWidth 512, pred := (newRef h t).getLsbD 0, post := fun s => setTile s x.l.plot h t }
  | none => badOperand x.a.toWord
def execTileNew (r : RAct) (s : State) : Out := runBeat (specTileNew r) s

/-- An entry that its owner may change: not a ring's (R185, R192). -/
def ownTile (s : State) (l : Loc) (w : Word) : Option (Ref × Tile) :=
  match useRefIn (tileNow s l.plot) w with
  | some (r, t) => if t.site = l.site ∧ !t.ring then some (r, t) else none
  | none => none

/-- The handle that sa names is idle; a word that names none need not wait. -/
def ownIdle (sa : Src) (s : State) (l : Loc) : Bool :=
  match srcValue s l sa 0 with
  | some v => (match readRef v.toWord with
    | some r => handleIdle s l.plot r.handle
    | none => true)
  | none => true

/-- `tile.free` (R217). -/
def specTileFree (r : RAct) : FireSpec := { specR r fun x =>
  match ownTile x.s x.l x.a.toWord with
  | some (r, t) => .ok { post := fun s => setTile s x.l.plot r.handle { gen := (t.gen + 1) % 256 } }
  | none => badOperand x.a.toWord with ready := ownIdle r.sa }
def execTileFree (r : RAct) (s : State) : Out := runBeat (specTileFree r) s

/-- `tile.shp`: the entry reshaped, if the descriptor may do so (R217). -/
def reshape (s : State) (l : Loc) (h : Nat) (t : Tile) (w : Word) : Option Tile :=
  match readDesc w with
  | some (h', d) =>
    if h' = h ∧ d.site = t.site ∧ d.level = t.level ∧ d.ndx = t.ndx ∧ d.ndy = t.ndy ∧ shapeOk s l.plot d ∧ tileSize d ≤ t.size then
      some { t with fmt := d.fmt, layout := d.layout, rows := d.rows, rb := d.rb, gen := (t.gen + 1) % 256 }
    else none
  | none => none

/-- `tile.shp` (R217). -/
def specTileShp (r : RAct) : FireSpec := { specR r fun x =>
  match ownTile x.s x.l x.a.toWord with
  | some (r, t) =>
    (match reshape x.s x.l r.handle t x.b.toWord with
    | some t' => .ok { v := (newRef r.handle t').setWidth 512, pred := (newRef r.handle t').getLsbD 0
                       post := fun s => setTile s x.l.plot r.handle t' }
    | none => badOperand x.b.toWord)
  | none => badOperand x.a.toWord with ready := ownIdle r.sa }
def execTileShp (r : RAct) (s : State) : Out := runBeat (specTileShp r) s

/-- An entry in the layout of R185. -/
def tileWord (t : Tile) : Word :=
  if !t.alloc then 0
  else BitVec.ofNat 64 (2 ^ 63 + (if t.ring then 2 ^ 62 else 0) + t.level % 4 * 2 ^ 60 + t.fmt % 16 * 2 ^ 56 + t.layout % 4 * 2 ^ 54 +
    (t.rows - 1) % 256 * 2 ^ 46 + (t.rb / 64 - 1) % 64 * 2 ^ 40 + t.site % 32 * 2 ^ 35 + wrapTo 4 t.ndy * 2 ^ 31 + wrapTo 5 t.ndx * 2 ^ 26 +
    t.gen % 256 * 2 ^ 18 + t.infl % 256 * 2 ^ 9)

/-- `tile.qry` (R217): the committed entry. -/
def specTileQry (r : RAct) : FireSpec := specR r fun x =>
  if x.a.toWord.toNat < 256 then okWord (tileWord (tileSeen x.s x.l.plot x.a.toWord.toNat)) else badOperand x.a.toWord
def execTileQry (r : RAct) (s : State) : Out := runBeat (specTileQry r) s

/-! ### Hash and counters (R224) -/

/-- The masks of R190. -/
def maskOk (b : Nat) (m : Nat) : Bool :=
  m % 64 == 0 && bitsOf m 10 6 == 2 ^ b && m / 2 ^ 22 == 0
def masksOk (ms : List Nat) : Bool := ms.length == 5 && (ms.zip (List.range 5)).all fun x => maskOk x.2 x.1

/-- The five mask tokens of a channel; of a re-executed beat the first is the captured one. -/
def maskTokens (x : BeatIn) : Src → List Nat
  | .ch n => x.a.toWord.toNat :: (((headTokens x.s x.l n).take 5).drop 1).map fun t => (payload t).toWord.toNat
  | _ => []

/-- `hash.set` is ready: five tokens, nothing allocated in the store, and no other one in this cycle (R190, R224). -/
def hashReady (sa : Src) (s : State) (l : Loc) : Bool :=
  srcReady s l 5 sa && (usedRuns s l.plot).isEmpty && (getPlot s l.plot).hashAt != now s + 1

/-- `hash.set` (R224): all five tokens are dequeued, the first as any operand is. -/
def specHashSet (r : RAct) : FireSpec := { specR r fun x =>
  let ms := maskTokens x r.sa
  match ms.find? fun m => decide (2 ^ 32 ≤ m) with
  | some m => badOperand (BitVec.ofNat 64 m)
  | none =>
    if masksOk ms then
      .ok { post := fun s =>
        let s := [(), (), (), ()].foldl (fun s _ => dequeueAll s x.l r.sa.chans) s
        modPlot s x.l.plot fun p => { p with hash := ms.map (BitVec.ofNat 32), hashAt := now s + 1 } }
    else badOperand x.a.toWord with ready := hashReady r.sa }
def execHashSet (r : RAct) (s : State) : Out := runBeat (specHashSet r) s

/-- `bank.rd` (R224). -/
def specBankRd (r : RAct) : FireSpec := specR r fun x =>
  if x.a.toWord.toNat < 32 then
    okWord (BitVec.ofNat 64 (Tbl.findD (getPlot x.s x.l.plot).banks x.a.toWord.toNat {}).conflicts)
  else badOperand x.a.toWord
def execBankRd (r : RAct) (s : State) : Out := runBeat (specBankRd r) s

/-- `bank.clr` (R224). -/
def specBankClr (r : RAct) : FireSpec := specR r fun x =>
  let m := x.a.toWord.toNat
  if m < 2 ^ 32 then
    .ok { post := fun s => modPlot s x.l.plot fun p =>
            { p with banks := p.banks.map fun b => (b.1, if bitOf m b.1 then { b.2 with conflicts := 0 } else b.2) } }
  else badOperand x.a.toWord
def execBankClr (r : RAct) (s : State) : Out := runBeat (specBankClr r) s

/-! ### Streaming: one step -/

def modSpad (s : State) (l : Loc) (f : SpadOp → SpadOp) : State := modSe s l fun u => { u with op := u.op.map f }

/-- One more beat is done: `pix`.STEP counts it (R215). -/
def spadBeat (s : State) (l : Loc) (o : SpadOp) (f : SpadOp → SpadOp) : State :=
  let s := modSe s l fun u => { u with op := some (f { o with pos := o.pos + 1 }) }
  modElem s l fun e => { e with pix := pixWord (o.pos + 1) 0 true o.slot, firedAt := now s + 1 }

/-- The predicate update and the tag fields of a streaming instruction. -/
def updOf : Instr → PUpd
  | .tileRd r | .tileWr r | .tileGat r | .tileSct r | .tileAcc r _ => r.upd
  | _ => .none

/-- The beat ends: pmode 10 and 11 apply, and its acknowledgement waits for its writes. -/
def endSpad (s : State) (l : Loc) (o : SpadOp) : State :=
  let before := getElem s l
  let s := traceFiring (modElem s l fun e => { setPred e (updOf o.i) false with pix := 0, firedAt := now s + 1 }) l o.slot before
  settleAck (modAck (modSe s l fun u => { u with op := none }) l o.op fun a => { a with issued := true }) l o.op

/-- A fault in the middle of a stream: the firing takes a replay entry, its beats so far stand (R219, R221, 18 R318). -/
def faultSpad (s : State) (l : Loc) (o : SpadOp) (cls : FaultClass) (info : Word) : State :=
  let s := modSe s l fun u => { u with op := some { o with held := true } }
  holdFiring s l o.slot 0 o.pos ((getElem s l).slots[o.slot].setWidth 32) o.a o.b 0 o.depth { cls := cls, plot := l.plot, info0 := info }

/-- Send one beat whose bytes come from line accesses: parts of (line offset, first byte, bytes, place in the beat). -/
def sendParts (s : State) (l : Loc) (o : SpadOp) (n : Fin 4) (tag : Tag) (base : Beat) (parts : List (Nat × Nat × Nat × Nat)) : State :=
  let rid := freshId s
  let s := pushOut (bumpId s) l n { rid := rid, since := now s + 1 }
  let s := modSe s l fun u => { u with gathers := u.gathers ++ [{ rid := rid, tag := tag, left := parts.length, data := base }] }
  parts.foldl (fun s p => offerLine s l o.tile o.handle p.1 o.op (.read rid p.2.1 p.2.2.1 p.2.2.2)) s

/-- The fields of a range word (R218). -/
structure Range where
  kb : Nat
  nc : Nat
  c0 : Nat
  nr : Nat
  r0 : Nat
  deriving DecidableEq, Repr

/-- The range that `tile.rd` sends: the word's, or the whole tile. -/
def rangeOf (t : Tile) : Option Word → Range
  | some w => let n := w.toNat
              ⟨bitsOf n 63 32, bitsOf n 27 22, bitsOf n 21 16, bitsOf n 15 8, bitsOf n 7 0⟩
  | none => ⟨0, t.rb / 64 - 1, 0, t.rows - 1, 0⟩

def rangeOk (t : Tile) (w : Word) : Bool :=
  let g := rangeOf t (some w)
  bitsOf w.toNat 31 28 == 0 && decide (g.r0 + g.nr < t.rows) && decide (g.c0 + g.nc < t.rb / 64) &&
  (t.fmt != 8 || (g.c0 == 0 && g.nc + 1 == t.rb / 64))

/-- Scale beats of a packet of rows × row bytes (R194). -/
def packetScb (fmt rows rb : Nat) : Nat := if fmt = 8 then scaleLines (rows * rb) else 0

/-- The header of a packet (R194, R218), S_g apart. -/
def packetHdr (t : Tile) (h : Nat) (g : Range) : Nat :=
  let kpos := (g.kb + g.c0 * 128 / fmtHalves t.fmt) % 2 ^ 32
  t.fmt + t.layout * 2 ^ 4 + g.nr * 2 ^ 8 + g.nc * 2 ^ 16 + packetScb t.fmt (g.nr + 1) ((g.nc + 1) * 64) * 2 ^ 24 + kpos * 2 ^ 64 +
  h * 2 ^ 96 + t.gen * 2 ^ 104

/-- The parts of scale beat b: codes of consecutive blocks, from block ROW0 × 2 × (RB + 1) on, which may lie in two lines (R218). -/
def scaleParts (t : Tile) (g : Range) (b : Nat) : List (Nat × Nat × Nat × Nat) :=
  let start := g.r0 * (t.rb / 32) + 64 * b
  let n := min 64 ((g.nr + 1) * (t.rb / 32) - 64 * b)
  let n1 := min n (64 - start % 64)
  let off := tileData t + 64 + start / 64 * 64
  (off, start % 64, n1, 0) :: (if n1 < n then [(off + 64, 0, n - n1, n1)] else [])

/-- The one output of a streaming instruction. -/
def wideDst : Instr → Fin 4
  | .tileRd r | .tileGat r => (match r.dst with
    | .ch n => n
    | _ => 2)
  | _ => 2

/-- The channel of a source. -/
def chanOf : Src → Fin 4
  | .ch n => n
  | _ => 0

/-- The next beat of `tile.rd` (R218). -/
def rdStep (s : State) (l : Loc) (o : SpadOp) : State :=
  let n := wideDst o.i
  let t := o.tile
  let g := rangeOf t o.range
  let scb := packetScb t.fmt (g.nr + 1) ((g.nc + 1) * 64)
  let data := (g.nr + 1) * (g.nc + 1)
  if outFree s l n = 0 then s
  else if o.pos = 0 ∧ t.fmt ≠ 8 then
    spadBeat (enqueue s l n { tag := .hdr, val := BitVec.ofNat 512 (packetHdr t o.handle g) }) l o id
  else if o.pos = 1 + scb + data then endSpad (enqueue s l n { tag := .last, val := 0 }) l o
  else if !lineReady s l o.handle || offering s l o.op then s
  else
    let s :=
      if o.pos = 0 then sendParts s l o n .hdr (BitVec.ofNat 512 (packetHdr t o.handle g)) [(tileData t, 0, 4, 4)]
      else if o.pos ≤ scb then sendParts s l o n .data 0 (scaleParts t g (o.pos - 1))
      else
        let i := o.pos - 1 - scb
        sendParts s l o n .data 0 [((g.r0 + i / (g.nc + 1)) * t.rb + (g.c0 + i % (g.nc + 1)) * 64, 0, 64, 0)]
    spadBeat s l o id

/-- A token that a stream takes: none where the channel is empty, or where a FAULT stalls it (R219). -/
def streamHead (s : State) (l : Loc) (n : Fin 4) : Option Token :=
  match headToken s l n with
  | some t => if t.tag = .fault then none else some t
  | none => none

/-- The next beat of `tile.gat` (R220): the row in hand, or the next index token, whose value is the entry's in a beat that is re-executed (18 R317). -/
def gatStep (s : State) (l : Loc) (o : SpadOp) (sb : Src) : State :=
  let n := wideDst o.i
  let ch := chanOf sb
  let rowBeat (s : State) (r c : Nat) : State :=
    let s := sendParts s l o n .data 0 [(r * o.tile.rb + 64 * c, 0, 64, 0)]
    spadBeat s l o fun o =>
      if (c + 1) * 64 = o.tile.rb then { o with row := none, col := 0, given := none } else { o with row := some r, col := c + 1, given := none }
  if outFree s l n = 0 then s
  else if o.drain then
    spadBeat (enqueue (dequeue s l ch) l n { tag := .data, val := (o.given.getD 0).setWidth 512 }) l o fun o => { o with drain := false, given := none }
  else match o.row with
    | some r => if !lineReady s l o.handle || offering s l o.op then s else rowBeat s r o.col
    | none =>
      match streamHead s l ch with
      | none => s
      | some t =>
        let v := o.given.getD t.val.toWord
        if t.tag = .last then endSpad (enqueue (dequeue s l ch) l n { tag := .last, val := 0 }) l o
        else if (t.tag = .data ∨ t.tag = .mark ∨ t.tag = .alt) ∧ v.toNat < min 65536 o.tile.rows then
          (if !lineReady s l o.handle || offering s l o.op then s else rowBeat (dequeue s l ch) v.toNat 0)
        else faultSpad s l { o with b := v } .operand v

/-- A header that breaks R194: a reserved FMT and a bad S_g too (log 52). -/
def hdrBroken (h : Nat) : Bool :=
  let fmt := bitsOf h 3 0
  let rows := bitsOf h 15 8 + 1
  let rb := (bitsOf h 21 16 + 1) * 64
  h / 2 ^ 112 != 0 || bitsOf h 23 22 != 0 || bitsOf h 7 6 != 0 || bitsOf h 5 4 == 3 || decide (10 < fmt) ||
  bitsOf h 31 24 != packetScb fmt rows rb || (fmt == 8 && !q4ScaleOk (bitsOf h 63 32))

/-- A header that a handle takes (R219). -/
def hdrFits (t : Tile) (h : Nat) : Bool :=
  !hdrBroken h && bitsOf h 3 0 == t.fmt && bitsOf h 5 4 == t.layout && decide (bitsOf h 15 8 + 1 ≤ t.rows) &&
  decide ((bitsOf h 21 16 + 1) * 64 ≤ t.rb)

/-- The next beat of `tile.wr` (R219). -/
def wrStep (s : State) (l : Loc) (o : SpadOp) (sb : Src) : State :=
  let ch := chanOf sb
  let t := o.tile
  match streamHead s l ch with
  | none => s
  | some k =>
    let v := k.val.toNat
    if o.drain then (if k.tag = .last then endSpad (dequeue s l ch) l o else spadBeat (dequeue s l ch) l o id)
    else if o.pos = 0 then
      (if k.tag = .hdr ∧ hdrFits t v then
        if t.fmt = 8 ∧ t.level ≠ 0 ∧ (!lineReady s l o.handle || offering s l o.op) then s
        else
          let s := dequeue s l ch
          let s := if t.fmt = 8 then writeLine s l t o.handle (tileData t) o.op (.writeSg (bitsOf v 63 32)) else s
          spadBeat (modAck s l o.op fun a => { a with hdr := some k.val }) l o fun o => { o with hdr := k.val }
      else faultSpad s l o .format k.val.toWord)
    else
      let h := o.hdr.toNat
      let scb := bitsOf h 31 24
      let nrb := bitsOf h 21 16 + 1
      let total := scb + (bitsOf h 15 8 + 1) * nrb
      let i := o.pos - 1
      if i = total then (if k.tag = .last then endSpad (dequeue s l ch) l o else faultSpad s l o .format o.hdr.toWord)
      else if k.tag ≠ .data then faultSpad s l o .format o.hdr.toWord
      else if t.level ≠ 0 ∧ (!lineReady s l o.handle || offering s l o.op) then s
      else
        let off := if i < scb then tileData t + 64 + 64 * i else (i - scb) / nrb * t.rb + (i - scb) % nrb * 64
        spadBeat (writeLine (dequeue s l ch) l t o.handle off o.op (.write k.val)) l o id

/-- The next beat of `tile.sct` or `tile.acc` (R221). -/
def rowsStep (s : State) (l : Loc) (o : SpadOp) (sb : Src) (fcs : Option Fcs) : State :=
  let ch := chanOf sb
  let t := o.tile
  match streamHead s l ch with
  | none => s
  | some k =>
    if o.drain then (if k.tag = .last then endSpad (dequeue s l ch) l o else spadBeat (dequeue s l ch) l o id)
    else match o.row with
      | none =>
        if k.tag = .last then endSpad (dequeue s l ch) l o
        else if k.tag = .mark ∧ k.val.toNat % 65536 < t.rows then
          spadBeat (dequeue s l ch) l o fun o => { o with row := some (k.val.toNat % 65536), col := 0 }
        else faultSpad s l o .operand k.val.toWord
      | some r =>
        if k.tag ≠ .data then faultSpad s l o .operand k.val.toWord
        else if t.level ≠ 0 ∧ (!lineReady s l o.handle || offering s l o.op) then s
        else
          let act : LineAct := match fcs with
            | some f => .acc t.fmt f k.val
            | none => .write k.val
          let s := writeLine (dequeue s l ch) l t o.handle (r * t.rb + 64 * o.col) o.op act
          spadBeat s l o fun o => if (o.col + 1) * 64 = t.rb then { o with row := none, col := 0 } else { o with col := o.col + 1 }

/-- One step of a streaming instruction in progress. -/
def spadStep (s : State) (l : Loc) : State :=
  match (getSe s l).op with
  | none => s
  | some o =>
    if o.held then s
    else match o.i with
      | .tileRd _ => rdStep s l o
      | .tileWr r => wrStep s l o r.sb
      | .tileGat r => gatStep s l o r.sb
      | .tileSct r => rowsStep s l o r.sb none
      | .tileAcc r fcs => rowsStep s l o r.sb (some fcs)
      | _ => s

/-! ### Streaming: the firing -/

/-- Start a streaming instruction: its first beat belongs to the firing. An acknowledgement is reserved where it has a narrow dst. -/
def startSpad (i : Instr) (dst : Dst) (ack : Bool) (x : BeatIn) (r : Ref) (t : Tile) (range : Option Word) (s : State) : State :=
  let c := s.sched.cur
  let (s, rid) := if ack then reserveAck s x.l dst false else (s, 0)
  let op := freshId s
  let a : SpadAck := { op := op, l := x.l, rid := rid, left := 0, lines := 0, issued := false, tile := t, handle := r.handle }
  let o : SpadOp := { i := i, slot := c.slot, op := op, handle := r.handle, tile := t, range := range, a := x.a.toWord, b := range.getD 0, given := c.cap.map (·.2.1) }
  let s := modSe (bumpId s) x.l fun u => { u with op := some o, acks := if ack then u.acks ++ [a] else u.acks }
  spadStep (modElem s x.l fun e => { e with pix := pixWord 0 0 true c.slot }) x.l

/-- The reference that sa shows allows a line access; one that faults need not wait (R215). -/
def refReady (sa : Src) (s : State) (l : Loc) : Bool :=
  match srcValue s l sa 0 with
  | some v => (match useRef s l.plot v.toWord with
    | some (r, _) => lineReady s l r.handle
    | none => true)
  | none => true

/-- The buffer of a level-0 tile can be written (R223). -/
def bufferEmpty (sa : Src) (s : State) (l : Loc) : Bool :=
  match srcValue s l sa 0 with
  | some v => (match useRef s l.plot v.toWord with
    | some (r, t) =>
      t.level != 0 ||
      (match (nodeOf (getMe s (pairedMe l.plot t.site)) (r.handle % 2 == 1)).bufs[t.base]? with
        | some b => !b.full
        | none => true)
    | none => true)
  | none => true

def writeReady (sa : Src) (s : State) (l : Loc) : Bool := refReady sa s l && bufferEmpty sa s l

/-- The description of a streaming instruction: `ok` is what it asks of the tile. The tokens that it dequeues as operands are those of sa and,
where `both`, of sb; the stream on sb is taken beat by beat. -/
def specSpad (i : Instr) (r : RAct) (ack both : Bool) (ready : State → Loc → Bool) (ok : Tile → Bool) (range : BeatIn → Option Word) : FireSpec :=
  { dst := r.dst, sa := r.sa, sb := if both then r.sb else .zero, async := true
    ready := fun s l => ready s l && (both || srcReady s l 1 r.sb)
    op := fun x =>
      match useRef x.s x.l.plot x.a.toWord with
      | none => badOperand x.a.toWord
      | some (f, t) =>
        if !ok t then badOperand x.a.toWord
        else match range x with
          | some w => if rangeOk t w then .ok { post := startSpad i r.dst ack x f t (some w) } else badOperand w
          | none => .ok { post := startSpad i r.dst ack x f t none } }

/-- `tile.rd` (R218, R223). -/
def specTileRd (r : RAct) : FireSpec :=
  specSpad (.tileRd r) r false true (refReady r.sa) (fun t => t.level != 0) fun x => if r.sb.isCh then some x.b.toWord else none
def execTileRd (r : RAct) (s : State) : Out := runBeat (specTileRd r) s

/-- `tile.wr` (R219). -/
def specTileWr (r : RAct) : FireSpec := specSpad (.tileWr r) r true false (writeReady r.sa) (fun _ => true) fun _ => none
def execTileWr (r : RAct) (s : State) : Out := runBeat (specTileWr r) s

/-- `tile.gat` (R220, R223). -/
def specTileGat (r : RAct) : FireSpec :=
  { specSpad (.tileGat r) r false false (refReady r.sa) (fun t => t.level != 0) fun _ => none with stream := some r.sb }
def execTileGat (r : RAct) (s : State) : Out := runBeat (specTileGat r) s

/-- `tile.sct` (R221). -/
def specTileSct (r : RAct) : FireSpec := specSpad (.tileSct r) r true false (writeReady r.sa) (fun _ => true) fun _ => none
def execTileSct (r : RAct) (s : State) : Out := runBeat (specTileSct r) s

/-- Formats that `tile.acc` adds in (R221). -/
def accFmt (n : Nat) : Bool := n == 0 || n == 1 || n == 9 || n == 10

/-- `tile.acc` (R221, R223). -/
def specTileAcc (r : RAct) (fcs : Fcs) : FireSpec :=
  specSpad (.tileAcc r fcs) r true false (refReady r.sa) (fun t => t.level != 0 && accFmt t.fmt) fun _ => none
def execTileAcc (r : RAct) (fcs : Fcs) (s : State) : Out := runBeat (specTileAcc r fcs) s

/-! ### Fill and copy (R222) -/

/-- Start an asynchronous operation over n lines of a target tile: `each` writes, or reads for, one of them. -/
def startLines (dst : Dst) (x : BeatIn) (h : Nat) (t : Tile) (n : Nat) (direct : Bool) (each : State → Nat → Nat → State) (s : State) : State :=
  let (s, rid) := reserveAck s x.l dst false
  let op := freshId s
  let a : SpadAck := { op := op, l := x.l, rid := rid, left := if direct then 0 else n, lines := n, issued := true, tile := t, handle := h }
  let s := modSe (bumpId s) x.l fun u => { u with acks := u.acks ++ [a] }
  settleAck ((List.range n).foldl (fun s k => each s op k) s) x.l op

/-- `tile.fil` (R222). -/
def fillEffect (dst : Dst) (x : BeatIn) (r : Ref) (t : Tile) : State → State :=
  let v := splat x.b.toWord
  startLines dst x r.handle t (tileData t / 64) (t.level == 0) fun s op k =>
    if t.level = 0 then writeDirect s x.l.plot t r.handle (64 * k) (bytesOf 64 v.toNat) else offerLine s x.l t r.handle (64 * k) op (.write v)
def specTileFil (r : RAct) : FireSpec :=
  { dst := r.dst, sa := r.sa, sb := r.sb, upd := r.upd, async := true, ready := writeReady r.sa
    op := fun x =>
      match useRef x.s x.l.plot x.a.toWord with
      | some (f, t) => .ok { post := fillEffect r.dst x f t }
      | none => badOperand x.a.toWord }
def execTileFil (r : RAct) (s : State) : Out := runBeat (specTileFil r) s

/-- The lines that `tile.cpy` copies: the data lines, and the q4n lines where both tiles have them. -/
def copyLines (a b : Tile) : Nat := (if a.fmt = 8 ∧ b.fmt = 8 then tileSize a else tileData a) / 64

/-- `tile.cpy` (R222): onto itself it writes nothing. -/
def copyEffect (dst : Dst) (x : BeatIn) (ra : Ref) (ta : Tile) (rb : Ref) (tb : Tile) (s : State) : State :=
  if ra.handle = rb.handle then
    let (s, rid) := reserveAck s x.l dst false
    postResult s rid {}
  else startLines dst x rb.handle tb (copyLines ta tb) false (fun s op k => offerLine s x.l ta ra.handle (64 * k) op (.copy k)) s
def specTileCpy (r : RAct) : FireSpec :=
  { dst := r.dst, sa := r.sa, sb := r.sb, upd := r.upd, async := true
    ready := fun s l => refReady r.sa s l && refReady r.sb s l && bufferEmpty r.sb s l
    op := fun x =>
      match useRef x.s x.l.plot x.a.toWord, useRef x.s x.l.plot x.b.toWord with
      | some (f, t), some (g, u) =>
        if t.level = 0 then badOperand x.a.toWord
        else if tileData t ≠ tileData u then badOperand x.b.toWord
        else .ok { post := copyEffect r.dst x f t g u }
      | none, _ => badOperand x.a.toWord
      | _, none => badOperand x.b.toWord }
def execTileCpy (r : RAct) (s : State) : Out := runBeat (specTileCpy r) s

end Sys2Proof.Machine
end

