-- ==== Sys2Proof/Machine/Transcend.lean ====
section
/-!
DEFINITION. The exact values of the special functions (spec 10 R183), as enclosures fine enough to round. A positive value is given
as `(m, e, sticky)`: it is m × 2^e when sticky is false, and lies strictly between m × 2^e and (m + 1) × 2^e when sticky is true.
The series run in fixed point with `fixN` fraction bits.
-/

namespace Sys2Proof.Machine

/-- A positive real enclosed from below (see the file's head). -/
structure Encl where
  m : Nat
  e : Int
  sticky : Bool
  deriving DecidableEq, Repr

/-- A dyadic stand-in that rounds as the enclosed value does: a sticky bit appended below. -/
def Encl.toVal (neg : Bool) (x : Encl) : Val := if x.sticky then .fin neg (2 * x.m + 1) (x.e - 1) else .fin neg x.m x.e

/-- Fraction bits of the fixed-point series. -/
def fixN : Nat := 320

/-- A fixed-point number with its lowest 16 bits given up to the error of the series. -/
def enclOfFix (v : Nat) (e : Int) : Encl := ⟨v >>> 16, e + 16 - fixN, true⟩

/-- Integer square root by bits, from bit n − 1 down. -/
def isqrtBits : Nat → Nat → Nat → Nat
  | 0, _, r => r
  | n + 1, x, r => let t := r + 2 ^ n; isqrtBits n x (if t * t ≤ x then t else r)

def isqrt (x : Nat) : Nat := isqrtBits (Nat.log2 x / 2 + 1) x 0

/-- A quotient to at least 128 bits (spec 10 R183: `frcp`, `fdiv` are correctly rounded). -/
def divEncl (m : Nat) (e : Int) (m' : Nat) (e' : Int) : Encl :=
  let k := 128 + Nat.log2 m' + 1
  let num := m <<< k
  ⟨num / m', e - e' - k, num % m' != 0⟩

/-- A square root to at least 128 bits. -/
def sqrtEncl (m : Nat) (e : Int) : Encl :=
  let odd := e % 2 != 0
  let m1 := (if odd then 2 * m else m) <<< 256
  let e1 := ((if odd then e - 1 else e) - 256) / 2
  let s := isqrt m1
  ⟨s, e1, s * s != m1⟩

/-- A reciprocal square root to at least 128 bits. -/
def rsqrtEncl (m : Nat) (e : Int) : Encl :=
  let odd := e % 2 != 0
  let m1 := if odd then 2 * m else m
  let e1 := if odd then e - 1 else e
  let k := 256 + Nat.log2 m1 + 1
  let k := k + k % 2
  let s := isqrt (2 ^ k / m1)
  ⟨s, -(e1 / 2) - (k / 2 : Nat), s * s * m1 != 2 ^ k⟩

/-- Sum of t / (2i + 1), t divided by d at each step; alternating when alt. -/
def oddSeries (alt : Bool) (d : Nat) : Nat → Nat → Nat → Int → Int
  | 0, _, _, acc => acc
  | n + 1, i, t, acc =>
    let term : Int := (t / (2 * i + 1) : Nat)
    oddSeries alt d n (i + 1) (t / d) (if alt && i % 2 == 1 then acc - term else acc + term)

/-- atanh(1/q) or atan(1/q) with n fraction bits. -/
def atanInv (alt : Bool) (q n : Nat) : Int := oddSeries alt (q * q) (n / (2 * Nat.log2 q) + 4) 0 (2 ^ n / q) 0

/-- ln 2 with n fraction bits. -/
def ln2Fix (n : Nat) : Nat := (2 * atanInv false 3 n).toNat

/-- π with n fraction bits (Machin). -/
def piFix (n : Nat) : Nat := ((16 * atanInv true 5 (n + 16) - 4 * atanInv true 239 (n + 16)) >>> 16).toNat

/-- Σ r^i / i! from the term given, fixed point. -/
def expSeries : Nat → Nat → Nat → Nat → Nat → Nat
  | 0, _, _, _, acc => acc
  | n + 1, r, i, t, acc => let t' := ((t * r) >>> fixN) / i; expSeries n r (i + 1) t' (acc + t')

/-- e^r for a fixed-point r in [0, 1). -/
def expFix (r : Nat) : Nat := expSeries 90 r 1 (2 ^ fixN) (2 ^ fixN)

/-- Every second term of the exponential series with alternating sign, starting at term i: sin for i = 1, cos for i = 0. -/
def circSeries : Nat → Nat → Nat → Nat → Bool → Int → Int
  | 0, _, _, _, _, acc => acc
  | n + 1, r2, i, t, neg, acc =>
    let acc' := if neg then acc - (t : Int) else acc + (t : Int)
    circSeries n r2 (i + 2) (((t * r2) >>> fixN) / ((i + 1) * (i + 2))) (!neg) acc'

def sinFix (r : Nat) : Nat := (circSeries 50 ((r * r) >>> fixN) 1 r false 0).toNat
def cosFix (r : Nat) : Nat := (circSeries 50 ((r * r) >>> fixN) 0 (2 ^ fixN) false 0).toNat

/-- m × 2^e in fixed point, rounded down. -/
def fixOf (m : Nat) (e : Int) : Nat := if 0 ≤ e + fixN then m <<< (e + fixN).toNat else m >>> (-(e + fixN)).toNat

/-- 2^(±m × 2^e) as a fixed-point number in [1, 2) and a power of two; the argument is below 2^20 in magnitude. -/
def exp2Parts (neg : Bool) (m : Nat) (e : Int) : Nat × Int :=
  let x : Int := sgn neg (fixOf m e)
  let k := x >>> fixN
  let f := (x - k * 2 ^ fixN).toNat
  (expFix ((f * ln2Fix fixN) >>> fixN), k)

/-- e^x for a signed fixed-point x below 2^20 in magnitude: a fixed-point number in [1, 2) and a power of two. -/
def expParts (x : Int) : Nat × Int :=
  let l := (ln2Fix fixN : Int)
  let k := x / l
  (expFix (x - k * l).toNat, k)

/-- log2 of m × 2^e, signed fixed point. -/
def log2Fix (m : Nat) (e : Int) : Int :=
  let b := Nat.log2 m
  let y := fixOf m (-(b : Int))
  let one := 2 ^ fixN
  let z := ((y - one) <<< fixN) / (y + one)
  let z2 := (z * z) >>> fixN
  let ln := 2 * (logSeries 110 z2 0 z 0)
  (((b : Int) + e) * one) + ((ln <<< fixN) / ln2Fix fixN : Nat)
where
  /-- Σ z^(2i+1) / (2i + 1). -/
  logSeries : Nat → Nat → Nat → Nat → Nat → Nat
    | 0, _, _, _, acc => acc
    | n + 1, z2, i, t, acc => logSeries n z2 (i + 1) ((t * z2) >>> fixN) (acc + t / (2 * i + 1))

/-- |x| reduced by quarter turns: the quadrant and the rest in [0, π/2), fixed point. -/
def quadrant (m : Nat) (e : Int) : Nat × Nat :=
  let top := (Nat.log2 m : Int) + e
  let n := fixN + 8 + (if 0 < top then top.toNat else 0)
  let half := piFix n / 2
  let x := if 0 ≤ e + n then m <<< (e + n).toNat else m >>> (-(e + n)).toNat
  let q := x / half
  (q, (x % half) >>> (n - fixN))

/-- A value just below m × 2^e. -/
def below (m : Nat) (e : Int) : Encl := ⟨(m <<< 200) - 1, e - 200, true⟩
/-- A value just above m × 2^e. -/
def above (m : Nat) (e : Int) : Encl := ⟨m <<< 200, e - 200, true⟩

/-- A magnitude below 2^-100: the leading term of the series decides. -/
def tinyArg (m : Nat) (e : Int) : Bool := decide ((Nat.log2 m : Int) + e < -100)
/-- A magnitude of at least 2^11, beyond which exponentials leave every format. -/
def hugeArg (m : Nat) (e : Int) : Bool := decide (11 ≤ (Nat.log2 m : Int) + e)

/-- A signed result of a special function on a finite nonzero argument: sign and enclosure, or exact. -/
abbrev Signed := Bool × Encl

/-- 2^a; an integer a is exact (spec 10 R183). -/
def exp2Encl (neg : Bool) (m : Nat) (e : Int) : Signed :=
  if hugeArg m e then (false, ⟨1, if neg then -100000 else 100000, true⟩)
  else if tinyArg m e then (false, if neg then below 1 0 else above 1 0)
  else if 0 ≤ e ∨ m % 2 ^ (-e).toNat = 0 then
    let k := if 0 ≤ e then m <<< e.toNat else m >>> (-e).toNat
    (false, ⟨1, sgn neg k, false⟩)
  else
    let (v, k) := exp2Parts neg m e
    (false, enclOfFix v k)

/-- log2 of a positive a; a power of two is exact. -/
def log2Encl (m : Nat) (e : Int) : Signed :=
  if m = 2 ^ Nat.log2 m then
    let k := (Nat.log2 m : Int) + e
    (decide (k < 0), ⟨k.natAbs, 0, false⟩)
  else
    let v := log2Fix m e
    (decide (v < 0), enclOfFix v.natAbs 0)

def sinEncl (neg : Bool) (m : Nat) (e : Int) : Signed :=
  if tinyArg m e then (neg, below m e)
  else
    let (q, r) := quadrant m e
    let v := if q % 2 = 0 then sinFix r else cosFix r
    (neg != (q % 4 ≥ 2), enclOfFix v 0)

def cosEncl (m : Nat) (e : Int) : Signed :=
  if tinyArg m e then (false, below 1 0)
  else
    let (q, r) := quadrant m e
    let v := if q % 2 = 0 then cosFix r else sinFix r
    (q % 4 == 1 || q % 4 == 2, enclOfFix v 0)

/-- tanh a = (e^2a − 1) / (e^2a + 1). -/
def tanhEncl (neg : Bool) (m : Nat) (e : Int) : Signed :=
  if tinyArg m e then (neg, below m e)
  else if decide (8 ≤ (Nat.log2 m : Int) + e) then (neg, below 1 0)
  else
    let (v, k) := expParts (fixOf m (e + 1))
    let x := v <<< k.toNat
    (neg, enclOfFix (((x - 2 ^ fixN) <<< fixN) / (x + 2 ^ fixN)) 0)

/-- 1 / (1 + e^−a), as a fixed-point mantissa and a power of two. -/
def sigmoidParts (neg : Bool) (m : Nat) (e : Int) : Nat × Int :=
  if neg then
    -- e^a / (1 + e^a) with a < 0
    let (v, k) := expParts (-(fixOf m e : Int))
    ((v <<< fixN) / (2 ^ fixN + (v >>> (-k).toNat)), k)
  else
    let (v, k) := expParts (-(fixOf m e : Int))
    ((2 ^ fixN <<< fixN) / (2 ^ fixN + (v >>> (-k).toNat)), 0)

/-- A positive argument of at least 2^7, whose sigmoid is 1 less a part far below every significand. -/
def nearOne (neg : Bool) (m : Nat) (e : Int) : Bool := !neg && decide (7 ≤ (Nat.log2 m : Int) + e)

def sigmoidEncl (neg : Bool) (m : Nat) (e : Int) : Signed :=
  if tinyArg m e then (false, if neg then below 1 (-1) else above 1 (-1))
  else if hugeArg m e then (false, if neg then ⟨1, -100000, true⟩ else below 1 0)
  else if nearOne neg m e then (false, below 1 0)
  else
    let (v, k) := sigmoidParts neg m e
    (false, enclOfFix v k)

/-- a / (1 + e^−a). -/
def siluEncl (neg : Bool) (m : Nat) (e : Int) : Signed :=
  if tinyArg m e then (neg, if neg then below m (e - 1) else above m (e - 1))
  else if hugeArg m e then (neg, if neg then ⟨1, -100000, true⟩ else below m e)
  else if nearOne neg m e then (neg, below m e)
  else
    let (v, k) := sigmoidParts neg m e
    let x := v * m
    let b := Nat.log2 m
    (neg, enclOfFix (x >>> b) (k + e + b))

/-! ### Rounding the results -/

/-- A correctly rounded result. -/
def roundSigned (f : Fmt) (rd : Dir) (fcs : Fcs) (x : Signed) : Nat × Flags := roundVal f rd fcs (x.2.toVal x.1)

/-- A faithful result (spec 02 R39, 10 R183): exact where it is representable; else one of the two values that bracket it, chosen
by the part (FREE VALUE Config.bracketAway); RD decides an overflow, and the flags are those of Round. -/
def roundFaithful (fn : Config.FaithfulFn) (f : Fmt) (lane : FpFmt) (arg : Nat) (rd : Dir) (fcs : Fcs) (x : Signed) : Nat × Flags :=
  let r := roundSigned f rd fcs x
  let stays (v : Nat × Flags) : Bool := v.2 &&& fOF != 0 || (v.2 &&& fUF != 0 && fcs.f)
  if stays r || r.2 &&& fNX == 0 then r
  else
    let away : Dir := if Config.bracketAway fn lane (BitVec.ofNat 64 arg) then (if x.1 then .rdn else .rup) else .rtz
    let q := roundSigned f away fcs x
    if stays q then r else q

/-- The rounding of a function other than `frcp`, `frsq`, `fsqrt` and `fdiv`: correct in bf16 and f16, faithful in f32 and f64. -/
def roundSpecial (fn : Config.FaithfulFn) (lane : FpFmt) (arg : Nat) (rd : Dir) (fcs : Fcs) (x : Signed) : Nat × Flags :=
  match lane with
  | .bf16 | .f16 => roundSigned (fmtOf lane) rd fcs x
  | .f32 | .f64 => roundFaithful fn (fmtOf lane) lane arg rd fcs x

end Sys2Proof.Machine
end

