-- ==== Sys2Proof/Machine/Special.lean ====
section
/-!
DEFINITION. The special functions of the function element (spec 10 R183): 0x70 to 0x7A.
-/

namespace Sys2Proof.Machine

/-- How a special function is rounded: `frcp`, `frsq`, `fsqrt` and `fdiv` correctly, the others by their format. -/
abbrev Rounding := Nat → Dir → Fcs → Signed → Nat × Flags

/-- A unary special function on the read lanes: NaN first, then its value on infinities and zeros, then its rounded value. -/
def specUnary (r : RAct) (c : FpCtl) (rounding : Rounding) (onInf onZero : Bool → Nat × Flags)
    (onFin : Bool → Nat → Int → Option Signed) : FireSpec := specR r fun x =>
  fpLanes c x fun a _ =>
    match nanOf (fmtOf c.fmt) c.fcs [(fmtOf c.fmt, a)] with
    | some v => v
    | none =>
      match unpack (fmtOf c.fmt) a with
      | .inf neg => onInf neg
      | .fin neg m e =>
        if m = 0 then onZero neg
        else match onFin neg m e with
          | some v => rounding a (rdOf x) c.fcs v
          | none => invalid (fmtOf c.fmt)
      | .nan _ => invalid (fmtOf c.fmt)

/-- Correct rounding (spec 02 R39). -/
def correctly (c : FpCtl) : Rounding := fun _ rd fcs v => roundSigned (fmtOf c.fmt) rd fcs v
/-- The rounding of the other functions (R183). -/
def specially (fn : Config.FaithfulFn) (c : FpCtl) : Rounding := fun a rd fcs v => roundSpecial fn c.fmt a rd fcs v

/-- Exact results of special cases. -/
def zeroR (c : FpCtl) (neg : Bool) : Nat × Flags := (signBit (fmtOf c.fmt) neg, 0)
def infR (c : FpCtl) (neg : Bool) : Nat × Flags := (infBits (fmtOf c.fmt) neg, 0)
def poleR (c : FpCtl) (neg : Bool) : Nat × Flags := (infBits (fmtOf c.fmt) neg, fDZ)
def exactR (c : FpCtl) (neg : Bool) (m : Nat) (e : Int) : Nat × Flags :=
  ((roundVal (fmtOf c.fmt) .rne ⟨false, false, false⟩ (.fin neg m e)).1, 0)
def invalidR (c : FpCtl) : Nat × Flags := invalid (fmtOf c.fmt)

/-- `frcp`. -/
def specFrcp (r : RAct) (c : FpCtl) : FireSpec :=
  specUnary r c (correctly c) (zeroR c) (poleR c) fun neg m e => some (neg, divEncl 1 0 m e)
def execFrcp (r : RAct) (c : FpCtl) (s : State) : Out := runBeat (specFrcp r c) s

/-- `frsq`. -/
def specFrsq (r : RAct) (c : FpCtl) : FireSpec :=
  specUnary r c (correctly c) (fun neg => if neg then invalidR c else zeroR c false) (poleR c)
    fun neg m e => if neg then none else some (false, rsqrtEncl m e)
def execFrsq (r : RAct) (c : FpCtl) (s : State) : Out := runBeat (specFrsq r c) s

/-- `fsqrt`. -/
def specFsqrt (r : RAct) (c : FpCtl) : FireSpec :=
  specUnary r c (correctly c) (fun neg => if neg then invalidR c else infR c false) (zeroR c)
    fun neg m e => if neg then none else some (false, sqrtEncl m e)
def execFsqrt (r : RAct) (c : FpCtl) (s : State) : Out := runBeat (specFsqrt r c) s

/-- `fex2`. -/
def specFex2 (r : RAct) (c : FpCtl) : FireSpec :=
  specUnary r c (specially .ex2 c) (fun neg => if neg then zeroR c false else infR c false) (fun _ => exactR c false 1 0)
    fun neg m e => some (exp2Encl neg m e)
def execFex2 (r : RAct) (c : FpCtl) (s : State) : Out := runBeat (specFex2 r c) s

/-- `flg2`. -/
def specFlg2 (r : RAct) (c : FpCtl) : FireSpec :=
  specUnary r c (specially .lg2 c) (fun neg => if neg then invalidR c else infR c false) (fun _ => poleR c true)
    fun neg m e => if neg then none else some (log2Encl m e)
def execFlg2 (r : RAct) (c : FpCtl) (s : State) : Out := runBeat (specFlg2 r c) s

/-- `fsin`. -/
def specFsin (r : RAct) (c : FpCtl) : FireSpec :=
  specUnary r c (specially .sin c) (fun _ => invalidR c) (zeroR c) fun neg m e => some (sinEncl neg m e)
def execFsin (r : RAct) (c : FpCtl) (s : State) : Out := runBeat (specFsin r c) s

/-- `fcos`. -/
def specFcos (r : RAct) (c : FpCtl) : FireSpec :=
  specUnary r c (specially .cos c) (fun _ => invalidR c) (fun _ => exactR c false 1 0) fun _ m e => some (cosEncl m e)
def execFcos (r : RAct) (c : FpCtl) (s : State) : Out := runBeat (specFcos r c) s

/-- `ftnh`. -/
def specFtnh (r : RAct) (c : FpCtl) : FireSpec :=
  specUnary r c (specially .tanh c) (fun neg => exactR c neg 1 0) (zeroR c) fun neg m e => some (tanhEncl neg m e)
def execFtnh (r : RAct) (c : FpCtl) (s : State) : Out := runBeat (specFtnh r c) s

/-- `fsgm`. -/
def specFsgm (r : RAct) (c : FpCtl) : FireSpec :=
  specUnary r c (specially .sigmoid c) (fun neg => if neg then zeroR c false else exactR c false 1 0) (fun _ => exactR c false 1 (-1))
    fun neg m e => some (sigmoidEncl neg m e)
def execFsgm (r : RAct) (c : FpCtl) (s : State) : Out := runBeat (specFsgm r c) s

/-- `fslu`. -/
def specFslu (r : RAct) (c : FpCtl) : FireSpec :=
  specUnary r c (specially .silu c) (fun neg => if neg then zeroR c true else infR c false) (zeroR c)
    fun neg m e => some (siluEncl neg m e)
def execFslu (r : RAct) (c : FpCtl) (s : State) : Out := runBeat (specFslu r c) s

/-- One lane of `fdiv`. -/
def fdivLane (c : FpCtl) (rd : Dir) (a b : Nat) : Nat × Flags :=
  let f := fmtOf c.fmt
  match nanOf f c.fcs [(f, a), (f, b)] with
  | some v => v
  | none =>
    match unpack f a, unpack f b with
    | .inf _, .inf _ => invalid f
    | .inf n, v => infR c (n != v.neg?)
    | v, .inf n => zeroR c (n != v.neg?)
    | .fin n m e, .fin n' m' e' =>
      if m' = 0 then (if m = 0 then invalid f else poleR c (n != n'))
      else if m = 0 then zeroR c (n != n')
      else roundSigned f rd c.fcs (n != n', divEncl m e m' e')
    | _, _ => invalid f

/-- `fdiv`. -/
def specFdiv (r : RAct) (c : FpCtl) : FireSpec := specR r fun x => fpLanes c x (fdivLane c (rdOf x))
def execFdiv (r : RAct) (c : FpCtl) (s : State) : Out := runBeat (specFdiv r c) s

end Sys2Proof.Machine
end

