-- ==== Sys2Proof/Machine/Sync.lean ====
section
/-!
DEFINITION. Barriers and stage rings (spec 16 R281 to R287, 11 R192, R193): the five instructions, and the steps
BARRIER_ARRIVAL_COUNT, WATCH_COMPLETE and WATCH_EXPIRE. Their times are section cycles, which stop while the section is frozen.
-/

namespace Sys2Proof.Machine

/-! ### Barrier groups -/

/-- The clock of a barrier: section cycles (spec 09 R146); a headland plot, which belongs to no section, counts field cycles. -/
def syncNow (s : State) (plot : Nat) : Nat := if (getPlot s plot).parcel.isSome then sectionCycles s plot else now s

/-- A group of the parcel that holds a plot. -/
def barOf (s : State) (plot : Nat) (g : Fin 32) : BarGroup :=
  match (getPlot s plot).parcel with
  | some p => Tbl.findD (getParcel s p).bars g.val {}
  | none => {}

def modBar (s : State) (plot : Nat) (g : Fin 32) (f : BarGroup → BarGroup) : State :=
  match (getPlot s plot).parcel with
  | some p => modParcel s p fun q => { q with bars := Tbl.put q.bars g.val (f (Tbl.findD q.bars g.val {})) }
  | none => s

/-- Membership of an element. -/
def barMember (b : BarGroup) (l : Loc) : Bool := (Tbl.findD b.members l.plot 0).getLsbD l.site

/-- All the members. -/
def barMembers (b : BarGroup) : List Loc :=
  b.members.flatMap fun x => ((List.range 32).filter fun n => x.2.getLsbD n).map fun n => ⟨x.1, n⟩

/-- log2 of the smallest aligned power-of-two interval that holds two numbers (spec 01 R17). -/
def spanLog (a b : Nat) : Nat := if a = b then 0 else Nat.log2 (a ^^^ b) + 1

/-- log2 of the smallest aligned power-of-two interval that holds all of a list: aligned intervals nest. -/
def spanLogs : List Nat → Nat
  | [] => 0
  | a :: as => as.foldl (fun n b => max n (spanLog a b)) 0

/-- A = 2 + log2 w′ + log2 h′ of the extent in force (R282). -/
def barLatency (b : BarGroup) : Nat :=
  let ps := (b.members.filter fun x => x.2 != 0).map (·.1)
  2 + spanLogs (ps.map plotX) + spanLogs (ps.map plotY)

/-- The record leaves room for another arrival at gN (R283). -/
def arrivalFree (g : Fin 32) : Option Arrival → Bool
  | none => true
  | some a => a.group != g || a.done

/-- The M-form requests of an element that are not performed at parcel scope. -/
def unperformed (s : State) (l : Loc) : List Nat :=
  (s.reqs.filter fun q => q.issuer == l && isMForm q && !performedAt .parcel q.phase).map (·.id)

/-- Arrive at gN: the record is set; with no request to wait for the arrival is countable at once. A later beat of one firing finds the
record as its first beat has set it. An arrival at another group that is not over is still counted (R283). -/
def arriveEffect (g : Fin 32) (l : Loc) (s : State) : State :=
  let b := barOf s l.plot g
  let e := getElem s l
  if (match e.arrival with
    | some a => a.group == g && a.gen == b.gen && !a.done
    | none => false) then s
  else
    let after := unperformed s l
    let a : Arrival := { group := g, gen := b.gen, done := false, counted := false, after := after,
                         countAt := if after.isEmpty then some (syncNow s l.plot + barLatency b) else none }
    setElem s l { e with arrival := some a, late := e.late ++ e.arrival.toList.filter fun x => !x.done }

/-- `bar.arv` (R283). -/
def specBarArv (g : Fin 32) (u : PUpd) : FireSpec :=
  { dst := .none, sa := .zero, sb := .zero, upd := u
    ready := fun s l => s.sched.cur.beat != 0 || arrivalFree g (getElem s l).arrival
    op := fun x => if barMember (barOf x.s x.l.plot g) x.l then .ok { pred := true, post := arriveEffect g x.l } else badOperand 0 }
def execBarArv (g : Fin 32) (u : PUpd) (s : State) : Out := runBeat (specBarArv g u) s

/-- The target generation of a watch (R284). -/
def watchTarget (s : State) (l : Loc) (g : Fin 32) : Nat :=
  match (getElem s l).arrival with
  | some a => if a.group = g ∧ !a.done then a.gen else (barOf s l.plot g).gen
  | none => (barOf s l.plot g).gen

/-- Arm a watch with a timeout of T ns, 0 for none. A firing arms one, in its first beat (log 39). -/
def watchEffect (dst : Dst) (g : Fin 32) (u : PUpd) (l : Loc) (t : Nat) (s : State) : State :=
  if s.sched.cur.beat ≠ 0 then s else
  let (s, rid) := reserveAck s l dst false
  let at_ := syncNow s l.plot
  modElem s l fun e =>
    { e with ws := wsWord g 1
             watch := some { group := g, target := watchTarget s l g, armedAt := at_, upd := u, rid := rid
                             expireAt := if t = 0 then none else some (at_ + cyclesOfNs t) } }

/-- `bar.wch` (R284): the firing writes no predicate. -/
def specBarWch (dst : Dst) (sa : Src) (g : Fin 32) (u : PUpd) : FireSpec :=
  { dst := dst, sa := sa, sb := .zero, async := true
    ready := fun s l => s.sched.cur.beat != 0 || wsState (getElem s l).ws != 1
    op := fun x =>
      if x.a.toWord.toNat / 2 ^ 32 ≠ 0 then badOperand x.a.toWord else .ok { post := watchEffect dst g u x.l x.a.toWord.toNat } }
def execBarWch (dst : Dst) (sa : Src) (g : Fin 32) (u : PUpd) (s : State) : Out := runBeat (specBarWch dst sa g u) s

/-- The plot that a proposal word names, if it lies in the parcel (R286). -/
def proposalPlot (s : State) (plot : Nat) (v : Word) : Option Nat :=
  match (getPlot s plot).parcel with
  | some n =>
    let p := getParcel s n
    let dx := bitsOf v.toNat 39 32
    let dy := bitsOf v.toNat 47 40
    if dx < p.w ∧ dy < p.h ∧ v.toNat / 2 ^ 48 = 0 then some (plotAt (p.x0 + dx) (p.y0 + dy)) else none
  | none => none

/-- Every block of a plot's parcel is known, and so are the members of its groups. -/
def membersKnown (s : State) (plot : Nat) : Bool :=
  match (getPlot s plot).parcel with
  | some n => (parcelPlots (getParcel s n)).all (blockKnown s (getParcel s n))
  | none => true

/-- The sites of a plot's block. -/
def blockSites (s : State) (plot : Nat) : BitVec 32 :=
  match (getPlot s plot).parcel with
  | some n => Tbl.findD (getParcel s n).sites plot 0
  | none => 0

/-- The mask that a proposal word holds, for the plot that it names, if the word is legal. -/
def proposal (s : State) (plot : Nat) (v : Word) : Option (Nat × BitVec 32) :=
  match proposalPlot s plot v with
  | some q => if v.setWidth 32 &&& ~~~blockSites s q = 0 then some (q, v.setWidth 32) else none
  | none => none

/-- The block of the plot that a proposal names can tell which sites it holds; while it could not be read, the proposal waits (07 R126; log 39). -/
def proposalReady (sa : Src) (peek : Bool) (s : State) (l : Loc) : Bool :=
  match srcValue s l sa (if peek then s.sched.cur.beat else 0), (getPlot s l.plot).parcel with
  | some v, some n => (match proposalPlot s l.plot v.toWord with
    | some q => blockKnown s (getParcel s n) q
    | none => true)
  | _, _ => true

/-- `bar.mem` (R286). -/
def specBarMem (sa : Src) (g : Fin 32) (u : PUpd) (peek : Bool) : FireSpec :=
  { dst := .none, sa := sa, sb := .zero, upd := u, peek := peek, ready := proposalReady sa peek
    op := fun x =>
      match proposal x.s x.l.plot x.a.toWord with
      | some (q, m) => .ok { pred := m.getLsbD 0, post := fun s => modBar s x.l.plot g fun b => { b with pending := Tbl.put b.pending q m } }
      | none => badOperand x.a.toWord }
def execBarMem (sa : Src) (g : Fin 32) (u : PUpd) (peek : Bool) (s : State) : Out := runBeat (specBarMem sa g u peek) s

/-- The phase completes (R282): the generation goes on, the pending masks replace memberships, and the completion will be observed A
cycles later, A being that of the extent so far. -/
def completePhase (t : Nat) (b : BarGroup) : BarGroup :=
  { members := b.pending.foldl (fun m x => Tbl.put m x.1 x.2) b.members
    gen := (b.gen + 1) % 65536, arrived := [], pending := []
    seen := ((b.gen, t + barLatency b) :: b.seen).take 4 }

/-- The completion of a generation has been observed. -/
def observed (b : BarGroup) (gen t : Nat) : Bool := b.seen.any fun x => x.1 == gen && decide (x.2 ≤ t)

/-- An arrival becomes countable when the requests before it are performed (R283). -/
def arrivalCountable (s : State) (l : Loc) (a : Arrival) : Arrival :=
  match a.countAt with
  | some _ => a
  | none =>
    if a.after.all fun id => match findReq s id with
        | some q => performedAt .parcel q.phase
        | none => true
    then { a with countAt := some (syncNow s l.plot + barLatency (barOf s l.plot a.group)) } else a

/-- An arrival that is due is counted in its generation; where an earlier one of the same generation has let that phase complete, it adds nothing. -/
def countArrival (s : State) (l : Loc) (a : Arrival) : State × Arrival :=
  match a.countAt with
  | some t =>
    if !a.counted ∧ t ≤ syncNow s l.plot then
      (modBar s l.plot a.group fun b => if b.gen = a.gen then { b with arrived := l :: b.arrived } else b, { a with counted := true })
    else (s, a)
  | none => (s, a)

/-- The phase of a group completes in the first cycle in which every member has an arrival counted; a group without members never does (R282). -/
def completeIfAll (s : State) (plot : Nat) (g : Fin 32) : State :=
  if membersKnown s plot then
    modBar s plot g fun b =>
      if (barMembers b).all (fun m => b.arrived.contains m) && !(barMembers b).isEmpty then completePhase (syncNow s plot) b else b
  else s

/-- One arrival of an element becomes countable, is counted, and completes its group's phase with the last. -/
def advanceArrival (s : State) (l : Loc) (a : Arrival) : State × Arrival :=
  let r := countArrival s l (arrivalCountable s l a)
  (completeIfAll r.1 l.plot a.group, r.2)

/-- The arrivals behind an element's record: each stays until its phase has completed. -/
def countLate (s : State) (l : Loc) : State :=
  (getElem s l).late.foldl (fun s a =>
    let r := advanceArrival s l a
    let finished := r.2.counted && (barOf r.1 l.plot a.group).gen != a.gen
    modElem r.1 l fun e => { e with late := if finished then e.late.erase a else mapIf (fun x => x == a) (fun _ => r.2) e.late }) s

/-- BARRIER_ARRIVAL_COUNT (R282, R283): an element's arrivals become countable, are counted, and its record is DONE once its completion is
observed. -/
def execBarrierArrivalCount (l : Loc) (s : State) : Out :=
  if plotStopped s l.plot then .next s
  else match (getElem s l).arrival with
  | none => .next (countLate s l)
  | some a =>
    let r := advanceArrival s l a
    let a := { r.2 with done := r.2.done || observed (barOf r.1 l.plot a.group) a.gen (syncNow r.1 l.plot) }
    .next (countLate (modElem r.1 l fun e => { e with arrival := some a }) l)

/-- A watch resolves with ST (R285). -/
def resolveWatch (s : State) (l : Loc) (w : Watch) (st : Nat) : State :=
  let s := modElem s l fun e => setPred { e with ws := wsWord w.group st, watch := none } w.upd false
  fillRid s w.rid { tag := .data, val := BitVec.ofNat 512 (st + w.group.val * 4 + w.target % 65536 * 65536) }

/-- The watch observes its completion: not before the cycle after its firing; with erratum E2-03 not in the cycle in which it expires
(spec 04 R86). -/
def watchSees (s : State) (l : Loc) (w : Watch) : Bool :=
  let t := syncNow s l.plot
  decide (w.armedAt < t) && observed (barOf s l.plot w.group) w.target t &&
  !((getElem s l).err && w.expireAt.any (fun x => decide (x ≤ t)))

/-- A watch can resolve: its section has not stopped (R285). -/
def watchRuns (s : State) (l : Loc) : Bool := !plotStopped s l.plot && !(getElem s l).killed

/-- WATCH_COMPLETE (R285). -/
def execWatchComplete (l : Loc) (s : State) : Out :=
  match (getElem s l).watch with
  | some w => .next (if watchRuns s l && watchSees s l w then resolveWatch s l w 2 else s)
  | none => .next s

/-- WATCH_EXPIRE (R285): only where the completion is not observed in the same cycle. -/
def execWatchExpire (l : Loc) (s : State) : Out :=
  match (getElem s l).watch with
  | some w =>
    .next (if watchRuns s l && !watchSees s l w && w.expireAt.any (fun x => decide (x ≤ syncNow s l.plot)) then resolveWatch s l w 3 else s)
  | none => .next s

/-! ### Stage rings -/

def ringOf (s : State) (plot : Nat) (n : Fin 8) : Option Ring := Tbl.find (getPlot s plot).rings n.val
def modRing (s : State) (plot : Nat) (n : Fin 8) (f : Ring → Ring) : State := modPlot s plot fun p => { p with rings := Tbl.alter p.rings n.val f }

/-- The stage at a role's index. -/
def ringIndex (r : Ring) : Role → Nat
  | .producer => r.pi
  | .consumer => r.ci

/-- A role can acquire the stage at its own index (R192). -/
def canAcquire (r : Ring) (role : Role) : Bool :=
  match r.stages[ringIndex r role]? with
  | some st => st.owner == 63 && st.full == (role == .consumer)
  | none => false

/-- The site that a role's arbiter grants in this cycle (R193). -/
def ringGrant (r : Ring) : Role → Option Nat
  | .producer => r.grantP
  | .consumer => r.grantC

/-- The acquire of R192: OWNER, the index, and the arbiter's pointer; the grant is used up. -/
def acquireStage (role : Role) (site : Nat) (r : Ring) : Ring :=
  let i := ringIndex r role
  let r := { r with stages := r.stages.mapIdx fun k (st : Stage) => if k = i then { st with owner := site } else st }
  match role with
  | .producer => { r with pi := (i + 1) % r.stages.length, ptrP := (site + 1) % 32, grantP := none }
  | .consumer => { r with ci := (i + 1) % r.stages.length, ptrC := (site + 1) % 32, grantC := none }

/-- The reference word that an acquire returns. -/
def stageRef (s : State) (plot : Nat) (n : Fin 8) (r : Ring) (role : Role) : Word :=
  match r.stages[ringIndex r role]? with
  | some st => refWord ⟨true, n.val, ringIndex r role, (tileSeen s plot st.handle).gen, true, st.handle⟩
  | none => 0

/-- The arbiter has granted the element the ring's role. -/
def acquireReady (n : Fin 8) (role : Role) (s : State) (l : Loc) : Bool :=
  match ringOf s l.plot n with
  | some r => canAcquire r role && ringGrant r role == some l.site
  | none => false

/-- `stg.acq` (R287). -/
def specStgAcq (dst : Dst) (n : Fin 8) (role : Role) (u : PUpd) : FireSpec :=
  { dst := dst, sa := .zero, sb := .zero, upd := u, ready := acquireReady n role
    op := fun x =>
      match ringOf x.s x.l.plot n with
      | some r => .ok { v := (stageRef x.s x.l.plot n r role).setWidth 512, pred := true
                        post := fun s => modRing s x.l.plot n (acquireStage role x.l.site) }
      | none => badOperand 0 }
def execStgAcq (dst : Dst) (n : Fin 8) (role : Role) (u : PUpd) (s : State) : Out := runBeat (specStgAcq dst n role u) s

/-- The stage that a word lets an element release, if the release raises no fault (R287, R192). -/
def releaseOf (s : State) (l : Loc) (n : Fin 8) (role : Role) (w : Word) : Option (Ref × Stage) :=
  match useRef s l.plot w, ringOf s l.plot n with
  | some (r, _), some g =>
    (match g.stages[r.stage]? with
    | some st =>
      if r.rv && r.gchk && r.ring == n.val && st.owner == l.site && r.gen == (tileSeen s l.plot st.handle).gen &&
          st.full == (role == .consumer) then some (r, st)
      else none
    | none => none)
  | _, _ => none

/-- The stage handle's accesses are all performed; a word that faults need not wait. -/
def releaseReady (n : Fin 8) (role : Role) (sa : Src) (s : State) (l : Loc) : Bool :=
  match srcValue s l sa 0 with
  | some v => (match releaseOf s l n role v.toWord with
    | some (_, st) => handleIdle s l.plot st.handle
    | none => true)
  | none => true

/-- The release of R192. -/
def releaseStage (role : Role) (i : Nat) (r : Ring) : Ring :=
  { r with stages := r.stages.mapIdx fun k st => if k = i then { st with full := (role == .producer), owner := 63 } else st }

/-- `stg.rel` (R287). -/
def specStgRel (sa : Src) (n : Fin 8) (role : Role) (u : PUpd) : FireSpec :=
  { dst := .none, sa := sa, sb := .zero, upd := u, ready := releaseReady n role sa
    op := fun x =>
      match releaseOf x.s x.l n role x.a.toWord with
      | some (r, _) => .ok { pred := true, post := fun s => modRing s x.l.plot n (releaseStage role r.stage) }
      | none => badOperand x.a.toWord }
def execStgRel (sa : Src) (n : Fin 8) (role : Role) (u : PUpd) (s : State) : Out := runBeat (specStgRel sa n role u) s

end Sys2Proof.Machine
end

