-- ==== Sys2Proof/Machine/SpecOf.lean ====
section
/-!
DEFINITION. The description of every instruction of a section's elements, which runs as beats of a firing: what the picker and FIRING_BEAT look it
up by.
-/

namespace Sys2Proof.Machine

/-- The firing that an instruction describes; none for a privileged one and for the steps of other agents. -/
def specUser : Instr → Option FireSpec
  | .nop r => some (specNop r)
  | .mov r => some (specMov r)
  | .movi i => some (specMovi i)
  | .drop r => some (specDrop r)
  | .sel r n => some (specSel r n)
  | .route r => some (specRoute r)
  | .eos r rc0 rc1 => some (specEos r rc0 rc1)
  | .pand pa pb upd => some (specPand pa pb upd)
  | .por pa pb upd => some (specPor pa pb upd)
  | .pxor pa pb upd => some (specPxor pa pb upd)
  | .pandn pa pb upd => some (specPandn pa pb upd)
  | .cntAdd i => some (specCntAdd i)
  | .cntSet i => some (specCntSet i)
  | .flgRd r => some (specFlgRd r)
  | .flgClr i => some (specFlgClr i)
  | .rest upd => some (specRest upd)
  | .barArv g upd => some (specBarArv g upd)
  | .barWch dst sa g upd => some (specBarWch dst sa g upd)
  | .barMem sa g upd peek => some (specBarMem sa g upd peek)
  | .stgAcq dst ring role upd => some (specStgAcq dst ring role upd)
  | .stgRel sa ring role upd => some (specStgRel sa ring role upd)
  | .tmrRd r src => some (specTmrRd r src)
  | .trap i => some (specTrap i)
  | .brk i => some (specBrk i)
  | .specRd dst reg upd => some (specSpecRd dst reg upd)
  | .specWr sa reg upd => some (specSpecWr sa reg upd)
  | .waveNx upd => some (specWaveNx upd)
  | .add r c => some (specAdd r c)
  | .sub r c => some (specSub r c)
  | .addi i => some (specAddi i)
  | .mul r c => some (specMul r c)
  | .mulh r c => some (specMulh r c)
  | .mad r c => some (specMad r c)
  | .div r c => some (specDiv r c)
  | .rem r c => some (specRem r c)
  | .neg r c => some (specNeg r c)
  | .abs r c => some (specAbs r c)
  | .min r c => some (specMin r c)
  | .max r c => some (specMax r c)
  | .and r c => some (specAnd r c)
  | .or r c => some (specOr r c)
  | .xor r c => some (specXor r c)
  | .andn r c => some (specAndn r c)
  | .not r c => some (specNot r c)
  | .shl r c => some (specShl r c)
  | .shr r c => some (specShr r c)
  | .sar r c => some (specSar r c)
  | .rot r c => some (specRot r c)
  | .shli i => some (specShli i)
  | .clz r c => some (specClz r c)
  | .ctz r c => some (specCtz r c)
  | .popc r c => some (specPopc r c)
  | .bfe r c => some (specBfe r c)
  | .bfi r c => some (specBfi r c)
  | .ext r c => some (specExt r c)
  | .lea r c => some (specLea r c)
  | .cmp r c => some (specCmp r c)
  | .ccmp r c => some (specCcmp r c)
  | .iota r c => some (specIota r c)
  | .pack r c => some (specPack r c)
  | .unpk r c => some (specUnpk r c)
  | .shuf r c => some (specShuf r c)
  | .bcast r c => some (specBcast r c)
  | .vred r c => some (specVred r c)
  | .vscn r c => some (specVscn r c)
  | .filt r c => some (specFilt r c)
  | .xpnd r c => some (specXpnd r c)
  | .zpack r c => some (specZpack r c)
  | .zunpk r c => some (specZunpk r c)
  | .hash r c => some (specHash r c)
  | .fadd r c => some (specFadd r c)
  | .fsub r c => some (specFsub r c)
  | .fmul r c => some (specFmul r c)
  | .ffma r c => some (specFfma r c)
  | .fmin r c => some (specFmin r c)
  | .fmax r c => some (specFmax r c)
  | .fabs r c => some (specFabs r c)
  | .fneg r c => some (specFneg r c)
  | .fclt r c => some (specFclt r c)
  | .fcle r c => some (specFcle r c)
  | .fceq r c => some (specFceq r c)
  | .fcun r c => some (specFcun r c)
  | .fcvt r fcs => some (specFcvt r fcs)
  | .f2i r signed trunc c => some (specF2i r signed trunc c)
  | .i2f r signed c => some (specI2f r signed c)
  | .frnd r rd c => some (specFrnd r rd c)
  | .fscl r c => some (specFscl r c)
  | .fcls r c => some (specFcls r c)
  | .fdot r c => some (specFdot r c)
  | .q4dq r c => some (specQ4dq r c)
  | .q4q r c => some (specQ4q r c)
  | .dropm r c => some (specDropm r c)
  | .rnd r c => some (specRnd r c)
  | .frcp r c => some (specFrcp r c)
  | .frsq r c => some (specFrsq r c)
  | .fsqrt r c => some (specFsqrt r c)
  | .fex2 r c => some (specFex2 r c)
  | .flg2 r c => some (specFlg2 r c)
  | .fsin r c => some (specFsin r c)
  | .fcos r c => some (specFcos r c)
  | .ftnh r c => some (specFtnh r c)
  | .fsgm r c => some (specFsgm r c)
  | .fslu r c => some (specFslu r c)
  | .fdiv r c => some (specFdiv r c)
  | .ld m sx => some (specLd m sx)
  | .st m => some (specSt m)
  | .amo m op fcs => some (specAmo m op fcs)
  | .amoCas m => some (specAmoCas m)
  | .red m op fcs => some (specRed m op fcs)
  | .wfence dst scope => some (specWfence dst scope)
  | .mseal dst sa sb => some (specMseal dst sa sb)
  | .munseal dst sa => some (specMunseal dst sa)
  | .tileNew r => some (specTileNew r)
  | .tileFree r => some (specTileFree r)
  | .tileShp r => some (specTileShp r)
  | .tileRd r => some (specTileRd r)
  | .tileWr r => some (specTileWr r)
  | .tileGat r => some (specTileGat r)
  | .tileSct r => some (specTileSct r)
  | .tileAcc r fcs => some (specTileAcc r fcs)
  | .tileFil r => some (specTileFil r)
  | .tileCpy r => some (specTileCpy r)
  | .tileQry r => some (specTileQry r)
  | .hashSet r => some (specHashSet r)
  | .bankRd r => some (specBankRd r)
  | .bankClr r => some (specBankClr r)
  | .strmOpn r m => some (specStrmOpn r m)
  | .strmCls r m => some (specStrmCls r m)
  | .sbar mask upd => some (specSbar mask upd)
  | .strmSt r m => some (specStrmSt r m)
  | .tlbPf r => some (specTlbPf r)
  | .wpArm r n mode => some (specWpArm r n mode)
  | .cmbFl r => some (specCmbFl r)
  | .cpy e => some (specCpy e)
  | .cpyNd e => some (specCpyNd e)
  | .cpyIx e => some (specCpyIx e)
  | .cpyIs e => some (specCpyIs e)
  | .gat e => some (specGat e)
  | .sct e => some (specSct e)
  | .sctAdd e fcs => some (specSctAdd e fcs)
  | .rdcTree e fcs => some (specRdcTree e fcs)
  | .coll e fcs => some (specColl e fcs)
  | .put e => some (specPut e)
  | .get e => some (specGet e)
  | .drillPush e n => some (specDrillPush e n)
  | .sig e raise vec => some (specSig e raise vec)
  | .adPf e me a b => some (specAdPf e me a b)
  | .mma x => some (specMma x)
  | .accClr x => some (specAccClr x)
  | .accRd x fcs => some (specAccRd x fcs)
  | .accLd x => some (specAccLd x)
  | .accRel x fcs => some (specAccRel x fcs)
  | .adInv x => some (specAdInv x)
  | .meCnt x => some (specMeCnt x)
  | .meIdl x => some (specMeIdl x)
  | _ => none

end Sys2Proof.Machine
end

