-- ==== Sys2Proof/Machine/Issue.lean ====
section
/-!
DEFINITION. Readiness and the picker (spec 04 R64, 08 R132 to R134): which slot an element fires in this cycle. The functions that need the
descriptions of instructions take them as an argument: `specUser` for the elements of sections, `specOf` where headland elements count.
-/

namespace Sys2Proof.Machine

/-- The four ports. -/
def ports : List (Fin 4) := [0, 1, 2, 3]

/-- The channel that a tag test reads: the lowest in IC (spec 04 R64). -/
def testChan (ic : BitVec 4) : Option (Fin 4) := ports.find? fun n => ic.getLsbD n.val

/-- A slot tests channel c for FAULT (spec 08 R132). -/
def testsFault (t : Trig) (c : Fin 4) : Bool :=
  t.test == some ⟨false, .fault⟩ && testChan t.ic == some c

/-- The input shows a FAULT token at its head. -/
def headFault (s : State) (l : Loc) (c : Fin 4) : Bool :=
  match headToken s l c with
  | some t => t.tag == .fault
  | none => false

/-- The element fires no slot: a FAULT head that no valid slot tests (spec 08 R132). -/
def faultStalled (s : State) (l : Loc) : Bool :=
  let e := getElem s l
  ports.any fun c => headFault s l c && !(slotNums.any fun n =>
    match slotOf e l.plot n with
    | some x => testsFault x.trig c
    | none => false)

/-- The tag test of a trigger. -/
def tagTestOk (s : State) (l : Loc) (t : Trig) : Bool :=
  match t.test, testChan t.ic with
  | some q, some c =>
    (match headToken s l c with
      | some tok => (tok.tag == q.tag) != q.neg
      | none => false)
  | _, _ => true

/-- The encoded conditions of a trigger (spec 04 R64) with the rule for FAULT heads (08 R132). -/
def trigTrue (s : State) (l : Loc) (t : Trig) : Bool :=
  let e := getElem s l
  (e.p &&& t.pm) == t.pv &&
  (ports.all fun c => !t.ic.getLsbD c.val ||
    (decide (t.w.beats ≤ (headTokens s l c).length) && (!headFault s l c || testsFault t c))) &&
  tagTestOk s l t

/-- The implicit conditions of an action in a firing of w beats (spec 08 R133). -/
def actReady (sp : Instr → Option FireSpec) (s : State) (l : Loc) (n : Fin 16) (w : Nat) (i : Instr) : Bool :=
  match sp i with
  | some x => beatReady x (modSched s fun c => { c with cur := { l := l, slot := n, beats := w } })
  | none => true

/-- A firing of the slot is held for a fault: it is not evaluated again until the repair. -/
def slotHeld (e : Elem) (n : Fin 16) : Bool := e.rq.any fun x => x.2.kind == .firing && x.2.slot == n.val

/-- A slot is ready (spec 08 R133), apart from the conditions of its element. -/
def slotReady (sp : Instr → Option FireSpec) (s : State) (l : Loc) (n : Fin 16) : Option Slot :=
  let e := getElem s l
  match slotOf e l.plot n with
  | some x => if !slotHeld e n && trigTrue s l x.trig && actReady sp s l n x.trig.w.beats x.act then some x else none
  | none => none

/-- An element that lives: present, started, neither blocked nor killed nor frozen, of a section that has not ended. -/
def elemLives (s : State) (l : Loc) : Bool :=
  let e := getElem s l
  let p := getPlot s l.plot
  e.present && !e.blocked && !e.killed && !e.dead && !e.cfgFrozen && p.started && !p.cfgFrozen &&
  !plotFrozen s l.plot && !plotEnded s l.plot && !s.reeve.railsOff

/-- An element that can be given a beat: it lives, is not held for power (spec 20 R353), and has not fired in this cycle. -/
def elemRuns (s : State) (l : Loc) : Bool :=
  elemLives s l && !s.reeve.holding && (getElem s l).firedAt != now s + 1

/-- Whether a unit of the element has a firing in progress that goes on in steps of its own: a streaming one of a scratchpad (spec 13 R218 to R221),
one of `acc.rd` or `acc.ld` (15 R270, R271), and whether a fault holds it; or an `mma` (R265), whose steps are MMA_STEP. -/
def unitHeld (s : State) (l : Loc) : Option Bool :=
  match (getSe s l).op, (getMe s l).op, (getMe s l).fire with
  | some o, _, _ => some o.held
  | none, some o, _ => some o.held
  | none, none, some _ => some true
  | none, none, none => none

/-- An element whose slots can be ready: it lives, is not resting, has no firing in progress, and has a free replay entry
(spec 08 R133, 09 R145, 18 R317). -/
def elemIdle (s : State) (l : Loc) : Bool :=
  let e := getElem s l
  elemLives s l && (unitHeld s l).isNone && !e.resting && !midFiring e && e.redo.isEmpty && decide (e.rq.length < 16) && !faultStalled s l

/-- An element that has a ready slot (spec 01 R21): whether it may fire in this cycle does not matter. -/
def anyReady (sp : Instr → Option FireSpec) (s : State) (l : Loc) : Bool :=
  elemIdle s l && slotNums.any fun n => (slotReady sp s l n).isSome

/-- An element whose slots are evaluated in this cycle. -/
def elemPicks (s : State) (l : Loc) : Bool := elemIdle s l && elemRuns s l

/-- The first ready slot of a class, counting from n; fuel bounds the turn. -/
def firstFrom (ready : List (Fin 16)) : Nat → Fin 16 → Option (Fin 16)
  | 0, _ => none
  | k + 1, n => if ready.contains n then some n else firstFrom ready k (n + 1)

/-- The rotating classes 2, 1, 0. -/
def pickRotating (e : Elem) (ready : Fin 4 → List (Fin 16)) : List (Fin 3) → Option (Fin 16)
  | [] => none
  | c :: cs =>
    match firstFrom (ready ⟨c.val, by omega⟩) 16 e.ptr[c] with
    | some n => some n
    | none => pickRotating e ready cs

/-- Pick (spec 08 R134): the slot to fire and what it holds. -/
def pickSlot (sp : Instr → Option FireSpec) (s : State) (l : Loc) : Option (Fin 16 × Slot) :=
  if elemPicks s l then
    let found := slotNums.filterMap fun n => (slotReady sp s l n).map fun x => (n, x)
    let inClass (c : Fin 4) : List (Fin 16) := (found.filter fun x => x.2.trig.pc == c).map (·.1)
    let n := match inClass 3 with
      | n :: _ => some n
      | [] => pickRotating (getElem s l) inClass [2, 1, 0]
    match n with
    | some n => found.find? fun x => x.1 == n
    | none => none
  else none

/-- The pointer of a rotating class that has won moves past its winner. -/
def movePtr (n : Fin 16) (c : Fin 4) (e : Elem) : Elem :=
  if h : c.val < 3 then { e with ptr := e.ptr.set c.val (n + 1) h } else e

/-- The cursor of a firing's first beat. -/
def startFiring (s : State) (l : Loc) (n : Fin 16) (x : Slot) : State :=
  modSched s fun c => { c with cur := { l := l, slot := n, beats := x.trig.w.beats } }

/-- The beat that an element re-executes next: of the firing in progress, and without one the first that was answered. -/
def nextRedo (e : Elem) : Option Redo :=
  if midFiring e then e.redo.find? fun r => (pixSlot e.pix).val == r.slot && pixBeat e.pix == r.beat else e.redo.head?

/-- The element has a beat to run without a trigger: one to be re-executed, or the next of the firing in progress, unless a fault holds it. It waits for a
free replay entry, so that a firing that faults finds one (spec 18 R317). -/
def goesOn (e : Elem) : Bool := decide (e.rq.length < 16) && ((nextRedo e).isSome || (midFiring e && !slotHeld e (pixSlot e.pix)))

/-- The element goes on with a firing in this cycle. -/
def hasRedo (s : State) (l : Loc) : Bool :=
  elemRuns s l && match unitHeld s l with
    | some h => !h
    | none => goesOn (getElem s l)

end Sys2Proof.Machine
end

