-- ==== Sys2Proof/Machine/FaultSteps.lean ====
section
/-!
DEFINITION. The fault store of a die (spec 18 R314, R316): the 64 bytes of a record, the record that `flt.rd` takes next, and FID_ASSIGN.
-/

namespace Sys2Proof.Machine

/-- A fault record as eight words (R314). -/
def recordWords (r : FaultRec) : List Word :=
  [ classCode r.cls + 2 ^ 8 * (r.sub + 2 ^ 8 * (r.fid.getD 0 + 2 ^ 16 * (r.ctx % 64 + 2 ^ 8 * (min r.depth 255 + 2 ^ 8 * (r.flags % 64))))),
    (if 16 ≤ r.y then 0 else r.x) + 2 ^ 8 * ((if 16 ≤ r.y then 0 else r.y) + 2 ^ 8 * (r.site % 256 + 2 ^ 8 * (r.slot % 256 + 2 ^ 8 * (r.entry % 256 + 2 ^ 8 * (r.strm % 256 +
      2 ^ 8 * (r.wave % 65536)))))),
    r.addr, r.info0.toNat, r.info1.toNat, r.src % 2 ^ 32 + 2 ^ 32 * min r.count 65535, r.ts, r.node ].map (BitVec.ofNat 64)

/-- The oldest record in a die's fault store. -/
def oldestFault (s : State) (die : Nat) : Option FaultRec := (getDie s die).store.findSome? fun id => findFault s id

/-- `flt.rd` takes a record: a report-only one closes its identifier (R316), which a repair still finds to be one (23 R379; log 50). -/
def takeFault (s : State) (die : Nat) (r : FaultRec) : State :=
  let s := modDie s die fun d => { d with store := d.store.filter fun n => n != r.id }
  if r.report then modDie (dropFault s r.id) die fun d => { d with reported := d.reported ++ r.fid.toList } else s

/-- FID_ASSIGN (R316): the record that has waited longest obtains a free identifier. -/
def assignFid (s : State) (die : Nat) : State :=
  match (getDie s die).fidWait, freeFid s die with
  | id :: rest, some fid =>
    let s := giveFid (modDie s die fun d => { d with fidWait := rest }) id fid
    (match findFault s id with
    | some r => if (getDie s die).handler then s else answerFid s r ⟨.kill, 0⟩
    | none => s)
  | _, _ => s
def execFidAssign (die : Nat) (s : State) : Out := .next (assignFid s die)

end Sys2Proof.Machine
end

