-- ==== Sys2Proof/Machine/Clock.lean ====
section
/-!
DEFINITION. The end of a field cycle: section cycles (spec 09 R146), samples of the section flag word (02 R45), and the agenda of the
next cycle (log 2).
-/

namespace Sys2Proof.Machine

/-- The OR of `flg` [6:0] over the elements of a parcel. -/
def parcelFlags (s : State) (n : Nat) : Flags :=
  s.elems.foldl (fun f x => if (getPlot s (x.1 / 32)).parcel = some n then f ||| flgBits x.2.flg else f) 0

/-- Take a sample of the section flag word (spec 02 R45). -/
def sampleFlags (s : State) (n : Nat) : State :=
  let f := parcelFlags s n
  modParcel s n fun p => { p with flagWord := p.flagWord ||| f, sample := false }

/-- The samples that LAST tokens on section outputs asked for in the cycle that ends. -/
def takeSamples (s : State) : State :=
  (s.parcels.filter fun x => x.2.sample).foldl (fun s x => sampleFlags s x.1) s

/-- Section cycles count while the parcel is neither frozen nor stopping (spec 18 R321; log 39); the watchdog counts with them (R329). -/
def countCycles (p : Parcel) : Parcel :=
  match p.frz with
  | .frozen _ | .stopping _ => p
  | .run => { p with cycles := p.cycles + 1, wdogRan := if p.wdogOn then p.wdogRan + 1 else p.wdogRan }

/-- The turns of the elements, in ascending plot and site: those that are present in a started plot. -/
def elemTurns (s : State) : List Turn :=
  (s.elems.filter fun x => x.2.present && (getPlot s (x.1 / 32)).started).map fun x => .elem (locOfKey x.1)

/-- The issue watchpoints that were armed in the cycle that ends (spec 13 R234). -/
def armAll (u : LeUnit) : LeUnit := { u with wps := u.arming.foldl (fun w x => w.set x.1 x.2) u.wps, arming := [] }

/-- A fault of the cycle whose die has no handler is resolved as though answered with kill (spec 18 R319): no trigger of its cycle has seen that. -/
def answerUnheard (s : State) : State :=
  (s.faults.filter (·.unheard)).foldl (fun s r => match findFault s r.id with
    | some r => answerFid (setFault s { r with unheard := false }) { r with unheard := false } ⟨.kill, 0⟩
    | none => s) s

/-- What the cycle that ends leaves for its end: kills, joins, watchpoints and trace records. -/
def endCycle (s : State) : State :=
  let s := answerUnheard s
  { s with elems := s.elems.map fun x => (x.1, joinAll x.2), les := s.les.map fun x => (x.1, armAll x.2)
           plots := s.plots.map fun x => (x.1, { x.2 with trace := traceCycle (timestamp s) x.2.trace }) }

/-- System software writes an entry of the table of DVL windows through the Reeve (spec 12 R196; log 48). -/
def takeDvlWrite (s : State) : State :=
  match s.dvlWrites with
  | x :: xs => { s with dvl := Tbl.put s.dvl (x.1 % 256) x.2, dvlWrites := xs }
  | [] => s

/-- The firmware bank that the part boots with is measured, before anything that was loaded in cycle 0 (spec 20 R356; log 28). -/
def measureBoot (s : State) : State :=
  if now s = 0 then
    { modSched s (fun c => { c with freeCtr := c.freeCtr + 1 }) with
      reeve := { s.reeve with mlog := Config.measuredHash s.sched.freeCtr :: s.reeve.mlog } }
  else s

/-- The next cycle begins. -/
def nextCycle (s : State) : State :=
  let n := s.sched.cycle + 1
  let s := measureBoot (takeSamples (takeDvlWrite (endCycle s)))
  let s := { s with parcels := s.parcels.map fun x => (x.1, countCycles x.2) }
  modSched s fun c => { c with cycle := n }

end Sys2Proof.Machine
end

