-- ==== Sys2Proof/Machine/Hash.lean ====
section
/-!
DEFINITION. SHAKE256 with 256-bit output (spec 03 R47, 05 R99, 20 R356) and CRC-64 of ECMA-182 (07 R123, 05 R99), which the manual names by their
standards (PRESUMED, log 22).
-/

namespace Sys2Proof.Machine

/-! ### SHAKE256 (FIPS 202) -/

/-- The sponge's state: five planes of five lanes, plane y holding the lanes (0, y) to (4, y). -/
abbrev Planes := List (List Word)

def noPlanes : Planes := List.replicate 5 (List.replicate 5 0)

/-- A list of lanes or planes begun n places later. -/
def turned {α : Type} (n : Nat) (xs : List α) : List α := xs.drop n ++ xs.take n

def xorRow : List Word → List Word → List Word := List.zipWith (· ^^^ ·)

/-- Step θ: each lane takes the parities of the column before it and, rotated by one, of the column after it. -/
def mixColumns (a : Planes) : Planes :=
  let parity := a.foldl xorRow (List.replicate 5 0)
  a.map (xorRow (xorRow (turned 4 parity) ((turned 1 parity).map fun c => c.rotateLeft 1)))

/-- A walk over the lanes other than (0, 0), with the lane in hand. -/
structure Walk where
  x : Nat
  y : Nat
  hand : Word
  planes : Planes

/-- One move of steps ρ and π: the lane in hand, rotated by the t-th triangular number, takes the place (y, 2 x + 3 y), whose lane is next in hand. -/
def walkOn (w : Walk) (t : Nat) : Walk :=
  let x := w.y
  let y := (2 * w.x + 3 * w.y) % 5
  let plane := w.planes.getD y []
  { x := x, y := y, hand := plane.getD x 0, planes := w.planes.set y (plane.set x (w.hand.rotateLeft ((t + 1) * (t + 2) / 2 % 64))) }

/-- Steps ρ and π, from the lane (1, 0) on. -/
def scatter (a : Planes) : Planes := ((List.range 24).foldl walkOn { x := 1, y := 0, hand := (a.getD 0 []).getD 1 0, planes := a }).planes

/-- Step χ, plane by plane. -/
def mixPlanes (a : Planes) : Planes := a.map fun r => xorRow r (List.zipWith (fun p q => ~~~p &&& q) (turned 1 r) (turned 2 r))

/-- One move of the round constants' shift register. -/
def nextBit (r : Nat) : Nat := if r < 128 then 2 * r else (2 * r - 256) ^^^ 0x71

/-- Seven bits of the shift register enter bits 0, 1, 3, 7, 15, 31 and 63 of a round constant; the register goes on from there. -/
def roundConst (r : Nat) : Word × Nat :=
  (List.range 7).foldl (fun x j => (if x.2 % 2 = 1 then x.1 ||| (1#64 <<< (2 ^ j - 1)) else x.1, nextBit x.2)) (0, r)

/-- One round, with the shift register. -/
def spongeRound (s : Planes × Nat) : Planes × Nat :=
  let c := roundConst s.2
  (match mixPlanes (scatter (mixColumns s.1)) with
    | (x :: xs) :: rows => ((x ^^^ c.1) :: xs) :: rows
    | a => a, c.2)

/-- The 24 rounds. -/
def permute (a : Planes) : Planes := ((List.range 24).foldl (fun s _ => spongeRound s) (a, 1)).1

/-- A lane of bytes, the first byte least significant. -/
def laneOfBytes (bs : List Byte) : Word := bs.foldr (fun b v => (v <<< 8) ||| b.setWidth 64) 0

/-- A block of 136 bytes as planes: its 17 lanes, the others zero. -/
def blockPlanes (bs : List Byte) : Planes :=
  (List.range 5).map fun y => (List.range 5).map fun x => laneOfBytes ((bs.drop (8 * (5 * y + x))).take 8)

/-- Bytes are absorbed block by block; with the last one, SHAKE's bits 1111 and its padding 1, zeros, 1. Fuel bounds the blocks. -/
def absorb : Nat → Planes → List Byte → Planes
  | 0, a, _ => a
  | n + 1, a, bs =>
    if 136 ≤ bs.length then absorb n (permute (List.zipWith xorRow a (blockPlanes (bs.take 136)))) (bs.drop 136)
    else
      let short := bs ++ 0x1F :: List.replicate (135 - bs.length) 0
      permute (List.zipWith xorRow a (blockPlanes (short.take 135 ++ (short.drop 135).map (· ||| 0x80))))

/-- SHAKE256 of bytes, 32 bytes of output as a number, the first byte least significant. -/
def shake256 (bs : List Byte) : BitVec 256 :=
  match (absorb (bs.length / 136 + 1) noPlanes bs).headD [] with
  | p :: q :: r :: t :: _ => t ++ r ++ q ++ p
  | _ => 0

/-! ### CRC-64 (ECMA-182) -/

def crcBit (c : Word) : Word := if c.getLsbD 63 then (c <<< 1) ^^^ 0x42F0E1EBA9EA3693 else c <<< 1

def crcByte (c : Word) (b : Byte) : Word :=
  (List.range 8).foldl (fun c _ => crcBit c) (c ^^^ ((b.setWidth 64) <<< 56))

/-- The CRC-64 of bytes, first byte first, most significant bit first, from 0. -/
def crc64 (bs : List Byte) : Word := bs.foldl crcByte 0

end Sys2Proof.Machine
end

