-- ==== Sys2Proof/Machine/Image.lean ====
section
/-!
DEFINITION. Kernels and section images as the device reads them (spec 03 R46 to R57): the checks before placement, and a plot block decoded into
the configuration of its plot, or the place of the rule that it breaks.
-/

namespace Sys2Proof.Machine

/-- Bytes of an image: in the context's address space, or of one in the code heap by physical address (spec 05 R102). -/
def readImage (s : State) (ctx : Nat) (phys : Bool) (a n : Nat) : Except VBad (List Byte) :=
  if phys then
    (if poisoned s.memPoison a n then .error ⟨.memerr, 1, a⟩ else .ok (readBytes s.mem a n))
  else (readVirt s 0 ctx a n none).2

/-- A signed 32-bit offset from an address. -/
def offsetAddr (a off32 : Nat) : Nat := wrapTo 64 ((a : Int) + signedOf 32 off32)

/-! ### Kernels (R47) -/

/-- A kernel header that breaks no rule. -/
structure Kernel where
  addr : Nat
  flags : Nat
  gen : Nat
  len : Nat
  hash : Nat
  deriving DecidableEq, Repr

def readKernel (a : Nat) (bs : List Byte) : Option Kernel :=
  let k : Kernel := ⟨a, fieldAt bs 6 2, fieldAt bs 8 1, fieldAt bs 0xC 4, fieldAt bs 0x10 32⟩
  if fieldAt bs 0 4 = 0x4B4D594E ∧ fieldAt bs 4 2 = 1 ∧ k.flags < 4 ∧ 1 ≤ k.gen ∧ k.gen ≤ 3 ∧ (bitOf k.flags 0 → k.gen = 2) ∧ 0x40 ≤ k.len ∧
      fieldAt bs 9 3 = 0 ∧ fieldAt bs 0x30 16 = 0 then some k else none

def kernelAt (s : State) (ctx : Nat) (phys : Bool) (a : Nat) : Option Kernel :=
  match readImage s ctx phys a 64 with
  | .ok bs => readKernel a bs
  | .error _ => none

def genOf (n : Nat) : Gen := if n = 1 then .d1 else if n = 2 then .d2 else .d3

/-! ### Section descriptors (R48, R56, R57) -/

/-- What a section image gives before placement. -/
structure Section where
  desc : Nat
  kernel : Kernel
  w : Nat
  h : Nat
  plotOffs : List Nat
  regions : List Region
  patches : List Word
  deriving DecidableEq, Repr

/-- A range of an image lies within its kernel. -/
def within (k : Kernel) (a n : Nat) : Bool := decide (k.addr ≤ a) && decide (a + n ≤ k.addr + k.len)

/-- A region record of a parcel of w × h plots (R56). A field of the other kind must be 0, and two
records of one number are legal: the first holds (log 49). -/
def readRegion (w h : Nat) (bs : List Byte) : Option Region :=
  let kind := fieldAt bs 0 1
  let sz := fieldAt bs 4 1
  let r : Region :=
    { tree := kind == 0, id := fieldAt bs 1 1, dx := fieldAt bs 2 1, dy := fieldAt bs 3 1, w := 2 ^ bitsOf sz 2 0, h := 2 ^ bitsOf sz 6 4,
      rx := fieldAt bs 5 1, ry := fieldAt bs 6 1, pol := policyOf (fieldAt bs 7 1), tmo := fieldAt bs 8 4 }
  if kind ≤ 1 ∧ r.id < (if kind = 0 then 8 else 32) ∧ !bitOf sz 3 ∧ !bitOf sz 7 ∧ r.w ≤ w ∧ r.h ≤ h ∧ r.dx % r.w = 0 ∧ r.dy % r.h = 0 ∧
      r.dx + r.w ≤ w ∧ r.dy + r.h ≤ h ∧ fieldAt bs 0xC 4 = 0 ∧
      (if kind = 0 then r.dx ≤ r.rx ∧ r.rx < r.dx + r.w ∧ r.dy ≤ r.ry ∧ r.ry < r.dy + r.h ∧ fieldAt bs 7 1 = 0
       else fieldAt bs 5 2 = 0 ∧ fieldAt bs 7 1 ≤ 4 ∧ r.tmo = 0) then some r else none

/-- Every element of a list, where each has a value. -/
def allSome {α : Type} : List (Option α) → Option (List α)
  | [] => some []
  | x :: xs => match x, allSome xs with
    | some y, some ys => some (y :: ys)
    | _, _ => none

/-- A table of n records of `size` bytes. -/
def readTable (s : State) (ctx : Nat) (phys : Bool) (k : Kernel) (a n size : Nat) : Option (List (List Byte)) :=
  if n = 0 then some []
  else if !within k a (n * size) then none
  else match readImage s ctx phys a (n * size) with
    | .ok bs => some ((List.range n).map fun i => (bs.drop (i * size)).take size)
    | .error _ => none

/-- Plots of a section that are not empty hold a block. -/
def blockAddr (sec : Section) (i : Nat) : Option Nat :=
  match sec.plotOffs[i]? with
  | some 0 | none => none
  | some o => some (sec.desc + o)

/-- The bytes of a plot block, where they can be read and BLEN is legal. -/
def readBlock (s : State) (ctx : Nat) (phys : Bool) (a : Nat) : Option (List Byte) :=
  match readImage s ctx phys a 64 with
  | .ok hd =>
    if 64 ≤ fieldAt hd 0 4 ∧ fieldAt hd 0 4 ≤ 16384 then
      (match readImage s ctx phys a (fieldAt hd 0 4) with
      | .ok bs => some bs
      | .error _ => none)
    else none
  | .error _ => none

def sectionBlock (s : State) (ctx : Nat) (phys : Bool) (sec : Section) (i : Nat) : Option (List Byte) :=
  (blockAddr sec i).bind (readBlock s ctx phys)

/-- The stream records of a block: site, stream, pattern. -/
def blockStreams (bs : List Byte) : List (Nat × Nat × List Byte) :=
  (List.range (fieldAt bs 0x1F 1)).map fun i =>
    let a := fieldAt bs 0x30 4 + 72 * i
    (fieldAt bs a 1 % 32, fieldAt bs a 1 / 32, (bs.drop (a + 8)).take 64)

/-- The target that a patch record names is one of its kind's (R57): a register d0 to d7, c0, c1 or k, or a stream. -/
def patchTarget (kind target : Nat) : Bool :=
  if kind = 0 then decide (target < 8) || decide (13 ≤ target) else decide (kind = 1) && decide (target < 8)

/-- A patch record by its own fields, for a section of `plots` plots whose node gives `len` bytes of arguments (R57). -/
def patchOk (plots len : Nat) (p : Word) : Bool :=
  let n := p.toNat
  decide (bitsOf n 26 16 = 0) && decide (bitsOf n 47 40 = 0) && decide (bitsOf n 15 0 < plots) && decide (8 * (bitsOf n 63 48 + 1) ≤ len) &&
  patchTarget (bitsOf n 39 36) (bitsOf n 35 32)

/-- What a patch record names stands in the block of its plot (R57): the declared stream; or, where the manual is silent, a present site whose kind
has registers (log 49). -/
def patchFits (bs : List Byte) (p : Word) : Bool :=
  let n := p.toNat
  let site := bitsOf n 31 27
  if bitsOf n 39 36 = 0 then bitOf (fieldAt bs 4 4) site && (kindOfSite site).hasRegs
  else (blockStreams bs).any fun x => x.1 == site && x.2.1 == bitsOf n 35 32

/-- A patch record of a section as the check before placement sees it (R46, R57). A block that cannot be read, or whose BLEN is illegal, is left to the
check of its plot (07 R126); a patch of an empty plot is illegal (log 49). -/
def patchPasses (off : Nat → Nat) (block : Nat → Option (List Byte)) (p : Word) : Bool :=
  off (bitsOf p.toNat 15 0) != 0 &&
  match block (bitsOf p.toNat 15 0) with
  | none => true
  | some bs => patchFits bs p

/-- The section at an address (R48): none where a rule before placement is broken (R46), or where the descriptor, the kernel header or a table cannot be
read (log 49). -/
def readSection (s : State) (ctx : Nat) (phys : Bool) (desc shape argLen : Nat) : Option Section :=
  if desc % 64 ≠ 0 then none
  else match readImage s ctx phys desc 64 with
  | .error _ => none
  | .ok d =>
    match kernelAt s ctx phys (offsetAddr desc (fieldAt d 4 4)) with
    | none => none
    | some k =>
      let w := 2 ^ bitsOf shape 2 0
      let h := 2 ^ bitsOf shape 6 4
      if fieldAt d 0 4 ≠ 0x54434553 ∨ fieldAt d 8 1 ≠ shape ∨ bitOf shape 3 ∨ bitOf shape 7 ∨ 32 < w ∨ 16 < h ∨ fieldAt d 9 1 ≠ 0 ∨
          fieldAt d 0xE 2 ≠ 0 ∨ !zeroFrom28 d ∨ !within k desc 64 ∨ bitOf k.flags 1 then none
      else
        let plots := w * h
        match readTable s ctx phys k (desc + fieldAt d 0x10 4) plots 4, readTable s ctx phys k (desc + fieldAt d 0x14 4) (fieldAt d 0xA 2) 16,
            readTable s ctx phys k (desc + fieldAt d 0x18 4) (fieldAt d 0xC 2) 8 with
        | some ps, some rs, some as =>
          (match allSome (rs.map (readRegion w h)) with
          | none => none
          | some regs =>
            let sec : Section := { desc := desc, kernel := k, w := w, h := h, plotOffs := ps.map (ofBytes ·), regions := regs,
                                   patches := as.map fun a => BitVec.ofNat 64 (ofBytes a) }
            if (sec.plotOffs.all fun o => o == 0 || (o % 64 == 0 && within k (desc + o) 64)) &&
                (sec.patches.all fun a => patchOk plots argLen a && patchPasses (fun i => sec.plotOffs.getD i 0) (sectionBlock s ctx phys sec) a) then
              some sec else none)
        | _, _, _ => none
where zeroFrom28 (d : List Byte) : Bool := (d.drop 0x1C).all fun b => b == 0

/-- Whether a kernel's HASH is that of its bytes (R47); none while some of them cannot be read (log 41). -/
def kernelHash (s : State) (ctx : Nat) (k : Kernel) : Option Bool :=
  match readImage s ctx false (k.addr + 64) (k.len - 64) with
  | .ok bs => some ((shake256 bs).toNat == k.hash)
  | .error _ => none

/-! ### Element records (R50 to R52) -/

/-- A place of a broken rule: site and slot. -/
abbrev Broken := Nat × Nat

/-- Bytes of an element record. -/
def recordSize (k : Kind) : Nat := if k.hasRegs then 320 else 256

/-- A slot whose memory operation takes wave numbers (R51). -/
def usesWave : Instr → Bool
  | .ld .. | .st _ | .amo .. | .amoCas _ | .red .. | .wfence .. | .mseal .. | .munseal .. => true
  | _ => false

/-- Every output that a fan mask selects has the same width (R50). -/
def fanMaskOk (k : Kind) (fan : BitVec 4) : Bool := !k.hasWide || fan.setWidth 2 == 0 || fan.toNat / 4 == 0

/-- A slot of a user or headland element decoded into its D3 word; none for one that breaks a rule. -/
def slotWord (g : Gen) (k : Kind) (hl : Bool) (fan : BitVec 4) (n : Nat) (w : Word) : Option Word :=
  match decodeSlotGen g k hl fan n w with
  | .ok none => some 0
  | .ok (some x) => if g = .d3 then some w else encodeSlot x
  | .error _ => none

/-- The channel outputs of a slot have routes, and with W = 16 no long one (R53, 08 R131). -/
def slotRoutes (outs : Fin 4 → Option Route) (fan : BitVec 4) (x : Slot) : Bool :=
  let ns : List (Fin 4) := match x.act.dst with
    | .ch n => [n]
    | .fan => [(0 : Fin 4), 1, 2, 3].filter fun n => fan.getLsbD n.val
    | _ => []
  ns.all fun n => match outs n with
    | some r => !(r.long && x.trig.w == .w16)
    | none => false

def isZero (bs : List Byte) (off n : Nat) : Bool := ((bs.drop off).take n).all fun b => b == 0

/-- The part of a record after the common 192 bytes holds what its kind allows (R52; a directory address that is not 64-byte aligned, 15 R274: log 49). -/
def kindPartOk (k : Kind) (bs : List Byte) : Bool :=
  match k with
  | .ce | .fe => isZero bs 0x118 0x28
  | .me =>
    fieldAt bs 0xC0 4 / 16 == 0 && ((List.range 4).all fun i => bitsOf (fieldAt bs (0xCC + i) 1) 2 0 ≤ 4 && !bitOf (fieldAt bs (0xCC + i) 1) 3 &&
      fieldAt bs (0xCC + i) 1 / 32 == 0) && fieldAt bs 0xD0 2 != 0 &&
    (fieldAt bs 0xD3 1 == 0 || (decide (20 ≤ fieldAt bs 0xD3 1) && decide (fieldAt bs 0xD3 1 ≤ 23))) && isZero bs 0xD6 2 &&
    fieldAt bs 0xD8 8 % 64 == 0 && isZero bs 0xE0 0x20
  | .xe => decide (fieldAt bs 0xC0 1 ≤ 4) && isZero bs 0xC1 0x3F
  | .se | .le => isZero bs 0xC0 0x40

/-- The D3 word of a record's slot n; none for one that breaks a rule. -/
def slotAt (g : Gen) (k : Kind) (hl : Bool) (fan : BitVec 4) (outs : Fin 4 → Option Route) (wave : Nat → BitVec 16) (bs : List Byte) (n : Nat) : Option Word :=
  match slotWord g k hl fan n (BitVec.ofNat 64 (fieldAt bs (8 * n) 8)) with
  | none => none
  | some w =>
    match decodeSlot k hl fan w with
    | .ok (some x) => if slotRoutes outs fan x && (usesWave x.act || wave n == 0x7FFF) then some w else none
    | .ok none => if wave n = 0x7FFF then some w else none
    | .error _ => none

/-- The words before the first none of a list, and its place. -/
def untilNone : List (Option Word) → List Word × Option Nat
  | [] => ([], none)
  | none :: _ => ([], some 0)
  | some w :: ws => (w :: (untilNone ws).1, (untilNone ws).2.map (· + 1))

/-- The slots of a record up to the first that breaks a rule, and that one. -/
def slotsOf (g : Gen) (k : Kind) (hl : Bool) (fan : BitVec 4) (outs : Fin 4 → Option Route) (wave : Nat → BitVec 16) (bs : List Byte) :
    List Word × Option Nat :=
  untilNone ((List.range 16).map (slotAt g k hl fan outs wave bs))

/-- An element as its record sets it (R50, R52), with no channel yet. -/
def elemOf (k : Kind) (err : Bool) (ws : List Word) (bs : List Byte) : Elem :=
  let ctl := fieldAt bs 0xA0 4
  let w64 (o : Nat) : Word := BitVec.ofNat 64 (fieldAt bs o 8)
  { present := true, kind := k, err := err, slots := Vector.ofFn fun n => ws.getD n.val 0
    wave := Vector.ofFn fun n => BitVec.ofNat 16 (fieldAt bs (0x80 + 2 * n.val) 2)
    fan := BitVec.ofNat 4 (bitsOf ctl 11 8), pol := policyOf (bitsOf ctl 14 12), p := BitVec.ofNat 8 ctl, fpm := w64 0xA8
    d := if k.hasRegs then Vector.ofFn fun n => w64 (0xC0 + 8 * n.val) else Vector.replicate 8 0
    c0 := if k.hasRegs then w64 0x100 else 0, c1 := if k.hasRegs then w64 0x108 else 0, k := if k.hasRegs then w64 0x110 else 0
    bound := if k = .xe then fieldAt bs 0xC0 1 else 0 }

/-- A matrix element's unit as its record sets it (R52). -/
def meOf (bs : List Byte) : MeUnit :=
  let a := fieldAt bs 0xC0 1
  { reuse := fieldAt bs 0xD0 2, spillHandle := fieldAt bs 0xD2 1, spillSite := fieldAt bs 0xD3 1, tag := fieldAt bs 0xD4 2, dir := fieldAt bs 0xD8 8
    nodeA := { bufs := List.replicate (bitsOf a 1 0 + 1) {} }, nodeB := { bufs := List.replicate (bitsOf a 3 2 + 1) {} }
    accs := Vector.ofFn fun n =>
      let c := fieldAt bs (0xCC + n.val) 1
      { count := fieldAt bs (0xC4 + 2 * n.val) 2, norm := bitsOf c 2 0, chan := if bitOf c 4 then 1 else 0 } }

/-- The part of a record beside its slots breaks no rule (R50, R52); its fan mask selects no output without a route (R53). -/
def elemHeadOk (g : Gen) (site : Nat) (outs : Fin 4 → Option Route) (bs : List Byte) : Bool :=
  let k := kindOfSite site
  let ctl := fieldAt bs 0xA0 4
  let fan := BitVec.ofNat 4 (bitsOf ctl 11 8)
  let fpm := fieldAt bs 0xA8 8
  !(g == .d1 && (k == .me || k == .xe)) && decide (bitsOf ctl 14 12 < 5) && decide (ctl / 2 ^ 15 = 0) && fanMaskOk k fan &&
  ([(0 : Fin 4), 1, 2, 3].all fun n => !fan.getLsbD n.val || (outs n).isSome) && decide (fieldAt bs 0xA4 4 = 0) && isZero bs 0xB0 16 &&
  kindPartOk k bs && decide ((if k.hasFpm then fpm &&& fpmMask.toNat else 0) = fpm)

/-- A present element's record decoded, up to the first rule that it breaks, and that rule's place: slot 0 where it lies in no slot (log 49); `hl` for an
element of a headland. -/
def elemRecord (g : Gen) (err hl : Bool) (site : Nat) (outs : Fin 4 → Option Route) (bs : List Byte) : (Elem × Option MeUnit) × Option Broken :=
  let k := kindOfSite site
  let fan := BitVec.ofNat 4 (bitsOf (fieldAt bs 0xA0 4) 11 8)
  let ws := if elemHeadOk g site outs bs then slotsOf g k hl fan outs (fun n => BitVec.ofNat 16 (fieldAt bs (0x80 + 2 * n) 2)) bs else ([], some 0)
  ((elemOf k err ws.1 bs, if k = .me then some (meOf bs) else none), ws.2.map fun n => (site, n))

/-! ### Plot records (R49, R53 to R55) -/

/-- The route of a record: source site and channel, destination plot by parcel offset, its site and channel (R53). -/
structure RouteRec where
  ssite : Nat
  sch : Fin 4
  dsite : Nat
  dch : Fin 4
  long : Bool
  dx : Nat
  dy : Nat
  out : Bool
  deriving DecidableEq, Repr

def fin4Of (n : Nat) : Fin 4 := ⟨n % 4, Nat.mod_lt _ (by decide)⟩

def readRoute (w : Nat) : RouteRec :=
  { ssite := bitsOf w 4 0, sch := fin4Of (bitsOf w 6 5), dsite := bitsOf w 12 8, dch := fin4Of (bitsOf w 14 13), long := bitOf w 7
    dx := bitsOf w 20 16, dy := bitsOf w 24 21, out := bitOf w 25 }

/-- The route records of a block, where they lie in it. -/
def blockRoutes (bs : List Byte) : List Nat := (List.range (fieldAt bs 0x1C 2)).map fun i => fieldAt bs (fieldAt bs 0x28 4 + 8 * i) 8

/-- The plot and the parcel that a block is decoded for: generation, erratum compatibility, shape, its index, and the sites of each plot. -/
structure BlockEnv where
  gen : Gen
  err : Bool
  w : Nat
  h : Nat
  idx : Nat
  sites : Nat → BitVec 32

def routeOk (v : BlockEnv) (w : Nat) : Bool :=
  let r := readRoute w
  let target := if r.long then r.dy * v.w + r.dx else v.idx
  let wide (site : Nat) (n : Fin 4) : Bool := (kindOfSite site).wideCh n
  w / 2 ^ 26 == 0 && !bitOf w 15 && (v.sites v.idx).getLsbD r.ssite &&
  (if r.long then decide (r.dx < v.w) && decide (r.dy < v.h) else r.dx == 0 && r.dy == 0) && (v.sites target).getLsbD r.dsite &&
  wide r.ssite r.sch == wide r.dsite r.dch && (v.gen != .d1 || !wide r.ssite r.sch)

/-- No two routes leave one output or enter one input. -/
def routesApart (v : BlockEnv) (rs : List RouteRec) : Bool :=
  let from_ := rs.map fun r => (r.ssite, r.sch)
  let to_ := rs.map fun r => (if r.long then r.dy * v.w + r.dx else v.idx, r.dsite, r.dch)
  from_.eraseDups.length == from_.length && to_.eraseDups.length == to_.length

/-- What a legal plot block gives. -/
structure PlotCfg where
  hmask : List (BitVec 32)
  elems : List (Nat × Elem × Option MeUnit)
  tiles : List Word
  streams : List (Nat × Nat × List Byte)
  rings : List Nat
  bars : List Nat

/-- The element records of present sites, which follow one another from an offset (R49), up to the first that breaks a rule, and that rule's place;
a record that leaves the block is a break of the plot's own. -/
def elemRecords (v : BlockEnv) (outs : Nat → Fin 4 → Option Route) (bs : List Byte) : Nat → List Nat → List (Nat × Elem × Option MeUnit) × Option Broken
  | _, [] => ([], none)
  | off, site :: rest =>
    let n := recordSize (kindOfSite site)
    if bs.length < off + n then ([], some (0, 0))
    else
      let r := elemRecord v.gen v.err false site (outs site) ((bs.drop off).take n)
      match r.2 with
      | some b => ([(site, r.1)], some b)
      | none => ((site, r.1) :: (elemRecords v outs bs (off + n) rest).1, (elemRecords v outs bs (off + n) rest).2)

/-- A table of a block lies in it, aligned, and not in the plot header (log 49). -/
def tableOk (len off n size : Nat) : Bool := n == 0 || (off % 8 == 0 && decide (64 ≤ off) && decide (off + n * size ≤ len))

/-- The masks that HMASK selects: five zero words select the default ones (11 R190). -/
def hmaskOf (bs : List Byte) : Option (List (BitVec 32)) :=
  let ms := (List.range 5).map fun i => fieldAt bs (8 + 4 * i) 4
  if ms.all fun m => m == 0 then some [0x40, 0x80, 0x100, 0x200, 0x400]
  else if masksOk ms then some (ms.map (BitVec.ofNat 32)) else none

/-- The rules of a block apart from its element records and its tiles. -/
def blockHeadOk (v : BlockEnv) (bs : List Byte) : Bool :=
  let len := fieldAt bs 0 4
  let g := fieldAt bs 0x34 4
  let nring := fieldAt bs 0x20 1
  let nbar := fieldAt bs 0x21 1
  decide (64 ≤ len) && decide (len ≤ 16384) && len == bs.length && decide (fieldAt bs 0x1F 1 ≤ 32) && decide (nring ≤ 8) && decide (nbar ≤ 32) &&
  fieldAt bs 0x22 2 == 0 && fieldAt bs 0x38 8 == 0 && (hmaskOf bs).isSome &&
  (fieldAt bs 4 4 == 0 || (fieldAt bs 0x24 4 % 8 == 0 && decide (64 ≤ fieldAt bs 0x24 4))) && tableOk len (fieldAt bs 0x28 4) (fieldAt bs 0x1C 2) 8 &&
  tableOk len (fieldAt bs 0x2C 4) (fieldAt bs 0x1E 1) 8 && tableOk len (fieldAt bs 0x30 4) (fieldAt bs 0x1F 1) 72 && tableOk len g (nring + nbar) 8 &&
  (blockRoutes bs).all (routeOk v) && routesApart v ((blockRoutes bs).map readRoute) &&
  ((List.range (fieldAt bs 0x1F 1)).all fun i =>
    let hd := fieldAt bs (fieldAt bs 0x30 4 + 72 * i) 8
    hd / 256 == 0 && decide (24 ≤ hd % 32) && decide (hd % 32 < 28) && bitOf (fieldAt bs 4 4) (hd % 32)) &&
  ((List.range nring).all fun i =>
    let r := fieldAt bs (g + 8 * i) 8
    r / 2 ^ 16 == 0 && !bitOf r 3 && decide (bitsOf r 15 8 + bitsOf r 7 4 ≤ 255)) &&
  ((List.range nbar).all fun i =>
    let b := fieldAt bs (g + 8 * (nring + i)) 8
    bitsOf b 31 5 == 0 && (bitsOf b 63 32 &&& fieldAt bs 4 4) == bitsOf b 63 32)

/-- The actions of an element's valid slots, with their numbers. -/
def slotActs (e : Elem) : List (Nat × Instr) :=
  (List.range 16).filterMap fun n => match decodeSlot e.kind false e.fan (e.slots.toList.getD n 0) with
    | .ok (some x) => some (n, x.act)
    | _ => none

/-- What a slot's `mma` names for an operand node: the channel that feeds it, or 12 for one that handles feed. In ROW, sb carries the gathered
rows and names no node. -/
def feedName (nodeB : Bool) : Instr → Option Src
  | .mma x => if nodeB && x.flow == .row then none else some (if nodeB then x.sb else x.sa)
  | _ => none

/-- The first slot of an element that breaks how a node is fed (14 R248, 15 R264): a node is port-fed where any slot names a channel for it, and
then every slot must name the first such channel. -/
def feedBreak (acts : List (Nat × Instr)) (nodeB : Bool) : Option Nat :=
  let names := acts.filterMap fun x => (feedName nodeB x.2).map fun c => (x.1, c)
  match names.find? fun x => x.2.isCh with
  | none => none
  | some (_, c) => (names.find? fun x => x.2 != c).map (·.1)

/-- An `mma` slot with ad = 1. -/
def usesAdapter : Instr → Bool
  | .mma x => x.ids != .none
  | _ => false

/-- What a slot needs of its plot: the routes of its release channel and of o0 in ROW (14 R254, R259), an adapter directory (15 R266), a format for
narrow results (15 R270), its node's release channel (15 R272), the matrix element that it prefetches for (13 R244), and its ring (16 R287). -/
def actFits (outs : Fin 4 → Option Route) (present : BitVec 32) (rings : List Nat) (m : Option MeUnit) (a : Instr) : Bool :=
  let ring (r : Fin 8) : Bool := rings.any fun x => bitsOf x 2 0 == r.val
  match a with
  | .mma x =>
    let u := m.getD {}
    (outs (relPort (u.accs[x.an]).chan)).isSome && (x.flow != .row || (outs 0).isSome) && (x.ids == .none || u.dir != 0)
  | .accRd x _ => match x.dst with
    | .ch n => decide (2 ≤ n.val) || (((m.getD {}).accs[x.an]).norm != 0)
    | _ => true
  | .accRel x _ => x.dst == .none || x.dst == .ch (relPort ((m.getD {}).accs[x.an]).chan)
  | .adPf _ me _ _ => present.getLsbD (16 + me.val)
  | .stgAcq _ r _ _ => ring r
  | .stgRel _ r _ _ => ring r
  | _ => true

/-- The first slot of an element that breaks a rule tying it to other records of its plot. -/
def elemCross (outs : Nat → Fin 4 → Option Route) (present : BitVec 32) (c : PlotCfg) (x : Nat × Elem × Option MeUnit) : Option Broken :=
  let adapted := c.elems.filterMap fun y => if (slotActs y.2.1).any (fun a => usesAdapter a.2) then y.2.2.map (·.dir) else none
  let acts := slotActs x.2.1
  let bad := (acts.find? fun a => !actFits (outs x.1) present c.rings x.2.2 a.2 ||
    (usesAdapter a.2 && adapted.headD 0 != (x.2.2.getD {}).dir)).map (·.1)
  (bad.toList ++ (feedBreak acts false).toList ++ (feedBreak acts true).toList).min?.map fun n => (x.1, n)

/-- The first slot, by site and slot, that breaks such a rule. -/
def crossBreak (outs : Nat → Fin 4 → Option Route) (present : BitVec 32) (c : PlotCfg) : Option Broken := c.elems.findSome? (elemCross outs present c)

/-- The place of a break as one number, lowest site first and then lowest slot. -/
def Broken.rank (b : Broken) : Nat := b.1 * 16 + b.2

/-- What a block with a legal head gives, as far as its element records can be decoded, and the lowest break of a record or between records (04 R82). -/
def blockBody (v : BlockEnv) (outs : Nat → Fin 4 → Option Route) (bs : List Byte) : PlotCfg × Option Broken :=
  let es := elemRecords v outs bs (fieldAt bs 0x24 4) ((List.range 32).filter fun n => bitOf (fieldAt bs 4 4) n)
  let g := fieldAt bs 0x34 4
  let nring := fieldAt bs 0x20 1
  let c : PlotCfg :=
    { hmask := (hmaskOf bs).getD [], elems := es.1
      tiles := (List.range (fieldAt bs 0x1E 1)).map fun i => BitVec.ofNat 64 (fieldAt bs (fieldAt bs 0x2C 4 + 8 * i) 8)
      streams := blockStreams bs, rings := (List.range nring).map fun i => fieldAt bs (g + 8 * i) 8
      bars := (List.range (fieldAt bs 0x21 1)).map fun i => fieldAt bs (g + 8 * (nring + i)) 8 }
  (c, match es.2, crossBreak outs (BitVec.ofNat 32 (fieldAt bs 4 4)) c with
    | some a, some b => some (if a.rank ≤ b.rank then a else b)
    | some a, none => some a
    | none, b => b)

/-- A plot block decoded (R46, R49). -/
def decodeBlock (v : BlockEnv) (outs : Nat → Fin 4 → Option Route) (bs : List Byte) : Except Broken PlotCfg :=
  if !blockHeadOk v bs then .error (0, 0)
  else match (blockBody v outs bs).2 with
    | some b => .error b
    | none => .ok (blockBody v outs bs).1

/-! ### Errata that cannot be reproduced (04 R86) -/

/-- The sites of a block with the offsets of their records (R49). -/
def recordsAt (bs : List Byte) : List (Nat × Nat) :=
  (((List.range 32).filter fun n => bitOf (fieldAt bs 4 4) n).foldl
    (fun (st : Nat × List (Nat × Nat)) n => (st.1 + recordSize (kindOfSite n), st.2 ++ [(n, st.1)])) (fieldAt bs 0x24 4, [])).2

/-- A block of a D2 kernel with ERR that holds an `mma` slot, or a long route that crosses a die boundary of its parcel. -/
def errataIn (w h i : Nat) (bs : List Byte) : Bool :=
  ((recordsAt bs).any fun x => kindOfSite x.1 == .me && (List.range 16).any fun n =>
    let w := fieldAt bs (x.2 + 8 * n) 8
    bitOf w 63 && bitsOf w 31 25 == 0x20) ||
  ((blockRoutes bs).any fun w' =>
    let r := readRoute w'
    r.long && ((w == 32 && i % w / 16 != r.dx / 16) || (h == 16 && i / w / 8 != r.dy / 8)))

/-- The section images that a kernel contains: each 64-byte aligned place of it that holds a legal descriptor whose KOFF leads to the kernel (log 41). -/
def kernelSections (s : State) (ctx : Nat) (phys : Bool) (k : Kernel) : List Section :=
  let a0 := (k.addr + 63) / 64 * 64
  (List.range (k.len / 64)).filterMap fun i =>
    match readImage s ctx phys (a0 + 64 * i) 64 with
    | .ok d =>
      if fieldAt d 0 4 = 0x54434553 then (readSection s ctx phys (a0 + 64 * i) (fieldAt d 8 1) (2 ^ 20)).filter fun x => x.kernel == k else none
    | .error _ => none

/-- A kernel that asks for D2's errata holds the construct of one that cannot be reproduced, in the section that a node names or in another (R86). -/
def errataUnavailable (s : State) (ctx : Nat) (phys : Bool) (sec : Section) : Bool :=
  sec.kernel.gen == 2 && bitOf sec.kernel.flags 0 && (sec :: kernelSections s ctx phys sec.kernel).any fun x =>
    (List.range (x.w * x.h)).any fun i =>
      match sectionBlock s ctx phys x i with
      | some bs => errataIn x.w x.h i bs
      | none => false

end Sys2Proof.Machine
end

