-- ==== Sys2Proof/Machine/Drill.lean ====
section
/-!
DEFINITION. The drill (spec 06): launch queues and records, completion records and log entries, the walk over the nodes of each launch, and how a
launch ends. Steps of the drill act on launches by number and on nodes by their number in the launch.
-/

namespace Sys2Proof.Machine

/-! ### Accessors -/

def modDrill (s : State) (f : Drill → Drill) : State := { s with drill := f s.drill }
def getQueue (s : State) (q : Nat) : LQueue := Tbl.findD s.drill.queues q {}
def modQueue (s : State) (q : Nat) (f : LQueue → LQueue) : State :=
  modDrill s fun d => { d with queues := Tbl.put d.queues q (f (Tbl.findD d.queues q {})) }
def getLaunch (s : State) (l : Nat) : Launch := Tbl.findD s.drill.launches l {}
def modLaunch (s : State) (l : Nat) (f : Launch → Launch) : State := modDrill s fun d => { d with launches := Tbl.alter d.launches l f }
def getGNode (s : State) (l n : Nat) : Option NodeSt := nodeState s (l, n)
def modGNode (s : State) (l n : Nat) (f : NodeSt → NodeSt) : State := modLaunch s l fun x => { x with nodes := Tbl.alter x.nodes n f }

/-- The context that a queue is bound to, its priority, and EN (R105). -/
def queueCtx (q : LQueue) : Nat := bitsOf q.qcfg.toNat 5 0
def queuePrio (q : LQueue) : Nat := bitsOf q.qcfg.toNat 8 6
def queueOn (q : LQueue) : Bool := bitOf q.qcfg.toNat 9
def ctxOn (s : State) (ctx : Nat) : Bool := (getCtx s ctx).ccfg.getLsbD 0

/-! ### Records (R107 to R109) -/

/-- An LF2 record as the LF3 record that it stands for; reserved bits of CTL make it malformed. -/
def lf3OfLf2 (r : List Byte) : List Byte :=
  let ctl := fieldAt r 0x1C 4
  r.take 0x18 ++ bytesOf 8 (fieldAt r 0x18 4) ++ bytesOf 8 0 ++ bytesOf 2 (bitsOf ctl 10 0 + (if bitOf ctl 11 then 2 ^ 15 else 0)) ++
    [BitVec.ofNat 8 (bitsOf ctl 14 12), if ctl / 2 ^ 15 = 0 then 0 else 0x80] ++ List.replicate 20 0

/-- A record that breaks no rule of R107. -/
def recordFormed (r : List Byte) : Bool :=
  fieldAt r 0 8 % 64 == 0 && fieldAt r 0x10 8 % 64 == 0 && fieldAt r 0x20 8 % 16 == 0 && bitsOf (fieldAt r 0x28 2) 13 11 == 0 &&
  !bitOf (fieldAt r 0x2A 1) 3 && !bitOf (fieldAt r 0x2A 1) 7 && decide (bitsOf (fieldAt r 0x2A 1) 6 4 ≤ 4) && fieldAt r 0x2B 1 / 2 == 0 &&
  bitsOf (fieldAt r 0x38 8) 31 7 == 0

/-- The drill writes one line's part of a completion record or log entry: a write that cannot be performed is left out, and one to sealed bytes raises the
sealed-store fault (17 R309), as a report of field die 0 (log 24). -/
def drillPiece (s : State) (ctx va : Nat) (bs : List Byte) : State :=
  match writePiece s 0 ctx va bs srcDrill 512 0xFF with
  | (s, some b) =>
    if b.cls = .sealed then
      raiseFault s { cls := .sealed, plot := 512, addr := b.va, src := srcDrill, ctx := some ctx, report := true, die := some 0 }
    else s
  | (s, none) => s

/-- The drill writes to a context's memory. -/
def drillWrite (s : State) (ctx va : Nat) (bs : List Byte) : State :=
  (linePieces va bs.length).foldl (fun s p => drillPiece s ctx p.1 ((bs.drop (p.1 - va)).take p.2)) s

/-- What a completion record reports (20 R340). -/
structure Report where
  status : Nat
  sub : Nat := 0
  flags : Flags7 := 0
  node : Nat
  info : Word := 0
  tacc : Nat
  nrun : Nat := 0
  seq : Nat

/-- Write a record's completion record as two writes, DONE last, and then raise its interrupt (20 R340, R343). -/
def writeCompletion (s : State) (ctx q : Nat) (raw : List Byte) (x : Report) : State :=
  let head := raw.drop 0x18 |>.take 8
  let bs := head ++ [BitVec.ofNat 8 x.status, BitVec.ofNat 8 x.sub] ++ bytesOf 2 x.flags.toNat ++ bytesOf 4 (fieldAt raw 0x34 4) ++ bytesOf 8 x.node ++
    bytesOf 8 x.info.toNat ++ bytesOf 8 x.tacc ++ bytesOf 8 (timestamp s) ++ bytesOf 2 (min x.nrun 0xFFFF) ++ [BitVec.ofNat 8 (q % 64)] ++
    List.replicate 5 0
  let addr := fieldAt raw 0x10 8
  if addr = 0 ∨ addr % 64 ≠ 0 then s
  else drillWrite (drillWrite s ctx addr bs) ctx (addr + 0x38) (bytesOf 8 (1 + 2 ^ 32 * (x.seq % 2 ^ 32)))

/-- The interrupt of a record: with RAISE, unless SUPP and OK (20 R343). -/
def recordMsix (s : State) (ctx : Nat) (raw : List Byte) (status : Nat) : State :=
  let m := fieldAt raw 0x28 2
  if bitOf m 15 && !(bitOf m 14 && status == 0) then raiseMsix s ctx (bitsOf m 10 0) else s

/-! ### Queue ports (R104 to R106) -/

/-- Latch a QSTAT bit; one that goes from 0 to 1 raises the queue's vector where QIRQ enables it. -/
def latchQstat (s : State) (q : Nat) (bit : BitVec 32) : State :=
  let x := getQueue s q
  let s' := modQueue s q fun x => { x with qstat := x.qstat ||| bit }
  if x.qstat &&& bit = 0 ∧ bitOf x.qirq.toNat 15 then raiseMsix s' (queueCtx x) (bitsOf x.qirq.toNat 10 0) else s'

/-- A record arrives at the port of a queue (R106). -/
def presentRecord (s : State) (q : Nat) (raw : List Byte) : State :=
  let x := getQueue s q
  if !queueOn x || !ctxOn s (queueCtx x) || x.reset != 0 then latchQstat s q 2
  else if 256 ≤ x.recs.length then
    let s := latchQstat s q 1
    if recordFormed raw then
      recordMsix (writeCompletion s (queueCtx x) q raw { status := 10, node := fieldAt raw 0 8, tacc := 0, seq := 0xFFFFFFFF }) (queueCtx x) raw 10
    else s
  else modQueue s q fun x => { x with accept := x.accept + 1, recs := x.recs ++ [{ raw := raw, seq := x.accept % 2 ^ 32, tacc := timestamp s }] }

/-- A function reaches a queue's page: the physical function each, a virtual one those bound to its context (R104). -/
def pageSeen (s : State) (fn q : Nat) : Bool := decide (q < 64) && (fn == 0 || queueCtx (getQueue s q) == fn)

/-- LAUNCH_LF3: a 64-byte write at a queue's LF3 port. -/
def execLaunchLf3 (fn q : Nat) (rec : BitVec 512) (s : State) : Out :=
  .next (if pageSeen s fn q then presentRecord s q (bytesOf 64 rec.toNat) else s)

/-- LAUNCH_LF2: a 32-byte write at a queue's LF2 port (R108). -/
def execLaunchLf2 (fn q : Nat) (rec : BitVec 256) (s : State) : Out :=
  .next (if pageSeen s fn q then presentRecord s q (lf3OfLf2 (bytesOf 32 rec.toNat)) else s)

/-- QUEUE_DRAIN: a write of 01 to RESET (R116). -/
def execQueueDrain (fn q : Nat) (s : State) : Out :=
  .next (if pageSeen s fn q then modQueue s q fun x => { x with reset := if x.reset = 0 then 1 else x.reset } else s)

/-- QUEUE_ABORT: a write of 10 to RESET (R117). -/
def execQueueAbort (fn q : Nat) (s : State) : Out :=
  .next (if pageSeen s fn q then modQueue s q fun x => { x with reset := 2 } else s)

/-! ### Node records (03 R59 to R62) -/

def nodeType (n : NodeSt) : Nat := fieldAt n.raw 0 1
def isSection (n : NodeSt) : Bool := nodeType n == 1
def isEngineNode (n : NodeSt) : Bool := nodeType n == 2 || nodeType n == 3

/-- The type-specific part breaks no rule. -/
def nodeBodyOk (r : List Byte) : Bool :=
  match fieldAt r 0 1 with
  | 1 => !bitOf (fieldAt r 0x28 1) 3 && !bitOf (fieldAt r 0x28 1) 7 && fieldAt r 0x29 1 / 2 == 0 && isZero r 0x30 16
  | 2 => decide (fieldAt r 0x18 1 ≤ 4) && decide (fieldAt r 0x19 1 ≤ 8) && (fieldAt r 0x19 1 == 8 || fieldAt r 0x1A 1 == 0) &&
      fieldAt r 0x1A 1 / 8 == 0 && isZero r 0x1B 0x25
  | 3 => decide (fieldAt r 0x18 1 ≤ 4) && fieldAt r 0x19 1 == 0 && fieldAt r 0x1A 1 / 8 == 0 && isZero r 0x1B 0x25
  | 4 => fieldAt r 0x10 8 % 8 == 0 && bitsOf (fieldAt r 0x20 2) 14 11 == 0 && fieldAt r 0x22 1 / 4 == 0 && isZero r 0x23 0x1D
  | 5 => fieldAt r 0x10 8 % 8 == 0 && decide (fieldAt r 0x28 1 ≤ 5) && isZero r 0x29 3 && isZero r 0x30 16
  | 6 => isZero r 0x10 48
  | 7 => decide (1 ≤ fieldAt r 0x10 2) && decide (fieldAt r 0x10 2 ≤ fieldAt r 2 2) && isZero r 0x12 46
  | 8 => fieldAt r 0x10 8 % 8 == 0 && bitsOf (fieldAt r 0x18 2) 7 6 == 0 && decide (1 ≤ bitsOf (fieldAt r 0x18 2) 11 8) &&
      decide (bitsOf (fieldAt r 0x18 2) 11 8 ≤ 8) && bitsOf (fieldAt r 0x18 2) 15 12 == 0 && isZero r 0x1A 6 && isZero r 0x28 24 && fieldAt r 4 2 == 0
  | 9 => isZero r 0x18 40
  | _ => false

/-- A node record breaks no rule (R46, R59). -/
def nodeOk (r : List Byte) : Bool := decide (fieldAt r 1 1 ≤ 4) && fieldAt r 7 1 == 0 && nodeBodyOk r

/-- Read an array of addresses; none where it cannot be read. -/
def readAddrs (s : State) (ctx a n : Nat) : Option (List Nat) :=
  match (readVirt s 0 ctx a (8 * n) none).2 with
  | .ok bs => some ((List.range n).map fun i => fieldAt bs (8 * i) 8)
  | .error _ => none

/-- Read a node record and its successors (R60, R61). -/
def readNodeRec (s : State) (ctx addr : Nat) : Option (List Byte × List Nat) :=
  if addr % 64 ≠ 0 then none
  else match (readVirt s 0 ctx addr 64 none).2 with
    | .error _ => none
    | .ok r => (readAddrs s ctx (fieldAt r 8 8) (fieldAt r 4 2)).map fun xs => (r, xs)

/-! ### Nodes in a launch -/

/-- A node completes with a status: its completion has arrived. -/
def arriveNode (s : State) (l n status sub : Nat) (info : Word) (flags : Flags7) : State :=
  modGNode s l n fun x => { x with phase := .arrived, status := status, sub := sub, info := info, flags := flags, reserved := none, held := false }

/-- A node joins its launch, in a state of its own. -/
def addNode (s : State) (l : Nat) (x : NodeSt) : State × Nat :=
  let n := freshId s
  (bumpId (modLaunch s l fun y => { y with nodes := Tbl.put y.nodes n x }), n)

/-- The record at an address and its successors as a launch knows them: read once in the launch, whether a graph or a push names it (R61). -/
def launchRecord (s : State) (l addr : Nat) : State × Option (List Byte × List Nat) :=
  match Tbl.find (getLaunch s l).records addr with
  | some x => (s, some x)
  | none => match readNodeRec s (getLaunch s l).ctx addr with
    | none => (s, none)
    | some x => (modLaunch s l fun y => { y with records := Tbl.put y.records addr x }, some x)

/-- The count of a node (R60): NPRED; of a legal RENDEZVOUS NEED (R62). -/
def nodeCount (r : List Byte) : Nat := if fieldAt r 0 1 = 7 && nodeBodyOk r then fieldAt r 0x10 2 else fieldAt r 2 2

/-- A node is referenced (R60): its record is read the first time; one that cannot be read completes at once with CONFIG_BLOCKED. -/
def refNode (s : State) (l addr : Nat) : State × Nat :=
  match (getLaunch s l).nodes.find? fun x => x.2.addr == addr && !x.2.pushed with
  | some x => (s, x.1)
  | none => match launchRecord s l addr with
    | (s, none) => addNode s l { addr := addr, phase := .arrived, status := 5 }
    | (s, some (r, xs)) => addNode s l { addr := addr, raw := r, succ := xs, count := nodeCount r }

/-- p_launch of a launch's nodes (01 R19), with the queue's priority as its QCFG gives it when a node becomes ready: which moment counts the manual does
not say (log 25). -/
def launchPrio (s : State) (l : Nat) : Nat :=
  let x := getLaunch s l
  min (bitsOf (fieldAt x.raw 0x2A 1) 2 0) (queuePrio (getQueue s x.queue))
def ceiling (s : State) (ctx : Nat) : Nat := bitsOf (getCtx s ctx).ccfg.toNat 3 1

/-- p_node: clamp(p_launch + PDELTA, 0, ceiling). -/
def nodePrio (s : State) (l : Nat) (x : NodeSt) : Nat :=
  let base := if x.pushed then x.pbase else launchPrio s l
  min ((base : Int) + signedOf 8 (fieldAt x.raw 6 1)).toNat (ceiling s (getLaunch s l).ctx)

/-- A node becomes ready (R60, R112): one whose record could be read and breaks a rule completes with CONFIG_BLOCKED then (log 25), FORK and RENDEZVOUS complete, control nodes are executed by the
drill, and the others wait to enter the granary. In a launch that is being ended it is cancelled (R116). -/
def readyNode (s : State) (l n : Nat) : State :=
  match getGNode s l n with
  | none => s
  | some x =>
    if x.phase = .arrived ∨ x.phase = .done then s
    else if (getLaunch s l).ends ≠ .no then modLaunch (arriveNode s l n 1 0 0 0) l fun y => { y with cancelled := y.cancelled || y.ends == .drain || y.ends == .abort }
    else if !nodeOk x.raw then arriveNode s l n 5 0 0 0
    else if nodeType x = 6 ∨ nodeType x = 7 then arriveNode s l n 0 0 0 0
    else if isSection x || isEngineNode x then
      let k := freshId s
      bumpId (modGNode s l n fun y => { y with phase := .outside, order := k, since := now s, prio := nodePrio s l x })
    else modGNode s l n fun y => { y with phase := .running, since := now s, pollAt := now s }

/-- A predecessor of a node has completed with OK. -/
def releaseSucc (s : State) (l addr : Nat) : State :=
  let (s, n) := refNode s l addr
  match getGNode s l n with
  | some x =>
    if x.phase = .counting then
      let s := modGNode s l n fun y => { y with count := y.count - 1 }
      if x.count ≤ 1 then readyNode s l n else s
    else s
  | none => s

/-- The policy that resolves a failure for a node: its own, its launch's, its context's, KILL_SELF (R115). -/
def failPolicy (s : State) (l : Nat) (x : NodeSt) : Policy :=
  let ps := [policyOf (fieldAt x.raw 1 1), (getLaunch s l).pol, policyOf (bitsOf (getCtx s (getLaunch s l).ctx).ccfg.toNat 6 4)]
  (ps.find? fun p => p != .defer).getD .killSelf

/-! ### Ending a launch (R115 to R118) -/

/-- The section flag word of the saved section that a node has, if any (02 R45, 20 R340). -/
def savedFlags (s : State) (x : NodeSt) : Flags7 := (x.parcel.map fun p => (getParcel s p).flagWord).getD 0

/-- A saved section is given up: its save slot is free again (18 R323). -/
def dropSaved (s : State) (p : Nat) : State :=
  let q := getParcel s p
  let s := match q.saveSlot with
    | some k => modCtx s q.ctx fun c => { c with saveUsed := c.saveUsed.erase k }
    | none => s
  { s with saved := s.saved.filter fun x => x.owner != p, parcels := Tbl.drop s.parcels p
           faults := s.faults.filter fun r => r.own != some p || r.report }

/-- A dispatched section is ended with ABORTED, unless it has settled or ended before. -/
def abortSection (s : State) (p : Nat) : State :=
  modParcel s p fun q => if q.settled then q else { q with ending := some (q.ending.getD { status := 2 }) }

/-- How one node of a launch ends with it; `sub` ends a nested launch. -/
def endNode (sub : State → Nat → State) (kind : LEnd) (l : Nat) (s : State) (n : Nat × NodeSt) : State :=
  let counted := kind == .drain || kind == .abort
  let cancel (s : State) (f : Flags7) : State := modLaunch (arriveNode s l n.1 1 0 0 f) l fun y => { y with cancelled := y.cancelled || counted }
  match n.2.phase with
  | .counting => cancel s 0
  | .outside | .granary => cancel (n.2.parcel.elim s (dropSaved s)) (savedFlags s n.2)
  | .running =>
    if nodeType n.2 = 9 ∧ n.2.nested = none then cancel s 0
    else if kind = .drain then s
    else match n.2.parcel, n.2.nested with
      | some p, _ =>
        let live := !(getParcel s p).settled && (getParcel s p).ending.isNone
        modLaunch (abortSection s p) l fun y => { y with aborted := y.aborted || (live && kind == .abort) }
      | none, some m => sub s m
      | none, none => if nodeType n.2 = 5 then cancel s 0 else s
  | .arrived | .done => s

/-- End a launch: by a drain, by an abort, by its timeout, by KILL_PARENT, or by a kill; a nested launch with its parent. -/
def endLaunch : Nat → LEnd → State → Nat → State
  | 0, _, s, _ => s
  | fuel + 1, kind, s, l =>
    let x := getLaunch s l
    if x.ends = .no ∨ (x.ends = .drain ∧ kind ≠ .drain) then
      let s := modLaunch s l fun y => { y with ends := kind, waits := false }
      x.nodes.foldl (endNode (endLaunch fuel kind) kind l) s
    else s

/-- The launch that a nested one belongs to. -/
def rootLaunch (s : State) : Nat → Nat → Nat
  | 0, l => l
  | n + 1, l => match (getLaunch s l).parent with
    | some (p, _) => rootLaunch s n p
    | none => l

/-! ### Completions (R110, R112, R115) -/

/-- The log entry of a node that writes a status (R110). -/
def logNode (s : State) (l : Nat) (x : NodeSt) : State :=
  let r := rootLaunch s 9 l
  let y := getLaunch s r
  let addr := fieldAt y.raw 0x20 8
  if addr = 0 ∨ fieldAt y.raw 0x2E 2 ≤ y.logs then s
  else
    let bs := bytesOf 8 x.addr ++ bytesOf 2 x.status ++ bytesOf 2 x.flags.toNat ++ bytesOf 4 (bitsOf (timestamp s) 41 10)
    modLaunch (drillWrite s y.ctx (addr + 16 * y.logs) bs) r fun y => { y with logs := y.logs + 1 }

/-- A successor of a node in a launch that is being ended is cancelled. -/
def cancelSucc (l : Nat) (s : State) (addr : Nat) : State :=
  let (s, n) := refNode s l addr
  match getGNode s l n with
  | some x => if x.phase = .counting then readyNode s l n else s
  | none => s

/-- What a failed predecessor leaves: the state, the successors that retry it, whether one has ignored its failure, and whether none has resolved it
otherwise. -/
structure FailAcc where
  s : State
  retry : List Nat := []
  seen : Bool := false
  ignored : Bool := true

/-- One successor resolves a failure (R115): one whose count it would not have decremented resolves nothing, and once a successor has ended the launch
the later ones are cancelled (R117). -/
def failSucc (l : Nat) (mayRetry : Bool) (acc : FailAcc) (addr : Nat) : FailAcc :=
  let (s, n) := refNode acc.s l addr
  match getGNode s l n with
  | none => { acc with s := s }
  | some x =>
    if x.phase ≠ .counting then { acc with s := s }
    else if (getLaunch s l).ends ≠ .no then { acc with s := cancelSucc l s addr, ignored := false }
    else match failPolicy s l x with
      | .ignore => { acc with s := releaseSucc s l addr, seen := true }
      | .retry =>
        if mayRetry then { acc with s := s, retry := acc.retry ++ [addr], ignored := false }
        else { acc with s := arriveNode s l n 1 0 0 0, ignored := false }
      | .killParent => { acc with s := endLaunch 10 .killParent s l, ignored := false }
      | _ => { acc with s := arriveNode s l n 1 0 0 0, ignored := false }

/-- Apply one completion (R112): log, flags, the launch's first failure, and the successors. -/
def applyDone (s : State) (l n : Nat) : State :=
  match getGNode s l n with
  | none => s
  | some x =>
    let s := logNode (modGNode s l n fun y => { y with phase := .done }) l x
    let s := modLaunch s (rootLaunch s 9 l) fun y => { y with flags := y.flags ||| x.flags }
    let forget (s : State) : State := modLaunch s l fun y => { y with first := y.first.filter fun f => f.node != some n }
    let succ := if nodeType x = 8 then x.chosen else x.succ
    if x.status = 0 then
      let s := forget s
      if (getLaunch s l).ends = .no then succ.foldl (fun s a => releaseSucc s l a) s else succ.foldl (cancelSucc l) s
    else
      let s := modLaunch s l fun y => { y with first := y.first ++ [⟨some n, x.addr, x.status, x.sub, x.info⟩] }
      if (getLaunch s l).ends ≠ .no then succ.foldl (cancelSucc l) s
      else
        let acc := succ.foldl (failSucc l ((isSection x || isEngineNode x) && !x.retried)) { s := s }
        let s := if acc.ignored && acc.seen then forget acc.s else acc.s
        if acc.retry.isEmpty || (getLaunch s l).ends ≠ .no then s
        else
          readyNode (modGNode s l n fun y => { y with retried := true, succ := acc.retry, phase := .counting, status := 0, sub := 0, info := 0,
                                                      flags := 0, parcel := none, cmd := none, origin := none, xlate := none, image := none }) l n

/-- All nodes of a phase, as launch, number and node. -/
def nodesIn (s : State) (p : NPhase) : List (Nat × Nat × NodeSt) :=
  s.drill.launches.flatMap fun x => (x.2.nodes.filter fun n => n.2.phase == p).map fun n => (x.1, n.1, n.2)

/-- Completions that have arrived, in ascending record address and then in the order in which the launches were taken. -/
def arrivedNodes (s : State) : List (Nat × Nat × NodeSt) :=
  sortKey (fun a b => decide (a.2.2.addr < b.2.2.addr) ||
    (a.2.2.addr == b.2.2.addr && decide ((getLaunch s a.1).order < (getLaunch s b.1).order))) (nodesIn s .arrived)

/-! ### The end of a launch (R118, 20 R339 to R343) -/

/-- Status, sub-code, node and INFO of a launch (R118, 20 R340, R341): of a launch that was killed, the node and the kill that came first, and the entry
node where no node of it had been killed (log 25). -/
def launchStatus (x : Launch) : Nat × Nat × Nat × Word :=
  let entry := fieldAt x.raw 0 8
  match x.ends, x.first with
  | .timeout, _ => (3, 0, entry, BitVec.ofNat 64 x.elapsed)
  | .killed, _ => match x.first.find? fun f => f.status == 4 with
    | some f => (4, 0, f.addr, f.info)
    | none => (4, 0, entry, x.kill)
  | _, [] => if x.aborted then (2, 0, entry, 0) else if x.cancelled then (1, 0, entry, 0) else (0, 0, entry, 0)
  | _, f :: _ =>
    if x.aborted then (2, 0, entry, 0) else if x.cancelled then (1, 0, entry, 0)
    else (f.status, f.sub, if f.status = 1 ∨ f.status = 2 then entry else f.addr, f.info)

/-- Nothing of a launch is left to happen (R60). -/
def launchOver (x : Launch) : Bool :=
  !x.waits && x.nodes.all fun n => n.2.phase == .counting || n.2.phase == .done

/-- The outcome of a record of a queue; those behind its last 1,024 sequence numbers are forgotten (R111). -/
def notePast (s : State) (q seq st : Nat) : State :=
  modQueue s q fun x => { x with past := (seq, st) :: x.past.filter fun y => decide (wrapTo 32 ((x.accept : Int) - y.1) ≤ 1024) }

/-- A launch completes: a nested one completes its SUBGRAPH node; another writes its completion record, leaves the table, and interrupts. -/
def finishLaunch (s : State) (l : Nat) : State :=
  let x := getLaunch s l
  let (st, sub, node, info) := launchStatus x
  let drop (s : State) : State := modDrill s fun d => { d with launches := Tbl.drop d.launches l }
  match x.parent with
  | some (p, n) =>
    let s := modLaunch s p fun y => { y with aborted := y.aborted || x.aborted, cancelled := y.cancelled || x.cancelled }
    drop (arriveNode s p n st sub info 0)
  | none =>
    let s := writeCompletion s x.ctx x.queue x.raw
      { status := st, sub := sub, flags := x.flags, node := node, info := info, tacc := x.tacc, nrun := x.nrun, seq := x.seq }
    recordMsix (drop (notePast s x.queue x.seq st)) x.ctx x.raw st

/-- A bound on the rounds of one step, since each applies a completion or ends a launch: node records at 64-byte aligned addresses, in 1,024 launches. -/
def drillRounds : Nat := 2 ^ 70

/-- Completions and the ends of launches, until none is left, as one drill step applies them (R112); fuel bounds the rounds. -/
def settleDrill : Nat → State → State
  | 0, s => s
  | fuel + 1, s =>
    let xs := arrivedNodes s
    let gone := s.drill.launches.filter fun x => launchOver x.2
    if xs.isEmpty && gone.isEmpty then s
    else
      let s := xs.foldl (fun s x => applyDone s x.1 x.2.1) s
      settleDrill fuel ((s.drill.launches.filter fun x => launchOver x.2).foldl (fun s x => finishLaunch s x.1) s)

/-! ### AFTER (R111, R115) -/

/-- The status of the launch that AFTER names; none while it is not complete or not yet accepted. Once the sequence numbers have wrapped, one of the
half behind ACCEPT counts as accepted (log 25). -/
def afterStatus (s : State) (q seq : Nat) : Option Nat :=
  let x := getQueue s q
  let age := if x.accept < 2 ^ 32 then x.accept - seq else wrapTo 32 ((x.accept : Int) - seq)
  if age = 0 ∨ (2 ^ 32 ≤ x.accept ∧ 2 ^ 31 ≤ age) then none
  else if 1024 < age then some 0
  else if s.drill.launches.any (fun y => y.2.queue == q && y.2.seq == seq && y.2.parent.isNone) || x.recs.any (fun r => r.seq == seq) then none
  else some (((x.past.find? fun p => p.1 == seq).map (·.2)).getD 0)

/-- The entry node of a launch, the first of its nodes. -/
def entryNode (x : Launch) : Option Nat := x.nodes.head?.map (·.1)

/-- A launch that waits on AFTER goes on, or resolves a failure; an entry node that could not be read has completed already. -/
def resolveAfter (s : State) (l : Nat) : State :=
  let x := getLaunch s l
  let a := fieldAt x.raw 0x38 8
  match x.waits, afterStatus s (bitsOf a 5 0) (bitsOf a 63 32), entryNode x with
  | true, some st, some n =>
    let s := modLaunch s l fun y => { y with waits := false }
    if st = 0 then readyNode s l n
    else (match ((getGNode s l n).filter fun x => x.phase == .counting).map (failPolicy s l) with
    | none => s
    | some .ignore => readyNode s l n
    | some .killParent =>
      endLaunch 10 .killParent (modLaunch s l fun y => { y with first := y.first ++ [⟨none, fieldAt x.raw 0 8, st, 0, 0⟩] }) l
    | _ => arriveNode s l n 1 0 0 0)
  | _, _, _ => s

/-! ### The granary (R113) -/

def granaryLoad (s : State) : Nat := (nodesIn s .granary).length

/-- Nodes in ready order. -/
def byOrder (a b : Nat × Nat × NodeSt) : Bool := decide (a.2.2.order < b.2.2.order)

/-- A node enters the granary if there is room. -/
def enterGranary (s : State) (l n : Nat) : State :=
  if granaryLoad s < 4096 then
    let k := freshId s
    bumpId (modGNode s l n fun x => { x with phase := .granary, order := k })
  else s

/-- GRANARY_ENTER: the node of its launch that has waited longest outside a full granary enters when an entry is free. -/
def granaryStep (s : State) (l n : Nat) : State :=
  match (sortKey byOrder ((nodesIn s .outside).filter fun x => x.1 == l)).head? with
  | some x => if x.2.1 = n then enterGranary s l n else s
  | none => s
def execGranaryEnter (launch node : Nat) (s : State) : Out := .next (granaryStep s launch node)

/-- Ageing: 1 ms in field cycles (00 R4). -/
def ageCycles : Nat := 2700000

/-- NODE_AGEING (01 R19): a ready node that is not dispatched gains one priority for each full millisecond. -/
def ageNode (s : State) (l n : Nat) : State :=
  match getGNode s l n with
  | some x =>
    if (x.phase = .outside ∨ x.phase = .granary) ∧ x.since + ageCycles ≤ now s then
      modGNode s l n fun y => { y with prio := min (x.prio + 1) (ceiling s (getLaunch s l).ctx), since := x.since + ageCycles }
    else s
  | none => s
def execNodeAgeing (launch node : Nat) (s : State) : Out := .next (ageNode s launch node)

/-! ### Steps of the drill -/

/-- The queue that the drill serves next (R111): of the highest priority that has a record, in turn after the last one served. -/
def nextQueue (s : State) : Option Nat :=
  let open_ := (List.range 64).filter fun q =>
    let x := getQueue s q
    queueOn x && !x.hold && x.reset == 0 && !x.recs.isEmpty
  let top := open_.foldl (fun m q => max m (queuePrio (getQueue s q))) 0
  let these := open_.filter fun q => queuePrio (getQueue s q) == top
  let last := Tbl.findD s.drill.lastQ top 63
  (these.find? fun q => decide (last < q)).orElse fun _ => these.head?

/-- DRILL_TAKE_RECORD: a record becomes a launch; a malformed one completes at once with CONFIG_BLOCKED (R109). -/
def takeRecord (s : State) (q : Nat) : State :=
  let x := getQueue s q
  match x.recs with
  | [] => s
  | r :: rest =>
    if nextQueue s ≠ some q ∨ 1024 ≤ s.drill.launches.length then s
    else
      let ctx := queueCtx x
      let s := modQueue s q fun x => { x with recs := rest }
      let s := modDrill s fun d => { d with lastQ := Tbl.put d.lastQ (queuePrio x) q }
      if !recordFormed r.raw then
        let s := writeCompletion (latchQstat s q 2) ctx q r.raw { status := 5, node := fieldAt r.raw 0 8, tacc := r.tacc, seq := r.seq }
        recordMsix (notePast s q r.seq 5) ctx r.raw 5
      else
        let l := freshId s
        let after := bitOf (fieldAt r.raw 0x38 8) 6
        let y : Launch := { ctx := ctx, pol := policyOf (bitsOf (fieldAt r.raw 0x2A 1) 6 4), queue := q, seq := r.seq, raw := r.raw, tacc := r.tacc,
                            order := l, taken := now s, waits := after }
        let s := bumpId (modDrill s fun d => { d with launches := Tbl.put d.launches l y })
        let (s, n) := refNode s l (fieldAt r.raw 0 8)
        if after then s else readyNode s l n
def execDrillTakeRecord (q : Nat) (s : State) : Out := .next (takeRecord s q)

/-- A queue under drain or abort (R116, R117): its records are removed, its launches are ended, and with the last one the reset is over. -/
def resetQueue (s : State) (q : Nat) : State :=
  let x := getQueue s q
  if x.reset = 0 then s
  else
    let s := x.recs.foldl (fun s r =>
      let s := writeCompletion s (queueCtx x) q r.raw { status := 1, node := fieldAt r.raw 0 8, tacc := r.tacc, seq := r.seq }
      recordMsix (notePast s q r.seq 1) (queueCtx x) r.raw 1) s
    let s := modQueue s q fun x => { x with recs := [] }
    let s := (s.drill.launches.filter fun y => y.2.queue == q && y.2.parent.isNone).foldl
      (fun s y => endLaunch 10 (if x.reset = 1 then .drain else .abort) s y.1) s
    settleDrill drillRounds s

/-- The reset of a queue whose launches are all complete is over. -/
def endReset (s : State) (q : Nat) : State :=
  let x := getQueue s q
  if x.reset ≠ 0 ∧ x.recs.isEmpty ∧ !(s.drill.launches.any fun y => y.2.queue == q) then latchQstat (modQueue s q fun x => { x with reset := 0 }) q 4
  else s

/-- Kills that the containment chain asks for (18 R320). -/
def applyKills (s : State) : State :=
  let d := s.drill
  let s := modDrill s fun d => { d with killLaunch := [], killCtx := [], killNode := [] }
  let s := d.killNode.foldl (fun s x => match getGNode s x.1 x.2.1 with
    | some n => if n.phase = .running then arriveNode s x.1 x.2.1 4 0 x.2.2 0 else s
    | none => s) s
  let kill (s : State) (l : Nat) (w : Word) : State :=
    let r := rootLaunch s 9 l
    let s := if (getLaunch s r).ends = .killed then s else modLaunch s r fun y => { y with kill := w }
    endLaunch 10 .killed s r
  let s := d.killLaunch.foldl (fun s x => kill s x.1 x.2) s
  d.killCtx.foldl (fun s x => (s.drill.launches.filter fun y => y.2.ctx == x.1 && y.2.parent.isNone).foldl (fun s y => kill s y.1 x.2) s) s

end Sys2Proof.Machine
end

