-- ==== Sys2Proof/Machine/DrillNodes.lean ====
section
/-!
DEFINITION. The nodes that the drill executes itself (spec 03 R62, R399, 06 R112), engine nodes (06 R113), `drill.push` (13 R243, 06 R114), and the
steps HOME_ACCESS_PERFORM and ENGINE_COMPLETE, which serve requests, commands and nodes alike.
-/

namespace Sys2Proof.Machine

/-- A node of a type that the drill executes, running and not held by a fault: while its access is held, no timeout of a WAIT ends it, which the manual leaves
open (log 25). -/
def activeNode (s : State) (l n type : Nat) : Option NodeSt :=
  match getGNode s l n with
  | some x => if x.phase = .running ∧ !x.held ∧ nodeType x = type then some x else none
  | none => none

/-- An access of a node faults (03 R399): it is held, and its record goes to the headland of field die 0. -/
def faultNode (s : State) (l n : Nat) (x : NodeSt) (b : VBad) : State :=
  raiseFault (modGNode s l n fun y => { y with held := true })
    { cls := b.cls, sub := b.sub, plot := 512, addr := b.va, info0 := if b.cls = .operand then BitVec.ofNat 64 b.va else 0, depth := x.depth,
      what := some (.node l n), ctx := some (getLaunch s l).ctx, node := some x.addr, die := some 0 }

/-- Read the 8 bytes of a node's word, or take the value that a repair gives. -/
def nodeWord (s : State) (l : Nat) (x : NodeSt) : State × Except VBad Nat :=
  match x.sub_ with
  | some v => (s, .ok v.toNat)
  | none => match readVirt s 0 (getLaunch s l).ctx (fieldAt x.raw 0x10 8) 8 none with
    | (s, .ok bs) => (s, .ok (ofBytes bs))
    | (s, .error b) => (s, .error b)

/-- SIGNAL_NODE: the write, and then the vector. -/
def signalStep (s : State) (l n : Nat) : State :=
  match activeNode s l n 4 with
  | none => s
  | some x =>
    let ctx := (getLaunch s l).ctx
    let wrote : State × Option VBad :=
      if x.sub_.isSome then (s, none)
      else match lineHome s 0 ctx true (fieldAt x.raw 0x10 8) 8 with
        | (s, .error b) => (s, some b)
        | (s, .ok _) => writePiece s 0 ctx (fieldAt x.raw 0x10 8) (bytesOf 8 (fieldAt x.raw 0x18 8)) (6 * 2 ^ 28) 512 0xFF
    match wrote with
    | (s, some b) => faultNode s l n x b
    | (s, none) =>
      let m := fieldAt x.raw 0x20 2
      arriveNode (if bitOf m 15 then raiseMsix s ctx (bitsOf m 10 0) else s) l n 0 0 0 0
def execSignalNode (launch node : Nat) (s : State) : Out := .next (signalStep s launch node)

/-- The successor set that a BRANCH chooses: entry min((value >> shift) AND 7, n − 1). What the last 6 of an entry's
16 bytes hold does not matter (log 25). -/
def branchSet (s : State) (ctx : Nat) (r : List Byte) (v : Nat) : Option (List Nat) :=
  let c := fieldAt r 0x18 2
  let i := min ((v >>> bitsOf c 5 0) % 8) (bitsOf c 11 8 - 1)
  match (readVirt s 0 ctx (fieldAt r 0x20 8 + 16 * i) 16 none).2 with
  | .ok e => readAddrs s ctx (fieldAt e 0 8) (fieldAt e 8 2)
  | .error _ => none

/-- BRANCH_NODE: the value is read once; a set that cannot be read blocks the node as an unreadable array does (log 25). -/
def branchStep (s : State) (l n : Nat) : State :=
  match activeNode s l n 8 with
  | none => s
  | some x =>
    match nodeWord s l x with
    | (s, .error b) => faultNode s l n x b
    | (s, .ok v) => match branchSet s (getLaunch s l).ctx x.raw v with
      | some xs => arriveNode (modGNode s l n fun y => { y with chosen := xs }) l n 0 0 0 0
      | none => arriveNode s l n 5 0 0 0
def execBranchNode (launch node : Nat) (s : State) : Out := .next (branchStep s launch node)

/-- The condition of a WAIT on (word AND mask) against the comparand. -/
def waitHolds (r : List Byte) (v : Nat) : Bool :=
  let a := v &&& fieldAt r 0x20 8
  let b := fieldAt r 0x18 8
  match fieldAt r 0x28 1 with
  | 0 => a == b
  | 1 => a != b
  | 2 => decide (b ≤ a)
  | 3 => decide (a < b)
  | 4 => decide (signedOf 64 b ≤ signedOf 64 a)
  | _ => decide (signedOf 64 a < signedOf 64 b)

/-- WAIT_POLL: the word is read when the node is ready and then every microsecond. -/
def pollStep (s : State) (l n : Nat) : State :=
  match activeNode s l n 5 with
  | none => s
  | some x =>
    if now s < x.pollAt then s
    else match nodeWord s l x with
      | (s, .error b) => faultNode s l n x b
      | (s, .ok v) =>
        if waitHolds x.raw v then arriveNode s l n 0 0 0 0
        else modGNode s l n fun y => { y with pollAt := now s + 2700, sub_ := none, depth := 0 }
def execWaitPoll (launch node : Nat) (s : State) : Out := .next (pollStep s launch node)

/-- WAIT_TIMEOUT. -/
def waitExpired (s : State) (x : NodeSt) : Bool :=
  fieldAt x.raw 0x2C 4 != 0 && decide (x.since + cyclesOfNs (1000 * fieldAt x.raw 0x2C 4) ≤ now s)
def waitTimeoutStep (s : State) (l n : Nat) : State :=
  match activeNode s l n 5 with
  | some x => if waitExpired s x then arriveNode s l n 3 0 0 0 else s
  | none => s
def execWaitTimeout (launch node : Nat) (s : State) : Out := .next (waitTimeoutStep s launch node)

/-- SUBGRAPH_START: a nested launch, counted as taken when it starts; nesting deeper than 8 levels, below the launch of the record, which is no level of
its own (log 25), is blocked (03 R62). -/
def subgraphStep (s : State) (l n : Nat) : State :=
  match activeNode s l n 9 with
  | none => s
  | some x =>
    let y := getLaunch s l
    if x.nested.isSome ∨ y.ends ≠ .no then s
    else if 8 ≤ y.level then arriveNode s l n 5 0 0 0
    else if 1024 ≤ s.drill.launches.length then s
    else
      let m := freshId s
      let z : Launch := { ctx := y.ctx, pol := y.pol, queue := y.queue, seq := y.seq, raw := y.raw, tacc := y.tacc, order := m, taken := now s,
                          parent := some (l, n), level := y.level + 1 }
      let s := bumpId (modDrill s fun d => { d with launches := Tbl.put d.launches m z })
      let s := modGNode s l n fun q => { q with nested := some m }
      let (s, k) := refNode s m (fieldAt x.raw 0x10 8)
      readyNode s m k
def execSubgraphStart (launch node : Nat) (s : State) : Out := .next (subgraphStep s launch node)

/-! ### Engine nodes (R62, 06 R113) -/

/-- The order of dispatch: the higher p_node first, and then the one that entered the granary first. -/
def byRank (a b : Nat × Nat × NodeSt) : Bool :=
  decide (b.2.2.prio < a.2.2.prio) || (a.2.2.prio == b.2.2.prio && decide (a.2.2.order < b.2.2.order))

/-- The command of an engine node. -/
def nodeCommand (r : List Byte) : Instr :=
  let e : EAct := { dst := .none, sa := .zero, sb := .zero, scope := .device }
  let f := fieldAt r 0x1A 1
  let fcs : Fcs := ⟨bitOf f 2, bitOf f 1, bitOf f 0⟩
  if fieldAt r 0 1 = 3 then .coll e fcs
  else match fieldAt r 0x19 1 with
    | 0 => .cpy e
    | 1 => .cpyNd e
    | 2 => .cpyIx e
    | 3 => .cpyIs e
    | 4 => .put e
    | 5 => .get e
    | 6 => .gat e
    | 7 => .sct e
    | _ => .sctAdd e fcs

/-- The engine that would take an engine node's command now: one of the dies of the part. -/
def nodeEngine (s : State) (x : NodeSt) : Option (Nat × Engine) :=
  let dies := if fieldAt x.raw 0x18 1 < 4 then [fieldAt x.raw 0x18 1] else [0, 1, 2, 3]
  (dies.filter dieExists).findSome? fun d => (engineFor s d 4 (nodeCommand x.raw)).map fun g => (d, g)

/-! ### `drill.push` (13 R243, 06 R114) -/

/-- Nodes that a die's dispatch agent keeps in its part of the granary (06 R113). -/
def agentLoad (s : State) (die : Nat) : Nat := ((nodesIn s .granary).filter fun x => x.2.2.agent == some die).length

/-- The drill takes a push: its node enters the granary ready, in the launch of the section that pushes it, in the part of the dispatch agent of the die
that pushed it while that part's 64 entries have room (log 25). -/
def performPush (s : State) (c : Cmd) : State :=
  let done (s : State) (st : Nat) : State := modCmd s c.id fun x => { x with phase := .done, status := st }
  match c.phase, c.parcel with
  | .fetch, some p =>
    (match launchRecord s (getParcel s p).launch c.a.toNat with
    | (s, none) => done s 5
    | (s, some (r, xs)) =>
      if !nodeOk r then done s 5
      else if 4096 ≤ granaryLoad s then done s 10
      else
        let q := getParcel s p
        let x : NodeSt := { addr := c.a.toNat, raw := r, succ := xs, pushed := true, pbase := q.prio, inl := c.inl
                            agent := if agentLoad s (dieOf c.l.plot) < 64 then some (dieOf c.l.plot) else none }
        let (s, n) := addNode s q.launch x
        let s := readyNode s q.launch n
        let s := match getGNode s q.launch n with
          | some x => if x.phase = .outside then enterGranary s q.launch n else s
          | none => s
        done s 0)
  | .fetch, none => done s 5
  | _, _ => s

/-! ### HOME_ACCESS_PERFORM and ENGINE_COMPLETE -/

/-- HOME_ACCESS_PERFORM: the next access of a request or of a command. -/
def performAccess (s : State) (id : Nat) : State :=
  match findReq s id with
  | some q => performReq s q
  | none => match findCmd s id with
    | some c => (match c.i with
      | .drillPush .. => performPush s c
      | _ => performCmd s c)
    | none => s
def execHomeAccessPerform (req : Nat) (s : State) : Out := .next (performAccess s req)

/-- A launch in which engine nodes complete with ABORTED (R117). -/
def abortsNodes (k : LEnd) : Bool := k != .no && k != .drain

/-- ENGINE_COMPLETE (13 R235): the completion token becomes visible, or the node completes. Flags reach `flg` with the join (R240), at once
where there is no token. -/
def completeCmd (s : State) (id : Nat) : State :=
  match findCmd s id with
  | none => s
  | some c =>
    if c.phase ≠ .done then s
    else
      let s := { s with cmds := s.cmds.filter fun x => x.id != id }
      match c.node with
      | some (l, n) =>
        if abortsNodes (getLaunch s l).ends then arriveNode s l n 2 0 0 0
        else arriveNode s l n (if c.killed then 4 else c.status) 0 (if c.killed then c.kinfo else 0) 0
      | none =>
        let s := markActive s c.l.plot
        if c.rid = 0 then modElem s c.l fun e => orFlags e c.flags
        else postResult (modElem s c.l fun e => { e with joinFl := e.joinFl ++ [(c.rid, c.flags)] }) c.rid
          { tag := .data, val := BitVec.ofNat 512 (completionWord c) }
def execEngineComplete (cmd : Nat) (s : State) : Out := .next (completeCmd s cmd)

end Sys2Proof.Machine
end

