-- ==== Sys2Proof/Machine/Place.lean ====
section
/-!
DEFINITION. Placement, configuration fetch and the start of plots (spec 07, 01 R16, R20, 03 R46, R57, R58, 04 R82): PLACE_SECTION, CONFIG_PACKET,
PLOT_START, and the freeing of a parcel.
-/

namespace Sys2Proof.Machine

/-! ### Rectangles and occupancy (R119) -/

/-- The index of a plot in its parcel. -/
def plotIndex (p : Parcel) (plot : Nat) : Nat := (plotY plot - p.y0) * p.w + (plotX plot - p.x0)

/-- The shape of a SECTION node (03 R62, R398). -/
def nodeShape (x : NodeSt) : Nat := fieldAt x.raw 0x28 1
def shapeLegal (b : Nat) : Bool := decide (bitsOf b 2 0 ≤ 5) && decide (bitsOf b 6 4 ≤ 4)
def shapeW (b : Nat) : Nat := 2 ^ bitsOf b 2 0
def shapeH (b : Nat) : Nat := 2 ^ bitsOf b 6 4

/-- An origin that R16 allows. -/
def originLegal (x0 y0 w h : Nat) : Bool := x0 % w == 0 && y0 % h == 0 && decide (x0 + w ≤ 32) && decide (y0 + h ≤ 16)

/-- Every legal origin, lower y0 first and then lower x0. -/
def origins (w h : Nat) : List (Nat × Nat) :=
  (List.range (16 / h)).flatMap fun j => (List.range (32 / w)).map fun i => (i * w, j * h)

/-- Nodes of the granary that hold a reservation. -/
def reservations (s : State) : List (Nat × Nat × NodeSt) := (nodesIn s .granary).filter fun x => x.2.2.reserved.isSome

/-- The plots that a node has reserved. -/
def reservedPlots (x : NodeSt) : List Nat :=
  match x.reserved with
  | some (x0, y0) => rectPlots x0 y0 (shapeW (nodeShape x)) (shapeH (nodeShape x))
  | none => []

/-! ### Configuration slots (R123, R124) -/

/-- What a c-slot's tag is compared with, apart from the plot index. -/
structure ImgTag where
  ctx : Nat
  desc : Nat
  hash : Nat
  shape : Nat

def tagOfParcel (p : Parcel) : ImgTag := ⟨p.ctx, p.desc, p.hash, ceilLog2 p.w + 16 * ceilLog2 p.h⟩

/-- A c-slot that a lookup matches. -/
def slotHolds (t : ImgTag) (idx : Nat) (c : CSlot) : Bool :=
  (c.st == .valid || c.st == .pinned) && c.ctx == t.ctx && c.desc == t.desc && c.hash == t.hash && c.shape == t.shape && c.idx == idx

/-- The c-slot numbers. -/
def cslotNums : List Nat := [0, 1, 2, 3]
def cslotAt (p : Plot) (k : Nat) : CSlot := p.cslots.toList.getD k {}
def setCslot (p : Plot) (k : Nat) (c : CSlot) : Plot := { p with cslots := Vector.ofFn fun n => if n.val = k then c else p.cslots[n] }

def matchingSlot (p : Plot) (t : ImgTag) (idx : Nat) : Option Nat := cslotNums.find? fun k => slotHolds t idx (cslotAt p k)

/-- The victim of a fill: an INVALID c-slot, else the VALID one of the oldest placement. -/
def victimSlot (p : Plot) : Option Nat :=
  (cslotNums.find? fun k => (cslotAt p k).st == .invalid).orElse fun _ =>
    (cslotNums.filter fun k => (cslotAt p k).st == .valid).foldl
      (fun best k => match best with
        | none => some k
        | some b => if (cslotAt p k).last < (cslotAt p b).last then some k else some b) none

/-- A plot takes the c-slot of its section: a matching one is pinned, else a victim begins to fill. -/
def takeCslot (t : ImgTag) (idx time : Nat) (p : Plot) : Plot :=
  match matchingSlot p t idx with
  | some k => { setCslot p k { cslotAt p k with st := .pinned, last := time } with cslot := some k }
  | none => match victimSlot p with
    | some k =>
      { setCslot p k { st := .filling, ctx := t.ctx, desc := t.desc, hash := t.hash, idx := idx, shape := t.shape, last := time } with cslot := some k }
    | none => { p with cslot := none }

/-- The c-slot of a freed plot: VALID again, or INVALID where its fill is interrupted. -/
def releaseCslot (p : Plot) : Plot :=
  match p.cslot with
  | some k =>
    let c := cslotAt p k
    setCslot p k { c with st := if c.st = .pinned then .valid else .invalid }
  | none => p

/-- The block that a plot has in its c-slot. -/
def pinnedBlock (p : Plot) : Option (List Byte) :=
  match p.cslot with
  | some k => if (cslotAt p k).st = .pinned then some (cslotAt p k).block else none
  | none => none

/-! ### Freeing a parcel (R119) -/

/-- A plot between two sections: its store, its adapter cache, its c-slots and its trace unit keep what they hold (log 26). -/
def blankPlot (p : Plot) : Plot :=
  { withdrawn := p.withdrawn, store := p.store, poison := p.poison, owner := p.owner, slices := p.slices, cslots := p.cslots, trace := p.trace }

/-- A plot that a section of a context takes: its adapter cache is empty, and so is a store that holds bytes of another context (01 R18; log 26). -/
def freshPlot (ctx : Nat) (p : Plot) : Plot :=
  if p.owner = some ctx then { blankPlot p with slices := [] } else { blankPlot p with slices := [], store := [], poison := [], owner := some ctx }

/-- The elements and units of plots are gone. -/
def clearUnits (s : State) (ps : List Nat) : State :=
  { s with elems := s.elems.filter fun x => !ps.contains (x.1 / 32), les := s.les.filter fun x => !ps.contains (x.1 / 32)
           ses := s.ses.filter fun x => !ps.contains (x.1 / 32), mes := s.mes.filter fun x => !ps.contains (x.1 / 32) }

/-- The plots of a parcel are free; their elements and units hold what they held until another section takes the plots (log 26). -/
def leavePlots (s : State) (p : Parcel) : State :=
  (parcelPlots p).foldl (fun s n => modPlot s n fun q => blankPlot (releaseCslot q)) s

/-- The plots of a parcel are free, and what their elements and channels hold is discarded. -/
def freePlots (s : State) (p : Parcel) : State := leavePlots (clearUnits s (parcelPlots p)) p

/-- A parcel is forgotten. -/
def forgetParcel (s : State) (n : Nat) : State := { s with parcels := Tbl.drop s.parcels n }

/-- A parcel is freed and forgotten: one whose section has been ended, with what its channels hold (04 R82). -/
def freeParcel (s : State) (n : Nat) : State := forgetParcel (freePlots s (getParcel s n)) n

/-- A parcel is freed and forgotten: one whose section has settled. -/
def leaveParcel (s : State) (n : Nat) : State := forgetParcel (leavePlots s (getParcel s n)) n

/-! ### The checks before placement (R120, R126, 03 R46) -/

/-- The device has found a kernel's hash good before (03 R47). -/
def kernelKnown (s : State) (ctx : Nat) (k : Kernel) : Bool := s.drill.kernels.contains (ctx, k.addr, k.hash)

/-- A kernel's HASH does not show that it is bad: it is known, or it matches, or it cannot be computed while bytes cannot be read (07 R126; log 41). -/
def kernelGood (s : State) (ctx : Nat) (phys : Bool) (k : Kernel) : Bool := phys || kernelKnown s ctx k || kernelHash s ctx k != some false

/-- A kernel is brought into the code heap for the first time: it is measured into the attestation log (20 R356). -/
def bringKernel (s : State) (ctx : Nat) (phys : Bool) (k : Kernel) : State :=
  if phys || kernelKnown s ctx k || kernelHash s ctx k != some true then s
  else { s with drill := { s.drill with kernels := s.drill.kernels ++ [(ctx, k.addr, k.hash)] }
                reeve := { s.reeve with mlog := s.reeve.mlog ++ [BitVec.ofNat 256 k.hash] } }

/-- The image that a node names is a Jerix function (05 R93). -/
def isFunction (s : State) (ctx : Nat) (x : NodeSt) : Bool :=
  match readImage s ctx false (fieldAt x.raw 0x10 8) 4 with
  | .ok bs => ofBytes bs == 0x4E55464A
  | .error _ => false

/-- The section that a node runs: that of its translated image, or the one that it names; else the status of the check that fails. -/
def nodeSection (s : State) (l : Nat) (x : NodeSt) : Except Nat (Bool × Section) :=
  let ctx := (getLaunch s l).ctx
  let phys := x.image.isSome
  match readSection s ctx phys (x.image.getD (fieldAt x.raw 0x10 8)) (nodeShape x) (fieldAt x.raw 0x20 4) with
  | none => .error 5
  | some sec =>
    if !kernelGood s ctx phys sec.kernel then .error 5
    else if errataUnavailable s ctx phys sec then .error 8
    else .ok (phys, sec)

/-- The only origin that a node may take: that of an earlier placement, by override (06 R107), or by FIXED (03 R62). -/
def fixedOrigin (s : State) (l n : Nat) (x : NodeSt) : Option (Nat × Nat) :=
  let y := getLaunch s l
  match x.parcel with
  | some p => (getParcel s p).pinned
  | none =>
    if bitOf (fieldAt y.raw 0x2B 1) 0 && y.parent.isNone && entryNode y == some n then some (fieldAt y.raw 0x2C 1, fieldAt y.raw 0x2D 1)
    else if bitOf (fieldAt x.raw 0x29 1) 0 then some (fieldAt x.raw 0x2A 1, fieldAt x.raw 0x2B 1)
    else none

/-! ### Choosing a parcel (R121) -/

/-- What the drill decides for a node. -/
inductive Decision
  | wait
  | fail (status : Nat)
  | place (x0 y0 : Nat)
  | reserve (x0 y0 : Nat)
  deriving DecidableEq, Repr

/-- A candidate as the drill sees it: free, or with the sections and reservations that stand on it. -/
structure Candidate where
  x0 : Nat
  y0 : Nat
  plots : List Nat
  victims : List Nat
  overlapped : List (Nat × Nat × NodeSt)

def candidate (s : State) (l n w h : Nat) (o : Nat × Nat) : Candidate :=
  let ps := rectPlots o.1 o.2 w h
  { x0 := o.1, y0 := o.2, plots := ps, victims := (ps.filterMap fun p => (getPlot s p).parcel).eraseDups
    overlapped := (reservations s).filter fun r => !(r.1 == l && r.2.1 == n) && (reservedPlots r.2.2).any ps.contains }

def Candidate.free (c : Candidate) : Bool := c.victims.isEmpty && c.overlapped.isEmpty

/-- The resident count of a candidate: non-empty plots that hold a matching block. -/
def residentCount (s : State) (t : ImgTag) (offs : List Nat) (c : Candidate) : Nat :=
  ((c.plots.zip offs).mapIdx fun i x => (i, x)).countP fun x => x.2.2 != 0 && (matchingSlot (getPlot s x.2.1) t x.1).isSome

/-- The first of a list with the greatest value of a measure. -/
def firstMax {α : Type} (f : α → Nat) : List α → Option α
  | [] => none
  | x :: xs => match firstMax f xs with
    | some y => if f x < f y then some y else some x
    | none => some x

/-- A candidate that a node of priority p may take by pre-emption: every section and reservation on it is of lower priority, and every victim's
context has save slots (20 R348). -/
def preemptable (s : State) (p : Nat) (c : Candidate) : Bool :=
  (c.victims.all fun v => decide ((getParcel s v).prio < p) && bitsOf (getCtx s (getParcel s v).ctx).csvn.toNat 7 0 != 0) &&
  c.overlapped.all fun r => decide (r.2.2.prio < p)

/-- The highest priority among a candidate's victims, and their number, as one measure. -/
def victimCost (s : State) (c : Candidate) : Nat := (c.victims.foldl (fun m v => max m ((getParcel s v).prio + 1)) 0) * 1024 + c.victims.length

def firstMin {α : Type} (f : α → Nat) : List α → Option α
  | [] => none
  | x :: xs => match firstMin f xs with
    | some y => if f y < f x then some y else some x
    | none => some x

/-- Where a node of a shape goes: among the candidates of the part without withdrawn plots, the free one with the largest resident count, else one to reserve. -/
def chooseOrigin (s : State) (l n : Nat) (x : NodeSt) (t : ImgTag) (offs : List Nat) (os : List (Nat × Nat)) : Decision :=
  let cs := (os.map (candidate s l n (shapeW (nodeShape x)) (shapeH (nodeShape x)))).filter fun c => c.plots.all fun p => plotExists p && !(getPlot s p).withdrawn
  if cs.isEmpty then .fail 9
  else match firstMax (residentCount s t offs) (cs.filter Candidate.free) with
    | some c => .place c.x0 c.y0
    | none =>
      if x.reserved.isSome then .wait
      else match firstMin (victimCost s) (cs.filter (preemptable s x.prio)) with
        | some c => .reserve c.x0 c.y0
        | none => .wait

/-- The origins that a node may take; none where the one that is given breaks R16. -/
def nodeOrigins (s : State) (l n : Nat) (x : NodeSt) : Option (List (Nat × Nat)) :=
  match fixedOrigin s l n x with
  | some (a, b) => if originLegal a b (shapeW (nodeShape x)) (shapeH (nodeShape x)) then some [(a, b)] else none
  | none => some (origins (shapeW (nodeShape x)) (shapeH (nodeShape x)))

/-- The parcel of a saved section with the image that its node was given since, where that one has been translated or found again (05 R103). -/
def movedImage (x : NodeSt) (p : Parcel) : Parcel :=
  match x.image with
  | some a => if p.phys then { p with image := a, desc := a, kern := (a - 64, p.kern.2) } else p
  | none => p

/-- The drill's decision for a SECTION node of the granary: its shape and origin are checked before its image (R120 takes a break at once).
A Jerix function that is not translated yet is not dispatchable (05 R97), and nothing is while the field rails are off (20 R353). -/
def decision (s : State) (l n : Nat) (x : NodeSt) : Decision :=
  if !ctxOn s (getLaunch s l).ctx || s.reeve.railsOff then .wait
  else if !shapeLegal (nodeShape x) then .fail 9
  else match nodeOrigins s l n x with
    | none => .fail 9
    | some os =>
      if x.image.isNone && isFunction s (getLaunch s l).ctx x then .wait
      else match x.parcel with
      | some p => chooseOrigin s l n x (tagOfParcel (movedImage x (getParcel s p))) (getParcel s p).plotOffs os
      | none => match nodeSection s l x with
          | .error st => .fail st
          | .ok (_, sec) => chooseOrigin s l n x ⟨(getLaunch s l).ctx, sec.desc, sec.kernel.hash, nodeShape x⟩ sec.plotOffs os

/-! ### What the blocks of a parcel give -/

/-- The channel of a route record of plot `plot` of a parcel (03 R53, 08 R131). -/
def chanRec (gone : List Nat) (p : Parcel) (plot w : Nat) : Loc × Fin 4 × Route :=
  let r := readRoute w
  let dst := if r.long then plotAt (p.x0 + r.dx) (p.y0 + r.dy) else plot
  (⟨plot, r.ssite⟩, r.sch, { dst := ⟨dst, r.dsite⟩, port := r.dch, long := r.long, dist := if r.long then longDist gone plot dst else 0, secOut := r.out })

/-- The barrier records of a block: group and mask (03 R55). -/
def blockBars (bs : List Byte) : List (Nat × BitVec 32) :=
  (List.range (fieldAt bs 0x21 1)).map fun i =>
    let b := fieldAt bs (fieldAt bs 0x34 4 + 8 * (fieldAt bs 0x20 1 + i)) 8
    (bitsOf b 4 0, BitVec.ofNat 32 (bitsOf b 63 32))

/-- A plot's block joins what its parcel knows of its sites, its channels and its barrier members. -/
def noteBlock (gone : List Nat) (p : Parcel) (plot : Nat) (bs : List Byte) : Parcel :=
  { p with
    sites := Tbl.put p.sites plot (BitVec.ofNat 32 (fieldAt bs 4 4))
    chans := (p.chans.filter fun c => c.1.plot != plot) ++ (blockRoutes bs).map (chanRec gone p plot)
    bars := (blockBars bs).foldl (fun bars x =>
      let g := Tbl.findD bars x.1 {}
      Tbl.put bars x.1 { g with members := Tbl.put g.members plot (Tbl.findD g.members plot 0 ||| x.2) }) p.bars }

/-- An input with its channel (03 R53). -/
def feedIn (c : Loc × Fin 4 × Route) (e : Elem) : Elem :=
  setIn e c.2.2.port { inPort e c.2.2.port with src := some (c.1, c.2.1), dist := c.2.2.dist, long := c.2.2.long, secOut := c.2.2.secOut }

/-- Channels that a block brings reach the elements that stand already. -/
def feedPlaced (s : State) (cs : List (Loc × Fin 4 × Route)) : State :=
  cs.foldl (fun s c => if (getElem s c.2.2.dst).present then modElem s c.2.2.dst (feedIn c) else s) s

/-- A block that could not be read at placement is known. -/
def learnBlock (s : State) (k plot : Nat) (bs : List Byte) : State :=
  let before := (getParcel s k).chans
  let s := modParcel s k fun p => noteBlock (retired s) p plot bs
  feedPlaced s ((getParcel s k).chans.filter fun x => !before.contains x)

/-! ### Placing (R121, R123 to R125) -/

/-- Argument slice address of a SECTION node: its own, else the launch's ARGS (06 R107). -/
def argsOf (s : State) (l : Nat) (x : NodeSt) : Nat :=
  if fieldAt x.raw 0x18 8 = 0 then fieldAt (getLaunch s (rootLaunch s 9 l)).raw 0x08 8 else fieldAt x.raw 0x18 8

/-- The parcel of a node that is placed for the first time. -/
def newParcel (s : State) (l n : Nat) (x : NodeSt) (phys : Bool) (sec : Section) (x0 y0 : Nat) : Parcel :=
  { ctx := (getLaunch s l).ctx, launch := l, node := x.addr, x0 := x0, y0 := y0, w := sec.w, h := sec.h, prio := x.prio
    pol := policyOf (fieldAt x.raw 1 1), image := x.image.getD (fieldAt x.raw 0x10 8), tiles := fieldAt x.raw 0x24 4
    wdog := fieldAt x.raw 0x2C 4, regions := sec.regions, hash := sec.kernel.hash, kflags := sec.kernel.flags, phys := phys
    gen := sec.kernel.gen, kern := (sec.kernel.addr, sec.kernel.len), desc := sec.desc, plotOffs := sec.plotOffs, patches := sec.patches, args := argsOf s l x, inl := x.inl
    pinned := fixedOrigin s l n x
    tokens := match x.image with
      | some a => ((s.drill.heap.find? fun e => e.addr + 64 == a).map (·.tokens)).getD []
      | none => [] }

/-- The image offset of plot index i; 0 for an empty plot. -/
def plotOff (p : Parcel) (i : Nat) : Nat := p.plotOffs.getD i 0

/-- The block of a plot index of a parcel: that in its c-slot, else that in the image. -/
def parcelBlock (s : State) (p : Parcel) (i : Nat) : Option (List Byte) :=
  if plotOff p i = 0 then none
  else match pinnedBlock (getPlot s ((parcelPlots p).getD i 0)) with
    | some bs => some bs
    | none => readBlock s p.ctx p.phys (p.desc + plotOff p i)

/-- A plot is occupied by a parcel: an empty one counts as started (R125), another takes its c-slot. -/
def occupyPlot (k : Nat) (p : Parcel) (restore : Bool) (s : State) (i : Nat) : State :=
  let n := (parcelPlots p).getD i 0
  modPlot s n fun q =>
    let q := { freshPlot p.ctx q with parcel := some k }
    if plotOff p i = 0 then { q with empty := true, started := true }
    else { takeCslot (tagOfParcel p) i (now s) q with restore := restore }

/-- The plots of parcel k are occupied, and the blocks that can be read are known; one that cannot is known once it has been configured. -/
def occupy (s : State) (k : Nat) (p : Parcel) (restore : Bool) : State :=
  let s := (List.range (p.w * p.h)).foldl (occupyPlot k p restore) (setParcel (clearUnits s (parcelPlots p)) k p)
  if restore then s
  else (List.range (p.w * p.h)).foldl (fun s i => match parcelBlock s p i with
    | some bs => modParcel s k fun q => noteBlock (retired s) q ((parcelPlots p).getD i 0) bs
    | none => s) s

/-- A node's reservation ends, and those of lower priority that a candidate overlaps. -/
def clearReserved (s : State) (l n : Nat) (ps : List Nat) : State :=
  (reservations s).foldl (fun s r =>
    if (r.1 == l && r.2.1 == n) || (reservedPlots r.2.2).any ps.contains then modGNode s r.1 r.2.1 fun y => { y with reserved := none } else s) s

/-- A node is dispatched to a parcel: its record is among those that the dispatch agent keeps (06 R114). -/
def dispatched (s : State) (l n k : Nat) (addr die : Nat) : State :=
  let s := modGNode s l n fun y => { y with phase := .running, parcel := some k, reserved := none }
  let s := modLaunch s (rootLaunch s 9 l) fun y => { y with nrun := y.nrun + 1 }
  modDie s die fun d => { d with nodeCache := (addr :: d.nodeCache.erase addr).take 256 }

/-- A dispatch from an image of the code heap: it is the image's last one so far (05 R103). -/
def touchImage (s : State) (x : NodeSt) : State :=
  { s with drill := { s.drill with heap := mapIf (fun e => some (e.addr + 64) == x.image) (fun e => { e with last := now s }) s.drill.heap } }

/-- A node is placed at an origin. -/
def placeAt (s : State) (l n : Nat) (x : NodeSt) (x0 y0 : Nat) : State :=
  let s := touchImage s x
  match x.parcel with
  | some k =>
    let p := { movedImage x (getParcel s k) with x0 := x0, y0 := y0, stage := .resuming, prio := x.prio }
    dispatched (occupy (clearReserved s l n []) k p true) l n k x.addr (dieOf (plotAt x0 y0))
  | none => match nodeSection s l x with
    | .error _ => s
    | .ok (phys, sec) =>
      let s := bringKernel s (getLaunch s l).ctx phys sec.kernel
      let k := freshId s
      let p := newParcel s l n x phys sec x0 y0
      dispatched (occupy (clearReserved (bumpId s) l n []) k p false) l n k x.addr (dieOf (plotAt x0 y0))

/-- There is a decision to take for a node of the granary: a SECTION node, or an engine node whose engine accepts a command (06 R113). -/
def dispatchable (s : State) (x : Nat × Nat × NodeSt) : Bool :=
  if isSection x.2.2 then decision s x.1 x.2.1 x.2.2 != .wait else isEngineNode x.2.2 && (nodeEngine s x.2.2).isSome && ctxOn s (getLaunch s x.1).ctx && !s.reeve.railsOff

/-- The node of the granary that goes first: of the highest p_node among the dispatchable ones, whatever their type, and then by entry (06 R113). -/
def nextDispatch (s : State) : Option (Nat × Nat × NodeSt) := (sortKey byRank (nodesIn s .granary)).find? (dispatchable s)

/-- PLACE_SECTION: the node that goes first is this one, a SECTION node, and the decision for it is taken. -/
def placeStep (s : State) (l n : Nat) : State :=
  match nextDispatch s with
  | none => s
  | some (l', n', x) =>
    if l' = l ∧ n' = n ∧ isSection x then
      (match decision s l n x with
      | .wait => s
      | .fail st => arriveNode (x.parcel.elim s (dropSaved s)) l n st 0 0 (savedFlags s x)
      | .place x0 y0 => placeAt s l n x x0 y0
      | .reserve x0 y0 =>
        modGNode (clearReserved s l n (rectPlots x0 y0 (shapeW (nodeShape x)) (shapeH (nodeShape x)))) l n fun y => { y with reserved := some (x0, y0) })
    else s
def execPlaceSection (launch node : Nat) (s : State) : Out := .next (placeStep s launch node)

/-- ENGINE_NODE_DISPATCH: the node that goes first is this one, an engine node, and it goes to its engine. -/
def dispatchEngine (s : State) (l n : Nat) : State :=
  match nextDispatch s with
  | none => s
  | some (l', n', x) =>
    if l' = l ∧ n' = n ∧ isEngineNode x then
      (match nodeEngine s x with
      | some (d, g) =>
        let id := freshId s
        let i := nodeCommand x.raw
        let c : Cmd := { id := id, l := ⟨512 + d, 0xFF⟩, node := some (l, n), ctx := (getLaunch s l).ctx, i := i, eng := g,
                         a := BitVec.ofNat 64 (fieldAt x.raw 0x10 8), phase := if isCopy i then .queued else .fetch }
        modGNode (bumpId { s with cmds := s.cmds ++ [c] }) l n fun y => { y with phase := .running, cmd := some id }
      | none => s)
    else s
def execEngineNodeDispatch (launch node : Nat) (s : State) : Out := .next (dispatchEngine s launch node)

/-! ### Blocks decoded -/

/-- The routes of a block as its source outputs have them. -/
def blockOuts (gone : List Nat) (p : Parcel) (plot : Nat) (bs : List Byte) (site : Nat) (n : Fin 4) : Option Route :=
  ((blockRoutes bs).map (chanRec gone p plot)).findSome? fun c => if c.1.site = site ∧ c.2.1 = n then some c.2.2 else none

/-- The kernel of a parcel, as its header gave it. -/
def parcelKernel (p : Parcel) : Kernel := ⟨p.kern.1, p.kflags, p.gen, p.kern.2, p.hash⟩

/-- A block of n bytes of plot index i lies within its kernel (03 R48). -/
def blockWithin (p : Parcel) (i n : Nat) : Bool := within (parcelKernel p) (p.desc + plotOff p i) n

/-- A plot block of a parcel decoded; sites of blocks that cannot be read count as present. -/
def decodePlot (p : Parcel) (i : Nat) (bs : List Byte) : Except Broken PlotCfg :=
  let plots := parcelPlots p
  if !blockWithin p i bs.length then .error (0, 0) else
  let v : BlockEnv := { gen := genOf p.gen, err := bitOf p.kflags 0, w := p.w, h := p.h, idx := i
                        sites := fun j => match Tbl.find p.sites (plots.getD j 0) with
                          | some x => x
                          | none => if plotOff p j = 0 then 0 else 0xFFFFFFFF }
  decodeBlock v (blockOuts [] p (plots.getD i 0) bs) bs

/-! ### CONFIG_PACKET (R124) -/

/-- A read that a configuring plot makes faults: the plot is held before start, with what is read as the item (R126, 03 R57). -/
def holdPlot (s : State) (plot site idx : Nat) (b : VBad) : State :=
  raiseFault (modPlot s plot fun p => { p with held := true })
    { cls := b.cls, sub := b.sub, plot := plot, site := site, addr := b.va, info0 := if b.cls = .operand then BitVec.ofNat 64 b.va else 0
      depth := (getPlot s plot).depth, what := some (.patch plot idx) }

/-- Bytes of the image for a configuring plot, or the value that a repair gives in every 8 bytes. -/
def configBytes (s : State) (p : Parcel) (q : Plot) (a n : Nat) : Except VBad (List Byte) :=
  match q.subst with
  | some v => .ok ((List.range n).map fun i => (bytesOf 8 v.toNat).getD (i % 8) 0)
  | none => readImage s p.ctx p.phys a n

/-- The plot of a parcel that a configuration step acts on: not held, of a section that has not ended. -/
def configuring (s : State) (plot : Nat) : Option (Nat × Parcel × Nat) :=
  let q := getPlot s plot
  match q.parcel with
  | some k =>
    let p := getParcel s k
    if q.empty || q.started || q.held || p.ending.isSome || p.stage == .saved then none else some (k, p, plotIndex p plot)
  | none => none

/-- BLEN is read, and the packets of the block are known. -/
def beginFill (c : CSlot) (blen : Nat) : CSlot :=
  { c with blen := blen, block := List.replicate blen 0, todo := List.range ((blen + 511) / 512) }

/-- A packet's bytes enter the block. -/
def putPacket (c : CSlot) (n : Nat) (bs : List Byte) : CSlot :=
  { c with block := c.block.take (512 * n) ++ bs ++ c.block.drop (512 * n + bs.length), todo := c.todo.erase n }

/-- The last packet signs the c-slot; its section is on the plot, so it is PINNED. -/
def signSlot (c : CSlot) : CSlot := if c.todo.isEmpty ∧ c.blen ≠ 0 then { c with st := .pinned, sig := (crc64 c.block).toNat } else c

/-- The plot has gone on: a repair's value is used up. -/
def progressed (p : Plot) : Plot := { p with subst := none, depth := 0 }

/-! ### PLOT_START (R125, 03 R54 to R58) -/

/-- Declare tiles in order (03 R54, 11 R188): none where a declaration is illegal. -/
def declareTiles (plot : Nat) : State → List Word → Option State
  | s, [] => some s
  | s, w :: ws => match readDesc w with
    | none => none
    | some (h, t) =>
      if 20 ≤ t.site ∧ t.site ≤ 23 ∧ !(tileNow s plot h).alloc ∧ shapeOk s plot t then
        (match placeTile s plot h t with
        | some t => declareTiles plot (modPlot s plot fun p => { p with tiles := Tbl.put p.tiles h t }) ws
        | none => none)
      else none

/-- A ring record (03 R55): its stages, whose handles carry RING. A later record of a ring takes the place of an earlier one (log 49). -/
def declareRing (p : Plot) (r : Nat) : Plot :=
  let hs := (List.range (bitsOf r 7 4 + 1)).map fun n => bitsOf r 15 8 + n
  { p with rings := Tbl.put p.rings (bitsOf r 2 0) { stages := hs.map fun h => { handle := h } }
           tiles := hs.foldl (fun t h => Tbl.put t h { Tbl.findD t h {} with ring := true }) p.tiles }

/-- Entries of a channel's destination queue that hold no initial token. -/
def entriesLeft (s : State) (r : Route) : Nat := inDepth (kindOfSite r.dst.site) r.port - (inPort (getElem s r.dst) r.port).q.es.length

/-- The elements of a block stand with their channels. -/
def placeElems (s : State) (p : Parcel) (plot : Nat) (es : List (Nat × Elem × Option MeUnit)) : State :=
  es.foldl (fun s x =>
    let l : Loc := ⟨plot, x.1⟩
    let e := p.chans.foldl (fun e c =>
      let given := if c.2.2.long && (getPlot s c.2.2.dst.plot).started then entriesLeft s c.2.2 else 0
      let e := if c.1 = l then setOut e c.2.1 { outPort e c.2.1 with route := some c.2.2, credits := given } else e
      if c.2.2.dst = l then feedIn c e else e) x.2.1
    let s := setElem s l e
    match x.2.2 with
    | some m => modMe s l fun _ => m
    | none => s) s

/-- A declared stream opens, or an OPERAND fault says that it does not (12 R201); a later record of a stream takes the place of an earlier one (log 49). -/
def declareStream (plot : Nat) (s : State) (x : Nat × Nat × List Byte) : State :=
  let l : Loc := ⟨plot, x.1⟩
  let m : Fin 8 := ⟨x.2.1 % 8, Nat.mod_lt _ (by decide)⟩
  if patternOk (getElem s l) x.2.2 then openStream s l m (readPattern x.2.2)
  else raiseFault s { cls := .operand, plot := plot, site := x.1, strm := m.val, flags := 4, info0 := BitVec.ofNat 64 (fieldAt x.2.2 8 8) }

/-- A plot loads what its block gives (03 R58): none where a rule of the block is broken. -/
def loadPlot (s : State) (p : Parcel) (plot : Nat) (c : PlotCfg) : Option State :=
  let s := placeElems s p plot c.elems
  let s := modPlot s plot fun q => { q with hash := c.hmask }
  match declareTiles plot s c.tiles with
  | none => none
  | some s =>
    let s := modPlot s plot fun q => c.rings.foldl declareRing q
    let s := c.streams.foldl (declareStream plot) s
    some (modPlot s plot fun q => { q with loaded := true })

/-! ### A broken block ends the section (04 R82, 20 R341) -/

/-- The patch records of a plot. -/
def plotPatches (p : Parcel) (i : Nat) : List Word := p.patches.filter fun r => bitsOf r.toNat 15 0 == i

/-- The other plots of a parcel whose routes enter an input that a route of plot index i enters (03 R53). -/
def inputClashes (p : Parcel) (i : Nat) : List Nat :=
  let plot := (parcelPlots p).getD i 0
  (p.chans.filter fun c => c.1.plot == plot).flatMap fun c =>
    (p.chans.filter fun d => d.1.plot != plot && d.2.2.dst == c.2.2.dst && d.2.2.port == c.2.2.port).map fun d => plotIndex p d.1.plot

/-- The plots of a parcel whose routes enter a site that the block of plot index i does not hold: that block was not known when they started (03 R53). -/
def straysInto (p : Parcel) (i : Nat) : List Nat :=
  let plot := (parcelPlots p).getD i 0
  (p.chans.filter fun c => c.1.plot != plot && c.2.2.dst.plot == plot && !(Tbl.findD p.sites plot 0).getLsbD c.2.2.dst.site).map fun c =>
    plotIndex p c.1.plot

/-- The lowest break of a plot's block: of the block itself, of its patches, of an input that a plot of lower index has a route to, of its tiles. -/
def plotBreak (s : State) (p : Parcel) (i : Nat) (bs : List Byte) : Option Broken :=
  let plot := (parcelPlots p).getD i 0
  match decodePlot p i bs with
  | .error b => some b
  | .ok c =>
    if !(plotPatches p i).all (patchFits bs) || (inputClashes p i).any (fun j => decide (j < i)) ||
        (!(getPlot s plot).loaded && (loadPlot s p plot c).isNone) then some (0, 0)
    else none

/-- The head of the block of plot index i gives a legal BLEN, within its kernel (03 R48, R49). -/
def blenOk (p : Parcel) (i : Nat) (hd : List Byte) : Bool :=
  decide (64 ≤ fieldAt hd 0 4) && decide (fieldAt hd 0 4 ≤ 16384) && blockWithin p i (fieldAt hd 0 4)

/-- The break of a plot index that the device can tell: of its block, or, where the block has no legal length, of its head. -/
def breakAt (s : State) (p : Parcel) (i : Nat) : Option Broken :=
  if plotOff p i = 0 then none
  else match parcelBlock s p i, readImage s p.ctx p.phys (p.desc + plotOff p i) 64 with
    | some bs, _ => plotBreak s p i bs
    | none, .ok hd => if blenOk p i hd then none else some (0, 0)
    | none, .error _ => none

/-- The lowest plot of a parcel that breaks a rule, with the place of the break, else the given one. -/
def lowestBroken (s : State) (p : Parcel) (i : Nat) (b : Broken) : Nat × Broken :=
  ((List.range (p.w * p.h)).findSome? fun j => (breakAt s p j).map fun x => (j, x)).getD (i, b)

/-- The section is ended with CONFIG_BLOCKED, naming the lowest plot, site and slot that break a rule; a break that lies in no element, or in no slot,
names 0 for it (log 49). -/
def blockSection (s : State) (k i : Nat) (b : Broken) : State :=
  let (j, site, slot) := lowestBroken s (getParcel s k) i b
  modParcel s k fun p => { p with ending := some (p.ending.getD
    { status := 5, info := BitVec.ofNat 64 (2 ^ 31 + slot * 2 ^ 24 + site * 2 ^ 16 + j) }) }

/-- A section whose kernel turns out to have another HASH ends (03 R47): no plot is named. -/
def badKernel (s : State) (k : Nat) : State :=
  modParcel s k fun p => { p with ending := some (p.ending.getD { status := 5 }) }

/-- A packet of a filling c-slot arrives. -/
def fillPacket (s : State) (plot k : Nat) (p : Parcel) (i n slot : Nat) : State :=
  let q := getPlot s plot
  let c := cslotAt q slot
  let addr := p.desc + plotOff p i
  if c.blen = 0 then
    match configBytes s p q addr 64 with
    | .error b => holdPlot s plot 0xFF 0x10000 b
    | .ok hd =>
      if blenOk p i hd then modPlot s plot fun q => setCslot (progressed q) slot (beginFill c (fieldAt hd 0 4))
      else blockSection s k i (0, 0)
  else if !c.todo.contains n then s
  else
    match configBytes s p q (addr + 512 * n) (min 512 (c.blen - 512 * n)) with
    | .error b => holdPlot s plot 0xFF (0x10000 + n) b
    | .ok bs =>
      let c := signSlot (putPacket c n bs)
      let s := modPlot s plot fun q => setCslot (progressed q) slot c
      if c.st = .pinned ∧ !q.restore then learnBlock s k plot c.block else s

/-- A plot's block is on its way: its c-slot is filling, and no read of it is held. -/
def filling (s : State) (plot : Nat) : Bool :=
  (configuring s plot).isSome && match (getPlot s plot).cslot with
    | some k => (cslotAt (getPlot s plot) k).st == .filling
    | none => false

/-- The agent of a plot's die sends for the plots of a parcel in ascending plot index: it has sent every block before this one, other than one that is held
for a fault or waits for a c-slot. -/
def agentTurn (s : State) (p : Parcel) (plot i : Nat) : Bool :=
  (List.range i).all fun j => !(dieOf ((parcelPlots p).getD j 0) == dieOf plot && filling s ((parcelPlots p).getD j 0))

/-- CONFIG_PACKET: the agent reads BLEN, and then a packet arrives at the plot's c-slot; a plot without one takes a victim. -/
def configStep (s : State) (plot n : Nat) : State :=
  match configuring s plot with
  | none => s
  | some (k, p, i) =>
    match (getPlot s plot).cslot with
    | none => modPlot s plot (takeCslot (tagOfParcel p) i (now s))
    | some slot => if (cslotAt (getPlot s plot) slot).st = .filling ∧ agentTurn s p plot i then fillPacket s plot k p i n slot else s
def execConfigPacket (plot packet : Nat) (s : State) : Out := .next (configStep s plot packet)

/-! ### Patches and the start -/

/-- A stream with another base address. -/
def rebase (x : Stream) (v : Word) : Stream := { x with pat := { x.pat with base := v.toNat } }

/-- A patch record's word enters its register or its stream (03 R57). -/
def applyPatch (s : State) (plot : Nat) (r v : Word) : State :=
  let l : Loc := ⟨plot, bitsOf r.toNat 31 27⟩
  let t := bitsOf r.toNat 35 32
  if bitsOf r.toNat 39 36 = 0 then
    modElem s l fun e =>
      if t < 8 then writeReg e v (.d ⟨t % 8, Nat.mod_lt _ (by decide)⟩)
      else if t = 13 then { e with c0 := v }
      else if t = 14 then { e with c1 := v }
      else { e with k := v }
  else
    let m : Fin 8 := ⟨t % 8, Nat.mod_lt _ (by decide)⟩
    modLe s l fun u => { u with streams := u.streams.set m (rebase u.streams[m] v) }

/-- Read the plot's argument words in table order, from the inline words of a push or from memory; one that cannot be read holds the plot. -/
def readPatches (s : State) (p : Parcel) (plot : Nat) : List Word → State
  | [] => s
  | r :: rs =>
    let q := getPlot s plot
    let word : State × Except VBad Word :=
      match q.subst, p.inl[bitsOf r.toNat 63 48]? with
      | some v, _ => (s, .ok v)
      | none, some v => (s, .ok v)
      | none, none => match readVirt s 0 p.ctx (p.args + 8 * bitsOf r.toNat 63 48) 8 none with
        | (s, .ok bs) => (s, .ok (BitVec.ofNat 64 (ofBytes bs)))
        | (s, .error b) => (s, .error b)
    match word with
    | (s, .error b) => holdPlot s plot (bitsOf r.toNat 31 27) q.patchWords.length b
    | (s, .ok v) => readPatches (modPlot (applyPatch s plot r v) plot fun q => { progressed q with patchWords := q.patchWords ++ [v] }) p plot rs

/-- Initial tokens of a translated image stand in their queues (05 R97). -/
def placeTokens (s : State) (p : Parcel) (plot : Nat) : State :=
  (p.tokens.filter fun x => x.1 == plotIndex p plot).foldl (fun s x =>
    modElem s ⟨plot, x.2.1 / 4⟩ fun e =>
      let n := fin4Of x.2.1
      setIn e n { inPort e n with q := { es := x.2.2.map fun t => { body := some t, since := now s } } }) s

/-- The credits of the long channels into a plot that starts (08 R131). -/
def grantCredits (s : State) (p : Parcel) (plot : Nat) : State :=
  (p.chans.filter fun c => c.2.2.long && c.2.2.dst.plot == plot && (getElem s c.1).present).foldl (fun s c =>
    modElem s c.1 fun e =>
      setOut e c.2.1 { outPort e c.2.1 with back := (outPort e c.2.1).back ++ List.replicate (entriesLeft s c.2.2) (now s + c.2.2.dist) }) s

/-- The plot starts: the tile count (01 R20), credits, and the watchdog with the first plot (18 R329). -/
def startPlot (s : State) (k plot : Nat) : State :=
  let p := getParcel s k
  let s := { s with elems := s.elems.map fun x =>
    if x.1 / 32 = plot ∧ x.2.kind = .me then (x.1, { x.2 with tcnt := BitVec.ofNat 32 p.tiles }) else x }
  let s := grantCredits (placeTokens s p plot) p plot
  let s := modPlot s plot fun q => { q with started := true }
  modParcel s k fun p => { p with wdogOn := p.wdogOn || p.wdog != 0 }

/-- A plot that has loaded reads its patches, and starts when it has read them all. -/
def finishStart (s : State) (k plot : Nat) (p : Parcel) (i : Nat) : State :=
  let todo := (plotPatches p i).drop (getPlot s plot).patchWords.length
  let s := readPatches s p plot todo
  if (getPlot s plot).held then s else startPlot s k plot

/-- PLOT_START: a plot whose c-slot is signed loads its block, patches it, and starts; a broken rule ends the section. A plot of a section that
is resumed is restored with it (R122). Where routes of two plots enter one input, the plot of the higher index is the one that breaks the rule (log 49). -/
def plotStartStep (s : State) (plot : Nat) : State :=
  match configuring s plot, pinnedBlock (getPlot s plot) with
  | some (k, p, i), some bs =>
    if (getPlot s plot).restore then s
    else if (getPlot s plot).loaded then finishStart s k plot p i
    else match decodePlot p i bs with
      | .error b => blockSection s k i b
      | .ok c =>
        if !kernelGood s p.ctx p.phys (parcelKernel p) then badKernel s k
        else match plotBreak s p i bs, (inputClashes p i).map (max i) ++ straysInto p i, loadPlot s p plot c with
          | none, [], some s => finishStart (bringKernel s p.ctx p.phys (parcelKernel p)) k plot p i
          | none, j :: _, _ => blockSection s k j (0, 0)
          | b, _, _ => blockSection s k i (b.getD (0, 0))
  | _, _ => s
def execPlotStart (plot : Nat) (s : State) : Out := .next (plotStartStep s plot)

end Sys2Proof.Machine
end

