-- ==== Sys2Proof/Machine/Retire.lean ====
section
/-!
DEFINITION. How a section ends: SETTLE_SCAN (spec 01 R21, R22), SECTION_RETIRE (20 R339), KILL_PARCEL_FREE (04 R82, 18 R320), and SECTION_WATCHDOG
(18 R329).
-/

namespace Sys2Proof.Machine

/-! ### Quiescence (R21) -/

/-- A unit of the element has a multi-beat firing in progress, or a release or a closing that is not done. -/
def unitBusy (s : State) (l : Loc) : Bool :=
  let m := getMe s l
  (getSe s l).op.isSome || m.fire.isSome || m.op.isSome || !m.replay.isEmpty || m.accs.toList.any fun n => n.state == .closing

/-- The element has an open stream. -/
def streamOpen (s : State) (l : Loc) : Bool := (getLe s l).streams.toList.any fun x => x.opened

/-- A fault of the element awaits repair. -/
def faultWaits (s : State) (k : Nat) (l : Loc) : Bool :=
  s.faults.any fun r => !r.report && r.own == some k && r.site == l.site && plotAt r.x r.y == l.plot

/-- A FAULT token stands at a channel head of the element. -/
def faultAtHead (s : State) (l : Loc) : Bool := ports.any fun c => headFault s l c

/-- An element is quiescent. A killed one counts as such. -/
def quiescent (s : State) (k : Nat) (l : Loc) (e : Elem) : Bool :=
  e.killed ||
  (!streamOpen s l && !faultAtHead s l && !e.cfgFrozen && !e.dead &&
    (e.resting ||
      (!anyReady specUser s l && !midFiring e && e.redo.isEmpty && e.rq.isEmpty && !unitBusy s l && !faultWaits s k l && !unjoined s l)))

/-- The channels of an element hold nothing, and no credit of them is in flight. -/
def channelsEmpty (e : Elem) : Bool :=
  (e.ins.toList.all fun i => i.q.es.isEmpty) &&
  e.outs.toList.all fun o => o.q.es.isEmpty && o.flight.isEmpty && o.back.isEmpty && o.pkt.isEmpty && o.owed == 0

/-- Elements of a parcel, with their places. -/
def parcelElems (s : State) (k : Nat) : List (Loc × Elem) :=
  (s.elems.filter fun x => (getPlot s (x.1 / 32)).parcel == some k).map fun x => (locOfKey x.1, x.2)

/-- The plots report the conditions of R21; a plot that has not started, or that is held, reports itself not quiescent (07 R125). -/
def settledNow (s : State) (k : Nat) : Bool :=
  let p := getParcel s k
  ((parcelPlots p).all fun n => (getPlot s n).started && !(getPlot s n).cfgFrozen) &&
  ((parcelElems s k).all fun x => quiescent s k x.1 x.2 && channelsEmpty x.2) &&
  !(s.cmds.any fun c => c.parcel == some k) && p.treePkts.isEmpty &&
  !(s.lines.any fun x => (getPlot s x.from_.plot).parcel == some k)

/-- A parcel that runs: neither frozen nor stopping, with every recorded repair applied, and not ended. -/
def parcelRuns (p : Parcel) : Bool := p.frz == .run && p.recorded.isEmpty && p.ending.isNone && p.stage == .placed

/-- SETTLE_SCAN: while the field rails are on (20 R353), the activity bits are read and cleared; the second scan in a row to succeed declares settlement. -/
def scanStep (s : State) (k : Nat) : State :=
  match Tbl.find s.parcels k with
  | none => s
  | some p =>
    if !parcelRuns p || p.settled || s.reeve.railsOff then s
    else
      let ok := settledNow s k && (parcelPlots p).all fun n => !(getPlot s n).active
      let s := (parcelPlots p).foldl (fun s n => modPlot s n fun q => { q with active := false }) s
      modParcel s k fun p => { p with armed := ok, settled := ok && p.armed }
def execSettleScan (parcel : Nat) (s : State) : Out := .next (scanStep s parcel)

/-! ### Retirement (R339) -/

/-- The node that a parcel runs, as launch and number. -/
def nodeOfParcel (s : State) (k : Nat) : Option (Nat × Nat) :=
  s.drill.launches.findSome? fun x => (x.2.nodes.find? fun n => n.2.parcel == some k && n.2.phase == .running).map fun n => (x.1, n.1)

/-- The node of a parcel completes. -/
def completeNode (s : State) (k status sub : Nat) (info : Word) (flags : Flags7) : State :=
  match nodeOfParcel s k with
  | some (l, n) => arriveNode s l n status sub info flags
  | none => s

/-- INFO of a kill (20 R341). -/
def killInfo (k : FaultClass × Nat × Nat) : Word := BitVec.ofNat 64 (classCode k.1 * 262144 + k.2.1 * 65536 + k.2.2)

/-- Requests of a parcel. -/
def parcelReqs (s : State) (k : Nat) : List Req := s.reqs.filter fun q => (getPlot s q.issuer.plot).parcel == some k

/-- SECTION_RETIRE: a settled section takes its final sample, is freed, and completes its node, once every access that it has issued is performed
(17 R307): those of a killed element are, without a response. -/
def retireStep (s : State) (k : Nat) : State :=
  match Tbl.find s.parcels k with
  | none => s
  | some p =>
    if !p.settled || !(parcelReqs s k).isEmpty then s
    else
      let s := sampleFlags s k
      let f := (getParcel s k).flagWord
      let s := match p.anyKill, p.timedOut with
        | some x, _ => completeNode s k 4 0 (killInfo x) f
        | none, some w => completeNode s k 3 0 w f
        | none, none => completeNode s k 0 0 0 f
      leaveParcel s k
def execSectionRetire (parcel : Nat) (s : State) : Out := .next (retireStep s parcel)

/-- Within a drill step the settlements that are declared and the completions that have arrived are applied before anything ends (20 R344). -/
def settleAll (s : State) : State := settleDrill drillRounds ((s.parcels.map (·.1)).foldl retireStep s)

/-- DRILL_STEP (06 R112, 20 R344): settlements and completions, then the nodes that became ready, then drains, aborts and kills. -/
def drillStepOnce (s : State) : State :=
  let s := settleAll s
  let s := s.drill.launches.foldl (fun s x => resolveAfter s x.1) s
  let s := settleDrill drillRounds s
  let s := (sortKey byOrder (nodesIn s .outside)).foldl (fun s x => enterGranary s x.1 x.2.1) s
  let s := settleDrill drillRounds (applyKills s)
  let s := (List.range 64).foldl resetQueue s
  (List.range 64).foldl endReset s
def execDrillStep (s : State) : Out := .next (drillStepOnce s)

/-- LAUNCH_TIMEOUT (06 R117, 20 R344): the settlements and completions of the drill step are applied, and a launch that they have not completed is ended as
by an abort. -/
def timeoutLaunch (s : State) (l : Nat) : State :=
  let x := getLaunch s l
  let tmo := fieldAt x.raw 0x30 4
  if x.parent.isNone ∧ tmo ≠ 0 ∧ x.taken + cyclesOfNs (1000 * tmo) ≤ now s ∧ (x.ends = .no ∨ x.ends = .drain) then
    let s := settleAll s
    if (Tbl.find s.drill.launches l).isNone then s
    else settleDrill drillRounds (endLaunch 10 .timeout (modLaunch s l fun y => { y with elapsed := (now s - x.taken) * 10 / 27000 }) l)
  else s
def execLaunchTimeout (launch : Nat) (s : State) : Out := .next (timeoutLaunch s launch)

/-! ### The end of a killed section (R82, R320) -/

/-- What is held for a fault is discarded with the section; reports stay. -/
def discardFaults (s : State) (k : Nat) : State :=
  (s.faults.filter fun r => r.own == some k && !r.report).foldl (fun s r => r.items.foldl (discardItem r) (dropFault s r.id)) s

/-- Requests that wait for their wave's order enter it, to be performed without a response. -/
def endWaves (s : State) (k : Nat) : State :=
  let waiting := (parcelReqs s k).filter fun q => q.phase == .waiting
  let s := (waiting.map (·.issuer)).eraseDups.foldl endWave s
  let s := ((parcelReqs s k).filter fun q => q.phase == .waiting).foldl (fun s q => enterReq s q.id) s
  { s with reqs := s.reqs.map fun q => if (getPlot s q.issuer.plot).parcel = some k then { q with discard := true } else q }

/-- A freeze or a save that was asked for is over: the acknowledgements of `frz` say that no section is placed, and the save slot is free. -/
def dropFreeze (s : State) (k : Nat) : State :=
  let p := getParcel s k
  let s := p.frzAcks.foldl (fun s rid => postResult s rid { val := 1 }) s
  let s := match p.saveSlot with
    | some n => modCtx s p.ctx fun c => { c with saveUsed := c.saveUsed.erase n }
    | none => s
  modParcel s k fun p => { p with frz := .run, frzAcks := [], recorded := [], saveSlot := none, stage := .placed }

/-- KILL_PARCEL_FREE: an ended section, which reports the first kill of it or of a unit of it, discards what faults hold; once its engine operations have joined and its requests are performed it is freed,
and its node completes. -/
def killFreeStep (s : State) (k : Nat) : State :=
  match Tbl.find s.parcels k with
  | none => s
  | some p => match p.ending with
    | none => s
    | some e =>
      let s := endWaves (discardFaults (dropFreeze s k) k) k
      if (parcelReqs s k).isEmpty && !(s.cmds.any fun c => c.parcel == some k) then
        let s := { s with lines := s.lines.filter fun x => (getPlot s x.from_.plot).parcel != some k && (getPlot s x.plot).parcel != some k
                          saved := s.saved.filter fun x => x.owner != k }
        freeParcel (completeNode s k e.status e.sub (if e.status = 4 then (p.anyKill.map killInfo).getD e.info else e.info) p.flagWord) k
      else s
def execKillParcelFree (parcel : Nat) (s : State) : Out := .next (killFreeStep s parcel)

/-! ### The watchdog (R329) -/

/-- The limit is reached. -/
def wdogDue (p : Parcel) : Bool :=
  p.wdogOn && parcelRuns p && !p.settled && decide (cyclesOfNs (1000 * p.wdog) ≤ p.wdogRan)

/-- SECTION_WATCHDOG: the parcel is frozen and a WATCHDOG record is sent. -/
def watchdogStep (s : State) (k : Nat) : State :=
  match Tbl.find s.parcels k with
  | none => s
  | some p =>
    if wdogDue p then
      raiseFault (modParcel s k fun p => { p with frz := .stopping false, wdogOn := false })
        { cls := .watchdog, plot := plotAt p.x0 p.y0, flags := 32, info0 := BitVec.ofNat 64 (p.wdogRan * 10 / 27000), what := some (.parcel k) }
    else s
def execSectionWatchdog (parcel : Nat) (s : State) : Out := .next (watchdogStep s parcel)

end Sys2Proof.Machine
end

