-- ==== Sys2Proof/Machine/Save.lean ====
section
/-!
DEFINITION. Freezing, pre-emption, the context save area and resumption (spec 18 R321 to R324, 07 R122): PREEMPT_SECTION, PARCEL_FROZEN,
SAVE_AREA_WRITTEN and RESUME_SECTION.
-/

namespace Sys2Proof.Machine

/-! ### Freezing (R321) -/

/-- A request that cannot go on while its parcel is stopped: it waits for its wave's order, a fault holds it, or it must follow one of these. -/
def reqStuck (s : State) (q : Req) : Bool :=
  match q.phase with
  | .waiting | .held _ => true
  | .entered | .translated .. => !depsDone s q.after || !orderOk s q
  | _ => false

/-- A command that has stopped, or that has run to completion and gone: copies and gathers at an item, the others only held for a fault or
waiting in a reduction tree whose other plots are stopped. -/
def cmdStopped (c : Cmd) : Bool :=
  c.phase == .held || (decide (c.phase ≠ .done) && (((isCopy c.i || isWinnow c.i) && atBoundary c) || c.phase == .wait))

/-- An entry numbered rid stands in an element. -/
def ridIn (e : Elem) (rid : Nat) : Bool :=
  let has (q : Queue) : Bool := q.es.any fun x => x.rid == rid
  (e.ins.toList.any fun i => has i.q) || e.outs.toList.any fun o => has o.q || o.flight.any fun x => x.2.rid == rid

/-- Every unit of a parcel has stopped. -/
def parcelStopped (s : State) (k : Nat) : Bool :=
  let es := parcelElems s k
  let p := getParcel s k
  ((parcelPlots p).all fun n => ((getPlot s n).started || (getPlot s n).held) && (getPlot s n).fills.all fun f => f.held) &&
  ((parcelReqs s k).all (reqStuck s)) && ((s.cmds.filter fun c => c.parcel == some k).all cmdStopped) &&
  (es.all fun x => x.2.outs.toList.all fun o => o.flight.isEmpty && o.back.isEmpty) && p.treePkts.isEmpty &&
  !(s.results.any fun r => es.any fun x => ridIn x.2 r.rid) &&
  !(s.lines.any fun x => !x.held && (getPlot s x.from_.plot).parcel == some k)

/-- PARCEL_FROZEN: the freeze is over, and the acknowledgements of `frz` follow. -/
def frozenStep (s : State) (k : Nat) : State :=
  match Tbl.find s.parcels k with
  | none => s
  | some p => match p.frz with
    | .stopping d =>
      if p.ending.isNone && parcelStopped s k then
        p.frzAcks.foldl (fun s rid => postResult s rid {}) (modParcel s k fun p => { p with frz := .frozen d, frzAcks := [] })
      else s
    | _ => s
def execParcelFrozen (parcel : Nat) (s : State) : Out := .next (frozenStep s parcel)

/-! ### Pre-emption (R323) -/

/-- Bytes of a frame, and of a save slot (R322, 20 R348). -/
def frameBytes : Nat := 0x500000
def saveSlotBytes : Nat := 0xA0000000

/-- The lowest free save slot of a context. -/
def freeSaveSlot (c : Ctx) : Option Nat := (List.range (bitsOf c.csvn.toNat 7 0)).find? fun n => !c.saveUsed.contains n

/-- A reservation stands on a parcel. -/
def wanted (s : State) (p : Parcel) : Bool := (reservations s).any fun r => (reservedPlots r.2.2).any (parcelPlots p).contains

/-- PREEMPT_SECTION: a section that a reservation wants takes a save slot and begins to freeze; with no slot free the reservation waits. -/
def preemptStep (s : State) (k : Nat) : State :=
  match Tbl.find s.parcels k with
  | none => s
  | some p =>
    if p.stage ≠ .placed ∨ p.settled ∨ p.ending.isSome ∨ !wanted s p then s
    else match freeSaveSlot (getCtx s p.ctx) with
      | none => s
      | some n =>
        let s := modCtx s p.ctx fun c => { c with saveUsed := c.saveUsed ++ [n] }
        modParcel s k fun p => { p with saveSlot := some n, stage := .freezing, frz := match p.frz with | .run => .stopping true | f => f }
def execPreemptSection (parcel : Nat) (s : State) : Out := .next (preemptStep s parcel)

/-! ### The save area (R322; log 20) -/

/-- The drill's write of bytes of a frame, with its home watchpoints (12 R210). -/
def frameWrite (s : State) (pa : Nat) (bs : List Byte) : State := reportRange (memWrite s pa bs) pa bs.length srcDrill

/-- A plot store image is written to memory. -/
def storeImage (s : State) (base : Nat) (cells : List Host.Cell) : State :=
  reportRange (putImage s base cells) base storeBytes srcDrill
where
  putImage (s : State) (base : Nat) (cells : List Host.Cell) : State :=
  { s with mem := cells.foldl (fun m c => writeByte m (base + c.1) c.2) (s.mem.filter fun c => decide (c.1 < base) || decide (base + storeBytes ≤ c.1))
           memPoison := clearPoison s.memPoison base storeBytes }

/-- A poisoned line of a plot store is read for its image: the error is reported, and the line of the image is poisoned with it (19 R330; log 32). -/
def imageLine (plot base : Nat) (s : State) (line : Nat) : State :=
  raiseFault { s with memPoison := s.memPoison ++ [base + line] }
    { cls := .memerr, sub := 0, plot := plot, addr := line, report := true, die := some (dieOf plot) }

/-- A plot store image is read back. -/
def loadImage (s : State) (base : Nat) : List Host.Cell :=
  (s.mem.filter fun c => decide (base ≤ c.1) && decide (c.1 < base + storeBytes)).map fun c => (c.1 - base, c.2)

/-- n bytes of a frame whose layout the manual does not give, at an offset: FREE VALUES (log 20). -/
def frameFree (s : State) (off n : Nat) : List Byte := (List.range n).map fun j => Config.frameByte s.sched.freeCtr (off + j)

/-- The frame of plot index i in memory: the plot store, the plot header with its magic number, and of the element records and the matrix extension as
much as is used. A poisoned line is poisoned in its image. -/
def writeFrame (p : Parcel) (base : Nat) (s : State) (i : Nat) : State :=
  let b := base + i * frameBytes
  let o := i * frameBytes
  let n := (parcelPlots p).getD i 0
  let s := (getPlot s n).poison.foldl (imageLine n b) (storeImage s b (getPlot s n).store)
  let s := frameWrite s (b + 0x300000) (bytesOf 4 0x56415346 ++ frameFree s (o + 0x300004) 4092)
  let s := frameWrite s (b + 0x301000) (frameFree s (o + 0x301000) (min (Config.elementBytes s.sched.freeCtr i) 0x3F000))
  frameWrite s (b + 0x340000) (frameFree s (o + 0x340000) (min (Config.matrixBytes s.sched.freeCtr i) 0x1C0000))

/-- The frames of a parcel in memory. -/
def writeFrames (s : State) (p : Parcel) (base : Nat) : State :=
  modSched ((List.range (p.w * p.h)).foldl (writeFrame p base) s) fun c => { c with freeCtr := c.freeCtr + 1 }

/-- The part of a table that lies in some plots, and the rest. -/
def tblIn {α : Type} (ps : List Nat) (t : Tbl α) : Tbl α := t.filter fun x => ps.contains (x.1 / 32)
def tblOut {α : Type} (ps : List Nat) (t : Tbl α) : Tbl α := t.filter fun x => !ps.contains (x.1 / 32)

/-- The state of a parcel as its save area holds it. -/
def savedOf (s : State) (k base owner : Nat) : Saved :=
  let p := getParcel s k
  let ps := parcelPlots p
  { base := base, x0 := p.x0, y0 := p.y0, w := p.w, h := p.h, owner := owner, parcel := p, elems := tblIn ps s.elems
    plots := s.plots.filter fun x => ps.contains x.1, les := tblIn ps s.les, ses := tblIn ps s.ses, mes := tblIn ps s.mes
    reqs := s.reqs.filter fun q => ps.contains q.issuer.plot, results := []
    lines := s.lines.filter fun x => ps.contains x.from_.plot, cmds := s.cmds.filter fun c => c.parcel == some k }

/-- Write the save area of a parcel at a base; what an earlier save there held is gone. -/
def writeArea (s : State) (k base owner : Nat) : State :=
  let v := savedOf s k base owner
  { writeFrames s (getParcel s k) base with saved := (s.saved.filter fun x => x.base != base) ++ [v] }

/-- Requests, accesses and commands of a parcel leave the device with its state. -/
def dropWork (s : State) (k : Nat) : State :=
  let ps := parcelPlots (getParcel s k)
  { s with reqs := s.reqs.filter fun q => !ps.contains q.issuer.plot, lines := s.lines.filter fun x => !ps.contains x.from_.plot
           cmds := s.cmds.filter fun c => c.parcel != some k }

/-- The base of a context's save slot. -/
def saveBase (c : Ctx) (n : Nat) : Nat := c.csvb.toNat + n * saveSlotBytes

/-- A pre-empted node is dispatchable again (R122); its ageing counts from now. -/
def reenter (s : State) (k : Nat) : State :=
  match nodeOfParcel s k with
  | some (l, n) =>
    let o := freshId s
    let s := bumpId (modGNode s l n fun x => { x with phase := .outside, order := o, since := now s })
    enterGranary s l n
  | none => s

/-- SAVE_AREA_WRITTEN: the area of a section that is frozen for pre-emption has been written; its parcel is freed, and its node re-entered. -/
def savedStep (s : State) (k : Nat) : State :=
  match Tbl.find s.parcels k with
  | none => s
  | some p => match p.stage, p.frz, p.saveSlot with
    | .freezing, .frozen _, some n =>
      let s := dropWork (writeArea s k (saveBase (getCtx s p.ctx) n) k) k
      let s := modParcel (freePlots s p) k fun p => { p with stage := .saved }
      reenter s k
    | _, _, _ => s
def execSaveAreaWritten (parcel : Nat) (s : State) : Out := .next (savedStep s parcel)

/-! ### Relocation (R122) -/

/-- How the plots of a rectangle move to another of the same shape, and the retired plots of the field. -/
structure Move where
  ox : Nat
  oy : Nat
  nx : Nat
  ny : Nat
  w : Nat
  h : Nat
  gone : List Nat := []
  deriving DecidableEq, Repr

def Move.plot (m : Move) (n : Nat) : Nat :=
  if m.ox ≤ plotX n ∧ plotX n < m.ox + m.w ∧ m.oy ≤ plotY n ∧ plotY n < m.oy + m.h ∧ n < 512 then plotAt (plotX n - m.ox + m.nx) (plotY n - m.oy + m.ny)
  else n
def Move.loc (m : Move) (l : Loc) : Loc := ⟨m.plot l.plot, l.site⟩
def Move.key (m : Move) (n : Nat) : Nat := locKey (m.loc (locOfKey n))

/-- A table whose keys are elements, or plots, after the move. -/
def Move.tbl {α : Type} (m : Move) (f : α → α) (t : Tbl α) : Tbl α := t.foldl (fun r x => Tbl.put r (m.key x.1) (f x.2)) []
def Move.plots {α : Type} (m : Move) (f : α → α) (t : Tbl α) : Tbl α := t.foldl (fun r x => Tbl.put r (m.plot x.1) (f x.2)) []

def Move.thread (m : Move) : Thread → Thread
  | .wave l n => .wave (m.loc l) n
  | .stream l n => .stream (m.loc l) n
  | t => t

def Move.entry (m : Move) (x : Entry) : Entry := { x with own := x.own.map m.loc }
def Move.queue (m : Move) (q : Queue) : Queue := { q with es := q.es.map m.entry }

/-- The length of a channel between two plots, where they now lie (08 R131). -/
def Move.dist (m : Move) (long : Bool) (a b : Nat) : Nat := if long then longDist m.gone (m.plot a) (m.plot b) else 0
def Move.route (m : Move) (src : Nat) (r : Route) : Route := { r with dst := m.loc r.dst, dist := m.dist r.long src r.dst.plot }

def Move.elem (m : Move) (plot : Nat) (e : Elem) : Elem :=
  { e with
    ins := e.ins.map fun i =>
      { i with q := m.queue i.q, src := i.src.map fun x => (m.loc x.1, x.2), dist := (i.src.map fun x => m.dist i.long x.1.plot plot).getD i.dist }
    outs := e.outs.map fun o => { o with route := o.route.map (m.route plot), q := m.queue o.q, flight := o.flight.map fun x => (x.1, m.entry x.2) } }

def Move.se (m : Move) (u : SeUnit) : SeUnit := { u with acks := u.acks.map fun a => { a with l := m.loc a.l } }
def Move.le (m : Move) (u : LeUnit) : LeUnit := { u with comb := u.comb.map fun c => { c with thr := m.thread c.thr } }
def Move.fill (m : Move) (f : Fill) : Fill := { f with l := m.loc f.l }
def Move.req (m : Move) (q : Req) : Req := { q with thr := m.thread q.thr, issuer := m.loc q.issuer, le := m.loc q.le }
def Move.act (m : Move) : LineAct → LineAct
  | .spill l v => .spill (m.loc l) v
  | .readBack l i => .readBack (m.loc l) i
  | a => a
def Move.line (m : Move) (x : LineReq) : LineReq := { x with plot := m.plot x.plot, from_ := m.loc x.from_, hplot := m.plot x.hplot, act := m.act x.act }

/-- The engine of the die that the parcel now stands on, of the same number. -/
def engineOn (d : Nat) : Engine → Engine
  | .copy _ n => .copy d n
  | .winnow _ => .winnow d
  | .coll _ => .coll d
  | .dvl _ => .dvl d
  | .agent _ => .agent d
def Move.cmd (m : Move) (c : Cmd) : Cmd := { c with l := m.loc c.l, eng := engineOn (dieOf (m.plot c.l.plot)) c.eng }

def Move.treePkt (m : Move) (k : TreePkt) : TreePkt := { k with plot := m.plot k.plot }
def Move.treeGroup (m : Move) (g : TreeGroup) : TreeGroup := { g with plot := m.plot g.plot, ins := g.ins.map fun x => (x.1, m.treePkt x.2) }
def Move.bar (m : Move) (b : BarGroup) : BarGroup :=
  { b with members := m.plots id b.members, arrived := b.arrived.map m.loc, pending := m.plots id b.pending }

def Move.held (m : Move) : HeldWhat → HeldWhat
  | .firing l n => .firing (m.loc l) n
  | .adapter p n => .adapter (m.plot p) n
  | .patch p n => .patch (m.plot p) n
  | .element l => .element (m.loc l)
  | h => h

/-- A record of the parcel's faults after the move. -/
def Move.fault (m : Move) (r : FaultRec) : FaultRec :=
  let n := m.plot (plotAt r.x r.y)
  { r with x := plotX n, y := plotY n, items := r.items.map fun h => { h with what := m.held h.what }
           key := r.key.map fun k => (m.key (k.1 / 256) * 256 + k.1 % 256, k.2) }

/-- A target word after the move. -/
def Move.target (m : Move) (w : Word) : Word :=
  let n := m.plot (plotAt (bitsOf w.toNat 7 0) (bitsOf w.toNat 15 8))
  BitVec.ofNat 64 (w.toNat / 65536 * 65536 + plotY n * 256 + plotX n)

def Move.recorded (m : Move) : Recorded → Recorded
  | .repair f i a => .repair f (i.map m.held) a
  | .policy t c => .policy (m.target t) c

/-- What a parcel gathers, after the move. -/
def Move.parcel (m : Move) (p : Parcel) : Parcel :=
  { p with sites := m.plots id p.sites, chans := p.chans.map fun c => (m.loc c.1, c.2.1, m.route c.1.plot c.2.2), bars := p.bars.map fun b => (b.1, m.bar b.2)
           treePkts := p.treePkts.map m.treePkt, treeGroups := p.treeGroups.map m.treeGroup, treeShut := p.treeShut.map fun x => (m.plot x.1, x.2)
           recorded := p.recorded.map m.recorded }

/-! ### Restoring (R122, R323, R326) -/

/-- The lines of a plot store whose image in memory is uncorrectable. -/
def imagePoison (s : State) (base : Nat) : List Nat :=
  (s.memPoison.filter fun a => decide (base ≤ a) && decide (a < base + storeBytes)).map fun a => a - base

/-- A plot as saved, in a place with its own c-slots and trace buffer; its store is read from memory. -/
def restorePlot (m : Move) (k : Nat) (store : List Host.Cell) (bad : List Nat) (old cur : Plot) : Plot :=
  { old with parcel := some k, withdrawn := cur.withdrawn, store := store, poison := bad, slices := [], fills := old.fills.map m.fill, cslots := cur.cslots, cslot := cur.cslot, active := true
             trace := { cur.trace with ctl := old.trace.ctl, pos := old.trace.pos, post := old.trace.post, lost := old.trace.lost }, restore := false }

/-- The state that a save area holds enters parcel k, where the parcel now stands. -/
def restoreArea (s : State) (k : Nat) (v : Saved) : State :=
  let p := getParcel s k
  let m : Move := ⟨v.x0, v.y0, p.x0, p.y0, v.w, v.h, retired s⟩
  let s := dropWork (clearUnits s (parcelPlots p)) k
  let s := { s with faults := mapIf (fun r => r.own == some k) m.fault s.faults }
  let put {α : Type} (t n : Tbl α) : Tbl α := n.foldl (fun t x => Tbl.put t x.1 x.2) t
  let s := { s with
    elems := put s.elems (m.tbl id (v.elems.map fun x => (x.1, m.elem (x.1 / 32) x.2))), les := put s.les (m.tbl m.le v.les), ses := put s.ses (m.tbl m.se v.ses)
    mes := put s.mes (m.tbl id v.mes), reqs := s.reqs ++ v.reqs.map m.req, lines := s.lines ++ v.lines.map m.line
    cmds := s.cmds ++ v.cmds.map fun c => { m.cmd c with parcel := some k } }
  v.plots.foldl (fun s x =>
    let n := m.plot x.1
    let b := v.base + plotIndex p n * frameBytes
    reportPoison (settleInvs (modPlot s n (restorePlot m k (loadImage s b) (imagePoison s b) x.2)) n) b storeBytes) s

/-- The fields of a parcel that its state carries, with the place and the node that it has now. -/
def restoreParcel (m : Move) (v p : Parcel) : Parcel :=
  let q := m.parcel v
  { p with sites := q.sites, chans := q.chans, bars := q.bars, treePkts := q.treePkts, treeGroups := q.treeGroups, treeShut := q.treeShut
           flagWord := q.flagWord, cycles := q.cycles, wdogRan := q.wdogRan, wdogOn := q.wdogOn, anyKill := q.anyKill, timedOut := q.timedOut }

/-- Repairs of a WATCHDOG record that were recorded while its parcel was saved thaw it. -/
def applyWatchdog (s : State) (k : Nat) : State :=
  (getParcel s k).recorded.foldl (fun s x => match x with
    | .repair f _ ans => (match findFault s f with
      | some r => if r.cls = .watchdog then answerRec s r ans else s
      | none => s)
    | .policy .. => s) s

/-- The blocks of a parcel that were not known when it was saved, and that its plots hold now, become known (R122, R125). -/
def learnRest (s : State) (k : Nat) : State :=
  (parcelPlots (getParcel s k)).foldl (fun s n =>
    match Tbl.find (getParcel s k).sites n, pinnedBlock (getPlot s n) with
    | none, some bs => learnBlock s k n bs
    | _, _ => s) s

/-- RESUME_SECTION: once every plot of a section that is placed again has its configuration, its state is restored and it thaws; its save slot is
free. What was recorded for its faults is applied before an element fires (R324). -/
def resumeStep (s : State) (k : Nat) : State :=
  match Tbl.find s.parcels k, s.saved.find? fun v => v.owner == k with
  | some p, some v =>
    if p.stage ≠ .resuming ∨ !((parcelPlots p).all fun n => (getPlot s n).empty || (pinnedBlock (getPlot s n)).isSome) then s
    else
      let m : Move := ⟨v.x0, v.y0, p.x0, p.y0, v.w, v.h, retired s⟩
      let s := restoreArea s k v
      let s := match p.saveSlot with
        | some n => modCtx s p.ctx fun c => { c with saveUsed := c.saveUsed.erase n }
        | none => s
      let s := { s with saved := s.saved.filter fun x => x.owner != k }
      let s := modParcel s k fun p =>
        { m.parcel p with stage := .placed, saveSlot := none, frz := if p.frz = .frozen true then .run else p.frz }
      applyWatchdog (learnRest s k) k
  | _, _ => s
def execResumeSection (parcel : Nat) (s : State) : Out := .next (resumeStep s parcel)

end Sys2Proof.Machine
end

