-- ==== Sys2Proof/Machine/Privileged.lean ====
section
/-!
DEFINITION. The privileged instructions (spec 18 R325 to R328): the fault store, repair, the replay queues, the save area, translations, freeze and
thaw, regions, trace, watchpoints, mailboxes, sparing and policies.
-/

namespace Sys2Proof.Machine

/-! ### Acknowledgements and target words (R325) -/

/-- The acknowledgements. -/
def ackDone : Word := 0
def ackNone : Word := 1
def ackNotApplicable : Word := 2
def ackBusy : Word := 3

/-- An asynchronous privileged instruction whose effect is done when it fires: its acknowledgement carries a word. -/
def ackEffect (dst : Dst) (l : Loc) (f : State → State × Word) (s : State) : State :=
  let (s, rid) := reserveAck s l dst false
  let (s, w) := f s
  postResult s rid { val := w.setWidth 512 }

/-- A privileged instruction whose effect is a function of its operands; none for an operand that raises OPERAND, which names sa. -/
def specPriv (r : RAct) (f : BeatIn → Option (State → State × Word)) : FireSpec :=
  { specR r fun x => match f x with
      | some g => .ok { post := ackEffect r.dst x.l g }
      | none => badOperand x.a.toWord with async := true }

/-- A target word. -/
structure Target where
  plot : Nat
  site : Nat
  plotr : Bool
  region : Nat
  level : Nat
  deriving DecidableEq, Repr

def readTarget (w : Word) : Option Target :=
  let n := w.toNat
  if bitsOf n 63 32 ≠ 0 ∨ bitsOf n 23 22 ≠ 0 ∨ 32 ≤ bitsOf n 7 0 ∨ 16 ≤ bitsOf n 15 8 then none
  else some ⟨plotAt (bitsOf n 7 0) (bitsOf n 15 8), bitsOf n 20 16, bitOf n 21, bitsOf n 28 24, bitsOf n 31 29⟩

/-- An instruction on a target. -/
def specTarget (r : RAct) (f : BeatIn → Target → Option (State → State × Word)) : FireSpec :=
  specPriv r fun x => (readTarget x.a.toWord).bind (f x)

/-- The parcel that holds a target's plot. -/
def targetParcel (s : State) (t : Target) : Option Nat := (getPlot s t.plot).parcel

/-! ### Records and repair (R316, R318, R326) -/

/-- A record is queued in the die's fault store, as committed at the start of the cycle (08 R133). -/
def recordQueued (s : State) (die : Nat) : Bool := (oldestFault s die).any fun r => decide (r.seenAt ≤ now s)

/-- `flt.rd`: beat 0 takes the oldest record of the die, and beat j gives its bytes 8j to 8j + 7. -/
def specFltRd (dst : Dst) (u : PUpd) : FireSpec :=
  { dst := dst, sa := .zero, sb := .zero, upd := u
    ready := fun s l => s.sched.cur.beat != 0 || recordQueued s (dieOf l.plot)
    op := fun x =>
      if x.s.sched.cur.beat = 0 then
        match oldestFault x.s (dieOf x.l.plot) with
        | some r =>
          .ok { v := ((recordWords r).headD 0).setWidth 512, pred := ((recordWords r).headD 0).getLsbD 0
                upd := fun e => { e with reading := (recordWords r).tail }, post := fun s => takeFault s (dieOf x.l.plot) r }
        | none => .ok {}
      else .ok { v := (x.e.reading.headD 0).setWidth 512, pred := (x.e.reading.headD 0).getLsbD 0
                 upd := fun e => { e with reading := e.reading.tail } } }
def execFltRd (dst : Dst) (u : PUpd) (s : State) : Out := runBeat (specFltRd dst u) s

/-- An open identifier of a die. -/
def faultOf (s : State) (die fid : Nat) : Option FaultRec := s.faults.find? fun r => r.die == die && r.fid == some fid

/-- Answer an identifier. -/
def rprEffect (die : Nat) (fid : Nat) (ans : Answer) (s : State) : State × Word :=
  match faultOf s die fid with
  | none => (s, if (getDie s die).reported.contains fid then ackNotApplicable else ackNone)
  | some r => if r.report then (s, ackNotApplicable) else (answerFid s r ans, ackDone)

/-- `rpr`. -/
def specRpr (r : RAct) (act : Repair) : FireSpec :=
  specPriv r fun x => some (rprEffect (dieOf x.l.plot) (bitsOf x.a.toWord.toNat 15 0) ⟨act, x.b.toWord⟩)
def execRpr (r : RAct) (act : Repair) (s : State) : Out := runBeat (specRpr r act) s

/-! ### Replay queues (R317) -/

/-- The element, the entry and the word that a queue word names. -/
def queueTarget (w : Word) : Loc × Nat × Nat :=
  (⟨plotAt (bitsOf w.toNat 7 0) (bitsOf w.toNat 15 8), bitsOf w.toNat 20 16⟩, bitsOf w.toNat 27 24, bitsOf w.toNat 29 28)

def kindOfRq : RqKind → Nat
  | .firing => 0
  | .store => 1
  | .atomic => 2
  | .cas => 3

/-- Words 0 to 3 of an entry. -/
def rqWord (x : RqEntry) (n : Nat) : Word :=
  if n = 1 then x.a else if n = 2 then x.b else if n = 3 then x.c
  else BitVec.ofNat 64 (2 ^ 63 + 2 ^ 62 + kindOfRq x.kind * 2 ^ 59 + x.slot % 16 * 2 ^ 55 + x.beat % 32 * 2 ^ 50 + (if x.wfid then 2 ^ 48 else 0) +
    x.fid % 65536 * 2 ^ 32 + x.act.toNat)

/-- The entry that a queue word names, where X and Y name a plot. -/
def rqEntryOf (s : State) (w : Word) : Option RqEntry :=
  if 32 ≤ bitsOf w.toNat 7 0 ∨ 16 ≤ bitsOf w.toNat 15 8 then none
  else Tbl.find (getElem s (queueTarget w).1).rq (queueTarget w).2.1

/-- `rq.rd`: the word named; an entry that is not valid reads as 0. -/
def specRqRd (r : RAct) : FireSpec :=
  specPriv r fun x => some fun s => (s, match rqEntryOf s x.a.toWord with
    | some y => rqWord y (queueTarget x.a.toWord).2.2
    | none => 0)
def execRqRd (r : RAct) (s : State) : Out := runBeat (specRqRd r) s

/-- A word of a held entry is written; what a held store or atomic will do changes with it. -/
def writeRq (s : State) (l : Loc) (n word : Nat) (x : RqEntry) (v : Word) : State :=
  let s := modRq s l n fun y => if word = 1 then { y with a := v } else if word = 2 then { y with b := v } else { y with c := v }
  if x.kind = .firing then s
  else modReq s x.owner fun q =>
    if word = 1 then { q with va := v.toNat } else if word = 2 then { q with data := v.setWidth 512 } else { q with data2 := v }

/-- `rq.wr`. -/
def specRqWr (r : RAct) : FireSpec :=
  specPriv r fun x => some fun s =>
    let t := queueTarget x.a.toWord
    match rqEntryOf s x.a.toWord with
    | none => (s, ackNone)
    | some y =>
      if y.wfid then (s, ackNone)
      else if t.2.2 = 0 then (s, ackNotApplicable)
      else (writeRq s t.1 t.2.1 t.2.2 y x.b.toWord, ackDone)
def execRqWr (r : RAct) (s : State) : Out := runBeat (specRqWr r) s

/-- The record that holds an entry, and the item that the entry is. -/
def entryItem (s : State) (l : Loc) (n : Nat) (x : RqEntry) : Option (FaultRec × Held) :=
  let what : HeldWhat := if x.kind = .firing then .firing l n else .access x.owner
  s.faults.findSome? fun r => (r.items.find? fun h => h.what == what).map fun h => (r, h)

/-- One entry is answered, at once or when its parcel thaws. -/
def injectEffect (w : Word) (ans : Answer) (s : State) : State × Word :=
  let t := queueTarget w
  match rqEntryOf s w with
  | none => (s, ackNone)
  | some y =>
    if y.wfid then (s, ackNone)
    else match entryItem s t.1 t.2.1 y with
      | none => (s, ackNone)
      | some (r, h) => match frozenOwner s r with
        | some k => (modParcel s k fun p => { p with recorded := p.recorded ++ [.repair r.id (some h.what) ans] }, ackDone)
        | none => (answerItem s r h ans, ackDone)

/-- `rq.inj`. -/
def specRqInj (r : RAct) (val : Bool) : FireSpec :=
  specPriv r fun x => some (injectEffect x.a.toWord ⟨if val then .subst else .resume, x.b.toWord⟩)
def execRqInj (r : RAct) (val : Bool) (s : State) : Out := runBeat (specRqInj r val) s

/-! ### What was recorded for a parcel (R324) -/

/-- Write the policy of a level (R326); none where the level names nothing. -/
def writePolicy (s : State) (w : Word) (code : Nat) : Option State :=
  let p := policyOf code
  if bitsOf w.toNat 31 29 = 4 then
    some (modCtx s (bitsOf w.toNat 5 0) fun c => { c with ccfg := (c.ccfg &&& ~~~0x70#32) ||| BitVec.ofNat 32 (code * 16) })
  else match readTarget w with
    | none => none
    | some t => match targetParcel s t, t.level with
      | _, 0 => if (getElem s ⟨t.plot, t.site⟩).present then some (modElem s ⟨t.plot, t.site⟩ fun e => { e with pol := p }) else none
      | some k, 1 =>
        if (getParcel s k).regions.any fun g => !g.tree && g.id == t.region then
          some (modParcel s k fun q => { q with regions := mapIf (fun g => !g.tree && g.id == t.region) (fun g => { g with pol := p }) q.regions })
        else none
      | some k, 2 =>
        let s := modParcel s k fun q => { q with pol := p }
        (match nodeOfParcel s k with
        | some (l, n) => some (modGNode s l n fun x => { x with raw := x.raw.take 1 ++ [BitVec.ofNat 8 code] ++ x.raw.drop 2 })
        | none => some s)
      | some k, 3 => some (modLaunch s (getParcel s k).launch fun y => { y with pol := p })
      | _, _ => none

/-- One recorded answer or policy is applied. -/
def applyOne (s : State) : Recorded → State
  | .repair f item ans => match findFault s f with
    | none => s
    | some r => match item with
      | none => answerRec s r ans
      | some w => match r.items.find? fun h => h.what == w with
        | some h => answerItem s r h ans
        | none => s
  | .policy t c => (writePolicy s t c).getD s

/-- A parcel that has thawed takes what was recorded for it, in order, before any element fires. -/
def applyRecorded (s : State) (k : Nat) : State :=
  let p := getParcel s k
  if p.frz = .run then p.recorded.foldl applyOne (modParcel s k fun p => { p with recorded := [] }) else s

/-! ### The save area (R322) -/

/-- A save base that a parcel of P plots can use: 64 KiB aligned, every frame in HBM. -/
def saveBaseOk (p : Parcel) (base : Nat) : Bool := base % 65536 == 0 && decide (base + p.w * p.h * frameBytes ≤ hbmEnd)

/-- The frozen parcel of a target. -/
def frozenTarget (s : State) (t : Target) : Option Nat :=
  match targetParcel s t with
  | some k => (match (getParcel s k).frz with
    | .frozen _ => some k
    | _ => none)
  | none => none

/-- `ctx.sv`. -/
def saveEffect (t : Target) (base : Nat) (s : State) : State × Word :=
  match frozenTarget s t with
  | none => (s, ackNone)
  | some k => if saveBaseOk (getParcel s k) base then (writeArea s k base 0, ackDone) else (s, ackNotApplicable)
def specCtxSv (r : RAct) : FireSpec := specTarget r fun x t => some (saveEffect t x.b.toWord.toNat)
def execCtxSv (r : RAct) (s : State) : Out := runBeat (specCtxSv r) s

/-- `ctx.ld`: an area of the parcel's shape is restored into it; a base at which no area was written is not applicable (log 20). -/
def loadEffect (t : Target) (base : Nat) (s : State) : State × Word :=
  match frozenTarget s t with
  | none => (s, ackNone)
  | some k =>
    let p := getParcel s k
    if !saveBaseOk p base then (s, ackNotApplicable)
    else match s.saved.find? fun v => v.base == base with
      | none => (s, ackNotApplicable)
      | some v =>
        if v.w ≠ p.w ∨ v.h ≠ p.h then (s, ackNone)
        else (modParcel (restoreArea s k v) k fun q => restoreParcel ⟨v.x0, v.y0, p.x0, p.y0, v.w, v.h, retired s⟩ v.parcel q, ackDone)
def specCtxLd (r : RAct) : FireSpec := specTarget r fun x t => some (loadEffect t x.b.toWord.toNat)
def execCtxLd (r : RAct) (s : State) : Out := runBeat (specCtxLd r) s

/-! ### Translations (R327) -/

/-- Two addresses lie in one page of the largest size. -/
def sameGiB (a b : Nat) : Bool := a / 2 ^ 30 == b / 2 ^ 30

/-- A translation that an invalidation matches. -/
def invMatch (g : TlbReach) (ctx va : Nat) (e : TlbEntry) : Bool :=
  match g with
  | .all => e.ctx == ctx
  | .page => e.ctx == ctx && decide (e.va ≤ va) && decide (va < e.va + e.size)
  | .die => true

/-- An address whose translation may be matched: where the page size is not known yet, any page of the 1 GiB around it. -/
def mayMatch (g : TlbReach) (ctx va c a : Nat) : Bool :=
  match g with
  | .all => c == ctx
  | .page => c == ctx && sameGiB a va
  | .die => true

/-- `tlb.inv`: matching entries go at once, walks in progress will be discarded, and the acknowledgement waits for the accesses that a matching
entry may have translated. -/
def tlbEffect (dst : Dst) (g : TlbReach) (ctx va : Nat) (l : Loc) (s : State) : State :=
  let (s, rid) := reserveAck s l dst false
  let keep (t : List TlbEntry) : List TlbEntry := t.filter fun e => !invMatch g ctx va e
  let s := { s with
    les := s.les.map fun x => (x.1, { x.2 with tlb := keep x.2.tlb })
    dies := s.dies.map fun d => (d.1, { d.2 with tlb := keep d.2.tlb
                                                 misses := mapIf (fun m => mayMatch g ctx va m.ctx m.va) (fun m => { m with stale := true }) d.2.misses }) }
  let after := (s.reqs.filter fun q => mayMatch g ctx va q.ctx q.va && (match q.phase with
    | .translated .. | .atPort _ | .combining | .contributing .. => true
    | _ => false)).map fun q => (q.id, Scope.device)
  if rid = 0 then s
  else bumpId { s with reqs := s.reqs ++ [{ id := freshId s, thr := .cmd 0, issuer := l, le := l, op := .fence, va := 0, phase := .entered, after := after, rid := rid }] }

def specTlbInv (r : RAct) (g : TlbReach) : FireSpec :=
  { specR r fun x => .ok { post := tlbEffect r.dst g (bitsOf x.a.toWord.toNat 5 0) x.b.toWord.toNat x.l } with async := true }
def execTlbInv (r : RAct) (g : TlbReach) (s : State) : Out := runBeat (specTlbInv r g) s

/-! ### Freeze and thaw (R321) -/

/-- `frz`: the acknowledgement follows the freeze; 1 where no section is placed or the parcel is already frozen. -/
def frzEffect (dst : Dst) (t : Target) (l : Loc) (s : State) : State :=
  let (s, rid) := reserveAck s l dst false
  match targetParcel s t with
  | none => postResult s rid { val := 1 }
  | some k => match (getParcel s k).frz with
    | .frozen _ => postResult s rid { val := 1 }
    | .stopping _ => modParcel s k fun p => { p with frzAcks := p.frzAcks ++ [rid] }
    | .run => modParcel s k fun p => { p with frz := .stopping false, frzAcks := p.frzAcks ++ [rid] }
def specFrz (r : RAct) : FireSpec :=
  { specR r fun x => match readTarget x.a.toWord with
      | some t => .ok { post := frzEffect r.dst t x.l }
      | none => badOperand x.a.toWord with async := true }
def execFrz (r : RAct) (s : State) : Out := runBeat (specFrz r) s

/-- `thw`: 1 where the parcel is not frozen, 3 where the drill has frozen it for pre-emption. -/
def thwEffect (t : Target) (s : State) : State × Word :=
  match frozenTarget s t with
  | none => (s, ackNone)
  | some k =>
    if (getParcel s k).frz = .frozen true ∨ (getParcel s k).stage ≠ .placed then (s, ackBusy)
    else (modParcel s k fun p => { p with frz := .run }, ackDone)
def specThw (r : RAct) : FireSpec := specTarget r fun _ t => some (thwEffect t)
def execThw (r : RAct) (s : State) : Out := runBeat (specThw r) s

/-! ### Configuration regions (R127) -/

/-- Offset and length of what a region holds in its block: an element's slot words, wave table and control word, or a plot's hash masks, routes, ring and
barrier records. -/
def regionSpans (bs : List Byte) : Option Nat → List (Nat × Nat)
  | some site => ((recordsAt bs).filter fun x => x.1 == site).map fun x => (x.2, 0xA4)
  | none =>
    [(8, 20), (fieldAt bs 0x28 4, 8 * fieldAt bs 0x1C 2), (fieldAt bs 0x34 4, 8 * (fieldAt bs 0x20 1 + fieldAt bs 0x21 1))].filter fun x => x.2 != 0

/-- The c-slot of a plot with a region's bytes as the image has them; none where they cannot be read. -/
def fetchedSlot (s : State) (plot : Nat) (site : Option Nat) : Option CSlot :=
  let q := getPlot s plot
  match q.parcel, q.cslot with
  | some k, some slot =>
    let p := getParcel s k
    let c := cslotAt q slot
    ((regionSpans c.block site).foldl (fun acc x => acc.bind fun bs =>
      match readImage s p.ctx p.phys (p.desc + plotOff p (plotIndex p plot) + x.1) x.2 with
      | .ok new => some (bs.take x.1 ++ new ++ bs.drop (x.1 + x.2))
      | .error _ => none) (some c.block)).map fun bs => { c with block := bs }
  | _, _ => none

/-- The c-slot, with the region's bytes fetched again, has the CRC of its signature. -/
def reloadOk (s : State) (plot : Nat) (site : Option Nat) : Bool := (fetchedSlot s plot site).any fun c => (crc64 c.block).toNat == c.sig

/-- The fetched bytes enter the c-slot. -/
def fetchRegion (s : State) (plot : Nat) (site : Option Nat) : State :=
  match fetchedSlot s plot site, (getPlot s plot).cslot with
  | some c, some slot => modPlot s plot fun q => setCslot q slot c
  | _, _ => s

/-- A region decoded again from the c-slot: an element's slots, wave table and fan mask, a plot's routes; what a run has changed since is live state, and
stays (log 51). -/
def redecode (s : State) (plot : Nat) (site : Option Nat) : State :=
  match (getPlot s plot).parcel, pinnedBlock (getPlot s plot) with
  | some k, some bs =>
    let p := getParcel s k
    (match site, decodePlot p (plotIndex p plot) bs with
    | some n, .ok c => (c.elems.filter fun x => x.1 == n).foldl (fun s x => modElem s ⟨plot, n⟩ fun e =>
        { e with slots := x.2.1.slots, wave := x.2.1.wave, fan := x.2.1.fan }) s
    | none, .ok _ => { s with elems := s.elems.map fun x =>
        if x.1 / 32 = plot then
          (x.1, { x.2 with outs := x.2.outs.mapFinIdx fun n o h => { o with route := blockOuts (retired s) p plot bs (x.1 % 32) ⟨n, h⟩ } })
        else x }
    | _, .error _ => s)
  | _, _ => s

/-- The unresolved record of a region that stayed frozen. -/
def regionRecord (s : State) (plot : Nat) (site : Option Nat) (r : FaultRec) : Bool :=
  r.cls == .memerr && r.sub == 3 && plotAt r.x r.y == plot && r.own == (getPlot s plot).parcel && r.site == site.getD 0xFF

/-- A region thaws: firing resumes from live state, and the record that held the region is closed. -/
def thawRegion (s : State) (plot : Nat) (site : Option Nat) : State :=
  let s := match site with
    | some n => modElem s ⟨plot, n⟩ fun e => { e with cfgFrozen := false }
    | none => modPlot s plot fun p => { p with cfgFrozen := false }
  (s.faults.filter (regionRecord s plot site)).foldl (fun s r => dropFault s r.id) s

/-- A region whose bytes have the right CRC is decoded again, and thaws. -/
def reloadRegion (s : State) (plot : Nat) (site : Option Nat) : State := thawRegion (redecode (fetchRegion s plot site) plot site) plot site

/-- `cfg.rld`. -/
def reloadEffect (t : Target) (s : State) : State × Word :=
  let site := if t.plotr then none else some t.site
  let frozen := match site with
    | some n => (getElem s ⟨t.plot, n⟩).cfgFrozen
    | none => (getPlot s t.plot).cfgFrozen
  if !frozen then (s, ackNone)
  else if reloadOk s t.plot site then (reloadRegion s t.plot site, ackDone)
  else (fetchRegion s t.plot site, ackNotApplicable)
def specCfgRld (r : RAct) : FireSpec := specTarget r fun _ t => some (reloadEffect t)
def execCfgRld (r : RAct) (s : State) : Out := runBeat (specCfgRld r) s

/-! ### Trace control (19 R338) -/

/-- The trace control word is written; its reserved bits stay 0, and writing 0 to FROZEN restarts recording, at the first place of the buffer (log 44). -/
def writeTrace (s : State) (plot : Nat) (w : Word) : State :=
  modPlot s plot fun p => { p with trace := { p.trace with
    ctl := w &&& 0x1FFFFFFFFFFFFF3F, post := none, pos := if w.getLsbD 5 then p.trace.pos else 0, lost := if w.getLsbD 5 then p.trace.lost else 0 } }

/-- `tr.ctl`: an illegal TKIND raises an OPERAND fault. -/
def specTrCtl (r : RAct) : FireSpec :=
  { specR r fun x => match readTarget x.a.toWord with
      | none => badOperand x.a.toWord
      | some t =>
        if 4 ≤ bitsOf x.b.toWord.toNat 51 48 then badOperand x.b.toWord
        else .ok { post := ackEffect r.dst x.l fun s => (writeTrace s t.plot x.b.toWord, (getPlot s t.plot).trace.ctl) } with async := true }
def execTrCtl (r : RAct) (s : State) : Out := runBeat (specTrCtl r) s

/-! ### Watchpoints and mailboxes (12 R210, R328) -/

/-- `wp.set`: a PA that is outside HBM or misaligned, or a length that is no multiple of 64, is not applicable. -/
def wpEffect (n : Fin 8) (pa len : Nat) (s : State) : State × Word :=
  if hbmEnd ≤ pa ∨ pa % 64 ≠ 0 ∨ len % 64 ≠ 0 then (s, ackNotApplicable)
  else (modDie s (hbmDie pa) fun d => { d with wps := d.wps.set n { base := pa, len := len } }, ackDone)
def specWpSet (r : RAct) (n : Fin 8) : FireSpec := specPriv r fun x => some (wpEffect n x.a.toWord.toNat x.b.toWord.toNat)
def execWpSet (r : RAct) (n : Fin 8) (s : State) : Out := runBeat (specWpSet r n) s

/-- `irq`: the message stands in the die's mailbox and the vector is raised; with a channel dst the reply is awaited. -/
def irqEffect (dst : Dst) (l : Loc) (w msg : Word) (s : State) : State :=
  let (s, rid) := reserveAck s l dst false
  let fn := bitsOf w.toNat 5 0
  let vec := bitsOf w.toNat 16 6
  let s := modDie s (dieOf l.plot) fun d =>
    { d with hmsg := msg, hfn := fn, hvec := vec, hpend := d.hpend || rid != 0, hrid := if rid = 0 then d.hrid else rid }
  raiseMsix s fn vec
def specIrq (r : RAct) : FireSpec :=
  { specR r fun x => .ok { post := irqEffect r.dst x.l x.a.toWord x.b.toWord } with
    async := true, ready := fun s l => r.dst == .none || !(getDie s (dieOf l.plot)).hpend }
def execIrq (r : RAct) (s : State) : Out := runBeat (specIrq r) s

/-! ### Sparing (19 R333) -/

/-- The logical plots from a plot to the end of its die row. -/
def shiftedRun (plot : Nat) : List Nat := (List.range (16 - plotX plot % 16)).map fun i => plot + i

/-- A plot is occupied (07 R119). -/
def occupied (s : State) (plot : Nat) : Bool := (getPlot s plot).parcel.isSome || (reservations s).any fun r => (reservedPlots r.2.2).contains plot

/-- `spare.map`: 3 while a plot of the run is occupied; with the row's spare in use the plot is withdrawn; else the run moves onto the spare, and
its c-slots are INVALID. -/
def spareEffect (t : Target) (s : State) : State × Word :=
  let die := dieOf t.plot
  if (shiftedRun t.plot).any (occupied s) then (s, ackBusy)
  else if (getDie s die).spareUsed.any (fun n => plotY n == plotY t.plot) then (modPlot s t.plot fun p => { p with withdrawn := true }, ackNotApplicable)
  else
    let s := modDie s die fun d => { d with spareUsed := d.spareUsed ++ [t.plot] }
    ((shiftedRun t.plot).foldl (fun s n => modPlot s n fun p => { p with cslots := Vector.replicate 4 {} }) s, ackDone)
def specSpareMap (r : RAct) : FireSpec := specTarget r fun _ t => some (spareEffect t)
def execSpareMap (r : RAct) (s : State) : Out := runBeat (specSpareMap r) s

/-! ### Policies (R320, R326) -/

/-- A word that `pol.wr` takes as a target. -/
def polTarget (w : Word) : Bool :=
  if bitsOf w.toNat 31 29 = 4 then bitsOf w.toNat 63 32 == 0 && bitsOf w.toNat 28 6 == 0 else decide (bitsOf w.toNat 31 29 < 4) && (readTarget w).isSome

/-- The parcel whose policy, or whose launch's, is written while it is frozen: the change is recorded (R324). -/
def polFrozen (s : State) (w : Word) : Option Nat :=
  if bitsOf w.toNat 31 29 < 4 then
    (match (readTarget w).bind (targetParcel s) with
    | some k => if (getParcel s k).frz = .run ∧ (getParcel s k).recorded = [] then none else some k
    | none => none)
  else none

/-- What the parcels that a policy of a context or a launch covers have recorded is still applied under the code that stands until now; each names the
policy by a word of its own. -/
def bracket (s : State) (covers : Parcel → Bool) (word : Parcel → Word) (old code : Nat) : State :=
  { s with parcels := s.parcels.map fun x =>
      if covers x.2 && !x.2.recorded.isEmpty then (x.1, { x.2 with recorded := .policy (word x.2) old :: (x.2.recorded ++ [.policy (word x.2) code]) }) else x }

/-- The target word of LEVEL 3 that names a parcel. -/
def launchWord (p : Parcel) : Word := BitVec.ofNat 64 (p.x0 + 2 ^ 8 * p.y0 + 2 ^ 29 * 3)

/-- A context's or a launch's policy is written: what a frozen or saved parcel of it has recorded is still applied under the policy that stood then (R324). -/
def keepOrder (s : State) (w : Word) (code : Nat) : State :=
  let ctx := bitsOf w.toNat 5 0
  if bitsOf w.toNat 31 29 = 4 then bracket s (fun p => p.ctx == ctx) (fun _ => w) (bitsOf (getCtx s ctx).ccfg.toNat 6 4) code
  else if bitsOf w.toNat 31 29 = 3 then
    match (readTarget w).bind (targetParcel s) with
    | some k =>
      let l := (getParcel s k).launch
      bracket s (fun p => p.launch == l) launchWord (codeOfPolicy (getLaunch s l).pol) code
    | none => s
  else s

/-- `pol.wr`: 0 where the policy is written or recorded, 1 where the target names nothing. -/
def specPolWr (r : RAct) : FireSpec :=
  specR r fun x =>
    let w := x.a.toWord
    if !polTarget w then badOperand w
    else if 5 ≤ x.b.toWord.toNat then badOperand x.b.toWord
    else match polFrozen x.s w with
      | some k => .ok { post := fun s => modParcel s k fun p => { p with recorded := p.recorded ++ [.policy w x.b.toWord.toNat] } }
      | none => match writePolicy x.s w x.b.toWord.toNat with
        | some _ => .ok { post := fun s => (writePolicy (keepOrder s w x.b.toWord.toNat) w x.b.toWord.toNat).getD s }
        | none => .ok { v := 1, pred := true }
def execPolWr (r : RAct) (s : State) : Out := runBeat (specPolWr r) s

end Sys2Proof.Machine
end

