-- ==== Sys2Proof/Machine/Arbiter.lean ====
section
/-!
DEFINITION. What the next cycle's start decides from the state that the last one committed: the repairs of thawed parcels (spec 18 R324), replay entries
for accesses that waited for one (18 R317), and the grants of the stage rings' arbiters (11 R193).
-/

namespace Sys2Proof.Machine

/-- A ring whose role is granted to a site. -/
def grantRing (role : Role) (site : Option Nat) (r : Ring) : Ring :=
  match role with
  | .producer => { r with grantP := site }
  | .consumer => { r with grantC := site }

/-- A slot holds `stg.acq` of a ring and a role. -/
def acquires (n : Fin 8) (role : Role) : Option Slot → Bool
  | some ⟨_, .stgAcq _ m r _⟩ => m == n && r == role
  | _ => false

/-- The next beat of the element's firing in progress is a `stg.acq` of the ring and the role: every beat acquires a stage (log 39). -/
def goesOnAcquiring (s : State) (l : Loc) (n : Fin 8) (role : Role) : Bool :=
  let e := getElem s l
  elemLives s l && midFiring e && goesOn e && acquires n role (slotOf e l.plot (pixSlot e.pix))

/-- An element has a `stg.acq` slot of the ring and the role that would be ready with the grant, or goes on with one. -/
def wantsStage (s : State) (l : Loc) (n : Fin 8) (role : Role) : Bool :=
  let s := modRing s l.plot n (grantRing role (some l.site))
  (elemIdle s l && slotNums.any fun k => acquires n role (slotReady specUser s l k)) || goesOnAcquiring s l n role

/-- The first site at or after a pointer that wants the stage. -/
def grantSite (s : State) (plot : Nat) (n : Fin 8) (role : Role) (ptr : Nat) : Option Nat :=
  ((List.range 32).map fun k => (ptr + k) % 32).find? fun site => (getElem s ⟨plot, site⟩).present && wantsStage s ⟨plot, site⟩ n role

/-- The rings of a plot, by number. -/
def ringNums (s : State) (plot : Nat) : List (Fin 8) := ([0, 1, 2, 3, 4, 5, 6, 7] : List (Fin 8)).filter fun n => (ringOf s plot n).isSome

/-- One ring's two arbiters. -/
def grantStage (plot : Nat) (s : State) (n : Fin 8) : State :=
  match ringOf s plot n with
  | some r =>
    let p := if canAcquire r .producer then grantSite s plot n .producer r.ptrP else none
    let c := if canAcquire r .consumer then grantSite s plot n .consumer r.ptrC else none
    modRing s plot n fun r => { r with grantP := p, grantC := c }
  | none => s

/-- The arbiters of every started plot. -/
def arbitrate (s : State) : State :=
  (s.plots.filter fun x => x.2.started && !x.2.rings.isEmpty).foldl (fun s x => (ringNums s x.1).foldl (grantStage x.1) s) s

/-- The start of a cycle. -/
def startCycle (s : State) : State :=
  arbitrate (enterHeld ((s.parcels.filter fun x => !x.2.recorded.isEmpty).foldl (fun s x => applyRecorded s x.1) s))

end Sys2Proof.Machine
end

