-- ==== Sys2Proof/Machine/SpecAll.lean ====
section
/-!
DEFINITION. The description of every instruction that runs as beats of a firing, the privileged ones included (spec 18 R326).
-/

namespace Sys2Proof.Machine

/-- The firing that an instruction describes; none for the steps of other agents. -/
def specOf : Instr → Option FireSpec
  | .fltRd dst upd => some (specFltRd dst upd)
  | .rpr r act => some (specRpr r act)
  | .rqRd r => some (specRqRd r)
  | .rqWr r => some (specRqWr r)
  | .rqInj r val => some (specRqInj r val)
  | .ctxSv r => some (specCtxSv r)
  | .ctxLd r => some (specCtxLd r)
  | .tlbInv r reach => some (specTlbInv r reach)
  | .frz r => some (specFrz r)
  | .thw r => some (specThw r)
  | .cfgRld r => some (specCfgRld r)
  | .trCtl r => some (specTrCtl r)
  | .wpSet r n => some (specWpSet r n)
  | .irq r => some (specIrq r)
  | .spareMap r => some (specSpareMap r)
  | .polWr r => some (specPolWr r)
  | i => specUser i

end Sys2Proof.Machine
end

