-- ==== Sys2Proof/Machine/Firing.lean ====
section
/-!
DEFINITION. FIRING_BEAT (spec 08 R136, 18 R318): the next beat of a firing in progress, a step of a streaming
scratchpad instruction (13 R218 to R221) or of `acc.rd` or `acc.ld` (15 R270, R271), or a beat re-executed after a repair.
-/

namespace Sys2Proof.Machine

/-- Run one beat of the instruction that a slot holds, with the cursor given. -/
def runSlotBeat (s : State) (c : Cursor) (act : Instr) : Out :=
  match specOf act with
  | some sp => runBeat sp (modSched s fun x => { x with cur := c })
  | none => .next s

/-- Whether a beat at a cursor can run. -/
def slotBeatReady (s : State) (c : Cursor) (act : Instr) : Bool :=
  match specOf act with
  | some sp => beatReady sp (modSched s fun x => { x with cur := c })
  | none => false

/-- The cursor of a beat that a repair re-executes. -/
def redoCursor (l : Loc) (r : Redo) (w : Nat) : Cursor :=
  { l := l, slot := ⟨r.slot % 16, Nat.mod_lt _ (by decide)⟩, beats := w, beat := r.beat, mode := r.mode, cap := some (r.a, r.b, r.c), depth := r.depth }

/-- FIRING_BEAT. With nothing to go on with, or not ready, nothing happens (log 2). -/
def execFiringBeat (l : Loc) (s : State) : Out :=
  if !(getElem s l).present then .fault .noElement
  else if !hasRedo s l then .next s
  else if (getSe s l).op.isSome then .next (spadStep s l)
  else if (getMe s l).op.isSome then .next (accStep s l)
  else
    match nextRedo (getElem s l) with
    | some r =>
      (match slotOf (getElem s l) l.plot ⟨r.slot % 16, Nat.mod_lt _ (by decide)⟩ with
      | some x =>
        if slotBeatReady s (redoCursor l r x.trig.w.beats) x.act then
          runSlotBeat (modElem s l fun e => { e with redo := e.redo.erase r }) (redoCursor l r x.trig.w.beats) x.act
        else .next s
      | none => .next s)
    | none =>
      match slotOf (getElem s l) l.plot (pixSlot (getElem s l).pix) with
      | some x =>
        runSlotBeat s { l := l, slot := pixSlot (getElem s l).pix, beats := x.trig.w.beats, beat := pixBeat (getElem s l).pix } x.act
      | none => .next s

end Sys2Proof.Machine
end

