-- ==== Sys2Proof/Machine/Translate.lean ====
section
/-!
DEFINITION. The Jerix image and its translation into a D3 section image (spec 05 R92 to R98): actors, rates and edges as read; balance, schedule,
buffers, splitting, placement and output.
-/

namespace Sys2Proof.Machine

/-! ### The image (R92 to R96) -/

/-- An actor of a function: its kind, its counts, its ports as words, its virtual slots and its INIT block. -/
structure Actor where
  kind : Kind
  npred : Nat
  nin : Nat
  nout : Nat
  ports : List Nat
  slots : List (List Byte)
  init : List Byte

/-- The rate and the width of an input or output port. -/
def portRate (w : Nat) : Nat := bitsOf w 15 0
def portWide (w : Nat) : Bool := bitOf w 16
def Actor.inWord (a : Actor) (n : Nat) : Nat := a.ports.getD n 0
def Actor.outWord (a : Actor) (n : Nat) : Nat := a.ports.getD (a.nin + n) 0

/-- An edge of a function: actors counted from FIRST, ports, OUT, and initial tokens. -/
structure Edge where
  src : Nat
  sport : Nat
  dst : Nat
  dport : Nat
  out : Bool
  tokens : List Token
  deriving Repr

/-- What is translated: the actors, edges and bindings of one function. -/
structure Function where
  actors : List Actor
  edges : List Edge
  binds : List Word

def kindOfCode : Nat → Option Kind
  | 0 => some .ce
  | 1 => some .fe
  | 2 => some .se
  | 3 => some .le
  | 4 => some .xe
  | 5 => some .me
  | _ => none

/-- Bytes of the body, which must lie within it. -/
def slice (body : List Byte) (off n : Nat) : Option (List Byte) := if off + n ≤ body.length then some ((body.drop off).take n) else none

/-- An actor record (R94); `body` begins at the Jerix header. -/
def readActor (body r : List Byte) : Option Actor :=
  let nslot := fieldAt r 2 2
  let nin := fieldAt r 4 1
  let nout := fieldAt r 5 1
  match kindOfCode (fieldAt r 0 1), slice body (fieldAt r 8 4) (32 * nslot), slice body (fieldAt r 0xC 4) (4 * (nin + nout)),
      slice body (fieldAt r 0x10 4) 128 with
  | some k, some vs, some ps, some i =>
    let words := (List.range (nin + nout)).map fun n => fieldAt ps (4 * n) 4
    if 1 ≤ fieldAt r 1 1 ∧ fieldAt r 1 1 ≤ 32 ∧ 1 ≤ nslot ∧ nslot ≤ (if k = .me then 16 else 256) ∧ nin ≤ 16 ∧ nout ≤ 16 ∧ fieldAt r 6 2 = 0 ∧
        isZero r 0x14 12 ∧ (words.all fun w => portRate w != 0 && w / 2 ^ 17 == 0) then
      some { kind := k, npred := fieldAt r 1 1, nin := nin, nout := nout, ports := words
             slots := (List.range nslot).map fun n => (vs.drop (32 * n)).take 32, init := i }
    else none
  | _, _, _, _ => none

/-- An initial token (R95): payload, then tag; the rest is 0. -/
def readToken (wide : Bool) (bs : List Byte) : Option Token :=
  let n := if wide then 64 else 8
  let t := fieldAt bs n 1
  if t < 8 ∧ isZero bs (n + 1) 7 then some { tag := Dec.tag (BitVec.ofNat 3 t), val := BitVec.ofNat 512 (fieldAt bs 0 n) } else none

/-- An edge record of a function (R95): none outside where both actors lie outside; an illegal one is none inside. -/
def readEdge (body : List Byte) (actors : List Actor) (first : Nat) (r : List Byte) : Option (Option Edge) :=
  let a := fieldAt r 0 2
  let b := fieldAt r 4 2
  let count := actors.length
  let ina := first ≤ a ∧ a < first + count
  let inb := first ≤ b ∧ b < first + count
  if ¬ina ∧ ¬inb then none
  else if ¬ina ∨ ¬inb then some none
  else match actors[a - first]?, actors[b - first]? with
    | some x, some y =>
      let sp := fieldAt r 2 1
      let dp := fieldAt r 6 1
      let wide := portWide (x.outWord sp)
      let size := if wide then 72 else 16
      let n := fieldAt r 8 2
      if x.nout ≤ sp ∨ y.nin ≤ dp ∨ wide ≠ portWide (y.inWord dp) ∨ fieldAt r 3 1 ≠ 0 ∨ 2 ≤ fieldAt r 7 1 ∨ fieldAt r 0xE 2 ≠ 0 then some none
      else match slice body (fieldAt r 0xA 4) (if n = 0 then 0 else n * size) with
        | none => some none
        | some bs => some ((allSome ((List.range n).map fun i => readToken wide ((bs.drop (i * size)).take size))).map fun ts =>
            { src := a - first, sport := sp, dst := b - first, dport := dp, out := fieldAt r 7 1 == 1, tokens := ts })
    | _, _ => some none

/-- Every port has exactly one edge. -/
def portsJoined (f : Function) : Bool :=
  (f.actors.mapIdx fun i a => (i, a)).all fun x =>
    ((List.range x.2.nin).all fun n => (f.edges.countP fun e => e.dst == x.1 && e.dport == n) == 1) &&
    (List.range x.2.nout).all fun n => (f.edges.countP fun e => e.src == x.1 && e.sport == n) == 1

/-- A binding (R93) that names an actor of the function and a register. -/
def bindOk (count : Nat) (w : Word) : Bool :=
  let n := w.toNat
  bitsOf n 31 16 == 0 && bitsOf n 47 36 == 0 && decide (bitsOf n 15 0 < count) && (decide (bitsOf n 35 32 < 8) || decide (13 ≤ bitsOf n 35 32))

/-- The function that a function entry names (R92, R93): `body` is the kernel from its Jerix header on, `at_` the entry's offset in it. A JVER of 0 makes the
kernel illegal too (log 54). -/
def readFunction (body : List Byte) (at_ : Nat) (entry : List Byte) : Option Function :=
  let nact := fieldAt body 6 2
  let first := fieldAt entry 8 2
  let count := fieldAt entry 0xA 2
  let ftab := fieldAt body 0x18 4
  if fieldAt body 0 4 ≠ 0x5852454A ∨ fieldAt body 4 2 ≠ 1 ∨ nact = 0 ∨ 4096 < nact ∨ fieldAt body 0xA 2 = 0 ∨ 256 < fieldAt body 0xA 2 ∨
      fieldAt body 0xC 4 ≠ 0 ∨ !isZero body 0x1C 36 ∨ at_ < ftab ∨ (at_ - ftab) % 32 ≠ 0 ∨ fieldAt body 0xA 2 ≤ (at_ - ftab) / 32 ∨
      fieldAt entry 0 4 ≠ 0x4E55464A ∨ count = 0 ∨ nact < first + count ∨ fieldAt entry 0xE 2 ≠ 0 ∨ !isZero entry 0x14 12 then none
  else match slice body (fieldAt body 0x10 4) (32 * nact), slice body (fieldAt body 0x14 4) (16 * fieldAt body 8 2),
      slice body (fieldAt entry 0x10 4) (8 * fieldAt entry 0xC 2) with
    | some as, some es, some bs =>
      (match allSome ((List.range count).map fun i => readActor body ((as.drop (32 * (first + i))).take 32)) with
      | none => none
      | some actors =>
        match allSome ((List.range (fieldAt body 8 2)).filterMap fun i => readEdge body actors first ((es.drop (16 * i)).take 16)) with
        | none => none
        | some edges =>
          let f : Function := { actors := actors, edges := edges
                                binds := (List.range (fieldAt entry 0xC 2)).map fun i => BitVec.ofNat 64 (fieldAt bs (8 * i) 8) }
          if portsJoined f && f.binds.all (bindOk count) then some f else none)
    | _, _, _ => none

/-! ### Balance, schedule and buffers (R97) -/

/-- Why a translation fails (R98): sub-code, detail and actor; or an illegal structure. -/
inductive XBad
  | fail (sub detail actor : Nat)
  | illegal
  deriving DecidableEq, Repr

/-- What is known of the repetition of an actor: the lowest actor of its group, and its count relative to that one as a fraction. -/
structure Ratio where
  root : Nat
  num : Nat
  den : Nat
  deriving DecidableEq, Repr

def mkRatio (root n d : Nat) : Ratio := let g := Nat.gcd n d; ⟨root, n / g, d / g⟩

def Edge.prod (f : Function) (e : Edge) : Nat := (f.actors[e.src]?.map fun a => portRate (a.outWord e.sport)).getD 1
def Edge.cons (f : Function) (e : Edge) : Nat := (f.actors[e.dst]?.map fun a => portRate (a.inWord e.dport)).getD 1

/-- One edge carries what is known to its other end. -/
def carry (f : Function) (t : Tbl Ratio) (e : Edge) : Tbl Ratio :=
  match Tbl.find t e.src, Tbl.find t e.dst with
  | some r, none => Tbl.put t e.dst (mkRatio r.root (r.num * e.prod f) (r.den * e.cons f))
  | none, some r => Tbl.put t e.src (mkRatio r.root (r.num * e.cons f) (r.den * e.prod f))
  | _, _ => t

/-- Carry until nothing changes; each round that changes something reaches a further actor. -/
def carryAll (f : Function) : Nat → Tbl Ratio → Tbl Ratio
  | 0, t => t
  | n + 1, t => carryAll f n (f.edges.foldl (carry f) t)

/-- The ratios of every actor, group by group from the lowest actor on. -/
def ratios (f : Function) : Tbl Ratio :=
  (List.range f.actors.length).foldl (fun t i => if (Tbl.find t i).isSome then t else carryAll f f.actors.length (Tbl.put t i ⟨i, 1, 1⟩)) []

/-- The smallest counts q, or the lowest actor of a group that has none (log 27). -/
def balance (f : Function) : Except XBad (List Nat) :=
  let t := ratios f
  let at_ (i : Nat) : Ratio := Tbl.findD t i ⟨i, 1, 1⟩
  let bad := f.edges.filter fun e => (at_ e.src).num * e.prod f * (at_ e.dst).den != (at_ e.dst).num * e.cons f * (at_ e.src).den
  match bad.map fun e => (at_ e.src).root with
  | r :: rs => .error (.fail 1 0 (rs.foldl min r))
  | [] =>
    let groupOf (i : Nat) : List Ratio := (t.map (·.2)).filter fun r => r.root == (at_ i).root
    .ok ((List.range f.actors.length).map fun i =>
      let l := (groupOf i).foldl (fun l r => Nat.lcm l r.den) 1
      let g := (groupOf i).foldl (fun g r => Nat.gcd g (r.num * (l / r.den))) 0
      (at_ i).num * (l / (at_ i).den) / g)

/-- Where a schedule stands: firings so far by actor, and tokens and largest count by edge. -/
structure Sim where
  fired : List Nat
  held : List Nat
  most : List Nat

def addAt (xs : List Nat) (n k : Nat) : List Nat := xs.mapIdx fun i x => if i = n then x + k else x

/-- The lowest actor that may fire. -/
def mayFire (f : Function) (q : List Nat) (s : Sim) : Option Nat :=
  (List.range q.length).find? fun i => decide (s.fired.getD i 0 < q.getD i 0) &&
    (f.edges.mapIdx fun k e => (k, e)).all fun x => x.2.dst != i || decide (x.2.cons f ≤ s.held.getD x.1 0)

/-- It fires. -/
def fireActor (f : Function) (s : Sim) (i : Nat) : Sim :=
  let held := (s.held.zip f.edges).map fun x =>
    x.1 - (if x.2.dst = i then x.2.cons f else 0) + (if x.2.src = i then x.2.prod f else 0)
  { fired := addAt s.fired i 1, held := held, most := (s.most.zip held).map fun x => max x.1 x.2 }

/-- The schedule, one firing for each unit of fuel: the buffers, or the lowest actor still short of its count. -/
def schedule (f : Function) (q : List Nat) : Nat → Sim → Except XBad (List Nat)
  | 0, s => .ok s.most
  | n + 1, s => match mayFire f q s with
    | some i => schedule f q n (fireActor f s i)
    | none => .error (.fail 2 0 (((List.range q.length).find? fun i => decide (s.fired.getD i 0 < q.getD i 0)).getD 0))

def buffers (f : Function) (q : List Nat) : Except XBad (List Nat) :=
  let start := f.edges.map fun e => e.tokens.length
  schedule f q (q.foldl (· + ·) 0) { fired := q.map fun _ => 0, held := start, most := start }

/-! ### Virtual slots (R96) -/

/-- The fields of an action that Jerix renames: sources, destination, predicate operands, the predicate of `sel`, and the place of pmode; the registers
that the action uses beside its selectors, as selector codes of CE and FE; whether sb names a pair of registers; and the matrix id source. -/
structure FormOf where
  sa : Bool := true
  sb : Bool := true
  dst : Bool := true
  preds : Bool := false
  xDst : Bool := false
  mode : Option Nat := none
  sel : Bool := false
  pair : Bool := false
  ids : Bool := false

/-- The form of an opcode on a kind (04 R66 to R70, R74 to R80). -/
def formOf (k : Kind) (op : Nat) : FormOf :=
  let i : FormOf := { sb := false, mode := some 3 }
  let r : FormOf := { mode := some 9 }
  if 4 ≤ op ∧ op ≤ 7 then { r with sa := false, sb := false, preds := true }
  else if op = 0x0A then { r with sel := true }
  else if [0x02, 0x0B, 0x0C, 0x0E, 0x10, 0x11, 0x13, 0x14, 0x16, 0x17, 0x18, 0x19, 0x1A].contains op then i
  else if op < 0x20 then r
  else match k with
    | .me => if op = 0x20 then { dst := false, mode := some 8, ids := true } else { sb := false, dst := false, xDst := true, mode := some 8 }
    | .xe => {}
    | .le => if 0x68 ≤ op then {} else if op = 0x22 then i else r
    | .ce => if 0x68 ≤ op then { pair := op == 0x6B } else if op = 0x22 ∨ op = 0x35 then i else if 0x5D ≤ op ∧ op ≤ 0x5F then { r with sb := false } else r
    | .fe => if op = 0x22 ∨ op = 0x35 then i else if 0x5D ≤ op ∧ op ≤ 0x5F then { r with sb := false } else r
    | .se => r

/-- The registers that an action of CE or FE uses beside those that its selectors name, by selector code: the counters that `eos` resets and that
`zpack`, `zunpk`, `dropm`, `rnd` and `fcvt` under stochastic rounding go by (09 R141, R162, 10 R180 to R182), and the k of their random streams. Whether `fcvt`
rounds so is in its descriptor, which only a zero sb fixes (log 27). -/
def usesOf (k : Kind) (w : Nat) : List Nat :=
  if !k.hasRegs then []
  else
    let op := bitsOf w 31 25
    if op = 0x08 then (if bitOf w 0 then [13] else []) ++ (if bitOf w 1 then [14] else [])
    else if op = 0x48 then [13, 14]
    else if op = 0x49 then [14]
    else if op = 0x5C then (if bitsOf w 16 13 = 12 then [] else [14, 15])
    else if op = 0x65 then [13, 15]
    else if op = 0x66 then [14, 15]
    else []

/-- A virtual slot as read. -/
structure VSlot where
  word : Nat
  form : FormOf
  uses : List Nat
  pmv : Nat
  pvv : Nat
  icv : Nat
  vsa : Nat
  vsb : Nat
  vdst : Nat
  pkv : Nat
  wave : Nat

def VSlot.sel (v : VSlot) (lo : Nat) : Nat := bitsOf v.word (lo + 3) lo
def isChanSel (n : Nat) : Bool := decide (8 ≤ n) && decide (n < 12)

/-- Whether the action updates a predicate. -/
def VSlot.hasPk (v : VSlot) : Bool :=
  match v.form.mode with
  | some m => bitsOf v.word (m + 1) m != 0
  | none => false

/-- The low bit of pk: below pmode. -/
def VSlot.pkAt (v : VSlot) : Nat := (v.form.mode.getD 3) - 3

def readVSlot (k : Kind) (bs : List Byte) : VSlot :=
  { word := fieldAt bs 0 8, form := formOf k (bitsOf (fieldAt bs 0 8) 31 25), uses := usesOf k (fieldAt bs 0 8), pmv := fieldAt bs 8 4, pvv := fieldAt bs 0xC 4, icv := fieldAt bs 0x10 2
    vsa := fieldAt bs 0x12 1, vsb := fieldAt bs 0x13 1, vdst := fieldAt bs 0x14 1, pkv := fieldAt bs 0x15 1, wave := fieldAt bs 0x16 2 }

/-- The destination selector of a virtual slot, where its form has one. -/
def VSlot.dstSel (v : VSlot) : Option Nat := if v.form.dst then some (v.sel 21) else if v.form.xDst then some (v.sel 13) else none

/-- Set bits of a mask. -/
def bitsSet (n w : Nat) : List Nat := (List.range w).filter fun i => bitOf n i

/-- Ports and predicates that a slot names. -/
def VSlot.ins (v : VSlot) : List Nat :=
  bitsSet v.icv 16 ++ (if v.form.sa && isChanSel (v.sel 17) then [v.vsa] else []) ++ (if v.form.sb && isChanSel (v.sel 13) then [v.vsb] else [])
def VSlot.outs (v : VSlot) : List Nat :=
  match v.dstSel with
  | some n => if isChanSel n then [v.vdst] else []
  | none => []
def VSlot.preds (v : VSlot) : List Nat :=
  bitsSet (v.pmv ||| v.pvv) 32 ++ (if v.hasPk then [v.pkv] else []) ++ (if v.form.preds then [v.sel 17, v.sel 13] else []) ++
  if v.form.sel then [bitsOf v.word 2 0] else []

/-- A virtual slot that holds nothing: one whose translated word would be 0 (R63). -/
def VSlot.void (v : VSlot) : Bool := v.word == 0 && v.pmv == 0 && v.pvv == 0 && v.icv == 0

/-- Registers and channel selectors that a slot names. -/
def VSlot.sources (v : VSlot) : List Nat := (if v.form.sa then [v.sel 17] else []) ++ (if v.form.sb then [v.sel 13] else [])
def isReg (n : Nat) : Bool := decide (n < 8) || n == 13 || n == 14

/-- The registers that a slot reads or writes, k among them, by selector code: those named, the odd one of a pair (16 R288), and those used without a
selector. -/
def VSlot.regs (v : VSlot) : List Nat :=
  (v.sources.filter fun n => isReg n || n == 15) ++ (v.dstSel.toList.filter isReg) ++ (if v.form.pair && v.sel 13 < 8 then [v.sel 13 + 1] else []) ++ v.uses

/-- The id channel that an `mma` names (15 R264). -/
def VSlot.idChan (v : VSlot) : List Nat :=
  if v.form.ids then (match bitsOf v.word 11 10 with
    | 1 => [8]
    | 2 => [9]
    | _ => []) else []

/-- Everything by which two slots belong to one part, as numbers. A dst of fan counts as a channel selector, which only another fan shares, and names no
port (log 27). -/
def VSlot.shares (v : VSlot) : List Nat :=
  v.preds ++ v.ins.map (· + 100) ++ v.outs.map (· + 200) ++ (v.regs.filter isReg).map (· + 300) ++
  (v.sources.filter isChanSel ++ v.idChan).map (· + 400) ++
  ((v.dstSel.toList).filter fun n => isChanSel n || n == 15).map (· + 500)

/-- The fields of a virtual slot hold values of their ranges, used or not, and the predicate operands of 04 R71 are codes 0 to 7. -/
def VSlot.inRange (v : VSlot) : Bool :=
  decide (v.vsa < 16) && decide (v.vsb < 16) && decide (v.vdst < 16) && decide (v.pkv < 32) &&
  (!v.form.preds || (decide (v.sel 17 < 8) && decide (v.sel 13 < 8)))

/-- A virtual slot whose fields are within their ranges and its actor's counts, and whose PM, PV, IC and pk are 0. -/
def vslotOk (a : Actor) (bs : List Byte) (v : VSlot) : Bool :=
  v.inRange &&
  bitsOf v.word 47 32 == 0 && bitsOf v.word 56 53 == 0 && (v.form.mode.isNone || bitsOf v.word (v.pkAt + 2) v.pkAt == 0) &&
  isZero bs 0x18 8 && (v.ins.all fun n => decide (n < a.nin)) && (v.outs.all fun n => decide (n < a.nout)) && v.preds.all fun n => decide (n < a.npred)

/-! ### Splitting (R97) -/

/-- A part: what its slots share, and the slots, by number. -/
structure Part where
  shares : List Nat
  slots : List Nat

/-- A slot joins every part with which it shares something. -/
def joinPart (ps : List Part) (n : Nat) (xs : List Nat) : List Part :=
  let near := ps.filter fun p => p.shares.any xs.contains
  let far := ps.filter fun p => !p.shares.any xs.contains
  far ++ [{ shares := near.foldl (fun r p => r ++ p.shares) xs, slots := near.foldl (fun r p => r ++ p.slots) [] ++ [n] }]

/-- Numbers in ascending order, each once. -/
def insertNat (n : Nat) : List Nat → List Nat
  | [] => [n]
  | x :: xs => if n < x then n :: x :: xs else if n = x then x :: xs else x :: insertNat n xs
def ascend (xs : List Nat) : List Nat := xs.foldl (fun r n => insertNat n r) []

/-- A part as an element: its actor, its slots, and its predicates and ports in ascending order, wide ports apart. -/
structure PartElem where
  actor : Nat
  slots : List VSlot
  preds : List Nat
  nins : List Nat
  wins : List Nat
  nouts : List Nat
  wouts : List Nat

/-- Channels of a kind in one direction: narrow and wide (04 R71). -/
def narrowChans (k : Kind) : Nat := if k.hasWide then 2 else 4
def wideChans (k : Kind) : Nat := if k.hasWide then 2 else 0

/-- The channel of a port of a part. -/
def chanOfPort (k : Kind) (narrow wide : List Nat) (n : Nat) : Option Nat :=
  match findIdx (fun x => x == n) 0 narrow, findIdx (fun x => x == n) 0 wide with
  | some (i, _), _ => some i
  | none, some (i, _) => some ((if k.hasWide then 2 else 0) + i)
  | none, none => none

/-- Ports that no slot names belong to the actor's first part (log 27). -/
def unnamed (all : List VSlot) (n : Nat) (f : VSlot → List Nat) : List Nat := (List.range n).filter fun i => !all.any fun v => (f v).contains i

def partElem (i : Nat) (a : Actor) (all : List VSlot) (isFirst : Bool) (p : Part) : PartElem :=
  let vs := (ascend p.slots).filterMap fun n => all[n]?
  let ins := ascend (vs.flatMap VSlot.ins ++ if isFirst then unnamed all a.nin VSlot.ins else [])
  let outs := ascend (vs.flatMap VSlot.outs ++ if isFirst then unnamed all a.nout VSlot.outs else [])
  { actor := i, slots := vs, preds := ascend (vs.flatMap VSlot.preds)
    nins := ins.filter fun n => !portWide (a.inWord n), wins := ins.filter fun n => portWide (a.inWord n)
    nouts := outs.filter fun n => !portWide (a.outWord n), wouts := outs.filter fun n => portWide (a.outWord n) }

def partFits (k : Kind) (p : PartElem) : Bool :=
  decide (p.slots.length ≤ 16) && decide (p.preds.length ≤ 8) && decide (p.nins.length ≤ narrowChans k) && decide (p.wins.length ≤ wideChans k) &&
  decide (p.nouts.length ≤ narrowChans k) && decide (p.wouts.length ≤ wideChans k)

/-- The parts of an actor, by their lowest slots. -/
def splitActor (i : Nat) (a : Actor) : Except XBad (List PartElem) :=
  let all := a.slots.map (readVSlot a.kind)
  if !((a.slots.zip all).all fun x => vslotOk a x.1 x.2) then .error .illegal
  else
    let ps := (all.mapIdx fun n v => (n, v)).foldl (fun ps x => if x.2.void then ps else joinPart ps x.1 x.2.shares) []
    let ps := (ps.map fun p => (p.slots.foldl min 256, p)).foldl (fun (r : Tbl Part) x => Tbl.put r x.1 x.2) []
    let ps := if ps.isEmpty then [(0, { shares := [], slots := [] })] else ps
    let es := (ps.mapIdx fun n p => (n, p.2)).map fun x => partElem i a all (x.1 == 0) x.2
    if es.all (partFits a.kind) then .ok es else .error (.fail 3 0 i)

/-- Every value of a list of results, or the first error. -/
def allOk {α : Type} : List (Except XBad α) → Except XBad (List α)
  | [] => .ok []
  | .error e :: _ => .error e
  | .ok x :: xs => match allOk xs with
    | .ok ys => .ok (x :: ys)
    | .error e => .error e

/-! ### Placement and capacity (R97) -/

/-- The sites of a kind (00 R3). -/
def sitesOf (k : Kind) : List Nat := (List.range 32).filter fun n => kindOfSite n == k

/-- A part with its plot index and site. -/
structure Placed where
  part : PartElem
  kind : Kind
  idx : Nat
  site : Nat

/-- The lowest free site of the kind in the lowest plot that has one. -/
def freeSite (plots : Nat) (k : Kind) (done : List Placed) : Option (Nat × Nat) :=
  (List.range plots).findSome? fun i => ((sitesOf k).find? fun n => !done.any fun p => p.idx == i && p.site == n).map fun n => (i, n)

def placeParts (plots : Nat) (f : Function) : List PartElem → List Placed → Except XBad (List Placed)
  | [], done => .ok done
  | p :: ps, done =>
    let k := (f.actors[p.actor]?.map (·.kind)).getD .ce
    match freeSite plots k done with
    | some (i, n) => placeParts plots f ps (done ++ [{ part := p, kind := k, idx := i, site := n }])
    | none => .error (.fail 3 1 p.actor)

/-- An edge placed: the two ends as plot index, site and channel. -/
structure Wire where
  edge : Edge
  wide : Bool
  si : Nat
  ss : Nat
  sc : Nat
  di : Nat
  ds : Nat
  dc : Nat

def wireOf (f : Function) (ps : List Placed) (e : Edge) : Option Wire :=
  let s := ps.findSome? fun p => if p.part.actor = e.src then (chanOfPort p.kind p.part.nouts p.part.wouts e.sport).map fun c => (p, c) else none
  let d := ps.findSome? fun p => if p.part.actor = e.dst then (chanOfPort p.kind p.part.nins p.part.wins e.dport).map fun c => (p, c) else none
  match s, d with
  | some (p, c), some (q, b) =>
    some ⟨e, (f.actors[e.src]?.map fun a => portWide (a.outWord e.sport)).getD false, p.idx, p.site, c, q.idx, q.site, b⟩
  | _, _ => none

/-- The tokens that a wire holds. -/
def Wire.room (w : Wire) : Nat := (if w.wide then 4 else 16) + if w.si = w.di then 0 else 8

/-! ### Output (R97) -/

def setBits (w lo v : Nat) : Nat := w ||| (v <<< lo)
def replaceSel (w lo v : Nat) : Nat := (w ^^^ ((bitsOf w (lo + 3) lo) <<< lo)) ||| (v <<< lo)

/-- The place of a number in a list. -/
def placeIn (xs : List Nat) (n : Nat) : Nat := ((findIdx (fun x => x == n) 0 xs).map (·.1)).getD 0

/-- The bits of a mask renumbered. -/
def renumber (xs : List Nat) (m : Nat) : Nat := ((List.range 32).filter fun i => bitOf m i).foldl (fun r i => r ||| 2 ^ placeIn xs i) 0

/-- The D3 slot word of a virtual slot in its part. -/
def slotWordOf (k : Kind) (p : PartElem) (v : VSlot) : Nat :=
  let inC (n : Nat) : Nat := (chanOfPort k p.nins p.wins n).getD 0
  let outC (n : Nat) : Nat := (chanOfPort k p.nouts p.wouts n).getD 0
  let w := v.word
  let w := setBits w 40 (renumber p.preds v.pmv)
  let w := setBits w 32 (renumber p.preds v.pvv)
  let w := setBits w 53 ((bitsSet v.icv 16).foldl (fun r i => r ||| 2 ^ inC i) 0)
  let w := if v.hasPk then setBits w v.pkAt (placeIn p.preds v.pkv) else w
  let w := if v.form.preds then replaceSel (replaceSel w 17 (placeIn p.preds (v.sel 17))) 13 (placeIn p.preds (v.sel 13)) else w
  let w := if v.form.sel then (w ^^^ bitsOf w 2 0) ||| placeIn p.preds (bitsOf v.word 2 0) else w
  let w := if v.form.sa && isChanSel (v.sel 17) then replaceSel w 17 (8 + inC v.vsa) else w
  let w := if v.form.sb && isChanSel (v.sel 13) then replaceSel w 13 (8 + inC v.vsb) else w
  match v.dstSel with
  | some n => if isChanSel n then replaceSel w (if v.form.xDst then 13 else 21) (8 + outC v.vdst) else w
  | none => w

/-- Bytes up to a length, the rest 0. -/
def padTo (n : Nat) (bs : List Byte) : List Byte := (bs ++ List.replicate (n - bs.length) 0).take n

/-- The element record of a placed part. A record of 256 bytes holds no bytes 0x100 to 0x11F: what INIT has for them does not matter (log 27). -/
def recordOf (f : Function) (p : Placed) : List Byte :=
  let init := (f.actors[p.part.actor]?.map (·.init)).getD []
  let words := p.part.slots.map (slotWordOf p.kind p.part)
  let waves := p.part.slots.map (·.wave)
  padTo (recordSize p.kind) (((List.range 16).flatMap fun n => bytesOf 8 (words.getD n 0)) ++ ((List.range 16).flatMap fun n => bytesOf 2 (waves.getD n 0x7FFF)) ++
    init.take (if p.kind.hasRegs then 128 else 96))

/-- The route record of a wire (03 R53). -/
def routeOf (w h : Nat) (x : Wire) : Nat :=
  let _ := h
  x.ss + x.sc * 2 ^ 5 + x.ds * 2 ^ 8 + x.dc * 2 ^ 13 + (if x.edge.out then 2 ^ 25 else 0) +
    (if x.si = x.di then 0 else 2 ^ 7 + (x.di % w) * 2 ^ 16 + (x.di / w) * 2 ^ 21)

/-- The block of plot index i; none for an empty plot. -/
def blockOf (f : Function) (w h : Nat) (ps : List Placed) (ws : List Wire) (i : Nat) : Option (List Byte) :=
  let here := (ps.filter fun p => p.idx == i).foldl (fun (t : Tbl Placed) p => Tbl.put t p.site p) []
  if here.isEmpty then none
  else
    let recs := here.flatMap fun x => recordOf f x.2
    let routes := (ws.filter fun x => x.si == i).map (routeOf w h)
    let pres := here.foldl (fun m x => m ||| 2 ^ x.1) 0
    let len := 64 + recs.length + 8 * routes.length
    some (bytesOf 4 len ++ bytesOf 4 pres ++ List.replicate 20 0 ++ bytesOf 2 routes.length ++ List.replicate 6 0 ++ bytesOf 4 64 ++
      bytesOf 4 (64 + recs.length) ++ List.replicate 20 0 ++ recs ++ routes.flatMap (bytesOf 8))

/-- The parts that a binding's register belongs to: those whose slots use it, else the actor's first part (log 27). -/
def bindParts (ps : List Placed) (w : Word) : List Placed :=
  let mine := ps.filter fun p => p.part.actor == bitsOf w.toNat 15 0
  let t := bitsOf w.toNat 35 32
  let named := mine.filter fun p => p.part.slots.any fun v => v.regs.contains t
  if named.isEmpty then mine.take 1 else named

/-- A binding as patch records. -/
def patchesOf (ps : List Placed) (w : Word) : List Nat :=
  (bindParts ps w).map fun p => p.idx + p.site * 2 ^ 27 + bitsOf w.toNat 35 32 * 2 ^ 32 + bitsOf w.toNat 63 48 * 2 ^ 48

/-- Padding to a multiple of 64 bytes. -/
def pad64 (bs : List Byte) : List Byte := bs ++ List.replicate (roundUp bs.length 64 - bs.length) 0

/-- A translated image: the bytes of its kernel, whose section descriptor stands at 0x40, and its initial tokens by plot index and input. -/
structure Translated where
  bytes : List Byte
  tokens : List (Nat × Nat × List Token)

/-- The section image of SHAPE w × h (03 R47, R48). -/
def emit (f : Function) (shape w h : Nat) (ps : List Placed) (ws : List Wire) : Translated :=
  let plots := w * h
  let pats := f.binds.flatMap (patchesOf ps)
  let atab := roundUp (64 + 4 * plots) 8
  let head := roundUp (atab + 8 * pats.length) 64
  let blocks := (List.range plots).map fun i => (blockOf f w h ps ws i).map pad64
  let place := blocks.foldl (fun (r : Nat × List Nat) b => match b with
    | some bs => (r.1 + bs.length, r.2 ++ [r.1])
    | none => (r.1, r.2 ++ [0])) (head, [])
  let desc := bytesOf 4 0x54434553 ++ bytesOf 4 (2 ^ 32 - 64) ++ bytesOf 1 shape ++ [0] ++ bytesOf 2 0 ++ bytesOf 2 pats.length ++ bytesOf 2 0 ++
    bytesOf 4 64 ++ bytesOf 4 0 ++ bytesOf 4 atab ++ List.replicate 36 0
  let body := padTo head (padTo atab (desc ++ place.2.flatMap (bytesOf 4)) ++ pats.flatMap (bytesOf 8)) ++ blocks.flatMap fun b => b.getD []
  let kernel := bytesOf 4 0x4B4D594E ++ bytesOf 2 1 ++ bytesOf 2 0 ++ [3] ++ List.replicate 3 0 ++ bytesOf 4 (64 + body.length) ++
    bytesOf 32 (shake256 body).toNat ++ List.replicate 16 0
  { bytes := kernel ++ body
    tokens := (ws.filter fun x => !x.edge.tokens.isEmpty).map fun x => (x.di, x.ds * 4 + x.dc, x.edge.tokens) }

/-- A translated slot breaks no rule (R96). -/
def slotsLegal (f : Function) (p : Placed) : Bool :=
  let fan := BitVec.ofNat 4 (bitsOf (fieldAt ((f.actors[p.part.actor]?.map (·.init)).getD []) 0 4) 11 8)
  p.part.slots.all fun v => match decodeSlot p.kind false fan (BitVec.ofNat 64 (slotWordOf p.kind p.part v)) with
    | .ok _ => true
    | .error _ => false

/-- The translation of a function for a parcel of a shape (R97). A BUFFER failure names the source of the first edge, in the order of the table, that does not
fit (log 27). -/
def translate (f : Function) (shape : Nat) : Except XBad Translated :=
  let w := 2 ^ bitsOf shape 2 0
  let h := 2 ^ bitsOf shape 6 4
  match balance f with
  | .error e => .error e
  | .ok q => match buffers f q with
    | .error e => .error e
    | .ok bufs => match allOk (f.actors.mapIdx splitActor) with
      | .error e => .error e
      | .ok parts => match placeParts (w * h) f parts.flatten [] with
        | .error e => .error e
        | .ok ps =>
          if !ps.all (slotsLegal f) then .error .illegal
          else match allSome (f.edges.map (wireOf f ps)) with
            | none => .error .illegal
            | some ws => match (ws.zip bufs).find? fun x => decide (x.1.room < x.2) with
              | some x => .error (.fail 3 2 x.1.edge.src)
              | none => .ok (emit f shape w h ps ws)

end Sys2Proof.Machine
end

