-- ==== Sys2Proof/Machine/Jerix.lean ====
section
/-!
DEFINITION. The silo, the code heap and their steps JERIX_LOOKUP, TRANSLATION_COMPLETE and SILO_PURGE (spec 05 R97 to R103).
-/

namespace Sys2Proof.Machine

/-! ### What the Reeve fixes (R99, R101; log 27) -/

/-- Version of the translator; the Jerix format that it supports, 1, is in [15:0]. -/
def transVersion : Nat := 65536 * Config.translatorHigh.toNat + 1
/-- Capacity of the silo in bytes: 32 GiB, which a bare die has none of (00 R2; log 1). -/
def siloBytes : Nat := if Config.form = .die then 0 else 32768 * 2 ^ 20
/-- Place and size of the code heap, which lies in HBM. -/
def heapBase : Nat := 64 * (Config.heapPlace % 2 ^ 33)
def heapSize : Nat := Config.heapBytes % (2 ^ 39 - heapBase + 1)

/-! ### Keys (R99) -/

/-- What a Jerix node names: its function entry, the kernel around it, and that kernel from its Jerix header on. -/
structure Named where
  kernel : Kernel
  entry : List Byte
  body : List Byte

/-- The function entry of a node in its Jerix kernel; none where a rule is broken (R46, R47, R92 to R95). -/
def namedFunction (s : State) (ctx addr : Nat) : Option Named :=
  match readImage s ctx false addr 32 with
  | .error _ => none
  | .ok e => match kernelAt s ctx false (offsetAddr addr (fieldAt e 4 4)) with
    | none => none
    | some k =>
      if bitOf k.flags 1 && within k addr 32 && kernelGood s ctx false k then
        (match readImage s ctx false (k.addr + 64) (k.len - 64) with
        | .error _ => none
        | .ok body => if (readFunction body (addr - (k.addr + 64)) e).isSome then some ⟨k, e, body⟩ else none)
      else none

/-- key := SHAKE256(HASH || TVER || STEP || SHAPE || FIRST). -/
def siloKey (x : Named) (shape : Nat) : BitVec 256 :=
  shake256 (bytesOf 32 x.kernel.hash ++ bytesOf 4 transVersion ++ bytesOf 2 Config.stepping.toNat ++ bytesOf 1 shape ++ bytesOf 2 (fieldAt x.entry 8 2))

/-! ### The code heap (R102, R103) -/

/-- An image is pinned while any parcel is placed from it; a saved section is not placed (07 R122). -/
def heapPinned (s : State) (e : HeapEnt) : Bool := s.parcels.any fun p => p.2.phys && p.2.desc == e.addr + 64 && p.2.stage != .saved

/-- Free space of n bytes, from the lowest address. -/
def heapFree (s : State) (n : Nat) : Option Nat :=
  let fits (a : Nat) : Bool := decide (a + n ≤ heapBase + heapSize) && !s.drill.heap.any fun e => overlaps a n e.addr e.len
  (heapBase :: s.drill.heap.map fun e => roundUp (e.addr + e.len) 64).foldl (fun r a =>
    if fits a then (match r with
      | some b => some (min a b)
      | none => some a) else r) none

/-- The image to evict: that of the oldest last dispatch among those not pinned. -/
def heapVictim (s : State) : Option HeapEnt := firstMin (fun (e : HeapEnt) => e.last) (s.drill.heap.filter fun e => !heapPinned s e)

/-- Nodes of the granary that were given an image go back to its stub, those of saved sections among them. -/
def forgetImage (s : State) (image : Nat) : State :=
  modDrill s fun d => { d with launches := d.launches.map fun x =>
    (x.1, { x.2 with nodes := x.2.nodes.map fun n =>
      (n.1, if n.2.phase = .granary ∧ n.2.image = some image then { n.2 with image := none } else n.2) }) }

def evictImage (s : State) (e : HeapEnt) : State :=
  forgetImage (modDrill s fun d => { d with heap := d.heap.filter fun x => x.key != e.key }) (e.addr + 64)

/-- CODE_HEAP_COMMIT: the image is written whole, and its directory entry is stored; none where it does not fit. Fuel bounds the evictions. -/
def commitImage : Nat → State → BitVec 256 → List Byte → List (Nat × Nat × List Token) → State × Option Nat
  | 0, s, _, _, _ => (s, none)
  | fuel + 1, s, key, bs, toks =>
    match heapFree s bs.length with
    | some a =>
      let e : HeapEnt := { key := key, addr := a, len := bs.length, last := now s, tokens := toks }
      (modDrill (reportRange (memWrite s a bs) a bs.length srcReeve) fun d => { d with heap := d.heap ++ [e] }, some (a + 64))
    | none => match heapVictim s with
      | some e => commitImage fuel (evictImage s e) key bs toks
      | none => (s, none)

def commit (s : State) (key : BitVec 256) (bs : List Byte) (toks : List (Nat × Nat × List Token)) : State × Option Nat :=
  commitImage (s.drill.heap.length + 1) s key bs toks

/-! ### The silo (R99, R100) -/

/-- The bytes of initial tokens: their plot index, input and number, and then each with its tag. -/
def tokenBytes (ts : List (Nat × Nat × List Token)) : List Byte :=
  ts.flatMap fun x => bytesOf 2 x.1 ++ bytesOf 1 x.2.1 ++ bytesOf 2 x.2.2.length ++ x.2.2.flatMap fun t => bytesOf 64 t.val.toNat ++ [(Enc.tag t.tag).setWidth 8]

/-- The bytes of an entry before its trailer. -/
def entryBytes (bs : List Byte) (toks : List (Nat × Nat × List Token)) : List Byte := bs ++ tokenBytes toks

/-- The trailer of an entry is valid: it holds the entry's key, and the CRC-64 over the entry. -/
def SiloEnt.good (e : SiloEnt) : Bool := e.trailKey == e.key && e.trailCrc == crc64 (entryBytes e.image e.tokens)

/-- Bytes of an entry with its trailer of key and CRC. -/
def siloLen (bs : List Byte) (toks : List (Nat × Nat × List Token)) : Nat := (entryBytes bs toks).length + 40

/-- V = floor(A / (h + 1)) − floor(E / 256), with the age A of the last hit in nanoseconds. -/
def siloValue (s : State) (e : SiloEnt) : Int :=
  ((((timestamp s : Int) - e.last).toNat / (1000000000 * (e.hits + 1)) : Nat) : Int) - (Tbl.findD s.drill.erased e.block 0 / 256 : Nat)

/-- The first entry is evicted before the second. -/
def siloBefore (s : State) (a b : SiloEnt) : Bool :=
  let ea := Tbl.findD s.drill.erased a.block 0
  let eb := Tbl.findD s.drill.erased b.block 0
  decide (siloValue s b < siloValue s a) || (siloValue s a == siloValue s b && (decide (ea < eb) || (ea == eb && decide (a.block < b.block))))

def siloVictim (s : State) : Option SiloEnt :=
  s.drill.silo.foldl (fun r e => match r with
    | some v => if siloBefore s e v then some e else some v
    | none => some e) none

/-- An entry leaves the silo, and its block is erased. -/
def dropEntry (s : State) (block : Nat) : State :=
  modDrill s fun d => { d with silo := d.silo.filter fun e => e.block != block, erased := Tbl.put d.erased block (Tbl.findD d.erased block 0 + 1) }

/-- An entry is written to the lowest free block, after as many evictions as it takes; fuel bounds them. -/
def siloInsert : Nat → State → BitVec 256 → List Byte → List (Nat × Nat × List Token) → State
  | 0, s, _, _, _ => s
  | fuel + 1, s, key, bs, toks =>
    let used := s.drill.silo.foldl (fun n e => n + siloLen e.image e.tokens) 0
    if siloBytes < used + siloLen bs toks then
      (match siloVictim s with
      | some e => siloInsert fuel (dropEntry s e.block) key bs toks
      | none => s)
    else
      let block := ((List.range (s.drill.silo.length + 1)).find? fun b => !s.drill.silo.any fun e => e.block == b).getD 0
      modDrill s fun d => { d with silo := d.silo ++
        [{ key := key, image := bs, tokens := toks, hits := 0, last := timestamp s, block := block, trailKey := key
           trailCrc := crc64 (entryBytes bs toks) }] }

/-- A hit: counted in the entry and in SHIT. -/
def siloHit (s : State) (e : SiloEnt) : State :=
  modDrill s fun d => { d with hits := d.hits + 1, silo := d.silo.map fun x =>
    if x.block = e.block then { x with hits := min (x.hits + 1) 65535, last := timestamp s } else x }

/-! ### JERIX_LOOKUP (R97, R102) -/

/-- A SECTION node of the granary that names a function, and whose lookup is still to be made. -/
def needsLookup (s : State) (x : Nat × Nat × NodeSt) : Bool :=
  isSection x.2.2 && x.2.2.image.isNone && x.2.2.xlate.isNone && ctxOn s (getLaunch s x.1).ctx &&
  shapeLegal (nodeShape x.2.2) && isFunction s (getLaunch s x.1).ctx x.2.2

/-- What a lookup finds. -/
inductive Lookup
  | broken
  | heap (e : HeapEnt)
  | joins (id : Nat)
  | silo (k : Kernel) (e : SiloEnt)
  | starts (f : Named) (key : BitVec 256)
  | waits

/-- The heap directory, then a translation of the same key, then the silo, then a translation, of which four run at once. -/
def lookupNode (s : State) (l : Nat) (x : NodeSt) : Lookup :=
  match namedFunction s (getLaunch s l).ctx (fieldAt x.raw 0x10 8) with
  | none => .broken
  | some f =>
    let key := siloKey f (nodeShape x)
    match s.drill.heap.find? fun e => e.key == key with
    | some e => .heap e
    | none => match s.drill.xlates.find? fun t => t.key == key with
      | some t => .joins t.id
      | none => match s.drill.silo.find? fun e => e.key == key && e.good with
        | some e => .silo f.kernel e
        | none => if s.drill.xlates.length < 4 then .starts f key else .waits

/-- A silo entry of a key whose CRC fails is discarded. -/
def discardBad (s : State) (key : BitVec 256) : State := (s.drill.silo.filter fun e => e.key == key && !e.good).foldl (fun s e => dropEntry s e.block) s

/-- A node that waits for its image fails; a saved section is given up with it. -/
def failLookup (s : State) (l n st sub : Nat) (info : Word) : State :=
  match getGNode s l n with
  | some x => arriveNode (x.parcel.elim s (dropSaved s)) l n st sub info (savedFlags s x)
  | none => s

/-- The lookup of a node. -/
def lookupStep (s : State) (l n : Nat) (x : NodeSt) : State :=
  let ctx := (getLaunch s l).ctx
  match lookupNode s l x with
  | .broken => failLookup s l n 5 0 0
  | .heap e => modGNode s l n fun y => { y with image := some (e.addr + 64) }
  | .joins id => modGNode s l n fun y => { y with xlate := some id }
  | .silo k e =>
    (match commit (siloHit (bringKernel s ctx false k) e) e.key e.image e.tokens with
    | (s, some a) => modGNode s l n fun y => { y with image := some a }
    | (s, none) => failLookup s l n 6 0 0)
  | .starts f key =>
    let s := modDrill (discardBad (bringKernel s ctx false f.kernel) key) fun d => { d with misses := d.misses + 1 }
    let id := freshId s
    let t : Xlate := { id := id, key := key, ctx := ctx, fun_ := fieldAt x.raw 0x10 8, shape := nodeShape x, entry := f.entry
                       at_ := fieldAt x.raw 0x10 8 - (f.kernel.addr + 64), body := f.body }
    modGNode (bumpId (modDrill s fun d => { d with xlates := d.xlates ++ [t] })) l n fun y => { y with xlate := some id }
  | .waits => s

/-- The lookup that the drill makes next: that of the node that entered the granary first, among those that need not wait. -/
def nextLookup (s : State) : Option (Nat × Nat × NodeSt) :=
  (sortKey byOrder ((nodesIn s .granary).filter (needsLookup s))).find? fun x => match lookupNode s x.1 x.2.2 with
    | .waits => false
    | _ => true

/-- JERIX_LOOKUP. -/
def execJerixLookup (launch node : Nat) (s : State) : Out :=
  .next (match nextLookup s with
    | some (l, n, x) => if l = launch ∧ n = node then lookupStep s l n x else s
    | none => s)

/-! ### TRANSLATION_COMPLETE (R97, R98) -/

/-- The nodes that wait for a translation. -/
def xlateNodes (s : State) (id : Nat) : List (Nat × Nat × NodeSt) := (nodesIn s .granary).filter fun x => x.2.2.xlate == some id

/-- The translation of what a request has read; none where a rule of R92 to R96 is broken. -/
def runTranslation (t : Xlate) : Except XBad Translated :=
  match readFunction t.body t.at_ t.entry with
  | none => .error .illegal
  | some g => translate g t.shape

/-- A translation ends: its nodes fail, or its image enters the silo and the heap. -/
def endTranslation (s : State) (t : Xlate) : State :=
  let ns := xlateNodes s t.id
  let s := modDrill s fun d => { d with xlates := d.xlates.filter fun u => u.id != t.id }
  let failAll (s : State) (st sub : Nat) (info : Word) : State := ns.foldl (fun s x => failLookup s x.1 x.2.1 st sub info) s
  match runTranslation t with
  | .error .illegal => failAll s 5 0 0
  | .error (.fail sub detail actor) => failAll s 7 sub (BitVec.ofNat 64 (detail * 65536 + actor))
  | .ok r =>
    match commit (siloInsert (s.drill.silo.length + 1) s t.key r.bytes r.tokens) t.key r.bytes r.tokens with
    | (s, some a) => ns.foldl (fun s x => modGNode s x.1 x.2.1 fun y => { y with xlate := none, image := some a }) s
    | (s, none) => failAll s 6 0 0

/-- TRANSLATION_COMPLETE. -/
def execTranslationComplete (xlate : Nat) (s : State) : Out :=
  .next (match s.drill.xlates.find? fun t => t.id == xlate with
    | some t => endTranslation s t
    | none => s)

/-- SILO_PURGE (R101): PURGE is written; every entry is invalid at one instant, and the code heap stays. -/
def execSiloPurge (s : State) : Out := .next (modDrill ((s.drill.silo.map (·.block)).foldl dropEntry s) fun d => { d with purging := false })

end Sys2Proof.Machine
end

