-- ==== Sys2Proof/Machine/Windows.lean ====
section
/-!
DEFINITION. Reduction windows (spec 16 R297 to R300): WINDOW_CONTRIBUTION, WINDOW_ROUND_END and WINDOW_TIMEOUT. The home-side switch of a window
is held with the window itself.
-/

namespace Sys2Proof.Machine

def getWindow (s : State) (ctx n : Nat) : Window := Tbl.findD (getCtx s ctx).wins n {}
def modWindow (s : State) (ctx n : Nat) (f : Window → Window) : State :=
  modCtx s ctx fun c => { c with wins := Tbl.put c.wins n (f (Tbl.findD c.wins n {})) }

/-- A contribution of this package is acknowledged with a payload (R299, R300), and with the flags raised at the home (R289). -/
def ackContribution (payload : Nat) (f : Flags) (s : State) (c : Contribution) : State :=
  if c.req = 0 then s else setPerformed s c.req (BitVec.ofNat 512 payload) f

/-- The contribution that a request of this package makes. -/
def ownContribution (s : State) (q : Req) (n off : Nat) : Contribution :=
  let w := getWindow s q.ctx n
  { ctx := q.ctx, win := n, off := off, rank := bitsOf w.wrank.toNat 11 0
    op := (match q.op with
      | .red o _ => o
      | _ => .add)
    size := if q.size = 4 then .b4 else .b8
    fcs := (match q.op with
      | .red _ f => f
      | _ => ⟨false, false, false⟩)
    fast := w.wctl.getLsbD 1, count := bitsOf w.wcnt.toNat 12 0, home := bitsOf w.wctl.toNat 13 2, value := q.data.toWord, req := q.id }

/-- Two contributions of one round agree in what the first fixes (R298). -/
def sameRound (a b : Contribution) : Bool :=
  a.op == b.op && a.size == b.size && a.fcs == b.fcs && a.fast == b.fast && a.count == b.count && a.home == b.home

/-- Latch an error: WEOFF keeps the first one's offset. -/
def latchError (bit : BitVec 32) (off : Nat) (w : Window) : Window :=
  { w with wstat := w.wstat ||| bit, weoff := if w.wstat = 0 then BitVec.ofNat 64 off else w.weoff }

/-- An error of a round is latched at the round's home package (R297). -/
def latchHome (r : Round) (bit : BitVec 32) (w : Window) : Window := if r.first.home = Config.packageNumber then latchError bit r.off w else w

/-- A round whose count of contributions has arrived: it takes no more (R299). -/
def roundFull (r : Round) : Bool := decide (r.first.count ≤ r.all.length)

def dropRound (r : Round) (w : Window) : Window := { w with rounds := w.rounds.erase r }

/-- A contribution arrives at the home-side switch (R298): it opens a round, joins it, or discards it with an error. -/
def arriveContribution (s : State) (c : Contribution) : State :=
  let w := getWindow s c.ctx c.win
  match w.rounds.find? fun r => r.off == c.off && !roundFull r with
  | none => modWindow s c.ctx c.win fun w => { w with rounds := w.rounds ++ [{ off := c.off, since := now s, first := c, all := [c] }] }
  | some r =>
    let wrong := !sameRound r.first c
    let twice := r.all.any fun x => x.rank == c.rank
    if wrong || twice then
      let s := (r.all ++ [c]).foldl (ackContribution 2 0) s
      modWindow s c.ctx c.win fun w => latchHome r ((if wrong then 1 else 0) ||| (if twice then 2 else 0)) (dropRound r w)
    else modWindow s c.ctx c.win fun w => { w with rounds := mapIf (fun x => x == r) (fun x => { x with all := x.all ++ [c] }) w.rounds }

/-- WINDOW_CONTRIBUTION: of a request of this package as it leaves, or of another package's as it arrives. -/
def contribute (s : State) (c : Contribution) : State :=
  if c.req = 0 then arriveContribution s c
  else match findReq s c.req with
    | some q => (match q.phase with
      | .contributing n off =>
        if (getWindow s q.ctx n).rounds.any (fun r => r.all.any fun x => x.req == q.id) then s
        else arriveContribution s (ownContribution s q n off)
      | _ => s)
    | none => s
def execWindowContribution (c : Contribution) (s : State) : Out := .next (contribute s c)

/-- Contributions in ascending rank. -/
def insertRank (c : Contribution) : List Contribution → List Contribution
  | [] => [c]
  | x :: xs => if c.rank < x.rank then c :: x :: xs else x :: insertRank c xs

/-- The merged value m (R299): in ascending rank, or in fast mode in any association. -/
def mergedValue (ctr : Nat) (r : Round) : Nat :=
  let w := if r.first.size = .b4 then 4 else 8
  let xs := (r.all.foldl (fun l c => insertRank c l) []).map fun c => c.value.toNat % 2 ^ (8 * w)
  collSum r.first.op r.first.fcs w r.first.fast ctr xs

/-- The home of a round's element: in this package, or in another (log 14). -/
def roundHome (s : State) (w : Window) (r : Round) : Home :=
  let pa := bitsOf w.whpa.toNat 51 0 + r.off
  if r.first.home = Config.packageNumber then homeOf s pa else .remote r.first.home pa

/-- Bytes of a round's element. -/
def roundBytes (r : Round) : Nat := if r.first.size = .b4 then 4 else 8

/-- The home cannot perform a round, its line being uncorrectable (19 R330) or sealed (17 R309): each contribution of this package is held as an atomic there
is, and the round is over (log 32). -/
def faultRound (s : State) (cls : FaultClass) (sub pa : Nat) (r : Round) : State :=
  r.all.foldl (fun s c => match findReq s c.req with
    | some q => faultReq s (q.metAt pa) cls sub 0 none
    | none => s) s

/-- Why the home of a round's element cannot perform it. -/
def roundBad (s : State) (h : Home) (pa n : Nat) : Option (FaultClass × Nat) :=
  match h with
  | .hbm _ | .tier _ | .host _ =>
    if sealedPa s pa n then some (.sealed, 0) else (poisonAt s h pa n).map fun sub => (.memerr, sub)
  | .remote .. | .window .. | .absent => none

/-- WINDOW_ROUND_END (R299): with the count complete the home performs home := home ⊕ m, and every contributor is acknowledged. -/
def endRound (s : State) (ctx win off : Nat) : State :=
  let w := getWindow s ctx win
  match w.rounds.find? fun r => r.off == off && roundFull r with
  | none => s
  | some r =>
    let h := roundHome s w r
    let pa := bitsOf w.whpa.toNat 51 0 + off
    match roundBad s h pa (roundBytes r) with
    | some (cls, sub) => faultRound (modWindow s ctx win (dropRound r)) cls sub pa r
    | none =>
      let m := mergedValue s.sched.freeCtr r
      let (s, old) := homeRead (modSched s fun c => { c with freeCtr := c.freeCtr + 1 }) h (roundBytes r)
      let (v, f) := atomValue r.first.op r.first.fcs (8 * roundBytes r) (ofBytes old) m
      let s := homeWrite s h (bytesOf (roundBytes r) v) (srcRemote Config.packageNumber) 0 0xFF
      modWindow (r.all.foldl (ackContribution 0 f) s) ctx win (dropRound r)
def execWindowRoundEnd (ctx win off : Nat) (s : State) : Out := .next (endRound s ctx win off)

/-- The contributors of a round, a bit for each of ranks 0 to 63 (20 R341; log 51). -/
def roundRanks (r : Round) : Word := r.all.foldl (fun m c => if c.rank < 64 then m ||| 1 <<< c.rank else m) 0

/-- The section that a request's element belongs to reports a window timeout, and its completion names the contributors (20 R339, R341). -/
def noteWindow (r : Round) (s : State) (c : Contribution) : State :=
  match findReq s c.req with
  | some q => (match (getPlot s q.issuer.plot).parcel with
    | some n =>
      let s := modParcel s n fun p => { p with timedOut := some (p.timedOut.getD (roundRanks r)) }
      raiseFault s { cls := .timeout, sub := 1, plot := q.issuer.plot, site := q.issuer.site, info0 := BitVec.ofNat 64 r.off, report := true }
    | none => s)
  | none => s

/-- WINDOW_TIMEOUT (R300): WTMO µs after the first contribution the round is discarded, and its contributors read payload 1. -/
def timeoutRound (s : State) (ctx win off : Nat) : State :=
  let w := getWindow s ctx win
  match w.rounds.find? fun r => r.off == off && !roundFull r with
  | none => s
  | some r =>
    if w.wtmo = 0 ∨ now s < r.since + cyclesOfNs (1000 * w.wtmo.toNat) then s
    else
      let s := r.all.foldl (ackContribution 1 0) s
      let s := r.all.foldl (noteWindow r) s
      modWindow s ctx win fun w => latchHome r 4 (dropRound r w)
def execWindowTimeout (ctx win off : Nat) (s : State) : Out := .next (timeoutRound s ctx win off)

end Sys2Proof.Machine
end

