-- ==== Sys2Proof/Machine/Registers.lean ====
section
/-!
DEFINITION. The functions' registers in BAR0 (spec 20 R346 to R354, 05 R101, 06 R104, R105, 16 R297, 18 R328): what a host read of each returns, and the
steps REGISTER_WRITE, HOST_REPLY, FIRMWARE_UPDATE, FIRMWARE_SWITCH and ATTESTATION_REQUEST.
-/

namespace Sys2Proof.Machine

/-! ### Register maps -/

/-- A register as a host read sees it: its offset in its block, its bytes, whether a read must match it exactly (W1C, R347), and its value. -/
structure Reg where
  off : Nat
  bytes : Nat
  exact : Bool := false
  val : Nat
  deriving DecidableEq, Repr

/-- What a read of w bytes at an offset of a block returns (R347). -/
def readReg (rs : List Reg) (o w : Nat) : Nat :=
  match rs.find? fun r => decide (r.off ≤ o) && decide (o + w ≤ r.off + r.bytes) with
  | some r => if r.exact && !(r.off == o && r.bytes == w) then 0 else r.val
  | none => 0

/-- Launches of a queue that are not complete. -/
def inFlight (s : State) (q : Nat) : Nat := s.drill.launches.countP fun x => x.2.queue == q && x.2.parent.isNone

/-- A queue page (06 R105). -/
def queueRegs (s : State) (q : Nat) : List Reg :=
  let x := getQueue s q
  [{ off := 0x80, bytes := 4, val := x.qcfg.toNat },
   { off := 0x84, bytes := 4, val := if !queueOn x || x.reset != 0 then 0 else 256 - x.recs.length },
   { off := 0x88, bytes := 4, exact := true, val := x.qstat.toNat },
   { off := 0x8C, bytes := 4, val := x.reset % 4 + (if x.hold then 4 else 0) },
   { off := 0x90, bytes := 4, val := x.qirq.toNat },
   { off := 0x94, bytes := 4, val := inFlight s q },
   { off := 0x98, bytes := 8, val := x.accept % 2 ^ 64 }]

/-- BRKEN reads 0 while LOCK = 1 (R354). -/
def ccfgSeen (s : State) (c : Ctx) : Nat := if s.reeve.lock then bitsOf c.ccfg.toNat 6 0 else c.ccfg.toNat

/-- A context's registers (R348). -/
def ctxRegs (s : State) (n : Nat) : List Reg :=
  let c := getCtx s n
  [{ off := 0, bytes := 8, val := c.troot.toNat }, { off := 8, bytes := 4, val := ccfgSeen s c }, { off := 0x10, bytes := 8, val := c.csvb.toNat },
   { off := 0x18, bytes := 4, val := c.csvn.toNat }, { off := 0x1C, bytes := 4, val := bitsOf c.csvn.toNat 7 0 - c.saveUsed.length }]

/-- A window's registers (16 R297). -/
def windowRegs (s : State) (ctx n : Nat) : List Reg :=
  let w := windowOf s ctx n
  [{ off := 0, bytes := 8, val := w.whpa.toNat }, { off := 8, bytes := 8, val := w.wlen.toNat }, { off := 0x10, bytes := 4, val := w.wctl.toNat },
   { off := 0x14, bytes := 4, val := w.wcnt.toNat }, { off := 0x18, bytes := 4, val := w.wrank.toNat }, { off := 0x1C, bytes := 4, val := w.wtmo.toNat },
   { off := 0x20, bytes := 4, exact := true, val := w.wstat.toNat }, { off := 0x28, bytes := 8, val := w.weoff.toNat }]

/-- A die's mailbox (18 R328). -/
def mailRegs (s : State) (die : Nat) : List Reg :=
  let d := getDie s die
  [{ off := 0, bytes := 8, val := d.hmsg.toNat }, { off := 8, bytes := 4, val := d.hfn % 64 + d.hvec % 2048 * 64 + (if d.hpend then 2 ^ 31 else 0) },
   { off := 0x10, bytes := 8, val := d.hreply.toNat }]

/-- Dies with every FID open: FIDFULL of RSTAT. -/
def fidFull (s : State) : Nat := (List.range 4).foldl (fun m d => if 65536 ≤ (openFids s d).length then m + 2 ^ (4 + d) else m) 0

/-- The Reeve's registers (R354). Ready reads 0 at reset and 1 from the first cycle on; FWCTL and ATCTL read 0, the GO that started an update or a report
too, for which the manual gives no value (log 28). -/
def reeveRegs (s : State) : List Reg :=
  let r := s.reeve
  [{ off := 0, bytes := 4, val := (if now s = 0 then 0 else 1) + r.bank % 2 * 2 + (if r.tripped then 4 else 0) + fidFull s }, { off := 8, bytes := 16, val := r.power },
   { off := 0x18, bytes := 4, val := r.temp % 65536 }, { off := 0x1C, bytes := 4, val := r.pcap.toNat },
   { off := 0x20, bytes := 4, val := if r.lock then 1 else 0 }, { off := 0x28, bytes := 8, val := r.fwaddr.toNat }, { off := 0x30, bytes := 4, val := 0 },
   { off := 0x34, bytes := 4, val := r.fwstat }, { off := 0x38, bytes := 8, val := r.ataddr.toNat }, { off := 0x40, bytes := 32, val := r.nonce.toNat },
   { off := 0x60, bytes := 4, val := 0 }, { off := 0x64, bytes := 4, val := r.atstat }, { off := 0x68, bytes := 4, val := r.mlog.length }]

/-- The word of a DVL port (R352). -/
def portWord (p : DvlPort) : Nat := (if p.up then 1 else 0) + p.lanes % 4 * 2 + (if p.spare then 8 else 0) + p.peer % 4096 * 16

/-- The errata entries (04 R86): all of generation 2, with reproducible. -/
def errataWords : List Nat := [0x10201, 0x10202, 0x10203, 0x10204, 0x10205, 0x0206, 0x0207]

/-- The code of the part's form (R350). -/
def formCode : Config.Form → Nat
  | .die => 0
  | .package => 1
  | .module => 2

/-- The capability records (R349, R350, 05 R101): ID, place in BAR0, and body. The places are the model's (log 10). -/
def capList (s : State) (fn : Nat) : List (Nat × Nat × List Reg) :=
  [(0x0001, 0x100, [{ off := 8, bytes := 4, val := Config.stepping.toNat + formCode Config.form * 2 ^ 16 }, { off := 0x10, bytes := 8, val := Config.serial.toNat }]),
   (0x0002, 0x120, [{ off := 8, bytes := 4, val := 3 }]),
   (0x0003, 0x130, [{ off := 8, bytes := 4, val := 3 }]),
   (0x0004, 0x140, { off := 8, bytes := 4, val := 7 } :: errataWords.mapIdx fun i w => { off := 0x10 + 4 * i, bytes := 4, val := w })] ++
  (if fn = 0 then
    [(0x0011, 0x180,
      [{ off := 8, bytes := 4, val := transVersion }, { off := 0xC, bytes := 4, val := siloBytes / 2 ^ 20 }, { off := 0x10, bytes := 8, val := heapBase },
       { off := 0x18, bytes := 8, val := heapSize }, { off := 0x20, bytes := 4, val := if s.drill.purging then 1 else 0 },
       { off := 0x24, bytes := 4, val := s.drill.silo.length }, { off := 0x28, bytes := 8, val := s.drill.hits }, { off := 0x30, bytes := 8, val := s.drill.misses }])]
    else []) ++
  [(0x0020, 0x1C0, [{ off := 8, bytes := 4, val := 512 }, { off := 0xC, bytes := 4, val := 0x00080808 }, { off := 0x10, bytes := 4, val := 0x2040 }]),
   (0x0021, 0x1E0, [{ off := 8, bytes := 4, val := if Config.secondTier then 3 else 1 }, { off := 0x10, bytes := 8, val := if Config.secondTier then 2 ^ 40 else 0 }]),
   (0x0030, 0x200, { off := 8, bytes := 4, val := 12 } :: s.reeve.ports.mapIdx fun i p => { off := 0x10 + 4 * i, bytes := 4, val := portWord p }),
   (0x0031, 0x250, [{ off := 8, bytes := 4, val := 8 + 4096 * 2 ^ 16 }])]

/-- A capability list as registers at offsets in BAR0: each record's header with the place of the next, and its body. -/
def capRegs : List (Nat × Nat × List Reg) → List Reg
  | [] => []
  | (id, at_, body) :: rest =>
    { off := at_, bytes := 8, val := id + 0x10000 + (rest.head?.map (·.2.1)).getD 0 * 2 ^ 32 } ::
    (body.map fun r => { r with off := at_ + r.off }) ++ capRegs rest

/-! ### Reading (R346, R347) -/

/-- A host read of w bytes at an offset of a function's BAR0. -/
def registerRead (s : State) (fn o w : Nat) : Nat :=
  if o < 0x100 then readReg [{ off := 0, bytes := 4, val := 0x100 }] o w
  else if o < 0x10000 then readReg (capRegs (capList s fn)) o w
  else if 0x100000 ≤ o ∧ o < 0x140000 then
    (if pageSeen s fn ((o - 0x100000) / 0x1000) then readReg (queueRegs s ((o - 0x100000) / 0x1000)) (o % 0x1000) w else 0)
  else if fn ≠ 0 then 0
  else if o < 0x14000 then readReg (ctxRegs s ((o - 0x10000) / 0x100)) (o % 0x100) w
  else if 0x200000 ≤ o ∧ o < 0x210000 then
    (if o % 0x400 < 0x200 then readReg (windowRegs s ((o - 0x200000) / 0x400) (o % 0x400 / 0x40)) (o % 0x40) w else 0)
  else if 0x300000 ≤ o ∧ o < 0x300100 then readReg (mailRegs s ((o - 0x300000) / 0x40)) (o % 0x40) w
  else if 0x400000 ≤ o ∧ o < 0x400100 then readReg (reeveRegs s) (o % 0x100) w
  else 0

/-! ### HOST_REPLY (18 R328) -/

/-- HREPLY is written: the reply of a pending `irq`, or only latched. -/
def writeReply (s : State) (die : Nat) (v : Word) : State :=
  let d := getDie s die
  let s' := modDie s die fun d => { d with hreply := v, hpend := false }
  if d.hpend then postResult s' d.hrid { val := v.setWidth 512 } else s'

/-- HOST_REPLY. -/
def execHostReply (die : Nat) (v : Word) (s : State) : Out := .next (if die < 4 then writeReply s die v else s)

/-! ### Firmware (19 R335, 20 R355) -/

/-- Firmware components, each of which switches at an idle point of its own (log 10). -/
def firmwareParts : Nat := 3

/-- FWCTL GO: the image is written to the inactive bank and verified; one that fails changes nothing else. -/
def startUpdate (s : State) : State :=
  if s.reeve.fwstat = 1 then s
  else
    let ok := Config.firmwareVerifies s.reeve.fwaddr.toNat s.sched.freeCtr
    let s := modSched s fun c => { c with freeCtr := c.freeCtr + 1 }
    { s with reeve := if ok then { s.reeve with staged := true, toSwitch := firmwareParts, fwstat := 1 } else { s.reeve with fwstat := 3 } }

/-- FIRMWARE_UPDATE. -/
def execFirmwareUpdate (s : State) : Out := .next (startUpdate s)

/-- A hash is measured into the attestation log (20 R356). -/
def measure (s : State) : State :=
  { modSched s (fun c => { c with freeCtr := c.freeCtr + 1 }) with
    reeve := { s.reeve with mlog := s.reeve.mlog ++ [Config.measuredHash s.sched.freeCtr] } }

/-- A component switches to the staged bank; with the last one the bank is active. -/
def switchPart (s : State) : State :=
  if !s.reeve.staged then s
  else if 1 < s.reeve.toSwitch then { s with reeve := { s.reeve with toSwitch := s.reeve.toSwitch - 1 } }
  else measure { s with reeve := { s.reeve with staged := false, toSwitch := 0, bank := 1 - s.reeve.bank % 2, fwstat := 2 } }

/-- FIRMWARE_SWITCH. -/
def execFirmwareSwitch (s : State) : Out := .next (switchPart s)

/-! ### Attestation (20 R356, R357) -/

/-- The measurement log that a report holds: as it was at the GO that asks for it. -/
def reportLog (s : State) : List (BitVec 256) := if s.reeve.atstat = 1 then s.reeve.snap else s.reeve.mlog

/-- The entries of a log as bytes. -/
def logBytes (hs : List (BitVec 256)) : List Byte := hs.flatMap fun h => bytesOf 32 h.toNat

/-- Bytes [0x7F:0] of a report; the nonce is that of the write (log 28). -/
def reportHead (s : State) (n : Nat) : List Byte :=
  let r := s.reeve
  bytesOf 4 0x5441594E ++ bytesOf 2 1 ++ bytesOf 2 Config.stepping.toNat ++ bytesOf 8 Config.serial.toNat ++ bytesOf 8 n ++ bytesOf 8 (timestamp s) ++
    bytesOf 32 r.nonce.toNat ++ bytesOf 4 (reportLog s).length ++ List.replicate 28 0 ++
    bytesOf 32 (shake256 (logBytes (reportLog s))).toNat

/-- A report: head, signature, certificate, and the log. -/
def reportBytes (s : State) (n : Nat) : List Byte :=
  reportHead s n ++ (List.range (9893 + Config.certificateLength)).map (Config.attestByte n) ++ logBytes (reportLog s)

/-- The physical address of a host address (12 R196). -/
def hostPa (a : Nat) : Nat := 2 ^ 51 + a % 2 ^ 48

/-- A report is produced: the index is advanced, and the report is written to host memory; with every index spent none is. -/
def writeReport (s : State) : State :=
  let n := s.reeve.atindex
  if 2 ^ 40 ≤ n then { s with reeve := { s.reeve with atstat := 3 } }
  else
    let t := homeWrite s (.host (hostPa s.reeve.ataddr.toNat)) (reportBytes s n) srcReeve 512 0xFF
    { t with reeve := { t.reeve with atindex := n + 1, atstat := 2 } }

/-- ATCTL GO: ATSTAT reads busy until the report is produced, which holds the log as it is now, and another GO has no effect. -/
def startReport (s : State) : State := if s.reeve.atstat = 1 then s else { s with reeve := { s.reeve with atstat := 1, snap := s.reeve.mlog } }

/-- ATTESTATION_REQUEST: the report that a GO asks for. -/
def execAttestationRequest (s : State) : Out := .next (writeReport s)

/-! ### REGISTER_WRITE (00 R12, 20 R347) -/

/-- A port of a queue page is written: a record of the right size, or MALFORMED (06 R104). -/
def writePort (s : State) (q o w v : Nat) : State :=
  if o = 0 ∧ w = 64 then presentRecord s q (bytesOf 64 v)
  else if o = 0x40 ∧ w = 32 then presentRecord s q (lf3OfLf2 (bytesOf 32 v))
  else latchQstat s q 2

/-- A queue page is written (06 R105). -/
def writeQueue (s : State) (fn q o w v : Nat) : State :=
  if o < 0x60 then writePort s q o w v
  else if w ≠ 4 then s
  else if o = 0x80 then (if fn = 0 then modQueue s q fun x => { x with qcfg := BitVec.ofNat 32 (v % 1024) } else s)
  else if o = 0x88 then modQueue s q fun x => { x with qstat := x.qstat &&& ~~~BitVec.ofNat 32 v }
  else if o = 0x8C then
    modQueue s q fun x => { x with hold := bitOf v 2, reset := match v % 4 with
      | 1 => if x.reset = 0 then 1 else x.reset
      | 2 => 2
      | _ => x.reset }
  else if o = 0x90 then modQueue s q fun x => { x with qirq := BitVec.ofNat 32 v &&& 0x87FF }
  else s

/-- CCFG as a write leaves it (R348): DEFPOL 5 to 7 keeps DEFPOL, and BRKEN = 1 is ignored while LOCK = 1. -/
def newCcfg (lock : Bool) (old v : Nat) : Nat :=
  bitsOf v 3 0 + (if bitsOf v 6 4 ≤ 4 then bitsOf v 6 4 else bitsOf old 6 4) * 16 + (if lock && bitOf v 7 then (if bitOf old 7 then 128 else 0) else if bitOf v 7 then 128 else 0)

/-- A context register is written (R348). A reserved bit that is written 1, which R12 forbids without giving a response, is dropped and reads 0, here as in the
queue and window registers (log 10). -/
def writeCtx (s : State) (n o w v : Nat) : State :=
  let on := ctxOn s n
  if o = 0 ∧ w = 8 then (if on then s else modCtx s n fun c => { c with troot := BitVec.ofNat 64 v &&& 0x000FFFFFFFFF0000 })
  else if o = 8 ∧ w = 4 then modCtx s n fun c => { c with ccfg := BitVec.ofNat 32 (newCcfg s.reeve.lock c.ccfg.toNat v) }
  else if o = 0x10 ∧ w = 8 then (if on then s else modCtx s n fun c => { c with csvb := BitVec.ofNat 64 v })
  else if o = 0x18 ∧ w = 4 then (if on then s else modCtx s n fun c => { c with csvn := BitVec.ofNat 32 (v % 256) })
  else s

/-- A window register is written (16 R297): while EN = 1 only EN and WSTAT are. -/
def writeWindow (s : State) (ctx n o w v : Nat) : State :=
  let set (f : Window → Window) : State := if (windowOf s ctx n).wctl.getLsbD 0 then s else modWindow s ctx n f
  if o = 0 ∧ w = 8 then set fun x => { x with whpa := BitVec.ofNat 64 (v % 2 ^ 52) }
  else if o = 8 ∧ w = 8 then set fun x => { x with wlen := BitVec.ofNat 64 v }
  else if w ≠ 4 then s
  else if o = 0x10 then
    modWindow s ctx n fun x =>
      { x with wctl := if x.wctl.getLsbD 0 then (x.wctl &&& ~~~1) ||| (BitVec.ofNat 32 v &&& 1) else BitVec.ofNat 32 (v % 2 ^ 14) }
  else if o = 0x14 then set fun x => { x with wcnt := BitVec.ofNat 32 (v % 2 ^ 13) }
  else if o = 0x18 then set fun x => { x with wrank := BitVec.ofNat 32 (v % 2 ^ 12) }
  else if o = 0x1C then set fun x => { x with wtmo := BitVec.ofNat 32 v }
  else if o = 0x20 then modWindow s ctx n fun x => { x with wstat := x.wstat &&& ~~~BitVec.ofNat 32 v }
  else s

/-- LOCK is set: BRKEN reads 0 in every context (R354). -/
def lockDebug (s : State) : State :=
  { s with reeve := { s.reeve with lock := true }, ctxs := s.ctxs.map fun c => (c.1, { c.2 with ccfg := c.2.ccfg &&& ~~~128 }) }

/-- A Reeve register is written (R354). -/
def writeReeve (s : State) (o w v : Nat) : State :=
  let set (f : Reeve → Reeve) : State := { s with reeve := f s.reeve }
  if o = 0x1C ∧ w = 4 then set fun r => { r with pcap := BitVec.ofNat 32 v }
  else if o = 0x20 ∧ w = 4 then (if bitOf v 0 then lockDebug s else s)
  else if o = 0x28 ∧ w = 8 then set fun r => { r with fwaddr := BitVec.ofNat 64 v }
  else if o = 0x30 ∧ w = 4 then (if bitOf v 0 then startUpdate s else s)
  else if o = 0x38 ∧ w = 8 then set fun r => { r with ataddr := BitVec.ofNat 64 v }
  else if o = 0x40 ∧ w = 32 then set fun r => { r with nonce := BitVec.ofNat 256 v }
  else if o = 0x60 ∧ w = 4 then (if bitOf v 0 then startReport s else s)
  else s

/-- A host write of w bytes at an offset of a function's BAR0. One that matches no register has no effect. -/
def writeRegister (s : State) (fn o w v : Nat) : State :=
  if 0x100000 ≤ o ∧ o < 0x140000 then
    (if pageSeen s fn ((o - 0x100000) / 0x1000) then writeQueue s fn ((o - 0x100000) / 0x1000) (o % 0x1000) w v else s)
  else if fn ≠ 0 then s
  else if o = 0x1A0 ∧ w = 4 then (if bitOf v 0 then modDrill s fun d => { d with purging := true } else s)
  else if 0x10000 ≤ o ∧ o < 0x14000 then writeCtx s ((o - 0x10000) / 0x100) (o % 0x100) w v
  else if 0x200000 ≤ o ∧ o < 0x210000 then
    (if o % 0x400 < 0x200 then writeWindow s ((o - 0x200000) / 0x400) (o % 0x400 / 0x40) (o % 0x40) w v else s)
  else if 0x300000 ≤ o ∧ o < 0x300100 then
    (if o % 0x40 = 0x10 ∧ w = 8 then writeReply s ((o - 0x300000) / 0x40) (BitVec.ofNat 64 v) else s)
  else if 0x400000 ≤ o ∧ o < 0x400100 then writeReeve s (o % 0x100) w v
  else s

/-- REGISTER_WRITE. -/
def execRegisterWrite (fn off width : Nat) (value : BitVec 256) (s : State) : Out := .next (writeRegister s fn off width (value.toNat % 2 ^ (8 * width)))

end Sys2Proof.Machine
end

