-- ==== Sys2Proof/Machine/HostMemory.lean ====
section
/-!
DEFINITION. The host's accesses to device memory through BAR2 (spec 17 R311, 20 R345, R346, 12 R207): HOST_MEMORY_WRITE, HOST_MEMORY_READ and
HOST_ATOMIC_REQUEST.
-/

namespace Sys2Proof.Machine

/-- The source word of a PCIe write (12 R210). -/
def srcHost (fn : Nat) : Nat := 5 * 2 ^ 28 + fn % 64

/-- Offsets of BAR2 that lie in HBM, or in the second tier (20 R346). -/
def populated (pa n : Nat) : Bool := decide (pa + n ≤ hbmEnd) || (inTier pa && decide (pa + n ≤ 2 ^ 41))

/-- A PCIe write to one line: performed at its home, or discarded where its page is sealed and the headland is told, or where nothing is
populated. -/
def hostWriteLine (fn : Nat) (s : State) (pa : Nat) (bs : List Byte) : State :=
  if !populated pa bs.length then s
  else if sealedPa s pa bs.length then
    raiseFault s { cls := .sealed, plot := 512 + paDie pa, addr := pa, src := srcHost fn, report := true, die := some (paDie pa) }
  else homeWrite s (homeOf s pa) bs (srcHost fn) (512 + paDie pa) 0xFF

/-- HOST_MEMORY_WRITE: a write of the physical function's BAR2, line by line; another function has no BAR2. -/
def hostWrite (s : State) (fn off : Nat) (bs : List Byte) : State :=
  if fn ≠ 0 then s else (linePieces off bs.length).foldl (fun s p => hostWriteLine fn s p.1 ((bs.drop (p.1 - off)).take p.2)) s
def execHostMemoryWrite (fn off : Nat) (bytes : List Byte) (s : State) : Out := .next (hostWrite s fn off bytes)

/-- An address of a save area: in the save pool of a context, or in an area that holds a save (R354). -/
def inSaveArea (s : State) (pa : Nat) : Bool :=
  (s.ctxs.any fun c => decide (c.2.csvb.toNat ≤ pa) && decide (pa < c.2.csvb.toNat + bitsOf c.2.csvn.toNat 7 0 * saveSlotBytes)) ||
  s.saved.any fun x => decide (x.base ≤ pa) && decide (pa < x.base + x.w * x.h * frameBytes)

/-- A byte as the host reads it: 0 in a save area while LOCK = 1, a FREE VALUE in a poisoned line. -/
def hostByte (s : State) (a : Nat) : Byte :=
  if s.reeve.lock && inSaveArea s a then 0
  else if poisoned s.memPoison a 1 then Config.damagedByte s.sched.freeCtr a
  else readByte s.mem a

/-- HOST_MEMORY_READ: the bytes at their homes go out to the host; a read outside a populated region is answered by Completer Abort, which the
log of outputs shows as no bytes (log 10). -/
def hostRead (s : State) (fn off len : Nat) : State :=
  if fn ≠ 0 ∨ !populated off len then { s with outputs := s.outputs ++ [[]] }
  else
    let bs := (upFrom off len).map (hostByte s)
    reportPoison { modSched s (fun c => { c with freeCtr := c.freeCtr + 1 }) with outputs := s.outputs ++ [bs] } off len
def execHostMemoryRead (fn off len : Nat) (s : State) : Out := .next (hostRead s fn off len)

/-- HOST_ATOMIC_REQUEST: Unsupported Request, which the log of outputs shows as no bytes; nothing else happens. -/
def execHostAtomicRequest (_fn _off : Nat) (s : State) : Out := .next { s with outputs := s.outputs ++ [[]] }

end Sys2Proof.Machine
end

