-- ==== Sys2Proof/Machine/Reliability.lean ====
section
/-!
DEFINITION. Errors, repair in service, power, trace and the loading of a headland's configuration (spec 07 R127, 18 R319, 19 R330 to R338, 20 R352,
R353, 05 R99): the steps of the Reeve and of the world around the device.
-/

namespace Sys2Proof.Machine

/-! ### Configuration regions (07 R127) -/

/-- A c-slot that is in use; the region that an error in it concerns is its plot's. -/
def slotPinned (s : State) (plot k : Nat) : Bool := (cslotAt (getPlot s plot) k).st == .pinned

/-- The region that an error concerns: its plot, and its site where it is an element's. -/
def errRegion (s : State) : ErrPlace → Option (Nat × Option Nat)
  | .elemConfig l => if (getElem s l).present then some (l.plot, some l.site) else none
  | .plotConfig plot => some (plot, none)
  | .cslot plot k => if slotPinned s plot k then some (plot, none) else none
  | .plotStore .. | .live _ | .channel .. | .commons .. | .hbm _ | .secondTier _ | .adapterCache .. | .tlb .. | .nodeCache .. | .traceBuffer .. => none

/-- CONFIG_REGION_ERROR: the region is frozen, and live state is untouched. -/
def freezeRegion (s : State) (p : ErrPlace) : State :=
  match errRegion s p with
  | some (plot, some n) => modElem s ⟨plot, n⟩ fun e => { e with cfgFrozen := true }
  | some (plot, none) => modPlot s plot fun q => { q with cfgFrozen := true }
  | none => s
def execConfigRegionError (p : ErrPlace) (s : State) : Out := .next (freezeRegion s p)

/-- The region is frozen. -/
def regionFrozen (s : State) (plot : Nat) : Option Nat → Bool
  | some n => (getElem s ⟨plot, n⟩).cfgFrozen
  | none => (getPlot s plot).cfgFrozen

/-- CONFIG_RELOAD_DONE: the region's bytes enter the c-slot; with the signature's CRC the region thaws, else it stays frozen with a MEMERR fault. -/
def reloadDone (s : State) (p : ErrPlace) : State :=
  match errRegion s p with
  | some (plot, site) =>
    if !regionFrozen s plot site then s
    else if reloadOk s plot site then reloadRegion s plot site
    else if s.faults.any (regionRecord s plot site) then fetchRegion s plot site
    else
      raiseFault (fetchRegion s plot site) { cls := .memerr, sub := 3, plot := plot, site := site.getD 0xFF, what := some (.element ⟨plot, site.getD 0xFF⟩) }
  | none => s
def execConfigReloadDone (p : ErrPlace) (s : State) : Out := .next (reloadDone s p)

/-! ### MEMORY_ERROR (19 R330) -/

/-- The die whose error counters an error enters. -/
def errDie : ErrPlace → Nat
  | .plotStore plot _ | .cslot plot _ | .plotConfig plot | .adapterCache plot _ | .traceBuffer plot _ => dieOf plot
  | .elemConfig l | .live l | .channel l .. => dieOf l.plot
  | .commons pa _ | .hbm pa | .secondTier pa => paDie pa
  | .tlb die _ | .nodeCache die _ => die

/-- Entry n of a list is gone. -/
def dropAt {α : Type} (xs : List α) (n : Nat) : List α := xs.take n ++ xs.drop (n + 1)

/-- A line joins the poisoned ones. -/
def poisonLine (ps : List Nat) (a : Nat) : List Nat := if ps.contains (a / 64 * 64) then ps else ps ++ [a / 64 * 64]

/-- Entry n of a list, and the list with it changed. -/
def changeAt {α : Type} (f : α → α) (xs : List α) (n : Nat) : List α := xs.mapIdx fun k x => if k = n then f x else x

/-- The tokens of the channel that ends in an input, from its head on: those in its queue, those on their way, and those of the output that feeds
it. -/
def channelTokens (s : State) (l : Loc) (port : Fin 4) : List Entry :=
  let i := inPort (getElem s l) port
  i.q.es ++ (match i.src with
    | some (p, n) => (outPort (getElem s p) n).flight.map (·.2) ++ (outPort (getElem s p) n).q.es
    | none => [])

/-- Change the token at a position of a channel. -/
def changeToken (s : State) (l : Loc) (port : Fin 4) (pos : Nat) (f : Entry → Entry) : State :=
  let i := inPort (getElem s l) port
  let at_ := pos - i.q.es.length
  if pos < i.q.es.length then modElem s l fun e => setIn e port { inPort e port with q := { i.q with es := changeAt f i.q.es pos } }
  else match i.src with
    | some (p, n) =>
      let o := outPort (getElem s p) n
      modElem s p fun e => setOut e n { o with
        flight := changeAt (fun x => (x.1, f x.2)) o.flight at_
        q := { o.q with es := if at_ < o.flight.length then o.q.es else changeAt f o.q.es (at_ - o.flight.length) } }
    | none => s

/-- A copy of an element's asynchronous result takes a number of its own; the flags of its command wait for another copy, if one is left. -/
def renameJoin (old new : Nat) (e : Elem) : Elem :=
  if e.joins.contains old then
    let js := e.joins.erase old ++ [new]
    { e with joins := js, joinFl := if js.contains old then e.joinFl else e.joinFl.map fun x => (if x.1 = old then new else x.1, x.2) }
  else e

/-- A token of a channel is replaced by a FAULT token (SUB 5), with a number of its own. -/
def faultToken5 (s : State) (l : Loc) (port : Fin 4) (pos : Nat) : State :=
  match (channelTokens s l port)[pos]? with
  | some x =>
    if x.body.isNone then s
    else
      let rid := freshId s
      let s := bumpId (changeToken s l port pos fun y => { y with rid := rid, body := none })
      raiseFault (match x.own with
        | some o => modElem s o (renameJoin x.rid rid)
        | none => s)
        { cls := .memerr, sub := 5, plot := l.plot, site := l.site, flags := 1, what := some (.token rid 0 ((getElem s l).kind.wideCh port)) }
  | none => s

/-- An entry of a die's translation buffers is gone: of the shared one, and from there on of its endpoints' in the order of their plots. -/
def dropTlb (s : State) (die n : Nat) : State :=
  let shared := (getDie s die).tlb.length
  if n < shared then modDie s die fun d => { d with tlb := dropAt d.tlb n }
  else
    { s with les := (s.les.foldl (fun (acc : Tbl LeUnit × Nat) x =>
        if dieOf (x.1 / 32) = die then
          (acc.1 ++ [(x.1, if acc.2 < x.2.tlb.length then { x.2 with tlb := dropAt x.2.tlb acc.2 } else x.2)],
            if acc.2 < x.2.tlb.length then s.les.length * 2 ^ 16 + acc.2 else acc.2 - x.2.tlb.length)
        else (acc.1 ++ [x], acc.2)) ([], n - shared)).1 }

/-- An uncorrectable error, by the table of R330. -/
def uncorrectable (s : State) (p : ErrPlace) : State :=
  match p with
  | .plotStore plot line =>
    raiseFault (modPlot s plot fun q => { q with poison := poisonLine q.poison line })
      { cls := .memerr, sub := 0, plot := plot, addr := line / 64 * 64, report := true, die := some (dieOf plot) }
  | .cslot plot k =>
    (match (cslotAt (getPlot s plot) k).st with
    | .valid => modPlot s plot fun q => setCslot q k {}
    | .filling => modPlot s plot fun q => setCslot q k { cslotAt q k with blen := 0, block := [], todo := [] }
    | .pinned => freezeRegion s p
    | .invalid => s)
  | .elemConfig _ | .plotConfig _ => freezeRegion s p
  | .live l =>
    if (getElem s l).present && !(getElem s l).dead then
      raiseFault (modElem s l fun e => { e with dead := true }) { cls := .memerr, sub := 4, plot := l.plot, site := l.site, what := some (.element l) }
    else s
  | .channel l port pos => faultToken5 s l port pos
  | .commons pa dirty => if dirty && decide (pa < hbmEnd) then { s with memPoison := poisonLine s.memPoison pa } else s
  | .hbm pa =>
    if pa < hbmEnd then
      raiseFault { s with memPoison := poisonLine s.memPoison pa }
        { cls := .memerr, sub := 1, plot := 512 + hbmDie pa, addr := pa / 64 * 64, report := true, die := some (hbmDie pa) }
    else s
  | .secondTier pa =>
    if inTier pa then
      raiseFault { s with memPoison := poisonLine s.memPoison pa }
        { cls := .memerr, sub := 2, plot := 512, addr := pa / 64 * 64, report := true, die := some 0 }
    else s
  | .adapterCache plot n => modPlot s plot fun q => { q with slices := dropAt q.slices n }
  | .tlb die n => dropTlb s die n
  | .nodeCache die n => modDie s die fun d => { d with nodeCache := dropAt d.nodeCache n }
  | .traceBuffer plot n =>
    modPlot s plot fun q => { q with trace := { q.trace with buf := if (Tbl.find q.trace.buf n).isSome then Tbl.put q.trace.buf n (5 <<< 124) else q.trace.buf } }

/-- MEMORY_ERROR: a correctable error is corrected in place and counted. -/
def memoryError (s : State) (p : ErrPlace) (correctable : Bool) : State :=
  if correctable then modDie s (errDie p) fun d => { d with corrected := d.corrected + 1 } else uncorrectable s p
def execMemoryError (p : ErrPlace) (correctable : Bool) (s : State) : Out := .next (memoryError s p correctable)

/-- SCRUB_READ (R332): it changes no value; a poisoned line that it reads raises MEMERR. It takes a grant of a bank only while no other request waits there. -/
def scrubRead (s : State) (p : ErrPlace) : State :=
  match p with
  | .plotStore plot line =>
    if poisoned (getPlot s plot).poison line 1 && (bankLines s plot (bankOf (getPlot s plot).hash line)).isEmpty then
      raiseFault s { cls := .memerr, sub := 0, plot := plot, addr := line / 64 * 64, report := true, die := some (dieOf plot) }
    else s
  | .commons pa _ | .hbm pa | .secondTier pa => reportPoison s (pa / 64 * 64) 64
  | .cslot .. | .elemConfig _ | .plotConfig _ | .live _ | .channel .. | .adapterCache .. | .tlb .. | .nodeCache .. | .traceBuffer .. => s
def execScrubRead (p : ErrPlace) (s : State) : Out := .next (scrubRead s p)

/-! ### Power (20 R353) -/

/-- Package power: the sum of the four rails of PWR. -/
def packagePower (pwr : Nat) : Nat := bitsOf pwr 31 0 + bitsOf pwr 63 32 + bitsOf pwr 95 64 + bitsOf pwr 127 96

/-- POWER_THROTTLE: PWR and TEMP are measured; above the cap or 105 °C plots are held from firing, for whole cycles, until a measurement that is
not. -/
def throttle (s : State) (pwr temp : Nat) : State :=
  let cap := if s.reeve.pcap = 0 then 3600 else s.reeve.pcap.toNat
  { s with reeve := { s.reeve with power := pwr % 2 ^ 128, temp := temp % 65536,
                                   holding := decide (1000 * cap < packagePower pwr) || decide (1680 < temp) } }
def execPowerThrottle (milliwatts temp16 : Nat) (s : State) : Out := .next (throttle s milliwatts temp16)

/-- THERMAL_TRIP: at 115 °C. -/
def trip (s : State) (temp : Nat) : State :=
  if temp < 1840 then s
  else
    let s := (s.parcels.filter fun x => x.2.stage != .saved).foldl (fun s x => abortSection s x.1) s
    let s := modDrill s fun d => { d with queues := d.queues.map fun x => (x.1, { x.2 with qcfg := x.2.qcfg &&& ~~~512 }) }
    raiseMsix { s with reeve := { s.reeve with temp := temp % 65536, tripped := true, railsOff := true } } 0 0
def execThermalTrip (temp16 : Nat) (s : State) : Out := .next (trip s temp16)

/-! ### Links (19 R334, 20 R352) -/

def modPort (s : State) (n : Fin 12) (f : DvlPort → DvlPort) : State :=
  { s with reeve := { s.reeve with ports := s.reeve.ports.mapIdx fun i p => if i = n.val then f p else p } }

/-- DVL_LANE_FAIL: the spare lane first; with two lanes failed the port runs on four. -/
def failLane (p : DvlPort) : DvlPort :=
  if p.failed = 0 then { p with failed := 1, spare := true } else { p with failed := p.failed + 1, lanes := min p.lanes 1 }
def execDvlLaneFail (port : Fin 12) (s : State) : Out := .next (modPort s port failLane)

/-- A command that has begun uses a port that is down: the unit that it is performing does. -/
def cutOff (s : State) (c : Cmd) : Bool :=
  (c.phase == .run || c.phase == .held) &&
  match c.i with
  | .coll .. => !peersUp s ((c.inl.drop 2).map (·.toNat))
  | .rdcTree .. => false
  | _ => !c.record.isEmpty && ((unitOf c c.acc).src.any (accessCut s c) || (unitOf c c.acc).dst.any (accessCut s c))

/-- LINK_DOWN: a port (or the PCIe link) goes down and raises LINK; the commands that use it end. -/
def linkDown (s : State) (port : Option (Fin 12)) : State :=
  let s := match port with
    | some n => modPort s n fun p => { p with up := false, lanes := 0 }
    | none => { s with reeve := { s.reeve with pcieUp := false } }
  let s := raiseFault s { cls := .link, sub := if port.isSome then 0 else 1, plot := 512, report := true, die := some 0 }
  (s.cmds.filter (cutOff s)).foldl cutCmd s
def execLinkDown (port : Option (Fin 12)) (s : State) : Out := .next (linkDown s port)

/-! ### Repair in service (19 R334) -/

/-- HBM_CHANNEL_SPARE: the channel's lines move to one of the stack's two spares; no value changes. -/
def spareChannel (s : State) (stack : Nat) : State :=
  let n := Tbl.findD s.reeve.spares stack 0
  if n < 2 then { s with reeve := { s.reeve with spares := Tbl.put s.reeve.spares stack (n + 1) } } else s
def execHbmChannelSpare (stack : Fin 8) (_pa : Nat) (s : State) : Out := .next (spareChannel s stack.val)

/-- POST_PACKAGE_REPAIR: the row is repaired; no value changes, and a poisoned line stays poisoned. -/
def execPostPackageRepair (pa : Nat) (s : State) : Out := .next { s with reeve := { s.reeve with repairs := s.reeve.repairs ++ [pa] } }

/-! ### POWER_UP (05 R99) -/

/-- An entry of the silo after a power-up: its last hit lies before it, by what the power was off too (05 R100; log 29). -/
def olderEntry (s : State) (e : SiloEnt) : SiloEnt := { e with last := e.last - (timestamp s : Int) - (Config.nsOff s.sched.freeCtr : Nat) }

/-- POWER_UP: every register takes its reset value. Firmware bank, signature index, repairs and the silo's entries with a valid trailer survive (log 29). -/
def powerUp (s : State) : State :=
  { State.reset with
    sched := { State.reset.sched with freeCtr := s.sched.freeCtr + 1 }
    drill := { State.reset.drill with silo := (s.drill.silo.filter (·.good)).map (olderEntry s), erased := s.drill.erased }
    reeve := { State.reset.reeve with bank := s.reeve.bank, atindex := s.reeve.atindex, spares := s.reeve.spares, repairs := s.reeve.repairs } }
def execPowerUp (s : State) : Out := .next (powerUp s)

/-! ### Trace (19 R338) -/

/-- TRACE_POST_COUNT: with the last record after the trigger written, FROZEN is set and recording stops. -/
def freezeTrace (s : State) (plot : Nat) : State :=
  if (getPlot s plot).trace.post = some 0 then modPlot s plot fun q => { q with trace := { q.trace with ctl := q.trace.ctl ||| 0x20, post := none } }
  else s
def execTracePostCount (plot : Nat) (s : State) : Out := .next (freezeTrace s plot)

/-! ### HEADLAND_CONFIGURATION_LOAD (18 R319) -/

/-- A route among the elements of a headland. -/
def headRoute (plot : Nat) (w : Word) : Loc × Fin 4 × Route :=
  let r := readRoute w.toNat
  (⟨plot, r.ssite⟩, r.sch, { dst := ⟨plot, r.dsite⟩, port := r.dch, long := false, dist := 0, secOut := r.out })

/-- The channels of a headland's elements by site and output. -/
def headOuts (plot : Nat) (cs : List (Loc × Fin 4 × Route)) (site : Nat) (n : Fin 4) : Option Route :=
  cs.findSome? fun c => if c.1 = ⟨plot, site⟩ ∧ c.2.1 = n then some c.2.2 else none

/-- A headland's element record decoded, and the rule that it breaks. -/
def headRecord (plot : Nat) (cs : List (Loc × Fin 4 × Route)) (x : HeadElem) : (Elem × Option MeUnit) × Option Broken :=
  elemRecord .d3 false true x.site (headOuts plot cs x.site) (x.words.flatMap fun w => bytesOf 8 w.toNat)

/-- The elements of a headland as a plot's configuration, which has no rings. -/
def headCfg (plot : Nat) (cs : List (Loc × Fin 4 × Route)) (elems : List HeadElem) : PlotCfg :=
  { hmask := [], tiles := [], streams := [], rings := [], bars := []
    elems := elems.filterMap fun x => match headRecord plot cs x with
      | (r, none) => some (x.site, r)
      | (_, some _) => none }

/-- An element of a headland as system software loads it: its record, as words, and its channels. A broken record blocks it, and so does a slot that breaks a
rule tying it to the other records (04 R81). -/
def loadHeadElem (plot : Nat) (cs : List (Loc × Fin 4 × Route)) (elems : List HeadElem) (s : State) (x : HeadElem) : State :=
  let l : Loc := ⟨plot, x.site⟩
  let present := elems.foldl (fun (m : BitVec 32) y => m ||| 1#32 <<< y.site) 0
  let blocked : Elem := { present := true, kind := kindOfSite x.site, blocked := true }
  match headRecord plot cs x with
  | (_, some _) => setElem s l blocked
  | ((e, m), none) =>
    if (elemCross (headOuts plot cs) present (headCfg plot cs elems) (x.site, e, m)).isSome then setElem s l blocked
    else
      let e := cs.foldl (fun e c =>
        let e := if c.1 = l then setOut e c.2.1 { outPort e c.2.1 with route := some c.2.2 } else e
        if c.2.2.dst = l then feedIn c e else e) e
      let s := setElem s l e
      match m with
      | some m => modMe s l fun _ => m
      | none => s

/-- HEADLAND_CONFIGURATION_LOAD: the handler of a die of the part is loaded, which is measured (20 R356), and its headland starts afresh. -/
def loadHeadland (s : State) (die : Nat) (elems : List HeadElem) (routes : List Word) : State :=
  if 4 ≤ die ∨ !dieExists die then s
  else
    let plot := 512 + die
    let s := modPlot (clearUnits s [plot]) plot fun q => { blankPlot q with started := true }
    let elems := elems.filter fun x => decide (x.site < 32)
    let s := elems.foldl (loadHeadElem plot (routes.map (headRoute plot)) elems) s
    measure (modDie s die fun d => { d with handler := true })
def execHeadlandConfigurationLoad (die : Nat) (elems : List HeadElem) (routes : List Word) (s : State) : Out :=
  .next (loadHeadland s die elems routes)

end Sys2Proof.Machine
end

