-- ==== Sys2Proof/Machine/Agenda.lean ====
section
/-!
DEFINITION. The steps of other agents that are listed at the start of a cycle, and the tick of the clock (log 2). A step that is listed and is not
enabled when its turn comes changes nothing.
-/

namespace Sys2Proof.Machine

/-! ### Plots and elements -/

/-- A list where a condition holds. -/
def when {α : Type} (b : Bool) (xs : List α) : List α := if b then xs else []

/-- The steps of an element's channels. -/
def channelEvents (l : Loc) (e : Elem) : List Instr :=
  ports.flatMap fun n =>
    let o := outPort e n
    when (!o.flight.isEmpty) [.tokenArrive l n] ++ when (!o.back.isEmpty) [.creditReturn l n] ++
    when (o.route.any (fun r => r.long) && !o.q.es.isEmpty) [.tokenDepart l n]

/-- The steps of a matrix element. -/
def matrixEvents (s : State) (l : Loc) (e : Elem) : List Instr :=
  let u := getMe s l
  when (e.kind == .me)
    (when u.fire.isSome [.mmaStep l, .mmaComplete l] ++ [.operandPacketFill l false, .operandPacketFill l true] ++
     (([0, 1, 2, 3] : List (Fin 4)).filter fun an => (u.accs[an]).state == .closing).flatMap (fun an => [.adapterClose l an, .accumulatorRelease l an]) ++
     (([0, 1] : List (Fin 2)).filter fun c => !(outPort e (relPort c)).pkt.isEmpty).map fun c => .releaseBeat l c)

/-- The steps of barriers, watches and streams. -/
def syncEvents (s : State) (l : Loc) (e : Elem) : List Instr :=
  when e.watch.isSome [.watchComplete l, .watchExpire l] ++
  when (e.kind == .le)
    ((([0, 1, 2, 3, 4, 5, 6, 7] : List (Fin 8)).filter fun m => ((getLe s l).streams[m]).opened).flatMap (fun m => [.streamAccess l m, .streamComplete l m]) ++
     (List.range (getLe s l).comb.length).map fun n => .combineLineTimeout l n)

/-- The arrivals of an element: after the requests that they wait for (spec 16 R283). -/
def arrivalEvents (l : Loc) (e : Elem) : List Instr := when (e.arrival.isSome || !e.late.isEmpty) [.barrierArrivalCount l]

/-- The banks of the plot stores that have accesses. -/
def bankEvents (s : State) : List Instr :=
  ((s.lines.filter fun x => !x.held).map fun x => (x.plot, bankOf (getPlot s x.plot).hash x.off)).eraseDups.map fun x => .bankGrant x.1 x.2

/-- The steps of plots: slice fills, configuration, start, region reloads, trace. -/
def plotEvents (n : Nat) (p : Plot) : List Instr :=
  (p.fills.map fun f => .adapterSliceFill n f.id) ++
  when (p.parcel.isSome && !p.started)
    [.configPacket n ((p.cslot.map fun k => (cslotAt p k).todo.headD 0).getD 0), .plotStart n] ++
  when p.cfgFrozen [.configReloadDone (.plotConfig n)] ++ when (p.trace.post == some 0) [.tracePostCount n]

/-- Regions of elements to reload. -/
def regionEvents (l : Loc) (e : Elem) : List Instr := when e.cfgFrozen [.configReloadDone (.elemConfig l)]

/-! ### Memory, engines, trees and windows -/

/-- The step that a request waits for. -/
def reqEvents (s : State) (q : Req) : List Instr :=
  match q.phase with
  | .waiting => [.waveEnter q.id]
  | .entered | .translated .. => [.homeAccessPerform q.id]
  | .atPort _ => [.memoryResponse q.id, .homeAccessPerform q.id]
  | .contributing n off => [.windowContribution (ownContribution s q n off)]
  | .performed .. => [.memoryResponse q.id]
  | .walking .. | .combining | .held _ => []

/-- The step that a command waits for. -/
def cmdEvents (c : Cmd) : List Instr :=
  match c.phase with
  | .queued => [.engineAcceptCommand c.id]
  | .fetch | .run => [.homeAccessPerform c.id]
  | .done => [.engineComplete c.id]
  | .wait | .held => []

def walkEvents (s : State) : List Instr := s.dies.flatMap fun d => (d.2.misses.take 64).map fun m => .pageWalkComplete d.1 m.id

def treeEvents (s : State) : List Instr :=
  s.parcels.flatMap fun p => (p.2.treePkts.map fun k => .treePacketAccept k.id) ++
    p.2.treeGroups.flatMap fun g => [.treeTimeout g.plot g.tree g.grp, .treeForward g.plot g.tree g.grp]

def windowEvents (s : State) : List Instr :=
  s.ctxs.flatMap fun c => c.2.wins.flatMap fun w => w.2.rounds.flatMap fun r => [.windowRoundEnd c.1 w.1 r.off, .windowTimeout c.1 w.1 r.off]

/-! ### The drill and the Reeve -/

/-- The steps of a node. -/
def nodeEvents (l n : Nat) (x : NodeSt) : List Instr :=
  match x.phase with
  | .outside => [.granaryEnter l n, .nodeAgeing l n]
  | .granary => .nodeAgeing l n :: (when (isEngineNode x) [.engineNodeDispatch l n] ++ when (isSection x) [.placeSection l n])
  | .running =>
    when (!x.held) (when (nodeType x == 4) [.signalNode l n] ++ when (nodeType x == 5) [.waitPoll l n, .waitTimeout l n] ++
      when (nodeType x == 8) [.branchNode l n] ++ when (nodeType x == 9 && x.nested.isNone) [.subgraphStart l n])
  | .counting | .arrived | .done => []

/-- Cycles that a settling scan takes: there and back over the barrier network (spec 01 R22, 16 R282), at most 22. DESIGN CHOICE, log 30. -/
def scanCycles (p : Parcel) : Nat := 2 * (2 + Nat.log2 p.w + Nat.log2 p.h)

/-- The steps of parcels. -/
def parcelEvents (s : State) (n : Nat) (p : Parcel) : List Instr :=
  when (p.stage == .placed) [.preemptSection n] ++ when (match p.frz with | .stopping _ => true | _ => false) [.parcelFrozen n] ++
  when (p.stage == .freezing || p.stage == .saving) [.saveAreaWritten n] ++ when (p.stage == .resuming) [.resumeSection n] ++
  when p.ending.isSome [.killParcelFree n] ++ when (now s % scanCycles p == 0) [.settleScan n] ++ when p.settled [.sectionRetire n] ++ when (p.wdog != 0) [.sectionWatchdog n]

/-- The drill's own steps. -/
def drillEvents (s : State) : List Instr :=
  ((nextQueue s).toList.map fun q => .drillTakeRecord q) ++
  (s.drill.launches.flatMap fun x => x.2.nodes.flatMap fun n => nodeEvents x.1 n.1 n.2) ++
  ((nextLookup s).toList.map fun x => .jerixLookup x.1 x.2.1) ++ (s.drill.xlates.map fun t => .translationComplete t.id) ++
  when (!s.drill.launches.isEmpty || s.drill.queues.any fun q => q.2.reset != 0) [.drillStep] ++
  ((s.drill.launches.filter fun x => x.2.parent.isNone && fieldAt x.2.raw 0x30 4 != 0).map fun x => .launchTimeout x.1)

/-- The Reeve's steps. -/
def reeveEvents (s : State) : List Instr :=
  when s.drill.purging [.siloPurge] ++ when s.reeve.staged [.firmwareSwitch] ++ when (s.reeve.atstat == 1) [.attestationRequest] ++
  (s.dies.filter fun d => !d.2.fidWait.isEmpty).map fun d => .fidAssign d.1

/-- The steps of the device's agents that are listed for a cycle. -/
def events (s : State) : List Instr :=
  (s.elems.flatMap fun x => channelEvents (locOfKey x.1) x.2 ++ matrixEvents s (locOfKey x.1) x.2 ++ syncEvents s (locOfKey x.1) x.2 ++
    regionEvents (locOfKey x.1) x.2) ++
  (s.results.map fun r => .asyncResultVisible r.id) ++ bankEvents s ++ (s.plots.flatMap fun x => plotEvents x.1 x.2) ++
  walkEvents s ++ (sortKey (fun (a b : Req) => decide (a.place < b.place)) s.reqs).flatMap (reqEvents s) ++
  (s.elems.flatMap fun x => arrivalEvents (locOfKey x.1) x.2) ++ s.cmds.flatMap cmdEvents ++ treeEvents s ++ windowEvents s ++ reeveEvents s ++ drillEvents s ++
  s.parcels.flatMap fun x => parcelEvents s x.1 x.2

def eventTurns (s : State) : List Turn := (events s).map Turn.ev

/-- Steps whose cycle the manual fixes: no timing puts them off (spec 08 R131, 01 R19, 06 R117, 16 R283, R285, R295, R300, 18 R329, 19 R338). -/
def exactTiming : Instr → Bool
  | .tokenArrive .. | .creditReturn .. | .mmaStep _ | .mmaComplete _ | .bankGrant .. | .barrierArrivalCount _ | .watchComplete _ | .watchExpire _ | .treePacketAccept _ | .treeForward .. | .treeTimeout .. | .windowTimeout ..
  | .nodeAgeing .. | .waitPoll .. | .waitTimeout .. | .launchTimeout _ | .sectionWatchdog _ | .tracePostCount _ => true
  | _ => false

/-- A tick of the clock: the cycle ends, and the next cycle's agenda is made. -/
def tick (s : State) : State :=
  let s := startCycle (nextCycle s)
  modSched s fun c => { c with agenda := elemTurns s ++ eventTurns s }

end Sys2Proof.Machine
end

