-- ==== Sys2Proof/Machine/Channels.lean ====
section
/-!
DEFINITION. The steps of long channels (spec 08 R131, R137, 07 R125): TOKEN_DEPART, TOKEN_ARRIVE and CREDIT_RETURN, each named by the
channel's output.
-/

namespace Sys2Proof.Machine

/-- The head of an output queue leaves: it is seen, a credit is held, none has left in this cycle, and its plot is not stopped. -/
def departToken (s : State) (l : Loc) (n : Fin 4) : State :=
  let o := outPort (getElem s l) n
  match o.route, o.q.es with
  | some r, x :: _ =>
    if r.long && decide (0 < o.credits) && decide (popsAt (now s) o.q = 0) && x.body.isSome && decide (x.since ≤ now s) && !plotFrozen s l.plot then
      modElem s l fun e => setOut e n { o with q := queuePop (now s) o.q, credits := o.credits - 1, flight := o.flight ++ [(now s + r.dist, x)] }
    else s
  | _, _ => s
def execTokenDepart (l : Loc) (port : Fin 4) (s : State) : Out := .next (departToken s l port)

/-- The oldest token in flight lands in its destination queue at the end of the cycle before the one in which it is visible, and sets that plot's activity bit (01 R22); a killed consumer discards it and
gives its credit back (18 R320). -/
def arriveToken (s : State) (l : Loc) (n : Fin 4) : State :=
  let o := outPort (getElem s l) n
  match o.route, o.flight with
  | some r, (t, x) :: rest =>
    if now s + 1 < t then s
    else
      let s := modElem s l fun e => setOut e n { o with flight := rest }
      let d := getElem s r.dst
      let s := markActive s r.dst.plot
      if d.killed then modElem s l fun e => setOut e n { o with flight := rest, back := o.back ++ [t + r.dist] }
      else modElem s r.dst fun e => setIn e r.port { inPort e r.port with q := queuePush (inPort e r.port).q { x with since := t } }
  | _, _ => s
def execTokenArrive (l : Loc) (port : Fin 4) (s : State) : Out := .next (arriveToken s l port)

/-- Credits that are due return. -/
def returnCredits (s : State) (l : Loc) (n : Fin 4) : State :=
  let o := outPort (getElem s l) n
  let due := o.back.filter fun t => decide (t ≤ now s)
  if due.isEmpty then s
  else modElem s l fun e => setOut e n { o with credits := o.credits + due.length, back := o.back.filter fun t => !decide (t ≤ now s) }
def execCreditReturn (l : Loc) (port : Fin 4) (s : State) : Out := .next (returnCredits s l port)

end Sys2Proof.Machine
end

