-- ==== Sys2Proof/Machine/Paths.lean ====
section
/-!
DEFINITION. The steps of the memory paths: WAVE_ENTER (spec 12 R204), PAGE_WALK_COMPLETE (R199), MEMORY_RESPONSE (13 R215, R225),
COMBINE_LINE_TIMEOUT (R230) and ASYNC_RESULT_VISIBLE (R215). A step that is not enabled does nothing (log 2).
-/

namespace Sys2Proof.Machine

/-- WAVE_ENTER: a waiting request enters once the request that it names as its predecessor has entered the same wave. -/
def waveEnterStep (s : State) (id : Nat) : State :=
  match findReq s id with
  | some q =>
    if q.phase = .waiting ∧ q.thr = waveThread s q.issuer ∧ (getElem s q.issuer).waveSeen.contains q.pred then enterWave s q else s
  | none => s
def execWaveEnter (req : Nat) (s : State) : Out := .next (waveEnterStep s req)

/-- A request answered by a walk that found its page. -/
def answerWalk (p : Page) (s : State) (q : Req) : State :=
  let e := tlbOf q.ctx p
  let s := tlbFill s q.le e
  match q.op with
  | .prefetch => setPerformed s q.id 1 0
  | _ =>
    if isStoreOp q.op && !p.w then faultReq s q .translate 1 0 none
    else modReq s q.id fun r => { r with phase := .translated (physOf e q.va) e.nc }

/-- A request answered by a faulting walk (R199: every merged request faults alike; 18 R316: in one record for each owner). -/
def answerFault (f : VBad) (s : State) (q : Req) : State :=
  match q.op with
  | .prefetch => setPerformed s q.id 0 0
  | _ => faultReq s (q.metAt f.va) f.cls f.sub 0 (some (walkKey q))

/-- The requests of a pending-miss entry. -/
def missReqs (s : State) (die miss : Nat) : List Req := s.reqs.filter fun q => q.phase == .walking die miss

/-- PAGE_WALK_COMPLETE: the page is filled into both buffers and answers every pending entry that it covers; a walk whose entry
was invalidated is discarded and walks again (spec 18 R327). -/
def walkDone (s : State) (die miss : Nat) : State :=
  match (getDie s die).misses.find? fun m => m.id == miss with
  | none => s
  | some m =>
    if m.stale then
      modDie s die fun d => { d with misses := mapIf (fun x => x.id == miss) (fun x => { x with stale := false }) d.misses }
    else match walk s m.ctx m.va with
      | none =>
        let qs := missReqs s die miss
        qs.foldl (answerFault (walkFault s m.ctx m.va)) (modDie s die fun d => { d with misses := d.misses.filter fun x => x.id != miss })
      | some p =>
        let covered := (getDie s die).misses.filter fun x => x.ctx == m.ctx && decide (p.va ≤ x.va) && decide (x.va < p.va + p.size) && !x.stale
        let qs := s.reqs.filter fun q => covered.any fun x => q.phase == .walking die x.id
        let s := modDie s die fun d => { d with misses := d.misses.filter fun x => !covered.contains x, tlb := tlbPut 16384 d.tlb (tlbOf m.ctx p) }
        qs.foldl (answerWalk p) s
def execPageWalkComplete (die miss : Nat) (s : State) : Out := .next (walkDone s die miss)

/-- The word of a header that raises an OPERAND fault (spec 12 R209): n differs, FMT differs, or CNT bit 31 is set. -/
def headerBad (st : Stream) (h : Nat) : Option Nat :=
  if bitsOf h 63 32 ≠ patCount st.pat then some (bitsOf h 63 0)
  else if bitsOf h 67 64 ≠ st.pat.fmt then some (bitsOf h 127 64)
  else if bitOf h 31 then some (bitsOf h 63 0) else none

/-- The header of an image, read (spec 12 R209). -/
def takeHeader (st : Stream) (h : Nat) : Stream :=
  if bitsOf h 63 32 = patCount st.pat ∧ bitsOf h 67 64 = st.pat.fmt then
    { st with img := .known, stored := if bitOf h 31 then bitsOf h 30 0 else patCount st.pat }
  else { st with img := .known, badFrom := some 0 }

/-- The response of a stream's access. -/
def streamResponse (s : State) (q : Req) (l : Loc) (m : Fin 8) (data : Beat) : State :=
  let s := dropReq s q.id
  match q.op with
  | .load _ =>
    let s := modStream s l m fun st => { st with done := st.done + 1 }
    fillGather s l m q.rid q.pos q.size data.toNat
  | .store => modStream s l m fun st => if st.pat.cmp then st else { st with done := st.done + 1 }
  | .header =>
    let bad := headerBad (getStream s l m) data.toNat
    let s := modStream s l m fun st => takeHeader st data.toNat
    (match bad with
    | some w => raiseFault s
        { cls := .operand, plot := l.plot, site := l.site, strm := m.val, addr := q.va, info0 := BitVec.ofNat 64 w, flags := 5, ctx := some q.ctx
          key := some (ownerKey q, badKey) }
    | none => s)
  | .maskByte => modStream s l m fun st => { st with mask := data.toNat, maskOk := true }
  | _ => fillRid s q.rid { tag := .data, val := data }

/-- MEMORY_RESPONSE: a response or acknowledgement fills its reserved entry, and flags raised at the home are ORed into the issuing
element's (spec 16 R289); one that is discarded leaves no entry (04 R82). A plot-scope release is acknowledged from the port. -/
def respond (s : State) (id : Nat) : State :=
  match findReq s id with
  | none => s
  | some q =>
    match q.phase with
    | .performed data f =>
      (match q.thr with
      | .stream l m => if q.discard then dropRid (dropReq (giveUpPart s id) id) q.rid else streamResponse s q l m data
      | _ =>
        if q.discard then dropRid (dropReq s id) q.rid
        else
          let s := if q.rid = 0 then s else modElem s q.issuer fun e => orFlags e f
          fillRid (dropReq s id) q.rid { tag := .data, val := data })
    | .atPort _ =>
      if q.ord = .ordered ∧ q.scope = .plot ∧ q.rid ≠ 0 ∧ !q.discard then
        fillRid (modReq s id fun r => { r with rid := 0 }) q.rid {}
      else s
    | _ => s
def execMemoryResponse (req : Nat) (s : State) : Out := .next (respond s req)

/-- COMBINE_LINE_TIMEOUT (13 R230): a line that has waited 2 µs goes to PCIe. A parcel comes to its freeze only with its lines sent, and none changes after
it (18 R321). -/
def lineTimeout (s : State) (l : Loc) (n : Nat) : State :=
  match (getLe s l).comb[n]? with
  | some c => if c.opened + 5400 ≤ now s && !plotStopped s l.plot then sendLine s l c else s
  | none => s
def execCombineLineTimeout (l : Loc) (line : Nat) (s : State) : Out := .next (lineTimeout s l line)

/-- ASYNC_RESULT_VISIBLE (13 R215): a result fills its reserved entry. -/
def showResult (s : State) (id : Nat) : State :=
  match s.results.find? fun r => r.id == id with
  | some r => fillRid { s with results := s.results.filter fun x => x.id != id } r.rid r.tok
  | none => s
def execAsyncResultVisible (op : Nat) (s : State) : Out := .next (showResult s op)

end Sys2Proof.Machine
end

