-- ==== Sys2Proof/Machine/Trees.lean ====
section
/-!
DEFINITION. Reduction trees on the mesh (spec 16 R293 to R296): TREE_PACKET_ACCEPT, TREE_FORWARD and TREE_TIMEOUT.
-/

namespace Sys2Proof.Machine

/-- The origin of a tree's rectangle in the field. -/
def treeX (p : Parcel) (g : Region) : Nat := p.x0 + g.dx
def treeY (p : Parcel) (g : Region) : Nat := p.y0 + g.dy

/-- Parent(x, y) (R293), with the port of the parent that this plot is seen at: 1 west, 2 east, 3 north, 4 south. -/
def treeParent (p : Parcel) (g : Region) (plot : Nat) : Option (Nat × Nat) :=
  let x := plotX plot
  let y := plotY plot
  let xr := p.x0 + g.rx
  let yr := p.y0 + g.ry
  if x < xr then some (plotAt (x + 1) y, 1)
  else if xr < x then some (plotAt (x - 1) y, 2)
  else if y < yr then some (plotAt x (y + 1), 3)
  else if yr < y then some (plotAt x (y - 1), 4)
  else none

/-- The plots of a tree. -/
def treePlots (p : Parcel) (g : Region) : List Nat :=
  (List.range g.h).flatMap fun j => (List.range g.w).map fun i => plotAt (treeX p g + i) (treeY p g + j)

/-- A plot's local input is expected (R293). -/
def localExpected (s : State) (p : Parcel) (plot : Nat) : Bool :=
  bitOf (Tbl.findD p.sites plot 0).toNat 28 || bitOf (Tbl.findD p.sites plot 0).toNat 29 ||
    (getElem s ⟨plot, 28⟩).present || (getElem s ⟨plot, 29⟩).present

/-- A plot lies in the subtree of another; fuel bounds the way to the root by the 46 hops of the field. -/
def treeBelow (p : Parcel) (g : Region) (top : Nat) : Nat → Nat → Bool
  | 0, plot => plot == top
  | n + 1, plot => plot == top || (match treeParent p g plot with
      | some (q, _) => treeBelow p g top n q
      | none => false)

/-- The ports at which a router expects an input: its own, and those of the children whose subtree has a local input. -/
def expectedPorts (s : State) (p : Parcel) (g : Region) (plot : Nat) : List Nat :=
  let kids := (treePlots p g).filterMap fun c => match treeParent p g c with
    | some (q, port) => if q = plot then some (c, port) else none
    | none => none
  (if localExpected s p plot then [0] else []) ++
    (kids.filter fun k => (treePlots p g).any fun q => localExpected s p q && treeBelow p g k.1 48 q).map (·.2)

def findGroup (p : Parcel) (plot tree grp : Nat) : Option TreeGroup :=
  p.treeGroups.find? fun g => g.plot == plot && g.tree == tree && g.grp == grp

/-- A command of a tree completes with a status. -/
def endTreeCmd (s : State) (cmd status : Nat) : State :=
  if cmd = 0 then s else modCmd s cmd fun c => { c with phase := .done, status := status }

/-- A router accepts a packet (R294, R296). -/
def acceptPkt (s : State) (n : Nat) (k : TreePkt) : State :=
  let p := getParcel s n
  let s' := modParcel s n fun p => { p with treePkts := p.treePkts.filter fun x => x.id != k.id }
  let root := ((treeOf s k.plot k.tree).map fun g => rootPlot p g) == some k.plot
  if (shutGroups p k.plot k.tree).contains k.grp then endTreeCmd s' k.cmd 0
  else match findGroup p k.plot k.tree k.grp with
    | none =>
      if 4 ≤ (p.treeGroups.filter fun g => g.plot == k.plot && g.tree == k.tree).length then s
      else
        let g : TreeGroup := { plot := k.plot, tree := k.tree, grp := k.grp, fmt := k.fmt, fcs := k.fcs, ins := [(k.port, k)],
                               since := p.cycles, mark := k.mark }
        let s' := modParcel s' n fun p => { p with treeGroups := p.treeGroups ++ [g] }
        if root ∧ k.port = 0 then s' else endTreeCmd s' k.cmd 0
    | some g =>
      if (Tbl.find g.ins k.port).isSome then endTreeCmd s' k.cmd 4
      else
        let same := k.fmt == g.fmt && k.fcs == g.fcs
        let kept : TreePkt := if same then k else { k with lanes := [], bits := 0 }
        let s' := modParcel s' n fun p =>
          { p with treeGroups := mapIf (isGroup k.plot k.tree k.grp) (fun g =>
              { g with ins := Tbl.put g.ins k.port kept, mark := g.mark || k.mark || !same,
                       rootBad := g.rootBad || (!same && root && k.port == 0) }) p.treeGroups }
        if root ∧ k.port = 0 then s' else endTreeCmd s' k.cmd (if same then 0 else 4)

/-- The parcel of a packet. -/
def pktOf (s : State) (id : Nat) : Option (Nat × TreePkt) :=
  s.parcels.findSome? fun x => (x.2.treePkts.find? fun k => k.id == id).map fun k => (x.1, k)

/-- A router works: its parcel is not frozen, and its plot has started (07 R125; 18 R321). -/
def routerRuns (s : State) (n : Nat) : Bool :=
  match (getParcel s n).frz with
  | .frozen _ => false
  | _ => true

def execTreePacketAccept (packet : Nat) (s : State) : Out :=
  match pktOf s packet with
  | some (n, k) => .next (if routerRuns s n && decide (k.at_ ≤ now s) then acceptPkt s n k else s)
  | none => .next s

/-- A router's sum: ((((local + west) + east) + north) + south), absent inputs skipped, with the flags of its additions. -/
def treeSum (g : TreeGroup) : List Nat × Flags :=
  let f : Fmt := if g.fmt = 0 then .f64 else .f32
  match (g.ins.map (·.2)).filter fun k => !k.lanes.isEmpty with
  | [] => (List.replicate (if g.fmt = 0 then 16 else 32) 0, 0)
  | k :: ks =>
    ks.foldl (fun (st : List Nat × Flags) (x : TreePkt) =>
      let sums := (st.1.zip x.lanes).map fun ab => fpAdd f .rne g.fcs (readBits f g.fcs ab.1) (readBits f g.fcs ab.2)
      (sums.map (·.1), (sums.foldl (fun fl y => fl ||| y.2) st.2) ||| x.flags)) (k.lanes, k.flags)

/-- A group can leave its router: every expected input has come, of a tree whose blocks are known (07 R126), or its timer has expired; at the root
its own packet is there. -/
def groupReady (s : State) (p : Parcel) (r : Region) (g : TreeGroup) : Bool :=
  (((expectedPorts s p r g.plot).all (fun n => (Tbl.find g.ins n).isSome) && (treePlots p r).all (blockKnown s p)) || g.expired) &&
  (rootPlot p r != g.plot || (Tbl.find g.ins 0).isSome)

/-- The plots of a tree whose bits the root expects: one whose block is not known yet (07 R126) counts as expected (log 55). -/
def expectedBits (s : State) (p : Parcel) (r : Region) : Nat :=
  (treePlots p r).foldl (fun m q => if localExpected s p q || !blockKnown s p q then m ||| 2 ^ ((plotY q - treeY p r) * r.w + (plotX q - treeX p r)) else m) 0

/-- Delivery at the root (R295, R296): the bytes of RES and its bitmap go to the root's command. -/
def deliverTree (s : State) (n : Nat) (r : Region) (g : TreeGroup) : State :=
  let p := getParcel s n
  let (lanes, f) := treeSum g
  let bits := g.ins.foldl (fun m x => m ||| x.2.bits) 0
  let full := expectedBits s p r &&& bits == expectedBits s p r
  let status := if full then 0 else if g.mark || g.rootBad then 4 else 3
  let w := if g.fmt = 0 then 8 else 4
  let s := modParcel s n fun p => shutGroup p g.plot g.tree g.grp
  match Tbl.find g.ins 0 with
  | none => s
  | some k =>
    match findCmd s k.cmd with
    | none => s
    | some c =>
      let s := modCmd s k.cmd fun c =>
        { c with phase := .run, acc := 1, pos := 0, buf := (lanes.flatMap (bytesOf w) ++ bytesOf 64 bits).map some, status := status,
                 cnt := popCount 512 bits, flags := c.flags ||| f }
      if status = 3 then
        let s := modParcel s n fun p => { p with timedOut := some (p.timedOut.getD (BitVec.ofNat 64 bits)) }
        raiseFault s { cls := .timeout, plot := c.l.plot, site := c.l.site, info0 := BitVec.ofNat 64 bits, report := true }
      else s

/-- TREE_FORWARD: a router sends its sum to its parent, or the root delivers. -/
def forwardGroup (s : State) (n : Nat) (g : TreeGroup) : State :=
  let p := getParcel s n
  match treeOf s g.plot g.tree with
  | none => s
  | some r =>
    if !groupReady s p r g then s
    else match treeParent p r g.plot with
      | none => deliverTree s n r g
      | some (up, port) =>
        let (lanes, f) := treeSum g
        let k : TreePkt :=
          { id := freshId s, plot := up, tree := g.tree, grp := g.grp, port := port, fmt := g.fmt, fcs := g.fcs, lanes := lanes,
            bits := g.ins.foldl (fun m x => m ||| x.2.bits) 0
            partial_ := g.ins.any (fun x => x.2.partial_) || !((expectedPorts s p r g.plot).all fun n => (Tbl.find g.ins n).isSome)
            mark := g.mark, flags := f, cmd := 0, res := 0, at_ := now s + 1 + 4 * crossings g.plot up }
        bumpId (modParcel s n fun p => { shutGroup p g.plot g.tree g.grp with treePkts := p.treePkts ++ [k] })

/-- The parcel of an open group. -/
def groupParcel (s : State) (plot tree grp : Nat) : Option (Nat × TreeGroup) :=
  (getPlot s plot).parcel.bind fun n => (findGroup (getParcel s n) plot tree grp).map fun g => (n, g)

def execTreeForward (plot tree grp : Nat) (s : State) : Out :=
  match groupParcel s plot tree grp with
  | some (n, g) => .next (if routerRuns s n then forwardGroup s n g else s)
  | none => .next s

/-- TREE_TIMEOUT (R295): the timer counts unfrozen cycles from the group's first input. -/
def timeoutGroup (s : State) (n : Nat) (g : TreeGroup) : State :=
  match treeOf s g.plot g.tree with
  | some r =>
    if r.tmo ≠ 0 ∧ g.since + cyclesOfNs r.tmo ≤ (getParcel s n).cycles then
      modParcel s n fun p => { p with treeGroups := mapIf (isGroup g.plot g.tree g.grp) (fun g => { g with expired := true }) p.treeGroups }
    else s
  | none => s
def execTreeTimeout (plot tree grp : Nat) (s : State) : Out :=
  match groupParcel s plot tree grp with
  | some (n, g) => .next (if routerRuns s n then timeoutGroup s n g else s)
  | none => .next s

end Sys2Proof.Machine
end

