-- ==== Sys2Proof/Machine/Dispatch.lean ====
section
/-!
DEFINITION. Dispatch: one arm for each row of the opcode table, each one call of the meaning of its instruction.
-/

namespace Sys2Proof.Machine

open Sys2Proof

def exec (i : Instr) (s : State) : Host.Outcome State Fault Refusal :=
  match i with
  | .nop r => Sys2Proof.Machine.execNop r s
  | .mov r => Sys2Proof.Machine.execMov r s
  | .movi im => Sys2Proof.Machine.execMovi im s
  | .drop r => Sys2Proof.Machine.execDrop r s
  | .sel r n => Sys2Proof.Machine.execSel r n s
  | .route r => Sys2Proof.Machine.execRoute r s
  | .eos r rc0 rc1 => Sys2Proof.Machine.execEos r rc0 rc1 s
  | .pand pa pb upd => Sys2Proof.Machine.execPand pa pb upd s
  | .por pa pb upd => Sys2Proof.Machine.execPor pa pb upd s
  | .pxor pa pb upd => Sys2Proof.Machine.execPxor pa pb upd s
  | .pandn pa pb upd => Sys2Proof.Machine.execPandn pa pb upd s
  | .cntAdd im => Sys2Proof.Machine.execCntAdd im s
  | .cntSet im => Sys2Proof.Machine.execCntSet im s
  | .flgRd r => Sys2Proof.Machine.execFlgRd r s
  | .flgClr im => Sys2Proof.Machine.execFlgClr im s
  | .rest upd => Sys2Proof.Machine.execRest upd s
  | .barArv g upd => Sys2Proof.Machine.execBarArv g upd s
  | .barWch dst sa g upd => Sys2Proof.Machine.execBarWch dst sa g upd s
  | .barMem sa g upd peek => Sys2Proof.Machine.execBarMem sa g upd peek s
  | .stgAcq dst ring role upd => Sys2Proof.Machine.execStgAcq dst ring role upd s
  | .stgRel sa ring role upd => Sys2Proof.Machine.execStgRel sa ring role upd s
  | .tmrRd r src => Sys2Proof.Machine.execTmrRd r src s
  | .trap im => Sys2Proof.Machine.execTrap im s
  | .brk im => Sys2Proof.Machine.execBrk im s
  | .specRd dst reg upd => Sys2Proof.Machine.execSpecRd dst reg upd s
  | .specWr sa reg upd => Sys2Proof.Machine.execSpecWr sa reg upd s
  | .waveNx upd => Sys2Proof.Machine.execWaveNx upd s
  | .add r c => Sys2Proof.Machine.execAdd r c s
  | .sub r c => Sys2Proof.Machine.execSub r c s
  | .addi im => Sys2Proof.Machine.execAddi im s
  | .mul r c => Sys2Proof.Machine.execMul r c s
  | .mulh r c => Sys2Proof.Machine.execMulh r c s
  | .mad r c => Sys2Proof.Machine.execMad r c s
  | .div r c => Sys2Proof.Machine.execDiv r c s
  | .rem r c => Sys2Proof.Machine.execRem r c s
  | .neg r c => Sys2Proof.Machine.execNeg r c s
  | .abs r c => Sys2Proof.Machine.execAbs r c s
  | .min r c => Sys2Proof.Machine.execMin r c s
  | .max r c => Sys2Proof.Machine.execMax r c s
  | .and r c => Sys2Proof.Machine.execAnd r c s
  | .or r c => Sys2Proof.Machine.execOr r c s
  | .xor r c => Sys2Proof.Machine.execXor r c s
  | .andn r c => Sys2Proof.Machine.execAndn r c s
  | .not r c => Sys2Proof.Machine.execNot r c s
  | .shl r c => Sys2Proof.Machine.execShl r c s
  | .shr r c => Sys2Proof.Machine.execShr r c s
  | .sar r c => Sys2Proof.Machine.execSar r c s
  | .rot r c => Sys2Proof.Machine.execRot r c s
  | .shli im => Sys2Proof.Machine.execShli im s
  | .clz r c => Sys2Proof.Machine.execClz r c s
  | .ctz r c => Sys2Proof.Machine.execCtz r c s
  | .popc r c => Sys2Proof.Machine.execPopc r c s
  | .bfe r c => Sys2Proof.Machine.execBfe r c s
  | .bfi r c => Sys2Proof.Machine.execBfi r c s
  | .ext r c => Sys2Proof.Machine.execExt r c s
  | .lea r c => Sys2Proof.Machine.execLea r c s
  | .cmp r c => Sys2Proof.Machine.execCmp r c s
  | .ccmp r c => Sys2Proof.Machine.execCcmp r c s
  | .iota r c => Sys2Proof.Machine.execIota r c s
  | .pack r c => Sys2Proof.Machine.execPack r c s
  | .unpk r c => Sys2Proof.Machine.execUnpk r c s
  | .shuf r c => Sys2Proof.Machine.execShuf r c s
  | .bcast r c => Sys2Proof.Machine.execBcast r c s
  | .vred r c => Sys2Proof.Machine.execVred r c s
  | .vscn r c => Sys2Proof.Machine.execVscn r c s
  | .filt r c => Sys2Proof.Machine.execFilt r c s
  | .xpnd r c => Sys2Proof.Machine.execXpnd r c s
  | .zpack r c => Sys2Proof.Machine.execZpack r c s
  | .zunpk r c => Sys2Proof.Machine.execZunpk r c s
  | .hash r c => Sys2Proof.Machine.execHash r c s
  | .fadd r c => Sys2Proof.Machine.execFadd r c s
  | .fsub r c => Sys2Proof.Machine.execFsub r c s
  | .fmul r c => Sys2Proof.Machine.execFmul r c s
  | .ffma r c => Sys2Proof.Machine.execFfma r c s
  | .fmin r c => Sys2Proof.Machine.execFmin r c s
  | .fmax r c => Sys2Proof.Machine.execFmax r c s
  | .fabs r c => Sys2Proof.Machine.execFabs r c s
  | .fneg r c => Sys2Proof.Machine.execFneg r c s
  | .fclt r c => Sys2Proof.Machine.execFclt r c s
  | .fcle r c => Sys2Proof.Machine.execFcle r c s
  | .fceq r c => Sys2Proof.Machine.execFceq r c s
  | .fcun r c => Sys2Proof.Machine.execFcun r c s
  | .fcvt r fcs => Sys2Proof.Machine.execFcvt r fcs s
  | .f2i r signed trunc c => Sys2Proof.Machine.execF2i r signed trunc c s
  | .i2f r signed c => Sys2Proof.Machine.execI2f r signed c s
  | .frnd r rd c => Sys2Proof.Machine.execFrnd r rd c s
  | .fscl r c => Sys2Proof.Machine.execFscl r c s
  | .fcls r c => Sys2Proof.Machine.execFcls r c s
  | .fdot r c => Sys2Proof.Machine.execFdot r c s
  | .q4dq r c => Sys2Proof.Machine.execQ4dq r c s
  | .q4q r c => Sys2Proof.Machine.execQ4q r c s
  | .dropm r c => Sys2Proof.Machine.execDropm r c s
  | .rnd r c => Sys2Proof.Machine.execRnd r c s
  | .frcp r c => Sys2Proof.Machine.execFrcp r c s
  | .frsq r c => Sys2Proof.Machine.execFrsq r c s
  | .fsqrt r c => Sys2Proof.Machine.execFsqrt r c s
  | .fex2 r c => Sys2Proof.Machine.execFex2 r c s
  | .flg2 r c => Sys2Proof.Machine.execFlg2 r c s
  | .fsin r c => Sys2Proof.Machine.execFsin r c s
  | .fcos r c => Sys2Proof.Machine.execFcos r c s
  | .ftnh r c => Sys2Proof.Machine.execFtnh r c s
  | .fsgm r c => Sys2Proof.Machine.execFsgm r c s
  | .fslu r c => Sys2Proof.Machine.execFslu r c s
  | .fdiv r c => Sys2Proof.Machine.execFdiv r c s
  | .ld m sx => Sys2Proof.Machine.execLd m sx s
  | .st m => Sys2Proof.Machine.execSt m s
  | .amo m op fcs => Sys2Proof.Machine.execAmo m op fcs s
  | .amoCas m => Sys2Proof.Machine.execAmoCas m s
  | .red m op fcs => Sys2Proof.Machine.execRed m op fcs s
  | .wfence dst scope => Sys2Proof.Machine.execWfence dst scope s
  | .mseal dst sa sb => Sys2Proof.Machine.execMseal dst sa sb s
  | .munseal dst sa => Sys2Proof.Machine.execMunseal dst sa s
  | .fltRd dst upd => Sys2Proof.Machine.execFltRd dst upd s
  | .rpr r act => Sys2Proof.Machine.execRpr r act s
  | .rqRd r => Sys2Proof.Machine.execRqRd r s
  | .rqWr r => Sys2Proof.Machine.execRqWr r s
  | .rqInj r val => Sys2Proof.Machine.execRqInj r val s
  | .ctxSv r => Sys2Proof.Machine.execCtxSv r s
  | .ctxLd r => Sys2Proof.Machine.execCtxLd r s
  | .tlbInv r reach => Sys2Proof.Machine.execTlbInv r reach s
  | .frz r => Sys2Proof.Machine.execFrz r s
  | .thw r => Sys2Proof.Machine.execThw r s
  | .cfgRld r => Sys2Proof.Machine.execCfgRld r s
  | .trCtl r => Sys2Proof.Machine.execTrCtl r s
  | .wpSet r n => Sys2Proof.Machine.execWpSet r n s
  | .irq r => Sys2Proof.Machine.execIrq r s
  | .spareMap r => Sys2Proof.Machine.execSpareMap r s
  | .polWr r => Sys2Proof.Machine.execPolWr r s
  | .tileNew r => Sys2Proof.Machine.execTileNew r s
  | .tileFree r => Sys2Proof.Machine.execTileFree r s
  | .tileShp r => Sys2Proof.Machine.execTileShp r s
  | .tileRd r => Sys2Proof.Machine.execTileRd r s
  | .tileWr r => Sys2Proof.Machine.execTileWr r s
  | .tileGat r => Sys2Proof.Machine.execTileGat r s
  | .tileSct r => Sys2Proof.Machine.execTileSct r s
  | .tileAcc r fcs => Sys2Proof.Machine.execTileAcc r fcs s
  | .tileFil r => Sys2Proof.Machine.execTileFil r s
  | .tileCpy r => Sys2Proof.Machine.execTileCpy r s
  | .tileQry r => Sys2Proof.Machine.execTileQry r s
  | .hashSet r => Sys2Proof.Machine.execHashSet r s
  | .bankRd r => Sys2Proof.Machine.execBankRd r s
  | .bankClr r => Sys2Proof.Machine.execBankClr r s
  | .strmOpn r m => Sys2Proof.Machine.execStrmOpn r m s
  | .strmCls r m => Sys2Proof.Machine.execStrmCls r m s
  | .sbar mask upd => Sys2Proof.Machine.execSbar mask upd s
  | .strmSt r m => Sys2Proof.Machine.execStrmSt r m s
  | .tlbPf r => Sys2Proof.Machine.execTlbPf r s
  | .wpArm r n mode => Sys2Proof.Machine.execWpArm r n mode s
  | .cmbFl r => Sys2Proof.Machine.execCmbFl r s
  | .cpy e => Sys2Proof.Machine.execCpy e s
  | .cpyNd e => Sys2Proof.Machine.execCpyNd e s
  | .cpyIx e => Sys2Proof.Machine.execCpyIx e s
  | .cpyIs e => Sys2Proof.Machine.execCpyIs e s
  | .gat e => Sys2Proof.Machine.execGat e s
  | .sct e => Sys2Proof.Machine.execSct e s
  | .sctAdd e fcs => Sys2Proof.Machine.execSctAdd e fcs s
  | .rdcTree e fcs => Sys2Proof.Machine.execRdcTree e fcs s
  | .coll e fcs => Sys2Proof.Machine.execColl e fcs s
  | .put e => Sys2Proof.Machine.execPut e s
  | .get e => Sys2Proof.Machine.execGet e s
  | .drillPush e n => Sys2Proof.Machine.execDrillPush e n s
  | .sig e raise vec => Sys2Proof.Machine.execSig e raise vec s
  | .adPf e me a b => Sys2Proof.Machine.execAdPf e me a b s
  | .mma x => Sys2Proof.Machine.execMma x s
  | .accClr x => Sys2Proof.Machine.execAccClr x s
  | .accRd x fcs => Sys2Proof.Machine.execAccRd x fcs s
  | .accLd x => Sys2Proof.Machine.execAccLd x s
  | .accRel x fcs => Sys2Proof.Machine.execAccRel x fcs s
  | .adInv x => Sys2Proof.Machine.execAdInv x s
  | .meCnt x => Sys2Proof.Machine.execMeCnt x s
  | .meIdl x => Sys2Proof.Machine.execMeIdl x s
  | .firingBeat l => Sys2Proof.Machine.execFiringBeat l s
  | .mmaStep l => Sys2Proof.Machine.execMmaStep l s
  | .mmaComplete l => Sys2Proof.Machine.execMmaComplete l s
  | .adapterClose l an => Sys2Proof.Machine.execAdapterClose l an s
  | .accumulatorRelease l an => Sys2Proof.Machine.execAccumulatorRelease l an s
  | .releaseBeat l wo => Sys2Proof.Machine.execReleaseBeat l wo s
  | .operandPacketFill l nodeB => Sys2Proof.Machine.execOperandPacketFill l nodeB s
  | .adapterSliceFill plot fill => Sys2Proof.Machine.execAdapterSliceFill plot fill s
  | .tokenArrive l port => Sys2Proof.Machine.execTokenArrive l port s
  | .tokenDepart l port => Sys2Proof.Machine.execTokenDepart l port s
  | .creditReturn l port => Sys2Proof.Machine.execCreditReturn l port s
  | .asyncResultVisible op => Sys2Proof.Machine.execAsyncResultVisible op s
  | .bankGrant plot bank => Sys2Proof.Machine.execBankGrant plot bank s
  | .streamAccess l m => Sys2Proof.Machine.execStreamAccess l m s
  | .streamComplete l m => Sys2Proof.Machine.execStreamComplete l m s
  | .waveEnter req => Sys2Proof.Machine.execWaveEnter req s
  | .pageWalkComplete die miss => Sys2Proof.Machine.execPageWalkComplete die miss s
  | .homeAccessPerform req => Sys2Proof.Machine.execHomeAccessPerform req s
  | .memoryResponse req => Sys2Proof.Machine.execMemoryResponse req s
  | .combineLineTimeout l line => Sys2Proof.Machine.execCombineLineTimeout l line s
  | .engineAcceptCommand cmd => Sys2Proof.Machine.execEngineAcceptCommand cmd s
  | .engineComplete cmd => Sys2Proof.Machine.execEngineComplete cmd s
  | .treePacketAccept packet => Sys2Proof.Machine.execTreePacketAccept packet s
  | .treeForward plot tree grp => Sys2Proof.Machine.execTreeForward plot tree grp s
  | .treeTimeout plot tree grp => Sys2Proof.Machine.execTreeTimeout plot tree grp s
  | .windowContribution c => Sys2Proof.Machine.execWindowContribution c s
  | .windowRoundEnd ctx win off => Sys2Proof.Machine.execWindowRoundEnd ctx win off s
  | .windowTimeout ctx win off => Sys2Proof.Machine.execWindowTimeout ctx win off s
  | .barrierArrivalCount l => Sys2Proof.Machine.execBarrierArrivalCount l s
  | .watchComplete l => Sys2Proof.Machine.execWatchComplete l s
  | .watchExpire l => Sys2Proof.Machine.execWatchExpire l s
  | .fidAssign die => Sys2Proof.Machine.execFidAssign die s
  | .launchLf3 fn q rec_ => Sys2Proof.Machine.execLaunchLf3 fn q rec_ s
  | .launchLf2 fn q rec_ => Sys2Proof.Machine.execLaunchLf2 fn q rec_ s
  | .queueDrain fn q => Sys2Proof.Machine.execQueueDrain fn q s
  | .queueAbort fn q => Sys2Proof.Machine.execQueueAbort fn q s
  | .hostReply die v => Sys2Proof.Machine.execHostReply die v s
  | .registerWrite fn off width value => Sys2Proof.Machine.execRegisterWrite fn off width value s
  | .hostMemoryWrite fn off bytes => Sys2Proof.Machine.execHostMemoryWrite fn off bytes s
  | .hostMemoryRead fn off len => Sys2Proof.Machine.execHostMemoryRead fn off len s
  | .hostAtomicRequest fn off => Sys2Proof.Machine.execHostAtomicRequest fn off s
  | .drillTakeRecord q => Sys2Proof.Machine.execDrillTakeRecord q s
  | .signalNode launch node => Sys2Proof.Machine.execSignalNode launch node s
  | .branchNode launch node => Sys2Proof.Machine.execBranchNode launch node s
  | .waitPoll launch node => Sys2Proof.Machine.execWaitPoll launch node s
  | .waitTimeout launch node => Sys2Proof.Machine.execWaitTimeout launch node s
  | .subgraphStart launch node => Sys2Proof.Machine.execSubgraphStart launch node s
  | .granaryEnter launch node => Sys2Proof.Machine.execGranaryEnter launch node s
  | .nodeAgeing launch node => Sys2Proof.Machine.execNodeAgeing launch node s
  | .launchTimeout launch => Sys2Proof.Machine.execLaunchTimeout launch s
  | .engineNodeDispatch launch node => Sys2Proof.Machine.execEngineNodeDispatch launch node s
  | .placeSection launch node => Sys2Proof.Machine.execPlaceSection launch node s
  | .jerixLookup launch node => Sys2Proof.Machine.execJerixLookup launch node s
  | .translationComplete xlate => Sys2Proof.Machine.execTranslationComplete xlate s
  | .preemptSection parcel => Sys2Proof.Machine.execPreemptSection parcel s
  | .parcelFrozen parcel => Sys2Proof.Machine.execParcelFrozen parcel s
  | .saveAreaWritten parcel => Sys2Proof.Machine.execSaveAreaWritten parcel s
  | .resumeSection parcel => Sys2Proof.Machine.execResumeSection parcel s
  | .configPacket plot packet => Sys2Proof.Machine.execConfigPacket plot packet s
  | .plotStart plot => Sys2Proof.Machine.execPlotStart plot s
  | .killParcelFree parcel => Sys2Proof.Machine.execKillParcelFree parcel s
  | .settleScan parcel => Sys2Proof.Machine.execSettleScan parcel s
  | .sectionRetire parcel => Sys2Proof.Machine.execSectionRetire parcel s
  | .sectionWatchdog parcel => Sys2Proof.Machine.execSectionWatchdog parcel s
  | .configRegionError p => Sys2Proof.Machine.execConfigRegionError p s
  | .configReloadDone p => Sys2Proof.Machine.execConfigReloadDone p s
  | .memoryError p correctable => Sys2Proof.Machine.execMemoryError p correctable s
  | .scrubRead p => Sys2Proof.Machine.execScrubRead p s
  | .powerThrottle milliwatts temp16 => Sys2Proof.Machine.execPowerThrottle milliwatts temp16 s
  | .thermalTrip temp16 => Sys2Proof.Machine.execThermalTrip temp16 s
  | .dvlLaneFail port => Sys2Proof.Machine.execDvlLaneFail port s
  | .linkDown port => Sys2Proof.Machine.execLinkDown port s
  | .tracePostCount plot => Sys2Proof.Machine.execTracePostCount plot s
  | .headlandConfigurationLoad die elems routes => Sys2Proof.Machine.execHeadlandConfigurationLoad die elems routes s
  | .hbmChannelSpare stack pa => Sys2Proof.Machine.execHbmChannelSpare stack pa s
  | .postPackageRepair pa => Sys2Proof.Machine.execPostPackageRepair pa s
  | .siloPurge => Sys2Proof.Machine.execSiloPurge s
  | .firmwareUpdate => Sys2Proof.Machine.execFirmwareUpdate s
  | .firmwareSwitch => Sys2Proof.Machine.execFirmwareSwitch s
  | .attestationRequest => Sys2Proof.Machine.execAttestationRequest s
  | .drillStep => Sys2Proof.Machine.execDrillStep s
  | .powerUp => Sys2Proof.Machine.execPowerUp s

end Sys2Proof.Machine
end

