-- ==== Sys2Proof/Machine/Fetch.lean ====
section
/-!
DEFINITION. An instruction placed where the next step fires it (log 13): an element of the right kind in a started plot, whose slot s0
holds the word under a trigger that is true, with tokens on its inputs and room on its outputs.
-/

namespace Sys2Proof.Machine

/-- The first site of a kind (spec 00 R3). -/
def firstSite : Kind → Nat
  | .ce => 0
  | .me => 16
  | .se => 20
  | .le => 24
  | .xe => 28
  | .fe => 30

/-- A mask of ports. -/
def portMask (ns : List (Fin 4)) : BitVec 4 := ns.foldl (fun m n => m ||| (1#4 <<< n.val)) 0

/-- The trigger of a placed action: its source channels, and the one width that its entry allows. -/
def placedTrig (i : Instr) : Trig :=
  { pc := 0, w := (match i with | .fltRd _ _ => .w8 | _ => .w1), ic := portMask i.chans, test := none, pm := 0, pv := 0 }

/-- The slot word of a placed action word. -/
def placedWord (nbits w : Nat) (i : Instr) : Word :=
  if nbits ≤ 32 then encodeTrig (placedTrig i) ++ BitVec.ofNat 32 w else BitVec.ofNat 64 w

/-- The values of a placed instruction's operands, token by token: 0, but for a seal one page of 64 KiB, for a release of a ring its first
stage, for a tile's shape one line of f32, and for a hash the five default masks. -/
def placedValue (i : Instr) (n : Nat) : Word :=
  match i with
  | .mseal .. | .munseal .. => 0x10000
  | .stgRel _ r _ _ => refWord ⟨true, r.val, 0, 0, true, 0⟩
  | .tileNew _ | .tileShp _ => 0x40003400
  | .hashSet _ => BitVec.ofNat 64 (2 ^ (6 + n % 5))
  | _ => 0

/-- An input with tokens: DATA. -/
def fullInput (depth : Nat) (v : Nat → Word) : InPort :=
  { q := { es := (List.range depth).map fun n => { body := some { val := (v n).setWidth 512 } } } }

/-- The element that holds a placed word. -/
def placedElem (k : Kind) (plot : Nat) (word : Word) (v : Nat → Word) : Elem :=
  let outs : Vector OutPort 4 := Vector.ofFn fun n => { route := some ⟨⟨plot, firstSite k + 1⟩, n, false, 0, false⟩ }
  { present := true, kind := k, fan := if k.hasWide then 0b0001 else 0b1111,
    slots := (Vector.replicate 16 0).set 0 word, tcnt := 0xFFFFFFFF,
    d := Vector.replicate 8 (if k.hasRegs then v 0 else 0), k := if k.hasRegs then v 0 else 0,
    ins := Vector.ofFn fun n => fullInput (inDepth k n) v, outs := outs }

/-- The tile that a placed scratchpad instruction works on: handle 0, one f32 row of a line; none for `tile.new`. -/
def placedTiles (i : Instr) : Tbl Tile :=
  match i with
  | .tileNew _ | .hashSet _ => []
  | _ => [(0, { alloc := true, level := 1, fmt := 1, rows := 1, rb := 64, site := 20, size := 64 })]

/-- The rings of a placed instruction: each of two stages, with this site granted either role; one released has its first stage owned. -/
def placedRings (i : Instr) (site : Nat) : Tbl Ring :=
  (List.range 8).map fun n =>
    (n, match i with
      | .stgRel _ _ .consumer _ => { stages := [{ full := true, owner := site, handle := 0 }, { handle := 1 }], grantP := some site, grantC := some site }
      | .stgRel .. => { stages := [{ owner := site, handle := 0 }, { handle := 1 }], grantP := some site, grantC := some site }
      | .stgAcq _ _ .consumer _ => { stages := [{ full := true, handle := 0 }, { handle := 1 }], grantP := some site, grantC := some site }
      | _ => { stages := [{ handle := 0 }, { handle := 1 }], grantP := some site, grantC := some site })

/-- The section that a placed element works for: one plot, with the element in every barrier group. -/
def placedParcel (sites : BitVec 32) (site : Nat) : Parcel :=
  { sites := [(0, sites)], bars := (List.range 32).map fun g => (g, { members := [(0, 1#32 <<< site)] }) }

/-- The buffers of a placed matrix instruction: 16 rows of 32 bf16 values. -/
def placedMe : MeUnit :=
  let b : OpBuf := { full := true, fmt := 2, rows := 16, rb := 64 }
  { nodeA := { bufs := [b] }, nodeB := { bufs := [b] } }

/-- A record that a placed `flt.rd` takes. -/
def placedFault (s : State) (i : Instr) : State :=
  match i with
  | .fltRd _ _ => raiseFault (modDie s 0 fun d => { d with handler := true }) { cls := .trap, plot := 0, site := 0, report := true, die := some 0 }
  | _ => s

/-- The machine with an instruction placed for its next step. -/
def placeWord (s : State) (nbits w : Nat) : State :=
  match tableWord nbits w with
  | none => s
  | some (k, hl, _, i) =>
    let plot := if hl then 512 else 0
    let site := firstSite k
    let l : Loc := ⟨plot, site⟩
    let s := placedFault s i
    let s := setElem s ⟨plot, site + 1⟩ { present := true, kind := k }
    let s := setElem s l (placedElem k plot (placedWord nbits w i) (placedValue i))
    let s := if k = .me then modMe s l fun _ => placedMe else s
    let s := modPlot s plot fun p => { p with started := true, tiles := placedTiles i, rings := placedRings i site }
    let s := if hl then s else
      let n := freshId s
      bumpId (modPlot { s with parcels := Tbl.put s.parcels n (placedParcel (3#32 <<< site) site) } plot fun p => { p with parcel := some n })
    modSched s fun c => { c with moves := [], agenda := [.elem l] }

end Sys2Proof.Machine
end

