-- ==== Sys2Proof/Machine/Step.lean ====
section
/-!
DEFINITION. One step of the machine: a move from outside, a turn of the cycle's agenda, or the tick of the clock (log 2). An element's
turn decodes the slot that the picker chooses (spec 08 R134) and runs it.
-/

namespace Sys2Proof.Machine

/-- A next state changed; a fault or a refusal kept. -/
def mapOut (f : State → State) : Out → Out
  | .next s => .next (f s)
  | .fault r => .fault r
  | .refused r => .refused r

/-- The turn of an element (spec 08 R134, R136). -/
def elemTurn (l : Loc) (s : State) : Out :=
  if hasRedo s l then exec (.firingBeat l) s
  else
    match pickSlot specOf s l with
    | some (n, x) => mapOut (fun t => modElem t l (movePtr n x.trig.pc)) (exec x.act (startFiring s l n x))
    | none => .next s

/-- The turn of another agent, which the next timing bit can put off to a later cycle. -/
def eventTurn (i : Instr) (s : State) : Out :=
  if exactTiming i then exec i s
  else match s.sched.stalls with
  | [] => exec i s
  | b :: bs =>
    let s := modSched s fun c => { c with stalls := bs }
    if b then .next s else exec i s

/-- One step. -/
def step (s : State) : Host.Outcome State Fault Refusal :=
  match s.sched.moves with
  | m :: ms => exec m (modSched s fun c => { c with moves := ms })
  | [] =>
    match s.sched.agenda with
    | .elem l :: ts => elemTurn l (modSched s fun c => { c with agenda := ts })
    | .ev i :: ts => eventTurn i (modSched s fun c => { c with agenda := ts })
    | [] => .next (tick s)

/-- The machine with an instruction placed where its next step fires it (log 13). -/
def State.withFetchWord (s : State) (nbits w : Nat) : State := placeWord s nbits w

end Sys2Proof.Machine
end

