-- ==== Sys2Proof/Safety.lean ====
section
/-!
DEFINITION. What counts as a safe state and a safe run: memory keeps its canonical form, and no step stops the machine.
-/

namespace Sys2Proof

open Machine

/-- Memory is in canonical form. -/
def MemoryOk (s : State) : Prop := Memory.wf s.mem = true

/-- A step that does not stop the machine. -/
def Runs (s : State) : Prop := ∃ t, Machine.step s = .next t

end Sys2Proof
end

