-- ==== Sys2Proof/Certificates/Slice0/Obligations.lean ====
section
/-!
DEFINITION. The statements about the model, each named for what it states, with the spec's rules that it rests on; `Sys2Proof.Say` holds what they
share. OBLIGATIONS.json lists them.
-/

/-! ### What the statements share -/

namespace Sys2Proof.Say

open Machine

/-- The fields of an action whose beat runs by the common rules (spec 08 R133 to R136), with no operation of its own. -/
def shape (d : Dst) (a b : Src) (u : PUpd) : FireSpec := { dst := d, sa := a, sb := b, upd := u, op := fun _ => .ok {} }
def shapeR (r : RAct) : FireSpec := specR r fun _ => .ok {}
def shapeR3 (r : RAct) : FireSpec := specR3 r fun _ => .ok {}
def shapeI (i : IAct) : FireSpec := specI i fun _ => .ok {}

/-- A normal beat can run at the cursor, by the encoded and implicit conditions of its action, and reads x. -/
structure Fires (sp : FireSpec) (s : State) (x : BeatIn) : Prop where
  present : (getElem s s.sched.cur.l).present = true
  ready : beatReady sp s = true
  reads : beatIn sp s = some x
  normal : s.sched.cur.mode = .normal

/-- A beat that gives flags f and outcome o: it commits, or, where a trap that is enabled meets one of its flags, it raises the
arithmetic trap and commits nothing (spec 02 R36, 08 R136). -/
def after (sp : FireSpec) (s : State) (x : BeatIn) (o : BeatOut) : State :=
  if o.flags &&& fpmTE x.e.fpm = 0 then commitBeat sp s o
  else holdBeat sp s x .arith 0 ((o.flags &&& fpmTE x.e.fpm).setWidth 64) 0

/-- A word as a result, with its flags; pmode 01 writes its bit 0 (spec 09 R138). -/
def word (v : Word) (f : Flags) : BeatOut := { v := v.setWidth 512, flags := f, pred := v.getLsbD 0 }

/-- Every beat of `i` that can run ends in a next state, with a result word and flags that P describes. -/
def Results (i : Instr) (sp : FireSpec) (P : BeatIn → Word → Flags → Prop) : Prop :=
  ∀ s x, Fires sp s x → ∃ v f, P x v f ∧ exec i s = .next (after sp s x (word v f))

/-- Lane j of width w of a word, and a lane read as signed or unsigned (spec 02 R25, 09 R151). -/
def lane (w j : Nat) (v : Word) : BitVec w := v.extractLsb' (w * j) w
def val (signed : Bool) {w : Nat} (x : BitVec w) : Int := if signed then x.toInt else (x.toNat : Int)

/-- A value lies in the range of a lane. -/
def inRange (signed : Bool) (w : Nat) (r : Int) : Prop :=
  if signed then -(2 : Int) ^ (w - 1) ≤ r ∧ r < (2 : Int) ^ (w - 1) else 0 ≤ r ∧ r < (2 : Int) ^ w

/-- The bits that Fit gives an exact result (spec 09 R151): of the value, or of the nearest bound under .sat. -/
def fitted (signed sat : Bool) (w : Nat) (r : Int) : BitVec w :=
  if sat then
    (if signed then
      (if r < -(2 : Int) ^ (w - 1) then BitVec.intMin w else if (2 : Int) ^ (w - 1) ≤ r then BitVec.intMax w else BitVec.ofInt w r)
    else (if r < 0 then 0#w else if (2 : Int) ^ w ≤ r then BitVec.allOnes w else BitVec.ofInt w r))
  else BitVec.ofInt w r

/-- The opcode of an action's word (spec 04 R65). -/
def opcodeOf (i : Instr) : Option (BitVec 7) := (encodeAction i).map fun w => w.extractLsb' 25 7

/-- Lanes of exact results through Fit, and the flag that any of them out of range raises. -/
def FitTo (signed sat : Bool) (w n : Nat) (r : Nat → Int) (v : Word) (f : Flags) : Prop :=
  (∀ j, j < n → lane w j v = fitted signed sat w (r j)) ∧
  ((f = 0#7 ∧ ∀ j, j < n → inRange signed w (r j)) ∨
    (f = (if sat then fSAT else fIOV) ∧ ∃ j, j < n ∧ ¬inRange signed w (r j)))

/-- Lanes that set no flag. -/
def Quiet (w n : Nat) (g : Nat → BitVec w) (v : Word) (f : Flags) : Prop := (∀ j, j < n → lane w j v = g j) ∧ f = 0#7

/-- Lane j of an operand, as an integer. -/
def aVal (c : IntCtl) (x : BeatIn) (j : Nat) : Int := val c.signed (lane (laneBits c.w) j x.a.toWord)
def bVal (c : IntCtl) (x : BeatIn) (j : Nat) : Int := val c.signed (lane (laneBits c.w) j x.b.toWord)
def oldVal (c : IntCtl) (x : BeatIn) (j : Nat) : Int := val c.signed (lane (laneBits c.w) j x.old)

/-- Lanes through Fit under the instruction's own control. -/
def FitLanes (c : IntCtl) (r : Nat → Int) : Word → Flags → Prop := FitTo c.signed c.sat (laneBits c.w) (laneCount c.w) r

/-- Lanes of the instruction's width that set no flag. -/
def QuietLanes (w : LaneW) (g : Nat → BitVec (laneBits w)) : Word → Flags → Prop := Quiet (laneBits w) (laneCount w) g

/-- The count that a shift takes from a lane: with erratum E2-02 modulo the width (spec 04 R86). -/
def count (x : BeatIn) (w : Nat) (n : Nat) : Nat := if x.e.err then n % w else n

/-- Set bits of m below bit j. -/
def rank (m : Word) (j : Nat) : Nat := ((List.range j).filter fun i => m.getLsbD i).length

/-- The mask of n lanes that a word holds in its low bits. -/
def maskOf (n : Nat) (m : Word) : Word := m &&& (BitVec.ofNat 64 (2 ^ n - 1))

/-- The lanes that a mask chooses, moved down in order (spec 09 R161). -/
def Filtered (w n : Nat) (a m v : Word) : Prop :=
  ∀ j, j < n → (m.getLsbD j = true → lane w (rank m j) v = lane w j a) ∧ (rank m n ≤ j → lane w j v = 0#w)

/-- The condition of a comparison on two lanes (spec 09 R158). -/
def holds (c : CmpCtl) (x y : Int) : Bool :=
  match c.cond with
  | .eq => decide (x = y)
  | .ne => decide (x ≠ y)
  | .lt => decide (x < y)
  | .le => decide (x ≤ y)

/-- Lane j of the operands of a comparison, under its condition. -/
def outcome (c : CmpCtl) (x : BeatIn) (j : Nat) : Bool :=
  holds c (val c.signed (lane (laneBits c.w) j x.a.toWord)) (val c.signed (lane (laneBits c.w) j x.b.toWord))

end Sys2Proof.Say

open Sys2Proof Sys2Proof.Machine Sys2Proof.Say

/-! ### Integer and lane instructions -/

/-- Spec 09 R151, R152, R154: `add`, `sub`, `mul`, `mad`, `neg` and signed `abs` give the exact lane result through Fit; `mulh`, `min`, `max` and the
bitwise instructions set no flag. The bitwise instructions are legal with fm[1] = 0 only, `not` with sb = 12 only, under their own opcodes. -/
def Obligations.IntegerArithmetic : Prop :=
  (∀ r c, Results (.add r c) (shapeR r) fun x => FitLanes c fun j => aVal c x j + bVal c x j) ∧
  (∀ r c, Results (.sub r c) (shapeR r) fun x => FitLanes c fun j => aVal c x j - bVal c x j) ∧
  (∀ r c, Results (.mul r c) (shapeR r) fun x => FitLanes c fun j => aVal c x j * bVal c x j) ∧
  (∀ r c, Results (.mad r c) (shapeR3 r) fun x => FitLanes c fun j => oldVal c x j + aVal c x j * bVal c x j) ∧
  (∀ r c, Results (.neg r c) (shapeR r) fun x => FitLanes c fun j => -aVal c x j) ∧
  (∀ r c, Results (.abs r c) (shapeR r) fun x => FitLanes c fun j => if c.signed ∧ aVal c x j < 0 then -aVal c x j else aVal c x j) ∧
  (∀ r c, Results (.mulh r c) (shapeR r) fun x => QuietLanes c.w fun j => BitVec.ofInt _ ((aVal c x j * bVal c x j).fdiv (2 ^ laneBits c.w))) ∧
  (∀ r c, Results (.min r c) (shapeR r) fun x => QuietLanes c.w fun j => lane _ j (if aVal c x j ≤ bVal c x j then x.a.toWord else x.b.toWord)) ∧
  (∀ r c, Results (.max r c) (shapeR r) fun x => QuietLanes c.w fun j => lane _ j (if bVal c x j ≤ aVal c x j then x.a.toWord else x.b.toWord)) ∧
  (∀ r c, Results (.and r c) (shapeR r) fun x v f => f = 0#7 ∧ ∀ i, i < 64 → v.getLsbD i = (x.a.toWord.getLsbD i && x.b.toWord.getLsbD i)) ∧
  (∀ r c, Results (.or r c) (shapeR r) fun x v f => f = 0#7 ∧ ∀ i, i < 64 → v.getLsbD i = (x.a.toWord.getLsbD i || x.b.toWord.getLsbD i)) ∧
  (∀ r c, Results (.xor r c) (shapeR r) fun x v f => f = 0#7 ∧ ∀ i, i < 64 → v.getLsbD i = (x.a.toWord.getLsbD i != x.b.toWord.getLsbD i)) ∧
  (∀ r c, Results (.andn r c) (shapeR r) fun x v f => f = 0#7 ∧ ∀ i, i < 64 → v.getLsbD i = (x.a.toWord.getLsbD i && !x.b.toWord.getLsbD i)) ∧
  (∀ r c, Results (.not r c) (shapeR r) fun x v f => f = 0#7 ∧ ∀ i, i < 64 → v.getLsbD i = !x.a.toWord.getLsbD i) ∧
  (∀ k hl r c, (Instr.and r c).wf k hl = true ∨ (Instr.or r c).wf k hl = true ∨ (Instr.xor r c).wf k hl = true ∨ (Instr.andn r c).wf k hl = true ∨
    (Instr.not r c).wf k hl = true → c.sat = false) ∧
  (∀ k hl r c, (Instr.not r c).wf k hl = true → r.sb = .zero) ∧
  (∀ r c, opcodeOf (.and r c) = some 0x2C#7 ∧ opcodeOf (.or r c) = some 0x2D#7 ∧ opcodeOf (.xor r c) = some 0x2E#7 ∧ opcodeOf (.andn r c) = some 0x2F#7 ∧
    opcodeOf (.not r c) = some 0x30#7)

namespace Sys2Proof.Say

open Machine

/-- A lane of a division overflows: signed, the most negative value by −1 (spec 09 R153). -/
def divOverflows (c : IntCtl) (x : BeatIn) (j : Nat) : Prop :=
  c.signed = true ∧ lane (laneBits c.w) j x.a.toWord = BitVec.intMin _ ∧ lane (laneBits c.w) j x.b.toWord = BitVec.allOnes _

/-- A lane is divided by zero. -/
def byZero (c : IntCtl) (x : BeatIn) (j : Nat) : Prop := lane (laneBits c.w) j x.b.toWord = 0#_

/-- The quotient and the remainder of a lane as spec 09 R153 gives them, an overflow of a D2 part aside. -/
def quotient (c : IntCtl) (a b : BitVec (laneBits c.w)) : BitVec (laneBits c.w) :=
  if b = 0#_ then BitVec.allOnes _ else if c.signed then BitVec.sdiv a b else a / b
def remainder (c : IntCtl) (a b : BitVec (laneBits c.w)) : BitVec (laneBits c.w) :=
  if b = 0#_ then a else if c.signed then BitVec.srem a b else a % b

end Sys2Proof.Say

/-- Spec 09 R153 with erratum E2-05 (04 R86): `div` and `rem` truncate toward zero; by zero they give all ones and a_j with DZ; the signed
overflow of `div` wraps with IOV, or on a kernel with ERR = 1 gives 0 without a flag. -/
def Obligations.Division : Prop :=
  (∀ r c, Results (.div r c) (shapeR r) fun x v f =>
    (∀ j, j < laneCount c.w → (x.e.err = true ∧ divOverflows c x j → lane (laneBits c.w) j v = 0#_) ∧
      (¬(x.e.err = true ∧ divOverflows c x j) → lane (laneBits c.w) j v = quotient c (lane _ j x.a.toWord) (lane _ j x.b.toWord))) ∧
    (f.getLsbD 1 = true ↔ ∃ j, j < laneCount c.w ∧ byZero c x j) ∧
    (f.getLsbD 6 = true ↔ x.e.err = false ∧ ∃ j, j < laneCount c.w ∧ divOverflows c x j) ∧ f &&& 0x3D#7 = 0#7) ∧
  (∀ r c, Results (.rem r c) (shapeR r) fun x v f =>
    (∀ j, j < laneCount c.w → lane (laneBits c.w) j v = remainder c (lane _ j x.a.toWord) (lane _ j x.b.toWord)) ∧
    (f.getLsbD 1 = true ↔ ∃ j, j < laneCount c.w ∧ byZero c x j) ∧ f &&& 0x7D#7 = 0#7)

namespace Sys2Proof.Say

open Machine

/-- n is the number of leading, or of trailing, zeros of x. -/
def Leading {w : Nat} (x : BitVec w) (n : Nat) : Prop := n ≤ w ∧ (∀ i, i < n → x.getLsbD (w - 1 - i) = false) ∧ (n < w → x.getLsbD (w - 1 - n) = true)
def Trailing {w : Nat} (x : BitVec w) (n : Nat) : Prop := n ≤ w ∧ (∀ i, i < n → x.getLsbD i = false) ∧ (n < w → x.getLsbD n = true)

/-- Set bits of a lane. -/
def ones {w : Nat} (x : BitVec w) : Nat := ((List.range w).filter fun i => x.getLsbD i).length

/-- pos and len of a bit-field word (spec 09 R157). -/
def pos (b : Word) : Nat := (b.extractLsb' 0 6).toNat
def len (b : Word) : Nat := min (b.extractLsb' 8 7).toNat 64

end Sys2Proof.Say

/-- Spec 09 R155 to R157 with erratum E2-02 (04 R86): shifts and rotations per lane, `addi` and `shli`; counts of bits, bit fields, extension and scaled
addresses. -/
def Obligations.ShiftsAndBitFields : Prop :=
  (∀ r c, Results (.shl r c) (shapeR r) fun x => FitLanes c fun j =>
    aVal c x j * 2 ^ count x (laneBits c.w) (lane (laneBits c.w) j x.b.toWord).toNat) ∧
  (∀ r c, Results (.shr r c) (shapeR r) fun x => QuietLanes c.w fun j =>
    (lane _ j x.a.toWord) >>> count x (laneBits c.w) (lane (laneBits c.w) j x.b.toWord).toNat) ∧
  (∀ r c, Results (.sar r c) (shapeR r) fun x => QuietLanes c.w fun j =>
    (lane _ j x.a.toWord).sshiftRight (count x (laneBits c.w) (lane (laneBits c.w) j x.b.toWord).toNat)) ∧
  (∀ r c, Results (.rot r c) (shapeR r) fun x => QuietLanes c.w fun j =>
    (lane _ j x.a.toWord).rotateLeft (lane (laneBits c.w) j x.b.toWord).toNat) ∧
  (∀ i, Results (.addi i) (shapeI i) fun x v f =>
    v = x.a.toWord + i.imm.signExtend 64 ∧ f = if BitVec.saddOverflow x.a.toWord (i.imm.signExtend 64) then fIOV else 0#7) ∧
  (∀ i, Results (.shli i) (shapeI i) fun x v f => v = x.a.toWord <<< (i.imm.extractLsb' 0 6).toNat ∧ f = 0#7) ∧
  (∀ k hl i, (Instr.shli i).wf k hl = true → i.imm.extractLsb' 6 6 = 0#6) ∧
  (∀ i, opcodeOf (.addi i) = some 0x22#7 ∧ opcodeOf (.shli i) = some 0x35#7) ∧
  (∀ r c, Results (.clz r c) (shapeR r) fun x v f => f = 0#7 ∧ ∀ j, j < laneCount c.w → Leading (lane (laneBits c.w) j x.a.toWord) (lane (laneBits c.w) j v).toNat) ∧
  (∀ r c, Results (.ctz r c) (shapeR r) fun x v f => f = 0#7 ∧ ∀ j, j < laneCount c.w → Trailing (lane (laneBits c.w) j x.a.toWord) (lane (laneBits c.w) j v).toNat) ∧
  (∀ r c, Results (.popc r c) (shapeR r) fun x v f => f = 0#7 ∧ ∀ j, j < laneCount c.w → (lane (laneBits c.w) j v).toNat = ones (lane (laneBits c.w) j x.a.toWord)) ∧
  (∀ r c, Results (.bfe r c) (shapeR r) fun x v f => f = 0#7 ∧ ∀ i, i < 64 →
    v.getLsbD i = if i < len x.b.toWord then x.a.toWord.getLsbD (pos x.b.toWord + i)
      else (c.signed && decide (0 < len x.b.toWord) && x.a.toWord.getLsbD (pos x.b.toWord + len x.b.toWord - 1))) ∧
  (∀ r c, Results (.bfi r c) (shapeR3 r) fun x v f => f = 0#7 ∧ ∀ i, i < 64 →
    v.getLsbD i = if pos x.b.toWord ≤ i ∧ i < pos x.b.toWord + len x.b.toWord then x.a.toWord.getLsbD (i - pos x.b.toWord) else x.old.getLsbD i) ∧
  (∀ r c, Results (.ext r c) (shapeR r) fun x v f => f = 0#7 ∧
    v = if c.signed then (lane (laneBits c.w) 0 x.a.toWord).signExtend 64 else (lane (laneBits c.w) 0 x.a.toWord).setWidth 64) ∧
  (∀ r c, Results (.lea r c) (shapeR r) fun x v f => f = 0#7 ∧
    v = x.a.toWord + (if c.signed then x.b.toWord else (x.b.toWord.setWidth 32).setWidth 64) * BitVec.ofNat 64 (laneBits c.w / 8))

/-- Spec 09 R158, R159: comparisons per lane, `ccmp` true only where its predicate was; lanes counted up, packed, widened, chosen and repeated. -/
def Obligations.ComparisonsAndLaneMoves : Prop :=
  (∀ r c, Results (.cmp r c) (shapeR r) fun x => QuietLanes c.w fun j => if outcome c x j then BitVec.allOnes _ else 0#_) ∧
  (∀ r c k, r.upd = .result k → Results (.ccmp r c) (shapeR r) fun x => QuietLanes c.w fun j =>
    if outcome c x j && x.e.p.getLsbD k.val then BitVec.allOnes _ else 0#_) ∧
  (∀ r c, Results (.iota r c) (shapeR r) fun x => FitLanes c fun j => aVal c x 0 + j * bVal c x 0) ∧
  (∀ r c, c.w ≠ .w8 → Results (.pack r c) (shapeR r) fun x => FitTo c.signed c.sat (laneBits c.w / 2) (2 * laneCount c.w) fun j =>
    if j < laneCount c.w then aVal c x j else bVal c x (j - laneCount c.w)) ∧
  (∀ r c, c.w ≠ .w64 → Results (.unpk r c) (shapeR r) fun x => Quiet (2 * laneBits c.w) (laneCount c.w / 2) fun j =>
    BitVec.ofInt _ (aVal c x ((if x.b.toWord.getLsbD 0 then laneCount c.w / 2 else 0) + j))) ∧
  (∀ r c, Results (.shuf r c) (shapeR r) fun x => QuietLanes c.w fun j =>
    if x.b.toWord.getLsbD (4 * j + 3) then 0#_ else lane _ ((x.b.toWord.extractLsb' (4 * j) 3).toNat % laneCount c.w) x.a.toWord) ∧
  (∀ r c, Results (.bcast r c) (shapeR r) fun x => QuietLanes c.w fun _ => lane _ ((x.b.toWord.extractLsb' 0 3).toNat % laneCount c.w) x.a.toWord)

/-- Spec 09 R160 to R163: sums across lanes, prefix sums; lanes filtered and expanded by a mask, compressed runs with their count in c0 and
masks in c1; SowHash (02 R38). -/
def Obligations.LaneSumsAndCompaction : Prop :=
  (∀ r c, Results (.vred r c) (shapeR r) fun x v f => FitTo c.signed c.sat 64 1
    (fun _ => ((List.range (laneCount c.w)).map (aVal c x)).sum + val c.signed x.b.toWord) v f) ∧
  (∀ r c, Results (.vscn r c) (shapeR r) fun x => FitLanes c fun j => ((List.range (j + 1)).map (aVal c x)).sum + bVal c x 0) ∧
  (∀ r c, Results (.hash r c) (shapeR r) fun x v f => f = 0#7 ∧ v = sowHash x.b.toWord x.a.toWord) ∧
  (∀ r c s x, Fires (shapeR r) s x → ∃ v, Filtered (laneBits c.w) (laneCount c.w) x.a.toWord (maskOf (laneCount c.w) x.b.toWord) v ∧
    exec (.filt r c) s = .next (commitBeat (shapeR r) s { v := v.setWidth 512, pred := decide (maskOf (laneCount c.w) x.b.toWord ≠ 0#64) })) ∧
  (∀ r c, Results (.xpnd r c) (shapeR r) fun x => QuietLanes c.w fun j =>
    if x.b.toWord.getLsbD j then lane _ (rank x.b.toWord j) x.a.toWord else 0#_) ∧
  (∀ r c s x, Fires (shapeR r) s x → ∃ v m, (∀ j, j < laneCount c.w → m.getLsbD j = decide (lane (laneBits c.w) j x.a.toWord ≠ 0#_)) ∧
    maskOf (laneCount c.w) m = m ∧ Filtered (laneBits c.w) (laneCount c.w) x.a.toWord m v ∧
    exec (.zpack r c) s = .next (commitBeat (shapeR r) s { word v 0#7 with upd := fun e => { e with
      c0 := e.c0 + BitVec.ofNat 64 (rank m (laneCount c.w)), c1 := (e.c1 >>> laneCount c.w) ||| (m <<< (64 - laneCount c.w)) } })) ∧
  (∀ r c s x, Fires (shapeR r) s x → ∃ v, (∀ j, j < laneCount c.w → lane (laneBits c.w) j v =
      if x.e.c1.getLsbD j then lane _ (rank x.e.c1 j) x.a.toWord else 0#_) ∧
    exec (.zunpk r c) s = .next (commitBeat (shapeR r) s { word v 0#7 with upd := fun e => { e with c1 := e.c1 >>> laneCount c.w } })) ∧
  (∀ k hl r c, (Instr.filt r c).wf k hl = true ∨ (Instr.xpnd r c).wf k hl = true ∨ (Instr.hash r c).wf k hl = true → c.sat = false) ∧
  (∀ r c, opcodeOf (.filt r c) = some 0x46#7 ∧ opcodeOf (.xpnd r c) = some 0x47#7 ∧ opcodeOf (.hash r c) = some 0x4A#7)

namespace Sys2Proof.Say

open Machine

/-- Every beat of `i` that can run ends in a next state, with the result that o gives. -/
def Gives (i : Instr) (sp : FireSpec) (o : BeatIn → BeatOut) : Prop := ∀ s x, Fires sp s x → exec i s = .next (after sp s x (o x))

/-- A whole beat as a result; pmode 01 writes its bit 0. -/
def beat (v : Beat) : BeatOut := { v := v, pred := v.getLsbD 0 }

/-- The outputs of the fan mask, in ascending order (spec 09 R140). -/
def fanOuts (e : Elem) : List (Fin 4) := ([0, 1, 2, 3] : List (Fin 4)).filter fun n => e.fan.getLsbD n.val

/-- A predicate of the element as committed. -/
def pred (x : BeatIn) (n : Fin 8) : Bool := x.e.p.getLsbD n.val

/-- The implicit conditions of `rest`: nothing is to be joined, and no matrix row is deferred (spec 09 R145). -/
def shapeRest (u : PUpd) : FireSpec := { shape .none .zero .zero u with ready := fun s l => !unjoined s l && (getMe s l).replay.isEmpty }

/-- The special registers' values (spec 09 R148). -/
def specialValue (x : BeatIn) : Spec → Word
  | .flg => (x.e.flg.setWidth 7).setWidth 64
  | .fpm => x.e.fpm
  | .pix => x.e.pix
  | .ws => x.e.ws
  | .eid => eidOf x.l
  | .pxy => pxyOf x.s x.l.plot
  | .tcnt => BitVec.ofNat 64 (x.e.tcnt.toNat + 2 ^ 32 * (x.e.resv % 8))
  | .pptr => BitVec.ofNat 64 (x.e.ptr[0].val + 16 * x.e.ptr[1].val + 256 * x.e.ptr[2].val)
  | .wave => x.e.waveNo.setWidth 64

end Sys2Proof.Say

/-! ### Control, predicates, counters, flags and special registers -/

/-- Spec 09 R139 to R142: the moves carry whole beats; `route` forwards the head of sa with its own tag to the output that sb chooses; `eos` sends LAST
and resets the counters that it names; the predicate operations read predicates as committed. -/
def Obligations.MovesAndPredicates : Prop :=
  (∀ r, Gives (.nop r) (shapeR r) fun _ => {}) ∧
  (∀ r, Gives (.mov r) (shapeR r) fun x => beat x.a) ∧
  (∀ i, Gives (.movi i) (shapeI i) fun _ => word (i.imm.signExtend 64) 0#7) ∧
  (∀ r, Gives (.drop r) (shapeR r) fun x => beat x.a) ∧
  (∀ r n, Gives (.sel r n) (shapeR r) fun x => beat (if pred x n then x.a else x.b)) ∧
  (∀ r s x n, Fires (shapeR r) s x → (fanOuts x.e)[x.b.toWord.toNat % (fanOuts x.e).length]? = some n →
    exec (.route r) s = .next (after (shapeR r) s x { beat x.a with tok := some { tag := x.tagA, val := x.a }, only := some n })) ∧
  (∀ r a b, Gives (.eos r a b) (shapeR r) fun x =>
    { pred := !r.sa.isCh || x.tagA == .last, tok := some { tag := .last, val := 0#512 }
      upd := fun e => { e with c0 := if a then 0#64 else e.c0, c1 := if b then 0#64 else e.c1 } }) ∧
  (∀ m n u, Gives (.pand m n u) (shape .none .zero .zero u) fun x => { pred := pred x m && pred x n }) ∧
  (∀ m n u, Gives (.por m n u) (shape .none .zero .zero u) fun x => { pred := pred x m || pred x n }) ∧
  (∀ m n u, Gives (.pxor m n u) (shape .none .zero .zero u) fun x => { pred := xor (pred x m) (pred x n) }) ∧
  (∀ m n u, Gives (.pandn m n u) (shape .none .zero .zero u) fun x => { pred := pred x m && !pred x n })

/-- Spec 09 R143 to R146, R148 to R150: counters count modulo 2^64 and report 0; `flg.clr` clears the flags of its mask; `tmr.rd` reads the two clocks; `rest` puts the
element at rest; special registers are read, `flg` gathers bits and may trap, `fpm` keeps TE and RD; `wave.nx` ends the wave. -/
def Obligations.CountersAndSpecialRegisters : Prop :=
  (∀ i, (i.dst = .c0 ∨ i.dst = .c1) → Gives (.cntAdd i) (shapeI i) fun x =>
    let v := (if i.dst = .c0 then x.e.c0 else x.e.c1) + i.imm.signExtend 64
    { v := v.setWidth 512, pred := decide (v = 0#64) }) ∧
  (∀ i, Gives (.cntSet i) (shapeI i) fun x =>
    let v := x.a.toWord + i.imm.signExtend 64
    { v := v.setWidth 512, pred := decide (v = 0#64) }) ∧
  (∀ r, Gives (.flgRd r) (shapeR r) fun x => word ((x.e.flg.setWidth 7).setWidth 64) 0#7) ∧
  (∀ i, Gives (.flgClr i) (shapeI i) fun x =>
    let m : Word := (i.imm.setWidth 7).setWidth 64
    { v := (x.e.flg &&& m).setWidth 512, pred := decide (x.e.flg &&& m ≠ 0#64), upd := fun e => { e with flg := e.flg &&& ~~~m } }) ∧
  (∀ r, Gives (.tmrRd r .ts) (shapeR r) fun x => word (BitVec.ofNat 64 (timestamp x.s)) 0#7) ∧
  (∀ r, Gives (.tmrRd r .cyc) (shapeR r) fun x => word (BitVec.ofNat 64 (sectionCycles x.s x.l.plot)) 0#7) ∧
  (∀ u, Gives (.rest u) (shapeRest u) fun _ => { upd := fun e => { e with resting := true } }) ∧
  (∀ d reg u, Gives (.specRd d reg u) (shape d .zero .zero u) fun x => word (specialValue x reg) 0#7) ∧
  (∀ a u, Gives (.specWr a .flg u) (shape .none a .zero u) fun x => word x.a.toWord (x.a.toWord.setWidth 7)) ∧
  (∀ a u, Gives (.specWr a .fpm u) (shape .none a .zero u) fun x =>
    { beat x.a with upd := fun e => { e with fpm := x.a.toWord &&& 0x7F03#64 } }) ∧
  (∀ u, Gives (.waveNx u) (shape .none .zero .zero u) fun x => { post := fun s => endWave s x.l })

/-- Spec 09 R147: the first beat of `trap` raises the software trap with its code and Value(sa) and commits nothing; that of `brk` does so in the breakpoint class
while the context's enable is set, and else completes as a `nop` that dequeues sa, as do the later beats of both, which the repair lets come. -/
def Obligations.SoftwareTraps : Prop :=
  (∀ i s x, Fires (shapeI i) s x → s.sched.cur.beat = 0 →
    exec (.trap i) s = .next (holdBeat (shapeI i) s x .trap 0 (i.imm.setWidth 64) x.a.toWord)) ∧
  (∀ i s x, Fires (shapeI i) s x → s.sched.cur.beat ≠ 0 → exec (.trap i) s = .next (commitBeat (shapeI i) s {})) ∧
  (∀ i s x, Fires (shapeI i) s x → s.sched.cur.beat = 0 → x.brkEn = true →
    exec (.brk i) s = .next (holdBeat (shapeI i) s x .brk 0 (i.imm.setWidth 64) x.a.toWord)) ∧
  (∀ i s x, Fires (shapeI i) s x → s.sched.cur.beat ≠ 0 ∨ x.brkEn = false → exec (.brk i) s = .next (commitBeat (shapeI i) s {}))

namespace Sys2Proof.Say

open Machine

/-- The implicit conditions of the synchronisation instructions (spec 08 R133, 16 R283, R284, R287). -/
def shapeArv (g : Fin 32) (u : PUpd) : FireSpec :=
  { shape .none .zero .zero u with ready := fun s l => s.sched.cur.beat != 0 || arrivalFree g (getElem s l).arrival }
def shapeWch (d : Dst) (a : Src) : FireSpec :=
  { shape d a .zero .none with async := true, ready := fun s l => s.sched.cur.beat != 0 || wsState (getElem s l).ws != 1 }
def shapeMem (a : Src) (u : PUpd) (pk : Bool) : FireSpec := { shape .none a .zero u with peek := pk, ready := proposalReady a pk }
def shapeAcq (d : Dst) (n : Fin 8) (role : Role) (u : PUpd) : FireSpec := { shape d .zero .zero u with ready := acquireReady n role }
def shapeRel (a : Src) (n : Fin 8) (role : Role) (u : PUpd) : FireSpec := { shape .none a .zero u with ready := releaseReady n role a }

/-- A group after an arrival of a generation is due: it counts in that generation only, and with the last member's the phase completes (spec 16 R282). -/
def counted (t : Nat) (l : Loc) (gen : Nat) (b : BarGroup) : BarGroup :=
  let b := if b.gen = gen then { b with arrived := l :: b.arrived } else b
  if ¬barMembers b = [] ∧ ∀ m ∈ barMembers b, m ∈ b.arrived then completePhase t b else b

end Sys2Proof.Say

/-! ### Barriers and stage rings -/

/-- Spec 16 R283: a member's `bar.arv` records its arrival at the group's present generation, countable at once when no request is to be
performed first; an element that is no member raises OPERAND; an arrival at another group that is not over goes on being counted behind it.
Spec 16 R284, R286: the first beat of `bar.wch` arms the element's watch, for T nanoseconds or without end, and a later beat nothing more (log 39); `bar.mem` proposes members; a word that is no
timeout, or no legal proposal, raises OPERAND. -/
def Obligations.BarrierInstructions : Prop :=
  (∀ g u s x, Fires (shapeArv g u) s x → barMember (barOf s x.l.plot g) x.l = true →
    exec (.barArv g u) s = .next (commitBeat (shapeArv g u) s { pred := true, post := arriveEffect g x.l })) ∧
  (∀ g u s x, Fires (shapeArv g u) s x → barMember (barOf s x.l.plot g) x.l = false →
    exec (.barArv g u) s = .next (holdBeat (shapeArv g u) s x .operand 0 0 0)) ∧
  (∀ g l s, (getElem s l).arrival = none →
    (getElem (arriveEffect g l s) l).arrival = some
      { group := g, gen := (barOf s l.plot g).gen, done := false, counted := false, after := unperformed s l
        countAt := if unperformed s l = [] then some (syncNow s l.plot + barLatency (barOf s l.plot g)) else none }) ∧
  (∀ g l s a, (getElem s l).arrival = some a → a.group ≠ g → a.done = false → (getElem (arriveEffect g l s) l).late = (getElem s l).late ++ [a]) ∧
  (∀ d a g u s x, Fires (shapeWch d a) s x → x.a.toWord.toNat < 2 ^ 32 →
    exec (.barWch d a g u) s = .next (commitBeat (shapeWch d a) s { post := watchEffect d g u x.l x.a.toWord.toNat })) ∧
  (∀ d a g u s x, Fires (shapeWch d a) s x → 2 ^ 32 ≤ x.a.toWord.toNat →
    exec (.barWch d a g u) s = .next (holdBeat (shapeWch d a) s x .operand 0 x.a.toWord 0)) ∧
  (∀ d g u l s t, s.sched.cur.beat ≠ 0 → watchEffect d g u l t s = s) ∧
  (∀ g u l s t, s.sched.cur.beat = 0 → (getElem (watchEffect .none g u l t s) l).watch = some
    { group := g, target := watchTarget s l g, armedAt := syncNow s l.plot, upd := u, rid := 0
      expireAt := if t = 0 then none else some (syncNow s l.plot + cyclesOfNs t) }) ∧
  (∀ a g u pk s x q m, Fires (shapeMem a u pk) s x → proposal s x.l.plot x.a.toWord = some (q, m) →
    exec (.barMem a g u pk) s = .next (commitBeat (shapeMem a u pk) s
      { pred := m.getLsbD 0, post := fun s => modBar s x.l.plot g fun b => { b with pending := Tbl.put b.pending q m } })) ∧
  (∀ a g u pk s x, Fires (shapeMem a u pk) s x → proposal s x.l.plot x.a.toWord = none →
    exec (.barMem a g u pk) s = .next (holdBeat (shapeMem a u pk) s x .operand 0 x.a.toWord 0))

/-- Spec 16 R287, 11 R192: `stg.acq` gives the stage's reference word and takes ownership, the role's index going on around the ring;
`stg.rel` gives the stage up, full after a producer and empty after a consumer, or raises OPERAND. -/
def Obligations.StageRings : Prop :=
  (∀ d n role u s x r, Fires (shapeAcq d n role u) s x → ringOf s x.l.plot n = some r →
    exec (.stgAcq d n role u) s = .next (commitBeat (shapeAcq d n role u) s
      { v := (stageRef s x.l.plot n r role).setWidth 512, pred := true
        post := fun s => modRing s x.l.plot n (acquireStage role x.l.site) })) ∧
  (∀ site (r : Ring), (acquireStage .producer site r).pi = (r.pi + 1) % r.stages.length ∧ (acquireStage .producer site r).ci = r.ci ∧
    (acquireStage .consumer site r).ci = (r.ci + 1) % r.stages.length ∧ (acquireStage .consumer site r).pi = r.pi) ∧
  (∀ role site (r : Ring) i, (acquireStage role site r).stages[i]? =
    (r.stages[i]?).map fun st => if i = ringIndex r role then { st with owner := site } else st) ∧
  (∀ a n role u s x ref st, Fires (shapeRel a n role u) s x → releaseOf s x.l n role x.a.toWord = some (ref, st) →
    exec (.stgRel a n role u) s = .next (commitBeat (shapeRel a n role u) s
      { pred := true, post := fun s => modRing s x.l.plot n (releaseStage role ref.stage) })) ∧
  (∀ role i (r : Ring) k, (releaseStage role i r).stages[k]? =
    (r.stages[k]?).map fun st => if k = i then { st with full := decide (role = .producer), owner := 63 } else st) ∧
  (∀ a n role u s x, Fires (shapeRel a n role u) s x → releaseOf s x.l n role x.a.toWord = none →
    exec (.stgRel a n role u) s = .next (holdBeat (shapeRel a n role u) s x .operand 0 x.a.toWord 0))

/-- Spec 16 R282, R285: the steps of a barrier. A countable arrival is counted in its generation when it is due, and the last one completes the phase: the generation
goes up modulo 65,536 and the proposed members take the places of the former ones of their plots. A watch that sees its completion ends COMPLETE, one that
expires without it EXPIRED. (The first, for an element with no arrival at another group behind it, in a section that runs and whose blocks are known.) -/
def Obligations.BarrierSteps : Prop :=
  (∀ l s a t p, (getElem s l).arrival = some a → (getElem s l).late = [] → plotStopped s l.plot = false → membersKnown s l.plot = true → a.countAt = some t →
    a.counted = false → t ≤ syncNow s l.plot → (getPlot s l.plot).parcel = some p → (Tbl.find s.parcels p).isSome = true →
    ∃ u, exec (.barrierArrivalCount l) s = .next u ∧ barOf u l.plot a.group = counted (syncNow s l.plot) l a.gen (barOf s l.plot a.group) ∧
      (∀ g, g ≠ a.group → barOf u l.plot g = barOf s l.plot g) ∧ u.mem = s.mem ∧
      getElem u l = { getElem s l with
        arrival := some { a with counted := true, done := a.done || observed (barOf u l.plot a.group) a.gen (syncNow s l.plot) } }) ∧
  (∀ t (b : BarGroup), (completePhase t b).gen = (b.gen + 1) % 65536 ∧ (completePhase t b).arrived = [] ∧ (completePhase t b).pending = []) ∧
  (∀ t (b : BarGroup) plot, (b.pending.map (·.1)).Nodup → Tbl.find (completePhase t b).members plot = (Tbl.find b.pending plot).or (Tbl.find b.members plot)) ∧
  (∀ l s w, (getElem s l).watch = some w → watchRuns s l = true → watchSees s l w = true →
    exec (.watchComplete l) s = .next (resolveWatch s l w 2)) ∧
  (∀ l s w t, (getElem s l).watch = some w → watchRuns s l = true → watchSees s l w = false → w.expireAt = some t → t ≤ syncNow s l.plot →
    exec (.watchExpire l) s = .next (resolveWatch s l w 3)) ∧
  (∀ l s w st, w.rid = 0 → w.upd = .none → (getElem (resolveWatch s l w st) l).ws = wsWord w.group st ∧ (getElem (resolveWatch s l w st) l).watch = none)

namespace Sys2Proof.Say

open Machine

/-- Lane j of a word in a format's width, as a number, and as F reads it (spec 10 R165). -/
def flane (c : FpCtl) (j : Nat) (v : Word) : Nat := (lane (fpWidth c) j v).toNat
def rlane (c : FpCtl) (j : Nat) (v : Word) : Nat := readBits (fmtOf c.fmt) c.fcs (flane c j v)

/-- Lanes with the flags that they raise, which are ORed together (spec 09 R151, 10 R165). -/
def FlaggedLanes (w n : Nat) (g : Nat → Nat × Flags) (v : Word) (f : Flags) : Prop :=
  (∀ j, j < n → (lane w j v).toNat = (g j).1 % 2 ^ w) ∧ f = ((List.range n).map fun j => (g j).2).foldl (· ||| ·) 0#7

def FpTo (c : FpCtl) (g : Nat → Nat × Flags) : Word → Flags → Prop := FlaggedLanes (fpWidth c) (fpCount c) g

/-- A lane result where no operand is NaN: the exact value rounded once, or an invalid operation (spec 10 R166). -/
def exactly (f : Fmt) (rd : Dir) (fcs : Fcs) (nan : Option (Nat × Flags)) (v : Option Val) : Nat × Flags :=
  match nan, v with
  | some r, _ => r
  | none, some v => roundVal f rd fcs v
  | none, none => (canonNaN f, fNV)

/-- The direction in `fpm` as committed. -/
def rdir (x : BeatIn) : Dir := dirOf (x.e.fpm.toNat % 4)

/-- A comparison's lane: all ones where it holds; NV for a NaN, or only for a signalling one (spec 10 R168). -/
def compared (f : Fmt) (sigOnly : Bool) (test : Val → Val → Bool) (a b : Nat) : Nat × Flags :=
  (if test (unpack f a) (unpack f b) then 2 ^ fmtWidth f - 1 else 0,
   if (if sigOnly then (unpack f a).isSNaN || (unpack f b).isSNaN else (unpack f a).isNaN || (unpack f b).isNaN) then fNV else 0#7)

/-- A sign operation: NaNs by spec 02 R37, every other value with its other bits kept (spec 10 R167). -/
def signed (f : Fmt) (fcs : Fcs) (a : Nat) (r : Nat) : Nat × Flags :=
  if (unpack f a).isSNaN then (canonNaN f, fNV) else if (unpack f a).isNaN && fcs.c then (canonNaN f, 0#7) else (r, 0#7)

/-- A special function's lane: NaN first, then infinities, zeros and other values; none is an invalid operation (spec 10 R183). -/
def specialLane (f : Fmt) (fcs : Fcs) (a : Nat) (onInf onZero : Bool → Nat × Flags) (onFin : Bool → Nat → Int → Option (Nat × Flags)) : Nat × Flags :=
  match nanOf f fcs [(f, a)], unpack f a with
  | some r, _ => r
  | none, .inf n => onInf n
  | none, .fin n m e => if m = 0 then onZero n else (onFin n m e).getD (canonNaN f, fNV)
  | none, .nan _ => (canonNaN f, fNV)

/-- The lanes of a special function whose other values are rounded by `rounding`. -/
def Special (c : FpCtl) (x : BeatIn) (rounding : Rounding) (onInf onZero : Bool → Nat × Flags) (onFin : Bool → Nat → Int → Option Signed) :
    Word → Flags → Prop :=
  FpTo c fun j => specialLane (fmtOf c.fmt) c.fcs (rlane c j x.a.toWord) onInf onZero
    fun n m e => (onFin n m e).map (rounding (rlane c j x.a.toWord) (rdir x) c.fcs)

/-- Zeros, infinities, powers of two and the invalid result of a format, with their flags. -/
def z (c : FpCtl) (n : Bool) : Nat × Flags := (signBit (fmtOf c.fmt) n, 0#7)
def infty (c : FpCtl) (n : Bool) (f : Flags) : Nat × Flags := (infBits (fmtOf c.fmt) n, f)
def pow2 (c : FpCtl) (n : Bool) (e : Int) : Nat × Flags := ((roundVal (fmtOf c.fmt) .rne ⟨false, false, false⟩ (.fin n 1 e)).1, 0#7)
def bad (c : FpCtl) : Nat × Flags := (canonNaN (fmtOf c.fmt), fNV)

end Sys2Proof.Say

namespace Sys2Proof.Say

open Machine

/-- The lanes that a conversion converts, and the lane of sa and the lane of the result that lane i of them is (spec 10 R170). -/
def cvtCount (d : CvtDesc) : Nat := 64 / max (fmtWidth d.src) (fmtWidth d.dst)
def cvtFrom (d : CvtDesc) (i : Nat) : Nat := if fmtWidth d.dst ≤ fmtWidth d.src then i else d.part * cvtCount d + i
def cvtTo (d : CvtDesc) (i : Nat) : Nat := if fmtWidth d.dst ≤ fmtWidth d.src then d.part * cvtCount d + i else i

/-- Lane i converted with a value of c1, which stochastic rounding takes its random word from (spec 02 R35, 10 R170). -/
def cvtResult (d : CvtDesc) (fcs : Fcs) (x : BeatIn) (c1 : Word) (i : Nat) : Nat × Flags :=
  cvtLane d.src d.dst (dirOfCode d.rnd ((sowHash x.e.k c1).toNat % 2 ^ 16)) fcs (lane (fmtWidth d.src) (cvtFrom d i) x.a.toWord).toNat

/-- What `fcvt` gives: c i is c1 before lane i. It advances at each lane under stochastic rounding, with erratum E2-04 at an inexact one only. -/
def Converted (r : RAct) (d : CvtDesc) (fcs : Fcs) (x : BeatIn) (v : Word) (f : Flags) (c1 : Word) : Prop :=
  ∃ c : Nat → Word, c 0 = x.e.c1 ∧ c (cvtCount d) = c1 ∧
    (∀ i, i < cvtCount d →
      c (i + 1) = if d.rnd = 4 ∧ (x.e.err = false ∨ (cvtResult d fcs x (c i) i).2 &&& fNX ≠ 0#7) then c i + 1#64 else c i) ∧
    f = ((List.range (cvtCount d)).map fun i => (cvtResult d fcs x (c i) i).2).foldl (· ||| ·) 0#7 ∧
    (∀ i, i < cvtCount d → (lane (fmtWidth d.dst) (cvtTo d i) v).toNat = (cvtResult d fcs x (c i) i).1 % 2 ^ fmtWidth d.dst) ∧
    (∀ j, j < 64 / fmtWidth d.dst → (∀ i, i < cvtCount d → j ≠ cvtTo d i) →
      lane (fmtWidth d.dst) j v = if fmtWidth d.dst < fmtWidth d.src ∧ r.dst.isReg = true then lane (fmtWidth d.dst) j x.old else 0#_)

end Sys2Proof.Say

/-! ### Floating point -/

/-- Spec 02 R34, R37, 10 R166, R176: sums, products and dot products are rounded once from the exact value. -/
def Obligations.FloatArithmetic : Prop :=
  (∀ r c, Results (.fadd r c) (shapeR r) fun x => FpTo c fun j =>
    let f := fmtOf c.fmt; let a := rlane c j x.a.toWord; let b := rlane c j x.b.toWord
    exactly f (rdir x) c.fcs (nanOf f c.fcs [(f, a), (f, b)]) (addVal (rdir x) (unpack f a) (unpack f b))) ∧
  (∀ r c, Results (.fmul r c) (shapeR r) fun x => FpTo c fun j =>
    let f := fmtOf c.fmt; let a := rlane c j x.a.toWord; let b := rlane c j x.b.toWord
    exactly f (rdir x) c.fcs (nanOf f c.fcs [(f, a), (f, b)]) (mulVal (unpack f a) (unpack f b))) ∧
  (∀ r c, Results (.fsub r c) (shapeR r) fun x => FpTo c fun j =>
    let f := fmtOf c.fmt; let a := rlane c j x.a.toWord; let b := rlane c j x.b.toWord
    let nb := if (unpack f b).isNaN then b else b ^^^ 2 ^ (fmtWidth f - 1)
    exactly f (rdir x) c.fcs (nanOf f c.fcs [(f, a), (f, nb)]) (addVal (rdir x) (unpack f a) (unpack f nb))) ∧
  (∀ r c, Results (.ffma r c) (shapeR3 r) fun x => FpTo c fun j =>
    fpFma (fmtOf c.fmt) (rdir x) c.fcs (rlane c j x.a.toWord) (rlane c j x.b.toWord) (rlane c j x.old)) ∧
  (∀ r c, Results (.fdot r c) (shapeR3 r) fun x => FlaggedLanes (fmtWidth (dotFmt c.fmt)) (64 / fmtWidth (dotFmt c.fmt)) fun j =>
    dotLane (fmtOf c.fmt) (dotFmt c.fmt) (rdir x) c.fcs (rlane c (2 * j) x.a.toWord) (rlane c (2 * j + 1) x.a.toWord)
      (rlane c (2 * j) x.b.toWord) (rlane c (2 * j + 1) x.b.toWord)
      (readBits (dotFmt c.fmt) c.fcs (lane (fmtWidth (dotFmt c.fmt)) j x.old).toNat))

/-- Spec 10 R167, R168, R175: selection, signs, comparisons and classes. -/
def Obligations.FloatComparisons : Prop :=
  (∀ r c, Results (.fmin r c) (shapeR r) fun x => FpTo c fun j => fpSelect (fmtOf c.fmt) c.fcs x.e.err true (rlane c j x.a.toWord) (rlane c j x.b.toWord)) ∧
  (∀ r c, Results (.fmax r c) (shapeR r) fun x => FpTo c fun j => fpSelect (fmtOf c.fmt) c.fcs x.e.err false (rlane c j x.a.toWord) (rlane c j x.b.toWord)) ∧
  (∀ r c, Results (.fabs r c) (shapeR r) fun x => FpTo c fun j =>
    signed (fmtOf c.fmt) c.fcs (rlane c j x.a.toWord) (rlane c j x.a.toWord % 2 ^ (fpWidth c - 1))) ∧
  (∀ r c, Results (.fneg r c) (shapeR r) fun x => FpTo c fun j =>
    signed (fmtOf c.fmt) c.fcs (rlane c j x.a.toWord) (rlane c j x.a.toWord ^^^ 2 ^ (fpWidth c - 1))) ∧
  (∀ r c, Results (.fclt r c) (shapeR r) fun x => FpTo c fun j => compared (fmtOf c.fmt) false ltVal (rlane c j x.a.toWord) (rlane c j x.b.toWord)) ∧
  (∀ r c, Results (.fcle r c) (shapeR r) fun x => FpTo c fun j =>
    compared (fmtOf c.fmt) false (fun a b => ltVal a b || eqVal a b) (rlane c j x.a.toWord) (rlane c j x.b.toWord)) ∧
  (∀ r c, Results (.fceq r c) (shapeR r) fun x => FpTo c fun j => compared (fmtOf c.fmt) true eqVal (rlane c j x.a.toWord) (rlane c j x.b.toWord)) ∧
  (∀ r c, Results (.fcun r c) (shapeR r) fun x => FpTo c fun j =>
    compared (fmtOf c.fmt) true (fun a b => a.isNaN || b.isNaN) (rlane c j x.a.toWord) (rlane c j x.b.toWord)) ∧
  (∀ r c, Results (.fcls r c) (shapeR r) fun x => FpTo c fun j => (2 ^ fpClass (fmtOf c.fmt) (flane c j x.a.toWord), 0#7))

/-- Spec 10 R169 to R174, with erratum E2-04 (04 R86): conversions. `fcvt` reads its descriptor from sb, and a word that is none raises OPERAND; lane by
lane, each of the N lanes of the group PART is converted with the c1 that the lanes before it left, the flags are ORed, the other lanes of a
narrowing conversion keep those of a register destination, or are 0, and c1 advances under stochastic rounding only. `f2i`, `i2f`, `frnd` and `fscl` convert each lane
by itself, under the direction in `fpm` or the one that they name. -/
def Obligations.Conversions : Prop :=
  (∀ w d, cvtDesc w = some d ↔
    fmtOfCode (w.extractLsb' 0 4).toNat = some d.src ∧ fmtOfCode (w.extractLsb' 4 4).toNat = some d.dst ∧ (w.extractLsb' 8 3).toNat = d.rnd ∧
    (w.extractLsb' 16 3).toNat = d.part ∧ d.rnd ≤ 5 ∧ w.extractLsb' 11 5 = 0#5 ∧ w.extractLsb' 19 45 = 0#45 ∧
    d.part < max (fmtWidth d.src) (fmtWidth d.dst) / min (fmtWidth d.src) (fmtWidth d.dst)) ∧
  (∀ r fcs s x, Fires (shapeR3 r) s x → cvtDesc x.b.toWord = none →
    exec (.fcvt r fcs) s = .next (holdBeat (shapeR3 r) s x .operand 0 x.b.toWord 0)) ∧
  (∀ r fcs s x d, Fires (shapeR3 r) s x → cvtDesc x.b.toWord = some d →
    ∃ v f c1, Converted r d fcs x v f c1 ∧ exec (.fcvt r fcs) s = .next (after (shapeR3 r) s x { word v f with upd := fun e => { e with c1 := c1 } })) ∧
  (∀ r sg tr c, Results (.f2i r sg tr c) (shapeR r) fun x => FpTo c fun j =>
    f2iLane (fmtOf c.fmt) sg (if tr then .rtz else rdir x) (rlane c j x.a.toWord)) ∧
  (∀ r sg c, Results (.i2f r sg c) (shapeR r) fun x => FpTo c fun j =>
    let i := val sg (lane (fpWidth c) j x.a.toWord)
    roundVal (fmtOf c.fmt) (rdir x) c.fcs (.fin (decide (i < 0)) i.natAbs 0)) ∧
  (∀ r rd c, Results (.frnd r rd c) (shapeR r) fun x => FpTo c fun j =>
    frndLane (fmtOf c.fmt) ((rd.map dirOfRCode).getD (rdir x)) c.fcs (rlane c j x.a.toWord)) ∧
  (∀ r c, Results (.fscl r c) (shapeR r) fun x => FpTo c fun j =>
    fsclLane (fmtOf c.fmt) (rdir x) c.fcs (rlane c j x.a.toWord) (flane c j x.b.toWord))

/-- Spec 10 R177 to R181, 02 R32, R38: Q4N codes and the random streams, which advance once per lane. -/
def Obligations.QuantisedAndRandom : Prop :=
  (∀ r c s x, Fires (shapeR r) s x → q4Word c x.b.toWord = none →
    exec (.q4dq r c) s = .next (holdBeat (shapeR r) s x .operand 0 x.b.toWord 0)) ∧
  (∀ r c s x p sc, Fires (shapeR r) s x → q4Word c x.b.toWord = some (p, sc) →
    ∃ v, exec (.q4dq r c) s = .next (commitBeat (shapeR r) s (word v 0#7)) ∧
      ∀ j, j < fpCount c → flane c j v =
        (roundVal (fmtOf c.fmt) .rne ⟨false, false, false⟩ (q4Value (lane 4 (fpCount c * p + j) x.a.toWord).toNat sc)).1 % 2 ^ fpWidth c) ∧
  (∀ r c s x, Fires (shapeR3 r) s x → q4Word c x.b.toWord = none →
    exec (.q4q r c) s = .next (holdBeat (shapeR3 r) s x .operand 0 x.b.toWord 0)) ∧
  (∀ r c s x p sc, Fires (shapeR3 r) s x → q4Word c x.b.toWord = some (p, sc) →
    ∃ v f, exec (.q4q r c) s = .next (after (shapeR3 r) s x (word v f)) ∧
      f = ((List.range (fpCount c)).map fun j => (q4Encode (unpack (fmtOf c.fmt) (rlane c j x.a.toWord)) sc).2).foldl (· ||| ·) 0#7 ∧
      ∀ j, j < 16 → lane 4 j v = if fpCount c * p ≤ j ∧ j < fpCount c * p + fpCount c then
          BitVec.ofNat 4 (q4Encode (unpack (fmtOf c.fmt) (rlane c (j - fpCount c * p) x.a.toWord)) sc).1 else lane 4 j x.old) ∧
  (∀ r c s x, Fires (shapeR r) s x → x.b.toWord.extractLsb' 16 16 ≠ 0#16 →
    exec (.dropm r c) s = .next (holdBeat (shapeR r) s x .operand 0 x.b.toWord 0)) ∧
  (∀ r c s x, Fires (shapeR r) s x → x.b.toWord.extractLsb' 16 16 = 0#16 →
    let keep (j : Nat) : Bool := decide ((sowHash x.e.k (x.e.c0 + BitVec.ofNat 64 j)).toNat % 65536 ≤ (x.b.toWord.extractLsb' 0 16).toNat)
    ∃ v f, exec (.dropm r c) s = .next (after (shapeR r) s x
        { word v f with pred := keep 0, upd := fun e => { e with c0 := e.c0 + BitVec.ofNat 64 (fpCount c) } }) ∧
      FpTo c (fun j => if keep j then
        dropmLane (fmtOf c.fmt) (rdir x) c.fcs (rlane c j x.a.toWord) (x.b.toWord.extractLsb' 32 32).toNat else (0, 0#7)) v f) ∧
  (∀ r c s x, Fires (shapeR r) s x → ∃ v, exec (.rnd r c) s = .next (commitBeat (shapeR r) s
        { word v 0#7 with upd := fun e => { e with c1 := e.c1 + BitVec.ofNat 64 (fpCount c) } }) ∧
      ∀ j, j < fpCount c → flane c j v = rndLane c.fmt (sowHash x.e.k (x.e.c1 + BitVec.ofNat 64 j)) % 2 ^ fpWidth c)

/-- Spec 10 R183, 02 R39: the special functions. NaN, infinities and zeros have the results of the table; `frcp`, `frsq`, `fsqrt` and `fdiv` are correctly
rounded, the others rounded within their bracket as the device chooses (a free value; log 15). -/
def Obligations.SpecialFunctions : Prop :=
  (∀ r c, Results (.frcp r c) (shapeR r) fun x => Special c x (correctly c) (z c) (infty c · fDZ) fun n m e => some (n, divEncl 1 0 m e)) ∧
  (∀ r c, Results (.frsq r c) (shapeR r) fun x => Special c x (correctly c) (fun n => if n then bad c else z c false) (infty c · fDZ)
    fun n m e => if n then none else some (false, rsqrtEncl m e)) ∧
  (∀ r c, Results (.fsqrt r c) (shapeR r) fun x => Special c x (correctly c) (fun n => if n then bad c else infty c false 0#7) (z c)
    fun n m e => if n then none else some (false, sqrtEncl m e)) ∧
  (∀ r c, Results (.fex2 r c) (shapeR r) fun x => Special c x (specially .ex2 c) (fun n => if n then z c false else infty c false 0#7) (fun _ => pow2 c false 0)
    fun n m e => some (exp2Encl n m e)) ∧
  (∀ r c, Results (.flg2 r c) (shapeR r) fun x => Special c x (specially .lg2 c) (fun n => if n then bad c else infty c false 0#7) (fun _ => infty c true fDZ)
    fun n m e => if n then none else some (log2Encl m e)) ∧
  (∀ r c, Results (.fsin r c) (shapeR r) fun x => Special c x (specially .sin c) (fun _ => bad c) (z c) fun n m e => some (sinEncl n m e)) ∧
  (∀ r c, Results (.fcos r c) (shapeR r) fun x => Special c x (specially .cos c) (fun _ => bad c) (fun _ => pow2 c false 0) fun _ m e => some (cosEncl m e)) ∧
  (∀ r c, Results (.ftnh r c) (shapeR r) fun x => Special c x (specially .tanh c) (fun n => pow2 c n 0) (z c) fun n m e => some (tanhEncl n m e)) ∧
  (∀ r c, Results (.fsgm r c) (shapeR r) fun x => Special c x (specially .sigmoid c) (fun n => if n then z c false else pow2 c false 0) (fun _ => pow2 c false (-1))
    fun n m e => some (sigmoidEncl n m e)) ∧
  (∀ r c, Results (.fslu r c) (shapeR r) fun x => Special c x (specially .silu c) (fun n => if n then z c true else infty c false 0#7) (z c)
    fun n m e => some (siluEncl n m e)) ∧
  (∀ r c, Results (.fdiv r c) (shapeR r) fun x => FpTo c fun j => fdivLane c (rdir x) (rlane c j x.a.toWord) (rlane c j x.b.toWord))

/-- Spec 02 R34, R26 to R28: rounding a value that the format holds gives its own bits and raises no flag, in every direction.
Spec 02 R33, R34: rounding down never goes above the value, rounding up never below it, and toward zero never away from it. -/
def Obligations.Rounding : Prop :=
  (∀ f rd fcs bits n m e, bits < 2 ^ fmtWidth f → unpack f bits = .fin n m e → (fcs.f = true → isSubnormal f bits = false) →
    roundVal f rd fcs (.fin n m e) = (bits, 0#7)) ∧
  (∀ f n m e, f ≠ .e4m3 → m ≠ 0 →
    let no : Fcs := ⟨false, false, false⟩
    ltVal (.fin n m e) (unpack f (roundVal f .rdn no (.fin n m e)).1) = false ∧
    ltVal (unpack f (roundVal f .rup no (.fin n m e)).1) (.fin n m e) = false ∧
    (if n then ltVal (unpack f (roundVal f .rtz no (.fin n m e)).1) (.fin n m e) = false
      else ltVal (.fin n m e) (unpack f (roundVal f .rtz no (.fin n m e)).1) = false))

namespace Sys2Proof.Say

open Machine

/-- An M-form action is ready when its endpoint's wave buffer has a free entry (spec 13 R225). -/
def shapeM (d : Dst) (a b : Src) : FireSpec := { shape d a b .none with async := true, ready := waveRoom }
def shapeCas (m : MAct) : FireSpec := { shapeM m.dst m.sa m.sb with ready := casReady m.sb }

/-- The request that an M-form beat issues: its operation on the bytes at Value(sa), with Value(sb) as its data. -/
def request (m : MAct) (op : ReqOp) (x : BeatIn) : Req :=
  { thr := .wave x.l 0, issuer := x.l, le := x.l, op := op, va := x.a.toWord.toNat, size := sizeBytes m.size, algn := sizeBytes m.size
    data := x.b, ord := m.ord, scope := if m.ord = .ordered then m.scope else .device }

/-- The request of `mseal` and `munseal`, with its scope (spec 13 R229). -/
def sealing (x : BeatIn) (op : ReqOp) : Req :=
  { thr := .wave x.l 0, issuer := x.l, le := x.l, op := op, va := x.a.toWord.toNat, ord := .ordered, scope := .device }

/-- A request that its home can perform now: translated, with what it must follow performed and no seal against it. -/
structure AtHome (s : State) (q : Req) (pa : Nat) (nc : Bool) : Prop where
  found : findReq s q.id = some q
  phase : q.phase = .translated pa nc
  deps : depsDone s q.after = true
  order : orderOk s q = true
  unsealed : (isStoreOp q.op && (sealedRange s q.ctx q.va q.size || sealedPa s pa q.size)) = false

/-- A request that has entered and can act: what it must follow is performed, and no earlier one of its thread waits for an entry of the pending-miss
table (spec 12 R199, 17 R305). -/
structure Enters (s : State) (q : Req) : Prop where
  found : findReq s q.id = some q
  phase : q.phase = .entered
  deps : depsDone s q.after = true
  table : threadWaits s q.le q.thr q.place = false

/-- No write of the plot that its port holds touches the bytes, and none of their lines is poisoned. -/
structure Quiescent (s : State) (q : Req) (pa : Nat) : Prop where
  hbm : pa < 2 ^ 39
  port : ∀ r ∈ s.reqs, portHolds q.issuer.plot pa q.size r = false
  clean : poisoned s.memPoison pa q.size = false

/-- A firing has issued one request more: r, with what q says of it, for the entry that the firing reserved. -/
structure Issued (s t : State) (d : Dst) (l : Loc) (q r : Req) : Prop where
  here : r ∈ t.reqs
  one : t.reqs.length = s.reqs.length + 1
  fields : r.op = q.op ∧ r.va = q.va ∧ r.size = q.size ∧ r.algn = q.algn ∧ r.data = q.data ∧ r.data2 = q.data2 ∧ r.ord = q.ord ∧ r.scope = q.scope
  issuer : r.issuer = l
  entry : r.rid = if d = .none then 0 else s.sched.nextId
  follows : ∀ x ∈ s.reqs, x.issuer = l → isMForm x = true →
    (isRelease q.op q.ord = true → (x.id, q.scope) ∈ r.after) ∧ (isRelease q.op q.ord = false → isAcquire x = true → (x.id, x.scope) ∈ r.after)

/-- The request with a number stands as performed with this answer. -/
def Performed (t : State) (id : Nat) (data : Nat) (f : Flags) : Prop :=
  ∃ r, findReq t id = some r ∧ r.phase = .performed (BitVec.ofNat 512 data) f

/-- n bytes of memory as a little-endian number. -/
def bytesAt (s : State) (pa n : Nat) : Nat := ofBytes ((List.range n).map fun i => readByte s.mem (pa + i))

/-- Memory differs in n bytes at pa only, which hold a little-endian number. -/
def Wrote (s t : State) (pa n v : Nat) : Prop :=
  ∀ a, readByte t.mem a = if pa ≤ a ∧ a < pa + n then BitVec.ofNat 8 (v / 256 ^ (a - pa)) else readByte s.mem a

end Sys2Proof.Say

/-! ### Memory -/

/-- Spec 13 R225 to R228, 16 R288, 17 R305: a beat of a load, store, atomic or reduction issues one request at the address Value(sa) with Value(sb) as its data
(`amo.cas`: with the odd register or the channel's second entry as the new value), for the entry that it reserves on dst. It follows the acquires and
fences that its element issued before it, and a release follows each of the element's earlier requests, at its own scope. `wfence` ends the wave, and issues a
fence that follows each earlier request of the element and is performed once they are performed at its scope. -/
def Obligations.MemoryIssue : Prop :=
  (∀ m sx s x, Fires (shapeM m.dst m.sa m.sb) s x →
    exec (.ld m sx) s = .next (commitBeat (shapeM m.dst m.sa m.sb) s { post := issueEffect m.dst (request m (.load sx) x) })) ∧
  (∀ m s x, Fires (shapeM m.dst m.sa m.sb) s x →
    exec (.st m) s = .next (commitBeat (shapeM m.dst m.sa m.sb) s { post := issueEffect m.dst (request m .store x) })) ∧
  (∀ m op fcs s x, Fires (shapeM m.dst m.sa m.sb) s x →
    exec (.amo m op fcs) s = .next (commitBeat (shapeM m.dst m.sa m.sb) s { post := issueEffect m.dst (request m (.amo op fcs) x) })) ∧
  (∀ m op fcs s x, Fires (shapeM m.dst m.sa m.sb) s x →
    exec (.red m op fcs) s = .next (commitBeat (shapeM m.dst m.sa m.sb) s { post := issueEffect m.dst (request m (.red op fcs) x) })) ∧
  (∀ m s x, Fires (shapeCas m) s x →
    exec (.amoCas m) s = .next (commitBeat (shapeCas m) s
      { post := fun s => issueEffect m.dst { request m .cas x with data2 := casNew x m.sb } (dequeueAll s x.l m.sb.chans) })) ∧
  (∀ d sc s x, Fires (shapeM d .zero .zero) s x →
    exec (.wfence d sc) s = .next (commitBeat (shapeM d .zero .zero) s { post := fenceEffect d sc x.l })) ∧
  (∀ x n, casNew x (.d n) = x.e.d[n + 1]) ∧
  (∀ x n e tok, (inPort x.e n).q.es[1]? = some e → e.body = some tok → casNew x (.ch n) = (payload tok).toWord) ∧
  (∀ d q s, (∀ r ∈ s.reqs, r.id < s.sched.nextId) → ∃ r, Issued s (issueEffect d q s) d s.sched.cur.l q r) ∧
  (∀ d sc l s, (∀ r ∈ s.reqs, r.id < s.sched.nextId) → ∃ r, Issued s (fenceEffect d sc l s) d l
      { thr := r.thr, issuer := l, le := r.le, op := .fence, va := 0, ord := .plain, scope := sc } r ∧ r.phase = .entered ∧
    (getElem (fenceEffect d sc l s) l).waveNo = (getElem s l).waveNo + 1) ∧
  (∀ s q, Enters s q → q.op = .fence → ∃ t, exec (.homeAccessPerform q.id) s = .next t ∧ Performed t q.id 0 0#7 ∧ t.mem = s.mem) ∧
  (∀ s q, findReq s q.id = some q → q.phase = .entered → q.op = .fence → depsDone s q.after = false → exec (.homeAccessPerform q.id) s = .next s)

/-- Spec 13 R229: `mseal` takes a range of whole 64 KiB pages within the 52-bit space and raises OPERAND for any other; its home enters it unless it
overlaps a seal (status 2) or the table is full (1), once no port or combining line holds a write to its bytes; `munseal` removes the seal with its base,
or answers 3. -/
def Obligations.Seals : Prop :=
  (∀ b n : Word, sealRangeOk b n = true ↔ b.toNat % 65536 = 0 ∧ n.toNat % 65536 = 0 ∧ n ≠ 0#64 ∧ b.toNat + n.toNat ≤ 2 ^ 52) ∧
  (∀ d a b s x, Fires (shapeM d a b) s x → sealRangeOk x.a.toWord x.b.toWord = true →
    exec (.mseal d a b) s = .next (commitBeat (shapeM d a b) s { post := issueEffect d (sealing x (.seal x.b.toWord)) })) ∧
  (∀ d a b s x, Fires (shapeM d a b) s x → sealRangeOk x.a.toWord x.b.toWord = false →
    ∃ w, exec (.mseal d a b) s = .next (holdBeat (shapeM d a b) s x .operand 0 w 0)) ∧
  (∀ d a s x, Fires (shapeM d a .zero) s x →
    exec (.munseal d a) s = .next (commitBeat (shapeM d a .zero) s { post := issueEffect d (sealing x .unseal) })) ∧
  (∀ s q (len : Word), Enters s q → q.op = .seal len → s.reqs.any (holdsSealed s q.ctx q.va len.toNat) = false →
    ∃ t, exec (.homeAccessPerform q.id) s = .next t ∧
      (((getCtx s q.ctx).seals.any (fun x => overlaps x.1 x.2 q.va len.toNat) = true ∧ Performed t q.id 2 0#7 ∧ t.ctxs = s.ctxs) ∨
       ((getCtx s q.ctx).seals.any (fun x => overlaps x.1 x.2 q.va len.toNat) = false ∧ 64 ≤ (getCtx s q.ctx).seals.length ∧ Performed t q.id 1 0#7 ∧ t.ctxs = s.ctxs) ∨
       ((getCtx s q.ctx).seals.any (fun x => overlaps x.1 x.2 q.va len.toNat) = false ∧ (getCtx s q.ctx).seals.length < 64 ∧ Performed t q.id 0 0#7 ∧
         (getCtx t q.ctx).seals = (getCtx s q.ctx).seals ++ [(q.va, len.toNat)]))) ∧
  (∀ s q, Enters s q → q.op = .unseal →
    ∃ t, exec (.homeAccessPerform q.id) s = .next t ∧
      (((getCtx s q.ctx).seals.any (fun x => x.1 == q.va) = true ∧ Performed t q.id 0 0#7 ∧
         (getCtx t q.ctx).seals = (getCtx s q.ctx).seals.filter fun x => x.1 != q.va) ∨
       ((getCtx s q.ctx).seals.any (fun x => x.1 == q.va) = false ∧ Performed t q.id 3 0#7 ∧ t.ctxs = s.ctxs)))

/-- Spec 13 R226, R227, 16 R289, 17 R304: what HOME_ACCESS_PERFORM does in HBM. A load takes the bytes there and changes nothing in memory; a store is
first accepted by the plot's port and then written, no other byte changing; an atomic answers the old value and writes n(o, v). -/
def Obligations.HomeAccesses : Prop :=
  (∀ s q pa nc sx, AtHome s q pa nc → Quiescent s q pa → q.op = .load sx →
    ∃ t, exec (.homeAccessPerform q.id) s = .next t ∧ t.mem = s.mem ∧
      Performed t q.id (if q.size ≤ 8 then loadWord sx q.size (bytesAt s pa q.size) else bytesAt s pa q.size) 0#7) ∧
  (∀ s q pa nc, AtHome s q pa nc → q.op = .store → pa < 2 ^ 39 →
    ∃ t r, exec (.homeAccessPerform q.id) s = .next t ∧ t.mem = s.mem ∧ findReq t q.id = some r ∧ r.phase = .atPort pa) ∧
  (∀ s q pa, Memory.wf s.mem = true → findReq s q.id = some q → q.phase = .atPort pa → pa < 2 ^ 39 →
    (∀ r ∈ s.reqs.takeWhile (fun r => r.id != q.id), portHolds q.issuer.plot pa q.size r = false) →
    (getDie s (hbmDie pa)).wps = Vector.replicate 8 {} →
    ∃ t, exec (.homeAccessPerform q.id) s = .next t ∧ Performed t q.id 0 0#7 ∧ Wrote s t pa q.size q.data.toNat) ∧
  (∀ s q pa nc op fcs, Memory.wf s.mem = true → AtHome s q pa nc → Quiescent s q pa → q.op = .amo op fcs →
    (getDie s (hbmDie pa)).wps = Vector.replicate 8 {} →
    let w := 8 * q.size
    let n := atomValue op fcs w (bytesAt s pa q.size) (q.data.toNat % 2 ^ w)
    ∃ t, exec (.homeAccessPerform q.id) s = .next t ∧ Performed t q.id (bytesAt s pa q.size) n.2 ∧ Wrote s t pa q.size n.1) ∧
  (∀ s q pa nc op fcs, Memory.wf s.mem = true → AtHome s q pa nc → Quiescent s q pa → q.op = .red op fcs →
    (getDie s (hbmDie pa)).wps = Vector.replicate 8 {} →
    let w := 8 * q.size
    let n := atomValue op fcs w (bytesAt s pa q.size) (q.data.toNat % 2 ^ w)
    ∃ t, exec (.homeAccessPerform q.id) s = .next t ∧ Performed t q.id 0 n.2 ∧ Wrote s t pa q.size n.1) ∧
  (∀ s q pa nc, Memory.wf s.mem = true → AtHome s q pa nc → Quiescent s q pa → q.op = .cas → (getDie s (hbmDie pa)).wps = Vector.replicate 8 {} →
    ∃ t, exec (.homeAccessPerform q.id) s = .next t ∧ Performed t q.id (bytesAt s pa q.size) 0#7 ∧
      (if bytesAt s pa q.size = q.data.toNat % 2 ^ (8 * q.size) then Wrote s t pa q.size q.data2.toNat else t.mem = s.mem))

/-- Spec 12 R199, R204, R207, 13 R215, R225, R230: the other steps of a request. A waiting request enters behind its predecessor; an access to a
sealed range, or a misaligned one, is held by a fault; a walk that finds its page answers its loads with the address and changes no memory; a response fills its
reserved entry with its answer, ORs its flags into its element's, and leaves no entry where it is discarded; a combining line that has waited 2 µs is sent, while its parcel has not stopped; and a result
fills its entry. -/
def Obligations.MemorySteps : Prop :=
  (∀ s q, findReq s q.id = some q → q.phase = .waiting → q.thr = waveThread s q.issuer → (getElem s q.issuer).waveSeen.contains q.pred = true →
    exec (.waveEnter q.id) s = .next (enterWave s q)) ∧
  (∀ s q, Enters s q → q.op = .store → orderOk s q = true → q.bad = false → q.va < 2 ^ 52 → q.va % q.algn ≠ 0 →
    exec (.homeAccessPerform q.id) s = .next (faultReq s q .align 0 0#64 none)) ∧
  (∀ s q, Enters s q → q.op = .store → orderOk s q = true → q.bad = false → q.va < 2 ^ 52 → q.va % q.algn = 0 → q.watch = false →
    sealedRange s q.ctx q.va q.size = true →
    exec (.homeAccessPerform q.id) s = .next (faultReq s q .sealed 0 0#64 none)) ∧
  (∀ s die m p, (getDie s die).misses.find? (fun x => x.id == m.id) = some m → m.stale = false → walk s m.ctx m.va = some p →
    (∀ q ∈ s.reqs, isStoreOp q.op = false) → (s.reqs.map fun q => q.id).Nodup → p.va ≤ m.va → m.va < p.va + p.size →
    ∃ t, exec (.pageWalkComplete die m.id) s = .next t ∧ t.mem = s.mem ∧
      ∀ q ∈ s.reqs, ∀ sx, q.phase = .walking die m.id → q.op = .load sx →
        ∃ r ∈ t.reqs, r.id = q.id ∧ r.phase = .translated (p.pa + (q.va - p.va)) p.nc) ∧
  (∀ s q data f l n, findReq s q.id = some q → q.phase = .performed data f → q.thr = .wave l n → q.discard = false → q.rid ≠ 0 →
    exec (.memoryResponse q.id) s =
      .next (fillRid (dropReq (modElem s q.issuer fun e => orFlags e f) q.id) q.rid { tag := .data, val := data })) ∧
  (∀ s q data f l n, findReq s q.id = some q → q.phase = .performed data f → q.thr = .wave l n → q.discard = true →
    exec (.memoryResponse q.id) s = .next (dropRid (dropReq s q.id) q.rid)) ∧
  (∀ s l n c, (getLe s l).comb[n]? = some c → c.opened + 5400 ≤ now s → plotStopped s l.plot = false →
    exec (.combineLineTimeout l n) s = .next (sendLine s l c)) ∧
  (∀ s l c, (getLe (sendLine s l c) l).comb = (getLe s l).comb.filter (fun x => x != c) ∧
    ∀ q ∈ s.reqs, q.id ∈ c.reqs → ∃ r ∈ (sendLine s l c).reqs, r.id = q.id ∧ r.phase = .performed 0#512 0#7) ∧
  (∀ s r, s.results.find? (fun x => x.id == r.id) = some r →
    exec (.asyncResultVisible r.id) s = .next (fillRid { s with results := s.results.filter fun x => x.id != r.id } r.rid r.tok))

namespace Sys2Proof.Say

open Machine

/-- `strm.opn` is ready while its stream is closed with no access outstanding (spec 13 R232). -/
def shapeOpn (r : RAct) (m : Fin 8) : FireSpec :=
  { shape r.dst r.sa r.sb r.upd with async := true, ready := fun s l => !(getStream s l m).opened && (streamReqs s l m).isEmpty }
def shapeAsync (r : RAct) : FireSpec := { shape r.dst r.sa r.sb r.upd with async := true }

/-- A stream that takes its next step: open, not ended, with no bytes of an image left to write and no access that waits for a pending-miss entry, on a plot
that runs. -/
structure Streaming (s : State) (l : Loc) (m : Fin 8) : Prop where
  opened : (getStream s l m).opened = true
  going : (getStream s l m).ended = false
  tail : (getStream s l m).tail = []
  runs : plotRuns s l.plot = true
  alive : (getElem s l).dead = false ∧ (getElem s l).cfgFrozen = false
  table : threadWaits s l (.stream l m) s.sched.nextId = false

end Sys2Proof.Say

/-! ### The load-store endpoint -/

/-- Spec 13 R230 to R234: the endpoint's instructions. `strm.opn` issues the read of its 64-byte record, with the token on sb as the base in place of the record's;
`strm.cls` has an open stream close; `sbar` has what the streams of its mask generate from now on follow what they have generated, and touches no other stream;
`strm.st` gives the status word; `tlb.pf` issues a translation that answers 1 where a translation buffer has the page; `wp.arm` sets a watchpoint from the next cycle
on, or raises OPERAND for an empty range; `cmb.fl` sends every combining line, and its acknowledgement is posted. -/
def Obligations.EndpointInstructions : Prop :=
  (∀ r m s x, Fires (shapeOpn r m) s x →
    exec (.strmOpn r m) s = .next (commitBeat (shapeOpn r m) s { post := openEffect r.dst m x r.sb.isCh })) ∧
  (∀ d m x hb s, ∃ q, (openEffect d m x hb s).reqs = s.reqs ++ [q] ∧ q.op = .pattern (if hb then some x.b.toWord else none) ∧ q.va = x.a.toWord.toNat ∧
    q.size = 64 ∧ q.algn = 64 ∧ q.thr = .stream x.l m ∧ q.phase = .entered ∧ q.rid = if d = .none then 0 else s.sched.nextId) ∧
  (∀ r m, Gives (.strmCls r m) (shapeR r) fun x =>
    { post := fun s => modStream s x.l m fun st => { st with closing := st.opened } }) ∧
  (∀ (mask : BitVec 8) l s (m : Fin 8), if mask.getLsbD m.val then
      ∀ n : Fin 8, mask.getLsbD n.val = true → ∀ q ∈ streamReqs s l n, (q.id, .device) ∈ (getStream (barEffect mask l s) l m).before
    else getStream (barEffect mask l s) l m = getStream s l m) ∧
  (∀ mask u, Gives (.sbar mask u) (shape .none .zero .zero u) fun x => { post := barEffect mask x.l }) ∧
  (∀ r m, Gives (.strmSt r m) (shape r.dst .zero .zero r.upd) fun x =>
    let st := getStream x.s x.l m
    word (BitVec.ofNat 64 (st.idx % 2 ^ 32 + min st.faulted 65535 * 2 ^ 32 + (if st.opened then 2 ^ 48 else 0) + (if st.lastSent then 2 ^ 49 else 0))) 0#7) ∧
  (∀ r, Gives (.tlbPf r) (shapeAsync r) fun x => { post := prefetchEffect r.dst x }) ∧
  (∀ d x s, ∃ q, (prefetchEffect d x s).reqs = s.reqs ++ [q] ∧ q.op = .prefetch ∧ q.va = x.a.toWord.toNat ∧ q.phase = .entered ∧
    q.rid = if d = .none then 0 else s.sched.nextId) ∧
  (∀ s q e, Enters s q → q.op = .prefetch → tlbLookup s q.le q.ctx q.va = some e →
    ∃ t, exec (.homeAccessPerform q.id) s = .next t ∧ Performed t q.id 1 0#7 ∧ t.mem = s.mem) ∧
  (∀ r n s x, Fires (shapeR r) s x → exec (.wpArm r n .off) s =
    .next (commitBeat (shapeR r) s { post := fun s => modLe s x.l fun u => { u with arming := u.arming ++ [(n, {})] } })) ∧
  (∀ r n mode s x, Fires (shapeR r) s x → mode ≠ .off → x.b.toWord ≠ 0#64 → exec (.wpArm r n mode) s =
    .next (commitBeat (shapeR r) s { post := fun s => modLe s x.l fun u =>
      { u with arming := u.arming ++ [(n, { mode := mode, base := x.a.toWord.toNat, len := x.b.toWord.toNat })] } })) ∧
  (∀ r n mode s x, Fires (shapeR r) s x → mode ≠ .off → x.b.toWord = 0#64 →
    exec (.wpArm r n mode) s = .next (holdBeat (shapeR r) s x .operand 0 0 0)) ∧
  (∀ s l, (getLe (nextCycle s) l).wps = (getLe (answerUnheard s) l).arming.foldl (fun w y => w.set y.1 y.2) (getLe (answerUnheard s) l).wps) ∧
  (∀ s, (∀ r ∈ s.faults, r.unheard = false) → answerUnheard s = s) ∧
  (∀ r s x, Fires { shape r.dst .zero .zero r.upd with async := true } s x →
    exec (.cmbFl r) s = .next (commitBeat { shape r.dst .zero .zero r.upd with async := true } s { post := flushEffect r.dst x.l })) ∧
  (∀ d l s, (getLe (flushEffect d l s) l).comb = [] ∧
    (d ≠ .none → s.sched.nextId ≠ 0 → ∃ y ∈ (flushEffect d l s).results, y.rid = s.sched.nextId ∧ y.tok = { tag := .data, val := 0 }))

/-- Spec 12 R202, 13 R232: the record of `strm.opn` opens its stream, or raises OPERAND; an uncompressed load stream, for which
no `sbar` keeps a place, issues one load at the address of its next element; one that has generated all of its elements ends with a LAST, and with every access performed it sends its completion and closes. -/
def Obligations.Streams : Prop :=
  (∀ s q pa nc l m base, AtHome s q pa nc → Quiescent s q pa → q.op = .pattern base → q.thr = .stream l m → q.size = 64 →
    let bs := (match base with
      | some b => bytesOf 8 b.toNat ++ (readBytes s.mem pa 64).drop 8
      | none => readBytes s.mem pa 64)
    (patternOk (getElem s l) bs = true →
      ∃ t, exec (.homeAccessPerform q.id) s = .next t ∧ Performed t q.id 0 0#7 ∧
        (getStream t l m).opened = true ∧ (getStream t l m).pat = readPattern bs ∧ (getStream t l m).idx = 0) ∧
    (patternOk (getElem s l) bs = false →
      exec (.homeAccessPerform q.id) s = .next (faultReq s q .operand 0 (BitVec.ofNat 64 (fieldAt bs 8 8)) none))) ∧
  (∀ s l m, Streaming s l m →
    let st := getStream s l m
    st.lastDue = false → st.closing = false → st.idx < patCount st.pat → st.pat.store = false → st.pat.cmp = false → patWide st.pat = false →
    outFree s l st.pat.ch ≠ 0 → (∀ q ∈ streamReqs s l m, q.phase ≠ .waiting) →
    ∃ t q, exec (.streamAccess l m) s = .next t ∧ t.reqs = s.reqs ++ [q] ∧ q.op = .load false ∧ q.thr = .stream l m ∧
      q.va = patAddr st.pat st.idx ∧ q.size = patBytes st.pat ∧ q.phase = .entered ∧ (getStream t l m).idx = st.idx + 1) ∧
  (∀ s l m, Streaming s l m →
    let st := getStream s l m
    st.lastDue = false → st.closing = false → patCount st.pat ≤ st.idx → st.pat.store = false → st.lastSent = false → patWide st.pat = false →
    outFree s l st.pat.ch ≠ 0 →
    exec (.streamAccess l m) s = .next (modStream (enqueue s l st.pat.ch { tag := .last, val := 0#512 }) l m fun st =>
      { st with lastDue := false, lastSent := true })) ∧
  (∀ s l m c, let st := getStream s l m
    st.opened = true → st.ended = true → st.tail = [] → streamReqs s l m = [] → plotRuns s l.plot = true → cplChan st.pat = some c → outFree s l c ≠ 0 →
    exec (.streamComplete l m) s =
      .next (shutStream (enqueue s l c { tag := .data, val := BitVec.ofNat 512 (st.done % 2 ^ 32 + min st.faulted 65535 * 2 ^ 32) }) l m)) ∧
  (∀ s l m, (getStream (shutStream s l m) l m).opened = false ∧ (shutStream s l m).reqs = s.reqs ∧ (shutStream s l m).elems = s.elems)

namespace Sys2Proof.Say

open Machine

/-- Every beat of `i` that can run and meets c commits the outcome that o gives. -/
def Commits (i : Instr) (sp : FireSpec) (c : BeatIn → Prop) (o : BeatIn → BeatOut) : Prop :=
  ∀ s x, Fires sp s x → c x → exec i s = .next (commitBeat sp s (o x))

/-- Every beat of `i` that can run and meets c raises OPERAND, names the word, and commits nothing (spec 18 R313, R316). -/
def RaisesOperand (i : Instr) (sp : FireSpec) (c : BeatIn → Prop) (w : BeatIn → Word) : Prop :=
  ∀ s x, Fires sp s x → c x → exec i s = .next (holdBeat sp s x .operand 0 (w x) 0)

/-- `tile.free` and `tile.shp` are ready while the handle's in-flight count is 0; `hash.set` with five tokens and an empty store. -/
def shapeOwn (r : RAct) : FireSpec := { shapeR r with ready := ownIdle r.sa }
def shapeHash (r : RAct) : FireSpec := { shapeR r with ready := hashReady r.sa }

/-- The word that a table instruction returns for an entry. -/
def refOut (h : Nat) (t : Tile) (post : State → State) : BeatOut :=
  { v := (newRef h t).setWidth 512, pred := (newRef h t).getLsbD 0, post := post }

/-- The shapes of the streaming and of the asynchronous scratchpad instructions (spec 13 R215, R216); an entry of `tile.gat` captures the head of its stream (18
R317). -/
def shapeSpad (r : RAct) (both : Bool) (ready : State → Loc → Bool) : FireSpec :=
  { dst := r.dst, sa := r.sa, sb := if both then r.sb else .zero, async := true, ready := fun s l => ready s l && (both || srcReady s l 1 r.sb), op := fun _ => .ok {} }
def shapeGat (r : RAct) : FireSpec := { shapeSpad r false (refReady r.sa) with stream := some r.sb }
def shapeFil (r : RAct) : FireSpec := { shape r.dst r.sa r.sb r.upd with async := true, ready := writeReady r.sa }
def shapeTileCpy (r : RAct) : FireSpec :=
  { shape r.dst r.sa r.sb r.upd with async := true, ready := fun s l => refReady r.sa s l && refReady r.sb s l && bufferEmpty r.sb s l }

/-- The tile that sa names. -/
def tileA (x : BeatIn) : Option (Ref × Tile) := useRef x.s x.l.plot x.a.toWord

/-- A run of a plot store that meets none of the runs given (spec 11 R188). -/
def Free (rs : List (Nat × Nat)) (b n : Nat) : Prop := b + n ≤ storeBytes ∧ ∀ r ∈ rs, b + n ≤ r.1 ∨ r.1 + r.2 ≤ b

end Sys2Proof.Say

/-! ### Scratchpad elements and banks -/

/-- Spec 13 R217: the tile table. `tile.new` places an unallocated entry of the element's own with the next generation; `tile.free` and `tile.shp` change an
entry that the element owns and no ring does; `tile.qry` reads the committed entry in the layout of 11 R185. Every other use of the four raises OPERAND.
Spec 13 R224, 11 R190: `hash.set` takes five masks; `bank.rd` reads a conflict counter and `bank.clr` clears those of its mask; bad values raise OPERAND. -/
def Obligations.TileAndBankInstructions : Prop :=
  (∀ s l w f t, ownTile s l w = some (f, t) ↔ useRefIn (tileNow s l.plot) w = some (f, t) ∧ t.site = l.site ∧ t.ring = false) ∧
  (∀ s l h t w u, reshape s l h t w = some u ↔ ∃ d, readDesc w = some (h, d) ∧ d.site = t.site ∧ d.level = t.level ∧ d.ndx = t.ndx ∧ d.ndy = t.ndy ∧
    shapeOk s l.plot d = true ∧ tileSize d ≤ t.size ∧ u = { t with fmt := d.fmt, layout := d.layout, rows := d.rows, rb := d.rb, gen := (t.gen + 1) % 256 }) ∧
  (∀ r s x h t u, Fires (shapeR r) s x → readDesc x.a.toWord = some (h, t) → (tileNow s x.l.plot h).alloc = false → t.site = x.l.site →
    shapeOk s x.l.plot t = true →
    placeTile s x.l.plot h { t with ring := (tileNow s x.l.plot h).ring, gen := ((tileNow s x.l.plot h).gen + 1) % 256 } = some u →
    u.alloc = true ∧ u.gen = ((tileNow s x.l.plot h).gen + 1) % 256 ∧ u.size = tileSize t ∧
    exec (.tileNew r) s = .next (commitBeat (shapeR r) s (refOut h u fun s => setTile s x.l.plot h u))) ∧
  (∀ r, RaisesOperand (.tileNew r) (shapeR r) (fun x => newTile x.s x.l x.a.toWord = none) fun x => x.a.toWord) ∧
  (∀ r s x f t, Fires (shapeOwn r) s x → ownTile s x.l x.a.toWord = some (f, t) →
    exec (.tileFree r) s = .next (commitBeat (shapeOwn r) s { post := fun s => setTile s x.l.plot f.handle { gen := (t.gen + 1) % 256 } })) ∧
  (∀ r, RaisesOperand (.tileFree r) (shapeOwn r) (fun x => ownTile x.s x.l x.a.toWord = none) fun x => x.a.toWord) ∧
  (∀ r s x f t u, Fires (shapeOwn r) s x → ownTile s x.l x.a.toWord = some (f, t) → reshape s x.l f.handle t x.b.toWord = some u →
    u.gen = (t.gen + 1) % 256 ∧ u.base = t.base ∧ tileSize u ≤ t.size ∧
    exec (.tileShp r) s = .next (commitBeat (shapeOwn r) s (refOut f.handle u fun s => setTile s x.l.plot f.handle u))) ∧
  (∀ r, RaisesOperand (.tileShp r) (shapeOwn r) (fun x => ownTile x.s x.l x.a.toWord = none) fun x => x.a.toWord) ∧
  (∀ r, RaisesOperand (.tileShp r) (shapeOwn r)
    (fun x => ∃ f t, ownTile x.s x.l x.a.toWord = some (f, t) ∧ reshape x.s x.l f.handle t x.b.toWord = none) fun x => x.b.toWord) ∧
  (∀ r, Commits (.tileQry r) (shapeR r) (fun x => x.a.toWord.toNat < 256) fun x => word (tileWord (tileSeen x.s x.l.plot x.a.toWord.toNat)) 0#7) ∧
  (∀ r, RaisesOperand (.tileQry r) (shapeR r) (fun x => 256 ≤ x.a.toWord.toNat) fun x => x.a.toWord) ∧
  (∀ t : Tile, t.alloc = false → tileWord t = 0#64) ∧
  (∀ t : Tile, t.alloc = true → tileWord t = (1#1 ++ BitVec.ofBool t.ring ++ BitVec.ofNat 2 t.level ++ BitVec.ofNat 4 t.fmt ++ BitVec.ofNat 2 t.layout ++
    BitVec.ofNat 8 (t.rows - 1) ++ BitVec.ofNat 6 (t.rb / 64 - 1) ++ BitVec.ofNat 5 t.site ++ BitVec.ofInt 4 t.ndy ++ BitVec.ofInt 5 t.ndx ++
    BitVec.ofNat 8 t.gen ++ 0#1 ++ BitVec.ofNat 8 t.infl ++ 0#9 : BitVec 64)) ∧
  (∀ r, Commits (.hashSet r) (shapeHash r)
    (fun x => (maskTokens x r.sa).find? (fun m => decide (2 ^ 32 ≤ m)) = none ∧ masksOk (maskTokens x r.sa) = true) fun x =>
      { post := fun s =>
          let s := dequeueAll (dequeueAll (dequeueAll (dequeueAll s x.l r.sa.chans) x.l r.sa.chans) x.l r.sa.chans) x.l r.sa.chans
          modPlot s x.l.plot fun p => { p with hash := (maskTokens x r.sa).map (BitVec.ofNat 32), hashAt := now s + 1 } }) ∧
  (∀ r, RaisesOperand (.hashSet r) (shapeHash r)
    (fun x => (maskTokens x r.sa).find? (fun m => decide (2 ^ 32 ≤ m)) = none ∧ masksOk (maskTokens x r.sa) = false) fun x => x.a.toWord) ∧
  (∀ r, RaisesOperand (.hashSet r) (shapeHash r) (fun x => ((maskTokens x r.sa).find? fun m => decide (2 ^ 32 ≤ m)).isSome = true)
    fun x => BitVec.ofNat 64 (((maskTokens x r.sa).find? fun m => decide (2 ^ 32 ≤ m)).getD 0)) ∧
  (∀ r, Commits (.bankRd r) (shapeR r) (fun x => x.a.toWord.toNat < 32) fun x =>
    word (BitVec.ofNat 64 (Tbl.findD (getPlot x.s x.l.plot).banks x.a.toWord.toNat {}).conflicts) 0#7) ∧
  (∀ r, RaisesOperand (.bankRd r) (shapeR r) (fun x => 32 ≤ x.a.toWord.toNat) fun x => x.a.toWord) ∧
  (∀ r, Commits (.bankClr r) (shapeR r) (fun x => x.a.toWord.toNat < 2 ^ 32) fun x =>
    { post := fun s => modPlot s x.l.plot fun p =>
        { p with banks := p.banks.map fun b => (b.1, if x.a.toWord.getLsbD b.1 then { b.2 with conflicts := 0 } else b.2) } }) ∧
  (∀ r, RaisesOperand (.bankClr r) (shapeR r) (fun x => 2 ^ 32 ≤ x.a.toWord.toNat) fun x => x.a.toWord)

/-- Spec 11 R188, R190: a placed tile meets no other run, the lowest or highest that fits is taken, and masks that R190 allows map the store's lines
one-to-one to banks and lines within banks.
Spec 13 R218 to R223: the firing of a scratchpad stream, fill or copy starts it on the tile that sa names; a word that names none, a level-0 source or target of
`tile.acc`, a range, a format or a size that it does not admit raises OPERAND. A fill or copy offers one access for each line. -/
def Obligations.TileOperations : Prop :=
  (∀ s plot n b, 0 < n → (usedRuns s plot).Pairwise (fun p q => p.1 + p.2 ≤ q.1) → (∀ r ∈ usedRuns s plot, r.1 + r.2 ≤ storeBytes) →
    findRun s plot n false = some b → Free (usedRuns s plot) b n ∧ ∀ b', Free (usedRuns s plot) b' n → b ≤ b') ∧
  (∀ s plot n b, 0 < n → (usedRuns s plot).Pairwise (fun p q => p.1 + p.2 ≤ q.1) → (∀ r ∈ usedRuns s plot, r.1 + r.2 ≤ storeBytes) →
    findRun s plot n true = some b → Free (usedRuns s plot) b n ∧ ∀ b', Free (usedRuns s plot) b' n → b' ≤ b) ∧
  (∀ (ms : List (BitVec 32)) (o o' : Nat), masksOk (ms.map (·.toNat)) = true → o < 2 ^ 22 → o' < 2 ^ 22 → o % 64 = 0 → o' % 64 = 0 →
    bankOf ms o = bankOf ms o' → o / 2 ^ 11 = o' / 2 ^ 11 → o = o') ∧
  (∀ o, o < 2 ^ 22 → bankOf [0x40, 0x80, 0x100, 0x200, 0x400] o = o / 64 % 32) ∧
  (∀ r s x f t, Fires (shapeSpad r true (refReady r.sa)) s x → tileA x = some (f, t) → t.level ≠ 0 → r.sb = .zero →
    exec (.tileRd r) s = .next (commitBeat (shapeSpad r true (refReady r.sa)) s { post := startSpad (.tileRd r) r.dst false x f t none })) ∧
  (∀ r s x f t n, Fires (shapeSpad r true (refReady r.sa)) s x → tileA x = some (f, t) → t.level ≠ 0 → r.sb = .ch n → rangeOk t x.b.toWord = true →
    exec (.tileRd r) s = .next (commitBeat (shapeSpad r true (refReady r.sa)) s { post := startSpad (.tileRd r) r.dst false x f t (some x.b.toWord) })) ∧
  (∀ r s x f t n, Fires (shapeSpad r true (refReady r.sa)) s x → tileA x = some (f, t) → t.level ≠ 0 → r.sb = .ch n → rangeOk t x.b.toWord = false →
    exec (.tileRd r) s = .next (holdBeat (shapeSpad r true (refReady r.sa)) s x .operand 0 x.b.toWord 0)) ∧
  (∀ r s x f t, Fires (shapeSpad r false (writeReady r.sa)) s x → tileA x = some (f, t) →
    exec (.tileWr r) s = .next (commitBeat (shapeSpad r false (writeReady r.sa)) s { post := startSpad (.tileWr r) r.dst true x f t none })) ∧
  (∀ r s x f t, Fires (shapeGat r) s x → tileA x = some (f, t) → t.level ≠ 0 →
    exec (.tileGat r) s = .next (commitBeat (shapeGat r) s { post := startSpad (.tileGat r) r.dst false x f t none })) ∧
  (∀ r s x f t, Fires (shapeSpad r false (writeReady r.sa)) s x → tileA x = some (f, t) →
    exec (.tileSct r) s = .next (commitBeat (shapeSpad r false (writeReady r.sa)) s { post := startSpad (.tileSct r) r.dst true x f t none })) ∧
  (∀ r fcs s x f t, Fires (shapeSpad r false (refReady r.sa)) s x → tileA x = some (f, t) → t.level ≠ 0 → accFmt t.fmt = true →
    exec (.tileAcc r fcs) s = .next (commitBeat (shapeSpad r false (refReady r.sa)) s { post := startSpad (.tileAcc r fcs) r.dst true x f t none })) ∧
  (∀ r s x f t, Fires (shapeFil r) s x → tileA x = some (f, t) →
    exec (.tileFil r) s = .next (commitBeat (shapeFil r) s { post := fillEffect r.dst x f t })) ∧
  (∀ r s x f t g u, Fires (shapeTileCpy r) s x → tileA x = some (f, t) → useRef s x.l.plot x.b.toWord = some (g, u) → t.level ≠ 0 → tileData t = tileData u →
    exec (.tileCpy r) s = .next (commitBeat (shapeTileCpy r) s { post := copyEffect r.dst x f t g u })) ∧
  (∀ r, RaisesOperand (.tileRd r) (shapeSpad r true (refReady r.sa)) (fun x => ∀ f t, tileA x = some (f, t) → t.level = 0) fun x => x.a.toWord) ∧
  (∀ r, RaisesOperand (.tileWr r) (shapeSpad r false (writeReady r.sa)) (fun x => tileA x = none) fun x => x.a.toWord) ∧
  (∀ r, RaisesOperand (.tileGat r) (shapeGat r) (fun x => ∀ f t, tileA x = some (f, t) → t.level = 0) fun x => x.a.toWord) ∧
  (∀ r, RaisesOperand (.tileSct r) (shapeSpad r false (writeReady r.sa)) (fun x => tileA x = none) fun x => x.a.toWord) ∧
  (∀ r fcs, RaisesOperand (.tileAcc r fcs) (shapeSpad r false (refReady r.sa))
    (fun x => ∀ f t, tileA x = some (f, t) → t.level = 0 ∨ t.fmt ∉ [0, 1, 9, 10]) fun x => x.a.toWord) ∧
  (∀ r, RaisesOperand (.tileFil r) (shapeFil r) (fun x => tileA x = none) fun x => x.a.toWord) ∧
  (∀ r, RaisesOperand (.tileCpy r) (shapeTileCpy r)
    (fun x => ∀ f t, tileA x = some (f, t) → t.level = 0 ∧ (useRef x.s x.l.plot x.b.toWord).isSome = true) fun x => x.a.toWord) ∧
  (∀ r, RaisesOperand (.tileCpy r) (shapeTileCpy r)
    (fun x => ∃ f t, tileA x = some (f, t) ∧ (useRef x.s x.l.plot x.b.toWord = none ∨
      t.level ≠ 0 ∧ ∀ g u, useRef x.s x.l.plot x.b.toWord = some (g, u) → tileData t ≠ tileData u)) fun x => x.b.toWord) ∧
  (∀ d x f t s, t.level ≠ 0 → ∃ xs, (fillEffect d x f t s).lines = s.lines ++ xs ∧ xs.length = tileData t / 64 ∧
    ∀ k y, xs[k]? = some y → y.plot = storeOf s x.l.plot t ∧ y.off = t.base + 64 * k ∧ y.act = .write (splat x.b.toWord) ∧ y.from_ = x.l) ∧
  (∀ d x f t g u s, f.handle ≠ g.handle → ∃ xs, (copyEffect d x f t g u s).lines = s.lines ++ xs ∧ xs.length = copyLines t u ∧
    ∀ k y, xs[k]? = some y → y.plot = storeOf s x.l.plot t ∧ y.off = t.base + 64 * k ∧ y.act = .copy k ∧ y.from_ = x.l) ∧
  (∀ d x f t g u s, f.handle = g.handle → (copyEffect d x f t g u s).lines = s.lines)

namespace Sys2Proof.Say

open Machine

/-- A streaming instruction in progress that goes on in this turn: o is what it is, k the token that its channel shows. -/
structure Spad (s : State) (l : Loc) (o : SpadOp) : Prop where
  goes : hasRedo s l = true
  op : (getSe s l).op = some o
  free : o.held = false
  whole : o.drain = false

/-- The stream's next token, which is no FAULT; its line accesses may go on. -/
def Shows (s : State) (l : Loc) (sb : Src) (k : Token) : Prop := headToken s l (chanOf sb) = some k ∧ k.tag ≠ .fault
def LineFree (s : State) (l : Loc) (o : SpadOp) : Prop := lineReady s l o.handle = true ∧ offering s l o.op = false

/-- The beats of the packet that a header opens, the header and LAST apart (spec 11 R194). -/
def packetBeats (h : Nat) : Nat := bitsOf h 31 24 + (bitsOf h 15 8 + 1) * (bitsOf h 21 16 + 1)

/-- The offset in its tile of beat i of a packet: scale lines first, then the data row by row (spec 13 R219). -/
def packetOff (t : Tile) (h i : Nat) : Nat :=
  if i < bitsOf h 31 24 then tileData t + 64 + 64 * i
  else (i - bitsOf h 31 24) / (bitsOf h 21 16 + 1) * t.rb + (i - bitsOf h 31 24) % (bitsOf h 21 16 + 1) * 64

/-- What a row stream does with a line: `tile.sct` writes it, `tile.acc` adds it (spec 13 R221). -/
def rowAct (o : SpadOp) (k : Token) : LineAct :=
  match o.i with
  | .tileAcc _ fcs => .acc o.tile.fmt fcs k.val
  | _ => .write k.val

/-- The steps of a row stream on sb. -/
def RowStream (o : SpadOp) (sb : Src) : Prop := (∃ r, o.i = .tileSct r ∧ r.sb = sb) ∨ ∃ r fcs, o.i = .tileAcc r fcs ∧ r.sb = sb

end Sys2Proof.Say

/-- Spec 11 R189, R191, 13 R215, R221: a bank with nothing to admit grants the access that it admitted earliest, counts the others and lowers the handle's
count; a granted write replaces the line, an addition adds to it lane by lane, and one that meets an uncorrectable line is held.
Spec 08 R136: a firing in progress goes on with its next beat. Spec 13 R218 to R221: `tile.rd` sends its header first and a LAST when every line is sent; `tile.wr` takes a
header that fits its tile, then a line with each beat, then the LAST, and any other header raises FORMAT; `tile.gat` sends a row for an index and a LAST for a LAST; `tile.sct`
and `tile.acc` take a row index with MARK, a line with each DATA, and end with LAST. -/
def Obligations.BankAndFiringSteps : Prop :=
  (∀ s plot bank id rest x, (Tbl.findD (getPlot s plot).banks bank {}).wait = id :: rest → (∀ y ∈ bankLines s plot bank, y.admitted = true) →
    s.lines.find? (fun y => y.id == id) = some x → lineFails s x = true →
    ∃ b, exec (.bankGrant plot bank) s = .next (faultLine (modBank s plot bank fun _ => b) bank x) ∧ b.wait = rest) ∧
  (∀ s x v, x.act = .write v → Memory.wf (getPlot s x.plot).store = true → ∀ a,
    readByte (getPlot (performLine s x) x.plot).store a =
      if x.off ≤ a ∧ a < x.off + 64 then BitVec.ofNat 8 (v.toNat / 256 ^ (a - x.off)) else readByte (getPlot s x.plot).store a) ∧
  (∀ s x fmt fcs v, x.act = .acc fmt fcs v → x.sub = none → Memory.wf (getPlot s x.plot).store = true → ∀ a,
    readByte (getPlot (performLine s x) x.plot).store a =
      if x.off ≤ a ∧ a < x.off + 64 then
        BitVec.ofNat 8 ((accLine fmt fcs (readNum (getPlot s x.plot).store x.off 64) v.toNat).1 / 256 ^ (a - x.off))
      else readByte (getPlot s x.plot).store a) ∧
  (∀ s l o r k, Spad s l o → o.i = .tileWr r → Shows s l r.sb k → o.pos = 0 → k.tag = .hdr → hdrFits o.tile k.val.toNat = true → o.tile.fmt ≠ 8 →
    exec (.firingBeat l) s = .next (spadBeat (modAck (dequeue s l (chanOf r.sb)) l o.op fun a => { a with hdr := some k.val }) l o fun o => { o with hdr := k.val })) ∧
  (∀ s l o r k, Spad s l o → o.i = .tileWr r → Shows s l r.sb k → o.pos = 0 → (k.tag ≠ .hdr ∨ hdrFits o.tile k.val.toNat = false) →
    exec (.firingBeat l) s = .next (faultSpad s l o .format k.val.toWord)) ∧
  (∀ s l o r k, Spad s l o → o.i = .tileWr r → Shows s l r.sb k → 0 < o.pos → o.pos ≤ packetBeats o.hdr.toNat → k.tag = .data → LineFree s l o →
    exec (.firingBeat l) s = .next (spadBeat
      (writeLine (dequeue s l (chanOf r.sb)) l o.tile o.handle (packetOff o.tile o.hdr.toNat (o.pos - 1)) o.op (.write k.val)) l o id)) ∧
  (∀ s l o r k, Spad s l o → o.i = .tileWr r → Shows s l r.sb k → o.pos = packetBeats o.hdr.toNat + 1 → k.tag = .last →
    exec (.firingBeat l) s = .next (endSpad (dequeue s l (chanOf r.sb)) l o)) ∧
  (∀ s l o r k, Spad s l o → o.i = .tileGat r → Shows s l r.sb k → o.row = none → outFree s l (wideDst o.i) ≠ 0 → k.tag = .last →
    exec (.firingBeat l) s = .next (endSpad (enqueue (dequeue s l (chanOf r.sb)) l (wideDst o.i) { tag := .last, val := 0 }) l o)) ∧
  (∀ s l o r k, Spad s l o → o.i = .tileGat r → Shows s l r.sb k → o.row = none → outFree s l (wideDst o.i) ≠ 0 →
    (k.tag = .data ∨ k.tag = .mark ∨ k.tag = .alt) → k.val.toWord.toNat < min 65536 o.tile.rows → LineFree s l o → o.tile.rb ≠ 64 → o.given = none →
    exec (.firingBeat l) s = .next (spadBeat (sendParts (dequeue s l (chanOf r.sb)) l o (wideDst o.i) .data 0 [(k.val.toWord.toNat * o.tile.rb, 0, 64, 0)]) l o
      fun o => { o with row := some k.val.toWord.toNat, col := 1, given := none })) ∧
  (∀ s l o sb k, Spad s l o → RowStream o sb → Shows s l sb k → o.row = none → k.tag = .last →
    exec (.firingBeat l) s = .next (endSpad (dequeue s l (chanOf sb)) l o)) ∧
  (∀ s l o sb k, Spad s l o → RowStream o sb → Shows s l sb k → o.row = none → k.tag = .mark → k.val.toNat % 65536 < o.tile.rows →
    exec (.firingBeat l) s = .next (spadBeat (dequeue s l (chanOf sb)) l o fun o => { o with row := some (k.val.toNat % 65536), col := 0 })) ∧
  (∀ s l o sb k n, Spad s l o → RowStream o sb → Shows s l sb k → o.row = some n → k.tag = .data → LineFree s l o →
    exec (.firingBeat l) s = .next (spadBeat (writeLine (dequeue s l (chanOf sb)) l o.tile o.handle (n * o.tile.rb + 64 * o.col) o.op (rowAct o k)) l o fun o =>
      if (o.col + 1) * 64 = o.tile.rb then { o with row := none, col := 0 } else { o with col := o.col + 1 })) ∧
  (∀ s plot bank id rest x, (Tbl.findD (getPlot s plot).banks bank {}).wait = id :: rest → (∀ y ∈ bankLines s plot bank, y.admitted = true) →
    s.lines.find? (fun y => y.id == id) = some x → lineFails s x = false →
    ∃ b, exec (.bankGrant plot bank) s = .next (performLine (addInfl { modBank s plot bank (fun _ => b) with
        lines := s.lines.filter fun y => y.id != id } x.hplot x.handle false) x) ∧
      b.wait = rest ∧ b.conflicts = min ((Tbl.findD (getPlot s plot).banks bank {}).conflicts + rest.length) 0xFFFFFFFF) ∧
  (∀ s l x sp, hasRedo s l = true → (getSe s l).op = none → (getMe s l).op = none → (getElem s l).redo = [] →
    slotOf (getElem s l) l.plot (pixSlot (getElem s l).pix) = some x → specOf x.act = some sp →
    ∃ t, exec (.firingBeat l) s = .next t ∧
      runBeat sp (modSched s fun c => { c with cur := { l := l, slot := pixSlot (getElem s l).pix, beats := x.trig.w.beats, beat := pixBeat (getElem s l).pix } }) = .next t) ∧
  (∀ s l o r, hasRedo s l = true → (getSe s l).op = some o → o.held = false → o.i = .tileRd r → outFree s l (wideDst o.i) ≠ 0 → o.pos = 0 → o.tile.fmt ≠ 8 →
    exec (.firingBeat l) s = .next (spadBeat (enqueue s l (wideDst o.i)
      { tag := .hdr, val := BitVec.ofNat 512 (packetHdr o.tile o.handle (rangeOf o.tile o.range)) }) l o id)) ∧
  (∀ s l o r, hasRedo s l = true → (getSe s l).op = some o → o.held = false → o.i = .tileRd r → outFree s l (wideDst o.i) ≠ 0 →
    o.pos = 1 + packetScb o.tile.fmt ((rangeOf o.tile o.range).nr + 1) (((rangeOf o.tile o.range).nc + 1) * 64) +
      ((rangeOf o.tile o.range).nr + 1) * ((rangeOf o.tile o.range).nc + 1) →
    exec (.firingBeat l) s = .next (endSpad (enqueue s l (wideDst o.i) { tag := .last, val := 0 }) l o))

namespace Sys2Proof.Say

open Machine

/-- An engine command's firing needs an engine that accepts it, and its inline words on sb (spec 13 R213, R235, R243). -/
def shapeEng (e : EAct) (i : Instr) (both : Bool) : FireSpec :=
  { shape e.dst e.sa (if both then e.sb else .zero) .none with
    async := true, ready := fun s l => (engineFor s (dieOf l.plot) (getElem s l).bound i).isSome && srcReady s l (inlineCount i) e.sb }

/-- Every beat of `i` that can run issues its command. -/
def Issues (i : Instr) (e : EAct) (both : Bool) : Prop :=
  ∀ s x, Fires (shapeEng e i both) s x → exec i s = .next (commitBeat (shapeEng e i both) s { post := issueCmd e i x })

/-- A command whose next access HOME_ACCESS_PERFORM makes. -/
structure CmdTurn (s : State) (c : Cmd) : Prop where
  noReq : findReq s c.id = none
  found : findCmd s c.id = some c
  goes : cmdStops s c = false

/-- A command of an instruction that has a record, a push apart (spec 13 R235). -/
def HasRecord (c : Cmd) : Prop := (∀ e raise vec, c.i ≠ .sig e raise vec) ∧ (∀ e m a b, c.i ≠ .adPf e m a b) ∧ ∀ e n, c.i ≠ .drillPush e n

/-- A command whose record is read: 64 bytes at an aligned address, over no port that is down (spec 13 R235, 20 R352). -/
structure ReadsRecord (s t : State) (c : Cmd) (r : List Byte) : Prop where
  has : HasRecord c
  aligned : c.a.toNat % 64 = 0
  up : accessCut s c c.a.toNat = false
  reads : readVirt s (dieOf c.l.plot) c.ctx c.a.toNat 64 c.sub = (t, .ok r)

/-- A push's node in the granary: it joins the launch, becomes ready, and enters (spec 06 R114, 13 R243). -/
def pushedNode (u : State) (p : Nat) (x : NodeSt) : State :=
  let a := addNode u (getParcel u p).launch x
  let v := readyNode a.1 (getParcel u p).launch a.2
  match getGNode v (getParcel u p).launch a.2 with
  | some y => if y.phase = .outside then enterGranary v (getParcel u p).launch a.2 else v
  | none => v

/-- A command that begins to run with its record. -/
def begun (r : List Byte) (c : Cmd) : Cmd := { c with phase := .run, record := r, fetching := false, sub := none, depth := 0 }

/-- The round of an element that takes contributions, and one whose count has arrived (spec 16 R298, R299). -/
def openRound (w : Window) (off : Nat) : Option Round := w.rounds.find? fun r => r.off == off && decide (r.all.length < r.first.count)
def fullRound (w : Window) (off : Nat) : Option Round := w.rounds.find? fun r => r.off == off && decide (r.first.count ≤ r.all.length)

/-- The packet that a router accepts in this cycle. -/
structure Accepts (s : State) (id n : Nat) (k : TreePkt) : Prop where
  found : pktOf s id = some (n, k)
  runs : routerRuns s n = true
  here : k.at_ ≤ now s

end Sys2Proof.Say

/-! ### Engines -/

/-- Spec 12 R211 to R213, 13 R235: the firing of an engine command gives it to the engine that accepts it, with the values of sa and sb. -/
def Obligations.EngineCommands : Prop :=
  (∀ e, Issues (.cpy e) e false ∧ Issues (.cpyNd e) e false ∧ Issues (.cpyIx e) e false ∧ Issues (.cpyIs e) e false ∧ Issues (.gat e) e false ∧
    Issues (.sct e) e false ∧ Issues (.put e) e false ∧ Issues (.get e) e false) ∧
  (∀ e f, Issues (.sctAdd e f) e false ∧ Issues (.rdcTree e f) e false ∧ Issues (.coll e f) e false) ∧
  (∀ e n, Issues (.drillPush e n) e false) ∧
  (∀ e raise vec, Issues (.sig e raise vec) e true) ∧
  (∀ e m a b, Issues (.adPf e m a b) e false) ∧
  (∀ e i x s g, engineFor x.s (dieOf x.l.plot) x.e.bound i = some g →
    ∃ c, (issueCmd e i x s).cmds = s.cmds ++ [c] ∧ c.i = i ∧ c.rid = (if e.dst = .none then 0 else s.sched.nextId) ∧ c.l = x.l ∧ c.a = x.a.toWord ∧ c.b = x.b.toWord ∧ c.eng = g ∧
      c.phase = (if isCopy i then .queued else .fetch) ∧ ∀ ch, e.sb = .ch ch → c.inl = ((headTokens x.s x.l ch).take (inlineCount i)).map fun t => (payload t).toWord)

/-- Spec 12 R211, 13 R235, R243, 06 R114: a copy engine takes the oldest command of the port whose turn it is; a command with a legal record runs with it, `sig` has none
and runs at once; a record that is not 64-byte aligned, and one that its layout refuses, hold the command with an OPERAND fault (that the fault holds it is the model's
reading: log 38); a push puts its node into the granary with status 0, or ends with status 5 where its record cannot be read; a command that is done gives its completion token, or with no token
its flags. -/
def Obligations.EngineSteps : Prop :=
  (∀ s c die n, findCmd s c.id = some c → c.eng = .copy die n → c.phase = .queued → engineLoad s c.eng < 16 → nextPort s die n = some (portKey c) →
    (s.cmds.find? fun y => y.eng == c.eng && y.phase == .queued && portKey y == portKey c) = some c →
    exec (.engineAcceptCommand c.id) s =
      .next (modDie (modCmd s c.id fun y => { y with phase := .fetch }) die fun d => { d with copyLast := Tbl.put d.copyLast n (portKey c) })) ∧
  (∀ s c, CmdTurn s c → c.phase = .fetch → HasRecord c → c.a.toNat % 64 ≠ 0 →
    exec (.homeAccessPerform c.id) s = .next (recordFault s c .operand 0 c.a.toNat c.a)) ∧
  (∀ s c t r, CmdTurn s c → c.phase = .fetch → ReadsRecord s t c r → recordOk t c r = true →
    exec (.homeAccessPerform c.id) s = .next (modCmd t c.id (begun r))) ∧
  (∀ s c t r, CmdTurn s c → c.phase = .fetch → ReadsRecord s t c r → recordOk t c r = false →
    exec (.homeAccessPerform c.id) s = .next (badRecord t c r)) ∧
  (∀ s c e raise vec, CmdTurn s c → c.phase = .fetch → c.i = .sig e raise vec →
    exec (.homeAccessPerform c.id) s = .next (modCmd s c.id (begun []))) ∧
  (∀ s c e n p u r xs, CmdTurn s c → c.phase = .fetch → c.i = .drillPush e n → c.parcel = some p →
    launchRecord s (getParcel s p).launch c.a.toNat = (u, some (r, xs)) → nodeOk r = true → granaryLoad u < 4096 →
    exec (.homeAccessPerform c.id) s = .next (modCmd (pushedNode u p
      { addr := c.a.toNat, raw := r, succ := xs, pushed := true, pbase := (getParcel u p).prio, inl := c.inl
        agent := if agentLoad u (dieOf c.l.plot) < 64 then some (dieOf c.l.plot) else none }) c.id fun x => { x with phase := .done, status := 0 })) ∧
  (∀ s c e n p u, CmdTurn s c → c.phase = .fetch → c.i = .drillPush e n → c.parcel = some p →
    launchRecord s (getParcel s p).launch c.a.toNat = (u, none) →
    exec (.homeAccessPerform c.id) s = .next (modCmd u c.id fun x => { x with phase := .done, status := 5 })) ∧
  (∀ s c, findCmd s c.id = some c → c.phase = .done → c.node = none → c.rid ≠ 0 →
    exec (.engineComplete c.id) s = .next (postResult
      (modElem (markActive { s with cmds := s.cmds.filter fun x => x.id != c.id } c.l.plot) c.l fun e => { e with joinFl := e.joinFl ++ [(c.rid, c.flags)] })
      c.rid { tag := .data, val := BitVec.ofNat 512 (min c.bad 65535 * 2 ^ 48 + c.cnt % 2 ^ 32 * 2 ^ 16 + (if c.killed then 4 else c.status)) })) ∧
  (∀ s c, findCmd s c.id = some c → c.phase = .done → c.node = none → c.rid = 0 →
    ∃ t, exec (.engineComplete c.id) s = .next t ∧ (getElem t c.l).flg = (getElem s c.l).flg ||| c.flags.setWidth 64 ∧
      t.cmds = s.cmds.filter fun x => x.id != c.id)

/-! ### Channels, trees and windows -/

/-- Spec 08 R131, R137: a long channel. The head of an output queue departs against a credit and lands as many cycles later in its destination queue as its channel is
long: 1 + H + 4X, with H the plots from row to row and from column to column, at least 1, and X the die boundaries (a route that passes a retired plot is longer: log 53);
credits that are due return. -/
def Obligations.ChannelSteps : Prop :=
  (∀ p plot w, (readRoute w).long = true → let r := (chanRec [] p plot w).2.2
    r.dist = 1 + max 1 ((plotX plot - plotX r.dst.plot) + (plotX r.dst.plot - plotX plot) + (plotY plot - plotY r.dst.plot) + (plotY r.dst.plot - plotY plot)) +
      4 * crossings plot r.dst.plot) ∧
  (∀ s l n r x xs, let o := outPort (getElem s l) n
    o.route = some r → r.long = true → o.q.es = x :: xs → 0 < o.credits → popsAt (now s) o.q = 0 → x.body.isSome → x.since ≤ now s → plotFrozen s l.plot = false →
    ∃ t, exec (.tokenDepart l n) s = .next t ∧ (outPort (getElem t l) n).credits = o.credits - 1 ∧
      (outPort (getElem t l) n).q = queuePop (now s) o.q ∧ (outPort (getElem t l) n).flight = o.flight ++ [(now s + r.dist, x)]) ∧
  (∀ s l n r at_ x rest, let o := outPort (getElem s l) n
    o.route = some r → o.flight = (at_, x) :: rest → at_ ≤ now s + 1 → (getElem s r.dst).killed = false →
    ∃ t, exec (.tokenArrive l n) s = .next t ∧ (outPort (getElem t l) n).flight = rest ∧
      (inPort (getElem t r.dst) r.port).q = queuePush (inPort (getElem s r.dst) r.port).q { x with since := at_ }) ∧
  (∀ s l n r at_ x rest, let o := outPort (getElem s l) n
    o.route = some r → o.flight = (at_, x) :: rest → at_ ≤ now s + 1 → (getElem s r.dst).killed = true →
    ∃ t, exec (.tokenArrive l n) s = .next t ∧ (outPort (getElem t l) n).flight = rest ∧ (outPort (getElem t l) n).back = o.back ++ [at_ + r.dist]) ∧
  (∀ s l n, let o := outPort (getElem s l) n
    (∃ t ∈ o.back, t ≤ now s) →
    ∃ t, exec (.creditReturn l n) s = .next t ∧ (outPort (getElem t l) n).credits = o.credits + (o.back.filter fun c => decide (c ≤ now s)).length ∧
      (outPort (getElem t l) n).back = o.back.filter fun c => !decide (c ≤ now s))

/-- Spec 16 R293 to R296: a router opens a group for the first packet of it, sends the sum of a group that is ready to its parent, and marks a group whose timer
has expired.
Spec 16 R297 to R300: a contribution opens a round, this package's own too, joins one that it agrees with, or discards it with MISMATCH or DUPLICATE, or both, latched
at the round's home; a round whose count is complete updates its home, unless the home cannot perform it, and is acknowledged, a home elsewhere changing no memory here; one whose time is over is
discarded with TIMEOUT latched at its home. -/
def Obligations.ReductionSteps : Prop :=
  (∀ s id n k, Accepts s id n k → (shutGroups (getParcel s n) k.plot k.tree).contains k.grp = false → findGroup (getParcel s n) k.plot k.tree k.grp = none →
    ((getParcel s n).treeGroups.filter fun g => g.plot == k.plot && g.tree == k.tree).length < 4 →
    ∃ t g, exec (.treePacketAccept id) s = .next t ∧ (getParcel t n).treeGroups = (getParcel s n).treeGroups ++ [g] ∧
      g.plot = k.plot ∧ g.tree = k.tree ∧ g.grp = k.grp ∧ g.ins = [(k.port, k)] ∧ g.since = (getParcel s n).cycles ∧
      (getParcel t n).treePkts = (getParcel s n).treePkts.filter fun x => x.id != k.id) ∧
  (∀ s plot tree grp n g r up port, groupParcel s plot tree grp = some (n, g) → routerRuns s n = true → treeOf s g.plot g.tree = some r →
    groupReady s (getParcel s n) r g = true → treeParent (getParcel s n) r g.plot = some (up, port) →
    ∃ t k, exec (.treeForward plot tree grp) s = .next t ∧ (getParcel t n).treePkts = (getParcel s n).treePkts ++ [k] ∧
      k.plot = up ∧ k.port = port ∧ k.tree = g.tree ∧ k.grp = g.grp ∧ k.lanes = (treeSum g).1 ∧ k.flags = (treeSum g).2 ∧
      (getParcel t n).treeGroups = (getParcel s n).treeGroups.filter fun x => !isGroup g.plot g.tree g.grp x) ∧
  (∀ s plot tree grp n g r, groupParcel s plot tree grp = some (n, g) → routerRuns s n = true → treeOf s g.plot g.tree = some r → r.tmo ≠ 0 →
    g.since + cyclesOfNs r.tmo ≤ (getParcel s n).cycles →
    exec (.treeTimeout plot tree grp) s = .next (modParcel s n fun p =>
      { p with treeGroups := mapIf (isGroup g.plot g.tree g.grp) (fun g => { g with expired := true }) p.treeGroups })) ∧
  (∀ s c, c.req = 0 → openRound (getWindow s c.ctx c.win) c.off = none →
    ∃ t, exec (.windowContribution c) s = .next t ∧
      (getWindow t c.ctx c.win).rounds = (getWindow s c.ctx c.win).rounds ++ [{ off := c.off, since := now s, first := c, all := [c] }]) ∧
  (∀ s q n off, findReq s q.id = some q → q.id ≠ 0 → q.phase = .contributing n off →
    ((getWindow s q.ctx n).rounds.any fun r => r.all.any fun x => x.req == q.id) = false → openRound (getWindow s q.ctx n) off = none →
    ∀ c, c.req = q.id → ∃ t, exec (.windowContribution c) s = .next t ∧ (getWindow t q.ctx n).rounds = (getWindow s q.ctx n).rounds ++
      [{ off := off, since := now s, first := ownContribution s q n off, all := [ownContribution s q n off] }]) ∧
  (∀ s c r, c.req = 0 → openRound (getWindow s c.ctx c.win) c.off = some r → sameRound r.first c = true →
    (r.all.any fun x => x.rank == c.rank) = false →
    ∃ t, exec (.windowContribution c) s = .next t ∧ (getWindow t c.ctx c.win).wstat = (getWindow s c.ctx c.win).wstat ∧
      (getWindow t c.ctx c.win).rounds = mapIf (fun x => x == r) (fun x => { x with all := x.all ++ [c] }) (getWindow s c.ctx c.win).rounds) ∧
  (∀ s c r, c.req = 0 → openRound (getWindow s c.ctx c.win) c.off = some r →
    (sameRound r.first c = false ∨ (r.all.any fun x => x.rank == c.rank) = true) →
    ∃ t, exec (.windowContribution c) s = .next t ∧
      (getWindow t c.ctx c.win).wstat = (if r.first.home = Config.packageNumber then (getWindow s c.ctx c.win).wstat |||
          ((if sameRound r.first c then 0#32 else 1#32) ||| if r.all.any (fun x => x.rank == c.rank) then 2#32 else 0#32)
        else (getWindow s c.ctx c.win).wstat) ∧
      (getWindow t c.ctx c.win).rounds = (getWindow s c.ctx c.win).rounds.erase r) ∧
  (∀ s ctx win off r, fullRound (getWindow s ctx win) off = some r → r.first.home ≠ Config.packageNumber →
    ∃ t, exec (.windowRoundEnd ctx win off) s = .next t ∧ t.mem = s.mem ∧ (getWindow t ctx win).rounds = (getWindow s ctx win).rounds.erase r) ∧
  (∀ s ctx win off r, fullRound (getWindow s ctx win) off = some r → r.first.home = Config.packageNumber →
    let n := if r.first.size = .b4 then 4 else 8
    let pa := bitsOf (getWindow s ctx win).whpa.toNat 51 0 + off
    roundBad s (homeOf s pa) pa n = none →
    let s0 := modSched s fun c => { c with freeCtr := c.freeCtr + 1 }
    let q := homeRead s0 (homeOf s pa) n
    let v := atomValue r.first.op r.first.fcs (8 * n) (ofBytes q.2) (mergedValue s.sched.freeCtr r)
    exec (.windowRoundEnd ctx win off) s = .next (modWindow (r.all.foldl (ackContribution 0 v.2)
      (homeWrite q.1 (homeOf s pa) (bytesOf n v.1) (srcRemote Config.packageNumber) 0 0xFF)) ctx win (dropRound r))) ∧
  (∀ s ctx win off r, openRound (getWindow s ctx win) off = some r → (getWindow s ctx win).wtmo ≠ 0 →
    r.since + cyclesOfNs (1000 * (getWindow s ctx win).wtmo.toNat) ≤ now s → (∀ c ∈ r.all, c.req = 0) → findReq s 0 = none →
    ∃ t, exec (.windowTimeout ctx win off) s = .next t ∧
      (getWindow t ctx win).wstat = (if r.first.home = Config.packageNumber then (getWindow s ctx win).wstat ||| 4#32 else (getWindow s ctx win).wstat) ∧
      (getWindow t ctx win).rounds = (getWindow s ctx win).rounds.erase r)

namespace Sys2Proof.Say

open Machine

/-- The operands of the accumulator instructions; a CLOSING node makes them wait (spec 15 R267). -/
def shapeAcc (x : XAct) (d : Dst) (u : PUpd) (async : Bool) : FireSpec := { shape d x.sa .zero u with async := async, ready := nodeRests x.an }
def shapeMma (x : MmaAct) : FireSpec := { shape .none .zero .zero .none with soft := true, ready := mmaReady x }
def shapeLd (x : XAct) : FireSpec := { shape .none .zero .zero .none with soft := true, ready := accLdReady x }

/-- The node that an instruction names. -/
def nodeIn (x : BeatIn) (an : Fin 4) : AccNode := nodeAt (getMe x.s x.l) an

/-- Rows whose ids agree with those that an open node latched, with or without adapters as it was opened (spec 15 R265). -/
def Continues (x : BeatIn) (m : MmaAct) (g : MmaGeo) (ids : List Nat) : Prop :=
  (nodeIn x m.an).state = .opened →
    (nodeIn x m.an).ad = (m.ids != .none) ∧ (m.ids ≠ .none → ids.take g.rows = (nodeIn x m.an).ids.take g.rows)

/-- Operands that suit their instruction and its node: sparse rows in order, ids on the narrow path only, and the path of an open node (spec 15 R265). -/
def Suits (x : BeatIn) (m : MmaAct) (g : MmaGeo) : Prop :=
  let u := getMe x.s x.l
  sparseOk (headBuf u.nodeA) g.rows g.d = true ∧ (m.flow = .row ∨ sparseOk (headBuf u.nodeB) g.n g.d = true) ∧
  (m.ids = .none ∨ g.path = .narrow) ∧ ((nodeIn x m.an).state = .opened → (nodeIn x m.an).path = g.path)

/-- The group scale of B is one that a q4n operand has (spec 02 R31). -/
def Scaled (x : BeatIn) (m : MmaAct) : Prop := m.flow = .row ∨ scaleUsable (headBuf (getMe x.s x.l).nodeB) = true

/-- An MMA firing of INNER or OUTER that takes its next K-step in this cycle, without adapters, no access to the element's spill tile being left. -/
structure KStep (s : State) (l : Loc) (f : Firing) (geo : MmaGeo) (a b : OpBuf) (rows cols : List MRow) : Prop where
  runs : meRuns s l = true
  fire : (getMe s l).fire = some f
  goes : f.held = false ∧ f.pad = false ∧ f.due ≤ now s
  grid : f.x.flow ≠ .row ∧ f.x.ids = .none
  geoIs : fireGeo s l f = some (geo, a, b)
  good : a.bad = [] ∧ b.bad = []
  spill : spillBusy s l = false
  operands : operandsOf f geo a b = some (rows, cols)

/-- The entry that one group sum leaves (spec 14 R257, 02 R42): an exact zero changes nothing. -/
def entryAfter (path : MPath) (a : Acc) (g : GSum) : Acc :=
  match g with
  | .fin _ 0 => a
  | _ => (accAdd path a g).1

end Sys2Proof.Say

/-! ### Matrix elements -/

/-- Spec 15 R264 to R273, R278: the instructions of a matrix element. `mma` whose operands suit it begins and opens a free node, and changes no entry; of others it raises
FORMAT, or OPERAND for a group scale of B that no q4n operand has and for ids that differ from those of its open node. The accumulator instructions wait for a node
that is ending. `acc.clr` frees its node and drops its deferred rows; `acc.rd` sends rows of its range, and raises OPERAND for a bad range; `acc.ld` begins to take its
stream; `acc.rel` ends the reduction of an open node, or releases a closed one, and leaves a free one; `ad.inv` leaves no directory entry that it matches, and no slice but
such as are pinned; the two counter instructions read, `me.idl` with CLR clearing, and raise OPERAND for words that R273 and R278 refuse. -/
def Obligations.MatrixInstructions : Prop :=
  (∀ m s x g, Fires (shapeMma m) s x → headGeo s x.l m = some g →
    Suits x m g → Scaled x m → Continues x m g (adapterIds s x.l m g.rows) →
    exec (.mma m) s = .next (commitBeat (shapeMma m) s { post := startMma m g (adapterIds s x.l m g.rows) x.l })) ∧
  (∀ m s x, Fires (shapeMma m) s x → headGeo s x.l m = none →
    exec (.mma m) s = .next (holdBeat (shapeMma m) s x .format 0 (bufHdr (headBuf (getMe s x.l).nodeA)) 0)) ∧
  (∀ m s x g, Fires (shapeMma m) s x → headGeo s x.l m = some g → ¬Suits x m g →
    exec (.mma m) s = .next (holdBeat (shapeMma m) s x .format 0 (bufHdr (headBuf (getMe s x.l).nodeA)) 0)) ∧
  (∀ m s x g, Fires (shapeMma m) s x → headGeo s x.l m = some g → Suits x m g → ¬(Scaled x m ∧ Continues x m g (adapterIds s x.l m g.rows)) →
    ∃ w, exec (.mma m) s = .next (holdBeat (shapeMma m) s x .operand 0 w 0)) ∧
  (∀ m g ids l s, let t := startMma m g ids l s
    (∃ f, (getMe t l).fire = some f ∧ f.x = m ∧ f.step = 0 ∧ f.steps = g.k / g.g ∧ f.held = false) ∧
    (nodeAt (getMe t l) m.an).ents = (nodeAt (getMe s l) m.an).ents ∧
    ((nodeAt (getMe s l) m.an).state = .free → (nodeAt (getMe t l) m.an).state = .opened ∧ (nodeAt (getMe t l) m.an).path = g.path ∧
      (nodeAt (getMe t l) m.an).ids = ids)) ∧
  (∀ m, Commits (.accClr m) (shapeAcc m .none m.upd false) (fun _ => True) fun x =>
    { pred := (nodeIn x m.an).state != .free
      upd := fun e => if (nodeIn x m.an).state = .opened then { e with resv := e.resv - 1 } else e
      post := fun s => modMe s x.l fun u => { u with accs := u.accs.set m.an (clearNode (nodeIn x m.an)), replay := u.replay.filter fun c => c.an != m.an } }) ∧
  (∀ m fcs s x r0 nr, Fires (shapeAcc m m.dst .none true) s x → (if m.sa.isCh then accRange x.a.toWord else some (0, 16)) = some (r0, nr) →
    ((nodeIn x m.an).state = .free ∨ normOk (nodeIn x m.an).norm (nodeIn x m.an).path = true) →
    let q := accTokens (nodeIn x m.an) m.an (dirOf (fpmRD x.e.fpm)) fcs m.dst r0 nr
    exec (.accRd m fcs) s = .next (after (shapeAcc m m.dst .none true) s x { flags := q.2, post := startAccRd m q.1 x.l })) ∧
  (∀ m fcs, RaisesOperand (.accRd m fcs) (shapeAcc m m.dst .none true) (fun x => m.sa.isCh = true ∧ accRange x.a.toWord = none) fun x => x.a.toWord) ∧
  (∀ m, Commits (.accLd m) (shapeLd m) (fun _ => True) fun x => { post := startAccLd m x.l }) ∧
  (∀ m fcs, Commits (.accRel m fcs) (shapeAcc m .none m.upd false)
    (fun x => (nodeIn x m.an).state = .free ∨ relChan m.dst = none ∨ normOk (nodeIn x m.an).norm (nodeIn x m.an).path = true) fun x =>
    { pred := (nodeIn x m.an).state == .opened, post := releaseEffect m fcs x.l }) ∧
  (∀ m fcs l s, (nodeAt (getMe s l) m.an).state = .free → releaseEffect m fcs l s = s) ∧
  (∀ m fcs l s, (nodeAt (getMe s l) m.an).state = .opened ∨ ((nodeAt (getMe s l) m.an).state = .closed ∧ (relChan m.dst).isSome = true) →
    ∃ u c, releaseEffect m fcs l s = tryRelease u l m.an ∧ (nodeAt (getMe u l) m.an).state = .closing ∧ (nodeAt (getMe u l) m.an).closing = some c ∧
      c.dest = relChan m.dst ∧ (nodeAt (getMe u l) m.an).ents = (nodeAt (getMe s l) m.an).ents) ∧
  (∀ m, Commits (.adInv m) { shape m.dst m.sa .zero m.upd with async := true } (fun x => bitsOf x.a.toWord.toNat 61 32 = 0) fun x =>
    { post := invEffect m.dst x.l x.a.toWord.toNat }) ∧
  (∀ m, RaisesOperand (.adInv m) { shape m.dst m.sa .zero m.upd with async := true } (fun x => bitsOf x.a.toWord.toNat 61 32 ≠ 0) fun x => x.a.toWord) ∧
  (∀ d l w s, let t := invEffect d l w s
    (∀ y ∈ t.mes, y.1 / 32 = l.plot → ∀ e ∈ y.2.dirs, invMatches w e.aid e.tag = false) ∧
    ∀ y ∈ (getPlot t l.plot).slices, invMatches w y.aid y.tag = true → y.stale = true ∧ pinOf t l.plot y.id ≠ 0) ∧
  (∀ m, Gives (.meCnt m) (shape m.dst m.sa .zero m.upd) fun x => word (meCntWord (getMe x.s x.l) m.an) 0#7) ∧
  (∀ m, Commits (.meIdl m) (shape m.dst m.sa .zero m.upd) (fun x => x.a.toWord.toNat < 512 ∧ bitsOf x.a.toWord.toNat 7 4 = 0) fun x =>
    let v := (getMe x.s x.l).idle.getD (x.a.toWord.toNat % 16) 0
    { v := BitVec.ofNat 512 v, pred := bitOf v 0
      post := fun s => if bitOf x.a.toWord.toNat 8 then modMe s x.l fun u => { u with idle := u.idle.set (x.a.toWord.toNat % 16) 0 } else s }) ∧
  (∀ m, RaisesOperand (.meIdl m) (shape m.dst m.sa .zero m.upd) (fun x => ¬(x.a.toWord.toNat < 512 ∧ bitsOf x.a.toWord.toNat 7 4 = 0)) fun x => x.a.toWord)

/-- Spec 14 R248, R254, R257, R258, 15 R265, R267: the steps of a matrix element. A K-step adds one group sum to each entry of the output; the firing's end
counts one reduction; an ended node is held or released, and its packet leaves beat by beat. -/
def Obligations.MatrixSteps : Prop :=
  (∀ (geo : MmaGeo) rows cols g ents i n (r c : MRow), rows.length ≤ 16 → cols.length ≤ 16 → rows[i]? = some r → cols[n]? = some c →
    Tbl.findD (mainStep geo rows cols g ents).1 (16 * i + n) {} = entryAfter geo.path (Tbl.findD ents (16 * i + n) {})
      (groupSum geo.path ((upFrom (g * geo.g) geo.g).map fun k => (r.val k, c.val k))).1) ∧
  (∀ s l f geo a b rows cols, KStep s l f geo a b rows cols →
    let q := mainStep geo rows cols f.step (nodeAt (getMe s l) f.x.an).ents
    (f.noTrap = true ∨ q.2 &&& fpmTE (getElem s l).fpm = 0#7) →
    ∃ t, exec (.mmaStep l) s = .next t ∧ (nodeAt (getMe t l) f.x.an).ents = q.1 ∧ (getElem t l).flg = (getElem s l).flg ||| q.2.setWidth 64 ∧
      (getMe t l).fire.map (fun f => f.step) = some (f.step + 1)) ∧
  (∀ s l f geo a b rows cols, KStep s l f geo a b rows cols →
    let q := mainStep geo rows cols f.step (nodeAt (getMe s l) f.x.an).ents
    f.noTrap = false → q.2 &&& fpmTE (getElem s l).fpm ≠ 0#7 →
    exec (.mmaStep l) s = .next (holdMma s l f .arith 0 ((q.2 &&& fpmTE (getElem s l).fpm).setWidth 64))) ∧
  (∀ s l f geo a b, meRuns s l = true → (getMe s l).fire = some f → f.held = false → f.pad = true → f.due ≤ now s → f.x.ids = .none →
    fireGeo s l f = some (geo, a, b) → ((nodeAt (getMe s l) f.x.an).count = 0 ∨ (nodeAt (getMe s l) f.x.an).f + 1 ≠ (nodeAt (getMe s l) f.x.an).count) →
    ∃ t, exec (.mmaComplete l) s = .next t ∧ (getMe t l).fire = none ∧ (getElem t l).pix = 0#64 ∧
      (nodeAt (getMe t l) f.x.an) = { nodeAt (getMe s l) f.x.an with f := (nodeAt (getMe s l) f.x.an).f + 1 }) ∧
  (∀ s l nodeB n tok e, meRuns s l = true → portOf (getElem s l) l.plot nodeB = some n → headToken s l n = some tok →
    (inPort (getElem s l) n).q.es.head? = some e →
    let nd := nodeOf (getMe s l) nodeB
    (nd.bufs.getD nd.fill {}).full = false → beatWaits tok (nd.bufs.getD nd.fill {}) = false →
    ∃ t, exec (.operandPacketFill l nodeB) s = .next t ∧ t = modMe (dequeue s l n) l (modNode nodeB fun nd =>
      let nd := modBuf nd.fill (takeBeat tok e.rid) nd
      if tok.tag = .last then { nd with fill := (nd.fill + 1) % nd.bufs.length } else nd)) ∧
  (∀ s l an c ch, meRuns s l = true → (nodeAt (getMe s l) an).state = .closing → (nodeAt (getMe s l) an).closing = some c →
    adaptersDone (nodeAt (getMe s l) an) = true → c.dest = some ch → (outPort (getElem s l) (relPort ch)).pkt = [] → endsBefore (getMe s l) c = false →
    ∃ t, exec (.accumulatorRelease l an) s = .next t ∧ (nodeAt (getMe t l) an).state = .free ∧ (nodeAt (getMe t l) an).ents = [] ∧
      (outPort (getElem t l) (relPort ch)).pkt = (packetOf (nodeAt (getMe s l) an) an (dirOf (fpmRD (getElem s l).fpm)) c.fcs 0 16).1) ∧
  (∀ s l an c, meRuns s l = true → (nodeAt (getMe s l) an).state = .closing → (nodeAt (getMe s l) an).closing = some c →
    adaptersDone (nodeAt (getMe s l) an) = true → c.dest = none →
    ∃ t, exec (.accumulatorRelease l an) s = .next t ∧ (nodeAt (getMe t l) an).state = .closed ∧
      (nodeAt (getMe t l) an).ents = (nodeAt (getMe s l) an).ents) ∧
  (∀ s l c tok rest, meRuns s l = true → (outPort (getElem s l) (relPort c)).pkt = tok :: rest → outRoom s l (relPort c) ≠ 0 →
    exec (.releaseBeat l c) s = .next (modElem (enqueue s l (relPort c) tok) l fun e => setOut e (relPort c) { outPort e (relPort c) with pkt := rest }))

/-- Spec 15 R274 to R277: a directory read that is answered is cached; a slice that is read enters the plot's cache, where no pinned slice gives way, and waits while
every way of its set is pinned; the rows of a node that is ending are closed once none of its chunks waits, those of the base model with no change and a row that is
pinned to its slice with the groups of that slice. -/
def Obligations.AdapterSteps : Prop :=
  (∀ s plot f d s', (getPlot s plot).fills.find? (fun x => x.id == f.id) = some f → fillTurn (getPlot s plot) f = true → plotFrozen s plot = false →
    f.slice = none → readDir (some plot) s plot (getMe s f.l).dir f.aid f.tag f.sub = (s', .ok d) →
    exec (.adapterSliceFill plot f.id) s =
      .next (wakeRows f.aid f.tag none none (modMe (endFill s' plot f) f.l fun u => { u with dirs := putDir u.dirs d }) f.l)) ∧
  (∀ s plot f k b d s' data, (getPlot s plot).fills.find? (fun x => x.id == f.id) = some f → fillTurn (getPlot s plot) f = true → plotFrozen s plot = false →
    f.slice = some (k, b, d) → f.again = false →
    readVirtOf (some plot) s (dieOf plot) f.ctx ((if k then d.bbase else d.abase) + 8192 * b) (sliceBytes d k b) f.sub = (s', .ok data) →
    sliceRoom s plot (newSlice k f.aid f.tag b f.id []) ≠ none → ∀ xs, sliceRoom s' plot (newSlice k f.aid f.tag b f.id data) = some xs →
    exec (.adapterSliceFill plot f.id) s = .next ((meSites plot).foldl (wakeRows f.aid f.tag (some (k, b)) (some (f.id, d)))
      (modPlot (endFill s' plot f) plot fun p => { p with slices := xs }))) ∧
  (∀ s plot y xs, sliceRoom s plot y = some xs → y ∈ xs ∧ ∀ z ∈ (getPlot s plot).slices, pinOf s plot z.id ≠ 0 → z ∈ xs) ∧
  (∀ s plot f k b d, (getPlot s plot).fills.find? (fun x => x.id == f.id) = some f → fillTurn (getPlot s plot) f = true → plotFrozen s plot = false →
    f.slice = some (k, b, d) → f.again = false → sliceRoom s plot (newSlice k f.aid f.tag b f.id []) = none →
    exec (.adapterSliceFill plot f.id) s = .next s) ∧
  (∀ s l an c, plotFrozen s l.plot = false → (getElem s l).killed = false → closeTurn s l an = some c →
    (∀ i, i < 16 → (nodeAt (getMe s l) an).ids.getD i 0 = 0) →
    ∃ u, (nodeAt (getMe u l) an).closedRows = 16 ∧ (nodeAt (getMe u l) an).ents = (nodeAt (getMe s l) an).ents ∧
      exec (.adapterClose l an) s = .next (tryRelease u l an)) ∧
  (∀ s l an c sid d y, plotFrozen s l.plot = false → (getElem s l).killed = false → closeTurn s l an = some c →
    let nd := nodeAt (getMe s l) an
    nd.ids.getD nd.closedRows 0 ≠ 0 → nd.closePin = some (sid, d) → (getPlot s l.plot).slices.find? (fun z => z.id == sid) = some y →
    (∀ i, nd.closedRows < i → i < 16 → nd.ids.getD i 0 = 0) →
    ∃ u, (nodeAt (getMe u l) an).closedRows = 16 ∧
      (nodeAt (getMe u l) an).ents = (closeRow (dirOf (fpmRD (getElem s l).fpm)) c.fcs d y.data nd nd.closedRows).1.ents ∧
      exec (.adapterClose l an) s = .next (tryRelease u l an))

namespace Sys2Proof.Say

open Machine

/-- An asynchronous privileged instruction: its effect is done when it fires, and its acknowledgement carries the word (spec 18 R325). -/
def shapePriv (r : RAct) : FireSpec := { shapeR r with async := true }
def Acks (i : Instr) (r : RAct) (f : BeatIn → State → State × Word) : Prop :=
  ∀ s x, Fires (shapePriv r) s x → exec i s = .next (commitBeat (shapePriv r) s { post := ackEffect r.dst x.l (f x) })

/-- The same for an instruction on a target, and the OPERAND fault of a word that is no target. -/
def AcksTarget (i : Instr) (r : RAct) (f : BeatIn → Target → State → State × Word) : Prop :=
  (∀ s x t, Fires (shapePriv r) s x → readTarget x.a.toWord = some t →
    exec i s = .next (commitBeat (shapePriv r) s { post := ackEffect r.dst x.l (f x t) })) ∧
  RaisesOperand i (shapePriv r) (fun x => readTarget x.a.toWord = none) fun x => x.a.toWord

/-- The shapes of `flt.rd`, which waits for a record, and of `irq`, which waits for the mailbox. -/
def shapeFlt (d : Dst) (u : PUpd) : FireSpec :=
  { shape d .zero .zero u with ready := fun s l => s.sched.cur.beat != 0 || recordQueued s (dieOf l.plot) }
def shapeIrq (r : RAct) : FireSpec := { shapeR r with async := true, ready := fun s l => r.dst == .none || !(getDie s (dieOf l.plot)).hpend }

/-- A 64-bit word as a result whose bit 0 pmode 01 writes. -/
def recordOut (w : Word) (tail : List Word) (post : State → State) : BeatOut :=
  { v := w.setWidth 512, pred := w.getLsbD 0, upd := fun e => { e with reading := tail }, post := post }

end Sys2Proof.Say

/-! ### Privileged instructions of headland elements -/

/-- Spec 18 R316 to R318, R325, R326: `flt.rd` takes the oldest record of the die and gives its eight words; `rpr` answers an identifier (1 where it is not open,
2 where it is that of a report, and where it was: log 50); `rq.rd` and `rq.wr` read and write the words of a HELD entry; `rq.inj` answers one entry. -/
def Obligations.FaultInstructions : Prop :=
  (∀ d u s x r, Fires (shapeFlt d u) s x → s.sched.cur.beat = 0 → oldestFault s (dieOf x.l.plot) = some r →
    exec (.fltRd d u) s = .next (commitBeat (shapeFlt d u) s
      (recordOut ((recordWords r).headD 0) (recordWords r).tail fun s => takeFault s (dieOf x.l.plot) r))) ∧
  (∀ d u s x, Fires (shapeFlt d u) s x → s.sched.cur.beat ≠ 0 →
    exec (.fltRd d u) s = .next (commitBeat (shapeFlt d u) s (recordOut (x.e.reading.headD 0) x.e.reading.tail id))) ∧
  (∀ r act, Acks (.rpr r act) r fun x s =>
    match faultOf s (dieOf x.l.plot) (bitsOf x.a.toWord.toNat 15 0) with
    | none => (s, if (getDie s (dieOf x.l.plot)).reported.contains (bitsOf x.a.toWord.toNat 15 0) then 2 else 1)
    | some f => if f.report then (s, 2) else (answerFid s f ⟨act, x.b.toWord⟩, 0)) ∧
  (∀ s die r, (getDie (takeFault s die r) die).store = (getDie s die).store.filter (fun n => n != r.id) ∧
    (r.report = true → ∀ fid, r.fid = some fid → (getDie (takeFault s die r) die).reported.contains fid = true)) ∧
  (∀ r, Acks (.rqRd r) r fun x s => (s, match rqEntryOf s x.a.toWord with
    | some y => rqWord y (queueTarget x.a.toWord).2.2
    | none => 0)) ∧
  (∀ r, Acks (.rqWr r) r fun x s =>
    match rqEntryOf s x.a.toWord with
    | none => (s, 1)
    | some y =>
      if y.wfid then (s, 1)
      else if (queueTarget x.a.toWord).2.2 = 0 then (s, 2)
      else (writeRq s (queueTarget x.a.toWord).1 (queueTarget x.a.toWord).2.1 (queueTarget x.a.toWord).2.2 y x.b.toWord, 0)) ∧
  (∀ r v, Acks (.rqInj r v) r fun x => injectEffect x.a.toWord ⟨if v then .subst else .resume, x.b.toWord⟩) ∧
  (∀ d l f s, d ≠ .none → s.sched.nextId ≠ 0 →
    let q := f (reserve (bumpId s) l d s.sched.nextId false)
    ∃ a, (ackEffect d l f s).results = q.1.results ++ [a] ∧ a.rid = s.sched.nextId ∧ a.tok = { tag := .data, val := q.2.setWidth 512 })

/-- Spec 18 R321, R322, R325 to R328, 19 R333, R338: freeze, thaw, save, restore, translations, regions, trace, watchpoints, mailboxes, sparing,
policies. The acknowledgements 2 of `wp.set` and of `ctx.sv` with a base that they do not admit, and 1 of `pol.wr`, are the model's reading (log 43). -/
def Obligations.ControlInstructions : Prop :=
  (∀ r, AcksTarget (.ctxSv r) r fun x t s => match frozenTarget s t with
    | none => (s, 1)
    | some k => if saveBaseOk (getParcel s k) x.b.toWord.toNat then (writeArea s k x.b.toWord.toNat 0, 0) else (s, 2)) ∧
  (∀ r, AcksTarget (.ctxLd r) r fun x t => loadEffect t x.b.toWord.toNat) ∧
  (∀ r g, Commits (.tlbInv r g) (shapePriv r) (fun _ => True) fun x =>
    { post := tlbEffect r.dst g (bitsOf x.a.toWord.toNat 5 0) x.b.toWord.toNat x.l }) ∧
  (∀ d g ctx va l s,
    (∀ x ∈ (tlbEffect d g ctx va l s).les, ∀ e ∈ x.2.tlb, invMatch g ctx va e = false) ∧
    (∀ x ∈ (tlbEffect d g ctx va l s).dies, ∀ e ∈ x.2.tlb, invMatch g ctx va e = false)) ∧
  (∀ r s x t, Fires (shapePriv r) s x → readTarget x.a.toWord = some t →
    exec (.frz r) s = .next (commitBeat (shapePriv r) s { post := frzEffect r.dst t x.l })) ∧
  (∀ r, RaisesOperand (.frz r) (shapePriv r) (fun x => readTarget x.a.toWord = none) fun x => x.a.toWord) ∧
  (∀ r, AcksTarget (.thw r) r fun _ t s => match frozenTarget s t with
    | none => (s, 1)
    | some k => if (getParcel s k).frz = .frozen true ∨ (getParcel s k).stage ≠ .placed then (s, 3) else (modParcel s k fun p => { p with frz := .run }, 0)) ∧
  (∀ r, AcksTarget (.cfgRld r) r fun _ t => reloadEffect t) ∧
  (∀ r s x t, Fires (shapePriv r) s x → readTarget x.a.toWord = some t → bitsOf x.b.toWord.toNat 51 48 < 4 →
    exec (.trCtl r) s = .next (commitBeat (shapePriv r) s { post := ackEffect r.dst x.l fun s => (writeTrace s t.plot x.b.toWord, (getPlot s t.plot).trace.ctl) })) ∧
  (∀ r, RaisesOperand (.trCtl r) (shapePriv r) (fun x => (readTarget x.a.toWord).isSome = true ∧ 4 ≤ bitsOf x.b.toWord.toNat 51 48) fun x => x.b.toWord) ∧
  (∀ r n, Acks (.wpSet r n) r fun x s =>
    if hbmEnd ≤ x.a.toWord.toNat ∨ x.a.toWord.toNat % 64 ≠ 0 ∨ x.b.toWord.toNat % 64 ≠ 0 then (s, 2)
    else (modDie s (hbmDie x.a.toWord.toNat) fun d => { d with wps := d.wps.set n { base := x.a.toWord.toNat, len := x.b.toWord.toNat } }, 0)) ∧
  (∀ r, Commits (.irq r) (shapeIrq r) (fun _ => True) fun x => { post := irqEffect r.dst x.l x.a.toWord x.b.toWord }) ∧
  (∀ d l w m s, (irqEffect d l w m s).msix = s.msix ++ [(bitsOf w.toNat 5 0, bitsOf w.toNat 16 6, now s)] ∧
    (getDie (irqEffect d l w m s) (dieOf l.plot)).hmsg = m) ∧
  (∀ r, AcksTarget (.spareMap r) r fun _ t => spareEffect t) ∧
  (∀ r s x u, Fires (shapeR r) s x → polTarget x.a.toWord = true → x.b.toWord.toNat < 5 → polFrozen s x.a.toWord = none →
    writePolicy s x.a.toWord x.b.toWord.toNat = some u →
    exec (.polWr r) s = .next (commitBeat (shapeR r) s
      { post := fun s => (writePolicy (keepOrder s x.a.toWord x.b.toWord.toNat) x.a.toWord x.b.toWord.toNat).getD s })) ∧
  (∀ r s x k, Fires (shapeR r) s x → polTarget x.a.toWord = true → x.b.toWord.toNat < 5 → polFrozen s x.a.toWord = some k →
    exec (.polWr r) s = .next (commitBeat (shapeR r) s
      { post := fun s => modParcel s k fun p => { p with recorded := p.recorded ++ [.policy x.a.toWord x.b.toWord.toNat] } })) ∧
  (∀ r s x, Fires (shapeR r) s x → polTarget x.a.toWord = true → x.b.toWord.toNat < 5 → polFrozen s x.a.toWord = none →
    writePolicy s x.a.toWord x.b.toWord.toNat = none → exec (.polWr r) s = .next (commitBeat (shapeR r) s { v := 1, pred := true })) ∧
  (∀ r, RaisesOperand (.polWr r) (shapeR r) (fun x => polTarget x.a.toWord = false) fun x => x.a.toWord) ∧
  (∀ r, RaisesOperand (.polWr r) (shapeR r) (fun x => polTarget x.a.toWord = true ∧ 5 ≤ x.b.toWord.toNat) fun x => x.b.toWord)

/-- Spec 18 R316, R328: a host's reply to a pending `irq` is posted as its token and clears PENDING; a record that waits for an identifier takes the die's next
free one and enters the fault store, and is answered as a kill where no handler is loaded. -/
def Obligations.ReplyAndIdentifiers : Prop :=
  (∀ s die v, die < 4 → (getDie s die).hpend = true → (getDie s die).hrid ≠ 0 →
    ∃ t r, exec (.hostReply die v) s = .next t ∧ (getDie t die).hpend = false ∧ (getDie t die).hreply = v ∧
      t.results = s.results ++ [r] ∧ r.rid = (getDie s die).hrid ∧ r.tok = { tag := .data, val := v.setWidth 512 }) ∧
  (∀ s die v, die < 4 → (getDie s die).hpend = false →
    ∃ t, exec (.hostReply die v) s = .next t ∧ (getDie t die).hreply = v ∧ t.results = s.results) ∧
  (∀ s die id rest fid r, (getDie s die).fidWait = id :: rest → freeFid s die = some fid → findFault s id = some r → r.die = die → r.items = [] →
    (getDie s die).handler = true →
    ∃ t q, exec (.fidAssign die) s = .next t ∧ findFault t id = some q ∧ q.fid = some fid ∧ (getDie t die).fidWait = rest ∧
      (getDie t die).store = (getDie s die).store ++ [id] ∧ (getDie t die).nextFid = (fid + 1) % 65536) ∧
  (∀ s die id rest fid r, (getDie s die).fidWait = id :: rest → freeFid s die = some fid → findFault s id = some r → r.die = die → (getDie s die).handler = false →
    let u := giveFid (modDie s die fun d => { d with fidWait := rest }) id fid
    ∃ q, findFault u id = some q ∧ exec (.fidAssign die) s = .next (answerFid u q ⟨.kill, 0⟩)) ∧
  (∀ s die fid, freeFid s die = some fid → fid < 65536 ∧ fid ∉ openFids s die)

namespace Sys2Proof.Say

open Machine

/-- A queue whose port accepts a record (spec 06 R106). -/
structure QueueOpen (s : State) (fn q : Nat) : Prop where
  seen : pageSeen s fn q = true
  on : queueOn (getQueue s q) = true
  ctx : ctxOn s (queueCtx (getQueue s q)) = true
  idle : (getQueue s q).reset = 0
  room : (getQueue s q).recs.length < 256

/-- The queue of t is that of s with one more record. -/
def Accepted (s t : State) (q : Nat) (raw : List Byte) : Prop :=
  (getQueue t q).recs = (getQueue s q).recs ++ [{ raw := raw, seq := (getQueue s q).accept % 2 ^ 32, tacc := timestamp s }] ∧
  (getQueue t q).accept = (getQueue s q).accept + 1

/-- The node of a type that the drill executes now, with no value of a repair to take. -/
structure NodeTurn (s : State) (l n type : Nat) (x : NodeSt) : Prop where
  active : activeNode s l n type = some x
  plain : x.sub_ = none

end Sys2Proof.Say

/-! ### Launches, nodes and the host -/

/-- Spec 06 R104 to R108, R111, R116, R117: a launch port accepts a record with the queue's next sequence number, or latches an error; RESET drains or aborts, and is reported when the
queue is empty; the drill takes the oldest record of the queue it serves. -/
def Obligations.LaunchPorts : Prop :=
  (∀ s fn q rec, QueueOpen s fn q → ∃ t, exec (.launchLf3 fn q rec) s = .next t ∧ Accepted s t q (bytesOf 64 rec.toNat)) ∧
  (∀ s fn q rec, QueueOpen s fn q → ∃ t, exec (.launchLf2 fn q rec) s = .next t ∧ Accepted s t q (lf3OfLf2 (bytesOf 32 rec.toNat))) ∧
  (∀ s fn q rec, pageSeen s fn q = true → queueOn (getQueue s q) = false →
    ∃ t, exec (.launchLf3 fn q rec) s = .next t ∧ (getQueue t q).recs = (getQueue s q).recs ∧ (getQueue t q).qstat = (getQueue s q).qstat ||| 2#32) ∧
  (∀ s fn q rec, pageSeen s fn q = false → exec (.launchLf3 fn q rec) s = .next s) ∧
  (∀ s fn q, pageSeen s fn q = true → ∃ t, exec (.queueDrain fn q) s = .next t ∧
    (getQueue t q).reset = (if (getQueue s q).reset = 0 then 1 else (getQueue s q).reset) ∧ (getQueue t q).recs = (getQueue s q).recs) ∧
  (∀ s fn q, pageSeen s fn q = true → ∃ t, exec (.queueAbort fn q) s = .next t ∧ (getQueue t q).reset = 2 ∧ (getQueue t q).recs = (getQueue s q).recs) ∧
  (∀ s q r rest, (getQueue s q).recs = r :: rest → nextQueue s = some q → s.drill.launches.length < 1024 → recordFormed r.raw = true →
    ∃ t y, exec (.drillTakeRecord q) s = .next t ∧ (getQueue t q).recs = rest ∧ Tbl.find t.drill.launches s.sched.nextId = some y ∧
      y.raw = r.raw ∧ y.seq = r.seq ∧ y.queue = q ∧ y.ctx = queueCtx (getQueue s q) ∧ y.taken = now s) ∧
  (∀ s q, q < 64 → (∀ x ∈ s.parcels, x.2.settled = false) → s.drill.launches = [] → s.drill.killLaunch = [] → s.drill.killCtx = [] → s.drill.killNode = [] → (getQueue s q).reset ≠ 0 →
    (getQueue s q).recs = [] → (∀ p, p ≠ q → (getQueue s p).reset = 0) →
    ∃ t, exec .drillStep s = .next t ∧ (getQueue t q).reset = 0 ∧ (getQueue t q).qstat = (getQueue s q).qstat ||| 4#32)

/-- Spec 12 R207, 17 R311, 20 R345 to R348, R354: the host's accesses. QCFG, CTROOT and LOCK take what their rules say, a reserved bit being dropped
(log 10) and BRKEN cleared in every context (log 43), and a register of another function nothing; a write of device memory changes the bytes that it names
and no others; a read appends the bytes to the outputs (log 10) and changes none; an atomic is answered by
Unsupported Request, which appends no bytes. -/
def Obligations.HostAccesses : Prop :=
  (∀ s q v, q < 64 → ∃ t, exec (.registerWrite 0 (0x100000 + 0x1000 * q + 0x80) 4 v) s = .next t ∧
    (getQueue t q).qcfg = BitVec.ofNat 32 (v.toNat % 1024) ∧ t.mem = s.mem) ∧
  (∀ s n v, n < 64 → ctxOn s n = false → ∃ t, exec (.registerWrite 0 (0x10000 + 0x100 * n) 8 v) s = .next t ∧
    (getCtx t n).troot = BitVec.ofNat 64 v.toNat &&& 0x000FFFFFFFFF0000#64) ∧
  (∀ s n v, n < 64 → ctxOn s n = true → exec (.registerWrite 0 (0x10000 + 0x100 * n) 8 v) s = .next s) ∧
  (∀ s (v : BitVec 256), v.getLsbD 0 = true → ∃ t, exec (.registerWrite 0 0x400020 4 v) s = .next t ∧ t.reeve.lock = true ∧
    ∀ c ∈ t.ctxs, c.2.ccfg.getLsbD 7 = false) ∧
  (∀ s fn off w v, fn ≠ 0 → (off < 0x100000 ∨ 0x140000 ≤ off) → exec (.registerWrite fn off w v) s = .next s) ∧
  (∀ s off bs, Memory.wf s.mem = true → 0 < bs.length → off / 64 = (off + bs.length - 1) / 64 → off + bs.length ≤ 2 ^ 39 → sealedPa s off bs.length = false →
    (getDie s (hbmDie off)).wps = Vector.replicate 8 {} →
    ∃ t, exec (.hostMemoryWrite 0 off bs) s = .next t ∧
      ∀ a, readByte t.mem a = if off ≤ a ∧ a < off + bs.length then bs.getD (a - off) 0#8 else readByte s.mem a) ∧
  (∀ s off len, off + len ≤ 2 ^ 39 → s.reeve.lock = false → s.memPoison = [] →
    ∃ t, exec (.hostMemoryRead 0 off len) s = .next t ∧ t.mem = s.mem ∧
      t.outputs = s.outputs ++ [(List.range len).map fun i => readByte s.mem (off + i)]) ∧
  (∀ s fn off len, (fn ≠ 0 ∨ populated off len = false) → exec (.hostMemoryRead fn off len) s = .next { s with outputs := s.outputs ++ [[]] }) ∧
  (∀ s fn off, exec (.hostAtomicRequest fn off) s = .next { s with outputs := s.outputs ++ [[]] })

/-- Spec 01 R19, 03 R62, 06 R112, R113, R117: the nodes that the drill executes: a SIGNAL node writes and raises its vector, a BRANCH chooses its successors, a WAIT completes
where its word holds and else polls again, or times out, a SUBGRAPH starts its launch one level down, at most 8. A ready node outside the granary enters it, and gains a
priority for each millisecond; the dispatchable node of the highest p_node goes first, and of several the one that entered first; an engine node gives its command to its
engine. A launch whose time is over, after what has settled and completed is applied, ends. -/
def Obligations.NodeSteps : Prop :=
  (∀ s l n x, (sortKey byOrder ((nodesIn s .outside).filter fun y => y.1 == l)).head? = some (l, n, x) → granaryLoad s < 4096 → (getGNode s l n).isSome →
    ∃ t y, exec (.granaryEnter l n) s = .next t ∧ getGNode t l n = some y ∧ y.phase = .granary ∧ y.order = s.sched.nextId) ∧
  (∀ s l n x, getGNode s l n = some x → (x.phase = .outside ∨ x.phase = .granary) → x.since + 2700000 ≤ now s →
    ∃ t, exec (.nodeAgeing l n) s = .next t ∧
      getGNode t l n = some { x with prio := min (x.prio + 1) (ceiling s (getLaunch s l).ctx), since := x.since + 2700000 }) ∧
  (∀ s l n x, nextDispatch s = some (l, n, x) → dispatchable s (l, n, x) = true ∧
    ∀ y ∈ nodesIn s .granary, dispatchable s y = true → y.2.2.prio ≤ x.prio ∧ (y.2.2.prio = x.prio → x.order ≤ y.2.2.order)) ∧
  (∀ s l n x d g, nextDispatch s = some (l, n, x) → isEngineNode x = true → nodeEngine s x = some (d, g) →
    ∃ t c, exec (.engineNodeDispatch l n) s = .next t ∧ t.cmds = s.cmds ++ [c] ∧ c.i = nodeCommand x.raw ∧ c.eng = g ∧ c.node = some (l, n) ∧
      c.a = BitVec.ofNat 64 (fieldAt x.raw 0x10 8)) ∧
  (∀ s l n x s' h s'', NodeTurn s l n 4 x → lineHome s 0 (getLaunch s l).ctx true (fieldAt x.raw 0x10 8) 8 = (s', .ok h) →
    writePiece s' 0 (getLaunch s l).ctx (fieldAt x.raw 0x10 8) (bytesOf 8 (fieldAt x.raw 0x18 8)) (6 * 2 ^ 28) 512 0xFF = (s'', none) →
    exec (.signalNode l n) s = .next (arriveNode
      (if bitOf (fieldAt x.raw 0x20 2) 15 then raiseMsix s'' (getLaunch s l).ctx (bitsOf (fieldAt x.raw 0x20 2) 10 0) else s'') l n 0 0 0 0)) ∧
  (∀ s l n x s' v xs, NodeTurn s l n 8 x → nodeWord s l x = (s', .ok v) → branchSet s' (getLaunch s' l).ctx x.raw v = some xs →
    exec (.branchNode l n) s = .next (arriveNode (modGNode s' l n fun y => { y with chosen := xs }) l n 0 0 0 0)) ∧
  (∀ s l n x s' v, activeNode s l n 5 = some x → x.pollAt ≤ now s → nodeWord s l x = (s', .ok v) →
    exec (.waitPoll l n) s = .next (if waitHolds x.raw v then arriveNode s' l n 0 0 0 0
      else modGNode s' l n fun y => { y with pollAt := now s' + 2700, sub_ := none, depth := 0 })) ∧
  (∀ s l n x, activeNode s l n 5 = some x → waitExpired s x = true → exec (.waitTimeout l n) s = .next (arriveNode s l n 3 0 0 0)) ∧
  (∀ s l n x, activeNode s l n 9 = some x → x.nested = none → (getLaunch s l).ends = .no → 8 ≤ (getLaunch s l).level →
    exec (.subgraphStart l n) s = .next (arriveNode s l n 5 0 0 0)) ∧
  (∀ s l n x, activeNode s l n 9 = some x → x.nested = none → (getLaunch s l).ends = .no → (getLaunch s l).level < 8 → s.drill.launches.length < 1024 →
    ∃ t z, exec (.subgraphStart l n) s = .next t ∧ Tbl.find t.drill.launches s.sched.nextId = some z ∧ z.parent = some (l, n) ∧
      z.level = (getLaunch s l).level + 1 ∧ z.ctx = (getLaunch s l).ctx) ∧
  (∀ s l y, getLaunch s l = y → y.parent = none → fieldAt y.raw 0x30 4 ≠ 0 → y.taken + cyclesOfNs (1000 * fieldAt y.raw 0x30 4) ≤ now s → y.ends = .no →
    let u := settleDrill drillRounds ((s.parcels.map (·.1)).foldl retireStep s)
    Tbl.find u.drill.launches l ≠ none →
    exec (.launchTimeout l) s = .next (settleDrill drillRounds (endLaunch 10 .timeout
      (modLaunch u l fun z => { z with elapsed := (now u - y.taken) * 10 / 27000 }) l)))

/-- Spec 05 R97 to R102, 07 R121: the node that is first in order is placed, reserved or failed as the drill decides; a function's node takes its image from the code
heap, from a translation of its key in progress, from the silo, or starts a translation; a translation that fails completes its node with TRANSLATION_FAILED and one that
ends gives it its image; an image that the code heap has no room for completes the node with CODE_HEAP_FULL; and PURGE empties the silo. -/
def Obligations.PlacementAndTranslation : Prop :=
  (∀ s l n x x0 y0, nextDispatch s = some (l, n, x) → isSection x = true → decision s l n x = .place x0 y0 →
    exec (.placeSection l n) s = .next (placeAt s l n x x0 y0)) ∧
  (∀ s l n x st, nextDispatch s = some (l, n, x) → isSection x = true → decision s l n x = .fail st → x.parcel = none →
    exec (.placeSection l n) s = .next (arriveNode s l n st 0 0 0)) ∧
  (∀ s l n x x0 y0, nextDispatch s = some (l, n, x) → isSection x = true → decision s l n x = .reserve x0 y0 →
    exec (.placeSection l n) s = .next (modGNode (clearReserved s l n (rectPlots x0 y0 (shapeW (nodeShape x)) (shapeH (nodeShape x)))) l n
      fun y => { y with reserved := some (x0, y0) })) ∧
  (∀ s l n x e, nextLookup s = some (l, n, x) → lookupNode s l x = .heap e →
    exec (.jerixLookup l n) s = .next (modGNode s l n fun y => { y with image := some (e.addr + 64) })) ∧
  (∀ s l n x id, nextLookup s = some (l, n, x) → lookupNode s l x = .joins id →
    exec (.jerixLookup l n) s = .next (modGNode s l n fun y => { y with xlate := some id })) ∧
  (∀ s l n x k e, nextLookup s = some (l, n, x) → lookupNode s l x = .silo k e →
    let c := commit (siloHit (bringKernel s (getLaunch s l).ctx false k) e) e.key e.image e.tokens
    exec (.jerixLookup l n) s = .next (match c.2 with
      | some a => modGNode c.1 l n fun y => { y with image := some a }
      | none => failLookup c.1 l n 6 0 0)) ∧
  (∀ s l n x k key, nextLookup s = some (l, n, x) → lookupNode s l x = .starts k key →
    ∃ t y, exec (.jerixLookup l n) s = .next t ∧ t.drill.xlates = s.drill.xlates ++ [y] ∧ y.key = key ∧ y.fun_ = fieldAt x.raw 0x10 8 ∧ y.shape = nodeShape x) ∧
  (∀ s t, s.drill.xlates.find? (fun u => u.id == t.id) = some t →
    let s' := modDrill s fun d => { d with xlates := d.xlates.filter fun u => u.id != t.id }
    ∀ sub detail actor, runTranslation t = .error (.fail sub detail actor) → ∀ l n x, xlateNodes s t.id = [(l, n, x)] → (getGNode s' l n).bind (·.parcel) = none →
      exec (.translationComplete t.id) s = .next (arriveNode s' l n 7 sub (BitVec.ofNat 64 (detail * 65536 + actor)) 0)) ∧
  (∀ s t r l n x, s.drill.xlates.find? (fun u => u.id == t.id) = some t → runTranslation t = .ok r → xlateNodes s t.id = [(l, n, x)] →
    let c := commit (siloInsert (s.drill.silo.length + 1) (modDrill s fun d => { d with xlates := d.xlates.filter fun u => u.id != t.id }) t.key r.bytes r.tokens)
      t.key r.bytes r.tokens
    exec (.translationComplete t.id) s = .next (match c.2 with
      | some a => modGNode c.1 l n fun y => { y with xlate := none, image := some a }
      | none => failLookup c.1 l n 6 0 0)) ∧
  (∀ s, ∃ t, exec .siloPurge s = .next t ∧ t.drill.silo = [] ∧ t.drill.heap = s.drill.heap ∧ t.drill.purging = false)

namespace Sys2Proof.Say

open Machine

/-- A section that a reservation wants, and that PREEMPT_SECTION may freeze (spec 18 R323). -/
structure Wanted (s : State) (k : Nat) (p : Parcel) : Prop where
  found : Tbl.find s.parcels k = some p
  placed : p.stage = .placed ∧ p.settled = false ∧ p.ending = none
  asked : wanted s p = true

/-- A plot of a parcel whose configuration goes on: its parcel's number, the parcel, and its index there. -/
def Configures (s : State) (plot k i : Nat) (p : Parcel) : Prop := configuring s plot = some (k, p, i)

end Sys2Proof.Say

/-! ### Sections -/

/-- Spec 07 R122, 18 R321 to R324: a wanted section takes a save slot and begins to freeze; a parcel that has stopped is frozen and answers 0 to each `frz` that
waits; the area of a section that is frozen for pre-emption is written and its plots are freed, what the manual gives no layout for being kept beside memory (log 20); a section placed again has its state restored. -/
def Obligations.FreezeAndSave : Prop :=
  (∀ s k p n, Wanted s k p → freeSaveSlot (getCtx s p.ctx) = some n → p.frz = .run →
    ∃ t q, exec (.preemptSection k) s = .next t ∧ Tbl.find t.parcels k = some q ∧ q.frz = .stopping true ∧ q.stage = .freezing ∧ q.saveSlot = some n ∧
      (getCtx t p.ctx).saveUsed = (getCtx s p.ctx).saveUsed ++ [n]) ∧
  (∀ s k p, Wanted s k p → freeSaveSlot (getCtx s p.ctx) = none → exec (.preemptSection k) s = .next s) ∧
  (∀ s k p d, Tbl.find s.parcels k = some p → p.frz = .stopping d → p.ending = none → parcelStopped s k = true →
    ∃ t q, exec (.parcelFrozen k) s = .next t ∧ Tbl.find t.parcels k = some q ∧ q = { p with frz := .frozen d, frzAcks := [] } ∧
      ∀ rid ∈ p.frzAcks, rid ≠ 0 → ∃ y ∈ t.results, y.rid = rid ∧ y.tok = { tag := .data, val := 0#512 }) ∧
  (∀ s k p d n, Tbl.find s.parcels k = some p → p.stage = .freezing → p.frz = .frozen d → p.saveSlot = some n →
    exec (.saveAreaWritten k) s = .next (reenter (modParcel (freePlots (dropWork (writeArea s k (saveBase (getCtx s p.ctx) n) k) k) p) k
      fun q => { q with stage := .saved }) k)) ∧
  (∀ s k base owner, ∃ v, (writeArea s k base owner).saved = (s.saved.filter fun x => x.base != base) ++ [v] ∧ v.base = base ∧ v.owner = owner ∧
    v.parcel = getParcel s k) ∧
  (∀ s k p v, Tbl.find s.parcels k = some p → s.saved.find? (fun v => v.owner == k) = some v → p.stage = .resuming → p.saveSlot = none →
    ((parcelPlots p).all fun n => (getPlot s n).empty || (pinnedBlock (getPlot s n)).isSome) = true →
    let m : Move := ⟨v.x0, v.y0, p.x0, p.y0, v.w, v.h, retired s⟩
    let u := restoreArea s k v
    exec (.resumeSection k) s = .next (applyWatchdog (learnRest (modParcel { u with saved := u.saved.filter fun x => x.owner != k } k fun p =>
      { m.parcel p with stage := .placed, saveSlot := none, frz := if p.frz = .frozen true then .run else p.frz }) k) k))

/-- Spec 07 R123 to R127, 03 R58: a plot takes a c-slot, BLEN is read, and packets enter it, the last of which signs it; a plot whose c-slot is signed loads its block, and
one with no patches starts; a broken block ends the section; a region that holds an error freezes, and thaws when its bytes, fetched again, have the signature.
Spec 01 R21, R22, 18 R320, R329, 20 R339: a scan reads and clears the activity bits, and the second in a row that finds the section settled declares it; a settled
section whose accesses are performed takes its last sample, completes its node, as KILLED or TIMEOUT where a fault or a time-out says so, and is freed; a killed one is freed when its work is over; the watchdog freezes and reports. -/
def Obligations.SectionSteps : Prop :=
  (∀ s plot n k i p, Configures s plot k i p → (getPlot s plot).cslot = none →
    exec (.configPacket plot n) s = .next (modPlot s plot (takeCslot (tagOfParcel p) i (now s)))) ∧
  (∀ s plot n k i p slot bs, Configures s plot k i p → (getPlot s plot).cslot = some slot →
    let c := cslotAt (getPlot s plot) slot
    c.st = .filling → agentTurn s p plot i = true → c.blen = 0 → configBytes s p (getPlot s plot) (p.desc + plotOff p i) 64 = .ok bs →
    64 ≤ fieldAt bs 0 4 → fieldAt bs 0 4 ≤ 16384 → blockWithin p i (fieldAt bs 0 4) = true →
    exec (.configPacket plot n) s = .next (modPlot s plot fun q => setCslot (progressed q) slot (beginFill c (fieldAt bs 0 4)))) ∧
  (∀ s plot n k i p slot bs, Configures s plot k i p → (getPlot s plot).cslot = some slot →
    let c := cslotAt (getPlot s plot) slot
    c.st = .filling → agentTurn s p plot i = true → c.blen ≠ 0 → n ∈ c.todo → (putPacket c n bs).todo ≠ [] →
    configBytes s p (getPlot s plot) (p.desc + plotOff p i + 512 * n) (min 512 (c.blen - 512 * n)) = .ok bs →
    exec (.configPacket plot n) s = .next (modPlot s plot fun q => setCslot (progressed q) slot (putPacket c n bs))) ∧
  (∀ s plot n k i p slot bs, Configures s plot k i p → (getPlot s plot).cslot = some slot →
    let c := cslotAt (getPlot s plot) slot
    let d := { putPacket c n bs with st := .pinned, sig := (crc64 (putPacket c n bs).block).toNat }
    c.st = .filling → agentTurn s p plot i = true → c.blen ≠ 0 → n ∈ c.todo → (putPacket c n bs).todo = [] → (getPlot s plot).restore = false →
    configBytes s p (getPlot s plot) (p.desc + plotOff p i + 512 * n) (min 512 (c.blen - 512 * n)) = .ok bs →
    exec (.configPacket plot n) s = .next (learnBlock (modPlot s plot fun q => setCslot (progressed q) slot d) k plot d.block)) ∧
  (∀ s plot k i p bs, Configures s plot k i p → pinnedBlock (getPlot s plot) = some bs → (getPlot s plot).restore = false → (getPlot s plot).loaded = true →
    plotPatches p i = [] → exec (.plotStart plot) s = .next (startPlot s k plot)) ∧
  (∀ s plot k i p bs c u, Configures s plot k i p → pinnedBlock (getPlot s plot) = some bs → (getPlot s plot).restore = false → (getPlot s plot).loaded = false →
    decodePlot p i bs = .ok c → kernelGood s p.ctx p.phys (parcelKernel p) = true → plotBreak s p i bs = none → inputClashes p i = [] → straysInto p i = [] →
    loadPlot s p plot c = some u → plotPatches p i = [] → (getPlot u plot).held = false →
    exec (.plotStart plot) s = .next (startPlot (bringKernel u p.ctx p.phys (parcelKernel p)) k plot)) ∧
  (∀ s plot k i p bs b, Configures s plot k i p → pinnedBlock (getPlot s plot) = some bs → (getPlot s plot).restore = false → (getPlot s plot).loaded = false →
    decodePlot p i bs = .error b → exec (.plotStart plot) s = .next (blockSection s k i b)) ∧
  (∀ s k plot, (getPlot (startPlot s k plot) plot).started = true) ∧
  (∀ s l, (getElem s l).present = true → ∃ t, exec (.configRegionError (.elemConfig l)) s = .next t ∧ getElem t l = { getElem s l with cfgFrozen := true }) ∧
  (∀ s plot, ∃ t, exec (.configRegionError (.plotConfig plot)) s = .next t ∧ getPlot t plot = { getPlot s plot with cfgFrozen := true }) ∧
  (∀ s l, (getElem s l).present = true → (getElem s l).cfgFrozen = true → reloadOk s l.plot (some l.site) = true →
    exec (.configReloadDone (.elemConfig l)) s = .next (reloadRegion s l.plot (some l.site))) ∧
  (∀ s plot, (getPlot s plot).cfgFrozen = true → reloadOk s plot none = true → exec (.configReloadDone (.plotConfig plot)) s = .next (reloadRegion s plot none)) ∧
  (∀ s plot, (getPlot (reloadRegion s plot none) plot).cfgFrozen = false) ∧
  (∀ s (l : Loc), (getElem (reloadRegion s l.plot (some l.site)) l).cfgFrozen = false) ∧
  (∀ s k p, Tbl.find s.parcels k = some p → parcelRuns p = true → p.settled = false → s.reeve.railsOff = false →
    let ok := settledNow s k && (parcelPlots p).all fun n => !(getPlot s n).active
    ∃ t q, exec (.settleScan k) s = .next t ∧ Tbl.find t.parcels k = some q ∧ q.armed = ok ∧ q.settled = (ok && p.armed) ∧
      ∀ n ∈ parcelPlots p, (getPlot t n).active = false) ∧
  (∀ s k p, Tbl.find s.parcels k = some p → parcelRuns p = false ∨ s.reeve.railsOff = true → exec (.settleScan k) s = .next s) ∧
  (∀ s k p, Tbl.find s.parcels k = some p → p.settled = true → parcelReqs s k = [] → p.anyKill = none → p.timedOut = none →
    let u := sampleFlags s k
    exec (.sectionRetire k) s = .next (leaveParcel (completeNode u k 0 0 0 (getParcel u k).flagWord) k)) ∧
  (∀ s k p w, Tbl.find s.parcels k = some p → p.settled = true → parcelReqs s k = [] → p.anyKill = none → p.timedOut = some w →
    let u := sampleFlags s k
    exec (.sectionRetire k) s = .next (leaveParcel (completeNode u k 3 0 w (getParcel u k).flagWord) k)) ∧
  (∀ s k p x, Tbl.find s.parcels k = some p → p.settled = true → parcelReqs s k = [] → p.anyKill = some x →
    let u := sampleFlags s k
    exec (.sectionRetire k) s = .next (leaveParcel (completeNode u k 4 0 (killInfo x) (getParcel u k).flagWord) k)) ∧
  (∀ s k, ∀ n ∈ parcelPlots (getParcel s k), (getPlot (freeParcel s k) n).parcel = none ∧ (getPlot (freeParcel s k) n).started = false ∧
    (getPlot (leaveParcel s k) n).parcel = none ∧ (getPlot (leaveParcel s k) n).started = false) ∧
  (∀ s k p e, Tbl.find s.parcels k = some p → p.ending = some e →
    let u := endWaves (discardFaults (dropFreeze s k) k) k
    parcelReqs u k = [] → (∀ c ∈ u.cmds, c.parcel ≠ some k) →
    exec (.killParcelFree k) s = .next (freeParcel (completeNode
      { u with lines := u.lines.filter fun x => (getPlot u x.from_.plot).parcel != some k && (getPlot u x.plot).parcel != some k
               saved := u.saved.filter fun x => x.owner != k } k e.status e.sub
      (if e.status = 4 then (p.anyKill.map killInfo).getD e.info else e.info) p.flagWord) k)) ∧
  (∀ s k p, Tbl.find s.parcels k = some p → wdogDue p = true →
    exec (.sectionWatchdog k) s = .next (raiseFault (modParcel s k fun p => { p with frz := .stopping false, wdogOn := false })
      { cls := .watchdog, plot := plotAt p.x0 p.y0, flags := 32, info0 := BitVec.ofNat 64 (p.wdogRan * 10 / 27000), what := some (.parcel k) })) ∧
  (∀ s k p, Tbl.find s.parcels k = some p → wdogDue p = false → exec (.sectionWatchdog k) s = .next s)

/-! ### Errors, links, power, trace, firmware and attestation -/

/-- Spec 07 R127, 19 R330 to R334, R337, R338, 20 R352: errors, scrubbing, sparing and links. A correctable error is counted; an uncorrectable one poisons a line of memory,
and of HBM is reported when it occurs (log 32), of the commons where the line is dirty only (log 9), stops an element whose live state is lost, makes a valid c-slot INVALID, and drops a cached record; a scrub changes nothing where nothing is poisoned, and reports a
poisoned line of a plot store whose bank has nothing to do; a spare lane or channel comes into use and repair changes no value; a port that is down raises LINK and ends the commands that use it
with FAULT_CONTAINED (log 14);
and the trace freezes after its last record. -/
def Obligations.ErrorsAndRepair : Prop :=
  (∀ s p, exec (.memoryError p true) s = .next (modDie s (errDie p) fun d => { d with corrected := d.corrected + 1 })) ∧
  (∀ s pa, pa < 2 ^ 39 → exec (.memoryError (.commons pa true) false) s = .next { s with memPoison := poisonLine s.memPoison pa }) ∧
  (∀ s pa, exec (.memoryError (.commons pa false) false) s = .next s) ∧
  (∀ s pa, pa < 2 ^ 39 → exec (.memoryError (.hbm pa) false) s = .next (raiseFault { s with memPoison := poisonLine s.memPoison pa }
    { cls := .memerr, sub := 1, plot := 512 + hbmDie pa, addr := pa / 64 * 64, report := true, die := some (hbmDie pa) })) ∧
  (∀ s l, (getElem s l).present = true → (getElem s l).dead = false → exec (.memoryError (.live l) false) s =
    .next (raiseFault (modElem s l fun e => { e with dead := true })
      { cls := .memerr, sub := 4, plot := l.plot, site := l.site, what := some (.element l) })) ∧
  (∀ s plot k, (cslotAt (getPlot s plot) k).st = .valid → exec (.memoryError (.cslot plot k) false) s = .next (modPlot s plot fun q => setCslot q k {})) ∧
  (∀ s die n, ∃ t, exec (.memoryError (.nodeCache die n) false) s = .next t ∧ (getDie t die).nodeCache = (getDie s die).nodeCache.take n ++ (getDie s die).nodeCache.drop (n + 1)) ∧
  (∀ s p, s.memPoison = [] → (∀ plot, (getPlot s plot).poison = []) → exec (.scrubRead p) s = .next s) ∧
  (∀ s plot line, poisoned (getPlot s plot).poison line 1 = true → bankLines s plot (bankOf (getPlot s plot).hash line) = [] → exec (.scrubRead (.plotStore plot line)) s =
    .next (raiseFault s { cls := .memerr, sub := 0, plot := plot, addr := line / 64 * 64, report := true, die := some (dieOf plot) })) ∧
  (∀ s stack pa, Tbl.findD s.reeve.spares stack.val 0 < 2 → ∃ t, exec (.hbmChannelSpare stack pa) s = .next t ∧ t.mem = s.mem ∧
    Tbl.findD t.reeve.spares stack.val 0 = Tbl.findD s.reeve.spares stack.val 0 + 1) ∧
  (∀ s stack pa, 2 ≤ Tbl.findD s.reeve.spares stack.val 0 → exec (.hbmChannelSpare stack pa) s = .next s) ∧
  (∀ s pa, ∃ t, exec (.postPackageRepair pa) s = .next t ∧ t.mem = s.mem ∧ t.memPoison = s.memPoison ∧ t.reeve.repairs = s.reeve.repairs ++ [pa]) ∧
  (∀ s n p, s.reeve.ports[n.val]? = some p → ∃ t, exec (.dvlLaneFail n) s = .next t ∧
    t.reeve.ports[n.val]? = some (if p.failed = 0 then { p with failed := 1, spare := true } else { p with failed := p.failed + 1, lanes := min p.lanes 1 })) ∧
  (∀ s n, let u := raiseFault (modPort s n fun p => { p with up := false, lanes := 0 }) { cls := .link, sub := 0, plot := 512, report := true, die := some 0 }
    exec (.linkDown (some n)) s = .next ((u.cmds.filter (cutOff u)).foldl cutCmd u)) ∧
  (∀ s, let u := raiseFault { s with reeve := { s.reeve with pcieUp := false } } { cls := .link, sub := 1, plot := 512, report := true, die := some 0 }
    exec (.linkDown none) s = .next ((u.cmds.filter (cutOff u)).foldl cutCmd u)) ∧
  (∀ s plot, (getPlot s plot).trace.post = some 0 → ∃ t, exec (.tracePostCount plot) s = .next t ∧ (getPlot t plot).trace.post = none ∧
    (getPlot t plot).trace.ctl = (getPlot s plot).trace.ctl ||| 0x20#64 ∧ (getPlot t plot).trace.buf = (getPlot s plot).trace.buf)

/-- Spec 05 R99, 18 R319, 19 R335, 20 R353 to R357: power and temperature hold plots from firing, a trip turns the rails and the queues off, a headland's load gives its die a handler, a
firmware update is staged or refused, firmware switches when all of its components have (the model counts them down: log 10), each report takes an index of its own up to 2^40, and power up restores the reset state,
with memory empty, but for what outlives it (what does is the model's reading: logs 8 and 29). -/
def Obligations.PowerFirmwareAttestation : Prop :=
  (∀ s mw temp, ∃ t, exec (.powerThrottle mw temp) s = .next t ∧ t.reeve.power = mw % 2 ^ 128 ∧ t.reeve.temp = temp % 65536 ∧
    t.reeve.holding = (decide (1000 * (if s.reeve.pcap = 0 then 3600 else s.reeve.pcap.toNat) < packagePower mw) || decide (1680 < temp)) ∧ t.mem = s.mem) ∧
  (∀ s temp, 1840 ≤ temp → ∃ t, exec (.thermalTrip temp) s = .next t ∧ t.reeve.tripped = true ∧ t.reeve.railsOff = true ∧ t.mem = s.mem ∧
    t.msix = s.msix ++ [(0, 0, now s)] ∧ ∀ q ∈ t.drill.queues, queueOn q.2 = false) ∧
  (∀ s temp, temp < 1840 → exec (.thermalTrip temp) s = .next s) ∧
  (∀ s die routes, die < 4 → dieExists die = true → ∃ t, exec (.headlandConfigurationLoad die [] routes) s = .next t ∧ (getDie t die).handler = true ∧
    (getPlot t (512 + die)).started = true ∧ t.reeve.mlog.length = s.reeve.mlog.length + 1) ∧
  (∀ s die elems routes, 4 ≤ die ∨ dieExists die = false → exec (.headlandConfigurationLoad die elems routes) s = .next s) ∧
  (∀ s, s.reeve.fwstat ≠ 1 → ∃ t, exec .firmwareUpdate s = .next t ∧
    ((t.reeve.fwstat = 1 ∧ t.reeve.staged = true ∧ t.reeve.bank = s.reeve.bank) ∨
     (t.reeve.fwstat = 3 ∧ t.reeve.staged = s.reeve.staged ∧ t.reeve.bank = s.reeve.bank))) ∧
  (∀ s, s.reeve.staged = true → s.reeve.toSwitch ≤ 1 → ∃ t, exec .firmwareSwitch s = .next t ∧ t.reeve.bank = 1 - s.reeve.bank % 2 ∧ t.reeve.fwstat = 2 ∧
    t.reeve.staged = false ∧ t.reeve.mlog.length = s.reeve.mlog.length + 1) ∧
  (∀ s, s.reeve.staged = true → 1 < s.reeve.toSwitch → ∃ t, exec .firmwareSwitch s = .next t ∧ t.reeve.bank = s.reeve.bank ∧
    t.reeve.toSwitch = s.reeve.toSwitch - 1) ∧
  (∀ s, s.reeve.atindex < 2 ^ 40 → ∃ t, exec .attestationRequest s = .next t ∧ t.reeve.atindex = s.reeve.atindex + 1 ∧ t.reeve.atstat = 2) ∧
  (∀ s, 2 ^ 40 ≤ s.reeve.atindex → ∃ t, exec .attestationRequest s = .next t ∧ t.reeve.atstat = 3 ∧ t.reeve.atindex = s.reeve.atindex ∧ t.mem = s.mem) ∧
  (∀ s, ∃ t, exec .powerUp s = .next t ∧ t.mem = [] ∧ t.elems = [] ∧ t.parcels = [] ∧ t.dies = [] ∧ t.ctxs = [] ∧
    t.sched = { State.reset.sched with freeCtr := s.sched.freeCtr + 1 } ∧
    t.drill.silo = (s.drill.silo.filter fun e => e.good).map (olderEntry s) ∧ t.reeve.bank = s.reeve.bank ∧ t.reeve.atindex = s.reeve.atindex)

namespace Sys2Proof.Say

open Machine

/-- The opcodes that no instruction of a kind decodes (spec 04 R74 to R80). -/
def reservedOp (k : Kind) (hl : Bool) (op : Nat) : Prop :=
  (0x1B ≤ op ∧ op ≤ 0x1F) ∨
  match k with
  | .ce => (0x4B ≤ op ∧ op ≤ 0x4F) ∨ op = 0x67 ∨ (0x70 ≤ op ∧ hl = false)
  | .fe => (0x44 ≤ op ∧ op ≤ 0x4F) ∨ (0x67 ≤ op ∧ op ≤ 0x6F) ∨ 0x7B ≤ op
  | .se => 0x2E ≤ op
  | .le => (0x27 ≤ op ∧ op ≤ 0x67) ∨ 0x70 ≤ op
  | .xe => 0x2E ≤ op
  | .me => 0x28 ≤ op

/-- The trigger words that spec 04 R63 and R64 make illegal. -/
def badTrigger (k : Kind) (t : BitVec 32) : Prop :=
  t.getLsbD 30 = true ∨ 4 < (t.extractLsb' 25 3).toNat ∨ (t.getLsbD 20 = true ∧ t.extractLsb' 21 4 = 0#4) ∨
  (t.getLsbD 20 = false ∧ t.extractLsb' 16 4 ≠ 0#4) ∨ t.extractLsb' 0 8 &&& ~~~(t.extractLsb' 8 8) ≠ 0#8 ∨
  ((k = .se ∨ k = .le ∨ k = .me) ∧ 2 < (t.extractLsb' 25 3).toNat ∧ (t.getLsbD 23 = true ∨ t.getLsbD 24 = true))

/-- The instructions whose only effects are those of a beat: result, flags, predicate, tokens. -/
def plainAction : Instr → Bool
  | .nop _ | .mov _ | .movi _ | .drop _ | .sel _ _ | .route _ | .pand _ _ _ | .por _ _ _ | .pxor _ _ _ | .pandn _ _ _
  | .cntAdd _ | .cntSet _ | .flgRd _ | .tmrRd _ _ | .specRd _ _ _
  | .add _ _ | .sub _ _ | .addi _ | .mul _ _ | .mulh _ _ | .mad _ _ | .div _ _ | .rem _ _ | .neg _ _ | .abs _ _ | .min _ _ | .max _ _
  | .and _ _ | .or _ _ | .xor _ _ | .andn _ _ | .not _ _ | .shl _ _ | .shr _ _ | .sar _ _ | .rot _ _ | .shli _ | .clz _ _ | .ctz _ _
  | .popc _ _ | .bfe _ _ | .bfi _ _ | .ext _ _ | .lea _ _ | .cmp _ _ | .ccmp _ _ | .iota _ _ | .pack _ _ | .unpk _ _ | .shuf _ _
  | .bcast _ _ | .vred _ _ | .vscn _ _ | .filt _ _ | .xpnd _ _ | .hash _ _
  | .fadd _ _ | .fsub _ _ | .fmul _ _ | .ffma _ _ | .fmin _ _ | .fmax _ _ | .fabs _ _ | .fneg _ _ | .fclt _ _ | .fcle _ _ | .fceq _ _
  | .fcun _ _ | .fcvt _ _ | .f2i _ _ _ _ | .i2f _ _ _ | .frnd _ _ _ | .fscl _ _ | .fcls _ _ | .fdot _ _ | .q4dq _ _ | .q4q _ _
  | .frcp _ _ | .frsq _ _ | .fsqrt _ _ | .fex2 _ _ | .flg2 _ _ | .fsin _ _ | .fcos _ _ | .ftnh _ _ | .fsgm _ _ | .fslu _ _ | .fdiv _ _ => true
  | _ => false

/-- A beat of `fcvt` whose descriptor asks for stochastic rounding, which takes its random words from c1 (spec 02 R35, 10 R170). -/
def Stochastic (i : Instr) (s : State) : Prop :=
  ∃ r fcs x d, i = .fcvt r fcs ∧ beatIn (shapeR3 r) s = some x ∧ cvtDesc x.b.toWord = some d ∧ d.rnd = 4

/-- The state with its agenda's first turn taken. -/
def turnTaken (s : State) (ts : List Turn) : State := { s with sched := { s.sched with agenda := ts } }

/-- What a beat leaves unchanged in an element other than its own: everything but its queues and channels, and the list of its results that were dequeued in this
cycle, whose joins fall at its end. -/
def KeepsOther (e e' : Elem) : Prop := { e' with ins := e.ins, outs := e.outs, joined := e.joined } = e

/-- The machine outside its elements and plots. -/
def KeepsRest (s t : State) : Prop :=
  t.mem = s.mem ∧ t.memPoison = s.memPoison ∧ t.reqs = s.reqs ∧ t.results = s.results ∧ t.faults = s.faults ∧ t.dies = s.dies ∧
  t.ctxs = s.ctxs ∧ t.les = s.les ∧ t.ses = s.ses ∧ t.mes = s.mes ∧ t.lines = s.lines ∧ t.cmds = s.cmds ∧ t.drill = s.drill ∧ t.reeve = s.reeve

/-- A plot but for its trace unit and its activity bit. -/
def KeepsPlot (p q : Plot) : Prop := { q with trace := p.trace, active := p.active } = p

/-- The CLASS numbers of spec 18 R313. -/
def classNumber : FaultClass → Nat
  | .translate => 1
  | .sealed => 2
  | .align => 3
  | .format => 4
  | .operand => 5
  | .overrun => 6
  | .timeout => 7
  | .arith => 8
  | .memerr => 9
  | .link => 10
  | .watchdog => 11
  | .trap => 12
  | .brk => 13

/-- The token that a beat enqueues. -/
def tokenOf (sp : FireSpec) (o : BeatOut) : Token := o.tok.getD (resultToken sp.otag o.v)

end Sys2Proof.Say

/-! ### Words -/

/-- Words written out from the encodings of spec 04 R63 to R80, and what they decode to: the encoded statement of 04, and one word of
each kind's own opcodes. -/
def Obligations.DecodeSanity : Prop :=
  decodeSlot .ce false 0#4 0xA2B90A02A53152D4#64 = .ok (some
    ⟨⟨2, .w2, 5#4, some ⟨true, .last⟩, 0x0A#8, 0x02#8⟩, .fmul ⟨.ch 1, .ch 0, .ch 2, .mark, .result 3, false⟩ ⟨.bf16, ⟨true, false, false⟩⟩⟩) ∧
  decodeAction .ce false 0x17B3FFEC#32 = .ok (.cntAdd ⟨.c0, .ch 1, 0xFFF#12, .result 4⟩) ∧
  decodeAction .ce false 0x7A70A28E#32 = .ok (.cmp ⟨.d 3, .ch 0, .d 5, .data, .result 2, false⟩ ⟨.w32, true, .lt⟩) ∧
  decodeAction .fe false 0xBA318008#32 = .ok (.f2i ⟨.d 1, .ch 0, .zero, .data, .none, false⟩ true true ⟨.f32, ⟨false, false, false⟩⟩) ∧
  decodeAction .ce false 0xD5113B48#32 = .ok (.amo ⟨.ch 0, .ch 0, .ch 1, .b8, .ordered, .device⟩ .fadd ⟨false, false, false⟩) ∧
  decodeAction .se false 0x47512000#32 = .ok (.tileRd ⟨.ch 2, .ch 0, .ch 1, .data, .none, false⟩) ∧
  decodeAction .xe false 0x57112002#32 = .ok (.drillPush ⟨.ch 0, .ch 0, .ch 1, .plot⟩ 2) ∧
  decodeAction .me false 0x40B57540#32 = .ok (.mma ⟨.outer, 1, .ch 2, .ch 3, .i0, .result 2, false, ⟨false, false, false⟩⟩) ∧
  decodeAction .ce true 0xE1198000#32 = .ok (.fltRd (.ch 0) .none)

/-- Spec 04 R63 to R81: the action word of every legal action of every kind decodes to that action, with every operand. -/
def Obligations.ActionsDecodeAsEncoded : Prop :=
  ∀ k hl i, i.wf k hl = true → ∃ w, encodeAction i = some w ∧ decodeAction k hl w = .ok i

/-- Spec 04 R66 to R81: a word that decodes is the encoding of the action that it decodes to, which is legal, so that no two words have one
meaning and no bit of a word is dropped. -/
def Obligations.ActionWordsAreCanonical : Prop :=
  ∀ k hl w i, decodeAction k hl w = .ok i → i.wf k hl = true ∧ encodeAction i = some w

/-- Spec 04 R63, R64, R81: slots, the trigger word with the action word, both ways; the one word of an invalid slot is 0. -/
def Obligations.SlotsDecodeAsEncoded : Prop :=
  (∀ k hl fan x, x.wf k hl fan = true → ∃ w, encodeSlot x = some w ∧ decodeSlot k hl fan w = .ok (some x)) ∧
  (∀ k hl fan w x, decodeSlot k hl fan w = .ok (some x) → x.wf k hl fan = true ∧ encodeSlot x = some w) ∧
  (∀ k hl fan w, decodeSlot k hl fan w = .ok none ↔ w = 0#64)

/-- Spec 04 R63, R64, R74 to R81: reserved opcodes, illegal trigger words, an invalid slot that is not 0, and a slot beyond its generation's
count are refused. -/
def Obligations.IllegalWords : Prop :=
  (∀ k hl w, reservedOp k hl (w.extractLsb' 25 7).toNat → decodeAction k hl w = .error .reservedOpcode) ∧
  (∀ k hl fan w, w.getLsbD 63 = true → badTrigger k (w.extractLsb' 32 32) → ∃ e, decodeSlot k hl fan w = .error e) ∧
  (∀ k hl fan w, w.getLsbD 63 = false → w ≠ 0#64 → decodeSlot k hl fan w = .error .invalidSlotNotZero) ∧
  (∀ g k hl fan n w, g.slots ≤ n → w ≠ 0#64 → decodeSlotGen g k hl fan n w = .error .slotBeyondGeneration)

/-! ### Steps -/

/-- Spec 08 R134 to R136: an element's turn runs the action that the slot word of the picked slot decodes to, from its first beat, and the
picker's pointer moves; a firing in progress goes on. The rest of a step is the model's own schedule (log 2): moves from outside come first, then the agenda,
then the tick of the clock. -/
def Obligations.StepRunsDecoded : Prop :=
  (∀ (s : State) (l : Loc) (ts : List Turn) (n : Fin 16) (x : Slot), s.sched.moves = [] → s.sched.agenda = .elem l :: ts → hasRedo (turnTaken s ts) l = false →
    pickSlot specOf (turnTaken s ts) l = some (n, x) →
    decodeSlot (getElem s l).kind (isHeadland l.plot) (getElem s l).fan (getElem s l).slots[n] = .ok (some x) ∧
    Machine.step s = mapOut (fun t => modElem t l (movePtr n x.trig.pc)) (exec x.act (startFiring (turnTaken s ts) l n x))) ∧
  (∀ s l ts, s.sched.moves = [] → s.sched.agenda = .elem l :: ts → hasRedo (turnTaken s ts) l = true →
    Machine.step s = exec (.firingBeat l) (turnTaken s ts)) ∧
  (∀ s l ts, s.sched.moves = [] → s.sched.agenda = .elem l :: ts → hasRedo (turnTaken s ts) l = false →
    pickSlot specOf (turnTaken s ts) l = none → Machine.step s = .next (turnTaken s ts)) ∧
  (∀ s i ts, s.sched.moves = [] → s.sched.agenda = .ev i :: ts → (exactTiming i = true ∨ s.sched.stalls = []) →
    Machine.step s = exec i (turnTaken s ts)) ∧
  (∀ s m ms, s.sched.moves = m :: ms → Machine.step s = exec m { s with sched := { s.sched with moves := ms } }) ∧
  (∀ s, s.sched.moves = [] → s.sched.agenda = [] → Machine.step s = .next (tick s) ∧ (nextCycle s).sched.cycle = s.sched.cycle + 1)

/-- Spec 02 R36, 06 R105, 08 R129, R134, 12 R196, 16 R297, 18 R317, R328, 20 R348, R354: the registers whose reset value the manual gives. -/
def Obligations.ResetState : Prop :=
  (∀ l : Loc, let e : Elem := getElem State.reset l
    e.flg = 0#64 ∧ e.pix = 0#64 ∧ e.ws = 0#64 ∧ e.ptr = Vector.replicate 3 0 ∧ e.rq = []) ∧
  (∀ n, let c := getCtx State.reset n
    c.troot = 0#64 ∧ c.ccfg = 0#32 ∧ c.csvb = 0#64 ∧ c.csvn = 0#32) ∧
  (∀ n w, let x := getWindow State.reset n w
    x.whpa = 0#64 ∧ x.wlen = 0#64 ∧ x.wctl = 0#32 ∧ x.wcnt = 0#32 ∧ x.wrank = 0#32 ∧ x.wtmo = 0#32 ∧ x.wstat = 0#32 ∧ x.weoff = 0#64) ∧
  (∀ q, let x := getQueue State.reset q
    x.qcfg = 0#32 ∧ x.qstat = 0#32 ∧ x.hold = false ∧ x.reset = 0 ∧ x.qirq = 0#32 ∧ x.accept = 0) ∧
  (∀ n, let d := getDie State.reset n
    d.hmsg = 0#64 ∧ d.hfn = 0 ∧ d.hvec = 0 ∧ d.hpend = false ∧ d.hreply = 0#64) ∧
  (let r := State.reset.reeve;
    r.pcap = 0#32 ∧ r.lock = false ∧ r.fwaddr = 0#64 ∧ r.fwstat = 0 ∧ r.ataddr = 0#64 ∧ r.nonce = 0#256 ∧ r.atstat = 0 ∧ r.mlog = [])

/-- Memory is canonical at reset; that it reads 0 is the model's choice (log 8). -/
def Obligations.ResetMemoryOk : Prop := MemoryOk State.reset ∧ ∀ a, readByte State.reset.mem a = 0#8

/-- Every step keeps the canonical form of memory. -/
def Obligations.StepKeepsMemoryForm : Prop := ∀ s t, MemoryOk s → Machine.step s = .next t → MemoryOk t

/-! ### The picker and a beat -/

/-- Spec 08 R134: Pick chooses a ready slot of the highest class that has one: of class 3 the lowest, of another class the first from its
pointer on, which then moves past the winner; it chooses none only where no slot is ready. -/
def Obligations.PickerRule : Prop :=
  (∀ sp s l n x, pickSlot sp s l = some (n, x) →
    elemPicks s l = true ∧ slotReady sp s l n = some x ∧
    (∀ m y, slotReady sp s l m = some y → y.trig.pc ≤ x.trig.pc ∧
      (y.trig.pc = x.trig.pc → if h : x.trig.pc.val < 3 then n - (getElem s l).ptr[x.trig.pc.val] ≤ m - (getElem s l).ptr[x.trig.pc.val] else n ≤ m))) ∧
  (∀ sp s l n x, elemPicks s l = true → slotReady sp s l n = some x → (pickSlot sp s l).isSome = true) ∧
  (∀ n e c, ∀ (d : Fin 3), (movePtr n c e).ptr[d] = if d.val = c.val then n + 1 else e.ptr[d])

/-- Spec 04 R64, 08 R132, R133: a ready slot's predicates match, every channel of its IC holds a token for each beat, a FAULT head is tested
for, and its element is present and runs, with no firing in progress and a free entry in its replay queue. -/
def Obligations.ReadinessRule : Prop :=
  (∀ sp s l n x, slotReady sp s l n = some x →
    (getElem s l).p &&& x.trig.pm = x.trig.pv ∧
    (∀ c : Fin 4, x.trig.ic.getLsbD c.val = true → x.trig.w.beats ≤ (headTokens s l c).length ∧
      (headFault s l c = true → x.trig.test = some ⟨false, .fault⟩ ∧ ∀ d : Fin 4, d < c → x.trig.ic.getLsbD d.val = false)) ∧
    (∀ q, x.trig.test = some q → ∃ c tok, headToken s l c = some tok ∧ x.trig.ic.getLsbD c.val = true ∧
      (∀ d : Fin 4, d < c → x.trig.ic.getLsbD d.val = false) ∧ ((tok.tag = q.tag) ↔ q.neg = false)) ∧
    (∀ f, sp x.act = some f → roomFor s l f.dst x.trig.w.beats = true)) ∧
  (∀ s l, elemPicks s l = true → (getElem s l).present = true ∧ (getElem s l).blocked = false ∧ (getElem s l).cfgFrozen = false ∧
    (getPlot s l.plot).started = true ∧ plotFrozen s l.plot = false ∧ midFiring (getElem s l) = false ∧ (getElem s l).resting = false ∧
    (getElem s l).rq.length < 16)

/-- Spec 08 R135, R136: the commit of a beat with no effects of its own. Its element's flags gain the beat's, its destination register takes the
result, the predicate is written at the last beat only, and `pix` shows the next beat; nothing else of it changes but its queues and the results of it that
are dequeued. Other elements, memory and the rest of the machine are unchanged but for these, trace and activity. -/
def Obligations.BeatCommits : Prop :=
  (∀ (sp : FireSpec) (s : State) (o : BeatOut), o.upd = id → o.post = id →
    let l := s.sched.cur.l
    let e := getElem s l
    let t := commitBeat sp s o
    KeepsRest s t ∧
    (∀ m, locKey m ≠ locKey l → KeepsOther (getElem s m) (getElem t m)) ∧
    (∀ n, KeepsPlot (getPlot s n) (getPlot t n)) ∧
    KeepsOther (commitElem sp s.sched.cur (now s) o e) (getElem t l) ∧
    (∀ i, i < 64 → (e.flg ||| o.flags.setWidth 64).getLsbD i = true → (getElem t l).flg.getLsbD i = true)) ∧
  (∀ (sp : FireSpec) (c : Cursor) (t : Nat) (o : BeatOut) (e : Elem), o.upd = id → c.beats ≤ 16 →
    let e' := commitElem sp c t o e
    e'.flg = e.flg ||| o.flags.setWidth 64 ∧
    (∀ i : Fin 8, e'.d[i] = if sp.dst = .d i then o.v.toWord else e.d[i]) ∧
    e'.c0 = (if sp.dst = .c0 then o.v.toWord else e.c0) ∧ e'.c1 = (if sp.dst = .c1 then o.v.toWord else e.c1) ∧
    e'.k = e.k ∧ e'.fpm = e.fpm ∧ e'.ws = e.ws ∧ e'.slots = e.slots ∧ e'.rq = e.rq ∧
    (∀ i : Fin 8, e'.p.getLsbD i.val = if c.beats ≤ c.beat + 1 then
      (if sp.upd = .result i then o.pred else if sp.upd = .one i then true else if sp.upd = .zero i then false else e.p.getLsbD i.val) else e.p.getLsbD i.val) ∧
    e'.pix = (if c.beat + 1 < c.beats then BitVec.ofNat 64 ((c.beat + 1) * 32 + 16 + c.slot.val) else 0#64)) ∧
  (∀ (sp : FireSpec) (s : State) (o : BeatOut) (n : Fin 4) (r : Route), o.upd = id → o.post = id → o.only = none → sp.async = false → sp.dst = .ch n →
    let l := s.sched.cur.l
    (outPort (getElem s l) n).route = some r → r.long = false → locKey r.dst ≠ locKey l → (getElem s r.dst).killed = false →
    (inPort (getElem (commitBeat sp s o) r.dst) r.port).q.es =
      (inPort (getElem s r.dst) r.port).q.es ++ [{ body := some (tokenOf sp o), since := s.sched.cycle + 1 }])

/-- Spec 02 R36, 08 R135: when one of the plain instructions of the control, integer, lane, conversion and floating-point families gives a next
state, memory and the contexts are unchanged; of its element k, `fpm`, `ws`, the slots, the picker's pointers, and every register, counter and predicate
but the one that it names are unchanged, c1 under stochastic rounding apart (02 R35), and it loses no flag; every other element keeps its registers, counters, predicates, k, `fpm`, `ws`, slots, pointers and
flags. -/
def Obligations.PlainFrame : Prop :=
  ∀ (i : Instr) (s t : State), plainAction i = true → exec i s = .next t →
    let l := s.sched.cur.l
    t.mem = s.mem ∧ t.memPoison = s.memPoison ∧ t.ctxs = s.ctxs ∧
    (∀ m, (∀ j : Fin 8, (locKey m ≠ locKey l ∨ i.dst ≠ .d j) → (getElem t m).d[j] = (getElem s m).d[j]) ∧
      ((locKey m ≠ locKey l ∨ i.dst ≠ .c0) → (getElem t m).c0 = (getElem s m).c0) ∧
      ((locKey m ≠ locKey l ∨ (i.dst ≠ .c1 ∧ ¬Stochastic i s)) → (getElem t m).c1 = (getElem s m).c1) ∧
      (∀ j : Fin 8, (locKey m ≠ locKey l ∨ (i.upd ≠ .result j ∧ i.upd ≠ .one j ∧ i.upd ≠ .zero j)) → (getElem t m).p.getLsbD j.val = (getElem s m).p.getLsbD j.val) ∧
      (getElem t m).k = (getElem s m).k ∧ (getElem t m).fpm = (getElem s m).fpm ∧ (getElem t m).ws = (getElem s m).ws ∧
      (getElem t m).slots = (getElem s m).slots ∧ (getElem t m).ptr = (getElem s m).ptr ∧
      (getElem s m).flg &&& (getElem t m).flg = (getElem s m).flg ∧ (locKey m ≠ locKey l → (getElem t m).flg = (getElem s m).flg))

/-- Spec 02 R36, 08 R136, 18 R316, R317: a beat that traps or faults commits none of its effects: its element gains one replay entry with the captured
operands and `pix` shows the slot and beat, and a record enters the die's fault store under a free identifier. Without a handler the record is marked
to be answered with a kill at the end of the cycle. (On a field plot of a die with a free identifier.) -/
def Obligations.BeatHeld : Prop :=
  ∀ (sp : FireSpec) (s : State) (x : BeatIn) (cls : FaultClass) (sub : Nat) (i0 i1 : Word) (n fid : Nat),
    let c := s.sched.cur
    let l := c.l
    let e := getElem s l
    beatIn sp s = some x → cls ≠ .memerr → c.beat < 16 → l.plot < 512 → freeEntry e.rq = some n → freeFid s (dieOf l.plot) = some fid →
    (∀ r ∈ s.faults, r.id < s.sched.nextId) →
    let t := holdBeat sp s x cls sub i0 i1
    let k := captured sp x
    getElem t l = { e with
      rq := Tbl.put e.rq n { kind := .firing, slot := c.slot.val, beat := c.beat, wfid := false, fid := fid, act := (e.slots[c.slot]).setWidth 32,
                             a := k.1, b := k.2.1, c := k.2.2, owner := 0, depth := c.depth }
      pix := BitVec.ofNat 64 (c.beat * 32 + 16 + c.slot.val) } ∧
    (∀ m, locKey m ≠ locKey l → getElem t m = getElem s m) ∧ t.mem = s.mem ∧ t.reqs = s.reqs ∧
    ∃ r, t.faults = s.faults ++ [r] ∧ r.fid = some fid ∧ r.die = dieOf l.plot ∧ r.cls = cls ∧ r.sub = sub ∧ r.info0 = i0 ∧ r.info1 = i1 ∧ r.site = l.site ∧
      r.slot = c.slot.val ∧ r.entry = n ∧ r.items = [⟨.firing l n, c.depth⟩] ∧ r.unheard = !(getDie s (dieOf l.plot)).handler ∧
      (getDie t (dieOf l.plot)).store = (getDie s (dieOf l.plot)).store ++ [r.id]

/-- Spec 18 R315, R313: the payload of a FAULT token is the fault reference: FID, die and CLASS, and 0 above. -/
def Obligations.FaultReference : Prop :=
  ∀ (r : FaultRec) (fid : Nat), r.fid = some fid → fid < 65536 → r.die < 4 →
    (faultToken r).tag = .fault ∧ (faultToken r).val.extractLsb' 0 16 = BitVec.ofNat 16 fid ∧ (faultToken r).val.extractLsb' 16 2 = BitVec.ofNat 2 r.die ∧
    (faultToken r).val.extractLsb' 18 8 = BitVec.ofNat 8 (classNumber r.cls) ∧ (faultToken r).val.extractLsb' 26 486 = 0#486

/-- Spec 18 R318: the repairs of a firing. Its entry is freed and its record leaves; resume and substitute have the beat re-executed with the captured
operands, retry has the slot evaluated again; a resumed beat commits whatever traps are enabled, and a substituted one completes with the value and no flag. -/
def Obligations.FiringRepairs : Prop :=
  (∀ (s : State) (r : FaultRec) (l : Loc) (n d : Nat) (x : RqEntry) (ans : Answer), r.items = [⟨.firing l n, d⟩] → r.cls ≠ .memerr → ans.act ≠ .kill → Tbl.find (getElem s l).rq n = some x → heldPart s l x.slot = false →
    let t := answerRec s r ans
    let e := getElem s l
    let again (m : BeatMode) : Redo := { slot := x.slot, beat := x.beat, mode := m, a := x.a, b := x.b, c := x.c, depth := x.depth + 1 }
    (∀ q ∈ t.faults, q.id ≠ r.id) ∧
    getElem t l = (match ans.act with
      | .retry => { e with rq := Tbl.drop e.rq n, pix := if (pixSlot e.pix).val = x.slot then 0#64 else e.pix }
      | .subst => { e with rq := Tbl.drop e.rq n, redo := e.redo ++ [again (.subst ans.value)] }
      | _ => { e with rq := Tbl.drop e.rq n, redo := e.redo ++ [again .resume] })) ∧
  (∀ (sp : FireSpec) (s : State) (x : BeatIn) (o : BeatOut), (getElem s s.sched.cur.l).present = true → beatReady sp s = true → beatIn sp s = some x → s.sched.cur.mode = .resume →
    sp.op x = .ok o → runBeat sp s = .next (commitBeat sp s o)) ∧
  (∀ (sp : FireSpec) (s : State) (x : BeatIn) (v : Word), (getElem s s.sched.cur.l).present = true → beatReady sp s = true → beatIn sp s = some x → s.sched.cur.mode = .subst v →
    sp.soft = false → runBeat sp s = .next (commitBeat sp s { v := v.setWidth 512, pred := v.getLsbD 0 }))
end

