-- ==== Sys2Proof/Laws/Beats.lean ====
section
/-!
SUPPORT. What one beat of an instruction can do: `runBeat` answers a commit or a held firing, and what the beat reads.
-/

namespace Sys2Proof.Laws

open Machine

/-- A normal beat whose operation gives an outcome: it commits, or an enabled trap holds it. -/
theorem runBeat_ok {sp : FireSpec} {s : State} {x : BeatIn} {o : BeatOut} (hp : (Machine.getElem s s.sched.cur.l).present = true)
    (hr : beatReady sp s = true) (hb : beatIn sp s = some x) (hm : s.sched.cur.mode = .normal) (ho : sp.op x = .ok o) :
    runBeat sp s = .next (if o.flags &&& fpmTE x.e.fpm = 0 then commitBeat sp s o
      else holdBeat sp s x .arith 0 ((o.flags &&& fpmTE x.e.fpm).setWidth 64) 0) := by
  unfold runBeat
  simp only [hp, hr, hb, hm, ho]
  by_cases h : o.flags &&& fpmTE x.e.fpm = 0 <;> simp [h] <;> split <;> simp_all

/-- A normal beat whose operation raises a fault is held. -/
theorem runBeat_bad {sp : FireSpec} {s : State} {x : BeatIn} {c : FaultClass} {n : Nat} {a b : Word}
    (hp : (Machine.getElem s s.sched.cur.l).present = true) (hr : beatReady sp s = true) (hb : beatIn sp s = some x)
    (hm : s.sched.cur.mode = .normal) (ho : sp.op x = .bad c n a b) : runBeat sp s = .next (holdBeat sp s x c n a b) := by
  unfold runBeat
  simp only [hp, hr, hb, hm, ho]
  simp

/-- A beat that is not ready does nothing. -/
theorem runBeat_waits {sp : FireSpec} {s : State} (hp : (Machine.getElem s s.sched.cur.l).present = true) (hr : beatReady sp s = false) :
    runBeat sp s = .next s := by
  unfold runBeat
  simp [hp, hr]

/-- On an element that is present a beat always answers a next state. -/
theorem runBeat_next {sp : FireSpec} {s : State} (h : (Machine.getElem s s.sched.cur.l).present = true) : ∃ t, runBeat sp s = .next t := by
  unfold runBeat
  simp only [h]
  repeat' split
  all_goals first | exact ⟨_, rfl⟩ | contradiction

/-- What a beat reads of its element and its surroundings. -/
theorem beatIn_reads {sp : FireSpec} {s : State} {x : BeatIn} (h : beatIn sp s = some x) :
    x.s = s ∧ x.e = Machine.getElem s s.sched.cur.l ∧ x.l = s.sched.cur.l ∧ x.ts = BitVec.ofNat 64 (timestamp s) ∧
    x.cyc = BitVec.ofNat 64 (sectionCycles s s.sched.cur.l.plot) ∧ x.pxy = pxyOf s s.sched.cur.l.plot ∧
    x.tc = BitVec.ofNat 64 (x.e.tcnt.toNat + 2 ^ 32 * (x.e.resv % 8)) ∧ x.mode = s.sched.cur.mode := by
  unfold beatIn at h
  dsimp only at h
  split at h
  · cases h; exact ⟨rfl, rfl, rfl, rfl, rfl, rfl, rfl, rfl⟩
  · cases h

end Sys2Proof.Laws
end

