-- ==== Sys2Proof/Laws/State.lean ====
section
/-!
SUPPORT. What each named update of the state does to each field: one lemma per field, so that no proof unfolds a record update.
-/

namespace Sys2Proof.Laws

open Machine

/-! ### setElem -/

@[simp] theorem setElem_sched (s : State) (l : Loc) (e : Elem) : (setElem s l e).sched = s.sched := rfl
@[simp] theorem setElem_elems (s : State) (l : Loc) (e : Elem) : (setElem s l e).elems = Tbl.put s.elems (locKey l) e := rfl
@[simp] theorem setElem_plots (s : State) (l : Loc) (e : Elem) : (setElem s l e).plots = s.plots := rfl
@[simp] theorem setElem_parcels (s : State) (l : Loc) (e : Elem) : (setElem s l e).parcels = s.parcels := rfl
@[simp] theorem setElem_dies (s : State) (l : Loc) (e : Elem) : (setElem s l e).dies = s.dies := rfl
@[simp] theorem setElem_ctxs (s : State) (l : Loc) (e : Elem) : (setElem s l e).ctxs = s.ctxs := rfl
@[simp] theorem setElem_faults (s : State) (l : Loc) (e : Elem) : (setElem s l e).faults = s.faults := rfl
@[simp] theorem setElem_reqs (s : State) (l : Loc) (e : Elem) : (setElem s l e).reqs = s.reqs := rfl
@[simp] theorem setElem_results (s : State) (l : Loc) (e : Elem) : (setElem s l e).results = s.results := rfl
@[simp] theorem setElem_les (s : State) (l : Loc) (e : Elem) : (setElem s l e).les = s.les := rfl
@[simp] theorem setElem_ses (s : State) (l : Loc) (e : Elem) : (setElem s l e).ses = s.ses := rfl
@[simp] theorem setElem_mes (s : State) (l : Loc) (e : Elem) : (setElem s l e).mes = s.mes := rfl
@[simp] theorem setElem_lines (s : State) (l : Loc) (e : Elem) : (setElem s l e).lines = s.lines := rfl
@[simp] theorem setElem_cmds (s : State) (l : Loc) (e : Elem) : (setElem s l e).cmds = s.cmds := rfl
@[simp] theorem setElem_drill (s : State) (l : Loc) (e : Elem) : (setElem s l e).drill = s.drill := rfl
@[simp] theorem setElem_reeve (s : State) (l : Loc) (e : Elem) : (setElem s l e).reeve = s.reeve := rfl
@[simp] theorem setElem_saved (s : State) (l : Loc) (e : Elem) : (setElem s l e).saved = s.saved := rfl
@[simp] theorem setElem_outputs (s : State) (l : Loc) (e : Elem) : (setElem s l e).outputs = s.outputs := rfl
@[simp] theorem setElem_dvl (s : State) (l : Loc) (e : Elem) : (setElem s l e).dvl = s.dvl := rfl
@[simp] theorem setElem_dvlWrites (s : State) (l : Loc) (e : Elem) : (setElem s l e).dvlWrites = s.dvlWrites := rfl
@[simp] theorem setElem_pcie (s : State) (l : Loc) (e : Elem) : (setElem s l e).pcie = s.pcie := rfl
@[simp] theorem setElem_mem (s : State) (l : Loc) (e : Elem) : (setElem s l e).mem = s.mem := rfl
@[simp] theorem setElem_memPoison (s : State) (l : Loc) (e : Elem) : (setElem s l e).memPoison = s.memPoison := rfl
@[simp] theorem setElem_msix (s : State) (l : Loc) (e : Elem) : (setElem s l e).msix = s.msix := rfl

/-! ### modElem -/

@[simp] theorem modElem_sched (s : State) (l : Loc) (f : Elem → Elem) : (modElem s l f).sched = s.sched := rfl
@[simp] theorem modElem_elems (s : State) (l : Loc) (f : Elem → Elem) : (modElem s l f).elems = Tbl.put s.elems (locKey l) (f (getElem s l)) := rfl
@[simp] theorem modElem_plots (s : State) (l : Loc) (f : Elem → Elem) : (modElem s l f).plots = s.plots := rfl
@[simp] theorem modElem_parcels (s : State) (l : Loc) (f : Elem → Elem) : (modElem s l f).parcels = s.parcels := rfl
@[simp] theorem modElem_dies (s : State) (l : Loc) (f : Elem → Elem) : (modElem s l f).dies = s.dies := rfl
@[simp] theorem modElem_ctxs (s : State) (l : Loc) (f : Elem → Elem) : (modElem s l f).ctxs = s.ctxs := rfl
@[simp] theorem modElem_faults (s : State) (l : Loc) (f : Elem → Elem) : (modElem s l f).faults = s.faults := rfl
@[simp] theorem modElem_reqs (s : State) (l : Loc) (f : Elem → Elem) : (modElem s l f).reqs = s.reqs := rfl
@[simp] theorem modElem_results (s : State) (l : Loc) (f : Elem → Elem) : (modElem s l f).results = s.results := rfl
@[simp] theorem modElem_les (s : State) (l : Loc) (f : Elem → Elem) : (modElem s l f).les = s.les := rfl
@[simp] theorem modElem_ses (s : State) (l : Loc) (f : Elem → Elem) : (modElem s l f).ses = s.ses := rfl
@[simp] theorem modElem_mes (s : State) (l : Loc) (f : Elem → Elem) : (modElem s l f).mes = s.mes := rfl
@[simp] theorem modElem_lines (s : State) (l : Loc) (f : Elem → Elem) : (modElem s l f).lines = s.lines := rfl
@[simp] theorem modElem_cmds (s : State) (l : Loc) (f : Elem → Elem) : (modElem s l f).cmds = s.cmds := rfl
@[simp] theorem modElem_drill (s : State) (l : Loc) (f : Elem → Elem) : (modElem s l f).drill = s.drill := rfl
@[simp] theorem modElem_reeve (s : State) (l : Loc) (f : Elem → Elem) : (modElem s l f).reeve = s.reeve := rfl
@[simp] theorem modElem_saved (s : State) (l : Loc) (f : Elem → Elem) : (modElem s l f).saved = s.saved := rfl
@[simp] theorem modElem_outputs (s : State) (l : Loc) (f : Elem → Elem) : (modElem s l f).outputs = s.outputs := rfl
@[simp] theorem modElem_dvl (s : State) (l : Loc) (f : Elem → Elem) : (modElem s l f).dvl = s.dvl := rfl
@[simp] theorem modElem_dvlWrites (s : State) (l : Loc) (f : Elem → Elem) : (modElem s l f).dvlWrites = s.dvlWrites := rfl
@[simp] theorem modElem_pcie (s : State) (l : Loc) (f : Elem → Elem) : (modElem s l f).pcie = s.pcie := rfl
@[simp] theorem modElem_mem (s : State) (l : Loc) (f : Elem → Elem) : (modElem s l f).mem = s.mem := rfl
@[simp] theorem modElem_memPoison (s : State) (l : Loc) (f : Elem → Elem) : (modElem s l f).memPoison = s.memPoison := rfl
@[simp] theorem modElem_msix (s : State) (l : Loc) (f : Elem → Elem) : (modElem s l f).msix = s.msix := rfl

/-! ### setPlot -/

@[simp] theorem setPlot_sched (s : State) (n : Nat) (p : Plot) : (setPlot s n p).sched = s.sched := rfl
@[simp] theorem setPlot_elems (s : State) (n : Nat) (p : Plot) : (setPlot s n p).elems = s.elems := rfl
@[simp] theorem setPlot_plots (s : State) (n : Nat) (p : Plot) : (setPlot s n p).plots = Tbl.put s.plots n p := rfl
@[simp] theorem setPlot_parcels (s : State) (n : Nat) (p : Plot) : (setPlot s n p).parcels = s.parcels := rfl
@[simp] theorem setPlot_dies (s : State) (n : Nat) (p : Plot) : (setPlot s n p).dies = s.dies := rfl
@[simp] theorem setPlot_ctxs (s : State) (n : Nat) (p : Plot) : (setPlot s n p).ctxs = s.ctxs := rfl
@[simp] theorem setPlot_faults (s : State) (n : Nat) (p : Plot) : (setPlot s n p).faults = s.faults := rfl
@[simp] theorem setPlot_reqs (s : State) (n : Nat) (p : Plot) : (setPlot s n p).reqs = s.reqs := rfl
@[simp] theorem setPlot_results (s : State) (n : Nat) (p : Plot) : (setPlot s n p).results = s.results := rfl
@[simp] theorem setPlot_les (s : State) (n : Nat) (p : Plot) : (setPlot s n p).les = s.les := rfl
@[simp] theorem setPlot_ses (s : State) (n : Nat) (p : Plot) : (setPlot s n p).ses = s.ses := rfl
@[simp] theorem setPlot_mes (s : State) (n : Nat) (p : Plot) : (setPlot s n p).mes = s.mes := rfl
@[simp] theorem setPlot_lines (s : State) (n : Nat) (p : Plot) : (setPlot s n p).lines = s.lines := rfl
@[simp] theorem setPlot_cmds (s : State) (n : Nat) (p : Plot) : (setPlot s n p).cmds = s.cmds := rfl
@[simp] theorem setPlot_drill (s : State) (n : Nat) (p : Plot) : (setPlot s n p).drill = s.drill := rfl
@[simp] theorem setPlot_reeve (s : State) (n : Nat) (p : Plot) : (setPlot s n p).reeve = s.reeve := rfl
@[simp] theorem setPlot_saved (s : State) (n : Nat) (p : Plot) : (setPlot s n p).saved = s.saved := rfl
@[simp] theorem setPlot_outputs (s : State) (n : Nat) (p : Plot) : (setPlot s n p).outputs = s.outputs := rfl
@[simp] theorem setPlot_dvl (s : State) (n : Nat) (p : Plot) : (setPlot s n p).dvl = s.dvl := rfl
@[simp] theorem setPlot_dvlWrites (s : State) (n : Nat) (p : Plot) : (setPlot s n p).dvlWrites = s.dvlWrites := rfl
@[simp] theorem setPlot_pcie (s : State) (n : Nat) (p : Plot) : (setPlot s n p).pcie = s.pcie := rfl
@[simp] theorem setPlot_mem (s : State) (n : Nat) (p : Plot) : (setPlot s n p).mem = s.mem := rfl
@[simp] theorem setPlot_memPoison (s : State) (n : Nat) (p : Plot) : (setPlot s n p).memPoison = s.memPoison := rfl
@[simp] theorem setPlot_msix (s : State) (n : Nat) (p : Plot) : (setPlot s n p).msix = s.msix := rfl

/-! ### modPlot -/

@[simp] theorem modPlot_sched (s : State) (n : Nat) (f : Plot → Plot) : (modPlot s n f).sched = s.sched := rfl
@[simp] theorem modPlot_elems (s : State) (n : Nat) (f : Plot → Plot) : (modPlot s n f).elems = s.elems := rfl
@[simp] theorem modPlot_plots (s : State) (n : Nat) (f : Plot → Plot) : (modPlot s n f).plots = Tbl.put s.plots n (f (getPlot s n)) := rfl
@[simp] theorem modPlot_parcels (s : State) (n : Nat) (f : Plot → Plot) : (modPlot s n f).parcels = s.parcels := rfl
@[simp] theorem modPlot_dies (s : State) (n : Nat) (f : Plot → Plot) : (modPlot s n f).dies = s.dies := rfl
@[simp] theorem modPlot_ctxs (s : State) (n : Nat) (f : Plot → Plot) : (modPlot s n f).ctxs = s.ctxs := rfl
@[simp] theorem modPlot_faults (s : State) (n : Nat) (f : Plot → Plot) : (modPlot s n f).faults = s.faults := rfl
@[simp] theorem modPlot_reqs (s : State) (n : Nat) (f : Plot → Plot) : (modPlot s n f).reqs = s.reqs := rfl
@[simp] theorem modPlot_results (s : State) (n : Nat) (f : Plot → Plot) : (modPlot s n f).results = s.results := rfl
@[simp] theorem modPlot_les (s : State) (n : Nat) (f : Plot → Plot) : (modPlot s n f).les = s.les := rfl
@[simp] theorem modPlot_ses (s : State) (n : Nat) (f : Plot → Plot) : (modPlot s n f).ses = s.ses := rfl
@[simp] theorem modPlot_mes (s : State) (n : Nat) (f : Plot → Plot) : (modPlot s n f).mes = s.mes := rfl
@[simp] theorem modPlot_lines (s : State) (n : Nat) (f : Plot → Plot) : (modPlot s n f).lines = s.lines := rfl
@[simp] theorem modPlot_cmds (s : State) (n : Nat) (f : Plot → Plot) : (modPlot s n f).cmds = s.cmds := rfl
@[simp] theorem modPlot_drill (s : State) (n : Nat) (f : Plot → Plot) : (modPlot s n f).drill = s.drill := rfl
@[simp] theorem modPlot_reeve (s : State) (n : Nat) (f : Plot → Plot) : (modPlot s n f).reeve = s.reeve := rfl
@[simp] theorem modPlot_saved (s : State) (n : Nat) (f : Plot → Plot) : (modPlot s n f).saved = s.saved := rfl
@[simp] theorem modPlot_outputs (s : State) (n : Nat) (f : Plot → Plot) : (modPlot s n f).outputs = s.outputs := rfl
@[simp] theorem modPlot_dvl (s : State) (n : Nat) (f : Plot → Plot) : (modPlot s n f).dvl = s.dvl := rfl
@[simp] theorem modPlot_dvlWrites (s : State) (n : Nat) (f : Plot → Plot) : (modPlot s n f).dvlWrites = s.dvlWrites := rfl
@[simp] theorem modPlot_pcie (s : State) (n : Nat) (f : Plot → Plot) : (modPlot s n f).pcie = s.pcie := rfl
@[simp] theorem modPlot_mem (s : State) (n : Nat) (f : Plot → Plot) : (modPlot s n f).mem = s.mem := rfl
@[simp] theorem modPlot_memPoison (s : State) (n : Nat) (f : Plot → Plot) : (modPlot s n f).memPoison = s.memPoison := rfl
@[simp] theorem modPlot_msix (s : State) (n : Nat) (f : Plot → Plot) : (modPlot s n f).msix = s.msix := rfl

/-! ### markActive -/

@[simp] theorem markActive_sched (s : State) (n : Nat) : (markActive s n).sched = s.sched := rfl
@[simp] theorem markActive_elems (s : State) (n : Nat) : (markActive s n).elems = s.elems := rfl
@[simp] theorem markActive_plots (s : State) (n : Nat) : (markActive s n).plots = Tbl.put s.plots n { getPlot s n with active := true } := rfl
@[simp] theorem markActive_parcels (s : State) (n : Nat) : (markActive s n).parcels = s.parcels := rfl
@[simp] theorem markActive_dies (s : State) (n : Nat) : (markActive s n).dies = s.dies := rfl
@[simp] theorem markActive_ctxs (s : State) (n : Nat) : (markActive s n).ctxs = s.ctxs := rfl
@[simp] theorem markActive_faults (s : State) (n : Nat) : (markActive s n).faults = s.faults := rfl
@[simp] theorem markActive_reqs (s : State) (n : Nat) : (markActive s n).reqs = s.reqs := rfl
@[simp] theorem markActive_results (s : State) (n : Nat) : (markActive s n).results = s.results := rfl
@[simp] theorem markActive_les (s : State) (n : Nat) : (markActive s n).les = s.les := rfl
@[simp] theorem markActive_ses (s : State) (n : Nat) : (markActive s n).ses = s.ses := rfl
@[simp] theorem markActive_mes (s : State) (n : Nat) : (markActive s n).mes = s.mes := rfl
@[simp] theorem markActive_lines (s : State) (n : Nat) : (markActive s n).lines = s.lines := rfl
@[simp] theorem markActive_cmds (s : State) (n : Nat) : (markActive s n).cmds = s.cmds := rfl
@[simp] theorem markActive_drill (s : State) (n : Nat) : (markActive s n).drill = s.drill := rfl
@[simp] theorem markActive_reeve (s : State) (n : Nat) : (markActive s n).reeve = s.reeve := rfl
@[simp] theorem markActive_saved (s : State) (n : Nat) : (markActive s n).saved = s.saved := rfl
@[simp] theorem markActive_outputs (s : State) (n : Nat) : (markActive s n).outputs = s.outputs := rfl
@[simp] theorem markActive_dvl (s : State) (n : Nat) : (markActive s n).dvl = s.dvl := rfl
@[simp] theorem markActive_dvlWrites (s : State) (n : Nat) : (markActive s n).dvlWrites = s.dvlWrites := rfl
@[simp] theorem markActive_pcie (s : State) (n : Nat) : (markActive s n).pcie = s.pcie := rfl
@[simp] theorem markActive_mem (s : State) (n : Nat) : (markActive s n).mem = s.mem := rfl
@[simp] theorem markActive_memPoison (s : State) (n : Nat) : (markActive s n).memPoison = s.memPoison := rfl
@[simp] theorem markActive_msix (s : State) (n : Nat) : (markActive s n).msix = s.msix := rfl

/-! ### setParcel -/

@[simp] theorem setParcel_sched (s : State) (n : Nat) (p : Parcel) : (setParcel s n p).sched = s.sched := rfl
@[simp] theorem setParcel_elems (s : State) (n : Nat) (p : Parcel) : (setParcel s n p).elems = s.elems := rfl
@[simp] theorem setParcel_plots (s : State) (n : Nat) (p : Parcel) : (setParcel s n p).plots = s.plots := rfl
@[simp] theorem setParcel_parcels (s : State) (n : Nat) (p : Parcel) : (setParcel s n p).parcels = Tbl.put s.parcels n p := rfl
@[simp] theorem setParcel_dies (s : State) (n : Nat) (p : Parcel) : (setParcel s n p).dies = s.dies := rfl
@[simp] theorem setParcel_ctxs (s : State) (n : Nat) (p : Parcel) : (setParcel s n p).ctxs = s.ctxs := rfl
@[simp] theorem setParcel_faults (s : State) (n : Nat) (p : Parcel) : (setParcel s n p).faults = s.faults := rfl
@[simp] theorem setParcel_reqs (s : State) (n : Nat) (p : Parcel) : (setParcel s n p).reqs = s.reqs := rfl
@[simp] theorem setParcel_results (s : State) (n : Nat) (p : Parcel) : (setParcel s n p).results = s.results := rfl
@[simp] theorem setParcel_les (s : State) (n : Nat) (p : Parcel) : (setParcel s n p).les = s.les := rfl
@[simp] theorem setParcel_ses (s : State) (n : Nat) (p : Parcel) : (setParcel s n p).ses = s.ses := rfl
@[simp] theorem setParcel_mes (s : State) (n : Nat) (p : Parcel) : (setParcel s n p).mes = s.mes := rfl
@[simp] theorem setParcel_lines (s : State) (n : Nat) (p : Parcel) : (setParcel s n p).lines = s.lines := rfl
@[simp] theorem setParcel_cmds (s : State) (n : Nat) (p : Parcel) : (setParcel s n p).cmds = s.cmds := rfl
@[simp] theorem setParcel_drill (s : State) (n : Nat) (p : Parcel) : (setParcel s n p).drill = s.drill := rfl
@[simp] theorem setParcel_reeve (s : State) (n : Nat) (p : Parcel) : (setParcel s n p).reeve = s.reeve := rfl
@[simp] theorem setParcel_saved (s : State) (n : Nat) (p : Parcel) : (setParcel s n p).saved = s.saved := rfl
@[simp] theorem setParcel_outputs (s : State) (n : Nat) (p : Parcel) : (setParcel s n p).outputs = s.outputs := rfl
@[simp] theorem setParcel_dvl (s : State) (n : Nat) (p : Parcel) : (setParcel s n p).dvl = s.dvl := rfl
@[simp] theorem setParcel_dvlWrites (s : State) (n : Nat) (p : Parcel) : (setParcel s n p).dvlWrites = s.dvlWrites := rfl
@[simp] theorem setParcel_pcie (s : State) (n : Nat) (p : Parcel) : (setParcel s n p).pcie = s.pcie := rfl
@[simp] theorem setParcel_mem (s : State) (n : Nat) (p : Parcel) : (setParcel s n p).mem = s.mem := rfl
@[simp] theorem setParcel_memPoison (s : State) (n : Nat) (p : Parcel) : (setParcel s n p).memPoison = s.memPoison := rfl
@[simp] theorem setParcel_msix (s : State) (n : Nat) (p : Parcel) : (setParcel s n p).msix = s.msix := rfl

/-! ### modParcel -/

@[simp] theorem modParcel_sched (s : State) (n : Nat) (f : Parcel → Parcel) : (modParcel s n f).sched = s.sched := rfl
@[simp] theorem modParcel_elems (s : State) (n : Nat) (f : Parcel → Parcel) : (modParcel s n f).elems = s.elems := rfl
@[simp] theorem modParcel_plots (s : State) (n : Nat) (f : Parcel → Parcel) : (modParcel s n f).plots = s.plots := rfl
@[simp] theorem modParcel_parcels (s : State) (n : Nat) (f : Parcel → Parcel) : (modParcel s n f).parcels = Tbl.alter s.parcels n f := rfl
@[simp] theorem modParcel_dies (s : State) (n : Nat) (f : Parcel → Parcel) : (modParcel s n f).dies = s.dies := rfl
@[simp] theorem modParcel_ctxs (s : State) (n : Nat) (f : Parcel → Parcel) : (modParcel s n f).ctxs = s.ctxs := rfl
@[simp] theorem modParcel_faults (s : State) (n : Nat) (f : Parcel → Parcel) : (modParcel s n f).faults = s.faults := rfl
@[simp] theorem modParcel_reqs (s : State) (n : Nat) (f : Parcel → Parcel) : (modParcel s n f).reqs = s.reqs := rfl
@[simp] theorem modParcel_results (s : State) (n : Nat) (f : Parcel → Parcel) : (modParcel s n f).results = s.results := rfl
@[simp] theorem modParcel_les (s : State) (n : Nat) (f : Parcel → Parcel) : (modParcel s n f).les = s.les := rfl
@[simp] theorem modParcel_ses (s : State) (n : Nat) (f : Parcel → Parcel) : (modParcel s n f).ses = s.ses := rfl
@[simp] theorem modParcel_mes (s : State) (n : Nat) (f : Parcel → Parcel) : (modParcel s n f).mes = s.mes := rfl
@[simp] theorem modParcel_lines (s : State) (n : Nat) (f : Parcel → Parcel) : (modParcel s n f).lines = s.lines := rfl
@[simp] theorem modParcel_cmds (s : State) (n : Nat) (f : Parcel → Parcel) : (modParcel s n f).cmds = s.cmds := rfl
@[simp] theorem modParcel_drill (s : State) (n : Nat) (f : Parcel → Parcel) : (modParcel s n f).drill = s.drill := rfl
@[simp] theorem modParcel_reeve (s : State) (n : Nat) (f : Parcel → Parcel) : (modParcel s n f).reeve = s.reeve := rfl
@[simp] theorem modParcel_saved (s : State) (n : Nat) (f : Parcel → Parcel) : (modParcel s n f).saved = s.saved := rfl
@[simp] theorem modParcel_outputs (s : State) (n : Nat) (f : Parcel → Parcel) : (modParcel s n f).outputs = s.outputs := rfl
@[simp] theorem modParcel_dvl (s : State) (n : Nat) (f : Parcel → Parcel) : (modParcel s n f).dvl = s.dvl := rfl
@[simp] theorem modParcel_dvlWrites (s : State) (n : Nat) (f : Parcel → Parcel) : (modParcel s n f).dvlWrites = s.dvlWrites := rfl
@[simp] theorem modParcel_pcie (s : State) (n : Nat) (f : Parcel → Parcel) : (modParcel s n f).pcie = s.pcie := rfl
@[simp] theorem modParcel_mem (s : State) (n : Nat) (f : Parcel → Parcel) : (modParcel s n f).mem = s.mem := rfl
@[simp] theorem modParcel_memPoison (s : State) (n : Nat) (f : Parcel → Parcel) : (modParcel s n f).memPoison = s.memPoison := rfl
@[simp] theorem modParcel_msix (s : State) (n : Nat) (f : Parcel → Parcel) : (modParcel s n f).msix = s.msix := rfl

/-! ### setDie -/

@[simp] theorem setDie_sched (s : State) (n : Nat) (d : Die) : (setDie s n d).sched = s.sched := rfl
@[simp] theorem setDie_elems (s : State) (n : Nat) (d : Die) : (setDie s n d).elems = s.elems := rfl
@[simp] theorem setDie_plots (s : State) (n : Nat) (d : Die) : (setDie s n d).plots = s.plots := rfl
@[simp] theorem setDie_parcels (s : State) (n : Nat) (d : Die) : (setDie s n d).parcels = s.parcels := rfl
@[simp] theorem setDie_dies (s : State) (n : Nat) (d : Die) : (setDie s n d).dies = Tbl.put s.dies n d := rfl
@[simp] theorem setDie_ctxs (s : State) (n : Nat) (d : Die) : (setDie s n d).ctxs = s.ctxs := rfl
@[simp] theorem setDie_faults (s : State) (n : Nat) (d : Die) : (setDie s n d).faults = s.faults := rfl
@[simp] theorem setDie_reqs (s : State) (n : Nat) (d : Die) : (setDie s n d).reqs = s.reqs := rfl
@[simp] theorem setDie_results (s : State) (n : Nat) (d : Die) : (setDie s n d).results = s.results := rfl
@[simp] theorem setDie_les (s : State) (n : Nat) (d : Die) : (setDie s n d).les = s.les := rfl
@[simp] theorem setDie_ses (s : State) (n : Nat) (d : Die) : (setDie s n d).ses = s.ses := rfl
@[simp] theorem setDie_mes (s : State) (n : Nat) (d : Die) : (setDie s n d).mes = s.mes := rfl
@[simp] theorem setDie_lines (s : State) (n : Nat) (d : Die) : (setDie s n d).lines = s.lines := rfl
@[simp] theorem setDie_cmds (s : State) (n : Nat) (d : Die) : (setDie s n d).cmds = s.cmds := rfl
@[simp] theorem setDie_drill (s : State) (n : Nat) (d : Die) : (setDie s n d).drill = s.drill := rfl
@[simp] theorem setDie_reeve (s : State) (n : Nat) (d : Die) : (setDie s n d).reeve = s.reeve := rfl
@[simp] theorem setDie_saved (s : State) (n : Nat) (d : Die) : (setDie s n d).saved = s.saved := rfl
@[simp] theorem setDie_outputs (s : State) (n : Nat) (d : Die) : (setDie s n d).outputs = s.outputs := rfl
@[simp] theorem setDie_dvl (s : State) (n : Nat) (d : Die) : (setDie s n d).dvl = s.dvl := rfl
@[simp] theorem setDie_dvlWrites (s : State) (n : Nat) (d : Die) : (setDie s n d).dvlWrites = s.dvlWrites := rfl
@[simp] theorem setDie_pcie (s : State) (n : Nat) (d : Die) : (setDie s n d).pcie = s.pcie := rfl
@[simp] theorem setDie_mem (s : State) (n : Nat) (d : Die) : (setDie s n d).mem = s.mem := rfl
@[simp] theorem setDie_memPoison (s : State) (n : Nat) (d : Die) : (setDie s n d).memPoison = s.memPoison := rfl
@[simp] theorem setDie_msix (s : State) (n : Nat) (d : Die) : (setDie s n d).msix = s.msix := rfl

/-! ### modDie -/

@[simp] theorem modDie_sched (s : State) (n : Nat) (f : Die → Die) : (modDie s n f).sched = s.sched := rfl
@[simp] theorem modDie_elems (s : State) (n : Nat) (f : Die → Die) : (modDie s n f).elems = s.elems := rfl
@[simp] theorem modDie_plots (s : State) (n : Nat) (f : Die → Die) : (modDie s n f).plots = s.plots := rfl
@[simp] theorem modDie_parcels (s : State) (n : Nat) (f : Die → Die) : (modDie s n f).parcels = s.parcels := rfl
@[simp] theorem modDie_dies (s : State) (n : Nat) (f : Die → Die) : (modDie s n f).dies = Tbl.put s.dies n (f (getDie s n)) := rfl
@[simp] theorem modDie_ctxs (s : State) (n : Nat) (f : Die → Die) : (modDie s n f).ctxs = s.ctxs := rfl
@[simp] theorem modDie_faults (s : State) (n : Nat) (f : Die → Die) : (modDie s n f).faults = s.faults := rfl
@[simp] theorem modDie_reqs (s : State) (n : Nat) (f : Die → Die) : (modDie s n f).reqs = s.reqs := rfl
@[simp] theorem modDie_results (s : State) (n : Nat) (f : Die → Die) : (modDie s n f).results = s.results := rfl
@[simp] theorem modDie_les (s : State) (n : Nat) (f : Die → Die) : (modDie s n f).les = s.les := rfl
@[simp] theorem modDie_ses (s : State) (n : Nat) (f : Die → Die) : (modDie s n f).ses = s.ses := rfl
@[simp] theorem modDie_mes (s : State) (n : Nat) (f : Die → Die) : (modDie s n f).mes = s.mes := rfl
@[simp] theorem modDie_lines (s : State) (n : Nat) (f : Die → Die) : (modDie s n f).lines = s.lines := rfl
@[simp] theorem modDie_cmds (s : State) (n : Nat) (f : Die → Die) : (modDie s n f).cmds = s.cmds := rfl
@[simp] theorem modDie_drill (s : State) (n : Nat) (f : Die → Die) : (modDie s n f).drill = s.drill := rfl
@[simp] theorem modDie_reeve (s : State) (n : Nat) (f : Die → Die) : (modDie s n f).reeve = s.reeve := rfl
@[simp] theorem modDie_saved (s : State) (n : Nat) (f : Die → Die) : (modDie s n f).saved = s.saved := rfl
@[simp] theorem modDie_outputs (s : State) (n : Nat) (f : Die → Die) : (modDie s n f).outputs = s.outputs := rfl
@[simp] theorem modDie_dvl (s : State) (n : Nat) (f : Die → Die) : (modDie s n f).dvl = s.dvl := rfl
@[simp] theorem modDie_dvlWrites (s : State) (n : Nat) (f : Die → Die) : (modDie s n f).dvlWrites = s.dvlWrites := rfl
@[simp] theorem modDie_pcie (s : State) (n : Nat) (f : Die → Die) : (modDie s n f).pcie = s.pcie := rfl
@[simp] theorem modDie_mem (s : State) (n : Nat) (f : Die → Die) : (modDie s n f).mem = s.mem := rfl
@[simp] theorem modDie_memPoison (s : State) (n : Nat) (f : Die → Die) : (modDie s n f).memPoison = s.memPoison := rfl
@[simp] theorem modDie_msix (s : State) (n : Nat) (f : Die → Die) : (modDie s n f).msix = s.msix := rfl

/-! ### setCtx -/

@[simp] theorem setCtx_sched (s : State) (n : Nat) (c : Ctx) : (setCtx s n c).sched = s.sched := rfl
@[simp] theorem setCtx_elems (s : State) (n : Nat) (c : Ctx) : (setCtx s n c).elems = s.elems := rfl
@[simp] theorem setCtx_plots (s : State) (n : Nat) (c : Ctx) : (setCtx s n c).plots = s.plots := rfl
@[simp] theorem setCtx_parcels (s : State) (n : Nat) (c : Ctx) : (setCtx s n c).parcels = s.parcels := rfl
@[simp] theorem setCtx_dies (s : State) (n : Nat) (c : Ctx) : (setCtx s n c).dies = s.dies := rfl
@[simp] theorem setCtx_ctxs (s : State) (n : Nat) (c : Ctx) : (setCtx s n c).ctxs = Tbl.put s.ctxs n c := rfl
@[simp] theorem setCtx_faults (s : State) (n : Nat) (c : Ctx) : (setCtx s n c).faults = s.faults := rfl
@[simp] theorem setCtx_reqs (s : State) (n : Nat) (c : Ctx) : (setCtx s n c).reqs = s.reqs := rfl
@[simp] theorem setCtx_results (s : State) (n : Nat) (c : Ctx) : (setCtx s n c).results = s.results := rfl
@[simp] theorem setCtx_les (s : State) (n : Nat) (c : Ctx) : (setCtx s n c).les = s.les := rfl
@[simp] theorem setCtx_ses (s : State) (n : Nat) (c : Ctx) : (setCtx s n c).ses = s.ses := rfl
@[simp] theorem setCtx_mes (s : State) (n : Nat) (c : Ctx) : (setCtx s n c).mes = s.mes := rfl
@[simp] theorem setCtx_lines (s : State) (n : Nat) (c : Ctx) : (setCtx s n c).lines = s.lines := rfl
@[simp] theorem setCtx_cmds (s : State) (n : Nat) (c : Ctx) : (setCtx s n c).cmds = s.cmds := rfl
@[simp] theorem setCtx_drill (s : State) (n : Nat) (c : Ctx) : (setCtx s n c).drill = s.drill := rfl
@[simp] theorem setCtx_reeve (s : State) (n : Nat) (c : Ctx) : (setCtx s n c).reeve = s.reeve := rfl
@[simp] theorem setCtx_saved (s : State) (n : Nat) (c : Ctx) : (setCtx s n c).saved = s.saved := rfl
@[simp] theorem setCtx_outputs (s : State) (n : Nat) (c : Ctx) : (setCtx s n c).outputs = s.outputs := rfl
@[simp] theorem setCtx_dvl (s : State) (n : Nat) (c : Ctx) : (setCtx s n c).dvl = s.dvl := rfl
@[simp] theorem setCtx_dvlWrites (s : State) (n : Nat) (c : Ctx) : (setCtx s n c).dvlWrites = s.dvlWrites := rfl
@[simp] theorem setCtx_pcie (s : State) (n : Nat) (c : Ctx) : (setCtx s n c).pcie = s.pcie := rfl
@[simp] theorem setCtx_mem (s : State) (n : Nat) (c : Ctx) : (setCtx s n c).mem = s.mem := rfl
@[simp] theorem setCtx_memPoison (s : State) (n : Nat) (c : Ctx) : (setCtx s n c).memPoison = s.memPoison := rfl
@[simp] theorem setCtx_msix (s : State) (n : Nat) (c : Ctx) : (setCtx s n c).msix = s.msix := rfl

/-! ### modCtx -/

@[simp] theorem modCtx_sched (s : State) (n : Nat) (f : Ctx → Ctx) : (modCtx s n f).sched = s.sched := rfl
@[simp] theorem modCtx_elems (s : State) (n : Nat) (f : Ctx → Ctx) : (modCtx s n f).elems = s.elems := rfl
@[simp] theorem modCtx_plots (s : State) (n : Nat) (f : Ctx → Ctx) : (modCtx s n f).plots = s.plots := rfl
@[simp] theorem modCtx_parcels (s : State) (n : Nat) (f : Ctx → Ctx) : (modCtx s n f).parcels = s.parcels := rfl
@[simp] theorem modCtx_dies (s : State) (n : Nat) (f : Ctx → Ctx) : (modCtx s n f).dies = s.dies := rfl
@[simp] theorem modCtx_ctxs (s : State) (n : Nat) (f : Ctx → Ctx) : (modCtx s n f).ctxs = Tbl.put s.ctxs n (f (getCtx s n)) := rfl
@[simp] theorem modCtx_faults (s : State) (n : Nat) (f : Ctx → Ctx) : (modCtx s n f).faults = s.faults := rfl
@[simp] theorem modCtx_reqs (s : State) (n : Nat) (f : Ctx → Ctx) : (modCtx s n f).reqs = s.reqs := rfl
@[simp] theorem modCtx_results (s : State) (n : Nat) (f : Ctx → Ctx) : (modCtx s n f).results = s.results := rfl
@[simp] theorem modCtx_les (s : State) (n : Nat) (f : Ctx → Ctx) : (modCtx s n f).les = s.les := rfl
@[simp] theorem modCtx_ses (s : State) (n : Nat) (f : Ctx → Ctx) : (modCtx s n f).ses = s.ses := rfl
@[simp] theorem modCtx_mes (s : State) (n : Nat) (f : Ctx → Ctx) : (modCtx s n f).mes = s.mes := rfl
@[simp] theorem modCtx_lines (s : State) (n : Nat) (f : Ctx → Ctx) : (modCtx s n f).lines = s.lines := rfl
@[simp] theorem modCtx_cmds (s : State) (n : Nat) (f : Ctx → Ctx) : (modCtx s n f).cmds = s.cmds := rfl
@[simp] theorem modCtx_drill (s : State) (n : Nat) (f : Ctx → Ctx) : (modCtx s n f).drill = s.drill := rfl
@[simp] theorem modCtx_reeve (s : State) (n : Nat) (f : Ctx → Ctx) : (modCtx s n f).reeve = s.reeve := rfl
@[simp] theorem modCtx_saved (s : State) (n : Nat) (f : Ctx → Ctx) : (modCtx s n f).saved = s.saved := rfl
@[simp] theorem modCtx_outputs (s : State) (n : Nat) (f : Ctx → Ctx) : (modCtx s n f).outputs = s.outputs := rfl
@[simp] theorem modCtx_dvl (s : State) (n : Nat) (f : Ctx → Ctx) : (modCtx s n f).dvl = s.dvl := rfl
@[simp] theorem modCtx_dvlWrites (s : State) (n : Nat) (f : Ctx → Ctx) : (modCtx s n f).dvlWrites = s.dvlWrites := rfl
@[simp] theorem modCtx_pcie (s : State) (n : Nat) (f : Ctx → Ctx) : (modCtx s n f).pcie = s.pcie := rfl
@[simp] theorem modCtx_mem (s : State) (n : Nat) (f : Ctx → Ctx) : (modCtx s n f).mem = s.mem := rfl
@[simp] theorem modCtx_memPoison (s : State) (n : Nat) (f : Ctx → Ctx) : (modCtx s n f).memPoison = s.memPoison := rfl
@[simp] theorem modCtx_msix (s : State) (n : Nat) (f : Ctx → Ctx) : (modCtx s n f).msix = s.msix := rfl

/-! ### modSched -/

@[simp] theorem modSched_sched (s : State) (f : Sched → Sched) : (modSched s f).sched = f s.sched := rfl
@[simp] theorem modSched_elems (s : State) (f : Sched → Sched) : (modSched s f).elems = s.elems := rfl
@[simp] theorem modSched_plots (s : State) (f : Sched → Sched) : (modSched s f).plots = s.plots := rfl
@[simp] theorem modSched_parcels (s : State) (f : Sched → Sched) : (modSched s f).parcels = s.parcels := rfl
@[simp] theorem modSched_dies (s : State) (f : Sched → Sched) : (modSched s f).dies = s.dies := rfl
@[simp] theorem modSched_ctxs (s : State) (f : Sched → Sched) : (modSched s f).ctxs = s.ctxs := rfl
@[simp] theorem modSched_faults (s : State) (f : Sched → Sched) : (modSched s f).faults = s.faults := rfl
@[simp] theorem modSched_reqs (s : State) (f : Sched → Sched) : (modSched s f).reqs = s.reqs := rfl
@[simp] theorem modSched_results (s : State) (f : Sched → Sched) : (modSched s f).results = s.results := rfl
@[simp] theorem modSched_les (s : State) (f : Sched → Sched) : (modSched s f).les = s.les := rfl
@[simp] theorem modSched_ses (s : State) (f : Sched → Sched) : (modSched s f).ses = s.ses := rfl
@[simp] theorem modSched_mes (s : State) (f : Sched → Sched) : (modSched s f).mes = s.mes := rfl
@[simp] theorem modSched_lines (s : State) (f : Sched → Sched) : (modSched s f).lines = s.lines := rfl
@[simp] theorem modSched_cmds (s : State) (f : Sched → Sched) : (modSched s f).cmds = s.cmds := rfl
@[simp] theorem modSched_drill (s : State) (f : Sched → Sched) : (modSched s f).drill = s.drill := rfl
@[simp] theorem modSched_reeve (s : State) (f : Sched → Sched) : (modSched s f).reeve = s.reeve := rfl
@[simp] theorem modSched_saved (s : State) (f : Sched → Sched) : (modSched s f).saved = s.saved := rfl
@[simp] theorem modSched_outputs (s : State) (f : Sched → Sched) : (modSched s f).outputs = s.outputs := rfl
@[simp] theorem modSched_dvl (s : State) (f : Sched → Sched) : (modSched s f).dvl = s.dvl := rfl
@[simp] theorem modSched_dvlWrites (s : State) (f : Sched → Sched) : (modSched s f).dvlWrites = s.dvlWrites := rfl
@[simp] theorem modSched_pcie (s : State) (f : Sched → Sched) : (modSched s f).pcie = s.pcie := rfl
@[simp] theorem modSched_mem (s : State) (f : Sched → Sched) : (modSched s f).mem = s.mem := rfl
@[simp] theorem modSched_memPoison (s : State) (f : Sched → Sched) : (modSched s f).memPoison = s.memPoison := rfl
@[simp] theorem modSched_msix (s : State) (f : Sched → Sched) : (modSched s f).msix = s.msix := rfl

/-! ### bumpId -/

@[simp] theorem bumpId_sched (s : State) : (bumpId s).sched = { s.sched with nextId := s.sched.nextId + 1 } := rfl
@[simp] theorem bumpId_elems (s : State) : (bumpId s).elems = s.elems := rfl
@[simp] theorem bumpId_plots (s : State) : (bumpId s).plots = s.plots := rfl
@[simp] theorem bumpId_parcels (s : State) : (bumpId s).parcels = s.parcels := rfl
@[simp] theorem bumpId_dies (s : State) : (bumpId s).dies = s.dies := rfl
@[simp] theorem bumpId_ctxs (s : State) : (bumpId s).ctxs = s.ctxs := rfl
@[simp] theorem bumpId_faults (s : State) : (bumpId s).faults = s.faults := rfl
@[simp] theorem bumpId_reqs (s : State) : (bumpId s).reqs = s.reqs := rfl
@[simp] theorem bumpId_results (s : State) : (bumpId s).results = s.results := rfl
@[simp] theorem bumpId_les (s : State) : (bumpId s).les = s.les := rfl
@[simp] theorem bumpId_ses (s : State) : (bumpId s).ses = s.ses := rfl
@[simp] theorem bumpId_mes (s : State) : (bumpId s).mes = s.mes := rfl
@[simp] theorem bumpId_lines (s : State) : (bumpId s).lines = s.lines := rfl
@[simp] theorem bumpId_cmds (s : State) : (bumpId s).cmds = s.cmds := rfl
@[simp] theorem bumpId_drill (s : State) : (bumpId s).drill = s.drill := rfl
@[simp] theorem bumpId_reeve (s : State) : (bumpId s).reeve = s.reeve := rfl
@[simp] theorem bumpId_saved (s : State) : (bumpId s).saved = s.saved := rfl
@[simp] theorem bumpId_outputs (s : State) : (bumpId s).outputs = s.outputs := rfl
@[simp] theorem bumpId_dvl (s : State) : (bumpId s).dvl = s.dvl := rfl
@[simp] theorem bumpId_dvlWrites (s : State) : (bumpId s).dvlWrites = s.dvlWrites := rfl
@[simp] theorem bumpId_pcie (s : State) : (bumpId s).pcie = s.pcie := rfl
@[simp] theorem bumpId_mem (s : State) : (bumpId s).mem = s.mem := rfl
@[simp] theorem bumpId_memPoison (s : State) : (bumpId s).memPoison = s.memPoison := rfl
@[simp] theorem bumpId_msix (s : State) : (bumpId s).msix = s.msix := rfl

/-! ### setFault -/

@[simp] theorem setFault_sched (s : State) (r : FaultRec) : (setFault s r).sched = s.sched := rfl
@[simp] theorem setFault_elems (s : State) (r : FaultRec) : (setFault s r).elems = s.elems := rfl
@[simp] theorem setFault_plots (s : State) (r : FaultRec) : (setFault s r).plots = s.plots := rfl
@[simp] theorem setFault_parcels (s : State) (r : FaultRec) : (setFault s r).parcels = s.parcels := rfl
@[simp] theorem setFault_dies (s : State) (r : FaultRec) : (setFault s r).dies = s.dies := rfl
@[simp] theorem setFault_ctxs (s : State) (r : FaultRec) : (setFault s r).ctxs = s.ctxs := rfl
@[simp] theorem setFault_faults (s : State) (r : FaultRec) : (setFault s r).faults = s.faults.map fun x => if x.id = r.id then r else x := rfl
@[simp] theorem setFault_reqs (s : State) (r : FaultRec) : (setFault s r).reqs = s.reqs := rfl
@[simp] theorem setFault_results (s : State) (r : FaultRec) : (setFault s r).results = s.results := rfl
@[simp] theorem setFault_les (s : State) (r : FaultRec) : (setFault s r).les = s.les := rfl
@[simp] theorem setFault_ses (s : State) (r : FaultRec) : (setFault s r).ses = s.ses := rfl
@[simp] theorem setFault_mes (s : State) (r : FaultRec) : (setFault s r).mes = s.mes := rfl
@[simp] theorem setFault_lines (s : State) (r : FaultRec) : (setFault s r).lines = s.lines := rfl
@[simp] theorem setFault_cmds (s : State) (r : FaultRec) : (setFault s r).cmds = s.cmds := rfl
@[simp] theorem setFault_drill (s : State) (r : FaultRec) : (setFault s r).drill = s.drill := rfl
@[simp] theorem setFault_reeve (s : State) (r : FaultRec) : (setFault s r).reeve = s.reeve := rfl
@[simp] theorem setFault_saved (s : State) (r : FaultRec) : (setFault s r).saved = s.saved := rfl
@[simp] theorem setFault_outputs (s : State) (r : FaultRec) : (setFault s r).outputs = s.outputs := rfl
@[simp] theorem setFault_dvl (s : State) (r : FaultRec) : (setFault s r).dvl = s.dvl := rfl
@[simp] theorem setFault_dvlWrites (s : State) (r : FaultRec) : (setFault s r).dvlWrites = s.dvlWrites := rfl
@[simp] theorem setFault_pcie (s : State) (r : FaultRec) : (setFault s r).pcie = s.pcie := rfl
@[simp] theorem setFault_mem (s : State) (r : FaultRec) : (setFault s r).mem = s.mem := rfl
@[simp] theorem setFault_memPoison (s : State) (r : FaultRec) : (setFault s r).memPoison = s.memPoison := rfl
@[simp] theorem setFault_msix (s : State) (r : FaultRec) : (setFault s r).msix = s.msix := rfl

/-! ### modReq -/

@[simp] theorem modReq_sched (s : State) (n : Nat) (f : Req → Req) : (modReq s n f).sched = s.sched := rfl
@[simp] theorem modReq_elems (s : State) (n : Nat) (f : Req → Req) : (modReq s n f).elems = s.elems := rfl
@[simp] theorem modReq_plots (s : State) (n : Nat) (f : Req → Req) : (modReq s n f).plots = s.plots := rfl
@[simp] theorem modReq_parcels (s : State) (n : Nat) (f : Req → Req) : (modReq s n f).parcels = s.parcels := rfl
@[simp] theorem modReq_dies (s : State) (n : Nat) (f : Req → Req) : (modReq s n f).dies = s.dies := rfl
@[simp] theorem modReq_ctxs (s : State) (n : Nat) (f : Req → Req) : (modReq s n f).ctxs = s.ctxs := rfl
@[simp] theorem modReq_faults (s : State) (n : Nat) (f : Req → Req) : (modReq s n f).faults = s.faults := rfl
@[simp] theorem modReq_reqs (s : State) (n : Nat) (f : Req → Req) : (modReq s n f).reqs = s.reqs.map fun r => if r.id = n then f r else r := rfl
@[simp] theorem modReq_results (s : State) (n : Nat) (f : Req → Req) : (modReq s n f).results = s.results := rfl
@[simp] theorem modReq_les (s : State) (n : Nat) (f : Req → Req) : (modReq s n f).les = s.les := rfl
@[simp] theorem modReq_ses (s : State) (n : Nat) (f : Req → Req) : (modReq s n f).ses = s.ses := rfl
@[simp] theorem modReq_mes (s : State) (n : Nat) (f : Req → Req) : (modReq s n f).mes = s.mes := rfl
@[simp] theorem modReq_lines (s : State) (n : Nat) (f : Req → Req) : (modReq s n f).lines = s.lines := rfl
@[simp] theorem modReq_cmds (s : State) (n : Nat) (f : Req → Req) : (modReq s n f).cmds = s.cmds := rfl
@[simp] theorem modReq_drill (s : State) (n : Nat) (f : Req → Req) : (modReq s n f).drill = s.drill := rfl
@[simp] theorem modReq_reeve (s : State) (n : Nat) (f : Req → Req) : (modReq s n f).reeve = s.reeve := rfl
@[simp] theorem modReq_saved (s : State) (n : Nat) (f : Req → Req) : (modReq s n f).saved = s.saved := rfl
@[simp] theorem modReq_outputs (s : State) (n : Nat) (f : Req → Req) : (modReq s n f).outputs = s.outputs := rfl
@[simp] theorem modReq_dvl (s : State) (n : Nat) (f : Req → Req) : (modReq s n f).dvl = s.dvl := rfl
@[simp] theorem modReq_dvlWrites (s : State) (n : Nat) (f : Req → Req) : (modReq s n f).dvlWrites = s.dvlWrites := rfl
@[simp] theorem modReq_pcie (s : State) (n : Nat) (f : Req → Req) : (modReq s n f).pcie = s.pcie := rfl
@[simp] theorem modReq_mem (s : State) (n : Nat) (f : Req → Req) : (modReq s n f).mem = s.mem := rfl
@[simp] theorem modReq_memPoison (s : State) (n : Nat) (f : Req → Req) : (modReq s n f).memPoison = s.memPoison := rfl
@[simp] theorem modReq_msix (s : State) (n : Nat) (f : Req → Req) : (modReq s n f).msix = s.msix := rfl

/-! ### dropReq -/

@[simp] theorem dropReq_sched (s : State) (n : Nat) : (dropReq s n).sched = s.sched := rfl
@[simp] theorem dropReq_elems (s : State) (n : Nat) : (dropReq s n).elems = s.elems := rfl
@[simp] theorem dropReq_plots (s : State) (n : Nat) : (dropReq s n).plots = s.plots := rfl
@[simp] theorem dropReq_parcels (s : State) (n : Nat) : (dropReq s n).parcels = s.parcels := rfl
@[simp] theorem dropReq_dies (s : State) (n : Nat) : (dropReq s n).dies = s.dies := rfl
@[simp] theorem dropReq_ctxs (s : State) (n : Nat) : (dropReq s n).ctxs = s.ctxs := rfl
@[simp] theorem dropReq_faults (s : State) (n : Nat) : (dropReq s n).faults = s.faults := rfl
@[simp] theorem dropReq_reqs (s : State) (n : Nat) : (dropReq s n).reqs = s.reqs.filter fun r => r.id != n := rfl
@[simp] theorem dropReq_results (s : State) (n : Nat) : (dropReq s n).results = s.results := rfl
@[simp] theorem dropReq_les (s : State) (n : Nat) : (dropReq s n).les = s.les := rfl
@[simp] theorem dropReq_ses (s : State) (n : Nat) : (dropReq s n).ses = s.ses := rfl
@[simp] theorem dropReq_mes (s : State) (n : Nat) : (dropReq s n).mes = s.mes := rfl
@[simp] theorem dropReq_lines (s : State) (n : Nat) : (dropReq s n).lines = s.lines := rfl
@[simp] theorem dropReq_cmds (s : State) (n : Nat) : (dropReq s n).cmds = s.cmds := rfl
@[simp] theorem dropReq_drill (s : State) (n : Nat) : (dropReq s n).drill = s.drill := rfl
@[simp] theorem dropReq_reeve (s : State) (n : Nat) : (dropReq s n).reeve = s.reeve := rfl
@[simp] theorem dropReq_saved (s : State) (n : Nat) : (dropReq s n).saved = s.saved := rfl
@[simp] theorem dropReq_outputs (s : State) (n : Nat) : (dropReq s n).outputs = s.outputs := rfl
@[simp] theorem dropReq_dvl (s : State) (n : Nat) : (dropReq s n).dvl = s.dvl := rfl
@[simp] theorem dropReq_dvlWrites (s : State) (n : Nat) : (dropReq s n).dvlWrites = s.dvlWrites := rfl
@[simp] theorem dropReq_pcie (s : State) (n : Nat) : (dropReq s n).pcie = s.pcie := rfl
@[simp] theorem dropReq_mem (s : State) (n : Nat) : (dropReq s n).mem = s.mem := rfl
@[simp] theorem dropReq_memPoison (s : State) (n : Nat) : (dropReq s n).memPoison = s.memPoison := rfl
@[simp] theorem dropReq_msix (s : State) (n : Nat) : (dropReq s n).msix = s.msix := rfl

/-! ### modCmd -/

@[simp] theorem modCmd_sched (s : State) (n : Nat) (f : Cmd → Cmd) : (modCmd s n f).sched = s.sched := rfl
@[simp] theorem modCmd_elems (s : State) (n : Nat) (f : Cmd → Cmd) : (modCmd s n f).elems = s.elems := rfl
@[simp] theorem modCmd_plots (s : State) (n : Nat) (f : Cmd → Cmd) : (modCmd s n f).plots = s.plots := rfl
@[simp] theorem modCmd_parcels (s : State) (n : Nat) (f : Cmd → Cmd) : (modCmd s n f).parcels = s.parcels := rfl
@[simp] theorem modCmd_dies (s : State) (n : Nat) (f : Cmd → Cmd) : (modCmd s n f).dies = s.dies := rfl
@[simp] theorem modCmd_ctxs (s : State) (n : Nat) (f : Cmd → Cmd) : (modCmd s n f).ctxs = s.ctxs := rfl
@[simp] theorem modCmd_faults (s : State) (n : Nat) (f : Cmd → Cmd) : (modCmd s n f).faults = s.faults := rfl
@[simp] theorem modCmd_reqs (s : State) (n : Nat) (f : Cmd → Cmd) : (modCmd s n f).reqs = s.reqs := rfl
@[simp] theorem modCmd_results (s : State) (n : Nat) (f : Cmd → Cmd) : (modCmd s n f).results = s.results := rfl
@[simp] theorem modCmd_les (s : State) (n : Nat) (f : Cmd → Cmd) : (modCmd s n f).les = s.les := rfl
@[simp] theorem modCmd_ses (s : State) (n : Nat) (f : Cmd → Cmd) : (modCmd s n f).ses = s.ses := rfl
@[simp] theorem modCmd_mes (s : State) (n : Nat) (f : Cmd → Cmd) : (modCmd s n f).mes = s.mes := rfl
@[simp] theorem modCmd_lines (s : State) (n : Nat) (f : Cmd → Cmd) : (modCmd s n f).lines = s.lines := rfl
@[simp] theorem modCmd_cmds (s : State) (n : Nat) (f : Cmd → Cmd) : (modCmd s n f).cmds = s.cmds.map fun c => if c.id = n then f c else c := rfl
@[simp] theorem modCmd_drill (s : State) (n : Nat) (f : Cmd → Cmd) : (modCmd s n f).drill = s.drill := rfl
@[simp] theorem modCmd_reeve (s : State) (n : Nat) (f : Cmd → Cmd) : (modCmd s n f).reeve = s.reeve := rfl
@[simp] theorem modCmd_saved (s : State) (n : Nat) (f : Cmd → Cmd) : (modCmd s n f).saved = s.saved := rfl
@[simp] theorem modCmd_outputs (s : State) (n : Nat) (f : Cmd → Cmd) : (modCmd s n f).outputs = s.outputs := rfl
@[simp] theorem modCmd_dvl (s : State) (n : Nat) (f : Cmd → Cmd) : (modCmd s n f).dvl = s.dvl := rfl
@[simp] theorem modCmd_dvlWrites (s : State) (n : Nat) (f : Cmd → Cmd) : (modCmd s n f).dvlWrites = s.dvlWrites := rfl
@[simp] theorem modCmd_pcie (s : State) (n : Nat) (f : Cmd → Cmd) : (modCmd s n f).pcie = s.pcie := rfl
@[simp] theorem modCmd_mem (s : State) (n : Nat) (f : Cmd → Cmd) : (modCmd s n f).mem = s.mem := rfl
@[simp] theorem modCmd_memPoison (s : State) (n : Nat) (f : Cmd → Cmd) : (modCmd s n f).memPoison = s.memPoison := rfl
@[simp] theorem modCmd_msix (s : State) (n : Nat) (f : Cmd → Cmd) : (modCmd s n f).msix = s.msix := rfl

/-! ### dropLine -/

@[simp] theorem dropLine_sched (s : State) (n : Nat) : (dropLine s n).sched = s.sched := by unfold dropLine; split <;> rfl
@[simp] theorem dropLine_elems (s : State) (n : Nat) : (dropLine s n).elems = s.elems := by unfold dropLine; split <;> rfl
@[simp] theorem dropLine_parcels (s : State) (n : Nat) : (dropLine s n).parcels = s.parcels := by unfold dropLine; split <;> rfl
@[simp] theorem dropLine_dies (s : State) (n : Nat) : (dropLine s n).dies = s.dies := by unfold dropLine; split <;> rfl
@[simp] theorem dropLine_ctxs (s : State) (n : Nat) : (dropLine s n).ctxs = s.ctxs := by unfold dropLine; split <;> rfl
@[simp] theorem dropLine_faults (s : State) (n : Nat) : (dropLine s n).faults = s.faults := by unfold dropLine; split <;> rfl
@[simp] theorem dropLine_reqs (s : State) (n : Nat) : (dropLine s n).reqs = s.reqs := by unfold dropLine; split <;> rfl
@[simp] theorem dropLine_results (s : State) (n : Nat) : (dropLine s n).results = s.results := by unfold dropLine; split <;> rfl
@[simp] theorem dropLine_les (s : State) (n : Nat) : (dropLine s n).les = s.les := by unfold dropLine; split <;> rfl
@[simp] theorem dropLine_ses (s : State) (n : Nat) : (dropLine s n).ses = s.ses := by unfold dropLine; split <;> rfl
@[simp] theorem dropLine_mes (s : State) (n : Nat) : (dropLine s n).mes = s.mes := by unfold dropLine; split <;> rfl
@[simp] theorem dropLine_cmds (s : State) (n : Nat) : (dropLine s n).cmds = s.cmds := by unfold dropLine; split <;> rfl
@[simp] theorem dropLine_drill (s : State) (n : Nat) : (dropLine s n).drill = s.drill := by unfold dropLine; split <;> rfl
@[simp] theorem dropLine_reeve (s : State) (n : Nat) : (dropLine s n).reeve = s.reeve := by unfold dropLine; split <;> rfl
@[simp] theorem dropLine_saved (s : State) (n : Nat) : (dropLine s n).saved = s.saved := by unfold dropLine; split <;> rfl
@[simp] theorem dropLine_outputs (s : State) (n : Nat) : (dropLine s n).outputs = s.outputs := by unfold dropLine; split <;> rfl
@[simp] theorem dropLine_dvl (s : State) (n : Nat) : (dropLine s n).dvl = s.dvl := by unfold dropLine; split <;> rfl
@[simp] theorem dropLine_dvlWrites (s : State) (n : Nat) : (dropLine s n).dvlWrites = s.dvlWrites := by unfold dropLine; split <;> rfl
@[simp] theorem dropLine_pcie (s : State) (n : Nat) : (dropLine s n).pcie = s.pcie := by unfold dropLine; split <;> rfl
@[simp] theorem dropLine_mem (s : State) (n : Nat) : (dropLine s n).mem = s.mem := by unfold dropLine; split <;> rfl
@[simp] theorem dropLine_memPoison (s : State) (n : Nat) : (dropLine s n).memPoison = s.memPoison := by unfold dropLine; split <;> rfl
@[simp] theorem dropLine_msix (s : State) (n : Nat) : (dropLine s n).msix = s.msix := by unfold dropLine; split <;> rfl

/-! ### modRq -/

@[simp] theorem modRq_sched (s : State) (l : Loc) (n : Nat) (f : RqEntry → RqEntry) : (modRq s l n f).sched = s.sched := rfl
@[simp] theorem modRq_elems (s : State) (l : Loc) (n : Nat) (f : RqEntry → RqEntry) : (modRq s l n f).elems = Tbl.put s.elems (locKey l) { getElem s l with rq := Tbl.alter (getElem s l).rq n f } := rfl
@[simp] theorem modRq_plots (s : State) (l : Loc) (n : Nat) (f : RqEntry → RqEntry) : (modRq s l n f).plots = s.plots := rfl
@[simp] theorem modRq_parcels (s : State) (l : Loc) (n : Nat) (f : RqEntry → RqEntry) : (modRq s l n f).parcels = s.parcels := rfl
@[simp] theorem modRq_dies (s : State) (l : Loc) (n : Nat) (f : RqEntry → RqEntry) : (modRq s l n f).dies = s.dies := rfl
@[simp] theorem modRq_ctxs (s : State) (l : Loc) (n : Nat) (f : RqEntry → RqEntry) : (modRq s l n f).ctxs = s.ctxs := rfl
@[simp] theorem modRq_faults (s : State) (l : Loc) (n : Nat) (f : RqEntry → RqEntry) : (modRq s l n f).faults = s.faults := rfl
@[simp] theorem modRq_reqs (s : State) (l : Loc) (n : Nat) (f : RqEntry → RqEntry) : (modRq s l n f).reqs = s.reqs := rfl
@[simp] theorem modRq_results (s : State) (l : Loc) (n : Nat) (f : RqEntry → RqEntry) : (modRq s l n f).results = s.results := rfl
@[simp] theorem modRq_les (s : State) (l : Loc) (n : Nat) (f : RqEntry → RqEntry) : (modRq s l n f).les = s.les := rfl
@[simp] theorem modRq_ses (s : State) (l : Loc) (n : Nat) (f : RqEntry → RqEntry) : (modRq s l n f).ses = s.ses := rfl
@[simp] theorem modRq_mes (s : State) (l : Loc) (n : Nat) (f : RqEntry → RqEntry) : (modRq s l n f).mes = s.mes := rfl
@[simp] theorem modRq_lines (s : State) (l : Loc) (n : Nat) (f : RqEntry → RqEntry) : (modRq s l n f).lines = s.lines := rfl
@[simp] theorem modRq_cmds (s : State) (l : Loc) (n : Nat) (f : RqEntry → RqEntry) : (modRq s l n f).cmds = s.cmds := rfl
@[simp] theorem modRq_drill (s : State) (l : Loc) (n : Nat) (f : RqEntry → RqEntry) : (modRq s l n f).drill = s.drill := rfl
@[simp] theorem modRq_reeve (s : State) (l : Loc) (n : Nat) (f : RqEntry → RqEntry) : (modRq s l n f).reeve = s.reeve := rfl
@[simp] theorem modRq_saved (s : State) (l : Loc) (n : Nat) (f : RqEntry → RqEntry) : (modRq s l n f).saved = s.saved := rfl
@[simp] theorem modRq_outputs (s : State) (l : Loc) (n : Nat) (f : RqEntry → RqEntry) : (modRq s l n f).outputs = s.outputs := rfl
@[simp] theorem modRq_dvl (s : State) (l : Loc) (n : Nat) (f : RqEntry → RqEntry) : (modRq s l n f).dvl = s.dvl := rfl
@[simp] theorem modRq_dvlWrites (s : State) (l : Loc) (n : Nat) (f : RqEntry → RqEntry) : (modRq s l n f).dvlWrites = s.dvlWrites := rfl
@[simp] theorem modRq_pcie (s : State) (l : Loc) (n : Nat) (f : RqEntry → RqEntry) : (modRq s l n f).pcie = s.pcie := rfl
@[simp] theorem modRq_mem (s : State) (l : Loc) (n : Nat) (f : RqEntry → RqEntry) : (modRq s l n f).mem = s.mem := rfl
@[simp] theorem modRq_memPoison (s : State) (l : Loc) (n : Nat) (f : RqEntry → RqEntry) : (modRq s l n f).memPoison = s.memPoison := rfl
@[simp] theorem modRq_msix (s : State) (l : Loc) (n : Nat) (f : RqEntry → RqEntry) : (modRq s l n f).msix = s.msix := rfl

/-! ### memWrite -/

@[simp] theorem memWrite_sched (s : State) (a : Nat) (bs : List Byte) : (memWrite s a bs).sched = s.sched := rfl
@[simp] theorem memWrite_elems (s : State) (a : Nat) (bs : List Byte) : (memWrite s a bs).elems = s.elems := rfl
@[simp] theorem memWrite_plots (s : State) (a : Nat) (bs : List Byte) : (memWrite s a bs).plots = s.plots := rfl
@[simp] theorem memWrite_parcels (s : State) (a : Nat) (bs : List Byte) : (memWrite s a bs).parcels = s.parcels := rfl
@[simp] theorem memWrite_dies (s : State) (a : Nat) (bs : List Byte) : (memWrite s a bs).dies = s.dies := rfl
@[simp] theorem memWrite_ctxs (s : State) (a : Nat) (bs : List Byte) : (memWrite s a bs).ctxs = s.ctxs := rfl
@[simp] theorem memWrite_faults (s : State) (a : Nat) (bs : List Byte) : (memWrite s a bs).faults = s.faults := rfl
@[simp] theorem memWrite_reqs (s : State) (a : Nat) (bs : List Byte) : (memWrite s a bs).reqs = s.reqs := rfl
@[simp] theorem memWrite_results (s : State) (a : Nat) (bs : List Byte) : (memWrite s a bs).results = s.results := rfl
@[simp] theorem memWrite_les (s : State) (a : Nat) (bs : List Byte) : (memWrite s a bs).les = s.les := rfl
@[simp] theorem memWrite_ses (s : State) (a : Nat) (bs : List Byte) : (memWrite s a bs).ses = s.ses := rfl
@[simp] theorem memWrite_mes (s : State) (a : Nat) (bs : List Byte) : (memWrite s a bs).mes = s.mes := rfl
@[simp] theorem memWrite_lines (s : State) (a : Nat) (bs : List Byte) : (memWrite s a bs).lines = s.lines := rfl
@[simp] theorem memWrite_cmds (s : State) (a : Nat) (bs : List Byte) : (memWrite s a bs).cmds = s.cmds := rfl
@[simp] theorem memWrite_drill (s : State) (a : Nat) (bs : List Byte) : (memWrite s a bs).drill = s.drill := rfl
@[simp] theorem memWrite_reeve (s : State) (a : Nat) (bs : List Byte) : (memWrite s a bs).reeve = s.reeve := rfl
@[simp] theorem memWrite_saved (s : State) (a : Nat) (bs : List Byte) : (memWrite s a bs).saved = s.saved := rfl
@[simp] theorem memWrite_outputs (s : State) (a : Nat) (bs : List Byte) : (memWrite s a bs).outputs = s.outputs := rfl
@[simp] theorem memWrite_dvl (s : State) (a : Nat) (bs : List Byte) : (memWrite s a bs).dvl = s.dvl := rfl
@[simp] theorem memWrite_dvlWrites (s : State) (a : Nat) (bs : List Byte) : (memWrite s a bs).dvlWrites = s.dvlWrites := rfl
@[simp] theorem memWrite_pcie (s : State) (a : Nat) (bs : List Byte) : (memWrite s a bs).pcie = s.pcie := rfl
@[simp] theorem memWrite_mem (s : State) (a : Nat) (bs : List Byte) : (memWrite s a bs).mem = writeBytes s.mem a bs := rfl
@[simp] theorem memWrite_memPoison (s : State) (a : Nat) (bs : List Byte) : (memWrite s a bs).memPoison = clearPoison s.memPoison a bs.length := rfl
@[simp] theorem memWrite_msix (s : State) (a : Nat) (bs : List Byte) : (memWrite s a bs).msix = s.msix := rfl

/-! ### raiseMsix -/

@[simp] theorem raiseMsix_sched (s : State) (fn vec : Nat) : (raiseMsix s fn vec).sched = s.sched := rfl
@[simp] theorem raiseMsix_elems (s : State) (fn vec : Nat) : (raiseMsix s fn vec).elems = s.elems := rfl
@[simp] theorem raiseMsix_plots (s : State) (fn vec : Nat) : (raiseMsix s fn vec).plots = s.plots := rfl
@[simp] theorem raiseMsix_parcels (s : State) (fn vec : Nat) : (raiseMsix s fn vec).parcels = s.parcels := rfl
@[simp] theorem raiseMsix_dies (s : State) (fn vec : Nat) : (raiseMsix s fn vec).dies = s.dies := rfl
@[simp] theorem raiseMsix_ctxs (s : State) (fn vec : Nat) : (raiseMsix s fn vec).ctxs = s.ctxs := rfl
@[simp] theorem raiseMsix_faults (s : State) (fn vec : Nat) : (raiseMsix s fn vec).faults = s.faults := rfl
@[simp] theorem raiseMsix_reqs (s : State) (fn vec : Nat) : (raiseMsix s fn vec).reqs = s.reqs := rfl
@[simp] theorem raiseMsix_results (s : State) (fn vec : Nat) : (raiseMsix s fn vec).results = s.results := rfl
@[simp] theorem raiseMsix_les (s : State) (fn vec : Nat) : (raiseMsix s fn vec).les = s.les := rfl
@[simp] theorem raiseMsix_ses (s : State) (fn vec : Nat) : (raiseMsix s fn vec).ses = s.ses := rfl
@[simp] theorem raiseMsix_mes (s : State) (fn vec : Nat) : (raiseMsix s fn vec).mes = s.mes := rfl
@[simp] theorem raiseMsix_lines (s : State) (fn vec : Nat) : (raiseMsix s fn vec).lines = s.lines := rfl
@[simp] theorem raiseMsix_cmds (s : State) (fn vec : Nat) : (raiseMsix s fn vec).cmds = s.cmds := rfl
@[simp] theorem raiseMsix_drill (s : State) (fn vec : Nat) : (raiseMsix s fn vec).drill = s.drill := rfl
@[simp] theorem raiseMsix_reeve (s : State) (fn vec : Nat) : (raiseMsix s fn vec).reeve = s.reeve := rfl
@[simp] theorem raiseMsix_saved (s : State) (fn vec : Nat) : (raiseMsix s fn vec).saved = s.saved := rfl
@[simp] theorem raiseMsix_outputs (s : State) (fn vec : Nat) : (raiseMsix s fn vec).outputs = s.outputs := rfl
@[simp] theorem raiseMsix_dvl (s : State) (fn vec : Nat) : (raiseMsix s fn vec).dvl = s.dvl := rfl
@[simp] theorem raiseMsix_dvlWrites (s : State) (fn vec : Nat) : (raiseMsix s fn vec).dvlWrites = s.dvlWrites := rfl
@[simp] theorem raiseMsix_pcie (s : State) (fn vec : Nat) : (raiseMsix s fn vec).pcie = s.pcie := rfl
@[simp] theorem raiseMsix_mem (s : State) (fn vec : Nat) : (raiseMsix s fn vec).mem = s.mem := rfl
@[simp] theorem raiseMsix_memPoison (s : State) (fn vec : Nat) : (raiseMsix s fn vec).memPoison = s.memPoison := rfl
@[simp] theorem raiseMsix_msix (s : State) (fn vec : Nat) : (raiseMsix s fn vec).msix = s.msix ++ [(fn, vec, now s)] := rfl

/-! ### modLe -/

@[simp] theorem modLe_sched (s : State) (l : Loc) (f : LeUnit → LeUnit) : (modLe s l f).sched = s.sched := rfl
@[simp] theorem modLe_elems (s : State) (l : Loc) (f : LeUnit → LeUnit) : (modLe s l f).elems = s.elems := rfl
@[simp] theorem modLe_plots (s : State) (l : Loc) (f : LeUnit → LeUnit) : (modLe s l f).plots = s.plots := rfl
@[simp] theorem modLe_parcels (s : State) (l : Loc) (f : LeUnit → LeUnit) : (modLe s l f).parcels = s.parcels := rfl
@[simp] theorem modLe_dies (s : State) (l : Loc) (f : LeUnit → LeUnit) : (modLe s l f).dies = s.dies := rfl
@[simp] theorem modLe_ctxs (s : State) (l : Loc) (f : LeUnit → LeUnit) : (modLe s l f).ctxs = s.ctxs := rfl
@[simp] theorem modLe_faults (s : State) (l : Loc) (f : LeUnit → LeUnit) : (modLe s l f).faults = s.faults := rfl
@[simp] theorem modLe_reqs (s : State) (l : Loc) (f : LeUnit → LeUnit) : (modLe s l f).reqs = s.reqs := rfl
@[simp] theorem modLe_results (s : State) (l : Loc) (f : LeUnit → LeUnit) : (modLe s l f).results = s.results := rfl
@[simp] theorem modLe_les (s : State) (l : Loc) (f : LeUnit → LeUnit) : (modLe s l f).les = Tbl.put s.les (locKey l) (f (getLe s l)) := rfl
@[simp] theorem modLe_ses (s : State) (l : Loc) (f : LeUnit → LeUnit) : (modLe s l f).ses = s.ses := rfl
@[simp] theorem modLe_mes (s : State) (l : Loc) (f : LeUnit → LeUnit) : (modLe s l f).mes = s.mes := rfl
@[simp] theorem modLe_lines (s : State) (l : Loc) (f : LeUnit → LeUnit) : (modLe s l f).lines = s.lines := rfl
@[simp] theorem modLe_cmds (s : State) (l : Loc) (f : LeUnit → LeUnit) : (modLe s l f).cmds = s.cmds := rfl
@[simp] theorem modLe_drill (s : State) (l : Loc) (f : LeUnit → LeUnit) : (modLe s l f).drill = s.drill := rfl
@[simp] theorem modLe_reeve (s : State) (l : Loc) (f : LeUnit → LeUnit) : (modLe s l f).reeve = s.reeve := rfl
@[simp] theorem modLe_saved (s : State) (l : Loc) (f : LeUnit → LeUnit) : (modLe s l f).saved = s.saved := rfl
@[simp] theorem modLe_outputs (s : State) (l : Loc) (f : LeUnit → LeUnit) : (modLe s l f).outputs = s.outputs := rfl
@[simp] theorem modLe_dvl (s : State) (l : Loc) (f : LeUnit → LeUnit) : (modLe s l f).dvl = s.dvl := rfl
@[simp] theorem modLe_dvlWrites (s : State) (l : Loc) (f : LeUnit → LeUnit) : (modLe s l f).dvlWrites = s.dvlWrites := rfl
@[simp] theorem modLe_pcie (s : State) (l : Loc) (f : LeUnit → LeUnit) : (modLe s l f).pcie = s.pcie := rfl
@[simp] theorem modLe_mem (s : State) (l : Loc) (f : LeUnit → LeUnit) : (modLe s l f).mem = s.mem := rfl
@[simp] theorem modLe_memPoison (s : State) (l : Loc) (f : LeUnit → LeUnit) : (modLe s l f).memPoison = s.memPoison := rfl
@[simp] theorem modLe_msix (s : State) (l : Loc) (f : LeUnit → LeUnit) : (modLe s l f).msix = s.msix := rfl

/-! ### modSe -/

@[simp] theorem modSe_sched (s : State) (l : Loc) (f : SeUnit → SeUnit) : (modSe s l f).sched = s.sched := rfl
@[simp] theorem modSe_elems (s : State) (l : Loc) (f : SeUnit → SeUnit) : (modSe s l f).elems = s.elems := rfl
@[simp] theorem modSe_plots (s : State) (l : Loc) (f : SeUnit → SeUnit) : (modSe s l f).plots = s.plots := rfl
@[simp] theorem modSe_parcels (s : State) (l : Loc) (f : SeUnit → SeUnit) : (modSe s l f).parcels = s.parcels := rfl
@[simp] theorem modSe_dies (s : State) (l : Loc) (f : SeUnit → SeUnit) : (modSe s l f).dies = s.dies := rfl
@[simp] theorem modSe_ctxs (s : State) (l : Loc) (f : SeUnit → SeUnit) : (modSe s l f).ctxs = s.ctxs := rfl
@[simp] theorem modSe_faults (s : State) (l : Loc) (f : SeUnit → SeUnit) : (modSe s l f).faults = s.faults := rfl
@[simp] theorem modSe_reqs (s : State) (l : Loc) (f : SeUnit → SeUnit) : (modSe s l f).reqs = s.reqs := rfl
@[simp] theorem modSe_results (s : State) (l : Loc) (f : SeUnit → SeUnit) : (modSe s l f).results = s.results := rfl
@[simp] theorem modSe_les (s : State) (l : Loc) (f : SeUnit → SeUnit) : (modSe s l f).les = s.les := rfl
@[simp] theorem modSe_ses (s : State) (l : Loc) (f : SeUnit → SeUnit) : (modSe s l f).ses = Tbl.put s.ses (locKey l) (f (getSe s l)) := rfl
@[simp] theorem modSe_mes (s : State) (l : Loc) (f : SeUnit → SeUnit) : (modSe s l f).mes = s.mes := rfl
@[simp] theorem modSe_lines (s : State) (l : Loc) (f : SeUnit → SeUnit) : (modSe s l f).lines = s.lines := rfl
@[simp] theorem modSe_cmds (s : State) (l : Loc) (f : SeUnit → SeUnit) : (modSe s l f).cmds = s.cmds := rfl
@[simp] theorem modSe_drill (s : State) (l : Loc) (f : SeUnit → SeUnit) : (modSe s l f).drill = s.drill := rfl
@[simp] theorem modSe_reeve (s : State) (l : Loc) (f : SeUnit → SeUnit) : (modSe s l f).reeve = s.reeve := rfl
@[simp] theorem modSe_saved (s : State) (l : Loc) (f : SeUnit → SeUnit) : (modSe s l f).saved = s.saved := rfl
@[simp] theorem modSe_outputs (s : State) (l : Loc) (f : SeUnit → SeUnit) : (modSe s l f).outputs = s.outputs := rfl
@[simp] theorem modSe_dvl (s : State) (l : Loc) (f : SeUnit → SeUnit) : (modSe s l f).dvl = s.dvl := rfl
@[simp] theorem modSe_dvlWrites (s : State) (l : Loc) (f : SeUnit → SeUnit) : (modSe s l f).dvlWrites = s.dvlWrites := rfl
@[simp] theorem modSe_pcie (s : State) (l : Loc) (f : SeUnit → SeUnit) : (modSe s l f).pcie = s.pcie := rfl
@[simp] theorem modSe_mem (s : State) (l : Loc) (f : SeUnit → SeUnit) : (modSe s l f).mem = s.mem := rfl
@[simp] theorem modSe_memPoison (s : State) (l : Loc) (f : SeUnit → SeUnit) : (modSe s l f).memPoison = s.memPoison := rfl
@[simp] theorem modSe_msix (s : State) (l : Loc) (f : SeUnit → SeUnit) : (modSe s l f).msix = s.msix := rfl

/-! ### modMe -/

@[simp] theorem modMe_sched (s : State) (l : Loc) (f : MeUnit → MeUnit) : (modMe s l f).sched = s.sched := rfl
@[simp] theorem modMe_elems (s : State) (l : Loc) (f : MeUnit → MeUnit) : (modMe s l f).elems = s.elems := rfl
@[simp] theorem modMe_plots (s : State) (l : Loc) (f : MeUnit → MeUnit) : (modMe s l f).plots = s.plots := rfl
@[simp] theorem modMe_parcels (s : State) (l : Loc) (f : MeUnit → MeUnit) : (modMe s l f).parcels = s.parcels := rfl
@[simp] theorem modMe_dies (s : State) (l : Loc) (f : MeUnit → MeUnit) : (modMe s l f).dies = s.dies := rfl
@[simp] theorem modMe_ctxs (s : State) (l : Loc) (f : MeUnit → MeUnit) : (modMe s l f).ctxs = s.ctxs := rfl
@[simp] theorem modMe_faults (s : State) (l : Loc) (f : MeUnit → MeUnit) : (modMe s l f).faults = s.faults := rfl
@[simp] theorem modMe_reqs (s : State) (l : Loc) (f : MeUnit → MeUnit) : (modMe s l f).reqs = s.reqs := rfl
@[simp] theorem modMe_results (s : State) (l : Loc) (f : MeUnit → MeUnit) : (modMe s l f).results = s.results := rfl
@[simp] theorem modMe_les (s : State) (l : Loc) (f : MeUnit → MeUnit) : (modMe s l f).les = s.les := rfl
@[simp] theorem modMe_ses (s : State) (l : Loc) (f : MeUnit → MeUnit) : (modMe s l f).ses = s.ses := rfl
@[simp] theorem modMe_mes (s : State) (l : Loc) (f : MeUnit → MeUnit) : (modMe s l f).mes = Tbl.put s.mes (locKey l) (f (getMe s l)) := rfl
@[simp] theorem modMe_lines (s : State) (l : Loc) (f : MeUnit → MeUnit) : (modMe s l f).lines = s.lines := rfl
@[simp] theorem modMe_cmds (s : State) (l : Loc) (f : MeUnit → MeUnit) : (modMe s l f).cmds = s.cmds := rfl
@[simp] theorem modMe_drill (s : State) (l : Loc) (f : MeUnit → MeUnit) : (modMe s l f).drill = s.drill := rfl
@[simp] theorem modMe_reeve (s : State) (l : Loc) (f : MeUnit → MeUnit) : (modMe s l f).reeve = s.reeve := rfl
@[simp] theorem modMe_saved (s : State) (l : Loc) (f : MeUnit → MeUnit) : (modMe s l f).saved = s.saved := rfl
@[simp] theorem modMe_outputs (s : State) (l : Loc) (f : MeUnit → MeUnit) : (modMe s l f).outputs = s.outputs := rfl
@[simp] theorem modMe_dvl (s : State) (l : Loc) (f : MeUnit → MeUnit) : (modMe s l f).dvl = s.dvl := rfl
@[simp] theorem modMe_dvlWrites (s : State) (l : Loc) (f : MeUnit → MeUnit) : (modMe s l f).dvlWrites = s.dvlWrites := rfl
@[simp] theorem modMe_pcie (s : State) (l : Loc) (f : MeUnit → MeUnit) : (modMe s l f).pcie = s.pcie := rfl
@[simp] theorem modMe_mem (s : State) (l : Loc) (f : MeUnit → MeUnit) : (modMe s l f).mem = s.mem := rfl
@[simp] theorem modMe_memPoison (s : State) (l : Loc) (f : MeUnit → MeUnit) : (modMe s l f).memPoison = s.memPoison := rfl
@[simp] theorem modMe_msix (s : State) (l : Loc) (f : MeUnit → MeUnit) : (modMe s l f).msix = s.msix := rfl

/-! ### modDrill -/

@[simp] theorem modDrill_sched (s : State) (f : Drill → Drill) : (modDrill s f).sched = s.sched := rfl
@[simp] theorem modDrill_elems (s : State) (f : Drill → Drill) : (modDrill s f).elems = s.elems := rfl
@[simp] theorem modDrill_plots (s : State) (f : Drill → Drill) : (modDrill s f).plots = s.plots := rfl
@[simp] theorem modDrill_parcels (s : State) (f : Drill → Drill) : (modDrill s f).parcels = s.parcels := rfl
@[simp] theorem modDrill_dies (s : State) (f : Drill → Drill) : (modDrill s f).dies = s.dies := rfl
@[simp] theorem modDrill_ctxs (s : State) (f : Drill → Drill) : (modDrill s f).ctxs = s.ctxs := rfl
@[simp] theorem modDrill_faults (s : State) (f : Drill → Drill) : (modDrill s f).faults = s.faults := rfl
@[simp] theorem modDrill_reqs (s : State) (f : Drill → Drill) : (modDrill s f).reqs = s.reqs := rfl
@[simp] theorem modDrill_results (s : State) (f : Drill → Drill) : (modDrill s f).results = s.results := rfl
@[simp] theorem modDrill_les (s : State) (f : Drill → Drill) : (modDrill s f).les = s.les := rfl
@[simp] theorem modDrill_ses (s : State) (f : Drill → Drill) : (modDrill s f).ses = s.ses := rfl
@[simp] theorem modDrill_mes (s : State) (f : Drill → Drill) : (modDrill s f).mes = s.mes := rfl
@[simp] theorem modDrill_lines (s : State) (f : Drill → Drill) : (modDrill s f).lines = s.lines := rfl
@[simp] theorem modDrill_cmds (s : State) (f : Drill → Drill) : (modDrill s f).cmds = s.cmds := rfl
@[simp] theorem modDrill_drill (s : State) (f : Drill → Drill) : (modDrill s f).drill = f s.drill := rfl
@[simp] theorem modDrill_reeve (s : State) (f : Drill → Drill) : (modDrill s f).reeve = s.reeve := rfl
@[simp] theorem modDrill_saved (s : State) (f : Drill → Drill) : (modDrill s f).saved = s.saved := rfl
@[simp] theorem modDrill_outputs (s : State) (f : Drill → Drill) : (modDrill s f).outputs = s.outputs := rfl
@[simp] theorem modDrill_dvl (s : State) (f : Drill → Drill) : (modDrill s f).dvl = s.dvl := rfl
@[simp] theorem modDrill_dvlWrites (s : State) (f : Drill → Drill) : (modDrill s f).dvlWrites = s.dvlWrites := rfl
@[simp] theorem modDrill_pcie (s : State) (f : Drill → Drill) : (modDrill s f).pcie = s.pcie := rfl
@[simp] theorem modDrill_mem (s : State) (f : Drill → Drill) : (modDrill s f).mem = s.mem := rfl
@[simp] theorem modDrill_memPoison (s : State) (f : Drill → Drill) : (modDrill s f).memPoison = s.memPoison := rfl
@[simp] theorem modDrill_msix (s : State) (f : Drill → Drill) : (modDrill s f).msix = s.msix := rfl

end Sys2Proof.Laws
end

