-- ==== Sys2Proof/Laws/Memory.lean ====
section
/-!
SUPPORT. The laws of byte-addressed memory: a read after a write, and that every operation on memory keeps its canonical form.
-/

namespace Sys2Proof.Laws

open Machine

/-- Every address of a list lies above a bound. -/
def Above (n : Nat) : List Host.Cell → Prop
  | [] => True
  | (a, _) :: _ => n < a

theorem wf_cons (a : Nat) (v : Byte) (t : List Host.Cell) :
    Memory.wf ((a, v) :: t) = true ↔ v ≠ blankByte ∧ Above a t ∧ Memory.wf t = true := by
  cases t with
  | nil => simp [Memory.wf, Above]
  | cons p t => obtain ⟨b, w⟩ := p; simp [Memory.wf, Above, and_assoc]

theorem above_mono {n m : Nat} (h : m ≤ n) : ∀ {t : List Host.Cell}, Above n t → Above m t
  | [], _ => trivial
  | (a, _) :: _, h' => by simp only [Above] at *; omega

/-- Below its first address a canonical list reads blank. -/
theorem readByte_above : ∀ {t : List Host.Cell} {n m : Nat}, Above n t → m ≤ n → readByte t m = blankByte
  | [], _, _, _, _ => rfl
  | (a, v) :: t, n, m, h, hm => by
    simp only [Above] at h
    have h1 : m ≠ a := by omega
    have h2 : m < a := by omega
    simp [readByte, h1, h2]

theorem above_writeByte {n a : Nat} {x : Byte} (hn : n < a) : ∀ {t : List Host.Cell}, Above n t → Memory.wf t = true → Above n (writeByte t a x)
  | [], _, _ => by simp only [writeByte]; split <;> simp [Above, hn]
  | (b, v) :: t, h, hw => by
    have h' := (wf_cons b v t).1 hw
    simp only [writeByte]
    split
    · split <;> simpa [Above] using (by first | exact h | exact hn)
    · split
      · split
        · exact above_mono (Nat.le_of_lt h) h'.2.1
        · exact hn
      · exact h

/-- A write of one byte keeps the canonical form. -/
theorem wf_writeByte (a : Nat) (x : Byte) : ∀ {t : List Host.Cell}, Memory.wf t = true → Memory.wf (writeByte t a x) = true
  | [], _ => by
    simp only [writeByte]; split
    · rfl
    · next h => simpa [Memory.wf] using h
  | (b, v) :: t, hw => by
    have h' := (wf_cons b v t).1 hw
    simp only [writeByte]
    split
    · split
      · exact hw
      · next h1 h2 => exact (wf_cons _ _ _).2 ⟨h2, h1, hw⟩
    · split
      · next h1 h2 =>
        subst h2
        split
        · exact h'.2.2
        · next h3 => exact (wf_cons _ _ _).2 ⟨h3, h'.2.1, h'.2.2⟩
      · next h1 h2 =>
        exact (wf_cons _ _ _).2 ⟨h'.1, above_writeByte (by omega) h'.2.1 h'.2.2, wf_writeByte a x h'.2.2⟩

/-- A write of bytes keeps the canonical form. -/
theorem wf_writeBytes : ∀ (bs : List Byte) (a : Nat) {t : List Host.Cell}, Memory.wf t = true → Memory.wf (writeBytes t a bs) = true
  | [], _, _, h => h
  | b :: bs, a, _, h => wf_writeBytes bs (a + 1) (wf_writeByte a b h)

theorem wf_writeNum (a n v : Nat) {t : List Host.Cell} (h : Memory.wf t = true) : Memory.wf (writeNum t a n v) = true :=
  wf_writeBytes _ _ h

theorem above_filter (p : Host.Cell → Bool) {n : Nat} : ∀ {t : List Host.Cell}, Above n t → Memory.wf t = true → Above n (t.filter p)
  | [], _, _ => by simp [Above]
  | (a, v) :: t, h, hw => by
    have h' := (wf_cons a v t).1 hw
    rw [List.filter_cons]
    split
    · exact h
    · exact above_filter p (above_mono (Nat.le_of_lt h) h'.2.1) h'.2.2

/-- Leaving bytes out keeps the canonical form. -/
theorem wf_filter (p : Host.Cell → Bool) : ∀ {t : List Host.Cell}, Memory.wf t = true → Memory.wf (t.filter p) = true
  | [], _ => rfl
  | (a, v) :: t, hw => by
    have h' := (wf_cons a v t).1 hw
    rw [List.filter_cons]
    split
    · exact (wf_cons _ _ _).2 ⟨h'.1, above_filter p h'.2.1 h'.2.2, wf_filter p h'.2.2⟩
    · exact wf_filter p h'.2.2

theorem wf_foldl_writeByte (base : Nat) : ∀ (cells : List Host.Cell) {t : List Host.Cell}, Memory.wf t = true →
    Memory.wf (cells.foldl (fun m c => writeByte m (base + c.1) c.2) t) = true
  | [], _, h => h
  | c :: cs, _, h => wf_foldl_writeByte base cs (wf_writeByte (base + c.1) c.2 h)

/-- A byte reads as it was last written, and every other byte as before. -/
theorem readByte_writeByte (a n : Nat) (x : Byte) : ∀ {t : List Host.Cell}, Memory.wf t = true →
    readByte (writeByte t a x) n = if n = a then x else readByte t n
  | [], _ => by
    by_cases hx : x = blankByte <;> by_cases hn : n = a <;> simp [writeByte, readByte, hx, hn]
  | (b, v) :: t, hw => by
    have h' := (wf_cons b v t).1 hw
    have ih := readByte_writeByte a n x h'.2.2
    simp only [writeByte]
    split
    · next h1 =>
      split
      · next hx =>
        split
        · next hn => subst hn; rw [hx]; exact readByte_above (n := n) (show n < b from h1) (Nat.le_refl n)
        · rfl
      · simp only [readByte]
        split
        · rfl
        · next hn =>
          split
          · next h2 =>
            have h3 : n ≠ b := by omega
            have h4 : n < b := by omega
            simp [h3, h4]
          · rfl
    · split
      · next h1 h2 =>
        subst h2
        split
        · next hx =>
          split
          · next hn => subst hn; rw [hx]; exact readByte_above h'.2.1 (Nat.le_refl _)
          · next hn =>
            simp only [readByte, hn, if_false]
            split
            · next h3 => exact readByte_above h'.2.1 (Nat.le_of_lt h3)
            · rfl
        · simp only [readByte]
          split <;> rfl
      · next h1 h2 =>
        simp only [readByte]
        split
        · next h3 =>
          have h4 : n ≠ a := by omega
          simp [h4]
        · split
          · next h3 h4 =>
            have h5 : n ≠ a := by omega
            simp [h5]
          · exact ih

/-- Bytes outside those written read as before. -/
theorem readByte_writeBytes_outside (n : Nat) : ∀ (bs : List Byte) (a : Nat) {t : List Host.Cell}, Memory.wf t = true →
    (n < a ∨ a + bs.length ≤ n) → readByte (writeBytes t a bs) n = readByte t n
  | [], _, _, _, _ => rfl
  | b :: bs, a, t, h, hn => by
    have hlen : (b :: bs).length = bs.length + 1 := rfl
    simp only [writeBytes]
    rw [readByte_writeBytes_outside n bs (a + 1) (wf_writeByte a b h) (by omega), readByte_writeByte a n b h]
    have h1 : n ≠ a := by omega
    simp [h1]

/-- A write keeps memory in its canonical form. -/
theorem memWrite_ok (s : State) (a : Nat) (bs : List Byte) (h : MemoryOk s) : MemoryOk (memWrite s a bs) := wf_writeBytes bs a h

end Sys2Proof.Laws
end

