-- ==== Sys2Proof/Laws/Bytes.lean ====
section
/-!
SUPPORT. Bytes and numbers: reading and writing several bytes of memory, one byte of a number, and the request that an operation changes.
-/

namespace Sys2Proof.Laws

open Machine

theorem upFrom_eq : ∀ n a, upFrom a n = (List.range n).map (a + ·)
  | 0, _ => rfl
  | n + 1, a => by
    rw [upFrom, upFrom_eq n, List.range_succ_eq_map]
    simp [Function.comp_def, Nat.add_assoc, Nat.add_comm 1]

theorem readBytes_eq (m : List Host.Cell) (a n : Nat) : readBytes m a n = (List.range n).map fun i => readByte m (a + i) := by
  simp [readBytes, upFrom_eq, Function.comp_def]

@[simp] theorem length_bytesOf : ∀ n v, (bytesOf n v).length = n
  | 0, _ => rfl
  | n + 1, v => by simp [bytesOf, length_bytesOf n]

theorem getElem_bytesOf : ∀ n v i (h : i < (bytesOf n v).length), (bytesOf n v)[i] = BitVec.ofNat 8 (v / 256 ^ i)
  | 0, _, _, h => by simp at h
  | n + 1, v, 0, _ => by simp [bytesOf]
  | n + 1, v, i + 1, h => by
    simp only [bytesOf, List.getElem_cons_succ]
    rw [getElem_bytesOf n, Nat.div_div_eq_div_mul, Nat.pow_succ, Nat.mul_comm 256]

theorem ofBytes_lt : ∀ bs : List Byte, ofBytes bs < 256 ^ bs.length
  | [] => by simp [ofBytes]
  | b :: bs => by
    have h1 := ofBytes_lt bs
    have h2 := b.isLt
    simp only [ofBytes, List.length_cons, Nat.pow_succ]
    omega

theorem readByte_writeBytes (n : Nat) : ∀ (bs : List Byte) (a : Nat) {t : List Host.Cell}, Memory.wf t = true →
    readByte (writeBytes t a bs) n = if a ≤ n then (bs[n - a]?).getD (readByte t n) else readByte t n
  | [], a, t, _ => by simp [writeBytes]
  | b :: bs, a, t, h => by
    simp only [writeBytes]
    rw [readByte_writeBytes n bs (a + 1) (wf_writeByte a b h), readByte_writeByte a n b h]
    by_cases h1 : n = a
    · subst h1; simp [show ¬ n + 1 ≤ n by omega]
    · by_cases h2 : a ≤ n
      · have h3 : a + 1 ≤ n := by omega
        obtain ⟨k, hk⟩ : ∃ k, n - a = k + 1 := ⟨n - a - 1, by omega⟩
        have hk2 : n - (a + 1) = k := by omega
        simp [h1, h2, h3, hk, hk2]
      · have h3 : ¬ a + 1 ≤ n := by omega
        simp [h1, h2, h3]

theorem readByte_store (m : List Host.Cell) (pa n v a : Nat) (h : Memory.wf m = true) :
    readByte (writeBytes m pa (bytesOf n v)) a = if pa ≤ a ∧ a < pa + n then BitVec.ofNat 8 (v / 256 ^ (a - pa)) else readByte m a := by
  rw [readByte_writeBytes a _ _ h]
  by_cases h1 : pa ≤ a
  · by_cases h2 : a < pa + n
    · have h3 : a - pa < (bytesOf n v).length := by simp; omega
      rw [if_pos h1, if_pos ⟨h1, h2⟩, List.getElem?_eq_getElem h3, getElem_bytesOf]; rfl
    · have h3 : (bytesOf n v)[a - pa]? = none := by simp; omega
      rw [if_pos h1, if_neg (by omega), h3]; rfl
  · rw [if_neg h1, if_neg (by omega)]

/-- The bytes of a number of n bytes are those of its remainder. -/
theorem byte_mod (v n i : Nat) (h : i < n) : BitVec.ofNat 8 ((v % 2 ^ (8 * n)) / 256 ^ i) = BitVec.ofNat 8 (v / 256 ^ i) := by
  apply BitVec.eq_of_toNat_eq
  simp only [BitVec.toNat_ofNat]
  have e1 : 2 ^ (8 * n) = 256 ^ i * 256 ^ (n - i) := by
    rw [← Nat.pow_add, show i + (n - i) = n by omega, Nat.pow_mul]
  rw [e1, Nat.mod_mul_right_div_self, show (2:Nat) ^ 8 = 256 by rfl]
  apply Nat.mod_mod_of_dvd
  exact ⟨256 ^ (n - i - 1), by rw [← Nat.pow_succ']; congr 1; omega⟩

theorem findReq_modReq (s : State) (id : Nat) (f : Req → Req) (hf : ∀ r, (f r).id = r.id) : findReq (modReq s id f) id = (findReq s id).map f := by
  unfold findReq modReq
  simp only
  induction s.reqs with
  | nil => rfl
  | cons r rs ih =>
    by_cases h : r.id = id
    · simp [h, hf]
    · simp [h, ih]

theorem findReq_setPerformed {s : State} {id : Nat} {q : Req} (h : findReq s id = some q) (d : Beat) (f : Flags) :
    findReq (setPerformed s id d f) id = some { q with phase := .performed d f } := by
  refine (findReq_modReq s id (fun q => { q with phase := .performed d f }) fun _ => rfl).trans ?_
  rw [h]; rfl

end Sys2Proof.Laws
end

