-- ==== Sys2Proof/Laws/Encoding.lean ====
section
/-!
SUPPORT. Encoding and decoding of the fields and the forms of action words, each way: what a form decodes to from the word that the encoder
makes of it, and that a word is made up of its fields.
-/

namespace Sys2Proof.Laws

/-! ### Fields of a word -/

theorem app_lo {n m : Nat} (x : BitVec n) (y : BitVec m) {s k : Nat} (h : s + k ≤ m) : (x ++ y).extractLsb' s k = y.extractLsb' s k := by
  ext i hi
  simp only [BitVec.getElem_extractLsb', BitVec.getLsbD_append]
  rw [if_pos (by omega)]

theorem app_hi {n m : Nat} (x : BitVec n) (y : BitVec m) {s k : Nat} (h : m ≤ s) : (x ++ y).extractLsb' s k = x.extractLsb' (s - m) k := by
  ext i hi
  simp only [BitVec.getElem_extractLsb', BitVec.getLsbD_append]
  rw [if_neg (by omega), show s + i - m = s - m + i by omega]

theorem ext_all {n : Nat} (x : BitVec n) : x.extractLsb' 0 n = x := by simp

theorem ext_cast {n m : Nat} (h : n = m) (x : BitVec n) (s k : Nat) : (x.cast h).extractLsb' s k = x.extractLsb' s k := by subst h; rfl

/-- Two neighbouring fields of a word are one field. -/
theorem ext_join {n : Nat} (x : BitVec n) (s a b : Nat) : x.extractLsb' (s + b) a ++ x.extractLsb' s b = x.extractLsb' s (a + b) := by
  ext i hi
  simp only [BitVec.getElem_append, BitVec.getElem_extractLsb']
  split
  · rfl
  · rw [show s + b + (i - b) = s + i by omega]

theorem bit_ext (x : BitVec 32) (n : Nat) : Enc.bit (x.getLsbD n) = x.extractLsb' n 1 := by
  ext i hi
  obtain rfl : i = 0 := by omega
  simp [Enc.bit]

theorem ext_bit {n : Nat} (x : BitVec n) (i : Nat) {s k : Nat} (h : i < k) : (x.extractLsb' s k).getLsbD i = x.getLsbD (s + i) := by
  simp [h]

/-! ### Codes -/

@[simp] theorem src_enc (s : Src) : Dec.src (Enc.src s) = s := by
  cases s with
  | d n => exact (by decide : ∀ n : Fin 8, Dec.src (Enc.src (.d n)) = .d n) n
  | ch n => exact (by decide : ∀ n : Fin 4, Dec.src (Enc.src (.ch n)) = .ch n) n
  | _ => rfl

@[simp] theorem dst_enc (s : Dst) : Dec.dst (Enc.dst s) = s := by
  cases s with
  | d n => exact (by decide : ∀ n : Fin 8, Dec.dst (Enc.dst (.d n)) = .d n) n
  | ch n => exact (by decide : ∀ n : Fin 4, Dec.dst (Enc.dst (.ch n)) = .ch n) n
  | _ => rfl

@[simp] theorem src_dec : ∀ b, Enc.src (Dec.src b) = b := by decide
@[simp] theorem dst_dec : ∀ b, Enc.dst (Dec.dst b) = b := by decide
@[simp] theorem otag_enc (t : OTag) : Dec.otag (Enc.otag t) = t := by cases t <;> rfl
@[simp] theorem otag_dec : ∀ b, Enc.otag (Dec.otag b) = b := by decide
@[simp] theorem fcs_enc : ∀ x, Dec.fcs (Enc.fcs x) = x := by rintro ⟨f, c, s⟩; cases f <;> cases c <;> cases s <;> rfl
@[simp] theorem fcs_dec : ∀ b, Enc.fcs (Dec.fcs b) = b := by decide
@[simp] theorem scope_enc (t : Scope) : Dec.scope (Enc.scope t) = t := by cases t <;> rfl
@[simp] theorem scope_dec : ∀ b, Enc.scope (Dec.scope b) = b := by decide
@[simp] theorem size_enc (t : MSize) : Dec.size (Enc.size t) = t := by cases t <;> rfl
@[simp] theorem size_dec : ∀ b, Enc.size (Dec.size b) = b := by decide
@[simp] theorem ord_enc (t : MOrd) : Dec.ord (Enc.ord t) = t := by cases t <;> rfl
@[simp] theorem ord_dec : ∀ b, Enc.ord (Dec.ord b) = b := by decide
@[simp] theorem laneW_enc (t : LaneW) : Dec.laneW (Enc.laneW t) = t := by cases t <;> rfl
@[simp] theorem laneW_dec : ∀ b, Enc.laneW (Dec.laneW b) = b := by decide
@[simp] theorem fpFmt_enc (t : FpFmt) : Dec.fpFmt (Enc.fpFmt t) = t := by cases t <;> rfl
@[simp] theorem fpFmt_dec : ∀ b, Enc.fpFmt (Dec.fpFmt b) = b := by decide
@[simp] theorem cond_enc (t : Cond) : Dec.cond (Enc.cond t) = t := by cases t <;> rfl
@[simp] theorem cond_dec : ∀ b, Enc.cond (Dec.cond b) = b := by decide
@[simp] theorem atomOp_enc (t : AtomOp) : Dec.atomOp (Enc.atomOp t) = .ok t := by cases t <;> rfl
@[simp] theorem tag_enc (t : Tag) : Dec.tag (Enc.tag t) = t := by cases t <;> rfl
@[simp] theorem tag_dec : ∀ b, Enc.tag (Dec.tag b) = b := by decide
@[simp] theorem specReg_enc (t : Spec) : Dec.specReg (Enc.specReg t) = .ok t := by cases t <;> rfl

theorem atomOp_dec {b : BitVec 4} {o : AtomOp} (h : Dec.atomOp b = .ok o) : Enc.atomOp o = b := by
  have k : ∀ b : BitVec 4, (match Dec.atomOp b with | .ok o => Enc.atomOp o == b | .error _ => true) = true := by decide
  have := k b
  rw [h] at this
  exact eq_of_beq this

theorem ok_of {α : Type} [DecidableEq α] {x : Except Reject α} {a : α} (h : (match x with | .ok b => decide (b = a) | .error _ => false) = true) :
    x = .ok a := by
  cases x with
  | ok b => exact congrArg Except.ok (of_decide_eq_true h)
  | error _ => cases h

/-- pmode and pk of an update, apart. -/
theorem upd_enc (u : PUpd) : Dec.upd ((Enc.upd u).extractLsb' 3 2) ((Enc.upd u).extractLsb' 0 3) = .ok u := by
  apply ok_of
  cases u with
  | none => rfl
  | result n => revert n; decide
  | one n => revert n; decide
  | zero n => revert n; decide

theorem upd_dec {m : BitVec 2} {k : BitVec 3} {u : PUpd} (h : Dec.upd m k = .ok u) : Enc.upd u = m ++ k := by
  have q : ∀ (m : BitVec 2) (k : BitVec 3), (match Dec.upd m k with | .ok u => Enc.upd u == m ++ k | .error _ => true) = true := by decide
  have := q m k
  rw [h] at this
  exact eq_of_beq this

/-! ### The R-form -/

section
variable (op : BitVec 7) (d sa sb : BitVec 4) (t : BitVec 2) (u : BitVec 5) (pk : Bool) (f : BitVec 5)

theorem r_eq : Enc.rWord op d sa sb t u pk f = BitVec.cast (by decide) (op ++ d ++ sa ++ sb ++ t ++ u ++ Enc.bit pk ++ f) := rfl

theorem r_fm : (Enc.rWord op d sa sb t u pk f).extractLsb' 0 5 = f := by
  rw [r_eq, ext_cast, app_lo _ _ (by decide), ext_all]
theorem r_pk : (Enc.rWord op d sa sb t u pk f).extractLsb' 5 1 = Enc.bit pk := by
  rw [r_eq, ext_cast, app_hi _ _ (by decide), app_lo _ _ (by decide), ext_all]
theorem r_u : (Enc.rWord op d sa sb t u pk f).extractLsb' 6 5 = u := by
  rw [r_eq, ext_cast, app_hi _ _ (by decide), app_hi _ _ (by decide), app_lo _ _ (by decide), ext_all]
theorem r_tag : (Enc.rWord op d sa sb t u pk f).extractLsb' 11 2 = t := by
  rw [r_eq, ext_cast, app_hi _ _ (by decide), app_hi _ _ (by decide), app_hi _ _ (by decide), app_lo _ _ (by decide), ext_all]
theorem r_sb : (Enc.rWord op d sa sb t u pk f).extractLsb' 13 4 = sb := by
  rw [r_eq, ext_cast, app_hi _ _ (by decide), app_hi _ _ (by decide), app_hi _ _ (by decide), app_hi _ _ (by decide), app_lo _ _ (by decide), ext_all]
theorem r_sa : (Enc.rWord op d sa sb t u pk f).extractLsb' 17 4 = sa := by
  rw [r_eq, ext_cast, app_hi _ _ (by decide), app_hi _ _ (by decide), app_hi _ _ (by decide), app_hi _ _ (by decide), app_hi _ _ (by decide), app_lo _ _ (by decide), ext_all]
theorem r_dst : (Enc.rWord op d sa sb t u pk f).extractLsb' 21 4 = d := by
  rw [r_eq, ext_cast, app_hi _ _ (by decide), app_hi _ _ (by decide), app_hi _ _ (by decide), app_hi _ _ (by decide), app_hi _ _ (by decide), app_hi _ _ (by decide), app_lo _ _ (by decide), ext_all]
theorem r_op : (Enc.rWord op d sa sb t u pk f).extractLsb' 25 7 = op := by
  rw [r_eq, ext_cast, app_hi _ _ (by decide), app_hi _ _ (by decide), app_hi _ _ (by decide), app_hi _ _ (by decide), app_hi _ _ (by decide), app_hi _ _ (by decide), app_hi _ _ (by decide), ext_all]

/-- A field of the word within one of the parts that it is made of. -/
theorem sub_ext {n m : Nat} {x : BitVec n} {y : BitVec m} {p : Nat} (h : x.extractLsb' p m = y) {s k : Nat} (hk : s + k ≤ m) :
    x.extractLsb' (p + s) k = y.extractLsb' s k := by
  subst h
  ext i hi
  simp only [BitVec.getElem_extractLsb', ext_bit x (s + i) (show s + i < m by omega), Nat.add_assoc]

theorem sub_bit {n m : Nat} {x : BitVec n} {y : BitVec m} {p : Nat} (h : x.extractLsb' p m = y) {s : Nat} (hk : s < m) : x.getLsbD (p + s) = y.getLsbD s := by
  subst h
  exact (ext_bit x s hk).symm
end

/-- The opcode of a word (spec 04 R65). -/
def opOf (w : BitVec 32) : BitVec 7 := w.extractLsb' 25 7

theorem r_word (w : BitVec 32) : Enc.rWord (opOf w) (w.extractLsb' 21 4) (w.extractLsb' 17 4) (w.extractLsb' 13 4) (w.extractLsb' 11 2)
    (w.extractLsb' 9 2 ++ w.extractLsb' 6 3) (w.getLsbD 5) (w.extractLsb' 0 5) = w := by
  unfold Enc.rWord opOf
  rw [bit_ext, show w.extractLsb' 9 2 ++ w.extractLsb' 6 3 = w.extractLsb' 6 5 from ext_join w 6 2 3,
    show w.extractLsb' 25 7 ++ w.extractLsb' 21 4 = w.extractLsb' 21 (7 + 4) from ext_join w 21 7 4,
    show w.extractLsb' 21 (7 + 4) ++ w.extractLsb' 17 4 = w.extractLsb' 17 (7 + 4 + 4) from ext_join w 17 11 4,
    show w.extractLsb' 17 (7 + 4 + 4) ++ w.extractLsb' 13 4 = w.extractLsb' 13 (7 + 4 + 4 + 4) from ext_join w 13 15 4,
    show w.extractLsb' 13 (7 + 4 + 4 + 4) ++ w.extractLsb' 11 2 = w.extractLsb' 11 (7 + 4 + 4 + 4 + 2) from ext_join w 11 19 2,
    show w.extractLsb' 11 (7 + 4 + 4 + 4 + 2) ++ w.extractLsb' 6 5 = w.extractLsb' 6 (7 + 4 + 4 + 4 + 2 + 5) from ext_join w 6 21 5,
    show w.extractLsb' 6 (7 + 4 + 4 + 4 + 2 + 5) ++ w.extractLsb' 5 1 = w.extractLsb' 5 (7 + 4 + 4 + 4 + 2 + 5 + 1) from ext_join w 5 26 1,
    show w.extractLsb' 5 (7 + 4 + 4 + 4 + 2 + 5 + 1) ++ w.extractLsb' 0 5 = w.extractLsb' 0 (7 + 4 + 4 + 4 + 2 + 5 + 1 + 5) from ext_join w 0 27 5]
  exact ext_all w

theorem rForm_word (op : BitVec 7) (d sa sb : BitVec 4) (t : BitVec 2) (u : PUpd) (pk : Bool) (f : BitVec 5) (g : RAct → Except Reject Instr) :
    Dec.rForm (Enc.rWord op d sa sb t (Enc.upd u) pk f) g =
      g { dst := Dec.dst d, sa := Dec.src sa, sb := Dec.src sb, otag := Dec.otag t, upd := u, peek := pk } := by
  have hp : (Enc.rWord op d sa sb t (Enc.upd u) pk f).getLsbD 5 = pk := by
    rw [show 5 = 5 + 0 from rfl, sub_bit (r_pk op d sa sb t (Enc.upd u) pk f) (by decide)]
    cases pk <;> rfl
  unfold Dec.rForm Dec.selDst Dec.selSa Dec.selSb
  rw [show 9 = 6 + 3 from rfl, sub_ext (r_u op d sa sb t (Enc.upd u) pk f) (by decide), show 6 = 6 + 0 from rfl,
    sub_ext (r_u op d sa sb t (Enc.upd u) pk f) (by decide), upd_enc, r_dst, r_sa, r_sb, r_tag, hp]

theorem rForm_r (op : BitVec 7) (a : RAct) (f : BitVec 5) (g : RAct → Except Reject Instr) : Dec.rForm (Enc.r op a f) g = g a := by
  unfold Enc.r
  rw [rForm_word]
  simp

theorem rForm_inv {w : BitVec 32} {g : RAct → Except Reject Instr} {i : Instr} (h : Dec.rForm w g = .ok i) :
    ∃ a, g a = .ok i ∧ w = Enc.r (opOf w) a (Dec.fm w) ∧ Enc.src a.sb = Dec.selSb w ∧ Enc.src a.sa = Dec.selSa w := by
  unfold Dec.rForm at h
  split at h
  · cases h
  · next u hu =>
    refine ⟨_, h, ?_, src_dec _, src_dec _⟩
    unfold Enc.r
    simp only [dst_dec, src_dec, otag_dec, upd_dec hu]
    exact (r_word w).symm

@[simp] theorem guard_ok {α : Type} {b : Bool} {r : Reject} {x : Except Reject α} {i : α} : Dec.guard b r x = .ok i ↔ b = true ∧ x = .ok i := by
  cases b <;> simp [Dec.guard]

theorem fm_r (op : BitVec 7) (a : RAct) (f : BitVec 5) : Dec.fm (Enc.r op a f) = f := r_fm ..

theorem fm_ext (w : BitVec 32) {s k : Nat} (h : s + k ≤ 5) : w.extractLsb' s k = (Dec.fm w).extractLsb' s k := by
  have q := sub_ext (p := 0) (rfl : w.extractLsb' 0 5 = Dec.fm w) h
  rwa [Nat.zero_add] at q

theorem fm_bit (w : BitVec 32) {s : Nat} (h : s < 5) : w.getLsbD s = (Dec.fm w).getLsbD s := by
  have q := sub_bit (p := 0) (rfl : w.extractLsb' 0 5 = Dec.fm w) h
  rwa [Nat.zero_add] at q

/-- fm = 0. -/
theorem rPlain_r (op : BitVec 7) (a : RAct) (g : RAct → Instr) : Dec.rPlain (Enc.r op a 0) g = .ok (g a) := by
  unfold Dec.rPlain
  rw [rForm_r, fm_r]; rfl

theorem rPlain_inv {w : BitVec 32} {g : RAct → Instr} {i : Instr} (h : Dec.rPlain w g = .ok i) : ∃ a, i = g a ∧ w = Enc.r (opOf w) a 0 := by
  obtain ⟨a, h1, h2, -⟩ := rForm_inv h
  simp only [guard_ok, beq_iff_eq, Except.ok.injEq] at h1
  rw [h1.1] at h2
  exact ⟨a, h1.2.symm, h2⟩

/-- The integer class. -/
theorem rInt_r (op : BitVec 7) (a : RAct) (c : IntCtl) (g : RAct → IntCtl → Instr) : Dec.rInt (Enc.r op a (Enc.intCtl c)) g = .ok (g a c) := by
  unfold Dec.rInt
  rw [rForm_r, fm_ext _ (by decide : 3 + 2 ≤ 5), fm_bit _ (by decide : 0 < 5), fm_bit _ (by decide : 1 < 5), fm_bit _ (by decide : 2 < 5), fm_r]
  rcases c with ⟨w, s, t⟩
  cases w <;> cases s <;> cases t <;> rfl

theorem rInt_inv {w : BitVec 32} {g : RAct → IntCtl → Instr} {i : Instr} (h : Dec.rInt w g = .ok i) :
    ∃ a c, i = g a c ∧ w = Enc.r (opOf w) a (Enc.intCtl c) := by
  obtain ⟨a, h1, h2, -⟩ := rForm_inv h
  simp only [guard_ok, Except.ok.injEq] at h1
  refine ⟨a, _, h1.2.symm, ?_⟩
  have k : ∀ f : BitVec 5, (!f.getLsbD 0) = true → Enc.intCtl ⟨Dec.laneW (f.extractLsb' 3 2), f.getLsbD 2, f.getLsbD 1⟩ = f := by decide
  have := h1.1
  rw [fm_bit _ (by decide : 0 < 5)] at this
  rw [fm_ext w (by decide : 3 + 2 ≤ 5), fm_bit w (by decide : 1 < 5), fm_bit w (by decide : 2 < 5), k _ this]
  exact h2

/-- The comparisons. -/
theorem rCmp_r (op : BitVec 7) (a : RAct) (c : CmpCtl) (g : RAct → CmpCtl → Instr) : Dec.rCmp (Enc.r op a (Enc.cmpCtl c)) g = .ok (g a c) := by
  unfold Dec.rCmp
  rw [rForm_r, fm_ext _ (by decide : 3 + 2 ≤ 5), fm_ext _ (by decide : 0 + 2 ≤ 5), fm_bit _ (by decide : 2 < 5), fm_r]
  rcases c with ⟨w, s, t⟩
  cases w <;> cases s <;> cases t <;> rfl

theorem rCmp_inv {w : BitVec 32} {g : RAct → CmpCtl → Instr} {i : Instr} (h : Dec.rCmp w g = .ok i) :
    ∃ a c, i = g a c ∧ w = Enc.r (opOf w) a (Enc.cmpCtl c) := by
  obtain ⟨a, h1, h2, -⟩ := rForm_inv h
  simp only [Except.ok.injEq] at h1
  refine ⟨a, _, h1.symm, ?_⟩
  have k : ∀ f : BitVec 5, Enc.cmpCtl ⟨Dec.laneW (f.extractLsb' 3 2), f.getLsbD 2, Dec.cond (f.extractLsb' 0 2)⟩ = f := by decide
  rw [fm_ext w (by decide : 3 + 2 ≤ 5), fm_ext w (by decide : 0 + 2 ≤ 5), fm_bit w (by decide : 2 < 5), k]
  exact h2

theorem fpCtl_dec (w : BitVec 32) : Enc.fpCtl ⟨Dec.fpFmt (w.extractLsb' 3 2), Dec.fcs (w.extractLsb' 0 3)⟩ = Dec.fm w := by
  have k : ∀ f : BitVec 5, Enc.fpCtl ⟨Dec.fpFmt (f.extractLsb' 3 2), Dec.fcs (f.extractLsb' 0 3)⟩ = f := by decide
  rw [fm_ext w (by decide : 3 + 2 ≤ 5), fm_ext w (by decide : 0 + 3 ≤ 5), k]

theorem fpCtl_enc {w : BitVec 32} {c : FpCtl} (h : Dec.fm w = Enc.fpCtl c) : (⟨Dec.fpFmt (w.extractLsb' 3 2), Dec.fcs (w.extractLsb' 0 3)⟩ : FpCtl) = c := by
  rw [fm_ext w (by decide : 3 + 2 ≤ 5), fm_ext w (by decide : 0 + 3 ≤ 5), h]
  rcases c with ⟨m, ⟨x, y, z⟩⟩
  cases m <;> cases x <;> cases y <;> cases z <;> rfl

/-- The floating-point class. -/
theorem rFp_r (op : BitVec 7) (a : RAct) (c : FpCtl) (g : RAct → FpCtl → Instr) : Dec.rFp (Enc.r op a (Enc.fpCtl c)) g = .ok (g a c) := by
  unfold Dec.rFp
  rw [rForm_r, fpCtl_enc (fm_r ..)]

theorem rFp_inv {w : BitVec 32} {g : RAct → FpCtl → Instr} {i : Instr} (h : Dec.rFp w g = .ok i) :
    ∃ a c, i = g a c ∧ w = Enc.r (opOf w) a (Enc.fpCtl c) := by
  obtain ⟨a, h1, h2, -⟩ := rForm_inv h
  simp only [Except.ok.injEq] at h1
  refine ⟨a, _, h1.symm, ?_⟩
  rw [fpCtl_dec]
  exact h2

/-- The forms whose sb field holds bits. -/
theorem rBits_rb (op : BitVec 7) (a : RAct) (b : BitVec 4) (c : FpCtl) (g : RAct → BitVec 4 → FpCtl → Except Reject Instr) (ha : a.sb = .zero) :
    Dec.rBits (Enc.rb op a b (Enc.fpCtl c)) g = g a b c := by
  unfold Dec.rBits Enc.rb
  rw [rForm_word, fpCtl_enc (by exact r_fm ..)]
  unfold Dec.selSb
  rw [r_sb]
  simp [← ha]

theorem rBits_inv {w : BitVec 32} {g : RAct → BitVec 4 → FpCtl → Except Reject Instr} {i : Instr} (h : Dec.rBits w g = .ok i) :
    ∃ a b c, a.sb = .zero ∧ g a b c = .ok i ∧ w = Enc.rb (opOf w) a b (Enc.fpCtl c) := by
  obtain ⟨a, h1, h2, h3, -⟩ := rForm_inv h
  refine ⟨_, _, _, rfl, h1, ?_⟩
  rw [fpCtl_dec, ← h3]
  exact h2

theorem rFcs_r (op : BitVec 7) (a : RAct) (x : Fcs) (g : RAct → Fcs → Instr) : Dec.rFcs (Enc.r op a (0#2 ++ Enc.fcs x)) g = .ok (g a x) := by
  unfold Dec.rFcs
  rw [rForm_r, fm_ext _ (by decide : 3 + 2 ≤ 5), fm_ext _ (by decide : 0 + 3 ≤ 5), fm_r]
  rcases x with ⟨x, y, z⟩
  cases x <;> cases y <;> cases z <;> rfl

theorem rFcs_inv {w : BitVec 32} {g : RAct → Fcs → Instr} {i : Instr} (h : Dec.rFcs w g = .ok i) :
    ∃ a x, i = g a x ∧ w = Enc.r (opOf w) a (0#2 ++ Enc.fcs x) := by
  obtain ⟨a, h1, h2, -⟩ := rForm_inv h
  simp only [guard_ok, beq_iff_eq, Except.ok.injEq] at h1
  refine ⟨a, _, h1.2.symm, ?_⟩
  have k : ∀ f : BitVec 5, f.extractLsb' 3 2 = 0#2 → 0#2 ++ Enc.fcs (Dec.fcs (f.extractLsb' 0 3)) = f := by decide
  have := h1.1
  rw [fm_ext _ (by decide : 3 + 2 ≤ 5)] at this
  rw [fm_ext w (by decide : 0 + 3 ≤ 5), k _ this]
  exact h2

theorem rNum_r (op : BitVec 7) (a : RAct) (n : Fin 8) (g : RAct → Fin 8 → Instr) : Dec.rNum (Enc.r op a (Enc.num5 n.val)) g = .ok (g a n) := by
  unfold Dec.rNum
  have k : ∀ n : Fin 8, ((Enc.num5 n.val).extractLsb' 3 2 == 0#2) = true ∧ Dec.fin8 ((Enc.num5 n.val).extractLsb' 0 3) = n := by decide
  rw [rForm_r, fm_ext _ (by decide : 3 + 2 ≤ 5), fm_ext _ (by decide : 0 + 3 ≤ 5), fm_r, (k n).1, (k n).2]
  rfl

theorem rNum_inv {w : BitVec 32} {g : RAct → Fin 8 → Instr} {i : Instr} (h : Dec.rNum w g = .ok i) :
    ∃ a n, i = g a n ∧ w = Enc.r (opOf w) a (Enc.num5 n.val) := by
  obtain ⟨a, h1, h2, -⟩ := rForm_inv h
  simp only [guard_ok, beq_iff_eq, Except.ok.injEq] at h1
  refine ⟨a, _, h1.2.symm, ?_⟩
  have k : ∀ f : BitVec 5, f.extractLsb' 3 2 = 0#2 → Enc.num5 (Dec.fin8 (f.extractLsb' 0 3)).val = f := by decide
  have := h1.1
  rw [fm_ext _ (by decide : 3 + 2 ≤ 5)] at this
  rw [fm_ext w (by decide : 0 + 3 ≤ 5), k _ this]
  exact h2

/-! ### The I-form -/

section
variable (op : BitVec 7) (d : Dst) (sa : Src) (x : BitVec 12) (u : PUpd)

theorem i_eq : Enc.i op d sa x u = BitVec.cast (by decide) (op ++ Enc.dst d ++ Enc.src sa ++ x ++ Enc.upd u) := rfl

theorem i_u : (Enc.i op d sa x u).extractLsb' 0 5 = Enc.upd u := by
  rw [i_eq, ext_cast, app_lo _ _ (by decide), ext_all]
theorem i_imm : (Enc.i op d sa x u).extractLsb' 5 12 = x := by
  rw [i_eq, ext_cast, app_hi _ _ (by decide), app_lo _ _ (by decide), ext_all]
theorem i_sa : (Enc.i op d sa x u).extractLsb' 17 4 = Enc.src sa := by
  rw [i_eq, ext_cast, app_hi _ _ (by decide), app_hi _ _ (by decide), app_lo _ _ (by decide), ext_all]
theorem i_dst : (Enc.i op d sa x u).extractLsb' 21 4 = Enc.dst d := by
  rw [i_eq, ext_cast, app_hi _ _ (by decide), app_hi _ _ (by decide), app_hi _ _ (by decide), app_lo _ _ (by decide), ext_all]
theorem i_op : (Enc.i op d sa x u).extractLsb' 25 7 = op := by
  rw [i_eq, ext_cast, app_hi _ _ (by decide), app_hi _ _ (by decide), app_hi _ _ (by decide), app_hi _ _ (by decide), ext_all]

theorem iForm_i (g : IAct → Except Reject Instr) : Dec.iForm (Enc.i op d sa x u) g = g { dst := d, sa := sa, imm := x, upd := u } := by
  unfold Dec.iForm Dec.selDst Dec.selSa Dec.imm
  rw [show (Enc.i op d sa x u).extractLsb' 3 2 = (Enc.upd u).extractLsb' 3 2 from
    sub_ext (p := 0) (s := 3) (i_u op d sa x u) (by decide), show (Enc.i op d sa x u).extractLsb' 0 (0 + 3) = (Enc.upd u).extractLsb' 0 3 from
    sub_ext (p := 0) (s := 0) (i_u op d sa x u) (by decide), upd_enc, i_dst, i_sa, i_imm, dst_enc, src_enc]
end

theorem i_word (w : BitVec 32) : opOf w ++ w.extractLsb' 21 4 ++ w.extractLsb' 17 4 ++ w.extractLsb' 5 12 ++ (w.extractLsb' 3 2 ++ w.extractLsb' 0 3) = w := by
  unfold opOf
  rw [show w.extractLsb' 3 2 ++ w.extractLsb' 0 3 = w.extractLsb' 0 5 from ext_join w 0 2 3,
    show w.extractLsb' 25 7 ++ w.extractLsb' 21 4 = w.extractLsb' 21 (7 + 4) from ext_join w 21 7 4,
    show w.extractLsb' 21 (7 + 4) ++ w.extractLsb' 17 4 = w.extractLsb' 17 (7 + 4 + 4) from ext_join w 17 11 4,
    show w.extractLsb' 17 (7 + 4 + 4) ++ w.extractLsb' 5 12 = w.extractLsb' 5 (7 + 4 + 4 + 12) from ext_join w 5 15 12,
    show w.extractLsb' 5 (7 + 4 + 4 + 12) ++ w.extractLsb' 0 5 = w.extractLsb' 0 (7 + 4 + 4 + 12 + 5) from ext_join w 0 27 5]
  exact ext_all w

theorem iForm_inv {w : BitVec 32} {g : IAct → Except Reject Instr} {i : Instr} (h : Dec.iForm w g = .ok i) :
    ∃ a, g a = .ok i ∧ w = Enc.i (opOf w) a.dst a.sa a.imm a.upd ∧ a.imm = Dec.imm w := by
  unfold Dec.iForm at h
  split at h
  · cases h
  · next u hu =>
    refine ⟨_, h, ?_, rfl⟩
    unfold Enc.i
    simp only [dst_dec, src_dec, upd_dec hu]
    exact (i_word w).symm

theorem iPlain_i (op : BitVec 7) (a : IAct) (g : IAct → Instr) : Dec.iPlain (Enc.ia op a) g = .ok (g a) := iForm_i ..

theorem iPlain_inv {w : BitVec 32} {g : IAct → Instr} {i : Instr} (h : Dec.iPlain w g = .ok i) : ∃ a, i = g a ∧ w = Enc.ia (opOf w) a := by
  obtain ⟨a, h1, h2, -⟩ := iForm_inv h
  exact ⟨a, (Except.ok.inj h1).symm, h2⟩

/-! ### Predicate instructions -/

theorem pForm_p (op : BitVec 7) (a b : Fin 8) (u : PUpd) (g : Fin 8 → Fin 8 → PUpd → Instr) : Dec.pForm (Enc.p op a b u) g = .ok (g a b u) := by
  unfold Dec.pForm Enc.p
  have k : ∀ n : Fin 8, (BitVec.ofNat 4 n.val).toNat < 8 ∧ Dec.fin8 ((BitVec.ofNat 4 n.val).setWidth 3) = n := by decide
  rw [rForm_word]
  unfold Dec.selSa Dec.selSb Dec.fm
  rw [r_sa, r_sb, r_fm, (k a).2, (k b).2]
  simp only [(k a).1, (k b).1, guard_ok]
  refine ⟨rfl, by simp, trivial⟩

theorem pForm_inv {w : BitVec 32} {g : Fin 8 → Fin 8 → PUpd → Instr} {i : Instr} (h : Dec.pForm w g = .ok i) :
    ∃ a b u, i = g a b u ∧ w = Enc.p (opOf w) a b u := by
  obtain ⟨r, h1, h2, h3, h4⟩ := rForm_inv h
  simp only [guard_ok, Bool.and_eq_true, beq_iff_eq, RAct.plain, decide_eq_true_eq, Except.ok.injEq] at h1
  obtain ⟨⟨⟨hd, ho, hp⟩, hf⟩, ⟨ha, hb⟩, hi⟩ := h1
  refine ⟨_, _, _, hi.symm, ?_⟩
  have k : ∀ b : BitVec 4, b.toNat < 8 → BitVec.ofNat 4 (Dec.fin8 (b.setWidth 3)).val = b := by decide
  unfold Enc.p
  rw [k _ ha, k _ hb, ← h3, ← h4]
  unfold Enc.r at h2
  rw [hd, ho, hf, show r.peek = false by simpa using hp] at h2
  exact h2

/-! ### The M-form -/

section
variable (op : BitVec 7) (a : MAct) (x : BitVec 4) (y : BitVec 3)

theorem m_eq : Enc.m op a x y = BitVec.cast (by decide) (op ++ Enc.dst a.dst ++ Enc.src a.sa ++ Enc.src a.sb ++ Enc.size a.size ++ Enc.ord a.ord ++ Enc.scope a.scope ++ x ++ y) := rfl

theorem m_fcs : (Enc.m op a x y).extractLsb' 0 3 = y := by
  rw [m_eq, ext_cast, app_lo _ _ (by decide), ext_all]
theorem m_aop : (Enc.m op a x y).extractLsb' 3 4 = x := by
  rw [m_eq, ext_cast, app_hi _ _ (by decide), app_lo _ _ (by decide), ext_all]
theorem m_scope : (Enc.m op a x y).extractLsb' 7 2 = Enc.scope a.scope := by
  rw [m_eq, ext_cast, app_hi _ _ (by decide), app_hi _ _ (by decide), app_lo _ _ (by decide), ext_all]
theorem m_ord : (Enc.m op a x y).extractLsb' 9 2 = Enc.ord a.ord := by
  rw [m_eq, ext_cast, app_hi _ _ (by decide), app_hi _ _ (by decide), app_hi _ _ (by decide), app_lo _ _ (by decide), ext_all]
theorem m_size : (Enc.m op a x y).extractLsb' 11 2 = Enc.size a.size := by
  rw [m_eq, ext_cast, app_hi _ _ (by decide), app_hi _ _ (by decide), app_hi _ _ (by decide), app_hi _ _ (by decide), app_lo _ _ (by decide), ext_all]
theorem m_sb : (Enc.m op a x y).extractLsb' 13 4 = Enc.src a.sb := by
  rw [m_eq, ext_cast, app_hi _ _ (by decide), app_hi _ _ (by decide), app_hi _ _ (by decide), app_hi _ _ (by decide), app_hi _ _ (by decide), app_lo _ _ (by decide), ext_all]
theorem m_sa : (Enc.m op a x y).extractLsb' 17 4 = Enc.src a.sa := by
  rw [m_eq, ext_cast, app_hi _ _ (by decide), app_hi _ _ (by decide), app_hi _ _ (by decide), app_hi _ _ (by decide), app_hi _ _ (by decide), app_hi _ _ (by decide), app_lo _ _ (by decide), ext_all]
theorem m_dst : (Enc.m op a x y).extractLsb' 21 4 = Enc.dst a.dst := by
  rw [m_eq, ext_cast, app_hi _ _ (by decide), app_hi _ _ (by decide), app_hi _ _ (by decide), app_hi _ _ (by decide), app_hi _ _ (by decide), app_hi _ _ (by decide), app_hi _ _ (by decide), app_lo _ _ (by decide), ext_all]
theorem m_op : (Enc.m op a x y).extractLsb' 25 7 = op := by
  rw [m_eq, ext_cast, app_hi _ _ (by decide), app_hi _ _ (by decide), app_hi _ _ (by decide), app_hi _ _ (by decide), app_hi _ _ (by decide), app_hi _ _ (by decide), app_hi _ _ (by decide), app_hi _ _ (by decide), ext_all]

theorem mAct_m : Dec.mAct (Enc.m op a x y) = a := by
  unfold Dec.mAct Dec.selDst Dec.selSa Dec.selSb
  rw [m_dst, m_sa, m_sb, m_size, m_ord, m_scope]
  simp
end

theorem m_word (w : BitVec 32) : Enc.m (opOf w) (Dec.mAct w) (w.extractLsb' 3 4) (w.extractLsb' 0 3) = w := by
  unfold Enc.m Dec.mAct opOf Dec.selDst Dec.selSa Dec.selSb
  simp only [dst_dec, src_dec, size_dec, ord_dec, scope_dec]
  rw [show w.extractLsb' 25 7 ++ w.extractLsb' 21 4 = w.extractLsb' 21 (7 + 4) from ext_join w 21 7 4,
    show w.extractLsb' 21 (7 + 4) ++ w.extractLsb' 17 4 = w.extractLsb' 17 (7 + 4 + 4) from ext_join w 17 11 4,
    show w.extractLsb' 17 (7 + 4 + 4) ++ w.extractLsb' 13 4 = w.extractLsb' 13 (7 + 4 + 4 + 4) from ext_join w 13 15 4,
    show w.extractLsb' 13 (7 + 4 + 4 + 4) ++ w.extractLsb' 11 2 = w.extractLsb' 11 (7 + 4 + 4 + 4 + 2) from ext_join w 11 19 2,
    show w.extractLsb' 11 (7 + 4 + 4 + 4 + 2) ++ w.extractLsb' 9 2 = w.extractLsb' 9 (7 + 4 + 4 + 4 + 2 + 2) from ext_join w 9 21 2,
    show w.extractLsb' 9 (7 + 4 + 4 + 4 + 2 + 2) ++ w.extractLsb' 7 2 = w.extractLsb' 7 (7 + 4 + 4 + 4 + 2 + 2 + 2) from ext_join w 7 23 2,
    show w.extractLsb' 7 (7 + 4 + 4 + 4 + 2 + 2 + 2) ++ w.extractLsb' 3 4 = w.extractLsb' 3 (7 + 4 + 4 + 4 + 2 + 2 + 2 + 4) from ext_join w 3 25 4,
    show w.extractLsb' 3 (7 + 4 + 4 + 4 + 2 + 2 + 2 + 4) ++ w.extractLsb' 0 3 = w.extractLsb' 0 (7 + 4 + 4 + 4 + 2 + 2 + 2 + 4 + 3) from ext_join w 0 29 3]
  exact ext_all w

/-! ### The E-form -/

section
variable (op : BitVec 7) (a : EAct) (x : BitVec 11)

theorem e_eq : Enc.e op a x = BitVec.cast (by decide) (op ++ Enc.dst a.dst ++ Enc.src a.sa ++ Enc.src a.sb ++ Enc.scope a.scope ++ x) := rfl

theorem e_flags : (Enc.e op a x).extractLsb' 0 11 = x := by
  rw [e_eq, ext_cast, app_lo _ _ (by decide), ext_all]
theorem e_scope : (Enc.e op a x).extractLsb' 11 2 = Enc.scope a.scope := by
  rw [e_eq, ext_cast, app_hi _ _ (by decide), app_lo _ _ (by decide), ext_all]
theorem e_sb : (Enc.e op a x).extractLsb' 13 4 = Enc.src a.sb := by
  rw [e_eq, ext_cast, app_hi _ _ (by decide), app_hi _ _ (by decide), app_lo _ _ (by decide), ext_all]
theorem e_sa : (Enc.e op a x).extractLsb' 17 4 = Enc.src a.sa := by
  rw [e_eq, ext_cast, app_hi _ _ (by decide), app_hi _ _ (by decide), app_hi _ _ (by decide), app_lo _ _ (by decide), ext_all]
theorem e_dst : (Enc.e op a x).extractLsb' 21 4 = Enc.dst a.dst := by
  rw [e_eq, ext_cast, app_hi _ _ (by decide), app_hi _ _ (by decide), app_hi _ _ (by decide), app_hi _ _ (by decide), app_lo _ _ (by decide), ext_all]
theorem e_op : (Enc.e op a x).extractLsb' 25 7 = op := by
  rw [e_eq, ext_cast, app_hi _ _ (by decide), app_hi _ _ (by decide), app_hi _ _ (by decide), app_hi _ _ (by decide), app_hi _ _ (by decide), ext_all]

theorem eAct_e : Dec.eAct (Enc.e op a x) = a := by
  unfold Dec.eAct Dec.selDst Dec.selSa Dec.selSb
  rw [e_dst, e_sa, e_sb, e_scope]
  simp

theorem eForm_e (mask : BitVec 11) (y : Except Reject Instr) (h : x &&& ~~~mask = 0#11) : Dec.eForm (Enc.e op a x) mask y = y := by
  unfold Dec.eForm
  rw [e_flags, h]
  rfl
end

theorem e_word (w : BitVec 32) : Enc.e (opOf w) (Dec.eAct w) (w.extractLsb' 0 11) = w := by
  unfold Enc.e Dec.eAct opOf Dec.selDst Dec.selSa Dec.selSb
  simp only [dst_dec, src_dec, scope_dec]
  rw [show w.extractLsb' 25 7 ++ w.extractLsb' 21 4 = w.extractLsb' 21 (7 + 4) from ext_join w 21 7 4,
    show w.extractLsb' 21 (7 + 4) ++ w.extractLsb' 17 4 = w.extractLsb' 17 (7 + 4 + 4) from ext_join w 17 11 4,
    show w.extractLsb' 17 (7 + 4 + 4) ++ w.extractLsb' 13 4 = w.extractLsb' 13 (7 + 4 + 4 + 4) from ext_join w 13 15 4,
    show w.extractLsb' 13 (7 + 4 + 4 + 4) ++ w.extractLsb' 11 2 = w.extractLsb' 11 (7 + 4 + 4 + 4 + 2) from ext_join w 11 19 2,
    show w.extractLsb' 11 (7 + 4 + 4 + 4 + 2) ++ w.extractLsb' 0 11 = w.extractLsb' 0 (7 + 4 + 4 + 4 + 2 + 11) from ext_join w 0 21 11]
  exact ext_all w

/-! ### The X-form -/

section
variable (op : BitVec 7) (a : XAct) (x : BitVec 3)

theorem x_eq : Enc.x op a x = BitVec.cast (by decide) (op ++ 0#2 ++ BitVec.ofNat 2 a.an.val ++ Enc.src a.sa ++ Enc.dst a.dst ++ 0#3 ++ Enc.upd a.upd ++ 0#2 ++ x) := rfl

theorem x_fcs : (Enc.x op a x).extractLsb' 0 3 = x := by
  rw [x_eq, ext_cast, app_lo _ _ (by decide), ext_all]
theorem x_tb : (Enc.x op a x).extractLsb' 3 2 = 0#2 := by
  rw [x_eq, ext_cast, app_hi _ _ (by decide), app_lo _ _ (by decide), ext_all]
theorem x_u : (Enc.x op a x).extractLsb' 5 5 = Enc.upd a.upd := by
  rw [x_eq, ext_cast, app_hi _ _ (by decide), app_hi _ _ (by decide), app_lo _ _ (by decide), ext_all]
theorem x_ids : (Enc.x op a x).extractLsb' 10 3 = 0#3 := by
  rw [x_eq, ext_cast, app_hi _ _ (by decide), app_hi _ _ (by decide), app_hi _ _ (by decide), app_lo _ _ (by decide), ext_all]
theorem x_dst : (Enc.x op a x).extractLsb' 13 4 = Enc.dst a.dst := by
  rw [x_eq, ext_cast, app_hi _ _ (by decide), app_hi _ _ (by decide), app_hi _ _ (by decide), app_hi _ _ (by decide), app_lo _ _ (by decide), ext_all]
theorem x_sa : (Enc.x op a x).extractLsb' 17 4 = Enc.src a.sa := by
  rw [x_eq, ext_cast, app_hi _ _ (by decide), app_hi _ _ (by decide), app_hi _ _ (by decide), app_hi _ _ (by decide), app_hi _ _ (by decide), app_lo _ _ (by decide), ext_all]
theorem x_an : (Enc.x op a x).extractLsb' 21 2 = BitVec.ofNat 2 a.an.val := by
  rw [x_eq, ext_cast, app_hi _ _ (by decide), app_hi _ _ (by decide), app_hi _ _ (by decide), app_hi _ _ (by decide), app_hi _ _ (by decide), app_hi _ _ (by decide), app_lo _ _ (by decide), ext_all]
theorem x_df : (Enc.x op a x).extractLsb' 23 2 = 0#2 := by
  rw [x_eq, ext_cast, app_hi _ _ (by decide), app_hi _ _ (by decide), app_hi _ _ (by decide), app_hi _ _ (by decide), app_hi _ _ (by decide), app_hi _ _ (by decide), app_hi _ _ (by decide), app_lo _ _ (by decide), ext_all]
theorem x_op : (Enc.x op a x).extractLsb' 25 7 = op := by
  rw [x_eq, ext_cast, app_hi _ _ (by decide), app_hi _ _ (by decide), app_hi _ _ (by decide), app_hi _ _ (by decide), app_hi _ _ (by decide), app_hi _ _ (by decide), app_hi _ _ (by decide), app_hi _ _ (by decide), ext_all]

theorem xForm_x (useFcs : Bool) (g : XAct → Fcs → Instr) (h : useFcs = true ∨ x = 0#3) : Dec.xForm (Enc.x op a x) useFcs g = .ok (g a (Dec.fcs x)) := by
  have k : ∀ n : Fin 4, Dec.fin4 (BitVec.ofNat 2 n.val) = n := by decide
  unfold Dec.xForm Dec.selSa Dec.selSb
  rw [x_df, x_ids, x_tb, x_fcs, show 8 = 5 + 3 from rfl, sub_ext (x_u op a x) (by decide), show (Enc.x op a x).extractLsb' 5 3 = (Enc.upd a.upd).extractLsb' 0 3 from
    sub_ext (s := 0) (x_u op a x) (by decide), upd_enc, x_an, x_sa, x_dst, k, src_enc, dst_enc]
  simp only [guard_ok]
  exact ⟨rfl, by rcases h with h | h <;> simp [h], trivial⟩
end

theorem x_word (w : BitVec 32) : opOf w ++ w.extractLsb' 23 2 ++ w.extractLsb' 21 2 ++ w.extractLsb' 17 4 ++ w.extractLsb' 13 4 ++ w.extractLsb' 10 3 ++
    (w.extractLsb' 8 2 ++ w.extractLsb' 5 3) ++ w.extractLsb' 3 2 ++ w.extractLsb' 0 3 = w := by
  unfold opOf
  rw [show w.extractLsb' 8 2 ++ w.extractLsb' 5 3 = w.extractLsb' 5 5 from ext_join w 5 2 3,
    show w.extractLsb' 25 7 ++ w.extractLsb' 23 2 = w.extractLsb' 23 (7 + 2) from ext_join w 23 7 2,
    show w.extractLsb' 23 (7 + 2) ++ w.extractLsb' 21 2 = w.extractLsb' 21 (7 + 2 + 2) from ext_join w 21 9 2,
    show w.extractLsb' 21 (7 + 2 + 2) ++ w.extractLsb' 17 4 = w.extractLsb' 17 (7 + 2 + 2 + 4) from ext_join w 17 11 4,
    show w.extractLsb' 17 (7 + 2 + 2 + 4) ++ w.extractLsb' 13 4 = w.extractLsb' 13 (7 + 2 + 2 + 4 + 4) from ext_join w 13 15 4,
    show w.extractLsb' 13 (7 + 2 + 2 + 4 + 4) ++ w.extractLsb' 10 3 = w.extractLsb' 10 (7 + 2 + 2 + 4 + 4 + 3) from ext_join w 10 19 3,
    show w.extractLsb' 10 (7 + 2 + 2 + 4 + 4 + 3) ++ w.extractLsb' 5 5 = w.extractLsb' 5 (7 + 2 + 2 + 4 + 4 + 3 + 5) from ext_join w 5 22 5,
    show w.extractLsb' 5 (7 + 2 + 2 + 4 + 4 + 3 + 5) ++ w.extractLsb' 3 2 = w.extractLsb' 3 (7 + 2 + 2 + 4 + 4 + 3 + 5 + 2) from ext_join w 3 27 2,
    show w.extractLsb' 3 (7 + 2 + 2 + 4 + 4 + 3 + 5 + 2) ++ w.extractLsb' 0 3 = w.extractLsb' 0 (7 + 2 + 2 + 4 + 4 + 3 + 5 + 2 + 3) from ext_join w 0 29 3]
  exact ext_all w

theorem xForm_inv {w : BitVec 32} {b : Bool} {g : XAct → Fcs → Instr} {i : Instr} (h : Dec.xForm w b g = .ok i) :
    ∃ a x, i = g a (Dec.fcs x) ∧ w = Enc.x (opOf w) a x ∧ (b = true ∨ x = 0#3) := by
  unfold Dec.xForm at h
  simp only [guard_ok, Bool.and_eq_true, Bool.or_eq_true, beq_iff_eq] at h
  obtain ⟨⟨⟨h1, h2⟩, h3⟩, h4, h5⟩ := h
  split at h5
  · cases h5
  · next u hu =>
    refine ⟨_, w.extractLsb' 0 3, (Except.ok.inj h5).symm, ?_, h4⟩
    have k : ∀ b : BitVec 2, BitVec.ofNat 2 (Dec.fin4 b).val = b := by decide
    unfold Enc.x Dec.selSa Dec.selSb
    simp only [dst_dec, src_dec, upd_dec hu, k]
    have q := x_word w
    rw [h1, h2, h3] at q
    exact q.symm

end Sys2Proof.Laws
end

