-- ==== Sys2Proof/Laws/Tables.lean ====
section
/-!
SUPPORT. The laws of finite maps: what a put, a change and a removal leave to be found.
-/

namespace Sys2Proof.Laws

open Machine

variable {α : Type}

@[simp] theorem find_nil (n : Nat) : Tbl.find ([] : Tbl α) n = none := rfl

/-- The key put is found. -/
@[simp] theorem find_put_same (t : Tbl α) (n : Nat) (x : α) : Tbl.find (Tbl.put t n x) n = some x := by
  induction t with
  | nil => simp [Tbl.put, Tbl.find]
  | cons p t ih =>
    obtain ⟨k, v⟩ := p
    simp only [Tbl.put]
    split
    · simp [Tbl.find]
    · split
      · simp [Tbl.find]
      · simp [Tbl.find, *]

/-- Every other key is found as before. -/
theorem find_put_other (t : Tbl α) {n m : Nat} (x : α) (h : m ≠ n) : Tbl.find (Tbl.put t n x) m = Tbl.find t m := by
  induction t with
  | nil => simp [Tbl.put, Tbl.find, h]
  | cons p t ih =>
    obtain ⟨k, v⟩ := p
    simp only [Tbl.put]
    split
    · simp [Tbl.find, h]
    · split
      · next hn => subst hn; simp [Tbl.find, h]
      · simp only [Tbl.find]; split
        · rfl
        · exact ih

theorem find_put (t : Tbl α) (n m : Nat) (x : α) : Tbl.find (Tbl.put t n x) m = if m = n then some x else Tbl.find t m := by
  split
  · next h => subst h; simp
  · next h => exact find_put_other t x h

@[simp] theorem findD_put_same (t : Tbl α) (n : Nat) (x d : α) : Tbl.findD (Tbl.put t n x) n d = x := by simp [Tbl.findD]

theorem findD_put_other (t : Tbl α) {n m : Nat} (x d : α) (h : m ≠ n) : Tbl.findD (Tbl.put t n x) m d = Tbl.findD t m d := by
  simp [Tbl.findD, find_put_other t x h]

/-- A change at a key is seen there, and only where there was a value. -/
theorem find_alter_same (t : Tbl α) (n : Nat) (f : α → α) : Tbl.find (Tbl.alter t n f) n = (Tbl.find t n).map f := by
  unfold Tbl.alter
  split
  · next h => simp [h]
  · next h => simp [h]

theorem find_alter_other (t : Tbl α) {n m : Nat} (f : α → α) (h : m ≠ n) : Tbl.find (Tbl.alter t n f) m = Tbl.find t m := by
  unfold Tbl.alter
  split
  · exact find_put_other t _ h
  · rfl

end Sys2Proof.Laws
end

