-- ==== Sys2Proof/Laws/Flow.lean ====
section
/-!
SUPPORT. What the traffic of queues can do: enqueueing, dequeueing and the trace of a firing change queues, channels, the tokens that are to be
joined at the cycle's end, trace units, activity bits and samples of the section flag word, and nothing else.
-/

namespace Sys2Proof.Laws

open Machine

/-- Two locations that name one element. -/
def SamePlace (l m : Loc) : Prop := locKey l = locKey m

theorem getElem_setElem_same (s : State) {l m : Loc} (e : Elem) (h : locKey m = locKey l) : getElem (setElem s l e) m = e := by
  simp [Machine.getElem, h]

theorem getElem_setElem_other (s : State) {l m : Loc} (e : Elem) (h : locKey m ≠ locKey l) : getElem (setElem s l e) m = getElem s m := by
  simp [Machine.getElem, findD_put_other _ _ _ h]

theorem getElem_modElem_same (s : State) {l m : Loc} (f : Elem → Elem) (h : locKey m = locKey l) : getElem (modElem s l f) m = f (getElem s m) := by
  rw [modElem, getElem_setElem_same _ _ h]; simp [Machine.getElem, h]

theorem getElem_modElem_other (s : State) {l m : Loc} (f : Elem → Elem) (h : locKey m ≠ locKey l) : getElem (modElem s l f) m = getElem s m :=
  getElem_setElem_other s _ h

theorem getPlot_modPlot_same (s : State) (n : Nat) (f : Plot → Plot) : getPlot (modPlot s n f) n = f (getPlot s n) := by
  simp [modPlot, getPlot]

theorem getPlot_modPlot_other (s : State) {n m : Nat} (f : Plot → Plot) (h : m ≠ n) : getPlot (modPlot s n f) m = getPlot s m := by
  simp [modPlot, getPlot, findD_put_other _ _ _ h]

/-- Nothing of an element changes but its queues, its channels, and the tokens that are to be joined at the cycle's end. -/
structure ElemFlow (e e' : Elem) : Prop where
  rest : { e' with ins := e.ins, outs := e.outs, joined := e.joined } = e

/-- Nothing of a plot changes but its trace unit and its activity bit. -/
def PlotFlow (p q : Plot) : Prop := { q with trace := p.trace, active := p.active } = p

/-- Tokens moved between two states, and nothing else. -/
structure Flows (s t : State) : Prop where
  rest : t = { s with elems := t.elems, plots := t.plots, parcels := t.parcels }
  elem : ∀ m, ElemFlow (getElem s m) (getElem t m)
  plot : ∀ n, PlotFlow (getPlot s n) (getPlot t n)

theorem elemFlow_refl (e : Elem) : ElemFlow e e := ⟨rfl⟩

theorem elemFlow_trans {a b c : Elem} (h : ElemFlow a b) (k : ElemFlow b c) : ElemFlow a c := by
  have h1 := h.rest
  have k1 := k.rest
  rw [← k1] at h1
  exact ⟨h1⟩

theorem plotFlow_trans {a b c : Plot} (h : PlotFlow a b) (k : PlotFlow b c) : PlotFlow a c := by
  unfold PlotFlow at *
  rw [← k] at h
  exact h

theorem flows_refl (s : State) : Flows s s := ⟨rfl, fun _ => elemFlow_refl _, fun _ => rfl⟩

theorem flows_trans {s t u : State} (h : Flows s t) (k : Flows t u) : Flows s u := by
  refine ⟨?_, fun m => elemFlow_trans (h.elem m) (k.elem m), fun n => plotFlow_trans (h.plot n) (k.plot n)⟩
  have h1 := h.rest
  have k1 := k.rest
  rw [h1] at k1
  exact k1

theorem flows_foldl {α : Type} (f : State → α → State) (h : ∀ s x, Flows s (f s x)) : ∀ (xs : List α) (s : State), Flows s (xs.foldl f s)
  | [], s => flows_refl s
  | x :: xs, s => flows_trans (h s x) (flows_foldl f h xs (f s x))

/-- One element changed by traffic. -/
theorem flows_setElem (s : State) (l : Loc) (e : Elem) (h : ElemFlow (getElem s l) e) : Flows s (setElem s l e) := by
  refine ⟨rfl, fun m => ?_, fun n => rfl⟩
  by_cases hm : locKey m = locKey l
  · rw [getElem_setElem_same _ _ hm]
    have : getElem s m = getElem s l := by simp [Machine.getElem, hm]
    rw [this]; exact h
  · rw [getElem_setElem_other _ _ hm]; exact elemFlow_refl _

theorem flows_modElem (s : State) (l : Loc) (f : Elem → Elem) (h : ∀ e, ElemFlow e (f e)) : Flows s (modElem s l f) :=
  flows_setElem s l _ (h _)

theorem flows_modPlot (s : State) (n : Nat) (f : Plot → Plot) (h : ∀ p, PlotFlow p (f p)) : Flows s (modPlot s n f) := by
  refine ⟨rfl, fun m => elemFlow_refl _, fun m => ?_⟩
  by_cases hm : m = n
  · subst hm; rw [getPlot_modPlot_same]; exact h _
  · rw [getPlot_modPlot_other _ _ hm]; rfl

theorem flows_markActive (s : State) (n : Nat) : Flows s (markActive s n) := flows_modPlot s n _ fun _ => rfl

theorem elemFlow_setIn (e : Elem) (n : Fin 4) (p : InPort) : ElemFlow e (setIn e n p) := ⟨rfl⟩
theorem elemFlow_setOut (e : Elem) (n : Fin 4) (p : OutPort) : ElemFlow e (setOut e n p) := ⟨rfl⟩

theorem flows_pushOut (s : State) (l : Loc) (n : Fin 4) (x : Entry) : Flows s (pushOut s l n x) := by
  unfold pushOut
  simp only
  split
  · exact flows_refl s
  · refine flows_trans (flows_markActive s l.plot) ?_
    split
    · exact flows_setElem _ _ _ (elemFlow_setOut _ _ _)
    · split
      · exact flows_refl _
      · exact flows_setElem _ _ _ (elemFlow_setIn _ _ _)

theorem flows_enqueue (s : State) (l : Loc) (n : Fin 4) (tok : Token) : Flows s (enqueue s l n tok) := flows_pushOut s l n _

theorem flows_writeTokens (s : State) (l : Loc) (d : Dst) (tok : Token) (only : Option (Fin 4)) : Flows s (writeTokens s l d tok only) := by
  unfold writeTokens
  split
  · exact flows_enqueue _ _ _ _
  · exact flows_foldl _ (fun s n => flows_enqueue s l n tok) _ s

theorem flows_modParcel (s : State) (n : Nat) (f : Parcel → Parcel) : Flows s (modParcel s n f) :=
  ⟨rfl, fun _ => elemFlow_refl _, fun _ => rfl⟩

theorem flows_dequeue (s : State) (l : Loc) (n : Fin 4) : Flows s (dequeue s l n) := by
  unfold dequeue
  simp only
  split
  · exact flows_refl s
  · rename_i x xs _
    have h1 : ∀ (c : Bool) (f : State → State) (t u : State), Flows t u → (∀ u, Flows u (f u)) → Flows t (if c then f u else u) := by
      intro c f t u h k
      split
      · exact flows_trans h (k u)
      · exact h
    have h2 : Flows s (setElem s l (setIn (Machine.getElem s l) n { inPort (Machine.getElem s l) n with q := queuePop (now s) (inPort (Machine.getElem s l) n).q })) :=
      flows_setElem _ _ _ (elemFlow_setIn _ _ _)
    have h3 : ∀ u, Flows s u → Flows s (match (inPort (Machine.getElem s l) n).src with
        | some (sl, so) => if (inPort (Machine.getElem s l) n).long then
            modElem u sl fun d => setOut d so (creditBack (now u) (inPort (Machine.getElem s l) n) (outPort d so)) else u
        | none => u) := by
      intro u h
      split
      · split
        · exact flows_trans h (flows_modElem _ _ _ fun e => elemFlow_setOut _ _ _)
        · exact h
      · exact h
    have h4 : ∀ u, Flows s u → Flows s (match x.own with
        | some o => modElem u o fun e => { e with joined := e.joined ++ [x.rid] }
        | none => u) := by
      intro u h
      split
      · exact flows_trans h (flows_modElem _ _ _ fun _ => ⟨rfl⟩)
      · exact h
    have h5 := h4 _ (h3 _ h2)
    split
    · split
      · exact flows_trans h5 (flows_modParcel _ _ _)
      · exact h5
    · exact h5

theorem flows_dequeueAll (s : State) (l : Loc) (cs : List (Fin 4)) : Flows s (dequeueAll s l cs) :=
  flows_foldl _ (fun s n => flows_dequeue s l n) _ s

theorem flows_dequeueNamed (s : State) (l : Loc) (sp : FireSpec) : Flows s (dequeueNamed s l sp) := by
  unfold dequeueNamed
  split
  · exact flows_refl s
  · exact flows_dequeueAll _ _ _

theorem flows_traceEvent (s : State) (n : Nat) (e : TraceEv) : Flows s (traceEvent s n e) := by
  unfold traceEvent
  simp only
  split
  · exact flows_modPlot _ _ _ fun p => rfl
  · exact flows_refl s

theorem flows_traceFiring (s : State) (l : Loc) (n : Fin 16) (e : Elem) : Flows s (traceFiring s l n e) := flows_traceEvent _ _ _

/-- A beat with no effect of its own beside its element: what it commits to the element, and traffic (spec 08 R136). -/
theorem commitBeat_flows (sp : FireSpec) (s : State) (o : BeatOut) (hp : o.post = id) :
    Flows (modElem s s.sched.cur.l (commitElem sp s.sched.cur (now s) o)) (commitBeat sp s o) := by
  unfold commitBeat
  simp only [hp, id]
  have h1 : ∀ (c : Bool) (t u : State), Flows t u → Flows t (if c then u else writeTokens u s.sched.cur.l sp.dst (o.tok.getD (resultToken sp.otag o.v)) o.only) := by
    intro c t u h
    split
    · exact h
    · exact flows_trans h (flows_writeTokens _ _ _ _ _)
  have h2 := flows_trans (flows_trans (h1 (sp.async && !s.sched.cur.mode.isSubst) _ _ (flows_refl (modElem s s.sched.cur.l (commitElem sp s.sched.cur (now s) o))))
    (flows_dequeueNamed _ s.sched.cur.l sp)) (flows_markActive _ s.sched.cur.l.plot)
  have key : ∀ (c : Bool) (b u v : State), Flows b u → Flows u v → Flows b (if c then u else v) := by
    intro c b u v h k
    split
    · exact h
    · exact flows_trans h k
  exact key _ _ _ _ h2 (flows_traceFiring _ _ _ _)

end Sys2Proof.Laws
end

