-- ==== Sys2Proof/Laws/MemBase.lean ====
section
/-!
SUPPORT. What keeps the canonical form of memory: the vocabulary of the lemmas of MemOps to MemSystem, one for each operation. `mem_f` says that f
leaves memory as it is, `ok_f` that f keeps its canonical form, `posts_f` the same of what the beats of an instruction give, and `next_f` of the next
state that a step of the machine answers.
-/

namespace Sys2Proof.Laws

open Machine

/-- A next state, if that is the outcome, has canonical memory. -/
@[irreducible] def NextOk (o : Out) : Prop := ∀ t, o = .next t → MemoryOk t

/-- What a beat gives leaves memory canonical. -/
@[irreducible] def ResKeeps (r : BeatRes) : Prop := ∀ o, r = .ok o → ∀ s, Memory.wf s.mem = true → Memory.wf (o.post s).mem = true

/-- Every beat of an instruction leaves memory canonical. -/
abbrev PostsKeep (sp : FireSpec) : Prop := ∀ x, ResKeeps (sp.op x)

theorem nextOk_def (o : Out) : NextOk o ↔ ∀ t, o = .next t → MemoryOk t := by unfold NextOk; exact Iff.rfl
theorem resKeeps_def (r : BeatRes) : ResKeeps r ↔ ∀ o, r = .ok o → ∀ s, Memory.wf s.mem = true → Memory.wf (o.post s).mem = true := by
  unfold ResKeeps; exact Iff.rfl

@[simp] theorem nextOk_next (s : State) : NextOk (.next s) ↔ MemoryOk s := by
  rw [nextOk_def]; exact ⟨fun h => h s rfl, fun h t e => by cases e; exact h⟩
@[simp] theorem nextOk_fault (f : Fault) : NextOk (.fault f) := by rw [nextOk_def]; exact fun _ e => nomatch e
@[simp] theorem nextOk_refused (f : Refusal) : NextOk (.refused f) := by rw [nextOk_def]; exact fun _ e => nomatch e

@[simp] theorem resKeeps_ok (o : BeatOut) : ResKeeps (.ok o) ↔ ∀ s, Memory.wf s.mem = true → Memory.wf (o.post s).mem = true := by
  rw [resKeeps_def]; exact ⟨fun h => h o rfl, fun h _ e => by cases e; exact h⟩
@[simp] theorem resKeeps_bad (c : FaultClass) (n : Nat) (a b : Word) : ResKeeps (.bad c n a b) := by rw [resKeeps_def]; exact fun _ e => nomatch e
@[simp] theorem resKeeps_okWord (v : Word) : ResKeeps (okWord v) := by simp [okWord]
@[simp] theorem resKeeps_okFlags (v : Word) (f : Machine.Flags) : ResKeeps (okFlags v f) := by simp [okFlags]
@[simp] theorem resKeeps_okBeat (v : Beat) : ResKeeps (okBeat v) := by simp [okBeat]
@[simp] theorem resKeeps_badOperand (w : Word) : ResKeeps (badOperand w) := by simp [badOperand]

@[simp] theorem ok_reset : Memory.wf State.reset.mem = true := rfl

@[simp] theorem ok_writeBytes (bs : List Byte) (a : Nat) {t : List Host.Cell} (h : Memory.wf t = true) : Memory.wf (writeBytes t a bs) = true :=
  wf_writeBytes bs a h

theorem mem_foldl {α : Type} (f : State → α → State) (h : ∀ s x, (f s x).mem = s.mem) : ∀ (xs : List α) (s : State), (xs.foldl f s).mem = s.mem
  | [], _ => rfl
  | x :: xs, s => (mem_foldl f h xs (f s x)).trans (h s x)

theorem ok_foldl {α : Type} (f : State → α → State) (h : ∀ s x, Memory.wf s.mem = true → Memory.wf (f s x).mem = true) :
    ∀ (xs : List α) (s : State), Memory.wf s.mem = true → Memory.wf (xs.foldl f s).mem = true
  | [], _, k => k
  | x :: xs, s, k => ok_foldl f h xs (f s x) (h s x k)

theorem mem_foldl_fst {α β : Type} (f : State × β → α → State × β) (h : ∀ p x, (f p x).1.mem = p.1.mem) :
    ∀ (xs : List α) (p : State × β), (xs.foldl f p).1.mem = p.1.mem
  | [], _ => rfl
  | x :: xs, p => (mem_foldl_fst f h xs (f p x)).trans (h p x)

theorem ok_foldl_fst {α β : Type} (f : State × β → α → State × β) (h : ∀ p x, Memory.wf p.1.mem = true → Memory.wf (f p x).1.mem = true) :
    ∀ (xs : List α) (p : State × β), Memory.wf p.1.mem = true → Memory.wf (xs.foldl f p).1.mem = true
  | [], _, k => k
  | x :: xs, p, k => ok_foldl_fst f h xs (f p x) (h p x k)

/-- The state that an operation which can give none gives. -/
theorem mem_of_getD {o : Option State} {s t : State} (k : (o.getD s).mem = s.mem) (e : o = some t) : t.mem = s.mem := by rw [e] at k; exact k

theorem mem_getD_of {o : Option State} {s u : State} (k : (o.getD u).mem = u.mem) (e : u.mem = s.mem) : (o.getD s).mem = s.mem := by
  cases o with
  | none => rfl
  | some t => exact Eq.trans k e

/-- The state of a pair. -/
theorem pair_fst {β : Type} {p : State × β} {t : State} {y : β} (e : p = (t, y)) : t = p.1 := by rw [e]

@[simp] theorem mem_ite {c : Prop} [Decidable c] (s t : State) : (if c then s else t).mem = if c then s.mem else t.mem := by split <;> rfl
@[simp] theorem specR_op (r : RAct) (op : BeatIn → BeatRes) : (specR r op).op = op := rfl
@[simp] theorem specR3_op (r : RAct) (op : BeatIn → BeatRes) : (specR3 r op).op = op := rfl
@[simp] theorem specI_op (r : IAct) (op : BeatIn → BeatRes) : (specI r op).op = op := rfl

end Sys2Proof.Laws
end

