-- ==== Sys2Proof/Laws/MemOps.lean ====
section
/-!
SUPPORT. Which operations leave memory as it is or keep its canonical form: the named operations and the shared firing. The names are those of MemBase.
-/

set_option linter.unusedVariables false
set_option linter.unusedSimpArgs false

namespace Sys2Proof.Laws

open Machine

/-! ### Access -/

@[simp] theorem mem_setElem (s : State) (l : Loc) (e : Elem) : (setElem s l e).mem = s.mem := by unfold setElem; rfl

@[simp] theorem mem_modElem (s : State) (l : Loc) (f : Elem → Elem) : (modElem s l f).mem = s.mem := by unfold modElem; rfl

@[simp] theorem mem_setPlot (s : State) (n : Nat) (p : Plot) : (setPlot s n p).mem = s.mem := by unfold setPlot; rfl

@[simp] theorem mem_modPlot (s : State) (n : Nat) (f : Plot → Plot) : (modPlot s n f).mem = s.mem := by unfold modPlot; rfl

@[simp] theorem mem_setParcel (s : State) (n : Nat) (p : Parcel) : (setParcel s n p).mem = s.mem := by unfold setParcel; rfl

@[simp] theorem mem_modParcel (s : State) (n : Nat) (f : Parcel → Parcel) : (modParcel s n f).mem = s.mem := by unfold modParcel; rfl

@[simp] theorem mem_setDie (s : State) (n : Nat) (d : Die) : (setDie s n d).mem = s.mem := by unfold setDie; rfl

@[simp] theorem mem_modDie (s : State) (n : Nat) (f : Die → Die) : (modDie s n f).mem = s.mem := by unfold modDie; rfl

@[simp] theorem mem_setCtx (s : State) (n : Nat) (c : Ctx) : (setCtx s n c).mem = s.mem := by unfold setCtx; rfl

@[simp] theorem mem_modCtx (s : State) (n : Nat) (f : Ctx → Ctx) : (modCtx s n f).mem = s.mem := by unfold modCtx; rfl

@[simp] theorem mem_modSched (s : State) (f : Sched → Sched) : (modSched s f).mem = s.mem := by unfold modSched; rfl

@[simp] theorem mem_bumpId (s : State) : (bumpId s).mem = s.mem := by unfold bumpId; rfl

@[simp] theorem mem_markActive (s : State) (plot : Nat) : (markActive s plot).mem = s.mem := by unfold markActive; rfl

@[simp] theorem mem_pushOut (s : State) (l : Loc) (n : Fin 4) (x : Entry) : (pushOut s l n x).mem = s.mem := by
  unfold pushOut
  dsimp only
  repeat' split
  all_goals simp [mem_foldl]

@[simp] theorem mem_enqueue (s : State) (l : Loc) (n : Fin 4) (tok : Token) : (enqueue s l n tok).mem = s.mem := by simp [enqueue]

@[simp] theorem mem_reserve (s : State) (l : Loc) (d : Dst) (rid : Nat) (join : Bool) : (reserve s l d rid join).mem = s.mem := by simp [reserve, mem_foldl]

@[simp] theorem mem_fillRid (s : State) (rid : Nat) (tok : Token) : (fillRid s rid tok).mem = s.mem := by unfold fillRid; rfl

@[simp] theorem mem_dequeue (s : State) (l : Loc) (n : Fin 4) : (dequeue s l n).mem = s.mem := by
  unfold dequeue
  dsimp only
  repeat' split
  all_goals simp [mem_foldl]

@[simp] theorem mem_dequeueAll (s : State) (l : Loc) (cs : List (Fin 4)) : (dequeueAll s l cs).mem = s.mem := by simp [dequeueAll, mem_foldl]

/-! ### Ops -/

@[simp] theorem ok_memWrite (s : State) (a : Nat) (bs : List Byte) (h : Memory.wf s.mem = true) : Memory.wf (memWrite s a bs).mem = true := wf_writeBytes bs a h


@[simp] theorem mem_raiseMsix (s : State) (fn : Nat) (vec : Nat) : (raiseMsix s fn vec).mem = s.mem := by unfold raiseMsix; rfl

@[simp] theorem mem_traceEvent (s : State) (plot : Nat) (e : TraceEv) : (traceEvent s plot e).mem = s.mem := by simp [traceEvent]

@[simp] theorem mem_setFault (s : State) (r : FaultRec) : (setFault s r).mem = s.mem := by unfold setFault; rfl

@[simp] theorem mem_dropFault (s : State) (id : Nat) : (dropFault s id).mem = s.mem := by unfold dropFault; rfl

@[simp] theorem mem_modRq (s : State) (l : Loc) (n : Nat) (f : RqEntry → RqEntry) : (modRq s l n f).mem = s.mem := by unfold modRq; rfl

@[simp] theorem mem_showItem (r : FaultRec) (s : State) (a2 : Held) : (showItem r s a2).mem = s.mem := by unfold showItem; split <;> simp

@[simp] theorem mem_giveFid (s : State) (id : Nat) (fid : Nat) : (giveFid s id fid).mem = s.mem := by
  unfold giveFid
  dsimp only
  repeat' split
  all_goals simp [mem_foldl]

@[simp] theorem mem_modReq (s : State) (id : Nat) (f : Req → Req) : (modReq s id f).mem = s.mem := by unfold modReq; rfl

@[simp] theorem mem_dropReq (s : State) (id : Nat) : (dropReq s id).mem = s.mem := by unfold dropReq; rfl

@[simp] theorem mem_modCmd (s : State) (id : Nat) (f : Cmd → Cmd) : (modCmd s id f).mem = s.mem := by unfold modCmd; rfl

@[simp] theorem mem_enterReq (s : State) (id : Nat) : (enterReq s id).mem = s.mem := by unfold enterReq; rfl

@[simp] theorem mem_endWave (s : State) (l : Loc) : (endWave s l).mem = s.mem := by simp [endWave, mem_foldl]

@[simp] theorem mem_postResult (s : State) (rid : Nat) (tok : Token) : (postResult s rid tok).mem = s.mem := by simp [postResult]

@[simp] theorem mem_dropRid (s : State) (rid : Nat) : (dropRid s rid).mem = s.mem := by simp [dropRid]

@[simp] theorem mem_sectionKill (s : State) (n : Nat) (r : FaultRec) : (sectionKill s n r).mem = s.mem := by unfold sectionKill; rfl

@[simp] theorem mem_noteKill (s : State) (plot : Nat) (r : FaultRec) : (noteKill s plot r).mem = s.mem := by unfold noteKill; split <;> simp

@[simp] theorem mem_drainIn (s : State) (l : Loc) (n : Fin 4) : (drainIn s l n).mem = s.mem := by
  unfold drainIn
  repeat' first | intro _ | split | with_reducible refine (mem_foldl _ ?_ _ _).trans ?_ | simp

@[simp] theorem mem_dropSpad (s : State) (l : Loc) (slot : Nat) (r : FaultRec) : (dropSpad s l slot r).mem = s.mem := by
  unfold dropSpad
  dsimp only
  repeat' split
  all_goals simp [mem_foldl]

@[simp] theorem mem_settleInvs (s : State) (plot : Nat) : (settleInvs s plot).mem = s.mem := by simp [settleInvs, mem_foldl]

@[simp] theorem mem_dropFill (s : State) (plot : Nat) (fid : Nat) : (dropFill s plot fid).mem = s.mem := by unfold dropFill; rfl

@[simp] theorem mem_dropGather (s : State) (rid : Nat) : (dropGather s rid).mem = s.mem := by unfold dropGather; rfl

@[simp] theorem mem_addInfl (s : State) (plot : Nat) (a2 : Nat) (up : Bool) : (addInfl s plot a2 up).mem = s.mem := by unfold addInfl; rfl

@[simp] theorem mem_dropLine (s : State) (line : Nat) : (dropLine s line).mem = s.mem := by unfold dropLine; split <;> simp

@[simp] theorem mem_giveUpPart (s : State) (req : Nat) : (giveUpPart s req).mem = s.mem := by
  unfold giveUpPart
  repeat' first | split | rfl

@[simp] theorem mem_giveUpLine (r : FaultRec) (s : State) (rid : Nat) (line : Nat) : (giveUpLine r s rid line).mem = s.mem := by
  unfold giveUpLine
  dsimp only
  repeat' split
  all_goals simp [mem_foldl]

@[simp] theorem mem_discardItem (r : FaultRec) (s : State) (a2 : Held) : (discardItem r s a2).mem = s.mem := by
  unfold discardItem
  dsimp only
  repeat' split
  all_goals simp [mem_foldl]

@[simp] theorem mem_killElem (s : State) (l : Loc) : (killElem s l).mem = s.mem := by
  simp [killElem, mem_foldl]

@[simp] theorem mem_killUnit (s : State) (r : FaultRec) (a2 : Level) : (killUnit s r a2).mem = s.mem := by
  unfold killUnit
  dsimp only
  repeat' split
  all_goals simp [mem_foldl]

@[simp] theorem mem_releasePart (s : State) (l : Loc) (v : Word) (subst : Bool) : (releasePart s l v subst).mem = s.mem := by unfold releasePart; rfl

@[simp] theorem mem_againReq (s : State) (req : Nat) : (againReq s req).mem = s.mem := by unfold againReq; rfl

@[simp] theorem mem_repairItem (a0 : FaultRec) (ans : Answer) (s : State) (a3 : Held) : (repairItem a0 ans s a3).mem = s.mem := by
  unfold repairItem
  dsimp only
  repeat' split
  all_goals simp [mem_foldl]

@[simp] theorem mem_chainReqs : ∀ (a0 : List Req) (a1 : State), (chainReqs a0 a1).mem = a1.mem
  | [], _ => by simp [chainReqs]
  | [_], _ => by simp [chainReqs]
  | _ :: q :: rest, _ => by simp [chainReqs, mem_chainReqs (q :: rest)]


@[simp] theorem mem_repairItems (r : FaultRec) (ans : Answer) (items : List Held) (s : State) : (repairItems r ans items s).mem = s.mem := by simp [repairItems, mem_foldl]

@[simp] theorem mem_containRec (s : State) (r : FaultRec) : (containRec s r).mem = s.mem := by
  unfold containRec
  dsimp only
  repeat' split
  all_goals simp [mem_foldl]

@[simp] theorem mem_answerRec (s : State) (r : FaultRec) (ans : Answer) : (answerRec s r ans).mem = s.mem := by simp [answerRec]

@[simp] theorem mem_answerFid (s : State) (r : FaultRec) (ans : Answer) : (answerFid s r ans).mem = s.mem := by unfold answerFid; split <;> simp

@[simp] theorem mem_answerItem (s : State) (r : FaultRec) (a2 : Held) (ans : Answer) : (answerItem s r a2 ans).mem = s.mem := by simp [answerItem]

@[simp] theorem mem_raiseFault (s : State) (f : FaultInfo) : (raiseFault s f).mem = s.mem := by
  unfold raiseFault
  dsimp only
  repeat' split
  all_goals simp [mem_foldl]

@[simp] theorem mem_holdFiring (s : State) (l : Loc) (slot : Fin 16) (beat : Nat) (step : Nat) (act : BitVec 32) (a : Word) (b : Word) (c : Word) (depth : Nat) (f : FaultInfo) : (holdFiring s l slot beat step act a b c depth f).mem = s.mem := by
  unfold holdFiring
  dsimp only
  repeat' split
  all_goals simp [mem_foldl]

/-! ### Operands -/

@[simp] theorem mem_writeTokens (s : State) (l : Loc) (dst : Dst) (tok : Token) (only : Option (Fin 4)) : (writeTokens s l dst tok only).mem = s.mem := by
  unfold writeTokens
  repeat' first | split | with_reducible refine (mem_foldl _ ?_ _ _).trans ?_ | simp

@[simp] theorem mem_dequeueNamed (s : State) (l : Loc) (sp : FireSpec) : (dequeueNamed s l sp).mem = s.mem := by simp [dequeueNamed]

@[simp] theorem mem_traceFiring (s : State) (l : Loc) (slot : Fin 16) (before : Elem) : (traceFiring s l slot before).mem = s.mem := by simp [traceFiring]

theorem ok_commitBeat (sp : FireSpec) (s : State) (o : BeatOut) (ho : ∀ s, Memory.wf s.mem = true → Memory.wf (o.post s).mem = true)
    (h : Memory.wf s.mem = true) : Memory.wf (commitBeat sp s o).mem = true := by
  unfold commitBeat
  dsimp only
  repeat' split
  all_goals simp [ho, h]


@[simp] theorem mem_holdBeat (sp : FireSpec) (s : State) (x : BeatIn) (cls : FaultClass) (sub : Nat) (i0 : Word) (i1 : Word) : (holdBeat sp s x cls sub i0 i1).mem = s.mem := by simp [holdBeat]

theorem next_runBeat (sp : FireSpec) (s : State) (hp : PostsKeep sp) (h : Memory.wf s.mem = true) : NextOk (runBeat sp s) := by
  unfold runBeat
  dsimp only
  repeat' split
  all_goals simp [MemoryOk, h]
  · exact ok_commitBeat _ _ _ (fun _ k => k) h
  · next x _ _ _ _ _ o e _ =>
    have := hp x
    rw [e, resKeeps_ok] at this
    exact ok_commitBeat _ _ _ this h


@[simp] theorem mem_reserveAck (s : State) (l : Loc) (dst : Dst) (join : Bool) : (reserveAck s l dst join).1.mem = s.mem := by unfold reserveAck; split <;> simp

/-! ### Tiles -/

@[simp] theorem mem_setTile (s : State) (plot : Nat) (a2 : Nat) (t : Tile) : (setTile s plot a2 t).mem = s.mem := by unfold setTile; rfl

@[simp] theorem mem_modMe (s : State) (l : Loc) (f : MeUnit → MeUnit) : (modMe s l f).mem = s.mem := by unfold modMe; rfl

@[simp] theorem mem_modSe (s : State) (l : Loc) (f : SeUnit → SeUnit) : (modSe s l f).mem = s.mem := by unfold modSe; rfl

@[simp] theorem mem_offerLine (s : State) (l : Loc) (t : Tile) (a3 : Nat) (off : Nat) (op : Nat) (act : LineAct) : (offerLine s l t a3 off op act).mem = s.mem := by unfold offerLine; rfl

/-! ### Flags -/

@[simp] theorem res_okLanes (w : Nat) (xs : List (Nat × Flags)) : ResKeeps (okLanes w xs) := by simp [okLanes]

@[simp] theorem res_lanes2 (w : LaneW) (x : BeatIn) (f : Nat → Nat → Nat × Flags) : ResKeeps (lanes2 w x f) := by simp [lanes2]

@[simp] theorem res_lanes1 (w : LaneW) (x : BeatIn) (f : Nat → Nat × Flags) : ResKeeps (lanes1 w x f) := by simp [lanes1]

end Sys2Proof.Laws
end

