-- ==== Sys2Proof/Laws/MemPaths.lean ====
section
/-!
SUPPORT. Which operations leave memory as it is or keep its canonical form: accesses, translation, adapters, banks and channels. The names are those of MemBase.
-/

set_option linter.unusedVariables false
set_option linter.unusedSimpArgs false

namespace Sys2Proof.Laws

open Machine

/-! ### Float -/

@[simp] theorem res_fpLanes (c : FpCtl) (x : BeatIn) (f : Nat → Nat → Nat × Flags) : ResKeeps (fpLanes c x f) := by simp [fpLanes]

@[simp] theorem res_fpLanes3 (c : FpCtl) (x : BeatIn) (f : Nat → Nat → Nat → Nat × Flags) : ResKeeps (fpLanes3 c x f) := by simp [fpLanes3]

@[simp] theorem posts_specFadd (r : RAct) (c : FpCtl) : PostsKeep (specFadd r c) := fun _ => by simp [specFadd]

theorem next_execFadd (r : RAct) (c : FpCtl) (s : State) (h : MemoryOk s) : NextOk (execFadd r c s) :=
  next_runBeat _ _ (fun _ => posts_specFadd ..) h

@[simp] theorem posts_specFsub (r : RAct) (c : FpCtl) : PostsKeep (specFsub r c) := fun _ => by simp [specFsub]

theorem next_execFsub (r : RAct) (c : FpCtl) (s : State) (h : MemoryOk s) : NextOk (execFsub r c s) :=
  next_runBeat _ _ (fun _ => posts_specFsub ..) h

@[simp] theorem posts_specFmul (r : RAct) (c : FpCtl) : PostsKeep (specFmul r c) := fun _ => by simp [specFmul]

theorem next_execFmul (r : RAct) (c : FpCtl) (s : State) (h : MemoryOk s) : NextOk (execFmul r c s) :=
  next_runBeat _ _ (fun _ => posts_specFmul ..) h

@[simp] theorem posts_specFfma (r : RAct) (c : FpCtl) : PostsKeep (specFfma r c) := fun _ => by simp [specFfma]

theorem next_execFfma (r : RAct) (c : FpCtl) (s : State) (h : MemoryOk s) : NextOk (execFfma r c s) :=
  next_runBeat _ _ (fun _ => posts_specFfma ..) h

@[simp] theorem posts_specFmin (r : RAct) (c : FpCtl) : PostsKeep (specFmin r c) := fun _ => by simp [specFmin]

theorem next_execFmin (r : RAct) (c : FpCtl) (s : State) (h : MemoryOk s) : NextOk (execFmin r c s) :=
  next_runBeat _ _ (fun _ => posts_specFmin ..) h

@[simp] theorem posts_specFmax (r : RAct) (c : FpCtl) : PostsKeep (specFmax r c) := fun _ => by simp [specFmax]

theorem next_execFmax (r : RAct) (c : FpCtl) (s : State) (h : MemoryOk s) : NextOk (execFmax r c s) :=
  next_runBeat _ _ (fun _ => posts_specFmax ..) h

@[simp] theorem posts_specFabs (r : RAct) (c : FpCtl) : PostsKeep (specFabs r c) := fun _ => by simp [specFabs]

theorem next_execFabs (r : RAct) (c : FpCtl) (s : State) (h : MemoryOk s) : NextOk (execFabs r c s) :=
  next_runBeat _ _ (fun _ => posts_specFabs ..) h

@[simp] theorem posts_specFneg (r : RAct) (c : FpCtl) : PostsKeep (specFneg r c) := fun _ => by simp [specFneg]

theorem next_execFneg (r : RAct) (c : FpCtl) (s : State) (h : MemoryOk s) : NextOk (execFneg r c s) :=
  next_runBeat _ _ (fun _ => posts_specFneg ..) h

@[simp] theorem posts_specFclt (r : RAct) (c : FpCtl) : PostsKeep (specFclt r c) := fun _ => by simp [specFclt]

theorem next_execFclt (r : RAct) (c : FpCtl) (s : State) (h : MemoryOk s) : NextOk (execFclt r c s) :=
  next_runBeat _ _ (fun _ => posts_specFclt ..) h

@[simp] theorem posts_specFcle (r : RAct) (c : FpCtl) : PostsKeep (specFcle r c) := fun _ => by simp [specFcle]

theorem next_execFcle (r : RAct) (c : FpCtl) (s : State) (h : MemoryOk s) : NextOk (execFcle r c s) :=
  next_runBeat _ _ (fun _ => posts_specFcle ..) h

@[simp] theorem posts_specFceq (r : RAct) (c : FpCtl) : PostsKeep (specFceq r c) := fun _ => by simp [specFceq]

theorem next_execFceq (r : RAct) (c : FpCtl) (s : State) (h : MemoryOk s) : NextOk (execFceq r c s) :=
  next_runBeat _ _ (fun _ => posts_specFceq ..) h

@[simp] theorem posts_specFcun (r : RAct) (c : FpCtl) : PostsKeep (specFcun r c) := fun _ => by simp [specFcun]

theorem next_execFcun (r : RAct) (c : FpCtl) (s : State) (h : MemoryOk s) : NextOk (execFcun r c s) :=
  next_runBeat _ _ (fun _ => posts_specFcun ..) h

@[simp] theorem posts_specFcvt (r : RAct) (fcs : Fcs) : PostsKeep (specFcvt r fcs) := fun _ => by unfold specFcvt; dsimp only [specR_op, specI_op, specR3_op]; split <;> simp

theorem next_execFcvt (r : RAct) (fcs : Fcs) (s : State) (h : MemoryOk s) : NextOk (execFcvt r fcs s) :=
  next_runBeat _ _ (fun _ => posts_specFcvt ..) h

@[simp] theorem posts_specF2i (r : RAct) (signed : Bool) (trunc : Bool) (c : FpCtl) : PostsKeep (specF2i r signed trunc c) := fun _ => by simp [specF2i]

theorem next_execF2i (r : RAct) (signed : Bool) (trunc : Bool) (c : FpCtl) (s : State) (h : MemoryOk s) : NextOk (execF2i r signed trunc c s) :=
  next_runBeat _ _ (fun _ => posts_specF2i ..) h

@[simp] theorem posts_specI2f (r : RAct) (signed : Bool) (c : FpCtl) : PostsKeep (specI2f r signed c) := fun _ => by simp [specI2f]

theorem next_execI2f (r : RAct) (signed : Bool) (c : FpCtl) (s : State) (h : MemoryOk s) : NextOk (execI2f r signed c s) :=
  next_runBeat _ _ (fun _ => posts_specI2f ..) h

@[simp] theorem posts_specFrnd (r : RAct) (rd : Option RCode) (c : FpCtl) : PostsKeep (specFrnd r rd c) := fun _ => by simp [specFrnd]

theorem next_execFrnd (r : RAct) (rd : Option RCode) (c : FpCtl) (s : State) (h : MemoryOk s) : NextOk (execFrnd r rd c s) :=
  next_runBeat _ _ (fun _ => posts_specFrnd ..) h

@[simp] theorem posts_specFscl (r : RAct) (c : FpCtl) : PostsKeep (specFscl r c) := fun _ => by simp [specFscl]

theorem next_execFscl (r : RAct) (c : FpCtl) (s : State) (h : MemoryOk s) : NextOk (execFscl r c s) :=
  next_runBeat _ _ (fun _ => posts_specFscl ..) h

@[simp] theorem posts_specFcls (r : RAct) (c : FpCtl) : PostsKeep (specFcls r c) := fun _ => by simp [specFcls]

theorem next_execFcls (r : RAct) (c : FpCtl) (s : State) (h : MemoryOk s) : NextOk (execFcls r c s) :=
  next_runBeat _ _ (fun _ => posts_specFcls ..) h

@[simp] theorem posts_specFdot (r : RAct) (c : FpCtl) : PostsKeep (specFdot r c) := fun _ => by simp [specFdot]

theorem next_execFdot (r : RAct) (c : FpCtl) (s : State) (h : MemoryOk s) : NextOk (execFdot r c s) :=
  next_runBeat _ _ (fun _ => posts_specFdot ..) h

@[simp] theorem posts_specQ4dq (r : RAct) (c : FpCtl) : PostsKeep (specQ4dq r c) := fun _ => by unfold specQ4dq; dsimp only [specR_op, specI_op, specR3_op]; split <;> simp

theorem next_execQ4dq (r : RAct) (c : FpCtl) (s : State) (h : MemoryOk s) : NextOk (execQ4dq r c s) :=
  next_runBeat _ _ (fun _ => posts_specQ4dq ..) h

@[simp] theorem posts_specQ4q (r : RAct) (c : FpCtl) : PostsKeep (specQ4q r c) := fun _ => by unfold specQ4q; dsimp only [specR_op, specI_op, specR3_op]; split <;> simp

theorem next_execQ4q (r : RAct) (c : FpCtl) (s : State) (h : MemoryOk s) : NextOk (execQ4q r c s) :=
  next_runBeat _ _ (fun _ => posts_specQ4q ..) h

@[simp] theorem posts_specDropm (r : RAct) (c : FpCtl) : PostsKeep (specDropm r c) := fun _ => by unfold specDropm; dsimp only [specR_op, specI_op, specR3_op]; split <;> simp

theorem next_execDropm (r : RAct) (c : FpCtl) (s : State) (h : MemoryOk s) : NextOk (execDropm r c s) :=
  next_runBeat _ _ (fun _ => posts_specDropm ..) h

@[simp] theorem posts_specRnd (r : RAct) (c : FpCtl) : PostsKeep (specRnd r c) := fun _ => by simp [specRnd]

theorem next_execRnd (r : RAct) (c : FpCtl) (s : State) (h : MemoryOk s) : NextOk (execRnd r c s) :=
  next_runBeat _ _ (fun _ => posts_specRnd ..) h

/-! ### Matrix -/

@[simp] theorem mem_setNode (s : State) (l : Loc) (an : Fin 4) (n : AccNode) : (setNode s l an n).mem = s.mem := by unfold setNode; rfl

@[simp] theorem mem_releaseNode (s : State) (l : Loc) (an : Fin 4) (c : Closing) (ch : Fin 2) : (releaseNode s l an c ch).mem = s.mem := by unfold releaseNode; rfl

@[simp] theorem mem_tryRelease (s : State) (l : Loc) (an : Fin 4) : (tryRelease s l an).mem = s.mem := by
  unfold tryRelease
  dsimp only
  repeat' split
  all_goals simp [mem_foldl]

@[simp] theorem mem_endReduction (s : State) (l : Loc) (an : Fin 4) (dest : Option (Fin 2)) (fcs : Fcs) (counts : Bool) : (endReduction s l an dest fcs counts).mem = s.mem := by unfold endReduction; split <;> simp

/-! ### Path -/

@[simp] theorem mem_modLe (s : State) (l : Loc) (f : LeUnit → LeUnit) : (modLe s l f).mem = s.mem := by unfold modLe; rfl

@[simp] theorem mem_tlbFill (s : State) (le : Loc) (e : TlbEntry) : (tlbFill s le e).mem = s.mem := by unfold tlbFill; rfl

@[simp] theorem mem_transNow (s : State) (die : Nat) (ctx : Nat) (va : Nat) : (transNow s die ctx va).1.mem = s.mem := by
  unfold transNow
  repeat' first | split | simp

@[simp] theorem mem_takeHeld (s : State) (q : Req) : (takeHeld s q).1.mem = s.mem := by
  unfold takeHeld
  dsimp only
  repeat' split
  all_goals simp [mem_foldl]

@[simp] theorem mem_faultReq (s : State) (q : Req) (cls : FaultClass) (sub : Nat) (info0 : Word) (miss : Option Nat) : (faultReq s q cls sub info0 miss).mem = s.mem := by unfold faultReq; split <;> simp

@[simp] theorem mem_enterHeld (s : State) : (enterHeld s).mem = s.mem := by
  unfold enterHeld
  repeat' first | intro _ | split | with_reducible refine (mem_foldl _ ?_ _ _).trans ?_ | simp

@[simp] theorem mem_raiseWatch (s : State) (pa : Nat) (src : Nat) (plot : Nat) (site : Nat) : (raiseWatch s pa src plot site).mem = s.mem := by simp [raiseWatch]

@[simp] theorem mem_reportWatch (s : State) (pa : Nat) (n : Nat) (src : Nat) (plot : Nat) (site : Nat) : (reportWatch s pa n src plot site).mem = s.mem := by
  unfold reportWatch
  repeat' first | with_reducible refine (mem_foldl _ ?_ _ _).trans ?_ | simp

@[simp] theorem mem_reportRange (s : State) (pa : Nat) (n : Nat) (src : Nat) : (reportRange s pa n src).mem = s.mem := by
  unfold reportRange
  repeat' first | intro _ | with_reducible refine (mem_foldl _ ?_ _ _).trans ?_ | simp

@[simp] theorem mem_reportPoison (s : State) (pa : Nat) (n : Nat) : (reportPoison s pa n).mem = s.mem := by simp [reportPoison, mem_foldl]

@[simp] theorem mem_homeRead (s : State) (a1 : Home) (n : Nat) : (homeRead s a1 n).1.mem = s.mem := by unfold homeRead; split <;> simp

@[simp] theorem mem_handToPcie (s : State) (pa : Nat) (n : Nat) (relaxed : Bool) : (handToPcie s pa n relaxed).mem = s.mem := by unfold handToPcie; rfl

@[simp] theorem ok_homeWrite (s : State) (a1 : Home) (bs : List Byte) (src : Nat) (plot : Nat) (site : Nat) (h : Memory.wf s.mem = true) : Memory.wf (homeWrite s a1 bs src plot site).mem = true := by unfold homeWrite; split <;> simp [h]

@[simp] theorem mem_setPerformed (s : State) (id : Nat) (data : Beat) (f : Flags) : (setPerformed s id data f).mem = s.mem := by unfold setPerformed; rfl

@[simp] theorem mem_moveLast (s : State) (id : Nat) : (moveLast s id).mem = s.mem := by unfold moveLast; rfl

@[simp] theorem ok_sendLine (s : State) (le : Loc) (c : CombLine) (h : Memory.wf s.mem = true) : Memory.wf (sendLine s le c).mem = true := by
  unfold sendLine
  repeat' first | with_reducible refine ok_foldl _ (fun _ _ h => ?_) _ _ ?_ | simp [h, mem_foldl]

@[simp] theorem ok_sendLines (s : State) (le : Loc) (p : CombLine → Bool) (h : Memory.wf s.mem = true) : Memory.wf (sendLines s le p).mem = true := by
  unfold sendLines
  repeat' first | with_reducible refine ok_foldl _ (fun _ _ h => ?_) _ _ ?_ | simp [h, mem_foldl]

@[simp] theorem ok_sendBefore (s : State) (q : Req) (h : Memory.wf s.mem = true) : Memory.wf (sendBefore s q).mem = true := by simp [sendBefore, h]

@[simp] theorem ok_combine (s : State) (q : Req) (pa : Nat) (h : Memory.wf s.mem = true) : Memory.wf (combine s q pa).mem = true := by
  unfold combine
  dsimp only
  repeat' split
  all_goals simp [h, mem_foldl]

@[simp] theorem mem_openStream (s : State) (l : Loc) (m : Fin 8) (p : Pattern) : (openStream s l m p).mem = s.mem := by simp [openStream]

@[simp] theorem mem_missReq (s : State) (q : Req) : (missReq s q).mem = s.mem := by
  unfold missReq
  dsimp only
  repeat' split
  all_goals simp [mem_foldl]

@[simp] theorem mem_readFor (s : State) (q : Req) (a2 : Home) (pa : Nat) : (readFor s q a2 pa).mem = s.mem := by
  unfold readFor
  dsimp only
  repeat' split
  all_goals simp [mem_foldl]

@[simp] theorem ok_storeAt (s : State) (q : Req) (a2 : Home) (pa : Nat) (h : Memory.wf s.mem = true) : Memory.wf (storeAt s q a2 pa).mem = true := by
  unfold storeAt
  repeat' first | split | simp [h, mem_foldl]

@[simp] theorem ok_drainPort (s : State) (q : Req) (pa : Nat) (h : Memory.wf s.mem = true) : Memory.wf (drainPort s q pa).mem = true := by
  unfold drainPort
  dsimp only
  repeat' split
  all_goals simp [h, mem_foldl]

@[simp] theorem ok_atomicAt (s : State) (q : Req) (a2 : Home) (pa : Nat) (h : Memory.wf s.mem = true) : Memory.wf (atomicAt s q a2 pa).mem = true := by
  unfold atomicAt
  dsimp only
  repeat' split
  all_goals simp [h, mem_foldl]

@[simp] theorem mem_enterSeal (s : State) (q : Req) (len : Nat) : (enterSeal s q len).mem = s.mem := by simp [enterSeal]

@[simp] theorem mem_dropSeal (s : State) (q : Req) : (dropSeal s q).mem = s.mem := by simp [dropSeal]

@[simp] theorem mem_readRecord (s : State) (q : Req) (a2 : Home) (pa : Nat) (base : Option Word) : (readRecord s q a2 pa base).mem = s.mem := by
  unfold readRecord
  dsimp only
  repeat' split
  all_goals simp [mem_foldl]

@[simp] theorem ok_actReq (s : State) (q : Req) (pa : Nat) (h : Memory.wf s.mem = true) : Memory.wf (actReq s q pa).mem = true := by unfold actReq; split <;> simp [h]

@[simp] theorem ok_withPage (s : State) (q : Req) (e : TlbEntry) (h : Memory.wf s.mem = true) : Memory.wf (withPage s q e).mem = true := by
  unfold withPage
  dsimp only
  repeat' split
  all_goals simp [h, mem_foldl]

@[simp] theorem ok_performReq (s : State) (q : Req) (h : Memory.wf s.mem = true) : Memory.wf (performReq s q).mem = true := by
  unfold performReq
  generalize q.op = o
  split
  · simp [h]
  · repeat' split
    all_goals simp [h]
  · split
    · split <;> simp [h]
    · split
      · exact h
      · cases o
        case prefetch =>
          dsimp only
          repeat' split
          all_goals simp [h]
        all_goals
          dsimp only
          repeat' split
          all_goals simp [h]
  · exact h


@[simp] theorem mem_enterWave (s : State) (q : Req) : (enterWave s q).mem = s.mem := by simp [enterWave]

@[simp] theorem mem_addReq (s : State) (q : Req) : (addReq s q).mem = s.mem := by unfold addReq; split <;> simp

@[simp] theorem mem_issueReq (s : State) (l : Loc) (slot : Fin 16) (q : Req) : (issueReq s l slot q).mem = s.mem := by simp [issueReq]

/-! ### VMem -/

@[simp] theorem mem_lineHome (s : State) (die : Nat) (ctx : Nat) (write : Bool) (va : Nat) (n : Nat) : (lineHome s die ctx write va n).1.mem = s.mem := by
  unfold lineHome
  repeat' first | obtain rfl := pair_fst ‹_ = (_, _)› | split | simp

@[simp] theorem mem_readPieceOf (own : Option Nat) (s : State) (die : Nat) (ctx : Nat) (p : Nat × Nat) : (readPieceOf own s die ctx p).1.mem = s.mem := by
  unfold readPieceOf
  repeat' first | obtain rfl := pair_fst ‹_ = (_, _)› | split | simp

@[simp] theorem mem_readPiece (s : State) (die : Nat) (ctx : Nat) (p : Nat × Nat) : (readPiece s die ctx p).1.mem = s.mem := mem_readPieceOf ..

@[simp] theorem mem_readVirtOf (own : Option Nat) (s : State) (die : Nat) (ctx : Nat) (va : Nat) (n : Nat) (sub : Option Word) :
    (readVirtOf own s die ctx va n sub).1.mem = s.mem := by
  unfold readVirtOf
  repeat' first | intro _ | obtain rfl := pair_fst ‹_ = (_, _)› | split | with_reducible refine (mem_foldl_fst _ ?_ _ _).trans ?_ | simp

@[simp] theorem mem_readVirt (s : State) (die : Nat) (ctx : Nat) (va : Nat) (n : Nat) (sub : Option Word) : (readVirt s die ctx va n sub).1.mem = s.mem :=
  mem_readVirtOf ..

@[simp] theorem ok_writePiece (s : State) (die : Nat) (ctx : Nat) (va : Nat) (bs : List Byte) (src : Nat) (plot : Nat) (site : Nat) (h : Memory.wf s.mem = true) : Memory.wf (writePiece s die ctx va bs src plot site).1.mem = true := by
  unfold writePiece
  repeat' first | obtain rfl := pair_fst ‹_ = (_, _)› | split | simp [h, mem_foldl]

/-! ### Adapter -/

@[simp] theorem mem_readDir (own : Option Nat) (s : State) (plot : Nat) (dir : Nat) (aid : Nat) (tag : Nat) (sub : Option Word) : (readDir own s plot dir aid tag sub).1.mem = s.mem := by
  unfold readDir
  repeat' first
    | obtain rfl := pair_fst ‹_ = (_, _)›
    | split
    | simp

@[simp] theorem mem_touchSlice (s : State) (plot : Nat) (x : Slice) : (touchSlice s plot x).mem = s.mem := by unfold touchSlice; rfl

@[simp] theorem mem_missAdapter (s : State) (l : Loc) (aid : Nat) (w : AdWait) : (missAdapter s l aid w).mem = s.mem := by
  unfold missAdapter
  dsimp only
  repeat' split
  all_goals simp [mem_foldl]

@[simp] theorem mem_lookSlice (s : State) (l : Loc) (d : DirEnt) (k : Bool) (b : Nat) : (lookSlice s l d k b).1.mem = s.mem := by
  unfold lookSlice
  repeat' first
    | split
    | simp

@[simp] theorem mem_lookDir (s : State) (l : Loc) (aid : Nat) : (lookDir s l aid).1.mem = s.mem := by
  unfold lookDir
  dsimp only
  repeat' split
  all_goals simp [mem_foldl]

@[simp] theorem mem_takeGroup (s : State) (l : Loc) (c : Chunk) : (takeGroup s l c).1.mem = s.mem := by
  unfold takeGroup
  repeat' first
    | obtain rfl := pair_fst ‹_ = (_, _)›
    | split
    | simp

@[simp] theorem mem_runChunk (s : State) (l : Loc) (a2 : Nat) (a3 : Chunk) : (runChunk s l a2 a3).1.mem = s.mem := by
  induction a2 generalizing s l a3 with
  | zero =>
    unfold runChunk
    repeat' first
      | obtain rfl := pair_fst ‹_ = (_, _)›
      | split
      | simp
  | succ _ ih =>
    unfold runChunk
    repeat' first
      | obtain rfl := pair_fst ‹_ = (_, _)›
      | split
      | simp [ih]

@[simp] theorem mem_takeRow (s : State) (l : Loc) (c : Chunk) : ((takeRow s l c).getD s).mem = s.mem := by
  unfold takeRow
  repeat' first
    | obtain rfl := pair_fst ‹_ = (_, _)›
    | split
    | simp

@[simp] theorem mem_replayRow (l : Loc) (an : Fin 4) (row : Nat) (a3 : Nat) (a4 : State) : (replayRow l an row a3 a4).mem = a4.mem := by
  induction a3 generalizing l an row a4 with
  | zero =>
    unfold replayRow
    repeat' first
      | obtain rfl := pair_fst ‹_ = (_, _)›
      | split
      | simp
  | succ _ ih =>
    unfold replayRow
    repeat' first
      | obtain rfl := pair_fst ‹_ = (_, _)›
      | split
      | simp [ih]

@[simp] theorem mem_wakeRows (aid : Nat) (tag : Nat) (w : AdWait) (pin : Option (Nat × DirEnt)) (s : State) (l : Loc) : (wakeRows aid tag w pin s l).mem = s.mem := by simp [wakeRows, mem_foldl]

@[simp] theorem mem_faultFill (s : State) (plot : Nat) (f : Fill) (cls : FaultClass) (sub : Nat) (addr : Nat) (w : Word) : (faultFill s plot f cls sub addr w).mem = s.mem := by simp [faultFill]

@[simp] theorem mem_endFill (s : State) (plot : Nat) (f : Fill) : (endFill s plot f).mem = s.mem := by unfold endFill; rfl

@[simp] theorem mem_renewFill (s : State) (plot : Nat) (f : Fill) (k : Bool) (b : Nat) (d : DirEnt) : (renewFill s plot f k b d).mem = s.mem := by simp [renewFill, mem_foldl]

@[simp] theorem mem_performFill (s : State) (plot : Nat) (f : Fill) : (performFill s plot f).mem = s.mem := by
  unfold performFill
  repeat' first
    | obtain rfl := pair_fst ‹_ = (_, _)›
    | split
    | with_reducible refine (mem_foldl _ ?_ _ _).trans ?_
    | simp

theorem next_execAdapterSliceFill (plot : Nat) (fill : Nat) (s : State) (h : MemoryOk s) : NextOk (execAdapterSliceFill plot fill s) := by unfold execAdapterSliceFill; split <;> simpa [MemoryOk] using h

@[simp] theorem mem_closeLook (s : State) (l : Loc) (nd : AccNode) : (closeLook s l nd).1.mem = s.mem := by
  unfold closeLook
  repeat' first
    | obtain rfl := pair_fst ‹_ = (_, _)›
    | split
    | simp

@[simp] theorem mem_closeRows (l : Loc) (an : Fin 4) (fcs : Fcs) (a3 : Nat) (a4 : State) : (closeRows l an fcs a3 a4).mem = a4.mem := by
  induction a3 generalizing l an fcs a4 with
  | zero =>
    unfold closeRows
    repeat' first
      | obtain rfl := pair_fst ‹_ = (_, _)›
      | split
      | simp
  | succ _ ih =>
    unfold closeRows
    repeat' first
      | obtain rfl := pair_fst ‹_ = (_, _)›
      | split
      | simp [ih]

@[simp] theorem mem_adapterCloseStep (s : State) (l : Loc) (an : Fin 4) : (adapterCloseStep s l an).mem = s.mem := by unfold adapterCloseStep; split <;> simp

theorem next_execAdapterClose (l : Loc) (an : Fin 4) (s : State) (h : MemoryOk s) : NextOk (execAdapterClose l an s) := by simpa [execAdapterClose, MemoryOk] using h

/-! ### Banks -/

@[simp] theorem mem_settleAck (s : State) (l : Loc) (op : Nat) : (settleAck s l op).mem = s.mem := by unfold settleAck; split <;> simp

@[simp] theorem mem_modAck (s : State) (l : Loc) (op : Nat) (f : SpadAck → SpadAck) : (modAck s l op f).mem = s.mem := by unfold modAck; rfl

@[simp] theorem mem_writeDirect (s : State) (plot : Nat) (t : Tile) (a3 : Nat) (off : Nat) (bs : List Byte) : (writeDirect s plot t a3 off bs).mem = s.mem := by unfold writeDirect; rfl

@[simp] theorem mem_writeLine (s : State) (l : Loc) (t : Tile) (a3 : Nat) (off : Nat) (op : Nat) (act : LineAct) : (writeLine s l t a3 off op act).mem = s.mem := by simp [writeLine]

@[simp] theorem mem_gatherBytes (s : State) (l : Loc) (rid : Nat) (part : Nat) : (gatherBytes s l rid part).mem = s.mem := by unfold gatherBytes; split <;> simp

@[simp] theorem mem_faultLine (s : State) (bank : Nat) (x : LineReq) : (faultLine s bank x).mem = s.mem := by simp [faultLine]

@[simp] theorem mem_storeWrite (s : State) (plot : Nat) (off : Nat) (bs : List Byte) : (storeWrite s plot off bs).mem = s.mem := by unfold storeWrite; rfl

@[simp] theorem mem_wroteLine (s : State) (x : LineReq) : (wroteLine s x).mem = s.mem := by simp [wroteLine]

@[simp] theorem mem_performLine (s : State) (x : LineReq) : (performLine s x).mem = s.mem := by
  unfold performLine
  dsimp only
  repeat' split
  all_goals simp [mem_foldl]

@[simp] theorem mem_modBank (s : State) (plot : Nat) (bank : Nat) (f : Bank → Bank) : (modBank s plot bank f).mem = s.mem := by unfold modBank; rfl

@[simp] theorem mem_admitPort (plot : Nat) (bank : Nat) (s : State) (port : Nat) : (admitPort plot bank s port).mem = s.mem := by unfold admitPort; split <;> simp

@[simp] theorem mem_bankStep (s : State) (plot : Nat) (bank : Nat) : (bankStep s plot bank).mem = s.mem := by
  unfold bankStep
  have h : ((portsFrom (Tbl.findD (getPlot s plot).banks bank {}).ptr).foldl (admitPort plot bank) s).mem = s.mem := mem_foldl _ (by simp) _ _
  generalize (portsFrom (Tbl.findD (getPlot s plot).banks bank {}).ptr).foldl (admitPort plot bank) s = t at h
  dsimp only
  rw [← h]
  repeat' split
  all_goals simp


theorem next_execBankGrant (plot : Nat) (bank : Nat) (s : State) (h : MemoryOk s) : NextOk (execBankGrant plot bank s) := by simpa [execBankGrant, MemoryOk] using h

/-! ### Channels -/

@[simp] theorem mem_departToken (s : State) (l : Loc) (n : Fin 4) : (departToken s l n).mem = s.mem := by
  unfold departToken
  dsimp only
  repeat' split
  all_goals simp [mem_foldl]

theorem next_execTokenDepart (l : Loc) (port : Fin 4) (s : State) (h : MemoryOk s) : NextOk (execTokenDepart l port s) := by simpa [execTokenDepart, MemoryOk] using h

@[simp] theorem mem_arriveToken (s : State) (l : Loc) (n : Fin 4) : (arriveToken s l n).mem = s.mem := by
  unfold arriveToken
  dsimp only
  repeat' split
  all_goals simp [mem_foldl]

theorem next_execTokenArrive (l : Loc) (port : Fin 4) (s : State) (h : MemoryOk s) : NextOk (execTokenArrive l port s) := by simpa [execTokenArrive, MemoryOk] using h

@[simp] theorem mem_returnCredits (s : State) (l : Loc) (n : Fin 4) : (returnCredits s l n).mem = s.mem := by simp [returnCredits]

theorem next_execCreditReturn (l : Loc) (port : Fin 4) (s : State) (h : MemoryOk s) : NextOk (execCreditReturn l port s) := by simpa [execCreditReturn, MemoryOk] using h

end Sys2Proof.Laws
end

