-- ==== Sys2Proof/Laws/MemActions.lean ====
section
/-!
SUPPORT. Which operations leave memory as it is or keep its canonical form: actions, engines and the drill. The names are those of MemBase.
-/

set_option linter.unusedVariables false
set_option linter.unusedSimpArgs false

namespace Sys2Proof.Laws

open Machine

/-! ### Control -/

@[simp] theorem posts_specNop (r : RAct) : PostsKeep (specNop r) := fun _ => by simp [specNop]

theorem next_execNop (r : RAct) (s : State) (h : MemoryOk s) : NextOk (execNop r s) :=
  next_runBeat _ _ (fun _ => posts_specNop ..) h

@[simp] theorem posts_specMov (r : RAct) : PostsKeep (specMov r) := fun _ => by simp [specMov]

theorem next_execMov (r : RAct) (s : State) (h : MemoryOk s) : NextOk (execMov r s) :=
  next_runBeat _ _ (fun _ => posts_specMov ..) h

@[simp] theorem posts_specMovi (i : IAct) : PostsKeep (specMovi i) := fun _ => by simp [specMovi]

theorem next_execMovi (i : IAct) (s : State) (h : MemoryOk s) : NextOk (execMovi i s) :=
  next_runBeat _ _ (fun _ => posts_specMovi ..) h

@[simp] theorem posts_specDrop (r : RAct) : PostsKeep (specDrop r) := fun _ => by simp [specDrop]

theorem next_execDrop (r : RAct) (s : State) (h : MemoryOk s) : NextOk (execDrop r s) :=
  next_runBeat _ _ (fun _ => posts_specDrop ..) h

@[simp] theorem posts_specSel (r : RAct) (n : Fin 8) : PostsKeep (specSel r n) := fun _ => by simp [specSel]

theorem next_execSel (r : RAct) (n : Fin 8) (s : State) (h : MemoryOk s) : NextOk (execSel r n s) :=
  next_runBeat _ _ (fun _ => posts_specSel ..) h

@[simp] theorem posts_specRoute (r : RAct) : PostsKeep (specRoute r) := fun _ => by unfold specRoute; dsimp only [specR_op, specI_op, specR3_op]; split <;> simp

theorem next_execRoute (r : RAct) (s : State) (h : MemoryOk s) : NextOk (execRoute r s) :=
  next_runBeat _ _ (fun _ => posts_specRoute ..) h

@[simp] theorem posts_specEos (r : RAct) (rc0 : Bool) (rc1 : Bool) : PostsKeep (specEos r rc0 rc1) := fun _ => by simp [specEos]

theorem next_execEos (r : RAct) (rc0 : Bool) (rc1 : Bool) (s : State) (h : MemoryOk s) : NextOk (execEos r rc0 rc1 s) :=
  next_runBeat _ _ (fun _ => posts_specEos ..) h

@[simp] theorem posts_specPred (u : PUpd) (f : Elem → Bool) : PostsKeep (specPred u f) := fun _ => by simp [specPred]

@[simp] theorem posts_specPand (a : Fin 8) (b : Fin 8) (u : PUpd) : PostsKeep (specPand a b u) := fun _ => by simp [specPand]

@[simp] theorem posts_specPor (a : Fin 8) (b : Fin 8) (u : PUpd) : PostsKeep (specPor a b u) := fun _ => by simp [specPor]

@[simp] theorem posts_specPxor (a : Fin 8) (b : Fin 8) (u : PUpd) : PostsKeep (specPxor a b u) := fun _ => by simp [specPxor]

@[simp] theorem posts_specPandn (a : Fin 8) (b : Fin 8) (u : PUpd) : PostsKeep (specPandn a b u) := fun _ => by simp [specPandn]

theorem next_execPand (a : Fin 8) (b : Fin 8) (u : PUpd) (s : State) (h : MemoryOk s) : NextOk (execPand a b u s) :=
  next_runBeat _ _ (fun _ => posts_specPand ..) h

theorem next_execPor (a : Fin 8) (b : Fin 8) (u : PUpd) (s : State) (h : MemoryOk s) : NextOk (execPor a b u s) :=
  next_runBeat _ _ (fun _ => posts_specPor ..) h

theorem next_execPxor (a : Fin 8) (b : Fin 8) (u : PUpd) (s : State) (h : MemoryOk s) : NextOk (execPxor a b u s) :=
  next_runBeat _ _ (fun _ => posts_specPxor ..) h

theorem next_execPandn (a : Fin 8) (b : Fin 8) (u : PUpd) (s : State) (h : MemoryOk s) : NextOk (execPandn a b u s) :=
  next_runBeat _ _ (fun _ => posts_specPandn ..) h

@[simp] theorem posts_specCntAdd (i : IAct) : PostsKeep (specCntAdd i) := fun _ => by simp [specCntAdd]

theorem next_execCntAdd (i : IAct) (s : State) (h : MemoryOk s) : NextOk (execCntAdd i s) :=
  next_runBeat _ _ (fun _ => posts_specCntAdd ..) h

@[simp] theorem posts_specCntSet (i : IAct) : PostsKeep (specCntSet i) := fun _ => by simp [specCntSet]

theorem next_execCntSet (i : IAct) (s : State) (h : MemoryOk s) : NextOk (execCntSet i s) :=
  next_runBeat _ _ (fun _ => posts_specCntSet ..) h

@[simp] theorem posts_specFlgRd (r : RAct) : PostsKeep (specFlgRd r) := fun _ => by simp [specFlgRd]

theorem next_execFlgRd (r : RAct) (s : State) (h : MemoryOk s) : NextOk (execFlgRd r s) :=
  next_runBeat _ _ (fun _ => posts_specFlgRd ..) h

@[simp] theorem posts_specFlgClr (i : IAct) : PostsKeep (specFlgClr i) := fun _ => by simp [specFlgClr]

theorem next_execFlgClr (i : IAct) (s : State) (h : MemoryOk s) : NextOk (execFlgClr i s) :=
  next_runBeat _ _ (fun _ => posts_specFlgClr ..) h

@[simp] theorem posts_specRest (u : PUpd) : PostsKeep (specRest u) := fun _ => by simp [specRest]

theorem next_execRest (u : PUpd) (s : State) (h : MemoryOk s) : NextOk (execRest u s) :=
  next_runBeat _ _ (fun _ => posts_specRest ..) h

@[simp] theorem posts_specTmrRd (r : RAct) (src : TmrSrc) : PostsKeep (specTmrRd r src) := fun _ => by simp [specTmrRd]

theorem next_execTmrRd (r : RAct) (src : TmrSrc) (s : State) (h : MemoryOk s) : NextOk (execTmrRd r src s) :=
  next_runBeat _ _ (fun _ => posts_specTmrRd ..) h

@[simp] theorem posts_specTrap (i : IAct) : PostsKeep (specTrap i) := fun _ => by unfold specTrap; dsimp only [specR_op, specI_op, specR3_op]; split <;> simp

theorem next_execTrap (i : IAct) (s : State) (h : MemoryOk s) : NextOk (execTrap i s) :=
  next_runBeat _ _ (fun _ => posts_specTrap ..) h

@[simp] theorem posts_specBrk (i : IAct) : PostsKeep (specBrk i) := by
  intro x
  unfold specBrk
  dsimp only [specR_op, specI_op, specR3_op]
  repeat' split
  all_goals simp

theorem next_execBrk (i : IAct) (s : State) (h : MemoryOk s) : NextOk (execBrk i s) :=
  next_runBeat _ _ (fun _ => posts_specBrk ..) h

@[simp] theorem posts_specSpecRd (dst : Dst) (reg : Spec) (u : PUpd) : PostsKeep (specSpecRd dst reg u) := fun _ => by simp [specSpecRd]

theorem next_execSpecRd (dst : Dst) (reg : Spec) (u : PUpd) (s : State) (h : MemoryOk s) : NextOk (execSpecRd dst reg u s) :=
  next_runBeat _ _ (fun _ => posts_specSpecRd ..) h

@[simp] theorem posts_specSpecWr (sa : Src) (reg : Spec) (u : PUpd) : PostsKeep (specSpecWr sa reg u) := fun _ => by unfold specSpecWr; dsimp only [specR_op, specI_op, specR3_op]; split <;> simp

theorem next_execSpecWr (sa : Src) (reg : Spec) (u : PUpd) (s : State) (h : MemoryOk s) : NextOk (execSpecWr sa reg u s) :=
  next_runBeat _ _ (fun _ => posts_specSpecWr ..) h

@[simp] theorem posts_specWaveNx (u : PUpd) : PostsKeep (specWaveNx u) := fun _ => by simp [specWaveNx]

theorem next_execWaveNx (u : PUpd) (s : State) (h : MemoryOk s) : NextOk (execWaveNx u s) :=
  next_runBeat _ _ (fun _ => posts_specWaveNx ..) h

/-! ### Scratch -/

@[simp] theorem posts_specTileNew (r : RAct) : PostsKeep (specTileNew r) := fun _ => by unfold specTileNew; dsimp only [specR_op, specI_op, specR3_op]; split <;> simp

theorem next_execTileNew (r : RAct) (s : State) (h : MemoryOk s) : NextOk (execTileNew r s) :=
  next_runBeat _ _ (fun _ => posts_specTileNew ..) h

@[simp] theorem posts_specTileFree (r : RAct) : PostsKeep (specTileFree r) := fun _ => by unfold specTileFree; dsimp only [specR_op, specI_op, specR3_op]; split <;> simp

theorem next_execTileFree (r : RAct) (s : State) (h : MemoryOk s) : NextOk (execTileFree r s) :=
  next_runBeat _ _ (fun _ => posts_specTileFree ..) h

@[simp] theorem posts_specTileShp (r : RAct) : PostsKeep (specTileShp r) := by
  intro x
  unfold specTileShp
  dsimp only [specR_op, specI_op, specR3_op]
  repeat' split
  all_goals simp

theorem next_execTileShp (r : RAct) (s : State) (h : MemoryOk s) : NextOk (execTileShp r s) :=
  next_runBeat _ _ (fun _ => posts_specTileShp ..) h

@[simp] theorem posts_specTileQry (r : RAct) : PostsKeep (specTileQry r) := fun _ => by unfold specTileQry; dsimp only [specR_op, specI_op, specR3_op]; split <;> simp

theorem next_execTileQry (r : RAct) (s : State) (h : MemoryOk s) : NextOk (execTileQry r s) :=
  next_runBeat _ _ (fun _ => posts_specTileQry ..) h

@[simp] theorem posts_specHashSet (r : RAct) : PostsKeep (specHashSet r) := by
  intro x
  unfold specHashSet
  dsimp only [specR_op, specI_op, specR3_op]
  repeat' split
  all_goals simp

theorem next_execHashSet (r : RAct) (s : State) (h : MemoryOk s) : NextOk (execHashSet r s) :=
  next_runBeat _ _ (fun _ => posts_specHashSet ..) h

@[simp] theorem posts_specBankRd (r : RAct) : PostsKeep (specBankRd r) := fun _ => by unfold specBankRd; dsimp only [specR_op, specI_op, specR3_op]; split <;> simp

theorem next_execBankRd (r : RAct) (s : State) (h : MemoryOk s) : NextOk (execBankRd r s) :=
  next_runBeat _ _ (fun _ => posts_specBankRd ..) h

@[simp] theorem posts_specBankClr (r : RAct) : PostsKeep (specBankClr r) := fun _ => by unfold specBankClr; dsimp only [specR_op, specI_op, specR3_op]; split <;> simp

theorem next_execBankClr (r : RAct) (s : State) (h : MemoryOk s) : NextOk (execBankClr r s) :=
  next_runBeat _ _ (fun _ => posts_specBankClr ..) h

@[simp] theorem mem_modSpad (s : State) (l : Loc) (f : SpadOp → SpadOp) : (modSpad s l f).mem = s.mem := by unfold modSpad; rfl

@[simp] theorem mem_spadBeat (s : State) (l : Loc) (o : SpadOp) (f : SpadOp → SpadOp) : (spadBeat s l o f).mem = s.mem := by unfold spadBeat; rfl

@[simp] theorem mem_endSpad (s : State) (l : Loc) (o : SpadOp) : (endSpad s l o).mem = s.mem := by simp [endSpad]

@[simp] theorem mem_faultSpad (s : State) (l : Loc) (o : SpadOp) (cls : FaultClass) (info : Word) : (faultSpad s l o cls info).mem = s.mem := by simp [faultSpad]

@[simp] theorem mem_sendParts (s : State) (l : Loc) (o : SpadOp) (n : Fin 4) (tag : Tag) (base : Beat) (parts : List (Nat × Nat × Nat × Nat)) : (sendParts s l o n tag base parts).mem = s.mem := by simp [sendParts, mem_foldl]

@[simp] theorem mem_rdStep (s : State) (l : Loc) (o : SpadOp) : (rdStep s l o).mem = s.mem := by simp [rdStep]

@[simp] theorem mem_gatStep (s : State) (l : Loc) (o : SpadOp) (sb : Src) : (gatStep s l o sb).mem = s.mem := by
  unfold gatStep
  dsimp only
  repeat' split
  all_goals simp [mem_foldl]

@[simp] theorem mem_wrStep (s : State) (l : Loc) (o : SpadOp) (sb : Src) : (wrStep s l o sb).mem = s.mem := by
  unfold wrStep
  dsimp only
  repeat' split
  all_goals simp [mem_foldl]

@[simp] theorem mem_rowsStep (s : State) (l : Loc) (o : SpadOp) (sb : Src) (fcs : Option Fcs) : (rowsStep s l o sb fcs).mem = s.mem := by
  unfold rowsStep
  dsimp only
  repeat' split
  all_goals simp [mem_foldl]

@[simp] theorem mem_spadStep (s : State) (l : Loc) : (spadStep s l).mem = s.mem := by
  unfold spadStep
  repeat' first | split | simp

@[simp] theorem mem_startSpad (i : Instr) (dst : Dst) (ack : Bool) (x : BeatIn) (r : Ref) (t : Tile) (range : Option Word) (s : State) : (startSpad i dst ack x r t range s).mem = s.mem := by
  unfold startSpad
  dsimp only
  repeat' split
  all_goals simp [mem_foldl]

@[simp] theorem posts_specSpad (i : Instr) (r : RAct) (ack : Bool) (both : Bool) (ready : State → Loc → Bool) (ok : Tile → Bool) (range : BeatIn → Option Word) : PostsKeep (specSpad i r ack both ready ok range) := by
  intro x
  unfold specSpad
  dsimp only [specR_op, specI_op, specR3_op]
  repeat' split
  all_goals simp

@[simp] theorem posts_specTileRd (r : RAct) : PostsKeep (specTileRd r) := fun _ => by simp [specTileRd]

theorem next_execTileRd (r : RAct) (s : State) (h : MemoryOk s) : NextOk (execTileRd r s) :=
  next_runBeat _ _ (fun _ => posts_specTileRd ..) h

@[simp] theorem posts_specTileWr (r : RAct) : PostsKeep (specTileWr r) := fun _ => by simp [specTileWr]

theorem next_execTileWr (r : RAct) (s : State) (h : MemoryOk s) : NextOk (execTileWr r s) :=
  next_runBeat _ _ (fun _ => posts_specTileWr ..) h

@[simp] theorem posts_specTileGat (r : RAct) : PostsKeep (specTileGat r) := fun _ => by simp [specTileGat]

theorem next_execTileGat (r : RAct) (s : State) (h : MemoryOk s) : NextOk (execTileGat r s) :=
  next_runBeat _ _ (fun _ => posts_specTileGat ..) h

@[simp] theorem posts_specTileSct (r : RAct) : PostsKeep (specTileSct r) := fun _ => by simp [specTileSct]

theorem next_execTileSct (r : RAct) (s : State) (h : MemoryOk s) : NextOk (execTileSct r s) :=
  next_runBeat _ _ (fun _ => posts_specTileSct ..) h

@[simp] theorem posts_specTileAcc (r : RAct) (fcs : Fcs) : PostsKeep (specTileAcc r fcs) := fun _ => by simp [specTileAcc]

theorem next_execTileAcc (r : RAct) (fcs : Fcs) (s : State) (h : MemoryOk s) : NextOk (execTileAcc r fcs s) :=
  next_runBeat _ _ (fun _ => posts_specTileAcc ..) h

@[simp] theorem mem_startLines (dst : Dst) (x : BeatIn) (a2 : Nat) (t : Tile) (n : Nat) (direct : Bool) (each : State → Nat → Nat → State) (s : State) (k6 : ∀ s x0 x1, (each s x0 x1).mem = s.mem) : (startLines dst x a2 t n direct each s).mem = s.mem := by simp [startLines, mem_foldl, k6]

@[simp] theorem mem_fillEffect (dst : Dst) (x : BeatIn) (r : Ref) (t : Tile) (a4 : State) : (fillEffect dst x r t a4).mem = a4.mem := by simp [fillEffect]

@[simp] theorem posts_specTileFil (r : RAct) : PostsKeep (specTileFil r) := fun _ => by unfold specTileFil; dsimp only [specR_op, specI_op, specR3_op]; split <;> simp

theorem next_execTileFil (r : RAct) (s : State) (h : MemoryOk s) : NextOk (execTileFil r s) :=
  next_runBeat _ _ (fun _ => posts_specTileFil ..) h

@[simp] theorem mem_copyEffect (dst : Dst) (x : BeatIn) (ra : Ref) (ta : Tile) (rb : Ref) (tb : Tile) (s : State) : (copyEffect dst x ra ta rb tb s).mem = s.mem := by simp [copyEffect]

@[simp] theorem posts_specTileCpy (r : RAct) : PostsKeep (specTileCpy r) := by
  intro x
  unfold specTileCpy
  dsimp only [specR_op, specI_op, specR3_op]
  repeat' split
  all_goals simp

theorem next_execTileCpy (r : RAct) (s : State) (h : MemoryOk s) : NextOk (execTileCpy r s) :=
  next_runBeat _ _ (fun _ => posts_specTileCpy ..) h

/-! ### Engine -/

@[simp] theorem mem_issueCmd (e : EAct) (i : Instr) (x : BeatIn) (s : State) : (issueCmd e i x s).mem = s.mem := by
  unfold issueCmd
  dsimp only
  repeat' split
  all_goals simp [mem_foldl]

@[simp] theorem posts_specEngine (e : EAct) (i : Instr) (both : Bool) : PostsKeep (specEngine e i both) := fun _ => by simp [specEngine]

@[simp] theorem posts_specCpy (e : EAct) : PostsKeep (specCpy e) := fun _ => by simp [specCpy]

theorem next_execCpy (e : EAct) (s : State) (h : MemoryOk s) : NextOk (execCpy e s) :=
  next_runBeat _ _ (fun _ => posts_specCpy ..) h

@[simp] theorem posts_specCpyNd (e : EAct) : PostsKeep (specCpyNd e) := fun _ => by simp [specCpyNd]

theorem next_execCpyNd (e : EAct) (s : State) (h : MemoryOk s) : NextOk (execCpyNd e s) :=
  next_runBeat _ _ (fun _ => posts_specCpyNd ..) h

@[simp] theorem posts_specCpyIx (e : EAct) : PostsKeep (specCpyIx e) := fun _ => by simp [specCpyIx]

theorem next_execCpyIx (e : EAct) (s : State) (h : MemoryOk s) : NextOk (execCpyIx e s) :=
  next_runBeat _ _ (fun _ => posts_specCpyIx ..) h

@[simp] theorem posts_specCpyIs (e : EAct) : PostsKeep (specCpyIs e) := fun _ => by simp [specCpyIs]

theorem next_execCpyIs (e : EAct) (s : State) (h : MemoryOk s) : NextOk (execCpyIs e s) :=
  next_runBeat _ _ (fun _ => posts_specCpyIs ..) h

@[simp] theorem posts_specGat (e : EAct) : PostsKeep (specGat e) := fun _ => by simp [specGat]

theorem next_execGat (e : EAct) (s : State) (h : MemoryOk s) : NextOk (execGat e s) :=
  next_runBeat _ _ (fun _ => posts_specGat ..) h

@[simp] theorem posts_specSct (e : EAct) : PostsKeep (specSct e) := fun _ => by simp [specSct]

theorem next_execSct (e : EAct) (s : State) (h : MemoryOk s) : NextOk (execSct e s) :=
  next_runBeat _ _ (fun _ => posts_specSct ..) h

@[simp] theorem posts_specSctAdd (e : EAct) (fcs : Fcs) : PostsKeep (specSctAdd e fcs) := fun _ => by simp [specSctAdd]

theorem next_execSctAdd (e : EAct) (fcs : Fcs) (s : State) (h : MemoryOk s) : NextOk (execSctAdd e fcs s) :=
  next_runBeat _ _ (fun _ => posts_specSctAdd ..) h

@[simp] theorem posts_specRdcTree (e : EAct) (fcs : Fcs) : PostsKeep (specRdcTree e fcs) := fun _ => by simp [specRdcTree]

theorem next_execRdcTree (e : EAct) (fcs : Fcs) (s : State) (h : MemoryOk s) : NextOk (execRdcTree e fcs s) :=
  next_runBeat _ _ (fun _ => posts_specRdcTree ..) h

@[simp] theorem posts_specColl (e : EAct) (fcs : Fcs) : PostsKeep (specColl e fcs) := fun _ => by simp [specColl]

theorem next_execColl (e : EAct) (fcs : Fcs) (s : State) (h : MemoryOk s) : NextOk (execColl e fcs s) :=
  next_runBeat _ _ (fun _ => posts_specColl ..) h

@[simp] theorem posts_specPut (e : EAct) : PostsKeep (specPut e) := fun _ => by simp [specPut]

theorem next_execPut (e : EAct) (s : State) (h : MemoryOk s) : NextOk (execPut e s) :=
  next_runBeat _ _ (fun _ => posts_specPut ..) h

@[simp] theorem posts_specGet (e : EAct) : PostsKeep (specGet e) := fun _ => by simp [specGet]

theorem next_execGet (e : EAct) (s : State) (h : MemoryOk s) : NextOk (execGet e s) :=
  next_runBeat _ _ (fun _ => posts_specGet ..) h

@[simp] theorem posts_specDrillPush (e : EAct) (n : Fin 9) : PostsKeep (specDrillPush e n) := fun _ => by simp [specDrillPush]

theorem next_execDrillPush (e : EAct) (n : Fin 9) (s : State) (h : MemoryOk s) : NextOk (execDrillPush e n s) :=
  next_runBeat _ _ (fun _ => posts_specDrillPush ..) h

@[simp] theorem posts_specSig (e : EAct) (raise : Bool) (vec : BitVec 10) : PostsKeep (specSig e raise vec) := fun _ => by simp [specSig]

theorem next_execSig (e : EAct) (raise : Bool) (vec : BitVec 10) (s : State) (h : MemoryOk s) : NextOk (execSig e raise vec s) :=
  next_runBeat _ _ (fun _ => posts_specSig ..) h

@[simp] theorem posts_specAdPf (e : EAct) (me : Fin 4) (a : Bool) (b : Bool) : PostsKeep (specAdPf e me a b) := fun _ => by simp [specAdPf]

theorem next_execAdPf (e : EAct) (me : Fin 4) (a : Bool) (b : Bool) (s : State) (h : MemoryOk s) : NextOk (execAdPf e me a b s) :=
  next_runBeat _ _ (fun _ => posts_specAdPf ..) h

@[simp] theorem mem_cmdFault (s : State) (c : Cmd) (cls : FaultClass) (sub : Nat) (addr : Nat) (w : Word) (what : Option HeldWhat) : (cmdFault s c cls sub addr w what).mem = s.mem := by unfold cmdFault; split <;> simp

@[simp] theorem mem_holdCmd (s : State) (c : Cmd) (b : VBad) : (holdCmd s c b).mem = s.mem := by simp [holdCmd]

@[simp] theorem mem_recordFault (s : State) (c : Cmd) (cls : FaultClass) (sub : Nat) (addr : Nat) (w : Word) : (recordFault s c cls sub addr w).mem = s.mem := by simp [recordFault]

@[simp] theorem mem_badRecord (s : State) (c : Cmd) (r : List Byte) : (badRecord s c r).mem = s.mem := by
  unfold badRecord
  dsimp only
  repeat' split
  all_goals simp [mem_foldl]

@[simp] theorem mem_cutCmd (s : State) (c : Cmd) : (cutCmd s c).mem = s.mem := mem_modCmd ..

@[simp] theorem mem_fetchRecord (s : State) (c : Cmd) : (fetchRecord s c).mem = s.mem := by
  unfold fetchRecord
  repeat' first | obtain rfl := pair_fst ‹_ = (_, _)› | split | simp

@[simp] theorem mem_cmdRead (s : State) (c : Cmd) (p : Nat × Nat) : (cmdRead s c p).mem = s.mem := by
  unfold cmdRead
  repeat' first | obtain rfl := pair_fst ‹_ = (_, _)› | split | simp

@[simp] theorem ok_putBytes (s : State) (c : Cmd) (va : Nat) (bs : List (Option Byte)) (h : Memory.wf s.mem = true) : Memory.wf (putBytes s c va bs).mem = true := by
  unfold putBytes
  repeat' first | split | with_reducible refine ok_foldl _ (fun _ _ h => ?_) _ _ ?_ | simp [h, mem_foldl]

@[simp] theorem ok_cmdWrite (s : State) (c : Cmd) (p : Nat × Nat) (off : Nat) (h : Memory.wf s.mem = true) : Memory.wf (cmdWrite s c p off).mem = true := by
  unfold cmdWrite
  repeat' first | obtain rfl := pair_fst ‹_ = (_, _)› | split | simp [h, mem_foldl]

@[simp] theorem ok_cmdAdd (s : State) (c : Cmd) (va : Nat) (n : Nat) (fmt : Nat) (fcs : Fcs) (h : Memory.wf s.mem = true) : Memory.wf (cmdAdd s c va n fmt fcs).mem = true := by
  unfold cmdAdd
  repeat' first | obtain rfl := pair_fst ‹_ = (_, _)› | split | with_reducible refine ok_foldl _ (fun _ _ h => ?_) _ _ ?_ | simp [h, mem_foldl]

@[simp] theorem mem_nextUnit (s : State) (c : Cmd) (u : CUnit) : (nextUnit s c u).mem = s.mem := by unfold nextUnit; rfl

@[simp] theorem ok_runUnit (s : State) (c : Cmd) (u : CUnit) (endUnit : State → Cmd → State) (k3 : ∀ s x0, Memory.wf s.mem = true → Memory.wf (endUnit s x0).mem = true) (h : Memory.wf s.mem = true) : Memory.wf (runUnit s c u endUnit).mem = true := by
  unfold runUnit
  dsimp only
  repeat' split
  all_goals simp [h, mem_foldl, k3]

@[simp] theorem mem_takeIndex (s : State) (c : Cmd) (ch : Fin 4) : (takeIndex s c ch).mem = s.mem := by
  unfold takeIndex
  dsimp only
  repeat' split
  all_goals simp [mem_foldl]

@[simp] theorem mem_readIndex (s : State) (c : Cmd) : (readIndex s c).mem = s.mem := by
  unfold readIndex
  repeat' first | obtain rfl := pair_fst ‹_ = (_, _)› | split | simp

@[simp] theorem ok_runColl (s : State) (c : Cmd) (fcs : Fcs) (h : Memory.wf s.mem = true) : Memory.wf (runColl s c fcs).mem = true := by
  unfold runColl
  repeat' first
    | obtain rfl := pair_fst ‹_ = (_, _)›
    | split
    | with_reducible refine ok_runUnit _ _ _ _ (fun _ _ h => ?_) (by assumption)
    | simp [h, mem_foldl]

@[simp] theorem mem_runPrefetch (s : State) (c : Cmd) (me : Fin 4) (a : Bool) (b : Bool) : (runPrefetch s c me a b).mem = s.mem := by
  unfold runPrefetch
  repeat' first | obtain rfl := pair_fst ‹_ = (_, _)› | split | simp

@[simp] theorem ok_runSig (s : State) (c : Cmd) (raise : Bool) (vec : BitVec 10) (h : Memory.wf s.mem = true) : Memory.wf (runSig s c raise vec).mem = true := by unfold runSig; split <;> simp [h]

@[simp] theorem mem_enterTree (s : State) (c : Cmd) (fcs : Fcs) : (enterTree s c fcs).mem = s.mem := by
  unfold enterTree
  dsimp only
  repeat' split
  all_goals simp [mem_foldl]

@[simp] theorem ok_runTree (s : State) (c : Cmd) (fcs : Fcs) (h : Memory.wf s.mem = true) : Memory.wf (runTree s c fcs).mem = true := by
  unfold runTree
  repeat' first | split | with_reducible refine ok_runUnit _ _ _ _ (fun _ _ h => ?_) (by assumption) | simp [h, mem_foldl]

@[simp] theorem ok_runCmd (s : State) (c : Cmd) (h : Memory.wf s.mem = true) : Memory.wf (runCmd s c).mem = true := by
  unfold runCmd
  repeat' first | split | simp [h, mem_foldl]

@[simp] theorem ok_performCmd (s : State) (c : Cmd) (h : Memory.wf s.mem = true) : Memory.wf (performCmd s c).mem = true := by
  unfold performCmd
  repeat' first | split | simp [h, mem_foldl]

@[simp] theorem mem_acceptCmd (s : State) (c : Cmd) : (acceptCmd s c).mem = s.mem := by unfold acceptCmd; split <;> simp

theorem next_execEngineAcceptCommand (cmd : Nat) (s : State) (h : MemoryOk s) : NextOk (execEngineAcceptCommand cmd s) := by unfold execEngineAcceptCommand; split <;> simpa [MemoryOk] using h

/-! ### Drill -/

@[simp] theorem mem_modDrill (s : State) (f : Drill → Drill) : (modDrill s f).mem = s.mem := by unfold modDrill; rfl

@[simp] theorem mem_modQueue (s : State) (q : Nat) (f : LQueue → LQueue) : (modQueue s q f).mem = s.mem := by unfold modQueue; rfl

@[simp] theorem mem_modLaunch (s : State) (l : Nat) (f : Launch → Launch) : (modLaunch s l f).mem = s.mem := by unfold modLaunch; rfl

@[simp] theorem mem_modGNode (s : State) (l : Nat) (n : Nat) (f : NodeSt → NodeSt) : (modGNode s l n f).mem = s.mem := by unfold modGNode; rfl

@[simp] theorem ok_drillPiece (s : State) (ctx : Nat) (va : Nat) (bs : List Byte) (h : Memory.wf s.mem = true) : Memory.wf (drillPiece s ctx va bs).mem = true := by
  unfold drillPiece
  repeat' first | obtain rfl := pair_fst ‹_ = (_, _)› | split | simp [h]

@[simp] theorem ok_drillWrite (s : State) (ctx : Nat) (va : Nat) (bs : List Byte) (h : Memory.wf s.mem = true) : Memory.wf (drillWrite s ctx va bs).mem = true := by
  unfold drillWrite
  repeat' first
    | with_reducible refine ok_foldl _ (fun _ _ h => ?_) _ _ ?_
    | simp [h, mem_foldl]

@[simp] theorem ok_writeCompletion (s : State) (ctx : Nat) (q : Nat) (raw : List Byte) (x : Report) (h : Memory.wf s.mem = true) : Memory.wf (writeCompletion s ctx q raw x).mem = true := by
  unfold writeCompletion
  dsimp only
  repeat' split
  all_goals simp [h, mem_foldl]

@[simp] theorem mem_recordMsix (s : State) (ctx : Nat) (raw : List Byte) (status : Nat) : (recordMsix s ctx raw status).mem = s.mem := by simp [recordMsix]

@[simp] theorem mem_latchQstat (s : State) (q : Nat) (bit : BitVec 32) : (latchQstat s q bit).mem = s.mem := by simp [latchQstat]

@[simp] theorem ok_presentRecord (s : State) (q : Nat) (raw : List Byte) (h : Memory.wf s.mem = true) : Memory.wf (presentRecord s q raw).mem = true := by
  unfold presentRecord
  dsimp only
  repeat' split
  all_goals simp [h, mem_foldl]

theorem next_execLaunchLf3 (fn : Nat) (q : Nat) (rec : BitVec 512) (s : State) (h : MemoryOk s) : NextOk (execLaunchLf3 fn q rec s) := by
  unfold MemoryOk at h; unfold execLaunchLf3
  repeat' first
    | split
    | simp [MemoryOk, *]

theorem next_execLaunchLf2 (fn : Nat) (q : Nat) (rec : BitVec 256) (s : State) (h : MemoryOk s) : NextOk (execLaunchLf2 fn q rec s) := by
  unfold MemoryOk at h; unfold execLaunchLf2
  repeat' first
    | split
    | simp [MemoryOk, *]

theorem next_execQueueDrain (fn : Nat) (q : Nat) (s : State) (h : MemoryOk s) : NextOk (execQueueDrain fn q s) := by simpa [execQueueDrain, MemoryOk] using h

theorem next_execQueueAbort (fn : Nat) (q : Nat) (s : State) (h : MemoryOk s) : NextOk (execQueueAbort fn q s) := by simpa [execQueueAbort, MemoryOk] using h

@[simp] theorem mem_arriveNode (s : State) (l : Nat) (n : Nat) (status : Nat) (sub : Nat) (info : Word) (flags : Flags7) : (arriveNode s l n status sub info flags).mem = s.mem := by unfold arriveNode; rfl

@[simp] theorem mem_addNode (s : State) (l : Nat) (x : NodeSt) : (addNode s l x).1.mem = s.mem := by unfold addNode; rfl

@[simp] theorem mem_launchRecord (s : State) (l : Nat) (addr : Nat) : (launchRecord s l addr).1.mem = s.mem := by
  unfold launchRecord
  repeat' first
    | split
    | simp

@[simp] theorem mem_refNode (s : State) (l : Nat) (addr : Nat) : (refNode s l addr).1.mem = s.mem := by
  unfold refNode
  repeat' first
    | obtain rfl := pair_fst ‹_ = (_, _)›
    | split
    | simp

@[simp] theorem mem_readyNode (s : State) (l : Nat) (n : Nat) : (readyNode s l n).mem = s.mem := by unfold readyNode; split <;> simp

@[simp] theorem mem_releaseSucc (s : State) (l : Nat) (addr : Nat) : (releaseSucc s l addr).mem = s.mem := by
  unfold releaseSucc
  dsimp only
  repeat' split
  all_goals simp [mem_foldl]

@[simp] theorem mem_dropSaved (s : State) (p : Nat) : (dropSaved s p).mem = s.mem := by
  unfold dropSaved
  dsimp only
  repeat' split
  all_goals simp [mem_foldl]

@[simp] theorem mem_abortSection (s : State) (p : Nat) : (abortSection s p).mem = s.mem := by unfold abortSection; rfl

@[simp] theorem mem_elim_dropSaved (o : Option Nat) (s : State) : (o.elim s (dropSaved s)).mem = s.mem := by cases o <;> simp

@[simp] theorem mem_endNode (sub : State → Nat → State) (kind : LEnd) (l : Nat) (s : State) (n : Nat × NodeSt) (k0 : ∀ s x0, (sub s x0).mem = s.mem) : (endNode sub kind l s n).mem = s.mem := by
  unfold endNode
  dsimp only
  repeat' split
  all_goals simp [mem_foldl, k0]

@[simp] theorem mem_endLaunch (a0 : Nat) (a1 : LEnd) (a2 : State) (a3 : Nat) : (endLaunch a0 a1 a2 a3).mem = a2.mem := by
  induction a0 generalizing a1 a2 a3 with
  | zero => rfl
  | succ _ ih =>
    unfold endLaunch
    repeat' first
      | dsimp only
      | split
      | with_reducible refine (mem_foldl _ ?_ _ _).trans ?_
      | simp [ih]

@[simp] theorem ok_logNode (s : State) (l : Nat) (x : NodeSt) (h : Memory.wf s.mem = true) : Memory.wf (logNode s l x).mem = true := by
  unfold logNode
  dsimp only
  repeat' split
  all_goals simp [h, mem_foldl]

@[simp] theorem mem_cancelSucc (l : Nat) (s : State) (addr : Nat) : (cancelSucc l s addr).mem = s.mem := by
  unfold cancelSucc
  dsimp only
  repeat' split
  all_goals simp [mem_foldl]

@[simp] theorem mem_failSucc (l : Nat) (m : Bool) (acc : FailAcc) (a : Nat) : (failSucc l m acc a).s.mem = acc.s.mem := by
  unfold failSucc
  repeat' first
    | dsimp only
    | split
    | simp

@[simp] theorem mem_foldl_failSucc (l : Nat) (m : Bool) : ∀ (xs : List Nat) (acc : FailAcc), (xs.foldl (failSucc l m) acc).s.mem = acc.s.mem
  | [], _ => rfl
  | x :: xs, acc => (mem_foldl_failSucc l m xs (failSucc l m acc x)).trans (mem_failSucc l m acc x)

@[simp] theorem ok_applyDone (a0 : State) (a1 a2 : Nat) (h : Memory.wf a0.mem = true) : Memory.wf (applyDone a0 a1 a2).mem = true := by
  unfold applyDone
  repeat' first
    | split
    | simp [h, mem_foldl]


@[simp] theorem mem_notePast (s : State) (q seq st : Nat) : (notePast s q seq st).mem = s.mem := mem_modQueue ..

@[simp] theorem ok_finishLaunch (s : State) (l : Nat) (h : Memory.wf s.mem = true) : Memory.wf (finishLaunch s l).mem = true := by
  unfold finishLaunch
  dsimp only
  repeat' split
  all_goals simp [h, mem_foldl]

@[simp] theorem ok_settleDrill (n : Nat) (s : State) (h : Memory.wf s.mem = true) : Memory.wf (settleDrill n s).mem = true := by
  induction n generalizing s with
  | zero => unfold settleDrill; exact h
  | succ n ih =>
    unfold settleDrill
    dsimp only
    split
    · exact h
    · exact ih _ (ok_foldl _ (fun _ _ k => by simp [k]) _ _ (ok_foldl _ (fun _ _ k => by simp [k]) _ _ h))


@[simp] theorem mem_resolveAfter (s : State) (l : Nat) : (resolveAfter s l).mem = s.mem := by
  unfold resolveAfter
  dsimp only
  repeat' split
  all_goals simp [mem_foldl]

@[simp] theorem mem_enterGranary (s : State) (l : Nat) (n : Nat) : (enterGranary s l n).mem = s.mem := by simp [enterGranary]

@[simp] theorem mem_granaryStep (s : State) (l : Nat) (n : Nat) : (granaryStep s l n).mem = s.mem := by unfold granaryStep; split <;> simp

theorem next_execGranaryEnter (launch : Nat) (node : Nat) (s : State) (h : MemoryOk s) : NextOk (execGranaryEnter launch node s) := by simpa [execGranaryEnter, MemoryOk] using h

@[simp] theorem mem_ageNode (s : State) (l : Nat) (n : Nat) : (ageNode s l n).mem = s.mem := by unfold ageNode; split <;> simp

theorem next_execNodeAgeing (launch : Nat) (node : Nat) (s : State) (h : MemoryOk s) : NextOk (execNodeAgeing launch node s) := by simpa [execNodeAgeing, MemoryOk] using h

@[simp] theorem ok_takeRecord (s : State) (q : Nat) (h : Memory.wf s.mem = true) : Memory.wf (takeRecord s q).mem = true := by
  unfold takeRecord
  dsimp only
  repeat' split
  all_goals simp [h, mem_foldl]

theorem next_execDrillTakeRecord (q : Nat) (s : State) (h : MemoryOk s) : NextOk (execDrillTakeRecord q s) := by
  unfold MemoryOk at h; unfold execDrillTakeRecord
  repeat' first
    | simp [MemoryOk, *]

@[simp] theorem ok_resetQueue (s : State) (q : Nat) (h : Memory.wf s.mem = true) : Memory.wf (resetQueue s q).mem = true := by
  unfold resetQueue
  repeat' first
    | split
    | with_reducible refine ok_foldl _ (fun _ _ h => ?_) _ _ ?_
    | with_reducible refine ok_settleDrill _ _ ?_
    | simp [h, mem_foldl]

@[simp] theorem mem_endReset (s : State) (q : Nat) : (endReset s q).mem = s.mem := by simp [endReset]

@[simp] theorem mem_applyKills (s : State) : (applyKills s).mem = s.mem := by
  unfold applyKills
  repeat' first
    | intro _
    | split
    | with_reducible refine (mem_foldl _ ?_ _ _).trans ?_
    | simp

/-! ### DrillNodes -/

@[simp] theorem mem_faultNode (s : State) (l : Nat) (n : Nat) (x : NodeSt) (b : VBad) : (faultNode s l n x b).mem = s.mem := by simp [faultNode]

@[simp] theorem mem_nodeWord (s : State) (l : Nat) (x : NodeSt) : (nodeWord s l x).1.mem = s.mem := by
  unfold nodeWord
  repeat' first | obtain rfl := pair_fst ‹_ = (_, _)› | split | simp

@[simp] theorem ok_signalStep (s : State) (l : Nat) (n : Nat) (h : Memory.wf s.mem = true) : Memory.wf (signalStep s l n).mem = true := by
  unfold signalStep
  repeat' first | obtain rfl := pair_fst ‹_ = (_, _)› | split | simp [h, mem_foldl]

theorem next_execSignalNode (launch : Nat) (node : Nat) (s : State) (h : MemoryOk s) : NextOk (execSignalNode launch node s) := by
  unfold MemoryOk at h; unfold execSignalNode
  repeat' first | simp [MemoryOk, *]

@[simp] theorem mem_branchStep (s : State) (l : Nat) (n : Nat) : (branchStep s l n).mem = s.mem := by
  unfold branchStep
  repeat' first | obtain rfl := pair_fst ‹_ = (_, _)› | split | simp

theorem next_execBranchNode (launch : Nat) (node : Nat) (s : State) (h : MemoryOk s) : NextOk (execBranchNode launch node s) := by simpa [execBranchNode, MemoryOk] using h

@[simp] theorem mem_pollStep (s : State) (l : Nat) (n : Nat) : (pollStep s l n).mem = s.mem := by
  unfold pollStep
  repeat' first | obtain rfl := pair_fst ‹_ = (_, _)› | split | simp

theorem next_execWaitPoll (launch : Nat) (node : Nat) (s : State) (h : MemoryOk s) : NextOk (execWaitPoll launch node s) := by simpa [execWaitPoll, MemoryOk] using h

@[simp] theorem mem_waitTimeoutStep (s : State) (l : Nat) (n : Nat) : (waitTimeoutStep s l n).mem = s.mem := by unfold waitTimeoutStep; split <;> simp

theorem next_execWaitTimeout (launch : Nat) (node : Nat) (s : State) (h : MemoryOk s) : NextOk (execWaitTimeout launch node s) := by simpa [execWaitTimeout, MemoryOk] using h

@[simp] theorem mem_subgraphStep (s : State) (l : Nat) (n : Nat) : (subgraphStep s l n).mem = s.mem := by unfold subgraphStep; split <;> simp

theorem next_execSubgraphStart (launch : Nat) (node : Nat) (s : State) (h : MemoryOk s) : NextOk (execSubgraphStart launch node s) := by simpa [execSubgraphStart, MemoryOk] using h

@[simp] theorem mem_performPush (s : State) (c : Cmd) : (performPush s c).mem = s.mem := by
  unfold performPush
  repeat' first | obtain rfl := pair_fst ‹_ = (_, _)› | split | simp

@[simp] theorem ok_performAccess (s : State) (id : Nat) (h : Memory.wf s.mem = true) : Memory.wf (performAccess s id).mem = true := by
  unfold performAccess
  repeat' first | split | simp [h, mem_foldl]

theorem next_execHomeAccessPerform (req : Nat) (s : State) (h : MemoryOk s) : NextOk (execHomeAccessPerform req s) := by
  unfold MemoryOk at h; unfold execHomeAccessPerform
  repeat' first | simp [MemoryOk, *]

@[simp] theorem mem_completeCmd (s : State) (id : Nat) : (completeCmd s id).mem = s.mem := by
  unfold completeCmd
  dsimp only
  repeat' split
  all_goals simp [mem_foldl]

theorem next_execEngineComplete (cmd : Nat) (s : State) (h : MemoryOk s) : NextOk (execEngineComplete cmd s) := by simpa [execEngineComplete, MemoryOk] using h

/-! ### Memory -/

@[simp] theorem mem_issueEffect (dst : Dst) (q : Req) (s : State) : (issueEffect dst q s).mem = s.mem := by simp [issueEffect]

@[simp] theorem posts_specMem (m : MAct) (op : ReqOp) : PostsKeep (specMem m op) := fun _ => by simp [specMem]

@[simp] theorem posts_specLd (m : MAct) (sx : Bool) : PostsKeep (specLd m sx) := fun _ => by simp [specLd]

theorem next_execLd (m : MAct) (sx : Bool) (s : State) (h : MemoryOk s) : NextOk (execLd m sx s) :=
  next_runBeat _ _ (fun _ => posts_specLd ..) h

@[simp] theorem posts_specSt (m : MAct) : PostsKeep (specSt m) := fun _ => by simp [specSt]

theorem next_execSt (m : MAct) (s : State) (h : MemoryOk s) : NextOk (execSt m s) :=
  next_runBeat _ _ (fun _ => posts_specSt ..) h

@[simp] theorem posts_specAmo (m : MAct) (op : AtomOp) (fcs : Fcs) : PostsKeep (specAmo m op fcs) := fun _ => by simp [specAmo]

theorem next_execAmo (m : MAct) (op : AtomOp) (fcs : Fcs) (s : State) (h : MemoryOk s) : NextOk (execAmo m op fcs s) :=
  next_runBeat _ _ (fun _ => posts_specAmo ..) h

@[simp] theorem posts_specRed (m : MAct) (op : AtomOp) (fcs : Fcs) : PostsKeep (specRed m op fcs) := fun _ => by simp [specRed]

theorem next_execRed (m : MAct) (op : AtomOp) (fcs : Fcs) (s : State) (h : MemoryOk s) : NextOk (execRed m op fcs s) :=
  next_runBeat _ _ (fun _ => posts_specRed ..) h

@[simp] theorem posts_specAmoCas (m : MAct) : PostsKeep (specAmoCas m) := fun _ => by simp [specAmoCas]

theorem next_execAmoCas (m : MAct) (s : State) (h : MemoryOk s) : NextOk (execAmoCas m s) :=
  next_runBeat _ _ (fun _ => posts_specAmoCas ..) h

@[simp] theorem mem_fenceEffect (dst : Dst) (scope : Scope) (l : Loc) (s : State) : (fenceEffect dst scope l s).mem = s.mem := by simp [fenceEffect]

@[simp] theorem posts_specWfence (dst : Dst) (scope : Scope) : PostsKeep (specWfence dst scope) := fun _ => by simp [specWfence]

theorem next_execWfence (dst : Dst) (scope : Scope) (s : State) (h : MemoryOk s) : NextOk (execWfence dst scope s) :=
  next_runBeat _ _ (fun _ => posts_specWfence ..) h

@[simp] theorem posts_specMseal (dst : Dst) (sa : Src) (sb : Src) : PostsKeep (specMseal dst sa sb) := fun _ => by unfold specMseal; dsimp only [specR_op, specI_op, specR3_op]; split <;> simp

theorem next_execMseal (dst : Dst) (sa : Src) (sb : Src) (s : State) (h : MemoryOk s) : NextOk (execMseal dst sa sb s) :=
  next_runBeat _ _ (fun _ => posts_specMseal ..) h

@[simp] theorem posts_specMunseal (dst : Dst) (sa : Src) : PostsKeep (specMunseal dst sa) := fun _ => by simp [specMunseal]

theorem next_execMunseal (dst : Dst) (sa : Src) (s : State) (h : MemoryOk s) : NextOk (execMunseal dst sa s) :=
  next_runBeat _ _ (fun _ => posts_specMunseal ..) h

/-! ### Endpoint -/

@[simp] theorem mem_modStream (s : State) (l : Loc) (m : Fin 8) (f : Stream → Stream) : (modStream s l m f).mem = s.mem := by unfold modStream; rfl

@[simp] theorem mem_openEffect (dst : Dst) (m : Fin 8) (x : BeatIn) (hasBase : Bool) (s : State) : (openEffect dst m x hasBase s).mem = s.mem := by simp [openEffect]

@[simp] theorem posts_specStrmOpn (r : RAct) (m : Fin 8) : PostsKeep (specStrmOpn r m) := fun _ => by simp [specStrmOpn]

theorem next_execStrmOpn (r : RAct) (m : Fin 8) (s : State) (h : MemoryOk s) : NextOk (execStrmOpn r m s) :=
  next_runBeat _ _ (fun _ => posts_specStrmOpn ..) h

@[simp] theorem posts_specStrmCls (r : RAct) (m : Fin 8) : PostsKeep (specStrmCls r m) := fun _ => by simp [specStrmCls]

theorem next_execStrmCls (r : RAct) (m : Fin 8) (s : State) (h : MemoryOk s) : NextOk (execStrmCls r m s) :=
  next_runBeat _ _ (fun _ => posts_specStrmCls ..) h

@[simp] theorem mem_oweReq (l : Loc) (m : Fin 8) (s : State) : (oweReq l m s).mem = s.mem := by simp [oweReq]

@[simp] theorem mem_oweReqs (l : Loc) (s : State) (m : Fin 8) : (oweReqs l s m).mem = s.mem := by simp [oweReqs, mem_foldl]

@[simp] theorem mem_barEffect (mask : BitVec 8) (l : Loc) (s : State) : (barEffect mask l s).mem = s.mem := by simp [barEffect, mem_foldl]

@[simp] theorem posts_specSbar (mask : BitVec 8) (u : PUpd) : PostsKeep (specSbar mask u) := fun _ => by simp [specSbar]

theorem next_execSbar (mask : BitVec 8) (u : PUpd) (s : State) (h : MemoryOk s) : NextOk (execSbar mask u s) :=
  next_runBeat _ _ (fun _ => posts_specSbar ..) h

@[simp] theorem posts_specStrmSt (r : RAct) (m : Fin 8) : PostsKeep (specStrmSt r m) := fun _ => by simp [specStrmSt]

theorem next_execStrmSt (r : RAct) (m : Fin 8) (s : State) (h : MemoryOk s) : NextOk (execStrmSt r m s) :=
  next_runBeat _ _ (fun _ => posts_specStrmSt ..) h

@[simp] theorem mem_prefetchEffect (dst : Dst) (x : BeatIn) (s : State) : (prefetchEffect dst x s).mem = s.mem := by simp [prefetchEffect]

@[simp] theorem posts_specTlbPf (r : RAct) : PostsKeep (specTlbPf r) := fun _ => by simp [specTlbPf]

theorem next_execTlbPf (r : RAct) (s : State) (h : MemoryOk s) : NextOk (execTlbPf r s) :=
  next_runBeat _ _ (fun _ => posts_specTlbPf ..) h

@[simp] theorem posts_specWpArm (r : RAct) (n : Fin 2) (mode : WpMode) : PostsKeep (specWpArm r n mode) := fun _ => by unfold specWpArm; dsimp only [specR_op, specI_op, specR3_op]; split <;> simp

theorem next_execWpArm (r : RAct) (n : Fin 2) (mode : WpMode) (s : State) (h : MemoryOk s) : NextOk (execWpArm r n mode s) :=
  next_runBeat _ _ (fun _ => posts_specWpArm ..) h

@[simp] theorem ok_flushEffect (dst : Dst) (l : Loc) (s : State) (h : Memory.wf s.mem = true) : Memory.wf (flushEffect dst l s).mem = true := by simp [flushEffect, h]

@[simp] theorem posts_specCmbFl (r : RAct) : PostsKeep (specCmbFl r) := by
  intro x
  unfold specCmbFl
  repeat' first | intro _ | simp [MemoryOk, *]

theorem next_execCmbFl (r : RAct) (s : State) (h : MemoryOk s) : NextOk (execCmbFl r s) :=
  next_runBeat _ _ (fun _ => posts_specCmbFl ..) h

@[simp] theorem mem_issueStream (s : State) (l : Loc) (m : Fin 8) (q : Req) : (issueStream s l m q).mem = s.mem := by
  unfold issueStream
  dsimp only
  split <;> simp

@[simp] theorem mem_dropOwed (s : State) (l : Loc) (m : Fin 8) : (dropOwed s l m).mem = s.mem := rfl

@[simp] theorem mem_fillGather (s : State) (l : Loc) (m : Fin 8) (rid : Nat) (pos : Nat) (n : Nat) (v : Nat) : (fillGather s l m rid pos n v).mem = s.mem := by
  unfold fillGather
  dsimp only
  repeat' split
  all_goals simp [mem_foldl]

@[simp] theorem mem_placeElem (s : State) (l : Loc) (m : Fin 8) : (placeElem s l m).mem = s.mem := by simp [placeElem]

@[simp] theorem mem_readImagePart (s : State) (l : Loc) (m : Fin 8) (q : Req) : (readImagePart s l m q).mem = s.mem := by simp [readImagePart]

@[simp] theorem mem_deliverElem (s : State) (l : Loc) (m : Fin 8) (src : Source) : (deliverElem s l m src).mem = s.mem := by unfold deliverElem; split <;> simp

@[simp] theorem mem_expandNext (s : State) (l : Loc) (m : Fin 8) : (expandNext s l m).mem = s.mem := by
  unfold expandNext
  dsimp only
  repeat' split
  all_goals simp [mem_foldl]

@[simp] theorem mem_loadNext (s : State) (l : Loc) (m : Fin 8) : (loadNext s l m).mem = s.mem := by simp [loadNext]

@[simp] theorem mem_compressElem (s : State) (l : Loc) (m : Fin 8) (v : Nat) : (compressElem s l m v).mem = s.mem := by simp [compressElem]

@[simp] theorem mem_storeNext (s : State) (l : Loc) (m : Fin 8) : (storeNext s l m).mem = s.mem := by
  unfold storeNext
  dsimp only
  repeat' split
  all_goals simp [mem_foldl]

@[simp] theorem mem_cutBeat (s : State) (l : Loc) (m : Fin 8) : (cutBeat s l m).mem = s.mem := by
  unfold cutBeat
  dsimp only
  repeat' split
  all_goals simp [mem_foldl]

@[simp] theorem mem_sendLast (s : State) (l : Loc) (m : Fin 8) : (sendLast s l m).mem = s.mem := by simp [sendLast]

@[simp] theorem mem_streamStep (s : State) (l : Loc) (m : Fin 8) : (streamStep s l m).mem = s.mem := by
  unfold streamStep
  dsimp only
  repeat' split
  all_goals simp [mem_foldl]

theorem next_execStreamAccess (l : Loc) (m : Fin 8) (s : State) (h : MemoryOk s) : NextOk (execStreamAccess l m s) := by simpa [execStreamAccess, MemoryOk] using h

@[simp] theorem mem_shutStream (s : State) (l : Loc) (m : Fin 8) : (shutStream s l m).mem = s.mem := by simp [shutStream]

@[simp] theorem mem_streamEnd (s : State) (l : Loc) (m : Fin 8) : (streamEnd s l m).mem = s.mem := by
  unfold streamEnd
  dsimp only
  repeat' split
  all_goals simp [mem_foldl]

theorem next_execStreamComplete (l : Loc) (m : Fin 8) (s : State) (h : MemoryOk s) : NextOk (execStreamComplete l m s) := by simpa [execStreamComplete, MemoryOk] using h

/-! ### FaultSteps -/

@[simp] theorem mem_takeFault (s : State) (die : Nat) (r : FaultRec) : (takeFault s die r).mem = s.mem := by simp [takeFault]

@[simp] theorem mem_assignFid (s : State) (die : Nat) : (assignFid s die).mem = s.mem := by
  unfold assignFid
  dsimp only
  repeat' split
  all_goals simp [mem_foldl]

theorem next_execFidAssign (die : Nat) (s : State) (h : MemoryOk s) : NextOk (execFidAssign die s) := by simpa [execFidAssign, MemoryOk] using h

/-! ### Integer -/

@[simp] theorem posts_specAdd (r : RAct) (c : IntCtl) : PostsKeep (specAdd r c) := fun _ => by simp [specAdd]

theorem next_execAdd (r : RAct) (c : IntCtl) (s : State) (h : MemoryOk s) : NextOk (execAdd r c s) :=
  next_runBeat _ _ (fun _ => posts_specAdd ..) h

@[simp] theorem posts_specSub (r : RAct) (c : IntCtl) : PostsKeep (specSub r c) := fun _ => by simp [specSub]

theorem next_execSub (r : RAct) (c : IntCtl) (s : State) (h : MemoryOk s) : NextOk (execSub r c s) :=
  next_runBeat _ _ (fun _ => posts_specSub ..) h

@[simp] theorem posts_specAddi (i : IAct) : PostsKeep (specAddi i) := fun _ => by simp [specAddi]

theorem next_execAddi (i : IAct) (s : State) (h : MemoryOk s) : NextOk (execAddi i s) :=
  next_runBeat _ _ (fun _ => posts_specAddi ..) h

@[simp] theorem posts_specMul (r : RAct) (c : IntCtl) : PostsKeep (specMul r c) := fun _ => by simp [specMul]

theorem next_execMul (r : RAct) (c : IntCtl) (s : State) (h : MemoryOk s) : NextOk (execMul r c s) :=
  next_runBeat _ _ (fun _ => posts_specMul ..) h

@[simp] theorem posts_specMulh (r : RAct) (c : IntCtl) : PostsKeep (specMulh r c) := fun _ => by simp [specMulh]

theorem next_execMulh (r : RAct) (c : IntCtl) (s : State) (h : MemoryOk s) : NextOk (execMulh r c s) :=
  next_runBeat _ _ (fun _ => posts_specMulh ..) h

@[simp] theorem res_lanes3 (w : LaneW) (x : BeatIn) (f : Nat → Nat → Nat → Nat × Flags) : ResKeeps (lanes3 w x f) := by simp [lanes3]

@[simp] theorem posts_specMad (r : RAct) (c : IntCtl) : PostsKeep (specMad r c) := fun _ => by simp [specMad]

theorem next_execMad (r : RAct) (c : IntCtl) (s : State) (h : MemoryOk s) : NextOk (execMad r c s) :=
  next_runBeat _ _ (fun _ => posts_specMad ..) h

@[simp] theorem posts_specDiv (r : RAct) (c : IntCtl) : PostsKeep (specDiv r c) := fun _ => by simp [specDiv]

theorem next_execDiv (r : RAct) (c : IntCtl) (s : State) (h : MemoryOk s) : NextOk (execDiv r c s) :=
  next_runBeat _ _ (fun _ => posts_specDiv ..) h

@[simp] theorem posts_specRem (r : RAct) (c : IntCtl) : PostsKeep (specRem r c) := fun _ => by simp [specRem]

theorem next_execRem (r : RAct) (c : IntCtl) (s : State) (h : MemoryOk s) : NextOk (execRem r c s) :=
  next_runBeat _ _ (fun _ => posts_specRem ..) h

@[simp] theorem posts_specNeg (r : RAct) (c : IntCtl) : PostsKeep (specNeg r c) := fun _ => by simp [specNeg]

theorem next_execNeg (r : RAct) (c : IntCtl) (s : State) (h : MemoryOk s) : NextOk (execNeg r c s) :=
  next_runBeat _ _ (fun _ => posts_specNeg ..) h

@[simp] theorem posts_specAbs (r : RAct) (c : IntCtl) : PostsKeep (specAbs r c) := fun _ => by simp [specAbs]

theorem next_execAbs (r : RAct) (c : IntCtl) (s : State) (h : MemoryOk s) : NextOk (execAbs r c s) :=
  next_runBeat _ _ (fun _ => posts_specAbs ..) h

@[simp] theorem posts_specMin (r : RAct) (c : IntCtl) : PostsKeep (specMin r c) := fun _ => by simp [specMin]

theorem next_execMin (r : RAct) (c : IntCtl) (s : State) (h : MemoryOk s) : NextOk (execMin r c s) :=
  next_runBeat _ _ (fun _ => posts_specMin ..) h

@[simp] theorem posts_specMax (r : RAct) (c : IntCtl) : PostsKeep (specMax r c) := fun _ => by simp [specMax]

theorem next_execMax (r : RAct) (c : IntCtl) (s : State) (h : MemoryOk s) : NextOk (execMax r c s) :=
  next_runBeat _ _ (fun _ => posts_specMax ..) h

@[simp] theorem posts_specAnd (r : RAct) (a1 : IntCtl) : PostsKeep (specAnd r a1) := fun _ => by simp [specAnd]

theorem next_execAnd (r : RAct) (c : IntCtl) (s : State) (h : MemoryOk s) : NextOk (execAnd r c s) :=
  next_runBeat _ _ (fun _ => posts_specAnd ..) h

@[simp] theorem posts_specOr (r : RAct) (a1 : IntCtl) : PostsKeep (specOr r a1) := fun _ => by simp [specOr]

theorem next_execOr (r : RAct) (c : IntCtl) (s : State) (h : MemoryOk s) : NextOk (execOr r c s) :=
  next_runBeat _ _ (fun _ => posts_specOr ..) h

@[simp] theorem posts_specXor (r : RAct) (a1 : IntCtl) : PostsKeep (specXor r a1) := fun _ => by simp [specXor]

theorem next_execXor (r : RAct) (c : IntCtl) (s : State) (h : MemoryOk s) : NextOk (execXor r c s) :=
  next_runBeat _ _ (fun _ => posts_specXor ..) h

@[simp] theorem posts_specAndn (r : RAct) (a1 : IntCtl) : PostsKeep (specAndn r a1) := fun _ => by simp [specAndn]

theorem next_execAndn (r : RAct) (c : IntCtl) (s : State) (h : MemoryOk s) : NextOk (execAndn r c s) :=
  next_runBeat _ _ (fun _ => posts_specAndn ..) h

@[simp] theorem posts_specNot (r : RAct) (a1 : IntCtl) : PostsKeep (specNot r a1) := fun _ => by simp [specNot]

theorem next_execNot (r : RAct) (c : IntCtl) (s : State) (h : MemoryOk s) : NextOk (execNot r c s) :=
  next_runBeat _ _ (fun _ => posts_specNot ..) h

@[simp] theorem posts_specShl (r : RAct) (c : IntCtl) : PostsKeep (specShl r c) := fun _ => by simp [specShl]

theorem next_execShl (r : RAct) (c : IntCtl) (s : State) (h : MemoryOk s) : NextOk (execShl r c s) :=
  next_runBeat _ _ (fun _ => posts_specShl ..) h

@[simp] theorem posts_specShr (r : RAct) (c : IntCtl) : PostsKeep (specShr r c) := fun _ => by simp [specShr]

theorem next_execShr (r : RAct) (c : IntCtl) (s : State) (h : MemoryOk s) : NextOk (execShr r c s) :=
  next_runBeat _ _ (fun _ => posts_specShr ..) h

@[simp] theorem posts_specSar (r : RAct) (c : IntCtl) : PostsKeep (specSar r c) := fun _ => by simp [specSar]

theorem next_execSar (r : RAct) (c : IntCtl) (s : State) (h : MemoryOk s) : NextOk (execSar r c s) :=
  next_runBeat _ _ (fun _ => posts_specSar ..) h

@[simp] theorem posts_specRot (r : RAct) (c : IntCtl) : PostsKeep (specRot r c) := fun _ => by simp [specRot]

theorem next_execRot (r : RAct) (c : IntCtl) (s : State) (h : MemoryOk s) : NextOk (execRot r c s) :=
  next_runBeat _ _ (fun _ => posts_specRot ..) h

@[simp] theorem posts_specShli (i : IAct) : PostsKeep (specShli i) := fun _ => by simp [specShli]

theorem next_execShli (i : IAct) (s : State) (h : MemoryOk s) : NextOk (execShli i s) :=
  next_runBeat _ _ (fun _ => posts_specShli ..) h

@[simp] theorem posts_specClz (r : RAct) (c : IntCtl) : PostsKeep (specClz r c) := fun _ => by simp [specClz]

theorem next_execClz (r : RAct) (c : IntCtl) (s : State) (h : MemoryOk s) : NextOk (execClz r c s) :=
  next_runBeat _ _ (fun _ => posts_specClz ..) h

@[simp] theorem posts_specCtz (r : RAct) (c : IntCtl) : PostsKeep (specCtz r c) := fun _ => by simp [specCtz]

theorem next_execCtz (r : RAct) (c : IntCtl) (s : State) (h : MemoryOk s) : NextOk (execCtz r c s) :=
  next_runBeat _ _ (fun _ => posts_specCtz ..) h

@[simp] theorem posts_specPopc (r : RAct) (c : IntCtl) : PostsKeep (specPopc r c) := fun _ => by simp [specPopc]

theorem next_execPopc (r : RAct) (c : IntCtl) (s : State) (h : MemoryOk s) : NextOk (execPopc r c s) :=
  next_runBeat _ _ (fun _ => posts_specPopc ..) h

@[simp] theorem posts_specBfe (r : RAct) (c : IntCtl) : PostsKeep (specBfe r c) := fun _ => by simp [specBfe]

theorem next_execBfe (r : RAct) (c : IntCtl) (s : State) (h : MemoryOk s) : NextOk (execBfe r c s) :=
  next_runBeat _ _ (fun _ => posts_specBfe ..) h

@[simp] theorem posts_specBfi (r : RAct) (a1 : IntCtl) : PostsKeep (specBfi r a1) := fun _ => by simp [specBfi]

theorem next_execBfi (r : RAct) (c : IntCtl) (s : State) (h : MemoryOk s) : NextOk (execBfi r c s) :=
  next_runBeat _ _ (fun _ => posts_specBfi ..) h

@[simp] theorem posts_specExt (r : RAct) (c : IntCtl) : PostsKeep (specExt r c) := fun _ => by simp [specExt]

theorem next_execExt (r : RAct) (c : IntCtl) (s : State) (h : MemoryOk s) : NextOk (execExt r c s) :=
  next_runBeat _ _ (fun _ => posts_specExt ..) h

@[simp] theorem posts_specLea (r : RAct) (c : IntCtl) : PostsKeep (specLea r c) := fun _ => by simp [specLea]

theorem next_execLea (r : RAct) (c : IntCtl) (s : State) (h : MemoryOk s) : NextOk (execLea r c s) :=
  next_runBeat _ _ (fun _ => posts_specLea ..) h

@[simp] theorem posts_specCmp (r : RAct) (c : CmpCtl) : PostsKeep (specCmp r c) := fun _ => by simp [specCmp]

theorem next_execCmp (r : RAct) (c : CmpCtl) (s : State) (h : MemoryOk s) : NextOk (execCmp r c s) :=
  next_runBeat _ _ (fun _ => posts_specCmp ..) h

@[simp] theorem posts_specCcmp (r : RAct) (c : CmpCtl) : PostsKeep (specCcmp r c) := fun _ => by simp [specCcmp]

theorem next_execCcmp (r : RAct) (c : CmpCtl) (s : State) (h : MemoryOk s) : NextOk (execCcmp r c s) :=
  next_runBeat _ _ (fun _ => posts_specCcmp ..) h

@[simp] theorem posts_specIota (r : RAct) (c : IntCtl) : PostsKeep (specIota r c) := fun _ => by simp [specIota]

theorem next_execIota (r : RAct) (c : IntCtl) (s : State) (h : MemoryOk s) : NextOk (execIota r c s) :=
  next_runBeat _ _ (fun _ => posts_specIota ..) h

@[simp] theorem posts_specPack (r : RAct) (c : IntCtl) : PostsKeep (specPack r c) := fun _ => by simp [specPack]

theorem next_execPack (r : RAct) (c : IntCtl) (s : State) (h : MemoryOk s) : NextOk (execPack r c s) :=
  next_runBeat _ _ (fun _ => posts_specPack ..) h

@[simp] theorem posts_specUnpk (r : RAct) (c : IntCtl) : PostsKeep (specUnpk r c) := fun _ => by simp [specUnpk]

theorem next_execUnpk (r : RAct) (c : IntCtl) (s : State) (h : MemoryOk s) : NextOk (execUnpk r c s) :=
  next_runBeat _ _ (fun _ => posts_specUnpk ..) h

@[simp] theorem posts_specShuf (r : RAct) (c : IntCtl) : PostsKeep (specShuf r c) := fun _ => by simp [specShuf]

theorem next_execShuf (r : RAct) (c : IntCtl) (s : State) (h : MemoryOk s) : NextOk (execShuf r c s) :=
  next_runBeat _ _ (fun _ => posts_specShuf ..) h

@[simp] theorem posts_specBcast (r : RAct) (c : IntCtl) : PostsKeep (specBcast r c) := fun _ => by simp [specBcast]

theorem next_execBcast (r : RAct) (c : IntCtl) (s : State) (h : MemoryOk s) : NextOk (execBcast r c s) :=
  next_runBeat _ _ (fun _ => posts_specBcast ..) h

@[simp] theorem posts_specVred (r : RAct) (c : IntCtl) : PostsKeep (specVred r c) := fun _ => by simp [specVred]

theorem next_execVred (r : RAct) (c : IntCtl) (s : State) (h : MemoryOk s) : NextOk (execVred r c s) :=
  next_runBeat _ _ (fun _ => posts_specVred ..) h

@[simp] theorem posts_specVscn (r : RAct) (c : IntCtl) : PostsKeep (specVscn r c) := fun _ => by simp [specVscn]

theorem next_execVscn (r : RAct) (c : IntCtl) (s : State) (h : MemoryOk s) : NextOk (execVscn r c s) :=
  next_runBeat _ _ (fun _ => posts_specVscn ..) h

@[simp] theorem posts_specFilt (r : RAct) (c : IntCtl) : PostsKeep (specFilt r c) := fun _ => by simp [specFilt]

theorem next_execFilt (r : RAct) (c : IntCtl) (s : State) (h : MemoryOk s) : NextOk (execFilt r c s) :=
  next_runBeat _ _ (fun _ => posts_specFilt ..) h

@[simp] theorem posts_specXpnd (r : RAct) (c : IntCtl) : PostsKeep (specXpnd r c) := fun _ => by simp [specXpnd]

theorem next_execXpnd (r : RAct) (c : IntCtl) (s : State) (h : MemoryOk s) : NextOk (execXpnd r c s) :=
  next_runBeat _ _ (fun _ => posts_specXpnd ..) h

@[simp] theorem posts_specZpack (r : RAct) (c : IntCtl) : PostsKeep (specZpack r c) := fun _ => by simp [specZpack]

theorem next_execZpack (r : RAct) (c : IntCtl) (s : State) (h : MemoryOk s) : NextOk (execZpack r c s) :=
  next_runBeat _ _ (fun _ => posts_specZpack ..) h

@[simp] theorem posts_specZunpk (r : RAct) (c : IntCtl) : PostsKeep (specZunpk r c) := fun _ => by simp [specZunpk]

theorem next_execZunpk (r : RAct) (c : IntCtl) (s : State) (h : MemoryOk s) : NextOk (execZunpk r c s) :=
  next_runBeat _ _ (fun _ => posts_specZunpk ..) h

@[simp] theorem posts_specHash (r : RAct) (a1 : IntCtl) : PostsKeep (specHash r a1) := fun _ => by simp [specHash]

theorem next_execHash (r : RAct) (c : IntCtl) (s : State) (h : MemoryOk s) : NextOk (execHash r c s) :=
  next_runBeat _ _ (fun _ => posts_specHash ..) h

end Sys2Proof.Laws
end

