-- ==== Sys2Proof/Laws/MemUnits.lean ====
section
/-!
SUPPORT. Which operations leave memory as it is or keep its canonical form: matrix elements, barriers, sections and the save area. The names are those of MemBase.
-/

set_option linter.unusedVariables false
set_option linter.unusedSimpArgs false

namespace Sys2Proof.Laws

open Machine

/-! ### MatrixSteps -/

@[simp] theorem mem_operandFill (s : State) (l : Loc) (nodeB : Bool) : (operandFill s l nodeB).mem = s.mem := by
  unfold operandFill
  dsimp only
  repeat' split
  all_goals simp [mem_foldl]

theorem next_execOperandPacketFill (l : Loc) (nodeB : Bool) (s : State) (h : MemoryOk s) : NextOk (execOperandPacketFill l nodeB s) := by simpa [execOperandPacketFill, MemoryOk] using h

@[simp] theorem mem_modFire (s : State) (l : Loc) (f : Firing → Firing) : (modFire s l f).mem = s.mem := by unfold modFire; rfl

@[simp] theorem mem_holdMma (s : State) (l : Loc) (f : Firing) (cls : FaultClass) (sub : Nat) (info : Word) : (holdMma s l f cls sub info).mem = s.mem := by simp [holdMma]

@[simp] theorem mem_commitStep (s : State) (l : Loc) (f : Firing) (ents : Tbl Acc) (fl : Flags) (a5 : Firing → Firing) : (commitStep s l f ents fl a5).mem = s.mem := by unfold commitStep; rfl

@[simp] theorem mem_showStep (s : State) (l : Loc) (slot : Fin 16) (n : Nat) : (showStep s l slot n).mem = s.mem := by unfold showStep; rfl

@[simp] theorem mem_gridStep (s : State) (l : Loc) (f : Firing) (geo : MmaGeo) (a : OpBuf) (b : OpBuf) : (gridStep s l f geo a b).mem = s.mem := by unfold gridStep; split <;> simp

@[simp] theorem mem_offerSpill (s : State) (l : Loc) (t : Tile) (i : Nat) (j : Nat) (act : LineAct) : (offerSpill s l t i j act).mem = s.mem := by unfold offerSpill; rfl

@[simp] theorem mem_spillLane (s : State) (l : Loc) (t : Tile) (i : Nat) (ln : Lane) : (spillLane s l t i ln).mem = s.mem := by simp [spillLane, mem_foldl]

@[simp] theorem mem_readBackLanes (s : State) (l : Loc) (t : Tile) (lanes : List (Lane × Nat)) : (readBackLanes s l t lanes).mem = s.mem := by simp [readBackLanes, mem_foldl]

@[simp] theorem mem_closeCommit (s : State) (l : Loc) (f : Firing) (geo : MmaGeo) (lanes : List Lane) (pick : Nat → Lane → Bool) (a6 : List Lane → Firing → Firing) : (closeCommit s l f geo lanes pick a6).mem = s.mem := by
  unfold closeCommit
  dsimp only
  repeat' split
  all_goals simp [mem_foldl]

@[simp] theorem mem_lockStart (s : State) (l : Loc) (f : Firing) (geo : MmaGeo) (lanes : List Lane) : (lockStart s l f geo lanes).mem = s.mem := by simp [lockStart]

@[simp] theorem mem_lockSend (s : State) (l : Loc) (f : Firing) (geo : MmaGeo) (i : Nat) (k : Nat) : (lockSend s l f geo i k).mem = s.mem := by simp [lockSend]

@[simp] theorem mem_lockNext (s : State) (l : Loc) (f : Firing) (n : Nat) : (lockNext s l f n).mem = s.mem := by simp [lockNext]

@[simp] theorem mem_lockInsert (s : State) (l : Loc) (f : Firing) (geo : MmaGeo) (a : OpBuf) (ch : Fin 4) (i : Nat) (k : Nat) (n : Nat) (ln : Lane) (row : Nat) : (lockInsert s l f geo a ch i k n ln row).mem = s.mem := by
  unfold lockInsert
  dsimp only
  repeat' split
  all_goals simp [mem_foldl]

@[simp] theorem mem_lockTake (s : State) (l : Loc) (f : Firing) (geo : MmaGeo) (a : OpBuf) (lanes : List Lane) (i : Nat) (k : Nat) (n : Nat) : (lockTake s l f geo a lanes i k n).mem = s.mem := by
  unfold lockTake
  repeat' first
    | split
    | simp

@[simp] theorem mem_rowEnd (s : State) (l : Loc) (f : Firing) (geo : MmaGeo) (a : OpBuf) (lanes : List Lane) : (rowEnd s l f geo a lanes).mem = s.mem := by
  unfold rowEnd
  repeat' first
    | split
    | simp

@[simp] theorem mem_rowStep (s : State) (l : Loc) (f : Firing) (geo : MmaGeo) (a : OpBuf) : (rowStep s l f geo a).mem = s.mem := by
  unfold rowStep
  dsimp only
  repeat' split
  all_goals simp [mem_foldl]

@[simp] theorem mem_adapterIntake (l : Loc) (geo : MmaGeo) (a : OpBuf) (a3 : Nat) (a4 : State) : (adapterIntake l geo a a3 a4).mem = a4.mem := by
  induction a3 generalizing l geo a a4 with
  | zero =>
    unfold adapterIntake
    repeat' first
      | exact mem_of_getD (mem_takeRow _ _ _) ‹_›
      | split
      | simp
  | succ _ ih =>
    unfold adapterIntake
    repeat' first
      | exact mem_of_getD (mem_takeRow _ _ _) ‹_›
      | split
      | simp [ih]

@[simp] theorem mem_mmaStepOn (s : State) (l : Loc) : (mmaStepOn s l).mem = s.mem := by
  unfold mmaStepOn
  dsimp only
  repeat' split
  all_goals simp [mem_foldl]

theorem next_execMmaStep (l : Loc) (s : State) (h : MemoryOk s) : NextOk (execMmaStep l s) := by simpa [execMmaStep, MemoryOk] using h

@[simp] theorem mem_mmaEnd (s : State) (l : Loc) (f : Firing) : (mmaEnd s l f).mem = s.mem := by simp [mmaEnd]

@[simp] theorem mem_mmaCompleteOn (s : State) (l : Loc) : (mmaCompleteOn s l).mem = s.mem := by
  unfold mmaCompleteOn
  dsimp only
  repeat' split
  all_goals simp [mem_foldl]

theorem next_execMmaComplete (l : Loc) (s : State) (h : MemoryOk s) : NextOk (execMmaComplete l s) := by simpa [execMmaComplete, MemoryOk] using h

theorem next_execAccumulatorRelease (l : Loc) (an : Fin 4) (s : State) (h : MemoryOk s) : NextOk (execAccumulatorRelease l an s) := by simpa [execAccumulatorRelease, MemoryOk] using h

@[simp] theorem mem_releaseBeatOn (s : State) (l : Loc) (c : Fin 2) : (releaseBeatOn s l c).mem = s.mem := by unfold releaseBeatOn; split <;> simp

theorem next_execReleaseBeat (l : Loc) (wo : Fin 2) (s : State) (h : MemoryOk s) : NextOk (execReleaseBeat l wo s) := by simpa [execReleaseBeat, MemoryOk] using h

@[simp] theorem mem_modAccOp (s : State) (l : Loc) (f : AccOp → AccOp) : (modAccOp s l f).mem = s.mem := by unfold modAccOp; rfl

@[simp] theorem mem_accBeat (s : State) (l : Loc) (o : AccOp) (f : AccOp → AccOp) : (accBeat s l o f).mem = s.mem := by unfold accBeat; rfl

@[simp] theorem mem_endAcc (s : State) (l : Loc) (o : AccOp) : (endAcc s l o).mem = s.mem := by simp [endAcc]

@[simp] theorem mem_holdAcc (s : State) (l : Loc) (o : AccOp) (cls : FaultClass) (info : Word) : (holdAcc s l o cls info).mem = s.mem := by simp [holdAcc]

@[simp] theorem mem_takePair (s : State) (l : Loc) (o : AccOp) (ch : Fin 4) (p : Pair) (info : Word) : (takePair s l o ch p info).mem = s.mem := by unfold takePair; split <;> simp

@[simp] theorem mem_loadStep (s : State) (l : Loc) (o : AccOp) (ch : Fin 4) : (loadStep s l o ch).mem = s.mem := by
  unfold loadStep
  repeat' first
    | split
    | simp

@[simp] theorem mem_readStep (s : State) (l : Loc) (o : AccOp) : (readStep s l o).mem = s.mem := by unfold readStep; split <;> simp

@[simp] theorem mem_accStep (s : State) (l : Loc) : (accStep s l).mem = s.mem := by
  unfold accStep
  repeat' first
    | split
    | simp

/-! ### MatrixOps -/

@[simp] theorem mem_startMma (x : MmaAct) (geo : MmaGeo) (ids : List Nat) (l : Loc) (s : State) : (startMma x geo ids l s).mem = s.mem := by
  unfold startMma
  dsimp only
  repeat' split
  all_goals simp [mem_foldl]

@[simp] theorem posts_specMma (x : MmaAct) : PostsKeep (specMma x) := by
  intro x
  unfold specMma
  dsimp only [specR_op, specI_op, specR3_op]
  repeat' split
  all_goals simp

theorem next_execMma (x : MmaAct) (s : State) (h : MemoryOk s) : NextOk (execMma x s) :=
  next_runBeat _ _ (fun _ => posts_specMma ..) h

@[simp] theorem posts_specAccClr (x : XAct) : PostsKeep (specAccClr x) := fun _ => by simp [specAccClr]

theorem next_execAccClr (x : XAct) (s : State) (h : MemoryOk s) : NextOk (execAccClr x s) :=
  next_runBeat _ _ (fun _ => posts_specAccClr ..) h

@[simp] theorem mem_startAccRd (x : XAct) (toks : List Token) (l : Loc) (s : State) : (startAccRd x toks l s).mem = s.mem := by simp [startAccRd]

@[simp] theorem posts_specAccRd (x : XAct) (fcs : Fcs) : PostsKeep (specAccRd x fcs) := by
  intro x
  unfold specAccRd
  dsimp only [specR_op, specI_op, specR3_op]
  repeat' split
  all_goals simp

theorem next_execAccRd (x : XAct) (fcs : Fcs) (s : State) (h : MemoryOk s) : NextOk (execAccRd x fcs s) :=
  next_runBeat _ _ (fun _ => posts_specAccRd ..) h

@[simp] theorem mem_startAccLd (x : XAct) (l : Loc) (s : State) : (startAccLd x l s).mem = s.mem := by simp [startAccLd]

@[simp] theorem posts_specAccLd (x : XAct) : PostsKeep (specAccLd x) := fun _ => by simp [specAccLd]

theorem next_execAccLd (x : XAct) (s : State) (h : MemoryOk s) : NextOk (execAccLd x s) :=
  next_runBeat _ _ (fun _ => posts_specAccLd ..) h

@[simp] theorem mem_releaseEffect (x : XAct) (fcs : Fcs) (l : Loc) (s : State) : (releaseEffect x fcs l s).mem = s.mem := by
  unfold releaseEffect
  dsimp only
  repeat' split
  all_goals simp [mem_foldl]

@[simp] theorem posts_specAccRel (x : XAct) (fcs : Fcs) : PostsKeep (specAccRel x fcs) := fun _ => by unfold specAccRel; dsimp only [specR_op, specI_op, specR3_op]; split <;> simp

theorem next_execAccRel (x : XAct) (fcs : Fcs) (s : State) (h : MemoryOk s) : NextOk (execAccRel x fcs s) :=
  next_runBeat _ _ (fun _ => posts_specAccRel ..) h

@[simp] theorem mem_invEffect (dst : Dst) (l : Loc) (w : Nat) (s : State) : (invEffect dst l w s).mem = s.mem := by simp [invEffect]

@[simp] theorem posts_specAdInv (x : XAct) : PostsKeep (specAdInv x) := fun _ => by unfold specAdInv; dsimp only [specR_op, specI_op, specR3_op]; split <;> simp

theorem next_execAdInv (x : XAct) (s : State) (h : MemoryOk s) : NextOk (execAdInv x s) :=
  next_runBeat _ _ (fun _ => posts_specAdInv ..) h

@[simp] theorem posts_specMeCnt (x : XAct) : PostsKeep (specMeCnt x) := fun _ => by simp [specMeCnt]

theorem next_execMeCnt (x : XAct) (s : State) (h : MemoryOk s) : NextOk (execMeCnt x s) :=
  next_runBeat _ _ (fun _ => posts_specMeCnt ..) h

@[simp] theorem posts_specMeIdl (x : XAct) : PostsKeep (specMeIdl x) := fun _ => by unfold specMeIdl; dsimp only [specR_op, specI_op, specR3_op]; split <;> simp

theorem next_execMeIdl (x : XAct) (s : State) (h : MemoryOk s) : NextOk (execMeIdl x s) :=
  next_runBeat _ _ (fun _ => posts_specMeIdl ..) h

/-! ### Special -/

@[simp] theorem posts_specUnary (r : RAct) (c : FpCtl) (rounding : Rounding) (onInf : Bool → Nat × Flags) (onZero : Bool → Nat × Flags) (onFin : Bool → Nat → Int → Option Signed) : PostsKeep (specUnary r c rounding onInf onZero onFin) := fun _ => by simp [specUnary]

@[simp] theorem posts_specFrcp (r : RAct) (c : FpCtl) : PostsKeep (specFrcp r c) := fun _ => by simp [specFrcp]

theorem next_execFrcp (r : RAct) (c : FpCtl) (s : State) (h : MemoryOk s) : NextOk (execFrcp r c s) :=
  next_runBeat _ _ (fun _ => posts_specFrcp ..) h

@[simp] theorem posts_specFrsq (r : RAct) (c : FpCtl) : PostsKeep (specFrsq r c) := fun _ => by simp [specFrsq]

theorem next_execFrsq (r : RAct) (c : FpCtl) (s : State) (h : MemoryOk s) : NextOk (execFrsq r c s) :=
  next_runBeat _ _ (fun _ => posts_specFrsq ..) h

@[simp] theorem posts_specFsqrt (r : RAct) (c : FpCtl) : PostsKeep (specFsqrt r c) := fun _ => by simp [specFsqrt]

theorem next_execFsqrt (r : RAct) (c : FpCtl) (s : State) (h : MemoryOk s) : NextOk (execFsqrt r c s) :=
  next_runBeat _ _ (fun _ => posts_specFsqrt ..) h

@[simp] theorem posts_specFex2 (r : RAct) (c : FpCtl) : PostsKeep (specFex2 r c) := fun _ => by simp [specFex2]

theorem next_execFex2 (r : RAct) (c : FpCtl) (s : State) (h : MemoryOk s) : NextOk (execFex2 r c s) :=
  next_runBeat _ _ (fun _ => posts_specFex2 ..) h

@[simp] theorem posts_specFlg2 (r : RAct) (c : FpCtl) : PostsKeep (specFlg2 r c) := fun _ => by simp [specFlg2]

theorem next_execFlg2 (r : RAct) (c : FpCtl) (s : State) (h : MemoryOk s) : NextOk (execFlg2 r c s) :=
  next_runBeat _ _ (fun _ => posts_specFlg2 ..) h

@[simp] theorem posts_specFsin (r : RAct) (c : FpCtl) : PostsKeep (specFsin r c) := fun _ => by simp [specFsin]

theorem next_execFsin (r : RAct) (c : FpCtl) (s : State) (h : MemoryOk s) : NextOk (execFsin r c s) :=
  next_runBeat _ _ (fun _ => posts_specFsin ..) h

@[simp] theorem posts_specFcos (r : RAct) (c : FpCtl) : PostsKeep (specFcos r c) := fun _ => by simp [specFcos]

theorem next_execFcos (r : RAct) (c : FpCtl) (s : State) (h : MemoryOk s) : NextOk (execFcos r c s) :=
  next_runBeat _ _ (fun _ => posts_specFcos ..) h

@[simp] theorem posts_specFtnh (r : RAct) (c : FpCtl) : PostsKeep (specFtnh r c) := fun _ => by simp [specFtnh]

theorem next_execFtnh (r : RAct) (c : FpCtl) (s : State) (h : MemoryOk s) : NextOk (execFtnh r c s) :=
  next_runBeat _ _ (fun _ => posts_specFtnh ..) h

@[simp] theorem posts_specFsgm (r : RAct) (c : FpCtl) : PostsKeep (specFsgm r c) := fun _ => by simp [specFsgm]

theorem next_execFsgm (r : RAct) (c : FpCtl) (s : State) (h : MemoryOk s) : NextOk (execFsgm r c s) :=
  next_runBeat _ _ (fun _ => posts_specFsgm ..) h

@[simp] theorem posts_specFslu (r : RAct) (c : FpCtl) : PostsKeep (specFslu r c) := fun _ => by simp [specFslu]

theorem next_execFslu (r : RAct) (c : FpCtl) (s : State) (h : MemoryOk s) : NextOk (execFslu r c s) :=
  next_runBeat _ _ (fun _ => posts_specFslu ..) h

@[simp] theorem posts_specFdiv (r : RAct) (c : FpCtl) : PostsKeep (specFdiv r c) := fun _ => by simp [specFdiv]

theorem next_execFdiv (r : RAct) (c : FpCtl) (s : State) (h : MemoryOk s) : NextOk (execFdiv r c s) :=
  next_runBeat _ _ (fun _ => posts_specFdiv ..) h

/-! ### Sync -/

@[simp] theorem mem_modBar (s : State) (plot : Nat) (g : Fin 32) (f : BarGroup → BarGroup) : (modBar s plot g f).mem = s.mem := by unfold modBar; split <;> simp

@[simp] theorem mem_arriveEffect (g : Fin 32) (l : Loc) (s : State) : (arriveEffect g l s).mem = s.mem := by simp [arriveEffect]

@[simp] theorem posts_specBarArv (g : Fin 32) (u : PUpd) : PostsKeep (specBarArv g u) := fun _ => by unfold specBarArv; dsimp only [specR_op, specI_op, specR3_op]; split <;> simp

theorem next_execBarArv (g : Fin 32) (u : PUpd) (s : State) (h : MemoryOk s) : NextOk (execBarArv g u s) :=
  next_runBeat _ _ (fun _ => posts_specBarArv ..) h

@[simp] theorem mem_watchEffect (dst : Dst) (g : Fin 32) (u : PUpd) (l : Loc) (t : Nat) (s : State) : (watchEffect dst g u l t s).mem = s.mem := by simp [watchEffect]

@[simp] theorem posts_specBarWch (dst : Dst) (sa : Src) (g : Fin 32) (u : PUpd) : PostsKeep (specBarWch dst sa g u) := fun _ => by unfold specBarWch; dsimp only [specR_op, specI_op, specR3_op]; split <;> simp

theorem next_execBarWch (dst : Dst) (sa : Src) (g : Fin 32) (u : PUpd) (s : State) (h : MemoryOk s) : NextOk (execBarWch dst sa g u s) :=
  next_runBeat _ _ (fun _ => posts_specBarWch ..) h

@[simp] theorem posts_specBarMem (sa : Src) (g : Fin 32) (u : PUpd) (peek : Bool) : PostsKeep (specBarMem sa g u peek) := fun _ => by unfold specBarMem; dsimp only [specR_op, specI_op, specR3_op]; split <;> simp

theorem next_execBarMem (sa : Src) (g : Fin 32) (u : PUpd) (peek : Bool) (s : State) (h : MemoryOk s) : NextOk (execBarMem sa g u peek s) :=
  next_runBeat _ _ (fun _ => posts_specBarMem ..) h

@[simp] theorem mem_countArrival (s : State) (l : Loc) (a : Arrival) : (countArrival s l a).1.mem = s.mem := by
  unfold countArrival
  repeat' first | split | simp

@[simp] theorem mem_completeIfAll (s : State) (plot : Nat) (g : Fin 32) : (completeIfAll s plot g).mem = s.mem := by simp [completeIfAll]

@[simp] theorem mem_advanceArrival (s : State) (l : Loc) (a : Arrival) : (advanceArrival s l a).1.mem = s.mem := by simp [advanceArrival]

@[simp] theorem mem_countLate (s : State) (l : Loc) : (countLate s l).mem = s.mem := by simp [countLate, mem_foldl]

theorem next_execBarrierArrivalCount (l : Loc) (s : State) (h : MemoryOk s) : NextOk (execBarrierArrivalCount l s) := by
  unfold execBarrierArrivalCount
  dsimp only
  repeat' split
  all_goals simpa [MemoryOk] using h

@[simp] theorem mem_resolveWatch (s : State) (l : Loc) (w : Watch) (st : Nat) : (resolveWatch s l w st).mem = s.mem := by unfold resolveWatch; rfl

theorem next_execWatchComplete (l : Loc) (s : State) (h : MemoryOk s) : NextOk (execWatchComplete l s) := by unfold execWatchComplete; split <;> simpa [MemoryOk] using h

theorem next_execWatchExpire (l : Loc) (s : State) (h : MemoryOk s) : NextOk (execWatchExpire l s) := by unfold execWatchExpire; split <;> simpa [MemoryOk] using h

@[simp] theorem mem_modRing (s : State) (plot : Nat) (n : Fin 8) (f : Ring → Ring) : (modRing s plot n f).mem = s.mem := by unfold modRing; rfl

@[simp] theorem posts_specStgAcq (dst : Dst) (n : Fin 8) (role : Role) (u : PUpd) : PostsKeep (specStgAcq dst n role u) := fun _ => by unfold specStgAcq; dsimp only [specR_op, specI_op, specR3_op]; split <;> simp

theorem next_execStgAcq (dst : Dst) (n : Fin 8) (role : Role) (u : PUpd) (s : State) (h : MemoryOk s) : NextOk (execStgAcq dst n role u s) :=
  next_runBeat _ _ (fun _ => posts_specStgAcq ..) h

@[simp] theorem posts_specStgRel (sa : Src) (n : Fin 8) (role : Role) (u : PUpd) : PostsKeep (specStgRel sa n role u) := fun _ => by unfold specStgRel; dsimp only [specR_op, specI_op, specR3_op]; split <;> simp

theorem next_execStgRel (sa : Src) (n : Fin 8) (role : Role) (u : PUpd) (s : State) (h : MemoryOk s) : NextOk (execStgRel sa n role u s) :=
  next_runBeat _ _ (fun _ => posts_specStgRel ..) h

/-! ### SpecOf -/

theorem some_posts {f sp : FireSpec} (hi : some f = some sp) (h : PostsKeep f) : PostsKeep sp := by
  obtain rfl := Option.some.inj hi
  exact h

theorem posts_specUser {i : Instr} {sp : FireSpec} (hi : specUser i = some sp) : PostsKeep sp := by
  cases i with
  | nop r => exact some_posts hi (posts_specNop r)
  | mov r => exact some_posts hi (posts_specMov r)
  | movi i => exact some_posts hi (posts_specMovi i)
  | drop r => exact some_posts hi (posts_specDrop r)
  | sel r n => exact some_posts hi (posts_specSel r n)
  | route r => exact some_posts hi (posts_specRoute r)
  | eos r rc0 rc1 => exact some_posts hi (posts_specEos r rc0 rc1)
  | pand pa pb upd => exact some_posts hi (posts_specPand pa pb upd)
  | por pa pb upd => exact some_posts hi (posts_specPor pa pb upd)
  | pxor pa pb upd => exact some_posts hi (posts_specPxor pa pb upd)
  | pandn pa pb upd => exact some_posts hi (posts_specPandn pa pb upd)
  | cntAdd i => exact some_posts hi (posts_specCntAdd i)
  | cntSet i => exact some_posts hi (posts_specCntSet i)
  | flgRd r => exact some_posts hi (posts_specFlgRd r)
  | flgClr i => exact some_posts hi (posts_specFlgClr i)
  | rest upd => exact some_posts hi (posts_specRest upd)
  | barArv g upd => exact some_posts hi (posts_specBarArv g upd)
  | barWch dst sa g upd => exact some_posts hi (posts_specBarWch dst sa g upd)
  | barMem sa g upd peek => exact some_posts hi (posts_specBarMem sa g upd peek)
  | stgAcq dst ring role upd => exact some_posts hi (posts_specStgAcq dst ring role upd)
  | stgRel sa ring role upd => exact some_posts hi (posts_specStgRel sa ring role upd)
  | tmrRd r src => exact some_posts hi (posts_specTmrRd r src)
  | trap i => exact some_posts hi (posts_specTrap i)
  | brk i => exact some_posts hi (posts_specBrk i)
  | specRd dst reg upd => exact some_posts hi (posts_specSpecRd dst reg upd)
  | specWr sa reg upd => exact some_posts hi (posts_specSpecWr sa reg upd)
  | waveNx upd => exact some_posts hi (posts_specWaveNx upd)
  | add r c => exact some_posts hi (posts_specAdd r c)
  | sub r c => exact some_posts hi (posts_specSub r c)
  | addi i => exact some_posts hi (posts_specAddi i)
  | mul r c => exact some_posts hi (posts_specMul r c)
  | mulh r c => exact some_posts hi (posts_specMulh r c)
  | mad r c => exact some_posts hi (posts_specMad r c)
  | div r c => exact some_posts hi (posts_specDiv r c)
  | rem r c => exact some_posts hi (posts_specRem r c)
  | neg r c => exact some_posts hi (posts_specNeg r c)
  | abs r c => exact some_posts hi (posts_specAbs r c)
  | min r c => exact some_posts hi (posts_specMin r c)
  | max r c => exact some_posts hi (posts_specMax r c)
  | and r c => exact some_posts hi (posts_specAnd r c)
  | or r c => exact some_posts hi (posts_specOr r c)
  | xor r c => exact some_posts hi (posts_specXor r c)
  | andn r c => exact some_posts hi (posts_specAndn r c)
  | not r c => exact some_posts hi (posts_specNot r c)
  | shl r c => exact some_posts hi (posts_specShl r c)
  | shr r c => exact some_posts hi (posts_specShr r c)
  | sar r c => exact some_posts hi (posts_specSar r c)
  | rot r c => exact some_posts hi (posts_specRot r c)
  | shli i => exact some_posts hi (posts_specShli i)
  | clz r c => exact some_posts hi (posts_specClz r c)
  | ctz r c => exact some_posts hi (posts_specCtz r c)
  | popc r c => exact some_posts hi (posts_specPopc r c)
  | bfe r c => exact some_posts hi (posts_specBfe r c)
  | bfi r c => exact some_posts hi (posts_specBfi r c)
  | ext r c => exact some_posts hi (posts_specExt r c)
  | lea r c => exact some_posts hi (posts_specLea r c)
  | cmp r c => exact some_posts hi (posts_specCmp r c)
  | ccmp r c => exact some_posts hi (posts_specCcmp r c)
  | iota r c => exact some_posts hi (posts_specIota r c)
  | pack r c => exact some_posts hi (posts_specPack r c)
  | unpk r c => exact some_posts hi (posts_specUnpk r c)
  | shuf r c => exact some_posts hi (posts_specShuf r c)
  | bcast r c => exact some_posts hi (posts_specBcast r c)
  | vred r c => exact some_posts hi (posts_specVred r c)
  | vscn r c => exact some_posts hi (posts_specVscn r c)
  | filt r c => exact some_posts hi (posts_specFilt r c)
  | xpnd r c => exact some_posts hi (posts_specXpnd r c)
  | zpack r c => exact some_posts hi (posts_specZpack r c)
  | zunpk r c => exact some_posts hi (posts_specZunpk r c)
  | hash r c => exact some_posts hi (posts_specHash r c)
  | fadd r c => exact some_posts hi (posts_specFadd r c)
  | fsub r c => exact some_posts hi (posts_specFsub r c)
  | fmul r c => exact some_posts hi (posts_specFmul r c)
  | ffma r c => exact some_posts hi (posts_specFfma r c)
  | fmin r c => exact some_posts hi (posts_specFmin r c)
  | fmax r c => exact some_posts hi (posts_specFmax r c)
  | fabs r c => exact some_posts hi (posts_specFabs r c)
  | fneg r c => exact some_posts hi (posts_specFneg r c)
  | fclt r c => exact some_posts hi (posts_specFclt r c)
  | fcle r c => exact some_posts hi (posts_specFcle r c)
  | fceq r c => exact some_posts hi (posts_specFceq r c)
  | fcun r c => exact some_posts hi (posts_specFcun r c)
  | fcvt r fcs => exact some_posts hi (posts_specFcvt r fcs)
  | f2i r signed trunc c => exact some_posts hi (posts_specF2i r signed trunc c)
  | i2f r signed c => exact some_posts hi (posts_specI2f r signed c)
  | frnd r rd c => exact some_posts hi (posts_specFrnd r rd c)
  | fscl r c => exact some_posts hi (posts_specFscl r c)
  | fcls r c => exact some_posts hi (posts_specFcls r c)
  | fdot r c => exact some_posts hi (posts_specFdot r c)
  | q4dq r c => exact some_posts hi (posts_specQ4dq r c)
  | q4q r c => exact some_posts hi (posts_specQ4q r c)
  | dropm r c => exact some_posts hi (posts_specDropm r c)
  | rnd r c => exact some_posts hi (posts_specRnd r c)
  | frcp r c => exact some_posts hi (posts_specFrcp r c)
  | frsq r c => exact some_posts hi (posts_specFrsq r c)
  | fsqrt r c => exact some_posts hi (posts_specFsqrt r c)
  | fex2 r c => exact some_posts hi (posts_specFex2 r c)
  | flg2 r c => exact some_posts hi (posts_specFlg2 r c)
  | fsin r c => exact some_posts hi (posts_specFsin r c)
  | fcos r c => exact some_posts hi (posts_specFcos r c)
  | ftnh r c => exact some_posts hi (posts_specFtnh r c)
  | fsgm r c => exact some_posts hi (posts_specFsgm r c)
  | fslu r c => exact some_posts hi (posts_specFslu r c)
  | fdiv r c => exact some_posts hi (posts_specFdiv r c)
  | ld m sx => exact some_posts hi (posts_specLd m sx)
  | st m => exact some_posts hi (posts_specSt m)
  | amo m op fcs => exact some_posts hi (posts_specAmo m op fcs)
  | amoCas m => exact some_posts hi (posts_specAmoCas m)
  | red m op fcs => exact some_posts hi (posts_specRed m op fcs)
  | wfence dst scope => exact some_posts hi (posts_specWfence dst scope)
  | mseal dst sa sb => exact some_posts hi (posts_specMseal dst sa sb)
  | munseal dst sa => exact some_posts hi (posts_specMunseal dst sa)
  | tileNew r => exact some_posts hi (posts_specTileNew r)
  | tileFree r => exact some_posts hi (posts_specTileFree r)
  | tileShp r => exact some_posts hi (posts_specTileShp r)
  | tileRd r => exact some_posts hi (posts_specTileRd r)
  | tileWr r => exact some_posts hi (posts_specTileWr r)
  | tileGat r => exact some_posts hi (posts_specTileGat r)
  | tileSct r => exact some_posts hi (posts_specTileSct r)
  | tileAcc r fcs => exact some_posts hi (posts_specTileAcc r fcs)
  | tileFil r => exact some_posts hi (posts_specTileFil r)
  | tileCpy r => exact some_posts hi (posts_specTileCpy r)
  | tileQry r => exact some_posts hi (posts_specTileQry r)
  | hashSet r => exact some_posts hi (posts_specHashSet r)
  | bankRd r => exact some_posts hi (posts_specBankRd r)
  | bankClr r => exact some_posts hi (posts_specBankClr r)
  | strmOpn r m => exact some_posts hi (posts_specStrmOpn r m)
  | strmCls r m => exact some_posts hi (posts_specStrmCls r m)
  | sbar mask upd => exact some_posts hi (posts_specSbar mask upd)
  | strmSt r m => exact some_posts hi (posts_specStrmSt r m)
  | tlbPf r => exact some_posts hi (posts_specTlbPf r)
  | wpArm r n mode => exact some_posts hi (posts_specWpArm r n mode)
  | cmbFl r => exact some_posts hi (posts_specCmbFl r)
  | cpy e => exact some_posts hi (posts_specCpy e)
  | cpyNd e => exact some_posts hi (posts_specCpyNd e)
  | cpyIx e => exact some_posts hi (posts_specCpyIx e)
  | cpyIs e => exact some_posts hi (posts_specCpyIs e)
  | gat e => exact some_posts hi (posts_specGat e)
  | sct e => exact some_posts hi (posts_specSct e)
  | sctAdd e fcs => exact some_posts hi (posts_specSctAdd e fcs)
  | rdcTree e fcs => exact some_posts hi (posts_specRdcTree e fcs)
  | coll e fcs => exact some_posts hi (posts_specColl e fcs)
  | put e => exact some_posts hi (posts_specPut e)
  | get e => exact some_posts hi (posts_specGet e)
  | drillPush e n => exact some_posts hi (posts_specDrillPush e n)
  | sig e raise vec => exact some_posts hi (posts_specSig e raise vec)
  | adPf e me a b => exact some_posts hi (posts_specAdPf e me a b)
  | mma x => exact some_posts hi (posts_specMma x)
  | accClr x => exact some_posts hi (posts_specAccClr x)
  | accRd x fcs => exact some_posts hi (posts_specAccRd x fcs)
  | accLd x => exact some_posts hi (posts_specAccLd x)
  | accRel x fcs => exact some_posts hi (posts_specAccRel x fcs)
  | adInv x => exact some_posts hi (posts_specAdInv x)
  | meCnt x => exact some_posts hi (posts_specMeCnt x)
  | meIdl x => exact some_posts hi (posts_specMeIdl x)
  | _ => exact nomatch hi

/-! ### Issue -/

@[simp] theorem mem_startFiring (s : State) (l : Loc) (n : Fin 16) (x : Slot) : (startFiring s l n x).mem = s.mem := by unfold startFiring; rfl

/-! ### Place -/

@[simp] theorem mem_clearUnits (s : State) (ps : List Nat) : (clearUnits s ps).mem = s.mem := by unfold clearUnits; rfl

@[simp] theorem mem_leavePlots (s : State) (p : Parcel) : (leavePlots s p).mem = s.mem := by
  unfold leavePlots
  repeat' first
    | with_reducible refine (mem_foldl _ ?_ _ _).trans ?_
    | simp

@[simp] theorem mem_freePlots (s : State) (p : Parcel) : (freePlots s p).mem = s.mem := by simp [freePlots]

@[simp] theorem mem_forgetParcel (s : State) (n : Nat) : (forgetParcel s n).mem = s.mem := by unfold forgetParcel; rfl

@[simp] theorem mem_freeParcel (s : State) (n : Nat) : (freeParcel s n).mem = s.mem := by simp [freeParcel]

@[simp] theorem mem_leaveParcel (s : State) (n : Nat) : (leaveParcel s n).mem = s.mem := by simp [leaveParcel]

@[simp] theorem mem_bringKernel (s : State) (ctx : Nat) (phys : Bool) (k : Kernel) : (bringKernel s ctx phys k).mem = s.mem := by simp [bringKernel]

@[simp] theorem mem_feedPlaced (s : State) (cs : List (Loc × Fin 4 × Route)) : (feedPlaced s cs).mem = s.mem := by simp [feedPlaced, mem_foldl]

@[simp] theorem mem_learnBlock (s : State) (k : Nat) (plot : Nat) (bs : List Byte) : (learnBlock s k plot bs).mem = s.mem := by simp [learnBlock]

@[simp] theorem mem_occupyPlot (k : Nat) (p : Parcel) (restore : Bool) (s : State) (i : Nat) : (occupyPlot k p restore s i).mem = s.mem := by unfold occupyPlot; rfl

@[simp] theorem mem_occupy (s : State) (k : Nat) (p : Parcel) (restore : Bool) : (occupy s k p restore).mem = s.mem := by
  unfold occupy
  repeat' first
    | intro _
    | split
    | with_reducible refine (mem_foldl _ ?_ _ _).trans ?_
    | simp

@[simp] theorem mem_clearReserved (s : State) (l : Nat) (n : Nat) (ps : List Nat) : (clearReserved s l n ps).mem = s.mem := by simp [clearReserved, mem_foldl]

@[simp] theorem mem_dispatched (s : State) (l : Nat) (n : Nat) (k : Nat) (addr : Nat) (die : Nat) : (dispatched s l n k addr die).mem = s.mem := by unfold dispatched; rfl

@[simp] theorem mem_touchImage (s : State) (x : NodeSt) : (touchImage s x).mem = s.mem := by unfold touchImage; rfl

@[simp] theorem mem_placeAt (s : State) (l : Nat) (n : Nat) (x : NodeSt) (x0 : Nat) (y0 : Nat) : (placeAt s l n x x0 y0).mem = s.mem := by
  unfold placeAt
  dsimp only
  repeat' split
  all_goals simp [mem_foldl]

@[simp] theorem mem_placeStep (s : State) (l : Nat) (n : Nat) : (placeStep s l n).mem = s.mem := by
  unfold placeStep
  repeat' first
    | split
    | simp

theorem next_execPlaceSection (launch : Nat) (node : Nat) (s : State) (h : MemoryOk s) : NextOk (execPlaceSection launch node s) := by simpa [execPlaceSection, MemoryOk] using h

@[simp] theorem mem_dispatchEngine (s : State) (l : Nat) (n : Nat) : (dispatchEngine s l n).mem = s.mem := by
  unfold dispatchEngine
  dsimp only
  repeat' split
  all_goals simp [mem_foldl]

theorem next_execEngineNodeDispatch (launch : Nat) (node : Nat) (s : State) (h : MemoryOk s) : NextOk (execEngineNodeDispatch launch node s) := by simpa [execEngineNodeDispatch, MemoryOk] using h

@[simp] theorem mem_holdPlot (s : State) (plot : Nat) (site : Nat) (idx : Nat) (b : VBad) : (holdPlot s plot site idx b).mem = s.mem := by simp [holdPlot]

@[simp] theorem mem_declareTiles (plot : Nat) (s : State) (ws : List Word) : ((declareTiles plot s ws).getD s).mem = s.mem := by
  induction ws generalizing s with
  | nil => rfl
  | cons w ws ih =>
    unfold declareTiles
    repeat' split
    all_goals first
      | rfl
      | (next t _ => exact mem_getD_of (ih _) (mem_modPlot _ _ _))


@[simp] theorem mem_placeElems (s : State) (p : Parcel) (plot : Nat) (es : List (Nat × Elem × Option MeUnit)) : (placeElems s p plot es).mem = s.mem := by
  unfold placeElems
  repeat' first
    | intro _
    | split
    | with_reducible refine (mem_foldl _ ?_ _ _).trans ?_
    | simp

@[simp] theorem mem_declareStream (plot : Nat) (s : State) (x : Nat × Nat × List Byte) : (declareStream plot s x).mem = s.mem := by simp [declareStream]

@[simp] theorem mem_loadPlot (s : State) (p : Parcel) (plot : Nat) (c : PlotCfg) : ((loadPlot s p plot c).getD s).mem = s.mem := by
  unfold loadPlot
  repeat' first
    | exact (mem_of_getD (mem_declareTiles _ _ _) ‹_›).trans (by simp [mem_foldl])
    | split
    | with_reducible refine (mem_foldl _ ?_ _ _).trans ?_
    | simp

@[simp] theorem mem_blockSection (s : State) (k : Nat) (i : Nat) (b : Broken) : (blockSection s k i b).mem = s.mem := by unfold blockSection; rfl

@[simp] theorem mem_badKernel (s : State) (k : Nat) : (badKernel s k).mem = s.mem := by unfold badKernel; rfl

@[simp] theorem mem_fillPacket (s : State) (plot : Nat) (k : Nat) (p : Parcel) (i : Nat) (n : Nat) (slot : Nat) : (fillPacket s plot k p i n slot).mem = s.mem := by
  unfold fillPacket
  dsimp only
  repeat' split
  all_goals simp [mem_foldl]

@[simp] theorem mem_configStep (s : State) (plot : Nat) (n : Nat) : (configStep s plot n).mem = s.mem := by
  unfold configStep
  repeat' first
    | split
    | simp

theorem next_execConfigPacket (plot : Nat) (packet : Nat) (s : State) (h : MemoryOk s) : NextOk (execConfigPacket plot packet s) := by simpa [execConfigPacket, MemoryOk] using h

@[simp] theorem mem_applyPatch (s : State) (plot : Nat) (r : Word) (v : Word) : (applyPatch s plot r v).mem = s.mem := by simp [applyPatch]

@[simp] theorem mem_readPatches (s : State) (p : Parcel) (plot : Nat) (a3 : List Word) : (readPatches s p plot a3).mem = s.mem := by
  induction a3 generalizing s p plot with
  | nil =>
    unfold readPatches
    repeat' first
      | obtain rfl := pair_fst ‹_ = (_, _)›
      | split
      | simp
  | cons _ _ ih =>
    unfold readPatches
    repeat' first
      | obtain rfl := pair_fst ‹_ = (_, _)›
      | split
      | simp [ih]

@[simp] theorem mem_placeTokens (s : State) (p : Parcel) (plot : Nat) : (placeTokens s p plot).mem = s.mem := by
  unfold placeTokens
  repeat' first
    | with_reducible refine (mem_foldl _ ?_ _ _).trans ?_
    | simp

@[simp] theorem mem_grantCredits (s : State) (p : Parcel) (plot : Nat) : (grantCredits s p plot).mem = s.mem := by
  unfold grantCredits
  repeat' first
    | with_reducible refine (mem_foldl _ ?_ _ _).trans ?_
    | simp

@[simp] theorem mem_startPlot (s : State) (k : Nat) (plot : Nat) : (startPlot s k plot).mem = s.mem := by simp [startPlot]

@[simp] theorem mem_finishStart (s : State) (k : Nat) (plot : Nat) (p : Parcel) (i : Nat) : (finishStart s k plot p i).mem = s.mem := by simp [finishStart]

@[simp] theorem mem_plotStartStep (s : State) (plot : Nat) : (plotStartStep s plot).mem = s.mem := by
  unfold plotStartStep
  repeat' first
    | exact mem_of_getD (mem_loadPlot _ _ _ _) ‹_›
    | split
    | simp

theorem next_execPlotStart (plot : Nat) (s : State) (h : MemoryOk s) : NextOk (execPlotStart plot s) := by simpa [execPlotStart, MemoryOk] using h

/-! ### Clock -/

@[simp] theorem mem_sampleFlags (s : State) (n : Nat) : (sampleFlags s n).mem = s.mem := by unfold sampleFlags; rfl

@[simp] theorem mem_takeSamples (s : State) : (takeSamples s).mem = s.mem := by simp [takeSamples, mem_foldl]

@[simp] theorem mem_answerUnheard (s : State) : (answerUnheard s).mem = s.mem := by
  unfold answerUnheard
  exact mem_foldl _ (fun _ _ => by split <;> simp) _ _

@[simp] theorem mem_endCycle (s : State) : (endCycle s).mem = s.mem := mem_answerUnheard s

@[simp] theorem mem_takeDvlWrite (s : State) : (takeDvlWrite s).mem = s.mem := by unfold takeDvlWrite; split <;> simp

@[simp] theorem mem_measureBoot (s : State) : (measureBoot s).mem = s.mem := by simp [measureBoot]

@[simp] theorem mem_nextCycle (s : State) : (nextCycle s).mem = s.mem := by simp [nextCycle]

/-! ### Retire -/

@[simp] theorem mem_scanStep (s : State) (k : Nat) : (scanStep s k).mem = s.mem := by
  unfold scanStep
  repeat' first | split | with_reducible refine (mem_foldl _ ?_ _ _).trans ?_ | simp

theorem next_execSettleScan (parcel : Nat) (s : State) (h : MemoryOk s) : NextOk (execSettleScan parcel s) := by simpa [execSettleScan, MemoryOk] using h

@[simp] theorem mem_completeNode (s : State) (k : Nat) (status : Nat) (sub : Nat) (info : Word) (flags : Flags7) : (completeNode s k status sub info flags).mem = s.mem := by unfold completeNode; split <;> simp

@[simp] theorem mem_retireStep (s : State) (k : Nat) : (retireStep s k).mem = s.mem := by
  unfold retireStep
  dsimp only
  repeat' split
  all_goals simp [mem_foldl]

theorem next_execSectionRetire (parcel : Nat) (s : State) (h : MemoryOk s) : NextOk (execSectionRetire parcel s) := by simpa [execSectionRetire, MemoryOk] using h

@[simp] theorem ok_settleAll (s : State) (h : Memory.wf s.mem = true) : Memory.wf (settleAll s).mem = true := by simp [settleAll, mem_foldl, h]

@[simp] theorem ok_drillStepOnce (s : State) (h : Memory.wf s.mem = true) : Memory.wf (drillStepOnce s).mem = true := by
  unfold drillStepOnce
  repeat' first
    | with_reducible refine ok_foldl _ (fun _ _ h => ?_) _ _ ?_
    | with_reducible refine ok_settleDrill _ _ ?_
    | simp [h, mem_foldl]

theorem next_execDrillStep (s : State) (h : MemoryOk s) : NextOk (execDrillStep s) := by
  unfold MemoryOk at h; unfold execDrillStep
  repeat' first
    | simp [MemoryOk, *]

@[simp] theorem ok_timeoutLaunch (s : State) (l : Nat) (h : Memory.wf s.mem = true) : Memory.wf (timeoutLaunch s l).mem = true := by
  unfold timeoutLaunch
  repeat' first | split | with_reducible refine ok_settleDrill _ _ ?_ | simp [h, mem_foldl]

theorem next_execLaunchTimeout (launch : Nat) (s : State) (h : MemoryOk s) : NextOk (execLaunchTimeout launch s) := by
  unfold MemoryOk at h; unfold execLaunchTimeout
  repeat' first | simp [MemoryOk, *]

@[simp] theorem mem_discardFaults (s : State) (k : Nat) : (discardFaults s k).mem = s.mem := by simp [discardFaults, mem_foldl]

@[simp] theorem mem_endWaves (s : State) (k : Nat) : (endWaves s k).mem = s.mem := by simp [endWaves, mem_foldl]

@[simp] theorem mem_dropFreeze (s : State) (k : Nat) : (dropFreeze s k).mem = s.mem := by
  unfold dropFreeze
  dsimp only
  repeat' split
  all_goals simp [mem_foldl]

@[simp] theorem mem_killFreeStep (s : State) (k : Nat) : (killFreeStep s k).mem = s.mem := by
  unfold killFreeStep
  dsimp only
  repeat' split
  all_goals simp [mem_foldl]

theorem next_execKillParcelFree (parcel : Nat) (s : State) (h : MemoryOk s) : NextOk (execKillParcelFree parcel s) := by simpa [execKillParcelFree, MemoryOk] using h

@[simp] theorem mem_watchdogStep (s : State) (k : Nat) : (watchdogStep s k).mem = s.mem := by unfold watchdogStep; split <;> simp

theorem next_execSectionWatchdog (parcel : Nat) (s : State) (h : MemoryOk s) : NextOk (execSectionWatchdog parcel s) := by simpa [execSectionWatchdog, MemoryOk] using h

/-! ### Save -/

@[simp] theorem mem_frozenStep (s : State) (k : Nat) : (frozenStep s k).mem = s.mem := by
  unfold frozenStep
  repeat' first | split | with_reducible refine (mem_foldl _ ?_ _ _).trans ?_ | simp

theorem next_execParcelFrozen (parcel : Nat) (s : State) (h : MemoryOk s) : NextOk (execParcelFrozen parcel s) := by simpa [execParcelFrozen, MemoryOk] using h

@[simp] theorem mem_preemptStep (s : State) (k : Nat) : (preemptStep s k).mem = s.mem := by
  unfold preemptStep
  dsimp only
  repeat' split
  all_goals simp [mem_foldl]

theorem next_execPreemptSection (parcel : Nat) (s : State) (h : MemoryOk s) : NextOk (execPreemptSection parcel s) := by simpa [execPreemptSection, MemoryOk] using h

@[simp] theorem ok_frameWrite (s : State) (pa : Nat) (bs : List Byte) (h : Memory.wf s.mem = true) : Memory.wf (frameWrite s pa bs).mem = true := by simp [frameWrite, h]

@[simp] theorem ok_storeImage (s : State) (base : Nat) (cells : List Host.Cell) (h : Memory.wf s.mem = true) :
    Memory.wf (storeImage s base cells).mem = true := by
  unfold storeImage
  rw [mem_reportRange]
  exact wf_foldl_writeByte base cells (wf_filter _ h)


@[simp] theorem mem_imageLine (plot base : Nat) (s : State) (line : Nat) : (imageLine plot base s line).mem = s.mem := mem_raiseFault ..

@[simp] theorem ok_writeFrame (p : Parcel) (base : Nat) (s : State) (i : Nat) (h : Memory.wf s.mem = true) :
    Memory.wf (writeFrame p base s i).mem = true := by
  unfold writeFrame
  exact ok_frameWrite _ _ _ (ok_frameWrite _ _ _ (ok_frameWrite _ _ _ (by rw [mem_foldl _ (by simp)]; exact ok_storeImage _ _ _ h)))


@[simp] theorem ok_writeFrames (s : State) (p : Parcel) (base : Nat) (h : Memory.wf s.mem = true) : Memory.wf (writeFrames s p base).mem = true := by
  unfold writeFrames
  repeat' first | with_reducible refine ok_foldl _ (fun _ _ h => ?_) _ _ ?_ | simp [h, mem_foldl]

@[simp] theorem ok_writeArea (s : State) (k : Nat) (base : Nat) (owner : Nat) (h : Memory.wf s.mem = true) : Memory.wf (writeArea s k base owner).mem = true := by simp [writeArea, h]

@[simp] theorem mem_dropWork (s : State) (k : Nat) : (dropWork s k).mem = s.mem := by unfold dropWork; rfl

@[simp] theorem mem_reenter (s : State) (k : Nat) : (reenter s k).mem = s.mem := by unfold reenter; split <;> simp

@[simp] theorem ok_savedStep (s : State) (k : Nat) (h : Memory.wf s.mem = true) : Memory.wf (savedStep s k).mem = true := by
  unfold savedStep
  dsimp only
  repeat' split
  all_goals simp [h, mem_foldl]

theorem next_execSaveAreaWritten (parcel : Nat) (s : State) (h : MemoryOk s) : NextOk (execSaveAreaWritten parcel s) := by
  unfold MemoryOk at h; unfold execSaveAreaWritten
  repeat' first | simp [MemoryOk, *]

@[simp] theorem mem_restoreArea (s : State) (k : Nat) (v : Saved) : (restoreArea s k v).mem = s.mem := by simp [restoreArea, mem_foldl]

@[simp] theorem mem_applyWatchdog (s : State) (k : Nat) : (applyWatchdog s k).mem = s.mem := by
  unfold applyWatchdog
  repeat' first | intro _ | split | with_reducible refine (mem_foldl _ ?_ _ _).trans ?_ | simp

@[simp] theorem mem_learnRest (s : State) (k : Nat) : (learnRest s k).mem = s.mem := by
  unfold learnRest
  repeat' first | intro _ | split | with_reducible refine (mem_foldl _ ?_ _ _).trans ?_ | simp

@[simp] theorem mem_resumeStep (s : State) (k : Nat) : (resumeStep s k).mem = s.mem := by
  unfold resumeStep
  dsimp only
  repeat' split
  all_goals simp [mem_foldl]

theorem next_execResumeSection (parcel : Nat) (s : State) (h : MemoryOk s) : NextOk (execResumeSection parcel s) := by simpa [execResumeSection, MemoryOk] using h

end Sys2Proof.Laws
end

