-- ==== Sys2Proof/Laws/MemSystem.lean ====
section
/-!
SUPPORT. Which operations leave memory as it is or keep its canonical form: the privileged instructions, the host and the device, and every instruction. The names are those of MemBase.
-/

set_option linter.unusedVariables false
set_option linter.unusedSimpArgs false

namespace Sys2Proof.Laws

open Machine

/-! ### Privileged -/

@[simp] theorem mem_ackEffect (d : Dst) (l : Loc) (f : State → State × Word) (s : State) (k : ∀ s, (f s).1.mem = s.mem) :
    (ackEffect d l f s).mem = s.mem := by
  unfold ackEffect
  simp [k]

theorem ok_ackEffect (d : Dst) (l : Loc) (f : State → State × Word) (s : State) (k : ∀ s, Memory.wf s.mem = true → Memory.wf (f s).1.mem = true)
    (h : Memory.wf s.mem = true) : Memory.wf (ackEffect d l f s).mem = true := by
  unfold ackEffect
  simp [k, h]


theorem posts_specPriv (r : RAct) (f : BeatIn → Option (State → State × Word))
    (k : ∀ x g, f x = some g → ∀ s, Memory.wf s.mem = true → Memory.wf (g s).1.mem = true) : PostsKeep (specPriv r f) := by
  intro x
  unfold specPriv
  dsimp only [specR_op]
  split
  · next g e => simp only [resKeeps_ok]; exact fun s h => ok_ackEffect _ _ _ _ (k x g e) h
  · simp


theorem posts_specTarget (r : RAct) (f : BeatIn → Target → Option (State → State × Word))
    (k : ∀ x t g, f x t = some g → ∀ s, Memory.wf s.mem = true → Memory.wf (g s).1.mem = true) : PostsKeep (specTarget r f) := by
  refine posts_specPriv r _ fun x g e => ?_
  obtain ⟨t, -, e⟩ := Option.bind_eq_some_iff.1 e
  exact k x t g e


@[simp] theorem posts_specFltRd (dst : Dst) (u : PUpd) : PostsKeep (specFltRd dst u) := by
  intro x
  unfold specFltRd
  dsimp only [specR_op, specI_op, specR3_op]
  repeat' split
  all_goals simp

theorem next_execFltRd (dst : Dst) (u : PUpd) (s : State) (h : MemoryOk s) : NextOk (execFltRd dst u s) :=
  next_runBeat _ _ (fun _ => posts_specFltRd ..) h

@[simp] theorem mem_rprEffect (die : Nat) (fid : Nat) (ans : Answer) (s : State) : (rprEffect die fid ans s).1.mem = s.mem := by
  unfold rprEffect
  repeat' first | split | simp

@[simp] theorem posts_specRpr (r : RAct) (act : Repair) : PostsKeep (specRpr r act) := by
  refine posts_specPriv _ _ fun x g e s h => ?_
  obtain rfl := Option.some.inj e
  repeat' first | simp [h, mem_foldl]

theorem next_execRpr (r : RAct) (act : Repair) (s : State) (h : MemoryOk s) : NextOk (execRpr r act s) :=
  next_runBeat _ _ (fun _ => posts_specRpr ..) h

@[simp] theorem posts_specRqRd (r : RAct) : PostsKeep (specRqRd r) := by
  refine posts_specPriv _ _ fun x g e s h => ?_
  obtain rfl := Option.some.inj e
  repeat' first | simp [h, mem_foldl]

theorem next_execRqRd (r : RAct) (s : State) (h : MemoryOk s) : NextOk (execRqRd r s) :=
  next_runBeat _ _ (fun _ => posts_specRqRd ..) h

@[simp] theorem mem_writeRq (s : State) (l : Loc) (n : Nat) (word : Nat) (x : RqEntry) (v : Word) : (writeRq s l n word x v).mem = s.mem := by simp [writeRq]

@[simp] theorem posts_specRqWr (r : RAct) : PostsKeep (specRqWr r) := by
  refine posts_specPriv _ _ fun x g e s h => ?_
  obtain rfl := Option.some.inj e
  repeat' first | split | simp [h, mem_foldl]

theorem next_execRqWr (r : RAct) (s : State) (h : MemoryOk s) : NextOk (execRqWr r s) :=
  next_runBeat _ _ (fun _ => posts_specRqWr ..) h

@[simp] theorem mem_injectEffect (w : Word) (ans : Answer) (s : State) : (injectEffect w ans s).1.mem = s.mem := by
  unfold injectEffect
  dsimp only
  repeat' split
  all_goals simp [mem_foldl]

@[simp] theorem posts_specRqInj (r : RAct) (val : Bool) : PostsKeep (specRqInj r val) := by
  refine posts_specPriv _ _ fun x g e s h => ?_
  obtain rfl := Option.some.inj e
  repeat' first | simp [h, mem_foldl]

theorem next_execRqInj (r : RAct) (val : Bool) (s : State) (h : MemoryOk s) : NextOk (execRqInj r val s) :=
  next_runBeat _ _ (fun _ => posts_specRqInj ..) h

@[simp] theorem mem_writePolicy (s : State) (w : Word) (code : Nat) : ((writePolicy s w code).getD s).mem = s.mem := by
  unfold writePolicy
  dsimp only
  repeat' split
  all_goals simp [mem_foldl]

@[simp] theorem mem_applyOne (s : State) (a1 : Recorded) : (applyOne s a1).mem = s.mem := by
  unfold applyOne
  repeat' first | split | simp

@[simp] theorem mem_applyRecorded (s : State) (k : Nat) : (applyRecorded s k).mem = s.mem := by simp [applyRecorded, mem_foldl]

@[simp] theorem ok_saveEffect (t : Target) (base : Nat) (s : State) (h : Memory.wf s.mem = true) : Memory.wf (saveEffect t base s).1.mem = true := by
  unfold saveEffect
  repeat' first | split | simp [h, mem_foldl]

@[simp] theorem posts_specCtxSv (r : RAct) : PostsKeep (specCtxSv r) := by
  refine posts_specTarget _ _ fun x t g e s h => ?_
  obtain rfl := Option.some.inj e
  repeat' first | simp [h, mem_foldl]

theorem next_execCtxSv (r : RAct) (s : State) (h : MemoryOk s) : NextOk (execCtxSv r s) :=
  next_runBeat _ _ (fun _ => posts_specCtxSv ..) h

@[simp] theorem mem_loadEffect (t : Target) (base : Nat) (s : State) : (loadEffect t base s).1.mem = s.mem := by
  unfold loadEffect
  dsimp only
  repeat' split
  all_goals simp [mem_foldl]

@[simp] theorem posts_specCtxLd (r : RAct) : PostsKeep (specCtxLd r) := by
  refine posts_specTarget _ _ fun x t g e s h => ?_
  obtain rfl := Option.some.inj e
  repeat' first | simp [h, mem_foldl]

theorem next_execCtxLd (r : RAct) (s : State) (h : MemoryOk s) : NextOk (execCtxLd r s) :=
  next_runBeat _ _ (fun _ => posts_specCtxLd ..) h

@[simp] theorem mem_tlbEffect (dst : Dst) (g : TlbReach) (ctx : Nat) (va : Nat) (l : Loc) (s : State) : (tlbEffect dst g ctx va l s).mem = s.mem := by simp [tlbEffect]

@[simp] theorem posts_specTlbInv (r : RAct) (g : TlbReach) : PostsKeep (specTlbInv r g) := fun _ => by simp [specTlbInv]

theorem next_execTlbInv (r : RAct) (g : TlbReach) (s : State) (h : MemoryOk s) : NextOk (execTlbInv r g s) :=
  next_runBeat _ _ (fun _ => posts_specTlbInv ..) h

@[simp] theorem mem_frzEffect (dst : Dst) (t : Target) (l : Loc) (s : State) : (frzEffect dst t l s).mem = s.mem := by
  unfold frzEffect
  dsimp only
  repeat' split
  all_goals simp [mem_foldl]

@[simp] theorem posts_specFrz (r : RAct) : PostsKeep (specFrz r) := fun _ => by unfold specFrz; dsimp only [specR_op, specI_op, specR3_op]; split <;> simp

theorem next_execFrz (r : RAct) (s : State) (h : MemoryOk s) : NextOk (execFrz r s) :=
  next_runBeat _ _ (fun _ => posts_specFrz ..) h

@[simp] theorem mem_thwEffect (t : Target) (s : State) : (thwEffect t s).1.mem = s.mem := by
  unfold thwEffect
  repeat' first | split | simp

@[simp] theorem posts_specThw (r : RAct) : PostsKeep (specThw r) := by
  refine posts_specTarget _ _ fun x t g e s h => ?_
  obtain rfl := Option.some.inj e
  repeat' first | simp [h, mem_foldl]

theorem next_execThw (r : RAct) (s : State) (h : MemoryOk s) : NextOk (execThw r s) :=
  next_runBeat _ _ (fun _ => posts_specThw ..) h

@[simp] theorem mem_fetchRegion (s : State) (plot : Nat) (site : Option Nat) : (fetchRegion s plot site).mem = s.mem := by unfold fetchRegion; split <;> simp

@[simp] theorem mem_redecode (s : State) (plot : Nat) (site : Option Nat) : (redecode s plot site).mem = s.mem := by
  unfold redecode
  repeat' first | split | with_reducible refine (mem_foldl _ ?_ _ _).trans ?_ | simp

@[simp] theorem mem_thawRegion (s : State) (plot : Nat) (site : Option Nat) : (thawRegion s plot site).mem = s.mem := by
  unfold thawRegion
  dsimp only
  repeat' split
  all_goals simp [mem_foldl]

@[simp] theorem mem_reloadRegion (s : State) (plot : Nat) (site : Option Nat) : (reloadRegion s plot site).mem = s.mem := by simp [reloadRegion]

@[simp] theorem mem_reloadEffect (t : Target) (s : State) : (reloadEffect t s).1.mem = s.mem := by
  unfold reloadEffect
  dsimp only
  repeat' split
  all_goals simp [mem_foldl]

@[simp] theorem posts_specCfgRld (r : RAct) : PostsKeep (specCfgRld r) := by
  refine posts_specTarget _ _ fun x t g e s h => ?_
  obtain rfl := Option.some.inj e
  repeat' first | simp [h, mem_foldl]

theorem next_execCfgRld (r : RAct) (s : State) (h : MemoryOk s) : NextOk (execCfgRld r s) :=
  next_runBeat _ _ (fun _ => posts_specCfgRld ..) h

@[simp] theorem mem_writeTrace (s : State) (plot : Nat) (w : Word) : (writeTrace s plot w).mem = s.mem := by unfold writeTrace; rfl

@[simp] theorem posts_specTrCtl (r : RAct) : PostsKeep (specTrCtl r) := by
  intro x
  unfold specTrCtl
  dsimp only [specR_op, specI_op, specR3_op]
  repeat' split
  all_goals simp

theorem next_execTrCtl (r : RAct) (s : State) (h : MemoryOk s) : NextOk (execTrCtl r s) :=
  next_runBeat _ _ (fun _ => posts_specTrCtl ..) h

@[simp] theorem mem_wpEffect (n : Fin 8) (pa : Nat) (len : Nat) (s : State) : (wpEffect n pa len s).1.mem = s.mem := by unfold wpEffect; split <;> simp

@[simp] theorem posts_specWpSet (r : RAct) (n : Fin 8) : PostsKeep (specWpSet r n) := by
  refine posts_specPriv _ _ fun x g e s h => ?_
  obtain rfl := Option.some.inj e
  repeat' first | simp [h, mem_foldl]

theorem next_execWpSet (r : RAct) (n : Fin 8) (s : State) (h : MemoryOk s) : NextOk (execWpSet r n s) :=
  next_runBeat _ _ (fun _ => posts_specWpSet ..) h

@[simp] theorem mem_irqEffect (dst : Dst) (l : Loc) (w : Word) (msg : Word) (s : State) : (irqEffect dst l w msg s).mem = s.mem := by simp [irqEffect]

@[simp] theorem posts_specIrq (r : RAct) : PostsKeep (specIrq r) := fun _ => by simp [specIrq]

theorem next_execIrq (r : RAct) (s : State) (h : MemoryOk s) : NextOk (execIrq r s) :=
  next_runBeat _ _ (fun _ => posts_specIrq ..) h

@[simp] theorem mem_spareEffect (t : Target) (s : State) : (spareEffect t s).1.mem = s.mem := by
  unfold spareEffect
  repeat' first | split | with_reducible refine (mem_foldl _ ?_ _ _).trans ?_ | simp

@[simp] theorem posts_specSpareMap (r : RAct) : PostsKeep (specSpareMap r) := by
  refine posts_specTarget _ _ fun x t g e s h => ?_
  obtain rfl := Option.some.inj e
  repeat' first | simp [h, mem_foldl]

theorem next_execSpareMap (r : RAct) (s : State) (h : MemoryOk s) : NextOk (execSpareMap r s) :=
  next_runBeat _ _ (fun _ => posts_specSpareMap ..) h

@[simp] theorem mem_keepOrder (s : State) (w : Word) (code : Nat) : (keepOrder s w code).mem = s.mem := by
  unfold keepOrder
  dsimp only
  repeat' first | split | rfl

@[simp] theorem posts_specPolWr (r : RAct) : PostsKeep (specPolWr r) := by
  intro x
  unfold specPolWr
  repeat' first
    | intro _
    | split
    | exact (congrArg Memory.wf (mem_getD_of (mem_writePolicy _ _ _) (mem_keepOrder _ _ _))).trans ‹_›
    | simp [MemoryOk, *]


theorem next_execPolWr (r : RAct) (s : State) (h : MemoryOk s) : NextOk (execPolWr r s) :=
  next_runBeat _ _ (fun _ => posts_specPolWr ..) h

/-! ### SpecAll -/

theorem posts_specOf {i : Instr} {sp : FireSpec} (hi : specOf i = some sp) : PostsKeep sp := by
  unfold specOf at hi
  split at hi
  all_goals first
    | exact posts_specUser hi
    | (obtain rfl := Option.some.inj hi; intro x; simp)

/-! ### Firing -/

theorem next_runSlotBeat (s : State) (c : Cursor) (i : Instr) (h : Memory.wf s.mem = true) : NextOk (runSlotBeat s c i) := by
  unfold runSlotBeat
  split
  · next e => exact next_runBeat _ _ (posts_specOf e) (by simp [h])
  · simp [MemoryOk, h]


theorem next_execFiringBeat (l : Loc) (s : State) (h : MemoryOk s) : NextOk (execFiringBeat l s) := by
  unfold MemoryOk at h
  unfold execFiringBeat
  repeat' first | split | with_reducible refine next_runSlotBeat _ _ _ ?_ | simp [MemoryOk, h]

/-! ### Jerix -/

@[simp] theorem mem_forgetImage (s : State) (image : Nat) : (forgetImage s image).mem = s.mem := by unfold forgetImage; rfl

@[simp] theorem mem_evictImage (s : State) (e : HeapEnt) : (evictImage s e).mem = s.mem := by unfold evictImage; rfl

@[simp] theorem ok_commitImage (a0 : Nat) (a1 : State) (a2 : BitVec 256) (a3 : List Byte) (a4 : List (Nat × Nat × List Token)) (h : Memory.wf a1.mem = true) : Memory.wf (commitImage a0 a1 a2 a3 a4).1.mem = true := by
  induction a0 generalizing a1 a2 a3 a4 with
  | zero =>
    unfold commitImage
    repeat' first
      | split
      | simp [h, mem_foldl]
  | succ _ ih =>
    unfold commitImage
    repeat' first
      | split
      | simp [h, ih, mem_foldl]

@[simp] theorem ok_commit (s : State) (key : BitVec 256) (bs : List Byte) (toks : List (Nat × Nat × List Token)) (h : Memory.wf s.mem = true) : Memory.wf (commit s key bs toks).1.mem = true := by simp [commit, h]

@[simp] theorem mem_dropEntry (s : State) (block : Nat) : (dropEntry s block).mem = s.mem := by unfold dropEntry; rfl

@[simp] theorem mem_siloInsert (a0 : Nat) (a1 : State) (a2 : BitVec 256) (a3 : List Byte) (a4 : List (Nat × Nat × List Token)) : (siloInsert a0 a1 a2 a3 a4).mem = a1.mem := by
  induction a0 generalizing a1 a2 a3 a4 with
  | zero =>
    unfold siloInsert
    repeat' first
      | split
      | simp
  | succ _ ih =>
    unfold siloInsert
    repeat' first
      | split
      | simp [ih]

@[simp] theorem mem_siloHit (s : State) (e : SiloEnt) : (siloHit s e).mem = s.mem := by unfold siloHit; rfl

@[simp] theorem mem_discardBad (s : State) (key : BitVec 256) : (discardBad s key).mem = s.mem := by simp [discardBad, mem_foldl]

@[simp] theorem mem_failLookup (s : State) (l : Nat) (n : Nat) (st : Nat) (sub : Nat) (info : Word) : (failLookup s l n st sub info).mem = s.mem := by unfold failLookup; split <;> simp

@[simp] theorem ok_lookupStep (s : State) (l : Nat) (n : Nat) (x : NodeSt) (h : Memory.wf s.mem = true) : Memory.wf (lookupStep s l n x).mem = true := by
  unfold lookupStep
  repeat' first
    | obtain rfl := pair_fst ‹_ = (_, _)›
    | split
    | simp [h, mem_foldl]

theorem next_execJerixLookup (launch : Nat) (node : Nat) (s : State) (h : MemoryOk s) : NextOk (execJerixLookup launch node s) := by
  unfold MemoryOk at h; unfold execJerixLookup
  repeat' first
    | split
    | simp [MemoryOk, *]

@[simp] theorem ok_endTranslation (s : State) (t : Xlate) (h : Memory.wf s.mem = true) : Memory.wf (endTranslation s t).mem = true := by
  unfold endTranslation
  repeat' first
    | obtain rfl := pair_fst ‹_ = (_, _)›
    | split
    | simp [h, mem_foldl]

theorem next_execTranslationComplete (xlate : Nat) (s : State) (h : MemoryOk s) : NextOk (execTranslationComplete xlate s) := by
  unfold MemoryOk at h; unfold execTranslationComplete
  repeat' first
    | split
    | simp [MemoryOk, *]

theorem next_execSiloPurge (s : State) (h : MemoryOk s) : NextOk (execSiloPurge s) := by
  unfold MemoryOk at h; unfold execSiloPurge
  repeat' first
    | with_reducible refine (congrArg Memory.wf (mem_foldl _ ?_ _ _)).trans ?_
    | simp [MemoryOk, *]

/-! ### Windows -/

@[simp] theorem mem_modWindow (s : State) (ctx : Nat) (n : Nat) (f : Window → Window) : (modWindow s ctx n f).mem = s.mem := by unfold modWindow; rfl

@[simp] theorem mem_ackContribution (payload : Nat) (f : Flags) (s : State) (c : Contribution) : (ackContribution payload f s c).mem = s.mem := by simp [ackContribution]

@[simp] theorem mem_arriveContribution (s : State) (c : Contribution) : (arriveContribution s c).mem = s.mem := by
  unfold arriveContribution
  dsimp only
  repeat' split
  all_goals simp [mem_foldl]

@[simp] theorem mem_contribute (s : State) (c : Contribution) : (contribute s c).mem = s.mem := by
  unfold contribute
  repeat' first | split | simp

theorem next_execWindowContribution (c : Contribution) (s : State) (h : MemoryOk s) : NextOk (execWindowContribution c s) := by simpa [execWindowContribution, MemoryOk] using h

@[simp] theorem mem_faultRound (s : State) (cls : FaultClass) (sub pa : Nat) (r : Round) : (faultRound s cls sub pa r).mem = s.mem := by
  unfold faultRound
  repeat' first | intro _ | split | with_reducible refine (mem_foldl _ ?_ _ _).trans ?_ | simp

@[simp] theorem ok_endRound (s : State) (ctx : Nat) (win : Nat) (off : Nat) (h : Memory.wf s.mem = true) : Memory.wf (endRound s ctx win off).mem = true := by
  unfold endRound
  dsimp only
  repeat' split
  all_goals simp [h, mem_foldl]

theorem next_execWindowRoundEnd (ctx : Nat) (win : Nat) (off : Nat) (s : State) (h : MemoryOk s) : NextOk (execWindowRoundEnd ctx win off s) := by
  unfold MemoryOk at h; unfold execWindowRoundEnd
  repeat' first | simp [MemoryOk, *]

@[simp] theorem mem_noteWindow (r : Round) (s : State) (c : Contribution) : (noteWindow r s c).mem = s.mem := by
  unfold noteWindow
  dsimp only
  repeat' split
  all_goals simp [mem_foldl]

@[simp] theorem mem_timeoutRound (s : State) (ctx : Nat) (win : Nat) (off : Nat) : (timeoutRound s ctx win off).mem = s.mem := by
  unfold timeoutRound
  dsimp only
  repeat' split
  all_goals simp [mem_foldl]

theorem next_execWindowTimeout (ctx : Nat) (win : Nat) (off : Nat) (s : State) (h : MemoryOk s) : NextOk (execWindowTimeout ctx win off s) := by simpa [execWindowTimeout, MemoryOk] using h

/-! ### Registers -/

@[simp] theorem mem_writeReply (s : State) (die : Nat) (v : Word) : (writeReply s die v).mem = s.mem := by simp [writeReply]

theorem next_execHostReply (die : Nat) (v : Word) (s : State) (h : MemoryOk s) : NextOk (execHostReply die v s) := by simpa [execHostReply, MemoryOk] using h

@[simp] theorem mem_startUpdate (s : State) : (startUpdate s).mem = s.mem := by simp [startUpdate]

theorem next_execFirmwareUpdate (s : State) (h : MemoryOk s) : NextOk (execFirmwareUpdate s) := by simpa [execFirmwareUpdate, MemoryOk] using h

@[simp] theorem mem_measure (s : State) : (Machine.measure s).mem = s.mem := by unfold Machine.measure; rfl

@[simp] theorem mem_switchPart (s : State) : (switchPart s).mem = s.mem := by simp [switchPart]

theorem next_execFirmwareSwitch (s : State) (h : MemoryOk s) : NextOk (execFirmwareSwitch s) := by simpa [execFirmwareSwitch, MemoryOk] using h

@[simp] theorem ok_writeReport (s : State) (h : Memory.wf s.mem = true) : Memory.wf (writeReport s).mem = true := by
  unfold writeReport
  dsimp only
  repeat' split
  all_goals simp [h, mem_foldl]

@[simp] theorem mem_startReport (s : State) : (startReport s).mem = s.mem := by simp [startReport]

theorem next_execAttestationRequest (s : State) (h : MemoryOk s) : NextOk (execAttestationRequest s) := by
  unfold MemoryOk at h; unfold execAttestationRequest
  repeat' first | simp [MemoryOk, *]

@[simp] theorem ok_writePort (s : State) (q : Nat) (o : Nat) (w : Nat) (v : Nat) (h : Memory.wf s.mem = true) : Memory.wf (writePort s q o w v).mem = true := by
  unfold writePort
  repeat' first | split | simp [h, mem_foldl]

@[simp] theorem ok_writeQueue (s : State) (fn : Nat) (q : Nat) (o : Nat) (w : Nat) (v : Nat) (h : Memory.wf s.mem = true) : Memory.wf (writeQueue s fn q o w v).mem = true := by unfold writeQueue; split <;> simp [h]

@[simp] theorem mem_writeCtx (s : State) (n : Nat) (o : Nat) (w : Nat) (v : Nat) : (writeCtx s n o w v).mem = s.mem := by simp [writeCtx]

@[simp] theorem mem_writeWindow (s : State) (ctx : Nat) (n : Nat) (o : Nat) (w : Nat) (v : Nat) : (writeWindow s ctx n o w v).mem = s.mem := by simp [writeWindow]

@[simp] theorem mem_lockDebug (s : State) : (lockDebug s).mem = s.mem := by unfold lockDebug; rfl

@[simp] theorem mem_writeReeve (s : State) (o : Nat) (w : Nat) (v : Nat) : (writeReeve s o w v).mem = s.mem := by simp [writeReeve]

@[simp] theorem ok_writeRegister (s : State) (fn : Nat) (o : Nat) (w : Nat) (v : Nat) (h : Memory.wf s.mem = true) : Memory.wf (writeRegister s fn o w v).mem = true := by
  unfold writeRegister
  repeat' first | split | simp [h, mem_foldl]

theorem next_execRegisterWrite (fn : Nat) (off : Nat) (width : Nat) (value : BitVec 256) (s : State) (h : MemoryOk s) : NextOk (execRegisterWrite fn off width value s) := by
  unfold MemoryOk at h; unfold execRegisterWrite
  repeat' first | simp [MemoryOk, *]

/-! ### HostMemory -/

@[simp] theorem ok_hostWriteLine (fn : Nat) (s : State) (pa : Nat) (bs : List Byte) (h : Memory.wf s.mem = true) : Memory.wf (hostWriteLine fn s pa bs).mem = true := by
  unfold hostWriteLine
  repeat' first | split | simp [h, mem_foldl]

@[simp] theorem ok_hostWrite (s : State) (fn : Nat) (off : Nat) (bs : List Byte) (h : Memory.wf s.mem = true) : Memory.wf (hostWrite s fn off bs).mem = true := by
  unfold hostWrite
  repeat' first | split | with_reducible refine ok_foldl _ (fun _ _ h => ?_) _ _ ?_ | simp [h, mem_foldl]

theorem next_execHostMemoryWrite (fn : Nat) (off : Nat) (bytes : List Byte) (s : State) (h : MemoryOk s) : NextOk (execHostMemoryWrite fn off bytes s) := by
  unfold MemoryOk at h; unfold execHostMemoryWrite
  repeat' first | simp [MemoryOk, *]

@[simp] theorem mem_hostRead (s : State) (fn : Nat) (off : Nat) (len : Nat) : (hostRead s fn off len).mem = s.mem := by simp [hostRead]

theorem next_execHostMemoryRead (fn : Nat) (off : Nat) (len : Nat) (s : State) (h : MemoryOk s) : NextOk (execHostMemoryRead fn off len s) := by simpa [execHostMemoryRead, MemoryOk] using h

theorem next_execHostAtomicRequest (a0 : Nat) (a1 : Nat) (s : State) (h : MemoryOk s) : NextOk (execHostAtomicRequest a0 a1 s) := by simpa [execHostAtomicRequest, MemoryOk] using h

/-! ### Paths -/

@[simp] theorem mem_waveEnterStep (s : State) (id : Nat) : (waveEnterStep s id).mem = s.mem := by unfold waveEnterStep; split <;> simp

theorem next_execWaveEnter (req : Nat) (s : State) (h : MemoryOk s) : NextOk (execWaveEnter req s) := by simpa [execWaveEnter, MemoryOk] using h

@[simp] theorem mem_answerWalk (p : Page) (s : State) (q : Req) : (answerWalk p s q).mem = s.mem := by unfold answerWalk; split <;> simp

@[simp] theorem mem_answerFault (f : VBad) (s : State) (q : Req) : (answerFault f s q).mem = s.mem := by unfold answerFault; split <;> simp

@[simp] theorem mem_walkDone (s : State) (die : Nat) (miss : Nat) : (walkDone s die miss).mem = s.mem := by
  unfold walkDone
  dsimp only
  repeat' split
  all_goals simp [mem_foldl]

theorem next_execPageWalkComplete (die : Nat) (miss : Nat) (s : State) (h : MemoryOk s) : NextOk (execPageWalkComplete die miss s) := by simpa [execPageWalkComplete, MemoryOk] using h

@[simp] theorem mem_streamResponse (s : State) (q : Req) (l : Loc) (m : Fin 8) (data : Beat) : (streamResponse s q l m data).mem = s.mem := by
  unfold streamResponse
  dsimp only
  repeat' split
  all_goals simp [mem_foldl]

@[simp] theorem mem_respond (s : State) (id : Nat) : (respond s id).mem = s.mem := by
  unfold respond
  dsimp only
  repeat' split
  all_goals simp [mem_foldl]

theorem next_execMemoryResponse (req : Nat) (s : State) (h : MemoryOk s) : NextOk (execMemoryResponse req s) := by simpa [execMemoryResponse, MemoryOk] using h

@[simp] theorem ok_lineTimeout (s : State) (l : Loc) (n : Nat) (h : Memory.wf s.mem = true) : Memory.wf (lineTimeout s l n).mem = true := by
  unfold lineTimeout
  repeat' first | split | simp [h, mem_foldl]

theorem next_execCombineLineTimeout (l : Loc) (line : Nat) (s : State) (h : MemoryOk s) : NextOk (execCombineLineTimeout l line s) := by
  unfold MemoryOk at h; unfold execCombineLineTimeout
  repeat' first | simp [MemoryOk, *]

@[simp] theorem mem_showResult (s : State) (id : Nat) : (showResult s id).mem = s.mem := by unfold showResult; split <;> simp

theorem next_execAsyncResultVisible (op : Nat) (s : State) (h : MemoryOk s) : NextOk (execAsyncResultVisible op s) := by simpa [execAsyncResultVisible, MemoryOk] using h

/-! ### Reliability -/

@[simp] theorem mem_freezeRegion (s : State) (p : ErrPlace) : (freezeRegion s p).mem = s.mem := by unfold freezeRegion; split <;> simp

theorem next_execConfigRegionError (p : ErrPlace) (s : State) (h : MemoryOk s) : NextOk (execConfigRegionError p s) := by simpa [execConfigRegionError, MemoryOk] using h

@[simp] theorem mem_reloadDone (s : State) (p : ErrPlace) : (reloadDone s p).mem = s.mem := by unfold reloadDone; split <;> simp

theorem next_execConfigReloadDone (p : ErrPlace) (s : State) (h : MemoryOk s) : NextOk (execConfigReloadDone p s) := by simpa [execConfigReloadDone, MemoryOk] using h

@[simp] theorem mem_changeToken (s : State) (l : Loc) (port : Fin 4) (pos : Nat) (f : Entry → Entry) : (changeToken s l port pos f).mem = s.mem := by
  unfold changeToken
  dsimp only
  repeat' split
  all_goals simp [mem_foldl]

@[simp] theorem mem_faultToken5 (s : State) (l : Loc) (port : Fin 4) (pos : Nat) : (faultToken5 s l port pos).mem = s.mem := by
  unfold faultToken5
  dsimp only
  repeat' split
  all_goals simp

@[simp] theorem mem_dropTlb (s : State) (die : Nat) (n : Nat) : (dropTlb s die n).mem = s.mem := by simp [dropTlb]

@[simp] theorem mem_uncorrectable (s : State) (p : ErrPlace) : (uncorrectable s p).mem = s.mem := by
  unfold uncorrectable
  dsimp only
  repeat' split
  all_goals simp [mem_foldl]

@[simp] theorem mem_memoryError (s : State) (p : ErrPlace) (correctable : Bool) : (memoryError s p correctable).mem = s.mem := by simp [memoryError]

theorem next_execMemoryError (p : ErrPlace) (correctable : Bool) (s : State) (h : MemoryOk s) : NextOk (execMemoryError p correctable s) := by simpa [execMemoryError, MemoryOk] using h

@[simp] theorem mem_scrubRead (s : State) (p : ErrPlace) : (scrubRead s p).mem = s.mem := by unfold scrubRead; split <;> simp

theorem next_execScrubRead (p : ErrPlace) (s : State) (h : MemoryOk s) : NextOk (execScrubRead p s) := by simpa [execScrubRead, MemoryOk] using h

@[simp] theorem mem_throttle (s : State) (pwr : Nat) (temp : Nat) : (throttle s pwr temp).mem = s.mem := by unfold throttle; rfl

theorem next_execPowerThrottle (milliwatts : Nat) (temp16 : Nat) (s : State) (h : MemoryOk s) : NextOk (execPowerThrottle milliwatts temp16 s) := by simpa [execPowerThrottle, MemoryOk] using h

@[simp] theorem mem_trip (s : State) (temp : Nat) : (trip s temp).mem = s.mem := by simp [trip, mem_foldl]

theorem next_execThermalTrip (temp16 : Nat) (s : State) (h : MemoryOk s) : NextOk (execThermalTrip temp16 s) := by simpa [execThermalTrip, MemoryOk] using h

@[simp] theorem mem_modPort (s : State) (n : Fin 12) (f : DvlPort → DvlPort) : (modPort s n f).mem = s.mem := by unfold modPort; rfl

theorem next_execDvlLaneFail (port : Fin 12) (s : State) (h : MemoryOk s) : NextOk (execDvlLaneFail port s) := by simpa [execDvlLaneFail, MemoryOk] using h

@[simp] theorem mem_linkDown (s : State) (port : Option (Fin 12)) : (linkDown s port).mem = s.mem := by
  unfold linkDown
  repeat' first | split | with_reducible refine (mem_foldl _ ?_ _ _).trans ?_ | simp

theorem next_execLinkDown (port : Option (Fin 12)) (s : State) (h : MemoryOk s) : NextOk (execLinkDown port s) := by simpa [execLinkDown, MemoryOk] using h

@[simp] theorem mem_spareChannel (s : State) (stack : Nat) : (spareChannel s stack).mem = s.mem := by simp [spareChannel]

theorem next_execHbmChannelSpare (stack : Fin 8) (a1 : Nat) (s : State) (h : MemoryOk s) : NextOk (execHbmChannelSpare stack a1 s) := by simpa [execHbmChannelSpare, MemoryOk] using h

theorem next_execPostPackageRepair (pa : Nat) (s : State) (h : MemoryOk s) : NextOk (execPostPackageRepair pa s) := by simpa [execPostPackageRepair, MemoryOk] using h

@[simp] theorem ok_powerUp (s : State) (h : Memory.wf s.mem = true) : Memory.wf (powerUp s).mem = true := by simp [powerUp, h]

theorem next_execPowerUp (s : State) (h : MemoryOk s) : NextOk (execPowerUp s) := by
  unfold MemoryOk at h; unfold execPowerUp
  repeat' first | simp [MemoryOk, *]

@[simp] theorem mem_freezeTrace (s : State) (plot : Nat) : (freezeTrace s plot).mem = s.mem := by simp [freezeTrace]

theorem next_execTracePostCount (plot : Nat) (s : State) (h : MemoryOk s) : NextOk (execTracePostCount plot s) := by simpa [execTracePostCount, MemoryOk] using h

@[simp] theorem mem_loadHeadElem (plot : Nat) (cs : List (Loc × Fin 4 × Route)) (es : List HeadElem) (s : State) (x : HeadElem) : (loadHeadElem plot cs es s x).mem = s.mem := by
  unfold loadHeadElem
  dsimp only
  repeat' split
  all_goals simp [mem_foldl]

@[simp] theorem mem_loadHeadland (s : State) (die : Nat) (elems : List HeadElem) (routes : List Word) : (loadHeadland s die elems routes).mem = s.mem := by simp [loadHeadland, mem_foldl]

theorem next_execHeadlandConfigurationLoad (die : Nat) (elems : List HeadElem) (routes : List Word) (s : State) (h : MemoryOk s) : NextOk (execHeadlandConfigurationLoad die elems routes s) := by simpa [execHeadlandConfigurationLoad, MemoryOk] using h

/-! ### Trees -/

@[simp] theorem mem_endTreeCmd (s : State) (cmd : Nat) (status : Nat) : (endTreeCmd s cmd status).mem = s.mem := by simp [endTreeCmd]

@[simp] theorem mem_acceptPkt (s : State) (n : Nat) (k : TreePkt) : (acceptPkt s n k).mem = s.mem := by
  unfold acceptPkt
  dsimp only
  repeat' split
  all_goals simp [mem_foldl]

theorem next_execTreePacketAccept (packet : Nat) (s : State) (h : MemoryOk s) : NextOk (execTreePacketAccept packet s) := by unfold execTreePacketAccept; split <;> simpa [MemoryOk] using h

@[simp] theorem mem_deliverTree (s : State) (n : Nat) (r : Region) (g : TreeGroup) : (deliverTree s n r g).mem = s.mem := by
  unfold deliverTree
  dsimp only
  repeat' split
  all_goals simp [mem_foldl]

@[simp] theorem mem_forwardGroup (s : State) (n : Nat) (g : TreeGroup) : (forwardGroup s n g).mem = s.mem := by
  unfold forwardGroup
  dsimp only
  repeat' split
  all_goals simp [mem_foldl]

theorem next_execTreeForward (plot : Nat) (tree : Nat) (grp : Nat) (s : State) (h : MemoryOk s) : NextOk (execTreeForward plot tree grp s) := by unfold execTreeForward; split <;> simpa [MemoryOk] using h

@[simp] theorem mem_timeoutGroup (s : State) (n : Nat) (g : TreeGroup) : (timeoutGroup s n g).mem = s.mem := by unfold timeoutGroup; split <;> simp

theorem next_execTreeTimeout (plot : Nat) (tree : Nat) (grp : Nat) (s : State) (h : MemoryOk s) : NextOk (execTreeTimeout plot tree grp s) := by unfold execTreeTimeout; split <;> simpa [MemoryOk] using h

/-! ### Dispatch -/

theorem next_exec (i : Instr) (s : State) (h : MemoryOk s) : NextOk (exec i s) := by
  cases i with
  | nop r => exact next_execNop r s h
  | mov r => exact next_execMov r s h
  | movi im => exact next_execMovi im s h
  | drop r => exact next_execDrop r s h
  | sel r n => exact next_execSel r n s h
  | route r => exact next_execRoute r s h
  | eos r rc0 rc1 => exact next_execEos r rc0 rc1 s h
  | pand pa pb upd => exact next_execPand pa pb upd s h
  | por pa pb upd => exact next_execPor pa pb upd s h
  | pxor pa pb upd => exact next_execPxor pa pb upd s h
  | pandn pa pb upd => exact next_execPandn pa pb upd s h
  | cntAdd im => exact next_execCntAdd im s h
  | cntSet im => exact next_execCntSet im s h
  | flgRd r => exact next_execFlgRd r s h
  | flgClr im => exact next_execFlgClr im s h
  | rest upd => exact next_execRest upd s h
  | barArv g upd => exact next_execBarArv g upd s h
  | barWch dst sa g upd => exact next_execBarWch dst sa g upd s h
  | barMem sa g upd peek => exact next_execBarMem sa g upd peek s h
  | stgAcq dst ring role upd => exact next_execStgAcq dst ring role upd s h
  | stgRel sa ring role upd => exact next_execStgRel sa ring role upd s h
  | tmrRd r src => exact next_execTmrRd r src s h
  | trap im => exact next_execTrap im s h
  | brk im => exact next_execBrk im s h
  | specRd dst reg upd => exact next_execSpecRd dst reg upd s h
  | specWr sa reg upd => exact next_execSpecWr sa reg upd s h
  | waveNx upd => exact next_execWaveNx upd s h
  | add r c => exact next_execAdd r c s h
  | sub r c => exact next_execSub r c s h
  | addi im => exact next_execAddi im s h
  | mul r c => exact next_execMul r c s h
  | mulh r c => exact next_execMulh r c s h
  | mad r c => exact next_execMad r c s h
  | div r c => exact next_execDiv r c s h
  | rem r c => exact next_execRem r c s h
  | neg r c => exact next_execNeg r c s h
  | abs r c => exact next_execAbs r c s h
  | min r c => exact next_execMin r c s h
  | max r c => exact next_execMax r c s h
  | and r c => exact next_execAnd r c s h
  | or r c => exact next_execOr r c s h
  | xor r c => exact next_execXor r c s h
  | andn r c => exact next_execAndn r c s h
  | not r c => exact next_execNot r c s h
  | shl r c => exact next_execShl r c s h
  | shr r c => exact next_execShr r c s h
  | sar r c => exact next_execSar r c s h
  | rot r c => exact next_execRot r c s h
  | shli im => exact next_execShli im s h
  | clz r c => exact next_execClz r c s h
  | ctz r c => exact next_execCtz r c s h
  | popc r c => exact next_execPopc r c s h
  | bfe r c => exact next_execBfe r c s h
  | bfi r c => exact next_execBfi r c s h
  | ext r c => exact next_execExt r c s h
  | lea r c => exact next_execLea r c s h
  | cmp r c => exact next_execCmp r c s h
  | ccmp r c => exact next_execCcmp r c s h
  | iota r c => exact next_execIota r c s h
  | pack r c => exact next_execPack r c s h
  | unpk r c => exact next_execUnpk r c s h
  | shuf r c => exact next_execShuf r c s h
  | bcast r c => exact next_execBcast r c s h
  | vred r c => exact next_execVred r c s h
  | vscn r c => exact next_execVscn r c s h
  | filt r c => exact next_execFilt r c s h
  | xpnd r c => exact next_execXpnd r c s h
  | zpack r c => exact next_execZpack r c s h
  | zunpk r c => exact next_execZunpk r c s h
  | hash r c => exact next_execHash r c s h
  | fadd r c => exact next_execFadd r c s h
  | fsub r c => exact next_execFsub r c s h
  | fmul r c => exact next_execFmul r c s h
  | ffma r c => exact next_execFfma r c s h
  | fmin r c => exact next_execFmin r c s h
  | fmax r c => exact next_execFmax r c s h
  | fabs r c => exact next_execFabs r c s h
  | fneg r c => exact next_execFneg r c s h
  | fclt r c => exact next_execFclt r c s h
  | fcle r c => exact next_execFcle r c s h
  | fceq r c => exact next_execFceq r c s h
  | fcun r c => exact next_execFcun r c s h
  | fcvt r fcs => exact next_execFcvt r fcs s h
  | f2i r signed trunc c => exact next_execF2i r signed trunc c s h
  | i2f r signed c => exact next_execI2f r signed c s h
  | frnd r rd c => exact next_execFrnd r rd c s h
  | fscl r c => exact next_execFscl r c s h
  | fcls r c => exact next_execFcls r c s h
  | fdot r c => exact next_execFdot r c s h
  | q4dq r c => exact next_execQ4dq r c s h
  | q4q r c => exact next_execQ4q r c s h
  | dropm r c => exact next_execDropm r c s h
  | rnd r c => exact next_execRnd r c s h
  | frcp r c => exact next_execFrcp r c s h
  | frsq r c => exact next_execFrsq r c s h
  | fsqrt r c => exact next_execFsqrt r c s h
  | fex2 r c => exact next_execFex2 r c s h
  | flg2 r c => exact next_execFlg2 r c s h
  | fsin r c => exact next_execFsin r c s h
  | fcos r c => exact next_execFcos r c s h
  | ftnh r c => exact next_execFtnh r c s h
  | fsgm r c => exact next_execFsgm r c s h
  | fslu r c => exact next_execFslu r c s h
  | fdiv r c => exact next_execFdiv r c s h
  | ld m sx => exact next_execLd m sx s h
  | st m => exact next_execSt m s h
  | amo m op fcs => exact next_execAmo m op fcs s h
  | amoCas m => exact next_execAmoCas m s h
  | red m op fcs => exact next_execRed m op fcs s h
  | wfence dst scope => exact next_execWfence dst scope s h
  | mseal dst sa sb => exact next_execMseal dst sa sb s h
  | munseal dst sa => exact next_execMunseal dst sa s h
  | fltRd dst upd => exact next_execFltRd dst upd s h
  | rpr r act => exact next_execRpr r act s h
  | rqRd r => exact next_execRqRd r s h
  | rqWr r => exact next_execRqWr r s h
  | rqInj r val => exact next_execRqInj r val s h
  | ctxSv r => exact next_execCtxSv r s h
  | ctxLd r => exact next_execCtxLd r s h
  | tlbInv r reach => exact next_execTlbInv r reach s h
  | frz r => exact next_execFrz r s h
  | thw r => exact next_execThw r s h
  | cfgRld r => exact next_execCfgRld r s h
  | trCtl r => exact next_execTrCtl r s h
  | wpSet r n => exact next_execWpSet r n s h
  | irq r => exact next_execIrq r s h
  | spareMap r => exact next_execSpareMap r s h
  | polWr r => exact next_execPolWr r s h
  | tileNew r => exact next_execTileNew r s h
  | tileFree r => exact next_execTileFree r s h
  | tileShp r => exact next_execTileShp r s h
  | tileRd r => exact next_execTileRd r s h
  | tileWr r => exact next_execTileWr r s h
  | tileGat r => exact next_execTileGat r s h
  | tileSct r => exact next_execTileSct r s h
  | tileAcc r fcs => exact next_execTileAcc r fcs s h
  | tileFil r => exact next_execTileFil r s h
  | tileCpy r => exact next_execTileCpy r s h
  | tileQry r => exact next_execTileQry r s h
  | hashSet r => exact next_execHashSet r s h
  | bankRd r => exact next_execBankRd r s h
  | bankClr r => exact next_execBankClr r s h
  | strmOpn r m => exact next_execStrmOpn r m s h
  | strmCls r m => exact next_execStrmCls r m s h
  | sbar mask upd => exact next_execSbar mask upd s h
  | strmSt r m => exact next_execStrmSt r m s h
  | tlbPf r => exact next_execTlbPf r s h
  | wpArm r n mode => exact next_execWpArm r n mode s h
  | cmbFl r => exact next_execCmbFl r s h
  | cpy e => exact next_execCpy e s h
  | cpyNd e => exact next_execCpyNd e s h
  | cpyIx e => exact next_execCpyIx e s h
  | cpyIs e => exact next_execCpyIs e s h
  | gat e => exact next_execGat e s h
  | sct e => exact next_execSct e s h
  | sctAdd e fcs => exact next_execSctAdd e fcs s h
  | rdcTree e fcs => exact next_execRdcTree e fcs s h
  | coll e fcs => exact next_execColl e fcs s h
  | put e => exact next_execPut e s h
  | get e => exact next_execGet e s h
  | drillPush e n => exact next_execDrillPush e n s h
  | sig e raise vec => exact next_execSig e raise vec s h
  | adPf e me a b => exact next_execAdPf e me a b s h
  | mma x => exact next_execMma x s h
  | accClr x => exact next_execAccClr x s h
  | accRd x fcs => exact next_execAccRd x fcs s h
  | accLd x => exact next_execAccLd x s h
  | accRel x fcs => exact next_execAccRel x fcs s h
  | adInv x => exact next_execAdInv x s h
  | meCnt x => exact next_execMeCnt x s h
  | meIdl x => exact next_execMeIdl x s h
  | firingBeat l => exact next_execFiringBeat l s h
  | mmaStep l => exact next_execMmaStep l s h
  | mmaComplete l => exact next_execMmaComplete l s h
  | adapterClose l an => exact next_execAdapterClose l an s h
  | accumulatorRelease l an => exact next_execAccumulatorRelease l an s h
  | releaseBeat l wo => exact next_execReleaseBeat l wo s h
  | operandPacketFill l nodeB => exact next_execOperandPacketFill l nodeB s h
  | adapterSliceFill plot fill => exact next_execAdapterSliceFill plot fill s h
  | tokenArrive l port => exact next_execTokenArrive l port s h
  | tokenDepart l port => exact next_execTokenDepart l port s h
  | creditReturn l port => exact next_execCreditReturn l port s h
  | asyncResultVisible op => exact next_execAsyncResultVisible op s h
  | bankGrant plot bank => exact next_execBankGrant plot bank s h
  | streamAccess l m => exact next_execStreamAccess l m s h
  | streamComplete l m => exact next_execStreamComplete l m s h
  | waveEnter req => exact next_execWaveEnter req s h
  | pageWalkComplete die miss => exact next_execPageWalkComplete die miss s h
  | homeAccessPerform req => exact next_execHomeAccessPerform req s h
  | memoryResponse req => exact next_execMemoryResponse req s h
  | combineLineTimeout l line => exact next_execCombineLineTimeout l line s h
  | engineAcceptCommand cmd => exact next_execEngineAcceptCommand cmd s h
  | engineComplete cmd => exact next_execEngineComplete cmd s h
  | treePacketAccept packet => exact next_execTreePacketAccept packet s h
  | treeForward plot tree grp => exact next_execTreeForward plot tree grp s h
  | treeTimeout plot tree grp => exact next_execTreeTimeout plot tree grp s h
  | windowContribution c => exact next_execWindowContribution c s h
  | windowRoundEnd ctx win off => exact next_execWindowRoundEnd ctx win off s h
  | windowTimeout ctx win off => exact next_execWindowTimeout ctx win off s h
  | barrierArrivalCount l => exact next_execBarrierArrivalCount l s h
  | watchComplete l => exact next_execWatchComplete l s h
  | watchExpire l => exact next_execWatchExpire l s h
  | fidAssign die => exact next_execFidAssign die s h
  | launchLf3 fn q rec_ => exact next_execLaunchLf3 fn q rec_ s h
  | launchLf2 fn q rec_ => exact next_execLaunchLf2 fn q rec_ s h
  | queueDrain fn q => exact next_execQueueDrain fn q s h
  | queueAbort fn q => exact next_execQueueAbort fn q s h
  | hostReply die v => exact next_execHostReply die v s h
  | registerWrite fn off width value => exact next_execRegisterWrite fn off width value s h
  | hostMemoryWrite fn off bytes => exact next_execHostMemoryWrite fn off bytes s h
  | hostMemoryRead fn off len => exact next_execHostMemoryRead fn off len s h
  | hostAtomicRequest fn off => exact next_execHostAtomicRequest fn off s h
  | drillTakeRecord q => exact next_execDrillTakeRecord q s h
  | signalNode launch node => exact next_execSignalNode launch node s h
  | branchNode launch node => exact next_execBranchNode launch node s h
  | waitPoll launch node => exact next_execWaitPoll launch node s h
  | waitTimeout launch node => exact next_execWaitTimeout launch node s h
  | subgraphStart launch node => exact next_execSubgraphStart launch node s h
  | granaryEnter launch node => exact next_execGranaryEnter launch node s h
  | nodeAgeing launch node => exact next_execNodeAgeing launch node s h
  | launchTimeout launch => exact next_execLaunchTimeout launch s h
  | engineNodeDispatch launch node => exact next_execEngineNodeDispatch launch node s h
  | placeSection launch node => exact next_execPlaceSection launch node s h
  | jerixLookup launch node => exact next_execJerixLookup launch node s h
  | translationComplete xlate => exact next_execTranslationComplete xlate s h
  | preemptSection parcel => exact next_execPreemptSection parcel s h
  | parcelFrozen parcel => exact next_execParcelFrozen parcel s h
  | saveAreaWritten parcel => exact next_execSaveAreaWritten parcel s h
  | resumeSection parcel => exact next_execResumeSection parcel s h
  | configPacket plot packet => exact next_execConfigPacket plot packet s h
  | plotStart plot => exact next_execPlotStart plot s h
  | killParcelFree parcel => exact next_execKillParcelFree parcel s h
  | settleScan parcel => exact next_execSettleScan parcel s h
  | sectionRetire parcel => exact next_execSectionRetire parcel s h
  | sectionWatchdog parcel => exact next_execSectionWatchdog parcel s h
  | configRegionError p => exact next_execConfigRegionError p s h
  | configReloadDone p => exact next_execConfigReloadDone p s h
  | memoryError p correctable => exact next_execMemoryError p correctable s h
  | scrubRead p => exact next_execScrubRead p s h
  | powerThrottle milliwatts temp16 => exact next_execPowerThrottle milliwatts temp16 s h
  | thermalTrip temp16 => exact next_execThermalTrip temp16 s h
  | dvlLaneFail port => exact next_execDvlLaneFail port s h
  | linkDown port => exact next_execLinkDown port s h
  | tracePostCount plot => exact next_execTracePostCount plot s h
  | headlandConfigurationLoad die elems routes => exact next_execHeadlandConfigurationLoad die elems routes s h
  | hbmChannelSpare stack pa => exact next_execHbmChannelSpare stack pa s h
  | postPackageRepair pa => exact next_execPostPackageRepair pa s h
  | siloPurge => exact next_execSiloPurge s h
  | firmwareUpdate => exact next_execFirmwareUpdate s h
  | firmwareSwitch => exact next_execFirmwareSwitch s h
  | attestationRequest => exact next_execAttestationRequest s h
  | drillStep => exact next_execDrillStep s h
  | powerUp => exact next_execPowerUp s h

/-! ### Arbiter -/

@[simp] theorem mem_grantStage (plot : Nat) (s : State) (n : Fin 8) : (grantStage plot s n).mem = s.mem := by unfold grantStage; split <;> simp

@[simp] theorem mem_arbitrate (s : State) : (arbitrate s).mem = s.mem := by simp [arbitrate, mem_foldl]

@[simp] theorem mem_startCycle (s : State) : (startCycle s).mem = s.mem := by simp [startCycle, mem_foldl]

/-! ### Agenda -/

@[simp] theorem mem_tick (s : State) : (tick s).mem = s.mem := by simp [tick]

/-! ### Fetch -/

@[simp] theorem mem_placedFault (s : State) (i : Instr) : (placedFault s i).mem = s.mem := by unfold placedFault; split <;> simp

@[simp] theorem mem_placeWord (s : State) (nbits : Nat) (w : Nat) : (placeWord s nbits w).mem = s.mem := by unfold placeWord; split <;> simp

end Sys2Proof.Laws
end

