-- ==== Sys2Proof/Laws/Units.lean ====
section
/-!
SUPPORT. Reading back what an operation wrote to a parcel, a reduction window, a matrix element, or a launch and its nodes.
-/

namespace Sys2Proof.Laws

open Machine

theorem find_of_mem {α : Type} {t : Tbl α} {n : Nat} {x : α} (h : (n, x) ∈ t) : (Tbl.find t n).isSome := by
  induction t with
  | nil => simp at h
  | cons a t ih =>
    obtain ⟨k, v⟩ := a
    simp only [Tbl.find]
    split
    · rfl
    · next h1 =>
      simp only [List.mem_cons, Prod.mk.injEq] at h
      rcases h with h | h
      · exact absurd h.1.symm (by simpa [eq_comm] using h1)
      · exact ih h

theorem getParcel_modParcel_same (s : State) (n : Nat) (f : Parcel → Parcel) (h : (Tbl.find s.parcels n).isSome) :
    getParcel (modParcel s n f) n = f (getParcel s n) := by
  obtain ⟨p, hp⟩ := Option.isSome_iff_exists.1 h
  simp [getParcel, modParcel, Tbl.findD, find_alter_same, hp]

theorem getParcel_modParcel_other (s : State) {n m : Nat} (f : Parcel → Parcel) (h : m ≠ n) : getParcel (modParcel s n f) m = getParcel s m := by
  simp [getParcel, modParcel, Tbl.findD, find_alter_other _ _ h]

theorem isSome_modParcel (s : State) (n : Nat) (f : Parcel → Parcel) :
    (Tbl.find (modParcel s n f).parcels n).isSome = (Tbl.find s.parcels n).isSome := by
  simp [modParcel, find_alter_same]

theorem getWindow_modWindow_same (s : State) (c n : Nat) (f : Window → Window) : getWindow (modWindow s c n f) c n = f (getWindow s c n) := by
  simp [getWindow, modWindow, getCtx, modCtx]

theorem getMe_modMe_same (s : State) (l : Loc) (f : MeUnit → MeUnit) : getMe (modMe s l f) l = f (getMe s l) := by simp [getMe, modMe]

@[simp] theorem getMe_modElem (s : State) (l m : Loc) (f : Elem → Elem) : getMe (modElem s m f) l = getMe s l := rfl

@[simp] theorem getElem_modMe (s : State) (l m : Loc) (f : MeUnit → MeUnit) : Machine.getElem (modMe s m f) l = Machine.getElem s l := rfl

theorem nodeAt_setNode_same (s : State) (l : Loc) (an : Fin 4) (n : AccNode) : nodeAt (getMe (setNode s l an n) l) an = n := by
  simp [setNode, getMe_modMe_same, nodeAt]

theorem find_modLaunch_same (s : State) (l : Nat) (f : Launch → Launch) :
    Tbl.find (modLaunch s l f).drill.launches l = (Tbl.find s.drill.launches l).map f := by
  simp [modLaunch, modDrill, find_alter_same]

theorem find_modLaunch_other (s : State) {l k : Nat} (f : Launch → Launch) (h : k ≠ l) :
    Tbl.find (modLaunch s l f).drill.launches k = Tbl.find s.drill.launches k := by
  simp [modLaunch, modDrill, find_alter_other _ _ h]

end Sys2Proof.Laws
end

