-- ==== Sys2Proof/Tests/Slice0.lean ====
section
/-!
SUPPORT. The model's own tests: ill-formed terms that WellFormed refuses, words written out from the encodings of spec 04 and what they decode to, and
one step on a small state, with results taken from the manual's worked examples and tables.
-/

namespace Sys2Proof.Tests

set_option Elab.async false

open Machine

/-! ### A small state -/

/-- An R-form action on i0 and i1. -/
def two (d : Dst) (u : PUpd := .none) : RAct := ⟨d, .ch 0, .ch 1, .data, u, false⟩
/-- An R-form action on i0 alone. -/
def one (d : Dst) (u : PUpd := .none) : RAct := ⟨d, .ch 0, .zero, .data, u, false⟩

/-- An input that shows tokens. -/
def showing (xs : List Token) : InPort := { q := { es := xs.map fun t => { body := some t } } }
def dataTok (v : Nat) : Token := { tag := .data, val := BitVec.ofNat 512 v }

/-- An element of a kind at e0 of plot 0 with tokens on its inputs, whose outputs lead to the inputs of e1. -/
def benchElem (k : Kind) (i0 i1 i2 i3 : List Token) : Elem :=
  { present := true, kind := k, fan := 0b0011
    ins := #v[showing i0, showing i1, showing i2, showing i3]
    outs := Vector.ofFn fun n => { route := some ⟨⟨0, 1⟩, n, false, 0, false⟩ } }

/-- Plot 0 started with that element and e1; the cursor stands at its slot s0. -/
def bench (k : Kind) (f : Elem → Elem) (i0 i1 i2 i3 : List Token) : State :=
  { elems := [(0, f (benchElem k i0 i1 i2 i3)), (1, { present := true, kind := k })], plots := [(0, { started := true })] }

/-- A compute element with two words on its inputs. -/
def words (a b : Nat) : State := bench .ce id [dataTok a] [dataTok b] [] []

/-- What a next state holds. -/
def after {α : Type} (o : Out) (f : State → α) : Option α :=
  match o with
  | .next s => some (f s)
  | _ => none

/-- d0 and the flags of e0, the head of input n of e1, and a predicate of e0, after a step. -/
def d0 (o : Out) : Option Nat := after o fun s => (Machine.getElem s ⟨0, 0⟩).d[(0 : Fin 8)].toNat
def flags (o : Out) : Option Nat := after o fun s => (Machine.getElem s ⟨0, 0⟩).flg.toNat
def sent (n : Fin 4) (o : Out) : Option (List (Tag × Nat)) :=
  after o fun s => (inPort (Machine.getElem s ⟨0, 1⟩) n).q.es.filterMap fun x => x.body.map fun t => (t.tag, t.val.toNat)
def preds (o : Out) : Option Nat := after o fun s => (Machine.getElem s ⟨0, 0⟩).p.toNat

/-! ### Integer and lane instructions (examples of spec 09) -/

theorem test_add_wraps : flags (exec (.add (two (.d 0)) ⟨.w8, true, false⟩) (words 0x7F 0x01)) = some 0x40 := by decide +kernel
theorem test_add_saturates : d0 (exec (.add (two (.d 0)) ⟨.w8, true, true⟩) (words 0x7F 0x01)) = some 0x7F := by decide +kernel
/-- 09 R153: `div.i8` of 0xF9 by 0x02 gives 0xFD; the other lanes divide 0 by 0, all ones. -/
theorem test_div_i8 : (d0 (exec (.div (two (.d 0)) ⟨.w8, true, false⟩) (words 0xF9 0x02))).map (· % 256) = some 0xFD := by decide +kernel
theorem test_rem_i8 : (d0 (exec (.rem (two (.d 0)) ⟨.w8, true, false⟩) (words 0xF9 0x02))).map (· % 256) = some 0xFF := by decide +kernel
/-- 09 R155: `shl.n8` of 0x81 by 1. -/
theorem test_shl_n8 : (d0 (exec (.shl (two (.d 0)) ⟨.w8, false, false⟩) (words 0x81 1))) = some 0x02 := by decide +kernel
theorem test_shl_i8_sat : (d0 (exec (.shl (two (.d 0)) ⟨.w8, true, true⟩) (words 0x40 1))) = some 0x7F := by decide +kernel
/-- 09 R159: the worked `pack.i16`. -/
theorem test_pack_sat : d0 (exec (.pack (two (.d 0)) ⟨.w16, true, true⟩) (words 0x0001FF80007F8000 0x100)) = some 0x0000007F01807F80 := by decide +kernel
theorem test_pack_wraps : d0 (exec (.pack (two (.d 0)) ⟨.w16, true, false⟩) (words 0x0001FF80007F8000 0x100)) = some 0x0000000001807F00 := by decide +kernel
/-- 09 R160: `vscn.n8`. -/
theorem test_vscn : d0 (exec (.vscn (two (.d 0)) ⟨.w8, false, false⟩) (words 0x04030201 0)) = some 0x0A0A0A0A0A060301 := by decide +kernel
/-- 09 R162: `zpack.n8`. -/
theorem test_zpack : d0 (exec (.zpack (one (.d 0)) ⟨.w8, false, false⟩) (words 0x0000050000000300 0)) = some 0x0503 := by decide +kernel
theorem test_zpack_mask : after (exec (.zpack (one (.d 0)) ⟨.w8, false, false⟩) (words 0x0000050000000300 0))
    (fun s => ((Machine.getElem s ⟨0, 0⟩).c0.toNat, (Machine.getElem s ⟨0, 0⟩).c1.toNat)) = some (2, 0x2200000000000000) := by decide +kernel

/-! ### Conversions, Q4N and floating point (examples of spec 10 and 02) -/

/-- 10 R171: `f2i.f32.i.trunc`. -/
theorem test_f2i : d0 (exec (.f2i (one (.d 0)) true true ⟨.f32, ⟨false, false, false⟩⟩) (words 0xD01502F940200000 0)) = some 0x8000000000000002 := by decide +kernel
theorem test_f2i_flags : flags (exec (.f2i (one (.d 0)) true true ⟨.f32, ⟨false, false, false⟩⟩) (words 0xD01502F940200000 0)) = some 0x11 := by decide +kernel
/-- 10 R170: `fcvt` to e4m3 into d0, which holds 1. -/
theorem test_fcvt : d0 (exec (.fcvt (two (.d 0)) ⟨false, false, false⟩)
    (bench .ce (fun e => { e with d := e.d.set 0 1 }) [dataTok 0xBF80000043960000] [dataTok 0x41] [] [])) = some 0xB879 := by decide +kernel
/-- 10 R179: the worked `q4.q.bf16`. -/
theorem test_q4q : d0 (exec (.q4q (two (.d 0)) ⟨.bf16, ⟨false, false, false⟩⟩) (words 0x3F80C0003F003D20 0x000001FF3F800000)) = some 0xF0C70000 := by decide +kernel
theorem test_q4q_flags : flags (exec (.q4q (two (.d 0)) ⟨.bf16, ⟨false, false, false⟩⟩) (words 0x3F80C0003F003D20 0x000001FF3F800000)) = some 0x30 := by decide +kernel

/-! ### Ill-formed terms (spec 04 R64 to R73, R81, and the limits of the entries)

Each line is a term that breaks one check, on the kind on which it is tried. -/

/-- A term that the check refuses. -/
def refused (k : Kind) (hl : Bool) (is : List Instr) : Bool := is.all fun i => !i.wf k hl

/-- An R-form action with d0 and i0, legal for most one-operand instructions of a compute element. -/
def ok1 : RAct := ⟨.d 0, .ch 0, .zero, .data, .none, false⟩
def ok2 : RAct := ⟨.d 0, .ch 0, .ch 1, .data, .none, false⟩
def plainFp : FpCtl := ⟨.f32, ⟨false, false, false⟩⟩
def noFcs : Fcs := ⟨false, false, false⟩

/-- Registers on a kind that has none, an output tag without a channel, peek without a source channel, a wide operand where a narrow one is needed. -/
theorem test_illformed_operands :
    refused .xe false [.mov { ok1 with dst := .ch 0, sa := .d 0 }, .mov { ok1 with dst := .d 0 }, .mov { ok1 with dst := .ch 0, sa := .k }] &&
    refused .ce false [.add { ok2 with otag := .last } ⟨.w64, true, false⟩, .add { ok2 with sa := .d 1, sb := .d 2, peek := true } ⟨.w64, true, false⟩] &&
    refused .se false [.mov { ok1 with dst := .ch 2 }, .mov { ok1 with dst := .ch 0, sa := .ch 2 }, .barMem (.ch 2) 0 .none false,
      .sel { ok2 with dst := .ch 0, sa := .ch 0, sb := .ch 3 } 0] = true := by decide +kernel

/-- The common instructions. -/
theorem test_illformed_control :
    refused .ce false [.nop ok1, .nop { ok1 with dst := .none }, .mov ok2, .movi ⟨.none, .zero, 0, .none⟩, .movi ⟨.d 0, .ch 0, 0, .none⟩, .drop ok1,
      .drop { ok1 with dst := .none, sa := .d 0 }, .drop { ok1 with dst := .none, peek := true }, .drop { ok2 with dst := .none, sb := .d 1 },
      .route ok2, .route { ok2 with dst := .fan, sa := .d 0 }, .route { ok2 with dst := .fan, otag := .mark },
      .eos ok1 false false, .eos { ok1 with dst := .ch 0, sa := .d 0 } false false, .eos { ok2 with dst := .ch 0 } false false,
      .eos { ok1 with dst := .ch 0, otag := .mark } false false, .pand 0 0 .none, .por 0 0 .none, .pxor 0 0 .none, .pandn 0 0 .none,
      .cntAdd ⟨.d 0, .zero, 1, .none⟩, .cntAdd ⟨.c0, .d 0, 1, .none⟩, .cntSet ⟨.ch 0, .zero, 1, .none⟩, .flgRd ok1, .flgRd { ok1 with sa := .zero, sb := .ch 0 },
      .flgClr ⟨.d 0, .zero, 0, .none⟩, .flgClr ⟨.none, .ch 0, 0, .none⟩, .flgClr ⟨.none, .zero, 0x80, .none⟩,
      .barWch (.d 0) .zero 0 .none, .barWch .none .zero 0 (.result 0), .barMem (.d 0) 0 .none true, .stgAcq .none 0 .producer .none,
      .stgRel .zero 0 .producer .none, .tmrRd ok1 .ts, .tmrRd { ok1 with sa := .zero, sb := .ch 0 } .ts, .trap ⟨.d 0, .zero, 0, .none⟩, .brk ⟨.ch 0, .zero, 0, .none⟩,
      .specRd .none .flg .none, .specRd (.d 0) .tcnt .none, .specWr (.d 0) .pix .none] &&
    refused .xe false [.eos { ok1 with dst := .ch 0 } true false, .cntAdd ⟨.c0, .zero, 1, .none⟩, .cntSet ⟨.c0, .zero, 1, .none⟩, .specRd (.ch 0) .fpm .none,
      .specRd (.ch 0) .wave .none, .specWr (.ch 0) .fpm .none, .waveNx .none, .trap ⟨.none, .d 0, 0, .none⟩] = true := by decide +kernel

/-- Integer and lane instructions: kinds, `.sat`, lane widths, unused sb, and the limits of each entry. -/
theorem test_illformed_integer :
    refused .se false [.add { ok2 with dst := .ch 0 } ⟨.w64, true, false⟩, .addi ⟨.ch 0, .ch 0, 1, .none⟩, .shli ⟨.ch 0, .ch 0, 1, .none⟩] &&
    refused .ce false [.mulh ok2 ⟨.w64, true, true⟩, .div ok2 ⟨.w64, true, true⟩, .and ok2 ⟨.w64, false, true⟩, .mad { ok2 with dst := .ch 0 } ⟨.w64, true, false⟩,
      .neg ok2 ⟨.w64, true, false⟩, .not ok2 ⟨.w64, true, false⟩, .not ok1 ⟨.w64, true, true⟩, .shli ⟨.d 0, .ch 0, 0x40, .none⟩, .bfe ok2 ⟨.w32, false, false⟩,
      .bfi ok2 ⟨.w8, false, false⟩, .bfi { ok2 with dst := .ch 0 } ⟨.w64, false, false⟩, .ccmp ok2 ⟨.w64, true, .eq⟩, .pack ok2 ⟨.w8, true, false⟩,
      .unpk ok2 ⟨.w64, true, false⟩, .zpack { ok1 with dst := .c0 } ⟨.w8, false, false⟩, .zunpk { ok1 with dst := .c1 } ⟨.w8, false, false⟩,
      .zpack ok2 ⟨.w8, false, false⟩, .hash ok2 ⟨.w8, false, true⟩, .filt ok2 ⟨.w8, false, true⟩] &&
    refused .fe false [.vred ok2 ⟨.w8, false, false⟩, .filt ok2 ⟨.w8, false, false⟩, .zpack ok1 ⟨.w8, false, false⟩, .hash ok2 ⟨.w8, false, false⟩] = true := by decide +kernel

/-- Floating-point, conversion and function instructions. -/
theorem test_illformed_float :
    refused .ce false [.ffma { ok2 with dst := .ch 0 } plainFp, .fabs ok2 plainFp, .fcls ok2 plainFp, .fdot { ok2 with dst := .ch 0 } plainFp,
      .fdot ok2 { plainFp with fmt := .f64 }, .q4dq ok2 { plainFp with fmt := .bf16 }, .q4dq ok2 { plainFp with fmt := .f16 }, .rnd ok1 plainFp,
      .rnd { ok1 with sa := .zero, sb := .ch 0 } plainFp, .frnd ok1 (some .sr) plainFp, .frcp ok1 plainFp, .fdiv ok2 plainFp] &&
    refused .fe false [.frcp ok2 plainFp, .fsin ok2 plainFp] && refused .se false [.fadd { ok2 with dst := .ch 0 } plainFp] = true := by decide +kernel

/-- The M-form: kinds, operands, sizes, orders and FCS. -/
theorem test_illformed_memory :
    refused .ce false [.ld ⟨.d 0, .ch 0, .zero, .b8, .plain, .plot⟩ false, .ld ⟨.ch 0, .ch 0, .ch 1, .b8, .plain, .plot⟩ false,
      .ld ⟨.ch 0, .ch 0, .zero, .b8, .plain, .plot⟩ true, .st ⟨.d 0, .ch 0, .ch 1, .b8, .plain, .plot⟩, .amo ⟨.ch 0, .ch 0, .ch 1, .b2, .plain, .plot⟩ .add noFcs,
      .amo ⟨.ch 0, .ch 0, .ch 1, .b8, .nonTemporal, .plot⟩ .add noFcs, .amo ⟨.ch 0, .ch 0, .ch 1, .b8, .plain, .plot⟩ .add ⟨true, false, false⟩,
      .amoCas ⟨.ch 0, .ch 0, .d 1, .b8, .plain, .plot⟩, .amoCas ⟨.ch 0, .ch 0, .zero, .b8, .plain, .plot⟩,
      .red ⟨.none, .ch 0, .ch 1, .b8, .plain, .plot⟩ .xchg noFcs, .wfence (.d 0) .plot, .mseal (.d 0) (.ch 0) (.ch 1), .munseal .fan (.ch 0)] &&
    refused .fe false [.ld ⟨.ch 0, .ch 0, .zero, .b8, .plain, .plot⟩ false, .wfence .none .plot, .mseal .none (.ch 0) (.ch 1)] = true := by decide +kernel

/-- Privileged instructions off the headland, or in forms that their entries exclude. -/
theorem test_illformed_privileged :
    refused .ce false [.fltRd (.ch 0) .none, .rpr { ok2 with dst := .ch 0 } .resume, .frz { ok1 with dst := .none }] &&
    refused .fe true [.fltRd (.ch 0) .none, .polWr { ok2 with dst := .none }] &&
    refused .ce true [.rpr ok2 .resume, .rpr { ok2 with dst := .ch 0, upd := .result 0 } .kill, .rpr { ok2 with dst := .ch 0, otag := .mark } .kill,
      .rqRd { ok2 with dst := .ch 0 }, .frz { ok2 with dst := .none }, .polWr { ok2 with dst := .ch 0, peek := true }] = true := by decide +kernel

/-- Scratchpad, endpoint, engine and matrix instructions. -/
theorem test_illformed_units :
    refused .se false [.tileNew ok1, .tileNew { ok1 with dst := .ch 0, sa := .zero }, .tileNew { ok1 with dst := .ch 0, otag := .last }, .tileFree { ok1 with dst := .ch 0 },
      .tileShp { ok1 with dst := .ch 0 }, .tileRd { ok2 with dst := .ch 0 }, .tileRd { ok2 with dst := .ch 2, upd := .result 0 }, .tileGat { ok1 with dst := .ch 2 },
      .tileWr { ok2 with dst := .ch 0 }, .tileAcc { ok2 with dst := .ch 0 } noFcs, .tileFil { ok1 with dst := .none }, .tileQry { ok1 with dst := .none },
      .bankRd { ok1 with dst := .none }, .hashSet { ok1 with dst := .ch 0 }] &&
    refused .le false [.strmOpn { ok2 with dst := .none, sb := .ch 2 } 0, .strmOpn { ok1 with dst := .none, sa := .zero } 0, .strmCls { ok1 with dst := .none } 0,
      .strmSt { ok1 with dst := .none, sa := .zero } 0, .tlbPf { ok1 with dst := .none, upd := .result 0 }, .wpArm { ok1 with dst := .none } 0 .rd,
      .cmbFl { ok1 with dst := .none }] &&
    refused .ce false [.sbar 0 .none, .tileNew { ok1 with dst := .ch 0 }] &&
    refused .xe false [.cpy ⟨.ch 0, .ch 0, .ch 1, .plot⟩, .cpy ⟨.d 0, .ch 0, .zero, .plot⟩, .rdcTree ⟨.ch 0, .ch 0, .zero, .device⟩ noFcs,
      .drillPush ⟨.ch 0, .ch 0, .ch 1, .system⟩ 1, .adPf ⟨.ch 0, .ch 0, .zero, .plot⟩ 0 false false, .gat ⟨.ch 0, .d 0, .zero, .plot⟩] &&
    refused .me false [.mma ⟨.row, 0, .ch 2, .zero, .none, .none, false, noFcs⟩, .mma ⟨.inner, 0, .ch 0, .ch 2, .none, .none, false, noFcs⟩,
      .accClr ⟨0, .ch 0, .none, .none⟩, .accRd ⟨0, .zero, .none, .none⟩ noFcs, .accLd ⟨0, .ch 0, .none, .none⟩, .accRel ⟨0, .zero, .ch 0, .none⟩ noFcs,
      .adInv ⟨1, .ch 0, .none, .none⟩, .meCnt ⟨0, .zero, .ch 2, .none⟩, .meIdl ⟨0, .zero, .ch 0, .none⟩] = true := by decide +kernel

/-- The steps of the device are no configuration. -/
theorem test_illformed_steps : refused .ce true [.firingBeat ⟨0, 0⟩, .drillStep, .powerUp, .settleScan 0] = true := by decide +kernel

/-- Triggers and slots (spec 04 R64, R72): a tag test without a channel, a PV bit outside PM, W > 4 with a wide channel; a source that is not in IC, a width that
the entry excludes, a fan write without a fan mask, and one to narrow and wide outputs at once. -/
theorem test_illformed_slots :
    !Trig.wf .ce ⟨0, .w1, 0, some ⟨false, .last⟩, 0, 0⟩ && !Trig.wf .ce ⟨0, .w1, 0, none, 1, 3⟩ && !Trig.wf .se ⟨0, .w8, 4, none, 0, 0⟩ &&
    !Slot.wf .ce false 0 ⟨⟨0, .w1, 0, none, 0, 0⟩, .mov ok1⟩ && !Slot.wf .xe false 0 ⟨⟨0, .w2, 1, none, 0, 0⟩, .cpy ⟨.ch 0, .ch 0, .zero, .plot⟩⟩ &&
    !Slot.wf .ce false 0 ⟨⟨0, .w1, 1, none, 0, 0⟩, .mov { ok1 with dst := .fan }⟩ &&
    !Slot.wf .se false 6 ⟨⟨0, .w1, 1, none, 0, 0⟩, .mov { ok1 with dst := .fan }⟩ &&
    !Slot.wf .se false 0 ⟨⟨0, .w8, 0, none, 0, 0⟩, .mov { ok1 with dst := .ch 2, sa := .zero }⟩ = true := by decide +kernel

/-! ### Words written out from the encodings (spec 04 R63 to R80 and the entries) -/

/-- The program word of one action of each family, from the manual's own encodings. -/
theorem test_decode_control :
    decodeAction .ce false 0x17B3FFEC#32 = .ok (.cntAdd ⟨.c0, .ch 1, 0xFFF#12, .result 4⟩) ∧
    decodeAction .ce false 0x21980060#32 = .ok (.barArv 3 .none) ∧ decodeAction .ce false 0x23200032#32 = .ok (.barWch (.ch 1) (.d 0) 1 (.one 2)) ∧
    decodeAction .se false 0x27180140#32 = .ok (.stgAcq (.ch 0) 2 .consumer .none) := ⟨rfl, rfl, rfl, rfl⟩
theorem test_decode_integer : decodeAction .ce false 0x7A70A28E#32 = .ok (.cmp ⟨.d 3, .ch 0, .d 5, .data, .result 2, false⟩ ⟨.w32, true, .lt⟩) := rfl
theorem test_decode_float :
    decodeAction .ce false 0xA650A00C#32 = .ok (.ffma ⟨.d 2, .ch 0, .d 5, .data, .none, false⟩ ⟨.f32, ⟨true, false, false⟩⟩) ∧
    decodeAction .ce false 0xBA318008#32 = .ok (.f2i ⟨.d 1, .ch 0, .zero, .data, .none, false⟩ true true ⟨.f32, noFcs⟩) := ⟨rfl, rfl⟩
theorem test_decode_memory :
    decodeAction .le false 0xD5113B48#32 = .ok (.amo ⟨.ch 0, .ch 0, .ch 1, .b8, .ordered, .device⟩ .fadd noFcs) ∧
    decodeAction .ce false 0xD1099B00#32 = .ok (.ld ⟨.ch 0, .d 4, .zero, .b8, .ordered, .device⟩ false) ∧
    decodeAction .ce false 0xD3313B00#32 = .ok (.st ⟨.ch 1, .ch 0, .ch 1, .b8, .ordered, .device⟩) := ⟨rfl, rfl, rfl⟩
theorem test_decode_privileged :
    decodeAction .ce true 0xE3318000#32 = .ok (.rpr ⟨.ch 1, .ch 0, .zero, .data, .none, false⟩ .resume) ∧
    decodeAction .ce true 0xE1198000#32 = .ok (.fltRd (.ch 0) .none) ∧ decodeAction .ce false 0xE1198000#32 = .error .reservedOpcode := ⟨rfl, rfl, rfl⟩
theorem test_decode_units :
    decodeAction .se false 0x47512000#32 = .ok (.tileRd ⟨.ch 2, .ch 0, .ch 1, .data, .none, false⟩) ∧
    decodeAction .xe false 0x57112002#32 = .ok (.drillPush ⟨.ch 0, .ch 0, .ch 1, .plot⟩ 2) ∧
    decodeAction .me false 0x40B57540#32 = .ok (.mma ⟨.outer, 1, .ch 2, .ch 3, .i0, .result 2, false, noFcs⟩) ∧
    decodeAction .me false 0x44190000#32 = .ok (.accRd ⟨0, .zero, .ch 0, .none⟩ noFcs) := ⟨rfl, rfl, rfl, rfl⟩
/-- Function and endpoint opcodes: 0x70 `frcp` d0, i0 in f32, and 0x26 `cmb.fl` without a destination. -/
theorem test_decode_special :
    decodeAction .fe false 0xE0118008#32 = .ok (.frcp ⟨.d 0, .ch 0, .zero, .data, .none, false⟩ plainFp) ∧
    decodeAction .le false 0x4D998000#32 = .ok (.cmbFl ⟨.none, .zero, .zero, .data, .none, false⟩) := ⟨rfl, rfl⟩
/-- The encoded statement of spec 04, and the words of a loaded program (spec 98). -/
theorem test_decode_slot : decodeSlot .ce false 0 0xA2B90A02A53152D4#64 =
    .ok (some ⟨⟨2, .w2, 5, some ⟨true, .last⟩, 0x0A, 0x02⟩, .fmul ⟨.ch 1, .ch 0, .ch 2, .mark, .result 3, false⟩ ⟨.bf16, ⟨true, false, false⟩⟩⟩) := rfl
/-- A step fires a placed word: `cmp.lt.i32 d3, i0, d5 -> p2` on zeros writes d3 and p2. -/
theorem test_step_fires : (match Machine.step (State.reset.withFetchWord 32 0x7A70A28E) with
    | .next s => (Machine.getElem s ⟨0, 0⟩).firedAt
    | _ => 0) = 1 := by decide +kernel

/-! ### Witnesses: what the hypotheses of the statements ask for can be met

A beat that can run: a description of an action, a state, and what the statement asks of the operands besides. -/

open Sys2Proof.Say

/-- The description's beat can run at the state's cursor and reads operands that meet c. -/
def firesB (sp : FireSpec) (s : State) (c : BeatIn → Bool) : Bool :=
  (Machine.getElem s s.sched.cur.l).present && beatReady sp s && (match beatIn sp s with | some x => c x | none => false) &&
    decide (s.sched.cur.mode = .normal)

/-- Each beat of a list can run as the statements ask. -/
def meets (ws : List (FireSpec × State × (BeatIn → Bool))) : Prop := ∀ w ∈ ws, ∃ x, Fires w.1 w.2.1 x ∧ w.2.2 x = true

theorem meets_of {ws : List (FireSpec × State × (BeatIn → Bool))} (h : (ws.all fun w => firesB w.1 w.2.1 w.2.2) = true) : meets ws := by
  intro w hw
  have h := List.all_eq_true.mp h w hw
  simp only [firesB, Bool.and_eq_true, decide_eq_true_eq] at h
  obtain ⟨⟨⟨hp, hr⟩, hx⟩, hm⟩ := h
  cases hb : beatIn w.1 w.2.1 with
  | none => rw [hb] at hx; cases hx
  | some x => rw [hb] at hx; exact ⟨x, ⟨hp, hr, hb, hm⟩, hx⟩

def any : BeatIn → Bool := fun _ => true

/-- The code of a kind (spec 08 R129). -/
def code : Kind → Nat
  | .ce => 0
  | .fe => 1
  | .se => 2
  | .le => 3
  | .xe => 4
  | .me => 5

/-- The state in which the next step fires an action that is placed on an element of a kind, with the cursor there and a token of value v n on input n
where v gives one. -/
def placed (k : Kind) (i : Instr) (v : Fin 4 → Option Nat := fun _ => none) (hl : Bool := false) : State :=
  let l : Loc := ⟨if hl then 512 else 0, firstSite k⟩
  let w := (encodeTrig (placedTrig i) ++ (encodeAction i).getD 0).toNat + code k * 2 ^ 64 + if hl then 2 ^ 67 else 0
  let s := modElem (State.reset.withFetchWord 68 w) l fun e => { e with ins := Vector.ofFn fun n => match v n with
    | some x => fullInput (inDepth k n) fun _ => BitVec.ofNat 64 x
    | none => e.ins[n] }
  modSched s fun c => { c with cur := { l := l } }

/-- Values for i0 and i1, and for i2. -/
def give (a : Nat) (b : Nat := 0) (c : Nat := 0) : Fin 4 → Option Nat := fun n => some (match n with | 0 => a | 1 => b | 2 => c | _ => 0)

def ctl : IntCtl := ⟨.w32, true, false⟩
def imm (d : Dst) (v : BitVec 12) : IAct := ⟨d, .ch 0, v, .none⟩

theorem witness_IntegerArithmetic : meets [(shapeR (two (.d 0)), words 3 5, any), (shapeR3 (two (.d 0)), words 3 5, any), (shapeR (one (.d 0)), words 3 5, any)] :=
  meets_of (by decide +kernel)
theorem witness_IntegerArithmetic_wf : ((Instr.and ok2 ⟨.w64, false, false⟩).wf .ce false && (Instr.or ok2 ⟨.w64, false, false⟩).wf .ce false &&
    (Instr.xor ok2 ⟨.w64, false, false⟩).wf .fe false && (Instr.andn ok2 ⟨.w64, false, false⟩).wf .fe false &&
    (Instr.not ok1 ⟨.w64, false, false⟩).wf .ce false) = true := by decide +kernel
theorem witness_Division : meets [(shapeR (two (.d 0)), words 7 0, any)] := meets_of (by decide +kernel)
theorem witness_ShiftsAndBitFields : meets [(shapeR (two (.d 0)), words 1 31, any), (shapeR3 (two (.d 0)), words 1 31, any),
    (shapeI (imm (.d 0) 0xFFF), words 1 0, any)] ∧ (Instr.shli (imm (.d 0) 0x3F)).wf .ce false = true := ⟨meets_of (by decide +kernel), by decide +kernel⟩
theorem witness_ComparisonsAndLaneMoves : meets [(shapeR (two (.d 0) (.result 7)), words 1 31, any)] := meets_of (by decide +kernel)
theorem witness_LaneSumsAndCompaction : meets [(shapeR (two (.d 0)), words 1 31, any)] ∧
    ((Instr.filt ok2 ⟨.w8, false, false⟩).wf .ce false && (Instr.xpnd ok2 ⟨.w8, false, false⟩).wf .ce false && (Instr.hash ok2 ⟨.w8, false, false⟩).wf .ce false) = true :=
  ⟨meets_of (by decide +kernel), by decide +kernel⟩
theorem witness_MovesAndPredicates : meets [(shapeR (one (.ch 3)), words 3 5, any), (shapeI (imm (.d 7) 0xFFF), words 3 5, any),
    (shapeR (two .fan), words 3 1, fun x => (fanOuts x.e)[x.b.toWord.toNat % (fanOuts x.e).length]? == some 1),
    (shapeR (two .fan), words 3 4, fun x => (fanOuts x.e)[x.b.toWord.toNat % (fanOuts x.e).length]? == some 0),
    (shape .none .zero .zero (.result 0), words 0 0, any)] := meets_of (by decide +kernel)
theorem witness_CountersAndSpecialRegisters : meets [(shapeI ⟨.c0, .zero, 0xFFF, .none⟩, words 0 0, any), (shapeI ⟨.c1, .zero, 1, .none⟩, words 0 0, any),
    (shapeI ⟨.c0, .ch 1, 1, .none⟩, words 0 0, any), (shapeR ⟨.d 0, .zero, .zero, .data, .none, false⟩, words 0 0, any), (shapeRest .none, words 0 0, any),
    (shape (.d 0) .zero .zero .none, words 0 0, any), (shape .none (.ch 0) .zero .none, words 0x7F 0, any)] := meets_of (by decide +kernel)
/-- The context of plot 0 (context 0, with no section) with its breakpoints on. -/
def breaking : State := { words 9 0 with ctxs := [(0, { ccfg := 0x80 })] }
/-- The cursor at the second of two beats. -/
def second (s : State) : State := modSched s fun c => { c with cur := { c.cur with beats := 2, beat := 1 } }
theorem witness_SoftwareTraps : meets [(shapeI (imm .none 5), words 9 0, fun x => x.s.sched.cur.beat == 0), (shapeI (imm .none 5), breaking, fun x => x.brkEn && x.s.sched.cur.beat == 0),
    (shapeI (imm .none 5), words 9 0, fun x => !x.brkEn), (shapeI (imm .none 5), second breaking, fun x => x.brkEn && x.s.sched.cur.beat != 0)] :=
  meets_of (by decide +kernel)

/-- A section of one plot, with e0 in barrier group 0, that holds plot 0 of a state. -/
def section1 : Parcel := { sites := [(0, 1)], bars := [(0, { members := [(0, 1)] })] }
def sect (p : Parcel) (s : State) : State := modPlot { s with parcels := [(1, p)] } 0 fun q => { q with parcel := some 1 }
def rings (r : Ring) (s : State) : State := modPlot s 0 fun p => { p with rings := [(7, r)], tiles := [(0, { alloc := true, level := 1, fmt := 1, rows := 1, rb := 64, size := 64 })] }
/-- An element e0 of a section, changed. -/
def e0 (f : Elem → Elem) (s : State) : State := modElem s ⟨0, 0⟩ f
def loc0 : Loc := ⟨0, 0⟩

/-- e0's arrival and watch. -/
def arrived0 : Arrival := { group := 0, gen := 0, done := false, counted := false, countAt := some 5, after := [] }
def watch0 : Watch := { group := 0, target := 0, armedAt := 0, expireAt := some 5, upd := .none, rid := 0 }
theorem witness_BarrierInstructions : meets [
    (shapeArv 0 .none, sect section1 (words 0 0), fun x => barMember (barOf x.s 0 0) x.l),
    (shapeArv 31 .none, sect section1 (words 0 0), fun x => !barMember (barOf x.s 0 31) x.l),
    (shapeWch (.ch 0) (.ch 0), words 0xFFFFFFFF 0, fun x => x.a.toWord.toNat < 2 ^ 32), (shapeWch .none (.ch 0), words 0x100000000 0, fun x => 2 ^ 32 ≤ x.a.toWord.toNat),
    (shapeMem (.ch 0) (.result 0) false, sect section1 (words 1 0), fun x => (proposal x.s 0 x.a.toWord).isSome),
    (shapeMem (.ch 0) .none true, sect section1 (words 2 0), fun x => (proposal x.s 0 x.a.toWord).isNone)] ∧
  (Machine.getElem (words 0 0) loc0).arrival = none ∧ (words 0 0).sched.cur.beat = 0 ∧ (second (words 0 0)).sched.cur.beat ≠ 0 ∧
  ((Machine.getElem (e0 (fun e => { e with arrival := some arrived0 }) (words 0 0)) loc0).arrival = some arrived0 ∧ arrived0.group ≠ 31 ∧ arrived0.done = false) :=
  ⟨meets_of (by decide +kernel), by decide +kernel⟩
theorem witness_StageRings : meets [
    (shapeAcq (.d 0) 7 .producer .none, rings { stages := [{ handle := 0 }], grantP := some 0 } (words 0 0), fun x => (ringOf x.s 0 7).isSome),
    (shapeAcq (.d 0) 7 .consumer .none, rings { stages := [{ full := true, handle := 0 }], grantC := some 0 } (words 0 0), fun x => (ringOf x.s 0 7).isSome),
    (shapeRel (.ch 0) 7 .producer .none, rings { stages := [{ owner := 0, handle := 0 }] } (words 0xF0000100 0), fun x => (releaseOf x.s x.l 7 .producer x.a.toWord).isSome),
    (shapeRel (.ch 0) 7 .consumer .none, rings { stages := [{ owner := 0, handle := 0 }] } (words 0xF0000100 0), fun x => (releaseOf x.s x.l 7 .consumer x.a.toWord).isNone)] :=
  meets_of (by decide +kernel)
/-- A section in its cycle 5, with a completion of generation 0 that is observed. -/
def section5 (b : BarGroup) : Parcel := { section1 with cycles := 5, bars := [(0, b)] }
def waiting (b : BarGroup) (w : Watch) : State := sect (section5 b) (e0 (fun e => { e with arrival := some arrived0, watch := some w }) (words 0 0))
theorem witness_BarrierSteps :
    (let s := waiting { members := [(0, 1)] } watch0
     (Machine.getElem s loc0).arrival = some arrived0 ∧ (Machine.getElem s loc0).late = [] ∧ plotStopped s 0 = false ∧ membersKnown s 0 = true ∧
     (Tbl.find s.parcels 1).isSome = true ∧ arrived0.countAt = some 5 ∧ arrived0.counted = false ∧ 5 ≤ syncNow s 0 ∧ (getPlot s 0).parcel = some 1 ∧
     (Machine.getElem s loc0).watch = some watch0 ∧ watchRuns s loc0 = true ∧ watchSees s loc0 watch0 = false ∧ watch0.expireAt = some 5 ∧ watch0.rid = 0 ∧ watch0.upd = .none) ∧
    (let s := waiting { members := [(0, 1)], gen := 1, seen := [(0, 5)] } watch0
     (Machine.getElem s loc0).watch = some watch0 ∧ watchRuns s loc0 = true ∧ watchSees s loc0 watch0 = true) := by decide +kernel

/-! Floating point: the statements ask for a beat that can run, and of some operands that they are, or are not, what the entry asks. -/

theorem witness_FloatArithmetic : meets [(shapeR (two (.d 0)), words 0x3F800000 0x40000000, any), (shapeR3 (two (.d 0)), words 0x3F800000 0x40000000, any)] :=
  meets_of (by decide +kernel)
theorem witness_FloatComparisons : meets [(shapeR (two (.d 0)), words 0x7FC00000 0x40000000, any), (shapeR (one (.d 0)), words 0 0, any)] := meets_of (by decide +kernel)
theorem witness_Conversions : meets [(shapeR3 (two (.d 0)), words 1 0x41, fun x => (cvtDesc x.b.toWord).any fun d => d.rnd != 4),
    (shapeR3 (two (.d 0)), words 1 0x441, fun x => (cvtDesc x.b.toWord).any fun d => d.rnd == 4 && !x.e.err),
    (shapeR3 (two (.d 0)), words 1 0xFFFFFFFF, fun x => (cvtDesc x.b.toWord).isNone), (shapeR (one (.d 0)), words 1 0, any), (shapeR (two (.d 0)), words 1 1, any)] :=
  meets_of (by decide +kernel)
def bf16 : FpCtl := ⟨.bf16, ⟨false, false, false⟩⟩
theorem witness_QuantisedAndRandom : meets [(shapeR (two (.d 0)), words 1 0x3F800000, fun x => (q4Word bf16 x.b.toWord).isSome),
    (shapeR (two (.d 0)), words 1 0x1000000000000, fun x => (q4Word bf16 x.b.toWord).isNone),
    (shapeR3 (two (.d 0)), words 1 0x3F800000, fun x => (q4Word bf16 x.b.toWord).isSome), (shapeR3 (two (.d 0)), words 1 0x1000000000000, fun x => (q4Word bf16 x.b.toWord).isNone),
    (shapeR (two (.d 0)), words 1 0xFFFF, fun x => x.b.toWord.extractLsb' 16 16 == 0), (shapeR (two (.d 0)), words 1 0x10000, fun x => x.b.toWord.extractLsb' 16 16 != 0)] :=
  meets_of (by decide +kernel)
theorem witness_SpecialFunctions : meets [(shapeR (one (.d 0)), bench .fe id [dataTok 0x3F800000] [] [] [], any), (shapeR (two (.d 0)), bench .fe id [dataTok 1] [dataTok 0] [] [], any)] :=
  meets_of (by decide +kernel)
/-- One in f32, and the values next to a bound of a rounding. -/
theorem witness_Rounding : 0x3F800000 < 2 ^ fmtWidth .f32 ∧ unpack .f32 0x3F800000 = .fin false 8388608 (-23) ∧ isSubnormal .f32 0x3F800000 = false ∧
    unpack .f32 1 = .fin false 1 (-149) ∧ Fmt.f32 ≠ .e4m3 ∧ (1 : Nat) ≠ 0 := by decide +kernel

/-! Memory: requests at their homes. -/

def mAct (d : Dst) (a b : Src) : MAct := ⟨d, a, b, .b8, .plain, .device⟩
theorem witness_MemoryIssue : meets [(shapeM (.ch 0) (.ch 0) .zero, words 64 0, any), (shapeM .none (.ch 0) (.ch 1), words 64 7, any),
    (shapeM (.ch 0) (.ch 0) (.ch 1), words 64 7, any), (shapeM .none .zero .zero, words 0 0, any),
    (shapeCas (mAct (.ch 0) (.ch 0) (.ch 1)), bench .ce id [dataTok 64] [dataTok 1, dataTok 2] [] [], any)] ∧
  (let s := bench .ce id [dataTok 64] [dataTok 1, dataTok 2] [] []
   ((inPort (Machine.getElem s loc0) 1).q.es[1]?.bind (·.body)) = some (dataTok 2)) := ⟨meets_of (by decide +kernel), by decide +kernel⟩

/-- A state that holds requests, the first of them number 1, of e0's wave 0, on context 0. -/
def asking (qs : List Req) (f : State → State := id) : State := f { words 0 0 with reqs := qs, sched := { nextId := 9 } }
def req (op : ReqOp) (ph : Phase) (n : Nat := 8) (va : Nat := 0x1000) : Req :=
  { id := 1, thr := .wave loc0 0, issuer := loc0, le := ⟨0, 24⟩, op := op, va := va, size := n, algn := n, data := 7, data2 := 9, phase := ph, place := 1 }
/-- The request of a state, which has entered and can act. -/
theorem enters (q : Req) (f : State → State) (h : findReq (asking [q] f) q.id = some q) (hp : q.phase = .entered) (hd : depsDone (asking [q] f) q.after = true)
    (ht : threadWaits (asking [q] f) q.le q.thr q.place = false) : Enters (asking [q] f) q := ⟨h, hp, hd, ht⟩
/-- A fence alone, and one that follows a request that is not performed. -/
theorem witness_MemoryIssue_fence :
    Enters (asking [req .fence .entered]) (req .fence .entered) ∧ (req .fence .entered).op = .fence ∧ (∀ r ∈ (asking [req .fence .entered]).reqs, r.id < 9) ∧
    (let q := { req .fence .entered with after := [(2, .plot)] }; let s := asking [q, { req .store .entered with id := 2 }]
     findReq s q.id = some q ∧ q.phase = .entered ∧ depsDone s q.after = false) :=
  ⟨enters _ _ (by decide +kernel) (by decide +kernel) (by decide +kernel) (by decide +kernel), by decide +kernel, by decide +kernel, by decide +kernel⟩
def seals (n : Nat) (s : State) : State := { s with ctxs := [(0, { seals := (List.range n).map fun k => (0x10000 * k, 0x10000) })] }

theorem witness_Seals : meets [(shapeM .none (.ch 0) (.ch 1), words 0xFFFFFFFFF0000 0x10000, fun x => sealRangeOk x.a.toWord x.b.toWord),
    (shapeM .none (.ch 0) (.ch 1), words 0xFFFFFFFFF0000 0x20000, fun x => !sealRangeOk x.a.toWord x.b.toWord), (shapeM .none (.ch 0) .zero, words 0x10000 0, any)] ∧
  (let q := req (.seal 0x10000) .entered 8 0x400000
   (Enters (asking [q] (seals 63)) q ∧ Enters (asking [q] (seals 64)) q ∧ Enters (asking [q] (seals 65)) q) ∧
   (∀ n ∈ [63, 64, 65], (asking [q] (seals n)).reqs.any (holdsSealed (asking [q] (seals n)) 0 q.va 0x10000) = false) ∧
   (getCtx (asking [q] (seals 63)) 0).seals.any (fun x => overlaps x.1 x.2 q.va 0x10000) = false ∧
   (getCtx (asking [q] (seals 64)) 0).seals.any (fun x => overlaps x.1 x.2 q.va 0x10000) = false ∧ (getCtx (asking [q] (seals 64)) 0).seals.length = 64 ∧
   (getCtx (asking [q] (seals 65)) 0).seals.any (fun x => overlaps x.1 x.2 q.va 0x10000) = true) ∧
  (let q := req .unseal .entered 8 0x10000
   (Enters (asking [q] (seals 2)) q ∧ Enters (asking [q] (seals 1)) q) ∧ (getCtx (asking [q] (seals 2)) 0).seals.any (fun x => x.1 == q.va) = true ∧
   (getCtx (asking [q] (seals 1)) 0).seals.any (fun x => x.1 == q.va) = false) := by
  refine ⟨meets_of (by decide +kernel), ⟨⟨enters _ _ ?_ ?_ ?_ ?_, enters _ _ ?_ ?_ ?_ ?_, enters _ _ ?_ ?_ ?_ ?_⟩, ?_⟩, ⟨enters _ _ ?_ ?_ ?_ ?_, enters _ _ ?_ ?_ ?_ ?_⟩, ?_⟩ <;>
    decide +kernel

theorem atHome (op : ReqOp) (n pa : Nat) (h : (isStoreOp op && sealedRange (asking [req op (.translated pa false) n]) 0 0x1000 n) = false)
    (ho : orderOk (asking [req op (.translated pa false) n]) (req op (.translated pa false) n) = true) :
    AtHome (asking [req op (.translated pa false) n]) (req op (.translated pa false) n) pa false :=
  ⟨by simp [asking, findReq, req], rfl, rfl, ho, h⟩
theorem quiescent (op : ReqOp) (n pa : Nat) (h : pa < 2 ^ 39) : Quiescent (asking [req op (.translated pa false) n]) (req op (.translated pa false) n) pa :=
  ⟨h, by intro r hr; simp [asking] at hr; subst hr; simp [portHolds, req], rfl⟩
/-- The last bytes of HBM. -/
def top : Nat := 2 ^ 39 - 8
theorem witness_HomeAccesses :
    (∀ op ∈ [ReqOp.load true, .store, .amo .fadd noFcs, .red .add noFcs, .cas],
      AtHome (asking [req op (.translated top false)]) (req op (.translated top false)) top false ∧
      Quiescent (asking [req op (.translated top false)]) (req op (.translated top false)) top) ∧
    Memory.wf (asking []).mem = true ∧ (∀ d, (getDie (asking []) d).wps = Vector.replicate 8 {}) ∧
    (let q := req .store (.atPort top)
     findReq (asking [q]) 1 = some q ∧ ∀ r ∈ (asking [q]).reqs.takeWhile (fun r => r.id != q.id), portHolds q.issuer.plot top q.size r = false) := by
  refine ⟨?_, by decide +kernel, fun _ => rfl, by decide +kernel⟩
  intro op h
  simp only [List.mem_cons, List.not_mem_nil, or_false] at h
  rcases h with rfl | rfl | rfl | rfl | rfl <;> exact ⟨atHome _ _ _ (by decide +kernel) (by decide +kernel), quiescent _ _ _ (by decide)⟩

/-- A page of 64 KiB at 0x10000 of context 0 in the tables at 0x10000 of HBM, whose leaf leads to 0x40000. -/
def cells (a : Nat) (v : Nat) : List Host.Cell := (bytesOf 8 v).mapIdx fun i b => (a + i, b)
def pagedWith (xs : List Host.Cell) (s : State) : State :=
  { s with ctxs := [(0, { troot := 0x10000, ccfg := 1 })]
           mem := [(0x10000, 1), (0x10002, 2), (0x20000, 1), (0x20002, 3), (0x30000, 1), (0x30002, 5)] ++ xs ++ [(0x50008, 7), (0x5000A, 4)] }
def paged : State → State := pagedWith []
def missing (q : Req) : State := modDie (paged (asking [q])) 0 fun d => { d with misses := [⟨5, 0, 0x10000, false⟩] }
def page0 : Page := ⟨0x10000, 0x10000, 0x40000, true, false⟩
theorem witness_MemorySteps :
    (let q := { req .store .waiting with pred := 3 }
     let s := asking [q] (e0 fun e => { e with waveSeen := [3] })
     findReq s 1 = some q ∧ q.phase = .waiting ∧ q.thr = waveThread s q.issuer ∧ (Machine.getElem s q.issuer).waveSeen.contains q.pred = true) ∧
    (let q := req .store .entered 8 (2 ^ 52 - 4)
     Enters (asking [q]) q ∧ orderOk (asking [q]) q = true ∧ q.bad = false ∧ q.va < 2 ^ 52 ∧ q.va % q.algn ≠ 0) ∧
    (let q := req .store .entered 8 0x1FFF8
     Enters (asking [q] (seals 2)) q ∧ orderOk (asking [q] (seals 2)) q = true ∧ q.bad = false ∧ q.va % q.algn = 0 ∧
     q.watch = false ∧ sealedRange (asking [q] (seals 2)) q.ctx q.va q.size = true) ∧
    (let q := req (.load false) (.walking 0 5) 8 0x1FFF8
     let s := missing q
     (getDie s 0).misses.find? (fun x => x.id == 5) = some ⟨5, 0, 0x10000, false⟩ ∧ walk s 0 0x10000 = some page0 ∧ (∀ q ∈ s.reqs, isStoreOp q.op = false) ∧
     (s.reqs.map fun q => q.id).Nodup ∧ page0.va ≤ 0x10000 ∧ 0x10000 < page0.va + page0.size ∧ ∃ r ∈ s.reqs, r.phase = .walking 0 5) ∧
    (let q := { req (.load false) (.performed 7 0x10) with rid := 3 }
     findReq (asking [q]) 1 = some q ∧ q.thr = .wave loc0 0 ∧ q.discard = false ∧ q.rid ≠ 0) ∧
    (let q := { req (.load false) (.performed 7 0x10) with rid := 3, discard := true }
     findReq (asking [q]) 1 = some q ∧ q.thr = .wave loc0 0) ∧
    (let c : CombLine := { pa := 2 ^ 51, thr := .wave loc0 0, bytes := [], reqs := [], opened := 0 }
     let s := modSched (modLe (asking []) ⟨0, 24⟩ fun u => { u with comb := [c] }) fun k => { k with cycle := 5400 }
     (getLe s ⟨0, 24⟩).comb[0]? = some c ∧ c.opened + 5400 ≤ now s ∧ plotStopped s 0 = false) ∧
    (let q := req .store .combining; q ∈ (asking [q]).reqs ∧ q.id ∈ ({ pa := 2 ^ 51, thr := .wave loc0 0, bytes := [], reqs := [1], opened := 0 } : CombLine).reqs) ∧
    (let r : Result := { id := 4, rid := 3, tok := {} }
     ({ asking [] with results := [r] } : State).results.find? (fun x => x.id == r.id) = some r) := by
  refine ⟨?_, ⟨enters _ _ ?_ ?_ ?_ ?_, ?_⟩, ⟨enters _ _ ?_ ?_ ?_ ?_, ?_⟩, ?_⟩ <;> decide +kernel

/-! Endpoints and scratchpads. -/

def rAct (d : Dst) (a b : Src := .zero) : RAct := ⟨d, a, b, .data, .none, false⟩
theorem witness_EndpointInstructions : meets [
    (shapeOpn (rAct (.ch 0) (.ch 0) (.ch 1)) 7, placed .le (.strmOpn (rAct (.ch 0) (.ch 0) (.ch 1)) 7), any),
    (shapeR (rAct .none .zero), placed .le (.strmCls (rAct .none .zero) 7), any), (shape .none .zero .zero .none, placed .le (.sbar 0xFF .none), any),
    (shape (.ch 0) .zero .zero .none, placed .le (.strmSt (rAct (.ch 0) .zero) 7), any), (shapeAsync (rAct (.ch 0) (.ch 0)), placed .le (.tlbPf (rAct (.ch 0) (.ch 0))), any),
    (shapeR (rAct .none (.ch 0) (.ch 1)), placed .le (.wpArm (rAct .none (.ch 0) (.ch 1)) 1 .rw) (give 0 1), fun x => x.b.toWord != 0),
    (shapeR (rAct .none (.ch 0) (.ch 1)), placed .le (.wpArm (rAct .none (.ch 0) (.ch 1)) 1 .rw) (give 0 0), fun x => x.b.toWord == 0),
    ({ shape (.ch 0) .zero .zero .none with async := true }, placed .le (.cmbFl (rAct (.ch 0) .zero)), any)] := meets_of (by decide +kernel)
/-- A translation that the endpoint's buffer holds. -/
def buffered (q : Req) : State := asking [q] fun s => modLe s ⟨0, 24⟩ fun u => { u with tlb := [⟨0, 0, 0x10000, 0x40000, true, false⟩] }
theorem witness_EndpointInstructions_steps :
    (let q := req .prefetch .entered
     (findReq (buffered q) q.id = some q ∧ q.phase = .entered ∧ depsDone (buffered q) q.after = true ∧ threadWaits (buffered q) q.le q.thr q.place = false) ∧
     (tlbLookup (buffered q) q.le q.ctx q.va).isSome = true) ∧
    (WpMode.rw ≠ .off ∧ Dst.ch 0 ≠ .none ∧ State.reset.sched.nextId ≠ 0) := by decide +kernel

/-- An endpoint at e24 whose stream 7 is changed, with routes on its outputs. -/
def le24 : Loc := ⟨0, 24⟩
def streaming (st : Stream) (reqs : List Req := []) : State :=
  modStream { bench .ce id [] [] [] [] with elems := [(1, { present := true, kind := .le }), (24, benchElem .le [] [] [] [])], reqs := reqs, sched := { nextId := 9 } } le24 7 fun _ => st
/-- A record that loads three words at 0x1000, 8 apart, for o0, and one whose element size is reserved; its first 16 bytes and its dimensions. -/
def record (esz : Nat) : List Host.Cell :=
  (((bytesOf 8 0x2000 ++ [BitVec.ofNat 8 esz, 1, 0, 0, 0, 0, 12, 0]).mapIdx fun i b => (0x1000 + i, b)) ++ (bytesOf 4 3 ++ bytesOf 4 8).mapIdx fun i b => (0x1018 + i, b)).filter fun c => c.2 != 0
def opening (base : Option Word) : Req :=
  { id := 1, thr := .stream le24 7, issuer := le24, le := le24, op := .pattern base, va := 0x1000, size := 64, algn := 64, phase := .translated 0x1000 false, place := 1 }
def opened (esz : Nat) (base : Option Word) : State := { streaming {} [opening base] with mem := record esz }
def pat3 : Pattern := { base := 0x2000, esz := 3, dims := [(3, 8)], cpl := 9 }
theorem witness_Streams :
    (∀ esz ∈ [3, 4], ∀ base ∈ [none, some 0x4000#64], let q := opening base; let s := opened esz base
      AtHome s q 0x1000 false ∧ Quiescent s q 0x1000 ∧ q.size = 64 ∧
      patternOk (Machine.getElem s le24) (match base with
        | some b => bytesOf 8 b.toNat ++ (readBytes s.mem 0x1000 64).drop 8
        | none => readBytes s.mem 0x1000 64) = decide (esz = 3)) ∧
    ((0x80#8).getLsbD 7 = true ∧ opening none ∈ streamReqs (streaming {} [opening none]) le24 7) ∧
    Streaming (streaming { pat := pat3, opened := true, idx := 2 }) le24 7 ∧
    (let st := getStream (streaming { pat := pat3, opened := true, idx := 2 }) le24 7
     st.lastDue = false ∧ st.closing = false ∧ st.idx < patCount st.pat ∧ st.pat.store = false ∧ st.pat.cmp = false ∧ patWide st.pat = false ∧
     outFree (streaming { pat := pat3, opened := true, idx := 2 }) le24 st.pat.ch ≠ 0 ∧ streamReqs (streaming { pat := pat3, opened := true, idx := 2 }) le24 7 = []) ∧
    Streaming (streaming { pat := pat3, opened := true, idx := 3 }) le24 7 ∧
    (let st := getStream (streaming { pat := pat3, opened := true, idx := 3 }) le24 7
     st.lastDue = false ∧ st.closing = false ∧ patCount st.pat ≤ st.idx ∧ st.pat.store = false ∧ st.lastSent = false ∧ patWide st.pat = false ∧
     outFree (streaming { pat := pat3, opened := true, idx := 3 }) le24 st.pat.ch ≠ 0) ∧
    (let s := streaming { pat := pat3, opened := true, idx := 3, ended := true }
     let st := getStream s le24 7
     st.opened = true ∧ st.ended = true ∧ st.tail = [] ∧ streamReqs s le24 7 = [] ∧ plotRuns s 0 = true ∧ cplChan st.pat = some 1 ∧ outFree s le24 1 ≠ 0) := by
  refine ⟨?_, ?_, ⟨?_, ?_, ?_, ?_, ?_, ?_⟩, ?_, ⟨?_, ?_, ?_, ?_, ?_, ?_⟩, ?_⟩ <;> try decide +kernel
  intro esz he base hb
  simp only [List.mem_cons, List.not_mem_nil, or_false] at he hb
  rcases he with rfl | rfl <;> rcases hb with rfl | rfl <;>
    exact ⟨⟨by decide +kernel, by decide +kernel, by decide +kernel, by decide +kernel, by decide +kernel⟩, ⟨by decide +kernel, by decide +kernel, by decide +kernel⟩, by decide +kernel, by decide +kernel⟩

/-- A scratchpad instruction placed on a plot whose tile 0 is as given. -/
def tiled (i : Instr) (t : Option Tile) (v : Fin 4 → Option Nat) : State := modPlot (placed .se i v) 0 fun p => { p with tiles := (t.map fun t => (0, t)).toList }
def line : Tile := { alloc := true, level := 1, fmt := 1, rows := 2, rb := 64, site := 20, gen := 255, size := 128 }
/-- The word of descriptor 0 of one f32 row of a line at level 1 for e20 (spec 03 R54). -/
def desc : Nat := 0x40003400

theorem witness_TileAndBankInstructions :
    meets [
      (shapeR (rAct (.ch 0) (.ch 0)), tiled (.tileNew (rAct (.ch 0) (.ch 0))) (some { line with alloc := false }) (give desc), fun x =>
        (readDesc x.a.toWord).any fun d => !(tileNow x.s 0 d.1).alloc && d.2.site == x.l.site && shapeOk x.s 0 d.2 &&
          (placeTile x.s 0 d.1 { d.2 with ring := (tileNow x.s 0 d.1).ring, gen := ((tileNow x.s 0 d.1).gen + 1) % 256 }).isSome),
      (shapeR (rAct (.ch 0) (.ch 0)), tiled (.tileNew (rAct (.ch 0) (.ch 0))) (some line) (give desc), fun x => (newTile x.s x.l x.a.toWord).isNone),
      (shapeOwn (rAct .none (.ch 0)), tiled (.tileFree (rAct .none (.ch 0))) (some line) (give 0xFF0100), fun x => (ownTile x.s x.l x.a.toWord).isSome),
      (shapeOwn (rAct .none (.ch 0)), tiled (.tileFree (rAct .none (.ch 0))) (some line) (give 0xFE0100), fun x => (ownTile x.s x.l x.a.toWord).isNone),
      (shapeOwn (rAct .none (.ch 0) (.ch 1)), tiled (.tileShp (rAct .none (.ch 0) (.ch 1))) (some line) (give 0xFF0100 desc), fun x =>
        (ownTile x.s x.l x.a.toWord).any fun t => (reshape x.s x.l t.1.handle t.2 x.b.toWord).isSome),
      (shapeOwn (rAct .none (.ch 0) (.ch 1)), tiled (.tileShp (rAct .none (.ch 0) (.ch 1))) none (give 0xFF0100 desc), fun x => (ownTile x.s x.l x.a.toWord).isNone),
      (shapeOwn (rAct .none (.ch 0) (.ch 1)), tiled (.tileShp (rAct .none (.ch 0) (.ch 1))) (some line) (give 0xFF0100 (desc + 0x20000000)), fun x =>
        (ownTile x.s x.l x.a.toWord).any fun t => (reshape x.s x.l t.1.handle t.2 x.b.toWord).isNone),
      (shapeR (rAct (.ch 0) (.ch 0)), tiled (.tileQry (rAct (.ch 0) (.ch 0))) (some line) (give 255), fun x => x.a.toWord.toNat < 256),
      (shapeR (rAct (.ch 0) (.ch 0)), tiled (.tileQry (rAct (.ch 0) (.ch 0))) (some line) (give 256), fun x => 256 ≤ x.a.toWord.toNat),
      (shapeHash (rAct .none (.ch 0)), placed .se (.hashSet (rAct .none (.ch 0))), fun x =>
        ((maskTokens x (.ch 0)).find? fun m => decide (2 ^ 32 ≤ m)).isNone && masksOk (maskTokens x (.ch 0))),
      (shapeHash (rAct .none (.ch 0)), placed .se (.hashSet (rAct .none (.ch 0))) (give 0xFFFFFFFF), fun x =>
        ((maskTokens x (.ch 0)).find? fun m => decide (2 ^ 32 ≤ m)).isNone && !masksOk (maskTokens x (.ch 0))),
      (shapeHash (rAct .none (.ch 0)), placed .se (.hashSet (rAct .none (.ch 0))) (give 0x100000000), fun x =>
        ((maskTokens x (.ch 0)).find? fun m => decide (2 ^ 32 ≤ m)).isSome),
      (shapeR (rAct (.ch 0) (.ch 0)), placed .se (.bankRd (rAct (.ch 0) (.ch 0))) (give 31), fun x => x.a.toWord.toNat < 32),
      (shapeR (rAct (.ch 0) (.ch 0)), placed .se (.bankRd (rAct (.ch 0) (.ch 0))) (give 32), fun x => 32 ≤ x.a.toWord.toNat),
      (shapeR (rAct .none (.ch 0)), placed .se (.bankClr (rAct .none (.ch 0))) (give 0xFFFFFFFF), fun x => x.a.toWord.toNat < 2 ^ 32),
      (shapeR (rAct .none (.ch 0)), placed .se (.bankClr (rAct .none (.ch 0))) (give 0x100000000), fun x => 2 ^ 32 ≤ x.a.toWord.toNat)] ∧
    ({ line with alloc := false } : Tile).alloc = false := ⟨meets_of (by decide +kernel), rfl⟩

/-- Two runs with a gap. -/
def runs : State := tiled (.tileFil (rAct (.ch 0) (.ch 0) (.ch 1))) (some { line with base := 64 }) fun _ => none
def rd (b : Src) : RAct := rAct (.ch 2) (.ch 0) b
theorem witness_TileOperations :
    meets [
      (shapeSpad (rd .zero) true (refReady (.ch 0)), tiled (.tileRd (rd .zero)) (some line) (give 0), fun x => (tileA x).any fun t => t.2.level != 0),
      (shapeSpad (rd (.ch 1)) true (refReady (.ch 0)), tiled (.tileRd (rd (.ch 1))) (some line) (give 0 1), fun x => (tileA x).any fun t => t.2.level != 0 && rangeOk t.2 x.b.toWord),
      (shapeSpad (rd (.ch 1)) true (refReady (.ch 0)), tiled (.tileRd (rd (.ch 1))) (some line) (give 0 2), fun x => (tileA x).any fun t => t.2.level != 0 && !rangeOk t.2 x.b.toWord),
      (shapeSpad (rd .zero) true (refReady (.ch 0)), tiled (.tileRd (rd .zero)) none (give 0), fun x => (tileA x).isNone),
      (shapeSpad (rAct (.ch 0) (.ch 0) (.ch 2)) false (writeReady (.ch 0)), tiled (.tileWr (rAct (.ch 0) (.ch 0) (.ch 2))) (some line) (give 0), fun x => (tileA x).isSome),
      (shapeGat (rd (.ch 1)), tiled (.tileGat (rd (.ch 1))) (some line) (give 0), fun x => (tileA x).any fun t => t.2.level != 0),
      (shapeSpad (rAct (.ch 0) (.ch 0) (.ch 2)) false (writeReady (.ch 0)), tiled (.tileSct (rAct (.ch 0) (.ch 0) (.ch 2))) (some line) (give 0), fun x => (tileA x).isSome),
      (shapeSpad (rAct (.ch 0) (.ch 0) (.ch 2)) false (refReady (.ch 0)), tiled (.tileAcc (rAct (.ch 0) (.ch 0) (.ch 2)) noFcs) (some line) (give 0), fun x =>
        (tileA x).any fun t => t.2.level != 0 && accFmt t.2.fmt),
      (shapeFil (rAct (.ch 0) (.ch 0) (.ch 1)), tiled (.tileFil (rAct (.ch 0) (.ch 0) (.ch 1))) (some line) (give 0), fun x => (tileA x).isSome),
      (shapeFil (rAct (.ch 0) (.ch 0) (.ch 1)), tiled (.tileFil (rAct (.ch 0) (.ch 0) (.ch 1))) (some line) (give 0xFE0100), fun x => (tileA x).isNone),
      (shapeTileCpy (rAct (.ch 0) (.ch 0) (.ch 1)), tiled (.tileCpy (rAct (.ch 0) (.ch 0) (.ch 1))) (some line) (give 0), fun x =>
        (tileA x).any fun t => t.2.level != 0 && (useRef x.s 0 x.b.toWord).any fun u => tileData t.2 == tileData u.2),
      (shapeTileCpy (rAct (.ch 0) (.ch 0) (.ch 1)), tiled (.tileCpy (rAct (.ch 0) (.ch 0) (.ch 1))) none (give 0), fun x => (tileA x).isNone),
      (shapeSpad (rAct (.ch 0) (.ch 0) (.ch 2)) false (writeReady (.ch 0)), tiled (.tileWr (rAct (.ch 0) (.ch 0) (.ch 2))) none (give 0), fun x => (tileA x).isNone),
      (shapeGat (rd (.ch 1)), tiled (.tileGat (rd (.ch 1))) (some { line with level := 0 }) (give 0), fun x => (tileA x).all fun t => t.2.level == 0),
      (shapeSpad (rAct (.ch 0) (.ch 0) (.ch 2)) false (writeReady (.ch 0)), tiled (.tileSct (rAct (.ch 0) (.ch 0) (.ch 2))) none (give 0), fun x => (tileA x).isNone),
      (shapeSpad (rAct (.ch 0) (.ch 0) (.ch 2)) false (refReady (.ch 0)), tiled (.tileAcc (rAct (.ch 0) (.ch 0) (.ch 2)) noFcs) (some { line with fmt := 2 }) (give 0), fun x =>
        (tileA x).all fun t => t.2.level == 0 || !([0, 1, 9, 10] : List Nat).contains t.2.fmt),
      (shapeTileCpy (rAct (.ch 0) (.ch 0) (.ch 1)), tiled (.tileCpy (rAct (.ch 0) (.ch 0) (.ch 1))) (some line) (give 0 0xFE0100), fun x =>
        (tileA x).isSome && (useRef x.s 0 x.b.toWord).isNone)] ∧
    ((usedRuns runs 0).Pairwise (fun p q => p.1 + p.2 ≤ q.1) ∧ (∀ r ∈ usedRuns runs 0, r.1 + r.2 ≤ storeBytes) ∧ findRun runs 0 64 false = some 0 ∧
      findRun runs 0 64 true = some (storeBytes - 64)) ∧
    masksOk (([0x40, 0x80, 0x100, 0x200, 0x200400] : List (BitVec 32)).map (·.toNat)) = true ∧ line.level ≠ 0 := ⟨meets_of (by decide +kernel), by decide +kernel, by decide +kernel⟩

/-- A bank whose waiting set holds two accesses; a firing in progress of e0; a `tile.rd` of e20 before its header and at its end. -/
def two_ (n : Nat) : LineReq := { id := n, plot := 0, off := 0, port := 0, from_ := ⟨0, 20⟩, hplot := 0, handle := 0, admitted := true, act := .write 0, op := 0 }
def banked : State := modPlot { bench .ce id [] [] [] [] with lines := [two_ 1, two_ 2] } 0 fun p => { p with banks := [(0, { wait := [1, 2] })] }
def redoing : State := modElem (placed .ce (.mov { one (.ch 0) with sa := .ch 0 })) loc0 fun e => { e with slots := e.slots.set 0 (encodeTrig ⟨0, .w2, 1, none, 0, 0⟩ ++ e.slots[0].setWidth 32), pix := pixWord 0 1 true 0 }
def reading (pos : Nat) : State :=
  modSe { bench .ce id [] [] [] [] with elems := [(1, { present := true, kind := .se }), (20, benchElem .se [] [] [] [])] } ⟨0, 20⟩ fun u =>
    { u with op := some { i := .tileRd (rd .zero), slot := 0, op := 0, handle := 0, tile := line, pos := pos } }
theorem witness_BankAndFiringSteps :
    ((Tbl.findD (getPlot banked 0).banks 0 {}).wait = 1 :: [2] ∧ (∀ y ∈ bankLines banked 0 0, y.admitted = true) ∧ banked.lines.find? (fun y => y.id == 1) = some (two_ 1)) ∧
    (hasRedo redoing loc0 = true ∧ (getSe redoing loc0).op = none ∧ (getMe redoing loc0).op = none ∧ (Machine.getElem redoing loc0).redo = [] ∧
      (slotOf (Machine.getElem redoing loc0) 0 (pixSlot (Machine.getElem redoing loc0).pix)).any (fun x => (specOf x.act).isSome) = true) ∧
    (∀ pos ∈ [0, 3], let s := reading pos
      hasRedo s ⟨0, 20⟩ = true ∧ (getSe s ⟨0, 20⟩).op.any (fun o => !o.held && decide (outFree s ⟨0, 20⟩ (wideDst o.i) ≠ 0) && o.tile.fmt != 8 && o.pos == pos &&
        (pos == 0 || o.pos == 1 + packetScb o.tile.fmt ((rangeOf o.tile o.range).nr + 1) (((rangeOf o.tile o.range).nc + 1) * 64) +
          ((rangeOf o.tile o.range).nr + 1) * ((rangeOf o.tile o.range).nc + 1))) = true) := by decide +kernel

/-- A bank that grants an access; one that meets an uncorrectable line. -/
def poisonedBank : State := modPlot { banked with lines := [{ two_ 1 with act := .read 5 0 64 0 }] } 0 fun p => { p with poison := [0] }
theorem witness_BankAndFiringSteps_lines :
    lineFails banked (two_ 1) = false ∧
    (let x : LineReq := { two_ 1 with act := .read 5 0 64 0 }
     (Tbl.findD (getPlot poisonedBank 0).banks 0 {}).wait = 1 :: [2] ∧ (∀ y ∈ bankLines poisonedBank 0 0, y.admitted = true) ∧
     poisonedBank.lines.find? (fun y => y.id == 1) = some x ∧ lineFails poisonedBank x = true) ∧
    (Memory.wf (getPlot banked 0).store = true ∧ (two_ 1).act = .write 0 ∧ ({ two_ 1 with act := .acc 9 noFcs 0 } : LineReq).sub = none) := by decide +kernel

/-- A streaming instruction of e20 in progress, with tokens on its channels, on a plot whose tile 0 is `line`. -/
def streamed (o : SpadOp) (i1 i2 : List Token) : State :=
  modPlot (modSe { bench .ce id [] [] [] [] with elems := [(1, { present := true, kind := .se }), (20, benchElem .se [] i1 i2 [])] } ⟨0, 20⟩ fun u => { u with op := some o }) 0
    fun p => { p with tiles := [(0, line)] }
def spadOf (i : Instr) (pos : Nat) (row : Option Nat := none) (hdr : Beat := 0) (t : Tile := line) : SpadOp := { i := i, slot := 0, op := 1, handle := 0, tile := t, pos := pos, row := row, hdr := hdr }
def wr : Instr := .tileWr (rAct (.ch 0) (.ch 0) (.ch 2))
def sct : Instr := .tileSct (rAct (.ch 0) (.ch 0) (.ch 2))
def accI : Instr := .tileAcc (rAct (.ch 0) (.ch 0) (.ch 2)) noFcs
/-- A stream that shows a token, and meets what a statement asks besides. -/
def shows (o : SpadOp) (i1 i2 : List Token) (sb : Src) (c : State → Token → Bool) : Bool :=
  let s := streamed o i1 i2
  hasRedo s ⟨0, 20⟩ && decide ((getSe s ⟨0, 20⟩).op = some o) && !o.held && !o.drain &&
    (headToken s ⟨0, 20⟩ (chanOf sb)).any fun k => decide (k.tag ≠ .fault) && c s k
theorem shows_of {o : SpadOp} {i1 i2 : List Token} {sb : Src} {c : State → Token → Bool} (h : shows o i1 i2 sb c = true) :
    ∃ k, Spad (streamed o i1 i2) ⟨0, 20⟩ o ∧ Shows (streamed o i1 i2) ⟨0, 20⟩ sb k ∧ c (streamed o i1 i2) k = true := by
  simp only [shows, Bool.and_eq_true, Bool.not_eq_true', decide_eq_true_eq] at h
  obtain ⟨⟨⟨⟨h1, h2⟩, h3⟩, h4⟩, h5⟩ := h
  cases hk : headToken (streamed o i1 i2) ⟨0, 20⟩ (chanOf sb) with
  | none => rw [hk] at h5; cases h5
  | some k =>
    rw [hk] at h5
    simp only [Option.any_some, Bool.and_eq_true, decide_eq_true_eq] at h5
    exact ⟨k, ⟨h1, h2, h3, h4⟩, ⟨hk, h5.1⟩, h5.2⟩
def freeLine (o : SpadOp) (s : State) : Bool := lineReady s ⟨0, 20⟩ o.handle && !offering s ⟨0, 20⟩ o.op
/-- The header of one row of a line in f32, and one that the tile does not take. -/
def hdr1 : Token := { tag := .hdr, val := 1 }
def lastTok : Token := { tag := .last, val := 0 }
theorem witness_SpadSteps : ∀ w ∈ ([(spadOf wr 0, [], [hdr1], Src.ch 2, fun _ (k : Token) => k.tag == .hdr && hdrFits line k.val.toNat && line.fmt != 8),
      (spadOf wr 0, [], [{ hdr1 with val := 2 }], .ch 2, fun _ k => k.tag == .hdr && !hdrFits line k.val.toNat),
      (spadOf wr 0, [], [dataTok 1], .ch 2, fun _ k => k.tag != .hdr),
      (spadOf wr 1 none 1, [], [dataTok 5], .ch 2, fun s k => k.tag == .data && decide (1 ≤ packetBeats 1) && freeLine (spadOf wr 1 none 1) s),
      (spadOf wr 2 none 1, [], [lastTok], .ch 2, fun _ k => k.tag == .last && decide (2 = packetBeats 1 + 1)),
      (spadOf (.tileGat (rd (.ch 1))) 0, [lastTok], [], .ch 1, fun s k => k.tag == .last && decide (outFree s ⟨0, 20⟩ 2 ≠ 0)),
      (spadOf (.tileGat (rd (.ch 1))) 0 none 0 { line with rb := 128 }, [dataTok 1], [], .ch 1, fun s k =>
        k.tag == .data && decide (k.val.toWord.toNat < min 65536 2) && decide (outFree s ⟨0, 20⟩ 2 ≠ 0) && (spadOf (.tileGat (rd (.ch 1))) 0).given == none && freeLine (spadOf (.tileGat (rd (.ch 1))) 0) s),
      (spadOf sct 0, [], [lastTok], .ch 2, fun _ k => k.tag == .last),
      (spadOf accI 0, [], [{ tag := .mark, val := 1 }], .ch 2, fun _ k => k.tag == .mark && decide (k.val.toNat % 65536 < 2)),
      (spadOf sct 0 (some 1), [], [dataTok 5], .ch 2, fun s k => k.tag == .data && freeLine (spadOf sct 0) s)] :
      List (SpadOp × List Token × List Token × Src × (State → Token → Bool))),
    ∃ k, Spad (streamed w.1 w.2.1 w.2.2.1) ⟨0, 20⟩ w.1 ∧ Shows (streamed w.1 w.2.1 w.2.2.1) ⟨0, 20⟩ w.2.2.2.1 k ∧ w.2.2.2.2 (streamed w.1 w.2.1 w.2.2.1) k = true :=
  fun w hw => shows_of (List.all_eq_true.mp (by decide +kernel : List.all _ (fun (w : SpadOp × List Token × List Token × Src × (State → Token → Bool)) =>
    shows w.1 w.2.1 w.2.2.1 w.2.2.2.1 w.2.2.2.2) = true) w hw)
theorem witness_RowStream : RowStream (spadOf sct 0) (.ch 2) ∧ RowStream (spadOf accI 0) (.ch 2) := ⟨.inl ⟨_, rfl, rfl⟩, .inr ⟨_, _, rfl, rfl⟩⟩

/-! Engines, channels, trees and windows. -/

def eAct (b : Src := .zero) : EAct := ⟨.ch 0, .ch 0, b, .plot⟩
theorem witness_EngineCommands : meets [
    (shapeEng (eAct) (.cpy eAct) false, placed .xe (.cpy eAct), any), (shapeEng eAct (.cpyNd eAct) false, placed .xe (.cpyNd eAct), any),
    (shapeEng (eAct (.ch 1)) (.cpyIx (eAct (.ch 1))) false, placed .xe (.cpyIx (eAct (.ch 1))), any), (shapeEng eAct (.cpyIs eAct) false, placed .xe (.cpyIs eAct), any),
    (shapeEng (eAct (.ch 1)) (.gat (eAct (.ch 1))) false, placed .xe (.gat (eAct (.ch 1))), any), (shapeEng eAct (.sct eAct) false, placed .xe (.sct eAct), any),
    (shapeEng eAct (.put eAct) false, placed .xe (.put eAct), any), (shapeEng eAct (.get eAct) false, placed .xe (.get eAct), any),
    (shapeEng eAct (.sctAdd eAct noFcs) false, placed .xe (.sctAdd eAct noFcs), any), (shapeEng eAct (.rdcTree eAct noFcs) false, placed .xe (.rdcTree eAct noFcs), any),
    (shapeEng eAct (.coll eAct noFcs) false, placed .xe (.coll eAct noFcs), any),
    (shapeEng (eAct (.ch 1)) (.drillPush (eAct (.ch 1)) 8) false, placed .xe (.drillPush (eAct (.ch 1)) 8), fun x => (engineFor x.s (dieOf x.l.plot) x.e.bound (.drillPush (eAct (.ch 1)) 8)).isSome),
    (shapeEng (eAct (.ch 1)) (.sig (eAct (.ch 1)) true 0x3FF) true, placed .xe (.sig (eAct (.ch 1)) true 0x3FF), any),
    (shapeEng eAct (.adPf eAct 3 true true) false, placed .xe (.adPf eAct 3 true true), any)] := meets_of (by decide +kernel)

/-- A state with one command. -/
def cmd0 (i : Instr) (ph : CmdPhase) (rid a : Nat := 0) : Cmd := { id := 1, l := ⟨0, 28⟩, i := i, eng := .copy 0 3, a := BitVec.ofNat 64 a, phase := ph, rid := rid }
def commanded (c : Cmd) : State := { words 0 0 with cmds := [c], sched := { nextId := 9 } }
theorem witness_EngineSteps :
    (let c := cmd0 (.cpy eAct) .queued; let s := commanded c
     findCmd s c.id = some c ∧ c.eng = .copy 0 3 ∧ engineLoad s c.eng < 16 ∧ nextPort s 0 3 = some (portKey c) ∧
     (s.cmds.find? fun y => y.eng == c.eng && y.phase == .queued && portKey y == portKey c) = some c) ∧
    (let c := cmd0 (.cpy eAct) .fetch 0 63; let s := commanded c
     findReq s c.id = none ∧ findCmd s c.id = some c ∧ cmdStops s c = false ∧ c.phase = .fetch ∧ c.a.toNat % 64 ≠ 0) ∧
    (let c := cmd0 (.cpy eAct) .done 3; findCmd (commanded c) c.id = some c ∧ c.node = none ∧ c.rid ≠ 0) ∧
    (let c := cmd0 (.cpy eAct) .done; findCmd (commanded c) c.id = some c ∧ c.node = none ∧ c.rid = 0) := by decide +kernel

/-- A command of the element of a section of launch 3, at a record of zeros, or of the bytes given, with what the launch has read of its nodes. -/
def fetchingAt (i : Instr) (xs : List Host.Cell) (recs : Tbl (List Byte × List Nat)) : Cmd × State :=
  let c := { cmd0 i .fetch 0 0x10000 with parcel := some 1 }
  (c, { pagedWith xs (sect { section1 with launch := 3 } (commanded c)) with drill := { launches := [(3, { records := recs })] } })
def turns (w : Cmd × State) : Prop := CmdTurn w.2 w.1 ∧ w.1.phase = .fetch
theorem turns_of {w : Cmd × State} (h : (findReq w.2 w.1.id).isNone = true ∧ findCmd w.2 w.1.id = some w.1 ∧ cmdStops w.2 w.1 = false ∧ w.1.phase = .fetch) : turns w :=
  ⟨⟨Option.isNone_iff_eq_none.mp h.1, h.2.1, h.2.2.1⟩, h.2.2.2⟩
/-- A record that is read, and meets c. -/
theorem reads_of {w : Cmd × State} {c : State → List Byte → Bool}
    (hi : HasRecord w.1) (h : (decide (w.1.a.toNat % 64 = 0) && !accessCut w.2 w.1 w.1.a.toNat && match readVirt w.2 (dieOf w.1.l.plot) w.1.ctx w.1.a.toNat 64 w.1.sub with
      | (t, .ok r) => c t r
      | _ => false) = true) : ∃ t r, ReadsRecord w.2 t w.1 r ∧ c t r = true := by
  rcases he : readVirt w.2 (dieOf w.1.l.plot) w.1.ctx w.1.a.toNat 64 w.1.sub with ⟨t, r⟩
  rw [he] at h
  cases r with
  | error b => simp at h
  | ok r => simp only [Bool.and_eq_true, Bool.not_eq_true', decide_eq_true_eq] at h; exact ⟨t, r, ⟨hi, h.1.1, h.1.2, he⟩, h.2⟩
def copyAt (xs : List Host.Cell) : Cmd × State := fetchingAt (.cpy eAct) xs []
def pushAt (recs : Tbl (List Byte × List Nat)) : Cmd × State := fetchingAt (.drillPush eAct 0) [] recs
def fork : List Byte := 6 :: List.replicate 63 0
theorem copies : HasRecord (copyAt []).1 := by simp [HasRecord, copyAt, fetchingAt, cmd0]
theorem witness_EngineSteps_records :
    turns (copyAt []) ∧ (∃ t r, ReadsRecord (copyAt []).2 t (copyAt []).1 r ∧ recordOk t (copyAt []).1 r = true) ∧
    turns (copyAt [(0x40018, 1)]) ∧ (∃ t r, ReadsRecord (copyAt [(0x40018, 1)]).2 t (copyAt [(0x40018, 1)]).1 r ∧ (!recordOk t (copyAt [(0x40018, 1)]).1 r) = true) ∧
    turns (fetchingAt (.sig eAct false 0) [] []) ∧
    (turns (pushAt [(0x10000, (fork, []))]) ∧ (launchRecord (pushAt [(0x10000, (fork, []))]).2 3 0x10000).2 = some (fork, []) ∧ nodeOk fork = true ∧
      granaryLoad (launchRecord (pushAt [(0x10000, (fork, []))]).2 3 0x10000).1 < 4096 ∧ (getParcel (pushAt []).2 1).launch = 3 ∧ (pushAt []).1.parcel = some 1) ∧
    (let w := pushAt []; let w := (w.1, { w.2 with ctxs := [] }); turns w ∧ (launchRecord w.2 3 0x10000).2 = none) := by
  exact ⟨turns_of (by decide +kernel), reads_of copies (by decide +kernel), turns_of (by decide +kernel),
    reads_of (c := fun t r => !recordOk t (copyAt [(0x40018, 1)]).1 r) copies (by decide +kernel), turns_of (by decide +kernel),
    ⟨turns_of (by decide +kernel), by decide +kernel⟩, turns_of (by decide +kernel), by decide +kernel⟩

/-- A long channel from e0 to plot 1's e0. -/
def longWay (f : OutPort → OutPort) (killed : Bool) : State :=
  modElem (e0 (fun e => setOut e 0 (f { route := some ⟨⟨1, 0⟩, 0, true, 6, false⟩, credits := 8 })) (words 0 0)) ⟨1, 0⟩ fun e => { e with present := true, killed := killed }
def x0 : Entry := { body := some (dataTok 5) }
theorem witness_ChannelSteps :
    (readRoute 0x10080).long = true ∧
    (let s := longWay (fun o => { o with q := { es := [x0] }, credits := 1 }) false; let o := outPort (Machine.getElem s loc0) 0
     o.route.any (·.long) = true ∧ o.q.es = [x0] ∧ 0 < o.credits ∧ popsAt (now s) o.q = 0 ∧ x0.body.isSome ∧ x0.since ≤ now s ∧ plotFrozen s 0 = false) ∧
    (∀ k, let s := longWay (fun o => { o with flight := [(1, x0)] }) k; let o := outPort (Machine.getElem s loc0) 0
     o.route.isSome = true ∧ o.flight = [(1, x0)] ∧ 1 ≤ now s + 1 ∧ (Machine.getElem s ⟨1, 0⟩).killed = k) ∧
    (let s := longWay (fun o => { o with back := [0, 3] }) false; ∃ t ∈ (outPort (Machine.getElem s loc0) 0).back, t ≤ now s) := by decide +kernel

/-- A section of two plots side by side with tree 0 over both, rooted at the second; a packet at plot 0; an open group of it. -/
def tree : Region := { tree := true, id := 0, dx := 0, dy := 0, w := 2, h := 1, rx := 1, ry := 0, pol := .defer, tmo := 100 }
def pkt : TreePkt := { id := 5, plot := 0, tree := 0, grp := 0xFFFF, port := 0, fmt := 1, fcs := noFcs, lanes := List.replicate 32 0x3F800000, bits := 1, partial_ := false, mark := false, flags := 0, cmd := 0, res := 0, at_ := 0 }
def group : TreeGroup := { plot := 0, tree := 0, grp := 0xFFFF, fmt := 1, fcs := noFcs, ins := [(0, pkt)], since := 0 }
def treed (p : Parcel) : State :=
  { words 0 0 with parcels := [(1, { p with w := 2, regions := [tree], sites := [(0, 0x10000000), (1, 0x10000000)] })],
                   plots := [(0, { started := true, parcel := some 1 }), (1, { started := true, parcel := some 1 })], sched := { nextId := 9 } }
def contrib (rank : Nat) (op : AtomOp := .add) : Contribution :=
  { ctx := 63, win := 7, off := 0, rank := rank, op := op, size := .b4, fcs := noFcs, fast := false, count := 2, home := 0, value := 1, req := 0 }
def windowed (rs : List Round) (f : Window → Window := id) : State := { words 0 0 with ctxs := [(63, { wins := [(7, f { rounds := rs })] })], sched := { cycle := 27000, nextId := 9 } }
def round (cs : List Contribution) : Round := { off := 0, since := 0, first := contrib 0, all := cs }
theorem witness_ReductionSteps :
    (let s := treed { treePkts := [pkt] }
     Accepts s 5 1 pkt ∧ (shutGroups (getParcel s 1) 0 0).contains 0xFFFF = false ∧ findGroup (getParcel s 1) 0 0 0xFFFF = none ∧
     ((getParcel s 1).treeGroups.filter fun g => g.plot == 0 && g.tree == 0).length < 4) ∧
    (let s := treed { treeGroups := [group], cycles := 270 }
     groupParcel s 0 0 0xFFFF = some (1, group) ∧ routerRuns s 1 = true ∧ treeOf s 0 0 = some tree ∧ groupReady s (getParcel s 1) tree group = true ∧
     treeParent (getParcel s 1) tree 0 = some (1, 1) ∧ tree.tmo ≠ 0 ∧ group.since + cyclesOfNs tree.tmo ≤ (getParcel s 1).cycles) ∧
    (let r := round [contrib 0]; let s := windowed [r] fun w => { w with wtmo := 10 }
     openRound (getWindow (windowed []) 63 7) 0 = none ∧ openRound (getWindow s 63 7) 0 = some r ∧ (contrib 0).req = 0 ∧
     sameRound r.first (contrib 1) = true ∧ (r.all.any fun x => x.rank == 1) = false ∧ sameRound r.first (contrib 1 .min) = false ∧ (r.all.any fun x => x.rank == 0) = true ∧
     (getWindow s 63 7).wtmo ≠ 0 ∧ r.all.length < r.first.count ∧ r.since + cyclesOfNs (1000 * (getWindow s 63 7).wtmo.toNat) ≤ now s ∧ (∀ c ∈ r.all, c.req = 0) ∧ findReq s 0 = none) := by
  refine ⟨⟨⟨?_, ?_, ?_⟩, ?_⟩, ?_, ?_⟩ <;> decide +kernel

/-- A round with every contribution, whose home is a package h: this one, or another. -/
def whole (h : Nat) : Round := { off := 0, since := 0, first := { contrib 0 with home := h }, all := [contrib 0, contrib 1] }
theorem witness_ReductionSteps_end (h : Nat) :
    fullRound (getWindow (windowed [whole h]) 63 7) 0 = some (whole h) ∧ (whole h).first.home = h ∧
    poisonAt (windowed [whole h]) (roundHome (windowed [whole h]) (getWindow (windowed [whole h]) 63 7) (whole h))
      (bitsOf (getWindow (windowed [whole h]) 63 7).whpa.toNat 51 0 + 0) (roundBytes (whole h)) = none :=
  ⟨rfl, rfl, by simp [poisonAt, poisoned, windowed, words, bench]⟩
/-- A contribution of this package, to a window with no round. -/
theorem witness_ReductionSteps_own :
    (let q := { req (.red .add noFcs) (.contributing 7 0) 4 with ctx := 63 }; let s := { windowed [] with reqs := [q] }
     findReq s q.id = some q ∧ q.id ≠ 0 ∧ ((getWindow s 63 7).rounds.any fun r => r.all.any fun x => x.req == q.id) = false ∧ openRound (getWindow s 63 7) 0 = none) := by
  decide +kernel

/-! Matrix elements. -/

def me16 : Loc := ⟨0, 16⟩
def mmaOf (flow : Flow) (upd : PUpd := .none) : MmaAct := ⟨flow, 3, if flow = .row then .ch 2 else .ch 2, .ch 3, .none, upd, false, noFcs⟩
def xAct (sa : Src) (d : Dst) : XAct := ⟨3, sa, d, .none⟩
/-- A placed matrix instruction, with its element's unit changed. -/
def mePlaced (i : Instr) (f : MeUnit → MeUnit := id) (v : Fin 4 → Option Nat := fun _ => none) : State := modMe (placed .me i v) me16 f
/-- Node a3 as it is given. -/
def node3 (n : AccNode) (u : MeUnit) : MeUnit := { u with accs := u.accs.set 3 n }
def decSuits (x : BeatIn) (m : MmaAct) (g : MmaGeo) : Decidable (Suits x m g) := by unfold Suits; infer_instance
def decScaled (x : BeatIn) (m : MmaAct) : Decidable (Scaled x m) := by unfold Scaled; infer_instance
def decContinues (x : BeatIn) (m : MmaAct) (g : MmaGeo) (ids : List Nat) : Decidable (Continues x m g ids) := by unfold Continues; infer_instance
/-- Operands that suit their instruction or do not, with a scale and ids that do or do not. -/
def geoIs (suits goes : Bool) (m : MmaAct) (x : BeatIn) : Bool :=
  match headGeo x.s x.l m with
  | some g => (@decide _ (decSuits x m g)) == suits &&
      (@decide _ (decScaled x m) && @decide _ (decContinues x m g (adapterIds x.s x.l m g.rows))) == goes
  | none => false
def geoOk : MmaAct → BeatIn → Bool := geoIs true true
theorem witness_MatrixInstructions : meets [
    (shapeMma (mmaOf .outer), mePlaced (.mma (mmaOf .outer)), geoOk (mmaOf .outer)), (shapeMma (mmaOf .inner), mePlaced (.mma (mmaOf .inner)), geoOk (mmaOf .inner)),
    (shapeMma (mmaOf .row), mePlaced (.mma (mmaOf .row)), geoOk (mmaOf .row)),
    (shapeMma (mmaOf .outer), mePlaced (.mma (mmaOf .outer)) (fun u => { u with nodeA := { bufs := [{ full := true, fmt := 9, rows := 16, rb := 64 }] } }),
      fun x => (headGeo x.s x.l (mmaOf .outer)).isNone),
    (shapeMma (mmaOf .outer), mePlaced (.mma (mmaOf .outer)) (node3 { state := .opened, path := .integer, norm := 1 }), geoIs false true (mmaOf .outer)),
    (shapeMma (mmaOf .outer), mePlaced (.mma (mmaOf .outer)) (node3 { state := .opened, ad := true, norm := 1 }), geoIs true false (mmaOf .outer)),
    (shapeAcc (xAct .zero .none) .none .none false, mePlaced (.accClr (xAct .zero .none)), any),
    (shapeAcc (xAct .zero (.ch 0)) (.ch 0) .none true, mePlaced (.accRd (xAct .zero (.ch 0)) noFcs) (node3 { norm := 1 }), fun x => (nodeIn x 3).state == .free),
    (shapeAcc (xAct (.ch 0) (.ch 2)) (.ch 2) .none true, mePlaced (.accRd (xAct (.ch 0) (.ch 2)) noFcs) (node3 { state := .opened, norm := 1 }) (give 0xF0),
      fun x => (accRange x.a.toWord == some (0, 16)) && normOk (nodeIn x 3).norm (nodeIn x 3).path),
    (shapeAcc (xAct (.ch 0) (.ch 2)) (.ch 2) .none true, mePlaced (.accRd (xAct (.ch 0) (.ch 2)) noFcs) id (give 0xF1), fun x => (accRange x.a.toWord).isNone),
    (shapeLd (xAct (.ch 2) .none), mePlaced (.accLd (xAct (.ch 2) .none)), any),
    (shapeAcc (xAct .zero (.ch 2)) .none .none false, mePlaced (.accRel (xAct .zero (.ch 2)) noFcs) (node3 { state := .opened, norm := 1 }), fun x => normOk (nodeIn x 3).norm (nodeIn x 3).path),
    ({ shape (.ch 0) (.ch 0) .zero .none with async := true }, mePlaced (.adInv ⟨0, .ch 0, .ch 0, .none⟩) id (give 0xC00000000000FFFF), fun x => bitsOf x.a.toWord.toNat 61 32 == 0),
    ({ shape (.ch 0) (.ch 0) .zero .none with async := true }, mePlaced (.adInv ⟨0, .ch 0, .ch 0, .none⟩) id (give 0x100000000), fun x => bitsOf x.a.toWord.toNat 61 32 != 0),
    (shape (.ch 0) .zero .zero .none, mePlaced (.meCnt (xAct .zero (.ch 0))), any),
    (shape (.ch 0) (.ch 0) .zero .none, mePlaced (.meIdl ⟨0, .ch 0, .ch 0, .none⟩) id (give 0x10F), fun x => x.a.toWord.toNat < 512 && bitsOf x.a.toWord.toNat 7 4 == 0),
    (shape (.ch 0) (.ch 0) .zero .none, mePlaced (.meIdl ⟨0, .ch 0, .ch 0, .none⟩) id (give 0x20F), fun x => decide (512 ≤ x.a.toWord.toNat)),
    (shape (.ch 0) (.ch 0) .zero .none, mePlaced (.meIdl ⟨0, .ch 0, .ch 0, .none⟩) id (give 0x1F), fun x => bitsOf x.a.toWord.toNat 7 4 != 0)] :=
  meets_of (by decide +kernel)
/-- Nodes that `acc.rel` meets: free, open, and closed with a release channel. -/
theorem witness_MatrixInstructions_nodes :
    ∀ st ∈ [NState.free, .opened, .closed], (nodeAt (getMe (mePlaced (.mma (mmaOf .inner)) (node3 { state := st })) me16) 3).state = st ∧ (relChan (.ch 2)).isSome = true ∧
      relChan .none = none := by decide +kernel

theorem kstep_of {s : State} {l : Loc} {f : Firing} {geo : MmaGeo} {a b : OpBuf} {c : List MRow → List MRow → Bool}
    (h : meRuns s l = true ∧ (getMe s l).fire = some f ∧ (f.held = false ∧ f.pad = false ∧ f.due ≤ now s) ∧ (f.x.flow ≠ .row ∧ f.x.ids = .none) ∧
      fireGeo s l f = some (geo, a, b) ∧ (a.bad = [] ∧ b.bad = []) ∧ spillBusy s l = false)
    (ho : ((operandsOf f geo a b).any fun p => c p.1 p.2) = true) : ∃ rows cols, KStep s l f geo a b rows cols ∧ c rows cols = true := by
  cases hp : operandsOf f geo a b with
  | none => rw [hp] at ho; cases ho
  | some p => rw [hp] at ho; exact ⟨p.1, p.2, ⟨h.1, h.2.1, h.2.2.1, h.2.2.2.1, h.2.2.2.2.1, h.2.2.2.2.2.1, h.2.2.2.2.2.2, hp⟩, ho⟩

/-- Buffers of one row of 32 bf16 values, all v; a firing of them into a3. -/
def filled (v : Nat) : OpBuf := { full := true, fmt := 2, rows := 1, rb := 64, stride := 64, cells := ((List.range 32).flatMap fun i => (bytesOf 2 v).mapIdx fun k b => (2 * i + k, b)).filter fun c => c.2 != 0 }
def firing (f : Firing → Firing := id) : Firing := f { x := mmaOf .inner, slot := 0, steps := 1 }
def multiplying (a b te : Nat) (f : Firing → Firing := id) (n : AccNode := { state := .opened }) : State :=
  modElem (mePlaced (.mma (mmaOf .inner)) fun u => node3 n { u with fire := some (firing f), nodeA := { bufs := [filled a] }, nodeB := { bufs := [filled b] } }) me16
    fun e => { e with fpm := BitVec.ofNat 64 (te * 256) }
def geo0 : MmaGeo := { path := .narrow, g := 32, d := 256, k := 32, rows := 1, n := 1, rate := 512 }
def sums (s : State) (rows cols : List MRow) : Tbl Acc × Flags7 := mainStep geo0 rows cols 0 (nodeAt (getMe s me16) 3).ents
theorem witness_MatrixSteps_step :
    (∃ rows cols, KStep (multiplying 0 0 0) me16 (firing) geo0 (filled 0) (filled 0) rows cols ∧
      decide ((sums (multiplying 0 0 0) rows cols).2 &&& fpmTE (Machine.getElem (multiplying 0 0 0) me16).fpm = 0#7) = true) ∧
    (∃ rows cols, KStep (multiplying 0x7F80 0 1) me16 (firing) geo0 (filled 0x7F80) (filled 0) rows cols ∧
      decide ((sums (multiplying 0x7F80 0 1) rows cols).2 &&& fpmTE (Machine.getElem (multiplying 0x7F80 0 1) me16).fpm ≠ 0#7) = true) ∧
    (firing).noTrap = false :=
  ⟨kstep_of (by decide +kernel) (by decide +kernel), kstep_of (by decide +kernel) (by decide +kernel), rfl⟩

/-- An element of another plot on whose inputs a matrix element's release channel leads. -/
def releasing (n : AccNode) (f : OutPort → OutPort := id) : State :=
  modElem (modElem (mePlaced (.mma (mmaOf .inner)) (node3 n)) me16 fun e =>
    setOut e 2 (f { route := some ⟨⟨0, 1⟩, 0, false, 0, false⟩ })) ⟨0, 1⟩ fun e => { e with present := true }
def ending (dest : Option (Fin 2)) : AccNode := { state := .closing, closing := some ⟨dest, noFcs, false, 0⟩, ents := [(0, {})] }
theorem witness_MatrixSteps_rest :
    (let rows := List.replicate 16 ({ val := fun _ => .fin false 1 0, ks := none, at_ := fun _ => 0 } : MRow)
     rows.length ≤ 16 ∧ rows[15]?.isSome ∧ rows[0]?.isSome) ∧
    (let s := multiplying 0 0 0 (fun f => { f with pad := true }) { state := .opened, count := 2 }
     ∃ f, (getMe s me16).fire = some f ∧ meRuns s me16 = true ∧ f.held = false ∧ f.pad = true ∧ f.due ≤ now s ∧ f.x.ids = .none ∧
       fireGeo s me16 f = some (geo0, filled 0, filled 0) ∧ (nodeAt (getMe s me16) 3).f + 1 ≠ (nodeAt (getMe s me16) 3).count) ∧
    (let s := mePlaced (.mma (mmaOf .inner)) (fun u => { u with nodeB := {} }) (give 0); let nd := nodeOf (getMe s me16) true
     meRuns s me16 = true ∧ portOf (Machine.getElem s me16) 0 true = some 3 ∧ headToken s me16 3 = some { tag := .data, val := 0 } ∧
     (inPort (Machine.getElem s me16) 3).q.es.head?.isSome ∧ (nd.bufs.getD nd.fill {}).full = false ∧ beatWaits { tag := .data, val := 0 } (nd.bufs.getD nd.fill {}) = false) ∧
    (let s := releasing (ending (some 0)); let c : Closing := ⟨some 0, noFcs, false, 0⟩
     meRuns s me16 = true ∧ (nodeAt (getMe s me16) 3).state = .closing ∧ (nodeAt (getMe s me16) 3).closing = some c ∧ adaptersDone (nodeAt (getMe s me16) 3) = true ∧
     (outPort (Machine.getElem s me16) (relPort 0)).pkt = [] ∧ endsBefore (getMe s me16) c = false) ∧
    (let s := releasing (ending none)
     meRuns s me16 = true ∧ (nodeAt (getMe s me16) 3).state = .closing ∧ (nodeAt (getMe s me16) 3).closing = some ⟨none, noFcs, false, 0⟩ ∧
     adaptersDone (nodeAt (getMe s me16) 3) = true) ∧
    (let s := releasing {} fun o => { o with pkt := [lastToken] }
     meRuns s me16 = true ∧ (outPort (Machine.getElem s me16) (relPort 0)).pkt = [lastToken] ∧ outRoom s me16 (relPort 0) ≠ 0) := by
  refine ⟨?_, ⟨_, rfl, ?_⟩, ?_, ?_, ?_, ?_⟩ <;> decide +kernel

/-- A plot with one fetch in flight, of a directory at virtual 0x10000 that lists one id. -/
def fill0 (sl : Option (Bool × Nat × DirEnt)) : Fill := { id := 3, l := me16, ctx := 0, aid := 5, tag := 0, slice := sl }
def fetching (f : Fill) : State :=
  let s := pagedWith [(0x40000, 0x41), (0x40001, 0x44), (0x40002, 0x44), (0x40003, 0x4E), (0x40004, 1), (0x40006, 1)] (modMe (mePlaced (.mma (mmaOf .inner))) me16 fun u => { u with dir := 0x10000 })
  modPlot s 0 fun p => { p with fills := [f] }
def ent0 : DirEnt := { aid := 5, tag := 0, abase := 0x10000, bbase := 0x18000, alpha := 0, col0 := 0, klen := 1, nlen := 1, rank := 1 }
/-- Eight slices of one set, each pinned by a node of e17 or e18. -/
def allPinned (s : State) : State :=
  let s := modPlot s 0 fun p => { p with slices := (upFrom 1 8).map fun n => newSlice true (8 * n + 5) 0 0 n [] }
  let pins (k : Nat) (u : MeUnit) : MeUnit := { u with accs := Vector.ofFn fun i => { closePin := some (k + i.val, ent0) } }
  modMe (modMe s ⟨0, 17⟩ (pins 1)) ⟨0, 18⟩ (pins 5)
theorem witness_AdapterSteps :
    (let f := fill0 none; let s := fetching f
     (getPlot s 0).fills.find? (fun x => x.id == f.id) = some f ∧ fillTurn (getPlot s 0) f = true ∧ plotFrozen s 0 = false ∧
     (readDir (some 0) s 0 (getMe s f.l).dir f.aid f.tag f.sub).2 = .ok (baseEnt 5 0)) ∧
    (let f := fill0 (some (true, 0, ent0)); let s := fetching f
     (getPlot s 0).fills.find? (fun x => x.id == f.id) = some f ∧ fillTurn (getPlot s 0) f = true ∧ plotFrozen s 0 = false ∧ f.again = false ∧
     (readVirtOf (some 0) s 0 f.ctx ent0.bbase (sliceBytes ent0 true 0) f.sub).2.isOk = true ∧ (sliceRoom s 0 (newSlice true 5 0 0 3 [])).isSome = true ∧
     (sliceRoom (readVirtOf (some 0) s 0 f.ctx ent0.bbase (sliceBytes ent0 true 0) f.sub).1 0 (newSlice true 5 0 0 3 (List.replicate 16 0))).isSome = true) ∧
    (let f := fill0 (some (true, 0, ent0)); let s := allPinned (fetching f)
     (getPlot s 0).fills.find? (fun x => x.id == f.id) = some f ∧ fillTurn (getPlot s 0) f = true ∧ plotFrozen s 0 = false ∧ f.again = false ∧
     sliceRoom s 0 (newSlice true 5 0 0 3 []) = none ∧ ∀ n ∈ upFrom 1 8, pinOf s 0 n ≠ 0) ∧
    (let s := allPinned (releasing { ending none with ad := true, ids := [5], closePin := some (2, ent0) }); let nd := nodeAt (getMe s me16) 3
     plotFrozen s 0 = false ∧ (Machine.getElem s me16).killed = false ∧ closeTurn s me16 3 = some ⟨none, noFcs, false, 0⟩ ∧ nd.ids.getD nd.closedRows 0 ≠ 0 ∧
     nd.closePin = some (2, ent0) ∧ ((getPlot s 0).slices.find? fun z => z.id == 2).isSome = true ∧ ∀ i, i < 16 → nd.closedRows < i → nd.ids.getD i 0 = 0) ∧
    (let s := releasing { ending none with ad := true }
     plotFrozen s 0 = false ∧ (Machine.getElem s me16).killed = false ∧ closeTurn s me16 3 = some ⟨none, noFcs, false, 0⟩ ∧
     ∀ i, i < 16 → (nodeAt (getMe s me16) 3).ids.getD i 0 = 0) := by decide +kernel

/-! Privileged instructions, at e0 of headland 0. -/

def priv : RAct := ⟨.ch 0, .ch 0, .ch 1, .data, .none, false⟩
def priv1 : RAct := ⟨.ch 0, .ch 0, .zero, .data, .none, false⟩
def headland (i : Instr) (v : Fin 4 → Option Nat := give 0) (f : State → State := id) : State := f (placed .ce i v true)
/-- A record of die 0 with identifier 9. -/
def rec9 (report : Bool) : FaultRec :=
  { id := 4, die := 0, fid := some 9, cls := .operand, sub := 0, ctx := 0, depth := 0, flags := 0, x := 0, y := 0, site := 0, slot := 0, entry := 0, strm := 0,
    wave := 0, addr := 0, info0 := 0, info1 := 0, src := 0, count := 1, ts := 0, node := 0, items := [], report := report, queued := true, key := none }
def recorded (report : Bool) (s : State) : State := modDie { s with faults := [rec9 report] } 0 fun d => { d with store := [4] }
/-- A HELD entry of e0 of plot 0. -/
def entry1 (fid : Bool) : RqEntry := { kind := .store, slot := 0, beat := 0, wfid := fid, fid := 9, act := 0, a := 0, b := 0, c := 0, owner := 0, depth := 0 }
def replayed (fid : Bool) (s : State) : State := modElem s loc0 fun e => { e with present := true, rq := [(2, entry1 fid)] }
theorem witness_FaultInstructions : meets [
    (shapeFlt (.ch 0) .none, headland (.fltRd (.ch 0) .none) (give 0) (recorded false), fun x => (oldestFault x.s (dieOf x.l.plot)).isSome && x.s.sched.cur.beat == 0),
    (shapeFlt (.ch 0) .none, headland (.fltRd (.ch 0) .none) (give 0) (fun s => modSched s fun c => { c with cur := { c.cur with beat := 7, beats := 8 } }), fun x => x.s.sched.cur.beat != 0),
    (shapePriv priv, headland (.rpr priv .subst) (give 9 5) (recorded false), fun x => (faultOf x.s (dieOf x.l.plot) (bitsOf x.a.toWord.toNat 15 0)).any fun f => !f.report),
    (shapePriv priv, headland (.rpr priv .kill) (give 9 5) (recorded true), fun x => (faultOf x.s (dieOf x.l.plot) (bitsOf x.a.toWord.toNat 15 0)).any fun f => f.report),
    (shapePriv priv, headland (.rpr priv .retry) (give 8 5) (recorded true), fun x => (faultOf x.s (dieOf x.l.plot) (bitsOf x.a.toWord.toNat 15 0)).isNone),
    (shapePriv priv1, headland (.rqRd priv1) (give 0x32000000) (replayed false), fun x => (rqEntryOf x.s x.a.toWord).isSome),
    (shapePriv priv1, headland (.rqRd priv1) (give 0x32000F20) (replayed false), fun x => (rqEntryOf x.s x.a.toWord).isNone),
    (shapePriv priv, headland (.rqWr priv) (give 0x32000000 7) (replayed false), fun x => (rqEntryOf x.s x.a.toWord).any fun y => !y.wfid && (queueTarget x.a.toWord).2.2 == 3),
    (shapePriv priv, headland (.rqWr priv) (give 0x02000000 7) (replayed false), fun x => (rqEntryOf x.s x.a.toWord).any fun y => !y.wfid && (queueTarget x.a.toWord).2.2 == 0),
    (shapePriv priv, headland (.rqWr priv) (give 0x32000000 7) (replayed true), fun x => (rqEntryOf x.s x.a.toWord).any fun y => y.wfid),
    (shapePriv priv, headland (.rqInj priv true) (give 0x02000000 7) (replayed false), any)] ∧ (Dst.ch 0 ≠ .none ∧ State.reset.sched.nextId ≠ 0) :=
  ⟨meets_of (by decide +kernel), by decide +kernel⟩

/-- Plot 0 held by a frozen section. -/
def frozenSection (d : Bool) (st : SaveStage := .placed) (s : State) : State := sect { section1 with frz := .frozen d, stage := st } s
def target (f : BeatIn → Target → Bool) (x : BeatIn) : Bool := (readTarget x.a.toWord).any (f x)
theorem witness_ControlInstructions : meets [
    (shapePriv priv, headland (.ctxSv priv) (give 0 0x10000) (frozenSection false), target fun x t => (frozenTarget x.s t).any fun k => saveBaseOk (getParcel x.s k) x.b.toWord.toNat),
    (shapePriv priv, headland (.ctxSv priv) (give 0 0x10001) (frozenSection false), target fun x t => (frozenTarget x.s t).any fun k => !saveBaseOk (getParcel x.s k) x.b.toWord.toNat),
    (shapePriv priv, headland (.ctxSv priv) (give 0x0F1F), target fun x t => (frozenTarget x.s t).isNone),
    (shapePriv priv, headland (.ctxSv priv) (give 0x20), fun x => (readTarget x.a.toWord).isNone),
    (shapePriv priv, headland (.ctxLd priv) (give 0 0x10000) (frozenSection false), target fun _ _ => true),
    (shapePriv priv, headland (.tlbInv priv .all) (give 63 0), any), (shapePriv priv1, headland (.frz priv1) (give 0) (sect section1), target fun _ _ => true),
    (shapePriv priv1, headland (.thw priv1) (give 0) (frozenSection false), target fun x t => (frozenTarget x.s t).isSome),
    (shapePriv priv1, headland (.thw priv1) (give 0) (frozenSection true), target fun x t => (frozenTarget x.s t).any fun k => decide ((getParcel x.s k).frz = .frozen true)),
    (shapePriv priv1, headland (.cfgRld priv1) (give 0 0), target fun _ _ => true),
    (shapePriv priv, headland (.trCtl priv) (give 0 0x3000000000000), target fun x _ => bitsOf x.b.toWord.toNat 51 48 < 4),
    (shapePriv priv, headland (.trCtl priv) (give 0 0x4000000000000), target fun x _ => 4 ≤ bitsOf x.b.toWord.toNat 51 48),
    (shapePriv priv, headland (.wpSet priv 7) (give 64 64), fun x => x.a.toWord.toNat < hbmEnd && x.a.toWord.toNat % 64 == 0 && x.b.toWord.toNat % 64 == 0),
    (shapePriv priv, headland (.wpSet priv 7) (give 32 64), fun x => x.a.toWord.toNat % 64 != 0),
    (shapeIrq priv, headland (.irq priv) (give 0x1003F 5), any),
    (shapePriv priv1, headland (.spareMap priv1) (give 0), target fun _ _ => true),
    (shapeR priv, headland (.polWr priv) (give 0x8000003F 4), fun x => polTarget x.a.toWord && x.b.toWord.toNat < 5 && (polFrozen x.s x.a.toWord).isNone && (writePolicy x.s x.a.toWord x.b.toWord.toNat).isSome),
    (shapeR priv, headland (.polWr priv) (give 0 4) (frozenSection false), fun x => polTarget x.a.toWord && x.b.toWord.toNat < 5 && (polFrozen x.s x.a.toWord).isSome),
    (shapeR priv, headland (.polWr priv) (give 0 4), fun x => polTarget x.a.toWord && x.b.toWord.toNat < 5 && (polFrozen x.s x.a.toWord).isNone &&
      (writePolicy x.s x.a.toWord x.b.toWord.toNat).isNone),
    (shapeR priv, headland (.polWr priv) (give 0x8000003F 5), fun x => polTarget x.a.toWord && decide (5 ≤ x.b.toWord.toNat)),
    (shapeR priv, headland (.polWr priv) (give 0x80000040 4), fun x => !polTarget x.a.toWord)] := meets_of (by decide +kernel)

def mailbox (s : State) : State := modDie s 3 fun d => { d with hpend := true, hrid := 5 }
def unnumbered (handler : Bool) : State :=
  modDie { State.reset with faults := [{ rec9 false with fid := none }] } 0 fun d => { d with fidWait := [4], handler := handler }
theorem witness_ReplyAndIdentifiers :
    ((getDie (mailbox State.reset) 3).hpend = true ∧ (getDie (mailbox State.reset) 3).hrid ≠ 0 ∧ (getDie State.reset 3).hpend = false) ∧
    (let s := unnumbered true; (getDie s 0).fidWait = [4] ∧ freeFid s 0 = some 0 ∧ findFault s 4 = some { rec9 false with fid := none } ∧ (getDie s 0).handler = true ∧
      (rec9 false).die = 0 ∧ (rec9 false).items = []) ∧
    (let s := unnumbered false; (getDie s 0).fidWait = [4] ∧ freeFid s 0 = some 0 ∧ findFault s 4 = some { rec9 false with fid := none } ∧ (getDie s 0).handler = false) ∧
    freeFid (modDie State.reset 0 fun d => { d with nextFid := 65535 }) 0 = some 65535 := by decide +kernel

/-! Launches, nodes and the host. -/

def withQueue (f : LQueue → LQueue) (s : State := State.reset) : State := modQueue (modCtx s 63 fun c => { c with ccfg := c.ccfg ||| 1 }) 63 fun q => f { q with qcfg := 0x3FF }
def rec1 : LRec := { raw := List.replicate 64 0, seq := 0, tacc := 0 }
theorem witness_LaunchPorts :
    QueueOpen (withQueue fun q => { q with recs := List.replicate 255 rec1 }) 63 63 ∧
    (pageSeen State.reset 0 63 = true ∧ queueOn (getQueue State.reset 63) = false ∧ pageSeen State.reset 1 63 = false ∧ pageSeen State.reset 0 64 = false) ∧
    (let s := withQueue fun q => { q with recs := [rec1] }
     (getQueue s 63).recs = [rec1] ∧ nextQueue s = some 63 ∧ s.drill.launches.length < 1024 ∧ recordFormed rec1.raw = true) ∧
    (let s := withQueue fun q => { q with reset := 1 }
     s.parcels = [] ∧ s.drill.launches = [] ∧ s.drill.killLaunch = [] ∧ s.drill.killCtx = [] ∧ s.drill.killNode = [] ∧ (getQueue s 63).reset ≠ 0 ∧ (getQueue s 63).recs = []) ∧
    (∀ p, p ≠ 63 → (getQueue (withQueue fun q => { q with reset := 1 }) p).reset = 0) := by
  refine ⟨⟨?_, ?_, ?_, ?_, ?_⟩, ?_, ?_, ?_, fun p h => ?_⟩
  case refine_9 =>
    have e : (withQueue fun q => { q with reset := 1 }).drill.queues = [(63, { qcfg := 0x3FF, reset := 1 })] := by decide +kernel
    simp [getQueue, e, Tbl.findD, Tbl.find, h]
  all_goals decide +kernel
theorem witness_HostAccesses :
    (ctxOn State.reset 63 = false ∧ ctxOn (withQueue id) 63 = true) ∧ (1#256).getLsbD 0 = true ∧
    ((let s := paged State.reset; Memory.wf s.mem = true ∧ sealedPa s (2 ^ 39 - 64) 64 = false ∧ (getDie s (hbmDie (2 ^ 39 - 64))).wps = Vector.replicate 8 {} ∧
      s.reeve.lock = false ∧ s.memPoison = [])) ∧
    (0 < 64 ∧ (2 ^ 39 - 64) / 64 = (2 ^ 39 - 64 + 64 - 1) / 64 ∧ 2 ^ 39 - 64 + 64 ≤ 2 ^ 39) := by decide +kernel

/-- A record with a few bytes given. -/
def raw (xs : List (Nat × Byte)) : List Byte := (List.range 64).map fun i => ((xs.find? fun x => x.1 == i).map (·.2)).getD 0
/-- Launch 3 of context 0, which is enabled, with its node 1. -/
def node (ty : Byte) (xs : List (Nat × Byte)) (ph : NPhase) (f : NodeSt → NodeSt := id) : NodeSt := f { addr := 0x10000, raw := raw ((0, ty) :: xs), phase := ph }
def launched (x : NodeSt) (f : Launch → Launch := id) (s : State := State.reset) : State :=
  modDrill (modCtx { s with sched := { s.sched with nextId := 9, cycle := 2700000 } } 0 fun c => { c with ccfg := 1 }) fun d => { d with launches := [(3, f { nodes := [(1, x)] })] }
theorem witness_NodeSteps :
    (let x := node 6 [] .outside; let s := launched x
     (sortKey byOrder ((nodesIn s .outside).filter fun y => y.1 == 3)).head? = some (3, 1, x) ∧ granaryLoad s < 4096 ∧ (getGNode s 3 1).isSome ∧
     x.since + 2700000 ≤ now s) ∧
    (let x := node 2 [(0x18, 4), (0x19, 8), (0x1A, 7)] .granary; let s := launched x
     nextDispatch s = some (3, 1, x) ∧ isEngineNode x = true ∧ (nodeEngine s x).isSome) ∧
    (let x := node 4 [(0x12, 1), (0x21, 0x80)] .running; let s := paged (launched x)
     (activeNode s 3 1 4 = some x ∧ x.sub_ = none) ∧ (lineHome s 0 0 true (fieldAt x.raw 0x10 8) 8).2.isOk = true ∧
     (writePiece s 0 0 (fieldAt x.raw 0x10 8) (bytesOf 8 0) (6 * 2 ^ 28) 512 0xFF).2 = none ∧ bitOf (fieldAt x.raw 0x20 2) 15 = true) ∧
    (let x := node 8 [(0x12, 1), (0x19, 1), (0x22, 1)] .running; let s := paged (launched x)
     (activeNode s 3 1 8 = some x ∧ x.sub_ = none) ∧ (match nodeWord s 3 x with | (s', .ok v) => (branchSet s' (getLaunch s' 3).ctx x.raw v).isSome | _ => false) = true) ∧
    (let x := node 5 [(0x12, 1)] .running; let y := node 5 [(0x12, 1), (0x18, 1), (0x2C, 1)] .running; let s := paged (launched x)
     activeNode s 3 1 5 = some x ∧ x.pollAt ≤ now s ∧ (nodeWord s 3 x).2.isOk = true ∧ waitHolds x.raw 0 = true ∧ waitHolds y.raw 0 = false ∧ waitExpired s y = true) ∧
    (let x := node 9 [] .running; let s := launched x fun y => { y with level := 8 }; let t := launched x fun y => { y with level := 7 }
     activeNode s 3 1 9 = some x ∧ x.nested = none ∧ (getLaunch s 3).ends = .no ∧ (getLaunch t 3).ends = .no ∧ 8 ≤ (getLaunch s 3).level ∧ activeNode t 3 1 9 = some x ∧ (getLaunch t 3).level < 8 ∧ t.drill.launches.length < 1024) ∧
    (let s := launched (node 6 [] .running) fun y => { y with raw := raw [(0x30, 1)] }; let y := getLaunch s 3
     y.parent = none ∧ fieldAt y.raw 0x30 4 ≠ 0 ∧ y.taken + cyclesOfNs (1000 * fieldAt y.raw 0x30 4) ≤ now s ∧ y.ends = .no ∧
     (Tbl.find (settleDrill drillRounds ((s.parcels.map (·.1)).foldl retireStep s)).drill.launches 3).isSome) := by
  refine ⟨?_, ?_, ?_, ?_, ?_, ?_, ?_⟩ <;> decide +kernel

/-- A Jerix kernel at virtual 0x10000 of context 0, which the device knows: its header, the Jerix header at 0x40, its function's entry at 0x80, the one
actor at 0xA0, the one edge at 0xC0, from the actor's output of rate 1 to its input of rate 2, and the two port words at 0xF0. -/
def kernelCells : List Host.Cell :=
  [(0x40000, 0x4E), (0x40001, 0x59), (0x40002, 0x4D), (0x40003, 0x4B), (0x40004, 1), (0x40006, 2), (0x40008, 1), (0x4000C, 0x78), (0x4000D, 1),
   (0x40040, 0x4A), (0x40041, 0x45), (0x40042, 0x52), (0x40043, 0x58), (0x40044, 1), (0x40046, 1), (0x40048, 1), (0x4004A, 1), (0x40050, 0x60),
   (0x40054, 0x80), (0x40058, 0x40),
   (0x40080, 0x4A), (0x40081, 0x46), (0x40082, 0x55), (0x40083, 0x4E), (0x40084, 0x80), (0x40085, 0xFF), (0x40086, 0xFF), (0x40087, 0xFF), (0x4008A, 1),
   (0x400A1, 1), (0x400A2, 1), (0x400A4, 1), (0x400A5, 1), (0x400A8, 0x90), (0x400AC, 0xB0), (0x400B0, 0xB8), (0x400F0, 2), (0x400F4, 1)]
def known (s : State) : State := modDrill (pagedWith kernelCells s) fun d => { d with kernels := [(0, 0x10000, 0)] }
def fnode (f : NodeSt → NodeSt := id) : NodeSt := node 1 [(0x10, 0x80), (0x12, 1)] .granary f
/-- A section to resume, on a fixed origin where a section of lower priority stands. -/
def resumed (taken : Bool) : State :=
  let s := launched (node 1 [] .granary fun x => { x with parcel := some 7, prio := 5 })
  let s := { s with parcels := [(7, { pinned := some (15, 7) }), (8, {})] }
  if taken then modCtx (modPlot s (plotAt 15 7) fun p => { p with parcel := some 8 }) 0 fun c => { c with csvn := 1 } else s
/-- The launch names that function; a request to translate it. -/
def naming : State := known (launched fnode)
/-- What is read of that kernel from its Jerix header on; without the edge, and the ports of the actor, it can be translated. -/
def kernelBody (edge : Bool) : List Byte := (List.range 0x138).map fun i =>
  if !edge && (i == 8 || i == 0x64 || i == 0x65) then 0 else ((kernelCells.find? fun c => c.1 == 0x40040 + i).map (·.2)).getD 0
def request0 (edge : Bool) (key : BitVec 256 := 0) : Xlate :=
  { id := 6, key := key, ctx := 0, fun_ := 0x10080, shape := 0, entry := ((kernelBody edge).drop 0x40).take 32, at_ := 0x40, body := kernelBody edge }
/-- Node 1 waits for that translation. -/
def translating (edge : Bool) : State :=
  modDrill { naming with drill := (launched (fnode fun x => { x with xlate := some 6 })).drill } fun d => { d with xlates := [request0 edge], kernels := [(0, 0x10000, 0)] }
theorem witness_PlacementAndTranslation :
    (let x := node 1 [] .granary fun x => { x with parcel := some 7, prio := 5 }
     isSection x = true ∧ (nextDispatch (resumed false) = some (3, 1, x) ∧ decision (resumed false) 3 1 x = .place 15 7) ∧
     (nextDispatch (resumed true) = some (3, 1, x) ∧ decision (resumed true) 3 1 x = .reserve 15 7)) ∧
    (let x := node 1 [(0x28, 0x06)] .granary; let s := launched x
     nextDispatch s = some (3, 1, x) ∧ decision s 3 1 x = .fail 9 ∧ x.parcel = none) ∧
    (let s := naming
     nextLookup s = some (3, 1, fnode) ∧ (match lookupNode s 3 fnode with | .starts _ _ => true | _ => false) = true) ∧
    (let s := translating true
     s.drill.xlates.find? (fun u => u.id == 6) = some (request0 true) ∧ (xlateNodes s 6).length = 1 ∧
     (match runTranslation (request0 true) with | .error (.fail a b c) => a == 1 && b == 0 && c == 0 | _ => false) = true) ∧
    (let s := translating false
     s.drill.xlates.find? (fun u => u.id == 6) = some (request0 false) ∧ (xlateNodes s 6).length = 1 ∧
     (match runTranslation (request0 false) with | .ok _ => true | _ => false) = true) := by
  refine ⟨⟨?_, ⟨?_, ?_⟩, ?_, ?_⟩, ?_, ?_, ?_, ?_⟩ <;> decide +kernel

/-- The code heap holds the image that the function's key leads to. -/
@[irreducible] def key0 : BitVec 256 := (namedFunction naming 0 0x10080).elim 0 fun f => siloKey f 0
def image0 : HeapEnt := { key := key0, addr := heapBase, len := 64, last := 0, tokens := [] }
def heaped : State := modDrill naming fun d => { d with heap := [image0] }
theorem siloKey_congr {x y : Named} (hk : x.kernel = y.kernel) (he : x.entry = y.entry) : siloKey x 0 = siloKey y 0 := by
  unfold siloKey; rw [hk, he]
/-- A state that differs from `naming` in its heap, its translations and its silo names the same key. -/
theorem same_key (s : State) (hs : (namedFunction s 0 0x10080).map (fun f => (f.kernel, f.entry)) = (namedFunction naming 0 0x10080).map fun f => (f.kernel, f.entry)) :
    ∃ g, namedFunction s 0 0x10080 = some g ∧ siloKey g 0 = key0 := by
  obtain ⟨f, hf⟩ := Option.isSome_iff_exists.mp (by decide +kernel : (namedFunction naming 0 0x10080).isSome = true)
  have hk : key0 = siloKey f 0 := by
    unfold key0; rw [hf, Option.elim_some]
  rw [hf] at hs
  cases hg : namedFunction s 0 0x10080 with
  | none => rw [hg] at hs; cases hs
  | some g =>
    rw [hg] at hs
    simp only [Option.map_some, Option.some.injEq, Prod.mk.injEq] at hs
    exact ⟨g, rfl, (siloKey_congr hs.1 hs.2).trans hk.symm⟩
theorem witness_PlacementAndTranslation_heap : lookupNode heaped 3 fnode = .heap image0 ∧ nextLookup heaped = some (3, 1, fnode) := by
  obtain ⟨g, hg, hk⟩ := same_key heaped (by decide +kernel)
  have hl : lookupNode heaped 3 fnode = .heap image0 := by
    have hs : nodeShape fnode = 0 := by decide +kernel
    have ha : fieldAt fnode.raw 0x10 8 = 0x10080 := by decide +kernel
    have hc : (getLaunch heaped 3).ctx = 0 := by decide +kernel
    have hh : heaped.drill.heap = [image0] := rfl
    have hb : (image0.key == key0) = true := beq_self_eq_true key0
    simp only [lookupNode, hc, ha, hg, hs, hh, hk, List.find?_cons, hb]
  have hn : sortKey byOrder ((nodesIn heaped .granary).filter (needsLookup heaped)) = [(3, 1, fnode)] := by decide +kernel
  exact ⟨hl, by simp [nextLookup, hn, hl]⟩

/-- A translation of the same key is in progress; the silo holds an entry of the key. -/
def joining : State := modDrill naming fun d => { d with xlates := [request0 true key0] }
def entry0 : SiloEnt := { key := key0, image := [0], tokens := [], hits := 0, last := 0, block := 0, trailKey := key0, trailCrc := crc64 (entryBytes [0] []) }
def siloed : State := modDrill naming fun d => { d with silo := [entry0] }
theorem entry0_good : entry0.good = true := by
  have h : (entry0.trailCrc == crc64 (entryBytes entry0.image entry0.tokens)) = true := by decide +kernel
  simp only [SiloEnt.good, h, Bool.and_true]
  exact beq_self_eq_true key0
theorem witness_PlacementAndTranslation_joins : lookupNode joining 3 fnode = .joins 6 ∧ nextLookup joining = some (3, 1, fnode) := by
  obtain ⟨g, hg, hk⟩ := same_key joining (by decide +kernel)
  have hl : lookupNode joining 3 fnode = .joins 6 := by
    have hs : nodeShape fnode = 0 := by decide +kernel
    have ha : fieldAt fnode.raw 0x10 8 = 0x10080 := by decide +kernel
    have hc : (getLaunch joining 3).ctx = 0 := by decide +kernel
    have hh : joining.drill.heap = [] := by decide +kernel
    have hx : joining.drill.xlates = [request0 true key0] := rfl
    have hb : ((request0 true key0).key == key0) = true := beq_self_eq_true key0
    simp only [lookupNode, hc, ha, hg, hs, hh, hx, hk, List.find?_cons, List.find?_nil, hb]
    rfl
  have hn : sortKey byOrder ((nodesIn joining .granary).filter (needsLookup joining)) = [(3, 1, fnode)] := by decide +kernel
  exact ⟨hl, by simp [nextLookup, hn, hl]⟩
theorem witness_PlacementAndTranslation_silo : (∃ k, lookupNode siloed 3 fnode = .silo k entry0) ∧ nextLookup siloed = some (3, 1, fnode) := by
  obtain ⟨g, hg, hk⟩ := same_key siloed (by decide +kernel)
  have hl : lookupNode siloed 3 fnode = .silo g.kernel entry0 := by
    have hs : nodeShape fnode = 0 := by decide +kernel
    have ha : fieldAt fnode.raw 0x10 8 = 0x10080 := by decide +kernel
    have hc : (getLaunch siloed 3).ctx = 0 := by decide +kernel
    have hh : siloed.drill.heap = [] := by decide +kernel
    have hx : siloed.drill.xlates = [] := by decide +kernel
    have hz : siloed.drill.silo = [entry0] := rfl
    have hb : (entry0.key == key0) = true := beq_self_eq_true key0
    simp only [lookupNode, hc, ha, hg, hs, hh, hx, hz, hk, List.find?_cons, List.find?_nil, hb, entry0_good, Bool.and_self]
  have hn : sortKey byOrder ((nodesIn siloed .granary).filter (needsLookup siloed)) = [(3, 1, fnode)] := by decide +kernel
  exact ⟨⟨_, hl⟩, by simp [nextLookup, hn, hl]⟩

/-! Sections, errors and the Reeve. -/

/-- Plot 0 held by section 1, which a node's reservation wants, of a context with n save slots. -/
def wantedBy (p : Parcel) (n : BitVec 32) : State :=
  modCtx (sect p (launched (node 1 [] .granary fun x => { x with reserved := some (0, 0) }))) 0 fun c => { c with csvn := n }
/-- What a section saved at plot 9 left in the area of base 64. -/
def saved1 : Saved := { base := 64, x0 := 9, y0 := 0, w := 1, h := 1, owner := 1, parcel := {}, elems := [], plots := [], les := [], ses := [], mes := [], reqs := [], results := [], lines := [], cmds := [] }
theorem witness_FreezeAndSave :
    Wanted (wantedBy {} 1) 1 {} ∧ freeSaveSlot (getCtx (wantedBy {} 1) 0) = some 0 ∧ freeSaveSlot (getCtx (wantedBy {} 0) 0) = none ∧ ({} : Parcel).frz = .run ∧
    (let p : Parcel := { frz := .stopping false, frzAcks := [7] }; let s := sect p (words 0 0)
     Tbl.find s.parcels 1 = some p ∧ p.ending = none ∧ parcelStopped s 1 = true ∧ 7 ∈ p.frzAcks) ∧
    (let p : Parcel := { frz := .frozen true, stage := .freezing, saveSlot := some 0 }; Tbl.find (sect p (words 0 0)).parcels 1 = some p) ∧
    (let p : Parcel := { stage := .resuming }
     let s := modPlot { sect p State.reset with saved := [saved1] } 0 fun q => { q with cslot := some 3, cslots := q.cslots.set 3 { st := .pinned, block := [] } }
     Tbl.find s.parcels 1 = some p ∧ s.saved.find? (fun v => v.owner == 1) = some saved1 ∧
     ((parcelPlots p).all fun n => (getPlot s n).empty || (pinnedBlock (getPlot s n)).isSome) = true) := by
  refine ⟨⟨?_, ?_, ?_⟩, ?_, ?_, ?_, ?_, ?_, ?_⟩ <;> decide +kernel

/-- Section 1 on plot 0, not started, whose image stands at virtual 0x10000 and whose block 64 bytes on. -/
def loading : Parcel := { desc := 0x10000, plotOffs := [64], kern := (0x10000, 0x10000), gen := 2 }
def configured (f : Plot → Plot) : State :=
  modPlot (modDrill (sect loading (pagedWith [(0x40040, 64)] State.reset)) fun d => { d with kernels := [(0, 0x10000, 0)] }) 0 f
/-- A block with nothing on its plot. -/
def block0 : List Byte := 64 :: List.replicate 63 0
def cslot (c : CSlot) (q : Plot) : Plot := { q with cslot := some 3, cslots := q.cslots.set 3 c }
theorem witness_ConfigurationSteps :
    (Configures (configured id) 0 1 0 loading ∧ (getPlot (configured id) 0).cslot = none) ∧
    (let s := configured (cslot { st := .filling })
     Configures s 0 1 0 loading ∧ (getPlot s 0).cslot = some 3 ∧ (cslotAt (getPlot s 0) 3).st = .filling ∧ (cslotAt (getPlot s 0) 3).blen = 0 ∧
     agentTurn s loading 0 0 = true ∧ blockWithin loading 0 64 = true ∧
     ((configBytes s loading (getPlot s 0) (0x10000 + plotOff loading 0) 64).toOption.any fun bs => fieldAt bs 0 4 == 64) = true) ∧
    (let c : CSlot := { st := .filling, blen := 513, block := List.replicate 513 0, todo := [0, 1] }; let s := configured (cslot c)
     Configures s 0 1 0 loading ∧ (getPlot s 0).cslot = some 3 ∧ cslotAt (getPlot s 0) 3 = c ∧ c.blen ≠ 0 ∧ 1 ∈ c.todo ∧ (putPacket c 1 [0]).todo ≠ [] ∧
     agentTurn s loading 0 0 = true ∧ c.st = .filling ∧
     (configBytes s loading (getPlot s 0) (0x10000 + plotOff loading 0 + 512) 1).toOption = some [0]) ∧
    (let c : CSlot := { st := .filling, blen := 64, block := List.replicate 64 0, todo := [0] }; let s := configured (cslot c)
     Configures s 0 1 0 loading ∧ cslotAt (getPlot s 0) 3 = c ∧ agentTurn s loading 0 0 = true ∧ 0 ∈ c.todo ∧ (putPacket c 0 block0).todo = [] ∧ (getPlot s 0).restore = false ∧
     (configBytes s loading (getPlot s 0) (0x10000 + plotOff loading 0 + 512 * 0) (min 512 64)).toOption = some block0) ∧
    (let s := configured (cslot { st := .pinned, block := block0 })
     Configures s 0 1 0 loading ∧ pinnedBlock (getPlot s 0) = some block0 ∧ (getPlot s 0).loaded = false ∧ kernelGood s 0 false (parcelKernel loading) = true ∧
     plotBreak s loading 0 block0 = none ∧ inputClashes loading 0 = [] ∧ straysInto loading 0 = [] ∧ plotPatches loading 0 = [] ∧
     (match decodePlot loading 0 block0 with | .ok c => (loadPlot s loading 0 c).any fun u => !(getPlot u 0).held | .error _ => false) = true) ∧
    (let s := configured fun q => cslot { st := .pinned, block := [] } { q with loaded := true }
     Configures s 0 1 0 loading ∧ pinnedBlock (getPlot s 0) = some [] ∧ (getPlot s 0).restore = false ∧ (getPlot s 0).loaded = true ∧ plotPatches loading 0 = []) ∧
    (let s := configured (cslot { st := .pinned, block := [] })
     Configures s 0 1 0 loading ∧ pinnedBlock (getPlot s 0) = some [] ∧ (getPlot s 0).restore = false ∧ (getPlot s 0).loaded = false ∧
     (match decodePlot loading 0 [] with | .error _ => true | .ok _ => false) = true) ∧
    (let s := modElem (configured fun q => cslot { st := .pinned, blen := 0 } { q with cfgFrozen := true }) loc0 fun e => { e with present := true, cfgFrozen := true }
     (Machine.getElem s loc0).present = true ∧ (Machine.getElem s loc0).cfgFrozen = true ∧ (getPlot s 0).cfgFrozen = true ∧ reloadOk s 0 none = true ∧ reloadOk s 0 (some 0) = true) := by
  refine ⟨⟨?_, ?_⟩, ⟨?_, ?_⟩, ⟨?_, ?_⟩, ⟨?_, ?_⟩, ⟨?_, ?_⟩, ⟨?_, ?_⟩, ⟨?_, ?_⟩, ?_⟩
  all_goals first | (show configuring _ _ = _; decide +kernel) | decide +kernel

theorem witness_SettleAndRetire :
    (let s := sect {} (words 0 0); Tbl.find s.parcels 1 = some {} ∧ parcelRuns {} = true ∧ ({} : Parcel).settled = false ∧ s.reeve.railsOff = false) ∧ parcelRuns { frz := .stopping true } = false ∧
    (let p : Parcel := { settled := true }; Tbl.find (sect p (words 0 0)).parcels 1 = some p ∧ parcelReqs (sect p (words 0 0)) 1 = [] ∧ p.anyKill = none ∧ p.timedOut = none) ∧
    (let p : Parcel := { settled := true, timedOut := some 5 }; Tbl.find (sect p (words 0 0)).parcels 1 = some p ∧ parcelReqs (sect p (words 0 0)) 1 = [] ∧ p.anyKill = none) ∧
    (let p : Parcel := { settled := true, anyKill := some (.arith, 0, 0) }; Tbl.find (sect p (words 0 0)).parcels 1 = some p ∧ parcelReqs (sect p (words 0 0)) 1 = []) ∧
    (let p : Parcel := { ending := some { status := 6, sub := 1, info := 0 } }; let s := sect p (words 0 0); let u := endWaves (discardFaults (dropFreeze s 1) 1) 1
     Tbl.find s.parcels 1 = some p ∧ parcelReqs u 1 = [] ∧ u.cmds = []) ∧
    (wdogDue { wdogOn := true, wdog := 1, wdogRan := 2700 } = true ∧ wdogDue { wdogOn := true, wdog := 1, wdogRan := 2699 } = false) := by decide +kernel

theorem witness_ErrorsAndRepair :
    (hbmEnd - 1 < 2 ^ 39) ∧ ((Machine.getElem (words 0 0) loc0).present = true ∧ (Machine.getElem (words 0 0) loc0).dead = false) ∧
    (cslotAt (getPlot (configured (cslot { st := .valid })) 0) 3).st = .valid ∧ (State.reset.memPoison = [] ∧ (getPlot State.reset 0).poison = []) ∧
    (let s := modPlot State.reset 5 fun p => { p with poison := [64] }; poisoned (getPlot s 5).poison 64 1 = true ∧ bankLines s 5 (bankOf (getPlot s 5).hash 64) = []) ∧
    (Tbl.findD State.reset.reeve.spares 3 0 < 2 ∧ 2 ≤ Tbl.findD [(3, 2)] 3 0) ∧ (State.reset.reeve.ports[11]?).isSome = true ∧
    (let s := modPlot State.reset 5 fun p => { p with trace := { p.trace with post := some 0 } }; (getPlot s 5).trace.post = some 0) := by decide +kernel
theorem witness_ErrorsAndRepair_store : ∀ plot, (getPlot State.reset plot).poison = [] := fun _ => rfl
theorem witness_PowerFirmwareAttestation :
    dieExists 0 = true ∧ State.reset.reeve.fwstat ≠ 1 ∧ State.reset.reeve.atindex < 2 ^ 40 ∧
    (let r : Reeve := { State.reset.reeve with staged := true, toSwitch := 1 }; r.staged = true ∧ r.toSwitch ≤ 1) ∧
    (let r : Reeve := { State.reset.reeve with staged := true, toSwitch := 2, atindex := 2 ^ 40 }; r.staged = true ∧ 1 < r.toSwitch ∧ 2 ^ 40 ≤ r.atindex) := by decide +kernel

/-! Words and steps. -/

theorem witness_Encodings :
    ((Instr.mma (mmaOf .outer)).wf .me false && (Instr.fltRd (.ch 0) .none).wf .ce true && (Instr.frcp ok1 plainFp).wf .fe false) = true ∧
    Slot.wf .ce false 0 ⟨⟨2, .w2, 5, some ⟨true, .last⟩, 0x0A, 0x02⟩, .fmul ⟨.ch 1, .ch 0, .ch 2, .mark, .result 3, false⟩ ⟨.bf16, ⟨true, false, false⟩⟩⟩ = true ∧
    (match decodeAction .le false 0xD5113B48 with | .ok _ => true | _ => false) = true ∧
    (match decodeSlot .ce false 0 0xA2B90A02A53152D4 with | .ok (some _) => true | _ => false) = true := by decide +kernel
theorem witness_IllegalWords :
    reservedOp .ce false 0x1B ∧ reservedOp .me true 0x1F ∧ reservedOp .ce false 0x70 ∧ ¬reservedOp .ce true 0x70 ∧ reservedOp .fe false 0x7F ∧ reservedOp .se false 0x2E ∧
    reservedOp .le false 0x67 ∧ reservedOp .le false 0x70 ∧ ¬reservedOp .le false 0x68 ∧ reservedOp .xe false 0x7F ∧ reservedOp .me false 0x28 ∧ ¬reservedOp .me false 0x27 ∧
    (badTrigger .ce 0xC0000000 ∧ badTrigger .ce 0x8A000000 ∧ badTrigger .ce 0x80100000 ∧ badTrigger .ce 0x80010000 ∧ badTrigger .ce 0x80000001 ∧ badTrigger .se 0x86800000) ∧
    (0x8A00000000000000#64).getLsbD 63 = true ∧ (0x7FFFFFFFFFFFFFFF#64).getLsbD 63 = false ∧ 0x7FFFFFFFFFFFFFFF#64 ≠ 0#64 ∧ Gen.slots .d1 ≤ 15 := by
  simp [reservedOp, badTrigger]; decide

/-- e0's turn comes; its slot s0 holds a word. -/
def turnOf (w : BitVec 64) (f : Elem → Elem := id) : State :=
  let s := modElem (placed .ce (.add ok2 ctl) (give 3 5)) loc0 fun e => f { e with slots := e.slots.set 0 w }
  modSched s fun c => { c with moves := [], agenda := [.elem loc0], stalls := [] }
def addSlot : Slot := ⟨placedTrig (.add ok2 ctl), .add ok2 ctl⟩
theorem witness_StepRunsDecoded :
    (let s := turnOf ((encodeSlot addSlot).getD 0)
     s.sched.moves = [] ∧ s.sched.agenda = [.elem loc0] ∧ hasRedo (turnTaken s []) loc0 = false ∧ pickSlot specOf (turnTaken s []) loc0 = some (0, addSlot)) ∧
    (let s := turnOf 0 fun e => { e with redo := [{ slot := 0, beat := 0, mode := .resume, a := 0, b := 0, c := 0, depth := 1 }] }; hasRedo (turnTaken s []) loc0 = true) ∧
    (let s := turnOf 0; hasRedo (turnTaken s []) loc0 = false ∧ pickSlot specOf (turnTaken s []) loc0 = none) ∧
    (let s := modSched State.reset fun c => { c with agenda := [.ev .drillStep] }; s.sched.moves = [] ∧ s.sched.agenda = [.ev .drillStep] ∧ s.sched.stalls = []) ∧
    (let s := modSched State.reset fun c => { c with moves := [.powerUp] }; s.sched.moves = [.powerUp]) ∧ (State.reset.sched.moves = [] ∧ State.reset.sched.agenda = []) ∧
    (∀ r ∈ State.reset.faults, r.unheard = false) := by
  decide +kernel
theorem witness_PickerRule : (let s := turnOf ((encodeSlot addSlot).getD 0)
    elemPicks s loc0 = true ∧ slotReady specOf s loc0 0 = some addSlot ∧ pickSlot specOf s loc0 = some (0, addSlot)) := by decide +kernel
/-- A slot that tests for the FAULT that stands in i0. -/
theorem witness_ReadinessRule :
    (let x : Slot := ⟨{ addSlot.trig with test := some ⟨false, .fault⟩ }, addSlot.act⟩
     let s := turnOf ((encodeSlot x).getD 0) fun e => { e with ins := e.ins.set 0 (showing [{ tag := .fault, val := 0 }]) }
     slotReady specOf s loc0 0 = some x ∧ headFault s loc0 0 = true ∧ x.trig.ic.getLsbD 0 = true) := by decide +kernel
theorem witness_BeatCommits :
    (let s := words 1 2; let r : Route := ⟨⟨0, 1⟩, 0, false, 0, false⟩
     (outPort (Machine.getElem s s.sched.cur.l) 0).route = some r ∧ r.long = false ∧ locKey r.dst ≠ locKey s.sched.cur.l ∧ (Machine.getElem s r.dst).killed = false ∧
     (shapeR (two (.ch 0))).async = false ∧ (shapeR (two (.ch 0))).dst = .ch 0 ∧ locKey ⟨1, 0⟩ ≠ locKey s.sched.cur.l ∧ s.sched.cur.beats ≤ 16) ∧
    (let o : BeatOut := { v := 7, flags := 0x1F }; o.upd = id ∧ o.post = id ∧ o.only = none) := ⟨by decide +kernel, rfl, rfl, rfl⟩
theorem witness_PlainFrame_fcvt : (beatIn (shapeR3 (two (.d 0))) (words 1 0x41)).any (fun x => (cvtDesc x.b.toWord).any fun d => d.rnd != 4) = true := by decide +kernel
theorem witness_PlainFrame : plainAction (.add ok2 ctl) = true ∧ (match exec (.add ok2 ctl) (words 1 2) with | .next _ => true | _ => false) = true := by decide +kernel
def handled (s : State) : State := modDie s 0 fun d => { d with handler := true }
theorem witness_BeatHeld :
    (∀ s ∈ [words 1 2, handled (words 1 2)],
     (beatIn (shapeR (two (.d 0))) s).isSome = true ∧ FaultClass.operand ≠ .memerr ∧ s.sched.cur.beat < 16 ∧ loc0.plot < 512 ∧ freeEntry (Machine.getElem s loc0).rq = some 0 ∧
     freeFid s (dieOf 0) = some 0 ∧ ∀ r ∈ s.faults, r.id < s.sched.nextId) := by decide +kernel
theorem witness_FaultReference : ({ rec9 false with fid := some 65535, die := 3 } : FaultRec).fid = some 65535 ∧ 65535 < 65536 ∧ 3 < 4 := by decide
def again (m : BeatMode) (s : State) : State := modSched s fun c => { c with cur := { c.cur with mode := m, cap := some (1, 2, 0) } }
theorem witness_FiringRepairs :
    (let r : FaultRec := { rec9 false with items := [⟨.firing loc0 2, 0⟩] }; let s := replayed false (words 1 2)
     r.items = [⟨.firing loc0 2, 0⟩] ∧ r.cls ≠ .memerr ∧ Tbl.find (Machine.getElem s loc0).rq 2 = some (entry1 false) ∧ heldPart s loc0 (entry1 false).slot = false) ∧
    (let s := again .resume (words 1 2); (Machine.getElem s loc0).present = true ∧ beatReady (shapeR (two (.d 0))) s = true ∧ (beatIn (shapeR (two (.d 0))) s).isSome = true) ∧
    (let s := again (.subst 9) (words 1 2); beatReady (shapeR (two (.d 0))) s = true ∧ (beatIn (shapeR (two (.d 0))) s).isSome = true ∧ (shapeR (two (.d 0))).soft = false) := by
  decide +kernel
theorem witness_StepKeepsMemoryForm : MemoryOk State.reset ∧ Machine.step State.reset = .next (tick State.reset) := ⟨rfl, rfl⟩

end Sys2Proof.Tests
end

section
/-!
SUPPORT. A list sorted by `sortKey` holds what the list held, in the order of the key; the launches and nodes of the drill after an update, and what no
update of a launch in progress changes of it: its parent, its level and its context.
-/

namespace Sys2Proof.Laws

open Machine

/-! ### Lists in the order of a key -/

section
variable {α : Type} {lt : α → α → Bool}

theorem mem_insertKey {x y : α} {ys : List α} : y ∈ insertKey lt x ys ↔ y = x ∨ y ∈ ys := by
  induction ys with
  | nil => simp [insertKey]
  | cons z ys ih =>
    unfold insertKey
    split
    · simp
    · simp only [List.mem_cons, ih]; exact or_left_comm

theorem mem_sortKey {y : α} {xs : List α} : y ∈ sortKey lt xs ↔ y ∈ xs := by
  suffices h : ∀ acc : List α, y ∈ xs.foldl (fun ys x => insertKey lt x ys) acc ↔ y ∈ acc ∨ y ∈ xs by simpa [sortKey] using h []
  induction xs with
  | nil => simp
  | cons x xs ih => intro acc; simp only [List.foldl_cons, ih, mem_insertKey, List.mem_cons]; exact or_assoc.trans or_left_comm

/-- No element of the list comes before one that stands ahead of it. -/
def Ordered (lt : α → α → Bool) (xs : List α) : Prop := xs.Pairwise fun a b => lt b a = false

theorem ordered_insertKey (asymm : ∀ a b, lt a b = true → lt b a = false) (trans : ∀ a b c, lt a b = true → lt b c = true → lt a c = true)
    {x : α} {ys : List α} (h : Ordered lt ys) : Ordered lt (insertKey lt x ys) := by
  induction ys with
  | nil => exact List.pairwise_singleton _ _
  | cons y ys ih =>
    obtain ⟨hy, hys⟩ := List.pairwise_cons.1 h
    unfold insertKey
    split
    case isTrue hxy =>
      refine List.pairwise_cons.2 ⟨fun z hz => ?_, h⟩
      rcases List.mem_cons.1 hz with rfl | hz
      · exact asymm x z hxy
      · exact Bool.eq_false_iff.2 fun hzx => Bool.eq_false_iff.1 (hy z hz) (trans z x y hzx hxy)
    case isFalse hxy =>
      refine List.pairwise_cons.2 ⟨fun z hz => ?_, ih hys⟩
      rcases mem_insertKey.1 hz with rfl | hz
      · exact Bool.eq_false_iff.2 hxy
      · exact hy z hz

theorem ordered_sortKey (asymm : ∀ a b, lt a b = true → lt b a = false) (trans : ∀ a b c, lt a b = true → lt b c = true → lt a c = true)
    (xs : List α) : Ordered lt (sortKey lt xs) :=
  List.foldlRecOn xs _ List.Pairwise.nil fun _ h _ _ => ordered_insertKey asymm trans h

/-- What is found first in the order of the key has no eligible element before it. -/
theorem find_ordered_first (irrefl : ∀ a, lt a a = false) {xs : List α} (h : Ordered lt xs) {p : α → Bool} {x y : α}
    (hx : xs.find? p = some x) (hy : y ∈ xs) (hp : p y = true) : lt y x = false := by
  obtain ⟨-, before, after, rfl, hbefore⟩ := List.find?_eq_some_iff_append.1 hx
  rcases List.mem_append.1 hy with hy | hy
  · have := hbefore y hy; simp [hp] at this
  · rcases List.mem_cons.1 hy with rfl | hy
    · exact irrefl y
    · exact (List.pairwise_cons.1 (List.pairwise_append.1 h).2.1).1 y hy

end

theorem byRank_eq_true {a b : Nat × Nat × NodeSt} :
    byRank a b = true ↔ b.2.2.prio < a.2.2.prio ∨ (a.2.2.prio = b.2.2.prio ∧ a.2.2.order < b.2.2.order) := by simp [byRank]

theorem byRank_eq_false {a b : Nat × Nat × NodeSt} :
    byRank a b = false ↔ a.2.2.prio ≤ b.2.2.prio ∧ (a.2.2.prio = b.2.2.prio → b.2.2.order ≤ a.2.2.order) := by simp [byRank]

theorem ordered_byRank (xs : List (Nat × Nat × NodeSt)) : Ordered byRank (sortKey byRank xs) := by
  refine ordered_sortKey (fun a b h => ?_) (fun a b c h h' => ?_) xs
  · rw [byRank_eq_true] at h; rw [byRank_eq_false]; omega
  · rw [byRank_eq_true] at *; omega

/-! ### Launches and nodes after an update -/

theorem getGNode_modGNode_same (s : State) (l n : Nat) (f : NodeSt → NodeSt) : getGNode (modGNode s l n f) l n = (getGNode s l n).map f := by
  unfold getGNode nodeState modGNode Tbl.findD
  rw [find_modLaunch_same]
  cases Tbl.find s.drill.launches l with
  | none => rfl
  | some x => exact find_alter_same x.nodes n f

@[simp] theorem getGNode_bumpId (s : State) (l n : Nat) : getGNode (bumpId s) l n = getGNode s l n := rfl

@[simp] theorem cmds_modGNode (s : State) (l n : Nat) (f : NodeSt → NodeSt) : (modGNode s l n f).cmds = s.cmds := rfl

@[simp] theorem cmds_bumpId (s : State) : (bumpId s).cmds = s.cmds := rfl

/-- Where a launch stands: its parent, its level and its context. -/
def launchSeat (s : State) (m : Nat) : Option (Option (Nat × Nat) × Nat × Nat) :=
  (Tbl.find s.drill.launches m).map fun z => (z.parent, z.level, z.ctx)

theorem launchSeat_eq_some {s : State} {m : Nat} {p : Option (Nat × Nat)} {level ctx : Nat} :
    launchSeat s m = some (p, level, ctx) ↔ ∃ z, Tbl.find s.drill.launches m = some z ∧ z.parent = p ∧ z.level = level ∧ z.ctx = ctx := by
  simp [launchSeat]

theorem launchSeat_modLaunch (s : State) (l m : Nat) {f : Launch → Launch}
    (hf : ∀ z, (f z).parent = z.parent ∧ (f z).level = z.level ∧ (f z).ctx = z.ctx) : launchSeat (modLaunch s l f) m = launchSeat s m := by
  unfold launchSeat
  by_cases h : m = l
  · subst h
    rw [find_modLaunch_same]
    cases Tbl.find s.drill.launches m <;> simp [hf]
  · rw [find_modLaunch_other s f h]

@[simp] theorem launchSeat_bumpId (s : State) (m : Nat) : launchSeat (bumpId s) m = launchSeat s m := rfl

@[simp] theorem launchSeat_modGNode (s : State) (l n m : Nat) (f : NodeSt → NodeSt) : launchSeat (modGNode s l n f) m = launchSeat s m :=
  launchSeat_modLaunch s l m fun _ => ⟨rfl, rfl, rfl⟩

@[simp] theorem launchSeat_arriveNode (s : State) (l n st sub : Nat) (info : Word) (flags : Flags7) (m : Nat) :
    launchSeat (arriveNode s l n st sub info flags) m = launchSeat s m := launchSeat_modGNode ..

@[simp] theorem launchSeat_addNode (s : State) (l : Nat) (x : NodeSt) (m : Nat) : launchSeat (addNode s l x).1 m = launchSeat s m :=
  launchSeat_modLaunch s l m fun _ => ⟨rfl, rfl, rfl⟩

@[simp] theorem launchSeat_launchRecord (s : State) (l a m : Nat) : launchSeat (launchRecord s l a).1 m = launchSeat s m := by
  unfold launchRecord
  split
  · rfl
  · split
    · rfl
    · exact launchSeat_modLaunch s l m fun _ => ⟨rfl, rfl, rfl⟩

@[simp] theorem launchSeat_refNode (s : State) (l a m : Nat) : launchSeat (refNode s l a).1 m = launchSeat s m := by
  have hrec := launchSeat_launchRecord s l a m
  unfold refNode
  split
  · rfl
  · split <;> next h => rw [h] at hrec; rwa [launchSeat_addNode]

@[simp] theorem launchSeat_readyNode (s : State) (l n m : Nat) : launchSeat (readyNode s l n) m = launchSeat s m := by
  unfold readyNode
  split
  · rfl
  split
  · rfl
  split
  · refine (launchSeat_modLaunch _ l m ?_).trans (launchSeat_arriveNode ..)
    exact fun _ => ⟨rfl, rfl, rfl⟩
  split
  · exact launchSeat_arriveNode ..
  split
  · exact launchSeat_arriveNode ..
  split
  · exact (launchSeat_bumpId ..).trans (launchSeat_modGNode ..)
  · exact launchSeat_modGNode ..

end Sys2Proof.Laws
end

section
/-!
PROOF. What the steps of the drill do to nodes and launches (spec 01 R19, 03 R62, 06 R112, R113, R117): a lemma for each step in the case that it acts, and
from them the obligation NodeSteps.
-/

namespace Sys2Proof.Proofs

open Machine Laws Say

variable {s s' s'' : State} {l n : Nat} {x : NodeSt}

theorem granaryStep_enters (hx : (sortKey byOrder ((nodesIn s .outside).filter fun y => y.1 == l)).head? = some (l, n, x))
    (hroom : granaryLoad s < 4096) (hn : (getGNode s l n).isSome) :
    ∃ y, getGNode (granaryStep s l n) l n = some y ∧ y.phase = .granary ∧ y.order = s.sched.nextId := by
  obtain ⟨z, hz⟩ := Option.isSome_iff_exists.1 hn
  refine ⟨{ z with phase := .granary, order := s.sched.nextId }, ?_, rfl, rfl⟩
  simp [granaryStep, hx, enterGranary, hroom, getGNode_modGNode_same, hz, freshId]

theorem ageNode_due (hx : getGNode s l n = some x) (hp : x.phase = .outside ∨ x.phase = .granary) (hdue : x.since + ageCycles ≤ now s) :
    getGNode (ageNode s l n) l n = some { x with prio := min (x.prio + 1) (ceiling s (getLaunch s l).ctx), since := x.since + ageCycles } := by
  simp [ageNode, hx, hp, hdue, getGNode_modGNode_same]

/-- Nothing dispatchable in the granary ranks before the node that goes first. -/
theorem nextDispatch_first (h : nextDispatch s = some (l, n, x)) : dispatchable s (l, n, x) = true ∧
    ∀ y ∈ nodesIn s .granary, dispatchable s y = true → y.2.2.prio ≤ x.prio ∧ (y.2.2.prio = x.prio → x.order ≤ y.2.2.order) :=
  ⟨List.find?_some (p := dispatchable s) h, fun y hy hd =>
    byRank_eq_false.1 (find_ordered_first (fun a => by simp [byRank]) (ordered_byRank _) h (mem_sortKey.2 hy) hd)⟩

theorem dispatchEngine_gives {d : Nat} {g : Engine} (hnext : nextDispatch s = some (l, n, x)) (hx : isEngineNode x = true)
    (hg : nodeEngine s x = some (d, g)) :
    ∃ c, (dispatchEngine s l n).cmds = s.cmds ++ [c] ∧ c.i = nodeCommand x.raw ∧ c.eng = g ∧ c.node = some (l, n) ∧
      c.a = BitVec.ofNat 64 (fieldAt x.raw 0x10 8) := by
  simp [dispatchEngine, hnext, hx, hg]

theorem signalStep_writes {h : Home × Nat} (hx : NodeTurn s l n 4 x)
    (hline : lineHome s 0 (getLaunch s l).ctx true (fieldAt x.raw 0x10 8) 8 = (s', .ok h))
    (hwrite : writePiece s' 0 (getLaunch s l).ctx (fieldAt x.raw 0x10 8) (bytesOf 8 (fieldAt x.raw 0x18 8)) (6 * 2 ^ 28) 512 0xFF = (s'', none)) :
    signalStep s l n = arriveNode
      (if bitOf (fieldAt x.raw 0x20 2) 15 then raiseMsix s'' (getLaunch s l).ctx (bitsOf (fieldAt x.raw 0x20 2) 10 0) else s'') l n 0 0 0 0 := by
  simp only [signalStep, hx.active, hx.plain, Option.isSome_none, Bool.false_eq_true, if_false, hline, hwrite]

theorem branchStep_chooses {v : Nat} {xs : List Nat} (hx : NodeTurn s l n 8 x) (hword : nodeWord s l x = (s', .ok v))
    (hset : branchSet s' (getLaunch s' l).ctx x.raw v = some xs) :
    branchStep s l n = arriveNode (modGNode s' l n fun y => { y with chosen := xs }) l n 0 0 0 0 := by
  simp [branchStep, hx.active, hword, hset]

theorem pollStep_reads {v : Nat} (hx : activeNode s l n 5 = some x) (hdue : x.pollAt ≤ now s) (hword : nodeWord s l x = (s', .ok v)) :
    pollStep s l n = if waitHolds x.raw v then arriveNode s' l n 0 0 0 0
      else modGNode s' l n fun y => { y with pollAt := now s' + 2700, sub_ := none, depth := 0 } := by
  simp [pollStep, hx, Nat.not_lt.2 hdue, hword]

theorem waitTimeoutStep_expired (hx : activeNode s l n 5 = some x) (hover : waitExpired s x = true) :
    waitTimeoutStep s l n = arriveNode s l n 3 0 0 0 := by
  simp [waitTimeoutStep, hx, hover]

theorem subgraphStep_blocked (hx : activeNode s l n 9 = some x) (hnest : x.nested = none) (hends : (getLaunch s l).ends = .no)
    (hlevel : 8 ≤ (getLaunch s l).level) : subgraphStep s l n = arriveNode s l n 5 0 0 0 := by
  simp [subgraphStep, hx, hnest, hends, hlevel]

/-- The launch that a SUBGRAPH starts stands one level down in the context of its parent, whatever its entry node does. -/
theorem subgraphStep_starts (hx : activeNode s l n 9 = some x) (hnest : x.nested = none) (hends : (getLaunch s l).ends = .no)
    (hlevel : (getLaunch s l).level < 8) (hroom : s.drill.launches.length < 1024) :
    launchSeat (subgraphStep s l n) s.sched.nextId = some (some (l, n), (getLaunch s l).level + 1, (getLaunch s l).ctx) := by
  simp only [subgraphStep, hx, hnest, hends, Nat.not_le.2 hlevel, Nat.not_le.2 hroom, Option.isSome_none, Bool.false_eq_true, ne_eq, not_true_eq_false,
    or_self, if_false, launchSeat_readyNode, launchSeat_refNode, launchSeat_modGNode, launchSeat_bumpId]
  simp [launchSeat, freshId]

theorem timeoutLaunch_ends (hroot : (getLaunch s l).parent = none) (htmo : fieldAt (getLaunch s l).raw 0x30 4 ≠ 0)
    (hdue : (getLaunch s l).taken + cyclesOfNs (1000 * fieldAt (getLaunch s l).raw 0x30 4) ≤ now s) (hends : (getLaunch s l).ends = .no)
    (hleft : Tbl.find (settleAll s).drill.launches l ≠ none) :
    timeoutLaunch s l = settleDrill drillRounds (endLaunch 10 .timeout
      (modLaunch (settleAll s) l fun z => { z with elapsed := (now (settleAll s) - (getLaunch s l).taken) * 10 / 27000 }) l) := by
  have hguard : (getLaunch s l).parent.isNone ∧ fieldAt (getLaunch s l).raw 0x30 4 ≠ 0 ∧
      (getLaunch s l).taken + cyclesOfNs (1000 * fieldAt (getLaunch s l).raw 0x30 4) ≤ now s ∧
      ((getLaunch s l).ends = .no ∨ (getLaunch s l).ends = .drain) :=
    ⟨by rw [hroot]; rfl, htmo, hdue, .inl hends⟩
  have hstays : ¬(Tbl.find (settleAll s).drill.launches l).isNone = true := by simpa using hleft
  unfold timeoutLaunch
  simp only [if_pos hguard, if_neg hstays]

/-- Settles O39: each clause is the lemma of its step above. -/
theorem nodeSteps : Obligations.NodeSteps := by
  unfold Obligations.NodeSteps
  refine ⟨?enter, ?age, ?first, ?engine, ?signal, ?branch, ?poll, ?expire, ?deep, ?start, ?timeout⟩
  case enter => exact fun s l n x hx hroom hn => ⟨granaryStep s l n, (granaryStep_enters hx hroom hn).imp fun _ hy => ⟨rfl, hy⟩⟩
  case age => exact fun s l n x hx hp hdue => ⟨ageNode s l n, rfl, ageNode_due hx hp hdue⟩
  case first => exact fun s l n x => nextDispatch_first
  case engine =>
    exact fun s l n x d g hnext hx hg => ⟨dispatchEngine s l n, (dispatchEngine_gives hnext hx hg).imp fun _ hc => ⟨rfl, hc⟩⟩
  case signal => exact fun s l n x s' h s'' hx hline hwrite => congrArg Host.Outcome.next (signalStep_writes hx hline hwrite)
  case branch => exact fun s l n x s' v xs hx hword hset => congrArg Host.Outcome.next (branchStep_chooses hx hword hset)
  case poll => exact fun s l n x s' v hx hdue hword => congrArg Host.Outcome.next (pollStep_reads hx hdue hword)
  case expire => exact fun s l n x hx hover => congrArg Host.Outcome.next (waitTimeoutStep_expired hx hover)
  case deep => exact fun s l n x hx hnest hends hlevel => congrArg Host.Outcome.next (subgraphStep_blocked hx hnest hends hlevel)
  case start =>
    intro s l n x hx hnest hends hlevel hroom
    obtain ⟨z, hz⟩ := launchSeat_eq_some.1 (subgraphStep_starts hx hnest hends hlevel hroom)
    exact ⟨subgraphStep s l n, z, rfl, hz⟩
  case timeout =>
    rintro s l y rfl hroot htmo hdue hends u hleft
    exact congrArg Host.Outcome.next (timeoutLaunch_ends hroot htmo hdue hends hleft)

end Sys2Proof.Proofs
end

section
/-!
PROOF. TRANSLATION_COMPLETE of a translation that fails (spec 05 R97, R98). Where the launches have keys of their own, as a table has, the node that waits
completes with TRANSLATION_FAILED; the obligation PlacementAndTranslation asks this of every state, and fails where a key occurs twice.
-/

namespace Sys2Proof.Laws

open Machine

/-- In a table whose keys differ, what it holds is found. -/
theorem find_eq_of_mem {α : Type} {t : Tbl α} {n : Nat} {x : α} (hkeys : (t.map Prod.fst).Nodup) (h : (n, x) ∈ t) : Tbl.find t n = some x := by
  induction t with
  | nil => simp at h
  | cons a t ih =>
    obtain ⟨k, v⟩ := a
    obtain ⟨hk, hkeys⟩ := List.nodup_cons.1 hkeys
    rcases List.mem_cons.1 h with heq | hmem
    · cases heq; exact if_pos rfl
    · have hne : n ≠ k := by rintro rfl; exact hk (List.mem_map.2 ⟨_, hmem, rfl⟩)
      exact (if_neg hne).trans (ih hkeys hmem)

theorem mem_nodesIn {s : State} {p : NPhase} {l n : Nat} {x : NodeSt} :
    (l, n, x) ∈ nodesIn s p ↔ ∃ y, (l, y) ∈ s.drill.launches ∧ (n, x) ∈ y.nodes ∧ x.phase = p := by
  simp only [nodesIn, List.mem_flatMap, List.mem_map, List.mem_filter, Prod.exists, Prod.mk.injEq, beq_iff_eq]
  constructor
  · rintro ⟨k, y, hy, m, z, ⟨hz, hp⟩, rfl, rfl, rfl⟩
    exact ⟨y, hy, hz, hp⟩
  · rintro ⟨y, hy, hx, hp⟩
    exact ⟨l, y, hy, n, x, ⟨hx, hp⟩, rfl, rfl, rfl⟩

/-- A node that waits somewhere is found at its launch and number. -/
theorem getGNode_isSome_of_mem {s : State} {p : NPhase} {l n : Nat} {x : NodeSt} (hkeys : (s.drill.launches.map Prod.fst).Nodup)
    (h : (l, n, x) ∈ nodesIn s p) : (getGNode s l n).isSome := by
  obtain ⟨y, hy, hx, -⟩ := mem_nodesIn.1 h
  simpa [getGNode, nodeState, Tbl.findD, find_eq_of_mem hkeys hy] using find_of_mem hx

end Sys2Proof.Laws

namespace Sys2Proof.Proofs

open Machine Laws

variable {s : State} {t : Xlate} {l n : Nat} {x : NodeSt} {sub detail actor : Nat}

theorem failLookup_absent (h : getGNode s l n = none) (st sub : Nat) (info : Word) : failLookup s l n st sub info = s := by
  simp [failLookup, h]

/-- A node without a saved section fails with no flags. -/
theorem failLookup_unsaved {y : NodeSt} (h : getGNode s l n = some y) (hp : y.parcel = none) (st sub : Nat) (info : Word) :
    failLookup s l n st sub info = arriveNode s l n st sub info 0 := by
  simp [failLookup, h, hp, savedFlags]

/-- The state without a translation. -/
def dropXlate (s : State) (id : Nat) : State := modDrill s fun d => { d with xlates := d.xlates.filter fun u => u.id != id }

/-- A translation with one node waiting that fails ends that node's lookup. -/
theorem translationComplete_fails (hfind : s.drill.xlates.find? (fun u => u.id == t.id) = some t)
    (hrun : runTranslation t = .error (.fail sub detail actor)) (hnode : xlateNodes s t.id = [(l, n, x)]) :
    exec (.translationComplete t.id) s = .next (failLookup (dropXlate s t.id) l n 7 sub (BitVec.ofNat 64 (detail * 65536 + actor))) := by
  change execTranslationComplete t.id s = _
  simp only [execTranslationComplete, hfind, endTranslation, hrun, hnode, List.foldl_cons, List.foldl_nil, dropXlate]

/-- The clause of O40 on a failing translation, in the states that the machine has: those whose launches have keys of their own. -/
theorem translationComplete_fails_node (hkeys : (s.drill.launches.map Prod.fst).Nodup)
    (hfind : s.drill.xlates.find? (fun u => u.id == t.id) = some t) (hrun : runTranslation t = .error (.fail sub detail actor))
    (hnode : xlateNodes s t.id = [(l, n, x)]) (hunsaved : (getGNode s l n).bind (·.parcel) = none) :
    exec (.translationComplete t.id) s = .next (arriveNode (dropXlate s t.id) l n 7 sub (BitVec.ofNat 64 (detail * 65536 + actor)) 0) := by
  have hmem : (l, n, x) ∈ nodesIn s .granary := (List.mem_filter.1 (hnode ▸ List.mem_singleton_self _ : (l, n, x) ∈ xlateNodes s t.id)).1
  obtain ⟨y, hy⟩ := Option.isSome_iff_exists.1 (getGNode_isSome_of_mem hkeys hmem)
  have hp : y.parcel = none := by simpa [hy] using hunsaved
  rw [translationComplete_fails hfind hrun hnode, failLookup_unsaved (s := dropXlate s t.id) hy hp]

/-! ### A translation that fails, and a launch table with a key twice -/

/-- The Jerix header of a kernel of one actor, one edge and one function, with its tables at 96, 136 and 64 (05 R92). -/
def loopHeader : List Byte :=
  bytesOf 4 0x5852454A ++ bytesOf 2 1 ++ bytesOf 2 1 ++ bytesOf 2 1 ++ bytesOf 2 1 ++ bytesOf 4 0 ++ bytesOf 4 96 ++ bytesOf 4 136 ++ bytesOf 4 64 ++ bytesOf 36 0

/-- The entry of the function: its magic word and its one actor (05 R93). -/
def loopEntry : List Byte := bytesOf 4 0x4E55464A ++ bytesOf 4 0 ++ bytesOf 2 0 ++ bytesOf 2 1 ++ bytesOf 20 0

/-- The actor: one predicate, slot, input and output, with its ports at 128 and its slot and INIT at 152 (05 R94). -/
def loopActor : List Byte :=
  bytesOf 1 0 ++ bytesOf 1 1 ++ bytesOf 2 1 ++ bytesOf 1 1 ++ bytesOf 1 1 ++ bytesOf 2 0 ++ bytesOf 4 152 ++ bytesOf 4 128 ++ bytesOf 4 152 ++ bytesOf 12 0

/-- The kernel: the actor's edge joins its output, of rate 1, to its own input, of rate 2, so that no repetition balances it. -/
def loopBody : List Byte := loopHeader ++ loopEntry ++ loopActor ++ (bytesOf 4 2 ++ bytesOf 4 1) ++ bytesOf 16 0 ++ bytesOf 128 0

def loopRequest : Xlate := { id := 6, key := 0, ctx := 0, fun_ := 0, shape := 0, entry := loopEntry, at_ := 64, body := loopBody }

theorem runTranslation_loopRequest : runTranslation loopRequest = .error (.fail 1 0 0) := by
  have h : (match runTranslation loopRequest with | .error e => e == .fail 1 0 0 | .ok _ => false) = true := by decide +kernel
  cases hr : runTranslation loopRequest with
  | error e => rw [hr] at h; rw [eq_of_beq h]
  | ok r => rw [hr] at h; cases h

/-- A node of the granary that waits for the translation. -/
def waitingNode : NodeSt := { addr := 0, phase := .granary, xlate := some 6 }

/-- A state whose launch table holds launch 3 twice, behind launch 5: what is found at 3 has no node. -/
def twiceLaunched : State :=
  modDrill State.reset fun d => { d with launches := [(5, {}), (3, {}), (3, { nodes := [(1, waitingNode)] })], xlates := [loopRequest] }

/-- Refutes O40 by its clause on a failing translation: `twiceLaunched` has launch 3 twice, and one node of the second entry waits. The step looks for the node in
the first entry, finds none and only drops the translation, while a completion of node 1 puts a further entry of launch 3 before that of launch 5. -/
theorem not_placementAndTranslation : ¬ Obligations.PlacementAndTranslation := by
  unfold Obligations.PlacementAndTranslation
  rintro ⟨-, -, -, -, -, -, -, hclause, -⟩
  have hasked := hclause twiceLaunched loopRequest rfl 1 0 0 runTranslation_loopRequest 3 1 waitingNode rfl rfl
  have hgiven := translationComplete_fails (s := twiceLaunched) rfl runTranslation_loopRequest rfl
  rw [failLookup_absent rfl] at hgiven
  have hsame := Host.Outcome.next.inj (hgiven.symm.trans hasked)
  have hlength : 3 = 4 := congrArg (fun u : State => u.drill.launches.length) hsame
  exact absurd hlength (by decide)

end Sys2Proof.Proofs
end

section
/-!
PROOF. Power, the headlands' loads, firmware, attestation and power-up (spec 05 R99, 18 R319, 19 R335, 20 R353 to R357): for each step of the Reeve
what it does in the case that it acts, and from these lemmas the obligation PowerFirmwareAttestation.
-/

namespace Sys2Proof.Proofs

open Machine Laws

variable {s : State} {die temp : Nat}

/-! ### Power -/

/-- Ending sections changes no more than their parcels. -/
theorem foldl_abortSection_parcels (xs : List (Nat × Parcel)) (s : State) :
    ∃ ps, xs.foldl (fun s x => abortSection s x.1) s = { s with parcels := ps } := by
  induction xs generalizing s with
  | nil => exact ⟨s.parcels, rfl⟩
  | cons x xs ih => exact ih (abortSection s x.1)

/-- A queue whose EN is cleared. -/
def queueOff (q : LQueue) : LQueue := { q with qcfg := q.qcfg &&& ~~~512 }

theorem queueOn_queueOff (q : LQueue) : queueOn (queueOff q) = false := by
  rw [queueOn, bitOf, BitVec.testBit_toNat, queueOff, BitVec.getLsbD_and]
  exact Bool.and_false _

/-- A trip ends the sections, turns the queues and the rails off, and raises vector 0. -/
theorem trip_hot (hot : 1840 ≤ temp) : ∃ ps, trip s temp = { s with
    parcels := ps
    drill := { s.drill with queues := s.drill.queues.map fun x => (x.1, queueOff x.2) }
    reeve := { s.reeve with temp := temp % 65536, tripped := true, railsOff := true }
    msix := s.msix ++ [(0, 0, now s)] } := by
  obtain ⟨ps, hps⟩ := foldl_abortSection_parcels (s.parcels.filter fun x => x.2.stage != .saved) s
  exact ⟨ps, by rw [trip, if_neg (Nat.not_lt.2 hot), hps]; rfl⟩

theorem trip_cool (cool : temp < 1840) : trip s temp = s := if_pos cool

/-! ### A headland's load -/

@[simp] theorem measure_reeve (s : State) :
    (measure s).reeve = { s.reeve with mlog := s.reeve.mlog ++ [Config.measuredHash s.sched.freeCtr] } := rfl
@[simp] theorem getDie_measure (s : State) (n : Nat) : getDie (measure s) n = getDie s n := rfl
@[simp] theorem getPlot_measure (s : State) (n : Nat) : getPlot (measure s) n = getPlot s n := rfl
@[simp] theorem getPlot_modDie (s : State) (d n : Nat) (f : Die → Die) : getPlot (modDie s d f) n = getPlot s n := rfl
@[simp] theorem getDie_modDie_same (s : State) (d : Nat) (f : Die → Die) : getDie (modDie s d f) d = f (getDie s d) := findD_put_same ..

/-- A load without elements leaves the headland blank and started, with a handler of the die that is measured. -/
theorem loadHeadland_nil (hdie : die < 4) (hpart : dieExists die = true) (routes : List Word) :
    loadHeadland s die [] routes =
      measure (modDie (modPlot (clearUnits s [512 + die]) (512 + die) fun q => { blankPlot q with started := true }) die fun d => { d with handler := true }) := by
  simp [loadHeadland, hpart, Nat.not_le.2 hdie]

theorem loadHeadland_absent (h : 4 ≤ die ∨ dieExists die = false) (elems : List HeadElem) (routes : List Word) : loadHeadland s die elems routes = s := by
  simp [loadHeadland, h]

/-! ### Firmware -/

theorem startUpdate_verifies (idle : s.reeve.fwstat ≠ 1) (ok : Config.firmwareVerifies s.reeve.fwaddr.toNat s.sched.freeCtr = true) :
    (startUpdate s).reeve = { s.reeve with staged := true, toSwitch := firmwareParts, fwstat := 1 } := by
  simp [startUpdate, idle, ok]

theorem startUpdate_fails (idle : s.reeve.fwstat ≠ 1) (bad : Config.firmwareVerifies s.reeve.fwaddr.toNat s.sched.freeCtr = false) :
    (startUpdate s).reeve = { s.reeve with fwstat := 3 } := by
  simp [startUpdate, idle, bad]

theorem switchPart_last (hst : s.reeve.staged = true) (hlast : s.reeve.toSwitch ≤ 1) :
    switchPart s = measure { s with reeve := { s.reeve with staged := false, toSwitch := 0, bank := 1 - s.reeve.bank % 2, fwstat := 2 } } := by
  simp [switchPart, hst, Nat.not_lt.2 hlast]

theorem switchPart_more (hst : s.reeve.staged = true) (hmore : 1 < s.reeve.toSwitch) :
    switchPart s = { s with reeve := { s.reeve with toSwitch := s.reeve.toSwitch - 1 } } := by
  simp [switchPart, hst, hmore]

/-! ### Attestation -/

theorem writeReport_produced (hfree : s.reeve.atindex < 2 ^ 40) :
    (writeReport s).reeve.atindex = s.reeve.atindex + 1 ∧ (writeReport s).reeve.atstat = 2 := by
  rw [writeReport, if_neg (Nat.not_le.2 hfree)]
  exact ⟨rfl, rfl⟩

theorem writeReport_spent (hspent : 2 ^ 40 ≤ s.reeve.atindex) : writeReport s = { s with reeve := { s.reeve with atstat := 3 } } := if_pos hspent

/-- Settles O44: each clause is the lemma of its step above; of a power-up, and of a measurement of PWR and TEMP, the state is written out in the model. -/
theorem powerFirmwareAttestation : Obligations.PowerFirmwareAttestation := by
  unfold Obligations.PowerFirmwareAttestation
  refine ⟨?power, ?trip, ?cool, ?load, ?absent, ?update, ?last, ?more, ?report, ?spent, ?up⟩
  case power => exact fun s mw temp => ⟨throttle s mw temp, rfl, rfl, rfl, rfl, rfl⟩
  case trip =>
    intro s temp hot
    obtain ⟨ps, hs⟩ := trip_hot (s := s) hot
    refine ⟨trip s temp, rfl, ?_⟩
    rw [hs]
    refine ⟨rfl, rfl, rfl, rfl, fun q hq => ?_⟩
    obtain ⟨x, -, rfl⟩ := List.mem_map.1 hq
    exact queueOn_queueOff x.2
  case cool => exact fun s temp cool => congrArg Host.Outcome.next (trip_cool cool)
  case load =>
    intro s die routes hdie hpart
    refine ⟨loadHeadland s die [] routes, rfl, ?_⟩
    rw [loadHeadland_nil hdie hpart]
    simp [getPlot_modPlot_same, clearUnits]
  case absent => exact fun s die elems routes h => congrArg Host.Outcome.next (loadHeadland_absent h elems routes)
  case update =>
    intro s idle
    refine ⟨startUpdate s, rfl, ?_⟩
    cases hok : Config.firmwareVerifies s.reeve.fwaddr.toNat s.sched.freeCtr with
    | true => exact .inl (by simp [startUpdate_verifies idle hok])
    | false => exact .inr (by simp [startUpdate_fails idle hok])
  case last => exact fun s hst hlast => ⟨switchPart s, rfl, by simp [switchPart_last hst hlast]⟩
  case more => exact fun s hst hmore => ⟨switchPart s, rfl, by simp [switchPart_more hst hmore]⟩
  case report => exact fun s hfree => ⟨writeReport s, rfl, writeReport_produced hfree⟩
  case spent => exact fun s hspent => ⟨writeReport s, rfl, by simp [writeReport_spent hspent]⟩
  case up => exact fun s => ⟨powerUp s, rfl, rfl, rfl, rfl, rfl, rfl, rfl, rfl, rfl, rfl⟩

end Sys2Proof.Proofs
end

section
/-!
SUPPORT. What is found in a table; the queues of the drill after an update; and the walk over the nodes of a launch, which changes of the drill's tables
only a launch's nodes, the records that it has read and whether it is cancelled.
-/

namespace Sys2Proof.Laws

open Machine

/-- What is found in a table stands in it. -/
theorem mem_of_find_eq_some {α : Type} {t : Tbl α} {n : Nat} {x : α} (h : Tbl.find t n = some x) : (n, x) ∈ t := by
  induction t with
  | nil => cases h
  | cons a t ih =>
    simp only [Tbl.find] at h
    split at h
    · next hn => subst hn; cases h; exact List.mem_cons_self
    · exact List.mem_cons_of_mem _ (ih h)

/-! ### Queues after an update -/

theorem getQueue_modQueue_same (s : State) (q : Nat) (f : LQueue → LQueue) : getQueue (modQueue s q f) q = f (getQueue s q) := by
  simp [getQueue, modQueue]

theorem getQueue_modQueue_other (s : State) {p q : Nat} (f : LQueue → LQueue) (h : p ≠ q) : getQueue (modQueue s q f) p = getQueue s p := by
  simp [getQueue, modQueue, findD_put_other _ _ _ h]

@[simp] theorem launches_modQueue (s : State) (q : Nat) (f : LQueue → LQueue) : (modQueue s q f).drill.launches = s.drill.launches := rfl

/-- Latching writes QSTAT; the interrupt that it may raise is none of the queue's registers. -/
theorem getQueue_latchQstat (s : State) (q p : Nat) (bit : BitVec 32) :
    getQueue (latchQstat s q bit) p = getQueue (modQueue s q fun x => { x with qstat := x.qstat ||| bit }) p := by
  unfold latchQstat
  dsimp only
  split <;> rfl

theorem getQueue_latchQstat_same (s : State) (q : Nat) (bit : BitVec 32) :
    getQueue (latchQstat s q bit) q = { getQueue s q with qstat := (getQueue s q).qstat ||| bit } := by
  rw [getQueue_latchQstat, getQueue_modQueue_same]

theorem getQueue_latchQstat_other (s : State) {p q : Nat} (bit : BitVec 32) (h : p ≠ q) : getQueue (latchQstat s q bit) p = getQueue s p := by
  rw [getQueue_latchQstat, getQueue_modQueue_other s _ h]

/-! ### The walk over the nodes of a launch -/

/-- A launch without what the walk over its nodes changes. -/
def launchTerms (x : Launch) : Launch := { x with nodes := [], records := [], cancelled := false }

/-- What the walk over the nodes of launches leaves of the drill: the queues, and the launches but for what the walk changes. -/
structure WalkFrame (s t : State) : Prop where
  queues : t.drill.queues = s.drill.queues
  launches : ∀ m, (Tbl.find t.drill.launches m).map launchTerms = (Tbl.find s.drill.launches m).map launchTerms

namespace WalkFrame

variable {s t u : State}

theorem refl (s : State) : WalkFrame s s := ⟨rfl, fun _ => rfl⟩

theorem trans (h : WalkFrame s t) (h' : WalkFrame t u) : WalkFrame s u :=
  ⟨h'.queues.trans h.queues, fun m => (h'.launches m).trans (h.launches m)⟩

theorem modLaunch (s : State) (l : Nat) {f : Launch → Launch} (hf : ∀ x, launchTerms (f x) = launchTerms x) : WalkFrame s (modLaunch s l f) := by
  refine ⟨rfl, fun m => ?_⟩
  by_cases h : m = l
  · subst h
    rw [find_modLaunch_same, Option.map_map]
    exact congrArg (Option.map · _) (funext hf)
  · rw [find_modLaunch_other s f h]

theorem modGNode (s : State) (l n : Nat) (f : NodeSt → NodeSt) : WalkFrame s (modGNode s l n f) := modLaunch s l fun _ => rfl

theorem arriveNode (s : State) (l n st sub : Nat) (info : Word) (flags : Flags7) : WalkFrame s (arriveNode s l n st sub info flags) := modGNode ..

theorem addNode (s : State) (l : Nat) (x : NodeSt) : WalkFrame s (addNode s l x).1 :=
  have h := modLaunch s l (f := fun y => { y with nodes := Tbl.put y.nodes (freshId s) x }) fun _ => rfl
  ⟨h.queues, h.launches⟩

theorem launchRecord (s : State) (l a : Nat) : WalkFrame s (launchRecord s l a).1 := by
  unfold Machine.launchRecord
  split
  · exact refl s
  · split
    · exact refl s
    · exact modLaunch s l fun _ => rfl

theorem refNode (s : State) (l a : Nat) : WalkFrame s (refNode s l a).1 := by
  have hread := launchRecord s l a
  unfold Machine.refNode
  split
  · exact refl s
  · split <;> next h => rw [h] at hread; exact hread.trans (addNode ..)

theorem readyNode (s : State) (l n : Nat) : WalkFrame s (readyNode s l n) := by
  unfold Machine.readyNode
  split
  · exact refl s
  split
  · exact refl s
  split
  · exact (arriveNode ..).trans (modLaunch _ l fun _ => rfl)
  split
  · exact arriveNode ..
  split
  · exact arriveNode ..
  split
  · have h := modGNode s l n
    exact ⟨(h _).queues, (h _).launches⟩
  · exact modGNode ..

theorem getQueue (h : WalkFrame s t) (q : Nat) : getQueue t q = getQueue s q := by simp [Machine.getQueue, h.queues]

/-- A launch stays in its table, with its terms. -/
theorem find (h : WalkFrame s t) {m : Nat} {x : Launch} (hx : Tbl.find s.drill.launches m = some x) :
    ∃ y, Tbl.find t.drill.launches m = some y ∧ launchTerms y = launchTerms x := by
  have hm := h.launches m
  rw [hx] at hm
  simpa using hm

end WalkFrame

end Sys2Proof.Laws
end

section
/-!
PROOF. Launch ports, resets and the taking of a record (spec 06 R104 to R108, R111, R116, R117): a lemma for each step in the case that it acts, and from these
lemmas the obligation LaunchPorts.
-/

namespace Sys2Proof.Proofs

open Machine Laws Say

variable {s : State} {fn q : Nat}

/-! ### Records at a port -/

/-- A port that accepts appends the record, with the sequence number that ACCEPT holds, and counts it. -/
theorem presentRecord_accepts (h : QueueOpen s fn q) (raw : List Byte) : Accepted s (presentRecord s q raw) q raw := by
  simp [presentRecord, h.on, h.ctx, h.idle, Nat.not_le.2 h.room, Accepted, getQueue_modQueue_same]

/-- A queue whose EN is 0 latches MALFORMED. -/
theorem presentRecord_off (hoff : queueOn (getQueue s q) = false) (raw : List Byte) : presentRecord s q raw = latchQstat s q 2 := by
  simp [presentRecord, hoff]

theorem execLaunchLf3_seen (h : pageSeen s fn q = true) (rec : BitVec 512) :
    exec (.launchLf3 fn q rec) s = .next (presentRecord s q (bytesOf 64 rec.toNat)) := congrArg Host.Outcome.next (if_pos h)

theorem execLaunchLf3_unseen (h : pageSeen s fn q = false) (rec : BitVec 512) : exec (.launchLf3 fn q rec) s = .next s :=
  congrArg Host.Outcome.next (if_neg (Bool.eq_false_iff.1 h))

theorem execLaunchLf2_seen (h : pageSeen s fn q = true) (rec : BitVec 256) :
    exec (.launchLf2 fn q rec) s = .next (presentRecord s q (lf3OfLf2 (bytesOf 32 rec.toNat))) := congrArg Host.Outcome.next (if_pos h)

/-! ### Writes of RESET -/

theorem execQueueDrain_seen (h : pageSeen s fn q = true) :
    exec (.queueDrain fn q) s = .next (modQueue s q fun x => { x with reset := if x.reset = 0 then 1 else x.reset }) :=
  congrArg Host.Outcome.next (if_pos h)

theorem execQueueAbort_seen (h : pageSeen s fn q = true) : exec (.queueAbort fn q) s = .next (modQueue s q fun x => { x with reset := 2 }) :=
  congrArg Host.Outcome.next (if_pos h)

/-! ### A record is taken -/

/-- The launch that a record of a queue becomes. -/
def launchOfRecord (s : State) (q : Nat) (r : LRec) : Launch :=
  { ctx := queueCtx (getQueue s q), pol := policyOf (bitsOf (fieldAt r.raw 0x2A 1) 6 4), queue := q, seq := r.seq, raw := r.raw, tacc := r.tacc,
    order := freshId s, taken := now s, waits := bitOf (fieldAt r.raw 0x38 8) 6 }

/-- The record has left its queue and is a launch, whose entry node is not read yet. -/
def launchStarted (s : State) (q : Nat) (r : LRec) (rest : List LRec) : State :=
  bumpId (modDrill (modQueue s q fun x => { x with recs := rest }) fun d => { d with
    lastQ := Tbl.put d.lastQ (queuePrio (getQueue s q)) q, launches := Tbl.put d.launches (freshId s) (launchOfRecord s q r) })

variable {r : LRec} {rest : List LRec}

/-- The queue that is served gives its oldest record; what follows is a walk over the new launch. -/
theorem takeRecord_starts (hrecs : (getQueue s q).recs = r :: rest) (hserved : nextQueue s = some q) (hroom : s.drill.launches.length < 1024)
    (hformed : recordFormed r.raw = true) : WalkFrame (launchStarted s q r rest) (takeRecord s q) := by
  have hentry := WalkFrame.refNode (launchStarted s q r rest) (freshId s) (fieldAt r.raw 0 8)
  have htake : takeRecord s q =
      let u := refNode (launchStarted s q r rest) (freshId s) (fieldAt r.raw 0 8)
      if bitOf (fieldAt r.raw 0x38 8) 6 then u.1 else readyNode u.1 (freshId s) u.2 := by
    have hguard : ¬(nextQueue s ≠ some q ∨ 1024 ≤ s.drill.launches.length) := by simp [hserved, hroom]
    unfold takeRecord
    simp only [hrecs, if_neg hguard, hformed]
    rfl
  rw [htake]
  dsimp only
  split
  · exact hentry
  · exact hentry.trans (WalkFrame.readyNode ..)

theorem recs_launchStarted : (getQueue (launchStarted s q r rest) q).recs = rest :=
  congrArg LQueue.recs (getQueue_modQueue_same s q fun x => { x with recs := rest })

theorem find_launchStarted : Tbl.find (launchStarted s q r rest).drill.launches s.sched.nextId = some (launchOfRecord s q r) :=
  find_put_same ..

/-! ### A drill step that ends a reset -/

/-- A fold whose function changes nothing at any element. -/
theorem foldl_unchanged {f : State → Nat → State} {xs : List Nat} (h : ∀ x ∈ xs, f s x = s) : xs.foldl f s = s :=
  List.foldlRecOn (motive := (· = s)) xs f rfl fun u hu x hx => by rw [hu, h x hx]

theorem settleDrill_idle (hl : s.drill.launches = []) (fuel : Nat) : settleDrill fuel s = s := by
  cases fuel with
  | zero => rfl
  | succ fuel => simp [settleDrill, arrivedNodes, nodesIn, hl, sortKey]

/-- A section that has not settled does not retire. -/
theorem retireStep_unsettled (hp : ∀ x ∈ s.parcels, x.2.settled = false) (k : Nat) : retireStep s k = s := by
  unfold retireStep
  split
  · rfl
  · next p hk =>
    have hunsettled : p.settled = false := hp _ (mem_of_find_eq_some hk)
    simp [hunsettled]

theorem settleAll_idle (hp : ∀ x ∈ s.parcels, x.2.settled = false) (hl : s.drill.launches = []) : settleAll s = s := by
  rw [settleAll, foldl_unchanged fun k _ => retireStep_unsettled hp k, settleDrill_idle hl]

theorem applyKills_none (hlaunch : s.drill.killLaunch = []) (hctx : s.drill.killCtx = []) (hnode : s.drill.killNode = []) : applyKills s = s := by
  have hsame : (modDrill s fun d => { d with killLaunch := [], killCtx := [], killNode := [] }) = s :=
    calc modDrill s (fun d => { d with killLaunch := [], killCtx := [], killNode := [] })
      _ = modDrill s fun d => { d with killLaunch := s.drill.killLaunch, killCtx := s.drill.killCtx, killNode := s.drill.killNode } := by
        rw [hlaunch, hctx, hnode]
      _ = s := rfl
  simp [applyKills, hlaunch, hctx, hnode, hsame]

theorem resetQueue_unasked (h : (getQueue s q).reset = 0) : resetQueue s q = s := if_pos h

theorem resetQueue_emptied (h : (getQueue s q).reset ≠ 0) (hrecs : (getQueue s q).recs = []) (hl : s.drill.launches = []) :
    resetQueue s q = modQueue s q fun x => { x with recs := [] } := by
  simp [resetQueue, h, hrecs, hl, settleDrill_idle]

theorem endReset_unasked (h : (getQueue s q).reset = 0) : endReset s q = s := if_neg fun hreset => hreset.1 h

theorem endReset_over (h : (getQueue s q).reset ≠ 0) (hrecs : (getQueue s q).recs = []) (hl : s.drill.launches = []) :
    endReset s q = latchQstat (modQueue s q fun x => { x with reset := 0 }) q 4 := by
  simp [endReset, h, hrecs, hl]

/-- A step over all queues, of which only one does anything. -/
theorem foldl_queues_once {f : State → Nat → State} {s t : State} {q : Nat} (hq : q < 64) (hact : f s q = t)
    (hbefore : ∀ p, p ≠ q → f s p = s) (hafter : ∀ p, p ≠ q → f t p = t) : (List.range 64).foldl f s = t := by
  obtain ⟨before, after, hsplit⟩ := List.append_of_mem (List.mem_range.2 hq)
  have hdistinct : (before ++ q :: after).Nodup := hsplit ▸ List.nodup_range
  obtain ⟨-, htail, hapart⟩ := List.nodup_append.1 hdistinct
  have hnotafter : q ∉ after := (List.nodup_cons.1 htail).1
  have hleft : before.foldl f s = s := foldl_unchanged fun p hp => hbefore p (hapart p hp q List.mem_cons_self)
  have hright : after.foldl f t = t := foldl_unchanged fun p hp => hafter p fun h => hnotafter (h ▸ hp)
  rw [hsplit, List.foldl_append, List.foldl_cons, hleft, hact, hright]

/-- With nothing else to do, the drill step ends the reset of a queue without records and launches, and reports it. -/
theorem drillStepOnce_endsReset (hq : q < 64) (hp : ∀ x ∈ s.parcels, x.2.settled = false) (hl : s.drill.launches = [])
    (hlaunch : s.drill.killLaunch = []) (hctx : s.drill.killCtx = []) (hnode : s.drill.killNode = []) (hreset : (getQueue s q).reset ≠ 0)
    (hrecs : (getQueue s q).recs = []) (hothers : ∀ p, p ≠ q → (getQueue s p).reset = 0) :
    drillStepOnce s = latchQstat (modQueue (modQueue s q fun x => { x with recs := [] }) q fun x => { x with reset := 0 }) q 4 := by
  have hemptied : (List.range 64).foldl resetQueue s = modQueue s q fun x => { x with recs := [] } :=
    foldl_queues_once hq (resetQueue_emptied hreset hrecs hl) (fun p h => resetQueue_unasked (hothers p h))
      fun p h => resetQueue_unasked (by rw [getQueue_modQueue_other s _ h]; exact hothers p h)
  have hended : (List.range 64).foldl endReset (modQueue s q fun x => { x with recs := [] }) =
      latchQstat (modQueue (modQueue s q fun x => { x with recs := [] }) q fun x => { x with reset := 0 }) q 4 := by
    refine foldl_queues_once hq (endReset_over ?_ ?_ hl) (fun p h => endReset_unasked ?_) fun p h => endReset_unasked ?_
    · rwa [getQueue_modQueue_same]
    · rw [getQueue_modQueue_same]
    · rw [getQueue_modQueue_other s _ h]; exact hothers p h
    · rw [getQueue_latchQstat_other _ _ h, getQueue_modQueue_other _ _ h, getQueue_modQueue_other _ _ h]; exact hothers p h
  have hquiet : sortKey byOrder (nodesIn s .outside) = [] := by simp [nodesIn, hl, sortKey]
  simp only [drillStepOnce, settleAll_idle hp hl, hl, List.foldl_nil, settleDrill_idle hl, hquiet, applyKills_none hlaunch hctx hnode, hemptied, hended]

/-- Settles O37: each clause is the lemma of its step above; a queue's registers are then read back. -/
theorem launchPorts : Obligations.LaunchPorts := by
  unfold Obligations.LaunchPorts
  refine ⟨?lf3, ?lf2, ?off, ?unseen, ?drain, ?abort, ?take, ?done⟩
  case lf3 => exact fun s fn q rec h => ⟨_, execLaunchLf3_seen h.seen rec, presentRecord_accepts h _⟩
  case lf2 => exact fun s fn q rec h => ⟨_, execLaunchLf2_seen h.seen rec, presentRecord_accepts h _⟩
  case off =>
    intro s fn q rec hseen hoff
    refine ⟨_, execLaunchLf3_seen hseen rec, ?_⟩
    rw [presentRecord_off hoff, getQueue_latchQstat_same]
    exact ⟨rfl, rfl⟩
  case unseen => exact fun s fn q rec h => execLaunchLf3_unseen h rec
  case drain =>
    intro s fn q h
    refine ⟨_, execQueueDrain_seen h, ?_⟩
    rw [getQueue_modQueue_same]
    exact ⟨rfl, rfl⟩
  case abort =>
    intro s fn q h
    refine ⟨_, execQueueAbort_seen h, ?_⟩
    rw [getQueue_modQueue_same]
    exact ⟨rfl, rfl⟩
  case take =>
    intro s q r rest hrecs hserved hroom hformed
    have hwalk := takeRecord_starts hrecs hserved hroom hformed
    obtain ⟨y, hy, hterms⟩ := hwalk.find find_launchStarted
    have hqueue : (getQueue (takeRecord s q) q).recs = rest := by rw [hwalk.getQueue, recs_launchStarted]
    exact ⟨takeRecord s q, y, rfl, hqueue, hy, congrArg Launch.raw hterms, congrArg Launch.seq hterms, congrArg Launch.queue hterms,
      congrArg Launch.ctx hterms, congrArg Launch.taken hterms⟩
  case done =>
    intro s q hq hp hl hlaunch hctx hnode hreset hrecs hothers
    refine ⟨_, congrArg Host.Outcome.next (drillStepOnce_endsReset hq hp hl hlaunch hctx hnode hreset hrecs hothers), ?_⟩
    rw [getQueue_latchQstat_same, getQueue_modQueue_same, getQueue_modQueue_same]
    exact ⟨rfl, rfl⟩

end Sys2Proof.Proofs
end

section
/-!
SUPPORT. What is read back of parcels, plots and results after an operation on another part of the state, and after a change is made to each of a list of
plots.
-/

namespace Sys2Proof.Laws

open Machine

/-- A part of the state that each step of a fold keeps is kept by the fold. -/
theorem foldl_keeps {α β : Type} (g : State → β) {f : State → α → State} (h : ∀ s x, g (f s x) = g s) (xs : List α) (s : State) :
    g (xs.foldl f s) = g s :=
  List.foldlRecOn (motive := fun t => g t = g s) xs f rfl fun t ht x _ => (h t x).trans ht

theorem find_modParcel_same {s : State} {k : Nat} {p : Parcel} (h : Tbl.find s.parcels k = some p) (f : Parcel → Parcel) :
    Tbl.find (modParcel s k f).parcels k = some (f p) := by
  simp [modParcel, find_alter_same, h]

@[simp] theorem getPlot_modParcel (s : State) (k : Nat) (f : Parcel → Parcel) (n : Nat) : getPlot (modParcel s k f) n = getPlot s n := rfl

@[simp] theorem getCtx_modParcel (s : State) (k : Nat) (f : Parcel → Parcel) (n : Nat) : getCtx (modParcel s k f) n = getCtx s n := rfl

@[simp] theorem getPlot_dropFault (s : State) (id n : Nat) : getPlot (dropFault s id) n = getPlot s n := rfl

@[simp] theorem getElem_dropFault (s : State) (id : Nat) (l : Loc) : Machine.getElem (dropFault s id) l = Machine.getElem s l := rfl

theorem getCtx_modCtx_same (s : State) (n : Nat) (f : Ctx → Ctx) : getCtx (modCtx s n f) n = f (getCtx s n) := by
  simp [getCtx, modCtx]

/-! ### A change to each of a list of plots -/

/-- What a change gives every plot that it is made to, and a further change keeps, each plot of the list has at the end. -/
theorem getPlot_foldl_modPlot {P : Plot → Prop} {f : Plot → Plot} (hf : ∀ q, P (f q)) {xs : List Nat} {n : Nat} (hn : n ∈ xs) (s : State) :
    P (getPlot (xs.foldl (fun s n => modPlot s n f) s) n) := by
  suffices h : ∀ (xs : List Nat) s, P (getPlot s n) ∨ n ∈ xs → P (getPlot (xs.foldl (fun s n => modPlot s n f) s) n) from h xs s (.inr hn)
  intro xs
  induction xs with
  | nil => intro s h; simpa using h
  | cons m xs ih =>
    intro s h
    refine ih _ ?_
    by_cases hm : n = m
    · subst hm; exact .inl (by rw [getPlot_modPlot_same]; exact hf _)
    · rw [getPlot_modPlot_other s f hm]
      exact h.imp_right fun h => (List.mem_cons.1 h).resolve_left hm

theorem parcels_foldl_modPlot (f : Plot → Plot) (xs : List Nat) (s : State) : (xs.foldl (fun s n => modPlot s n f) s).parcels = s.parcels :=
  foldl_keeps State.parcels (f := fun s n => modPlot s n f) (fun _ _ => rfl) xs s

/-! ### Results -/

theorem results_postResult {rid : Nat} (h : rid ≠ 0) (s : State) (tok : Token) :
    (postResult s rid tok).results = s.results ++ [{ id := freshId s, rid := rid, tok := tok }] := by
  rw [postResult, if_neg h]; rfl

theorem mem_results_postResult {s : State} {y : Result} (h : y ∈ s.results) (rid : Nat) (tok : Token) : y ∈ (postResult s rid tok).results := by
  unfold postResult
  split
  · exact h
  · exact List.mem_append_left _ h

theorem mem_results_foldl_postResult {y : Result} (tok : Token) (xs : List Nat) {s : State} (h : y ∈ s.results) :
    y ∈ (xs.foldl (fun s rid => postResult s rid tok) s).results :=
  List.foldlRecOn (motive := fun t : State => y ∈ t.results) xs _ h fun _ ht rid _ => mem_results_postResult ht rid tok

@[simp] theorem postResult_parcels (s : State) (rid : Nat) (tok : Token) : (postResult s rid tok).parcels = s.parcels := by
  unfold postResult
  split <;> rfl

/-- Each entry that a token is posted for finds it among the results. -/
theorem exists_result_foldl_postResult (tok : Token) {xs : List Nat} {rid : Nat} (hmem : rid ∈ xs) (h0 : rid ≠ 0) (s : State) :
    ∃ y ∈ (xs.foldl (fun s rid => postResult s rid tok) s).results, y.rid = rid ∧ y.tok = tok := by
  induction xs generalizing s with
  | nil => cases hmem
  | cons a xs ih =>
    rcases List.mem_cons.1 hmem with rfl | hmem
    · have hposted : ({ id := freshId s, rid := rid, tok := tok } : Result) ∈ (postResult s rid tok).results := by
        simp [results_postResult h0]
      exact ⟨_, mem_results_foldl_postResult tok xs hposted, rfl, rfl⟩
    · exact ih hmem _

end Sys2Proof.Laws
end

section
/-!
PROOF. Freezing, pre-emption, the save area and resumption (spec 07 R122, 18 R321 to R324): what each step answers in the case that it acts, and from
these lemmas the obligation FreezeAndSave.
-/

namespace Sys2Proof.Proofs

open Machine Laws Say

variable {s : State} {k n : Nat} {p : Parcel} {d : Bool}

/-- A wanted section that runs takes the slot and begins to freeze. -/
theorem preemptStep_freezes (h : Wanted s k p) (hslot : freeSaveSlot (getCtx s p.ctx) = some n) (hrun : p.frz = .run) :
    Tbl.find (preemptStep s k).parcels k = some { p with saveSlot := some n, stage := .freezing, frz := .stopping true } ∧
    getCtx (preemptStep s k) p.ctx = { getCtx s p.ctx with saveUsed := (getCtx s p.ctx).saveUsed ++ [n] } := by
  obtain ⟨hfound, ⟨hplaced, hsettled, hending⟩, hasked⟩ := h
  have hguard : ¬(p.stage ≠ .placed ∨ p.settled = true ∨ p.ending.isSome = true ∨ (!wanted s p) = true) := by
    simp [hplaced, hsettled, hending, hasked]
  simp only [preemptStep, hfound, if_neg hguard, hslot]
  refine ⟨?_, ?_⟩
  · exact (find_modParcel_same (s := modCtx s p.ctx _) hfound _).trans (by rw [hrun])
  · rw [getCtx_modParcel, getCtx_modCtx_same]

/-- With no slot free the reservation waits. -/
theorem preemptStep_waits (h : Wanted s k p) (hslot : freeSaveSlot (getCtx s p.ctx) = none) : preemptStep s k = s := by
  simp [preemptStep, h.found, hslot]

/-- The freeze of a parcel that has stopped is over, and each `frz` that waits has its answer. -/
theorem frozenStep_stopped (hfound : Tbl.find s.parcels k = some p) (hfrz : p.frz = .stopping d) (hending : p.ending = none)
    (hstopped : parcelStopped s k = true) : frozenStep s k =
      p.frzAcks.foldl (fun s rid => postResult s rid {}) (modParcel s k fun p => { p with frz := .frozen d, frzAcks := [] }) := by
  simp [frozenStep, hfound, hfrz, hending, hstopped]

theorem savedStep_frozen (hfound : Tbl.find s.parcels k = some p) (hstage : p.stage = .freezing) (hfrz : p.frz = .frozen d)
    (hslot : p.saveSlot = some n) : savedStep s k =
      reenter (modParcel (freePlots (dropWork (writeArea s k (saveBase (getCtx s p.ctx) n) k) k) p) k fun q => { q with stage := .saved }) k := by
  simp [savedStep, hfound, hstage, hfrz, hslot]

theorem saved_writeArea (s : State) (k base owner : Nat) :
    (writeArea s k base owner).saved = (s.saved.filter fun x => x.base != base) ++ [savedOf s k base owner] := rfl

/-- A section whose plots have their blocks is restored where it now stands. -/
theorem resumeStep_restores {v : Saved} (hfound : Tbl.find s.parcels k = some p) (hsaved : s.saved.find? (fun v => v.owner == k) = some v)
    (hstage : p.stage = .resuming) (hslot : p.saveSlot = none)
    (hblocks : ((parcelPlots p).all fun n => (getPlot s n).empty || (pinnedBlock (getPlot s n)).isSome) = true) :
    resumeStep s k =
      let m : Move := ⟨v.x0, v.y0, p.x0, p.y0, v.w, v.h, retired s⟩
      let u := restoreArea s k v
      applyWatchdog (learnRest (modParcel { u with saved := u.saved.filter fun x => x.owner != k } k fun p =>
        { m.parcel p with stage := .placed, saveSlot := none, frz := if p.frz = .frozen true then .run else p.frz }) k) k := by
  have hguard : ¬(p.stage ≠ .resuming ∨ (!(parcelPlots p).all fun n => (getPlot s n).empty || (pinnedBlock (getPlot s n)).isSome) = true) := by
    rw [hblocks]; simp [hstage]
  simp only [resumeStep, hfound, hsaved, if_neg hguard, hslot]

/-- Settles O41: each clause is the lemma of its step above. -/
theorem freezeAndSave : Obligations.FreezeAndSave := by
  unfold Obligations.FreezeAndSave
  refine ⟨?freeze, ?wait, ?stopped, ?written, ?area, ?resume⟩
  case freeze =>
    intro s k p n h hslot hrun
    obtain ⟨hparcel, hctx⟩ := preemptStep_freezes h hslot hrun
    exact ⟨preemptStep s k, _, rfl, hparcel, rfl, rfl, rfl, congrArg Ctx.saveUsed hctx⟩
  case wait => exact fun s k p h hslot => congrArg Host.Outcome.next (preemptStep_waits h hslot)
  case stopped =>
    intro s k p d hfound hfrz hending hstopped
    refine ⟨_, _, congrArg Host.Outcome.next (frozenStep_stopped hfound hfrz hending hstopped), ?_, rfl,
      fun rid hmem h0 => exists_result_foldl_postResult {} hmem h0 _⟩
    rw [foldl_keeps State.parcels fun s rid => postResult_parcels s rid {}]
    exact find_modParcel_same hfound _
  case written =>
    exact fun s k p d n hfound hstage hfrz hslot => congrArg Host.Outcome.next (savedStep_frozen hfound hstage hfrz hslot)
  case area => exact fun s k base owner => ⟨savedOf s k base owner, saved_writeArea s k base owner, rfl, rfl, rfl⟩
  case resume =>
    exact fun s k p v hfound hsaved hstage hslot hblocks => congrArg Host.Outcome.next (resumeStep_restores hfound hsaved hstage hslot hblocks)

end Sys2Proof.Proofs
end

section
/-!
SUPPORT. What the activity of a section does to its plots: the steps that start a plot, free the plots of a parcel, and fetch and decode a configuration
region again, seen at one plot or element.
-/

namespace Sys2Proof.Laws

open Machine

/-! ### Starting and freeing -/

theorem getPlot_startPlot (s : State) (k plot : Nat) : (getPlot (startPlot s k plot) plot).started = true := by
  simp only [startPlot, getPlot_modParcel, getPlot_modPlot_same]

/-- A plot between two sections belongs to none and has not started. -/
def Unused (q : Plot) : Prop := q.parcel = none ∧ q.started = false

theorem unused_blankPlot (q : Plot) : Unused (blankPlot q) := ⟨rfl, rfl⟩

theorem unused_leavePlots {p : Parcel} {n : Nat} (h : n ∈ parcelPlots p) (s : State) : Unused (getPlot (leavePlots s p) n) :=
  getPlot_foldl_modPlot (fun _ => unused_blankPlot _) h s

theorem unused_freeParcel {s : State} {k n : Nat} (h : n ∈ parcelPlots (getParcel s k)) : Unused (getPlot (freeParcel s k) n) :=
  unused_leavePlots h (clearUnits s _)

theorem unused_leaveParcel {s : State} {k n : Nat} (h : n ∈ parcelPlots (getParcel s k)) : Unused (getPlot (leaveParcel s k) n) :=
  unused_leavePlots h s

/-! ### Configuration regions -/

theorem cfgFrozen_reloadRegion_plot (s : State) (plot : Nat) : (getPlot (reloadRegion s plot none) plot).cfgFrozen = false := by
  have hfaults := foldl_keeps (fun s => getPlot s plot) (f := fun s (r : FaultRec) => dropFault s r.id) fun s r => getPlot_dropFault s r.id plot
  refine (congrArg Plot.cfgFrozen (hfaults ..)).trans ?_
  exact congrArg Plot.cfgFrozen (getPlot_modPlot_same ..)

theorem cfgFrozen_reloadRegion_elem (s : State) (l : Loc) : (Machine.getElem (reloadRegion s l.plot (some l.site)) l).cfgFrozen = false := by
  have hfaults := foldl_keeps (fun s => Machine.getElem s l) (f := fun s (r : FaultRec) => dropFault s r.id) fun s r => getElem_dropFault s r.id l
  refine (congrArg Elem.cfgFrozen (hfaults ..)).trans ?_
  exact congrArg Elem.cfgFrozen (getElem_modElem_same _ _ rfl)

end Sys2Proof.Laws
end

section
/-!
PROOF. The configuration of a plot and its start, and the repair of a configuration region (spec 07 R123 to R127, 03 R58): what each step answers in the case
that it acts.
-/

namespace Sys2Proof.Proofs

open Machine Laws Say

variable {s u : State} {plot n k i slot : Nat} {p : Parcel} {l : Loc} {bs : List Byte}

/-! ### CONFIG_PACKET -/

theorem configStep_takesSlot (h : Configures s plot k i p) (hnone : (getPlot s plot).cslot = none) :
    configStep s plot n = modPlot s plot (takeCslot (tagOfParcel p) i (now s)) := by
  unfold Configures at h
  simp [configStep, h, hnone]

/-- In its turn, a plot whose c-slot is filling takes a packet. -/
theorem configStep_fills (h : Configures s plot k i p) (hslot : (getPlot s plot).cslot = some slot)
    (hfilling : (cslotAt (getPlot s plot) slot).st = .filling) (hturn : agentTurn s p plot i = true) :
    configStep s plot n = fillPacket s plot k p i n slot := by
  unfold Configures at h
  simp [configStep, h, hslot, hfilling, hturn]

/-- The head of a block gives a legal BLEN. -/
theorem fillPacket_head (hblen : (cslotAt (getPlot s plot) slot).blen = 0)
    (hbytes : configBytes s p (getPlot s plot) (p.desc + plotOff p i) 64 = .ok bs) (hok : blenOk p i bs = true) :
    fillPacket s plot k p i n slot =
      modPlot s plot fun q => setCslot (progressed q) slot (beginFill (cslotAt (getPlot s plot) slot) (fieldAt bs 0 4)) := by
  simp [fillPacket, hblen, hbytes, hok]

theorem signSlot_more {c : CSlot} (h : c.todo ≠ []) : signSlot c = c := by simp [signSlot, h]

theorem signSlot_last {c : CSlot} (hlast : c.todo = []) (hblen : c.blen ≠ 0) :
    signSlot c = { c with st := .pinned, sig := (crc64 c.block).toNat } := by simp [signSlot, hlast, hblen]

section
variable (hblen : (cslotAt (getPlot s plot) slot).blen ≠ 0) (hn : n ∈ (cslotAt (getPlot s plot) slot).todo)
  (hbytes : configBytes s p (getPlot s plot) (p.desc + plotOff p i + 512 * n) (min 512 ((cslotAt (getPlot s plot) slot).blen - 512 * n)) = .ok bs)
include hblen hn hbytes

/-- A packet enters the block; the c-slot is signed if it is the last, and then the block is known to the parcel, unless the plot is to be restored. -/
theorem fillPacket_body : fillPacket s plot k p i n slot =
    let c := signSlot (putPacket (cslotAt (getPlot s plot) slot) n bs)
    let s' := modPlot s plot fun q => setCslot (progressed q) slot c
    if c.st = .pinned ∧ (getPlot s plot).restore = false then learnBlock s' k plot c.block else s' := by
  simp [fillPacket, hblen, hn, hbytes]

/-- A packet that is not the last leaves the c-slot filling. -/
theorem fillPacket_more (hfilling : (cslotAt (getPlot s plot) slot).st = .filling)
    (hmore : (putPacket (cslotAt (getPlot s plot) slot) n bs).todo ≠ []) : fillPacket s plot k p i n slot =
      modPlot s plot fun q => setCslot (progressed q) slot (putPacket (cslotAt (getPlot s plot) slot) n bs) := by
  have hunpinned : (putPacket (cslotAt (getPlot s plot) slot) n bs).st ≠ .pinned := by simp [putPacket, hfilling]
  rw [fillPacket_body hblen hn hbytes, signSlot_more hmore]
  exact if_neg fun hpinned => hunpinned hpinned.1

/-- The last packet signs the c-slot, and the block is known. -/
theorem fillPacket_last (hlast : (putPacket (cslotAt (getPlot s plot) slot) n bs).todo = []) (hrestore : (getPlot s plot).restore = false) :
    fillPacket s plot k p i n slot =
      let c := putPacket (cslotAt (getPlot s plot) slot) n bs
      learnBlock (modPlot s plot fun q => setCslot (progressed q) slot { c with st := .pinned, sig := (crc64 c.block).toNat }) k plot c.block := by
  rw [fillPacket_body hblen hn hbytes, signSlot_last hlast hblen]
  exact if_pos ⟨rfl, hrestore⟩

end

/-! ### PLOT_START -/

theorem held_of_configures (h : Configures s plot k i p) : (getPlot s plot).held = false := by
  unfold Configures configuring at h
  dsimp only at h
  split at h
  · split at h
    · cases h
    · next hguard =>
      simp only [Bool.or_eq_true, not_or, Bool.not_eq_true] at hguard
      obtain ⟨⟨⟨-, hheld⟩, -⟩, -⟩ := hguard
      exact hheld
  · cases h

/-- A plot that is not held and has no patches starts. -/
theorem finishStart_unpatched (hnone : plotPatches p i = []) (hheld : (getPlot s plot).held = false) :
    finishStart s k plot p i = startPlot s k plot := by
  simp [finishStart, hnone, readPatches, hheld]

theorem plotStartStep_loaded (h : Configures s plot k i p) (hblock : pinnedBlock (getPlot s plot) = some bs) (hrestore : (getPlot s plot).restore = false)
    (hloaded : (getPlot s plot).loaded = true) : plotStartStep s plot = finishStart s k plot p i := by
  unfold Configures at h
  simp [plotStartStep, h, hblock, hrestore, hloaded]

theorem plotStartStep_loads {c : PlotCfg} (h : Configures s plot k i p) (hblock : pinnedBlock (getPlot s plot) = some bs)
    (hrestore : (getPlot s plot).restore = false) (hfresh : (getPlot s plot).loaded = false) (hdecode : decodePlot p i bs = .ok c)
    (hkernel : kernelGood s p.ctx p.phys (parcelKernel p) = true) (hunbroken : plotBreak s p i bs = none) (hclash : inputClashes p i = [])
    (hstray : straysInto p i = []) (hload : loadPlot s p plot c = some u) :
    plotStartStep s plot = finishStart (bringKernel u p.ctx p.phys (parcelKernel p)) k plot p i := by
  unfold Configures at h
  simp [plotStartStep, h, hblock, hrestore, hfresh, hdecode, hkernel, hunbroken, hclash, hstray, hload]

theorem plotStartStep_broken {b : Broken} (h : Configures s plot k i p) (hblock : pinnedBlock (getPlot s plot) = some bs)
    (hrestore : (getPlot s plot).restore = false) (hfresh : (getPlot s plot).loaded = false) (hdecode : decodePlot p i bs = .error b) :
    plotStartStep s plot = blockSection s k i b := by
  unfold Configures at h
  simp [plotStartStep, h, hblock, hrestore, hfresh, hdecode]

@[simp] theorem getPlot_bringKernel (s : State) (ctx : Nat) (phys : Bool) (x : Kernel) (n : Nat) :
    getPlot (bringKernel s ctx phys x) n = getPlot s n := by
  unfold bringKernel
  split <;> rfl

/-! ### Configuration regions -/

theorem freezeRegion_elem (h : (Machine.getElem s l).present = true) :
    freezeRegion s (.elemConfig l) = modElem s l fun e => { e with cfgFrozen := true } := by
  simp [freezeRegion, errRegion, h]

theorem reloadDone_elem (hpresent : (Machine.getElem s l).present = true) (hfrozen : (Machine.getElem s l).cfgFrozen = true)
    (hok : reloadOk s l.plot (some l.site) = true) : reloadDone s (.elemConfig l) = reloadRegion s l.plot (some l.site) := by
  simp [reloadDone, errRegion, regionFrozen, hpresent, hfrozen, hok]

theorem reloadDone_plot (hfrozen : (getPlot s plot).cfgFrozen = true) (hok : reloadOk s plot none = true) :
    reloadDone s (.plotConfig plot) = reloadRegion s plot none := by
  simp [reloadDone, errRegion, regionFrozen, hfrozen, hok]

end Sys2Proof.Proofs
end

section
/-!
PROOF. The settling, the retirement, the end and the watchdog of a section (spec 01 R21, R22, 18 R320, R329, 20 R339): what each step answers in the case
that it acts, and from these lemmas and those of configuration the obligation SectionSteps.
-/

namespace Sys2Proof.Proofs

open Machine Laws Say

variable {s : State} {k : Nat} {p : Parcel}

/-! ### SETTLE_SCAN -/

/-- What a scan of a section finds: the conditions of settlement, and no activity since the last scan. -/
def scanFinds (s : State) (k : Nat) (p : Parcel) : Bool := settledNow s k && (parcelPlots p).all fun n => !(getPlot s n).active

theorem scanStep_scans (hfound : Tbl.find s.parcels k = some p) (hruns : parcelRuns p = true) (hsettled : p.settled = false)
    (hrails : s.reeve.railsOff = false) : scanStep s k =
      modParcel ((parcelPlots p).foldl (fun s n => modPlot s n fun q => { q with active := false }) s) k
        fun p' => { p' with armed := scanFinds s k p, settled := scanFinds s k p && p'.armed } := by
  simp [scanStep, hfound, hruns, hsettled, hrails, scanFinds]

theorem scanStep_waits (hfound : Tbl.find s.parcels k = some p) (h : parcelRuns p = false ∨ s.reeve.railsOff = true) : scanStep s k = s := by
  rcases h with h | h <;> simp [scanStep, hfound, h]

/-! ### SECTION_RETIRE -/

/-- Status and INFO of a settled section's node: KILLED where a unit was killed, TIMEOUT where a wait timed out, else OK (20 R341). -/
def retireStatus (p : Parcel) : Nat × Word :=
  match p.anyKill, p.timedOut with
  | some x, _ => (4, killInfo x)
  | none, some w => (3, w)
  | none, none => (0, 0)

/-- A settled section whose accesses are performed takes its last sample, completes its node and is freed. -/
theorem retireStep_completes {status : Nat} {info : Word} (hfound : Tbl.find s.parcels k = some p) (hsettled : p.settled = true)
    (hreqs : parcelReqs s k = []) (hstatus : retireStatus p = (status, info)) : retireStep s k =
      leaveParcel (completeNode (sampleFlags s k) k status 0 info (getParcel (sampleFlags s k) k).flagWord) k := by
  have hguard : ¬(!p.settled || !(parcelReqs s k).isEmpty) = true := by simp [hsettled, hreqs]
  simp only [retireStep, hfound, if_neg hguard]
  cases hkill : p.anyKill with
  | some x => rw [retireStatus, hkill] at hstatus; cases hstatus; rfl
  | none =>
    rw [retireStatus, hkill] at hstatus
    cases htimeout : p.timedOut <;> rw [htimeout] at hstatus <;> cases hstatus <;> rfl

/-! ### KILL_PARCEL_FREE and SECTION_WATCHDOG -/

/-- An ended section with what it holds discarded, its waves ended, and any freeze of it over. -/
def endedWork (s : State) (k : Nat) : State := endWaves (discardFaults (dropFreeze s k) k) k

/-- An ended section whose requests are performed and whose commands have joined completes its node and is freed. -/
theorem killFreeStep_frees {e : Ending} (hfound : Tbl.find s.parcels k = some p) (hending : p.ending = some e)
    (hreqs : parcelReqs (endedWork s k) k = []) (hcmds : ∀ c ∈ (endedWork s k).cmds, c.parcel ≠ some k) :
    killFreeStep s k =
      let u := endedWork s k
      freeParcel (completeNode
        { u with lines := u.lines.filter fun x => (getPlot u x.from_.plot).parcel != some k && (getPlot u x.plot).parcel != some k
                 saved := u.saved.filter fun x => x.owner != k } k e.status e.sub
        (if e.status = 4 then (p.anyKill.map killInfo).getD e.info else e.info) p.flagWord) k := by
  have hdone : ((parcelReqs (endedWork s k) k).isEmpty && !((endedWork s k).cmds.any fun c => c.parcel == some k)) = true := by
    simpa [hreqs] using hcmds
  simp only [killFreeStep, hfound, hending]
  exact if_pos hdone

theorem watchdogStep_due (hfound : Tbl.find s.parcels k = some p) (hdue : wdogDue p = true) :
    watchdogStep s k = raiseFault (modParcel s k fun p => { p with frz := .stopping false, wdogOn := false })
      { cls := .watchdog, plot := plotAt p.x0 p.y0, flags := 32, info0 := BitVec.ofNat 64 (p.wdogRan * 10 / 27000), what := some (.parcel k) } := by
  simp [watchdogStep, hfound, hdue]

theorem watchdogStep_early (hfound : Tbl.find s.parcels k = some p) (hearly : wdogDue p = false) : watchdogStep s k = s := by
  simp [watchdogStep, hfound, hearly]

/-- Settles O42: each clause is the lemma of its step above. -/
theorem sectionSteps : Obligations.SectionSteps := by
  unfold Obligations.SectionSteps
  refine ⟨?take, ?head, ?packet, ?last, ?loaded, ?load, ?broken, ?started, ?freezeElem, ?freezePlot, ?reloadElem, ?reloadPlot, ?thawPlot, ?thawElem,
    ?scan, ?noScan, ?retire, ?timedOut, ?killed, ?freed, ?killFree, ?due, ?early⟩
  case take => exact fun s plot n k i p h hnone => congrArg Host.Outcome.next (configStep_takesSlot h hnone)
  case head =>
    intro s plot n k i p slot bs h hslot c hfilling hturn hblen hbytes hlow hhigh hwithin
    have hok : blenOk p i bs = true := by simp [blenOk, hlow, hhigh, hwithin]
    exact congrArg Host.Outcome.next ((configStep_fills h hslot hfilling hturn).trans (fillPacket_head hblen hbytes hok))
  case packet =>
    exact fun s plot n k i p slot bs h hslot hfilling hturn hblen hn hmore hbytes =>
      congrArg Host.Outcome.next ((configStep_fills h hslot hfilling hturn).trans (fillPacket_more hblen hn hbytes hfilling hmore))
  case last =>
    exact fun s plot n k i p slot bs h hslot hfilling hturn hblen hn hlast hrestore hbytes =>
      congrArg Host.Outcome.next ((configStep_fills h hslot hfilling hturn).trans (fillPacket_last hblen hn hbytes hlast hrestore))
  case loaded =>
    intro s plot k i p bs h hblock hrestore hloaded hnone
    exact congrArg Host.Outcome.next
      ((plotStartStep_loaded h hblock hrestore hloaded).trans (finishStart_unpatched hnone (held_of_configures h)))
  case load =>
    intro s plot k i p bs c u h hblock hrestore hfresh hdecode hkernel hunbroken hclash hstray hload hnone hheld
    refine congrArg Host.Outcome.next
      ((plotStartStep_loads h hblock hrestore hfresh hdecode hkernel hunbroken hclash hstray hload).trans (finishStart_unpatched hnone ?_))
    rwa [getPlot_bringKernel]
  case broken =>
    exact fun s plot k i p bs b h hblock hrestore hfresh hdecode =>
      congrArg Host.Outcome.next (plotStartStep_broken h hblock hrestore hfresh hdecode)
  case started => exact getPlot_startPlot
  case freezeElem =>
    exact fun s l h => ⟨_, congrArg Host.Outcome.next (freezeRegion_elem h), getElem_modElem_same _ _ rfl⟩
  case freezePlot => exact fun s plot => ⟨_, rfl, getPlot_modPlot_same s plot fun q => { q with cfgFrozen := true }⟩
  case reloadElem => exact fun s l hpresent hfrozen hok => congrArg Host.Outcome.next (reloadDone_elem hpresent hfrozen hok)
  case reloadPlot => exact fun s plot hfrozen hok => congrArg Host.Outcome.next (reloadDone_plot hfrozen hok)
  case thawPlot => exact cfgFrozen_reloadRegion_plot
  case thawElem => exact cfgFrozen_reloadRegion_elem
  case scan =>
    intro s k p hfound hruns hsettled hrails ok
    refine ⟨_, _, congrArg Host.Outcome.next (scanStep_scans hfound hruns hsettled hrails),
      find_modParcel_same ((congrArg (Tbl.find · k) (parcels_foldl_modPlot _ _ s)).trans hfound) _, rfl, rfl, fun n hn => ?_⟩
    exact getPlot_foldl_modPlot (P := fun q => q.active = false) (fun _ => rfl) hn s
  case noScan => exact fun s k p hfound h => congrArg Host.Outcome.next (scanStep_waits hfound h)
  case retire =>
    exact fun s k p hfound hsettled hreqs hkill htimeout =>
      congrArg Host.Outcome.next (retireStep_completes hfound hsettled hreqs (by rw [retireStatus, hkill, htimeout]))
  case timedOut =>
    exact fun s k p w hfound hsettled hreqs hkill htimeout =>
      congrArg Host.Outcome.next (retireStep_completes hfound hsettled hreqs (by rw [retireStatus, hkill, htimeout]))
  case killed =>
    exact fun s k p x hfound hsettled hreqs hkill =>
      congrArg Host.Outcome.next (retireStep_completes hfound hsettled hreqs (by rw [retireStatus, hkill]))
  case freed =>
    intro s k n hn
    obtain ⟨hparcel, hstarted⟩ := unused_freeParcel hn
    exact ⟨hparcel, hstarted, unused_leaveParcel hn⟩
  case killFree =>
    exact fun s k p e hfound hending hreqs hcmds => congrArg Host.Outcome.next (killFreeStep_frees hfound hending hreqs hcmds)
  case due => exact fun s k p hfound hdue => congrArg Host.Outcome.next (watchdogStep_due hfound hdue)
  case early => exact fun s k p hfound hearly => congrArg Host.Outcome.next (watchdogStep_early hfound hearly)

end Sys2Proof.Proofs
end

section
/-!
PROOF. Errors, scrubbing, repair in service, links and the end of a trace (spec 07 R127, 19 R330 to R334, R337, R338, 20 R352): what each step answers
for the place that it is about, and from these lemmas the obligation ErrorsAndRepair.
-/

namespace Sys2Proof.Proofs

open Machine Laws

variable {s : State} {plot line pa k : Nat} {l : Loc}

/-! ### Uncorrectable errors -/

theorem uncorrectable_dirtyCommons (h : pa < 2 ^ 39) :
    uncorrectable s (.commons pa true) = { s with memPoison := poisonLine s.memPoison pa } := by
  have hend : pa < hbmEnd := h
  simp [uncorrectable, hend]

theorem uncorrectable_cleanCommons (pa : Nat) : uncorrectable s (.commons pa false) = s := rfl

theorem uncorrectable_hbm (h : pa < 2 ^ 39) : uncorrectable s (.hbm pa) =
    raiseFault { s with memPoison := poisonLine s.memPoison pa }
      { cls := .memerr, sub := 1, plot := 512 + hbmDie pa, addr := pa / 64 * 64, report := true, die := some (hbmDie pa) } := if_pos h

theorem uncorrectable_live (hpresent : (Machine.getElem s l).present = true) (halive : (Machine.getElem s l).dead = false) :
    uncorrectable s (.live l) = raiseFault (modElem s l fun e => { e with dead := true })
      { cls := .memerr, sub := 4, plot := l.plot, site := l.site, what := some (.element l) } := by
  simp [uncorrectable, hpresent, halive]

theorem uncorrectable_validSlot (h : (cslotAt (getPlot s plot) k).st = .valid) :
    uncorrectable s (.cslot plot k) = modPlot s plot fun q => setCslot q k {} := by
  simp [uncorrectable, h]

/-! ### Scrubbing -/

/-- Where no line of memory and of no plot store is poisoned, there is nothing to report. -/
theorem scrubRead_clean (hmem : s.memPoison = []) (hstores : ∀ plot, (getPlot s plot).poison = []) (p : ErrPlace) : scrubRead s p = s := by
  cases p with
  | plotStore plot line => simp [scrubRead, poisoned, hstores]
  | commons | hbm | secondTier => simp [scrubRead, reportPoison, hmem]
  | cslot | elemConfig | plotConfig | live | channel | adapterCache | tlb | nodeCache | traceBuffer => rfl

theorem scrubRead_poisonedStore (hpoison : poisoned (getPlot s plot).poison line 1 = true)
    (hidle : bankLines s plot (bankOf (getPlot s plot).hash line) = []) : scrubRead s (.plotStore plot line) =
      raiseFault s { cls := .memerr, sub := 0, plot := plot, addr := line / 64 * 64, report := true, die := some (dieOf plot) } := by
  simp [scrubRead, hpoison, hidle]

/-! ### Repair in service and the trace -/

theorem spareChannel_left (h : Tbl.findD s.reeve.spares k 0 < 2) :
    spareChannel s k = { s with reeve := { s.reeve with spares := Tbl.put s.reeve.spares k (Tbl.findD s.reeve.spares k 0 + 1) } } := if_pos h

theorem spareChannel_spent (h : 2 ≤ Tbl.findD s.reeve.spares k 0) : spareChannel s k = s := if_neg (Nat.not_lt.2 h)

theorem ports_modPort_same (n : Fin 12) (f : DvlPort → DvlPort) : (modPort s n f).reeve.ports[n.val]? = (s.reeve.ports[n.val]?).map f := by
  simp [modPort]

theorem freezeTrace_last (h : (getPlot s plot).trace.post = some 0) : freezeTrace s plot =
    modPlot s plot fun q => { q with trace := { q.trace with ctl := q.trace.ctl ||| 0x20, post := none } } := if_pos h

/-- Settles O43: each clause is the lemma of its step above; of a corrected error, a link that goes down and a repaired row, the state is written out in
the model. -/
theorem errorsAndRepair : Obligations.ErrorsAndRepair := by
  unfold Obligations.ErrorsAndRepair
  refine ⟨?corrected, ?dirty, ?clean, ?hbm, ?live, ?slot, ?record, ?scrubbed, ?scrub, ?spare, ?spent, ?repair, ?lane, ?port, ?pcie, ?trace⟩
  case corrected => exact fun s p => rfl
  case dirty => exact fun s pa h => congrArg Host.Outcome.next (uncorrectable_dirtyCommons h)
  case clean => exact fun s pa => congrArg Host.Outcome.next (uncorrectable_cleanCommons pa)
  case hbm => exact fun s pa h => congrArg Host.Outcome.next (uncorrectable_hbm h)
  case live => exact fun s l hpresent halive => congrArg Host.Outcome.next (uncorrectable_live hpresent halive)
  case slot => exact fun s plot k h => congrArg Host.Outcome.next (uncorrectable_validSlot h)
  case record => exact fun s die n => ⟨_, rfl, congrArg Die.nodeCache (getDie_modDie_same s die fun d => { d with nodeCache := dropAt d.nodeCache n })⟩
  case scrubbed => exact fun s p hmem hstores => congrArg Host.Outcome.next (scrubRead_clean hmem hstores p)
  case scrub => exact fun s plot line hpoison hidle => congrArg Host.Outcome.next (scrubRead_poisonedStore hpoison hidle)
  case spare => exact fun s stack pa h => ⟨_, congrArg Host.Outcome.next (spareChannel_left h), rfl, findD_put_same ..⟩
  case spent => exact fun s stack pa h => congrArg Host.Outcome.next (spareChannel_spent h)
  case repair => exact fun s pa => ⟨_, rfl, rfl, rfl, rfl⟩
  case lane =>
    intro s n p hp
    refine ⟨modPort s n failLane, rfl, ?_⟩
    rw [ports_modPort_same, hp]
    rfl
  case port => exact fun s n => rfl
  case pcie => exact fun s => rfl
  case trace =>
    intro s plot h
    refine ⟨_, congrArg Host.Outcome.next (freezeTrace_last h), ?_⟩
    rw [getPlot_modPlot_same]
    exact ⟨rfl, rfl, rfl⟩

end Sys2Proof.Proofs
end

section
/-!
SUPPORT. What the small updates of an element do to each of its parts: a register write, a predicate update, the ports, and the commit of a beat
(spec 08 R135); and what an update of one element leaves of every element.
-/

namespace Sys2Proof.Laws

open Machine

/-! ### Registers and predicates -/

/-- A register write changes d, c0 and c1 only. -/
theorem writeReg_eq (e : Elem) (v : Word) (dst : Dst) :
    writeReg e v dst = { e with d := (writeReg e v dst).d, c0 := (writeReg e v dst).c0, c1 := (writeReg e v dst).c1 } := by
  cases dst <;> rfl

theorem d_writeReg (e : Elem) (v : Word) (dst : Dst) (i : Fin 8) : (writeReg e v dst).d[i] = if dst = .d i then v else e.d[i] := by
  cases dst with
  | d n => simp [writeReg, Vector.getElem_set, Fin.ext_iff]
  | ch | none | c0 | c1 | fan => rfl

theorem c0_writeReg (e : Elem) (v : Word) (dst : Dst) : (writeReg e v dst).c0 = if dst = .c0 then v else e.c0 := by
  cases dst <;> rfl

theorem c1_writeReg (e : Elem) (v : Word) (dst : Dst) : (writeReg e v dst).c1 = if dst = .c1 then v else e.c1 := by
  cases dst <;> rfl

/-- The mask of a predicate bit. -/
theorem getLsbD_predMask (k i : Fin 8) : (1#8 <<< k.val).getLsbD i.val = decide (i = k) := by
  rw [← BitVec.twoPow_eq, BitVec.getLsbD_twoPow, decide_eq_true k.isLt, Bool.true_and]
  exact decide_eq_decide.2 (eq_comm.trans Fin.ext_iff.symm)

theorem p_setPredBit (e : Elem) (k : Fin 8) (v : Bool) (i : Fin 8) :
    (setPredBit e k v).p.getLsbD i.val = if i = k then v else e.p.getLsbD i.val := by
  have hnew : (if v then 1#8 <<< k.val else 0).getLsbD i.val = (v && decide (i = k)) := by
    cases v
    · exact BitVec.getLsbD_zero
    · exact getLsbD_predMask k i
  have hold : (e.p &&& ~~~(1#8 <<< k.val)).getLsbD i.val = (e.p.getLsbD i.val && !decide (i = k)) := by
    rw [BitVec.getLsbD_and, BitVec.getLsbD_not, decide_eq_true i.isLt, Bool.true_and, getLsbD_predMask]
  rw [setPredBit, BitVec.getLsbD_or, hold, hnew]
  by_cases h : i = k <;> simp [h]

/-- A predicate update changes p only. -/
theorem setPred_eq (e : Elem) (u : PUpd) (v : Bool) : setPred e u v = { e with p := (setPred e u v).p } := by
  cases u <;> rfl

theorem p_setPred (e : Elem) (u : PUpd) (v : Bool) (i : Fin 8) : (setPred e u v).p.getLsbD i.val =
    if u = .result i then v else if u = .one i then true else if u = .zero i then false else e.p.getLsbD i.val := by
  cases u with
  | none => rfl
  | result k | one k | zero k => exact (p_setPredBit e k _ i).trans (by simp [eq_comm (a := k)])

/-! ### Ports -/

@[simp] theorem outPort_setOut_same (e : Elem) (n : Fin 4) (o : OutPort) : outPort (setOut e n o) n = o := by simp [outPort, setOut]

@[simp] theorem inPort_setIn_same (e : Elem) (n : Fin 4) (i : InPort) : inPort (setIn e n i) n = i := by simp [inPort, setIn]

@[simp] theorem outPort_setIn (e : Elem) (n m : Fin 4) (i : InPort) : outPort (setIn e n i) m = outPort e m := rfl

@[simp] theorem inPort_setOut (e : Elem) (n m : Fin 4) (o : OutPort) : inPort (setOut e n o) m = inPort e m := rfl

/-! ### One element of the state -/

/-- An update that keeps a part of the element keeps that part of every element. -/
theorem getElem_modElem_part {β : Type} {part : Elem → β} {f : Elem → Elem} (hf : ∀ e, part (f e) = part e) (s : State) (l m : Loc) :
    part (getElem (modElem s l f) m) = part (getElem s m) := by
  by_cases h : locKey m = locKey l
  · rw [getElem_modElem_same s f h, hf]
  · rw [getElem_modElem_other s f h]

@[simp] theorem getElem_markActive (s : State) (n : Nat) (m : Loc) : getElem (markActive s n) m = getElem s m := rfl

@[simp] theorem getElem_modParcel (s : State) (n : Nat) (f : Parcel → Parcel) (m : Loc) : getElem (modParcel s n f) m = getElem s m := rfl

@[simp] theorem getElem_modPlot (s : State) (n : Nat) (f : Plot → Plot) (m : Loc) : getElem (modPlot s n f) m = getElem s m := rfl

end Sys2Proof.Laws
end

section
/-!
PROOF. The commit of a beat with no effects of its own (spec 08 R135, R136): what it writes to its element, what it leaves, and where its token goes; from these
lemmas the obligation BeatCommits.
-/

namespace Sys2Proof.Proofs

open Machine Laws Say

/-! ### What a commit writes to its element -/

/-- The element of a commit after its flags and its register write, before the predicate and `pix`. -/
def written (sp : FireSpec) (o : BeatOut) (e : Elem) : Elem := writeReg (orFlags e o.flags) o.v.toWord sp.dst

/-- The predicates after a commit: a beat that is not the last leaves them. -/
def predsAfter (sp : FireSpec) (c : Cursor) (o : BeatOut) (e : Elem) : BitVec 8 :=
  if c.beat + 1 < c.beats then e.p else (setPred e sp.upd o.pred).p

theorem written_eq (sp : FireSpec) (o : BeatOut) (e : Elem) : written sp o e = { e with
    flg := e.flg ||| o.flags.setWidth 64, d := (written sp o e).d, c0 := (written sp o e).c0, c1 := (written sp o e).c1 } :=
  writeReg_eq (orFlags e o.flags) o.v.toWord sp.dst

section
variable {sp : FireSpec} {c : Cursor} {t : Nat} {o : BeatOut} {e : Elem} (hupd : o.upd = id)
include hupd

theorem commitElem_written : commitElem sp c t o e = { written sp o e with
    p := predsAfter sp c o (written sp o e), pix := pixAfter c.beats c.beat c.slot, firedAt := t + 1 } := by
  simp only [commitElem, hupd, id, predsAfter]
  split
  · rfl
  · exact congrArg (fun x : Elem => { x with pix := pixAfter c.beats c.beat c.slot, firedAt := t + 1 })
      (setPred_eq (written sp o e) sp.upd o.pred)

/-- All that a commit changes of its element. -/
theorem commitElem_eq : commitElem sp c t o e = { e with
    flg := e.flg ||| o.flags.setWidth 64, d := (written sp o e).d, c0 := (written sp o e).c0, c1 := (written sp o e).c1
    p := predsAfter sp c o (written sp o e), pix := pixAfter c.beats c.beat c.slot, firedAt := t + 1 } :=
  (commitElem_written hupd).trans (congrArg (fun x : Elem => { x with
    p := predsAfter sp c o (written sp o e), pix := pixAfter c.beats c.beat c.slot, firedAt := t + 1 }) (written_eq sp o e))

end

theorem d_written (sp : FireSpec) (o : BeatOut) (e : Elem) (i : Fin 8) :
    (written sp o e).d[i] = if sp.dst = .d i then o.v.toWord else e.d[i] := d_writeReg (orFlags e o.flags) o.v.toWord sp.dst i

theorem c0_written (sp : FireSpec) (o : BeatOut) (e : Elem) : (written sp o e).c0 = if sp.dst = .c0 then o.v.toWord else e.c0 :=
  c0_writeReg (orFlags e o.flags) o.v.toWord sp.dst

theorem c1_written (sp : FireSpec) (o : BeatOut) (e : Elem) : (written sp o e).c1 = if sp.dst = .c1 then o.v.toWord else e.c1 :=
  c1_writeReg (orFlags e o.flags) o.v.toWord sp.dst

theorem getLsbD_predsAfter (sp : FireSpec) (c : Cursor) (o : BeatOut) (e : Elem) (i : Fin 8) :
    (predsAfter sp c o (written sp o e)).getLsbD i.val = if c.beats ≤ c.beat + 1 then
      (if sp.upd = .result i then o.pred else if sp.upd = .one i then true else if sp.upd = .zero i then false else e.p.getLsbD i.val)
      else e.p.getLsbD i.val := by
  have hp : (written sp o e).p = e.p := by rw [written_eq]
  unfold predsAfter
  by_cases hmore : c.beat + 1 < c.beats
  · rw [if_pos hmore, if_neg (Nat.not_le.2 hmore), hp]
  · rw [if_neg hmore, if_pos (Nat.not_lt.1 hmore), p_setPred, hp]

/-- Between two beats `pix` shows the next beat, and after the last nothing. -/
theorem pixAfter_eq {w : Nat} (hw : w ≤ 16) (j : Nat) (n : Fin 16) :
    pixAfter w j n = if j + 1 < w then BitVec.ofNat 64 ((j + 1) * 32 + 16 + n.val) else 0#64 := by
  unfold pixAfter
  split
  case isFalse => rfl
  case isTrue hmore =>
    have hbeat : (j + 1) % 32 = j + 1 := Nat.mod_eq_of_lt (by omega)
    have hslot : n.val % 16 = n.val := Nat.mod_eq_of_lt n.isLt
    simp [pixWord, hbeat, hslot]

/-! ### Where a token goes -/

section
variable {s : State} {l m : Loc} {n : Fin 4} {r : Route}

/-- Through the plot switch an entry goes to the end of the queue that the route names. -/
theorem es_pushOut (hroute : (outPort (Machine.getElem s l) n).route = some r) (hshort : r.long = false)
    (halive : (Machine.getElem s r.dst).killed = false) (x : Entry) : (inPort (Machine.getElem (pushOut s l n x) r.dst) r.port).q.es =
      (inPort (Machine.getElem s r.dst) r.port).q.es ++ [x] := by
  simp only [pushOut, hroute, hshort, getElem_markActive, halive, Bool.false_eq_true, if_false, getElem_setElem_same, inPort_setIn_same, queuePush]

/-- A dequeue leaves the inputs of every element but its own: a credit changes outputs, and a result to be joined its list. -/
theorem ins_dequeue_other (h : locKey m ≠ locKey l) (s : State) (n : Fin 4) :
    (Machine.getElem (dequeue s l n) m).ins = (Machine.getElem s m).ins := by
  unfold dequeue
  dsimp only
  have hown := congrArg Elem.ins (getElem_setElem_other s (setIn (Machine.getElem s l) n
    { inPort (Machine.getElem s l) n with q := queuePop (now s) (inPort (Machine.getElem s l) n).q }) h)
  have hother (s : State) (o : Loc) (f : Elem → Elem) (hf : ∀ e, (f e).ins = e.ins) :
      (Machine.getElem (modElem s o f) m).ins = (Machine.getElem s m).ins := getElem_modElem_part hf s o m
  split
  case h_1 => rfl
  case h_2 x xs _ =>
    repeat' split
    all_goals simp only [getElem_modParcel, hother, setOut, hown, implies_true]

theorem ins_dequeueNamed_other (h : locKey m ≠ locKey l) (s : State) (sp : FireSpec) :
    (Machine.getElem (dequeueNamed s l sp) m).ins = (Machine.getElem s m).ins := by
  unfold dequeueNamed
  split
  · rfl
  · exact foldl_keeps (fun s => (Machine.getElem s m).ins) (f := fun s n => dequeue s l n) (fun s n => ins_dequeue_other h s n) _ s

@[simp] theorem getElem_traceEvent (s : State) (plot : Nat) (e : TraceEv) (m : Loc) :
    Machine.getElem (traceEvent s plot e) m = Machine.getElem s m := by
  unfold traceEvent
  dsimp only
  split <;> rfl

/-- A commit that writes one output: what the inputs of another element hold is what the enqueue left there. -/
theorem ins_commitBeat_other {sp : FireSpec} {o : BeatOut} (hpost : o.post = id) (hsync : sp.async = false) (hall : o.only = none)
    (hdst : sp.dst = .ch n) (h : locKey m ≠ locKey s.sched.cur.l) : (Machine.getElem (commitBeat sp s o) m).ins =
      (Machine.getElem (enqueue (modElem s s.sched.cur.l (commitElem sp s.sched.cur (now s) o)) s.sched.cur.l n (tokenOf sp o)) m).ins := by
  simp only [commitBeat, hpost, hsync, hdst, hall, id, writeTokens, outsOf, List.foldl_cons, List.foldl_nil, Bool.false_and, Bool.false_eq_true, if_false]
  split <;>
  simp only [traceFiring, getElem_traceEvent, getElem_markActive, ins_dequeueNamed_other h, tokenOf]

end

/-- Settles O56: the frame is that of `commitBeat_flows`, the element's own part `commitElem_eq`, and the token's place `es_pushOut`. -/
theorem beatCommits : Obligations.BeatCommits := by
  unfold Obligations.BeatCommits
  refine ⟨?frame, ?own, ?token⟩
  case frame =>
    intro sp s o hupd hpost
    obtain ⟨hrest, helem, hplot⟩ := commitBeat_flows sp s o hpost
    have hown : KeepsOther (commitElem sp s.sched.cur (now s) o (Machine.getElem s s.sched.cur.l))
        (Machine.getElem (commitBeat sp s o) s.sched.cur.l) := by
      have := (helem s.sched.cur.l).rest
      rwa [getElem_modElem_same s _ rfl] at this
    refine ⟨?_, fun m hm => ?_, hplot, hown, fun i _ hi => ?_⟩
    · rw [hrest]
      exact ⟨rfl, rfl, rfl, rfl, rfl, rfl, rfl, rfl, rfl, rfl, rfl, rfl, rfl, rfl⟩
    · have := (helem m).rest
      rwa [getElem_modElem_other s _ hm] at this
    · have hflg := congrArg Elem.flg hown
      rw [commitElem_eq hupd] at hflg
      exact hflg ▸ hi
  case own =>
    intro sp c t o e hupd hbeats
    rw [commitElem_eq hupd]
    exact ⟨rfl, d_written sp o e, c0_written sp o e, c1_written sp o e, rfl, rfl, rfl, rfl, rfl, getLsbD_predsAfter sp c o e,
      pixAfter_eq hbeats c.beat c.slot⟩
  case token =>
    intro sp s o n r hupd hpost hall hsync hdst l hroute hshort hne halive
    have hother : Machine.getElem (modElem s l (commitElem sp s.sched.cur (now s) o)) r.dst = Machine.getElem s r.dst :=
      getElem_modElem_other s _ hne
    have hroute' : (outPort (Machine.getElem (modElem s l (commitElem sp s.sched.cur (now s) o)) l) n).route = some r := by
      rw [getElem_modElem_same s _ rfl, commitElem_eq hupd]
      exact hroute
    have hins := ins_commitBeat_other (sp := sp) hpost hsync hall hdst hne
    unfold inPort
    rw [hins]
    exact (es_pushOut hroute' hshort (by rw [hother]; exact halive) _).trans (by rw [hother]; rfl)

end Sys2Proof.Proofs
end

section
/-!
PROOF. The picker and an element's turn (spec 08 R134 to R136): what the search of a rotating class finds, which slot Pick chooses, and what a step of the machine
runs; from these lemmas the obligations PickerRule and StepRunsDecoded.
-/

namespace Sys2Proof.Proofs

open Machine Laws Say

/-! ### The search of a rotating class -/

/-- What comes no later than m in the turn that begins after p comes no later in the turn from p on, unless m is p. -/
theorem sub_le_sub_of_succ {n m p : Fin 16} (hm : m ≠ p) (h : n - (p + 1) ≤ m - (p + 1)) : n - p ≤ m - p := by
  simp only [Fin.le_def, Fin.sub_def, Fin.add_def, ne_eq, Fin.ext_iff] at *
  omega

/-- The search finds the first ready number from its start on, in the cyclic order. -/
theorem firstFrom_some {ready : List (Fin 16)} {k : Nat} {p n : Fin 16} (h : firstFrom ready k p = some n) :
    n ∈ ready ∧ ∀ m ∈ ready, n - p ≤ m - p := by
  induction k generalizing p with
  | zero => cases h
  | succ k ih =>
    unfold firstFrom at h
    split at h
    case isTrue hp =>
      cases h
      exact ⟨List.contains_iff_mem.1 hp, fun m _ => by simp⟩
    case isFalse hp =>
      have hne : ∀ m ∈ ready, m ≠ p := fun m hm hmp => hp (List.contains_iff_mem.2 (hmp ▸ hm))
      obtain ⟨hn, hfirst⟩ := ih h
      exact ⟨hn, fun m hm => sub_le_sub_of_succ (hne m hm) (hfirst m hm)⟩

/-- A search of k numbers that finds none has seen them all. -/
theorem firstFrom_none {ready : List (Fin 16)} {k : Nat} {p : Fin 16} (h : firstFrom ready k p = none) {m : Fin 16} (hm : (m - p).val < k) :
    m ∉ ready := by
  induction k generalizing p with
  | zero => omega
  | succ k ih =>
    unfold firstFrom at h
    split at h
    case isTrue => cases h
    case isFalse hp =>
      by_cases hmp : m = p
      · exact fun hmem => hp (List.contains_iff_mem.2 (hmp ▸ hmem))
      · refine ih h ?_
        simp only [Fin.sub_def, Fin.add_def, Fin.ext_iff] at *
        omega

theorem firstFrom_full_none {ready : List (Fin 16)} {p : Fin 16} (h : firstFrom ready 16 p = none) : ready = [] :=
  List.eq_nil_iff_forall_not_mem.2 fun m => firstFrom_none h (m - p).isLt

/-! ### The class that wins -/

/-- The class of a rotating pointer. -/
def rotating (c : Fin 3) : Fin 4 := ⟨c.val, by omega⟩

theorem mem_rotatingClasses (c : Fin 3) : c ∈ ([2, 1, 0] : List (Fin 3)) := by revert c; decide

/-- Of rotating classes in descending order, the first that has a ready slot wins with the first from its pointer on. -/
theorem pickRotating_some {e : Elem} {ready : Fin 4 → List (Fin 16)} {n : Fin 16} {cs : List (Fin 3)} (hcs : cs.Pairwise (· > ·))
    (h : pickRotating e ready cs = some n) :
    ∃ c ∈ cs, firstFrom (ready (rotating c)) 16 e.ptr[c] = some n ∧ ∀ d ∈ cs, c < d → ready (rotating d) = [] := by
  induction cs with
  | nil => cases h
  | cons c cs ih =>
    obtain ⟨hc, hcs⟩ := List.pairwise_cons.1 hcs
    unfold pickRotating at h
    split at h
    case h_1 m hfound =>
      cases h
      refine ⟨c, List.mem_cons_self, hfound, fun d hd hlt => ?_⟩
      rcases List.mem_cons.1 hd with rfl | hd
      · exact absurd hlt (Fin.lt_irrefl d)
      · exact absurd hlt (Fin.lt_asymm (hc d hd))
    case h_2 hnone =>
      obtain ⟨b, hb, hfound, hempty⟩ := ih hcs h
      refine ⟨b, List.mem_cons_of_mem c hb, hfound, fun d hd hlt => ?_⟩
      rcases List.mem_cons.1 hd with rfl | hd
      · exact firstFrom_full_none hnone
      · exact hempty d hd hlt

theorem pickRotating_none {e : Elem} {ready : Fin 4 → List (Fin 16)} {cs : List (Fin 3)} (h : pickRotating e ready cs = none) :
    ∀ c ∈ cs, ready (rotating c) = [] := by
  induction cs with
  | nil => exact fun c hc => absurd hc List.not_mem_nil
  | cons c cs ih =>
    unfold pickRotating at h
    split at h
    case h_1 => cases h
    case h_2 hnone =>
      intro d hd
      rcases List.mem_cons.1 hd with rfl | hd
      · exact firstFrom_full_none hnone
      · exact ih h d hd

/-- The number that Pick chooses, of the ready slots of each class. -/
def pickNumber (e : Elem) (ready : Fin 4 → List (Fin 16)) : Option (Fin 16) :=
  match ready 3 with
  | n :: _ => some n
  | [] => pickRotating e ready [2, 1, 0]

/-- n comes first among the ready slots of class c: the lowest of class 3, and of another class the first from its pointer on. -/
def FirstOf (e : Elem) (ready : List (Fin 16)) (c : Fin 4) (n : Fin 16) : Prop :=
  ∀ m ∈ ready, if h : c.val < 3 then n - e.ptr[c.val] ≤ m - e.ptr[c.val] else n ≤ m

/-- Pick chooses from the highest class that has a ready slot, and there the first. -/
theorem pickNumber_some {e : Elem} {ready : Fin 4 → List (Fin 16)} (hsorted : (ready 3).Pairwise (· < ·)) {n : Fin 16}
    (h : pickNumber e ready = some n) : ∃ c, n ∈ ready c ∧ (∀ d, c < d → ready d = []) ∧ FirstOf e (ready c) c n := by
  unfold pickNumber at h
  split at h
  case h_1 m ms h3 =>
    cases h
    refine ⟨3, h3 ▸ List.mem_cons_self, fun d hd => by omega, fun m hm => ?_⟩
    rw [h3] at hsorted hm
    split
    case isTrue hlt => exact absurd hlt (by decide)
    case isFalse =>
      rcases List.mem_cons.1 hm with rfl | hm
      · exact Fin.le_refl m
      · exact Fin.le_of_lt ((List.pairwise_cons.1 hsorted).1 m hm)
  case h_2 h3 =>
    obtain ⟨c, -, hfound, hempty⟩ := pickRotating_some (by decide) h
    obtain ⟨hn, hfirst⟩ := firstFrom_some hfound
    refine ⟨rotating c, hn, fun d hd => ?_, fun m hm => ?_⟩
    · by_cases hd3 : d = 3
      · exact hd3 ▸ h3
      · have hlt : d.val < 3 := by omega
        exact hempty ⟨d.val, hlt⟩ (mem_rotatingClasses _) hd
    · have hc : (rotating c).val < 3 := c.isLt
      rw [dif_pos hc]
      exact hfirst m hm

theorem pickNumber_none {e : Elem} {ready : Fin 4 → List (Fin 16)} (h : pickNumber e ready = none) (c : Fin 4) : ready c = [] := by
  unfold pickNumber at h
  split at h
  case h_1 => cases h
  case h_2 h3 =>
    have hempty := pickRotating_none h
    match c with
    | 0 => exact hempty 0 (by decide)
    | 1 => exact hempty 1 (by decide)
    | 2 => exact hempty 2 (by decide)
    | 3 => exact h3

/-! ### Pick -/

section
variable {sp : Instr → Option FireSpec} {s : State} {l : Loc} {n : Fin 16} {x : Slot} {c : Fin 4}

/-- The ready slots of an element, in ascending order. -/
def readySlots (sp : Instr → Option FireSpec) (s : State) (l : Loc) : List (Fin 16 × Slot) :=
  slotNums.filterMap fun n => (slotReady sp s l n).map fun x => (n, x)

/-- The numbers of the ready slots of a class. -/
def readyOf (sp : Instr → Option FireSpec) (s : State) (l : Loc) (c : Fin 4) : List (Fin 16) :=
  ((readySlots sp s l).filter fun x => x.2.trig.pc == c).map (·.1)

theorem pickSlot_eq (h : elemPicks s l = true) : pickSlot sp s l =
    (pickNumber (Machine.getElem s l) (readyOf sp s l)).bind fun n => (readySlots sp s l).find? fun x => x.1 == n := by
  unfold pickSlot
  rw [if_pos h]
  change (match pickNumber (Machine.getElem s l) (readyOf sp s l) with | some n => _ | none => none) = _
  cases pickNumber (Machine.getElem s l) (readyOf sp s l) <;> rfl

theorem mem_slotNums (n : Fin 16) : n ∈ slotNums := by revert n; decide

theorem mem_readySlots : (n, x) ∈ readySlots sp s l ↔ slotReady sp s l n = some x := by
  simp [readySlots, mem_slotNums]

theorem mem_readyOf : n ∈ readyOf sp s l c ↔ ∃ x, slotReady sp s l n = some x ∧ x.trig.pc = c := by
  simp [readyOf, mem_readySlots]

theorem sorted_readyOf (sp : Instr → Option FireSpec) (s : State) (l : Loc) (c : Fin 4) : (readyOf sp s l c).Pairwise (· < ·) := by
  have hnums : slotNums.Pairwise (· < ·) := by decide
  refine List.pairwise_map.2 (List.Pairwise.filter _ (List.pairwise_filterMap.2 (hnums.imp ?_)))
  intro a b hab x hx y hy
  obtain ⟨-, -, rfl⟩ := Option.map_eq_some_iff.1 hx
  obtain ⟨-, -, rfl⟩ := Option.map_eq_some_iff.1 hy
  exact hab

/-- What Pick answers is a slot that is ready, under the number that was chosen. -/
theorem pickSlot_some (h : pickSlot sp s l = some (n, x)) : elemPicks s l = true ∧ slotReady sp s l n = some x ∧
    pickNumber (Machine.getElem s l) (readyOf sp s l) = some n := by
  by_cases hpicks : elemPicks s l = true
  · rw [pickSlot_eq hpicks] at h
    obtain ⟨m, hm, hfound⟩ := Option.bind_eq_some_iff.1 h
    have hmn : n = m := by simpa using List.find?_some hfound
    exact ⟨hpicks, mem_readySlots.1 (List.mem_of_find?_eq_some hfound), hmn ▸ hm⟩
  · rw [pickSlot, if_neg hpicks] at h
    cases h

theorem pickSlot_isSome (hpicks : elemPicks s l = true) (hready : slotReady sp s l n = some x) : (pickSlot sp s l).isSome = true := by
  rw [pickSlot_eq hpicks]
  cases hnumber : pickNumber (Machine.getElem s l) (readyOf sp s l) with
  | none =>
    have hmem : n ∈ readyOf sp s l x.trig.pc := mem_readyOf.2 ⟨x, hready, rfl⟩
    rw [pickNumber_none hnumber] at hmem
    exact absurd hmem List.not_mem_nil
  | some m =>
    obtain ⟨c, hm, -, -⟩ := pickNumber_some (sorted_readyOf sp s l 3) hnumber
    obtain ⟨y, hy, -⟩ := mem_readyOf.1 hm
    exact List.find?_isSome.2 ⟨(m, y), mem_readySlots.2 hy, by simp⟩

theorem ptr_movePtr (n : Fin 16) (e : Elem) (c : Fin 4) (d : Fin 3) : (movePtr n c e).ptr[d] = if d.val = c.val then n + 1 else e.ptr[d] := by
  unfold movePtr
  split
  · simp [Vector.getElem_set, eq_comm]
  · next hc => rw [if_neg (by omega)]

end

/-- Settles O54: the class and the place are those of `pickNumber_some`. -/
theorem pickerRule : Obligations.PickerRule := by
  unfold Obligations.PickerRule
  refine ⟨fun sp s l n x h => ?_, fun sp s l n x => pickSlot_isSome, ptr_movePtr⟩
  obtain ⟨hpicks, hready, hnumber⟩ := pickSlot_some h
  obtain ⟨c, hn, hhigher, hfirst⟩ := pickNumber_some (sorted_readyOf sp s l 3) hnumber
  obtain ⟨x', hx', rfl⟩ := mem_readyOf.1 hn
  obtain rfl : x = x' := Option.some.inj (hready.symm.trans hx')
  refine ⟨hpicks, hready, fun m y hy => ⟨?_, fun hclass => hfirst m (mem_readyOf.2 ⟨y, hy, hclass⟩)⟩⟩
  refine Fin.not_lt.1 fun hlt => ?_
  have hmem : m ∈ readyOf sp s l y.trig.pc := mem_readyOf.2 ⟨y, hy, rfl⟩
  rw [hhigher _ hlt] at hmem
  exact List.not_mem_nil hmem

/-! ### A step -/

section
variable {sp : Instr → Option FireSpec} {s : State} {l : Loc} {n : Fin 16} {x : Slot} {ts : List Turn} {i : Instr}

theorem slotOf_eq_some {e : Elem} {plot : Nat} (h : slotOf e plot n = some x) :
    decodeSlot e.kind (isHeadland plot) e.fan e.slots[n] = .ok (some x) := by
  unfold slotOf at h
  split at h
  case h_1 y hy => rw [hy, h]
  case h_2 => cases h

/-- A slot that is ready decodes. -/
theorem decodeSlot_of_slotReady (h : slotReady sp s l n = some x) :
    decodeSlot (Machine.getElem s l).kind (isHeadland l.plot) (Machine.getElem s l).fan (Machine.getElem s l).slots[n] = .ok (some x) := by
  unfold slotReady at h
  dsimp only at h
  split at h
  case h_1 y hy =>
    obtain ⟨-, hyx⟩ := Option.ite_none_right_eq_some.1 h
    exact slotOf_eq_some (hyx ▸ hy)
  case h_2 => cases h

theorem step_elem (hmoves : s.sched.moves = []) (hagenda : s.sched.agenda = .elem l :: ts) :
    Machine.step s = elemTurn l (turnTaken s ts) := by
  simp only [Machine.step, hmoves, hagenda]; rfl

theorem step_event (hmoves : s.sched.moves = []) (hagenda : s.sched.agenda = .ev i :: ts) :
    Machine.step s = eventTurn i (turnTaken s ts) := by
  simp only [Machine.step, hmoves, hagenda]; rfl

theorem elemTurn_goesOn (h : hasRedo s l = true) : elemTurn l s = exec (.firingBeat l) s := if_pos h

theorem elemTurn_fires (hredo : hasRedo s l = false) (hpick : pickSlot specOf s l = some (n, x)) :
    elemTurn l s = mapOut (fun t => modElem t l (movePtr n x.trig.pc)) (exec x.act (startFiring s l n x)) := by
  simp [elemTurn, hredo, hpick]

theorem elemTurn_rests (hredo : hasRedo s l = false) (hpick : pickSlot specOf s l = none) : elemTurn l s = .next s := by
  simp [elemTurn, hredo, hpick]

/-- A turn whose time is exact, or that no timing bit can put off, runs now. -/
theorem eventTurn_runs (h : exactTiming i = true ∨ s.sched.stalls = []) : eventTurn i s = exec i s := by
  rcases h with h | h <;> simp [eventTurn, h]

end

/-- Settles O50: each clause is the equation of its turn above. -/
theorem stepRunsDecoded : Obligations.StepRunsDecoded := by
  unfold Obligations.StepRunsDecoded
  refine ⟨?fires, ?goesOn, ?rests, ?event, ?move, ?tick⟩
  case fires =>
    intro s l ts n x hmoves hagenda hredo hpick
    obtain ⟨-, hready, -⟩ := pickSlot_some hpick
    exact ⟨decodeSlot_of_slotReady (s := turnTaken s ts) hready, (step_elem hmoves hagenda).trans (elemTurn_fires hredo hpick)⟩
  case goesOn => exact fun s l ts hmoves hagenda hredo => (step_elem hmoves hagenda).trans (elemTurn_goesOn hredo)
  case rests => exact fun s l ts hmoves hagenda hredo hpick => (step_elem hmoves hagenda).trans (elemTurn_rests hredo hpick)
  case event => exact fun s i ts hmoves hagenda htime => (step_event hmoves hagenda).trans (eventTurn_runs htime)
  case move =>
    intro s m ms hmoves
    simp only [Machine.step, hmoves]; rfl
  case tick =>
    intro s hmoves hagenda
    refine ⟨?_, rfl⟩
    simp only [Machine.step, hmoves, hagenda]

end Sys2Proof.Proofs
end

section
/-!
PROOF. The steps of a long channel (spec 08 R131, R137): its length, and what a departure, an arrival and a return of credits do to its two ends; from these
lemmas the obligation ChannelSteps.
-/

namespace Sys2Proof.Proofs

open Machine Laws

variable {s : State} {l : Loc} {n : Fin 4} {r : Route} {t : Nat} {x : Entry} {xs : List Entry} {rest : List (Nat × Entry)}

theorem dist_chanRec {w : Nat} (hlong : (readRoute w).long = true) (gone : List Nat) (p : Parcel) (plot : Nat) :
    (chanRec gone p plot w).2.2.dist = longDist gone plot (chanRec gone p plot w).2.2.dst.plot := by
  simp [chanRec, hlong]

/-- With no plot retired a long channel is 1 + H + 4X cycles long. -/
theorem longDist_nil (a b : Nat) : longDist [] a b =
    1 + max 1 ((plotX a - plotX b) + (plotX b - plotX a) + (plotY a - plotY b) + (plotY b - plotY a)) + 4 * crossings a b := by
  have habs (x y : Nat) : max x y - min x y = (x - y) + (y - x) := by omega
  simp only [longDist, habs, List.filter_nil, List.length_nil, Nat.add_zero, Nat.add_assoc]

/-- The head of an output queue that may depart does, against a credit. -/
theorem departToken_departs (hroute : (outPort (Machine.getElem s l) n).route = some r) (hlong : r.long = true)
    (hqueue : (outPort (Machine.getElem s l) n).q.es = x :: xs) (hcredit : 0 < (outPort (Machine.getElem s l) n).credits)
    (hfirst : popsAt (now s) (outPort (Machine.getElem s l) n).q = 0) (hbody : x.body.isSome) (hseen : x.since ≤ now s)
    (hruns : plotFrozen s l.plot = false) :
    let o := outPort (Machine.getElem s l) n
    departToken s l n = modElem s l fun e => setOut e n
      { o with q := queuePop (now s) o.q, credits := o.credits - 1, flight := o.flight ++ [(now s + r.dist, x)] } := by
  simp [departToken, hroute, hlong, hqueue, hcredit, hfirst, hbody, hseen, hruns]

/-- The oldest token in flight is taken from the channel; the rest stays in flight. -/
def takeFlight (s : State) (l : Loc) (n : Fin 4) (rest : List (Nat × Entry)) : State :=
  modElem s l fun e => setOut e n { outPort (Machine.getElem s l) n with flight := rest }

@[simp] theorem killed_takeFlight (s : State) (l : Loc) (n : Fin 4) (rest : List (Nat × Entry)) (m : Loc) :
    (Machine.getElem (takeFlight s l n rest) m).killed = (Machine.getElem s m).killed :=
  getElem_modElem_part (part := Elem.killed) (fun _ => by rfl) s l m

@[simp] theorem inPort_takeFlight (s : State) (l : Loc) (n : Fin 4) (rest : List (Nat × Entry)) (m : Loc) (k : Fin 4) :
    inPort (Machine.getElem (takeFlight s l n rest) m) k = inPort (Machine.getElem s m) k :=
  getElem_modElem_part (part := fun e => inPort e k) (fun _ => by rfl) s l m

section
variable (hroute : (outPort (Machine.getElem s l) n).route = some r) (hflight : (outPort (Machine.getElem s l) n).flight = (t, x) :: rest)
  (hdue : t ≤ now s + 1)
include hroute hflight hdue

/-- A token that is due lands in the queue of its destination, or goes back as a credit where that is killed. -/
theorem arriveToken_due : arriveToken s l n =
    let o := outPort (Machine.getElem s l) n
    let u := markActive (takeFlight s l n rest) r.dst.plot
    if (Machine.getElem s r.dst).killed then modElem u l fun e => setOut e n { o with flight := rest, back := o.back ++ [t + r.dist] }
    else modElem u r.dst fun e => setIn e r.port { inPort e r.port with q := queuePush (inPort e r.port).q { x with since := t } } := by
  rw [← killed_takeFlight s l n rest r.dst]
  unfold arriveToken
  dsimp only
  split
  case h_1 hr hf =>
    cases hroute.symm.trans hr
    cases hflight.symm.trans hf
    exact if_neg (Nat.not_lt.2 hdue)
  case h_2 hnone => exact absurd hflight (hnone r t x rest hroute)

theorem arriveToken_lands (halive : (Machine.getElem s r.dst).killed = false) : arriveToken s l n =
    modElem (markActive (takeFlight s l n rest) r.dst.plot) r.dst
      fun e => setIn e r.port { inPort e r.port with q := queuePush (inPort e r.port).q { x with since := t } } :=
  (arriveToken_due hroute hflight hdue).trans (if_neg (ne_true_of_eq_false halive))

theorem arriveToken_discards (hkilled : (Machine.getElem s r.dst).killed = true) : arriveToken s l n =
    let o := outPort (Machine.getElem s l) n
    modElem (markActive (takeFlight s l n rest) r.dst.plot) l fun e => setOut e n { o with flight := rest, back := o.back ++ [t + r.dist] } :=
  (arriveToken_due hroute hflight hdue).trans (if_pos hkilled)

end

/-- Credits that are due are counted, and are no longer on their way. -/
theorem returnCredits_due (h : ∃ c ∈ (outPort (Machine.getElem s l) n).back, c ≤ now s) :
    let o := outPort (Machine.getElem s l) n
    returnCredits s l n = modElem s l fun e => setOut e n
      { o with credits := o.credits + (o.back.filter fun c => decide (c ≤ now s)).length
               back := o.back.filter fun c => !decide (c ≤ now s) } := by
  obtain ⟨c, hc, hle⟩ := h
  have hmem : c ∈ (outPort (Machine.getElem s l) n).back.filter fun c => decide (c ≤ now s) := List.mem_filter.2 ⟨hc, decide_eq_true hle⟩
  have hsome : ¬((outPort (Machine.getElem s l) n).back.filter fun c => decide (c ≤ now s)).isEmpty = true := by
    rw [List.isEmpty_iff]
    exact List.ne_nil_of_mem hmem
  exact if_neg hsome

theorem outPort_modElem_setOut (s : State) (l : Loc) (n : Fin 4) (o : OutPort) :
    outPort (Machine.getElem (modElem s l fun e => setOut e n o) l) n = o := by
  rw [getElem_modElem_same s _ rfl, outPort_setOut_same]

theorem outPort_modElem_setIn (s : State) (l m : Loc) (n k : Fin 4) (f : Elem → InPort) :
    outPort (Machine.getElem (modElem s m fun e => setIn e k (f e)) l) n = outPort (Machine.getElem s l) n :=
  getElem_modElem_part (part := fun e => outPort e n) (fun _ => by rfl) s m l

/-- Settles O29: each clause is the equation of its step above, read back at the channel's two ends. -/
theorem channelSteps : Obligations.ChannelSteps := by
  unfold Obligations.ChannelSteps
  refine ⟨?length, ?depart, ?land, ?discard, ?credit⟩
  case length => exact fun p plot w hlong => (dist_chanRec hlong [] p plot).trans (longDist_nil plot _)
  case depart =>
    intro s l n r x xs o hroute hlong hqueue hcredit hfirst hbody hseen hruns
    refine ⟨_, congrArg Host.Outcome.next (departToken_departs hroute hlong hqueue hcredit hfirst hbody hseen hruns), ?_⟩
    rw [outPort_modElem_setOut]
    exact ⟨rfl, rfl, rfl⟩
  case land =>
    intro s l n r t x rest o hroute hflight hdue halive
    refine ⟨_, congrArg Host.Outcome.next (arriveToken_lands hroute hflight hdue halive), ?_, ?_⟩
    · rw [outPort_modElem_setIn, getElem_markActive, takeFlight, outPort_modElem_setOut]
    · rw [getElem_modElem_same _ _ rfl, inPort_setIn_same, getElem_markActive, inPort_takeFlight]
  case discard =>
    intro s l n r t x rest o hroute hflight hdue hkilled
    refine ⟨_, congrArg Host.Outcome.next (arriveToken_discards hroute hflight hdue hkilled), ?_⟩
    rw [outPort_modElem_setOut]
    exact ⟨rfl, rfl⟩
  case credit =>
    intro s l n o hdue
    refine ⟨_, congrArg Host.Outcome.next (returnCredits_due hdue), ?_⟩
    rw [outPort_modElem_setOut]
    exact ⟨rfl, rfl⟩

end Sys2Proof.Proofs
end

section
/-!
SUPPORT. Lanes of a register read and written, the sticky flags of many lanes, and Fit (spec 02 R25, R29, R36; 09 R151), as the statements read them.
-/

namespace Sys2Proof.Laws

open Machine Say

/-! ### Lanes -/

theorem laneBits_pos (w : LaneW) : 0 < laneBits w := by cases w <;> decide

theorem laneBits_mul_laneCount (w : LaneW) : laneBits w * laneCount w = 64 := by cases w <;> rfl

theorem laneBits_mul_laneCount_le (w : LaneW) : laneBits w * laneCount w ≤ 64 := Nat.le_of_eq (laneBits_mul_laneCount w)

/-- A lane of a register ends within it. -/
theorem lane_end_le {w n j : Nat} (hn : w * n ≤ 64) (hj : j < n) : w * (j + 1) ≤ 64 := Nat.le_trans (Nat.mul_le_mul_left w hj) hn

theorem toNat_lane (w j : Nat) (v : Word) : (lane w j v).toNat = laneOf w j v := by
  simp [lane, laneOf, BitVec.extractLsb'_toNat]

theorem ofNat_laneOf (w j : Nat) (v : Word) : BitVec.ofNat w (laneOf w j v) = lane w j v := by
  rw [← toNat_lane, BitVec.ofNat_toNat, BitVec.setWidth_eq]

theorem laneOf_lt (w j : Nat) (v : Word) : laneOf w j v < 2 ^ w := Nat.mod_lt _ (Nat.two_pow_pos w)

theorem joinLanes_div (w : Nat) : ∀ (xs : List Nat) (j : Nat), joinLanes w xs / 2 ^ (w * j) % 2 ^ w = xs.getD j 0 % 2 ^ w
  | [], j => by simp [joinLanes]
  | x :: xs, 0 => by simp [joinLanes]
  | x :: xs, j + 1 => by
    have hsplit : 2 ^ (w * (j + 1)) = 2 ^ w * 2 ^ (w * j) := by rw [← Nat.pow_add, Nat.mul_succ, Nat.add_comm]
    have hhead : (x % 2 ^ w + 2 ^ w * joinLanes w xs) / 2 ^ w = joinLanes w xs := by
      rw [Nat.add_mul_div_left _ _ (Nat.two_pow_pos w), Nat.div_eq_of_lt (Nat.mod_lt _ (Nat.two_pow_pos w)), Nat.zero_add]
    rw [joinLanes, hsplit, ← Nat.div_div_eq_div_mul, hhead, joinLanes_div w xs j, List.getD_cons_succ]

/-- A lane of a joined register is the value put there, or 0 where none was. -/
theorem lane_wordOfLanes {w j : Nat} (hj : w * (j + 1) ≤ 64) (xs : List Nat) : lane w j (wordOfLanes w xs) = BitVec.ofNat w (xs.getD j 0) := by
  refine BitVec.eq_of_toNat_eq ?_
  have hsplit : 2 ^ 64 = 2 ^ (w * j) * 2 ^ (64 - w * j) := by rw [← Nat.pow_add, Nat.add_sub_cancel' (by rw [Nat.mul_succ] at hj; omega)]
  have hdvd : 2 ^ w ∣ 2 ^ (64 - w * j) := Nat.pow_dvd_pow 2 (by rw [Nat.mul_succ] at hj; omega)
  rw [toNat_lane, laneOf, wordOfLanes, BitVec.toNat_ofNat, BitVec.toNat_ofNat, Nat.shiftRight_eq_div_pow, hsplit, Nat.mod_mul_right_div_self,
    Nat.mod_mod_of_dvd _ hdvd, joinLanes_div]

theorem lane_wordOfLanes_range {w n j : Nat} (hn : w * n ≤ 64) (hj : j < n) (g : Nat → Nat) :
    lane w j (wordOfLanes w ((List.range n).map g)) = BitVec.ofNat w (g j) := by
  rw [lane_wordOfLanes (lane_end_le hn hj), List.getD_eq_getElem?_getD, List.getElem?_map, List.getElem?_range hj]
  rfl

/-! ### Integers of a lane -/

theorem natCast_two_pow (w : Nat) : ((2 ^ w : Nat) : Int) = 2 ^ w := Int.natCast_pow 2 w

/-- A width's range in halves. -/
theorem two_pow_half {w : Nat} (hw : 0 < w) : 2 ^ w = 2 * 2 ^ (w - 1) := by
  rw [Nat.mul_comm, ← Nat.pow_succ, Nat.succ_eq_add_one, Nat.sub_add_cancel hw]

theorem signedOf_toNat {w : Nat} (hw : 0 < w) (x : BitVec w) : signedOf w x.toNat = x.toInt := by
  have hpow := two_pow_half hw
  rw [signedOf, BitVec.toInt_eq_toNat_cond, natCast_two_pow]
  by_cases h : x.toNat < 2 ^ (w - 1)
  · rw [if_pos h, if_pos (by omega)]
  · rw [if_neg h, if_neg (by omega)]

theorem intOf_toNat {w : Nat} (hw : 0 < w) (signed : Bool) (x : BitVec w) : intOf signed w x.toNat = val signed x := by
  rw [intOf, val, signedOf_toNat hw]

/-- An integer as the model reads it from a lane is the lane's value. -/
theorem ival_laneOf (c : IntCtl) (j : Nat) (v : Word) : ival c (laneOf (laneBits c.w) j v) = val c.signed (lane (laneBits c.w) j v) := by
  rw [ival, ← toNat_lane, intOf_toNat (laneBits_pos c.w)]

theorem ofNat_wrapTo (w : Nat) (r : Int) : BitVec.ofNat w (wrapTo w r) = BitVec.ofInt w r := by
  have hpos : (0 : Int) < (2 ^ w : Nat) := Int.natCast_pos.2 (Nat.two_pow_pos w)
  have hlt : (r % (2 ^ w : Nat)).toNat < 2 ^ w := (Int.toNat_lt (Int.emod_nonneg r (Int.ne_of_gt hpos))).2 (Int.emod_lt_of_pos r hpos)
  refine BitVec.eq_of_toNat_eq ?_
  rw [wrapTo, ← natCast_two_pow, BitVec.toNat_ofNat, Nat.mod_eq_of_lt hlt, BitVec.toNat_ofInt]

/-! ### Fit -/

theorem inRange_iff {signed : Bool} {w : Nat} {r : Int} : inRange signed w r ↔ loBound signed w ≤ r ∧ r ≤ hiBound signed w := by
  cases signed <;> simp only [inRange, loBound, hiBound, if_true, Bool.false_eq_true, if_false, Int.le_sub_one_iff]

theorem ofInt_loBound (signed : Bool) (w : Nat) : BitVec.ofInt w (loBound signed w) = if signed then BitVec.intMin w else 0#w := by
  cases signed
  · rfl
  · exact BitVec.intMin_eq_neg_two_pow.symm

theorem ofInt_hiBound (signed : Bool) (w : Nat) : BitVec.ofInt w (hiBound signed w) = if signed then BitVec.intMax w else BitVec.allOnes w := by
  cases signed
  · have hcast : hiBound false w = ((2 ^ w - 1 : Nat) : Int) := by
      have hpos := Nat.two_pow_pos w
      have hcast := natCast_two_pow w
      simp only [hiBound, Bool.false_eq_true, if_false]
      omega
    rw [hcast, BitVec.ofInt_natCast]
    refine BitVec.eq_of_toNat_eq ?_
    rw [if_neg Bool.false_ne_true, BitVec.toNat_allOnes, BitVec.toNat_ofNat, Nat.mod_eq_of_lt (Nat.sub_one_lt_of_lt (Nat.two_pow_pos w))]
  · rw [← BitVec.ofInt_toInt (x := BitVec.intMax w), BitVec.toInt_intMax]
    rfl

/-- The statement's saturation in the bounds that the model names. -/
theorem fitted_eq (signed sat : Bool) (w : Nat) (r : Int) : fitted signed sat w r =
    BitVec.ofInt w (if sat then (if r < loBound signed w then loBound signed w else if hiBound signed w < r then hiBound signed w else r) else r) := by
  have hlo := ofInt_loBound signed w
  have hhi := ofInt_hiBound signed w
  cases sat
  · rfl
  · simp only [fitted, if_true, apply_ite (BitVec.ofInt w), hlo, hhi]
    cases signed <;> simp only [loBound, hiBound, if_true, Bool.false_eq_true, if_false, Int.sub_one_lt_iff]

/-- The bits that the model's Fit gives are the statement's. -/
theorem ofNat_fit (signed sat : Bool) (w : Nat) (r : Int) : BitVec.ofNat w (fit signed sat w r).1 = fitted signed sat w r := by
  rw [fitted_eq]
  by_cases hr : loBound signed w ≤ r ∧ r ≤ hiBound signed w
  · simp [fit, hr, Int.not_lt.2 hr.1, Int.not_lt.2 hr.2, ofNat_wrapTo]
  · cases sat
    · simp [fit, hr, ofNat_wrapTo]
    · by_cases hlo : r < loBound signed w
      · simp [fit, hr, hlo, ofNat_wrapTo]
      · simp [fit, hr, hlo, ofNat_wrapTo, Int.not_le.1 (not_and.1 hr (Int.not_lt.1 hlo))]

/-- Fit raises its flag where the result is out of range. -/
theorem flags_fit_inRange {signed : Bool} {w : Nat} {r : Int} (sat : Bool) (h : inRange signed w r) : (fit signed sat w r).2 = 0#7 := by
  obtain ⟨hlo, hhi⟩ := inRange_iff.1 h
  simp [fit, hlo, hhi]

theorem flags_fit_outside {signed : Bool} {w : Nat} {r : Int} (sat : Bool) (h : ¬inRange signed w r) :
    (fit signed sat w r).2 = if sat then fSAT else fIOV := by
  rw [inRange_iff] at h
  cases sat <;> simp [fit, h]

/-! ### The lanes and the flags of a result -/

/-- A flag of a beat is raised where a lane raises it. -/
theorem getLsbD_joinFlagged {w : Nat} (xs : List (Nat × Flags)) (i : Nat) :
    (joinFlagged w xs).2.getLsbD i = true ↔ ∃ x ∈ xs, x.2.getLsbD i = true := by
  have hfold (f : Flags) : (xs.foldl (fun f x => f ||| x.2) f).getLsbD i = true ↔ f.getLsbD i = true ∨ ∃ x ∈ xs, x.2.getLsbD i = true := by
    induction xs generalizing f with
    | nil => simp
    | cons x xs ih => simp [ih, or_assoc]
  simpa [joinFlagged] using hfold 0

/-- The word and the flags that n lanes give. -/
def laneWord (w n : Nat) (g : Nat → Nat × Flags) : Word := (joinFlagged w ((List.range n).map g)).1
def laneFlags (w n : Nat) (g : Nat → Nat × Flags) : Flags := (joinFlagged w ((List.range n).map g)).2

section
variable {w n j : Nat} {g : Nat → Nat × Flags}

theorem lane_laneWord (hn : w * n ≤ 64) (hj : j < n) : lane w j (laneWord w n g) = BitVec.ofNat w (g j).1 := by
  rw [laneWord, joinFlagged, List.map_map, lane_wordOfLanes_range hn hj]
  rfl

theorem getLsbD_laneFlags (i : Nat) : (laneFlags w n g).getLsbD i = true ↔ ∃ j, j < n ∧ (g j).2.getLsbD i = true := by
  rw [laneFlags, getLsbD_joinFlagged]
  simp only [List.mem_map, List.mem_range]
  exact ⟨fun ⟨_, ⟨j, hj, hx⟩, hbit⟩ => ⟨j, hj, hx ▸ hbit⟩, fun ⟨j, hj, hbit⟩ => ⟨_, ⟨j, hj, rfl⟩, hbit⟩⟩

theorem laneFlags_eq_zero (h : ∀ j, j < n → (g j).2 = 0#7) : laneFlags w n g = 0#7 := by
  refine BitVec.eq_of_getLsbD_eq fun i _ => Bool.eq_iff_iff.2 ?_
  rw [getLsbD_laneFlags]
  simp +contextual [h]

/-- Lanes that raise one flag or none raise it in the beat where one of them does. -/
theorem laneFlags_eq_of_mem {f : Flags} (h : ∀ j, j < n → (g j).2 = 0#7 ∨ (g j).2 = f) (hj : j < n) (hf : (g j).2 = f) : laneFlags w n g = f := by
  refine BitVec.eq_of_getLsbD_eq fun i _ => Bool.eq_iff_iff.2 ?_
  rw [getLsbD_laneFlags]
  constructor
  · rintro ⟨k, hk, hbit⟩
    rcases h k hk with h0 | h1
    · simp [h0] at hbit
    · exact h1 ▸ hbit
  · exact fun hbit => ⟨j, hj, hf ▸ hbit⟩

/-- Lanes that Fit gives. -/
theorem fitTo_lanes {signed sat : Bool} {r : Nat → Int} (hn : w * n ≤ 64) (hg : ∀ j, j < n → g j = fit signed sat w (r j)) :
    FitTo signed sat w n r (laneWord w n g) (laneFlags w n g) := by
  refine ⟨fun j hj => by rw [lane_laneWord hn hj, hg j hj, ofNat_fit], ?_⟩
  by_cases hall : ∀ j, j < n → inRange signed w (r j)
  · exact .inl ⟨laneFlags_eq_zero fun j hj => by rw [hg j hj, flags_fit_inRange sat (hall j hj)], hall⟩
  · simp only [Classical.not_forall, exists_prop] at hall
    obtain ⟨k, hk, hout⟩ := hall
    refine .inr ⟨laneFlags_eq_of_mem (fun j hj => ?_) hk (by rw [hg k hk, flags_fit_outside sat hout]), k, hk, hout⟩
    rw [hg j hj]
    by_cases hj' : inRange signed w (r j)
    · exact .inl (flags_fit_inRange sat hj')
    · exact .inr (flags_fit_outside sat hj')

/-- Lanes that set no flag. -/
theorem quiet_lanes {v : Nat → BitVec w} (hn : w * n ≤ 64) (hg : ∀ j, j < n → ∃ m, g j = quiet m ∧ BitVec.ofNat w m = v j) :
    Quiet w n v (laneWord w n g) (laneFlags w n g) := by
  refine ⟨fun j hj => ?_, laneFlags_eq_zero fun j hj => ?_⟩ <;> obtain ⟨m, hm, hv⟩ := hg j hj
  · rw [lane_laneWord hn hj, hm]
    exact hv
  · rw [hm]
    rfl

end

end Sys2Proof.Laws
end

section
/-!
SUPPORT. A beat that can run ends in the outcome that its operation gives (spec 08 R136): one lemma for each shape of result, by which each instruction of
the control and integer family is its operation alone.
-/

namespace Sys2Proof.Laws

open Machine Say

variable {i : Instr} {sp : FireSpec} {s : State} {x : BeatIn} {o : BeatOut}

/-- A beat whose operation gives an outcome commits it, or is held by an enabled trap. -/
theorem runBeat_fires {op : BeatIn → BeatRes} (h : Fires sp s x) (hop : op x = .ok o) : runBeat { sp with op := op } s = .next (after sp s x o) :=
  runBeat_ok (sp := { sp with op := op }) h.present h.ready h.reads h.normal hop

/-- An outcome without flags commits. -/
theorem after_quiet (h : o.flags = 0#7) : after sp s x o = commitBeat sp s o := if_pos (by rw [h]; exact BitVec.zero_and)

/-- The outcome of an instruction is that of its operation. -/
theorem gives_of {op : BeatIn → BeatRes} {out : BeatIn → BeatOut} (hexec : ∀ s, exec i s = runBeat { sp with op := op } s)
    (hop : ∀ s x, beatIn sp s = some x → op x = .ok (out x)) : Gives i sp out :=
  fun s x h => (hexec s).trans (runBeat_fires h (hop s x h.reads))

/-- The same where the operation is given by the outcome itself. -/
theorem gives_self {out : BeatIn → BeatOut} (hexec : ∀ s, exec i s = runBeat { sp with op := fun x => .ok (out x) } s) : Gives i sp out :=
  gives_of hexec fun _ _ _ => rfl

/-- An outcome without flags commits whatever traps are enabled. -/
theorem commits_of {op : BeatIn → BeatRes} (hexec : exec i s = runBeat { sp with op := op } s) (h : Fires sp s x) (hop : op x = .ok o)
    (hquiet : o.flags = 0#7) : exec i s = .next (commitBeat sp s o) :=
  hexec.trans ((runBeat_fires h hop).trans (congrArg _ (after_quiet hquiet)))

/-- An instruction whose operation gives a word and flags. -/
theorem results_of {P : BeatIn → Word → Flags → Prop} {v : BeatIn → Word} {f : BeatIn → Flags}
    (hexec : ∀ s, exec i s = runBeat { sp with op := fun x => okFlags (v x) (f x) } s) (h : ∀ x, P x (v x) (f x)) : Results i sp P :=
  fun s x hx => ⟨v x, f x, h x, (hexec s).trans (runBeat_fires hx rfl)⟩

/-- An instruction whose lanes pass through Fit. -/
theorem results_fit {w n : Nat} {signed sat : Bool} {g : BeatIn → Nat → Nat × Flags} {r : BeatIn → Nat → Int} (hn : w * n ≤ 64)
    (hexec : ∀ s, exec i s = runBeat { sp with op := fun x => okLanes w ((List.range n).map (g x)) } s)
    (hg : ∀ x j, j < n → g x j = fit signed sat w (r x j)) : Results i sp fun x => FitTo signed sat w n (r x) :=
  results_of hexec fun x => fitTo_lanes hn (hg x)

/-- An instruction whose lanes set no flag. -/
theorem results_quiet {w n : Nat} {g : BeatIn → Nat → Nat} {v : BeatIn → Nat → BitVec w} (hn : w * n ≤ 64)
    (hexec : ∀ s, exec i s = runBeat { sp with op := fun x => okLanes w ((List.range n).map fun j => quiet (g x j)) } s)
    (hg : ∀ x j, j < n → BitVec.ofNat w (g x j) = v x j) : Results i sp fun x => Quiet w n (v x) :=
  results_of hexec fun x => quiet_lanes hn fun j hj => ⟨g x j, rfl, hg x j hj⟩

/-- The same for the lanes of the instruction's own control. -/
theorem results_fitLanes {c : IntCtl} {g : BeatIn → Nat → Nat × Flags} {r : BeatIn → Nat → Int}
    (hexec : ∀ s, exec i s = runBeat { sp with op := fun x => okLanes (laneBits c.w) ((List.range (laneCount c.w)).map (g x)) } s)
    (hg : ∀ x j, g x j = fitCtl c (r x j)) : Results i sp fun x => FitLanes c (r x) :=
  results_fit (laneBits_mul_laneCount_le c.w) hexec fun x j _ => hg x j

theorem results_quietLanes {w : LaneW} {g : BeatIn → Nat → Nat} {v : BeatIn → Nat → BitVec (laneBits w)}
    (hexec : ∀ s, exec i s = runBeat { sp with op := fun x => okLanes (laneBits w) ((List.range (laneCount w)).map fun j => quiet (g x j)) } s)
    (hg : ∀ x j, BitVec.ofNat (laneBits w) (g x j) = v x j) : Results i sp fun x => QuietLanes w (v x) :=
  results_quiet (laneBits_mul_laneCount_le w) hexec fun x j _ => hg x j

/-- An instruction whose result is one word without flags. -/
theorem results_word {P : BeatIn → Word → Prop} {v : BeatIn → Word} (hexec : ∀ s, exec i s = runBeat { sp with op := fun x => okWord (v x) } s)
    (h : ∀ x, P x (v x)) : Results i sp fun x v f => f = 0#7 ∧ P x v :=
  results_of (f := fun _ => 0) hexec fun x => ⟨rfl, h x⟩

section
variable (c : IntCtl) (x : BeatIn) (j : Nat)

theorem ival_a : ival c (laneOf (laneBits c.w) j x.a.toWord) = aVal c x j := ival_laneOf c j _
theorem ival_b : ival c (laneOf (laneBits c.w) j x.b.toWord) = bVal c x j := ival_laneOf c j _
theorem ival_old : ival c (laneOf (laneBits c.w) j x.old) = oldVal c x j := ival_laneOf c j _

/-- A function of the lanes that an instruction reads is one of their values. -/
theorem ival_ab {α : Type} (f : Int → Int → α) :
    f (ival c (laneOf (laneBits c.w) j x.a.toWord)) (ival c (laneOf (laneBits c.w) j x.b.toWord)) = f (aVal c x j) (bVal c x j) := by
  rw [ival_a, ival_b]

end

/-- The opcode of a word in the R-form and in the I-form. -/
theorem opcode_r (op : BitVec 7) (a : RAct) (f : BitVec 5) : (some (Enc.r op a f)).map (fun w => w.extractLsb' 25 7) = some op := congrArg some (r_op ..)
theorem opcode_ia (op : BitVec 7) (a : IAct) : (some (Enc.ia op a)).map (fun w => w.extractLsb' 25 7) = some op := congrArg some (i_op ..)

end Sys2Proof.Laws
end

section
/-!
PROOF. Lane arithmetic and bitwise instructions (spec 09 R152, R154); from these lemmas the obligation IntegerArithmetic.
-/

namespace Sys2Proof.Proofs

open Machine Laws Say

/-- An unsigned lane is in range, and Fit returns it. -/
theorem fit_lane (sat : Bool) {w a : Nat} (h : a < 2 ^ w) : fit false sat w a = quiet a := by
  have hle : (a : Int) ≤ hiBound false w := by
    have : (a : Int) < 2 ^ w := by exact_mod_cast h
    simp only [hiBound, Bool.false_eq_true, if_false]
    omega
  have hwrap : wrapTo w a = a := by
    rw [wrapTo, Int.emod_eq_of_lt (Int.natCast_nonneg a) (by exact_mod_cast h), Int.toNat_natCast]
  simp [fit, loBound, hle, hwrap, quiet]

/-- The lane of `abs`: Fit of the magnitude, which is the lane itself where lanes are unsigned. -/
theorem absLane_eq (c : IntCtl) (x : BeatIn) (j : Nat) :
    (if c.signed then fitCtl c ((ival c (laneOf (laneBits c.w) j x.a.toWord)).natAbs : Int) else quiet (laneOf (laneBits c.w) j x.a.toWord)) =
      fitCtl c (if c.signed ∧ aVal c x j < 0 then -aVal c x j else aVal c x j) := by
  rw [ival_a]
  cases hsigned : c.signed
  · have hval : aVal c x j = laneOf (laneBits c.w) j x.a.toWord := by rw [← ival_a, ival, hsigned]; rfl
    simp [hval, fitCtl, hsigned, fit_lane c.sat (laneOf_lt ..)]
  · simp only [if_true, true_and, fitCtl, hsigned]
    congr 1
    split <;> omega

/-- The upper half of a product is its floor division by 2^w. -/
theorem ofNat_mulh (w : Nat) (p : Int) : BitVec.ofNat w (wrapTo w (p / 2 ^ w)) = BitVec.ofInt w (p.fdiv (2 ^ w)) := by
  rw [ofNat_wrapTo, ← natCast_two_pow, Int.fdiv_eq_ediv_of_nonneg _ (Int.natCast_nonneg _)]

/-- The lane that a comparison of two integers chooses. -/
theorem ofNat_ite_laneOf (w j : Nat) (p q : Int) (u v : Word) :
    BitVec.ofNat w (if p < q then laneOf w j u else laneOf w j v) = lane w j (if q ≤ p then v else u) := by
  rcases Int.lt_or_le p q with h | h
  · rw [if_pos h, if_neg (Int.not_le.2 h), ofNat_laneOf]
  · rw [if_neg (Int.not_lt.2 h), if_pos h, ofNat_laneOf]

/-- The last check of an instruction that refuses `.sat`. -/
theorem unsaturated_of_wf {b sat : Bool} (h : (b && !sat) = true) : sat = false := (Bool.not_eq_true' sat).mp (Bool.and_eq_true_iff.1 h).2

/-- Settles O1: lane by lane, each operation is the exact result through Fit, or a lane without flags. -/
theorem integerArithmetic : Obligations.IntegerArithmetic := by
  unfold Obligations.IntegerArithmetic
  refine ⟨?add, ?sub, ?mul, ?mad, ?neg, ?abs, ?mulh, ?min, ?max, ?and, ?or, ?xor, ?andn, ?not, ?unsaturated, ?notSb, ?opcodes⟩
  case add => exact fun r c => results_fitLanes (fun _ => rfl) fun x j => ival_ab c x j fun a b => fitCtl c (a + b)
  case sub => exact fun r c => results_fitLanes (fun _ => rfl) fun x j => ival_ab c x j fun a b => fitCtl c (a - b)
  case mul => exact fun r c => results_fitLanes (fun _ => rfl) fun x j => ival_ab c x j fun a b => fitCtl c (a * b)
  case mad =>
    exact fun r c => results_fitLanes (fun _ => rfl) fun x j =>
      (ival_ab c x j fun a b => fitCtl c (ival c (laneOf _ j x.old) + a * b)).trans (congrArg (fun d => fitCtl c (d + _)) (ival_old c x j))
  case neg => exact fun r c => results_fitLanes (fun _ => rfl) fun x j => congrArg (fun a => fitCtl c (-a)) (ival_a c x j)
  case abs => exact fun r c => results_fitLanes (fun _ => rfl) fun x j => absLane_eq c x j
  case mulh => exact fun r c => results_quietLanes (fun _ => rfl) fun x j => by rw [ival_a, ival_b, ofNat_mulh]
  case min => exact fun r c => results_quietLanes (fun _ => rfl) fun x j => by rw [ival_a, ival_b, ofNat_ite_laneOf]
  case max => exact fun r c => results_quietLanes (fun _ => rfl) fun x j => by rw [ival_a, ival_b, ofNat_ite_laneOf]
  case and => exact fun r c => results_word (fun _ => rfl) fun x i _ => BitVec.getLsbD_and
  case or => exact fun r c => results_word (fun _ => rfl) fun x i _ => BitVec.getLsbD_or
  case xor => exact fun r c => results_word (fun _ => rfl) fun x i _ => BitVec.getLsbD_xor
  case andn => exact fun r c => results_word (fun _ => rfl) fun x i hi => by simp [hi]
  case not => exact fun r c => results_word (fun _ => rfl) fun x i hi => by simp [hi]
  case unsaturated =>
    rintro k hl r c (h | h | h | h | h) <;> exact unsaturated_of_wf h
  case notSb => exact fun k hl r c h => eq_of_beq (Bool.and_eq_true_iff.1 (Bool.and_eq_true_iff.1 h).1).2
  case opcodes => exact fun r c => ⟨opcode_r .., opcode_r .., opcode_r .., opcode_r .., opcode_r ..⟩

end Sys2Proof.Proofs
end

section
/-!
PROOF. Division (spec 09 R153, 04 R86): a lane is divided by zero, overflows, or has an exact quotient and remainder; from these lemmas the obligation Division.
-/

namespace Sys2Proof.Proofs

open Machine Laws Say

section
variable {c : IntCtl} {err : Bool} {a b : BitVec (laneBits c.w)}

/-- The signed overflow of two lanes, the most negative value by −1, as the statement has it of the lanes of a beat. -/
def Overflows (c : IntCtl) (a b : BitVec (laneBits c.w)) : Prop := c.signed = true ∧ a = BitVec.intMin _ ∧ b = BitVec.allOnes _

theorem overflows_iff : Overflows c a b ↔ c.signed ∧ ival c a.toNat = loBound true (laneBits c.w) ∧ ival c b.toNat = -1 := by
  refine and_congr_right fun hsigned => ?_
  rw [ival, ival, hsigned, intOf_toNat (laneBits_pos _), intOf_toNat (laneBits_pos _)]
  refine and_congr ?_ ?_
  · rw [← BitVec.toInt_inj, BitVec.toInt_intMin_of_pos (laneBits_pos _)]
    rfl
  · rw [← BitVec.toInt_inj, BitVec.toInt_allOnes, if_pos (laneBits_pos _)]
    rfl

theorem ne_zero_of_overflows (h : Overflows c a b) : b ≠ 0#_ := by
  rintro rfl
  have := congrArg BitVec.toInt h.2.2
  rw [BitVec.toInt_allOnes, if_pos (laneBits_pos _), BitVec.toInt_zero] at this
  omega

/-! ### The three cases -/

theorem divLane_byZero : divLane c err a.toNat (0#(laneBits c.w)).toNat = ((allOnes (laneBits c.w), fDZ), (a.toNat, fDZ)) := by
  simp [divLane]

theorem divLane_overflows (h : Overflows c a b) : divLane c err a.toNat b.toNat = (if err then (0, 0) else (a.toNat, fIOV), (0, 0)) := by
  have hb : b.toNat ≠ 0 := fun h0 => ne_zero_of_overflows h (BitVec.eq_of_toNat_eq (by simpa using h0))
  rw [divLane, if_neg hb, if_pos (overflows_iff.1 h)]

theorem divLane_exact (hb : b ≠ 0#_) (h : ¬Overflows c a b) : divLane c err a.toNat b.toNat =
    ((wrapTo (laneBits c.w) ((val c.signed a).tdiv (val c.signed b)), 0), (wrapTo (laneBits c.w) ((val c.signed a).tmod (val c.signed b)), 0)) := by
  have hb : b.toNat ≠ 0 := fun h0 => hb (BitVec.eq_of_toNat_eq (by simpa using h0))
  rw [divLane, if_neg hb, if_neg fun hov => h (overflows_iff.2 hov), Int.tmod_def, ← intOf_toNat (laneBits_pos _), ← intOf_toNat (laneBits_pos _)]
  rfl

/-! ### Bits of the quotient and the remainder -/

theorem ofInt_tdiv (signed : Bool) {w : Nat} (a b : BitVec w) :
    BitVec.ofInt w ((val signed a).tdiv (val signed b)) = if signed then a.sdiv b else a / b := by
  cases signed
  · simp only [val, Bool.false_eq_true, if_false, ← Int.ofNat_tdiv, BitVec.ofInt_natCast, BitVec.udiv_def]
  · exact BitVec.eq_of_toInt_eq (by rw [BitVec.toInt_ofInt, if_pos rfl, BitVec.toInt_sdiv]; rfl)

theorem ofInt_tmod (signed : Bool) {w : Nat} (a b : BitVec w) :
    BitVec.ofInt w ((val signed a).tmod (val signed b)) = if signed then a.srem b else a % b := by
  cases signed
  · simp only [val, Bool.false_eq_true, if_false, ← Int.ofNat_tmod, BitVec.ofInt_natCast, BitVec.umod_def]
  · rw [if_pos rfl, ← BitVec.ofInt_toInt (x := a.srem b), BitVec.toInt_srem]
    rfl

theorem quotient_overflows (h : Overflows c a b) : quotient c a b = a := by
  obtain ⟨hsigned, rfl, hb⟩ := h
  rw [quotient, if_neg (ne_zero_of_overflows ⟨hsigned, rfl, hb⟩), if_pos hsigned, hb, ← BitVec.neg_one_eq_allOnes, BitVec.intMin_sdiv_neg_one]

theorem remainder_overflows (h : Overflows c a b) : remainder c a b = 0#_ := by
  have hne := ne_zero_of_overflows h
  obtain ⟨hsigned, -, hb⟩ := h
  rw [remainder, if_neg hne, if_pos hsigned]
  refine BitVec.eq_of_toInt_eq ?_
  rw [BitVec.toInt_srem, hb, BitVec.toInt_allOnes, if_pos (laneBits_pos _), Int.tmod_neg, Int.tmod_one, BitVec.toInt_zero]

theorem ofNat_allOnes (w : Nat) : BitVec.ofNat w (allOnes w) = BitVec.allOnes w := BitVec.eq_of_toNat_eq (by simp [allOnes])

/-- The quotient of a lane, which erratum E2-05 replaces where it overflows. -/
theorem ofNat_div (hcase : ¬(err = true ∧ Overflows c a b)) : BitVec.ofNat _ (divLane c err a.toNat b.toNat).1.1 = quotient c a b := by
  by_cases hb : b = 0#_
  · subst hb
    rw [divLane_byZero, quotient, if_pos rfl, ofNat_allOnes]
  · by_cases hov : Overflows c a b
    · rw [divLane_overflows hov, if_neg fun herr => hcase ⟨herr, hov⟩, quotient_overflows hov, BitVec.ofNat_toNat, BitVec.setWidth_eq]
    · rw [divLane_exact hb hov, ofNat_wrapTo, ofInt_tdiv, quotient, if_neg hb]

theorem ofNat_div_erratum (herr : err = true) (h : Overflows c a b) : BitVec.ofNat (laneBits c.w) (divLane c err a.toNat b.toNat).1.1 = 0#_ := by
  rw [divLane_overflows h, if_pos herr]

theorem ofNat_rem : BitVec.ofNat _ (divLane c err a.toNat b.toNat).2.1 = remainder c a b := by
  by_cases hb : b = 0#_
  · subst hb
    rw [divLane_byZero, remainder, if_pos rfl, BitVec.ofNat_toNat, BitVec.setWidth_eq]
  · by_cases hov : Overflows c a b
    · rw [divLane_overflows hov, remainder_overflows hov]
    · rw [divLane_exact hb hov, ofNat_wrapTo, ofInt_tmod, remainder, if_neg hb]

/-! ### Flags -/

/-- `div` raises DZ, or IOV, or nothing. -/
theorem flags_div : (divLane c err a.toNat b.toNat).1.2 = fDZ ∧ b = 0#_ ∨
    (divLane c err a.toNat b.toNat).1.2 = fIOV ∧ b ≠ 0#_ ∧ err = false ∧ Overflows c a b ∨
    (divLane c err a.toNat b.toNat).1.2 = 0#7 ∧ b ≠ 0#_ ∧ ¬(err = false ∧ Overflows c a b) := by
  by_cases hb : b = 0#_
  · subst hb
    exact .inl ⟨by rw [divLane_byZero], rfl⟩
  · by_cases hov : Overflows c a b
    · rw [divLane_overflows hov]
      cases err <;> simp [hb, hov]
    · exact .inr (.inr ⟨by rw [divLane_exact hb hov]; rfl, hb, fun h => hov h.2⟩)

/-- `rem` raises DZ or nothing. -/
theorem flags_rem : (divLane c err a.toNat b.toNat).2.2 = fDZ ∧ b = 0#_ ∨ (divLane c err a.toNat b.toNat).2.2 = 0#7 ∧ b ≠ 0#_ := by
  by_cases hb : b = 0#_
  · subst hb
    exact .inl ⟨by rw [divLane_byZero], rfl⟩
  · refine .inr ⟨?_, hb⟩
    by_cases hov : Overflows c a b
    · rw [divLane_overflows hov]
      rfl
    · rw [divLane_exact hb hov]
      rfl

end

/-- Flags that no lane raises are not raised in the beat. -/
theorem laneFlags_and_eq_zero {w n : Nat} {g : Nat → Nat × Flags} {m : Flags} (h : ∀ j, j < n → (g j).2 &&& m = 0#7) : laneFlags w n g &&& m = 0#7 := by
  refine BitVec.eq_of_getLsbD_eq fun i _ => ?_
  rw [BitVec.getLsbD_and, BitVec.getLsbD_zero]
  cases hbit : (laneFlags w n g).getLsbD i with
  | false => exact Bool.false_and _
  | true =>
    obtain ⟨j, hj, hraised⟩ := (getLsbD_laneFlags i).1 hbit
    have hlane : ((g j).2 &&& m).getLsbD i = false := by rw [h j hj, BitVec.getLsbD_zero]
    rwa [BitVec.getLsbD_and, hraised] at hlane

section
variable (c : IntCtl) (x : BeatIn)

/-- The quotients and the remainders of a beat, lane by lane. -/
def divLanes (j : Nat) : Nat × Flags := (divLane c x.e.err (laneOf (laneBits c.w) j x.a.toWord) (laneOf (laneBits c.w) j x.b.toWord)).1
def remLanes (j : Nat) : Nat × Flags := (divLane c x.e.err (laneOf (laneBits c.w) j x.a.toWord) (laneOf (laneBits c.w) j x.b.toWord)).2

variable (j : Nat)

theorem divLanes_eq : divLanes c x j = (divLane c x.e.err (lane (laneBits c.w) j x.a.toWord).toNat (lane (laneBits c.w) j x.b.toWord).toNat).1 := by
  rw [toNat_lane, toNat_lane, divLanes]

theorem remLanes_eq : remLanes c x j = (divLane c x.e.err (lane (laneBits c.w) j x.a.toWord).toNat (lane (laneBits c.w) j x.b.toWord).toNat).2 := by
  rw [toNat_lane, toNat_lane, remLanes]

/-- `div` raises DZ, or IOV, or nothing in a lane. -/
theorem flags_divLanes : (divLanes c x j).2 = fDZ ∧ byZero c x j ∨
    (divLanes c x j).2 = fIOV ∧ ¬byZero c x j ∧ x.e.err = false ∧ divOverflows c x j ∨
    (divLanes c x j).2 = 0#7 ∧ ¬byZero c x j ∧ ¬(x.e.err = false ∧ divOverflows c x j) := by
  rw [divLanes_eq]
  exact flags_div

/-- `rem` raises DZ or nothing in a lane. -/
theorem flags_remLanes : (remLanes c x j).2 = fDZ ∧ byZero c x j ∨ (remLanes c x j).2 = 0#7 ∧ ¬byZero c x j := by
  rw [remLanes_eq]
  exact flags_rem

theorem dz_divLanes : (divLanes c x j).2.getLsbD 1 = true ↔ byZero c x j := by
  obtain ⟨hf, hb⟩ | ⟨hf, hb, -⟩ | ⟨hf, hb, -⟩ := flags_divLanes c x j
  · exact hf ▸ iff_of_true (by decide) hb
  · exact hf ▸ iff_of_false (by decide) hb
  · exact hf ▸ iff_of_false (by decide) hb

theorem iov_divLanes : (divLanes c x j).2.getLsbD 6 = true ↔ x.e.err = false ∧ divOverflows c x j := by
  obtain ⟨hf, hb⟩ | ⟨hf, -, hov⟩ | ⟨hf, -, hov⟩ := flags_divLanes c x j
  · exact hf ▸ iff_of_false (by decide) fun h => ne_zero_of_overflows h.2 hb
  · exact hf ▸ iff_of_true (by decide) hov
  · exact hf ▸ iff_of_false (by decide) hov

theorem others_divLanes : (divLanes c x j).2 &&& 0x3D#7 = 0#7 := by
  obtain ⟨hf, -⟩ | ⟨hf, -⟩ | ⟨hf, -⟩ := flags_divLanes c x j <;> rw [hf] <;> rfl

theorem dz_remLanes : (remLanes c x j).2.getLsbD 1 = true ↔ byZero c x j := by
  obtain ⟨hf, hb⟩ | ⟨hf, hb⟩ := flags_remLanes c x j
  · exact hf ▸ iff_of_true (by decide) hb
  · exact hf ▸ iff_of_false (by decide) hb

theorem others_remLanes : (remLanes c x j).2 &&& 0x7D#7 = 0#7 := by
  obtain ⟨hf, -⟩ | ⟨hf, -⟩ := flags_remLanes c x j <;> rw [hf] <;> rfl

end

/-- Settles O2: each lane is one of the three cases above, and the flags of a beat are those of its lanes. -/
theorem division : Obligations.Division := by
  unfold Obligations.Division
  refine ⟨fun r c => results_of (v := fun x => laneWord _ _ (divLanes c x)) (f := fun x => laneFlags _ _ (divLanes c x)) (fun _ => rfl) ?div,
    fun r c => results_of (v := fun x => laneWord _ _ (remLanes c x)) (f := fun x => laneFlags _ _ (remLanes c x)) (fun _ => rfl) ?rem⟩
  case div =>
    refine fun x => ⟨fun j hj => ?_, ?_, ?_, laneFlags_and_eq_zero fun j _ => others_divLanes c x j⟩
    · rw [lane_laneWord (laneBits_mul_laneCount_le c.w) hj, divLanes_eq]
      exact ⟨fun h => ofNat_div_erratum h.1 h.2, ofNat_div⟩
    · simp only [getLsbD_laneFlags, dz_divLanes]
    · simp only [getLsbD_laneFlags, iov_divLanes]
      exact ⟨fun ⟨j, hj, herr, hov⟩ => ⟨herr, j, hj, hov⟩, fun ⟨herr, j, hj, hov⟩ => ⟨j, hj, herr, hov⟩⟩
  case rem =>
    refine fun x => ⟨fun j hj => ?_, ?_, laneFlags_and_eq_zero fun j _ => others_remLanes c x j⟩
    · rw [lane_laneWord (laneBits_mul_laneCount_le c.w) hj, remLanes_eq, ofNat_rem]
    · simp only [getLsbD_laneFlags, dz_remLanes]

end Sys2Proof.Proofs
end

section
/-!
SUPPORT. Counts of the bits of a lane: set bits, leading and trailing zeros (spec 09 R157), as the statements name them.
-/

namespace Sys2Proof.Laws

open Machine Say

/-- Set bits below n, counted in place. -/
theorem popCount_eq : ∀ n x, popCount n x = ((List.range n).filter fun i => x.testBit i).length
  | 0, _ => rfl
  | n + 1, x => by
    have hshift : ((List.range n).filter ((fun i => x.testBit i) ∘ Nat.succ)).length = popCount n (x / 2) := by
      rw [popCount_eq n]
      simp only [Function.comp_def, Nat.succ_eq_add_one, Nat.testBit_succ]
    rw [List.range_succ_eq_map, List.filter_cons, List.filter_map, popCount]
    by_cases hodd : x % 2 = 1
    · simp [Nat.testBit_zero, hodd, hshift, Nat.add_comm]
    · simp [Nat.testBit_zero, hshift, Nat.mod_two_ne_one.1 hodd]

theorem popCount_le (n x : Nat) : popCount n x ≤ n := by
  rw [popCount_eq]
  exact Nat.le_trans (List.length_filter_le _ _) (Nat.le_of_eq List.length_range)

theorem popCount_toNat {w : Nat} (x : BitVec w) : popCount w x.toNat = ones x := popCount_eq w x.toNat

/-- A lane holds every count of its bits. -/
theorem toNat_ofNat_of_le {w n : Nat} (h : n ≤ w) : (BitVec.ofNat w n).toNat = n := by
  rw [BitVec.toNat_ofNat, Nat.mod_eq_of_lt (Nat.lt_of_le_of_lt h Nat.lt_two_pow_self)]

theorem trailZeros_spec : ∀ w x, trailZeros w x ≤ w ∧ (∀ i, i < trailZeros w x → x.testBit i = false) ∧
    (trailZeros w x < w → x.testBit (trailZeros w x) = true)
  | 0, _ => by simp [trailZeros]
  | w + 1, x => by
    obtain ⟨hle, hzeros, hone⟩ := trailZeros_spec w (x / 2)
    by_cases hodd : x % 2 = 1
    · simp [trailZeros, hodd, Nat.testBit_zero]
    · rw [trailZeros, if_neg hodd, Nat.add_comm 1]
      refine ⟨by omega, fun i hi => ?_, fun h => ?_⟩
      · cases i with
        | zero => simp [Nat.testBit_zero, hodd]
        | succ i => rw [Nat.testBit_succ, hzeros i (by omega)]
      · rw [Nat.testBit_succ, hone (by omega)]

theorem trailing_trailZeros {w : Nat} (x : BitVec w) : Trailing x (trailZeros w x.toNat) := trailZeros_spec w x.toNat

theorem leadZeros_le (w x : Nat) : leadZeros w x ≤ w := by
  unfold leadZeros
  split <;> omega

theorem leading_leadZeros {w : Nat} (x : BitVec w) : Leading x (leadZeros w x.toNat) := by
  refine ⟨leadZeros_le .., ?_⟩
  by_cases h0 : x.toNat = 0
  · simp [leadZeros, BitVec.eq_of_toNat_eq (y := 0#w) (by simpa using h0)]
  · have htop : Nat.log2 x.toNat < w := (Nat.log2_lt h0).2 x.isLt
    rw [leadZeros, if_neg h0]
    refine ⟨fun i hi => ?_, fun _ => ?_⟩
    · exact Nat.testBit_lt_two_pow ((Nat.log2_lt h0).1 (by omega))
    · rw [show w - 1 - (w - 1 - Nat.log2 x.toNat) = Nat.log2 x.toNat by omega]
      exact Nat.testBit_log2 h0

end Sys2Proof.Laws
end

section
/-!
PROOF. Shifts and rotations of lanes, bit fields, extension and scaled addresses (spec 09 R155 to R157, 04 R86); from these lemmas the obligation
ShiftsAndBitFields.
-/

namespace Sys2Proof.Proofs

open Machine Laws Say

/-! ### Shifts of a lane -/

/-- Fit sees of a result whether it is in range, below the range, and its residue. -/
theorem fit_congr {signed : Bool} {w : Nat} {r t : Int} (sat : Bool) (hrange : inRange signed w r ↔ inRange signed w t)
    (hlow : r < loBound signed w ↔ t < loBound signed w) (hmod : r % 2 ^ w = t % 2 ^ w) : fit signed sat w r = fit signed sat w t := by
  rw [inRange_iff, inRange_iff] at hrange
  simp only [fit, ← Bool.decide_and, decide_eq_true_eq, hrange, hlow, wrapTo, hmod]

/-- The bounds of a lane lie within one power of two. -/
theorem bounds_within {w : Nat} (hw : 0 < w) (signed : Bool) : -2 ^ w < loBound signed w ∧ loBound signed w ≤ 0 ∧ hiBound signed w < 2 ^ w := by
  have hhalf := two_pow_half hw
  have hpos := Nat.two_pow_pos (w - 1)
  have hfull := natCast_two_pow w
  have hpart := natCast_two_pow (w - 1)
  cases signed <;> simp only [loBound, hiBound, if_true, Bool.false_eq_true, if_false] <;> omega

/-- A nonzero lane shifted by its width or more lies outside every range, on the side of its sign. -/
theorem shifted_outside {w m : Nat} (hw : 0 < w) (hm : w ≤ m) {a : Int} (ha : a ≠ 0) (signed : Bool) :
    ¬inRange signed w (a * 2 ^ m) ∧ (a * 2 ^ m < loBound signed w ↔ a < 0) := by
  obtain ⟨hlo, hzero, hhi⟩ := bounds_within hw signed
  have hle : (2 : Int) ^ w ≤ 2 ^ m := by
    rw [← natCast_two_pow, ← natCast_two_pow]
    exact Int.ofNat_le.2 (Nat.pow_le_pow_right (by decide) hm)
  have hpos : (0 : Int) ≤ 2 ^ m := by
    rw [← natCast_two_pow]
    exact Int.natCast_nonneg _
  rw [inRange_iff]
  rcases Int.lt_or_gt_of_ne ha with hneg | hgt
  · have hbelow : a * 2 ^ m ≤ -1 * 2 ^ m := Int.mul_le_mul_of_nonneg_right (by omega) hpos
    omega
  · have habove : 1 * 2 ^ m ≤ a * 2 ^ m := Int.mul_le_mul_of_nonneg_right (by omega) hpos
    omega

theorem two_pow_dvd_mul {w m : Nat} (h : w ≤ m) (a : Int) : (2 : Int) ^ w ∣ a * 2 ^ m := by
  rw [← natCast_two_pow, ← natCast_two_pow]
  exact Int.dvd_trans (Int.natCast_dvd_natCast.2 (Nat.pow_dvd_pow 2 h)) (Int.dvd_mul_left a _)

/-- So every count from the width on gives the same lane. -/
theorem fit_shift_ge (signed sat : Bool) {w m n : Nat} (hw : 0 < w) (hm : w ≤ m) (hn : w ≤ n) (a : Int) :
    fit signed sat w (a * 2 ^ m) = fit signed sat w (a * 2 ^ n) := by
  by_cases ha : a = 0
  · rw [ha, Int.zero_mul, Int.zero_mul]
  · obtain ⟨hmout, hmlow⟩ := shifted_outside hw hm ha signed
    obtain ⟨hnout, hnlow⟩ := shifted_outside hw hn ha signed
    refine fit_congr sat (iff_of_false hmout hnout) (hmlow.trans hnlow.symm) ?_
    rw [Int.emod_eq_zero_of_dvd (two_pow_dvd_mul hm a), Int.emod_eq_zero_of_dvd (two_pow_dvd_mul hn a)]

theorem shlLane_eq (c : IntCtl) (a : Int) (n : Nat) :
    fitCtl c (a * 2 ^ (if 2 * laneBits c.w < n then 2 * laneBits c.w else n)) = fitCtl c (a * 2 ^ n) := by
  split
  next h => exact fit_shift_ge _ _ (laneBits_pos c.w) (by omega) (by omega) a
  next => rfl

theorem shiftRight_lt {w : Nat} (x : BitVec w) (n : Nat) : x.toNat >>> n < 2 ^ w := Nat.lt_of_le_of_lt (Nat.shiftRight_le ..) x.isLt

theorem shrLane_eq {w : Nat} (x : BitVec w) (n : Nat) : BitVec.ofNat w (if w ≤ n then 0 else x.toNat >>> n) = x >>> n := by
  split
  next h => exact (BitVec.ushiftRight_eq_zero h).symm
  next => exact BitVec.eq_of_toNat_eq (by rw [BitVec.toNat_ofNat, BitVec.toNat_ushiftRight, Nat.mod_eq_of_lt (shiftRight_lt x n)])

theorem sshiftRight_ge {w m n : Nat} (hm : w ≤ m) (hn : w ≤ n) (x : BitVec w) : x.sshiftRight m = x.sshiftRight n := by
  refine BitVec.eq_of_getLsbD_eq fun i _ => ?_
  rw [BitVec.getLsbD_sshiftRight, BitVec.getLsbD_sshiftRight, if_neg (by omega), if_neg (by omega)]

theorem sarLane_eq {w : Nat} (hw : 0 < w) (x : BitVec w) (n : Nat) :
    BitVec.ofNat w (wrapTo w (signedOf w x.toNat >>> (if w < n then w else n))) = x.sshiftRight n := by
  rw [ofNat_wrapTo, signedOf_toNat hw, ← BitVec.toInt_sshiftRight, BitVec.ofInt_toInt]
  split
  next h => exact sshiftRight_ge (Nat.le_refl w) (by omega) x
  next => rfl

theorem rotLane_eq {w : Nat} (x : BitVec w) (n : Nat) :
    BitVec.ofNat w ((x.toNat <<< (n % w) ||| x.toNat >>> (w - n % w)) % 2 ^ w) = x.rotateLeft n := by
  refine BitVec.eq_of_toNat_eq ?_
  rw [BitVec.toNat_ofNat, Nat.mod_mod, Nat.or_mod_two_pow, BitVec.toNat_rotateLeft, Nat.mod_eq_of_lt (shiftRight_lt x _)]

/-! ### The I-form -/

section
variable (a : Word) (k : BitVec 12)

theorem sum_signExtend : signedOf 64 a.toNat + k.toInt = a.toInt + (k.signExtend 64).toInt := by
  rw [signedOf_toNat (by decide), BitVec.toInt_signExtend_of_le (by decide)]

theorem ofNat_addi : BitVec.ofNat 64 (fit true false 64 (signedOf 64 a.toNat + k.toInt)).1 = a + k.signExtend 64 := by
  rw [ofNat_fit, sum_signExtend, fitted, if_neg Bool.false_ne_true, BitVec.ofInt_add, BitVec.ofInt_toInt, BitVec.ofInt_toInt]

theorem flags_addi : (fit true false 64 (signedOf 64 a.toNat + k.toInt)).2 = if BitVec.saddOverflow a (k.signExtend 64) then fIOV else 0#7 := by
  have hrange : BitVec.saddOverflow a (k.signExtend 64) = true ↔ ¬inRange true 64 (signedOf 64 a.toNat + k.toInt) := by
    rw [sum_signExtend]
    simp only [BitVec.saddOverflow, inRange, if_true, Bool.or_eq_true, decide_eq_true_eq]
    omega
  by_cases h : inRange true 64 (signedOf 64 a.toNat + k.toInt)
  · rw [flags_fit_inRange false h, if_neg fun hov => hrange.1 hov h]
  · rw [flags_fit_outside false h, if_pos (hrange.2 h), if_neg Bool.false_ne_true]

end

theorem mod_64_eq (k : BitVec 12) : k.toNat % 64 = (k.extractLsb' 0 6).toNat := by
  rw [BitVec.extractLsb'_toNat, Nat.shiftRight_zero]

/-! ### Bit fields and addresses -/

theorem fieldPos_eq (b : Word) : fieldPos b = pos b := by
  rw [fieldPos, pos, BitVec.extractLsb'_toNat, Nat.shiftRight_zero]

theorem fieldLen_eq (b : Word) : fieldLen b = len b := by
  rw [fieldLen, len, bitsOf, BitVec.extractLsb'_toNat]

theorem getLsbD_extractField (signed : Bool) (a b : Word) {i : Nat} (hi : i < 64) : (extractField signed a b).getLsbD i =
    if i < len b then a.getLsbD (pos b + i) else (signed && decide (0 < len b) && a.getLsbD (pos b + len b - 1)) := by
  have hbit (n : Nat) : ((a.toNat >>> pos b) % 2 ^ len b).testBit n = (decide (n < len b) && a.getLsbD (pos b + n)) := by
    rw [Nat.testBit_mod_two_pow, Nat.testBit_shiftRight, BitVec.testBit_toNat]
  rw [extractField, fieldPos_eq, fieldLen_eq]
  by_cases hsigned : (signed && decide (0 < len b)) = true
  · have hlen : 0 < len b := of_decide_eq_true (Bool.and_eq_true_iff.1 hsigned).2
    have hfield := signedOf_toNat hlen (BitVec.ofNat (len b) ((a.toNat >>> pos b) % 2 ^ len b))
    rw [BitVec.toNat_ofNat, Nat.mod_mod] at hfield
    rw [if_pos hsigned, hsigned, hfield, ← BitVec.signExtend, BitVec.getLsbD_signExtend, BitVec.getLsbD_ofNat, BitVec.msb_eq_getLsbD_last,
      BitVec.getLsbD_ofNat, hbit, hbit]
    have hlast : pos b + (len b - 1) = pos b + len b - 1 := by omega
    have hlt : len b - 1 < len b := by omega
    by_cases hin : i < len b <;> simp only [hi, hlt, hlast, hin, if_true, if_false, decide_true, decide_false, Bool.true_and]
  · rw [if_neg hsigned, BitVec.getLsbD_ofNat, hbit, eq_false_of_ne_true hsigned]
    by_cases hin : i < len b <;> simp only [hi, hin, if_true, if_false, decide_true, decide_false, Bool.true_and, Bool.false_and]

theorem getLsbD_insertBits (x a : Word) (lo n : Nat) {i : Nat} (hi : i < 64) : (insertBits x lo n a.toNat).getLsbD i =
    if lo ≤ i ∧ i < lo + n then a.getLsbD (i - lo) else x.getLsbD i := by
  have hmask : ((2 ^ n - 1) <<< lo).testBit i = decide (lo ≤ i ∧ i < lo + n) := by
    rw [Nat.testBit_shiftLeft, Nat.testBit_two_pow_sub_one, Bool.eq_iff_iff]
    simp only [ge_iff_le, Bool.and_eq_true, decide_eq_true_eq]
    omega
  simp only [insertBits, BitVec.getLsbD_or, BitVec.getLsbD_and, BitVec.getLsbD_not, BitVec.getLsbD_ofNat, hmask, hi, Nat.testBit_shiftLeft,
    BitVec.testBit_toNat]
  by_cases h : lo ≤ i ∧ i < lo + n
  · simp [h]
  · simp [h]

theorem extLane_eq (c : IntCtl) (v : Word) : BitVec.ofInt 64 (ival c (laneOf (laneBits c.w) 0 v)) =
    if c.signed then (lane (laneBits c.w) 0 v).signExtend 64 else (lane (laneBits c.w) 0 v).setWidth 64 := by
  rw [ival_laneOf]
  cases c.signed
  · rw [val, if_neg Bool.false_ne_true, BitVec.ofInt_natCast, BitVec.ofNat_toNat]
    rfl
  · rfl

theorem leaScale_eq (w : LaneW) : leaScale w = laneBits w / 8 := by cases w <;> rfl

theorem ofNat_scaled (signed : Bool) (b : Word) (k : Nat) : BitVec.ofNat 64 ((if signed then b.toNat else b.toNat % 2 ^ 32) * k) =
    (if signed then b else (b.setWidth 32).setWidth 64) * BitVec.ofNat 64 k := by
  rw [BitVec.ofNat_mul]
  cases signed
  · rw [if_neg Bool.false_ne_true, if_neg Bool.false_ne_true, ← BitVec.toNat_setWidth, BitVec.ofNat_toNat]
  · rw [if_pos rfl, if_pos rfl, BitVec.ofNat_toNat, BitVec.setWidth_eq]

/-! ### Counts of bits -/

/-- A count of a lane's bits, read back from its lane. -/
theorem results_counts {i : Instr} {r : RAct} {c : IntCtl} {g : Nat → Nat → Nat} {P : ∀ {w : Nat}, BitVec w → Nat → Prop}
    (hexec : ∀ s, exec i s = runBeat { shapeR r with op := fun x => lanes1 c.w x fun a => quiet (g (laneBits c.w) a) } s)
    (hle : ∀ w x, g w x ≤ w) (hg : ∀ {w : Nat} (x : BitVec w), P x (g w x.toNat)) :
    Results i (shapeR r) fun x v f => f = 0#7 ∧ ∀ j, j < laneCount c.w → P (lane (laneBits c.w) j x.a.toWord) (lane (laneBits c.w) j v).toNat := by
  refine results_of (v := fun x => laneWord (laneBits c.w) (laneCount c.w) fun j => quiet (g (laneBits c.w) (laneOf (laneBits c.w) j x.a.toWord)))
    (f := fun x => laneFlags (laneBits c.w) (laneCount c.w) fun j => quiet (g (laneBits c.w) (laneOf (laneBits c.w) j x.a.toWord)))
    hexec fun x => ⟨laneFlags_eq_zero fun j _ => rfl, fun j hj => ?_⟩
  rw [lane_laneWord (laneBits_mul_laneCount_le c.w) hj, quiet, toNat_ofNat_of_le (hle _ _), ← toNat_lane]
  exact hg _

/-- Settles O3: each lane is the shift, count or field of its statement above. -/
theorem shiftsAndBitFields : Obligations.ShiftsAndBitFields := by
  unfold Obligations.ShiftsAndBitFields
  refine ⟨?shl, ?shr, ?sar, ?rot, ?addi, ?shli, ?shliWf, ?opcodes, ?clz, ?ctz, ?popc, ?bfe, ?bfi, ?ext, ?lea⟩
  case shl =>
    refine fun r c => results_fitLanes (fun _ => rfl) fun x j => ?_
    rw [← ival_a, toNat_lane]
    exact shlLane_eq c _ _
  case shr =>
    refine fun r c => results_quietLanes (fun _ => rfl) fun x j => ?_
    rw [← toNat_lane, ← toNat_lane]
    exact shrLane_eq _ _
  case sar =>
    refine fun r c => results_quietLanes (fun _ => rfl) fun x j => ?_
    rw [← toNat_lane, ← toNat_lane]
    exact sarLane_eq (laneBits_pos c.w) _ _
  case rot =>
    refine fun r c => results_quietLanes (fun _ => rfl) fun x j => ?_
    rw [← toNat_lane, ← toNat_lane]
    exact rotLane_eq _ _
  case addi => exact fun i => results_of (fun _ => rfl) fun x => ⟨ofNat_addi _ _, flags_addi _ _⟩
  case shli =>
    exact fun i => results_of (v := fun x => x.a.toWord <<< (i.imm.toNat % 64)) (f := fun _ => 0#7) (fun _ => rfl) fun x => ⟨by rw [mod_64_eq], rfl⟩
  case shliWf => exact fun k hl i h => eq_of_beq (Bool.and_eq_true_iff.1 h).2
  case opcodes => exact fun i => ⟨opcode_ia .., opcode_ia ..⟩
  case clz => exact fun r c => results_counts (fun _ => rfl) leadZeros_le leading_leadZeros
  case ctz => exact fun r c => results_counts (fun _ => rfl) (fun w x => (trailZeros_spec w x).1) trailing_trailZeros
  case popc => exact fun r c => results_counts (P := fun x n => n = ones x) (fun _ => rfl) popCount_le popCount_toNat
  case bfe => exact fun r c => results_word (fun _ => rfl) fun x i hi => getLsbD_extractField _ _ _ hi
  case bfi =>
    refine fun r c => results_word (fun _ => rfl) fun x i hi => ?_
    rw [getLsbD_insertBits _ _ _ _ hi, fieldPos_eq, fieldLen_eq]
  case ext => exact fun r c => results_word (fun _ => rfl) fun x => extLane_eq c _
  case lea =>
    refine fun r c => results_word (fun _ => rfl) fun x => ?_
    rw [ofNat_scaled, leaScale_eq]

end Sys2Proof.Proofs
end

section
/-!
PROOF. Comparisons and moves of lanes (spec 09 R158, R159); from these lemmas the obligation ComparisonsAndLaneMoves.
-/

namespace Sys2Proof.Proofs

open Machine Laws Say

/-! ### Comparisons -/

theorem condHolds_eq (c : CmpCtl) (x : BeatIn) (j : Nat) :
    condHolds c (laneOf (laneBits c.w) j x.a.toWord) (laneOf (laneBits c.w) j x.b.toWord) = outcome c x j := by
  rw [← toNat_lane, ← toNat_lane]
  simp only [condHolds, outcome, holds, intOf_toNat (laneBits_pos c.w)]
  cases c.cond
  case eq => rfl
  case ne => exact decide_not.symm
  case lt => rfl
  case le => rfl

theorem ofNat_mask (w : Nat) (b : Bool) : BitVec.ofNat w (if b then allOnes w else 0) = if b then BitVec.allOnes w else 0#w := by
  rw [apply_ite (BitVec.ofNat w), ofNat_allOnes]

/-! ### Lanes moved -/

/-- The lanes of `pack`, those of a below those of b. -/
def packLane (c : IntCtl) (x : BeatIn) (j : Nat) : Nat × Flags :=
  fit c.signed c.sat (laneBits c.w / 2) (if j < laneCount c.w then aVal c x j else bVal c x (j - laneCount c.w))

theorem packLanes_eq (c : IntCtl) (x : BeatIn) :
    (lanesOf (laneBits c.w) (laneCount c.w) x.a.toWord ++ lanesOf (laneBits c.w) (laneCount c.w) x.b.toWord).map
      (fun v => fit c.signed c.sat (laneBits c.w / 2) (ival c v)) = (List.range (2 * laneCount c.w)).map (packLane c x) := by
  rw [Nat.two_mul, List.range_add, List.map_append, List.map_append, lanesOf, lanesOf, List.map_map, List.map_map, List.map_map]
  congr 1 <;> refine List.map_congr_left fun j hj => ?_
  · rw [packLane, if_pos (List.mem_range.1 hj), ← ival_a]
    rfl
  · rw [Function.comp_apply, Function.comp_apply, packLane, if_neg (by omega), Nat.add_sub_cancel_left, ← ival_b]

theorem packed_fit (w : LaneW) : laneBits w / 2 * (2 * laneCount w) ≤ 64 := by cases w <;> decide

theorem widened_fit (w : LaneW) : 2 * laneBits w * (laneCount w / 2) ≤ 64 := by cases w <;> decide

/-- The half that `unpk` takes. -/
theorem half_eq (b : Word) (n : Nat) : b.toNat % 2 * n = if b.getLsbD 0 then n else 0 := by
  rw [BitVec.getLsbD, Nat.testBit_zero]
  rcases Nat.mod_two_eq_zero_or_one b.toNat with h | h <;> simp [h]

/-- The selector of a lane of `shuf`: its top bit, and the lane that its other bits name. -/
theorem selector_high (j : Nat) (b : Word) : 8 ≤ laneOf 4 j b ↔ b.getLsbD (4 * j + 3) = true := by
  have hbit : b.getLsbD (4 * j + 3) = (laneOf 4 j b).testBit 3 := by
    rw [laneOf, Nat.testBit_mod_two_pow, Nat.testBit_shiftRight, BitVec.testBit_toNat]
    rfl
  have hlt : laneOf 4 j b < 2 ^ 4 := laneOf_lt ..
  rw [hbit]
  exact ⟨fun h => Nat.testBit_of_two_pow_le_and_two_pow_add_one_gt h hlt, Nat.ge_two_pow_of_testBit⟩

theorem selector_low (j : Nat) (b : Word) : laneOf 4 j b % 8 = (b.extractLsb' (4 * j) 3).toNat := by
  rw [laneOf, BitVec.extractLsb'_toNat]
  exact Nat.mod_mod_of_dvd _ (by decide)

/-- Settles O4: lane by lane. -/
theorem comparisonsAndLaneMoves : Obligations.ComparisonsAndLaneMoves := by
  unfold Obligations.ComparisonsAndLaneMoves
  refine ⟨?cmp, ?ccmp, ?iota, ?pack, ?unpk, ?shuf, ?bcast⟩
  case cmp => exact fun r c => results_quietLanes (fun _ => rfl) fun x j => by rw [condHolds_eq, ofNat_mask]
  case ccmp =>
    intro r c k hupd
    refine results_quietLanes (fun _ => rfl) fun x j => ?_
    rw [condHolds_eq, ofNat_mask, hupd]
    rfl
  case iota =>
    exact fun r c => results_fitLanes (fun _ => rfl) fun x j => ival_ab c x 0 fun a b => fitCtl c (a + (j : Int) * b)
  case pack =>
    refine fun r c _ => results_fit (g := packLane c) (packed_fit c.w) (fun s => ?_) fun _ _ _ => rfl
    simp only [← packLanes_eq]
    rfl
  case unpk =>
    refine fun r c _ => results_quiet (widened_fit c.w) (fun _ => rfl) fun x j _ => ?_
    rw [ofNat_wrapTo, half_eq, ival_a]
  case shuf =>
    refine fun r c => results_quietLanes (fun _ => rfl) fun x j => ?_
    rw [apply_ite (BitVec.ofNat _), ofNat_laneOf, selector_low]
    exact ite_congr (propext (selector_high j _)) (fun _ => rfl) fun _ => rfl
  case bcast =>
    refine fun r c => results_quietLanes (fun _ => rfl) fun x j => ?_
    rw [ofNat_laneOf, BitVec.extractLsb'_toNat, Nat.shiftRight_zero]

end Sys2Proof.Proofs
end

section
/-!
PROOF. Sums across lanes, lanes filtered and expanded by a mask, and compressed runs (spec 09 R160 to R163); from these lemmas the obligation
LaneSumsAndCompaction.
-/

namespace Sys2Proof.Proofs

open Machine Laws Say

/-! ### Sums -/

theorem sumInt_eq (xs : List Int) : sumInt xs = xs.sum := List.sum_eq_foldl.symm

theorem ival_lanesOf (c : IntCtl) (x : BeatIn) (n : Nat) : (lanesOf (laneBits c.w) n x.a.toWord).map (ival c) = (List.range n).map (aVal c x) := by
  rw [lanesOf, List.map_map]
  exact List.map_congr_left fun j _ => ival_a c x j

/-- The sum of the lanes up to a lane. -/
theorem sumInt_take (c : IntCtl) (x : BeatIn) {j : Nat} (hj : j < laneCount c.w) :
    sumInt (((lanesOf (laneBits c.w) (laneCount c.w) x.a.toWord).map (ival c)).take (j + 1)) = ((List.range (j + 1)).map (aVal c x)).sum := by
  rw [sumInt_eq, ival_lanesOf, ← List.map_take, List.take_range, Nat.min_eq_left hj]

/-- All lanes with the 64-bit operand. -/
theorem sumVal_eq (c : IntCtl) (x : BeatIn) :
    sumInt ((lanesOf (laneBits c.w) (laneCount c.w) x.a.toWord).map (ival c)) + intOf c.signed 64 x.b.toWord.toNat =
      ((List.range (laneCount c.w)).map (aVal c x)).sum + val c.signed x.b.toWord := by
  rw [sumInt_eq, ival_lanesOf, intOf_toNat (by decide)]

/-- One lane of 64 bits is the register. -/
theorem okLanes_one (g : Nat → Nat × Flags) : okLanes 64 ((List.range 1).map g) = okFlags (BitVec.ofNat 64 (g 0).1) (g 0).2 := by
  have hmod : BitVec.ofNat 64 ((g 0).1 % 2 ^ 64) = BitVec.ofNat 64 (g 0).1 :=
    BitVec.eq_of_toNat_eq (by rw [BitVec.toNat_ofNat, BitVec.toNat_ofNat, Nat.mod_mod])
  rw [← hmod]
  simp [okLanes, joinFlagged, wordOfLanes, joinLanes]

/-! ### Lanes chosen by a mask -/

section
variable {w n : Nat} {m : Word} {k : Nat}

/-- The mask of the model and that of the statement, as far as the lanes go. -/
def SameMask (n k : Nat) (m : Word) : Prop := ∀ i, i < n → k.testBit i = m.getLsbD i

theorem filter_range_eq (h : SameMask n k m) {j : Nat} (hj : j ≤ n) :
    (List.range j).filter (fun i => k.testBit i) = (List.range j).filter fun i => m.getLsbD i :=
  List.filter_congr fun i hi => h i (Nat.lt_of_lt_of_le (List.mem_range.1 hi) hj)

theorem popCount_eq_rank (h : SameMask n k m) {j : Nat} (hj : j ≤ n) : popCount j k = rank m j := by
  rw [popCount_eq, rank, filter_range_eq h hj]

theorem rank_le (m : Word) (j : Nat) : rank m j ≤ j := Nat.le_trans (List.length_filter_le _ _) (Nat.le_of_eq List.length_range)

/-- The lane that stands at the rank of a chosen lane. -/
theorem getD_filter_rank {j : Nat} (hj : j < n) (hbit : m.getLsbD j = true) (f : Nat → Nat) :
    (((List.range n).filter fun i => m.getLsbD i).map f).getD (rank m j) 0 = f j := by
  obtain ⟨d, rfl⟩ := Nat.exists_eq_add_of_lt hj
  rw [Nat.add_assoc, List.range_add, List.range_succ_eq_map, List.map_cons, List.filter_append, Nat.add_zero, List.filter_cons_of_pos hbit,
    List.map_append, List.map_cons, List.getD_eq_getElem?_getD, List.getElem?_append_right (by rw [List.length_map]; exact Nat.le_refl _), List.length_map, rank,
    Nat.sub_self]
  rfl

theorem filtered_filterLanes (hn : w * n ≤ 64) (h : SameMask n k m) (a : Word) : Filtered w n a m (filterLanes w n a k) := by
  refine fun j hj => ⟨fun hbit => ?_, fun hle => ?_⟩
  · rw [filterLanes, lane_wordOfLanes (lane_end_le hn (Nat.lt_of_le_of_lt (rank_le m j) hj)), filter_range_eq h (Nat.le_refl n),
      getD_filter_rank hj hbit, ofNat_laneOf]
  · rw [filterLanes, lane_wordOfLanes (lane_end_le hn hj), filter_range_eq h (Nat.le_refl n), List.getD_eq_getElem?_getD,
      List.getElem?_eq_none (by rw [List.length_map]; exact hle), Option.getD_none]

theorem lane_expandLanes (hn : w * n ≤ 64) (h : SameMask n k m) (a : Word) {j : Nat} (hj : j < n) :
    lane w j (expandLanes w n a k) = if m.getLsbD j then lane w (rank m j) a else 0#w := by
  rw [expandLanes, lane_wordOfLanes_range hn hj, apply_ite (BitVec.ofNat w), ofNat_laneOf, popCount_eq_rank h (Nat.le_of_lt hj), h j hj]

theorem sameMask_mod (m : Word) (n : Nat) : SameMask n (m.toNat % 2 ^ n) m := fun i hi => by
  rw [Nat.testBit_mod_two_pow, BitVec.testBit_toNat, decide_eq_true hi, Bool.true_and]

end

theorem toNat_maskOf {n : Nat} (hn : n ≤ 64) (m : Word) : (maskOf n m).toNat = m.toNat % 2 ^ n := by
  rw [maskOf, BitVec.toNat_and, BitVec.toNat_ofNat, Nat.mod_eq_of_lt, Nat.and_two_pow_sub_one_eq_mod]
  have := Nat.pow_le_pow_right (n := 2) (by decide) hn
  have := Nat.two_pow_pos n
  omega

theorem sameMask_maskOf {n : Nat} (hn : n ≤ 64) (m : Word) : SameMask n (m.toNat % 2 ^ n) (maskOf n m) := fun i _ => by
  rw [← toNat_maskOf hn, BitVec.testBit_toNat]

theorem mask_bne_zero {n : Nat} (hn : n ≤ 64) (m : Word) : (m.toNat % 2 ^ n != 0) = decide (maskOf n m ≠ 0#64) := by
  rw [← toNat_maskOf hn, Bool.eq_iff_iff, bne_iff_ne, decide_eq_true_iff, Ne, Ne, ← BitVec.toNat_inj, BitVec.toNat_zero]

theorem laneCount_le (w : LaneW) : laneCount w ≤ 64 := by cases w <;> decide

/-! ### The mask of the lanes that are not zero -/

/-- A sum of distinct powers of two has their bits. -/
theorem testBit_sum_pow (p : Nat → Bool) : ∀ n, ((List.range n).map fun j => if p j then 2 ^ j else 0).sum < 2 ^ n ∧
    ∀ i, ((List.range n).map fun j => if p j then 2 ^ j else 0).sum.testBit i = (decide (i < n) && p i)
  | 0 => by simp
  | n + 1 => by
    obtain ⟨hlt, hbits⟩ := testBit_sum_pow p n
    have hlast (i : Nat) : decide (i < n + 1) = (decide (i < n) || decide (n = i)) := by
      rw [← Bool.decide_or, decide_eq_decide, Nat.lt_succ_iff_lt_or_eq, eq_comm]
    rw [List.range_succ, List.map_append, List.sum_append, List.map_singleton, List.sum_singleton, Nat.pow_succ]
    by_cases hp : p n = true
    · rw [if_pos hp, Nat.add_comm, ← Nat.mul_one (2 ^ n), Nat.two_pow_add_eq_or_of_lt hlt]
      refine ⟨?_, fun i => ?_⟩
      · rw [← Nat.two_pow_add_eq_or_of_lt hlt]
        omega
      · rw [Nat.testBit_or, Nat.mul_one, Nat.testBit_two_pow, hbits, hlast]
        rcases Decidable.em (n = i) with rfl | hne <;> simp [*]
    · rw [if_neg hp, Nat.add_zero]
      refine ⟨by omega, fun i => ?_⟩
      rw [hbits, hlast]
      rcases Decidable.em (n = i) with rfl | hne <;> simp [*]

section
variable (w n : Nat) (a : Word)

theorem nonzeroMask_eq : nonzeroMask w n a = ((List.range n).map fun j => if decide (laneOf w j a ≠ 0) then 2 ^ j else 0).sum := by
  rw [nonzeroMask, ← List.sum_eq_foldl]
  simp only [decide_not, Bool.not_eq_true', decide_eq_false_iff_not, ite_not]

theorem nonzeroMask_lt : nonzeroMask w n a < 2 ^ n := by
  rw [nonzeroMask_eq]
  exact (testBit_sum_pow _ n).1

theorem laneOf_eq_zero (j : Nat) : laneOf w j a = 0 ↔ lane w j a = 0#w := by
  rw [← toNat_lane, ← BitVec.toNat_inj, BitVec.toNat_zero]

theorem testBit_nonzeroMask {j : Nat} (hj : j < n) : (nonzeroMask w n a).testBit j = decide (lane w j a ≠ 0#w) := by
  rw [nonzeroMask_eq, (testBit_sum_pow _ n).2, decide_eq_true hj, Bool.true_and, decide_eq_decide, Ne, laneOf_eq_zero]

end

/-- The lanes that are not zero, as a mask in a register. -/
def nonzeroLanes (w n : Nat) (a : Word) : Word := BitVec.ofNat 64 (nonzeroMask w n a)

section
variable {n : Nat} (hn : n ≤ 64) (w : Nat) (a : Word)
include hn

theorem toNat_nonzeroLanes : (nonzeroLanes w n a).toNat = nonzeroMask w n a := by
  rw [nonzeroLanes, BitVec.toNat_ofNat, Nat.mod_eq_of_lt (Nat.lt_of_lt_of_le (nonzeroMask_lt w n a) (Nat.pow_le_pow_right (by decide) hn))]

theorem sameMask_nonzeroLanes : SameMask n (nonzeroMask w n a) (nonzeroLanes w n a) := fun i _ => by
  rw [← toNat_nonzeroLanes hn, BitVec.testBit_toNat]

theorem maskOf_nonzeroLanes : maskOf n (nonzeroLanes w n a) = nonzeroLanes w n a := by
  refine BitVec.eq_of_toNat_eq ?_
  rw [toNat_maskOf hn, toNat_nonzeroLanes hn, Nat.mod_eq_of_lt (nonzeroMask_lt w n a)]

theorem getLsbD_nonzeroLanes {j : Nat} (hj : j < n) : (nonzeroLanes w n a).getLsbD j = decide (lane w j a ≠ 0#w) := by
  rw [← sameMask_nonzeroLanes hn w a j hj, testBit_nonzeroMask w n a hj]

end

theorem ofNat_shiftLeft (k n : Nat) : BitVec.ofNat 64 (k <<< n) = BitVec.ofNat 64 k <<< n := by
  refine BitVec.eq_of_toNat_eq ?_
  rw [BitVec.toNat_shiftLeft, BitVec.toNat_ofNat, BitVec.toNat_ofNat, Nat.shiftLeft_eq, Nat.shiftLeft_eq, Nat.mod_mul_mod]

/-- The outcome of `zpack`, its count and its mask as the statement has them. -/
theorem exec_zpack {r : RAct} {c : IntCtl} {s : State} {x : BeatIn} (h : Fires (shapeR r) s x) (m : Word)
    (hm : m = nonzeroLanes (laneBits c.w) (laneCount c.w) x.a.toWord) :
    exec (.zpack r c) s = .next (commitBeat (shapeR r) s
      { word (filterLanes (laneBits c.w) (laneCount c.w) x.a.toWord (nonzeroMask (laneBits c.w) (laneCount c.w) x.a.toWord)) 0#7 with
        upd := fun e => { e with
          c0 := e.c0 + BitVec.ofNat 64 (rank m (laneCount c.w)), c1 := (e.c1 >>> laneCount c.w) ||| (m <<< (64 - laneCount c.w)) } }) := by
  rw [hm, ← popCount_eq_rank (sameMask_nonzeroLanes (laneCount_le c.w) _ _) (Nat.le_refl _), nonzeroLanes, ← ofNat_shiftLeft]
  exact commits_of rfl h rfl rfl

/-- Settles O5: the sums through Fit, and each mask by what it chooses. -/
theorem laneSumsAndCompaction : Obligations.LaneSumsAndCompaction := by
  unfold Obligations.LaneSumsAndCompaction
  refine ⟨?vred, ?vscn, ?hash, ?filt, ?xpnd, ?zpack, ?zunpk, ?unsaturated, ?opcodes⟩
  case vred =>
    refine fun r c => results_fit (by decide) (fun s => ?_) fun x j _ => rfl
    simp only [okLanes_one, ← sumVal_eq]
    rfl
  case vscn =>
    refine fun r c => results_fit (laneBits_mul_laneCount_le c.w) (fun _ => rfl) fun x j hj => ?_
    rw [sumInt_take c x hj, ival_b]
    rfl
  case hash => exact fun r c => results_word (fun _ => rfl) fun x => rfl
  case filt =>
    intro r c s x h
    refine ⟨_, filtered_filterLanes (laneBits_mul_laneCount_le c.w) (sameMask_maskOf (laneCount_le c.w) _) _, commits_of rfl h ?_ rfl⟩
    rw [← mask_bne_zero (laneCount_le c.w)]
  case xpnd =>
    exact fun r c => results_of (f := fun _ => 0#7) (fun _ => rfl) fun x =>
      ⟨fun j hj => lane_expandLanes (laneBits_mul_laneCount_le c.w) (sameMask_mod _ _) _ hj, rfl⟩
  case zpack =>
    intro r c s x h
    exact ⟨_, nonzeroLanes _ _ _, fun j hj => getLsbD_nonzeroLanes (laneCount_le c.w) _ _ hj, maskOf_nonzeroLanes (laneCount_le c.w) _ _,
      filtered_filterLanes (laneBits_mul_laneCount_le c.w) (sameMask_nonzeroLanes (laneCount_le c.w) _ _) _, exec_zpack h _ rfl⟩
  case zunpk =>
    exact fun r c s x h => ⟨_, fun j hj => lane_expandLanes (laneBits_mul_laneCount_le c.w) (sameMask_mod _ _) _ hj, commits_of rfl h rfl rfl⟩
  case unsaturated =>
    rintro k hl r c (h | h | h) <;> exact unsaturated_of_wf h
  case opcodes => exact fun r c => ⟨opcode_r .., opcode_r .., opcode_r ..⟩

end Sys2Proof.Proofs
end

section
/-!
PROOF. Moves, predicates, counters, flags, timers, special registers, waves and software traps (spec 09 R139 to R150); from these lemmas the obligations
MovesAndPredicates, CountersAndSpecialRegisters and SoftwareTraps.
-/

namespace Sys2Proof.Proofs

open Machine Laws Say

/-- Settles O6: each operation gives its outcome as it stands; `route` where its output is. -/
theorem movesAndPredicates : Obligations.MovesAndPredicates := by
  unfold Obligations.MovesAndPredicates
  refine ⟨?nop, ?mov, ?movi, ?drop, ?sel, ?route, ?eos, ?pand, ?por, ?pxor, ?pandn⟩
  case nop => exact fun r => gives_self fun _ => rfl
  case mov => exact fun r => gives_self fun _ => rfl
  case movi => exact fun i => gives_self fun _ => rfl
  case drop => exact fun r => gives_self fun _ => rfl
  case sel => exact fun r n => gives_self fun _ => rfl
  case route =>
    intro r s x n h hout
    refine Eq.trans (b := runBeat (specRoute r) s) rfl (runBeat_fires h ?_)
    have hout' : (outsOf x.e .fan)[x.b.toWord.toNat % (outsOf x.e .fan).length]? = some n := hout
    simp only [hout']
    rfl
  case eos => exact fun r a b => gives_self fun _ => rfl
  case pand => exact fun m n u => gives_self fun _ => rfl
  case por => exact fun m n u => gives_self fun _ => rfl
  case pxor => exact fun m n u => gives_self fun _ => rfl
  case pandn => exact fun m n u => gives_self fun _ => rfl

/-! ### Special registers -/

theorem dstValue_counter (e : Elem) {d : Dst} (h : d = .c0 ∨ d = .c1) : dstValue e d = if d = .c0 then e.c0 else e.c1 := by
  rcases h with rfl | rfl <;> rfl

/-- What a beat reads of a special register is the register's value. -/
theorem specValue_eq {sp : FireSpec} {s : State} {x : BeatIn} (h : beatIn sp s = some x) (reg : Spec) : specValue x x.tc reg = specialValue x reg := by
  obtain ⟨hs, -, hl, -, -, hpxy, htc, -⟩ := beatIn_reads h
  cases reg
  case pxy => exact hpxy.trans (by rw [← hl, ← hs]; rfl)
  case tcnt => exact htc
  all_goals rfl

theorem getLsbD_toWord (b : Beat) : b.toWord.getLsbD 0 = b.getLsbD 0 := by
  rw [Beat.toWord, BitVec.getLsbD_setWidth]
  rfl

theorem flagMask_eq (k : BitVec 12) : k.extractLsb' 0 7 = k.setWidth 7 := BitVec.eq_of_getLsbD_eq fun i hi => by simp [hi]

theorem bne_zero (v : Word) : (v != 0) = decide (v ≠ 0#64) := decide_not.symm

/-- Settles O7: each operation gives its outcome on what the beat reads of its element and of the clocks. -/
theorem countersAndSpecialRegisters : Obligations.CountersAndSpecialRegisters := by
  unfold Obligations.CountersAndSpecialRegisters
  refine ⟨?cntAdd, ?cntSet, ?flgRd, ?flgClr, ?ts, ?cyc, ?rest, ?specRd, ?specFlg, ?specFpm, ?waveNx⟩
  case cntAdd =>
    refine fun i hdst => gives_of (fun _ => rfl) fun s x _ => ?_
    rw [dstValue_counter x.e hdst]
    rfl
  case cntSet => exact fun i => gives_self fun _ => rfl
  case flgRd => exact fun r => gives_self fun _ => rfl
  case flgClr =>
    refine fun i => gives_of (fun _ => rfl) fun s x _ => ?_
    simp only [flagMask_eq, bne_zero]
  case ts =>
    refine fun r => gives_of (fun _ => rfl) fun s x h => ?_
    obtain ⟨rfl, -, -, hts, -⟩ := beatIn_reads h
    exact congrArg okWord hts
  case cyc =>
    refine fun r => gives_of (fun _ => rfl) fun s x h => ?_
    obtain ⟨rfl, -, hl, -, hcyc, -⟩ := beatIn_reads h
    exact congrArg okWord (hcyc.trans (by rw [hl]))
  case rest => exact fun u => gives_self fun _ => rfl
  case specRd => exact fun d reg u => gives_of (fun _ => rfl) fun s x h => congrArg okWord (specValue_eq h reg)
  case specFlg => exact fun a u => gives_self fun _ => rfl
  case specFpm =>
    refine fun a u => gives_of (fun _ => rfl) fun s x _ => ?_
    simp only [getLsbD_toWord]
    rfl
  case waveNx => exact fun u => gives_self fun _ => rfl

/-! ### Software traps -/

section
variable {sp : FireSpec} {s : State} {x : BeatIn} {op : BeatIn → BeatRes} (h : Fires sp s x)
include h

/-- A first beat that was not repaired is the one that traps. -/
theorem trapsNow_iff : trapsNow x = true ↔ s.sched.cur.beat = 0 := by
  obtain ⟨hs, -, -, -, -, -, -, hmode⟩ := beatIn_reads h.reads
  simp [trapsNow, hmode, h.normal, hs]

/-- A software trap raised is held; a beat without one commits what a `nop` does. -/
theorem runBeat_soft_bad {cls : FaultClass} {a b : Word} (hop : op x = .bad cls 0 a b) :
    runBeat { sp with op := op, soft := true } s = .next (holdBeat sp s x cls 0 a b) :=
  runBeat_bad (sp := { sp with op := op, soft := true }) h.present h.ready h.reads h.normal hop

theorem runBeat_soft_ok (hop : op x = .ok {}) : runBeat { sp with op := op, soft := true } s = .next (commitBeat sp s {}) :=
  (runBeat_ok (sp := { sp with op := op, soft := true }) h.present h.ready h.reads h.normal hop).trans (congrArg _ (after_quiet (sp := sp) (x := x) rfl))

end

/-- Settles O8: the first beat traps, `brk` while it is enabled. -/
theorem softwareTraps : Obligations.SoftwareTraps := by
  unfold Obligations.SoftwareTraps
  refine ⟨?trap, ?trapLater, ?brk, ?brkOff⟩
  case trap => exact fun i s x h hfirst => runBeat_soft_bad (sp := shapeI i) h (if_pos ((trapsNow_iff h).2 hfirst))
  case trapLater => exact fun i s x h hlater => runBeat_soft_ok (sp := shapeI i) h (if_neg fun hnow => hlater ((trapsNow_iff h).1 hnow))
  case brk => exact fun i s x h hfirst hen => runBeat_soft_bad (sp := shapeI i) h (if_pos (Bool.and_eq_true_iff.2 ⟨(trapsNow_iff h).2 hfirst, hen⟩))
  case brkOff =>
    refine fun i s x h hoff => runBeat_soft_ok (sp := shapeI i) h (if_neg fun hnow => ?_)
    obtain ⟨hfirst, hen⟩ := Bool.and_eq_true_iff.1 hnow
    exact hoff.elim (· ((trapsNow_iff h).1 hfirst)) fun hclear => Bool.false_ne_true (hclear.symm.trans hen)

end Sys2Proof.Proofs
end

section
/-!
SUPPORT. Floating-point lanes (spec 10 R165): their places in a register, what a lane reads, and the instructions whose result is one lane for each lane with
the flags of all; a beat whose operation raises a fault.
-/

namespace Sys2Proof.Laws

open Machine Say

/-! ### Lanes of a format -/

theorem fmtWidth_pos (f : Fmt) : 0 < fmtWidth f := by cases f <;> decide

theorem fpWidth_pos (c : FpCtl) : 0 < fpWidth c := fmtWidth_pos _

theorem fpLanes_fit (c : FpCtl) : fpWidth c * fpCount c ≤ 64 := Nat.mul_div_le 64 _

/-- A lane as the model reads it is the statement's. -/
theorem fpLane_eq (c : FpCtl) (j : Nat) (v : Word) : fpLane c j v = rlane c j v := by
  rw [rlane, flane, toNat_lane, fpLane]

theorem laneOf_fpWidth (c : FpCtl) (j : Nat) (v : Word) : laneOf (fpWidth c) j v = flane c j v := (toNat_lane ..).symm

/-- The direction in `fpm`, as the model and the statement name it. -/
theorem rdOf_eq (x : BeatIn) : rdOf x = rdir x := rfl

/-! ### Results of lanes -/

variable {i : Instr} {sp : FireSpec} {s : State} {x : BeatIn} {c : FpCtl}

/-- The word and the flags of n lanes are those lanes, and their flags together. -/
theorem flaggedLanes_laneWord {w n : Nat} {g : Nat → Nat × Flags} (hn : w * n ≤ 64) : FlaggedLanes w n g (laneWord w n g) (laneFlags w n g) := by
  refine ⟨fun j hj => ?_, ?_⟩
  · rw [lane_laneWord hn hj, BitVec.toNat_ofNat]
  · rw [laneFlags, joinFlagged, List.foldl_map, List.foldl_map]
    rfl

/-- An instruction whose result is one lane for each lane of its format. -/
theorem results_fpTo {g h : BeatIn → Nat → Nat × Flags}
    (hexec : ∀ s, exec i s = runBeat { sp with op := fun x => okLanes (fpWidth c) ((List.range (fpCount c)).map (g x)) } s)
    (hg : ∀ x j, g x j = h x j) : Results i sp fun x => FpTo c (h x) :=
  results_of (v := fun x => laneWord (fpWidth c) (fpCount c) (g x)) (f := fun x => laneFlags (fpWidth c) (fpCount c) (g x)) hexec fun x => by
    rw [funext (hg x)]
    exact flaggedLanes_laneWord (fpLanes_fit c)

/-- The same for an operation on the lanes that the instruction reads. -/
theorem results_fpLanes {f : BeatIn → Nat → Nat → Nat × Flags} {h : BeatIn → Nat → Nat × Flags}
    (hexec : ∀ s, exec i s = runBeat { sp with op := fun x => fpLanes c x (f x) } s)
    (hf : ∀ x j, f x (rlane c j x.a.toWord) (rlane c j x.b.toWord) = h x j) : Results i sp fun x => FpTo c (h x) :=
  results_fpTo hexec fun x j => by rw [fpLane_eq, fpLane_eq, hf]

/-- The same for an operation on the lanes of sa as they are stored. -/
theorem results_storedLanes {f : BeatIn → Nat → Nat × Flags} {h : BeatIn → Nat → Nat × Flags}
    (hexec : ∀ s, exec i s = runBeat { sp with op := fun x => okLanes (fpWidth c) ((lanesOf (fpWidth c) (fpCount c) x.a.toWord).map (f x)) } s)
    (hf : ∀ x j, f x (flane c j x.a.toWord) = h x j) : Results i sp fun x => FpTo c (h x) :=
  results_fpTo (g := fun x j => f x (laneOf (fpWidth c) j x.a.toWord)) (by simpa only [lanesOf, List.map_map, Function.comp_def] using hexec) fun x j => by
    rw [laneOf_fpWidth, hf]

/-- A beat whose operation raises a fault is held. -/
theorem held_of {op : BeatIn → BeatRes} {cls : FaultClass} {sub : Nat} {a b : Word} (hexec : exec i s = runBeat { sp with op := op } s)
    (h : Fires sp s x) (hop : op x = .bad cls sub a b) : exec i s = .next (holdBeat sp s x cls sub a b) :=
  hexec.trans (runBeat_bad (sp := { sp with op := op }) h.present h.ready h.reads h.normal hop)

/-- A beat whose operation gives an outcome. -/
theorem fires_of {op : BeatIn → BeatRes} {o : BeatOut} (hexec : exec i s = runBeat { sp with op := op } s) (h : Fires sp s x) (hop : op x = .ok o) :
    exec i s = .next (after sp s x o) :=
  hexec.trans (runBeat_fires h hop)

end Sys2Proof.Laws
end

section
/-!
PROOF. Selection, signs, comparisons and classes of floating-point lanes (spec 10 R167, R168, R175); from these lemmas the obligation FloatComparisons.
-/

namespace Sys2Proof.Proofs

open Machine Laws Say

/-- A sign operation by the kind of its operand: a signalling NaN, a quiet NaN, any other value. -/
theorem fpSignOp_eq (f : Fmt) (fcs : Fcs) (op : Nat → Nat) (a : Nat) : fpSignOp f fcs op a = signed f fcs a (op a) := by
  unfold fpSignOp signed
  cases unpack f a with
  | nan q =>
    cases q
    · rfl
    · exact apply_ite (·, (0 : Flags)) ..
  | inf neg => rfl
  | fin neg m e => rfl

/-- Settles O13: each lane is the selection, sign operation, comparison or class of its statement. -/
theorem floatComparisons : Obligations.FloatComparisons := by
  unfold Obligations.FloatComparisons
  refine ⟨?fmin, ?fmax, ?fabs, ?fneg, ?fclt, ?fcle, ?fceq, ?fcun, ?fcls⟩
  case fmin => exact fun r c => results_fpLanes (fun _ => rfl) fun _ _ => rfl
  case fmax => exact fun r c => results_fpLanes (fun _ => rfl) fun _ _ => rfl
  case fabs => exact fun r c => results_fpLanes (fun _ => rfl) fun _ _ => fpSignOp_eq ..
  case fneg => exact fun r c => results_fpLanes (fun _ => rfl) fun _ _ => fpSignOp_eq ..
  case fclt => exact fun r c => results_fpLanes (fun _ => rfl) fun _ _ => rfl
  case fcle => exact fun r c => results_fpLanes (fun _ => rfl) fun _ _ => rfl
  case fceq => exact fun r c => results_fpLanes (fun _ => rfl) fun _ _ => rfl
  case fcun => exact fun r c => results_fpLanes (fun _ => rfl) fun _ _ => rfl
  case fcls =>
    exact fun r c => results_storedLanes (f := fun _ a => quiet (2 ^ fpClass (fmtOf c.fmt) a)) (fun _ => rfl) fun _ _ => rfl

end Sys2Proof.Proofs
end

section
/-!
PROOF. The special functions (spec 10 R183, 02 R39): NaN, infinities and zeros by the table, every other value by its rounding; from these lemmas the
obligation SpecialFunctions.
-/

namespace Sys2Proof.Proofs

open Machine Laws Say

/-- A special function lane by lane: NaN, an infinity, a zero, and a value that the function has or has not. -/
theorem results_special {i : Instr} {r : RAct} {c : FpCtl} {rounding : Rounding} {onInf onZero : Bool → Nat × Flags}
    {onFin : Bool → Nat → Int → Option Signed} (hexec : ∀ s, exec i s = runBeat (specUnary r c rounding onInf onZero onFin) s) :
    Results i (shapeR r) fun x => Special c x rounding onInf onZero onFin := by
  refine results_fpLanes hexec fun x j => ?_
  unfold specialLane
  generalize rlane c j x.a.toWord = a
  cases nanOf (fmtOf c.fmt) c.fcs [(fmtOf c.fmt, a)] with
  | some v => rfl
  | none =>
    cases unpack (fmtOf c.fmt) a with
    | nan q => rfl
    | inf neg => rfl
    | fin neg m e =>
      refine ite_congr rfl (fun _ => rfl) fun _ => ?_
      dsimp only
      cases onFin neg m e <;> rfl

/-- Settles O16: each function's table is the statement's, row by row. -/
theorem specialFunctions : Obligations.SpecialFunctions := by
  unfold Obligations.SpecialFunctions
  refine ⟨?frcp, ?frsq, ?fsqrt, ?fex2, ?flg2, ?fsin, ?fcos, ?ftnh, ?fsgm, ?fslu, ?fdiv⟩
  case frcp => exact fun r c => results_special fun _ => rfl
  case frsq => exact fun r c => results_special fun _ => rfl
  case fsqrt => exact fun r c => results_special fun _ => rfl
  case fex2 => exact fun r c => results_special fun _ => rfl
  case flg2 => exact fun r c => results_special fun _ => rfl
  case fsin => exact fun r c => results_special fun _ => rfl
  case fcos => exact fun r c => results_special fun _ => rfl
  case ftnh => exact fun r c => results_special fun _ => rfl
  case fsgm => exact fun r c => results_special fun _ => rfl
  case fslu => exact fun r c => results_special fun _ => rfl
  case fdiv => exact fun r c => results_fpLanes (fun _ => rfl) fun _ _ => rfl

end Sys2Proof.Proofs
end

section
/-!
SUPPORT. Lanes written one after another into a register that holds other lanes (spec 10 R170, R179): which lane each of them is, and what the others keep.
-/

namespace Sys2Proof.Proofs

open Machine Laws Say

/-- A value put into a word counts by its low 64 bits. -/
theorem insertBits_ofNat (x : Word) (lo n v : Nat) : insertBits x lo n v = insertBits x lo n (BitVec.ofNat 64 v).toNat := by
  rw [insertBits, insertBits, ofNat_shiftLeft v, ofNat_shiftLeft (BitVec.ofNat 64 v).toNat, BitVec.ofNat_toNat, BitVec.setWidth_eq]

theorem getLsbD_lane {w j i : Nat} (hi : i < w) (v : Word) : (lane w j v).getLsbD i = v.getLsbD (w * j + i) := by
  rw [lane, BitVec.getLsbD_extractLsb', decide_eq_true hi, Bool.true_and]

/-- A bit of lane j lies in lane k where k is j. -/
theorem within_lane_iff {w i : Nat} (hi : i < w) (j k : Nat) : w * k ≤ w * j + i ∧ w * j + i < w * k + w ↔ j = k := by
  have hpos : 0 < w := Nat.zero_lt_of_lt hi
  rw [← Nat.mul_succ, Nat.mul_comm w k, Nat.mul_comm w k.succ, ← Nat.le_div_iff_mul_le hpos, ← Nat.div_lt_iff_lt_mul hpos, Nat.mul_add_div hpos,
    Nat.div_eq_of_lt hi]
  omega

/-- One lane put into a word. -/
theorem lane_insertBits {w j : Nat} (hj : w * (j + 1) ≤ 64) (x : Word) (k v : Nat) :
    lane w j (insertBits x (w * k) w v) = if j = k then BitVec.ofNat w v else lane w j x := by
  refine BitVec.eq_of_getLsbD_eq fun i hi => ?_
  have hbit : w * j + i < 64 := by
    rw [Nat.mul_succ] at hj
    omega
  rw [getLsbD_lane hi, insertBits_ofNat, getLsbD_insertBits _ _ _ _ hbit, ite_congr (propext (within_lane_iff hi j k)) (fun _ => rfl) fun _ => rfl]
  split
  next h =>
    subst h
    have hlow : i < 64 := by omega
    rw [Nat.add_sub_cancel_left, BitVec.getLsbD_ofNat, BitVec.getLsbD_ofNat, decide_eq_true hi, decide_eq_true hlow]
  next => rw [getLsbD_lane hi]

/-- n lanes put into a word from lane lo on. -/
def writeLanes (w lo : Nat) (g : Nat → Nat) (v : Word) (n : Nat) : Word := (List.range n).foldl (fun v i => insertBits v (w * (lo + i)) w (g i)) v

theorem writeLanes_succ (w lo : Nat) (g : Nat → Nat) (v : Word) (n : Nat) :
    writeLanes w lo g v (n + 1) = insertBits (writeLanes w lo g v n) (w * (lo + n)) w (g n) := by
  rw [writeLanes, List.range_succ, List.foldl_append]
  rfl

/-- A lane among those written holds its value; every other lane is kept. -/
theorem lane_writeLanes {w lo j : Nat} {g : Nat → Nat} {v : Word} (hj : w * (j + 1) ≤ 64) :
    ∀ n, lane w j (writeLanes w lo g v n) = if lo ≤ j ∧ j < lo + n then BitVec.ofNat w (g (j - lo)) else lane w j v
  | 0 => (if_neg (by omega)).symm
  | n + 1 => by
    rw [writeLanes_succ, lane_insertBits hj, lane_writeLanes hj n]
    by_cases hlast : j = lo + n
    · rw [if_pos hlast, if_pos (by omega), hlast, Nat.add_sub_cancel_left]
    · rw [if_neg hlast]
      exact ite_congr (propext (by omega)) (fun _ => rfl) fun _ => rfl

/-- The flags of lanes 0 to n − 1 together. -/
def flagsBelow (h : Nat → Flags) (n : Nat) : Flags := ((List.range n).map h).foldl (· ||| ·) 0#7

theorem flagsBelow_succ (h : Nat → Flags) (n : Nat) : flagsBelow h (n + 1) = flagsBelow h n ||| h n := by
  rw [flagsBelow, List.range_succ, List.map_append, List.foldl_append]
  rfl

end Sys2Proof.Proofs
end

section
/-!
PROOF. Conversions (spec 10 R169 to R174, 04 R86): the descriptor, the lanes of `fcvt` in their order with c1 before each, and the conversions of one lane; from
these lemmas the obligation Conversions.
-/

namespace Sys2Proof.Proofs

open Machine Laws Say

/-! ### The descriptor -/

theorem bitsOf_toNat (w : Word) (hi lo : Nat) : bitsOf w.toNat hi lo = (w.extractLsb' lo (hi + 1 - lo)).toNat := (BitVec.extractLsb'_toNat ..).symm

theorem bitsOf_eq_zero_iff (w : Word) (hi lo : Nat) : bitsOf w.toNat hi lo = 0 ↔ w.extractLsb' lo (hi + 1 - lo) = 0#_ := by
  rw [bitsOf_toNat, ← BitVec.toNat_inj, BitVec.toNat_zero]

/-- A descriptor is read of the word whose fields it names, where they meet the checks of R169 and R170. -/
theorem cvtDesc_eq_some_iff (w : Word) (d : CvtDesc) : cvtDesc w = some d ↔
    fmtOfCode (bitsOf w.toNat 3 0) = some d.src ∧ fmtOfCode (bitsOf w.toNat 7 4) = some d.dst ∧ bitsOf w.toNat 10 8 = d.rnd ∧ bitsOf w.toNat 18 16 = d.part ∧
    d.rnd ≤ 5 ∧ bitsOf w.toNat 15 11 = 0 ∧ bitsOf w.toNat 63 19 = 0 ∧ d.part < max (fmtWidth d.src) (fmtWidth d.dst) / min (fmtWidth d.src) (fmtWidth d.dst) := by
  obtain ⟨f, g, rnd, part⟩ := d
  unfold cvtDesc
  cases fmtOfCode (bitsOf w.toNat 3 0) with
  | none => simp
  | some f' =>
    cases fmtOfCode (bitsOf w.toNat 7 4) with
    | none => simp
    | some g' =>
      simp only [Option.ite_none_right_eq_some, Option.some.injEq, CvtDesc.mk.injEq]
      constructor
      · rintro ⟨⟨hrnd, hlow, hhigh, hpart⟩, rfl, rfl, rfl, rfl⟩
        exact ⟨rfl, rfl, rfl, rfl, hrnd, hlow, hhigh, hpart⟩
      · rintro ⟨rfl, rfl, rfl, rfl, hrnd, hlow, hhigh, hpart⟩
        exact ⟨⟨hrnd, hlow, hhigh, hpart⟩, rfl, rfl, rfl, rfl⟩

/-! ### The lanes of `fcvt` -/

section
variable (d : CvtDesc) (fcs : Fcs) (x : BeatIn)

/-- The lane of the result that the first lane converted is. -/
def cvtFirst : Nat := if fmtWidth d.dst ≤ fmtWidth d.src then d.part * cvtCount d else 0

theorem cvtTo_eq (i : Nat) : cvtTo d i = cvtFirst d + i := by
  rw [cvtTo, cvtFirst]
  split
  · rfl
  · exact (Nat.zero_add i).symm

/-- The group PART lies within the register. -/
theorem cvtLanes_fit (h : d.part < max (fmtWidth d.src) (fmtWidth d.dst) / min (fmtWidth d.src) (fmtWidth d.dst)) :
    fmtWidth d.dst * (cvtFirst d + cvtCount d) ≤ 64 := by
  rw [cvtFirst, cvtCount]
  by_cases hle : fmtWidth d.dst ≤ fmtWidth d.src
  · rw [Nat.max_eq_left hle, Nat.min_eq_right hle] at h
    rw [if_pos hle, Nat.max_eq_left hle, ← Nat.succ_mul, ← Nat.mul_assoc]
    calc fmtWidth d.dst * (d.part + 1) * (64 / fmtWidth d.src)
        ≤ fmtWidth d.dst * (fmtWidth d.src / fmtWidth d.dst) * (64 / fmtWidth d.src) := Nat.mul_le_mul_right _ (Nat.mul_le_mul_left _ h)
      _ ≤ fmtWidth d.src * (64 / fmtWidth d.src) := Nat.mul_le_mul_right _ (Nat.mul_div_le _ _)
      _ ≤ 64 := Nat.mul_div_le _ _
  · rw [if_neg hle, Nat.max_eq_right (by omega), Nat.zero_add]
    exact Nat.mul_div_le _ _

/-- c1 after a lane that took its random word from `c1`, or had no use for it. -/
def nextDraw (c1 : Word) (i : Nat) : Word :=
  if d.rnd = 4 ∧ (x.e.err = false ∨ (cvtResult d fcs x c1 i).2 &&& fNX ≠ 0#7) then c1 + 1#64 else c1

/-- One lane converted, in the statement's terms. -/
theorem cvtStep_eq (i : Nat) (st : CvtState) : cvtStep d fcs x.e.err x.e.k x.a.toWord (cvtCount d) i st =
    ⟨insertBits st.v (fmtWidth d.dst * (cvtFirst d + i)) (fmtWidth d.dst) (cvtResult d fcs x st.c1 i).1, st.flags ||| (cvtResult d fcs x st.c1 i).2,
      nextDraw d fcs x st.c1 i⟩ := by
  rw [← cvtTo_eq, nextDraw, cvtResult, toNat_lane]
  simp only [cvtStep, CvtState.mk.injEq]
  refine ⟨rfl, rfl, ite_congr (propext ?_) (fun _ => rfl) fun _ => rfl⟩
  simp only [Bool.and_eq_true, Bool.or_eq_true, beq_iff_eq, bne_iff_ne, Bool.not_eq_true']
  rfl

/-- c1 before lane i. -/
def drawAt : Nat → Word
  | 0 => x.e.c1
  | i + 1 => nextDraw d fcs x (drawAt i) i

/-- Lane i of the conversion, with the c1 that the lanes before it left. -/
def cvtLaneAt (i : Nat) : Nat × Flags := cvtResult d fcs x (drawAt d fcs x i) i

/-- The conversion after n lanes: those lanes written, their flags together, and c1. -/
theorem cvtSteps_eq (base : Word) : ∀ n,
    (List.range n).foldl (fun st i => cvtStep d fcs x.e.err x.e.k x.a.toWord (cvtCount d) i st) ⟨base, 0, x.e.c1⟩ =
      ⟨writeLanes (fmtWidth d.dst) (cvtFirst d) (fun i => (cvtLaneAt d fcs x i).1) base n, flagsBelow (fun i => (cvtLaneAt d fcs x i).2) n, drawAt d fcs x n⟩
  | 0 => rfl
  | n + 1 => by
    rw [List.range_succ, List.foldl_append, cvtSteps_eq base n, List.foldl_cons, List.foldl_nil, cvtStep_eq, writeLanes_succ, flagsBelow_succ]
    rfl

/-- The register that the lanes are written into. -/
def cvtBase (r : RAct) : Word := if fmtWidth d.dst < fmtWidth d.src then (if r.dst.isReg then x.old else 0) else 0

/-- A lane that is not converted is kept under a narrowing into a register, and is 0 otherwise. -/
theorem lane_cvtBase (r : RAct) (j : Nat) : lane (fmtWidth d.dst) j (cvtBase d x r) =
    if fmtWidth d.dst < fmtWidth d.src ∧ r.dst.isReg = true then lane (fmtWidth d.dst) j x.old else 0#_ := by
  have hzero : lane (fmtWidth d.dst) j 0 = 0#_ := BitVec.extractLsb'_zero
  rw [cvtBase]
  by_cases hnarrow : fmtWidth d.dst < fmtWidth d.src
  · rw [if_pos hnarrow, apply_ite (lane _ j), hzero]
    exact ite_congr (propext (and_iff_right hnarrow).symm) (fun _ => rfl) fun _ => rfl
  · rw [if_neg hnarrow, if_neg fun h => hnarrow h.1, hzero]

/-- The register, the flags and c1 that all lanes leave are what the statement calls converted. -/
theorem converted_writeLanes (r : RAct) (h : d.part < max (fmtWidth d.src) (fmtWidth d.dst) / min (fmtWidth d.src) (fmtWidth d.dst)) :
    Converted r d fcs x (writeLanes (fmtWidth d.dst) (cvtFirst d) (fun i => (cvtLaneAt d fcs x i).1) (cvtBase d x r) (cvtCount d))
      (flagsBelow (fun i => (cvtLaneAt d fcs x i).2) (cvtCount d)) (drawAt d fcs x (cvtCount d)) := by
  refine ⟨drawAt d fcs x, rfl, rfl, fun _ _ => rfl, rfl, fun i hi => ?written, fun j hj hother => ?kept⟩
  case written =>
    rw [cvtTo_eq, lane_writeLanes (lane_end_le (cvtLanes_fit d h) (by omega)), if_pos (by omega), Nat.add_sub_cancel_left, BitVec.toNat_ofNat]
    rfl
  case kept =>
    have hout : ¬(cvtFirst d ≤ j ∧ j < cvtFirst d + cvtCount d) := fun hin => hother (j - cvtFirst d) (by omega) (by rw [cvtTo_eq]; omega)
    rw [lane_writeLanes (lane_end_le (Nat.mul_div_le 64 _) hj), if_neg hout, lane_cvtBase]

end

/-- The operation of `fcvt` under a descriptor. -/
theorem op_fcvt (r : RAct) {fcs : Fcs} {x : BeatIn} {d : CvtDesc} (hd : cvtDesc x.b.toWord = some d) : (specFcvt r fcs).op x = .ok
    { word (writeLanes (fmtWidth d.dst) (cvtFirst d) (fun i => (cvtLaneAt d fcs x i).1) (cvtBase d x r) (cvtCount d))
        (flagsBelow (fun i => (cvtLaneAt d fcs x i).2) (cvtCount d)) with
      upd := fun e => { e with c1 := drawAt d fcs x (cvtCount d) } } := by
  simp only [specFcvt, specR3, specR, hd]
  exact congrArg (fun st : CvtState => BeatRes.ok { word st.v st.flags with upd := fun e => { e with c1 := st.c1 } })
    (cvtSteps_eq d fcs x (cvtBase d x r) (cvtCount d))

theorem op_fcvt_none (r : RAct) {fcs : Fcs} {x : BeatIn} (hd : cvtDesc x.b.toWord = none) : (specFcvt r fcs).op x = badOperand x.b.toWord := by
  simp only [specFcvt, specR3, specR, hd]

/-- Settles O14: the descriptor field by field, `fcvt` lane after lane, and the other conversions lane by lane. -/
theorem conversions : Obligations.Conversions := by
  unfold Obligations.Conversions
  refine ⟨?descriptor, ?operand, ?fcvt, ?f2i, ?i2f, ?frnd, ?fscl⟩
  case descriptor =>
    intro w d
    rw [cvtDesc_eq_some_iff, bitsOf_eq_zero_iff, bitsOf_eq_zero_iff]
    simp only [bitsOf_toNat]
  case operand => exact fun r fcs s x h hd => held_of rfl h (op_fcvt_none r hd)
  case fcvt =>
    intro r fcs s x d h hd
    obtain ⟨-, -, -, -, -, -, -, hpart⟩ := (cvtDesc_eq_some_iff _ _).1 hd
    exact ⟨_, _, _, converted_writeLanes d fcs x r hpart, fires_of rfl h (op_fcvt r hd)⟩
  case f2i => exact fun r sg tr c => results_fpLanes (fun _ => rfl) fun _ _ => rfl
  case i2f =>
    refine fun r sg c => results_storedLanes (fun _ => rfl) fun x j => ?_
    rw [flane, intOf_toNat (fpWidth_pos c)]
    rfl
  case frnd => exact fun r rd c => results_fpLanes (fun _ => rfl) fun x j => by cases rd <;> rfl
  case fscl => exact fun r c => results_fpTo (fun _ => rfl) fun x j => by rw [fpLane_eq, laneOf_fpWidth, rdOf_eq]

end Sys2Proof.Proofs
end

section
/-!
PROOF. Q4N codes and the random streams (spec 10 R177 to R181, 02 R32, R38); from these lemmas the obligation QuantisedAndRandom.
-/

namespace Sys2Proof.Proofs

open Machine Laws Say

section
variable (r : RAct) {c : FpCtl} {x : BeatIn}

/-! ### Q4N -/

theorem op_q4dq_none (hq : q4Word c x.b.toWord = none) : (specQ4dq r c).op x = badOperand x.b.toWord := by
  simp only [specQ4dq, specR, hq]

theorem op_q4q_none (hq : q4Word c x.b.toWord = none) : (specQ4q r c).op x = badOperand x.b.toWord := by
  simp only [specQ4q, specR3, specR, hq]

variable (c x) in
/-- Lane j of `q4.dq` at position p under a scale. -/
def q4dqLane (p : Nat) (sc : Val) (j : Nat) : Nat :=
  (roundVal (fmtOf c.fmt) .rne ⟨false, false, false⟩ (q4Value (laneOf 4 (fpCount c * p + j) x.a.toWord) sc)).1

variable (c x) in
/-- Lane j of the operand encoded under a scale. -/
def q4qLane (sc : Val) (j : Nat) : Nat × Flags := q4Encode (unpack (fmtOf c.fmt) (rlane c j x.a.toWord)) sc

variable {p : Nat} {sc : Val}

theorem op_q4dq (hq : q4Word c x.b.toWord = some (p, sc)) : (specQ4dq r c).op x =
    .ok (word (laneWord (fpWidth c) (fpCount c) fun j => quiet (q4dqLane c x p sc j)) 0#7) := by
  have hflags : laneFlags (fpWidth c) (fpCount c) (fun j => quiet (q4dqLane c x p sc j)) = 0#7 := laneFlags_eq_zero fun _ _ => rfl
  rw [← hflags]
  simp only [specQ4dq, specR, hq]
  rfl

/-- The codes of n lanes written one after another, and their flags together. -/
theorem q4Steps_eq (v : Word) : ∀ n,
    (List.range n).foldl (fun (st : Word × Flags) j =>
      let q := q4Encode (unpack (fmtOf c.fmt) (fpLane c j x.a.toWord)) sc
      (insertBits st.1 (4 * (fpCount c * p + j)) 4 q.1, st.2 ||| q.2)) (v, 0) =
    (writeLanes 4 (fpCount c * p) (fun j => (q4qLane c x sc j).1) v n, flagsBelow (fun j => (q4qLane c x sc j).2) n)
  | 0 => rfl
  | n + 1 => by
    rw [List.range_succ, List.foldl_append, q4Steps_eq v n, List.foldl_cons, List.foldl_nil, writeLanes_succ, flagsBelow_succ, fpLane_eq]
    rfl

theorem op_q4q (hq : q4Word c x.b.toWord = some (p, sc)) : (specQ4q r c).op x =
    .ok (word (writeLanes 4 (fpCount c * p) (fun j => (q4qLane c x sc j).1) x.old (fpCount c)) (flagsBelow (fun j => (q4qLane c x sc j).2) (fpCount c))) := by
  simp only [specQ4q, specR3, specR, hq]
  exact congrArg (fun st : Word × Flags => okFlags st.1 st.2) (q4Steps_eq x.old (fpCount c))

/-! ### Random streams -/

/-- A word whose bits [31:16] are not zero is refused. -/
theorem op_dropm_bad (h : x.b.toWord.extractLsb' 16 16 ≠ 0#16) : (specDropm r c).op x = badOperand x.b.toWord :=
  if_pos fun hzero => h ((bitsOf_eq_zero_iff ..).1 hzero)

variable (x) in
/-- Whether the draw of lane j keeps it. -/
def dropmKeepsLane (j : Nat) : Bool := dropmKeeps x.e.k (x.e.c0 + BitVec.ofNat 64 j) (x.b.toWord.extractLsb' 0 16).toNat

variable (c x) in
/-- Lane j of `dropm`: the product where it is kept, 0 elsewhere. -/
def dropmResult (j : Nat) : Nat × Flags :=
  if dropmKeepsLane x j then dropmLane (fmtOf c.fmt) (rdir x) c.fcs (rlane c j x.a.toWord) (x.b.toWord.extractLsb' 32 32).toNat else (0, 0#7)

theorem op_dropm (h : x.b.toWord.extractLsb' 16 16 = 0#16) : (specDropm r c).op x = .ok
    { word (laneWord (fpWidth c) (fpCount c) (dropmResult c x)) (laneFlags (fpWidth c) (fpCount c) (dropmResult c x)) with
      pred := dropmKeepsLane x 0, upd := fun e => { e with c0 := e.c0 + BitVec.ofNat 64 (fpCount c) } } := by
  have hzero : ¬bitsOf x.b.toWord.toNat 31 16 ≠ 0 := not_not_intro ((bitsOf_eq_zero_iff ..).2 h)
  have hfirst : dropmKeepsLane x 0 = dropmKeeps x.e.k x.e.c0 (x.b.toWord.extractLsb' 0 16).toNat := congrArg (dropmKeeps _ · _) (BitVec.add_zero _)
  rw [hfirst]
  refine (if_neg hzero).trans ?_
  simp only [fpLane_eq, bitsOf_toNat]
  rfl

end

/-- Settles O15: scale words and mask words that are refused; Q4N lanes read and written in place; draws lane by lane. -/
theorem quantisedAndRandom : Obligations.QuantisedAndRandom := by
  unfold Obligations.QuantisedAndRandom
  refine ⟨?dqOperand, ?dq, ?qOperand, ?q, ?dropmOperand, ?dropm, ?rnd⟩
  case dqOperand => exact fun r c s x h hq => held_of rfl h (op_q4dq_none r hq)
  case dq =>
    refine fun r c s x p sc h hq => ⟨_, commits_of rfl h (op_q4dq r hq) rfl, fun j hj => ?_⟩
    rw [flane, lane_laneWord (fpLanes_fit c) hj, BitVec.toNat_ofNat, toNat_lane, quiet, q4dqLane]
  case qOperand => exact fun r c s x h hq => held_of rfl h (op_q4q_none r hq)
  case q =>
    refine fun r c s x p sc h hq => ⟨_, _, fires_of rfl h (op_q4q r hq), rfl, fun j hj => ?_⟩
    rw [lane_writeLanes (lane_end_le (by decide) hj)]
    rfl
  case dropmOperand => exact fun r c s x h hres => held_of rfl h (op_dropm_bad r hres)
  case dropm => exact fun r c s x h hres => ⟨_, _, fires_of rfl h (op_dropm r hres), flaggedLanes_laneWord (fpLanes_fit c)⟩
  case rnd =>
    refine fun r c s x h => ⟨_, commits_of rfl h rfl rfl, fun j hj => ?_⟩
    rw [flane, lane_wordOfLanes_range (fpLanes_fit c) hj, BitVec.toNat_ofNat]

end Sys2Proof.Proofs
end

section
/-!
SUPPORT. Where a plot store has room for a run, in what order its gaps stand (spec 11 R188), and which bits of an offset choose its bank (11 R190).
-/

namespace Sys2Proof.Laws

open Machine Say

/-! ### The gaps between runs -/

section
variable {pos n b : Nat} {rs : List (Nat × Nat)} {g : Nat × Nat}

/-- Runs that follow one another from a position on, within the store. -/
structure LaidFrom (pos : Nat) (rs : List (Nat × Nat)) : Prop where
  apart : rs.Pairwise fun p q => p.1 + p.2 ≤ q.1
  within : ∀ r ∈ rs, r.1 + r.2 ≤ storeBytes
  start : ∀ r ∈ rs, pos ≤ r.1
  bound : pos ≤ storeBytes

theorem laidFrom_tail {r : Nat × Nat} (h : LaidFrom pos (r :: rs)) : LaidFrom (r.1 + r.2) rs where
  apart := (List.pairwise_cons.1 h.apart).2
  within := fun q hq => h.within q (List.mem_cons_of_mem _ hq)
  start := (List.pairwise_cons.1 h.apart).1
  bound := h.within r List.mem_cons_self

theorem start_le_gap (h : LaidFrom pos rs) (hg : g ∈ gaps pos rs) : pos ≤ g.1 ∧ pos ≤ g.2 := by
  induction rs generalizing pos with
  | nil =>
    obtain rfl := List.mem_singleton.1 hg
    exact ⟨Nat.le_refl _, h.bound⟩
  | cons r rs ih =>
    have hstart := h.start r List.mem_cons_self
    rcases List.mem_cons.1 hg with rfl | hg
    · exact ⟨Nat.le_refl _, hstart⟩
    · obtain ⟨hlow, hhigh⟩ := ih (laidFrom_tail h) hg
      omega

/-- The gaps stand in ascending order. -/
theorem gaps_ordered (h : LaidFrom pos rs) : (gaps pos rs).Pairwise fun g g' => g.1 ≤ g'.1 ∧ g.2 ≤ g'.2 := by
  induction rs generalizing pos with
  | nil => exact List.pairwise_singleton _ _
  | cons r rs ih =>
    refine List.pairwise_cons.2 ⟨fun g' hg' => ?_, ih (laidFrom_tail h)⟩
    have hstart := h.start r List.mem_cons_self
    obtain ⟨hlow, hhigh⟩ := start_le_gap (laidFrom_tail h) hg'
    exact ⟨by omega, by omega⟩

/-- What fits in a gap is free. -/
theorem free_of_mem_gaps (h : LaidFrom pos rs) (hg : g ∈ gaps pos rs) (hlow : g.1 ≤ b) (hhigh : b + n ≤ g.2) : Free rs b n := by
  induction rs generalizing pos with
  | nil =>
    obtain rfl := List.mem_singleton.1 hg
    exact ⟨hhigh, fun _ hr => absurd hr List.not_mem_nil⟩
  | cons r rs ih =>
    rcases List.mem_cons.1 hg with rfl | hg
    · have hend := h.within r List.mem_cons_self
      refine ⟨by omega, fun q hq => .inl ?_⟩
      rcases List.mem_cons.1 hq with rfl | hq
      · exact hhigh
      · have hq := (laidFrom_tail h).start q hq
        omega
    · obtain ⟨hbound, hfree⟩ := ih (laidFrom_tail h) hg
      have hafter := (start_le_gap (laidFrom_tail h) hg).1
      refine ⟨hbound, fun q hq => ?_⟩
      rcases List.mem_cons.1 hq with rfl | hq
      · exact .inr (Nat.le_trans hafter hlow)
      · exact hfree q hq

/-- What is free lies in a gap. -/
theorem exists_gap_of_free (hpos : pos ≤ b) (h : Free rs b n) : ∃ g ∈ gaps pos rs, g.1 ≤ b ∧ b + n ≤ g.2 := by
  induction rs generalizing pos with
  | nil => exact ⟨_, List.mem_singleton.2 rfl, hpos, h.1⟩
  | cons r rs ih =>
    rcases h.2 r List.mem_cons_self with hbefore | hafter
    · exact ⟨_, List.mem_cons_self, hpos, hbefore⟩
    · obtain ⟨g, hg, hfit⟩ := ih hafter ⟨h.1, fun q hq => h.2 q (List.mem_cons_of_mem _ hq)⟩
      exact ⟨g, List.mem_cons_of_mem _ hg, hfit⟩

variable (n rs) in
/-- The gaps that take a run of n bytes. -/
def fitting : List (Nat × Nat) := (gaps 0 rs).filter fun g => decide (g.1 + n ≤ g.2)

theorem mem_fitting : g ∈ fitting n rs ↔ g ∈ gaps 0 rs ∧ g.1 + n ≤ g.2 := by simp [fitting]

theorem exists_fitting_of_free (h : Free rs b n) : ∃ g ∈ fitting n rs, g.1 ≤ b ∧ b + n ≤ g.2 := by
  obtain ⟨g, hg, hlow, hhigh⟩ := exists_gap_of_free (Nat.zero_le b) h
  exact ⟨g, mem_fitting.2 ⟨hg, by omega⟩, hlow, hhigh⟩

theorem fitting_ordered (h : LaidFrom 0 rs) : (fitting n rs).Pairwise fun g g' => g.1 ≤ g'.1 ∧ g.2 ≤ g'.2 := (gaps_ordered h).filter _

/-- The start of the first gap that fits is the lowest free run. -/
theorem head_fitting_lowest (h : LaidFrom 0 rs) (hg : (fitting n rs).head? = some g) : Free rs g.1 n ∧ ∀ b', Free rs b' n → g.1 ≤ b' := by
  obtain ⟨rest, hfit⟩ := List.head?_eq_some_iff.1 hg
  obtain ⟨hmem, hroom⟩ := mem_fitting.1 (hfit ▸ List.mem_cons_self : g ∈ fitting n rs)
  refine ⟨free_of_mem_gaps h hmem (Nat.le_refl _) hroom, fun b' hb' => ?_⟩
  obtain ⟨g', hg', hlow, -⟩ := exists_fitting_of_free hb'
  rcases List.mem_cons.1 (hfit ▸ hg') with rfl | hlater
  · exact hlow
  · have hord := (List.pairwise_cons.1 (hfit ▸ fitting_ordered (n := n) h)).1 g' hlater
    omega

/-- The end of the last gap that fits is that of the highest free run. -/
theorem last_fitting_highest (h : LaidFrom 0 rs) (hg : (fitting n rs).getLast? = some g) :
    Free rs (g.2 - n) n ∧ ∀ b', Free rs b' n → b' ≤ g.2 - n := by
  obtain ⟨before, hfit⟩ := List.getLast?_eq_some_iff.1 hg
  obtain ⟨hmem, hroom⟩ := mem_fitting.1 (hfit ▸ List.mem_concat_self : g ∈ fitting n rs)
  refine ⟨free_of_mem_gaps h hmem (by omega) (by omega), fun b' hb' => ?_⟩
  obtain ⟨g', hg', -, hhigh⟩ := exists_fitting_of_free hb'
  rcases List.mem_append.1 (hfit ▸ hg') with hearlier | hlast
  · have hord := (List.pairwise_append.1 (hfit ▸ fitting_ordered (n := n) h)).2.2 g' hearlier g (List.mem_singleton.2 rfl)
    omega
  · obtain rfl := List.mem_singleton.1 hlast
    omega

end

/-! ### The bank of an offset -/

section
variable {o o' : Nat} {ms : List (BitVec 32)}

theorem popCount_add (k n x : Nat) : popCount (k + n) x = popCount k x + popCount n (x / 2 ^ k) := by
  induction k generalizing x with
  | zero => simp [popCount]
  | succ k ih => rw [Nat.succ_add, popCount, popCount, ih, Nat.div_div_eq_div_mul, ← Nat.pow_succ', Nat.add_assoc]

theorem testBit_below {a i k : Nat} (h : a % 2 ^ k = 0) (hi : i < k) : a.testBit i = false := by
  have hbit := Nat.testBit_mod_two_pow a k i
  rwa [h, Nat.zero_testBit, decide_eq_true hi, Bool.true_and, eq_comm] at hbit

/-- A mask that R190 allows for bank bit b takes bit 6 + b of those below bit 11. -/
theorem testBit_of_maskOk {b m i : Nat} (h : maskOk b m = true) (hi : i < 11) : m.testBit i = decide (i = 6 + b) := by
  simp only [maskOk, bitsOf, Bool.and_eq_true, beq_iff_eq] at h
  obtain ⟨⟨hlow, hbits⟩, -⟩ := h
  rcases Nat.lt_or_ge i 6 with h6 | h6
  · rw [testBit_below (k := 6) hlow h6, decide_eq_false (by omega)]
  · have hbit : ((m >>> 6) % 2 ^ 5).testBit (i - 6) = (2 ^ b).testBit (i - 6) := congrArg (Nat.testBit · _) hbits
    rw [Nat.testBit_mod_two_pow, decide_eq_true (by omega), Bool.true_and, Nat.testBit_shiftRight, Nat.add_sub_cancel' h6,
      Nat.testBit_two_pow] at hbit
    rw [hbit]
    exact decide_eq_decide.2 (by omega)

/-- What such a mask counts of an offset: bit 6 + b, and bits from 11 on. -/
theorem popCount_masked {b m : Nat} (h : maskOk b m = true) (hb : b < 5) (o : Nat) :
    popCount 32 (o &&& m) = o / 2 ^ (6 + b) % 2 + popCount 21 (o / 2 ^ 11 &&& m / 2 ^ 11) := by
  have hlow : ((List.range 11).filter fun i => (o &&& m).testBit i) = (List.range 11).filter fun i => o.testBit (6 + b) && i == 6 + b := by
    refine List.filter_congr fun i hi => ?_
    rw [Nat.testBit_and, testBit_of_maskOk h (List.mem_range.1 hi)]
    by_cases hib : i = 6 + b <;> simp [hib]
  have hone : ∀ b < 5, ((List.range 11).filter fun i => i == 6 + b).length = 1 := by decide
  rw [popCount_add 11 21, ← Nat.and_div_two_pow, popCount_eq 11, hlow, ← Nat.toNat_testBit]
  congr 1
  cases o.testBit (6 + b)
  · simp
  · simpa using hone b hb

theorem maskOk_of_masksOk (h : masksOk (ms.map (·.toNat)) = true) {b : Nat} (hb : b < 5) : ∃ m, ms[b]? = some m ∧ maskOk b m.toNat = true := by
  simp only [masksOk, Bool.and_eq_true, beq_iff_eq, List.length_map, List.all_eq_true] at h
  obtain ⟨hlen, hall⟩ := h
  have hbm : b < ms.length := by omega
  refine ⟨ms[b], List.getElem?_eq_getElem hbm, hall (ms[b].toNat, b) (List.mem_iff_getElem.2 ⟨b, by simp [hlen, hb], by simp⟩)⟩

/-- Bit b of the bank is the parity under mask b. -/
theorem bankOf_bit {b : Nat} {m : BitVec 32} (hm : ms[b]? = some m) (o : Nat) : bankOf ms o / 2 ^ b % 2 = popCount 32 (o &&& m.toNat) % 2 := by
  have hbit := joinLanes_div 1 (ms.map fun m => popCount 32 (o &&& m.toNat) % 2) b
  rw [Nat.one_mul, Nat.pow_one, List.getD_eq_getElem?_getD, List.getElem?_map, hm] at hbit
  exact hbit.trans (Nat.mod_mod _ 2)

/-- Offsets in one bank that agree from bit 11 on agree in the bits that choose the bank. -/
theorem testBit_of_bankOf_eq (h : masksOk (ms.map (·.toNat)) = true) (hbank : bankOf ms o = bankOf ms o') (hhigh : o / 2 ^ 11 = o' / 2 ^ 11)
    {b : Nat} (hb : b < 5) : o.testBit (6 + b) = o'.testBit (6 + b) := by
  obtain ⟨m, hm, hok⟩ := maskOk_of_masksOk h hb
  have hparity : popCount 32 (o &&& m.toNat) % 2 = popCount 32 (o' &&& m.toNat) % 2 := by rw [← bankOf_bit hm, ← bankOf_bit hm, hbank]
  rw [popCount_masked hok hb, popCount_masked hok hb, hhigh] at hparity
  have hbit : o / 2 ^ (6 + b) % 2 = o' / 2 ^ (6 + b) % 2 := by omega
  rw [Nat.testBit_eq_decide_div_mod_eq, hbit, ← Nat.testBit_eq_decide_div_mod_eq]

/-- Lines of one bank at one place in it are one line. -/
theorem bankOf_inj (h : masksOk (ms.map (·.toNat)) = true) (ho : o % 64 = 0) (ho' : o' % 64 = 0) (hbank : bankOf ms o = bankOf ms o')
    (hhigh : o / 2 ^ 11 = o' / 2 ^ 11) : o = o' := by
  refine Nat.eq_of_testBit_eq fun i => ?_
  rcases Nat.lt_or_ge i 6 with h6 | h6
  · rw [testBit_below (k := 6) ho h6, testBit_below (k := 6) ho' h6]
  rcases Nat.lt_or_ge i 11 with h11 | h11
  · obtain ⟨b, rfl⟩ := Nat.exists_eq_add_of_le h6
    exact testBit_of_bankOf_eq h hbank hhigh (by omega)
  · obtain ⟨j, rfl⟩ := Nat.exists_eq_add_of_le' h11
    rw [← Nat.testBit_div_two_pow, ← Nat.testBit_div_two_pow, hhigh]

/-- Masks that take one bit each choose the bank by bits 6 to 10. -/
theorem bankOf_plain (o : Nat) : bankOf [0x40, 0x80, 0x100, 0x200, 0x400] o = o / 64 % 32 := by
  have hbit (b : Nat) (m : BitVec 32) (hok : maskOk b m.toNat = true) (hb : b < 5) (hm : m.toNat / 2 ^ 11 = 0) :
      popCount 32 (o &&& m.toNat) = o / 2 ^ (6 + b) % 2 := by
    rw [popCount_masked hok hb, hm, Nat.and_zero]
    rfl
  simp only [bankOf, List.map_cons, List.map_nil, joinLanes, Nat.reduceAdd, Nat.reducePow, hbit 0 0x40 (by decide) (by decide) (by decide),
    hbit 1 0x80 (by decide) (by decide) (by decide), hbit 2 0x100 (by decide) (by decide) (by decide),
    hbit 3 0x200 (by decide) (by decide) (by decide), hbit 4 0x400 (by decide) (by decide) (by decide)]
  omega

end

end Sys2Proof.Laws
end

section
/-!
SUPPORT. What the operations of a scratchpad element leave as it is: the plots and the line accesses that stand when an acknowledgement is reserved or settled
(spec 13 R215, R216), and the store that a level-2 tile names (11 R188); and the accesses that a run of offers adds (11 R191).
-/

namespace Sys2Proof.Laws

open Machine Say

/-! ### Results and acknowledgements -/

@[simp] theorem postResult_plots (s : State) (rid : Nat) (tok : Token) : (postResult s rid tok).plots = s.plots := by unfold postResult; split <;> rfl
@[simp] theorem postResult_lines (s : State) (rid : Nat) (tok : Token) : (postResult s rid tok).lines = s.lines := by unfold postResult; split <;> rfl
@[simp] theorem dropRid_plots (s : State) (rid : Nat) : (dropRid s rid).plots = s.plots := by unfold dropRid; split <;> rfl
@[simp] theorem dropRid_lines (s : State) (rid : Nat) : (dropRid s rid).lines = s.lines := by unfold dropRid; split <;> rfl
@[simp] theorem modAck_plots (s : State) (l : Loc) (op : Nat) (f : SpadAck → SpadAck) : (modAck s l op f).plots = s.plots := rfl

@[simp] theorem settleAck_plots (s : State) (l : Loc) (op : Nat) : (settleAck s l op).plots = s.plots := by
  unfold settleAck
  split <;> simp [apply_ite State.plots]

@[simp] theorem settleAck_lines (s : State) (l : Loc) (op : Nat) : (settleAck s l op).lines = s.lines := by
  unfold settleAck
  split <;> simp [apply_ite State.lines]

@[simp] theorem wroteLine_plots (s : State) (x : LineReq) : (wroteLine s x).plots = s.plots := by simp [wroteLine]

theorem getPlot_congr {s t : State} (h : t.plots = s.plots) (n : Nat) : getPlot t n = getPlot s n := by
  rw [getPlot, getPlot, h]

/-! ### Reserving an entry -/

theorem lines_of_flows {s t : State} (h : Flows s t) : t.lines = s.lines := by rw [h.rest]

theorem parcel_of_flows {s t : State} (h : Flows s t) (n : Nat) : (getPlot t n).parcel = (getPlot s n).parcel :=
  (congrArg Plot.parcel (h.plot n : { getPlot t n with trace := (getPlot s n).trace, active := (getPlot s n).active } = getPlot s n) :)

theorem neighbour_congr {s t : State} (hplot : ∀ n, (getPlot t n).parcel = (getPlot s n).parcel) (hparcels : t.parcels = s.parcels) (plot : Nat)
    (dx dy : Int) : neighbour t plot dx dy = neighbour s plot dx dy := by
  unfold neighbour getParcel
  rw [hplot, hparcels]

theorem storeOf_congr {s t : State} (hplot : ∀ n, (getPlot t n).parcel = (getPlot s n).parcel) (hparcels : t.parcels = s.parcels) (plot : Nat)
    (x : Tile) : storeOf t plot x = storeOf s plot x := by
  simp only [storeOf, neighbour_congr hplot hparcels]

@[simp] theorem pushOut_parcels (s : State) (l : Loc) (n : Fin 4) (x : Entry) : (pushOut s l n x).parcels = s.parcels := by
  unfold pushOut
  simp only
  split
  · rfl
  · split
    · rfl
    · split <;> rfl

@[simp] theorem pushOut_lines (s : State) (l : Loc) (n : Fin 4) (x : Entry) : (pushOut s l n x).lines = s.lines := lines_of_flows (flows_pushOut s l n x)

@[simp] theorem storeOf_pushOut (s : State) (l : Loc) (n : Fin 4) (x : Entry) (plot : Nat) (t : Tile) : storeOf (pushOut s l n x) plot t = storeOf s plot t :=
  storeOf_congr (parcel_of_flows (flows_pushOut s l n x)) (pushOut_parcels ..) plot t

/-- An acknowledgement that is not joined reserves its entries, and nothing besides. -/
theorem reserveAck_keeps {β : Type} (g : State → β) (hbump : ∀ s, g (bumpId s) = g s) (hpush : ∀ s l n x, g (pushOut s l n x) = g s) (s : State) (l : Loc)
    (dst : Dst) : g (reserveAck s l dst false).1 = g s := by
  unfold reserveAck
  split
  · rfl
  · exact (foldl_keeps g (fun s o => hpush s l o _) _ _).trans (hbump s)

@[simp] theorem reserveAck_lines (s : State) (l : Loc) (dst : Dst) : (reserveAck s l dst false).1.lines = s.lines :=
  reserveAck_keeps State.lines (fun _ => rfl) pushOut_lines s l dst

@[simp] theorem storeOf_reserveAck (s : State) (l : Loc) (dst : Dst) (plot : Nat) (t : Tile) :
    storeOf (reserveAck s l dst false).1 plot t = storeOf s plot t :=
  reserveAck_keeps (storeOf · plot t) (fun _ => rfl) (fun s l n x => storeOf_pushOut s l n x plot t) s l dst

/-! ### A run of offers -/

/-- Accesses of an element to the first n lines of a tile, one for each. -/
structure OffersFor (s : State) (l : Loc) (t : Tile) (act : Nat → LineAct) (n : Nat) (xs : List LineReq) : Prop where
  count : xs.length = n
  each : ∀ k y, xs[k]? = some y → y.plot = storeOf s l.plot t ∧ y.off = t.base + 64 * k ∧ y.act = act k ∧ y.from_ = l

theorem storeOf_offerLine (s : State) (l : Loc) (t : Tile) (h off op : Nat) (act : LineAct) (plot : Nat) (u : Tile) :
    storeOf (offerLine s l t h off op act) plot u = storeOf s plot u := rfl

/-- Offering the first n lines of a tile in order adds an access for each. -/
theorem exists_offers (l : Loc) (t : Tile) (h op : Nat) (act : Nat → LineAct) (n : Nat) (s : State) :
    ∃ xs, ((List.range n).foldl (fun s k => offerLine s l t h (64 * k) op (act k)) s).lines = s.lines ++ xs ∧ OffersFor s l t act n xs := by
  induction n with
  | zero => exact ⟨[], (List.append_nil _).symm, rfl, fun k y hy => by simp at hy⟩
  | succ n ih =>
    obtain ⟨xs, hlines, hcount, heach⟩ := ih
    have hstore : storeOf ((List.range n).foldl (fun s k => offerLine s l t h (64 * k) op (act k)) s) l.plot t = storeOf s l.plot t :=
      foldl_keeps (storeOf · l.plot t) (fun s k => storeOf_offerLine ..) _ s
    rw [List.range_succ, List.foldl_append, List.foldl_cons, List.foldl_nil]
    refine ⟨_, (congrArg (· ++ _) hlines).trans (List.append_assoc ..), by rw [List.length_append, hcount, List.length_singleton], fun k y hy => ?_⟩
    rcases Nat.lt_or_ge k xs.length with hk | hk
    · exact heach k y (by rwa [List.getElem?_append_left hk] at hy)
    · rw [List.getElem?_append_right hk, List.getElem?_singleton] at hy
      split at hy
      · next hzero =>
        obtain rfl : k = n := by omega
        obtain rfl := Option.some.inj hy
        exact ⟨hstore, rfl, rfl, rfl⟩
      · cases hy

/-- An operation over n lines of a tile offers an access for each. -/
theorem exists_startLines (dst : Dst) (x : BeatIn) (h : Nat) (target : Tile) (n : Nat) (direct : Bool) (t : Tile) (h' : Nat) (act : Nat → LineAct) (s : State) :
    ∃ xs, (startLines dst x h target n direct (fun s op k => offerLine s x.l t h' (64 * k) op (act k)) s).lines = s.lines ++ xs ∧
      OffersFor s x.l t act n xs := by
  unfold startLines
  simp only [settleAck_lines]
  obtain ⟨xs, hlines, hcount, heach⟩ := exists_offers x.l t h' (freshId (reserveAck s x.l dst false).1) act n _
  refine ⟨xs, hlines.trans (congrArg (· ++ xs) (reserveAck_lines s x.l dst)), hcount, fun k y hy => ?_⟩
  obtain ⟨hplot, hrest⟩ := heach k y hy
  exact ⟨hplot.trans (storeOf_reserveAck s x.l dst x.l.plot t), hrest⟩

end Sys2Proof.Laws
end

section
/-!
PROOF. Storage placement, the hash of banks, and the starts of tile streams, fills and copies (spec 11 R188, R190; 13 R218 to R223); from these lemmas the
obligation TileOperations.
-/

namespace Sys2Proof.Proofs

open Machine Laws Say

/-! ### Placement -/

section
variable {s : State} {plot n b : Nat}

theorem laidFrom_usedRuns (hapart : (usedRuns s plot).Pairwise fun p q => p.1 + p.2 ≤ q.1) (hwithin : ∀ r ∈ usedRuns s plot, r.1 + r.2 ≤ storeBytes) :
    LaidFrom 0 (usedRuns s plot) := ⟨hapart, hwithin, fun _ _ => Nat.zero_le _, Nat.zero_le _⟩

theorem findRun_low (h : findRun s plot n false = some b) : ∃ g, (fitting n (usedRuns s plot)).head? = some g ∧ g.1 = b := Option.map_eq_some_iff.1 h

theorem findRun_high (h : findRun s plot n true = some b) : ∃ g, (fitting n (usedRuns s plot)).getLast? = some g ∧ g.2 - n = b :=
  Option.map_eq_some_iff.1 h

end

/-! ### Streams -/

section
variable {i : Instr} {r : RAct} {ack both : Bool} {ready : State → Loc → Bool} {ok : Tile → Bool} {range : BeatIn → Option Word} {x : BeatIn} {f : Ref}
  {t : Tile} {w : Word}

/-- A stream on a tile that its instruction does not take is refused. -/
theorem op_specSpad_refused (h : ∀ f t, useRef x.s x.l.plot x.a.toWord = some (f, t) → ok t = false) :
    (specSpad i r ack both ready ok range).op x = badOperand x.a.toWord := by
  cases href : useRef x.s x.l.plot x.a.toWord with
  | none => simp only [specSpad, href]
  | some ft =>
    obtain ⟨f, t⟩ := ft
    simp only [specSpad, href, h f t href, Bool.not_false, if_true]

/-- A stream without a range starts on its tile. -/
theorem op_specSpad_whole (href : useRef x.s x.l.plot x.a.toWord = some (f, t)) (hok : ok t = true) (hrange : range x = none) :
    (specSpad i r ack both ready ok range).op x = .ok { post := startSpad i r.dst ack x f t none } := by
  simp only [specSpad, href, hok, hrange, Bool.not_true, Bool.false_eq_true, if_false]

/-- A stream with a range starts where the tile admits it. -/
theorem op_specSpad_range (href : useRef x.s x.l.plot x.a.toWord = some (f, t)) (hok : ok t = true) (hrange : range x = some w) (hw : rangeOk t w = true) :
    (specSpad i r ack both ready ok range).op x = .ok { post := startSpad i r.dst ack x f t (some w) } := by
  simp only [specSpad, href, hok, hrange, hw, Bool.not_true, Bool.false_eq_true, if_false, if_true]

theorem op_specSpad_outside (href : useRef x.s x.l.plot x.a.toWord = some (f, t)) (hok : ok t = true) (hrange : range x = some w) (hw : rangeOk t w = false) :
    (specSpad i r ack both ready ok range).op x = badOperand w := by
  simp only [specSpad, href, hok, hrange, hw, Bool.not_true, Bool.false_eq_true, if_false]

theorem accFmt_eq_false {n : Nat} (h : n ∉ ([0, 1, 9, 10] : List Nat)) : accFmt n = false := by
  simp only [List.mem_cons, List.not_mem_nil, or_false, not_or] at h
  obtain ⟨h0, h1, h9, h10⟩ := h
  simp [accFmt, h0, h1, h9, h10]

end

/-! ### Fills and copies -/

section
variable {r : RAct} {x : BeatIn} {f g : Ref} {t u : Tile}

theorem op_specTileFil (h : useRef x.s x.l.plot x.a.toWord = some (f, t)) : (specTileFil r).op x = .ok { post := fillEffect r.dst x f t } := by
  simp only [specTileFil, h]

theorem op_specTileFil_none (h : useRef x.s x.l.plot x.a.toWord = none) : (specTileFil r).op x = badOperand x.a.toWord := by
  simp only [specTileFil, h]

theorem op_specTileCpy (h : useRef x.s x.l.plot x.a.toWord = some (f, t)) (hb : useRef x.s x.l.plot x.b.toWord = some (g, u)) (hlevel : t.level ≠ 0)
    (hsize : tileData t = tileData u) : (specTileCpy r).op x = .ok { post := copyEffect r.dst x f t g u } := by
  simp only [specTileCpy, h, hb, if_neg hlevel, hsize, ne_eq, not_true_eq_false, if_false]

theorem op_specTileCpy_noSource (h : useRef x.s x.l.plot x.a.toWord = none) : (specTileCpy r).op x = badOperand x.a.toWord := by
  simp only [specTileCpy, h]

theorem op_specTileCpy_level (h : useRef x.s x.l.plot x.a.toWord = some (f, t)) (hb : useRef x.s x.l.plot x.b.toWord = some (g, u)) (hlevel : t.level = 0) :
    (specTileCpy r).op x = badOperand x.a.toWord := by
  simp only [specTileCpy, h, hb, if_pos hlevel]

theorem op_specTileCpy_noTarget (h : useRef x.s x.l.plot x.a.toWord = some (f, t)) (hb : useRef x.s x.l.plot x.b.toWord = none) :
    (specTileCpy r).op x = badOperand x.b.toWord := by
  simp only [specTileCpy, h, hb]

theorem op_specTileCpy_size (h : useRef x.s x.l.plot x.a.toWord = some (f, t)) (hb : useRef x.s x.l.plot x.b.toWord = some (g, u)) (hlevel : t.level ≠ 0)
    (hsize : tileData t ≠ tileData u) : (specTileCpy r).op x = badOperand x.b.toWord := by
  simp only [specTileCpy, h, hb, if_neg hlevel, if_pos hsize]

/-- A copy without a source, or from a level-0 tile to some target, names the word of sa. -/
theorem op_specTileCpy_badSource (h : ∀ f t, useRef x.s x.l.plot x.a.toWord = some (f, t) → t.level = 0 ∧ (useRef x.s x.l.plot x.b.toWord).isSome = true) :
    (specTileCpy r).op x = badOperand x.a.toWord := by
  cases hsource : useRef x.s x.l.plot x.a.toWord with
  | none => exact op_specTileCpy_noSource hsource
  | some ft =>
    obtain ⟨hlevel, hb⟩ := h ft.1 ft.2 hsource
    obtain ⟨gu, hb⟩ := Option.isSome_iff_exists.1 hb
    exact op_specTileCpy_level hsource hb hlevel

/-- A copy without a target, or to one of another size, names the word of sb. -/
theorem op_specTileCpy_badTarget (h : useRef x.s x.l.plot x.a.toWord = some (f, t)) (hbad : useRef x.s x.l.plot x.b.toWord = none ∨
    t.level ≠ 0 ∧ ∀ g u, useRef x.s x.l.plot x.b.toWord = some (g, u) → tileData t ≠ tileData u) : (specTileCpy r).op x = badOperand x.b.toWord := by
  cases hb : useRef x.s x.l.plot x.b.toWord with
  | none => exact op_specTileCpy_noTarget h hb
  | some gu =>
    rcases hbad with hnone | ⟨hlevel, hsize⟩
    · rw [hb] at hnone
      cases hnone
    · exact op_specTileCpy_size h hb hlevel (hsize gu.1 gu.2 hb)

variable (x f) in
/-- A fill of a tile in a store offers a write of each of its lines. -/
theorem fillEffect_offers (dst : Dst) (s : State) (hlevel : t.level ≠ 0) : ∃ xs, (fillEffect dst x f t s).lines = s.lines ++ xs ∧
    OffersFor s x.l t (fun _ => .write (splat x.b.toWord)) (tileData t / 64) xs := by
  simp only [fillEffect, hlevel, if_false]
  exact exists_startLines ..

variable (x t u) in
theorem copyEffect_offers (dst : Dst) (s : State) (h : f.handle ≠ g.handle) : ∃ xs, (copyEffect dst x f t g u s).lines = s.lines ++ xs ∧
    OffersFor s x.l t .copy (copyLines t u) xs := by
  rw [copyEffect, if_neg h]
  exact exists_startLines ..

variable (x t u) in
theorem copyEffect_self (dst : Dst) (s : State) (h : f.handle = g.handle) : (copyEffect dst x f t g u s).lines = s.lines := by
  rw [copyEffect, if_pos h]
  exact (postResult_lines ..).trans (reserveAck_lines ..)

end

/-- Settles O25: a free run is one that fits in a gap; bits 6 to 10 of a line are what its bank adds to the bits above; each start is the outcome of its
operation above. -/
theorem tileOperations : Obligations.TileOperations := by
  unfold Obligations.TileOperations
  refine ⟨?low, ?high, ?lines, ?plain, ?rd, ?rdRange, ?rdOutside, ?wr, ?gat, ?sct, ?acc, ?fil, ?cpy, ?rdRefused, ?wrRefused, ?gatRefused, ?sctRefused,
    ?accRefused, ?filRefused, ?cpySource, ?cpyTarget, ?fills, ?copies, ?copiesSelf⟩
  case low =>
    intro s plot n b _ hapart hwithin hrun
    obtain ⟨g, hg, rfl⟩ := findRun_low hrun
    exact head_fitting_lowest (laidFrom_usedRuns hapart hwithin) hg
  case high =>
    intro s plot n b _ hapart hwithin hrun
    obtain ⟨g, hg, rfl⟩ := findRun_high hrun
    exact last_fitting_highest (laidFrom_usedRuns hapart hwithin) hg
  case lines => exact fun ms o o' hok _ _ ho ho' hbank hhigh => bankOf_inj hok ho ho' hbank hhigh
  case plain => exact fun o _ => bankOf_plain o
  case rd =>
    exact fun r s x f t h href hlevel hsb => commits_of (op := (specTileRd r).op) rfl h (op_specSpad_whole href (bne_iff_ne.2 hlevel) (by rw [hsb]; rfl)) rfl
  case rdRange =>
    exact fun r s x f t n h href hlevel hsb hw => commits_of (op := (specTileRd r).op) rfl h (op_specSpad_range href (bne_iff_ne.2 hlevel) (by rw [hsb]; rfl) hw) rfl
  case rdOutside =>
    exact fun r s x f t n h href hlevel hsb hw => held_of (op := (specTileRd r).op) rfl h (op_specSpad_outside href (bne_iff_ne.2 hlevel) (by rw [hsb]; rfl) hw)
  case wr => exact fun r s x f t h href => commits_of (op := (specTileWr r).op) rfl h (op_specSpad_whole href rfl rfl) rfl
  case gat => exact fun r s x f t h href hlevel => commits_of rfl h (op_specSpad_whole href (bne_iff_ne.2 hlevel) rfl) rfl
  case sct => exact fun r s x f t h href => commits_of (op := (specTileSct r).op) rfl h (op_specSpad_whole href rfl rfl) rfl
  case acc =>
    exact fun r fcs s x f t h href hlevel hfmt =>
      commits_of (op := (specTileAcc r fcs).op) rfl h (op_specSpad_whole href (Bool.and_eq_true_iff.2 ⟨bne_iff_ne.2 hlevel, hfmt⟩) rfl) rfl
  case fil => exact fun r s x f t h href => commits_of rfl h (op_specTileFil href) rfl
  case cpy =>
    intro r s x f t g u h hsource htarget hlevel hsize
    rw [← (beatIn_reads h.reads).1] at htarget
    exact commits_of rfl h (op_specTileCpy hsource htarget hlevel hsize) rfl
  case rdRefused => exact fun r s x h hbad => held_of (op := (specTileRd r).op) rfl h (op_specSpad_refused fun f t href => bne_eq_false_iff_eq.2 (hbad f t href))
  case wrRefused => exact fun r s x h hnone => held_of (op := (specTileWr r).op) rfl h (op_specSpad_refused fun f t href => nomatch hnone.symm.trans href)
  case gatRefused => exact fun r s x h hbad => held_of rfl h (op_specSpad_refused fun f t href => bne_eq_false_iff_eq.2 (hbad f t href))
  case sctRefused => exact fun r s x h hnone => held_of (op := (specTileSct r).op) rfl h (op_specSpad_refused fun f t href => nomatch hnone.symm.trans href)
  case accRefused =>
    refine fun r fcs s x h hbad => held_of (op := (specTileAcc r fcs).op) rfl h (op_specSpad_refused fun f t href => Bool.and_eq_false_iff.2 ?_)
    exact (hbad f t href).imp bne_eq_false_iff_eq.2 accFmt_eq_false
  case filRefused => exact fun r s x h hnone => held_of rfl h (op_specTileFil_none hnone)
  case cpySource => exact fun r s x h hbad => held_of rfl h (op_specTileCpy_badSource hbad)
  case cpyTarget => exact fun r s x h ⟨f, t, hsource, hbad⟩ => held_of rfl h (op_specTileCpy_badTarget hsource hbad)
  case fills =>
    intro d x f t s hlevel
    obtain ⟨xs, hlines, hoffers⟩ := fillEffect_offers x f d s hlevel
    exact ⟨xs, hlines, hoffers.count, hoffers.each⟩
  case copies =>
    intro d x f t g u s hne
    obtain ⟨xs, hlines, hoffers⟩ := copyEffect_offers x t u d s hne
    exact ⟨xs, hlines, hoffers.count, hoffers.each⟩
  case copiesSelf => exact fun d x f t g u s heq => copyEffect_self x t u d s heq

end Sys2Proof.Proofs
end

section
/-!
PROOF. What a bank does in a cycle without new accesses, what a granted write and addition leave in the store, and how a firing in progress goes on (spec 11 R189,
R191; 08 R136; 13 R215, R218 to R221); from these lemmas the obligation BankAndFiringSteps.
-/

namespace Sys2Proof.Proofs

open Machine Laws Say

/-! ### A bank's grant -/

section
variable {s : State} {plot bank id : Nat} {rest : List Nat} {x : LineReq}

/-- A bank after a grant: the others still wait, and each is one conflict (spec 11 R189). -/
def granted (b : Bank) (rest : List Nat) : Bank := { b with wait := rest, conflicts := min (b.conflicts + rest.length) 0xFFFFFFFF }

/-- A port of a bank whose accesses are all admitted takes in none. -/
theorem admitPort_idle (h : ∀ y ∈ bankLines s plot bank, y.admitted = true) (port : Nat) : admitPort plot bank s port = s := by
  have hnone : (bankLines s plot bank).find? (fun y => !y.admitted && y.port == port && !behindHeld s y) = none :=
    List.find?_eq_none.2 fun y hy => by simp [h y hy]
  simp only [admitPort, hnone]

theorem lineFails_modBank (s : State) (plot bank : Nat) (f : Bank → Bank) (x : LineReq) : lineFails (modBank s plot bank f) x = lineFails s x := by
  have hpoison : (getPlot (modBank s plot bank f) x.plot).poison = (getPlot s x.plot).poison := by
    by_cases h : x.plot = plot
    · rw [modBank, h, getPlot_modPlot_same]
    · rw [modBank, getPlot_modPlot_other s _ h]
  rw [lineFails, lineFails, hpoison]

/-- A bank whose accesses are all admitted grants its oldest one, which is held or performed. -/
theorem bankStep_grants (hwait : (Tbl.findD (getPlot s plot).banks bank {}).wait = id :: rest) (hidle : ∀ y ∈ bankLines s plot bank, y.admitted = true)
    (hfind : s.lines.find? (fun y => y.id == id) = some x) : bankStep s plot bank =
      let t := modBank s plot bank fun _ => granted (Tbl.findD (getPlot s plot).banks bank {}) rest
      if lineFails s x then faultLine t bank x
      else performLine (addInfl { t with lines := s.lines.filter fun y => y.id != id } x.hplot x.handle false) x := by
  have hadmit : (portsFrom (Tbl.findD (getPlot s plot).banks bank {}).ptr).foldl (admitPort plot bank) s = s :=
    foldl_unchanged fun port _ => admitPort_idle hidle port
  have hlines (f : Bank → Bank) : (modBank s plot bank f).lines = s.lines := rfl
  simp only [bankStep, hadmit, hwait, hlines, hfind, lineFails_modBank]
  rfl

end

/-! ### What a granted access leaves in the store -/

section
variable {s : State} {x : LineReq} {v : Beat} {fmt : Nat} {fcs : Fcs}

theorem store_wroteLine (s : State) (x : LineReq) (n : Nat) : (getPlot (wroteLine s x) n).store = (getPlot s n).store :=
  congrArg Plot.store (getPlot_congr (wroteLine_plots s x) n)

theorem store_storeWrite (s : State) (plot off : Nat) (bs : List Byte) :
    (getPlot (storeWrite s plot off bs) plot).store = writeBytes (getPlot s plot).store off bs := by
  rw [storeWrite, getPlot_modPlot_same]

theorem store_performLine_write (h : x.act = .write v) :
    (getPlot (performLine s x) x.plot).store = writeBytes (getPlot s x.plot).store x.off (bytesOf 64 v.toNat) := by
  simp only [performLine, h, store_wroteLine, store_storeWrite]

theorem store_performLine_acc (h : x.act = .acc fmt fcs v) (hsub : x.sub = none) : (getPlot (performLine s x) x.plot).store =
    writeBytes (getPlot s x.plot).store x.off (bytesOf 64 (accLine fmt fcs (readNum (getPlot s x.plot).store x.off 64) v.toNat).1) := by
  simp only [performLine, h, hsub, store_wroteLine]
  exact store_storeWrite ..

end

/-! ### A firing that goes on -/

section
variable {s : State} {l : Loc} {o : SpadOp} {r : RAct} {sb : Src} {k : Token}

theorem present_of_hasRedo (h : hasRedo s l = true) : (Machine.getElem s l).present = true := by
  simp only [hasRedo, elemRuns, elemLives, Bool.and_eq_true] at h
  simp only [h]

/-- A streaming instruction in progress takes its next step. -/
theorem firingBeat_streams (h : hasRedo s l = true) (hop : (getSe s l).op = some o) : exec (.firingBeat l) s = .next (spadStep s l) := by
  change execFiringBeat l s = _
  simp [execFiringBeat, present_of_hasRedo h, h, hop]

/-- A firing without a unit and without a repair goes on with the beat that `pix` names. -/
theorem firingBeat_slot {x : Slot} {sp : FireSpec} (h : hasRedo s l = true) (hse : (getSe s l).op = none) (hme : (getMe s l).op = none)
    (hredo : (Machine.getElem s l).redo = []) (hslot : slotOf (Machine.getElem s l) l.plot (pixSlot (Machine.getElem s l).pix) = some x)
    (hspec : specOf x.act = some sp) : exec (.firingBeat l) s = runBeat sp (modSched s fun c =>
      { c with cur := { l := l, slot := pixSlot (Machine.getElem s l).pix, beats := x.trig.w.beats, beat := pixBeat (Machine.getElem s l).pix } }) := by
  have hnext : nextRedo (Machine.getElem s l) = none := by simp [nextRedo, hredo]
  change execFiringBeat l s = _
  simp [execFiringBeat, present_of_hasRedo h, h, hse, hme, hnext, hslot, runSlotBeat, hspec]

/-- What one more beat leaves depends on what it makes of the operation as it stands. -/
theorem spadBeat_congr {f g : SpadOp → SpadOp} (h : f { o with pos := o.pos + 1 } = g { o with pos := o.pos + 1 }) :
    spadBeat s l o f = spadBeat s l o g := by
  rw [spadBeat, spadBeat, h]

theorem streamHead_of_shows (h : Shows s l sb k) : streamHead s l (chanOf sb) = some k := by
  obtain ⟨hhead, htag⟩ := h
  simp [streamHead, hhead, htag]

theorem blocked_of_lineFree (h : LineFree s l o) : (!lineReady s l o.handle || offering s l o.op) = false := by
  obtain ⟨hready, hoffering⟩ := h
  simp [hready, hoffering]

/-! ### The step of each stream -/

theorem firingBeat_rd (h : hasRedo s l = true) (hop : (getSe s l).op = some o) (hheld : o.held = false) (hi : o.i = .tileRd r) :
    exec (.firingBeat l) s = .next (rdStep s l o) := by
  rw [firingBeat_streams h hop]
  simp [spadStep, hop, hheld, hi]

theorem firingBeat_wr (h : Spad s l o) (hi : o.i = .tileWr r) : exec (.firingBeat l) s = .next (wrStep s l o r.sb) := by
  rw [firingBeat_streams h.goes h.op]
  simp [spadStep, h.op, h.free, hi]

theorem firingBeat_gat (h : Spad s l o) (hi : o.i = .tileGat r) : exec (.firingBeat l) s = .next (gatStep s l o r.sb) := by
  rw [firingBeat_streams h.goes h.op]
  simp [spadStep, h.op, h.free, hi]

/-- What a row stream with or without float control does with a line. -/
def actOf (fmt : Nat) (fcs : Option Fcs) (k : Token) : LineAct := fcs.elim (.write k.val) fun f => .acc fmt f k.val

theorem firingBeat_rows (h : Spad s l o) (hi : RowStream o sb) :
    ∃ fcs, exec (.firingBeat l) s = .next (rowsStep s l o sb fcs) ∧ ∀ k, rowAct o k = actOf o.tile.fmt fcs k := by
  rw [firingBeat_streams h.goes h.op]
  rcases hi with ⟨r, hi, rfl⟩ | ⟨r, fcs, hi, rfl⟩
  · exact ⟨none, by simp [spadStep, h.op, h.free, hi], fun k => by simp [rowAct, hi, actOf]⟩
  · exact ⟨some fcs, by simp [spadStep, h.op, h.free, hi], fun k => by simp [rowAct, hi, actOf]⟩

/-! ### `tile.rd` -/

theorem rdStep_header (hroom : outFree s l (wideDst o.i) ≠ 0) (hpos : o.pos = 0) (hfmt : o.tile.fmt ≠ 8) : rdStep s l o =
    spadBeat (enqueue s l (wideDst o.i) { tag := .hdr, val := BitVec.ofNat 512 (packetHdr o.tile o.handle (rangeOf o.tile o.range)) }) l o id := by
  simp only [rdStep, if_neg hroom, hpos, hfmt, ne_eq, not_false_eq_true, and_self, if_true]

theorem rdStep_last (hroom : outFree s l (wideDst o.i) ≠ 0)
    (hpos : o.pos = 1 + packetScb o.tile.fmt ((rangeOf o.tile o.range).nr + 1) (((rangeOf o.tile o.range).nc + 1) * 64) +
      ((rangeOf o.tile o.range).nr + 1) * ((rangeOf o.tile o.range).nc + 1)) :
    rdStep s l o = endSpad (enqueue s l (wideDst o.i) { tag := .last, val := 0 }) l o := by
  have hlater : ¬(o.pos = 0 ∧ o.tile.fmt ≠ 8) := fun h => by omega
  simp only [rdStep, if_neg hroom, if_neg hlater, if_pos hpos]

/-! ### `tile.wr` -/

section
variable (hhead : streamHead s l (chanOf sb) = some k) (hdrain : o.drain = false)
include hhead hdrain

theorem wrStep_header (hpos : o.pos = 0) (htag : k.tag = .hdr) (hfits : hdrFits o.tile k.val.toNat = true) (hfmt : o.tile.fmt ≠ 8) :
    wrStep s l o sb =
      spadBeat (modAck (dequeue s l (chanOf sb)) l o.op fun a => { a with hdr := some k.val }) l o fun o => { o with hdr := k.val } := by
  simp [wrStep, hhead, hdrain, hpos, htag, hfits, hfmt]

theorem wrStep_badHeader (hpos : o.pos = 0) (hbad : k.tag ≠ .hdr ∨ hdrFits o.tile k.val.toNat = false) :
    wrStep s l o sb = faultSpad s l o .format k.val.toWord := by
  have hrefused : ¬(k.tag = .hdr ∧ hdrFits o.tile k.val.toNat = true) := fun ⟨htag, hfits⟩ => by simp [htag, hfits] at hbad
  simp [wrStep, hhead, hdrain, hpos, hrefused]

theorem wrStep_line (hfirst : 0 < o.pos) (hlast : o.pos ≤ packetBeats o.hdr.toNat) (htag : k.tag = .data) (hfree : LineFree s l o) :
    wrStep s l o sb =
      spadBeat (writeLine (dequeue s l (chanOf sb)) l o.tile o.handle (packetOff o.tile o.hdr.toNat (o.pos - 1)) o.op (.write k.val)) l o id := by
  have hmore : ¬o.pos - 1 = bitsOf o.hdr.toNat 31 24 + (bitsOf o.hdr.toNat 15 8 + 1) * (bitsOf o.hdr.toNat 21 16 + 1) := by
    unfold packetBeats at hlast
    omega
  simp only [wrStep, hhead, hdrain, Bool.false_eq_true, if_false, if_neg (Nat.ne_of_gt hfirst), if_neg hmore, htag, ne_eq, not_true_eq_false,
    blocked_of_lineFree hfree, and_false]
  rfl

theorem wrStep_last (hpos : o.pos = packetBeats o.hdr.toNat + 1) (htag : k.tag = .last) : wrStep s l o sb = endSpad (dequeue s l (chanOf sb)) l o := by
  have hend : o.pos - 1 = bitsOf o.hdr.toNat 31 24 + (bitsOf o.hdr.toNat 15 8 + 1) * (bitsOf o.hdr.toNat 21 16 + 1) := by
    rw [hpos, Nat.add_sub_cancel, packetBeats]
  simp only [wrStep, hhead, hdrain, Bool.false_eq_true, if_false, if_neg (hpos ▸ Nat.succ_ne_zero _ : o.pos ≠ 0), if_pos hend, if_pos htag]

end

/-! ### `tile.gat` -/

section
variable (hhead : streamHead s l (chanOf sb) = some k) (hdrain : o.drain = false) (hrow : o.row = none) (hroom : outFree s l (wideDst o.i) ≠ 0)
include hhead hdrain hrow hroom

theorem gatStep_last (htag : k.tag = .last) :
    gatStep s l o sb = endSpad (enqueue (dequeue s l (chanOf sb)) l (wideDst o.i) { tag := .last, val := 0 }) l o := by
  simp [gatStep, hhead, hdrain, hrow, hroom, htag]

/-- An index sends the first line of its row, and the row goes on where it has another. -/
theorem gatStep_index (htag : k.tag = .data ∨ k.tag = .mark ∨ k.tag = .alt) (hindex : k.val.toWord.toNat < min 65536 o.tile.rows) (hfree : LineFree s l o)
    (hmore : o.tile.rb ≠ 64) (hgiven : o.given = none) : gatStep s l o sb =
      spadBeat (sendParts (dequeue s l (chanOf sb)) l o (wideDst o.i) .data 0 [(k.val.toWord.toNat * o.tile.rb, 0, 64, 0)]) l o
        fun o => { o with row := some k.val.toWord.toNat, col := 1, given := none } := by
  have hnotLast : k.tag ≠ .last := by rcases htag with h | h | h <;> simp [h]
  have htaken : (k.tag = .data ∨ k.tag = .mark ∨ k.tag = .alt) ∧ k.val.toWord.toNat < min 65536 o.tile.rows := ⟨htag, hindex⟩
  simp only [gatStep, hhead, hdrain, hrow, if_neg hroom, Bool.false_eq_true, if_false, hgiven, Option.getD_none, if_neg hnotLast, if_pos htaken,
    blocked_of_lineFree hfree]
  exact spadBeat_congr (if_neg fun h => hmore h.symm)

end

/-! ### `tile.sct` and `tile.acc` -/

section
variable (fcs : Option Fcs) (hhead : streamHead s l (chanOf sb) = some k) (hdrain : o.drain = false)
include hhead hdrain

theorem rowsStep_last (hrow : o.row = none) (htag : k.tag = .last) : rowsStep s l o sb fcs = endSpad (dequeue s l (chanOf sb)) l o := by
  simp [rowsStep, hhead, hdrain, hrow, htag]

theorem rowsStep_mark (hrow : o.row = none) (htag : k.tag = .mark) (hindex : k.val.toNat % 65536 < o.tile.rows) : rowsStep s l o sb fcs =
    spadBeat (dequeue s l (chanOf sb)) l o fun o => { o with row := some (k.val.toNat % 65536), col := 0 } := by
  simp [rowsStep, hhead, hdrain, hrow, htag, hindex]

/-- A DATA gives the row its next line, and ends the row where that is its last one. -/
theorem rowsStep_data {n : Nat} (hrow : o.row = some n) (htag : k.tag = .data) (hfree : LineFree s l o) : rowsStep s l o sb fcs =
    spadBeat (writeLine (dequeue s l (chanOf sb)) l o.tile o.handle (n * o.tile.rb + 64 * o.col) o.op (actOf o.tile.fmt fcs k)) l o fun o =>
      if (o.col + 1) * 64 = o.tile.rb then { o with row := none, col := 0 } else { o with col := o.col + 1 } := by
  simp only [rowsStep, hhead, hdrain, hrow, Bool.false_eq_true, if_false, htag, ne_eq, not_true_eq_false, blocked_of_lineFree hfree, and_false]
  cases fcs <;> exact spadBeat_congr rfl

end

end

/-- Settles O26: a bank's grant and what it leaves in the store, a firing's next beat, and each stream's step are the lemmas above. -/
theorem bankAndFiringSteps : Obligations.BankAndFiringSteps := by
  unfold Obligations.BankAndFiringSteps
  refine ⟨?held, ?write, ?acc, ?wrHeader, ?wrBad, ?wrLine, ?wrLast, ?gatLast, ?gatIndex, ?rowLast, ?rowMark, ?rowData, ?performed, ?beat, ?rdHeader,
    ?rdLast⟩
  case held =>
    intro s plot bank id rest x hwait hidle hfind hfails
    exact ⟨_, congrArg Host.Outcome.next ((bankStep_grants hwait hidle hfind).trans (if_pos hfails)), rfl⟩
  case write =>
    intro s x v hact hwf a
    rw [store_performLine_write hact, readByte_store _ _ _ _ _ hwf]
  case acc =>
    intro s x fmt fcs v hact hsub hwf a
    rw [store_performLine_acc hact hsub, readByte_store _ _ _ _ _ hwf]
  case wrHeader =>
    exact fun s l o r k h hi hk hpos htag hfits hfmt =>
      (firingBeat_wr h hi).trans (congrArg _ (wrStep_header (streamHead_of_shows hk) h.whole hpos htag hfits hfmt))
  case wrBad =>
    exact fun s l o r k h hi hk hpos hbad => (firingBeat_wr h hi).trans (congrArg _ (wrStep_badHeader (streamHead_of_shows hk) h.whole hpos hbad))
  case wrLine =>
    exact fun s l o r k h hi hk hfirst hlast htag hfree =>
      (firingBeat_wr h hi).trans (congrArg _ (wrStep_line (streamHead_of_shows hk) h.whole hfirst hlast htag hfree))
  case wrLast =>
    exact fun s l o r k h hi hk hpos htag => (firingBeat_wr h hi).trans (congrArg _ (wrStep_last (streamHead_of_shows hk) h.whole hpos htag))
  case gatLast =>
    exact fun s l o r k h hi hk hrow hroom htag =>
      (firingBeat_gat h hi).trans (congrArg _ (gatStep_last (streamHead_of_shows hk) h.whole hrow hroom htag))
  case gatIndex =>
    exact fun s l o r k h hi hk hrow hroom htag hindex hfree hmore hgiven =>
      (firingBeat_gat h hi).trans (congrArg _ (gatStep_index (streamHead_of_shows hk) h.whole hrow hroom htag hindex hfree hmore hgiven))
  case rowLast =>
    intro s l o sb k h hi hk hrow htag
    obtain ⟨fcs, hstep, -⟩ := firingBeat_rows h hi
    exact hstep.trans (congrArg _ (rowsStep_last fcs (streamHead_of_shows hk) h.whole hrow htag))
  case rowMark =>
    intro s l o sb k h hi hk hrow htag hindex
    obtain ⟨fcs, hstep, -⟩ := firingBeat_rows h hi
    exact hstep.trans (congrArg _ (rowsStep_mark fcs (streamHead_of_shows hk) h.whole hrow htag hindex))
  case rowData =>
    intro s l o sb k n h hi hk hrow htag hfree
    obtain ⟨fcs, hstep, hact⟩ := firingBeat_rows h hi
    rw [hact k]
    exact hstep.trans (congrArg _ (rowsStep_data fcs (streamHead_of_shows hk) h.whole hrow htag hfree))
  case performed =>
    intro s plot bank id rest x hwait hidle hfind hgood
    exact ⟨_, congrArg Host.Outcome.next ((bankStep_grants hwait hidle hfind).trans (if_neg (Bool.eq_false_iff.1 hgood))), rfl, rfl⟩
  case beat =>
    intro s l x sp h hse hme hredo hslot hspec
    rw [firingBeat_slot h hse hme hredo hslot hspec]
    simp only [and_self]
    exact runBeat_next (present_of_hasRedo h)
  case rdHeader =>
    exact fun s l o r h hop hheld hi hroom hpos hfmt => (firingBeat_rd h hop hheld hi).trans (congrArg _ (rdStep_header hroom hpos hfmt))
  case rdLast =>
    exact fun s l o r h hop hheld hi hroom hpos => (firingBeat_rd h hop hheld hi).trans (congrArg _ (rdStep_last hroom hpos))

end Sys2Proof.Proofs
end

section
/-!
PROOF. Memory stands in its canonical form at reset, and every step of the machine keeps it there (spec 12 R196, 17 R304): what a move, an element's turn, an
event and the tick of the clock do to memory; from these lemmas the obligations ResetMemoryOk and StepKeepsMemoryForm.
-/

namespace Sys2Proof.Proofs

open Machine Laws

variable {s t : State}

/-- The canonical form speaks of memory alone. -/
theorem memoryOk_congr (hmem : t.mem = s.mem) (h : MemoryOk s) : MemoryOk t := by
  unfold MemoryOk
  rw [hmem]
  exact h

/-- A change after a step that touches no memory. -/
theorem nextOk_mapOut {f : State → State} (hf : ∀ t, (f t).mem = t.mem) {o : Out} (h : NextOk o) : NextOk (mapOut f o) := by
  cases o with
  | next t => exact (nextOk_next _).2 (memoryOk_congr (hf t) ((nextOk_next t).1 h))
  | fault r => exact nextOk_fault r
  | refused r => exact nextOk_refused r

theorem nextOk_elemTurn (l : Loc) (h : MemoryOk s) : NextOk (elemTurn l s) := by
  cases hredo : hasRedo s l with
  | true =>
    rw [elemTurn_goesOn hredo]
    exact next_exec _ _ h
  | false =>
    cases hpick : pickSlot specOf s l with
    | none =>
      rw [elemTurn_rests hredo hpick]
      exact (nextOk_next s).2 h
    | some nx =>
      rw [elemTurn_fires hredo hpick]
      exact nextOk_mapOut (fun _ => mem_modElem ..) (next_exec _ _ (memoryOk_congr (mem_startFiring ..) h))

theorem nextOk_eventTurn (i : Instr) (h : MemoryOk s) : NextOk (eventTurn i s) := by
  unfold eventTurn
  split
  · exact next_exec i s h
  · split
    · exact next_exec i s h
    · next bs _ =>
      have hrest : MemoryOk (modSched s fun c => { c with stalls := bs }) := memoryOk_congr (mem_modSched ..) h
      dsimp only
      split
      · exact (nextOk_next _).2 hrest
      · exact next_exec i _ hrest

/-- A step is a move, a turn or a tick, and each keeps memory canonical. -/
theorem nextOk_step (h : MemoryOk s) : NextOk (Machine.step s) := by
  unfold Machine.step
  split
  · exact next_exec _ _ (memoryOk_congr (mem_modSched ..) h)
  · split
    · exact nextOk_elemTurn _ (memoryOk_congr (mem_modSched ..) h)
    · exact nextOk_eventTurn _ (memoryOk_congr (mem_modSched ..) h)
    · exact (nextOk_next _).2 (memoryOk_congr (mem_tick s) h)

/-- Settles O53: every step is a move, a turn or a tick, and `next_exec` holds of every instruction. -/
theorem stepKeepsMemoryForm : Obligations.StepKeepsMemoryForm := by
  unfold Obligations.StepKeepsMemoryForm
  exact fun s t h hstep => (nextOk_def _).1 (nextOk_step h) t hstep

/-- Settles O52: nothing has been written at reset (log 8). -/
theorem resetMemoryOk : Obligations.ResetMemoryOk := by
  unfold Obligations.ResetMemoryOk
  exact ⟨ok_reset, fun _ => rfl⟩

end Sys2Proof.Proofs
end

section
/-!
SUPPORT. What the small updates of the memory paths leave and give: the requests after a change of one of them (spec 12 R199, R204), the streams of an endpoint
(12 R202), and what the traffic of queues and the trace leave of requests, commands and endpoints.
-/

namespace Sys2Proof.Laws

open Machine

variable {s t : State} {l : Loc} {m : Fin 8}

/-! ### Traffic -/

theorem reqs_of_flows (h : Flows s t) : t.reqs = s.reqs := by rw [h.rest]

theorem les_of_flows (h : Flows s t) : t.les = s.les := by rw [h.rest]

theorem cmds_of_flows (h : Flows s t) : t.cmds = s.cmds := by rw [h.rest]

@[simp] theorem pushOut_reqs (s : State) (l : Loc) (n : Fin 4) (x : Entry) : (pushOut s l n x).reqs = s.reqs := reqs_of_flows (flows_pushOut s l n x)

@[simp] theorem pushOut_les (s : State) (l : Loc) (n : Fin 4) (x : Entry) : (pushOut s l n x).les = s.les := les_of_flows (flows_pushOut s l n x)

@[simp] theorem enqueue_les (s : State) (l : Loc) (n : Fin 4) (tok : Token) : (enqueue s l n tok).les = s.les := les_of_flows (flows_enqueue s l n tok)

@[simp] theorem traceEvent_reqs (s : State) (n : Nat) (e : TraceEv) : (traceEvent s n e).reqs = s.reqs := reqs_of_flows (flows_traceEvent s n e)

@[simp] theorem traceEvent_les (s : State) (n : Nat) (e : TraceEv) : (traceEvent s n e).les = s.les := les_of_flows (flows_traceEvent s n e)

@[simp] theorem traceEvent_cmds (s : State) (n : Nat) (e : TraceEv) : (traceEvent s n e).cmds = s.cmds := cmds_of_flows (flows_traceEvent s n e)

@[simp] theorem traceEvent_elems (s : State) (n : Nat) (e : TraceEv) : (traceEvent s n e).elems = s.elems := by
  unfold traceEvent
  simp only
  split <;> rfl

/-- The entries that a firing reserves are traffic, but for the note that their tokens are to be joined. -/
@[simp] theorem reserve_cmds (s : State) (l : Loc) (d : Dst) (rid : Nat) (join : Bool) : (reserve s l d rid join).cmds = s.cmds := by
  unfold reserve
  refine (foldl_keeps State.cmds (fun s o => cmds_of_flows (flows_pushOut s l o _)) _ _).trans ?_
  split <;> rfl

@[simp] theorem reserveAck_cmds (s : State) (l : Loc) (d : Dst) (join : Bool) : (reserveAck s l d join).1.cmds = s.cmds := by
  unfold reserveAck
  split
  · rfl
  · exact reserve_cmds ..

/-! ### Requests -/

theorem mem_reqs_modReq_same {r : Req} (h : r ∈ s.reqs) (f : Req → Req) : f r ∈ (modReq s r.id f).reqs :=
  List.mem_map.2 ⟨r, h, if_pos rfl⟩

theorem mem_reqs_modReq_other {r : Req} {id : Nat} (h : r ∈ s.reqs) (hid : r.id ≠ id) (f : Req → Req) : r ∈ (modReq s id f).reqs :=
  List.mem_map.2 ⟨r, h, if_neg hid⟩

@[simp] theorem tlbFill_reqs (s : State) (le : Loc) (e : TlbEntry) : (tlbFill s le e).reqs = s.reqs := rfl

/-- A request enters its endpoint last, with its watchpoint match. -/
@[simp] theorem addReq_reqs (s : State) (q : Req) : (addReq s q).reqs = s.reqs ++ [{ q with watch := watchMatches s q }] := by
  unfold addReq
  simp only
  split
  · exact traceEvent_reqs ..
  · rfl

@[simp] theorem addReq_les (s : State) (q : Req) : (addReq s q).les = s.les := by
  unfold addReq
  simp only
  split
  · exact traceEvent_les ..
  · rfl

/-! ### Streams -/

theorem getLe_modLe_same (s : State) (l : Loc) (f : LeUnit → LeUnit) : getLe (modLe s l f) l = f (getLe s l) := findD_put_same ..

theorem getStream_congr (h : t.les = s.les) (l : Loc) (m : Fin 8) : getStream t l m = getStream s l m := by
  rw [getStream, getStream, getLe, getLe, h]

@[simp] theorem getStream_modStream_same (s : State) (l : Loc) (m : Fin 8) (f : Stream → Stream) :
    getStream (modStream s l m f) l m = f (getStream s l m) := by
  simp [getStream, modStream, getLe_modLe_same]

/-- Two changes that agree on the stream as it stands are one. -/
theorem modStream_congr {f g : Stream → Stream} (h : f (getStream s l m) = g (getStream s l m)) : modStream s l m f = modStream s l m g := by
  unfold getStream at h
  unfold modStream modLe
  simp only [h]

@[simp] theorem modStream_reqs (s : State) (l : Loc) (m : Fin 8) (f : Stream → Stream) : (modStream s l m f).reqs = s.reqs := rfl

@[simp] theorem modStream_elems (s : State) (l : Loc) (m : Fin 8) (f : Stream → Stream) : (modStream s l m f).elems = s.elems := rfl

end Sys2Proof.Laws
end

section
/-!
PROOF. The steps of a request beside its home (spec 12 R199, R204, R207, 13 R215, R225, R230): waves, checks, walks, responses, combining lines and results; from
these lemmas the obligation MemorySteps.
-/

namespace Sys2Proof.Proofs

open Machine Laws Say

variable {s : State} {q : Req}

/-! ### Waves and checks -/

/-- A waiting request whose predecessor has entered its wave enters behind it. -/
theorem waveEnterStep_enters (hfound : findReq s q.id = some q) (hphase : q.phase = .waiting) (hthr : q.thr = waveThread s q.issuer)
    (hseen : (Machine.getElem s q.issuer).waveSeen.contains q.pred = true) : waveEnterStep s q.id = enterWave s q := by
  simp only [waveEnterStep, hfound]
  exact if_pos ⟨hphase, hthr, hseen⟩

theorem performAccess_req (hfound : findReq s q.id = some q) : performAccess s q.id = performReq s q := by
  simp only [performAccess, hfound]

/-- A store that enters and fails a check is held by that check's fault. -/
theorem performReq_store_faults {cls : FaultClass} {sub : Nat} {w : Word} (h : Enters s q) (hop : q.op = .store) (horder : orderOk s q = true)
    (hgood : q.bad = false) (hcheck : checkReq s q = some (cls, sub, w)) : performReq s q = faultReq s q cls sub w none := by
  simp [performReq, h.phase, h.deps, h.table, hop, horder, hcheck, hgood]

theorem checkReq_misaligned (hgood : q.bad = false) (hva : q.va < 2 ^ 52) (halign : q.va % q.algn ≠ 0) : checkReq s q = some (.align, 0, 0) := by
  simp only [checkReq, hgood, Nat.not_le.2 hva, halign, Bool.false_eq_true, if_false, ne_eq, not_false_eq_true, if_true]

theorem checkReq_sealed (hgood : q.bad = false) (hva : q.va < 2 ^ 52) (halign : q.va % q.algn = 0) (hwatch : q.watch = false)
    (hstore : isStoreOp q.op = true) (hseal : sealedRange s q.ctx q.va q.size = true) : checkReq s q = some (.sealed, 0, 0) := by
  simp only [checkReq, hgood, Nat.not_le.2 hva, halign, hwatch, hstore, hseal, Bool.and_self, Bool.false_eq_true, if_false, ne_eq, not_true_eq_false,
    if_true]

/-! ### Walks -/

section
variable {p : Page} {r : Req}

/-- The phase that a walk which finds its page gives a load. -/
def walked (p : Page) (q : Req) : Phase := .translated (p.pa + (q.va - p.va)) p.nc

/-- An answer to one request that is no store leaves every other request as it is. -/
theorem mem_reqs_answerWalk_other (hq : isStoreOp q.op = false) (h : r ∈ s.reqs) (hid : r.id ≠ q.id) : r ∈ (answerWalk p s q).reqs := by
  unfold answerWalk
  split
  · exact mem_reqs_modReq_other (s := tlbFill s q.le _) h hid _
  · simp only [hq, Bool.false_and, Bool.false_eq_true, if_false]
    exact mem_reqs_modReq_other (s := tlbFill s q.le _) h hid _

/-- An answer to a load gives it its address. -/
theorem mem_reqs_answerWalk_load {sx : Bool} (hop : q.op = .load sx) (h : q ∈ s.reqs) : { q with phase := walked p q } ∈ (answerWalk p s q).reqs := by
  have hanswer : answerWalk p s q = modReq (tlbFill s q.le (tlbOf q.ctx p)) q.id fun r => { r with phase := walked p q } := by
    simp only [answerWalk, hop, isStoreOp, Bool.false_and, Bool.false_eq_true, if_false]
    rfl
  rw [hanswer]
  exact mem_reqs_modReq_same (s := tlbFill s q.le _) h _

theorem mem_reqs_foldl_answerWalk_other {qs : List Req} (hqs : ∀ q ∈ qs, isStoreOp q.op = false) (h : r ∈ s.reqs) (hid : ∀ q ∈ qs, r.id ≠ q.id) :
    r ∈ (qs.foldl (answerWalk p) s).reqs :=
  List.foldlRecOn (motive := fun t : State => r ∈ t.reqs) qs _ h fun _ ht q hq => mem_reqs_answerWalk_other (hqs q hq) ht (hid q hq)

/-- Each load among the requests that a walk answers has its address at the end, where no two requests bear one number. -/
theorem mem_reqs_foldl_answerWalk_load {qs : List Req} {sx : Bool} (hqs : ∀ q ∈ qs, isStoreOp q.op = false) (hnodup : (qs.map fun q => q.id).Nodup)
    (hmem : q ∈ qs) (hop : q.op = .load sx) (h : q ∈ s.reqs) : { q with phase := walked p q } ∈ (qs.foldl (answerWalk p) s).reqs := by
  induction qs generalizing s with
  | nil => cases hmem
  | cons a qs ih =>
    obtain ⟨hfirst, hrest⟩ := List.nodup_cons.1 hnodup
    have hstores : ∀ x ∈ qs, isStoreOp x.op = false := fun x hx => hqs x (List.mem_cons_of_mem _ hx)
    have hne : ∀ x ∈ qs, a.id ≠ x.id := fun x hx e => hfirst (List.mem_map.2 ⟨x, hx, e.symm⟩)
    rw [List.foldl_cons]
    rcases List.mem_cons.1 hmem with rfl | hmem
    · exact mem_reqs_foldl_answerWalk_other hstores (mem_reqs_answerWalk_load hop h) hne
    · exact ih hstores hrest hmem (mem_reqs_answerWalk_other (hqs a List.mem_cons_self) h (hne q hmem).symm)

/-- The pending-miss entries that a page answers (spec 12 R199). -/
def coveredMisses (s : State) (die : Nat) (m : Miss) (p : Page) : List Miss :=
  (getDie s die).misses.filter fun x => x.ctx == m.ctx && decide (p.va ≤ x.va) && decide (x.va < p.va + p.size) && !x.stale

/-- The requests that wait for one of those entries. -/
def coveredReqs (s : State) (die : Nat) (m : Miss) (p : Page) : List Req :=
  s.reqs.filter fun q => (coveredMisses s die m p).any fun x => q.phase == .walking die x.id

variable {die : Nat} {m : Miss}

/-- A walk that finds its page fills it in and answers the requests that it covers. -/
theorem walkDone_found (hfind : (getDie s die).misses.find? (fun x => x.id == m.id) = some m) (hfresh : m.stale = false)
    (hwalk : walk s m.ctx m.va = some p) : ∃ f : Die → Die, walkDone s die m.id = (coveredReqs s die m p).foldl (answerWalk p) (modDie s die f) := by
  simp only [walkDone, hfind, hfresh, hwalk, Bool.false_eq_true, if_false]
  exact ⟨_, rfl⟩

theorem mem_coveredReqs (hfind : (getDie s die).misses.find? (fun x => x.id == m.id) = some m) (hfresh : m.stale = false) (hlow : p.va ≤ m.va)
    (hhigh : m.va < p.va + p.size) (hq : q ∈ s.reqs) (hphase : q.phase = .walking die m.id) : q ∈ coveredReqs s die m p := by
  have hcovered : m ∈ coveredMisses s die m p := List.mem_filter.2 ⟨List.mem_of_find?_eq_some hfind, by simp [hlow, hhigh, hfresh]⟩
  exact List.mem_filter.2 ⟨hq, List.any_eq_true.2 ⟨m, hcovered, by simp [hphase]⟩⟩

theorem mem_reqs_walkDone_load {sx : Bool} (hfind : (getDie s die).misses.find? (fun x => x.id == m.id) = some m) (hfresh : m.stale = false)
    (hwalk : walk s m.ctx m.va = some p) (hloads : ∀ q ∈ s.reqs, isStoreOp q.op = false) (hids : (s.reqs.map fun q => q.id).Nodup)
    (hlow : p.va ≤ m.va) (hhigh : m.va < p.va + p.size) (hq : q ∈ s.reqs) (hphase : q.phase = .walking die m.id) (hop : q.op = .load sx) :
    { q with phase := walked p q } ∈ (walkDone s die m.id).reqs := by
  obtain ⟨f, hdone⟩ := walkDone_found hfind hfresh hwalk
  have hsub : (coveredReqs s die m p).Sublist s.reqs := List.filter_sublist
  rw [hdone]
  exact mem_reqs_foldl_answerWalk_load (fun q hq => hloads q (hsub.subset hq)) (hids.sublist (hsub.map _))
    (mem_coveredReqs hfind hfresh hlow hhigh hq hphase) hop hq

end

/-! ### Responses and results -/

section
variable {data : Beat} {f : Flags} {l : Loc} {n : Nat}

theorem respond_fills (hfound : findReq s q.id = some q) (hphase : q.phase = .performed data f) (hthr : q.thr = .wave l n) (hkeep : q.discard = false)
    (hrid : q.rid ≠ 0) : respond s q.id =
      fillRid (dropReq (modElem s q.issuer fun e => orFlags e f) q.id) q.rid { tag := .data, val := data } := by
  simp only [respond, hfound, hphase, hthr, hkeep, hrid, Bool.false_eq_true, if_false]

theorem respond_discards (hfound : findReq s q.id = some q) (hphase : q.phase = .performed data f) (hthr : q.thr = .wave l n)
    (hdiscard : q.discard = true) : respond s q.id = dropRid (dropReq s q.id) q.rid := by
  simp only [respond, hfound, hphase, hthr, hdiscard, if_true]

theorem showResult_fills {r : Result} (hfind : s.results.find? (fun x => x.id == r.id) = some r) :
    showResult s r.id = fillRid { s with results := s.results.filter fun x => x.id != r.id } r.rid r.tok := by
  simp only [showResult, hfind]

end

/-! ### Combining lines -/

section
variable {l : Loc} {c : CombLine}

/-- A line that has waited its 2 µs is sent. -/
theorem lineTimeout_due {n : Nat} (hline : (getLe s l).comb[n]? = some c) (hdue : c.opened + 5400 ≤ now s) (hruns : plotStopped s l.plot = false) :
    lineTimeout s l n = sendLine s l c := by
  simp [lineTimeout, hline, hdue, hruns]

/-- Every request of a list of numbers is performed by performing each number. -/
theorem performed_foldl_setPerformed {ids : List Nat} {id : Nat} (hid : id ∈ ids) {d : Beat} {f : Flags} (h : ∃ r ∈ s.reqs, r.id = id) :
    ∃ r ∈ (ids.foldl (fun s id => setPerformed s id d f) s).reqs, r.id = id ∧ r.phase = .performed d f := by
  suffices hall : ∀ (ids : List Nat) (s : State), (∃ r ∈ s.reqs, r.id = id ∧ (r.phase = .performed d f ∨ id ∈ ids)) →
      ∃ r ∈ (ids.foldl (fun s id => setPerformed s id d f) s).reqs, r.id = id ∧ r.phase = .performed d f by
    obtain ⟨r, hr, hrid⟩ := h
    exact hall ids s ⟨r, hr, hrid, .inr hid⟩
  intro ids
  induction ids with
  | nil => exact fun s ⟨r, hr, hrid, hphase⟩ => ⟨r, hr, hrid, hphase.resolve_right List.not_mem_nil⟩
  | cons a ids ih =>
    intro s ⟨r, hr, hrid, hphase⟩
    refine ih _ ?_
    by_cases ha : r.id = a
    · exact ⟨{ r with phase := .performed d f }, ha ▸ mem_reqs_modReq_same hr _, hrid, .inl rfl⟩
    · exact ⟨r, mem_reqs_modReq_other hr ha _, hrid, hphase.imp_right fun h => (List.mem_cons.1 h).resolve_left (hrid ▸ ha)⟩

/-- The state once the bytes of a line are written and handed over, before its requests are performed. -/
def lineHanded (s : State) (c : CombLine) : State := handToPcie (c.bytes.foldl (fun s x => memWrite s x.1 [x.2]) s) c.pa 64 true

theorem lineHanded_reqs (s : State) (c : CombLine) : (lineHanded s c).reqs = s.reqs :=
  foldl_keeps State.reqs (f := fun s (x : Nat × Byte) => memWrite s x.1 [x.2]) (fun _ _ => rfl) c.bytes s

theorem lineHanded_les (s : State) (c : CombLine) : (lineHanded s c).les = s.les :=
  foldl_keeps State.les (f := fun s (x : Nat × Byte) => memWrite s x.1 [x.2]) (fun _ _ => rfl) c.bytes s

theorem sendLine_eq (s : State) (l : Loc) (c : CombLine) : sendLine s l c =
    modLe (c.reqs.foldl (fun s id => setPerformed s id 0 0) (lineHanded s c)) l fun u => { u with comb := u.comb.filter fun x => x != c } := rfl

theorem comb_sendLine (s : State) (l : Loc) (c : CombLine) : (getLe (sendLine s l c) l).comb = (getLe s l).comb.filter fun x => x != c := by
  have hkept : (c.reqs.foldl (fun s id => setPerformed s id 0 0) (lineHanded s c)).les = s.les :=
    (foldl_keeps State.les (f := fun s id => setPerformed s id 0 0) (fun _ _ => rfl) _ _).trans (lineHanded_les s c)
  rw [sendLine_eq, getLe_modLe_same, getLe, getLe, hkept]

theorem performed_sendLine (hq : q ∈ s.reqs) (hline : q.id ∈ c.reqs) : ∃ r ∈ (sendLine s l c).reqs, r.id = q.id ∧ r.phase = .performed 0#512 0#7 :=
  performed_foldl_setPerformed hline ⟨q, lineHanded_reqs s c ▸ hq, rfl⟩

end

/-- Settles O21: each clause is the equation of its step above, and of a walk that finds its page, and of a line that is sent, what they give their requests. -/
theorem memorySteps : Obligations.MemorySteps := by
  unfold Obligations.MemorySteps
  refine ⟨?enter, ?misaligned, ?sealed, ?walks, ?fills, ?discards, ?timeout, ?sends, ?shows⟩
  case enter => exact fun s q hfound hphase hthr hseen => congrArg Host.Outcome.next (waveEnterStep_enters hfound hphase hthr hseen)
  case misaligned =>
    exact fun s q h hop horder hgood hva halign => congrArg Host.Outcome.next ((performAccess_req h.found).trans
      (performReq_store_faults h hop horder hgood (checkReq_misaligned hgood hva halign)))
  case sealed =>
    exact fun s q h hop horder hgood hva halign hwatch hseal => congrArg Host.Outcome.next ((performAccess_req h.found).trans
      (performReq_store_faults h hop horder hgood (checkReq_sealed hgood hva halign hwatch (by rw [hop]; rfl) hseal)))
  case walks =>
    intro s die m p hfind hfresh hwalk hloads hids hlow hhigh
    refine ⟨_, rfl, mem_walkDone s die m.id, fun q hq sx hphase hop => ?_⟩
    exact ⟨_, mem_reqs_walkDone_load hfind hfresh hwalk hloads hids hlow hhigh hq hphase hop, rfl, rfl⟩
  case fills =>
    exact fun s q data f l n hfound hphase hthr hkeep hrid => congrArg Host.Outcome.next (respond_fills hfound hphase hthr hkeep hrid)
  case discards =>
    exact fun s q data f l n hfound hphase hthr hdiscard => congrArg Host.Outcome.next (respond_discards hfound hphase hthr hdiscard)
  case timeout => exact fun s l n c hline hdue hruns => congrArg Host.Outcome.next (lineTimeout_due hline hdue hruns)
  case sends => exact fun s l c => ⟨comb_sendLine s l c, fun q hq hline => performed_sendLine hq hline⟩
  case shows => exact fun s r hfind => congrArg Host.Outcome.next (showResult_fills hfind)

end Sys2Proof.Proofs
end

section
/-!
PROOF. The streams of a load-store endpoint (spec 12 R202, 13 R232): the record that opens one, its next load, its LAST, and its end; from these lemmas the
obligation Streams.
-/

namespace Sys2Proof.Proofs

open Machine Laws Say

variable {s : State} {q : Req} {pa : Nat} {l : Loc} {m : Fin 8}

/-! ### Bytes that no port holds -/

/-- A write that a port holds and that meets no byte of a range meets none of its bytes. -/
theorem portHolds_byte {plot n i : Nat} {r : Req} (h : portHolds plot pa n r = false) (hi : i < n) : portHolds plot (pa + i) 1 r = false := by
  unfold portHolds at *
  cases hphase : r.phase with
  | atPort p =>
    simp only [hphase, overlaps, Bool.and_eq_false_iff, decide_eq_false_iff_not] at h ⊢
    exact h.imp_right fun h => by omega
  | _ => simp

theorem portRead_idle {plot : Nat} {bs : List Byte} (h : ∀ r ∈ s.reqs, portHolds plot pa bs.length r = false) : portRead s plot pa bs = bs := by
  refine List.ext_getElem (by simp [portRead]) fun i _ hi => ?_
  have hnone : s.reqs.filter (portHolds plot (pa + i) 1) = [] :=
    List.filter_eq_nil_iff.2 fun r hr => by simp [portHolds_byte (h r hr) hi]
  simp only [portRead, List.getElem_mapIdx, portByte, hnone, List.getLast?_nil]

/-! ### The record of `strm.opn` -/

/-- The record's bytes: those in memory, with the token on sb as the base where there is one (spec 13 R232). -/
def recordBytes (s : State) (pa : Nat) (base : Option Word) : List Byte :=
  match base with
  | some b => bytesOf 8 b.toNat ++ (readBytes s.mem pa 64).drop 8
  | none => readBytes s.mem pa 64

theorem performReq_atHome {nc : Bool} (h : AtHome s q pa nc) : performReq s q = actReq s q pa := by
  simp [performReq, h.phase, h.deps, h.order, h.unsealed]

theorem readRecord_hbm (hquiet : Quiescent s q pa) (hthr : q.thr = .stream l m) (hsize : q.size = 64) (base : Option Word) :
    readRecord s q (.hbm pa) pa base =
      if patternOk (Machine.getElem s l) (recordBytes s pa base) then
        setPerformed (openStream s l m (readPattern (recordBytes s pa base))) q.id 0 0
      else faultReq s q .operand 0 (BitVec.ofNat 64 (fieldAt (recordBytes s pa base) 8 8)) none := by
  have hclean : poisonAt s (.hbm pa) pa 64 = none := by rw [poisonAt, ← hsize, hquiet.clean]; rfl
  have hread : portRead s q.issuer.plot pa (readBytes s.mem pa 64) = readBytes s.mem pa 64 :=
    portRead_idle fun r hr => by simpa [readBytes_eq, hsize] using hquiet.port r hr
  simp only [readRecord, hclean, homeRead, hread, hthr]
  cases base <;> rfl

theorem performAccess_pattern {nc : Bool} {base : Option Word} (h : AtHome s q pa nc) (hquiet : Quiescent s q pa) (hop : q.op = .pattern base) :
    performAccess s q.id = readRecord s q (.hbm pa) pa base := by
  have hhome : homeOf s pa = .hbm pa := if_pos hquiet.hbm
  rw [performAccess_req h.found, performReq_atHome h]
  simp only [actReq, hop, hhome]

theorem findReq_openStream (s : State) (l : Loc) (m : Fin 8) (p : Pattern) (id : Nat) : findReq (openStream s l m p) id = findReq s id := by
  simp [findReq, openStream]

theorem getStream_openStream (s : State) (l : Loc) (m : Fin 8) (p : Pattern) :
    getStream (openStream s l m p) l m = { pat := p, opened := true, before := (getStream (traceEvent s l.plot (.mem l.site 3 m.val p.base)) l m).before } := by
  simp [getStream, openStream, getLe_modLe_same]

/-! ### The next step of a stream -/

/-- A stream that takes its next step: a LAST that is due, the end of its elements, or the next of them. -/
theorem streamStep_next (h : Streaming s l m) (hload : (getStream s l m).pat.store = false) (hopen : (getStream s l m).closing = false) :
    streamStep s l m =
      if (getStream s l m).lastDue then sendLast s l m
      else if patCount (getStream s l m).pat ≤ (getStream s l m).idx then
        if (getStream s l m).lastSent then modStream s l m fun st => { st with ended := true, lastSent := true } else sendLast (cutBeat s l m) l m
      else loadNext s l m := by
  obtain ⟨hopened, hgoing, htail, hruns, ⟨hdead, hfrozen⟩, htable⟩ := h
  simp [streamStep, freshId, hopened, hgoing, htail, hruns, hdead, hfrozen, htable, hload, hopen]

/-! ### The next load -/

theorem placeElem_reqs (s : State) (l : Loc) (m : Fin 8) : (placeElem s l m).reqs = s.reqs := by
  unfold placeElem
  simp only
  split
  · exact pushOut_reqs ..
  · rfl

theorem owedReq_none (h : ∀ q ∈ streamReqs s l m, q.phase ≠ .waiting) : owedReq s l m = none :=
  List.find?_eq_none.2 fun q hq => by simp [h q hq]

/-- An access of a stream for which no `sbar` keeps a place enters last. -/
theorem issueStream_enters (h : ∀ q ∈ streamReqs s l m, q.phase ≠ .waiting) (q : Req) : ∃ r : Req, (issueStream s l m q).reqs = s.reqs ++ [r] ∧
    (issueStream s l m q).les = s.les ∧ r.op = q.op ∧ r.thr = .stream l m ∧ r.va = q.va ∧ r.size = q.size ∧ r.phase = .entered := by
  simp only [issueStream, owedReq_none h]
  exact ⟨_, addReq_reqs .., addReq_les .., rfl, rfl, rfl, rfl, rfl⟩

/-- Where no place is kept none is given up. -/
theorem dropOwed_reqs (h : ∀ q ∈ s.reqs, q.thr = .stream l m → q.phase ≠ .waiting) : (dropOwed s l m).reqs = s.reqs :=
  List.filter_eq_self.2 fun q hq => by
    by_cases hthr : q.thr = .stream l m
    · simp [h q hq hthr]
    · simp [hthr]

/-- An element that an access brings: one request more, and the stream's next element after it. -/
theorem deliverElem_access (h : ∀ q ∈ streamReqs s l m, q.phase ≠ .waiting) (q : Req) : ∃ r : Req,
    (deliverElem s l m (.access q)).reqs = s.reqs ++ [r] ∧ r.op = q.op ∧ r.thr = .stream l m ∧ r.va = q.va ∧ r.size = q.size ∧ r.phase = .entered ∧
    (getStream (deliverElem s l m (.access q)) l m).idx = (getStream s l m).idx + 1 := by
  simp only [deliverElem]
  generalize hu : modStream (placeElem s l m) l m _ = u
  generalize hq' : ({ q with rid := _, pos := _, tag := _ } : Req) = q'
  have hreqs : u.reqs = s.reqs := by rw [← hu]; exact placeElem_reqs s l m
  have hidx : (getStream u l m).idx = (getStream s l m).idx + 1 := by rw [← hu, getStream_modStream_same]
  have hnone : ∀ q ∈ streamReqs u l m, q.phase ≠ .waiting := by rw [streamReqs, hreqs]; exact h
  obtain ⟨r, hr, hles, hop, hthr, hva, hsize, hphase⟩ := issueStream_enters hnone q'
  subst hq'
  refine ⟨r, ?_, hop, hthr, hva, hsize, hphase, ?_⟩
  · rw [dropOwed_reqs, hr, hreqs]
    intro x hx hxthr
    rw [hr, List.mem_append, List.mem_singleton, hreqs] at hx
    rcases hx with hx | rfl
    · exact h x (List.mem_filter.2 ⟨hx, by simp [hxthr]⟩)
    · simp [hphase]
  · rw [getStream_congr (t := dropOwed _ l m) hles, hidx]

/-- The next element of an uncompressed load stream is loaded. -/
theorem loadNext_loads (hcmp : (getStream s l m).pat.cmp = false) (hroom : outFree s l (getStream s l m).pat.ch ≠ 0) : loadNext s l m =
    deliverElem s l m (.access (streamReq l m (.load false) (patAddr (getStream s l m).pat (getStream s l m).idx) (patBytes (getStream s l m).pat)
      (patBytes (getStream s l m).pat))) := by
  simp [loadNext, hcmp, hroom]

/-! ### The end of a stream -/

theorem cutBeat_narrow (h : patWide (getStream s l m).pat = false) : cutBeat s l m = s := by
  simp only [cutBeat, h]
  split
  · exact if_pos (.inr (.inl rfl))
  · rfl

/-- The LAST behind all the elements of a stream. -/
theorem sendLast_final (hend : patCount (getStream s l m).pat ≤ (getStream s l m).idx) (hroom : outFree s l (getStream s l m).pat.ch ≠ 0) :
    sendLast s l m = modStream (enqueue s l (getStream s l m).pat.ch { tag := .last, val := 0#512 }) l m fun st =>
      { st with lastDue := false, lastSent := true } := by
  simp only [sendLast, hroom, if_false]
  refine modStream_congr ?_
  rw [getStream_congr (enqueue_les ..)]
  simp [hend]

theorem streamEnd_completes {c : Fin 4} (hopened : (getStream s l m).opened = true) (hended : (getStream s l m).ended = true)
    (htail : (getStream s l m).tail = []) (hreqs : streamReqs s l m = []) (hruns : plotRuns s l.plot = true)
    (hcpl : cplChan (getStream s l m).pat = some c) (hroom : outFree s l c ≠ 0) : streamEnd s l m =
      shutStream (enqueue s l c { tag := .data, val := completion (getStream s l m) }) l m := by
  simp [streamEnd, hopened, hended, htail, hreqs, hruns, hcpl, hroom]

/-- Settles O23: each clause is the equation of its step above. -/
theorem streams : Obligations.Streams := by
  unfold Obligations.Streams
  refine ⟨?record, ?load, ?last, ?completes, ?shut⟩
  case record =>
    intro s q pa nc l m base h hquiet hop hthr hsize
    have hstep : exec (.homeAccessPerform q.id) s = .next (readRecord s q (.hbm pa) pa base) :=
      congrArg Host.Outcome.next (performAccess_pattern h hquiet hop)
    rw [readRecord_hbm hquiet hthr hsize] at hstep
    refine ⟨fun hok => ?_, fun hbad => hstep.trans (congrArg _ (if_neg (Bool.eq_false_iff.1 hbad)))⟩
    have hfound := findReq_setPerformed ((findReq_openStream s l m (readPattern (recordBytes s pa base)) q.id).trans h.found) 0 0
    have hstream : getStream (setPerformed (openStream s l m (readPattern (recordBytes s pa base))) q.id 0 0) l m = _ :=
      getStream_openStream s l m (readPattern (recordBytes s pa base))
    refine ⟨_, hstep.trans (congrArg _ (if_pos hok)), ⟨_, hfound, rfl⟩, ?_⟩
    rw [hstream]
    exact ⟨rfl, rfl, rfl⟩
  case load =>
    intro s l m h st hdue hopen hmore hload hcmp hwide hroom hfree
    have hstep : streamStep s l m = _ := (streamStep_next h hload hopen).trans <|
      (if_neg (Bool.eq_false_iff.1 hdue)).trans <| (if_neg (Nat.not_le.2 hmore)).trans (loadNext_loads hcmp hroom)
    obtain ⟨r, hreqs, hop, hthr, hva, hsize, hphase, hidx⟩ := deliverElem_access hfree _
    exact ⟨_, r, congrArg Host.Outcome.next hstep, hreqs, hop, hthr, hva, hsize, hphase, hidx⟩
  case last =>
    intro s l m h st hdue hopen hend hload hsent hwide hroom
    refine congrArg Host.Outcome.next ((streamStep_next h hload hopen).trans <|
      (if_neg (Bool.eq_false_iff.1 hdue)).trans <| (if_pos hend).trans <| (if_neg (Bool.eq_false_iff.1 hsent)).trans ?_)
    rw [cutBeat_narrow hwide]
    exact sendLast_final hend hroom
  case completes =>
    exact fun s l m c hopened hended htail hreqs hruns hcpl hroom =>
      congrArg Host.Outcome.next (streamEnd_completes hopened hended htail hreqs hruns hcpl hroom)
  case shut =>
    refine fun s l m => ⟨?_, traceEvent_reqs .., traceEvent_elems ..⟩
    rw [shutStream, getStream_modStream_same]

end Sys2Proof.Proofs
end

section
/-!
PROOF. Engine commands (spec 12 R211 to R213, 13 R235, R243, 06 R114): the firing that issues one, the engine that takes it, its record, a push, and its
completion; from these lemmas the obligations EngineCommands and EngineSteps.
-/

namespace Sys2Proof.Proofs

open Machine Laws Say

/-! ### The firing of a command -/

section
variable {e : EAct} {i : Instr} {both : Bool} {x : BeatIn} {g : Engine}

/-- An instruction whose beats run by the common specification of engine commands issues its command. -/
theorem issues_of (hexec : ∀ s, exec i s = runBeat (specEngine e i both) s) : Issues i e both :=
  fun s _ h => commits_of (hexec s) h rfl rfl

theorem reserveAck_entry (s : State) (l : Loc) (d : Dst) (join : Bool) : (reserveAck s l d join).2 = if d = .none then 0 else s.sched.nextId := by
  unfold reserveAck
  split <;> rfl

/-- An engine that accepts a command has it last, with the values that the firing read. -/
theorem issueCmd_enters (s : State) (h : engineFor x.s (dieOf x.l.plot) x.e.bound i = some g) : ∃ c : Cmd, (issueCmd e i x s).cmds = s.cmds ++ [c] ∧
    c.i = i ∧ c.rid = (if e.dst = .none then 0 else s.sched.nextId) ∧ c.l = x.l ∧ c.a = x.a.toWord ∧ c.b = x.b.toWord ∧ c.eng = g ∧
    c.phase = (if isCopy i then .queued else .fetch) ∧
    ∀ ch, e.sb = .ch ch → c.inl = ((headTokens x.s x.l ch).take (inlineCount i)).map fun t => (payload t).toWord := by
  simp only [issueCmd, h]
  refine ⟨_, (traceEvent_cmds ..).trans (congrArg (· ++ [_]) ?_), rfl, reserveAck_entry .., rfl, rfl, rfl, rfl, rfl, fun ch hch => by simp only [hch]⟩
  split
  · exact (foldl_keeps State.cmds (fun s _ => cmds_of_flows (flows_dequeue s _ _)) _ _).trans (reserveAck_cmds ..)
  · exact reserveAck_cmds ..

end

variable {s t u : State} {c : Cmd} {r : List Byte}

/-! ### Acceptance -/

/-- A copy engine with a free place takes the oldest command of the port whose turn it is. -/
theorem acceptCmd_takes {die n : Nat} (heng : c.eng = .copy die n) (hphase : c.phase = .queued) (hroom : engineLoad s c.eng < 16)
    (hturn : nextPort s die n = some (portKey c))
    (holdest : (s.cmds.find? fun y => y.eng == c.eng && y.phase == .queued && portKey y == portKey c) = some c) : acceptCmd s c =
      modDie (modCmd s c.id fun y => { y with phase := .fetch }) die fun d => { d with copyLast := Tbl.put d.copyLast n (portKey c) } := by
  rw [heng] at hroom holdest
  simp only [acceptCmd, heng, hphase]
  exact if_pos ⟨hroom, hturn, by rw [holdest]; rfl⟩

theorem execEngineAcceptCommand_found (hfound : findCmd s c.id = some c) : exec (.engineAcceptCommand c.id) s = .next (acceptCmd s c) := by
  change execEngineAcceptCommand c.id s = _
  simp only [execEngineAcceptCommand, hfound]

/-! ### Records -/

/-- A command that is no push, and whose turn it is, fetches its record. -/
theorem performAccess_fetch (h : CmdTurn s c) (hphase : c.phase = .fetch) (hpush : ∀ e n, c.i ≠ .drillPush e n) :
    performAccess s c.id = fetchRecord s c := by
  simp only [performAccess, h.noReq, h.found, performCmd, h.goes, hphase, Bool.false_eq_true, if_false]

/-- What the read of a record leads to (spec 13 R235). -/
def recordRead (c : Cmd) : State × Except VBad (List Byte) → State
  | (s, .ok r) => if recordOk s c r then modCmd s c.id (begun r) else badRecord s c r
  | (s, .error b) =>
    if b.cls = .memerr then holdCmd (modCmd s c.id fun x => { x with fetching := true }) c b
    else recordFault s c b.cls b.sub b.va (if b.cls = .operand then BitVec.ofNat 64 b.va else 0)

/-- The record of a command that has one: aligned, over no port that is down, and read. -/
theorem fetchRecord_record (h : HasRecord c) : fetchRecord s c =
    if c.a.toNat % 64 ≠ 0 then recordFault s c .operand 0 c.a.toNat c.a
    else if accessCut s c c.a.toNat then cutCmd s c
    else recordRead c (readVirt s (dieOf c.l.plot) c.ctx c.a.toNat 64 c.sub) := by
  obtain ⟨hsig, hpf, -⟩ := h
  unfold fetchRecord
  split
  · next hi => exact absurd hi (hsig _ _ _)
  · next hi => exact absurd hi (hpf _ _ _ _)
  · rcases readVirt s (dieOf c.l.plot) c.ctx c.a.toNat 64 c.sub with ⟨u, b | r⟩ <;> rfl

theorem fetchRecord_misaligned (h : HasRecord c) (halign : c.a.toNat % 64 ≠ 0) : fetchRecord s c = recordFault s c .operand 0 c.a.toNat c.a :=
  (fetchRecord_record h).trans (if_pos halign)

theorem fetchRecord_reads (h : ReadsRecord s t c r) :
    fetchRecord s c = if recordOk t c r then modCmd t c.id (begun r) else badRecord t c r := by
  rw [fetchRecord_record h.has, if_neg (not_not_intro h.aligned), if_neg (Bool.eq_false_iff.1 h.up), h.reads]
  rfl

/-- `sig` has no record. -/
theorem fetchRecord_sig {e : EAct} {raise : Bool} {vec : BitVec 10} (hi : c.i = .sig e raise vec) : fetchRecord s c = modCmd s c.id (begun []) := by
  simp only [fetchRecord, hi]
  rfl

theorem performAccess_record (h : CmdTurn s c) (hphase : c.phase = .fetch) (hrecord : HasRecord c) : performAccess s c.id = fetchRecord s c :=
  have ⟨_, _, hpush⟩ := hrecord
  performAccess_fetch h hphase hpush

/-! ### Pushes -/

section
variable {e : EAct} {n : Fin 9} {p : Nat} {xs : List Nat}

theorem performAccess_push (h : CmdTurn s c) (hi : c.i = .drillPush e n) : performAccess s c.id = performPush s c := by
  simp only [performAccess, h.noReq, h.found, hi]

/-- The node that a push brings into the launch of its section (spec 13 R243). -/
def pushNode (u : State) (c : Cmd) (p : Nat) (r : List Byte) (xs : List Nat) : NodeSt :=
  { addr := c.a.toNat, raw := r, succ := xs, pushed := true, pbase := (getParcel u p).prio, inl := c.inl
    agent := if agentLoad u (dieOf c.l.plot) < 64 then some (dieOf c.l.plot) else none }

theorem performPush_enters (hphase : c.phase = .fetch) (hparcel : c.parcel = some p)
    (hread : launchRecord s (getParcel s p).launch c.a.toNat = (u, some (r, xs))) (hok : nodeOk r = true) (hroom : granaryLoad u < 4096) :
    performPush s c = modCmd (pushedNode u p (pushNode u c p r xs)) c.id fun x => { x with phase := .done, status := 0 } := by
  simp only [performPush, hphase, hparcel, hread, hok, Nat.not_le.2 hroom, Bool.not_true, Bool.false_eq_true, if_false]
  rfl

theorem performPush_unread (hphase : c.phase = .fetch) (hparcel : c.parcel = some p)
    (hread : launchRecord s (getParcel s p).launch c.a.toNat = (u, none)) :
    performPush s c = modCmd u c.id fun x => { x with phase := .done, status := 5 } := by
  simp only [performPush, hphase, hparcel, hread]

end

/-! ### Completion -/

/-- A command that is done, without its place among the commands, in a plot that is active. -/
def completing (s : State) (c : Cmd) : State := markActive { s with cmds := s.cmds.filter fun x => x.id != c.id } c.l.plot

theorem completeCmd_token (hfound : findCmd s c.id = some c) (hphase : c.phase = .done) (hnode : c.node = none) (hrid : c.rid ≠ 0) :
    completeCmd s c.id = postResult (modElem (completing s c) c.l fun e => { e with joinFl := e.joinFl ++ [(c.rid, c.flags)] }) c.rid
      { tag := .data, val := BitVec.ofNat 512 (completionWord c) } := by
  simp only [completeCmd, hfound, hphase, hnode, hrid, ne_eq, not_true_eq_false, if_false]
  rfl

theorem completeCmd_flags (hfound : findCmd s c.id = some c) (hphase : c.phase = .done) (hnode : c.node = none) (hrid : c.rid = 0) :
    completeCmd s c.id = modElem (completing s c) c.l fun e => orFlags e c.flags := by
  simp only [completeCmd, hfound, hphase, hnode, hrid, ne_eq, not_true_eq_false, if_false, if_true]
  rfl

/-- Settles O27: each instruction runs by `specEngine`, whose effect is `issueCmd`. -/
theorem engineCommands : Obligations.EngineCommands := by
  unfold Obligations.EngineCommands
  refine ⟨?_, ?_, ?_, ?_, ?_, fun e i x s g h => issueCmd_enters s h⟩
  · intro e
    refine ⟨?_, ?_, ?_, ?_, ?_, ?_, ?_, ?_⟩ <;> exact issues_of fun _ => rfl
  · intro e f
    refine ⟨?_, ?_, ?_⟩ <;> exact issues_of fun _ => rfl
  · exact fun e n => issues_of fun _ => rfl
  · exact fun e raise vec => issues_of fun _ => rfl
  · exact fun e m a b => issues_of fun _ => rfl

/-- Settles O28: each clause is the equation of its step above. -/
theorem engineSteps : Obligations.EngineSteps := by
  unfold Obligations.EngineSteps
  refine ⟨?accept, ?misaligned, ?runs, ?refused, ?sig, ?push, ?unread, ?token, ?flags⟩
  case accept =>
    exact fun s c die n hfound heng hphase hroom hturn holdest =>
      (execEngineAcceptCommand_found hfound).trans (congrArg _ (acceptCmd_takes heng hphase hroom hturn holdest))
  case misaligned =>
    exact fun s c h hphase hrecord halign =>
      congrArg Host.Outcome.next ((performAccess_record h hphase hrecord).trans (fetchRecord_misaligned hrecord halign))
  case runs =>
    exact fun s c t r h hphase hreads hok =>
      congrArg Host.Outcome.next ((performAccess_record h hphase hreads.has).trans ((fetchRecord_reads hreads).trans (if_pos hok)))
  case refused =>
    exact fun s c t r h hphase hreads hbad => congrArg Host.Outcome.next
      ((performAccess_record h hphase hreads.has).trans ((fetchRecord_reads hreads).trans (if_neg (Bool.eq_false_iff.1 hbad))))
  case sig =>
    exact fun s c e raise vec h hphase hi =>
      congrArg Host.Outcome.next ((performAccess_fetch h hphase fun _ _ => by simp [hi]).trans (fetchRecord_sig hi))
  case push =>
    exact fun s c e n p u r xs h hphase hi hparcel hread hok hroom =>
      congrArg Host.Outcome.next ((performAccess_push h hi).trans (performPush_enters hphase hparcel hread hok hroom))
  case unread =>
    exact fun s c e n p u h hphase hi hparcel hread =>
      congrArg Host.Outcome.next ((performAccess_push h hi).trans (performPush_unread hphase hparcel hread))
  case token => exact fun s c hfound hphase hnode hrid => congrArg Host.Outcome.next (completeCmd_token hfound hphase hnode hrid)
  case flags =>
    intro s c hfound hphase hnode hrid
    refine ⟨_, congrArg Host.Outcome.next (completeCmd_flags hfound hphase hnode hrid), ?_, rfl⟩
    rw [getElem_modElem_same _ _ rfl]
    rfl

end Sys2Proof.Proofs
end

section
/-!
PROOF. The host's accesses (spec 12 R207, 17 R311, 20 R345 to R348, R354): its writes of QCFG, CTROOT and LOCK, and what it writes and reads of device memory; from
these lemmas the obligation HostAccesses.
-/

namespace Sys2Proof.Proofs

open Machine Laws

variable {s : State}

/-! ### Registers -/

section
variable {q n fn o off w v : Nat}

/-- A write of the physical function within the page of a queue. -/
theorem writeRegister_queue (hq : q < 64) (ho : o < 0x1000) : writeRegister s 0 (0x100000 + 0x1000 * q + o) w v = writeQueue s 0 q o w v := by
  have hrange : 0x100000 ≤ 0x100000 + 0x1000 * q + o ∧ 0x100000 + 0x1000 * q + o < 0x140000 := by omega
  have hpage : (0x100000 + 0x1000 * q + o - 0x100000) / 0x1000 = q := by omega
  have hreg : (0x100000 + 0x1000 * q + o) % 0x1000 = o := by omega
  have hseen : pageSeen s 0 q = true := by simp [pageSeen, hq]
  rw [writeRegister, if_pos hrange, hpage, hreg, if_pos hseen]

theorem writeQueue_qcfg : writeQueue s 0 q 0x80 4 v = modQueue s q fun x => { x with qcfg := BitVec.ofNat 32 (v % 1024) } := rfl

/-- A write of the physical function within the block of a context. -/
theorem writeRegister_ctx (hn : n < 64) (ho : o < 0x100) : writeRegister s 0 (0x10000 + 0x100 * n + o) w v = writeCtx s n o w v := by
  have hqueue : ¬(0x100000 ≤ 0x10000 + 0x100 * n + o ∧ 0x10000 + 0x100 * n + o < 0x140000) := by omega
  have hpurge : ¬(0x10000 + 0x100 * n + o = 0x1A0 ∧ w = 4) := by omega
  have hrange : 0x10000 ≤ 0x10000 + 0x100 * n + o ∧ 0x10000 + 0x100 * n + o < 0x14000 := by omega
  have hblock : (0x10000 + 0x100 * n + o - 0x10000) / 0x100 = n := by omega
  have hreg : (0x10000 + 0x100 * n + o) % 0x100 = o := by omega
  rw [writeRegister, if_neg hqueue, if_neg (not_not_intro rfl), if_neg hpurge, if_pos hrange, hblock, hreg]

theorem writeCtx_troot_off (hoff : ctxOn s n = false) :
    writeCtx s n 0 8 v = modCtx s n fun c => { c with troot := BitVec.ofNat 64 v &&& 0x000FFFFFFFFF0000 } := if_neg (Bool.eq_false_iff.1 hoff)

theorem writeCtx_troot_on (hon : ctxOn s n = true) : writeCtx s n 0 8 v = s := if_pos hon

theorem writeRegister_lock (hbit : v.testBit 0 = true) : writeRegister s 0 0x400020 4 v = lockDebug s := if_pos hbit

/-- BRKEN reads 0 in every context once LOCK is set (spec 20 R354). -/
theorem brken_lockDebug {c : Nat × Ctx} (hc : c ∈ (lockDebug s).ctxs) : c.2.ccfg.getLsbD 7 = false := by
  obtain ⟨d, -, rfl⟩ := List.mem_map.1 hc
  change (d.2.ccfg &&& ~~~128#32).getLsbD 7 = false
  rw [BitVec.getLsbD_and, show (~~~128#32).getLsbD 7 = false by decide, Bool.and_false]

/-- Another function has the queue pages and no other register. -/
theorem writeRegister_other (hfn : fn ≠ 0) (hoff : off < 0x100000 ∨ 0x140000 ≤ off) : writeRegister s fn off w v = s := by
  have hqueue : ¬(0x100000 ≤ off ∧ off < 0x140000) := by omega
  rw [writeRegister, if_neg hqueue, if_pos hfn]

end

/-! ### Device memory -/

section
variable {off n : Nat} {bs : List Byte}

/-- Bytes within one line are one piece. -/
theorem linePieces_line (hpos : 0 < n) (hline : off / 64 = (off + n - 1) / 64) : linePieces off n = [(off, n)] := by
  have hone : (off % 64 + n + 63) / 64 = 1 := by omega
  have hstart : max off (off / 64 * 64 + 64 * 0) = off := by omega
  have hend : min (off + n) (off / 64 * 64 + 64 * 0 + 64) - off = n := by omega
  rw [linePieces, if_neg (Nat.ne_of_gt hpos), hone]
  change [(max off (off / 64 * 64 + 64 * 0), min (off + n) (off / 64 * 64 + 64 * 0 + 64) - max off (off / 64 * 64 + 64 * 0))] = _
  rw [hstart, hend]

theorem populated_hbm (h : off + n ≤ 2 ^ 39) : populated off n = true := by
  rw [populated, decide_eq_true (show off + n ≤ hbmEnd from h), Bool.true_or]

/-- A write to a line of HBM that is not sealed writes its bytes. -/
theorem mem_hostWriteLine (fn : Nat) (hpos : 0 < bs.length) (hin : off + bs.length ≤ 2 ^ 39) (hseal : sealedPa s off bs.length = false) :
    (hostWriteLine fn s off bs).mem = writeBytes s.mem off bs := by
  have hhome : homeOf s off = .hbm off := if_pos (show off < hbmEnd by unfold hbmEnd; omega)
  simp only [hostWriteLine, populated_hbm hin, hseal, hhome, homeWrite, Bool.not_true, Bool.false_eq_true, if_false, mem_reportWatch, memWrite_mem]

theorem mem_hostWrite (hpos : 0 < bs.length) (hline : off / 64 = (off + bs.length - 1) / 64) (hin : off + bs.length ≤ 2 ^ 39)
    (hseal : sealedPa s off bs.length = false) : (hostWrite s 0 off bs).mem = writeBytes s.mem off bs := by
  have hwrite : hostWrite s 0 off bs = hostWriteLine 0 s off bs := by simp [hostWrite, linePieces_line hpos hline]
  rw [hwrite, mem_hostWriteLine 0 hpos hin hseal]

/-- A byte after a write of bytes: the byte written there, or as before. -/
theorem readByte_written {m : List Host.Cell} (hwf : Memory.wf m = true) (a : Nat) :
    readByte (writeBytes m off bs) a = if off ≤ a ∧ a < off + bs.length then bs.getD (a - off) 0#8 else readByte m a := by
  by_cases hin : off ≤ a ∧ a < off + bs.length
  · have hlt : a - off < bs.length := by omega
    rw [readByte_writeBytes a bs off hwf, if_pos hin.1, if_pos hin, List.getElem?_eq_getElem hlt, List.getD_eq_getElem _ _ hlt]
    rfl
  · rw [readByte_writeBytes_outside a bs off hwf (by omega), if_neg hin]

/-- The state that a read leaves: the bytes go out, and one free value is used. -/
def readOut (s : State) (bs : List Byte) : State := { modSched s (fun c => { c with freeCtr := c.freeCtr + 1 }) with outputs := s.outputs ++ [bs] }

/-- A read of HBM without a poisoned line, while debugging is not locked, gives the bytes there. -/
theorem hostRead_hbm (hin : off + n ≤ 2 ^ 39) (hlock : s.reeve.lock = false) (hpoison : s.memPoison = []) :
    hostRead s 0 off n = readOut s ((List.range n).map fun i => readByte s.mem (off + i)) := by
  have hbyte : hostByte s = readByte s.mem := by
    funext a
    simp [hostByte, hlock, hpoison, poisoned]
  have hreport : ∀ bs, reportPoison (readOut s bs) off n = readOut s bs := fun bs => by
    have hnone : (readOut s bs).memPoison = [] := hpoison
    simp [reportPoison, hnone]
  have hbytes : (upFrom off n).map (hostByte s) = (List.range n).map fun i => readByte s.mem (off + i) := by
    rw [hbyte]
    exact readBytes_eq s.mem off n
  simp only [hostRead, populated_hbm hin, hbytes, ne_eq, not_true_eq_false, Bool.not_true, Bool.false_eq_true, or_self, if_false]
  exact hreport _

theorem hostRead_refused {fn : Nat} (h : fn ≠ 0 ∨ populated off n = false) : hostRead s fn off n = { s with outputs := s.outputs ++ [[]] } :=
  if_pos (h.imp_right fun h => by rw [h]; rfl)

end

/-- Settles O38: each clause is the equation of its access above. -/
theorem hostAccesses : Obligations.HostAccesses := by
  unfold Obligations.HostAccesses
  refine ⟨?qcfg, ?troot, ?trootOn, ?lock, ?other, ?write, ?read, ?abort, ?atomic⟩
  case qcfg =>
    intro s q v hq
    refine ⟨_, congrArg Host.Outcome.next ((writeRegister_queue hq (by decide)).trans writeQueue_qcfg), ?_, rfl⟩
    rw [getQueue_modQueue_same, Nat.mod_mod_of_dvd _ (by decide)]
  case troot =>
    intro s n v hn hoff
    refine ⟨_, congrArg Host.Outcome.next ((writeRegister_ctx hn (by decide)).trans (writeCtx_troot_off hoff)), ?_⟩
    rw [getCtx_modCtx_same]
    exact congrArg (· &&& 0x000FFFFFFFFF0000#64) (BitVec.eq_of_toNat_eq (by simp))
  case trootOn => exact fun s n v hn hon => congrArg Host.Outcome.next ((writeRegister_ctx hn (by decide)).trans (writeCtx_troot_on hon))
  case lock =>
    intro s v hbit
    have hbit' : (v.toNat % 2 ^ (8 * 4)).testBit 0 = true := by rw [Nat.testBit_mod_two_pow, BitVec.testBit_toNat, hbit]; rfl
    exact ⟨_, congrArg Host.Outcome.next (writeRegister_lock hbit'), rfl, fun c hc => brken_lockDebug hc⟩
  case other => exact fun s fn off w v hfn hoff => congrArg Host.Outcome.next (writeRegister_other hfn hoff)
  case write =>
    intro s off bs hwf hpos hline hin hseal _
    refine ⟨_, rfl, fun a => ?_⟩
    rw [mem_hostWrite hpos hline hin hseal, readByte_written hwf]
  case read => exact fun s off len hin hlock hpoison => ⟨_, congrArg Host.Outcome.next (hostRead_hbm hin hlock hpoison), rfl, rfl⟩
  case abort => exact fun s fn off len h => congrArg Host.Outcome.next (hostRead_refused h)
  case atomic => exact fun s fn off => rfl

end Sys2Proof.Proofs
end

section
/-!
PROOF. The payload of a FAULT token (spec 18 R315): its fields are those of the number that it carries.
-/

namespace Sys2Proof.Proofs

open Machine Laws Say

theorem classCode_eq (c : FaultClass) : classCode c = classNumber c := by cases c <;> rfl

theorem classNumber_lt (c : FaultClass) : classNumber c < 14 := by cases c <;> decide

/-- A field of a beat that holds a number. -/
theorem extractLsb'_ofNat {lo n : Nat} (h : lo + n ≤ 512) (v : Nat) : (BitVec.ofNat 512 v).extractLsb' lo n = BitVec.ofNat n (v / 2 ^ lo) := by
  refine BitVec.eq_of_getLsbD_eq fun i hi => ?_
  have hin : i + lo < 512 := by omega
  simp only [BitVec.getLsbD_extractLsb', BitVec.getLsbD_ofNat, Nat.testBit_div_two_pow, Nat.add_comm lo i, hin, decide_true, Bool.true_and]

theorem faultRef_eq {r : FaultRec} {fid : Nat} (hfid : r.fid = some fid) (hlt : fid < 65536) (hdie : r.die < 4) :
    faultRef r = fid + r.die * 65536 + classNumber r.cls * 262144 := by
  simp only [faultRef, hfid, Option.getD_some, Nat.mod_eq_of_lt hlt, Nat.mod_eq_of_lt hdie, classCode_eq]

/-- Settles O59: the reference is the sum of its three fields, each at its own place. -/
theorem faultReference : Obligations.FaultReference := by
  unfold Obligations.FaultReference
  intro r fid hfid hlt hdie
  have hcls := classNumber_lt r.cls
  simp only [faultToken, faultRef_eq hfid hlt hdie, true_and]
  refine ⟨?fid, ?die, ?cls, ?above⟩
  all_goals rw [extractLsb'_ofNat (by decide)]; refine BitVec.eq_of_toNat_eq ?_; simp only [BitVec.toNat_ofNat]; omega

end Sys2Proof.Proofs
end

section
/-!
PROOF. The barrier and stage instructions (spec 16 R283, R284, R286, R287): each runs by its own shape, and what its effect leaves is read back field by field; from
these lemmas the obligations BarrierInstructions and StageRings.
-/

namespace Sys2Proof.Proofs

open Machine Laws Say

variable {s : State} {x : BeatIn} {l : Loc} {g : Fin 32} {u : PUpd}

/-! ### Barriers -/

theorem op_specBarArv_member (h : barMember (barOf x.s x.l.plot g) x.l = true) :
    (specBarArv g u).op x = .ok { pred := true, post := arriveEffect g x.l } := if_pos h

theorem op_specBarArv_stranger (h : barMember (barOf x.s x.l.plot g) x.l = false) : (specBarArv g u).op x = badOperand 0 :=
  if_neg (by rw [h]; exact Bool.false_ne_true)

/-- The arrival that an element's firing records now. -/
def arrivalNow (s : State) (l : Loc) (g : Fin 32) : Arrival :=
  { group := g, gen := (barOf s l.plot g).gen, done := false, counted := false, after := unperformed s l
    countAt := if unperformed s l = [] then some (syncNow s l.plot + barLatency (barOf s l.plot g)) else none }

/-- The record holds no arrival of this generation that is not over: the firing's arrival takes its place. -/
theorem arriveEffect_records (h : ∀ a, (Machine.getElem s l).arrival = some a → ¬(a.group = g ∧ a.gen = (barOf s l.plot g).gen ∧ a.done = false)) :
    arriveEffect g l s = setElem s l { Machine.getElem s l with
      arrival := some (arrivalNow s l g)
      late := (Machine.getElem s l).late ++ (Machine.getElem s l).arrival.toList.filter fun a => !a.done } := by
  refine (if_neg fun hsame => ?_).trans ?_
  · cases harr : (Machine.getElem s l).arrival with
    | none => simp [harr] at hsame
    | some a => exact h a harr (by simpa [harr, and_assoc] using hsame)
  · simp only [List.isEmpty_iff, arrivalNow]

theorem watchEffect_first (h : s.sched.cur.beat = 0) (t : Nat) : watchEffect .none g u l t s = modElem s l fun e =>
    { e with ws := wsWord g 1
             watch := some { group := g, target := watchTarget s l g, armedAt := syncNow s l.plot, upd := u, rid := 0
                             expireAt := if t = 0 then none else some (syncNow s l.plot + cyclesOfNs t) } } :=
  if_neg fun hlater => hlater h

theorem op_specBarWch_time {d : Dst} {a : Src} (h : x.a.toWord.toNat < 2 ^ 32) :
    (specBarWch d a g u).op x = .ok { post := watchEffect d g u x.l x.a.toWord.toNat } :=
  if_neg fun hbig => hbig (Nat.div_eq_of_lt h)

theorem op_specBarWch_noTime {d : Dst} {a : Src} (h : 2 ^ 32 ≤ x.a.toWord.toNat) : (specBarWch d a g u).op x = badOperand x.a.toWord :=
  if_pos (Nat.div_pos h (by decide)).ne'

theorem op_specBarMem_legal {a : Src} {pk : Bool} {q : Nat} {m : BitVec 32} (h : proposal x.s x.l.plot x.a.toWord = some (q, m)) :
    (specBarMem a g u pk).op x =
      .ok { pred := m.getLsbD 0, post := fun s => modBar s x.l.plot g fun b => { b with pending := Tbl.put b.pending q m } } := by
  simp only [specBarMem, h]

theorem op_specBarMem_illegal {a : Src} {pk : Bool} (h : proposal x.s x.l.plot x.a.toWord = none) :
    (specBarMem a g u pk).op x = badOperand x.a.toWord := by
  simp only [specBarMem, h]

/-- A beat reads the state as it stands. -/
theorem state_of_fires {sp : FireSpec} (h : Fires sp s x) : x.s = s := (beatIn_reads h.reads).1

/-- Settles O9: each instruction's operation by its own case, and its effect read back. -/
theorem barrierInstructions : Obligations.BarrierInstructions := by
  unfold Obligations.BarrierInstructions
  refine ⟨?arv, ?arvStranger, ?record, ?late, ?wch, ?wchBad, ?wchLater, ?wchArms, ?mem, ?memBad⟩
  case arv =>
    exact fun g u s x h hm => commits_of (op := (specBarArv g u).op) rfl h (op_specBarArv_member (by rw [state_of_fires h]; exact hm)) rfl
  case arvStranger =>
    exact fun g u s x h hm => held_of (op := (specBarArv g u).op) rfl h (op_specBarArv_stranger (by rw [state_of_fires h]; exact hm))
  case record =>
    intro g l s hnone
    rw [arriveEffect_records (by simp [hnone]), getElem_setElem_same _ _ rfl]
    rfl
  case late =>
    intro g l s a harr hgroup hopen
    rw [arriveEffect_records (by rintro b hb ⟨hg, -, -⟩; exact hgroup (by rw [harr] at hb; cases hb; exact hg)), getElem_setElem_same _ _ rfl]
    simp [harr, hopen]
  case wch => exact fun d a g u s x h ht => commits_of (op := (specBarWch d a g u).op) rfl h (op_specBarWch_time ht) rfl
  case wchBad => exact fun d a g u s x h ht => held_of (op := (specBarWch d a g u).op) rfl h (op_specBarWch_noTime ht)
  case wchLater => exact fun d g u l s t hlater => if_pos hlater
  case wchArms =>
    intro g u l s t hfirst
    rw [watchEffect_first hfirst, getElem_modElem_same _ _ rfl]
  case mem =>
    exact fun a g u pk s x q m h hm => commits_of (op := (specBarMem a g u pk).op) rfl h (op_specBarMem_legal (by rw [state_of_fires h]; exact hm)) rfl
  case memBad =>
    exact fun a g u pk s x h hm => held_of (op := (specBarMem a g u pk).op) rfl h (op_specBarMem_illegal (by rw [state_of_fires h]; exact hm))

/-! ### Stage rings -/

variable {n : Fin 8} {role : Role}

theorem op_specStgAcq {d : Dst} {r : Ring} (h : ringOf x.s x.l.plot n = some r) : (specStgAcq d n role u).op x =
    .ok { v := (stageRef x.s x.l.plot n r role).setWidth 512, pred := true, post := fun s => modRing s x.l.plot n (acquireStage role x.l.site) } := by
  simp only [specStgAcq, h]

theorem op_specStgRel {a : Src} {ref : Ref} {st : Stage} (h : releaseOf x.s x.l n role x.a.toWord = some (ref, st)) :
    (specStgRel a n role u).op x = .ok { pred := true, post := fun s => modRing s x.l.plot n (releaseStage role ref.stage) } := by
  simp only [specStgRel, h]

theorem op_specStgRel_refused {a : Src} (h : releaseOf x.s x.l n role x.a.toWord = none) : (specStgRel a n role u).op x = badOperand x.a.toWord := by
  simp only [specStgRel, h]

theorem stages_acquireStage (role : Role) (site : Nat) (r : Ring) : (acquireStage role site r).stages =
    r.stages.mapIdx fun k st => if k = ringIndex r role then { st with owner := site } else st := by
  cases role <;> rfl

/-- Settles O10: each instruction's operation by its own case, and the ring's stages place by place. -/
theorem stageRings : Obligations.StageRings := by
  unfold Obligations.StageRings
  refine ⟨?acq, ?indices, ?owner, ?rel, ?free, ?relBad⟩
  case acq =>
    intro d n role u s x r h hr
    obtain rfl := state_of_fires h
    exact commits_of (op := (specStgAcq d n role u).op) rfl h (op_specStgAcq hr) rfl
  case indices =>
    intro site r
    simp only [acquireStage, ringIndex, List.length_mapIdx, and_self]
  case owner =>
    intro role site r i
    rw [stages_acquireStage, List.getElem?_mapIdx]
  case rel =>
    intro a n role u s x ref st h hr
    obtain rfl := state_of_fires h
    exact commits_of (op := (specStgRel a n role u).op) rfl h (op_specStgRel hr) rfl
  case free =>
    intro role i r k
    simp only [releaseStage, List.getElem?_mapIdx]
    cases role <;> rfl
  case relBad =>
    intro a n role u s x h hr
    obtain rfl := state_of_fires h
    exact held_of (op := (specStgRel a n role u).op) rfl h (op_specStgRel_refused hr)

end Sys2Proof.Proofs
end

section
/-!
PROOF. The tile table, bank hashes and bank counters (spec 13 R217, R224, 11 R185): each instruction's operation case by case, and the layout of an entry; from these
lemmas the obligation TileAndBankInstructions.
-/

namespace Sys2Proof.Proofs

open Machine Laws Say

variable {s : State} {x : BeatIn} {l : Loc} {r : RAct} {f : Ref} {t u : Tile}

/-! ### One instruction's beats, by a condition on what they read -/

section
variable {i : Instr} {sp : FireSpec} {op : BeatIn → BeatRes} {c : BeatIn → Prop}

theorem commits_where {o : BeatIn → BeatOut} (hexec : ∀ s, exec i s = runBeat { sp with op := op } s) (hop : ∀ x, c x → op x = .ok (o x))
    (hquiet : ∀ x, (o x).flags = 0#7) : Commits i sp c o :=
  fun s x h hc => commits_of (hexec s) h (hop x hc) (hquiet x)

theorem raisesOperand_where {w : BeatIn → Word} (hexec : ∀ s, exec i s = runBeat { sp with op := op } s)
    (hop : ∀ x, c x → op x = badOperand (w x)) : RaisesOperand i sp c w :=
  fun s _ h hc => held_of (hexec s) h (hop _ hc)

end

/-! ### The tile table -/

theorem ownTile_eq_some_iff (w : Word) : ownTile s l w = some (f, t) ↔ useRefIn (tileNow s l.plot) w = some (f, t) ∧ t.site = l.site ∧ t.ring = false := by
  unfold ownTile
  cases huse : useRefIn (tileNow s l.plot) w with
  | none => simp
  | some p =>
    obtain ⟨f', t'⟩ := p
    simp only [Option.ite_none_right_eq_some, Option.some.injEq, Prod.mk.injEq, Bool.not_eq_true']
    constructor
    · rintro ⟨hown, rfl, rfl⟩
      exact ⟨⟨rfl, rfl⟩, hown⟩
    · rintro ⟨⟨rfl, rfl⟩, hown⟩
      exact ⟨hown, rfl, rfl⟩

theorem reshape_eq_some_iff {h : Nat} {w : Word} : reshape s l h t w = some u ↔ ∃ d, readDesc w = some (h, d) ∧ d.site = t.site ∧ d.level = t.level ∧ d.ndx = t.ndx ∧
    d.ndy = t.ndy ∧ shapeOk s l.plot d = true ∧ tileSize d ≤ t.size ∧
    u = { t with fmt := d.fmt, layout := d.layout, rows := d.rows, rb := d.rb, gen := (t.gen + 1) % 256 } := by
  unfold reshape
  cases hdesc : readDesc w with
  | none => simp
  | some p =>
    obtain ⟨h', d⟩ := p
    simp only [Option.ite_none_right_eq_some, Option.some.injEq, Prod.mk.injEq]
    constructor
    · rintro ⟨⟨rfl, hsite, hlevel, hx, hy, hok, hsize⟩, rfl⟩
      exact ⟨d, ⟨rfl, rfl⟩, hsite, hlevel, hx, hy, hok, hsize, rfl⟩
    · rintro ⟨_, ⟨rfl, rfl⟩, hsite, hlevel, hx, hy, hok, hsize, rfl⟩
      exact ⟨⟨rfl, hsite, hlevel, hx, hy, hok, hsize⟩, rfl⟩

/-- A tile that is placed is allocated, with its own size, and nothing else of it changes but its base. -/
theorem placeTile_eq_some {plot h : Nat} (hplace : placeTile s plot h t = some u) : ∃ b, u = { t with alloc := true, base := b, size := tileSize t } := by
  obtain ⟨b, -, rfl⟩ := Option.map_eq_some_iff.1 hplace
  exact ⟨b, rfl⟩

theorem newTile_places {h : Nat} {w : Word} (hdesc : readDesc w = some (h, t)) (hfree : (tileNow s l.plot h).alloc = false) (hsite : t.site = l.site)
    (hok : shapeOk s l.plot t = true)
    (hplace : placeTile s l.plot h { t with ring := (tileNow s l.plot h).ring, gen := ((tileNow s l.plot h).gen + 1) % 256 } = some u) :
    newTile s l w = some (h, u) := by
  have hmay : (!(tileNow s l.plot h).alloc && t.site == l.site && shapeOk s l.plot t) = true := by simp [hfree, hsite, hok]
  simp only [newTile, hdesc, hmay, if_true, hplace, Option.map_some]

theorem op_specTileNew {h : Nat} (hnew : newTile x.s x.l x.a.toWord = some (h, u)) :
    (specTileNew r).op x = .ok (refOut h u fun s => setTile s x.l.plot h u) := by
  simp only [specTileNew, specR_op, hnew, refOut]

theorem op_specTileNew_none (hnew : newTile x.s x.l x.a.toWord = none) : (specTileNew r).op x = badOperand x.a.toWord := by
  simp only [specTileNew, specR_op, hnew]

theorem op_specTileFree (hown : ownTile x.s x.l x.a.toWord = some (f, t)) :
    (specTileFree r).op x = .ok { post := fun s => setTile s x.l.plot f.handle { gen := (t.gen + 1) % 256 } } := by
  simp only [specTileFree, specR_op, hown]

theorem op_specTileFree_none (hown : ownTile x.s x.l x.a.toWord = none) : (specTileFree r).op x = badOperand x.a.toWord := by
  simp only [specTileFree, specR_op, hown]

theorem op_specTileShp (hown : ownTile x.s x.l x.a.toWord = some (f, t)) (hshape : reshape x.s x.l f.handle t x.b.toWord = some u) :
    (specTileShp r).op x = .ok (refOut f.handle u fun s => setTile s x.l.plot f.handle u) := by
  simp only [specTileShp, specR_op, hown, hshape, refOut]

theorem op_specTileShp_none (hown : ownTile x.s x.l x.a.toWord = none) : (specTileShp r).op x = badOperand x.a.toWord := by
  simp only [specTileShp, specR_op, hown]

theorem op_specTileShp_shape (hown : ownTile x.s x.l x.a.toWord = some (f, t)) (hshape : reshape x.s x.l f.handle t x.b.toWord = none) :
    (specTileShp r).op x = badOperand x.b.toWord := by
  simp only [specTileShp, specR_op, hown, hshape]

/-! ### The layout of an entry (spec 11 R185) -/

/-- The number of two words side by side. -/
theorem toNat_append {n m : Nat} (a : BitVec n) (b : BitVec m) : (a ++ b).toNat = a.toNat * 2 ^ m + b.toNat := by
  rw [BitVec.toNat_append, ← Nat.shiftLeft_add_eq_or_of_lt b.isLt, Nat.shiftLeft_eq]

theorem toNat_ofInt_wrapTo (n : Nat) (v : Int) : (BitVec.ofInt n v).toNat = wrapTo n v := by simp [wrapTo, BitVec.toNat_ofInt]

theorem wrapTo_lt (n : Nat) (v : Int) : wrapTo n v < 2 ^ n := by
  rw [← toNat_ofInt_wrapTo]
  exact (BitVec.ofInt n v).isLt

theorem tileWord_layout (halloc : t.alloc = true) : tileWord t =
    (1#1 ++ BitVec.ofBool t.ring ++ BitVec.ofNat 2 t.level ++ BitVec.ofNat 4 t.fmt ++ BitVec.ofNat 2 t.layout ++ BitVec.ofNat 8 (t.rows - 1) ++
      BitVec.ofNat 6 (t.rb / 64 - 1) ++ BitVec.ofNat 5 t.site ++ BitVec.ofInt 4 t.ndy ++ BitVec.ofInt 5 t.ndx ++ BitVec.ofNat 8 t.gen ++ 0#1 ++
      BitVec.ofNat 8 t.infl ++ 0#9 : BitVec 64) := by
  have hy := wrapTo_lt 4 t.ndy
  have hx := wrapTo_lt 5 t.ndx
  have hring : (BitVec.ofBool t.ring).toNat = if t.ring then 1 else 0 := by cases t.ring <;> rfl
  refine BitVec.eq_of_toNat_eq ?_
  simp only [tileWord, halloc, Bool.not_true, Bool.false_eq_true, if_false, toNat_append, BitVec.toNat_ofNat, toNat_ofInt_wrapTo, hring]
  cases t.ring <;> simp only [Bool.false_eq_true, if_false, if_true] <;> omega

/-! ### Hashes and counters -/

/-- The plot's masks from the next cycle on. -/
def newHash (x : BeatIn) (r : RAct) (s : State) : State :=
  modPlot s x.l.plot fun p => { p with hash := (maskTokens x r.sa).map (BitVec.ofNat 32), hashAt := now s + 1 }

theorem op_specHashSet (hwide : (maskTokens x r.sa).find? (fun m => decide (2 ^ 32 ≤ m)) = none) (hok : masksOk (maskTokens x r.sa) = true) :
    (specHashSet r).op x = .ok { post := fun s => newHash x r (dequeueAll (dequeueAll (dequeueAll (dequeueAll s x.l r.sa.chans) x.l r.sa.chans) x.l r.sa.chans) x.l r.sa.chans) } := by
  simp only [specHashSet, specR_op, hwide, hok, if_true, List.foldl_cons, List.foldl_nil, newHash]

theorem op_specHashSet_masks (hwide : (maskTokens x r.sa).find? (fun m => decide (2 ^ 32 ≤ m)) = none) (hok : masksOk (maskTokens x r.sa) = false) :
    (specHashSet r).op x = badOperand x.a.toWord := by
  simp only [specHashSet, specR_op, hwide, hok, Bool.false_eq_true, if_false]

theorem op_specHashSet_wide {m : Nat} (hwide : (maskTokens x r.sa).find? (fun m => decide (2 ^ 32 ≤ m)) = some m) :
    (specHashSet r).op x = badOperand (BitVec.ofNat 64 m) := by
  simp only [specHashSet, specR_op, hwide]

/-- Settles O24: each instruction's operation by its own case. -/
theorem tileAndBankInstructions : Obligations.TileAndBankInstructions := by
  unfold Obligations.TileAndBankInstructions
  refine ⟨fun s l w f t => ownTile_eq_some_iff w, fun s l h t w u => reshape_eq_some_iff, ?new, ?newBad, ?free, ?freeBad, ?shp, ?shpBad, ?shpShape, ?qry, ?qryBad,
    ?word, fun t => tileWord_layout, ?hash, ?hashMasks, ?hashWide, ?rd, ?rdBad, ?clr, ?clrBad⟩
  case new =>
    intro r s x h t u hfires hdesc hfree hsite hok hplace
    obtain ⟨b, hu⟩ := placeTile_eq_some hplace
    refine ⟨by rw [hu], by rw [hu], by rw [hu]; rfl, ?_⟩
    obtain rfl := state_of_fires hfires
    exact commits_of (op := (specTileNew r).op) rfl hfires (op_specTileNew (newTile_places hdesc hfree hsite hok hplace)) rfl
  case newBad => exact fun r => raisesOperand_where (op := (specTileNew r).op) (fun _ => rfl) fun x h => op_specTileNew_none h
  case free =>
    intro r s x f t hfires hown
    obtain rfl := state_of_fires hfires
    exact commits_of (op := (specTileFree r).op) rfl hfires (op_specTileFree hown) rfl
  case freeBad => exact fun r => raisesOperand_where (op := (specTileFree r).op) (fun _ => rfl) fun x h => op_specTileFree_none h
  case shp =>
    intro r s x f t u hfires hown hshape
    obtain ⟨d, -, -, -, -, -, -, hsize, hu⟩ := reshape_eq_some_iff.1 hshape
    refine ⟨by rw [hu], by rw [hu], by rw [hu]; exact hsize, ?_⟩
    obtain rfl := state_of_fires hfires
    exact commits_of (op := (specTileShp r).op) rfl hfires (op_specTileShp hown hshape) rfl
  case shpBad => exact fun r => raisesOperand_where (op := (specTileShp r).op) (fun _ => rfl) fun x h => op_specTileShp_none h
  case shpShape =>
    refine fun r => raisesOperand_where (op := (specTileShp r).op) (fun _ => rfl) fun x h => ?_
    obtain ⟨f, t, hown, hshape⟩ := h
    exact op_specTileShp_shape hown hshape
  case qry => exact fun r => commits_where (op := (specTileQry r).op) (fun _ => rfl) (fun x h => if_pos h) fun _ => rfl
  case qryBad => exact fun r => raisesOperand_where (op := (specTileQry r).op) (fun _ => rfl) fun x h => if_neg (Nat.not_lt.2 h)
  case word => exact fun t h => if_pos (by rw [h]; rfl)
  case hash => exact fun r => commits_where (op := (specHashSet r).op) (fun _ => rfl) (fun x h => op_specHashSet h.1 h.2) fun _ => rfl
  case hashMasks => exact fun r => raisesOperand_where (op := (specHashSet r).op) (fun _ => rfl) fun x h => op_specHashSet_masks h.1 h.2
  case hashWide =>
    refine fun r => raisesOperand_where (op := (specHashSet r).op) (fun _ => rfl) fun x h => ?_
    obtain ⟨m, hm⟩ := Option.isSome_iff_exists.1 h
    rw [op_specHashSet_wide hm, hm]
    rfl
  case rd => exact fun r => commits_where (op := (specBankRd r).op) (fun _ => rfl) (fun x h => if_pos h) fun _ => rfl
  case rdBad => exact fun r => raisesOperand_where (op := (specBankRd r).op) (fun _ => rfl) fun x h => if_neg (Nat.not_lt.2 h)
  case clr => exact fun r => commits_where (op := (specBankClr r).op) (fun _ => rfl) (fun x h => if_pos h) fun _ => rfl
  case clrBad => exact fun r => raisesOperand_where (op := (specBankClr r).op) (fun _ => rfl) fun x h => if_neg (Nat.not_lt.2 h)

end Sys2Proof.Proofs
end

section
/-!
SUPPORT. What the waves of an element do to its requests (spec 12 R204): they enter, each keeping everything but its phase and its place.
-/

namespace Sys2Proof.Laws

open Machine

variable {s t u : State}

/-- A request without its phase and its place. -/
def unplaced (q : Req) : Req := { q with phase := .entered, place := 0 }

/-- The requests of t are those of s, but for phases and places. -/
def ReqsKept (s t : State) : Prop := t.reqs.map unplaced = s.reqs.map unplaced

theorem reqsKept_of_eq (h : t.reqs = s.reqs) : ReqsKept s t := congrArg (List.map unplaced) h

theorem reqsKept_trans (h : ReqsKept s t) (k : ReqsKept t u) : ReqsKept s u := Eq.trans k h

theorem reqsKept_enterReq (s : State) (id : Nat) : ReqsKept s (enterReq s id) := by
  refine List.map_map.trans (List.map_congr_left fun q _ => ?_)
  simp only [Function.comp_apply]
  split <;> rfl

theorem reqsKept_endWave (s : State) (l : Loc) : ReqsKept s (endWave s l) :=
  foldl_keeps (fun s => s.reqs.map unplaced) (f := fun s (q : Req) => enterReq s q.id) (fun s q => reqsKept_enterReq s q.id) _ s

theorem reqsKept_enterWave (s : State) (q : Req) : ReqsKept s (enterWave s q) := by
  unfold enterWave
  dsimp only
  split <;> exact reqsKept_enterReq s q.id

theorem length_of_reqsKept (h : ReqsKept s t) : t.reqs.length = s.reqs.length := by simpa using congrArg List.length h

theorem exists_of_reqsKept (h : ReqsKept s t) {q : Req} (hq : q ∈ s.reqs) : ∃ r ∈ t.reqs, unplaced r = unplaced q :=
  List.mem_map.1 (h ▸ List.mem_map_of_mem hq)

/-- A reserved entry is no request. -/
@[simp] theorem reserve_reqs (s : State) (l : Loc) (d : Dst) (rid : Nat) (join : Bool) : (reserve s l d rid join).reqs = s.reqs := by
  unfold reserve
  refine (foldl_keeps State.reqs (fun s o => pushOut_reqs s l o _) _ _).trans ?_
  split <;> rfl

theorem waveNo_of_flows (h : Flows s t) (l : Loc) : (Machine.getElem t l).waveNo = (Machine.getElem s l).waveNo := (congrArg Elem.waveNo (h.elem l).rest :)

@[simp] theorem waveNo_reserve (s : State) (l : Loc) (d : Dst) (rid : Nat) (join : Bool) (m : Loc) :
    (Machine.getElem (reserve s l d rid join) m).waveNo = (Machine.getElem s m).waveNo := by
  unfold reserve
  refine (foldl_keeps (fun s => (Machine.getElem s m).waveNo) (fun s o => waveNo_of_flows (flows_pushOut s l o _) m) _ _).trans ?_
  split
  · by_cases h : locKey m = locKey l
    · rw [getElem_modElem_same _ _ h]
    · rw [getElem_modElem_other _ _ h]
  · rfl

end Sys2Proof.Laws
end

section
/-!
PROOF. What a memory instruction's beat issues (spec 13 R225 to R228, 16 R288, 17 R305): the request, what it follows, and a fence's end; from these lemmas
the obligation MemoryIssue.
-/

namespace Sys2Proof.Proofs

open Machine Laws Say

variable {s t : State} {l : Loc} {q : Req} {d : Dst}

/-! ### What a request follows -/

/-- A release follows every earlier request of its element at its own scope, any other request the acquires among them. -/
theorem mem_depsOf (hkept : ReqsKept s t) {x : Req} (hx : x ∈ s.reqs) (hl : x.issuer = l) (hm : isMForm x = true) (op : ReqOp) (ord : MOrd) (sc : Scope) :
    (isRelease op ord = true → (x.id, sc) ∈ depsOf t l op ord sc) ∧
    (isRelease op ord = false → isAcquire x = true → (x.id, x.scope) ∈ depsOf t l op ord sc) := by
  obtain ⟨y, hy, hsame⟩ := exists_of_reqsKept hkept hx
  obtain ⟨hid, hissuer, hform, hacq, hscope⟩ : y.id = x.id ∧ y.issuer = x.issuer ∧ isMForm y = isMForm x ∧ isAcquire y = isAcquire x ∧ y.scope = x.scope := by
    refine ⟨(congrArg Req.id hsame :), (congrArg Req.issuer hsame :), ?_, ?_, (congrArg Req.scope hsame :)⟩
    · exact (congrArg isMForm hsame :)
    · exact (congrArg isAcquire hsame :)
  simp only [depsOf, List.mem_map, List.mem_filter]
  constructor
  · exact fun hrel => ⟨y, ⟨hy, by simp [hissuer, hl, hform, hm, hrel]⟩, by simp [hid, hrel]⟩
  · exact fun hrel hacquire => ⟨y, ⟨hy, by simp [hissuer, hl, hform, hm, hacq, hacquire]⟩, by simp [hid, hscope, hrel]⟩

/-! ### The request issued -/

/-- The number of the entry for a firing's response, and the state in which its request is issued: that entry is reserved. -/
def entryId (d : Dst) (s : State) : Nat := if d = .none then 0 else s.sched.nextId
def reserved (d : Dst) (l : Loc) (s : State) : State := if d = .none then s else reserve (bumpId s) l d (entryId d s) true

@[simp] theorem reserved_reqs (d : Dst) (l : Loc) (s : State) : (reserved d l s).reqs = s.reqs := by
  unfold reserved
  split
  · rfl
  · exact reserve_reqs ..

/-- The request that enters an endpoint behind those of a state, whose element has had its wave ended where the slot asks for that. -/
def entering (s : State) (l : Loc) (slot : Fin 16) (w : BitVec 16) (q : Req) : Req :=
  { q with id := freshId s, thr := waveThread s l, issuer := l, le := endpointOf l, ctx := ctxOf s l.plot, slot := slot.val, seq := waveSeq w, pred := wavePred w
           after := depsOf s l q.op q.ord q.scope, born := now s + 1 }

/-- A request is issued behind those before it, which keep all but phase and place. -/
theorem issueReq_enters (s : State) (l : Loc) (slot : Fin 16) (q : Req) : ∃ u w, ∃ r ∈ (issueReq s l slot q).reqs, ReqsKept s u ∧
    (issueReq s l slot q).reqs.length = s.reqs.length + 1 ∧ unplaced r = unplaced { entering u l slot w q with watch := watchMatches u (entering u l slot w q) } := by
  let w := (Machine.getElem s l).wave[slot]
  let u := if waveSeq w ≠ 31 ∧ (Machine.getElem s l).waveSeen.contains (waveSeq w) then endWave s l else s
  let v := addReq u (entering u l slot w q)
  let v' := if waveSeq w = 31 ∨ wavePred w = 31 ∨ (Machine.getElem v l).waveSeen.contains (wavePred w) then enterWave v (entering u l slot w q) else v
  have hissue : issueReq s l slot q = if waveLiw w ∨ (waveSeq w ≠ 31 ∧ waveSucc w ≠ 31 ∧ waveSucc w ≤ waveSeq w) then endWave v' l else v' := rfl
  have hu : ReqsKept s u := by
    unfold u
    split
    · exact reqsKept_endWave s l
    · exact reqsKept_of_eq rfl
  have hv' : ReqsKept v v' := by
    unfold v'
    split
    · exact reqsKept_enterWave ..
    · exact reqsKept_of_eq rfl
  have hend : ReqsKept v (issueReq s l slot q) := by
    rw [hissue]
    split
    · exact reqsKept_trans hv' (reqsKept_endWave v' l)
    · exact hv'
  have hreqs : v.reqs = u.reqs ++ [{ entering u l slot w q with watch := watchMatches u (entering u l slot w q) }] := addReq_reqs ..
  obtain ⟨r, hr, hsame⟩ := exists_of_reqsKept hend (hreqs ▸ List.mem_append_right _ (List.mem_singleton.2 rfl))
  refine ⟨u, w, r, hr, hu, ?_, hsame⟩
  rw [length_of_reqsKept hend, hreqs, List.length_append, length_of_reqsKept hu, List.length_singleton]

theorem issued_issueEffect (d : Dst) (q : Req) (s : State) : ∃ r, Issued s (issueEffect d q s) d s.sched.cur.l q r := by
  have hissue : issueEffect d q s = issueReq (reserved d s.sched.cur.l s) s.sched.cur.l s.sched.cur.slot
      { q with rid := entryId d s, beat := s.sched.cur.beat, act := curAct (reserved d s.sched.cur.l s) } := rfl
  obtain ⟨u, w, r, hr, hkept, hlen, hsame⟩ := issueReq_enters (reserved d s.sched.cur.l s) s.sched.cur.l s.sched.cur.slot
    { q with rid := entryId d s, beat := s.sched.cur.beat, act := curAct (reserved d s.sched.cur.l s) }
  have hkept' : ReqsKept s u := reqsKept_trans (reqsKept_of_eq (reserved_reqs ..)) hkept
  rw [← hissue] at hr hlen
  refine ⟨r, hr, by rw [hlen, reserved_reqs], ?_, ?_, ?_, ?_⟩
  · exact ⟨(congrArg Req.op hsame :), (congrArg Req.va hsame :), (congrArg Req.size hsame :), (congrArg Req.algn hsame :), (congrArg Req.data hsame :), (congrArg Req.data2 hsame :),
      (congrArg Req.ord hsame :), (congrArg Req.scope hsame :)⟩
  · exact (congrArg Req.issuer hsame :)
  · exact (congrArg Req.rid hsame :)
  · intro x hx hl hm
    rw [show r.after = depsOf u s.sched.cur.l q.op q.ord q.scope from (congrArg Req.after hsame :)]
    exact mem_depsOf hkept' hx hl hm ..

/-! ### The fence -/

/-- The fence that ends an element's wave: the state is that after the wave. -/
def fenceReq (s : State) (sc : Scope) (l : Loc) (rid : Nat) : Req :=
  { id := freshId s, thr := waveThread s l, issuer := l, le := endpointOf l, ctx := ctxOf s l.plot, op := .fence, scope := sc, phase := .entered
    after := depsOf s l .fence .ordered sc, rid := rid, born := now s + 1 }

theorem fenceEffect_eq (d : Dst) (sc : Scope) (l : Loc) (s : State) : fenceEffect d sc l s =
    bumpId { endWave (reserved d l s) l with
      reqs := (endWave (reserved d l s) l).reqs ++ [fenceReq (endWave (reserved d l s) l) sc l (entryId d s)] } := rfl

theorem getElem_reserved_waveNo (d : Dst) (l : Loc) (s : State) : (Machine.getElem (reserved d l s) l).waveNo = (Machine.getElem s l).waveNo := by
  unfold reserved
  split
  · rfl
  · exact waveNo_reserve (bumpId s) l d _ true l

theorem getElem_endWave_waveNo (s : State) (l : Loc) : (Machine.getElem (endWave s l) l).waveNo = (Machine.getElem s l).waveNo + 1 := by
  have hkept : ∀ qs : List Req, Machine.getElem (qs.foldl (fun s q => enterReq s q.id) s) l = Machine.getElem s l :=
    fun qs => foldl_keeps (Machine.getElem · l) (f := fun s (q : Req) => enterReq s q.id) (fun _ _ => rfl) qs s
  unfold endWave
  rw [getElem_modElem_same _ _ rfl, hkept]

theorem issued_fenceEffect (d : Dst) (sc : Scope) (l : Loc) (s : State) : ∃ r, Issued s (fenceEffect d sc l s) d l
    { thr := r.thr, issuer := l, le := r.le, op := .fence, va := 0, ord := .plain, scope := sc } r ∧ r.phase = .entered := by
  have hkept : ReqsKept s (endWave (reserved d l s) l) := reqsKept_trans (reqsKept_of_eq (reserved_reqs ..)) (reqsKept_endWave _ l)
  refine ⟨fenceReq (endWave (reserved d l s) l) sc l (entryId d s), ⟨?_, ?_, ⟨rfl, rfl, rfl, rfl, rfl, rfl, rfl, rfl⟩, rfl, rfl, ?_⟩, rfl⟩
  · rw [fenceEffect_eq]
    exact List.mem_append_right _ (List.mem_singleton.2 rfl)
  · rw [fenceEffect_eq]
    exact (List.length_append ..).trans (congrArg (· + 1) (length_of_reqsKept hkept))
  · exact fun x hx hl hm => mem_depsOf hkept hx hl hm .fence .ordered sc

/-! ### Fences at their home -/

theorem performReq_fence (h : Enters s q) (hop : q.op = .fence) : performReq s q = setPerformed s q.id 0 0 := by
  simp [performReq, h.phase, h.deps, h.table, hop]

theorem performReq_fence_waits (hphase : q.phase = .entered) (hop : q.op = .fence) (hdeps : depsDone s q.after = false) : performReq s q = s := by
  simp [performReq, hphase, hdeps, hop, isStoreOp]

/-- A request that is performed stands so. -/
theorem performed_setPerformed (hfound : findReq s q.id = some q) (data : Nat) (f : Flags) : Performed (setPerformed s q.id (BitVec.ofNat 512 data) f) q.id data f :=
  ⟨_, findReq_setPerformed hfound _ f, rfl⟩

theorem casNew_ch {x : BeatIn} {n : Fin 4} {e : Entry} {tok : Token} (he : (inPort x.e n).q.es[1]? = some e) (hbody : e.body = some tok) :
    casNew x (.ch n) = (payload tok).toWord := by
  simp only [casNew, he, Option.bind_some, hbody]

/-- Settles O18: each beat commits with the request of its operation, and a fence is performed at its home once what it follows is. -/
theorem memoryIssue : Obligations.MemoryIssue := by
  unfold Obligations.MemoryIssue
  refine ⟨?ld, ?st, ?amo, ?red, ?cas, ?fence, fun x n => rfl, fun x n e tok => casNew_ch, fun d q s _ => issued_issueEffect d q s, ?fenceIssued, ?fenceDone, ?fenceWaits⟩
  case ld => exact fun m sx s x h => commits_of (op := (specLd m sx).op) rfl h rfl rfl
  case st => exact fun m s x h => commits_of (op := (specSt m).op) rfl h rfl rfl
  case amo => exact fun m op fcs s x h => commits_of (op := (specAmo m op fcs).op) rfl h rfl rfl
  case red => exact fun m op fcs s x h => commits_of (op := (specRed m op fcs).op) rfl h rfl rfl
  case cas => exact fun m s x h => commits_of (op := (specAmoCas m).op) rfl h rfl rfl
  case fence => exact fun d sc s x h => commits_of (op := (specWfence d sc).op) rfl h rfl rfl
  case fenceIssued =>
    intro d sc l s _
    obtain ⟨r, hissued, hphase⟩ := issued_fenceEffect d sc l s
    refine ⟨r, hissued, hphase, ?_⟩
    rw [← getElem_reserved_waveNo d l s]
    exact getElem_endWave_waveNo ..
  case fenceDone =>
    intro s q h hop
    refine ⟨_, congrArg Host.Outcome.next ((performAccess_req h.found).trans (performReq_fence h hop)), performed_setPerformed h.found 0 0, rfl⟩
  case fenceWaits =>
    exact fun s q hfound hphase hop hdeps => congrArg Host.Outcome.next ((performAccess_req hfound).trans (performReq_fence_waits hphase hop hdeps))

end Sys2Proof.Proofs
end

section
/-!
PROOF. The steps of a barrier (spec 16 R282, R285): an arrival that is due is counted and may complete its phase; what a completed phase leaves; a watch that
resolves; from these lemmas the obligation BarrierSteps.
-/

namespace Sys2Proof.Proofs

open Machine Laws Say

variable {s : State} {l : Loc} {g : Fin 32} {plot p : Nat}

/-! ### A group changed -/

section
variable (hparcel : (getPlot s plot).parcel = some p) (hfound : (Tbl.find s.parcels p).isSome = true) (f : BarGroup → BarGroup)
include hparcel

theorem modBar_eq : modBar s plot g f = modParcel s p fun q => { q with bars := Tbl.put q.bars g.val (f (Tbl.findD q.bars g.val {})) } := by
  simp only [modBar, hparcel]

theorem barOf_eq (g : Fin 32) : barOf s plot g = Tbl.findD (getParcel s p).bars g.val {} := by
  simp only [barOf, hparcel]

include hfound

theorem getParcel_modBar : getParcel (modBar s plot g f) p =
    { getParcel s p with bars := Tbl.put (getParcel s p).bars g.val (f (barOf s plot g)) } := by
  rw [modBar_eq hparcel, getParcel_modParcel_same _ _ _ hfound, barOf_eq hparcel]

theorem barOf_modBar_same : barOf (modBar s plot g f) plot g = f (barOf s plot g) := by
  have hp : (getPlot (modBar s plot g f) plot).parcel = some p := by rw [modBar_eq hparcel]; exact hparcel
  rw [barOf_eq hp, getParcel_modBar hparcel hfound, findD_put_same]

theorem barOf_modBar_other {g' : Fin 32} (h : g' ≠ g) : barOf (modBar s plot g f) plot g' = barOf s plot g' := by
  have hp : (getPlot (modBar s plot g f) plot).parcel = some p := by rw [modBar_eq hparcel]; exact hparcel
  rw [barOf_eq hp, getParcel_modBar hparcel hfound, findD_put_other _ _ _ (fun e => h (Fin.ext e)), barOf_eq hparcel]

theorem syncNow_modBar : syncNow (modBar s plot g f) plot = syncNow s plot := by
  have hp : (getPlot (modBar s plot g f) plot).parcel = some p := by rw [modBar_eq hparcel]; exact hparcel
  simp only [syncNow, sectionCycles, hp, hparcel, getParcel_modBar hparcel hfound, Option.isSome_some, if_true]

theorem membersKnown_modBar : membersKnown (modBar s plot g f) plot = membersKnown s plot := by
  have hp : (getPlot (modBar s plot g f) plot).parcel = some p := by rw [modBar_eq hparcel]; exact hparcel
  have hplots : ∀ n, getPlot (modBar s plot g f) n = getPlot s n := fun n => by rw [modBar_eq hparcel]; rfl
  have hblock : blockKnown (modBar s plot g f) (getParcel (modBar s plot g f) p) = blockKnown s (getParcel s p) := by
    funext n
    rw [getParcel_modBar hparcel hfound, blockKnown, hplots]
    rfl
  simp only [membersKnown, hp, hparcel, hblock]
  rw [getParcel_modBar hparcel hfound]
  rfl

theorem find_modBar : (Tbl.find (modBar s plot g f).parcels p).isSome = true := by
  rw [modBar_eq hparcel]
  simp only [modParcel, find_alter_same, Option.isSome_map, hfound]

end

theorem elems_modBar (s : State) (plot : Nat) (g : Fin 32) (f : BarGroup → BarGroup) : (modBar s plot g f).elems = s.elems := by
  unfold modBar
  split <;> rfl

theorem parcel_modBar (s : State) (plot : Nat) (g : Fin 32) (f : BarGroup → BarGroup) (n : Nat) : getPlot (modBar s plot g f) n = getPlot s n := by
  unfold modBar
  split <;> rfl

/-! ### Arrivals -/

/-- What counting an arrival does to its group, before the phase completes. -/
def withArrival (l : Loc) (gen : Nat) (b : BarGroup) : BarGroup := if b.gen = gen then { b with arrived := l :: b.arrived } else b

/-- The phase of a group with all its members arrived completes. -/
def afterAll (t : Nat) (b : BarGroup) : BarGroup := if (barMembers b).all (fun m => b.arrived.contains m) && !(barMembers b).isEmpty then completePhase t b else b

theorem afterAll_withArrival (t : Nat) (l : Loc) (gen : Nat) (b : BarGroup) : afterAll t (withArrival l gen b) = counted t l gen b := by
  unfold afterAll counted
  refine if_congr ?_ rfl rfl
  simp [and_comm, withArrival]

/-- An arrival that is due is counted, and its group's phase completes with the last. -/
theorem advanceArrival_due {a : Arrival} {t : Nat} (hparcel : (getPlot s l.plot).parcel = some p) (hfound : (Tbl.find s.parcels p).isSome = true)
    (hknown : membersKnown s l.plot = true) (hat : a.countAt = some t) (hnew : a.counted = false) (hdue : t ≤ syncNow s l.plot) :
    advanceArrival s l a = (modBar (modBar s l.plot a.group (withArrival l a.gen)) l.plot a.group (afterAll (syncNow s l.plot)), { a with counted := true }) := by
  have hcount : countArrival s l a = (modBar s l.plot a.group (withArrival l a.gen), { a with counted := true }) := by
    simp only [countArrival, hat, hnew, Bool.not_false, hdue, true_and, if_true]
    rfl
  have hable : arrivalCountable s l a = a := by simp only [arrivalCountable, hat]
  simp only [advanceArrival, hable, hcount, completeIfAll, membersKnown_modBar hparcel hfound, hknown, if_true, syncNow_modBar hparcel hfound]
  rfl

theorem countLate_none (h : (Machine.getElem s l).late = []) : countLate s l = s := by simp only [countLate, h, List.foldl_nil]

/-! ### Phases -/

theorem find_foldl_put {α : Type} (n : Nat) : ∀ (xs : List (Nat × α)) (t : Tbl α), (xs.map (·.1)).Nodup →
    Tbl.find (xs.foldl (fun m x => Tbl.put m x.1 x.2) t) n = (Tbl.find xs n).or (Tbl.find t n)
  | [], t, _ => by simp
  | (k, v) :: xs, t, h => by
    obtain ⟨hk, hxs⟩ := List.nodup_cons.1 h
    rw [List.foldl_cons, find_foldl_put n xs _ hxs, find_put, Tbl.find]
    by_cases hn : n = k
    · have hnone : Tbl.find xs n = none := by
        cases hx : Tbl.find xs n with
        | none => rfl
        | some x => exact absurd (List.mem_map_of_mem (mem_of_find_eq_some hx)) (hn ▸ hk)
      simp [hn, hn ▸ hnone]
    · simp [hn]

/-! ### Watches -/

theorem find_map_snd {α β : Type} (f : α → β) (n : Nat) : ∀ t : Tbl α, Tbl.find (t.map fun x => (x.1, f x.2)) n = (Tbl.find t n).map f
  | [] => rfl
  | (k, v) :: t => by
    simp only [List.map_cons, Tbl.find, find_map_snd f n t]
    split <;> rfl

/-- An element just set keeps all but its queues when entries are filled. -/
theorem getElem_fillRid_set (s : State) (l : Loc) (e : Elem) (rid : Nat) (tok : Token) :
    Machine.getElem (fillRid (setElem s l e) rid tok) l = fillElem rid tok (now s + 1) e := by
  simp only [Machine.getElem, fillRid, setElem_elems, Tbl.findD, find_map_snd, find_put_same, Option.map_some, Option.getD_some]
  rfl

/-- Where a watch resolves without a token to fill, the element alone changes. -/
theorem getElem_resolveWatch (s : State) (l : Loc) (w : Watch) (st : Nat) (hupd : w.upd = .none) :
    (Machine.getElem (resolveWatch s l w st) l).ws = wsWord w.group st ∧ (Machine.getElem (resolveWatch s l w st) l).watch = none := by
  simp only [resolveWatch, getElem_fillRid_set, hupd, setPred, modElem]
  exact ⟨rfl, rfl⟩

/-- Settles O11: each clause is the lemma of its step above. -/
theorem barrierSteps : Obligations.BarrierSteps := by
  unfold Obligations.BarrierSteps
  refine ⟨?count, fun t b => ⟨rfl, rfl, rfl⟩, fun t b plot h => find_foldl_put plot b.pending b.members h, ?complete, ?expire, ?resolve⟩
  case count =>
    intro l s a t p harr hlate hruns hknown hat hnew hdue hparcel hfound
    have hadv := advanceArrival_due hparcel hfound hknown hat hnew hdue
    set v := modBar s l.plot a.group (withArrival l a.gen) with hv
    set u := modBar v l.plot a.group (afterAll (syncNow s l.plot)) with hu
    have hparcel' : (getPlot v l.plot).parcel = some p := by rw [hv, parcel_modBar]; exact hparcel
    have hfound' : (Tbl.find v.parcels p).isSome = true := find_modBar hparcel hfound _
    have hbar : barOf u l.plot a.group = counted (syncNow s l.plot) l a.gen (barOf s l.plot a.group) := by
      rw [hu, barOf_modBar_same hparcel' hfound', hv, barOf_modBar_same hparcel hfound, afterAll_withArrival]
    have hsync : syncNow u l.plot = syncNow s l.plot := by rw [hu, syncNow_modBar hparcel' hfound', hv, syncNow_modBar hparcel hfound]
    have helems : u.elems = s.elems := by rw [hu, elems_modBar, hv, elems_modBar]
    have helem : Machine.getElem u l = Machine.getElem s l := by simp only [Machine.getElem, helems]
    have hmem : u.mem = s.mem := by
      rw [hu, hv]
      simp
    let a' : Arrival := { a with counted := true, done := a.done || observed (barOf u l.plot a.group) a.gen (syncNow u l.plot) }
    have hexec : exec (.barrierArrivalCount l) s = .next (countLate (modElem u l fun e => { e with arrival := some a' }) l) := by
      refine (if_neg (by rw [hruns]; exact Bool.false_ne_true)).trans ?_
      simp only [harr, hadv]
      rfl
    have hset : Machine.getElem (modElem u l fun e => { e with arrival := some a' }) l = { Machine.getElem s l with arrival := some a' } := by
      rw [getElem_modElem_same _ _ rfl, helem]
    rw [countLate_none (by rw [hset]; exact hlate)] at hexec
    refine ⟨_, hexec, hbar, fun g hg => ?_, hmem, ?_⟩
    · exact (barOf_modBar_other hparcel' hfound' _ hg).trans (barOf_modBar_other hparcel hfound _ hg)
    · rw [hset, ← hsync]
      rfl
  case complete => exact fun l s w hw hruns hsees => by simp [exec, execWatchComplete, hw, hruns, hsees]
  case expire => exact fun l s w t hw hruns hsees ht hle => by simp [exec, execWatchExpire, hw, hruns, hsees, ht, hle]
  case resolve => exact fun l s w st _ hupd => getElem_resolveWatch s l w st hupd

end Sys2Proof.Proofs
end

section
/-!
PROOF. Seals (spec 13 R229, 12 R207): the range that `mseal` takes, and what the home does with a seal that enters or leaves; from these lemmas the obligation Seals.
-/

namespace Sys2Proof.Proofs

open Machine Laws Say

variable {s : State} {q : Req} {x : BeatIn} {d : Dst} {a b : Src} {len : Word}

theorem sealRangeOk_iff (b n : Word) : sealRangeOk b n = true ↔ b.toNat % 65536 = 0 ∧ n.toNat % 65536 = 0 ∧ n ≠ 0#64 ∧ b.toNat + n.toNat ≤ 2 ^ 52 := by
  simp only [sealRangeOk, Bool.and_eq_true, decide_eq_true_eq, and_assoc]
  rfl

theorem op_specMseal (h : sealRangeOk x.a.toWord x.b.toWord = true) : (specMseal d a b).op x = .ok { post := issueEffect d (sealing x (.seal x.b.toWord)) } :=
  if_pos h

theorem op_specMseal_refused (h : sealRangeOk x.a.toWord x.b.toWord = false) :
    (specMseal d a b).op x = badOperand (if x.a.toWord.toNat % 65536 = 0 then x.b.toWord else x.a.toWord) :=
  if_neg (by rw [h]; exact Bool.false_ne_true)

theorem performReq_seal (h : Enters s q) (hop : q.op = .seal len) : performReq s q = enterSeal s q len.toNat := by
  simp [performReq, h.phase, h.deps, h.table, hop]

theorem performReq_unseal (h : Enters s q) (hop : q.op = .unseal) : performReq s q = dropSeal s q := by
  simp [performReq, h.phase, h.deps, h.table, hop]

/-! ### The seal table -/

theorem getCtx_setPerformed (s : State) (id : Nat) (data : Beat) (f : Flags) (n : Nat) : getCtx (setPerformed s id data f) n = getCtx s n := rfl

section
variable {n : Nat} (hidle : s.reqs.any (holdsSealed s q.ctx q.va n) = false)
include hidle

theorem enterSeal_overlaps (hover : (getCtx s q.ctx).seals.any (fun y => overlaps y.1 y.2 q.va n) = true) : enterSeal s q n = setPerformed s q.id 2 0 := by
  simp only [enterSeal, hidle, hover, Bool.false_eq_true, if_false, if_true]

theorem enterSeal_full (hapart : (getCtx s q.ctx).seals.any (fun y => overlaps y.1 y.2 q.va n) = false) (hfull : 64 ≤ (getCtx s q.ctx).seals.length) :
    enterSeal s q n = setPerformed s q.id 1 0 := by
  simp only [enterSeal, hidle, hapart, hfull, Bool.false_eq_true, if_false, if_true]

theorem enterSeal_enters (hapart : (getCtx s q.ctx).seals.any (fun y => overlaps y.1 y.2 q.va n) = false) (hroom : (getCtx s q.ctx).seals.length < 64) :
    enterSeal s q n = setPerformed (modCtx s q.ctx fun c => { c with seals := c.seals ++ [(q.va, n)] }) q.id 0 0 := by
  simp only [enterSeal, hidle, hapart, Nat.not_le.2 hroom, Bool.false_eq_true, if_false]

end

theorem dropSeal_found (h : (getCtx s q.ctx).seals.any (fun y => y.1 == q.va) = true) :
    dropSeal s q = setPerformed (modCtx s q.ctx fun c => { c with seals := c.seals.filter fun y => y.1 != q.va }) q.id 0 0 := if_pos h

theorem dropSeal_absent (h : (getCtx s q.ctx).seals.any (fun y => y.1 == q.va) = false) : dropSeal s q = setPerformed s q.id 3 0 :=
  if_neg (by rw [h]; exact Bool.false_ne_true)

/-- Settles O19: an entering seal meets one of three cases of the table, a leaving one of two. -/
theorem seals : Obligations.Seals := by
  unfold Obligations.Seals
  refine ⟨sealRangeOk_iff, ?mseal, ?msealBad, ?munseal, ?enter, ?leave⟩
  case mseal => exact fun d a b s x h hok => commits_of (op := (specMseal d a b).op) rfl h (op_specMseal hok) rfl
  case msealBad => exact fun d a b s x h hbad => ⟨_, held_of (op := (specMseal d a b).op) rfl h (op_specMseal_refused hbad)⟩
  case munseal => exact fun d a s x h => commits_of (op := (specMunseal d a).op) rfl h rfl rfl
  case enter =>
    intro s q len h hop hidle
    refine ⟨_, congrArg Host.Outcome.next ((performAccess_req h.found).trans (performReq_seal h hop)), ?_⟩
    cases hover : (getCtx s q.ctx).seals.any fun y => overlaps y.1 y.2 q.va len.toNat with
    | true =>
      rw [enterSeal_overlaps hidle hover]
      exact .inl ⟨rfl, performed_setPerformed h.found 2 0, rfl⟩
    | false =>
      rcases Nat.lt_or_ge (getCtx s q.ctx).seals.length 64 with hroom | hfull
      · rw [enterSeal_enters hidle hover hroom]
        refine .inr (.inr ⟨rfl, hroom, performed_setPerformed (q := q) (s := modCtx s q.ctx _) h.found 0 0, ?_⟩)
        rw [getCtx_setPerformed, getCtx_modCtx_same]
      · rw [enterSeal_full hidle hover hfull]
        exact .inr (.inl ⟨rfl, hfull, performed_setPerformed h.found 1 0, rfl⟩)
  case leave =>
    intro s q h hop
    refine ⟨_, congrArg Host.Outcome.next ((performAccess_req h.found).trans (performReq_unseal h hop)), ?_⟩
    cases hseal : (getCtx s q.ctx).seals.any fun y => y.1 == q.va with
    | true =>
      rw [dropSeal_found hseal]
      refine .inl ⟨rfl, performed_setPerformed (q := q) (s := modCtx s q.ctx _) h.found 0 0, ?_⟩
      rw [getCtx_setPerformed, getCtx_modCtx_same]
    | false =>
      rw [dropSeal_absent hseal]
      exact .inr ⟨rfl, performed_setPerformed h.found 3 0, rfl⟩

end Sys2Proof.Proofs
end

section
/-!
PROOF. What a request does at its home in HBM (spec 13 R226, R227, 16 R289, 17 R304): loads, stores by way of the plot's port, and atomics; from these lemmas the
obligation HomeAccesses.
-/

namespace Sys2Proof.Proofs

open Machine Laws Say

variable {s : State} {q : Req} {pa : Nat} {nc : Bool}

/-! ### Bytes written at a home in HBM -/

theorem homeOf_hbm (h : pa < 2 ^ 39) : homeOf s pa = .hbm pa := if_pos h

theorem foldl_unwatched (f : State → HomeWp → State) (h : ∀ s, f s {} = s) : ∀ n s, (List.replicate n ({} : HomeWp)).foldl f s = s
  | 0, _ => rfl
  | n + 1, s => by rw [List.replicate_succ, List.foldl_cons, h, foldl_unwatched f h n]

/-- No home watchpoint is set: a write reports none. -/
theorem reportWatch_unset (h : (getDie s (hbmDie pa)).wps = Vector.replicate 8 {}) (n src plot site : Nat) : reportWatch s pa n src plot site = s := by
  rw [reportWatch, h]
  exact foldl_unwatched _ (fun s => if_neg (by simp)) 8 s

theorem homeWrite_hbm (h : (getDie s (hbmDie pa)).wps = Vector.replicate 8 {}) (bs : List Byte) (src plot site : Nat) :
    homeWrite s (.hbm pa) bs src plot site = memWrite s pa bs :=
  reportWatch_unset (s := memWrite s pa bs) h ..

/-- A number written in n bytes stands there, and no other byte changes. -/
theorem wrote_memWrite (hwf : Memory.wf s.mem = true) (n v id : Nat) (data : Beat) (f : Flags) :
    Wrote s (setPerformed (memWrite s pa (bytesOf n v)) id data f) pa n v := by
  intro a
  exact readByte_store s.mem pa n v a hwf

/-- Bytes beyond an access's size do not matter. -/
theorem wrote_mod {t : State} {n v : Nat} (h : Wrote s t pa n (v % 2 ^ (8 * n))) : Wrote s t pa n v := by
  intro a
  rw [h a]
  split
  · rename_i hin
    exact byte_mod v n (a - pa) (by omega)
  · rfl

/-! ### Loads -/

theorem ofBytes_readBytes (s : State) (pa n : Nat) : ofBytes (readBytes s.mem pa n) = bytesAt s pa n := by rw [readBytes_eq, bytesAt]

theorem poisonAt_clean (h : Quiescent s q pa) : poisonAt s (.hbm pa) pa q.size = none := by rw [poisonAt, h.clean]; rfl

theorem readFor_hbm {sx : Bool} (h : Quiescent s q pa) (hop : q.op = .load sx) : readFor s q (.hbm pa) pa =
    setPerformed s q.id (BitVec.ofNat 512 (if q.size ≤ 8 then loadWord sx q.size (bytesAt s pa q.size) else bytesAt s pa q.size)) 0 := by
  have hread : portRead s q.issuer.plot pa (readBytes s.mem pa q.size) = readBytes s.mem pa q.size :=
    portRead_idle fun r hr => by simpa [readBytes_eq] using h.port r hr
  simp only [readFor, poisonAt_clean h, homeRead, hread, hop, ofBytes_readBytes]

theorem performReq_load {sx : Bool} (h : AtHome s q pa nc) (hquiet : Quiescent s q pa) (hop : q.op = .load sx) : performReq s q =
    setPerformed s q.id (BitVec.ofNat 512 (if q.size ≤ 8 then loadWord sx q.size (bytesAt s pa q.size) else bytesAt s pa q.size)) 0 := by
  rw [performReq_atHome h, ← readFor_hbm hquiet hop]
  simp only [actReq, hop, homeOf_hbm hquiet.hbm]

/-! ### Stores -/

theorem findReq_moveLast (s : State) (id : Nat) : findReq (moveLast s id) id = findReq s id := by
  have hnone : (s.reqs.filter fun r => r.id != id).find? (fun r => r.id == id) = none := by
    rw [List.find?_eq_none]
    intro r hr
    simpa using (List.mem_filter.1 hr).2
  simp only [findReq, moveLast, List.find?_append, hnone, Option.none_or, List.find?_filter]
  simp only [and_self, Bool.decide_eq_true]

theorem performReq_store (h : AtHome s q pa nc) (hop : q.op = .store) (hhbm : pa < 2 ^ 39) :
    performReq s q = moveLast (modReq s q.id fun r => { r with phase := .atPort pa }) q.id := by
  rw [performReq_atHome h]
  simp only [actReq, hop, homeOf_hbm hhbm, storeAt]

theorem performReq_atPort (hphase : q.phase = .atPort pa) (hhbm : pa < 2 ^ 39)
    (hfirst : ∀ r ∈ s.reqs.takeWhile (fun r => r.id != q.id), portHolds q.issuer.plot pa q.size r = false)
    (hwps : (getDie s (hbmDie pa)).wps = Vector.replicate 8 {}) :
    performReq s q = setPerformed (memWrite s pa (bytesOf q.size q.data.toNat)) q.id 0 0 := by
  have hnone : (s.reqs.takeWhile fun r => r.id != q.id).any (portHolds q.issuer.plot pa q.size) = false := by
    rw [List.any_eq_false]
    exact fun r hr => by rw [hfirst r hr]; exact Bool.false_ne_true
  simp only [performReq, hphase, drainPort, hnone, Bool.false_eq_true, if_false, homeOf_hbm hhbm, homeWrite_hbm hwps]

/-! ### Atomics -/

theorem performReq_atomic (h : AtHome s q pa nc) (hhbm : pa < 2 ^ 39) (hop : (∃ op fcs, q.op = .amo op fcs) ∨ (∃ op fcs, q.op = .red op fcs) ∨ q.op = .cas) :
    performReq s q = atomicAt s q (.hbm pa) pa := by
  rw [performReq_atHome h]
  rcases hop with ⟨op, fcs, hop⟩ | ⟨op, fcs, hop⟩ | hop <;> simp only [actReq, hop, homeOf_hbm hhbm]

theorem any_portHolds (h : Quiescent s q pa) : s.reqs.any (portHolds q.issuer.plot pa q.size) = false :=
  List.any_eq_false.2 fun r hr => by rw [h.port r hr]; exact Bool.false_ne_true

/-- The new value of an atomic's word and its flags (spec 16 R289). -/
def atomNow (s : State) (q : Req) (pa : Nat) (op : AtomOp) (fcs : Fcs) : Nat × Flags :=
  atomValue op fcs (8 * q.size) (bytesAt s pa q.size) (q.data.toNat % 2 ^ (8 * q.size))

section
variable (hquiet : Quiescent s q pa) (hwps : (getDie s (hbmDie pa)).wps = Vector.replicate 8 {})
include hquiet hwps

theorem atomicAt_hbm_amo {op : AtomOp} {fcs : Fcs} (hop : q.op = .amo op fcs) : atomicAt s q (.hbm pa) pa =
    setPerformed (memWrite s pa (bytesOf q.size (atomNow s q pa op fcs).1)) q.id (BitVec.ofNat 512 (bytesAt s pa q.size)) (atomNow s q pa op fcs).2 := by
  simp only [atomicAt, any_portHolds hquiet, poisonAt_clean hquiet, hop, homeRead, ofBytes_readBytes, homeWrite_hbm hwps, Bool.false_eq_true, if_false, atomNow]

theorem atomicAt_hbm_red {op : AtomOp} {fcs : Fcs} (hop : q.op = .red op fcs) : atomicAt s q (.hbm pa) pa =
    setPerformed (memWrite s pa (bytesOf q.size (atomNow s q pa op fcs).1)) q.id (BitVec.ofNat 512 0) (atomNow s q pa op fcs).2 := by
  simp only [atomicAt, any_portHolds hquiet, poisonAt_clean hquiet, hop, homeRead, ofBytes_readBytes, homeWrite_hbm hwps, Bool.false_eq_true, if_false, atomNow]

theorem atomicAt_hbm_cas (hop : q.op = .cas) : atomicAt s q (.hbm pa) pa =
    setPerformed (if bytesAt s pa q.size = q.data.toNat % 2 ^ (8 * q.size) then memWrite s pa (bytesOf q.size (q.data2.toNat % 2 ^ (8 * q.size))) else s) q.id
      (BitVec.ofNat 512 (bytesAt s pa q.size)) 0 := by
  simp only [atomicAt, any_portHolds hquiet, poisonAt_clean hquiet, hop, homeRead, ofBytes_readBytes, Bool.false_eq_true, if_false]
  by_cases heq : bytesAt s pa q.size = q.data.toNat % 2 ^ (8 * q.size)
  · simp only [if_pos heq, homeWrite_hbm hwps]
  · simp only [if_neg heq]

end

/-- Settles O20: each clause is the equation of its request above. -/
theorem homeAccesses : Obligations.HomeAccesses := by
  unfold Obligations.HomeAccesses
  refine ⟨?load, ?accept, ?drain, ?amo, ?red, ?cas⟩
  case load =>
    intro s q pa nc sx h hquiet hop
    refine ⟨_, congrArg Host.Outcome.next ((performAccess_req h.found).trans (performReq_load h hquiet hop)), rfl, performed_setPerformed h.found _ 0⟩
  case accept =>
    intro s q pa nc h hop hhbm
    refine ⟨_, { q with phase := .atPort pa }, congrArg Host.Outcome.next ((performAccess_req h.found).trans (performReq_store h hop hhbm)), rfl, ?_, rfl⟩
    rw [findReq_moveLast, findReq_modReq, h.found]
    · rfl
    · exact fun _ => rfl
  case drain =>
    intro s q pa hwf hfound hphase hhbm hfirst hwps
    refine ⟨_, congrArg Host.Outcome.next ((performAccess_req hfound).trans (performReq_atPort hphase hhbm hfirst hwps)), ?_, wrote_memWrite hwf _ _ _ _ _⟩
    exact performed_setPerformed (s := memWrite s pa _) hfound 0 0
  case amo =>
    intro s q pa nc op fcs hwf h hquiet hop hwps
    refine ⟨_, congrArg Host.Outcome.next ((performAccess_req h.found).trans
      ((performReq_atomic h hquiet.hbm (.inl ⟨op, fcs, hop⟩)).trans (atomicAt_hbm_amo hquiet hwps hop))), ?_, wrote_memWrite hwf _ _ _ _ _⟩
    exact performed_setPerformed (s := memWrite s pa _) h.found ..
  case red =>
    intro s q pa nc op fcs hwf h hquiet hop hwps
    refine ⟨_, congrArg Host.Outcome.next ((performAccess_req h.found).trans
      ((performReq_atomic h hquiet.hbm (.inr (.inl ⟨op, fcs, hop⟩))).trans (atomicAt_hbm_red hquiet hwps hop))), ?_, wrote_memWrite hwf _ _ _ _ _⟩
    exact performed_setPerformed (s := memWrite s pa _) h.found ..
  case cas =>
    intro s q pa nc hwf h hquiet hop hwps
    refine ⟨_, congrArg Host.Outcome.next ((performAccess_req h.found).trans
      ((performReq_atomic h hquiet.hbm (.inr (.inr hop))).trans (atomicAt_hbm_cas hquiet hwps hop))), ?_⟩
    by_cases heq : bytesAt s pa q.size = q.data.toNat % 2 ^ (8 * q.size)
    · simp only [if_pos heq]
      exact ⟨performed_setPerformed (s := memWrite s pa _) h.found .., wrote_mod (wrote_memWrite hwf _ _ _ _ _)⟩
    · simp only [if_neg heq]
      exact ⟨performed_setPerformed h.found .., rfl⟩

end Sys2Proof.Proofs
end

section
/-!
PROOF. The instructions of the load-store endpoint (spec 13 R230 to R234): the request that opens a stream or prefetches a page, what `sbar` puts before its streams,
watchpoints that are armed, and the flush of the combining lines; from these lemmas the obligation EndpointInstructions.
-/

namespace Sys2Proof.Proofs

open Machine Laws Say

variable {s : State} {l : Loc} {m : Fin 8} {x : BeatIn}

/-! ### Requests of the endpoint -/

@[simp] theorem reserveAck_reqs (s : State) (l : Loc) (d : Dst) (join : Bool) : (reserveAck s l d join).1.reqs = s.reqs := by
  unfold reserveAck
  split
  · rfl
  · exact reserve_reqs ..

theorem openEffect_issues (d : Dst) (m : Fin 8) (x : BeatIn) (hb : Bool) (s : State) : ∃ q, (openEffect d m x hb s).reqs = s.reqs ++ [q] ∧
    q.op = .pattern (if hb then some x.b.toWord else none) ∧ q.va = x.a.toWord.toNat ∧ q.size = 64 ∧ q.algn = 64 ∧ q.thr = .stream x.l m ∧ q.phase = .entered ∧
    q.rid = if d = .none then 0 else s.sched.nextId := by
  refine ⟨_, (addReq_reqs ..).trans (congrArg (· ++ _) (reserveAck_reqs s x.l d false)), rfl, rfl, rfl, rfl, rfl, rfl, reserveAck_entry s x.l d false⟩

theorem prefetchEffect_issues (d : Dst) (x : BeatIn) (s : State) : ∃ q, (prefetchEffect d x s).reqs = s.reqs ++ [q] ∧ q.op = .prefetch ∧
    q.va = x.a.toWord.toNat ∧ q.phase = .entered ∧ q.rid = if d = .none then 0 else s.sched.nextId := by
  refine ⟨_, congrArg (· ++ _) (reserveAck_reqs s x.l d false), rfl, rfl, rfl, reserveAck_entry s x.l d false⟩

theorem performReq_prefetch {q : Req} {e : TlbEntry} (h : Enters s q) (hop : q.op = .prefetch) (hfind : tlbLookup s q.le q.ctx q.va = some e) :
    performReq s q = setPerformed (tlbFill s q.le e) q.id 1 0 := by
  simp [performReq, h.phase, h.deps, h.table, hop, hfind]

/-! ### `sbar` -/

theorem mem_maskStreams {mask : BitVec 8} : m ∈ maskStreams mask ↔ mask.getLsbD m.val = true := by
  have hall : m ∈ ([(0 : Fin 8), 1, 2, 3, 4, 5, 6, 7] : List (Fin 8)) := by revert m; decide
  rw [maskStreams, List.mem_filter, and_iff_right hall]

@[simp] theorem getStream_modStream_other (s : State) (l : Loc) {n : Fin 8} (h : m ≠ n) (f : Stream → Stream) :
    getStream (modStream s l n f) l m = getStream s l m := by
  simp only [getStream, modStream, getLe_modLe_same]
  exact Vector.getElem_set_ne _ _ fun e => h (Fin.ext e).symm

/-- The places that the elements in progress owe stand behind the requests there are, and change no stream. -/
theorem oweReqs_les (l : Loc) (s : State) (m : Fin 8) : (oweReqs l s m).les = s.les :=
  foldl_keeps State.les (f := fun s (_ : Nat) => oweReq l m s) (fun _ _ => rfl) _ s

theorem mem_reqs_oweReqs {q : Req} (h : q ∈ s.reqs) (l : Loc) (m : Fin 8) : q ∈ (oweReqs l s m).reqs :=
  List.foldlRecOn (motive := fun t : State => q ∈ t.reqs) _ _ h fun _ hq _ _ => List.mem_append_left _ hq

theorem mem_reqs_foldl_oweReqs {q : Req} (h : q ∈ s.reqs) (l : Loc) (ms : List (Fin 8)) : q ∈ (ms.foldl (oweReqs l) s).reqs :=
  List.foldlRecOn (motive := fun t : State => q ∈ t.reqs) _ _ h fun _ hq _ _ => mem_reqs_oweReqs hq ..

/-- What a stream waits for, added to. -/
def putBefore (ids : List (Nat × Scope)) (l : Loc) (s : State) (m : Fin 8) : State :=
  modStream s l m fun st => { st with before := (st.before.filter fun x => (findReq s x.1).isSome) ++ ids }

theorem getStream_foldl_putBefore_other (ids : List (Nat × Scope)) {ms : List (Fin 8)} (h : m ∉ ms) (s : State) :
    getStream (ms.foldl (putBefore ids l) s) l m = getStream s l m := by
  refine List.foldlRecOn (motive := fun t : State => getStream t l m = getStream s l m) _ _ rfl fun t ht n hn => ?_
  have hmn : m ≠ n := fun e => h (by rw [e]; exact hn)
  rw [putBefore, getStream_modStream_other _ _ hmn, ht]

theorem mem_before_foldl_putBefore {ids : List (Nat × Scope)} {y : Nat × Scope} (hy : y ∈ ids) : ∀ {ms : List (Fin 8)}, ms.Nodup → m ∈ ms → ∀ s,
    y ∈ (getStream (ms.foldl (putBefore ids l) s) l m).before
  | n :: ms, hms, hm, s => by
    obtain ⟨hn, hms⟩ := List.nodup_cons.1 hms
    rw [List.foldl_cons]
    rcases List.mem_cons.1 hm with rfl | hm
    · rw [getStream_foldl_putBefore_other ids hn, putBefore, getStream_modStream_same]
      exact List.mem_append_right _ hy
    · exact mem_before_foldl_putBefore hy hms hm _

/-- What the streams of a mask have generated as their firing sees it. -/
def generatedIds (s : State) (l : Loc) (ms : List (Fin 8)) : List (Nat × Scope) := ms.flatMap fun m => (streamReqs s l m).map fun q => (q.id, .device)

theorem barEffect_eq (mask : BitVec 8) (l : Loc) (s : State) : barEffect mask l s =
    (maskStreams mask).foldl (putBefore (generatedIds ((maskStreams mask).foldl (oweReqs l) s) l (maskStreams mask)) l) ((maskStreams mask).foldl (oweReqs l) s) := rfl

theorem mem_before_barEffect {mask : BitVec 8} {n : Fin 8} {q : Req} (hm : mask.getLsbD m.val = true) (hn : mask.getLsbD n.val = true)
    (hq : q ∈ streamReqs s l n) : (q.id, .device) ∈ (getStream (barEffect mask l s) l m).before := by
  obtain ⟨hq, hthr⟩ := List.mem_filter.1 hq
  have hids : (q.id, Scope.device) ∈ generatedIds ((maskStreams mask).foldl (oweReqs l) s) l (maskStreams mask) :=
    List.mem_flatMap.2 ⟨n, mem_maskStreams.2 hn, List.mem_map.2 ⟨q, List.mem_filter.2 ⟨mem_reqs_foldl_oweReqs hq .., hthr⟩, rfl⟩⟩
  have hnodup : (maskStreams mask).Nodup := List.Nodup.filter _ (by decide)
  rw [barEffect_eq]
  exact mem_before_foldl_putBefore hids hnodup (mem_maskStreams.2 hm) _

theorem getStream_barEffect_other {mask : BitVec 8} (hm : mask.getLsbD m.val = false) : getStream (barEffect mask l s) l m = getStream s l m := by
  rw [barEffect_eq, getStream_foldl_putBefore_other _ fun h => Bool.false_ne_true (hm.symm.trans (mem_maskStreams.1 h))]
  exact getStream_congr (foldl_keeps State.les (oweReqs_les l) _ s) l m

/-! ### Watchpoints -/

section
variable {r : RAct} {n : Fin 2} {mode : WpMode}

theorem op_specWpArm_off : (specWpArm r n .off).op x = .ok { post := fun s => modLe s x.l fun u => { u with arming := u.arming ++ [(n, {})] } } := by
  simp [specWpArm]

theorem op_specWpArm (hmode : mode ≠ .off) (hlen : x.b.toWord ≠ 0#64) : (specWpArm r n mode).op x = .ok { post := fun s => modLe s x.l fun u =>
    { u with arming := u.arming ++ [(n, { mode := mode, base := x.a.toWord.toNat, len := x.b.toWord.toNat })] } } := by
  simp [specWpArm, hmode, hlen]

theorem op_specWpArm_empty (hmode : mode ≠ .off) (hlen : x.b.toWord = 0#64) : (specWpArm r n mode).op x = badOperand 0 := by
  simp [specWpArm, hmode, hlen]

end

/-- At a cycle's end the endpoints' watchpoints are armed, and nothing else changes them. -/
theorem getLe_nextCycle (s : State) (l : Loc) : getLe (nextCycle s) l = armAll (getLe (answerUnheard s) l) := by
  have hsamples : ∀ t : State, (takeSamples t).les = t.les := fun t =>
    foldl_keeps State.les (f := fun s (y : Nat × Parcel) => sampleFlags s y.1) (fun _ _ => rfl) _ t
  have hdvl : ∀ t : State, (takeDvlWrite t).les = t.les := fun t => by unfold takeDvlWrite; split <;> rfl
  have hboot : ∀ t : State, (measureBoot t).les = t.les := fun t => by unfold measureBoot; split <;> rfl
  have hles : (nextCycle s).les = (answerUnheard s).les.map fun y => (y.1, armAll y.2) := by
    refine (hboot _).trans ((hsamples _).trans ((hdvl _).trans rfl))
  simp only [getLe, Tbl.findD, hles, find_map_snd]
  cases Tbl.find (answerUnheard s).les (locKey l) <;> rfl

theorem answerUnheard_none (h : ∀ r ∈ s.faults, r.unheard = false) : answerUnheard s = s := by
  have hnone : s.faults.filter (·.unheard) = [] := List.filter_eq_nil_iff.2 fun r hr => by rw [h r hr]; exact Bool.false_ne_true
  simp only [answerUnheard, hnone, List.foldl_nil]

/-! ### The combining lines -/

theorem comb_foldl_sendLine (l : Loc) : ∀ (cs : List CombLine) (s : State),
    (getLe (cs.foldl (fun s c => sendLine s l c) s) l).comb = (getLe s l).comb.filter fun y => !cs.contains y
  | [], s => by simp
  | c :: cs, s => by
    rw [List.foldl_cons, comb_foldl_sendLine l cs, comb_sendLine, List.filter_filter]
    refine List.filter_congr fun y _ => ?_
    simp only [List.contains_cons, Bool.not_or, bne, Bool.and_comm]

theorem comb_sendLines_all (s : State) (l : Loc) : (getLe (sendLines s l fun _ => true) l).comb = [] := by
  rw [sendLines, comb_foldl_sendLine, List.filter_eq_nil_iff]
  intro y hy
  simp [hy]

theorem postResult_les (s : State) (rid : Nat) (tok : Token) : (postResult s rid tok).les = s.les := by
  unfold postResult
  split <;> rfl

theorem comb_flushEffect (d : Dst) (l : Loc) (s : State) : (getLe (flushEffect d l s) l).comb = [] := by
  have h := comb_sendLines_all (reserveAck s l d true).1 l
  rwa [getLe, ← postResult_les _ (reserveAck s l d true).2 {}] at h

/-- Settles O22: each instruction's operation by its own case, and its effect read back. -/
theorem endpointInstructions : Obligations.EndpointInstructions := by
  unfold Obligations.EndpointInstructions
  refine ⟨?opn, openEffect_issues, ?cls, ?before, ?sbar, ?st, ?pf, prefetchEffect_issues, ?pfDone, ?off, ?arm, ?armBad, ?armed, fun s => answerUnheard_none, ?fl, ?flush⟩
  case opn => exact fun r m s x h => commits_of (op := (specStrmOpn r m).op) rfl h rfl rfl
  case cls => exact fun r m => gives_self fun _ => rfl
  case before =>
    intro mask l s m
    split
    · exact fun n hn q hq => mem_before_barEffect ‹_› hn hq
    · exact getStream_barEffect_other (Bool.eq_false_iff.2 ‹_›)
  case sbar => exact fun mask u => gives_self fun _ => rfl
  case st => exact fun r m => gives_self fun _ => rfl
  case pf => exact fun r => gives_self fun _ => rfl
  case pfDone =>
    intro s q e h hop hfind
    refine ⟨_, congrArg Host.Outcome.next ((performAccess_req h.found).trans (performReq_prefetch h hop hfind)), ?_, rfl⟩
    exact performed_setPerformed (s := tlbFill s q.le e) h.found 1 0
  case off => exact fun r n s x h => commits_of (op := (specWpArm r n .off).op) rfl h op_specWpArm_off rfl
  case arm => exact fun r n mode s x h hmode hlen => commits_of (op := (specWpArm r n mode).op) rfl h (op_specWpArm hmode hlen) rfl
  case armBad => exact fun r n mode s x h hmode hlen => held_of (op := (specWpArm r n mode).op) rfl h (op_specWpArm_empty hmode hlen)
  case armed => exact fun s l => congrArg LeUnit.wps (getLe_nextCycle s l)
  case fl => exact fun r s x h => commits_of (op := (specCmbFl r).op) rfl h rfl rfl
  case flush =>
    refine fun d l s => ⟨comb_flushEffect d l s, fun hd hid => ?_⟩
    have hrid : (reserveAck s l d true).2 = s.sched.nextId := (reserveAck_entry s l d true).trans (if_neg hd)
    have hres := results_postResult (hrid ▸ hid) (sendLines (reserveAck s l d true).1 l fun _ => true) {}
    exact ⟨_, hres ▸ List.mem_append_right _ (List.mem_singleton.2 rfl), hrid, rfl⟩

end Sys2Proof.Proofs
end

section
/-!
PROOF. The repairs of a firing (spec 18 R318): its entry is freed, its beat is re-executed or its slot evaluated again, and what a re-executed beat commits; from
these lemmas the obligation FiringRepairs.
-/

namespace Sys2Proof.Proofs

open Machine Laws Say

variable {s : State} {r : FaultRec} {l : Loc} {n d : Nat} {x : RqEntry} {ans : Answer}

/-! ### The answer to a firing's record -/

/-- A record of one firing that is not killed leaves, and its one item is repaired. -/
theorem answerRec_firing (hitems : r.items = [⟨.firing l n, d⟩]) (hcls : r.cls ≠ .memerr) (hact : ans.act ≠ .kill) :
    answerRec s r ans = repairItem r ans (dropFault s r.id) ⟨.firing l n, d⟩ := by
  have hkill : ¬(ans.act = .kill ∨ onlyKill r ans.act = true) := by simp [onlyKill, hcls, hact]
  have hchain : chainReqs (heldReqs (dropFault s r.id) [⟨.firing l n, d⟩]) (dropFault s r.id) = dropFault s r.id := rfl
  rw [answerRec, if_neg hkill, hitems, repairItems, hchain, ite_self]
  rfl

/-- What a repair does to the element of a firing whose entry it frees. -/
def repairFiring (ans : Answer) (x : RqEntry) (e : Elem) : Elem :=
  if ans.act = .retry then clearPix x.slot e
  else { e with redo := e.redo ++ [redoOf x (if ans.act = .subst then .subst ans.value else .resume)] }

/-- A firing without work in its element's units has its entry freed, and goes on as the answer says. -/
theorem repairItem_firing (r : FaultRec) (d : Nat) (hentry : Tbl.find (Machine.getElem s l).rq n = some x) (hpart : heldPart s l x.slot = false) :
    repairItem r ans s ⟨.firing l n, d⟩ = modElem (modElem s l fun e => { e with rq := Tbl.drop e.rq n }) l (repairFiring ans x) := by
  have hpart' : heldPart (modElem s l fun e => { e with rq := Tbl.drop e.rq n }) l x.slot = false := hpart
  simp only [repairItem, hentry, hpart', Bool.false_eq_true, if_false]
  unfold repairFiring
  cases ans.act <;> rfl

/-- An element changed twice. -/
theorem getElem_modElem_twice (s : State) (l : Loc) (f g : Elem → Elem) :
    Machine.getElem (modElem (modElem s l f) l g) l = g (f (Machine.getElem s l)) := by
  rw [getElem_modElem_same _ _ rfl, getElem_modElem_same _ _ rfl]

theorem clearPix_eq (slot : Nat) (e : Elem) : clearPix slot e = { e with pix := if (pixSlot e.pix).val = slot then 0#64 else e.pix } := by
  unfold clearPix
  split <;> rfl

/-! ### A beat that is re-executed -/

section
variable {sp : FireSpec} {y : BeatIn} (hpresent : (Machine.getElem s s.sched.cur.l).present = true) (hready : beatReady sp s = true) (hreads : beatIn sp s = some y)
include hpresent hready hreads

/-- A resumed beat commits its outcome whatever traps are enabled. -/
theorem runBeat_resumed {o : BeatOut} (hmode : s.sched.cur.mode = .resume) (hop : sp.op y = .ok o) : runBeat sp s = .next (commitBeat sp s o) := by
  simp [runBeat, hpresent, hready, hreads, hmode, hop]

/-- A substituted beat commits the value in place of its outcome. -/
theorem runBeat_substituted {v : Word} (hmode : s.sched.cur.mode = .subst v) (hsoft : sp.soft = false) :
    runBeat sp s = .next (commitBeat sp s { v := v.setWidth 512, pred := v.getLsbD 0 }) := by
  simp [runBeat, hpresent, hready, hreads, hmode, hsoft]

end

/-- Settles O60: the record leaves with its answer, and each repair does its own to the element. -/
theorem firingRepairs : Obligations.FiringRepairs := by
  unfold Obligations.FiringRepairs
  refine ⟨?answer, fun sp s x o hp hr hb hm hop => runBeat_resumed hp hr hb hm hop, fun sp s x v hp hr hb hm hs => runBeat_substituted hp hr hb hm hs⟩
  intro s r l n d x ans hitems hcls hkill hentry hpart
  have hanswer := (answerRec_firing (s := s) hitems hcls hkill).trans (repairItem_firing (s := dropFault s r.id) r d hentry hpart)
  have hgone : ∀ q ∈ (dropFault s r.id).faults, q.id ≠ r.id := fun q hq => by simpa using (List.mem_filter.1 hq).2
  have helem := getElem_modElem_twice (dropFault s r.id) l (fun e => { e with rq := Tbl.drop e.rq n }) (repairFiring ans x)
  unfold repairFiring at helem
  rw [hanswer]
  refine ⟨hgone, helem.trans ?_⟩
  cases hact : ans.act with
  | kill => exact absurd hact hkill
  | retry => exact clearPix_eq ..
  | subst | resume => rfl

end Sys2Proof.Proofs
end

section
/-!
PROOF. A host's reply, and the identifiers of records (spec 18 R316, R319, R328); from these lemmas the obligation ReplyAndIdentifiers.
-/

namespace Sys2Proof.Proofs

open Machine Laws Say

variable {s : State} {r : FaultRec} {die id fid : Nat}

/-! ### Replies -/

/-- The mailbox once its reply is written. -/
def replied (s : State) (die : Nat) (v : Word) : State := modDie s die fun d => { d with hreply := v, hpend := false }

theorem writeReply_pending (h : (getDie s die).hpend = true) (v : Word) :
    writeReply s die v = postResult (replied s die v) (getDie s die).hrid { val := v.setWidth 512 } := if_pos h

theorem writeReply_idle (h : (getDie s die).hpend = false) (v : Word) : writeReply s die v = replied s die v := if_neg (by rw [h]; exact Bool.false_ne_true)

theorem getDie_replied (s : State) (die : Nat) (v : Word) : getDie (replied s die v) die = { getDie s die with hreply := v, hpend := false } := getDie_modDie_same ..

theorem getDie_postResult (s : State) (rid : Nat) (tok : Token) (n : Nat) : getDie (postResult s rid tok) n = getDie s n := by
  unfold postResult
  split <;> rfl

/-! ### Identifiers -/

/-- The first free number is below 2^16, and not one of those in use. -/
theorem firstFree_free {used : List Nat} : ∀ {fuel n : Nat}, firstFree used fuel n = some fid → fid < 65536 ∧ fid ∉ used
  | fuel + 1, n, h => by
    unfold firstFree at h
    split at h
    · exact firstFree_free h
    · cases h
      exact ⟨Nat.mod_lt _ (by decide), by simpa using ‹¬used.contains (n % 65536) = true›⟩

theorem faults_showItem (r : FaultRec) (s : State) (h : Held) : (showItem r s h).faults = s.faults := by
  unfold showItem
  split <;> rfl

theorem dies_showItem (r : FaultRec) (s : State) (h : Held) : (showItem r s h).dies = s.dies := by
  unfold showItem
  split <;> rfl

theorem dies_of_flows {t : State} (h : Flows s t) : t.dies = s.dies := by rw [h.rest]
theorem faults_of_flows {t : State} (h : Flows s t) : t.faults = s.faults := by rw [h.rest]

/-- The record with its identifier. -/
def identified (s : State) (r : FaultRec) (fid : Nat) : FaultRec := { r with fid := some fid, queued := true, seenAt := now s + 1 }

/-- A record that gets an identifier stands with it among the faults and in its die's store, and the next identifier goes on behind it. -/
theorem giveFid_gives (hfind : findFault s id = some r) (fid : Nat) : (giveFid s id fid).faults = (setFault s (identified s r fid)).faults ∧
    (giveFid s id fid).dies = (modDie s r.die fun d =>
      { d with store := d.store ++ [id], nextFid := (fid + 1) % 65536, reported := d.reported.filter fun n => n != fid }).dies := by
  unfold giveFid
  simp only [hfind]
  constructor
  · refine (foldl_keeps State.faults (faults_showItem _) _ _).trans ?_
    split <;> exact (faults_of_flows (flows_traceEvent ..)).trans rfl
  · refine (foldl_keeps State.dies (dies_showItem _) _ _).trans ?_
    split <;> exact (dies_of_flows (flows_traceEvent ..)).trans rfl

theorem id_of_findFault (h : findFault s id = some r) : r.id = id := by simpa using List.find?_some h

theorem findFault_setFault (hfind : findFault s id = some r) {q : FaultRec} (hq : q.id = id) : findFault (setFault s q) id = some q := by
  have hpred : ((fun p : FaultRec => p.id == id) ∘ fun p => if p.id = q.id then q else p) = fun p => p.id == id := by
    funext p
    by_cases hp : p.id = id <;> simp [hp, hq]
  have hr : r.id = q.id := (id_of_findFault hfind).trans hq.symm
  unfold findFault at hfind
  rw [findFault, setFault, List.find?_map, hpred, hfind, Option.map_some, if_pos hr]

theorem findFault_giveFid (hfind : findFault s id = some r) (fid : Nat) : findFault (giveFid s id fid) id = some (identified s r fid) := by
  rw [findFault, (giveFid_gives hfind fid).1]
  exact findFault_setFault hfind (q := identified s r fid) (show r.id = id from id_of_findFault hfind)

theorem getDie_giveFid (hfind : findFault s id = some r) (fid : Nat) : getDie (giveFid s id fid) r.die = { getDie s r.die with
    store := (getDie s r.die).store ++ [id], nextFid := (fid + 1) % 65536, reported := (getDie s r.die).reported.filter fun n => n != fid } := by
  rw [getDie, (giveFid_gives hfind fid).2]
  exact getDie_modDie_same ..

/-- The state in which the record that has waited longest waits no more. -/
def unwaited (s : State) (die : Nat) (rest : List Nat) : State := modDie s die fun d => { d with fidWait := rest }

section
variable {rest : List Nat} (hwait : (getDie s die).fidWait = id :: rest) (hfree : freeFid s die = some fid) (hfind : findFault s id = some r) (hdie : r.die = die)
include hfind hdie

theorem getDie_assigned : getDie (giveFid (unwaited s die rest) id fid) die = { getDie s die with
    fidWait := rest, store := (getDie s die).store ++ [id], nextFid := (fid + 1) % 65536, reported := (getDie s die).reported.filter fun n => n != fid } := by
  have hgive := getDie_giveFid (s := unwaited s die rest) hfind fid
  rw [hdie] at hgive
  rw [hgive, unwaited, getDie_modDie_same]

include hwait hfree

theorem assignFid_handled (hhandler : (getDie s die).handler = true) : assignFid s die = giveFid (unwaited s die rest) id fid := by
  have hq : findFault (giveFid (unwaited s die rest) id fid) id = some (identified (unwaited s die rest) r fid) := findFault_giveFid (s := unwaited s die rest) hfind fid
  have hh : (getDie (giveFid (unwaited s die rest) id fid) die).handler = true := by rw [getDie_assigned hfind hdie]; exact hhandler
  unfold unwaited at hq hh ⊢
  simp only [assignFid, hwait, hfree, hq, hh, if_true]

theorem assignFid_unhandled (hhandler : (getDie s die).handler = false) : assignFid s die =
    answerFid (giveFid (unwaited s die rest) id fid) (identified (unwaited s die rest) r fid) ⟨.kill, 0⟩ := by
  have hq : findFault (giveFid (unwaited s die rest) id fid) id = some (identified (unwaited s die rest) r fid) := findFault_giveFid (s := unwaited s die rest) hfind fid
  have hh : (getDie (giveFid (unwaited s die rest) id fid) die).handler = false := by rw [getDie_assigned hfind hdie]; exact hhandler
  unfold unwaited at hq hh ⊢
  simp only [assignFid, hwait, hfree, hq, hh, Bool.false_eq_true, if_false]

end

/-- Settles O36: a reply is posted or latched, and the record that has waited longest takes the first free identifier. -/
theorem replyAndIdentifiers : Obligations.ReplyAndIdentifiers := by
  unfold Obligations.ReplyAndIdentifiers
  refine ⟨?reply, ?latch, ?handled, ?unhandled, fun s die fid h => firstFree_free h⟩
  case reply =>
    intro s die v hdie hpend hrid
    refine ⟨_, _, congrArg Host.Outcome.next ((if_pos hdie).trans (writeReply_pending hpend v)), ?_, ?_, results_postResult hrid .., rfl, rfl⟩
    · rw [getDie_postResult, getDie_replied]
    · rw [getDie_postResult, getDie_replied]
  case latch =>
    intro s die v hdie hpend
    exact ⟨_, congrArg Host.Outcome.next ((if_pos hdie).trans (writeReply_idle hpend v)), by rw [getDie_replied], rfl⟩
  case handled =>
    intro s die id rest fid r hwait hfree hfind hdie _ hhandler
    have hget := getDie_assigned (rest := rest) (fid := fid) hfind hdie
    exact ⟨_, _, congrArg Host.Outcome.next (assignFid_handled hwait hfree hfind hdie hhandler), findFault_giveFid (s := unwaited s die rest) hfind fid, rfl,
      by rw [hget], by rw [hget], by rw [hget]⟩
  case unhandled =>
    intro s die id rest fid r hwait hfree hfind hdie hhandler
    exact ⟨_, findFault_giveFid (s := unwaited s die rest) hfind fid, congrArg Host.Outcome.next (assignFid_unhandled hwait hfree hfind hdie hhandler)⟩

end Sys2Proof.Proofs
end

section
/-!
PROOF. The instructions that read and answer faults (spec 18 R316 to R318, R325, R326); from these lemmas the obligation FaultInstructions.
-/

namespace Sys2Proof.Proofs

open Machine Laws Say

variable {s : State} {l : Loc} {d : Dst} {u : PUpd} {f : FaultRec} {die : Nat}

/-! ### Acknowledgements -/

/-- A privileged instruction that takes every operand has its effect done when it fires. -/
theorem acks_of {i : Instr} {r : RAct} {f : BeatIn → State → State × Word} (hexec : ∀ s, exec i s = runBeat (specPriv r fun x => some (f x)) s) : Acks i r f :=
  fun s _ h => commits_of (sp := shapePriv r) (hexec s) h rfl rfl

/-- The effect of an acknowledged instruction posts its word to the entry that it has reserved. -/
theorem results_ackEffect (hdst : d ≠ .none) (hid : s.sched.nextId ≠ 0) (g : State → State × Word) : ∃ a, (ackEffect d l g s).results =
    (g (reserve (bumpId s) l d s.sched.nextId false)).1.results ++ [a] ∧ a.rid = s.sched.nextId ∧
      a.tok = { tag := .data, val := (g (reserve (bumpId s) l d s.sched.nextId false)).2.setWidth 512 } := by
  have hack : reserveAck s l d false = (reserve (bumpId s) l d s.sched.nextId false, s.sched.nextId) := if_neg hdst
  simp only [ackEffect, hack]
  exact ⟨_, results_postResult hid .., rfl, rfl⟩

/-! ### `flt.rd` -/

theorem op_specFltRd_first {x : BeatIn} (hbeat : x.s.sched.cur.beat = 0) (hold : oldestFault x.s (dieOf x.l.plot) = some f) : (specFltRd d u).op x =
    .ok (recordOut ((recordWords f).headD 0) (recordWords f).tail fun s => takeFault s (dieOf x.l.plot) f) := by
  simp only [specFltRd, hbeat, hold, if_true]
  rfl

theorem op_specFltRd_later {x : BeatIn} (hbeat : x.s.sched.cur.beat ≠ 0) : (specFltRd d u).op x = .ok { recordOut (x.e.reading.headD 0) [] id with upd := fun e => { e with reading := e.reading.tail } } := by
  simp only [specFltRd, hbeat, if_false]
  rfl

/-- What an outcome does to an element other than its own does not matter. -/
theorem commitBeat_upd {sp : FireSpec} {o : BeatOut} {g : Elem → Elem}
    (h : g (orFlags (Machine.getElem s s.sched.cur.l) o.flags) = o.upd (orFlags (Machine.getElem s s.sched.cur.l) o.flags)) :
    commitBeat sp s { o with upd := g } = commitBeat sp s o := by
  have helem : modElem s s.sched.cur.l (commitElem sp s.sched.cur (now s) { o with upd := g }) = modElem s s.sched.cur.l (commitElem sp s.sched.cur (now s) o) := by
    simp only [modElem, commitElem, h]
  simp only [commitBeat, helem]

theorem getDie_dropFault (s : State) (id die : Nat) : getDie (dropFault s id) die = { getDie s die with store := (getDie s die).store.filter fun n => n != id } := by
  refine (congrArg (Option.getD · ({} : Die)) (find_map_snd (fun d : Die => { d with store := d.store.filter fun n => n != id }) die s.dies)).trans ?_
  unfold getDie Tbl.findD
  cases Tbl.find s.dies die <;> rfl

/-- A record that is taken leaves the store. -/
theorem store_takeFault (s : State) (die : Nat) (f : FaultRec) : (getDie (takeFault s die f) die).store = (getDie s die).store.filter fun n => n != f.id := by
  unfold takeFault
  split
  · rw [getDie_modDie_same, getDie_dropFault, getDie_modDie_same]
    simp
  · rw [getDie_modDie_same]

theorem reported_takeFault (hreport : f.report = true) {fid : Nat} (hfid : f.fid = some fid) : (getDie (takeFault s die f) die).reported.contains fid = true := by
  simp only [takeFault, hreport, if_true, getDie_modDie_same, hfid]
  simp

/-- Settles O34: each instruction acknowledges its own effect, and `flt.rd` goes through the words of the record that it has taken. -/
theorem faultInstructions : Obligations.FaultInstructions := by
  unfold Obligations.FaultInstructions
  refine ⟨?first, ?later, fun r act => acks_of fun _ => rfl, fun s die f => ⟨store_takeFault .., fun hr _ hf => reported_takeFault hr hf⟩,
    fun r => acks_of fun _ => rfl, fun r => acks_of fun _ => rfl, fun r v => acks_of fun _ => rfl, fun d l f s hd hid => results_ackEffect hd hid f⟩
  case first =>
    intro d u s x f h hbeat hold
    have hs := state_of_fires h
    exact commits_of (sp := shapeFlt d u) (op := (specFltRd d u).op) rfl h (op_specFltRd_first (hs ▸ hbeat) (hs ▸ hold)) rfl
  case later =>
    intro d u s x h hbeat
    have hs := state_of_fires h
    refine (commits_of (sp := shapeFlt d u) (op := (specFltRd d u).op) rfl h (op_specFltRd_later (hs ▸ hbeat)) rfl).trans (congrArg _ (commitBeat_upd (o := recordOut (x.e.reading.headD 0) x.e.reading.tail id) ?_))
    rw [(beatIn_reads h.reads).2.1]
    rfl

end Sys2Proof.Proofs
end

section
/-!
PROOF. The instructions that control parcels and regions (spec 18 R321, R322, R325 to R328, 19 R333, R338); from these lemmas the obligation ControlInstructions.
-/

namespace Sys2Proof.Proofs

open Machine Laws Say

variable {s u : State} {x : BeatIn} {l : Loc} {d : Dst} {r : RAct} {t : Target}

/-! ### Instructions on a target -/

/-- An instruction on a target has its effect done when it fires, and raises OPERAND for a word that is no target. -/
theorem acksTarget_of {i : Instr} {f : BeatIn → Target → State → State × Word} (hexec : ∀ s, exec i s = runBeat (specTarget r fun x t => some (f x t)) s) :
    AcksTarget i r f := by
  constructor
  · intro s x t h ht
    exact commits_of (sp := shapePriv r) (op := (specTarget r fun x t => some (f x t)).op) (o := { post := ackEffect r.dst x.l (f x t) }) (hexec s) h
      (by simp only [specTarget, specPriv, specR, ht, Option.bind_some]) rfl
  · intro s x h ht
    exact held_of (sp := shapePriv r) (op := (specTarget r fun x t => some (f x t)).op) (hexec s) h (by
      simp only [specTarget, specPriv, specR, ht, Option.bind_none, badOperand])

theorem op_specFrz (ht : readTarget x.a.toWord = some t) : (specFrz r).op x = .ok { post := frzEffect r.dst t x.l } := by simp only [specFrz, specR, ht]

theorem op_specFrz_none (ht : readTarget x.a.toWord = none) : (specFrz r).op x = badOperand x.a.toWord := by simp only [specFrz, specR, ht]

theorem op_specTrCtl (ht : readTarget x.a.toWord = some t) (hkind : bitsOf x.b.toWord.toNat 51 48 < 4) : (specTrCtl r).op x =
    .ok { post := ackEffect r.dst x.l fun s => (writeTrace s t.plot x.b.toWord, (getPlot s t.plot).trace.ctl) } := by
  simp only [specTrCtl, specR, ht, if_neg (not_le.2 hkind)]

theorem op_specTrCtl_kind (ht : (readTarget x.a.toWord).isSome = true) (hkind : 4 ≤ bitsOf x.b.toWord.toNat 51 48) : (specTrCtl r).op x = badOperand x.b.toWord := by
  obtain ⟨t, ht⟩ := Option.isSome_iff_exists.1 ht
  simp only [specTrCtl, specR, ht, if_pos hkind]

/-! ### `tlb.inv` and `irq` -/

theorem now_pushOut (s : State) (l : Loc) (n : Fin 4) (x : Entry) : now (pushOut s l n x) = now s := by rw [(flows_pushOut s l n x).rest]; rfl

theorem msix_pushOut (s : State) (l : Loc) (n : Fin 4) (x : Entry) : (pushOut s l n x).msix = s.msix := by rw [(flows_pushOut s l n x).rest]

/-- The state in which the translations that an invalidation matches are gone. -/
def invalidated (s : State) (g : TlbReach) (ctx va : Nat) : State := { s with
  les := s.les.map fun x => (x.1, { x.2 with tlb := x.2.tlb.filter fun e => !invMatch g ctx va e })
  dies := s.dies.map fun d => (d.1, { d.2 with
    tlb := d.2.tlb.filter fun e => !invMatch g ctx va e
    misses := mapIf (fun m => mayMatch g ctx va m.ctx m.va) (fun m => { m with stale := true }) d.2.misses }) }

theorem tlbEffect_buffers (d : Dst) (g : TlbReach) (ctx va : Nat) (l : Loc) (s : State) :
    (tlbEffect d g ctx va l s).les = (invalidated (reserveAck s l d false).1 g ctx va).les ∧
    (tlbEffect d g ctx va l s).dies = (invalidated (reserveAck s l d false).1 g ctx va).dies := by
  unfold tlbEffect
  dsimp only
  split <;> exact ⟨rfl, rfl⟩

theorem not_invMatch_of_les {g : TlbReach} {ctx va : Nat} {y : Nat × LeUnit} (hy : y ∈ (invalidated s g ctx va).les) {e : TlbEntry} (he : e ∈ y.2.tlb) :
    invMatch g ctx va e = false := by
  obtain ⟨z, -, rfl⟩ := List.mem_map.1 hy
  simpa using (List.mem_filter.1 he).2

theorem not_invMatch_of_dies {g : TlbReach} {ctx va : Nat} {y : Nat × Die} (hy : y ∈ (invalidated s g ctx va).dies) {e : TlbEntry} (he : e ∈ y.2.tlb) :
    invMatch g ctx va e = false := by
  obtain ⟨z, -, rfl⟩ := List.mem_map.1 hy
  simpa using (List.mem_filter.1 he).2

/-- The mailbox of a message whose reply goes to an entry. -/
def posted (w m : Word) (rid : Nat) (d : Die) : Die :=
  { d with hmsg := m, hfn := bitsOf w.toNat 5 0, hvec := bitsOf w.toNat 16 6, hpend := d.hpend || rid != 0, hrid := if rid = 0 then d.hrid else rid }

theorem irqEffect_eq (d : Dst) (l : Loc) (w m : Word) (s : State) : irqEffect d l w m s =
    raiseMsix (modDie (reserveAck s l d false).1 (dieOf l.plot) (posted w m (reserveAck s l d false).2)) (bitsOf w.toNat 5 0) (bitsOf w.toNat 16 6) := rfl

theorem msix_irqEffect (d : Dst) (l : Loc) (w m : Word) (s : State) :
    (irqEffect d l w m s).msix = s.msix ++ [(bitsOf w.toNat 5 0, bitsOf w.toNat 16 6, now s)] := by
  have hmsix := reserveAck_keeps State.msix (fun _ => rfl) msix_pushOut s l d
  have hnow := reserveAck_keeps now (fun _ => rfl) now_pushOut s l d
  rw [irqEffect_eq, ← hmsix, ← hnow]
  rfl

theorem hmsg_irqEffect (d : Dst) (l : Loc) (w m : Word) (s : State) : (getDie (irqEffect d l w m s) (dieOf l.plot)).hmsg = m := by
  rw [irqEffect_eq]
  exact congrArg Die.hmsg (getDie_modDie_same ..)

/-! ### Policies -/

section
variable (htarget : polTarget x.a.toWord = true)
include htarget

theorem op_specPolWr_code (hcode : 5 ≤ x.b.toWord.toNat) : (specPolWr r).op x = badOperand x.b.toWord := by
  simp only [specPolWr, specR, htarget, Bool.not_true, Bool.false_eq_true, if_false, if_pos hcode]

variable (hcode : x.b.toWord.toNat < 5)
include hcode

theorem op_specPolWr_record {k : Nat} (hfrozen : polFrozen x.s x.a.toWord = some k) : (specPolWr r).op x =
    .ok { post := fun s => modParcel s k fun p => { p with recorded := p.recorded ++ [.policy x.a.toWord x.b.toWord.toNat] } } := by
  simp only [specPolWr, specR, htarget, Bool.not_true, Bool.false_eq_true, if_false, if_neg (not_le.2 hcode), hfrozen]

variable (hfrozen : polFrozen x.s x.a.toWord = none)
include hfrozen

theorem op_specPolWr_write (hwrite : writePolicy x.s x.a.toWord x.b.toWord.toNat = some u) : (specPolWr r).op x =
    .ok { post := fun s => (writePolicy (keepOrder s x.a.toWord x.b.toWord.toNat) x.a.toWord x.b.toWord.toNat).getD s } := by
  simp only [specPolWr, specR, htarget, Bool.not_true, Bool.false_eq_true, if_false, if_neg (not_le.2 hcode), hfrozen, hwrite]

theorem op_specPolWr_nothing (hwrite : writePolicy x.s x.a.toWord x.b.toWord.toNat = none) : (specPolWr r).op x = .ok { v := 1, pred := true } := by
  simp only [specPolWr, specR, htarget, Bool.not_true, Bool.false_eq_true, if_false, if_neg (not_le.2 hcode), hfrozen, hwrite]

end

theorem op_specPolWr_target (htarget : polTarget x.a.toWord = false) : (specPolWr r).op x = badOperand x.a.toWord := by
  simp only [specPolWr, specR, htarget, Bool.not_false, if_true]

/-- Settles O35: each instruction has its effect done when it fires; what goes beyond that is said of `tlb.inv`, `irq` and `pol.wr`. -/
theorem controlInstructions : Obligations.ControlInstructions := by
  unfold Obligations.ControlInstructions
  refine ⟨fun r => acksTarget_of fun _ => rfl, fun r => acksTarget_of fun _ => rfl, fun r g s x h _ => commits_of (sp := shapePriv r) rfl h rfl rfl,
    ?invalidates, ?frz, fun r => raisesOperand_where (op := (specFrz r).op) (fun _ => rfl) fun _ h => op_specFrz_none h, fun r => acksTarget_of fun _ => rfl,
    fun r => acksTarget_of fun _ => rfl, ?trCtl, fun r => raisesOperand_where (op := (specTrCtl r).op) (fun _ => rfl) fun _ h => op_specTrCtl_kind h.1 h.2,
    fun r n => acks_of fun _ => rfl, fun r s x h _ => commits_of (sp := shapeIrq r) rfl h rfl rfl, fun d l w m s => ⟨msix_irqEffect .., hmsg_irqEffect ..⟩,
    fun r => acksTarget_of fun _ => rfl, ?write, ?record, ?nothing,
    fun r => raisesOperand_where (op := (specPolWr r).op) (fun _ => rfl) fun _ h => op_specPolWr_target h,
    fun r => raisesOperand_where (op := (specPolWr r).op) (fun _ => rfl) fun _ h => op_specPolWr_code h.1 h.2⟩
  case invalidates =>
    intro d g ctx va l s
    obtain ⟨hles, hdies⟩ := tlbEffect_buffers d g ctx va l s
    rw [hles, hdies]
    exact ⟨fun _ hy _ he => not_invMatch_of_les hy he, fun _ hy _ he => not_invMatch_of_dies hy he⟩
  case frz =>
    intro r s x t h ht
    exact commits_of (sp := shapePriv r) (op := (specFrz r).op) rfl h (op_specFrz ht) rfl
  case trCtl =>
    intro r s x t h ht hkind
    exact commits_of (sp := shapePriv r) (op := (specTrCtl r).op) rfl h (op_specTrCtl ht hkind) rfl
  case write =>
    intro r s x u h ht hc hf hw
    rw [← state_of_fires h] at hf hw
    exact commits_of (op := (specPolWr r).op) rfl h (op_specPolWr_write ht hc hf hw) rfl
  case record =>
    intro r s x k h ht hc hf
    rw [← state_of_fires h] at hf
    exact commits_of (op := (specPolWr r).op) rfl h (op_specPolWr_record ht hc hf) rfl
  case nothing =>
    intro r s x h ht hc hf hw
    rw [← state_of_fires h] at hf hw
    exact commits_of (op := (specPolWr r).op) rfl h (op_specPolWr_nothing ht hc hf hw) rfl

end Sys2Proof.Proofs
end

section
/-!
PROOF. The instructions of a matrix element (spec 15 R264 to R273, R278): what their effects leave of an element's unit and of the adapter cache, and each
instruction's operation case by case; from these lemmas the obligation MatrixInstructions.
-/

namespace Sys2Proof.Proofs

open Machine Laws Say

variable {s t : State} {x : BeatIn} {l : Loc} {an : Fin 4}

/-! ### Units of matrix elements -/

theorem getMe_of_mes (h : t.mes = s.mes) (l : Loc) : getMe t l = getMe s l := by rw [getMe, getMe, h]

theorem getMe_of_flows (h : Flows s t) (l : Loc) : getMe t l = getMe s l := getMe_of_mes (by rw [h.rest]) l

theorem mes_postResult (s : State) (rid : Nat) (tok : Token) : (postResult s rid tok).mes = s.mes := by
  unfold postResult
  split <;> rfl

/-! ### `mma` -/

section
variable {m : MmaAct} {g : MmaGeo}

/-- The three checks of `mma` that raise FORMAT, as it makes them. -/
theorem suits_iff : Suits x m g ↔
    ¬((!sparseOk (headBuf (getMe x.s x.l).nodeA) g.rows g.d || (m.flow != .row && !sparseOk (headBuf (getMe x.s x.l).nodeB) g.n g.d)) = true) ∧
    ¬((m.ids != .none && g.path != .narrow) = true) ∧ ¬((nodeIn x m.an).state = .opened ∧ (nodeIn x m.an).path ≠ g.path) := by
  simp [Suits, and_assoc, or_iff_not_imp_left]

theorem scaled_iff : Scaled x m ↔ ¬(m.flow ≠ .row ∧ (!scaleUsable (headBuf (getMe x.s x.l).nodeB)) = true) := by simp [Scaled, or_iff_not_imp_left]

theorem continues_iff {ids : List Nat} : Continues x m g ids ↔ ¬((nodeIn x m.an).state = .opened ∧
    ((nodeIn x m.an).ad ≠ (m.ids != .none) ∨ ((m.ids != .none) = true ∧ ids.take g.rows ≠ (nodeIn x m.an).ids.take g.rows))) := by
  simp [Continues, or_iff_not_imp_left]

theorem op_specMma_none (hgeo : headGeo x.s x.l m = none) : (specMma m).op x = .bad .format 0 (bufHdr (headBuf (getMe x.s x.l).nodeA)) 0 := by
  simp only [specMma, hgeo]

variable (hgeo : headGeo x.s x.l m = some g)
include hgeo

/-- Operands that do not suit raise FORMAT. -/
theorem op_specMma_unsuited (h : ¬Suits x m g) : (specMma m).op x = .bad .format 0 (bufHdr (headBuf (getMe x.s x.l).nodeA)) 0 := by
  simp only [specMma, hgeo]
  refine ite_eq_left_iff.2 fun hsparse => ite_eq_left_iff.2 fun hids => ite_eq_left_iff.2 fun hpath => absurd (suits_iff.2 ⟨hsparse, hids, hpath⟩) h

/-- Of operands that suit, a group scale or ids that break R31 or R265 raise OPERAND. -/
theorem op_specMma_suited (h : Suits x m g) : (Scaled x m ∧ Continues x m g (adapterIds x.s x.l m g.rows) →
      (specMma m).op x = .ok { post := startMma m g (adapterIds x.s x.l m g.rows) x.l }) ∧
    (¬(Scaled x m ∧ Continues x m g (adapterIds x.s x.l m g.rows)) → ∃ w, (specMma m).op x = badOperand w) := by
  obtain ⟨hsparse, hids, hpath⟩ := suits_iff.1 h
  rw [scaled_iff, continues_iff]
  simp only [specMma, hgeo]
  constructor
  · rintro ⟨hscale, hcont⟩
    exact (if_neg hsparse).trans ((if_neg hids).trans ((if_neg hpath).trans ((if_neg hscale).trans (if_neg hcont))))
  · intro hbad
    by_cases hscale : m.flow ≠ .row ∧ (!scaleUsable (headBuf (getMe x.s x.l).nodeB)) = true
    · exact ⟨_, (if_neg hsparse).trans ((if_neg hids).trans ((if_neg hpath).trans (if_pos hscale)))⟩
    · exact ⟨_, (if_neg hsparse).trans ((if_neg hids).trans ((if_neg hpath).trans ((if_neg hscale).trans (if_pos (by_contra fun hcont => hbad ⟨hscale, hcont⟩)))))⟩

end

/-- The unit of an element in which a firing has taken its ids. -/
def idsTaken (s : State) (l : Loc) (m : MmaAct) (g : MmaGeo) (ids : List Nat) : State := match idChan m.ids with
  | some ch => modMe ((List.range (idTokens g.rows)).foldl (fun s _ => dequeue s l ch) s) l fun u => { u with rowIds := ids }
  | none => s

theorem accs_idsTaken (s : State) (l : Loc) (m : MmaAct) (g : MmaGeo) (ids : List Nat) : (getMe (idsTaken s l m g ids) l).accs = (getMe s l).accs := by
  unfold idsTaken
  split
  · rw [getMe_modMe_same]
    exact (congrArg MeUnit.accs (getMe_of_flows (flows_foldl _ (fun s _ => flows_dequeue s l _) _ s) l) :)
  · rfl

/-- A free node that a firing opens. -/
def openNode (m : MmaAct) (g : MmaGeo) (ids : List Nat) (n : AccNode) : AccNode :=
  { n with state := .opened, path := g.path, ad := m.ids != .none, ids := ids, closedRows := 0 }

/-- The state in which the node of a firing is open, reserved if it was free. -/
def nodeOpened (s : State) (l : Loc) (m : MmaAct) (g : MmaGeo) (ids : List Nat) : State :=
  if (nodeAt (getMe s l) m.an).state = .free then
    modElem (setNode s l m.an (openNode m g ids (nodeAt (getMe s l) m.an))) l fun e => { e with resv := e.resv + 1 }
  else s

theorem nodeAt_nodeOpened (s : State) (l : Loc) (m : MmaAct) (g : MmaGeo) (ids : List Nat) :
    nodeAt (getMe (nodeOpened s l m g ids) l) m.an =
    if (nodeAt (getMe s l) m.an).state = .free then openNode m g ids (nodeAt (getMe s l) m.an) else nodeAt (getMe s l) m.an := by
  unfold nodeOpened
  split
  · rw [getMe_modElem, nodeAt_setNode_same]
  · rfl

theorem startMma_fires (m : MmaAct) (g : MmaGeo) (ids : List Nat) (l : Loc) (s : State) :
    ∃ f, (getMe (startMma m g ids l s) l).fire = some f ∧ f.x = m ∧ f.step = 0 ∧ f.steps = g.k / g.g ∧ f.held = false := by
  unfold startMma
  simp only [getMe_modElem, getMe_modMe_same]
  exact ⟨_, rfl, rfl, rfl, rfl, rfl⟩

theorem accs_startMma (m : MmaAct) (g : MmaGeo) (ids : List Nat) (l : Loc) (s : State) :
    (getMe (startMma m g ids l s) l).accs = (getMe (nodeOpened (idsTaken s l m g ids) l m g ids) l).accs := by
  unfold nodeOpened openNode
  cases hids : idChan m.ids with
  | none | some ch => simp only [startMma, idsTaken, hids, getMe_modElem, getMe_modMe_same]

theorem nodeAt_startMma (m : MmaAct) (g : MmaGeo) (ids : List Nat) (l : Loc) (s : State) :
    nodeAt (getMe (startMma m g ids l s) l) m.an =
    if (nodeAt (getMe s l) m.an).state = .free then openNode m g ids (nodeAt (getMe s l) m.an) else nodeAt (getMe s l) m.an := by
  rw [nodeAt, accs_startMma]
  have hnode : nodeAt (getMe (idsTaken s l m g ids) l) m.an = nodeAt (getMe s l) m.an := congrArg (·[m.an]) (accs_idsTaken s l m g ids)
  refine (nodeAt_nodeOpened ..).trans ?_
  rw [hnode]


/-! ### The accumulator instructions -/

section
variable {m : XAct} {fcs : Fcs}

theorem op_specAccRd {r0 nr : Nat} (hrange : (if m.sa.isCh then accRange x.a.toWord else some (0, 16)) = some (r0, nr))
    (hnorm : (nodeIn x m.an).state = .free ∨ normOk (nodeIn x m.an).norm (nodeIn x m.an).path = true) : (specAccRd m fcs).op x =
      .ok { flags := (accTokens (nodeIn x m.an) m.an (dirOf (fpmRD x.e.fpm)) fcs m.dst r0 nr).2
            post := startAccRd m (accTokens (nodeIn x m.an) m.an (dirOf (fpmRD x.e.fpm)) fcs m.dst r0 nr).1 x.l } := by
  have hfit : ¬((nodeIn x m.an).state ≠ .free ∧ (!normOk (nodeIn x m.an).norm (nodeIn x m.an).path) = true) := by simpa [or_iff_not_imp_left] using hnorm
  simp only [specAccRd, hrange]
  exact if_neg hfit

theorem op_specAccRd_range (hch : m.sa.isCh = true) (hrange : accRange x.a.toWord = none) : (specAccRd m fcs).op x = badOperand x.a.toWord := by
  simp only [specAccRd, hch, if_true, hrange]

theorem op_specAccRel (hnorm : (nodeIn x m.an).state = .free ∨ relChan m.dst = none ∨ normOk (nodeIn x m.an).norm (nodeIn x m.an).path = true) :
    (specAccRel m fcs).op x = .ok { pred := (nodeIn x m.an).state == .opened, post := releaseEffect m fcs x.l } := by
  unfold nodeIn at hnorm
  refine if_neg ?_
  rintro ⟨hstate, hchan, hbad⟩
  rcases hnorm with h | h | h
  · exact hstate h
  · simp [h] at hchan
  · simp [h] at hbad

theorem releaseEffect_free (h : (nodeAt (getMe s l) m.an).state = .free) : releaseEffect m fcs l s = s := by
  simp only [releaseEffect, h]

theorem releaseEffect_opened (h : (nodeAt (getMe s l) m.an).state = .opened) : releaseEffect m fcs l s = endReduction s l m.an (relChan m.dst) fcs true := by
  simp only [releaseEffect, h]

theorem releaseEffect_closed {ch : Fin 2} (h : (nodeAt (getMe s l) m.an).state = .closed) (hch : relChan m.dst = some ch) :
    releaseEffect m fcs l s = endReduction s l m.an (some ch) fcs false := by
  simp only [releaseEffect, h, hch]

end

/-- A node whose reduction ends. -/
def endingNode (s : State) (dest : Option (Fin 2)) (fcs : Fcs) (counts : Bool) (n : AccNode) : AccNode :=
  { n with state := .closing, closing := some ⟨dest, fcs, counts, freshId s⟩ }

/-- The end of a reduction leaves a node that is closing, with its entries, and then tries to release it. -/
theorem endReduction_closes (s : State) (l : Loc) (an : Fin 4) (dest : Option (Fin 2)) (fcs : Fcs) (counts : Bool) :
    ∃ u, endReduction s l an dest fcs counts = tryRelease u l an ∧ nodeAt (getMe u l) an = endingNode s dest fcs counts (nodeAt (getMe s l) an) := by
  have hnode := nodeAt_setNode_same s l an (endingNode s dest fcs counts (nodeAt (getMe s l) an))
  cases dest <;> exact ⟨_, rfl, hnode⟩

/-! ### `ad.inv` -/

theorem mes_settleInvs (s : State) (plot : Nat) : (settleInvs s plot).mes = s.mes :=
  foldl_keeps State.mes (f := fun s (i : AdInv) => postResult s i.rid { tag := .data, val := BitVec.ofNat 512 i.count }) (fun _ _ => mes_postResult ..) _ _

theorem pinOf_settleInvs (s : State) (plot id : Nat) : pinOf (settleInvs s plot) plot id = pinOf s plot id := by rw [pinOf, pinOf, mes_settleInvs]

theorem plots_postResult (s : State) (rid : Nat) (tok : Token) : (postResult s rid tok).plots = s.plots := by
  unfold postResult
  split <;> rfl

theorem getPlot_of_plots (h : t.plots = s.plots) (n : Nat) : getPlot t n = getPlot s n := by rw [getPlot, getPlot, h]

theorem slices_settleInvs (s : State) (plot : Nat) : (getPlot (settleInvs s plot) plot).slices =
    (getPlot s plot).slices.filter fun x => !(x.stale && pinOf s plot x.id == 0) := by
  unfold settleInvs
  dsimp only
  rw [getPlot_of_plots (foldl_keeps State.plots (fun _ _ => plots_postResult ..) _ _), getPlot_modPlot_same]

/-- The state in which an invalidation has marked what it matches. -/
def marked (s : State) (l : Loc) (w rid : Nat) (hit : List Slice) : State :=
  { modPlot s l.plot fun p =>
      { p with slices := mapIf (fun x => invMatches w x.aid x.tag) (fun x => { x with stale := true }) p.slices
               fills := mapIf (fun f => invMatches w f.aid f.tag) (fun f => { f with again := true }) p.fills
               invs := if rid = 0 then p.invs else p.invs ++ [⟨rid, hit.length, hit.map (·.id)⟩] } with
    mes := s.mes.map fun x => if x.1 / 32 = l.plot then (x.1, { x.2 with dirs := x.2.dirs.filter fun d => !invMatches w d.aid d.tag }) else x }

theorem invEffect_eq (d : Dst) (l : Loc) (w : Nat) (s : State) : ∃ u rid hit, invEffect d l w s = settleInvs (marked u l w rid hit) l.plot := ⟨_, _, _, rfl⟩

theorem not_invMatches_marked {w rid : Nat} {hit : List Slice} {y : Nat × MeUnit} (hy : y ∈ (marked s l w rid hit).mes) (hplot : y.1 / 32 = l.plot) {e : DirEnt}
    (he : e ∈ y.2.dirs) : invMatches w e.aid e.tag = false := by
  obtain ⟨z, -, rfl⟩ := List.mem_map.1 hy
  by_cases h : z.1 / 32 = l.plot
  · rw [if_pos h] at he
    simpa using (List.mem_filter.1 he).2
  · rw [if_neg h] at hplot
    exact absurd hplot h

theorem slices_marked (s : State) (l : Loc) (w rid : Nat) (hit : List Slice) : (getPlot (marked s l w rid hit) l.plot).slices =
    mapIf (fun x => invMatches w x.aid x.tag) (fun x => { x with stale := true }) (getPlot s l.plot).slices := by
  simp [marked, modPlot, getPlot]

theorem stale_marked {w rid : Nat} {hit : List Slice} {y : Slice} (hy : y ∈ (getPlot (marked s l w rid hit) l.plot).slices) (hmatch : invMatches w y.aid y.tag = true) :
    y.stale = true := by
  rw [slices_marked] at hy
  obtain ⟨z, -, rfl⟩ := List.mem_map.1 hy
  by_cases h : invMatches w z.aid z.tag = true
  · rw [if_pos h]
  · rw [if_neg h] at hmatch
    exact absurd hmatch h

/-- A slice that an invalidation matches stays for the rows that are pinned to it, and marked. -/
theorem invEffect_slices (d : Dst) (l : Loc) (w : Nat) (s : State) {y : Slice} (hy : y ∈ (getPlot (invEffect d l w s) l.plot).slices)
    (hmatch : invMatches w y.aid y.tag = true) : y.stale = true ∧ pinOf (invEffect d l w s) l.plot y.id ≠ 0 := by
  obtain ⟨u, rid, hit, heq⟩ := invEffect_eq d l w s
  rw [heq, slices_settleInvs] at hy
  rw [heq, pinOf_settleInvs]
  obtain ⟨hmem, hkept⟩ := List.mem_filter.1 hy
  have hstale := stale_marked hmem hmatch
  exact ⟨hstale, by simpa [hstale] using hkept⟩

theorem invEffect_dirs (d : Dst) (l : Loc) (w : Nat) (s : State) {y : Nat × MeUnit} (hy : y ∈ (invEffect d l w s).mes) (hplot : y.1 / 32 = l.plot) {e : DirEnt}
    (he : e ∈ y.2.dirs) : invMatches w e.aid e.tag = false := by
  obtain ⟨u, rid, hit, heq⟩ := invEffect_eq d l w s
  rw [heq, mes_settleInvs] at hy
  exact not_invMatches_marked hy hplot he

/-! ### `me.idl` -/

theorem op_specMeIdl {m : XAct} (h : x.a.toWord.toNat < 512 ∧ bitsOf x.a.toWord.toNat 7 4 = 0) : (specMeIdl m).op x =
    .ok { v := BitVec.ofNat 512 ((getMe x.s x.l).idle.getD (x.a.toWord.toNat % 16) 0), pred := bitOf ((getMe x.s x.l).idle.getD (x.a.toWord.toNat % 16) 0) 0
          post := fun s => if bitOf x.a.toWord.toNat 8 then modMe s x.l fun u => { u with idle := u.idle.set (x.a.toWord.toNat % 16) 0 } else s } :=
  if_neg (by simp [h.1, h.2])

theorem op_specMeIdl_bad {m : XAct} (h : ¬(x.a.toWord.toNat < 512 ∧ bitsOf x.a.toWord.toNat 7 4 = 0)) : (specMeIdl m).op x = badOperand x.a.toWord :=
  if_pos (by simp only [Nat.div_eq_zero_iff, ne_eq]; omega)

/-- Settles O31: each instruction's outcome follows the case of its operation, and the effects keep what they do not name. -/
theorem matrixInstructions : Obligations.MatrixInstructions := by
  unfold Obligations.MatrixInstructions
  refine ⟨?begin, ?format, ?unsuited, ?suited, ?start, fun m s x h _ => commits_of (sp := shapeAcc m .none m.upd false) rfl h rfl rfl, ?accRd,
    fun m fcs => raisesOperand_where (op := (specAccRd m fcs).op) (fun _ => rfl) fun _ h => op_specAccRd_range h.1 h.2,
    fun m s x h _ => commits_of (sp := shapeLd m) rfl h rfl rfl,
    fun m fcs => commits_where (op := (specAccRel m fcs).op) (fun _ => rfl) (fun _ h => op_specAccRel h) fun _ => rfl,
    fun m fcs l s h => releaseEffect_free h, ?release,
    fun m => commits_where (op := (specAdInv m).op) (fun _ => rfl) (fun _ h => if_neg (not_not.2 h)) fun _ => rfl,
    fun m => raisesOperand_where (op := (specAdInv m).op) (fun _ => rfl) fun _ h => if_pos h,
    fun d l w s => ⟨fun _ hy hp _ he => invEffect_dirs d l w s hy hp he, fun _ hy hm => invEffect_slices d l w s hy hm⟩,
    fun m => gives_self fun _ => rfl,
    fun m => commits_where (op := (specMeIdl m).op) (fun _ => rfl) (fun _ h => op_specMeIdl h) fun _ => rfl,
    fun m => raisesOperand_where (op := (specMeIdl m).op) (fun _ => rfl) fun _ h => op_specMeIdl_bad h⟩
  case begin =>
    intro m s x g h hgeo hsuits hscaled hcont
    obtain rfl := state_of_fires h
    exact commits_of (sp := shapeMma m) (op := (specMma m).op) rfl h ((op_specMma_suited hgeo hsuits).1 ⟨hscaled, hcont⟩) rfl
  case format =>
    intro m s x h hgeo
    obtain rfl := state_of_fires h
    exact held_of (sp := shapeMma m) (op := (specMma m).op) rfl h (op_specMma_none hgeo)
  case unsuited =>
    intro m s x g h hgeo hsuits
    obtain rfl := state_of_fires h
    exact held_of (sp := shapeMma m) (op := (specMma m).op) rfl h (op_specMma_unsuited hgeo hsuits)
  case suited =>
    intro m s x g h hgeo hsuits hbad
    obtain rfl := state_of_fires h
    obtain ⟨w, hop⟩ := (op_specMma_suited hgeo hsuits).2 hbad
    exact ⟨w, held_of (sp := shapeMma m) (op := (specMma m).op) rfl h hop⟩
  case start =>
    intro m g ids l s
    refine ⟨startMma_fires .., ?_, fun hfree => ?_⟩
    · rw [nodeAt_startMma]
      split <;> rfl
    · rw [nodeAt_startMma, if_pos hfree]
      exact ⟨rfl, rfl, rfl⟩
  case accRd =>
    intro m fcs s x r0 nr h hrange hnorm
    exact fires_of (sp := shapeAcc m m.dst .none true) (op := (specAccRd m fcs).op) rfl h (op_specAccRd hrange hnorm)
  case release =>
    rintro m fcs l s (hopen | ⟨hclosed, hchan⟩)
    · obtain ⟨u, heq, hnode⟩ := endReduction_closes s l m.an (relChan m.dst) fcs true
      exact ⟨u, _, (releaseEffect_opened hopen).trans heq, by rw [hnode]; rfl, by rw [hnode]; rfl, rfl, by rw [hnode]; rfl⟩
    · obtain ⟨ch, hch⟩ := Option.isSome_iff_exists.1 hchan
      obtain ⟨u, heq, hnode⟩ := endReduction_closes s l m.an (some ch) fcs false
      exact ⟨u, _, (releaseEffect_closed hclosed hch).trans heq, by rw [hnode]; rfl, by rw [hnode]; rfl, hch.symm, by rw [hnode]; rfl⟩

end Sys2Proof.Proofs
end

section
/-!
PROOF. The steps of a matrix element (spec 14 R248, R254, R257, R258, 15 R265, R267): what a K-step adds to each entry, what a step and a firing's end leave, and the
release of a node; from these lemmas the obligation MatrixSteps.
-/

namespace Sys2Proof.Proofs

open Machine Laws Say

variable {s : State} {l : Loc} {an : Fin 4}

/-! ### One K-step's group sums -/

section
variable {σ α β : Type} {F : σ → α × Nat → σ} {obs : σ → β}

/-- A fold over a list with its places, none of which changes what is observed. -/
theorem foldl_zipIdx_after {n : Nat} (other : ∀ st c j, j ≠ n → obs (F st (c, j)) = obs st) :
    ∀ {xs : List α} {k : Nat} {st : σ}, n < k → obs ((xs.zipIdx k).foldl F st) = obs st
  | [], _, _, _ => rfl
  | x :: xs, k, st, hk => by
    rw [List.zipIdx_cons, List.foldl_cons, foldl_zipIdx_after other (by omega), other _ _ _ (by omega)]

/-- A fold over a list with its places, of which each place but one leaves what is observed, does what that one does. -/
theorem foldl_zipIdx_at {h : α → β → β} {n : Nat} (same : ∀ st c, obs (F st (c, n)) = h c (obs st)) (other : ∀ st c j, j ≠ n → obs (F st (c, j)) = obs st) :
    ∀ {xs : List α} {k : Nat} {st : σ} {c : α}, k ≤ n → xs[n - k]? = some c → obs ((xs.zipIdx k).foldl F st) = h c (obs st)
  | [], _, _, _, _, hc => by simp at hc
  | x :: xs, k, st, c, hk, hc => by
    rw [List.zipIdx_cons, List.foldl_cons]
    by_cases hkn : k = n
    · subst hkn
      have hcx : x = c := by simpa using hc
      rw [foldl_zipIdx_after other (Nat.lt_succ_self _), same, hcx]
    · have hrest : xs[n - (k + 1)]? = some c := by
        rw [show n - k = n - (k + 1) + 1 by omega, List.getElem?_cons_succ] at hc
        exact hc
      rw [foldl_zipIdx_at same other (by omega) hrest, other _ _ _ hkn]

end

/-- One group sum changes its own entry, and no other. -/
theorem findD_addEntry_same (path : MPath) (st : Tbl Acc × Flags) (key : Nat) (g : GSum × Flags) :
    Tbl.findD (addEntry path st key g).1 key {} = entryAfter path (Tbl.findD st.1 key {}) g.1 := by
  obtain ⟨sum, fl⟩ := g
  cases sum with
  | fin e v =>
    by_cases hv : v = 0
    · subst hv
      rfl
    · simp [addEntry, entryAfter, hv]
  | inf neg | nan => simp [addEntry, entryAfter]

theorem findD_addEntry_other (path : MPath) (st : Tbl Acc × Flags) {key k : Nat} (g : GSum × Flags) (h : k ≠ key) :
    Tbl.findD (addEntry path st key g).1 k {} = Tbl.findD st.1 k {} := by
  unfold addEntry
  split
  · rfl
  · exact findD_put_other _ _ _ h

/-- The products of a cell in a K-step. -/
def cellSum (geo : MmaGeo) (g : Nat) (r c : MRow) : GSum × Flags := groupSum geo.path ((upFrom (g * geo.g) geo.g).map fun k => (r.val k, c.val k))

/-- The group sums of one row. -/
def rowStepOf (geo : MmaGeo) (cols : List MRow) (g : Nat) (st : Tbl Acc × Flags) (r : MRow × Nat) : Tbl Acc × Flags :=
  cols.zipIdx.foldl (fun st c => addEntry geo.path st (16 * r.2 + c.2) (cellSum geo g r.1 c.1)) st

theorem mainStep_eq (geo : MmaGeo) (rows cols : List MRow) (g : Nat) (ents : Tbl Acc) :
    mainStep geo rows cols g ents = rows.zipIdx.foldl (rowStepOf geo cols g) (ents, 0) := by
  simp only [mainStep, List.range_eq_range', ← List.zipIdx_eq_zip_range']
  rfl

section
variable {geo : MmaGeo} {cols : List MRow} {g i n : Nat} {c : MRow}

theorem findD_rowStepOf_same (hc : cols[n]? = some c) (st : Tbl Acc × Flags) (r : MRow) :
    Tbl.findD (rowStepOf geo cols g st (r, i)).1 (16 * i + n) {} = entryAfter geo.path (Tbl.findD st.1 (16 * i + n) {}) (cellSum geo g r c).1 :=
  foldl_zipIdx_at (obs := fun st : Tbl Acc × Flags => Tbl.findD st.1 (16 * i + n) {}) (h := fun c a => entryAfter geo.path a (cellSum geo g r c).1)
    (fun st c => findD_addEntry_same ..) (fun st c j hj => findD_addEntry_other _ _ _ (by omega)) (Nat.zero_le n) hc

theorem findD_rowStepOf_other (hcols : cols.length ≤ 16) (hn : n < 16) (st : Tbl Acc × Flags) (r : MRow) {j : Nat} (hj : j ≠ i) :
    Tbl.findD (rowStepOf geo cols g st (r, j)).1 (16 * i + n) {} = Tbl.findD st.1 (16 * i + n) {} := by
  refine List.foldlRecOn _ _ (motive := fun u : Tbl Acc × Flags => Tbl.findD u.1 (16 * i + n) {} = Tbl.findD st.1 (16 * i + n) {}) rfl ?_
  rintro u ih ⟨c, k⟩ hck
  have hk : k < cols.length := by simpa using List.snd_lt_add_of_mem_zipIdx hck
  exact (findD_addEntry_other _ _ _ (by simp only; omega)).trans ih

theorem findD_mainStep {rows : List MRow} (hcols : cols.length ≤ 16) {r : MRow} (hr : rows[i]? = some r) (hc : cols[n]? = some c) (ents : Tbl Acc) :
    Tbl.findD (mainStep geo rows cols g ents).1 (16 * i + n) {} = entryAfter geo.path (Tbl.findD ents (16 * i + n) {}) (cellSum geo g r c).1 := by
  have hn : n < 16 := by
    have := (List.getElem?_eq_some_iff.1 hc).1
    omega
  rw [mainStep_eq]
  exact foldl_zipIdx_at (obs := fun st : Tbl Acc × Flags => Tbl.findD st.1 (16 * i + n) {}) (h := fun r a => entryAfter geo.path a (cellSum geo g r c).1)
    (fun st r => findD_rowStepOf_same hc st r) (fun st r j hj => findD_rowStepOf_other hcols hn st r hj) (Nat.zero_le i) hr

end

/-! ### MMA_STEP -/

section
variable {f : Firing} {geo : MmaGeo} {a b : OpBuf} {rows cols : List MRow}

theorem exec_mmaStep (h : KStep s l f geo a b rows cols) : exec (.mmaStep l) s = .next (gridStep s l f geo a b) := by
  obtain ⟨hheld, hpad, hdue⟩ := h.goes
  obtain ⟨hflow, hids⟩ := h.grid
  refine congrArg _ ((if_pos h.runs).trans ?_)
  simp only [mmaStepOn, h.fire, hheld, hpad, h.spill, h.geoIs, hids, hflow, not_lt.2 hdue, decide_false, Bool.or_self, Bool.false_eq_true, if_false, bne_self_eq_false,
    Bool.false_and]

theorem gridStep_eq (h : KStep s l f geo a b rows cols) : gridStep s l f geo a b =
    (let q := mainStep geo rows cols f.step (nodeAt (getMe s l) f.x.an).ents
     if trapsIn s l f q.2 ≠ 0 then holdMma s l f .arith 0 ((trapsIn s l f q.2).setWidth 64)
     else showStep (commitStep s l f q.1 q.2 fun x =>
      { x with step := f.step + 1, pad := decide (f.steps ≤ f.step + 1)
               due := f.due + (if decide (f.steps ≤ f.step + 1) then 12 else stepCost f.x.flow geo rows cols (f.step + 1)) }) l f.slot (f.step + 1)) := by
  obtain ⟨ha, hb⟩ := h.good
  simp only [gridStep, readsBad, ha, hb, h.operands, List.isEmpty_nil, Bool.not_true, Bool.false_and, Bool.or_self, Bool.false_eq_true, if_false]

/-- A step that is committed leaves its entries, its flags, and the firing as it goes on. -/
theorem commitStep_leaves (s : State) (l : Loc) (f : Firing) (ents : Tbl Acc) (fl : Flags) (g : Firing → Firing) :
    getMe (commitStep s l f ents fl g) l = { getMe s l with
      accs := (getMe s l).accs.set f.x.an { nodeAt (getMe s l) f.x.an with ents := ents }, fire := (getMe s l).fire.map fun x => { g x with noTrap := false } } ∧
    Machine.getElem (commitStep s l f ents fl g) l = orFlags (Machine.getElem s l) fl := by
  unfold commitStep modFire setNode
  constructor
  · rw [getMe_modElem, getMe_modMe_same, getMe_modMe_same]
  · rw [getElem_modElem_same _ _ rfl, getElem_modMe, getElem_modMe]

theorem trapsIn_eq_zero {fl : Flags} (h : f.noTrap = true ∨ fl &&& fpmTE (Machine.getElem s l).fpm = 0#7) : trapsIn s l f fl = 0#7 := by
  rcases h with h | h <;> simp [trapsIn, h]

end

/-! ### MMA_COMPLETE -/

section
variable {f : Firing} {geo : MmaGeo} {a b : OpBuf}

/-- A firing whose steps and fill are over ends, where no adapter holds it. -/
theorem exec_mmaComplete (hruns : meRuns s l = true) (hfire : (getMe s l).fire = some f) (hheld : f.held = false) (hpad : f.pad = true) (hdue : f.due ≤ now s)
    (hids : f.x.ids = .none) (hgeo : fireGeo s l f = some (geo, a, b)) : exec (.mmaComplete l) s = .next (mmaEnd s l f) := by
  refine congrArg _ ((if_pos hruns).trans ?_)
  simp only [mmaCompleteOn, hfire, hheld, hpad, hgeo, hids, not_lt.2 hdue, decide_false, Bool.or_self, Bool.not_true, Bool.false_eq_true, if_false, bne_self_eq_false,
    Bool.false_and]

/-- The state that a firing leaves when it ends, before its node's reduction may end. -/
def ended (s : State) (l : Loc) (f : Firing) (ends : Bool) : State :=
  let nd := nodeAt (getMe s l) f.x.an
  let s := setNode (modMe s l fun u => freeOperands f.x.flow { u with fire := none }) l f.x.an { nd with f := nd.f + 1 }
  traceFiring (modElem s l fun e => { setPred e f.x.upd ends with pix := 0, firedAt := now s + 1 }) l f.slot (Machine.getElem s l)

theorem mmaEnd_counts (hcount : (nodeAt (getMe s l) f.x.an).count = 0 ∨ (nodeAt (getMe s l) f.x.an).f + 1 ≠ (nodeAt (getMe s l) f.x.an).count) :
    mmaEnd s l f = ended s l f false := by
  have hends : ((nodeAt (getMe s l) f.x.an).count != 0 && (nodeAt (getMe s l) f.x.an).f + 1 == (nodeAt (getMe s l) f.x.an).count) = false := by
    rcases hcount with h | h <;> simp [h]
  simp only [mmaEnd, hends, Bool.false_and, Bool.false_eq_true, if_false]
  rfl

theorem fire_freeOperands (flow : Flow) (u : MeUnit) : (freeOperands flow u).fire = u.fire := by
  unfold freeOperands
  cases flow with
  | row | inner => rfl
  | outer => dsimp only; split <;> rfl

theorem ended_leaves (s : State) (l : Loc) (f : Firing) (ends : Bool) : (getMe (ended s l f ends) l).fire = none ∧ (Machine.getElem (ended s l f ends) l).pix = 0#64 ∧
    nodeAt (getMe (ended s l f ends) l) f.x.an = { nodeAt (getMe s l) f.x.an with f := (nodeAt (getMe s l) f.x.an).f + 1 } := by
  unfold ended traceFiring
  dsimp only
  rw [getMe_of_flows (flows_traceEvent ..), getElem_traceEvent, getElem_modElem_same _ _ rfl, getMe_modElem]
  refine ⟨?_, rfl, nodeAt_setNode_same ..⟩
  rw [setNode, getMe_modMe_same, getMe_modMe_same]
  exact fire_freeOperands ..

end

/-! ### Release -/

section
variable {c : Closing} (hstate : (nodeAt (getMe s l) an).state = .closing) (hclosing : (nodeAt (getMe s l) an).closing = some c)
  (hdone : adaptersDone (nodeAt (getMe s l) an) = true)
include hstate hclosing hdone

theorem tryRelease_held (hdest : c.dest = none) : tryRelease s l an =
    (if c.counts then modElem (setNode s l an { nodeAt (getMe s l) an with state := .closed, closing := none }) l countTile
     else setNode s l an { nodeAt (getMe s l) an with state := .closed, closing := none }) := by
  simp only [tryRelease, hstate, hclosing, hdone, hdest, Bool.not_true, Bool.false_eq_true, if_false]

theorem tryRelease_leaves {ch : Fin 2} (hdest : c.dest = some ch) (hfree : (outPort (Machine.getElem s l) (relPort ch)).pkt = [])
    (hfirst : endsBefore (getMe s l) c = false) : tryRelease s l an = releaseNode s l an c ch := by
  simp only [tryRelease, hstate, hclosing, hdone, hdest, hfree, hfirst, Bool.not_true, Bool.false_eq_true, if_false, List.isEmpty_nil, Bool.not_false, Bool.and_self, if_true]

end

theorem releaseNode_leaves (s : State) (l : Loc) (an : Fin 4) (c : Closing) (ch : Fin 2) :
    (nodeAt (getMe (releaseNode s l an c ch) l) an).state = .free ∧ (nodeAt (getMe (releaseNode s l an c ch) l) an).ents = [] ∧
    (outPort (Machine.getElem (releaseNode s l an c ch) l) (relPort ch)).pkt =
      (packetOf (nodeAt (getMe s l) an) an (dirOf (fpmRD (Machine.getElem s l).fpm)) c.fcs 0 16).1 := by
  unfold releaseNode
  dsimp only
  rw [getMe_modElem, nodeAt_setNode_same, getElem_modElem_same _ _ rfl]
  exact ⟨rfl, rfl, congrArg OutPort.pkt (outPort_setOut_same ..)⟩

/-! ### Operand packets -/

theorem operandFill_takes {nodeB : Bool} {n : Fin 4} {tok : Token} {e : Entry} (hport : portOf (Machine.getElem s l) l.plot nodeB = some n)
    (htok : headToken s l n = some tok) (hentry : (inPort (Machine.getElem s l) n).q.es.head? = some e)
    (hfull : ((nodeOf (getMe s l) nodeB).bufs.getD (nodeOf (getMe s l) nodeB).fill {}).full = false)
    (hwait : beatWaits tok ((nodeOf (getMe s l) nodeB).bufs.getD (nodeOf (getMe s l) nodeB).fill {}) = false) :
    operandFill s l nodeB = modMe (dequeue s l n) l (modNode nodeB fun nd =>
      let nd := modBuf nd.fill (takeBeat tok e.rid) nd
      if tok.tag = .last then { nd with fill := (nd.fill + 1) % nd.bufs.length } else nd) := by
  simp only [operandFill, hport, htok, hentry, hfull, hwait, Bool.or_self, Bool.false_eq_true, if_false]

/-- Settles O32: each step is its one case, whose effects are those of the lemmas above. -/
theorem matrixSteps : Obligations.MatrixSteps := by
  unfold Obligations.MatrixSteps
  refine ⟨fun geo rows cols g ents i n r c _ hcols hr hc => findD_mainStep hcols hr hc ents, ?commit, ?trap, ?complete, ?fill, ?release, ?hold, ?beat⟩
  case commit =>
    intro s l f geo a b rows cols h q hquiet
    have htraps := trapsIn_eq_zero hquiet
    refine ⟨_, (exec_mmaStep h).trans (congrArg _ ((gridStep_eq h).trans (if_neg (not_not.2 htraps)))), ?_⟩
    obtain ⟨hunit, helem⟩ := commitStep_leaves s l f q.1 q.2 fun x => { x with
      step := f.step + 1, pad := decide (f.steps ≤ f.step + 1)
      due := f.due + (if decide (f.steps ≤ f.step + 1) then 12 else stepCost f.x.flow geo rows cols (f.step + 1)) }
    rw [showStep, getMe_modElem, hunit, getElem_modElem_same _ _ rfl, helem, h.fire]
    exact ⟨by simp [nodeAt], rfl, rfl⟩
  case trap =>
    intro s l f geo a b rows cols h q htrap hflags
    have htraps : trapsIn s l f q.2 = q.2 &&& fpmTE (Machine.getElem s l).fpm := if_neg (by rw [htrap]; exact Bool.false_ne_true)
    rw [exec_mmaStep h, gridStep_eq h, ← htraps]
    exact congrArg _ (if_pos (by rw [htraps]; exact hflags))
  case complete =>
    intro s l f geo a b hruns hfire hheld hpad hdue hids hgeo hcount
    exact ⟨_, (exec_mmaComplete hruns hfire hheld hpad hdue hids hgeo).trans (congrArg _ (mmaEnd_counts hcount)), ended_leaves ..⟩
  case fill =>
    intro s l nodeB n tok e hruns hport htok hentry nd hfull hwait
    exact ⟨_, congrArg Host.Outcome.next ((if_pos hruns).trans (operandFill_takes hport htok hentry hfull hwait)), rfl⟩
  case release =>
    intro s l an c ch hruns hstate hclosing hdone hdest hfree hfirst
    exact ⟨_, congrArg Host.Outcome.next ((if_pos hruns).trans (tryRelease_leaves hstate hclosing hdone hdest hfree hfirst)), releaseNode_leaves ..⟩
  case hold =>
    intro s l an c hruns hstate hclosing hdone hdest
    refine ⟨_, congrArg Host.Outcome.next ((if_pos hruns).trans (tryRelease_held hstate hclosing hdone hdest)), ?_⟩
    have hnode := nodeAt_setNode_same s l an { nodeAt (getMe s l) an with state := .closed, closing := none }
    split
    · rw [getMe_modElem, hnode]
      exact ⟨rfl, rfl⟩
    · rw [hnode]
      exact ⟨rfl, rfl⟩
  case beat =>
    intro s l c tok rest hruns hpkt hroom
    refine congrArg _ ((if_pos hruns).trans ?_)
    simp only [releaseBeatOn, hpkt, hroom, if_false]

end Sys2Proof.Proofs
end

section
/-!
PROOF. The adapter unit of a matrix element (spec 15 R274 to R277): what a fetch that is performed leaves, which slices give way, and the rows that are closed; from
these lemmas the obligation AdapterSteps.
-/

namespace Sys2Proof.Proofs

open Machine Laws Say

variable {s : State} {l : Loc} {an : Fin 4} {plot : Nat} {f : Fill} {k : Bool} {b : Nat} {d : DirEnt}

/-! ### Fetches -/

section
variable (hfill : (getPlot s plot).fills.find? (fun x => x.id == f.id) = some f) (hturn : fillTurn (getPlot s plot) f = true) (hruns : plotFrozen s plot = false)
include hfill hturn hruns

/-- A fetch whose turn it is is performed while its plot runs. -/
theorem exec_adapterSliceFill : exec (.adapterSliceFill plot f.id) s = .next (performFill s plot f) := by
  change execAdapterSliceFill plot f.id s = _
  simp only [execAdapterSliceFill, hfill, hturn, hruns, Bool.not_false, Bool.and_self, if_true]

end

/-- A directory read that is answered is cached, and the rows that wait for it go on. -/
theorem performFill_dir {s' : State} (hslice : f.slice = none) (hread : readDir (some plot) s plot (getMe s f.l).dir f.aid f.tag f.sub = (s', .ok d)) :
    performFill s plot f = wakeRows f.aid f.tag none none (modMe (endFill s' plot f) f.l fun u => { u with dirs := putDir u.dirs d }) f.l := by
  simp only [performFill, hslice, hread]

section
variable (hslice : f.slice = some (k, b, d)) (hagain : f.again = false)
include hslice hagain

/-- A fetch of a slice waits while every way of its set is pinned. -/
theorem performFill_waits (hroom : sliceRoom s plot (newSlice k f.aid f.tag b f.id []) = none) : performFill s plot f = s := by
  simp only [performFill, hslice, hagain, hroom, Bool.false_eq_true, if_false, Option.isNone_none, if_true]

/-- A slice that is read enters the plot's cache, and the rows that wait for it go on. -/
theorem performFill_slice {s' : State} {data : List Byte} {xs : List Slice}
    (hread : readVirtOf (some plot) s (dieOf plot) f.ctx ((if k then d.bbase else d.abase) + 8192 * b) (sliceBytes d k b) f.sub = (s', .ok data))
    (hroom : sliceRoom s plot (newSlice k f.aid f.tag b f.id []) ≠ none) (hput : sliceRoom s' plot (newSlice k f.aid f.tag b f.id data) = some xs) :
    performFill s plot f = (meSites plot).foldl (wakeRows f.aid f.tag (some (k, b)) (some (f.id, d)))
      (modPlot (endFill s' plot f) plot fun p => { p with slices := xs }) := by
  have hsome : (sliceRoom s plot (newSlice k f.aid f.tag b f.id [])).isNone = false := by simpa [Option.isSome_iff_ne_none] using hroom
  simp only [performFill, hslice, hagain, hsome, hread, hput, Bool.false_eq_true, if_false, Option.getD_some]

end

/-- A slice that enters the cache is there, and those that are pinned stay. -/
theorem putSlice_keeps {pinned : Slice → Bool} {ys xs : List Slice} {y : Slice} (h : putSlice pinned ys y = some xs) :
    y ∈ xs ∧ ∀ z ∈ ys, pinned z = true → z ∈ xs := by
  unfold putSlice at h
  dsimp only at h
  split at h
  · cases h
    exact ⟨List.mem_cons_self, fun z hz _ => List.mem_cons_of_mem _ hz⟩
  · obtain ⟨old, hold, rfl⟩ := Option.map_eq_some_iff.1 h
    have hfree : pinned old = false := by simpa using (List.mem_filter.1 (List.mem_of_getLast? hold)).2
    refine ⟨List.mem_cons_self, fun z hz hpin => List.mem_cons_of_mem _ (List.mem_filter.2 ⟨hz, ?_⟩)⟩
    have hne : z ≠ old := by
      rintro rfl
      rw [hpin] at hfree
      cases hfree
    simpa using hne

/-! ### Closing -/

/-- A row of a node is closed: the next is up, and its pin falls. -/
def rowClosed (s : State) (l : Loc) (an : Fin 4) (i : Nat) : State :=
  modMe s l fun u => { u with accs := u.accs.set an { u.accs[an] with closedRows := i + 1, closePin := none } }

theorem nodeAt_rowClosed (s : State) (l : Loc) (an : Fin 4) (i : Nat) :
    nodeAt (getMe (rowClosed s l an i) l) an = { nodeAt (getMe s l) an with closedRows := i + 1, closePin := none } := by
  rw [rowClosed, getMe_modMe_same]
  simp [nodeAt]

section
variable {fcs : Fcs} {n : Nat}

theorem closeRows_over (h : 16 ≤ (nodeAt (getMe s l) an).closedRows) : closeRows l an fcs n s = s := by
  cases n with
  | zero => rfl
  | succ n => exact if_pos h

/-- A row of the base model is closed with no change. -/
theorem closeRows_base (h : (nodeAt (getMe s l) an).closedRows < 16) (hid : (nodeAt (getMe s l) an).ids.getD (nodeAt (getMe s l) an).closedRows 0 = 0) :
    closeRows l an fcs (n + 1) s = closeRows l an fcs n (rowClosed s l an (nodeAt (getMe s l) an).closedRows) :=
  (if_neg (not_le.2 h)).trans (if_pos hid)

/-- Where all the rows that are left are of the base model, closing them changes no entry. -/
theorem closeRows_bases : ∀ {n : Nat} {s : State}, (nodeAt (getMe s l) an).closedRows ≤ 16 → 16 ≤ (nodeAt (getMe s l) an).closedRows + n →
    (∀ i, (nodeAt (getMe s l) an).closedRows ≤ i → i < 16 → (nodeAt (getMe s l) an).ids.getD i 0 = 0) →
    (nodeAt (getMe (closeRows l an fcs n s) l) an).closedRows = 16 ∧
    (nodeAt (getMe (closeRows l an fcs n s) l) an).ents = (nodeAt (getMe s l) an).ents
  | 0, s, hle, hfuel, _ => by
    rw [closeRows_over (by omega)]
    exact ⟨by omega, rfl⟩
  | n + 1, s, hle, hfuel, hids => by
    by_cases hover : 16 ≤ (nodeAt (getMe s l) an).closedRows
    · rw [closeRows_over hover]
      exact ⟨by omega, rfl⟩
    · have hnode := nodeAt_rowClosed s l an (nodeAt (getMe s l) an).closedRows
      rw [closeRows_base (not_le.1 hover) (hids _ le_rfl (not_le.1 hover))]
      obtain ⟨hrows, hents⟩ := closeRows_bases (n := n) (s := rowClosed s l an (nodeAt (getMe s l) an).closedRows) (by rw [hnode]; dsimp only; omega)
        (by rw [hnode]; dsimp only; omega) (by rw [hnode]; exact fun i hi => hids i (by dsimp only at hi; omega))
      exact ⟨hrows, by rw [hents, hnode]⟩

/-- A row that is pinned to its slice is closed with the groups of that slice. -/
theorem closeRows_pinned {sid : Nat} {y : Slice} (h : (nodeAt (getMe s l) an).closedRows < 16)
    (hid : (nodeAt (getMe s l) an).ids.getD (nodeAt (getMe s l) an).closedRows 0 ≠ 0) (hpin : (nodeAt (getMe s l) an).closePin = some (sid, d))
    (hslice : (getPlot s l.plot).slices.find? (fun z => z.id == sid) = some y) :
    let q := closeRow (dirOf (fpmRD (Machine.getElem s l).fpm)) fcs d y.data (nodeAt (getMe s l) an) (nodeAt (getMe s l) an).closedRows
    closeRows l an fcs (n + 1) s = closeRows l an fcs n (rowClosed (modElem (setNode s l an q.1) l fun e => orFlags e q.2) l an (nodeAt (getMe s l) an).closedRows) := by
  have hlook : closeLook s l (nodeAt (getMe s l) an) = (s, .ok (some (d, y.data))) := by
    simp only [closeLook, hpin, Option.bind_some, hslice, Option.map_some]
  refine (if_neg (not_le.2 h)).trans ((if_neg hid).trans ?_)
  simp only [hlook]
  rfl

end

theorem closeTurn_eq_some {c : Closing} (h : closeTurn s l an = some c) : (nodeAt (getMe s l) an).closedRows < 16 := by
  unfold closeTurn at h
  dsimp only at h
  split at h
  next hturn => exact hturn.2.2.1
  · cases h

/-- A node whose rows are all closed has its adapter state cleared, and may be released. -/
theorem exec_adapterClose {c : Closing} (hruns : plotFrozen s l.plot = false) (halive : (Machine.getElem s l).killed = false) (hturn : closeTurn s l an = some c)
    (hrows : (nodeAt (getMe (closeRows l an c.fcs 17 s) l) an).closedRows = 16) :
    ∃ u, nodeAt (getMe u l) an = { nodeAt (getMe (closeRows l an c.fcs 17 s) l) an with u := [] } ∧ exec (.adapterClose l an) s = .next (tryRelease u l an) := by
  have hunit : getMe (settleInvs (closeRows l an c.fcs 17 s) l.plot) l = getMe (closeRows l an c.fcs 17 s) l := getMe_of_mes (mes_settleInvs ..) l
  refine ⟨setNode (settleInvs (closeRows l an c.fcs 17 s) l.plot) l an { nodeAt (getMe (closeRows l an c.fcs 17 s) l) an with u := [] }, nodeAt_setNode_same .., ?_⟩
  change execAdapterClose l an s = _
  simp only [execAdapterClose, hruns, halive, Bool.or_self, Bool.false_eq_true, if_false, adapterCloseStep, hturn, hunit, hrows, le_refl, if_true]

/-- Settles O33: fetches by their kinds, and the closing of a node's rows by induction on those that are left. -/
theorem adapterSteps : Obligations.AdapterSteps := by
  unfold Obligations.AdapterSteps
  refine ⟨?dir, ?slice, ?room, ?waits, ?base, ?pinned⟩
  case dir =>
    intro s plot f d s' hfill hturn hruns hslice hread
    rw [exec_adapterSliceFill hfill hturn hruns, performFill_dir hslice hread]
  case slice =>
    intro s plot f k b d s' data hfill hturn hruns hslice hagain hread hroom xs hput
    rw [exec_adapterSliceFill hfill hturn hruns, performFill_slice hslice hagain hread hroom hput]
  case room =>
    intro s plot y xs h
    obtain ⟨hmem, hkept⟩ := putSlice_keeps h
    exact ⟨hmem, fun z hz hpin => hkept z hz (decide_eq_true hpin)⟩
  case waits =>
    intro s plot f k b d hfill hturn hruns hslice hagain hroom
    rw [exec_adapterSliceFill hfill hturn hruns, performFill_waits hslice hagain hroom]
  case base =>
    intro s l an c hruns halive hturn hids
    have hlt := closeTurn_eq_some hturn
    obtain ⟨hrows, hents⟩ := closeRows_bases (fcs := c.fcs) (n := 17) (s := s) (l := l) (an := an) (by omega) (by omega) fun i _ hi => hids i hi
    obtain ⟨u, hnode, hexec⟩ := exec_adapterClose hruns halive hturn hrows
    exact ⟨u, by rw [hnode]; exact hrows, by rw [hnode]; exact hents, hexec⟩
  case pinned =>
    intro s l an c sid d y hruns halive hturn nd hid hpin hslice hids
    have hlt := closeTurn_eq_some hturn
    have hstep := closeRows_pinned (fcs := c.fcs) (n := 16) hlt hid hpin hslice
    dsimp only at hstep
    generalize hq : closeRow (dirOf (fpmRD (Machine.getElem s l).fpm)) c.fcs d y.data (nodeAt (getMe s l) an) (nodeAt (getMe s l) an).closedRows = q at hstep
    have hids' : q.1.ids = nd.ids := by rw [← hq]; rfl
    have hnode := nodeAt_rowClosed (modElem (setNode s l an q.1) l fun e => orFlags e q.2) l an nd.closedRows
    rw [getMe_modElem, nodeAt_setNode_same] at hnode
    obtain ⟨hrows, hents⟩ := closeRows_bases (fcs := c.fcs) (n := 16) (l := l) (an := an)
      (s := rowClosed (modElem (setNode s l an q.1) l fun e => orFlags e q.2) l an nd.closedRows) (by rw [hnode]; exact hlt) (by rw [hnode]; dsimp only; omega)
      (by rw [hnode]; exact fun i hi hlt' => (congrArg (·.getD i 0) hids').trans (hids i hi hlt'))
    rw [← hstep] at hrows hents
    obtain ⟨u, hu, hexec⟩ := exec_adapterClose hruns halive hturn hrows
    refine ⟨u, by rw [hu]; exact hrows, ?_, hexec⟩
    rw [hu]
    exact hents.trans (by rw [hnode])

end Sys2Proof.Proofs
end

section
/-!
PROOF. Reduction trees and reduction windows (spec 16 R293 to R300): what a router does with a packet and with a group, and what becomes of a round; from these lemmas the
obligation ReductionSteps.
-/

namespace Sys2Proof.Proofs

open Machine Laws Say

variable {s : State}

/-! ### Reduction trees -/

/-- The parcel of a packet is one of the state's. -/
theorem isSome_of_pktOf {id n : Nat} {k : TreePkt} (h : pktOf s id = some (n, k)) : (Tbl.find s.parcels n).isSome = true := by
  obtain ⟨⟨m, p⟩, hmem, hx⟩ := List.exists_of_findSome?_eq_some h
  obtain ⟨_, _, heq⟩ := Option.map_eq_some_iff.1 hx
  cases heq
  exact find_of_mem hmem

/-- A parcel with an open group is one of the state's. -/
theorem isSome_of_findGroup {n plot tree grp : Nat} {g : TreeGroup} (h : findGroup (getParcel s n) plot tree grp = some g) :
    (Tbl.find s.parcels n).isSome = true := by
  cases hfind : Tbl.find s.parcels n with
  | some p => rfl
  | none =>
    simp [findGroup, getParcel, Tbl.findD, hfind] at h

theorem findGroup_of_groupParcel {plot tree grp n : Nat} {g : TreeGroup} (h : groupParcel s plot tree grp = some (n, g)) :
    findGroup (getParcel s n) plot tree grp = some g := by
  obtain ⟨m, -, hm⟩ := Option.bind_eq_some_iff.1 h
  obtain ⟨g', hg, heq⟩ := Option.map_eq_some_iff.1 hm
  cases heq
  exact hg

theorem parcels_endTreeCmd (s : State) (cmd status : Nat) : (endTreeCmd s cmd status).parcels = s.parcels := by
  unfold endTreeCmd
  split <;> rfl

theorem getParcel_of_parcels {t : State} (h : t.parcels = s.parcels) (n : Nat) : getParcel t n = getParcel s n := by rw [getParcel, getParcel, h]

/-- The group that a packet opens. -/
def openedGroup (p : Parcel) (k : TreePkt) : TreeGroup :=
  { plot := k.plot, tree := k.tree, grp := k.grp, fmt := k.fmt, fcs := k.fcs, ins := [(k.port, k)], since := p.cycles, mark := k.mark }

/-- The first packet of a group opens it, while its tree has room at the router. -/
theorem acceptPkt_opens {n : Nat} {k : TreePkt} (hn : (Tbl.find s.parcels n).isSome = true) (hshut : (shutGroups (getParcel s n) k.plot k.tree).contains k.grp = false)
    (hfirst : findGroup (getParcel s n) k.plot k.tree k.grp = none)
    (hroom : ((getParcel s n).treeGroups.filter fun g => g.plot == k.plot && g.tree == k.tree).length < 4) :
    getParcel (acceptPkt s n k) n = { getParcel s n with
      treePkts := (getParcel s n).treePkts.filter fun x => x.id != k.id, treeGroups := (getParcel s n).treeGroups ++ [openedGroup (getParcel s n) k] } := by
  simp only [acceptPkt, hshut, hfirst, Bool.false_eq_true, if_false, if_neg (not_le.2 hroom)]
  split
  · rw [getParcel_modParcel_same _ _ _ (by rw [isSome_modParcel]; exact hn), getParcel_modParcel_same _ _ _ hn]
    rfl
  · rw [getParcel_of_parcels (parcels_endTreeCmd ..), getParcel_modParcel_same _ _ _ (by rw [isSome_modParcel]; exact hn), getParcel_modParcel_same _ _ _ hn]
    rfl

/-- The packet in which a group's sum leaves its router. -/
def forwarded (s : State) (n : Nat) (r : Region) (g : TreeGroup) (up port : Nat) : TreePkt :=
  { id := freshId s, plot := up, tree := g.tree, grp := g.grp, port := port, fmt := g.fmt, fcs := g.fcs, lanes := (treeSum g).1
    bits := g.ins.foldl (fun m x => m ||| x.2.bits) 0
    partial_ := g.ins.any (fun x => x.2.partial_) || !((expectedPorts s (getParcel s n) r g.plot).all fun n => (Tbl.find g.ins n).isSome)
    mark := g.mark, flags := (treeSum g).2, cmd := 0, res := 0, at_ := now s + 1 + 4 * crossings g.plot up }

section
variable {n : Nat} {g : TreeGroup} {r : Region} (hregion : treeOf s g.plot g.tree = some r)
include hregion

theorem forwardGroup_sends {up port : Nat} (hready : groupReady s (getParcel s n) r g = true) (hparent : treeParent (getParcel s n) r g.plot = some (up, port)) :
    forwardGroup s n g = bumpId (modParcel s n fun p => { shutGroup p g.plot g.tree g.grp with treePkts := p.treePkts ++ [forwarded s n r g up port] }) := by
  simp only [forwardGroup, hregion, hready, hparent, Bool.not_true, Bool.false_eq_true, if_false]
  rfl

theorem timeoutGroup_marks (htmo : r.tmo ≠ 0) (hdue : g.since + cyclesOfNs r.tmo ≤ (getParcel s n).cycles) : timeoutGroup s n g =
    modParcel s n fun p => { p with treeGroups := mapIf (isGroup g.plot g.tree g.grp) (fun g => { g with expired := true }) p.treeGroups } := by
  simp only [timeoutGroup, hregion]
  exact if_pos ⟨htmo, hdue⟩

end

/-! ### Reduction windows -/

theorem not_roundFull (r : Round) : (!roundFull r) = decide (r.all.length < r.first.count) := by simp [roundFull, ← decide_not, not_le]

theorem find_openRound (w : Window) (off : Nat) : (w.rounds.find? fun r => r.off == off && !roundFull r) = openRound w off := by
  simp only [not_roundFull, openRound]

theorem getWindow_of_ctxs {t : State} (h : t.ctxs = s.ctxs) (ctx win : Nat) : getWindow t ctx win = getWindow s ctx win := by
  rw [getWindow, getWindow, getCtx, getCtx, h]

theorem ctxs_ackContribution (payload : Nat) (f : Flags) (s : State) (c : Contribution) : (ackContribution payload f s c).ctxs = s.ctxs := by
  unfold ackContribution
  split <;> rfl

section
variable {c : Contribution}

/-- The first contribution of a round opens it. -/
theorem arriveContribution_opens (h : openRound (getWindow s c.ctx c.win) c.off = none) : arriveContribution s c =
    modWindow s c.ctx c.win fun w => { w with rounds := w.rounds ++ [{ off := c.off, since := now s, first := c, all := [c] }] } := by
  simp only [arriveContribution, find_openRound, h]

variable {r : Round} (hround : openRound (getWindow s c.ctx c.win) c.off = some r)
include hround

/-- A contribution that agrees with a round, of a rank that it does not have, joins it. -/
theorem arriveContribution_joins (hsame : sameRound r.first c = true) (hrank : (r.all.any fun x => x.rank == c.rank) = false) : arriveContribution s c =
    modWindow s c.ctx c.win fun w => { w with rounds := mapIf (fun x => x == r) (fun x => { x with all := x.all ++ [c] }) w.rounds } := by
  simp only [arriveContribution, find_openRound, hround, hsame, hrank, Bool.not_true, Bool.or_self, Bool.false_eq_true, if_false]

/-- The errors of a contribution that a round discards. -/
def roundErrors (r : Round) (c : Contribution) : BitVec 32 :=
  (if sameRound r.first c then 0#32 else 1#32) ||| if r.all.any (fun x => x.rank == c.rank) then 2#32 else 0#32

/-- Another contribution discards the round, with its errors latched at the round's home. -/
theorem arriveContribution_discards (hbad : sameRound r.first c = false ∨ (r.all.any fun x => x.rank == c.rank) = true) : arriveContribution s c =
    modWindow ((r.all ++ [c]).foldl (ackContribution 2 0) s) c.ctx c.win fun w => latchHome r (roundErrors r c) (dropRound r w) := by
  have hor : (!sameRound r.first c || r.all.any fun x => x.rank == c.rank) = true := by
    rcases hbad with h | h <;> simp [h]
  have hbits : ((if !sameRound r.first c then 1#32 else 0#32) ||| if r.all.any (fun x => x.rank == c.rank) then 2#32 else 0#32) = roundErrors r c := by
    unfold roundErrors
    cases sameRound r.first c <;> rfl
  simp only [arriveContribution, find_openRound, hround, hor, if_true]
  rw [← hbits]
  rfl

end

theorem wstat_latchHome (r : Round) (bit : BitVec 32) (w : Window) : (latchHome r bit w).wstat = if r.first.home = Config.packageNumber then w.wstat ||| bit else w.wstat := by
  unfold latchHome
  split <;> rfl

theorem rounds_latchHome (r : Round) (bit : BitVec 32) (w : Window) : (latchHome r bit w).rounds = w.rounds := by
  unfold latchHome
  split <;> rfl

/-- This package's own contribution arrives once its request is there, and no round has it. -/
theorem contribute_own {q : Req} {n off : Nat} {c : Contribution} (hfind : findReq s q.id = some q) (hid : q.id ≠ 0) (hphase : q.phase = .contributing n off)
    (hnew : ((getWindow s q.ctx n).rounds.any fun r => r.all.any fun x => x.req == q.id) = false) (hreq : c.req = q.id) :
    contribute s c = arriveContribution s (ownContribution s q n off) := by
  simp only [contribute, hreq, hid, hfind, hphase, hnew, Bool.false_eq_true, if_false]

section
variable {ctx win off : Nat} {r : Round}

theorem find_fullRound (w : Window) (off : Nat) : (w.rounds.find? fun r => r.off == off && roundFull r) = fullRound w off := rfl

theorem off_of_fullRound {w : Window} (h : fullRound w off = some r) : r.off = off := by
  have hmeets := List.find?_some h
  simp only [Bool.and_eq_true, beq_iff_eq] at hmeets
  exact hmeets.1

/-- The round that its home performs: what is read, merged, written and acknowledged. -/
def performRound (s : State) (ctx win : Nat) (r : Round) (h : Home) : State :=
  let q := homeRead (modSched s fun c => { c with freeCtr := c.freeCtr + 1 }) h (roundBytes r)
  let v := atomValue r.first.op r.first.fcs (8 * roundBytes r) (ofBytes q.2) (mergedValue s.sched.freeCtr r)
  modWindow (r.all.foldl (ackContribution 0 v.2) (homeWrite q.1 h (bytesOf (roundBytes r) v.1) (srcRemote Config.packageNumber) 0 0xFF)) ctx win (dropRound r)

theorem endRound_performs (hround : fullRound (getWindow s ctx win) off = some r)
    (hgood : roundBad s (roundHome s (getWindow s ctx win) r) (bitsOf (getWindow s ctx win).whpa.toNat 51 0 + off) (roundBytes r) = none) :
    endRound s ctx win off = performRound s ctx win r (roundHome s (getWindow s ctx win) r) := by
  simp only [endRound, find_fullRound, hround, hgood]
  rfl

/-- A home elsewhere changes neither memory nor windows here. -/
theorem performRound_remote (s : State) (ctx win : Nat) (r : Round) (pkg pa : Nat) : (performRound s ctx win r (.remote pkg pa)).mem = s.mem ∧
    (getWindow (performRound s ctx win r (.remote pkg pa)) ctx win).rounds = (getWindow s ctx win).rounds.erase r := by
  unfold performRound
  dsimp only
  refine ⟨foldl_keeps State.mem (fun s c => mem_ackContribution _ _ s c) _ _, ?_⟩
  rw [getWindow_modWindow_same, dropRound]
  exact congrArg (fun w : Window => w.rounds.erase r) (getWindow_of_ctxs (foldl_keeps State.ctxs (fun s c => ctxs_ackContribution _ _ s c) _ _) _ _)

/-- Contributions of other packages are neither acknowledged nor noted here. -/
theorem foldl_others {f : State → Contribution → State} (hf : ∀ c, c.req = 0 → f s c = s) {xs : List Contribution} (h : ∀ c ∈ xs, c.req = 0) : xs.foldl f s = s := by
  induction xs with
  | nil => rfl
  | cons c cs ih =>
    rw [List.foldl_cons, hf c (h c List.mem_cons_self)]
    exact ih fun d hd => h d (List.mem_cons_of_mem _ hd)

theorem timeoutRound_others (hround : openRound (getWindow s ctx win) off = some r) (htmo : (getWindow s ctx win).wtmo ≠ 0)
    (hdue : r.since + cyclesOfNs (1000 * (getWindow s ctx win).wtmo.toNat) ≤ now s) (hothers : ∀ c ∈ r.all, c.req = 0) (hnone : findReq s 0 = none) :
    timeoutRound s ctx win off = modWindow s ctx win fun w => latchHome r 4 (dropRound r w) := by
  have hgo : ¬((getWindow s ctx win).wtmo = 0 ∨ now s < r.since + cyclesOfNs (1000 * (getWindow s ctx win).wtmo.toNat)) := by
    rintro (h | h)
    · exact htmo h
    · omega
  have hack : r.all.foldl (ackContribution 1 0) s = s := foldl_others (fun c hc => if_pos hc) hothers
  have hnote : r.all.foldl (noteWindow r) s = s := foldl_others (fun c hc => by simp only [noteWindow, hc, hnone]) hothers
  simp only [timeoutRound, find_openRound, hround, if_neg hgo, hack, hnote]

end

/-- Settles O30: each step of a router and of a round is its one case. -/
theorem reductionSteps : Obligations.ReductionSteps := by
  unfold Obligations.ReductionSteps
  refine ⟨?accept, ?forward, ?treeTimeout, ?opens, ?own, ?joins, ?discards, ?remote, ?home, ?timeout⟩
  case accept =>
    intro s id n k h hshut hfirst hroom
    have hgo : (routerRuns s n && decide (k.at_ ≤ now s)) = true := by simp [h.runs, h.here]
    have hexec : exec (.treePacketAccept id) s = .next (acceptPkt s n k) := by
      change execTreePacketAccept id s = _
      simp only [execTreePacketAccept, h.found, hgo, if_true]
    have hparcel := acceptPkt_opens (isSome_of_pktOf h.found) hshut hfirst hroom
    exact ⟨_, openedGroup (getParcel s n) k, hexec, by rw [hparcel], rfl, rfl, rfl, rfl, rfl, by rw [hparcel]⟩
  case forward =>
    intro s plot tree grp n g r up port hgroup hruns hregion hready hparent
    have hexec : exec (.treeForward plot tree grp) s = .next (forwardGroup s n g) := by
      change execTreeForward plot tree grp s = _
      simp only [execTreeForward, hgroup, hruns, if_true]
    have hparcel := getParcel_modParcel_same s n
      (fun p => { shutGroup p g.plot g.tree g.grp with treePkts := p.treePkts ++ [forwarded s n r g up port] }) (isSome_of_findGroup (findGroup_of_groupParcel hgroup))
    exact ⟨_, forwarded s n r g up port, hexec.trans (congrArg Host.Outcome.next (forwardGroup_sends hregion hready hparent)), congrArg Parcel.treePkts hparcel,
      rfl, rfl, rfl, rfl, rfl, rfl, congrArg Parcel.treeGroups hparcel⟩
  case treeTimeout =>
    intro s plot tree grp n g r hgroup hruns hregion htmo hdue
    change execTreeTimeout plot tree grp s = _
    simp only [execTreeTimeout, hgroup, hruns, if_true, timeoutGroup_marks hregion htmo hdue]
  case opens =>
    intro s c hreq hround
    refine ⟨_, congrArg Host.Outcome.next ((if_pos hreq).trans (arriveContribution_opens hround)), ?_⟩
    rw [getWindow_modWindow_same]
  case own =>
    intro s q n off hfind hid hphase hnew hround c hreq
    refine ⟨_, congrArg Host.Outcome.next ((contribute_own hfind hid hphase hnew hreq).trans (arriveContribution_opens (c := ownContribution s q n off) hround)), ?_⟩
    exact congrArg Window.rounds (getWindow_modWindow_same ..)
  case joins =>
    intro s c r hreq hround hsame hrank
    refine ⟨_, congrArg Host.Outcome.next ((if_pos hreq).trans (arriveContribution_joins hround hsame hrank)), ?_⟩
    rw [getWindow_modWindow_same]
    exact ⟨rfl, rfl⟩
  case discards =>
    intro s c r hreq hround hbad
    refine ⟨_, congrArg Host.Outcome.next ((if_pos hreq).trans (arriveContribution_discards hround hbad)), ?_⟩
    have hwindow : getWindow ((r.all ++ [c]).foldl (ackContribution 2 0) s) c.ctx c.win = getWindow s c.ctx c.win :=
      getWindow_of_ctxs (foldl_keeps State.ctxs (fun s c => ctxs_ackContribution _ _ s c) _ _) _ _
    rw [getWindow_modWindow_same, wstat_latchHome, rounds_latchHome, hwindow]
    exact ⟨rfl, rfl⟩
  case remote =>
    intro s ctx win off r hround haway
    have hhome : roundHome s (getWindow s ctx win) r = .remote r.first.home (bitsOf (getWindow s ctx win).whpa.toNat 51 0 + r.off) := if_neg haway
    have hends := endRound_performs hround (by rw [hhome]; rfl)
    rw [hhome] at hends
    exact ⟨_, congrArg Host.Outcome.next hends, performRound_remote ..⟩
  case home =>
    intro s ctx win off r hround hhere n pa hgood s0 q v
    have hhome : roundHome s (getWindow s ctx win) r = homeOf s pa := by
      rw [roundHome, off_of_fullRound hround]
      exact if_pos hhere
    have hends := endRound_performs hround (by rw [hhome]; exact hgood)
    rw [hhome] at hends
    exact congrArg Host.Outcome.next hends
  case timeout =>
    intro s ctx win off r hround htmo hdue hothers hnone
    refine ⟨_, congrArg Host.Outcome.next (timeoutRound_others hround htmo hdue hothers hnone), ?_⟩
    rw [getWindow_modWindow_same, wstat_latchHome, rounds_latchHome]
    exact ⟨rfl, rfl⟩

end Sys2Proof.Proofs
end

section
/-!
SUPPORT. What the opcode map makes of the word of a form (spec 04 R65 to R80): the opcode that each form holds, the table that a kind reads it in, and for
each form the action that its word stands for, with the fields that an instruction's own entry gives it.
-/

namespace Sys2Proof.Laws

/-! ### The opcode of each form -/

@[simp] theorem opOf_rWord (op : BitVec 7) (d sa sb : BitVec 4) (t : BitVec 2) (u : BitVec 5) (pk : Bool) (f : BitVec 5) :
    opOf (Enc.rWord op d sa sb t u pk f) = op := r_op ..
@[simp] theorem opOf_r (op : BitVec 7) (a : RAct) (f : BitVec 5) : opOf (Enc.r op a f) = op := r_op ..
@[simp] theorem opOf_rb (op : BitVec 7) (a : RAct) (b : BitVec 4) (f : BitVec 5) : opOf (Enc.rb op a b f) = op := r_op ..
@[simp] theorem opOf_p (op : BitVec 7) (a b : Fin 8) (u : PUpd) : opOf (Enc.p op a b u) = op := r_op ..
@[simp] theorem opOf_i (op : BitVec 7) (d : Dst) (sa : Src) (x : BitVec 12) (u : PUpd) : opOf (Enc.i op d sa x u) = op := i_op ..
@[simp] theorem opOf_ia (op : BitVec 7) (a : IAct) : opOf (Enc.ia op a) = op := i_op ..
@[simp] theorem opOf_m (op : BitVec 7) (a : MAct) (x : BitVec 4) (y : BitVec 3) : opOf (Enc.m op a x y) = op := m_op ..
@[simp] theorem opOf_e (op : BitVec 7) (a : EAct) (x : BitVec 11) : opOf (Enc.e op a x) = op := e_op ..
@[simp] theorem opOf_x (op : BitVec 7) (a : XAct) (x : BitVec 3) : opOf (Enc.x op a x) = op := x_op ..

/-! ### The table of a kind -/

theorem byKind_common {op : Nat} (h : op < 0x20) (k : Kind) (hl : Bool) (w : BitVec 32) : Dec.byKind k hl op w = Dec.common op w := if_pos h

theorem byKind_arith {k : Kind} (hk : k.hasRegs = true) {op : Nat} (h : 0x20 ≤ op ∧ (op < 0x44 ∨ 0x50 ≤ op ∧ op < 0x68)) (hl : Bool) (w : BitVec 32) :
    Dec.byKind k hl op w = Dec.arith op w := by
  have hbound : op < 0x68 := by omega
  unfold Dec.byKind
  rw [if_neg (Nat.not_lt.2 h.1)]
  cases k with
  | ce => exact if_pos hbound
  | fe => exact if_pos (by simpa using h.2)
  | se | le | xe | me => cases hk

theorem byKind_arithCe {op : Nat} (h : 0x20 ≤ op ∧ op < 0x68) (hl : Bool) (w : BitVec 32) : Dec.byKind .ce hl op w = Dec.arith op w :=
  (if_neg (Nat.not_lt.2 h.1)).trans (if_pos h.2)

theorem byKind_memory {k : Kind} (hk : k = .ce ∨ k = .le) {op : Nat} (h : 0x68 ≤ op ∧ op < 0x70) (hl : Bool) (w : BitVec 32) :
    Dec.byKind k hl op w = Dec.memory op w := by
  have h20 : ¬op < 0x20 := by omega
  have h68 : ¬op < 0x68 := Nat.not_lt.2 h.1
  rcases hk with rfl | rfl
  · exact (if_neg h20).trans ((if_neg h68).trans (if_pos h.2))
  · exact (if_neg h20).trans (if_neg h68)

theorem byKind_privileged {op : Nat} (h : 0x70 ≤ op) (w : BitVec 32) : Dec.byKind .ce true op w = Dec.privileged op w := by
  unfold Dec.byKind
  rw [if_neg (by omega)]
  exact (if_neg (by omega)).trans ((if_neg (by omega)).trans (if_pos rfl))

theorem byKind_special {op : Nat} (h : 0x70 ≤ op) (hl : Bool) (w : BitVec 32) : Dec.byKind .fe hl op w = Dec.special op w := by
  unfold Dec.byKind
  rw [if_neg (by omega)]
  exact (if_neg (by simp; omega)).trans (if_pos h)

theorem byKind_scratch {op : Nat} (h : 0x20 ≤ op) (hl : Bool) (w : BitVec 32) : Dec.byKind .se hl op w = Dec.scratch op w := if_neg (Nat.not_lt.2 h)

theorem byKind_endpoint {op : Nat} (h : 0x20 ≤ op ∧ op < 0x68) (hl : Bool) (w : BitVec 32) : Dec.byKind .le hl op w = Dec.endpoint op w :=
  (if_neg (Nat.not_lt.2 h.1)).trans (if_pos h.2)

theorem byKind_engine {op : Nat} (h : 0x20 ≤ op) (hl : Bool) (w : BitVec 32) : Dec.byKind .xe hl op w = Dec.engine op w := if_neg (Nat.not_lt.2 h)

theorem byKind_matrix {op : Nat} (h : 0x20 ≤ op) (hl : Bool) (w : BitVec 32) : Dec.byKind .me hl op w = Dec.matrix op w := if_neg (Nat.not_lt.2 h)

/-- A word decodes to what the opcode map makes of it, where that is legal. -/
theorem decodeAction_ok {k : Kind} {hl : Bool} {w : BitVec 32} {i : Instr} :
    decodeAction k hl w = .ok i ↔ Dec.byKind k hl (opOf w).toNat w = .ok i ∧ i.wf k hl = true := by
  unfold decodeAction opOf
  cases Dec.byKind k hl (w.extractLsb' 25 7).toNat w with
  | error e => simp
  | ok j =>
    by_cases hj : j.wf k hl = true
    · simp only [hj, if_true, Except.ok.injEq]
      exact ⟨fun h => ⟨h, h ▸ hj⟩, And.left⟩
    · simp only [hj, Bool.false_eq_true, if_false, Except.ok.injEq, reduceCtorEq, false_iff]
      exact fun h => hj (h.1 ▸ h.2)

end Sys2Proof.Laws
end

section
/-!
SUPPORT. The forms whose fields an instruction's own entry reads (spec 04 R65 to R80, 09 R141 to R150, 10 R171 to R173, 13 R225 to R245, 15 R264, 18 R326), each
way: the action that the encoder's word stands for, and the word of an action that was decoded.
-/

namespace Sys2Proof.Laws

/-! ### Small numbers in a field -/

/-- A field whose upper bits are 0 is its lower bits. -/
theorem append_low {a b : Nat} {x : BitVec (a + b)} (h : x.toNat < 2 ^ b) : x = 0#a ++ x.setWidth b := by
  refine BitVec.eq_of_toNat_eq ?_
  rw [BitVec.toNat_append, BitVec.toNat_setWidth, Nat.mod_eq_of_lt h]
  simp

theorem toNat_lt_of_shift {n : Nat} {x : BitVec 12} (h : (x >>> n == 0#12) = true) : x.toNat < 2 ^ n := by
  have hzero := congrArg BitVec.toNat (eq_of_beq h)
  rw [BitVec.toNat_ushiftRight, Nat.shiftRight_eq_div_pow] at hzero
  exact (Nat.div_eq_zero_iff_lt (Nat.two_pow_pos n)).1 hzero

/-! ### The forms of words -/

theorem imm_i (op : BitVec 7) (d : Dst) (sa : Src) (x : BitVec 12) (u : PUpd) : Dec.imm (Enc.i op d sa x u) = x := i_imm ..

theorem immLow_i (op : BitVec 7) (d : Dst) (sa : Src) (x : BitVec 12) (u : PUpd) (n : Nat) : Dec.immLow (Enc.i op d sa x u) n = (x >>> n == 0#12) := by
  rw [Dec.immLow, imm_i]

theorem fm_rWord (op : BitVec 7) (d sa sb : BitVec 4) (t : BitVec 2) (u : BitVec 5) (pk : Bool) (f : BitVec 5) :
    Dec.fm (Enc.rWord op d sa sb t u pk f) = f := r_fm ..

section
variable (op : BitVec 7) (a : MAct) (x : BitVec 4) (y : BitVec 3)

theorem m_low : (Enc.m op a x y).extractLsb' 0 7 = x ++ y := by
  rw [← ext_join (Enc.m op a x y) 0 4 3, Nat.zero_add, m_aop, m_fcs]

theorem m_sizeOrd : (Enc.m op a x y).extractLsb' 9 4 = Enc.size a.size ++ Enc.ord a.ord := by
  rw [← ext_join (Enc.m op a x y) 9 2 2, m_size, m_ord]

end

theorem sub_flags (op : BitVec 7) (a : EAct) (x : BitVec 11) {s k : Nat} (h : s + k ≤ 11) : (Enc.e op a x).extractLsb' s k = x.extractLsb' s k := by
  have q := sub_ext (p := 0) (e_flags op a x) h
  rwa [Nat.zero_add] at q

theorem sub_flag (op : BitVec 7) (a : EAct) (x : BitVec 11) {s : Nat} (h : s < 11) : (Enc.e op a x).getLsbD s = x.getLsbD s := by
  have q := sub_bit (p := 0) (e_flags op a x) h
  rwa [Nat.zero_add] at q

end Sys2Proof.Laws
end

section
/-!
SUPPORT. The word of an action with fields of its own, read back by the row of its opcode (spec 04 R65 to R80): the same action.
-/

namespace Sys2Proof.Laws

/-! ### Control -/

section
variable (op : BitVec 7) (a : RAct) (u : PUpd)

theorem eos_enc (c0 c1 : Bool) : Dec.common 0x08 (Enc.r op a (0#3 ++ Enc.bit c1 ++ Enc.bit c0)) = .ok (.eos a c0 c1) := by
  rw [Dec.common, rForm_r, fm_ext _ (by decide : 2 + 3 ≤ 5), fm_bit _ (by decide : 0 < 5), fm_bit _ (by decide : 1 < 5), fm_r]
  cases c0 <;> cases c1 <;> rfl

theorem rest_enc : Dec.common 0x0F (Enc.rWord op 12 12 12 0 (Enc.upd u) false 0) = .ok (.rest u) := by
  rw [Dec.common, rForm_word, fm_rWord]
  rfl

theorem barArv_enc (g : Fin 32) : Dec.common 0x10 (Enc.i op .none .zero (Enc.num12 g.val) u) = .ok (.barArv g u) := by
  rw [Dec.common, iForm_i]
  have hnum : ∀ g : Fin 32, (Enc.num12 g.val >>> 5 == 0#12) = true ∧ Fin.ofNat 32 (Enc.num12 g.val).toNat = g := by decide
  rw [immLow_i, imm_i, (hnum g).1, (hnum g).2]
  rfl

theorem barWch_enc (d : Dst) (sa : Src) (g : Fin 32) : Dec.common 0x11 (Enc.i op d sa (Enc.num12 g.val) u) = .ok (.barWch d sa g u) := by
  rw [Dec.common, iForm_i]
  have hnum : ∀ g : Fin 32, (Enc.num12 g.val >>> 5 == 0#12) = true ∧ Fin.ofNat 32 (Enc.num12 g.val).toNat = g := by decide
  rw [immLow_i, imm_i, (hnum g).1, (hnum g).2]
  rfl

theorem barMem_enc (sa : Src) (g : Fin 32) (pk : Bool) :
    Dec.common 0x12 (Enc.rWord op 12 (Enc.src sa) 12 0 (Enc.upd u) pk (Enc.num5 g.val)) = .ok (.barMem sa g u pk) := by
  rw [Dec.common, rForm_word]
  have hnum : ∀ g : Fin 32, Fin.ofNat 32 (Enc.num5 g.val).toNat = g := by decide
  rw [fm_rWord, hnum, src_enc]
  rfl

/-- A ring and a role in the lower bits of imm12. -/
theorem ring_enc (n : Fin 8) (ro : Role) : ((0#8 ++ Enc.role ro ++ BitVec.ofNat 3 n.val) >>> 4 == 0#12) = true ∧
    Fin.ofNat 8 (0#8 ++ Enc.role ro ++ BitVec.ofNat 3 n.val).toNat = n ∧
    (if (0#8 ++ Enc.role ro ++ BitVec.ofNat 3 n.val).getLsbD 3 then Role.consumer else .producer) = ro := by
  cases ro <;> revert n <;> decide

theorem stgAcq_enc (d : Dst) (n : Fin 8) (ro : Role) :
    Dec.common 0x13 (Enc.i op d .zero (0#8 ++ Enc.role ro ++ BitVec.ofNat 3 n.val) u) = .ok (.stgAcq d n ro u) := by
  rw [Dec.common, iForm_i]
  obtain ⟨hlow, hring, hrole⟩ := ring_enc n ro
  rw [immLow_i, imm_i, hlow, hring, hrole]
  rfl

theorem stgRel_enc (sa : Src) (n : Fin 8) (ro : Role) :
    Dec.common 0x14 (Enc.i op .none sa (0#8 ++ Enc.role ro ++ BitVec.ofNat 3 n.val) u) = .ok (.stgRel sa n ro u) := by
  rw [Dec.common, iForm_i]
  obtain ⟨hlow, hring, hrole⟩ := ring_enc n ro
  rw [immLow_i, imm_i, hlow, hring, hrole]
  rfl

theorem tmrRd_enc (t : TmrSrc) : ∃ w, encodeAction (.tmrRd a t) = some w ∧ opOf w = 0x15#7 ∧ Dec.common 0x15 w = .ok (.tmrRd a t) := by
  cases t <;>
  · refine ⟨_, rfl, opOf_r .., ?_⟩
    rw [Dec.common, rForm_r]
    rw [fm_ext _ (by decide : 1 + 4 ≤ 5), fm_bit _ (by decide : 0 < 5), fm_r]
    rfl

theorem specRd_enc (d : Dst) (s : Spec) : Dec.common 0x18 (Enc.i op d .zero (Enc.specReg s) u) = .ok (.specRd d s u) := by
  rw [Dec.common, iForm_i, imm_i, specReg_enc]
  rfl

theorem specWr_enc (sa : Src) (s : Spec) : Dec.common 0x19 (Enc.i op .none sa (Enc.specReg s) u) = .ok (.specWr sa s u) := by
  rw [Dec.common, iForm_i, imm_i, specReg_enc]
  rfl

theorem waveNx_enc : Dec.common 0x1A (Enc.i op .none .zero 0 u) = .ok (.waveNx u) := by
  rw [Dec.common, iForm_i, imm_i]
  rfl

end

/-! ### Conversions -/

section
variable (op : BitVec 7) {a : RAct} (ha : a.sb = .zero) (c : FpCtl)
include ha

theorem f2i_enc (s t : Bool) : Dec.arith 0x5D (Enc.rb op a (Enc.bit s ++ Enc.bit t ++ 0#2) (Enc.fpCtl c)) = .ok (.f2i a s t c) := by
  rw [Dec.arith, rBits_rb _ _ _ _ _ ha]
  cases s <;> cases t <;> rfl

theorem i2f_enc (s : Bool) : Dec.arith 0x5E (Enc.rb op a (Enc.bit s ++ 0#3) (Enc.fpCtl c)) = .ok (.i2f a s c) := by
  rw [Dec.arith, rBits_rb _ _ _ _ _ ha]
  cases s <;> rfl

theorem frnd_enc_fpm : Dec.arith 0x5F (Enc.rb op a 0 (Enc.fpCtl c)) = .ok (.frnd a none c) := by rw [Dec.arith, rBits_rb _ _ _ _ _ ha]; rfl

theorem frnd_enc {q : RCode} (hq : q ≠ .sr) : Dec.arith 0x5F (Enc.rb op a (Enc.rcode q) (Enc.fpCtl c)) = .ok (.frnd a (some q) c) := by
  rw [Dec.arith, rBits_rb _ _ _ _ _ ha]
  cases q with
  | sr => exact absurd rfl hq
  | rne | rtz | rdn | rup | rna => rfl

end

/-! ### Memory -/

section
variable (op : BitVec 7) (a : MAct)

theorem ld_enc (sx : Bool) : Dec.memory 0x68 (Enc.m op a (Enc.bit sx ++ 0#3) 0) = .ok (.ld a sx) := by
  have hlow : ∀ sx, (Enc.bit sx ++ 0#3 ++ 0#3).extractLsb' 0 6 = 0#6 ∧ (Enc.bit sx ++ 0#3 ++ 0#3).getLsbD 6 = sx := by decide
  have hfields := m_low op a (Enc.bit sx ++ 0#3) 0
  have hzero : (Enc.m op a (Enc.bit sx ++ 0#3) 0).extractLsb' 0 6 = 0#6 := (sub_ext (p := 0) (s := 0) hfields (by decide)).trans (hlow sx).1
  have hsx : (Enc.m op a (Enc.bit sx ++ 0#3) 0).getLsbD 6 = sx := (sub_bit (p := 0) (s := 6) hfields (by decide)).trans (hlow sx).2
  simp only [Dec.memory]
  rw [hzero, hsx, mAct_m]
  rfl

theorem st_enc : Dec.memory 0x69 (Enc.m op a 0 0) = .ok (.st a) := by
  simp only [Dec.memory]
  rw [m_low, mAct_m]
  rfl

theorem amoCas_enc : Dec.memory 0x6B (Enc.m op a 0 0) = .ok (.amoCas a) := by
  simp only [Dec.memory]
  rw [m_low, mAct_m]
  rfl

theorem amo_enc (o : AtomOp) (f : Fcs) : Dec.memory 0x6A (Enc.m op a (Enc.atomOp o) (Enc.fcs f)) = .ok (.amo a o f) := by
  simp only [Dec.memory]
  rw [m_aop, m_fcs, mAct_m, atomOp_enc, fcs_enc]

theorem red_enc (o : AtomOp) (f : Fcs) : Dec.memory 0x6C (Enc.m op a (Enc.atomOp o) (Enc.fcs f)) = .ok (.red a o f) := by
  simp only [Dec.memory]
  rw [m_aop, m_fcs, mAct_m, atomOp_enc, fcs_enc]

/-- The fields of a fence or a seal that its entry leaves 0. -/
theorem m_bare (d : Dst) (sa sb : Src) (sc : Scope) :
    (Enc.m op ⟨d, sa, sb, .b1, .plain, sc⟩ 0#4 0#3).extractLsb' 9 4 = 0#4 ∧ (Enc.m op ⟨d, sa, sb, .b1, .plain, sc⟩ 0#4 0#3).extractLsb' 0 7 = 0#7 := by
  rw [m_low, m_sizeOrd]
  exact ⟨by simp [Enc.size, Enc.ord], rfl⟩

theorem wfence_enc (d : Dst) (s : Scope) : Dec.memory 0x6D (Enc.m op ⟨d, .zero, .zero, .b1, .plain, s⟩ 0 0) = .ok (.wfence d s) := by
  simp [Dec.memory, m_bare, mAct_m, Dec.guard]

theorem mseal_enc (d : Dst) (sa sb : Src) : Dec.memory 0x6E (Enc.m op ⟨d, sa, sb, .b1, .plain, .plot⟩ 0 0) = .ok (.mseal d sa sb) := by
  simp [Dec.memory, m_bare, mAct_m, Dec.guard]

theorem munseal_enc (d : Dst) (sa : Src) : Dec.memory 0x6F (Enc.m op ⟨d, sa, .zero, .b1, .plain, .plot⟩ 0 0) = .ok (.munseal d sa) := by
  simp [Dec.memory, m_bare, mAct_m, Dec.guard]

end

/-! ### Privileged instructions and the endpoint's own -/

section
variable (op : BitVec 7) (a : RAct)

theorem fltRd_enc (d : Dst) (u : PUpd) : Dec.privileged 0x70 (Enc.rWord op (Enc.dst d) 12 12 0 (Enc.upd u) false 0) = .ok (.fltRd d u) := by
  rw [Dec.privileged, rForm_word, fm_rWord, dst_enc]
  rfl

theorem rpr_enc (q : Repair) : Dec.privileged 0x71 (Enc.r op a (Enc.repair q)) = .ok (.rpr a q) := by
  rw [Dec.privileged, rForm_r, fm_ext _ (by decide : 2 + 3 ≤ 5), fm_ext _ (by decide : 0 + 2 ≤ 5), fm_r]
  cases q <;> rfl

theorem rqInj_enc (v : Bool) : Dec.privileged 0x74 (Enc.r op a (0#4 ++ Enc.bit v)) = .ok (.rqInj a v) := by
  rw [Dec.privileged, rForm_r, fm_ext _ (by decide : 1 + 4 ≤ 5), fm_bit _ (by decide : 0 < 5), fm_r]
  cases v <;> rfl

theorem tlbInv_enc (q : TlbReach) : Dec.privileged 0x77 (Enc.r op a (Enc.reach q)) = .ok (.tlbInv a q) := by
  rw [Dec.privileged, rForm_r, fm_ext _ (by decide : 2 + 3 ≤ 5), fm_ext _ (by decide : 0 + 2 ≤ 5), fm_r]
  cases q <;> rfl

theorem wpArm_enc (n : Fin 2) (q : WpMode) : Dec.endpoint 0x25 (Enc.r op a (0#2 ++ Enc.wpMode q ++ BitVec.ofNat 1 n.val)) = .ok (.wpArm a n q) := by
  rw [Dec.endpoint, rForm_r, fm_ext _ (by decide : 3 + 2 ≤ 5), fm_ext _ (by decide : 1 + 2 ≤ 5), fm_bit _ (by decide : 0 < 5), fm_r]
  match n with
  | 0 | 1 => cases q <;> rfl

theorem sbar_enc (m : BitVec 8) (u : PUpd) : Dec.endpoint 0x22 (Enc.i op .none .zero (0#4 ++ m) u) = .ok (.sbar m u) := by
  rw [Dec.endpoint, iForm_i]
  have hlow : ((0#4 ++ m) >>> 8 == 0#12) = true := by
    refine beq_iff_eq.2 (BitVec.eq_of_toNat_eq ?_)
    rw [BitVec.toNat_ushiftRight, BitVec.toNat_append, Nat.shiftRight_eq_div_pow]
    simpa using m.isLt
  have hmask : (0#4 ++ m).setWidth 8 = m := by
    refine BitVec.eq_of_toNat_eq ?_
    rw [BitVec.toNat_setWidth, BitVec.toNat_append]
    simpa using m.isLt
  rw [immLow_i, imm_i, hlow, hmask]
  rfl

end

/-! ### Engine commands -/

section
variable (op : BitVec 7) (a : EAct)

theorem eBare_enc (g : EAct → Instr) : Dec.eForm (Enc.e op a 0) 0 (.ok (g (Dec.eAct (Enc.e op a 0)))) = .ok (g a) := by
  rw [eForm_e _ _ _ _ _ rfl, eAct_e]

theorem eFcs_enc (g : EAct → Fcs → Instr) (f : Fcs) :
    Dec.eForm (Enc.e op a (0#8 ++ Enc.fcs f)) 7 (.ok (g (Dec.eAct (Enc.e op a (0#8 ++ Enc.fcs f))) (Dec.fcs ((Enc.e op a (0#8 ++ Enc.fcs f)).extractLsb' 0 3)))) =
      .ok (g a f) := by
  have hmask : ∀ b : BitVec 3, (0#8 ++ b) &&& ~~~7 = 0#11 ∧ (0#8 ++ b).extractLsb' 0 3 = b := by decide
  rw [eForm_e _ _ _ _ _ (hmask _).1, sub_flags _ _ _ (by decide), (hmask _).2, eAct_e, fcs_enc]

theorem drillPush_enc (n : Fin 9) : Dec.engine 0x2B (Enc.e op a (BitVec.ofNat 11 n.val)) = .ok (.drillPush a n) := by
  have hnum : ∀ n : Fin 9, BitVec.ofNat 11 n.val &&& ~~~15 = 0#11 ∧ ((BitVec.ofNat 11 n.val).extractLsb' 0 4).toNat = n.val := by decide
  have hval : ((Enc.e op a (BitVec.ofNat 11 n.val)).extractLsb' 0 4).toNat = n.val := by rw [sub_flags _ _ _ (by decide), (hnum n).2]
  simp only [Dec.engine]
  rw [eForm_e _ _ _ _ _ (hnum n).1, dif_pos (hval.trans_lt n.isLt), eAct_e]
  exact congrArg (fun m => Except.ok (Instr.drillPush a m)) (Fin.ext hval)

theorem sig_enc (r : Bool) (v : BitVec 10) : Dec.engine 0x2C (Enc.e op a (Enc.bit r ++ v)) = .ok (.sig a r v) := by
  have hraise : (Enc.bit r ++ v).getLsbD 10 = r := by
    rw [BitVec.getLsbD_append]
    cases r <;> rfl
  simp only [Dec.engine]
  rw [eForm_e _ _ _ _ _ (by simp), sub_flag _ _ _ (by decide), sub_flags _ _ _ (by decide), hraise, eAct_e, app_lo _ _ (by decide), ext_all]

theorem adPf_enc (n : Fin 4) (fa fb : Bool) :
    Dec.engine 0x2D (Enc.e op a (0#7 ++ BitVec.ofNat 2 n.val ++ Enc.bit fa ++ Enc.bit fb)) = .ok (.adPf a n fa fb) := by
  have hfields : ∀ (n : Fin 4) (fa fb : Bool), let x := 0#7 ++ BitVec.ofNat 2 n.val ++ Enc.bit fa ++ Enc.bit fb
      x &&& ~~~15 = 0#11 ∧ Dec.fin4 (x.extractLsb' 2 2) = n ∧ x.getLsbD 1 = fa ∧ x.getLsbD 0 = fb := by decide
  obtain ⟨hmask, hn, ha, hb⟩ := hfields n fa fb
  simp only [Dec.engine]
  rw [eForm_e _ _ _ _ _ hmask, sub_flags _ _ _ (by decide), sub_flag _ _ _ (by decide), sub_flag _ _ _ (by decide), hn, ha, hb, eAct_e]

end

end Sys2Proof.Laws
end

section
/-!
SUPPORT. The word of `mma` (spec 04 R70, 15 R264) by its fields, each way.
-/

namespace Sys2Proof.Laws

/-- The codes of the dataflows and of the adapter id sources, with ad above the two bits of ids. -/
def flowCode : Flow → BitVec 2
  | .inner => 0
  | .outer => 1
  | .row => 2

def idsCode : Ids → BitVec 3
  | .none => 0
  | .i0 => 5
  | .i1 => 6
  | .rows => 7

/-- A word in the layout of `mma`. -/
def mmaWord (df an : BitVec 2) (sa sb : BitVec 4) (ids : BitVec 3) (u : BitVec 5) (tb z : BitVec 1) (f : BitVec 3) : BitVec 32 :=
  0x20#7 ++ df ++ an ++ sa ++ sb ++ ids ++ u ++ tb ++ z ++ f

theorem mma_eq (a : MmaAct) : Enc.mma a = mmaWord (flowCode a.flow) (BitVec.ofNat 2 a.an.val) (Enc.src a.sa) (Enc.src a.sb) (idsCode a.ids) (Enc.upd a.upd)
    (Enc.bit a.tb) 0#1 (Enc.fcs a.fcs) := by
  rcases a with ⟨flow, an, sa, sb, ids, upd, tb, fcs⟩
  cases flow <;> cases ids <;> rfl

section
variable (df an : BitVec 2) (sa sb : BitVec 4) (ids : BitVec 3) (u : BitVec 5) (tb z : BitVec 1) (f : BitVec 3)

theorem mmaWord_fields : let w := mmaWord df an sa sb ids u tb z f
    w.extractLsb' 25 7 = 0x20#7 ∧ w.extractLsb' 23 2 = df ∧ w.extractLsb' 21 2 = an ∧ w.extractLsb' 17 4 = sa ∧ w.extractLsb' 13 4 = sb ∧ w.extractLsb' 10 3 = ids ∧
    w.extractLsb' 5 5 = u ∧ w.extractLsb' 4 1 = tb ∧ w.extractLsb' 3 1 = z ∧ w.extractLsb' 0 3 = f := by
  have hcast : mmaWord df an sa sb ids u tb z f = BitVec.cast (by decide) (0x20#7 ++ df ++ an ++ sa ++ sb ++ ids ++ u ++ tb ++ z ++ f) := rfl
  simp (disch := decide) only [hcast, ext_cast, app_lo, app_hi, Nat.reduceSub, ext_all, true_and]

end

/-- A word that `mma` is decoded from is made of its fields. -/
theorem mmaWord_word {w : BitVec 32} (h : opOf w = 0x20#7) : mmaWord (w.extractLsb' 23 2) (w.extractLsb' 21 2) (w.extractLsb' 17 4) (w.extractLsb' 13 4)
    (w.extractLsb' 10 3) (w.extractLsb' 5 5) (w.extractLsb' 4 1) (w.extractLsb' 3 1) (w.extractLsb' 0 3) = w := by
  unfold mmaWord
  rw [← h, opOf,
    show w.extractLsb' 25 7 ++ w.extractLsb' 23 2 = w.extractLsb' 23 (7 + 2) from ext_join w 23 7 2,
    show w.extractLsb' 23 (7 + 2) ++ w.extractLsb' 21 2 = w.extractLsb' 21 (7 + 2 + 2) from ext_join w 21 9 2,
    show w.extractLsb' 21 (7 + 2 + 2) ++ w.extractLsb' 17 4 = w.extractLsb' 17 (7 + 2 + 2 + 4) from ext_join w 17 11 4,
    show w.extractLsb' 17 (7 + 2 + 2 + 4) ++ w.extractLsb' 13 4 = w.extractLsb' 13 (7 + 2 + 2 + 4 + 4) from ext_join w 13 15 4,
    show w.extractLsb' 13 (7 + 2 + 2 + 4 + 4) ++ w.extractLsb' 10 3 = w.extractLsb' 10 (7 + 2 + 2 + 4 + 4 + 3) from ext_join w 10 19 3,
    show w.extractLsb' 10 (7 + 2 + 2 + 4 + 4 + 3) ++ w.extractLsb' 5 5 = w.extractLsb' 5 (7 + 2 + 2 + 4 + 4 + 3 + 5) from ext_join w 5 22 5,
    show w.extractLsb' 5 (7 + 2 + 2 + 4 + 4 + 3 + 5) ++ w.extractLsb' 4 1 = w.extractLsb' 4 (7 + 2 + 2 + 4 + 4 + 3 + 5 + 1) from ext_join w 4 27 1,
    show w.extractLsb' 4 (7 + 2 + 2 + 4 + 4 + 3 + 5 + 1) ++ w.extractLsb' 3 1 = w.extractLsb' 3 (7 + 2 + 2 + 4 + 4 + 3 + 5 + 1 + 1) from ext_join w 3 28 1,
    show w.extractLsb' 3 (7 + 2 + 2 + 4 + 4 + 3 + 5 + 1 + 1) ++ w.extractLsb' 0 3 = w.extractLsb' 0 (7 + 2 + 2 + 4 + 4 + 3 + 5 + 1 + 1 + 3) from ext_join w 0 29 3]
  exact ext_all w

theorem opOf_mma (a : MmaAct) : opOf (Enc.mma a) = 0x20#7 := by
  rw [mma_eq]
  exact (mmaWord_fields ..).1

theorem mma_enc (a : MmaAct) : Dec.mmaForm (Enc.mma a) = .ok (.mma a) := by
  rw [mma_eq]
  obtain ⟨-, hdf, han, hsa, hsb, hids, hu, htb, hz, hf⟩ := mmaWord_fields (flowCode a.flow) (BitVec.ofNat 2 a.an.val) (Enc.src a.sa) (Enc.src a.sb)
    (idsCode a.ids) (Enc.upd a.upd) (Enc.bit a.tb) 0#1 (Enc.fcs a.fcs)
  generalize mmaWord (flowCode a.flow) (BitVec.ofNat 2 a.an.val) (Enc.src a.sa) (Enc.src a.sb) (idsCode a.ids) (Enc.upd a.upd) (Enc.bit a.tb) 0#1
    (Enc.fcs a.fcs) = w at *
  have hbit3 : w.getLsbD 3 = false := sub_bit (s := 0) hz (by decide)
  have hbit4 : w.getLsbD 4 = a.tb := (sub_bit (s := 0) htb (by decide)).trans (by cases a.tb <;> rfl)
  have hbit12 : w.getLsbD 12 = (idsCode a.ids).getLsbD 2 := sub_bit (s := 2) hids (by decide)
  have hids2 : w.extractLsb' 10 2 = (idsCode a.ids).extractLsb' 0 2 := sub_ext (s := 0) hids (by decide)
  have hmode : w.extractLsb' 8 2 = (Enc.upd a.upd).extractLsb' 3 2 := sub_ext (s := 3) hu (by decide)
  have hpk : w.extractLsb' 5 3 = (Enc.upd a.upd).extractLsb' 0 3 := sub_ext (s := 0) hu (by decide)
  have hfin : ∀ n : Fin 4, Dec.fin4 (BitVec.ofNat 2 n.val) = n := by decide
  have had : ((idsCode a.ids).getLsbD 2 == ((idsCode a.ids).extractLsb' 0 2 != 0#2)) = true := by cases a.ids <;> decide
  unfold Dec.mmaForm Dec.selSa Dec.selSb
  rw [hbit3, hbit4, hbit12, hids2, hmode, hpk, hdf, han, hsa, hsb, hf, upd_enc, src_enc, src_enc, fcs_enc, hfin, had]
  rcases a with ⟨flow, an, sa, sb, ids, upd, tb, fcs⟩
  dsimp only
  cases flow <;> cases ids <;> rfl

end Sys2Proof.Laws
end

section
/-!
PROOF. The action word of every legal action decodes to that action (spec 04 R63 to R81): the round trip of each form, and from these lemmas, by the
instruction, the obligation ActionsDecodeAsEncoded.
-/

namespace Sys2Proof.Proofs

open Laws

/-- An action has a word, and the opcode map of its kind makes that action of it. -/
def RoundTrip (k : Kind) (hl : Bool) (i : Instr) : Prop :=
  ∃ w, encodeAction i = some w ∧ Dec.byKind k hl (opOf w).toNat w = .ok i

section
variable {k : Kind} {hl : Bool} {op : BitVec 7}

theorem roundTrip_of {i : Instr} {w : BitVec 32} (henc : encodeAction i = some w) (hop : opOf w = op)
    (hdec : Dec.byKind k hl op.toNat w = .ok i) : RoundTrip k hl i :=
  ⟨w, henc, hop ▸ hdec⟩

theorem roundTrip_plain {g : RAct → Instr} {a : RAct} (hdec : ∀ w, Dec.byKind k hl op.toNat w = Dec.rPlain w g)
    (henc : encodeAction (g a) = some (Enc.r op a 0)) : RoundTrip k hl (g a) :=
  roundTrip_of henc (opOf_r ..) ((hdec _).trans (rPlain_r ..))

theorem roundTrip_int {g : RAct → IntCtl → Instr} {a : RAct} {c : IntCtl} (hdec : ∀ w, Dec.byKind k hl op.toNat w = Dec.rInt w g)
    (henc : encodeAction (g a c) = some (Enc.r op a (Enc.intCtl c))) : RoundTrip k hl (g a c) :=
  roundTrip_of henc (opOf_r ..) ((hdec _).trans (rInt_r ..))

theorem roundTrip_cmp {g : RAct → CmpCtl → Instr} {a : RAct} {c : CmpCtl} (hdec : ∀ w, Dec.byKind k hl op.toNat w = Dec.rCmp w g)
    (henc : encodeAction (g a c) = some (Enc.r op a (Enc.cmpCtl c))) : RoundTrip k hl (g a c) :=
  roundTrip_of henc (opOf_r ..) ((hdec _).trans (rCmp_r ..))

theorem roundTrip_fp {g : RAct → FpCtl → Instr} {a : RAct} {c : FpCtl} (hdec : ∀ w, Dec.byKind k hl op.toNat w = Dec.rFp w g)
    (henc : encodeAction (g a c) = some (Enc.r op a (Enc.fpCtl c))) : RoundTrip k hl (g a c) :=
  roundTrip_of henc (opOf_r ..) ((hdec _).trans (rFp_r ..))

theorem roundTrip_fcs {g : RAct → Fcs → Instr} {a : RAct} {x : Fcs} (hdec : ∀ w, Dec.byKind k hl op.toNat w = Dec.rFcs w g)
    (henc : encodeAction (g a x) = some (Enc.r op a (0#2 ++ Enc.fcs x))) : RoundTrip k hl (g a x) :=
  roundTrip_of henc (opOf_r ..) ((hdec _).trans (rFcs_r ..))

theorem roundTrip_num {g : RAct → Fin 8 → Instr} {a : RAct} {n : Fin 8} (hdec : ∀ w, Dec.byKind k hl op.toNat w = Dec.rNum w g)
    (henc : encodeAction (g a n) = some (Enc.r op a (Enc.num5 n.val))) : RoundTrip k hl (g a n) :=
  roundTrip_of henc (opOf_r ..) ((hdec _).trans (rNum_r ..))

theorem roundTrip_imm {g : IAct → Instr} {a : IAct} (hdec : ∀ w, Dec.byKind k hl op.toNat w = Dec.iPlain w g)
    (henc : encodeAction (g a) = some (Enc.ia op a)) : RoundTrip k hl (g a) :=
  roundTrip_of henc (opOf_ia ..) ((hdec _).trans (iPlain_i ..))

theorem roundTrip_pred {g : Fin 8 → Fin 8 → PUpd → Instr} {a b : Fin 8} {u : PUpd} (hdec : ∀ w, Dec.byKind k hl op.toNat w = Dec.pForm w g)
    (henc : encodeAction (g a b u) = some (Enc.p op a b u)) : RoundTrip k hl (g a b u) :=
  roundTrip_of henc (opOf_p ..) ((hdec _).trans (pForm_p ..))

theorem roundTrip_engine {g : EAct → Instr} {a : EAct} (hdec : ∀ w, Dec.byKind k hl op.toNat w = Dec.eForm w 0 (.ok (g (Dec.eAct w))))
    (henc : encodeAction (g a) = some (Enc.e op a 0)) : RoundTrip k hl (g a) :=
  roundTrip_of henc (opOf_e ..) ((hdec _).trans (eBare_enc ..))

theorem roundTrip_engineFcs {g : EAct → Fcs → Instr} {a : EAct} {f : Fcs}
    (hdec : ∀ w, Dec.byKind k hl op.toNat w = Dec.eForm w 7 (.ok (g (Dec.eAct w) (Dec.fcs (w.extractLsb' 0 3)))))
    (henc : encodeAction (g a f) = some (Enc.e op a (0#8 ++ Enc.fcs f))) : RoundTrip k hl (g a f) :=
  roundTrip_of henc (opOf_e ..) ((hdec _).trans (eFcs_enc ..))

theorem roundTrip_matrix {g : XAct → Instr} {a : XAct} (hdec : ∀ w, Dec.byKind k hl op.toNat w = Dec.xForm w false fun x _ => g x)
    (henc : encodeAction (g a) = some (Enc.x op a 0)) : RoundTrip k hl (g a) :=
  roundTrip_of henc (opOf_x ..) ((hdec _).trans (xForm_x _ _ _ _ (fun x _ => g x) (.inr rfl)))

theorem roundTrip_matrixFcs {g : XAct → Fcs → Instr} {a : XAct} {f : Fcs} (hdec : ∀ w, Dec.byKind k hl op.toNat w = Dec.xForm w true g)
    (henc : encodeAction (g a f) = some (Enc.x op a (Enc.fcs f))) : RoundTrip k hl (g a f) :=
  roundTrip_of henc (opOf_x ..) ((hdec _).trans ((xForm_x _ _ _ _ g (.inl rfl)).trans (by rw [fcs_enc])))

end

/-- The kinds that a legal action of the shared classes allows. -/
theorem hasRegs_of_wfInt {k : Kind} {a : RAct} (h : wfInt k a = true) : k.hasRegs = true := (Bool.and_eq_true_iff.1 h).1
theorem ce_of_wfIntCe {k : Kind} {a : RAct} (h : wfIntCe k a = true) : k = .ce := eq_of_beq (Bool.and_eq_true_iff.1 h).1
theorem se_of_wfSe {k : Kind} {a : RAct} (h : wfSe k a = true) : k = .se := by
  simp only [wfSe, Bool.and_eq_true, beq_iff_eq] at h; exact h.1.1.1
theorem le_of_wfLe {k : Kind} {a : RAct} (h : wfLe k a = true) : k = .le := by
  simp only [wfLe, Bool.and_eq_true, beq_iff_eq] at h; exact h.1.1
theorem xe_of_wfXe {k : Kind} {a : EAct} (h : wfXe k a = true) : k = .xe := by
  simp only [wfXe, Bool.and_eq_true, beq_iff_eq] at h; exact h.1.1.1
theorem memory_of_base {k : Kind} {a : MAct} (h : a.base k = true) : k = .ce ∨ k = .le := by
  simp only [MAct.base, Bool.and_eq_true, Bool.or_eq_true, beq_iff_eq] at h; exact h.1.1.1
theorem headland_of_wfPriv {k : Kind} {hl : Bool} {a : RAct} (h : wfPriv k hl a = true) : k = .ce ∧ hl = true := by
  simp only [wfPriv, Bool.and_eq_true, beq_iff_eq] at h; exact h.1.1.1.1

/-- Every legal action has a word that the opcode map of its kind reads as that action. -/
theorem roundTrip_of_wf {k : Kind} {hl : Bool} {i : Instr} (h : i.wf k hl = true) : RoundTrip k hl i := by
  have hcommon {op : Nat} (hop : op < 0x20) := byKind_common hop k hl
  cases i with
  -- the opcodes of every kind
  | nop a | mov a | drop a | route a | flgRd a => exact roundTrip_plain (hcommon (by decide)) rfl
  | movi a | cntAdd a | cntSet a | flgClr a | trap a | brk a => exact roundTrip_imm (hcommon (by decide)) rfl
  | pand a b u | por a b u | pxor a b u | pandn a b u => exact roundTrip_pred (hcommon (by decide)) rfl
  | sel a n => exact roundTrip_num (hcommon (by decide)) rfl
  | eos a c0 c1 => exact roundTrip_of rfl (opOf_r ..) ((hcommon (by decide) _).trans (eos_enc ..))
  | rest u => exact roundTrip_of rfl (opOf_rWord ..) ((hcommon (by decide) _).trans (rest_enc ..))
  | barArv g u => exact roundTrip_of rfl (opOf_i ..) ((hcommon (by decide) _).trans (barArv_enc ..))
  | barWch d sa g u => exact roundTrip_of rfl (opOf_i ..) ((hcommon (by decide) _).trans (barWch_enc ..))
  | barMem sa g u pk => exact roundTrip_of rfl (opOf_rWord ..) ((hcommon (by decide) _).trans (barMem_enc ..))
  | stgAcq d n ro u => exact roundTrip_of rfl (opOf_i ..) ((hcommon (by decide) _).trans (stgAcq_enc ..))
  | stgRel sa n ro u => exact roundTrip_of rfl (opOf_i ..) ((hcommon (by decide) _).trans (stgRel_enc ..))
  | tmrRd a t =>
    obtain ⟨w, henc, hop, hdec⟩ := tmrRd_enc a t
    exact roundTrip_of henc hop ((hcommon (by decide) w).trans hdec)
  | specRd d s u => exact roundTrip_of rfl (opOf_i ..) ((hcommon (by decide) _).trans (specRd_enc ..))
  | specWr sa s u => exact roundTrip_of rfl (opOf_i ..) ((hcommon (by decide) _).trans (specWr_enc ..))
  | waveNx u => exact roundTrip_of rfl (opOf_i ..) ((hcommon (by decide) _).trans (waveNx_enc ..))
  -- integer and floating-point classes of compute and function elements
  | add a c | sub a c | mul a c | mulh a c | mad a c | div a c | rem a c | neg a c | abs a c | min a c | max a c | and a c | or a c | xor a c | andn a c | not a c
  | shl a c | shr a c | sar a c | rot a c | clz a c | ctz a c | popc a c | bfe a c | bfi a c | ext a c | lea a c | iota a c | pack a c | unpk a c | shuf a c
  | bcast a c =>
    have hk : wfInt k a = true := by simp only [Instr.wf, Bool.and_eq_true] at h; tauto
    exact roundTrip_int (byKind_arith (hasRegs_of_wfInt hk) (by decide) hl) rfl
  | vred a c | vscn a c | filt a c | xpnd a c | zpack a c | zunpk a c | hash a c =>
    have hk : wfIntCe k a = true := by simp only [Instr.wf, Bool.and_eq_true] at h; tauto
    obtain rfl := ce_of_wfIntCe hk
    exact roundTrip_int (byKind_arithCe (by decide) hl) rfl
  | cmp a c | ccmp a c =>
    have hk : wfInt k a = true := by simp only [Instr.wf, Bool.and_eq_true] at h; tauto
    exact roundTrip_cmp (byKind_arith (hasRegs_of_wfInt hk) (by decide) hl) rfl
  | addi a | shli a =>
    have hk : k.hasRegs = true := by simp only [Instr.wf, Bool.and_eq_true] at h; tauto
    exact roundTrip_imm (byKind_arith hk (by decide) hl) rfl
  | fadd a c | fsub a c | fmul a c | ffma a c | fmin a c | fmax a c | fabs a c | fneg a c | fclt a c | fcle a c | fceq a c | fcun a c | fscl a c | fcls a c
  | fdot a c | q4dq a c | q4q a c | dropm a c | rnd a c =>
    have hk : wfInt k a = true := by simp only [Instr.wf, Bool.and_eq_true] at h; tauto
    exact roundTrip_fp (byKind_arith (hasRegs_of_wfInt hk) (by decide) hl) rfl
  | fcvt a f => exact roundTrip_fcs (byKind_arith (hasRegs_of_wfInt h) (by decide) hl) rfl
  | f2i a s t c =>
    obtain ⟨hk, hsb⟩ := Bool.and_eq_true_iff.1 h
    exact roundTrip_of rfl (opOf_rb ..) ((byKind_arith (hasRegs_of_wfInt hk) (by decide) hl _).trans (f2i_enc _ (eq_of_beq hsb) c s t))
  | i2f a s c =>
    obtain ⟨hk, hsb⟩ := Bool.and_eq_true_iff.1 h
    exact roundTrip_of rfl (opOf_rb ..) ((byKind_arith (hasRegs_of_wfInt hk) (by decide) hl _).trans (i2f_enc _ (eq_of_beq hsb) c s))
  | frnd a q c =>
    simp only [Instr.wf, Bool.and_eq_true, bne_iff_ne] at h
    obtain ⟨⟨hk, hsb⟩, hq⟩ := h
    have harith := byKind_arith (op := 0x5F) (hasRegs_of_wfInt hk) (by decide) hl
    cases q with
    | none => exact roundTrip_of rfl (opOf_rb ..) ((harith _).trans (frnd_enc_fpm _ (eq_of_beq hsb) c))
    | some q => exact roundTrip_of rfl (opOf_rb ..) ((harith _).trans (frnd_enc _ (eq_of_beq hsb) c fun hsr => hq (hsr ▸ rfl)))
  | frcp a c | frsq a c | fsqrt a c | fex2 a c | flg2 a c | fsin a c | fcos a c | ftnh a c | fsgm a c | fslu a c | fdiv a c =>
    obtain rfl : k = .fe := by simp only [Instr.wf, Bool.and_eq_true, beq_iff_eq] at h; tauto
    exact roundTrip_fp (byKind_special (by decide) hl) rfl
  -- memory
  | ld a sx =>
    have hk : a.base k = true := by simp only [Instr.wf, Bool.and_eq_true] at h; tauto
    exact roundTrip_of rfl (opOf_m ..) ((byKind_memory (memory_of_base hk) (by decide) hl _).trans (ld_enc ..))
  | st a =>
    have hk : a.base k = true := by simp only [Instr.wf, Bool.and_eq_true] at h; tauto
    exact roundTrip_of rfl (opOf_m ..) ((byKind_memory (memory_of_base hk) (by decide) hl _).trans (st_enc ..))
  | amo a o f =>
    have hk : a.base k = true := by simp only [Instr.wf, Bool.and_eq_true] at h; tauto
    exact roundTrip_of rfl (opOf_m ..) ((byKind_memory (memory_of_base hk) (by decide) hl _).trans (amo_enc ..))
  | amoCas a =>
    have hk : a.base k = true := by simp only [Instr.wf, Bool.and_eq_true] at h; tauto
    exact roundTrip_of rfl (opOf_m ..) ((byKind_memory (memory_of_base hk) (by decide) hl _).trans (amoCas_enc ..))
  | red a o f =>
    have hk : a.base k = true := by simp only [Instr.wf, Bool.and_eq_true] at h; tauto
    exact roundTrip_of rfl (opOf_m ..) ((byKind_memory (memory_of_base hk) (by decide) hl _).trans (red_enc ..))
  | wfence d s =>
    have hk : k = .ce ∨ k = .le := by simp only [Instr.wf, Bool.and_eq_true, Bool.or_eq_true, beq_iff_eq] at h; tauto
    exact roundTrip_of rfl (opOf_m ..) ((byKind_memory hk (by decide) hl _).trans (wfence_enc ..))
  | mseal d sa sb =>
    have hk : k = .ce ∨ k = .le := by simp only [Instr.wf, Bool.and_eq_true, Bool.or_eq_true, beq_iff_eq] at h; tauto
    exact roundTrip_of rfl (opOf_m ..) ((byKind_memory hk (by decide) hl _).trans (mseal_enc ..))
  | munseal d sa =>
    have hk : k = .ce ∨ k = .le := by simp only [Instr.wf, Bool.and_eq_true, Bool.or_eq_true, beq_iff_eq] at h; tauto
    exact roundTrip_of rfl (opOf_m ..) ((byKind_memory hk (by decide) hl _).trans (munseal_enc ..))
  -- headlands
  | fltRd d u =>
    obtain ⟨rfl, rfl⟩ : k = .ce ∧ hl = true := by simp only [Instr.wf, Bool.and_eq_true, beq_iff_eq] at h; tauto
    exact roundTrip_of rfl (opOf_rWord ..) ((byKind_privileged (by decide) _).trans (fltRd_enc ..))
  | rpr a q =>
    obtain ⟨rfl, rfl⟩ := headland_of_wfPriv h
    exact roundTrip_of rfl (opOf_r ..) ((byKind_privileged (by decide) _).trans (rpr_enc ..))
  | rqInj a v =>
    obtain ⟨rfl, rfl⟩ := headland_of_wfPriv h
    exact roundTrip_of rfl (opOf_r ..) ((byKind_privileged (by decide) _).trans (rqInj_enc ..))
  | tlbInv a q =>
    obtain ⟨rfl, rfl⟩ := headland_of_wfPriv h
    exact roundTrip_of rfl (opOf_r ..) ((byKind_privileged (by decide) _).trans (tlbInv_enc ..))
  | wpSet a n =>
    obtain ⟨rfl, rfl⟩ := headland_of_wfPriv h
    exact roundTrip_num (byKind_privileged (by decide)) rfl
  | rqWr a | ctxSv a | ctxLd a | trCtl a | irq a =>
    obtain ⟨rfl, rfl⟩ := headland_of_wfPriv h
    exact roundTrip_plain (byKind_privileged (by decide)) rfl
  | rqRd a | frz a | thw a | cfgRld a | spareMap a =>
    obtain ⟨rfl, rfl⟩ := headland_of_wfPriv (Bool.and_eq_true_iff.1 h).1
    exact roundTrip_plain (byKind_privileged (by decide)) rfl
  | polWr a =>
    obtain ⟨rfl, rfl⟩ : k = .ce ∧ hl = true := by simp only [Instr.wf, Bool.and_eq_true, beq_iff_eq] at h; tauto
    exact roundTrip_plain (byKind_privileged (by decide)) rfl
  -- scratchpads and endpoints
  | tileNew a | tileFree a | tileShp a | tileRd a | tileWr a | tileGat a | tileSct a | tileFil a | tileCpy a | tileQry a | hashSet a | bankRd a | bankClr a =>
    have hk : wfSe k a = true := by simp only [Instr.wf, Bool.and_eq_true] at h; tauto
    obtain rfl := se_of_wfSe hk
    exact roundTrip_plain (byKind_scratch (by decide) hl) rfl
  | tileAcc a f =>
    have hk : wfSe k a = true := by simp only [Instr.wf, Bool.and_eq_true] at h; tauto
    obtain rfl := se_of_wfSe hk
    exact roundTrip_fcs (byKind_scratch (by decide) hl) rfl
  | strmOpn a n | strmCls a n | strmSt a n =>
    have hk : wfLe k a = true := by simp only [Instr.wf, Bool.and_eq_true] at h; tauto
    obtain rfl := le_of_wfLe hk
    exact roundTrip_num (byKind_endpoint (by decide) hl) rfl
  | tlbPf a | cmbFl a =>
    have hk : wfLe k a = true := by simp only [Instr.wf, Bool.and_eq_true] at h; tauto
    obtain rfl := le_of_wfLe hk
    exact roundTrip_plain (byKind_endpoint (by decide) hl) rfl
  | wpArm a n q =>
    have hk : wfLe k a = true := by simp only [Instr.wf, Bool.and_eq_true] at h; tauto
    obtain rfl := le_of_wfLe hk
    exact roundTrip_of rfl (opOf_r ..) ((byKind_endpoint (by decide) hl _).trans (wpArm_enc ..))
  | sbar m u =>
    obtain rfl : k = .le := eq_of_beq h
    exact roundTrip_of rfl (opOf_i ..) ((byKind_endpoint (by decide) hl _).trans (sbar_enc ..))
  -- engine commands
  | cpy a | cpyNd a | put a | get a | cpyIx a | cpyIs a | gat a | sct a =>
    have hk : wfXe k a = true := by simp only [Instr.wf, Bool.and_eq_true] at h; tauto
    obtain rfl := xe_of_wfXe hk
    exact roundTrip_engine (byKind_engine (by decide) hl) rfl
  | sctAdd a f | rdcTree a f | coll a f =>
    have hk : wfXe k a = true := by simp only [Instr.wf, Bool.and_eq_true] at h; tauto
    obtain rfl := xe_of_wfXe hk
    exact roundTrip_engineFcs (byKind_engine (by decide) hl) rfl
  | drillPush a n =>
    obtain rfl := xe_of_wfXe (Bool.and_eq_true_iff.1 h).1
    exact roundTrip_of rfl (opOf_e ..) ((byKind_engine (by decide) hl _).trans (drillPush_enc ..))
  | sig a r v =>
    obtain rfl := xe_of_wfXe h
    exact roundTrip_of rfl (opOf_e ..) ((byKind_engine (by decide) hl _).trans (sig_enc ..))
  | adPf a n fa fb =>
    have hk : wfXe k a = true := by simp only [Instr.wf, Bool.and_eq_true] at h; tauto
    obtain rfl := xe_of_wfXe hk
    exact roundTrip_of rfl (opOf_e ..) ((byKind_engine (by decide) hl _).trans (adPf_enc ..))
  -- matrix elements
  | mma a =>
    obtain rfl : k = .me := by simp only [Instr.wf, Bool.and_eq_true, beq_iff_eq] at h; tauto
    exact roundTrip_of rfl (opOf_mma a) ((byKind_matrix (by decide) hl _).trans (mma_enc a))
  | accClr a | accLd a | adInv a | meCnt a | meIdl a =>
    obtain rfl : k = .me := by simp only [Instr.wf, Bool.and_eq_true, beq_iff_eq] at h; tauto
    exact roundTrip_matrix (byKind_matrix (by decide) hl) rfl
  | accRd a f | accRel a f =>
    obtain rfl : k = .me := by simp only [Instr.wf, Bool.and_eq_true, beq_iff_eq] at h; tauto
    exact roundTrip_matrixFcs (byKind_matrix (by decide) hl) rfl
  -- a step of the device is no configuration
  | _ => cases h

/-- Settles O46: the round trip of `roundTrip_of_wf`, which a legal action makes through `decodeAction` too. -/
theorem actionsDecodeAsEncoded : Obligations.ActionsDecodeAsEncoded := by
  unfold Obligations.ActionsDecodeAsEncoded
  intro k hl i h
  obtain ⟨w, henc, hdec⟩ := roundTrip_of_wf h
  exact ⟨w, henc, decodeAction_ok.2 ⟨hdec, h⟩⟩

end Sys2Proof.Proofs
end

section
/-!
SUPPORT. A word that decodes under an instruction's own form is the encoder's word of what it decodes to (spec 04 R66 to R81): one lemma for each form, and one
for each instruction whose entry reads fields of its own.
-/

namespace Sys2Proof.Laws

/-! ### Small numbers in a field -/

theorem opOf_of_toNat {w : BitVec 32} {n : Nat} (h : (opOf w).toNat = n) : opOf w = BitVec.ofNat 7 n := by
  rw [← h, BitVec.ofNat_toNat, BitVec.setWidth_eq]

theorem num12_of_lt {x : BitVec 12} (h : x.toNat < 2 ^ 5) : Enc.num12 (Fin.ofNat 32 x.toNat).val = x := by
  rw [Enc.num12, Fin.val_ofNat, Nat.mod_eq_of_lt (show x.toNat < 32 from h), BitVec.ofNat_toNat, BitVec.setWidth_eq]

/-- A ring and a role fill the four lower bits of imm12. -/
theorem ring_of_lt {x : BitVec 12} (h : x.toNat < 2 ^ 4) :
    0#8 ++ Enc.role (if x.getLsbD 3 then .consumer else .producer) ++ BitVec.ofNat 3 (Fin.ofNat 8 x.toNat).val = x := by
  rw [append_low (a := 8) (b := 4) h]
  generalize x.setWidth 4 = y
  revert y
  decide

theorem specReg_dec {b : BitVec 12} {s : Spec} (h : Dec.specReg b = .ok s) : Enc.specReg s = b := by
  unfold Dec.specReg at h
  split at h <;> cases h <;> next hb => exact (BitVec.eq_of_toNat_eq hb).symm

/-- Flags that lie under a mask of n bits are a number of n bits. -/
theorem toNat_lt_of_mask {x : BitVec 11} {n : Nat} (h : x &&& ~~~BitVec.ofNat 11 (2 ^ n - 1) = 0#11) : x.toNat < 2 ^ n := by
  refine Nat.lt_pow_two_of_testBit _ fun i hi => ?_
  have hbit := congrArg (fun y => y.getLsbD i) h
  simp only [BitVec.getLsbD_and, BitVec.getLsbD_not, BitVec.getLsbD_ofNat, Nat.testBit_two_pow_sub_one, Nat.not_lt.2 hi] at hbit
  by_cases h11 : i < 11
  · rw [BitVec.testBit_toNat]
    simpa [h11] using hbit
  · exact BitVec.getLsbD_of_ge _ _ (Nat.not_lt.1 h11)

/-! ### The forms -/

section
variable {w : BitVec 32} {n : Nat} (hop : (opOf w).toNat = n)
include hop

theorem canon_r {a : RAct} {f : BitVec 5} (hw : w = Enc.r (opOf w) a (Dec.fm w)) (hf : f = Dec.fm w) : some (Enc.r (BitVec.ofNat 7 n) a f) = some w := by
  rw [hf, ← opOf_of_toNat hop, ← hw]

theorem canon_rb {a : RAct} {b b' : BitVec 4} {f : BitVec 5} (hw : w = Enc.rb (opOf w) a b f) (hb : b' = b) :
    some (Enc.rb (BitVec.ofNat 7 n) a b' f) = some w := by
  rw [hb, ← opOf_of_toNat hop, ← hw]

theorem canon_i {d : Dst} {sa : Src} {x : BitVec 12} {u : PUpd} (hw : w = Enc.i (opOf w) d sa x u) : some (Enc.i (BitVec.ofNat 7 n) d sa x u) = some w := by
  rw [← opOf_of_toNat hop, ← hw]

theorem canon_m {a : MAct} {x : BitVec 4} {y : BitVec 3} (ha : a = Dec.mAct w) (hx : x = w.extractLsb' 3 4) (hy : y = w.extractLsb' 0 3) :
    some (Enc.m (BitVec.ofNat 7 n) a x y) = some w := by
  rw [ha, hx, hy, ← opOf_of_toNat hop, m_word]

theorem canon_e {x : BitVec 11} (hx : x = w.extractLsb' 0 11) : some (Enc.e (BitVec.ofNat 7 n) (Dec.eAct w) x) = some w := by
  rw [hx, ← opOf_of_toNat hop, e_word]

variable {i : Instr}

theorem canon_plain {g : RAct → Instr} (henc : ∀ a, encodeAction (g a) = some (Enc.r (BitVec.ofNat 7 n) a 0)) (h : Dec.rPlain w g = .ok i) :
    encodeAction i = some w := by
  obtain ⟨a, rfl, hw⟩ := rPlain_inv h
  rw [henc, ← opOf_of_toNat hop, ← hw]

theorem canon_int {g : RAct → IntCtl → Instr} (henc : ∀ a c, encodeAction (g a c) = some (Enc.r (BitVec.ofNat 7 n) a (Enc.intCtl c)))
    (h : Dec.rInt w g = .ok i) : encodeAction i = some w := by
  obtain ⟨a, c, rfl, hw⟩ := rInt_inv h
  rw [henc, ← opOf_of_toNat hop, ← hw]

theorem canon_cmp {g : RAct → CmpCtl → Instr} (henc : ∀ a c, encodeAction (g a c) = some (Enc.r (BitVec.ofNat 7 n) a (Enc.cmpCtl c)))
    (h : Dec.rCmp w g = .ok i) : encodeAction i = some w := by
  obtain ⟨a, c, rfl, hw⟩ := rCmp_inv h
  rw [henc, ← opOf_of_toNat hop, ← hw]

theorem canon_fp {g : RAct → FpCtl → Instr} (henc : ∀ a c, encodeAction (g a c) = some (Enc.r (BitVec.ofNat 7 n) a (Enc.fpCtl c)))
    (h : Dec.rFp w g = .ok i) : encodeAction i = some w := by
  obtain ⟨a, c, rfl, hw⟩ := rFp_inv h
  rw [henc, ← opOf_of_toNat hop, ← hw]

theorem canon_fcs {g : RAct → Fcs → Instr} (henc : ∀ a x, encodeAction (g a x) = some (Enc.r (BitVec.ofNat 7 n) a (0#2 ++ Enc.fcs x)))
    (h : Dec.rFcs w g = .ok i) : encodeAction i = some w := by
  obtain ⟨a, x, rfl, hw⟩ := rFcs_inv h
  rw [henc, ← opOf_of_toNat hop, ← hw]

theorem canon_num {g : RAct → Fin 8 → Instr} (henc : ∀ a m, encodeAction (g a m) = some (Enc.r (BitVec.ofNat 7 n) a (Enc.num5 m.val)))
    (h : Dec.rNum w g = .ok i) : encodeAction i = some w := by
  obtain ⟨a, m, rfl, hw⟩ := rNum_inv h
  rw [henc, ← opOf_of_toNat hop, ← hw]

theorem canon_imm {g : IAct → Instr} (henc : ∀ a, encodeAction (g a) = some (Enc.ia (BitVec.ofNat 7 n) a)) (h : Dec.iPlain w g = .ok i) :
    encodeAction i = some w := by
  obtain ⟨a, rfl, hw⟩ := iPlain_inv h
  rw [henc, ← opOf_of_toNat hop, ← hw]

theorem canon_pred {g : Fin 8 → Fin 8 → PUpd → Instr} (henc : ∀ a b u, encodeAction (g a b u) = some (Enc.p (BitVec.ofNat 7 n) a b u))
    (h : Dec.pForm w g = .ok i) : encodeAction i = some w := by
  obtain ⟨a, b, u, rfl, hw⟩ := pForm_inv h
  rw [henc, ← opOf_of_toNat hop, ← hw]

theorem canon_engine {g : EAct → Instr} (henc : ∀ a, encodeAction (g a) = some (Enc.e (BitVec.ofNat 7 n) a 0))
    (h : Dec.eForm w 0 (.ok (g (Dec.eAct w))) = .ok i) : encodeAction i = some w := by
  simp only [Dec.eForm, guard_ok, beq_iff_eq, Except.ok.injEq] at h
  obtain ⟨hflags, rfl⟩ := h
  have hzero : w.extractLsb' 0 11 = 0#11 := BitVec.eq_of_toNat_eq (Nat.lt_one_iff.1 (toNat_lt_of_mask (n := 0) hflags))
  rw [henc]
  exact canon_e hop hzero.symm

theorem canon_engineFcs {g : EAct → Fcs → Instr} (henc : ∀ a f, encodeAction (g a f) = some (Enc.e (BitVec.ofNat 7 n) a (0#8 ++ Enc.fcs f)))
    (h : Dec.eForm w 7 (.ok (g (Dec.eAct w) (Dec.fcs (w.extractLsb' 0 3)))) = .ok i) : encodeAction i = some w := by
  simp only [Dec.eForm, guard_ok, beq_iff_eq, Except.ok.injEq] at h
  obtain ⟨hflags, rfl⟩ := h
  have hlow := append_low (a := 8) (b := 3) (x := w.extractLsb' 0 11) (toNat_lt_of_mask (n := 3) hflags)
  have hfield : w.extractLsb' 0 3 = (w.extractLsb' 0 11).setWidth 3 := by
    rw [BitVec.setWidth_eq_extractLsb' (by decide)]
    exact sub_ext (p := 0) (s := 0) rfl (by decide)
  rw [henc, fcs_dec, hfield]
  exact canon_e hop hlow.symm

theorem canon_matrix {g : XAct → Instr} (henc : ∀ a, encodeAction (g a) = some (Enc.x (BitVec.ofNat 7 n) a 0))
    (h : Dec.xForm w false (fun x _ => g x) = .ok i) : encodeAction i = some w := by
  obtain ⟨a, x, rfl, hw, hx⟩ := xForm_inv h
  obtain rfl : x = 0#3 := by simpa using hx
  rw [henc, ← opOf_of_toNat hop]
  exact congrArg some hw.symm

theorem canon_matrixFcs {g : XAct → Fcs → Instr} (henc : ∀ a f, encodeAction (g a f) = some (Enc.x (BitVec.ofNat 7 n) a (Enc.fcs f)))
    (h : Dec.xForm w true g = .ok i) : encodeAction i = some w := by
  obtain ⟨a, x, rfl, hw, -⟩ := xForm_inv h
  rw [henc, fcs_dec, ← opOf_of_toNat hop, ← hw]

end

/-! ### Control -/

section
variable {w : BitVec 32} {i : Instr}

theorem eos_canon (hop : (opOf w).toNat = 0x08) (h : Dec.common 0x08 w = .ok i) : encodeAction i = some w := by
  rw [Dec.common] at h
  obtain ⟨a, ha, hw, -⟩ := rForm_inv h
  simp only [guard_ok, beq_iff_eq, Except.ok.injEq] at ha
  obtain ⟨hzero, rfl⟩ := ha
  have hfm : ∀ f : BitVec 5, f.extractLsb' 2 3 = 0#3 → 0#3 ++ Enc.bit (f.getLsbD 1) ++ Enc.bit (f.getLsbD 0) = f := by decide
  rw [fm_ext _ (by decide : 2 + 3 ≤ 5)] at hzero
  rw [fm_bit w (by decide : 0 < 5), fm_bit w (by decide : 1 < 5)]
  exact canon_r hop hw (hfm _ hzero)

theorem rest_canon (hop : (opOf w).toNat = 0x0F) (h : Dec.common 0x0F w = .ok i) : encodeAction i = some w := by
  rw [Dec.common] at h
  obtain ⟨a, ha, hw, -⟩ := rForm_inv h
  simp only [guard_ok, Bool.and_eq_true, beq_iff_eq, RAct.plain, Except.ok.injEq, Bool.not_eq_true'] at ha
  obtain ⟨⟨⟨⟨⟨hd, hsa⟩, hsb⟩, htag, hpeek⟩, hfm⟩, rfl⟩ := ha
  have hrest : Enc.r 0x0F a 0 = Enc.rWord 0x0F 12 12 12 0 (Enc.upd a.upd) false 0 := by rw [Enc.r, hd, hsa, hsb, htag, hpeek]; rfl
  exact (congrArg some hrest.symm).trans (canon_r hop hw hfm.symm)

theorem barArv_canon (hop : (opOf w).toNat = 0x10) (h : Dec.common 0x10 w = .ok i) : encodeAction i = some w := by
  rw [Dec.common] at h
  obtain ⟨a, ha, hw, himm⟩ := iForm_inv h
  simp only [guard_ok, Bool.and_eq_true, beq_iff_eq, Except.ok.injEq] at ha
  obtain ⟨⟨⟨hd, hsa⟩, hlow⟩, rfl⟩ := ha
  rw [hd, hsa, himm, ← num12_of_lt (toNat_lt_of_shift hlow)] at hw
  exact canon_i hop hw

theorem barWch_canon (hop : (opOf w).toNat = 0x11) (h : Dec.common 0x11 w = .ok i) : encodeAction i = some w := by
  rw [Dec.common] at h
  obtain ⟨a, ha, hw, himm⟩ := iForm_inv h
  simp only [guard_ok, Except.ok.injEq] at ha
  obtain ⟨hlow, rfl⟩ := ha
  rw [himm, ← num12_of_lt (toNat_lt_of_shift hlow)] at hw
  exact canon_i hop hw

theorem barMem_canon (hop : (opOf w).toNat = 0x12) (h : Dec.common 0x12 w = .ok i) : encodeAction i = some w := by
  rw [Dec.common] at h
  obtain ⟨a, ha, hw, -⟩ := rForm_inv h
  simp only [guard_ok, Bool.and_eq_true, beq_iff_eq, Except.ok.injEq] at ha
  obtain ⟨⟨⟨hd, hsb⟩, htag⟩, rfl⟩ := ha
  have hnum : ∀ f : BitVec 5, Enc.num5 (Fin.ofNat 32 f.toNat).val = f := by decide
  have hbar : Enc.r 0x12 a (Dec.fm w) = Enc.rWord 0x12 12 (Enc.src a.sa) 12 0 (Enc.upd a.upd) a.peek (Enc.num5 (Fin.ofNat 32 (Dec.fm w).toNat).val) := by
    rw [Enc.r, hd, hsb, htag, hnum]; rfl
  exact (congrArg some hbar.symm).trans (canon_r hop hw rfl)

theorem stgAcq_canon (hop : (opOf w).toNat = 0x13) (h : Dec.common 0x13 w = .ok i) : encodeAction i = some w := by
  rw [Dec.common] at h
  obtain ⟨a, ha, hw, himm⟩ := iForm_inv h
  simp only [guard_ok, Bool.and_eq_true, beq_iff_eq, Except.ok.injEq] at ha
  obtain ⟨⟨hsa, hlow⟩, rfl⟩ := ha
  rw [hsa, himm, ← ring_of_lt (toNat_lt_of_shift hlow)] at hw
  exact canon_i hop hw

theorem stgRel_canon (hop : (opOf w).toNat = 0x14) (h : Dec.common 0x14 w = .ok i) : encodeAction i = some w := by
  rw [Dec.common] at h
  obtain ⟨a, ha, hw, himm⟩ := iForm_inv h
  simp only [guard_ok, Bool.and_eq_true, beq_iff_eq, Except.ok.injEq] at ha
  obtain ⟨⟨hd, hlow⟩, rfl⟩ := ha
  rw [hd, himm, ← ring_of_lt (toNat_lt_of_shift hlow)] at hw
  exact canon_i hop hw

theorem tmrRd_canon (hop : (opOf w).toNat = 0x15) (h : Dec.common 0x15 w = .ok i) : encodeAction i = some w := by
  rw [Dec.common] at h
  obtain ⟨a, ha, hw, -⟩ := rForm_inv h
  simp only [guard_ok, beq_iff_eq, Except.ok.injEq] at ha
  obtain ⟨hzero, rfl⟩ := ha
  have hfm : ∀ f : BitVec 5, f.extractLsb' 1 4 = 0#4 → (if f.getLsbD 0 then 1#5 else 0#5) = f := by decide
  rw [fm_ext _ (by decide : 1 + 4 ≤ 5)] at hzero
  have hf := hfm _ hzero
  rw [fm_bit w (by decide : 0 < 5)]
  cases hbit : (Dec.fm w).getLsbD 0 <;> rw [hbit] at hf <;> exact canon_r hop hw hf

theorem specRd_canon (hop : (opOf w).toNat = 0x18) (h : Dec.common 0x18 w = .ok i) : encodeAction i = some w := by
  rw [Dec.common] at h
  obtain ⟨a, ha, hw, himm⟩ := iForm_inv h
  simp only [guard_ok, beq_iff_eq] at ha
  obtain ⟨hsa, hi⟩ := ha
  split at hi <;> cases hi
  next s hs =>
  rw [hsa, himm, ← specReg_dec hs] at hw
  exact canon_i hop hw

theorem specWr_canon (hop : (opOf w).toNat = 0x19) (h : Dec.common 0x19 w = .ok i) : encodeAction i = some w := by
  rw [Dec.common] at h
  obtain ⟨a, ha, hw, himm⟩ := iForm_inv h
  simp only [guard_ok, beq_iff_eq] at ha
  obtain ⟨hd, hi⟩ := ha
  split at hi <;> cases hi
  next s hs =>
  rw [hd, himm, ← specReg_dec hs] at hw
  exact canon_i hop hw

theorem waveNx_canon (hop : (opOf w).toNat = 0x1A) (h : Dec.common 0x1A w = .ok i) : encodeAction i = some w := by
  rw [Dec.common] at h
  obtain ⟨a, ha, hw, himm⟩ := iForm_inv h
  simp only [guard_ok, Bool.and_eq_true, beq_iff_eq, Except.ok.injEq] at ha
  obtain ⟨⟨⟨hd, hsa⟩, hzero⟩, rfl⟩ := ha
  rw [hd, hsa, himm, hzero] at hw
  exact canon_i hop hw

/-! ### Conversions -/

theorem f2i_canon (hop : (opOf w).toNat = 0x5D) (h : Dec.arith 0x5D w = .ok i) : encodeAction i = some w := by
  rw [Dec.arith] at h
  obtain ⟨a, b, c, -, hi, hw⟩ := rBits_inv h
  simp only [guard_ok, beq_iff_eq, Except.ok.injEq] at hi
  obtain ⟨hzero, rfl⟩ := hi
  have hbits : ∀ b : BitVec 4, b.extractLsb' 0 2 = 0#2 → Enc.bit (b.getLsbD 3) ++ Enc.bit (b.getLsbD 2) ++ 0#2 = b := by decide
  exact canon_rb hop hw (hbits b hzero)

theorem i2f_canon (hop : (opOf w).toNat = 0x5E) (h : Dec.arith 0x5E w = .ok i) : encodeAction i = some w := by
  rw [Dec.arith] at h
  obtain ⟨a, b, c, -, hi, hw⟩ := rBits_inv h
  simp only [guard_ok, beq_iff_eq, Except.ok.injEq] at hi
  obtain ⟨hzero, rfl⟩ := hi
  have hbits : ∀ b : BitVec 4, b.extractLsb' 0 3 = 0#3 → Enc.bit (b.getLsbD 3) ++ 0#3 = b := by decide
  exact canon_rb hop hw (hbits b hzero)

theorem frnd_canon (hop : (opOf w).toNat = 0x5F) (h : Dec.arith 0x5F w = .ok i) : encodeAction i = some w := by
  rw [Dec.arith] at h
  obtain ⟨a, b, c, -, hi, hw⟩ := rBits_inv h
  rw [opOf_of_toNat hop] at hw
  split at hi
  case isTrue hcode =>
    have hbits : ∀ b : BitVec 4, b.getLsbD 3 = true → b = BitVec.ofNat 4 (8 + (b.extractLsb' 0 3).toNat) := by decide
    have hb := hbits b hcode
    split at hi <;> cases hi <;> next hval => rw [hval] at hb; rw [hb] at hw; exact congrArg some hw.symm
  case isFalse hcode =>
    have hbits : ∀ b : BitVec 4, b.getLsbD 3 = false → b.extractLsb' 0 3 = 0#3 → b = 0#4 := by decide
    simp only [guard_ok, beq_iff_eq, Except.ok.injEq] at hi
    obtain ⟨hzero, rfl⟩ := hi
    rw [hbits b (Bool.eq_false_iff.2 hcode) hzero] at hw
    exact congrArg some hw.symm

/-! ### Memory -/

theorem ld_canon (hop : (opOf w).toNat = 0x68) (h : Dec.memory 0x68 w = .ok i) : encodeAction i = some w := by
  simp only [Dec.memory, guard_ok, beq_iff_eq, Except.ok.injEq] at h
  obtain ⟨hzero, rfl⟩ := h
  have hlow : ∀ x : BitVec 7, x.extractLsb' 0 6 = 0#6 → Enc.bit (x.getLsbD 6) ++ 0#3 = x.extractLsb' 3 4 ∧ 0#3 = x.extractLsb' 0 3 := by decide
  have hfields := hlow (w.extractLsb' 0 7) ((sub_ext (p := 0) (s := 0) rfl (by decide)).symm.trans hzero)
  have hbit : w.getLsbD 6 = (w.extractLsb' 0 7).getLsbD 6 := sub_bit (p := 0) (s := 6) rfl (by decide)
  rw [← hbit] at hfields
  exact canon_m hop rfl (hfields.1.trans (sub_ext (p := 0) (s := 3) rfl (by decide)).symm) (hfields.2.trans (sub_ext (p := 0) (s := 0) rfl (by decide)).symm)

/-- Bits of an M-form that its entry leaves 0. -/
theorem m_low_zero (h : w.extractLsb' 0 7 = 0#7) : 0#4 = w.extractLsb' 3 4 ∧ 0#3 = w.extractLsb' 0 3 :=
  ⟨(sub_ext (p := 0) (s := 3) h (by decide)).symm, (sub_ext (p := 0) (s := 0) h (by decide)).symm⟩

/-- Size and order of a fence or a seal are 0. -/
theorem mAct_bare (h : w.extractLsb' 9 4 = 0#4) : (Dec.mAct w).size = .b1 ∧ (Dec.mAct w).ord = .plain := by
  have hsize : w.extractLsb' 11 2 = 0#2 := sub_ext (s := 2) h (by decide)
  have hord : w.extractLsb' 9 2 = 0#2 := sub_ext (s := 0) h (by decide)
  unfold Dec.mAct
  rw [hsize, hord]
  exact ⟨rfl, rfl⟩

theorem st_canon (hop : (opOf w).toNat = 0x69) (h : Dec.memory 0x69 w = .ok i) : encodeAction i = some w := by
  simp only [Dec.memory, guard_ok, beq_iff_eq, Except.ok.injEq] at h
  obtain ⟨hzero, rfl⟩ := h
  exact canon_m hop rfl (m_low_zero hzero).1 (m_low_zero hzero).2

theorem amo_canon (hop : (opOf w).toNat = 0x6A) (h : Dec.memory 0x6A w = .ok i) : encodeAction i = some w := by
  simp only [Dec.memory] at h
  split at h <;> cases h
  next o ho =>
  exact canon_m hop rfl (atomOp_dec ho) (fcs_dec _)

theorem amoCas_canon (hop : (opOf w).toNat = 0x6B) (h : Dec.memory 0x6B w = .ok i) : encodeAction i = some w := by
  simp only [Dec.memory, guard_ok, beq_iff_eq, Except.ok.injEq] at h
  obtain ⟨hzero, rfl⟩ := h
  exact canon_m hop rfl (m_low_zero hzero).1 (m_low_zero hzero).2

theorem red_canon (hop : (opOf w).toNat = 0x6C) (h : Dec.memory 0x6C w = .ok i) : encodeAction i = some w := by
  simp only [Dec.memory] at h
  split at h <;> cases h
  next o ho =>
  exact canon_m hop rfl (atomOp_dec ho) (fcs_dec _)

theorem wfence_canon (hop : (opOf w).toNat = 0x6D) (h : Dec.memory 0x6D w = .ok i) : encodeAction i = some w := by
  simp only [Dec.memory, guard_ok, Bool.and_eq_true, beq_iff_eq, Except.ok.injEq] at h
  obtain ⟨⟨⟨⟨hbare, hzero⟩, hsa⟩, hsb⟩, rfl⟩ := h
  refine canon_m hop ?_ (m_low_zero hzero).1 (m_low_zero hzero).2
  rw [← hsa, ← (mAct_bare hbare).1, ← (mAct_bare hbare).2]
  exact congrArg (fun b => MAct.mk _ _ b _ _ _) (hsa.trans hsb.symm)

theorem mseal_canon (hop : (opOf w).toNat = 0x6E) (h : Dec.memory 0x6E w = .ok i) : encodeAction i = some w := by
  simp only [Dec.memory, guard_ok, Bool.and_eq_true, beq_iff_eq, Except.ok.injEq] at h
  obtain ⟨⟨⟨hbare, hzero⟩, hscope⟩, rfl⟩ := h
  refine canon_m hop ?_ (m_low_zero hzero).1 (m_low_zero hzero).2
  rw [← hscope, ← (mAct_bare hbare).1, ← (mAct_bare hbare).2]

theorem munseal_canon (hop : (opOf w).toNat = 0x6F) (h : Dec.memory 0x6F w = .ok i) : encodeAction i = some w := by
  simp only [Dec.memory, guard_ok, Bool.and_eq_true, beq_iff_eq, Except.ok.injEq] at h
  obtain ⟨⟨⟨⟨hbare, hzero⟩, hscope⟩, hsb⟩, rfl⟩ := h
  refine canon_m hop ?_ (m_low_zero hzero).1 (m_low_zero hzero).2
  rw [← hscope, ← hsb, ← (mAct_bare hbare).1, ← (mAct_bare hbare).2]

/-! ### Privileged instructions and the endpoint's own -/

theorem fltRd_canon (hop : (opOf w).toNat = 0x70) (h : Dec.privileged 0x70 w = .ok i) : encodeAction i = some w := by
  rw [Dec.privileged] at h
  obtain ⟨a, ha, hw, -⟩ := rForm_inv h
  simp only [guard_ok, Bool.and_eq_true, beq_iff_eq, RAct.plain, Except.ok.injEq, Bool.not_eq_true'] at ha
  obtain ⟨⟨⟨⟨hsa, hsb⟩, htag, hpeek⟩, hfm⟩, rfl⟩ := ha
  have hflt : Enc.r 0x70 a 0 = Enc.rWord 0x70 (Enc.dst a.dst) 12 12 0 (Enc.upd a.upd) false 0 := by rw [Enc.r, hsa, hsb, htag, hpeek]; rfl
  exact (congrArg some hflt.symm).trans (canon_r hop hw hfm.symm)

theorem rpr_canon (hop : (opOf w).toNat = 0x71) (h : Dec.privileged 0x71 w = .ok i) : encodeAction i = some w := by
  rw [Dec.privileged] at h
  obtain ⟨a, ha, hw, -⟩ := rForm_inv h
  simp only [guard_ok, beq_iff_eq, Except.ok.injEq] at ha
  obtain ⟨hzero, hi⟩ := ha
  have hfm : ∀ f : BitVec 5, f.extractLsb' 2 3 = 0#3 → 0#3 ++ f.extractLsb' 0 2 = f := by decide
  rw [fm_ext _ (by decide : 2 + 3 ≤ 5)] at hzero
  rw [fm_ext _ (by decide : 0 + 2 ≤ 5)] at hi
  have hf := hfm _ hzero
  revert hi hf
  generalize (Dec.fm w).extractLsb' 0 2 = y
  intro hi hf
  subst hi
  match y with
  | 0#2 | 1#2 | 2#2 | 3#2 => exact canon_r hop hw hf

theorem rqInj_canon (hop : (opOf w).toNat = 0x74) (h : Dec.privileged 0x74 w = .ok i) : encodeAction i = some w := by
  rw [Dec.privileged] at h
  obtain ⟨a, ha, hw, -⟩ := rForm_inv h
  simp only [guard_ok, beq_iff_eq, Except.ok.injEq] at ha
  obtain ⟨hzero, rfl⟩ := ha
  have hfm : ∀ f : BitVec 5, f.extractLsb' 1 4 = 0#4 → 0#4 ++ Enc.bit (f.getLsbD 0) = f := by decide
  rw [fm_ext _ (by decide : 1 + 4 ≤ 5)] at hzero
  rw [fm_bit w (by decide : 0 < 5)]
  exact canon_r hop hw (hfm _ hzero)

theorem tlbInv_canon (hop : (opOf w).toNat = 0x77) (h : Dec.privileged 0x77 w = .ok i) : encodeAction i = some w := by
  rw [Dec.privileged] at h
  obtain ⟨a, ha, hw, -⟩ := rForm_inv h
  simp only [guard_ok, beq_iff_eq] at ha
  obtain ⟨hzero, hi⟩ := ha
  have hfm : ∀ f : BitVec 5, f.extractLsb' 2 3 = 0#3 → BitVec.ofNat 5 (f.extractLsb' 0 2).toNat = f := by decide
  rw [fm_ext _ (by decide : 2 + 3 ≤ 5)] at hzero
  rw [fm_ext _ (by decide : 0 + 2 ≤ 5)] at hi
  have hf := hfm _ hzero
  split at hi <;> cases hi <;> next hval => rw [hval] at hf; exact canon_r hop hw hf

theorem wpArm_canon (hop : (opOf w).toNat = 0x25) (h : Dec.endpoint 0x25 w = .ok i) : encodeAction i = some w := by
  rw [Dec.endpoint] at h
  obtain ⟨a, ha, hw, -⟩ := rForm_inv h
  simp only [guard_ok, beq_iff_eq, Except.ok.injEq] at ha
  obtain ⟨hzero, hi⟩ := ha
  have hfm : ∀ f : BitVec 5, f.extractLsb' 3 2 = 0#2 → 0#2 ++ f.extractLsb' 1 2 ++ BitVec.ofNat 1 (if f.getLsbD 0 then 1 else 0 : Fin 2).val = f := by decide
  rw [fm_ext _ (by decide : 3 + 2 ≤ 5)] at hzero
  rw [fm_ext _ (by decide : 1 + 2 ≤ 5), fm_bit w (by decide : 0 < 5)] at hi
  have hf := hfm _ hzero
  revert hi hf
  generalize (Dec.fm w).extractLsb' 1 2 = y
  intro hi hf
  subst hi
  match y with
  | 0#2 | 1#2 | 2#2 | 3#2 => exact canon_r hop hw hf

theorem sbar_canon (hop : (opOf w).toNat = 0x22) (h : Dec.endpoint 0x22 w = .ok i) : encodeAction i = some w := by
  rw [Dec.endpoint] at h
  obtain ⟨a, ha, hw, himm⟩ := iForm_inv h
  simp only [guard_ok, Bool.and_eq_true, beq_iff_eq, Except.ok.injEq] at ha
  obtain ⟨⟨⟨hd, hsa⟩, hlow⟩, rfl⟩ := ha
  rw [hd, hsa, himm, append_low (a := 4) (b := 8) (toNat_lt_of_shift hlow)] at hw
  exact canon_i hop hw

/-! ### Engine commands -/

theorem drillPush_canon (hop : (opOf w).toNat = 0x2B) (h : Dec.engine 0x2B w = .ok i) : encodeAction i = some w := by
  simp only [Dec.engine, Dec.eForm, guard_ok, beq_iff_eq] at h
  obtain ⟨hmask, hi⟩ := h
  have hlt := toNat_lt_of_mask (n := 4) hmask
  have hval : (w.extractLsb' 0 4).toNat = (w.extractLsb' 0 11).toNat := by
    rw [show w.extractLsb' 0 4 = (w.extractLsb' 0 11).extractLsb' 0 4 from sub_ext (p := 0) (s := 0) rfl (by decide), BitVec.extractLsb'_toNat]
    exact Nat.mod_eq_of_lt hlt
  split at hi <;> cases hi
  refine canon_e hop (BitVec.eq_of_toNat_eq ?_)
  show (w.extractLsb' 0 4).toNat % 2 ^ 11 = _
  rw [hval, Nat.mod_eq_of_lt (BitVec.isLt _)]

theorem sig_canon (hop : (opOf w).toNat = 0x2C) (h : Dec.engine 0x2C w = .ok i) : encodeAction i = some w := by
  simp only [Dec.engine, Dec.eForm, guard_ok, beq_iff_eq, Except.ok.injEq] at h
  obtain ⟨-, rfl⟩ := h
  refine canon_e hop ?_
  rw [bit_ext]
  exact ext_join w 0 1 10

theorem adPf_canon (hop : (opOf w).toNat = 0x2D) (h : Dec.engine 0x2D w = .ok i) : encodeAction i = some w := by
  simp only [Dec.engine, Dec.eForm, guard_ok, beq_iff_eq, Except.ok.injEq] at h
  obtain ⟨hmask, rfl⟩ := h
  refine canon_e hop ?_
  have hlow := append_low (a := 7) (b := 4) (x := w.extractLsb' 0 11) (toNat_lt_of_mask (n := 4) hmask)
  rw [show w.extractLsb' 2 2 = (w.extractLsb' 0 11).extractLsb' 2 2 from sub_ext (p := 0) (s := 2) rfl (by decide),
    show w.getLsbD 1 = (w.extractLsb' 0 11).getLsbD 1 from sub_bit (p := 0) (s := 1) rfl (by decide),
    show w.getLsbD 0 = (w.extractLsb' 0 11).getLsbD 0 from sub_bit (p := 0) (s := 0) rfl (by decide), hlow]
  generalize (w.extractLsb' 0 11).setWidth 4 = y
  revert y
  decide

/-! ### Matrix elements -/

theorem mma_fields {a : MmaAct} (hop : opOf w = 0x20#7) (hflow : flowCode a.flow = w.extractLsb' 23 2) (han : BitVec.ofNat 2 a.an.val = w.extractLsb' 21 2)
    (hsa : Enc.src a.sa = w.extractLsb' 17 4) (hsb : Enc.src a.sb = w.extractLsb' 13 4) (hids : idsCode a.ids = w.extractLsb' 10 3)
    (hupd : Enc.upd a.upd = w.extractLsb' 5 5) (htb : Enc.bit a.tb = w.extractLsb' 4 1) (hz : 0#1 = w.extractLsb' 3 1)
    (hfcs : Enc.fcs a.fcs = w.extractLsb' 0 3) : encodeAction (.mma a) = some w := by
  show some (Enc.mma a) = some w
  rw [mma_eq, hflow, han, hsa, hsb, hids, hupd, htb, hz, hfcs, mmaWord_word hop]

/-- The id source that two bits of an `mma` name, as `mmaForm` reads them. -/
def idsOf (b : BitVec 2) : Ids :=
  match b.toNat with
  | 0 => .none
  | 1 => .i0
  | 2 => .i1
  | _ => .rows

theorem mma_canon (hop : (opOf w).toNat = 0x20) (h : Dec.mmaForm w = .ok i) : encodeAction i = some w := by
  have hids : ∀ b : BitVec 3, (b.getLsbD 2 == (b.extractLsb' 0 2 != 0#2)) = true → idsCode (idsOf (b.extractLsb' 0 2)) = b := by decide
  have hfin : ∀ b : BitVec 2, BitVec.ofNat 2 (Dec.fin4 b).val = b := by decide
  have hflow : ∀ (b : BitVec 2) (f : Flow), b.toNat = (flowCode f).toNat → flowCode f = b := fun b f hb => BitVec.eq_of_toNat_eq hb.symm
  simp only [Dec.mmaForm, guard_ok, Bool.not_eq_true'] at h
  obtain ⟨hz, had, hi⟩ := h
  have hlow : w.extractLsb' 10 2 = (w.extractLsb' 10 3).extractLsb' 0 2 := sub_ext (p := 10) (s := 0) rfl (by decide)
  rw [show w.getLsbD 12 = (w.extractLsb' 10 3).getLsbD 2 from sub_bit (p := 10) (s := 2) rfl (by decide), hlow] at had
  have hcode := hids _ had
  rw [← hlow] at hcode
  have hzero : 0#1 = w.extractLsb' 3 1 := by rw [← bit_ext, hz]; rfl
  split at hi
  case h_1 => cases hi
  case h_2 u hu =>
    have hupd : Enc.upd u = w.extractLsb' 5 5 := (upd_dec hu).trans (ext_join w 5 2 3)
    split at hi <;> cases hi <;> next hval =>
      exact mma_fields (opOf_of_toNat hop) (hflow _ _ hval) (hfin _) (src_dec _) (src_dec _) hcode hupd (bit_ext w 4) hzero (fcs_dec _)

end

end Sys2Proof.Laws
end

section
/-!
PROOF. A word that decodes is the encoding of the action that it decodes to, which is legal (spec 04 R66 to R81): each table of the opcode map by its rows, and
from these the obligation ActionWordsAreCanonical.
-/

namespace Sys2Proof.Proofs

open Laws

section
variable {w : BitVec 32} {n : Nat} {i : Instr} (hop : (opOf w).toNat = n)
include hop

theorem common_canon (h : Dec.common n w = .ok i) : encodeAction i = some w := by
  have hrow := h
  unfold Dec.common at hrow
  split at hrow
  case h_1 | h_2 | h_4 | h_10 | h_14 => exact canon_plain hop (fun _ => rfl) hrow
  case h_3 | h_12 | h_13 | h_15 | h_23 | h_24 => exact canon_imm hop (fun _ => rfl) hrow
  case h_5 | h_6 | h_7 | h_8 => exact canon_pred hop (fun _ _ _ => rfl) hrow
  case h_9 => exact eos_canon hop h
  case h_11 => exact canon_num hop (fun _ _ => rfl) hrow
  case h_16 => exact rest_canon hop h
  case h_17 => exact barArv_canon hop h
  case h_18 => exact barWch_canon hop h
  case h_19 => exact barMem_canon hop h
  case h_20 => exact stgAcq_canon hop h
  case h_21 => exact stgRel_canon hop h
  case h_22 => exact tmrRd_canon hop h
  case h_25 => exact specRd_canon hop h
  case h_26 => exact specWr_canon hop h
  case h_27 => exact waveNx_canon hop h
  case h_28 => cases hrow

theorem arith_canon (h : Dec.arith n w = .ok i) : encodeAction i = some w := by
  have hrow := h
  unfold Dec.arith at hrow
  split at hrow
  case h_1 | h_2 | h_4 | h_5 | h_6 | h_7 | h_8 | h_9 | h_10 | h_11 | h_12 | h_13 | h_14 | h_15 | h_16 | h_17 | h_18 | h_19 | h_20 | h_21 | h_23 | h_24
      | h_25 | h_26 | h_27 | h_28 | h_29 | h_32 | h_33 | h_34 | h_35 | h_36 | h_37 | h_38 | h_39 | h_40 | h_41 | h_42 | h_43 =>
    exact canon_int hop (fun _ _ => rfl) hrow
  case h_3 | h_22 => exact canon_imm hop (fun _ => rfl) hrow
  case h_30 | h_31 => exact canon_cmp hop (fun _ _ => rfl) hrow
  case h_44 | h_45 | h_46 | h_47 | h_48 | h_49 | h_50 | h_51 | h_52 | h_53 | h_54 | h_55 | h_60 | h_61 | h_62 | h_63 | h_64 | h_65 | h_66 =>
    exact canon_fp hop (fun _ _ => rfl) hrow
  case h_56 => exact canon_fcs hop (fun _ _ => rfl) hrow
  case h_57 => exact f2i_canon hop h
  case h_58 => exact i2f_canon hop h
  case h_59 => exact frnd_canon hop h
  case h_67 => cases hrow

theorem memory_canon (h : Dec.memory n w = .ok i) : encodeAction i = some w := by
  have hrow := h
  unfold Dec.memory at hrow
  split at hrow
  case h_1 => exact ld_canon hop h
  case h_2 => exact st_canon hop h
  case h_3 => exact amo_canon hop h
  case h_4 => exact amoCas_canon hop h
  case h_5 => exact red_canon hop h
  case h_6 => exact wfence_canon hop h
  case h_7 => exact mseal_canon hop h
  case h_8 => exact munseal_canon hop h
  case h_9 => cases hrow

theorem privileged_canon (h : Dec.privileged n w = .ok i) : encodeAction i = some w := by
  have hrow := h
  unfold Dec.privileged at hrow
  split at hrow
  case h_1 => exact fltRd_canon hop h
  case h_2 => exact rpr_canon hop h
  case h_3 | h_4 | h_6 | h_7 | h_9 | h_10 | h_11 | h_12 | h_14 | h_15 | h_16 => exact canon_plain hop (fun _ => rfl) hrow
  case h_5 => exact rqInj_canon hop h
  case h_8 => exact tlbInv_canon hop h
  case h_13 => exact canon_num hop (fun _ _ => rfl) hrow
  case h_17 => cases hrow

theorem special_canon (h : Dec.special n w = .ok i) : encodeAction i = some w := by
  have hrow := h
  unfold Dec.special at hrow
  split at hrow
  case h_1 | h_2 | h_3 | h_4 | h_5 | h_6 | h_7 | h_8 | h_9 | h_10 | h_11 => exact canon_fp hop (fun _ _ => rfl) hrow
  case h_12 => cases hrow

theorem scratch_canon (h : Dec.scratch n w = .ok i) : encodeAction i = some w := by
  have hrow := h
  unfold Dec.scratch at hrow
  split at hrow
  case h_1 | h_2 | h_3 | h_4 | h_5 | h_6 | h_7 | h_9 | h_10 | h_11 | h_12 | h_13 | h_14 => exact canon_plain hop (fun _ => rfl) hrow
  case h_8 => exact canon_fcs hop (fun _ _ => rfl) hrow
  case h_15 => cases hrow

theorem endpoint_canon (h : Dec.endpoint n w = .ok i) : encodeAction i = some w := by
  have hrow := h
  unfold Dec.endpoint at hrow
  split at hrow
  case h_1 | h_2 | h_4 => exact canon_num hop (fun _ _ => rfl) hrow
  case h_3 => exact sbar_canon hop h
  case h_5 | h_7 => exact canon_plain hop (fun _ => rfl) hrow
  case h_6 => exact wpArm_canon hop h
  case h_8 => cases hrow

theorem engine_canon (h : Dec.engine n w = .ok i) : encodeAction i = some w := by
  have hrow := h
  unfold Dec.engine at hrow
  split at hrow
  case h_1 | h_2 | h_3 | h_4 | h_5 | h_6 | h_10 | h_11 => exact canon_engine hop (fun _ => rfl) hrow
  case h_7 | h_8 | h_9 => exact canon_engineFcs hop (fun _ _ => rfl) hrow
  case h_12 => exact drillPush_canon hop h
  case h_13 => exact sig_canon hop h
  case h_14 => exact adPf_canon hop h
  case h_15 => cases hrow

theorem matrix_canon (h : Dec.matrix n w = .ok i) : encodeAction i = some w := by
  have hrow := h
  unfold Dec.matrix at hrow
  split at hrow
  case h_1 => exact mma_canon hop hrow
  case h_2 | h_4 | h_6 | h_7 | h_8 => exact canon_matrix hop (fun _ => rfl) hrow
  case h_3 | h_5 => exact canon_matrixFcs hop (fun _ _ => rfl) hrow
  case h_9 => cases hrow

/-- Whichever table a kind reads an opcode in, the word is the encoding of what it decodes to. -/
theorem byKind_canon {k : Kind} {hl : Bool} (h : Dec.byKind k hl n w = .ok i) : encodeAction i = some w := by
  unfold Dec.byKind at h
  split at h
  · exact common_canon hop h
  · cases k with
    | ce =>
      dsimp only at h
      split at h
      · exact arith_canon hop h
      · split at h
        · exact memory_canon hop h
        · split at h
          · exact privileged_canon hop h
          · cases h
    | fe =>
      dsimp only at h
      split at h
      · exact arith_canon hop h
      · split at h
        · exact special_canon hop h
        · cases h
    | le =>
      dsimp only at h
      split at h
      · exact endpoint_canon hop h
      · exact memory_canon hop h
    | se => exact scratch_canon hop h
    | xe => exact engine_canon hop h
    | me => exact matrix_canon hop h

end

/-- Settles O47: the row that decodes a word gives an action whose encoding the word is, by `byKind_canon`. -/
theorem actionWordsAreCanonical : Obligations.ActionWordsAreCanonical := by
  unfold Obligations.ActionWordsAreCanonical
  intro k hl w i h
  obtain ⟨hrow, hwf⟩ := decodeAction_ok.1 h
  exact ⟨hwf, byKind_canon rfl hrow⟩

end Sys2Proof.Proofs
end

section
/-!
SUPPORT. The trigger word (spec 04 R63, R64): which words have a trigger, the trigger of each, and that its word is the one that it was decoded from.
-/

namespace Sys2Proof.Laws

/-- The trigger of a word, its width apart. -/
def trigOf (w : BitVec 32) (wd : Width) : Trig :=
  { pc := Dec.fin4 (w.extractLsb' 28 2), w := wd, ic := w.extractLsb' 21 4,
    test := if w.getLsbD 20 then some ⟨w.getLsbD 19, Dec.tag (w.extractLsb' 16 3)⟩ else none, pm := w.extractLsb' 8 8, pv := w.extractLsb' 0 8 }

/-- The words that have a trigger: bit 30 is 0, the width code names a width, and the fields of the tag test are 0 where there is none. -/
theorem decodeTrig_ok {w : BitVec 32} {t : Trig} :
    decodeTrig w = .ok t ↔
      w.getLsbD 30 = false ∧ (w.getLsbD 20 || w.extractLsb' 16 4 == 0#4) = true ∧ ∃ wd, Enc.width wd = w.extractLsb' 25 3 ∧ trigOf w wd = t := by
  have hwidth : ∀ wd : Width, (Enc.width wd).toNat = (w.extractLsb' 25 3).toNat → Enc.width wd = w.extractLsb' 25 3 := fun _ => BitVec.eq_of_toNat_eq
  constructor
  · intro h
    unfold decodeTrig at h
    dsimp only at h
    split at h
    · cases h
    next h30 =>
    refine ⟨Bool.eq_false_iff.2 h30, ?_⟩
    split at h
    case h_1 hw | h_2 hw | h_3 hw | h_4 hw | h_5 hw =>
      split at h
      case isFalse => cases h
      case isTrue htest =>
        refine ⟨htest, _, ?_, Except.ok.inj h⟩
        exact hwidth _ hw.symm
    case h_6 => cases h
  · rintro ⟨h30, htest, wd, hw, rfl⟩
    unfold decodeTrig
    dsimp only
    rw [h30, htest, ← hw]
    cases wd <;> rfl

/-- The code of a tag test. -/
def testCode : Option TagTest → BitVec 5
  | some q => 1#1 ++ Enc.bit q.neg ++ Enc.tag q.tag
  | none => 0#5

/-- A word in the layout of a trigger. -/
def trigWord (v z : BitVec 1) (pc : BitVec 2) (wd : BitVec 3) (ic : BitVec 4) (q : BitVec 5) (pm pv : BitVec 8) : BitVec 32 :=
  v ++ z ++ pc ++ wd ++ ic ++ q ++ pm ++ pv

theorem encodeTrig_eq (t : Trig) : encodeTrig t = trigWord 1#1 0#1 (BitVec.ofNat 2 t.pc.val) (Enc.width t.w) t.ic (testCode t.test) t.pm t.pv := by
  rcases t with ⟨pc, w, ic, test, pm, pv⟩
  cases test <;> rfl

theorem trigWord_fields (v z : BitVec 1) (pc : BitVec 2) (wd : BitVec 3) (ic : BitVec 4) (q : BitVec 5) (pm pv : BitVec 8) :
    let w := trigWord v z pc wd ic q pm pv
    w.extractLsb' 31 1 = v ∧ w.extractLsb' 30 1 = z ∧ w.extractLsb' 28 2 = pc ∧ w.extractLsb' 25 3 = wd ∧ w.extractLsb' 21 4 = ic ∧
    w.extractLsb' 16 5 = q ∧ w.extractLsb' 8 8 = pm ∧ w.extractLsb' 0 8 = pv := by
  have hcast : trigWord v z pc wd ic q pm pv = BitVec.cast (by decide) (v ++ z ++ pc ++ wd ++ ic ++ q ++ pm ++ pv) := rfl
  simp (disch := decide) only [hcast, ext_cast, app_lo, app_hi, Nat.reduceSub, ext_all, and_self]

/-- A trigger word is made of its fields. -/
theorem trigWord_word (w : BitVec 32) : trigWord (w.extractLsb' 31 1) (w.extractLsb' 30 1) (w.extractLsb' 28 2) (w.extractLsb' 25 3) (w.extractLsb' 21 4)
    (w.extractLsb' 16 5) (w.extractLsb' 8 8) (w.extractLsb' 0 8) = w := by
  unfold trigWord
  rw [show w.extractLsb' 31 1 ++ w.extractLsb' 30 1 = w.extractLsb' 30 (1 + 1) from ext_join w 30 1 1,
    show w.extractLsb' 30 (1 + 1) ++ w.extractLsb' 28 2 = w.extractLsb' 28 (1 + 1 + 2) from ext_join w 28 2 2,
    show w.extractLsb' 28 (1 + 1 + 2) ++ w.extractLsb' 25 3 = w.extractLsb' 25 (1 + 1 + 2 + 3) from ext_join w 25 4 3,
    show w.extractLsb' 25 (1 + 1 + 2 + 3) ++ w.extractLsb' 21 4 = w.extractLsb' 21 (1 + 1 + 2 + 3 + 4) from ext_join w 21 7 4,
    show w.extractLsb' 21 (1 + 1 + 2 + 3 + 4) ++ w.extractLsb' 16 5 = w.extractLsb' 16 (1 + 1 + 2 + 3 + 4 + 5) from ext_join w 16 11 5,
    show w.extractLsb' 16 (1 + 1 + 2 + 3 + 4 + 5) ++ w.extractLsb' 8 8 = w.extractLsb' 8 (1 + 1 + 2 + 3 + 4 + 5 + 8) from ext_join w 8 16 8,
    show w.extractLsb' 8 (1 + 1 + 2 + 3 + 4 + 5 + 8) ++ w.extractLsb' 0 8 = w.extractLsb' 0 (1 + 1 + 2 + 3 + 4 + 5 + 8 + 8) from ext_join w 0 24 8]
  exact ext_all w

theorem encodeTrig_bit31 (t : Trig) : (encodeTrig t).getLsbD 31 = true := by
  rw [encodeTrig_eq]
  exact sub_bit (s := 0) (trigWord_fields ..).1 (by decide)

theorem decodeTrig_encodeTrig (t : Trig) : decodeTrig (encodeTrig t) = .ok t := by
  have hcode : ∀ q : Option TagTest, ((testCode q).getLsbD 4 || (testCode q).extractLsb' 0 4 == 0#4) = true ∧
      (if (testCode q).getLsbD 4 then some ⟨(testCode q).getLsbD 3, Dec.tag ((testCode q).extractLsb' 0 3)⟩ else none) = q := by
    rintro (_ | ⟨neg, tag⟩)
    · decide
    · cases neg <;> cases tag <;> decide
  have hfin : ∀ n : Fin 4, Dec.fin4 (BitVec.ofNat 2 n.val) = n := by decide
  rw [encodeTrig_eq]
  obtain ⟨-, hz, hpc, hwd, hic, hq, hpm, hpv⟩ := trigWord_fields 1#1 0#1 (BitVec.ofNat 2 t.pc.val) (Enc.width t.w) t.ic (testCode t.test) t.pm t.pv
  generalize trigWord 1#1 0#1 (BitVec.ofNat 2 t.pc.val) (Enc.width t.w) t.ic (testCode t.test) t.pm t.pv = w at *
  have h20 : w.getLsbD 20 = (testCode t.test).getLsbD 4 := sub_bit (s := 4) hq (by decide)
  have h19 : w.getLsbD 19 = (testCode t.test).getLsbD 3 := sub_bit (s := 3) hq (by decide)
  have h16 : w.extractLsb' 16 4 = (testCode t.test).extractLsb' 0 4 := sub_ext (s := 0) hq (by decide)
  have htag : w.extractLsb' 16 3 = (testCode t.test).extractLsb' 0 3 := sub_ext (s := 0) hq (by decide)
  refine decodeTrig_ok.2 ⟨sub_bit (s := 0) hz (by decide), by rw [h20, h16]; exact (hcode _).1, _, hwd.symm, ?_⟩
  rw [trigOf, h20, h19, htag, hpc, hic, hpm, hpv, hfin, (hcode _).2]

theorem encodeTrig_of_decodeTrig {w : BitVec 32} {t : Trig} (h31 : w.getLsbD 31 = true) (h : decodeTrig w = .ok t) : encodeTrig t = w := by
  have hcode : ∀ b : BitVec 5, (b.getLsbD 4 || b.extractLsb' 0 4 == 0#4) = true →
      testCode (if b.getLsbD 4 then some ⟨b.getLsbD 3, Dec.tag (b.extractLsb' 0 3)⟩ else none) = b := by decide
  have hfin : ∀ b : BitVec 2, BitVec.ofNat 2 (Dec.fin4 b).val = b := by decide
  obtain ⟨h30, htest, wd, hwd, rfl⟩ := decodeTrig_ok.1 h
  have h20 : w.getLsbD 20 = (w.extractLsb' 16 5).getLsbD 4 := sub_bit (p := 16) (s := 4) rfl (by decide)
  have h19 : w.getLsbD 19 = (w.extractLsb' 16 5).getLsbD 3 := sub_bit (p := 16) (s := 3) rfl (by decide)
  have h16 : w.extractLsb' 16 4 = (w.extractLsb' 16 5).extractLsb' 0 4 := sub_ext (p := 16) (s := 0) rfl (by decide)
  have htag : w.extractLsb' 16 3 = (w.extractLsb' 16 5).extractLsb' 0 3 := sub_ext (p := 16) (s := 0) rfl (by decide)
  rw [h20, h16] at htest
  have hv : 1#1 = w.extractLsb' 31 1 := by rw [← bit_ext, h31]; rfl
  have hz : 0#1 = w.extractLsb' 30 1 := by rw [← bit_ext, h30]; rfl
  rw [encodeTrig_eq, trigOf, h20, h19, htag]
  dsimp only
  rw [hfin, hcode _ htest, hwd, hv, hz, trigWord_word]

end Sys2Proof.Laws
end

section
/-!
PROOF. Slot words (spec 04 R63, R64, R74 to R85): the obligation SlotsDecodeAsEncoded, from the round trips of triggers and of actions, and the obligation
IllegalWords, from what the opcode map and the trigger refuse.
-/

namespace Sys2Proof.Proofs

open Laws Say

/-! ### Slots and their words -/

/-- The two halves of a slot word. -/
theorem slotWord_halves (t a : BitVec 32) : (t ++ a).extractLsb' 32 32 = t ∧ (t ++ a).extractLsb' 0 32 = a ∧ (t ++ a).getLsbD 63 = t.getLsbD 31 := by
  have hhi : (t ++ a).extractLsb' 32 32 = t := (app_hi t a (Nat.le_refl 32)).trans (ext_all t)
  exact ⟨hhi, (app_lo t a (Nat.le_refl _)).trans (ext_all a), sub_bit (p := 32) (s := 31) hhi (by decide)⟩

section
variable {k : Kind} {hl : Bool} {fan : BitVec 4} {w : BitVec 64} {x : Slot}

theorem trig_wf_of_wf (h : x.wf k hl fan = true) : x.trig.wf k = true := by simp only [Slot.wf, Bool.and_eq_true] at h; tauto
theorem act_wf_of_wf (h : x.wf k hl fan = true) : x.act.wf k hl = true := by simp only [Slot.wf, Bool.and_eq_true] at h; tauto

/-- A slot word has a slot where V is 1, its halves decode, and the slot is legal. -/
theorem decodeSlot_some : decodeSlot k hl fan w = .ok (some x) ↔
    w.getLsbD 63 = true ∧ decodeTrig (w.extractLsb' 32 32) = .ok x.trig ∧ decodeAction k hl (w.extractLsb' 0 32) = .ok x.act ∧ x.wf k hl fan = true := by
  unfold decodeSlot
  by_cases h63 : w.getLsbD 63 = true
  case neg =>
    rw [if_neg h63]
    refine iff_of_false (fun h => ?_) fun h => h63 h.1
    split at h <;> cases h
  rw [if_pos h63]
  cases decodeTrig (w.extractLsb' 32 32) with
  | error e => simp
  | ok t =>
    cases decodeAction k hl (w.extractLsb' 0 32) with
    | error e => simp
    | ok a =>
      dsimp only
      have hslot : Except.ok (some (Slot.mk t a)) = (.ok (some x) : Except Reject (Option Slot)) ↔ t = x.trig ∧ a = x.act := by
        rw [Except.ok.injEq, Option.some.injEq]
        exact ⟨fun h => h ▸ ⟨rfl, rfl⟩, fun h => h.1 ▸ h.2 ▸ rfl⟩
      simp only [Except.ok.injEq, h63, true_and]
      constructor
      · intro h
        split at h
        · cases h
        · split at h
          · next hwf =>
            obtain ⟨rfl, rfl⟩ := hslot.1 h
            exact ⟨rfl, rfl, hwf⟩
          · cases h
      · rintro ⟨rfl, rfl, hwf⟩
        have htrig : x.trig.wf k = true := trig_wf_of_wf hwf
        rw [htrig, hwf]
        rfl

/-- Only the word 0 is an invalid slot. -/
theorem decodeSlot_none : decodeSlot k hl fan w = .ok none ↔ w = 0#64 := by
  by_cases h63 : w.getLsbD 63 = true
  · have hne : w ≠ 0#64 := by rintro rfl; simp at h63
    refine iff_of_false (fun h => ?_) hne
    unfold decodeSlot at h
    rw [if_pos h63] at h
    split at h
    · cases h
    · cases h
    · dsimp only at h
      split at h
      · cases h
      · split at h <;> cases h
  · unfold decodeSlot
    rw [if_neg h63]
    split <;> simp_all

end

theorem encodeSlot_of_encodeAction {x : Slot} {a : BitVec 32} (h : encodeAction x.act = some a) : encodeSlot x = some (encodeTrig x.trig ++ a) := by
  unfold encodeSlot
  rw [h]

/-- Settles O48: each half of a slot word by its own round trip. -/
theorem slotsDecodeAsEncoded : Obligations.SlotsDecodeAsEncoded := by
  unfold Obligations.SlotsDecodeAsEncoded
  refine ⟨?encode, ?decode, fun k hl fan w => decodeSlot_none⟩
  case encode =>
    intro k hl fan x hwf
    obtain ⟨a, henc, hact⟩ := actionsDecodeAsEncoded k hl x.act (act_wf_of_wf hwf)
    obtain ⟨hhi, hlo, htop⟩ := slotWord_halves (encodeTrig x.trig) a
    refine ⟨_, encodeSlot_of_encodeAction henc, decodeSlot_some.2 ⟨htop.trans (encodeTrig_bit31 _), ?_, ?_, hwf⟩⟩
    · rw [hhi, decodeTrig_encodeTrig]
    · rw [hlo, hact]
  case decode =>
    intro k hl fan w x h
    obtain ⟨h63, htrig, hact, hwf⟩ := decodeSlot_some.1 h
    have h31 : (w.extractLsb' 32 32).getLsbD 31 = true := (ext_bit w 31 (by decide)).trans h63
    refine ⟨hwf, (encodeSlot_of_encodeAction (actionWordsAreCanonical k hl _ _ hact).2).trans (congrArg some ?_)⟩
    rw [encodeTrig_of_decodeTrig h31 htrig]
    exact (ext_join w 0 32 32).trans (ext_all w)

/-! ### Refused words -/

/-! Each table refuses an opcode that it has no row for. -/

section
variable {n : Nat} (w : BitVec 32)

theorem common_reserved (h : 0x1B ≤ n) : Dec.common n w = .error .reservedOpcode := by
  unfold Dec.common
  split
  case h_28 => rfl
  all_goals omega

theorem arith_reserved (h : (0x4B ≤ n ∧ n ≤ 0x4F) ∨ 0x67 ≤ n) : Dec.arith n w = .error .reservedOpcode := by
  unfold Dec.arith
  split
  case h_67 => rfl
  all_goals omega

theorem memory_reserved (h : 0x70 ≤ n) : Dec.memory n w = .error .reservedOpcode := by
  unfold Dec.memory
  split
  case h_9 => rfl
  all_goals omega

theorem special_reserved (h : 0x7B ≤ n) : Dec.special n w = .error .reservedOpcode := by
  unfold Dec.special
  split
  case h_12 => rfl
  all_goals omega

theorem scratch_reserved (h : 0x2E ≤ n) : Dec.scratch n w = .error .reservedOpcode := by
  unfold Dec.scratch
  split
  case h_15 => rfl
  all_goals omega

theorem endpoint_reserved (h : 0x27 ≤ n) : Dec.endpoint n w = .error .reservedOpcode := by
  unfold Dec.endpoint
  split
  case h_8 => rfl
  all_goals omega

theorem engine_reserved (h : 0x2E ≤ n) : Dec.engine n w = .error .reservedOpcode := by
  unfold Dec.engine
  split
  case h_15 => rfl
  all_goals omega

theorem matrix_reserved (h : 0x28 ≤ n) : Dec.matrix n w = .error .reservedOpcode := by
  unfold Dec.matrix
  split
  case h_9 => rfl
  all_goals omega

end

/-- The opcode map refuses what no instruction of the kind decodes. -/
theorem byKind_reserved {k : Kind} {hl : Bool} {n : Nat} (w : BitVec 32) (h : reservedOp k hl n) : Dec.byKind k hl n w = .error .reservedOpcode := by
  unfold Dec.byKind
  split
  case isTrue h20 =>
    refine common_reserved w ?_
    rcases h with h | h
    · exact h.1
    · cases k <;> dsimp only at h <;> omega
  case isFalse h20 =>
    replace h := h.resolve_left (by omega)
    cases k with
    | ce =>
      dsimp only at h ⊢
      split
      · exact arith_reserved w (by omega)
      · obtain ⟨h70, rfl⟩ : 0x70 ≤ n ∧ hl = false := by
          rcases h with h | h | h
          · omega
          · omega
          · exact h
        exact if_neg (Nat.not_lt.2 h70)
    | fe =>
      dsimp only at h ⊢
      split
      case isTrue hrow => exact arith_reserved w (by simp at hrow; omega)
      case isFalse hrow =>
        split
        · exact special_reserved w (by omega)
        · rfl
    | le =>
      dsimp only at h ⊢
      split
      · exact endpoint_reserved w (by omega)
      · exact memory_reserved w (by omega)
    | se => exact scratch_reserved w h
    | xe => exact engine_reserved w h
    | me => exact matrix_reserved w h

theorem decodeAction_reserved {k : Kind} {hl : Bool} {w : BitVec 32} (h : reservedOp k hl (w.extractLsb' 25 7).toNat) :
    decodeAction k hl w = .error .reservedOpcode := by
  unfold decodeAction
  rw [byKind_reserved w h]

/-- A slot of a word has a legal trigger, of a width that its kind has. -/
theorem not_badTrigger {k : Kind} {w : BitVec 32} {t : Trig} (h : decodeTrig w = .ok t) (hwf : t.wf k = true) : ¬ badTrigger k w := by
  obtain ⟨h30, htest, wd, hwd, rfl⟩ := decodeTrig_ok.1 h
  simp only [Trig.wf, trigOf, Bool.and_eq_true, Bool.or_eq_true, beq_iff_eq, bne_iff_ne] at hwf htest
  obtain ⟨⟨hic, hpv⟩, hwide⟩ := hwf
  rintro (hbit | hcode | ⟨hte, hzero⟩ | ⟨hte, htag⟩ | hpred | ⟨hkind, hcode, hchan⟩)
  · exact Bool.false_ne_true (h30.symm.trans hbit)
  · rw [← hwd] at hcode
    exact absurd hcode (by cases wd <;> decide)
  · simp [hte, hzero] at hic
  · exact htest.elim (fun h20 => Bool.false_ne_true (hte.symm.trans h20)) htag
  · exact hpred hpv
  · have hkinds : k.hasWide = true := by rcases hkind with rfl | rfl | rfl <;> rfl
    have hbeats : ¬wd.beats ≤ 4 := by
      rw [← hwd] at hcode
      cases wd <;> revert hcode <;> decide
    have hhigh : ∀ b : BitVec 4, b.extractLsb' 2 2 = 0#2 → b.getLsbD 2 = false ∧ b.getLsbD 3 = false := by decide
    simp only [hkinds, Bool.not_true, Bool.false_eq_true, decide_eq_true_eq, hbeats, or_self, false_or] at hwide
    obtain ⟨h2, h3⟩ := hhigh _ hwide
    rw [show w.getLsbD 23 = (w.extractLsb' 21 4).getLsbD 2 from sub_bit (p := 21) (s := 2) rfl (by decide),
      show w.getLsbD 24 = (w.extractLsb' 21 4).getLsbD 3 from sub_bit (p := 21) (s := 3) rfl (by decide), h2, h3] at hchan
    simp at hchan

/-- Settles O49: the tables refuse the opcodes that they have no row for, and a word that has a legal slot has none of the illegal triggers. -/
theorem illegalWords : Obligations.IllegalWords := by
  unfold Obligations.IllegalWords
  refine ⟨fun k hl w h => decodeAction_reserved h, ?trigger, ?invalid, ?generation⟩
  case trigger =>
    intro k hl fan w h63 hbad
    cases hdec : decodeSlot k hl fan w with
    | error e => exact ⟨e, rfl⟩
    | ok x =>
      exfalso
      cases x with
      | none =>
        obtain rfl := decodeSlot_none.1 hdec
        simp at h63
      | some x =>
        obtain ⟨-, htrig, -, hwf⟩ := decodeSlot_some.1 hdec
        exact not_badTrigger htrig (trig_wf_of_wf hwf) hbad
  case invalid =>
    intro k hl fan w h63 hne
    unfold decodeSlot
    rw [if_neg (Bool.eq_false_iff.1 h63), if_neg hne]
  case generation =>
    intro g k hl fan n w hn hne
    unfold decodeSlotGen
    rw [if_pos hn, if_neg hne]

end Sys2Proof.Proofs
end

section
/-!
PROOF. The obligations DecodeSanity and ResetState: words written out from the encodings, and the values at reset, each of which the model computes.
-/

namespace Sys2Proof.Proofs

open Laws

/-- Settles O45: the tables compute the action of each word, which is legal. -/
theorem decodeSanity : Obligations.DecodeSanity := by
  unfold Obligations.DecodeSanity
  refine ⟨decodeSlot_some.2 ⟨rfl, rfl, decodeAction_ok.2 ⟨rfl, rfl⟩, rfl⟩, ?_, ?_, ?_, ?_, ?_, ?_, ?_, ?_⟩
  all_goals exact decodeAction_ok.2 ⟨rfl, rfl⟩

/-- Settles O51: no table of the state at reset has an entry, so each register reads the value that it is declared with. -/
theorem resetState : Obligations.ResetState := by
  unfold Obligations.ResetState
  refine ⟨?element, ?context, ?window, ?queue, ?die, ?reeve⟩
  case element => exact fun l => ⟨rfl, rfl, rfl, rfl, rfl⟩
  case context => exact fun n => ⟨rfl, rfl, rfl, rfl⟩
  case window => exact fun n w => ⟨rfl, rfl, rfl, rfl, rfl, rfl, rfl, rfl⟩
  case queue => exact fun q => ⟨rfl, rfl, rfl, rfl, rfl, rfl⟩
  case die => exact fun n => ⟨rfl, rfl, rfl, rfl, rfl⟩
  case reeve => exact ⟨rfl, rfl, rfl, rfl, rfl, rfl, rfl, rfl⟩

end Sys2Proof.Proofs
end

section
/-!
PROOF. What a ready slot and an element that picks meet (spec 04 R64, 08 R132, R133): the parts of each condition by name, and the obligation ReadinessRule.
-/

namespace Sys2Proof.Proofs

open Laws Machine

section
variable {sp : Instr → Option FireSpec} {s : State} {l : Loc} {n : Fin 16} {x : Slot} {c : Fin 4}

theorem mem_ports (c : Fin 4) : c ∈ ports := by revert c; decide

/-- The channel of a tag test is the lowest of IC. -/
theorem testChan_eq_some {ic : BitVec 4} : testChan ic = some c ↔ ic.getLsbD c.val = true ∧ ∀ d : Fin 4, d < c → ic.getLsbD d.val = false := by
  revert ic c
  decide

/-- A test of an IC with a channel has its channel. -/
theorem testChan_isSome {ic : BitVec 4} (h : ic ≠ 0#4) : ∃ c, testChan ic = some c := by
  have hsome : ∀ ic : BitVec 4, ic ≠ 0#4 → (testChan ic).isSome = true := by decide
  exact Option.isSome_iff_exists.1 (hsome ic h)

/-- What a ready slot meets: its trigger and the conditions of its action, in a legal slot. -/
theorem slotReady_meets (h : slotReady sp s l n = some x) :
    trigTrue s l x.trig = true ∧ actReady sp s l n x.trig.w.beats x.act = true ∧ x.trig.wf (Machine.getElem s l).kind = true := by
  have hwf := trig_wf_of_wf (decodeSlot_some.1 (decodeSlot_of_slotReady h)).2.2.2
  unfold slotReady at h
  dsimp only at h
  split at h
  case h_2 => cases h
  case h_1 y hy =>
    obtain ⟨hall, hyx⟩ := Option.ite_none_right_eq_some.1 h
    obtain rfl : y = x := Option.some.inj hyx
    simp only [Bool.and_eq_true] at hall
    exact ⟨hall.1.2, hall.2, hwf⟩

/-- A trigger that holds: its predicates, its channels and its test. -/
theorem trigTrue_meets {t : Trig} (h : trigTrue s l t = true) :
    (Machine.getElem s l).p &&& t.pm = t.pv ∧
    (∀ c : Fin 4, t.ic.getLsbD c.val = true → t.w.beats ≤ (headTokens s l c).length ∧ (headFault s l c = true → testsFault t c = true)) ∧
    tagTestOk s l t = true := by
  unfold trigTrue at h
  simp only [Bool.and_eq_true, beq_iff_eq] at h
  obtain ⟨⟨hp, hports⟩, htest⟩ := h
  refine ⟨hp, fun c hc => ?_, htest⟩
  have hport := List.all_eq_true.1 hports c (mem_ports c)
  simp only [hc, Bool.not_true, Bool.false_or, Bool.and_eq_true, decide_eq_true_eq, Bool.or_eq_true, Bool.not_eq_true'] at hport
  exact ⟨hport.1, fun hf => hport.2.resolve_left (by simp [hf])⟩

/-- A tag test that holds compares the head of the lowest channel of IC. -/
theorem tagTestOk_meets {t : Trig} {q : TagTest} (hq : t.test = some q) (hc : testChan t.ic = some c) (h : tagTestOk s l t = true) :
    ∃ tok, headToken s l c = some tok ∧ (tok.tag = q.tag ↔ q.neg = false) := by
  unfold tagTestOk at h
  rw [hq, hc] at h
  dsimp only at h
  split at h
  case h_2 => cases h
  case h_1 tok htok =>
    refine ⟨tok, htok, ?_⟩
    cases hneg : q.neg <;> simp_all

/-- The conditions of an action count room for every beat, which the cursor of the firing to come does not change. -/
theorem roomFor_of_actReady {w : Nat} {i : Instr} {f : FireSpec} (hf : sp i = some f) (h : actReady sp s l n w i = true) : roomFor s l f.dst w = true := by
  unfold actReady at h
  rw [hf] at h
  unfold beatReady at h
  simp only [Bool.and_eq_true] at h
  exact h.1.2

theorem elemPicks_meets (h : elemPicks s l = true) :
    (Machine.getElem s l).present = true ∧ (Machine.getElem s l).blocked = false ∧ (Machine.getElem s l).cfgFrozen = false ∧ (getPlot s l.plot).started = true ∧
    plotFrozen s l.plot = false ∧ midFiring (Machine.getElem s l) = false ∧ (Machine.getElem s l).resting = false ∧ (Machine.getElem s l).rq.length < 16 := by
  simp only [elemPicks, elemIdle, elemLives, Bool.and_eq_true, Bool.not_eq_true', decide_eq_true_eq] at h
  tauto

end

/-- Settles O55: each conjunct is a part of the trigger's, the action's or the element's condition. -/
theorem readinessRule : Obligations.ReadinessRule := by
  unfold Obligations.ReadinessRule
  refine ⟨fun sp s l n x h => ?_, fun s l h => elemPicks_meets h⟩
  obtain ⟨htrig, hact, hwf⟩ := slotReady_meets h
  obtain ⟨hp, hports, htest⟩ := trigTrue_meets htrig
  refine ⟨hp, fun c hc => ⟨(hports c hc).1, fun hfault => ?_⟩, fun q hq => ?_, fun f hf => roomFor_of_actReady hf hact⟩
  · have htests := (hports c hc).2 hfault
    simp only [testsFault, Bool.and_eq_true, beq_iff_eq] at htests
    exact ⟨htests.1, (testChan_eq_some.1 htests.2).2⟩
  · have hic : x.trig.ic ≠ 0#4 := by
      simp only [Trig.wf, hq, Option.isNone_some, Bool.false_or, Bool.and_eq_true, bne_iff_ne] at hwf
      exact hwf.1.1
    obtain ⟨c, hc⟩ := testChan_isSome hic
    obtain ⟨tok, htok, htag⟩ := tagTestOk_meets hq hc htest
    exact ⟨c, tok, htok, (testChan_eq_some.1 hc).1, (testChan_eq_some.1 hc).2, htag⟩

end Sys2Proof.Proofs
end

section
/-!
PROOF. Sums, products, fused and dot products of floating-point lanes (spec 02 R34, R37, 10 R166, R176); from these lemmas the obligation FloatArithmetic.
-/

namespace Sys2Proof.Proofs

open Machine Laws Say

/-- A sum is the exact sum rounded once, unless an operand is NaN. -/
theorem fpAdd_eq (f : Fmt) (rd : Dir) (fcs : Fcs) (a b : Nat) :
    fpAdd f rd fcs a b = exactly f rd fcs (nanOf f fcs [(f, a), (f, b)]) (addVal rd (unpack f a) (unpack f b)) := by
  unfold fpAdd
  cases nanOf f fcs [(f, a), (f, b)] with
  | some r => rfl
  | none => cases addVal rd (unpack f a) (unpack f b) <;> rfl

/-- A product is the exact product rounded once, unless an operand is NaN. -/
theorem fpMul_eq (f : Fmt) (rd : Dir) (fcs : Fcs) (a b : Nat) :
    fpMul f rd fcs a b = exactly f rd fcs (nanOf f fcs [(f, a), (f, b)]) (mulVal (unpack f a) (unpack f b)) := by
  unfold fpMul
  cases nanOf f fcs [(f, a), (f, b)] with
  | some r => rfl
  | none => cases mulVal (unpack f a) (unpack f b) <;> rfl

/-- An instruction on the lanes of sa, of sb and of the old dst. -/
theorem results_fpLanes3 {i : Instr} {sp : FireSpec} {c : FpCtl} {f : BeatIn → Nat → Nat → Nat → Nat × Flags} {h : BeatIn → Nat → Nat × Flags}
    (hexec : ∀ s, exec i s = runBeat { sp with op := fun x => fpLanes3 c x (f x) } s)
    (hf : ∀ x j, f x (rlane c j x.a.toWord) (rlane c j x.b.toWord) (rlane c j x.old) = h x j) : Results i sp fun x => FpTo c (h x) :=
  results_fpTo hexec fun x j => by rw [fpLane_eq, fpLane_eq, fpLane_eq, hf]

/-- A lane of `fdot`, of the lanes as the instruction reads them. -/
def dotOf (c : FpCtl) (x : BeatIn) (j : Nat) : Nat × Flags :=
  dotLane (fmtOf c.fmt) (dotFmt c.fmt) (rdir x) c.fcs (rlane c (2 * j) x.a.toWord) (rlane c (2 * j + 1) x.a.toWord)
    (rlane c (2 * j) x.b.toWord) (rlane c (2 * j + 1) x.b.toWord) (readBits (dotFmt c.fmt) c.fcs (lane (fmtWidth (dotFmt c.fmt)) j x.old).toNat)

/-- A beat of `fdot` gives the word and the flags of its lanes. -/
theorem specFdot_op (r : RAct) (c : FpCtl) (x : BeatIn) : (specFdot r c).op x =
    okLanes (fmtWidth (dotFmt c.fmt)) ((List.range (64 / fmtWidth (dotFmt c.fmt))).map (dotOf c x)) := by
  refine congrArg (okLanes _) (List.map_congr_left fun j _ => ?_)
  simp only [dotOf, fpLane_eq, rdOf_eq, toNat_lane]

/-- Settles O12: each lane is the exact value rounded once, as `fpAdd_eq`, `fpMul_eq` and the lanes of three operands say it. -/
theorem floatArithmetic : Obligations.FloatArithmetic := by
  unfold Obligations.FloatArithmetic
  refine ⟨?fadd, ?fmul, ?fsub, ?ffma, ?fdot⟩
  case fadd => exact fun r c => results_fpLanes (fun _ => rfl) fun _ _ => fpAdd_eq ..
  case fmul => exact fun r c => results_fpLanes (fun _ => rfl) fun _ _ => fpMul_eq ..
  case fsub =>
    exact fun r c => results_fpLanes (f := fun x a b => fpAdd (fmtOf c.fmt) (rdOf x) c.fcs a (flipSign (fmtOf c.fmt) b)) (fun _ => rfl) fun _ _ => fpAdd_eq ..
  case ffma => exact fun r c => results_fpLanes3 (fun _ => rfl) fun _ _ => rfl
  case fdot =>
    refine fun r c => results_of (v := fun x => laneWord _ _ (dotOf c x)) (f := fun x => laneFlags _ _ (dotOf c x)) (fun s => ?_)
      fun x => flaggedLanes_laneWord (Nat.mul_div_le 64 _)
    exact congrArg (fun op => runBeat { shapeR3 r with op := op } s) (funext (specFdot_op r c))

end Sys2Proof.Proofs
end

section
/-!
SUPPORT. A firing that is held for a fault (spec 08 R136, 18 R316, R317): the record that is made for it, the identifier that the record gets, and what of the
machine is left alone.
-/

namespace Sys2Proof.Proofs

open Machine Laws

/-- Elements, memory, requests and contexts stand. -/
structure Aside (s t : State) : Prop where
  elems : t.elems = s.elems
  mem : t.mem = s.mem
  memPoison : t.memPoison = s.memPoison
  reqs : t.reqs = s.reqs
  ctxs : t.ctxs = s.ctxs

section
variable {s t u : State}

theorem aside_trans (h : Aside s t) (k : Aside t u) : Aside s u :=
  ⟨k.elems.trans h.elems, k.mem.trans h.mem, k.memPoison.trans h.memPoison, k.reqs.trans h.reqs, k.ctxs.trans h.ctxs⟩

theorem getElem_aside (h : Aside s t) (l : Loc) : Machine.getElem t l = Machine.getElem s l := by
  rw [Machine.getElem, h.elems, Machine.getElem]

theorem aside_traceEvent (s : State) (plot : Nat) (e : TraceEv) : Aside s (traceEvent s plot e) := by
  unfold traceEvent
  dsimp only
  split <;> exact ⟨rfl, rfl, rfl, rfl, rfl⟩

/-- A record gets its identifier aside from the elements, which its items change then. -/
theorem giveFid_items {id : Nat} {r : FaultRec} (hfind : findFault s id = some r) (fid : Nat) :
    ∃ u, Aside s u ∧ giveFid s id fid = r.items.foldl (showItem (identified s r fid)) u := by
  unfold giveFid
  rw [hfind]
  refine ⟨_, ?_, rfl⟩
  have hdie (f : Die → Die) : Aside s (modDie (setFault s (identified s r fid)) r.die f) := ⟨rfl, rfl, rfl, rfl, rfl⟩
  split
  · exact aside_trans (aside_trans (hdie _) (aside_traceEvent ..)) ⟨rfl, rfl, rfl, rfl, rfl⟩
  · exact aside_trans (hdie _) (aside_traceEvent ..)

end

/-! ### The record of a held firing -/

/-- What the detector of a firing's fault tells: its element's die, no other record to join, and no mere report. -/
structure OfFiring (f : FaultInfo) (l : Loc) (n : Nat) : Prop where
  die : f.die = none
  key : f.key = none
  report : f.report = false
  what : f.what = some (.firing l n)

/-- The record that a fault of a firing makes, before it gets an identifier. -/
def newFault (s : State) (f : FaultInfo) (l : Loc) (n : Nat) : FaultRec :=
  { id := freshId s, die := dieOf f.plot, fid := none, cls := f.cls, sub := f.sub, ctx := f.ctx.getD (ctxOf (bumpId s) f.plot), depth := f.depth, flags := f.flags ||| 0
    x := plotX f.plot, y := plotY f.plot, site := f.site, slot := f.slot, entry := f.entry, strm := f.strm, wave := f.wave, addr := f.addr
    info0 := if f.cls = .memerr then Config.syndrome (freshId s) else f.info0, info1 := f.info1, src := f.src, count := 1, ts := timestamp (bumpId s)
    node := f.node.getD (match (getPlot (bumpId s) f.plot).parcel with | some n => (getParcel (bumpId s) n).node | none => 0)
    items := [⟨.firing l n, f.depth⟩], report := false, queued := false, key := none, own := (getPlot (bumpId s) f.plot).parcel }

/-- The state in which a new record stands among the faults. -/
def recorded (s : State) (r : FaultRec) : State := { bumpId s with faults := s.faults ++ [r] }

theorem aside_recorded (s : State) (r : FaultRec) : Aside s (recorded s r) := ⟨rfl, rfl, rfl, rfl, rfl⟩

/-- A fault with no pending-miss entry joins no record. -/
theorem find?_noKey (s : State) (die : Nat) (own : Option Nat) :
    (s.faults.find? fun r => r.die == die && (none : Option (Nat × Nat)).isSome && r.key == none && r.own == own && !r.report) = none :=
  List.find?_eq_none.2 fun r _ => by simp

section
variable {s : State} {f : FaultInfo} {l : Loc} {n : Nat} (hof : OfFiring f l n) (hfield : isHeadland f.plot = false)
include hof hfield

/-- With an identifier free the record gets it. -/
theorem raiseFault_given {fid : Nat} (hfree : freeFid s (dieOf f.plot) = some fid) :
    raiseFault s f = giveFid (recorded s { newFault s f l n with unheard := !(getDie s (dieOf f.plot)).handler }) (freshId s) fid := by
  obtain ⟨hdie, hkey, hreport, hwhat⟩ := hof
  have hbump : freeFid (bumpId s) (dieOf f.plot) = some fid := hfree
  unfold raiseFault
  simp only [hfield, hdie, hkey, hreport, hwhat, Bool.false_and, Bool.false_eq_true, if_false, Option.getD_none, find?_noKey, hbump, Bool.not_false, Bool.and_true]
  rfl

/-- With every identifier open the record waits. -/
theorem raiseFault_waits (hfull : freeFid s (dieOf f.plot) = none) : Aside s (raiseFault s f) := by
  obtain ⟨hdie, hkey, hreport, hwhat⟩ := hof
  have hbump : freeFid (bumpId s) (dieOf f.plot) = none := hfull
  unfold raiseFault
  simp only [hfield, hdie, hkey, hreport, hwhat, Bool.false_and, Bool.false_eq_true, if_false, Option.getD_none, find?_noKey, hbump]
  exact ⟨rfl, rfl, rfl, rfl, rfl⟩

end

/-- A record that no record in the state resembles in its number is found by it. -/
theorem findFault_recorded {s : State} {r : FaultRec} (hnew : ∀ q ∈ s.faults, q.id ≠ r.id) : findFault (recorded s r) r.id = some r := by
  have hold : s.faults.find? (fun q => q.id == r.id) = none := List.find?_eq_none.2 fun q hq => by simpa using hnew q hq
  rw [findFault, recorded, List.find?_append, hold]
  simp

theorem setFault_recorded {s : State} {r q : FaultRec} (hnew : ∀ p ∈ s.faults, p.id ≠ r.id) (hq : q.id = r.id) :
    (setFault (recorded s r) q).faults = s.faults ++ [q] := by
  have hold : s.faults.map (fun p => if p.id = q.id then q else p) = s.faults :=
    (List.map_congr_left fun p hp => if_neg (hq ▸ hnew p hp)).trans (List.map_id _)
  rw [setFault, recorded, List.map_append, hold]
  simp [hq]

end Sys2Proof.Proofs
end

section
/-!
PROOF. A beat that traps or faults (spec 08 R136, 18 R316, R317): its entry in the replay queue, `pix`, and the record with its identifier; from these lemmas the
obligation BeatHeld.
-/

namespace Sys2Proof.Proofs

open Machine Laws Say

theorem put_put {α : Type} (t : Tbl α) (n : Nat) (x y : α) : Tbl.put (Tbl.put t n x) n y = Tbl.put t n y := by
  induction t with
  | nil => simp [Tbl.put]
  | cons kv t ih =>
    obtain ⟨k, v⟩ := kv
    by_cases hlt : n < k
    · simp [Tbl.put, hlt]
    · by_cases heq : n = k
      · simp [Tbl.put, heq]
      · simp [Tbl.put, hlt, heq, ih]

/-- An entry that was put in is changed in its place. -/
theorem alter_put {α : Type} (t : Tbl α) (n : Nat) (x : α) (f : α → α) : Tbl.alter (Tbl.put t n x) n f = Tbl.put t n (f x) := by
  rw [Tbl.alter, find_put_same]
  exact put_put ..

/-- `pix` of a held beat. -/
theorem pixWord_held {beat : Nat} (hbeat : beat < 16) (slot : Fin 16) : pixWord 0 beat true slot.val = BitVec.ofNat 64 (beat * 32 + 16 + slot.val) := by
  have hb : beat % 32 = beat := Nat.mod_eq_of_lt (by omega)
  simp [pixWord, hb, Nat.mod_eq_of_lt slot.isLt]

section
variable {sp : FireSpec} {s : State} {x : BeatIn} {cls : FaultClass} {sub : Nat} {i0 i1 : Word} {n : Nat}

/-- The entry of the beat at the cursor, under an identifier. -/
def beatEntry (sp : FireSpec) (s : State) (x : BeatIn) (wfid : Bool) (fid : Nat) : RqEntry :=
  let c := s.sched.cur
  { kind := .firing, slot := c.slot.val, beat := c.beat, wfid := wfid, fid := fid, act := curAct s, a := (captured sp x).1, b := (captured sp x).2.1
    c := (captured sp x).2.2, owner := 0, depth := c.depth }

/-- An element that holds the beat at the cursor in entry n. -/
def holding (sp : FireSpec) (s : State) (x : BeatIn) (n : Nat) (wfid : Bool) (fid : Nat) (e : Elem) : Elem :=
  { e with rq := Tbl.put e.rq n (beatEntry sp s x wfid fid), pix := pixWord 0 s.sched.cur.beat true s.sched.cur.slot }

/-- The state in which the element of the cursor holds its beat. -/
def heldAt (sp : FireSpec) (s : State) (x : BeatIn) (n : Nat) : State := modElem s s.sched.cur.l (holding sp s x n true 0)

/-- What the detector of the beat's fault tells. -/
def beatFault (s : State) (n : Nat) (cls : FaultClass) (sub : Nat) (i0 i1 : Word) : FaultInfo :=
  let l := s.sched.cur.l
  { cls := cls, sub := sub, plot := l.plot, site := l.site, slot := s.sched.cur.slot, entry := n, wave := (Machine.getElem s l).waveNo.toNat, info0 := i0, info1 := i1
    flags := 0 ||| 2, depth := s.sched.cur.depth, what := some (.firing l n) }

theorem holdBeat_eq (hfree : freeEntry (Machine.getElem s s.sched.cur.l).rq = some n) :
    holdBeat sp s x cls sub i0 i1 = raiseFault (heldAt sp s x n) (beatFault s n cls sub i0 i1) := by
  unfold holdBeat holdFiring
  simp only [hfree]
  rfl

theorem ofFiring_beatFault : OfFiring (beatFault s n cls sub i0 i1) s.sched.cur.l n := ⟨rfl, rfl, rfl, rfl⟩

/-- The record of the beat's fault, before it gets its identifier. -/
def beatRecord (sp : FireSpec) (s : State) (x : BeatIn) (n : Nat) (cls : FaultClass) (sub : Nat) (i0 i1 : Word) : FaultRec :=
  { newFault (heldAt sp s x n) (beatFault s n cls sub i0 i1) s.sched.cur.l n with unheard := !(getDie s (dieOf s.sched.cur.l.plot)).handler }

theorem findFault_beatRecord (hids : ∀ r ∈ s.faults, r.id < s.sched.nextId) :
    findFault (recorded (heldAt sp s x n) (beatRecord sp s x n cls sub i0 i1)) (beatRecord sp s x n cls sub i0 i1).id = some (beatRecord sp s x n cls sub i0 i1) :=
  findFault_recorded fun q hq => Nat.ne_of_lt (hids q hq)

section
variable {fid : Nat} (hfree : freeEntry (Machine.getElem s s.sched.cur.l).rq = some n) (hfield : s.sched.cur.l.plot < 512)
  (hfid : freeFid s (dieOf s.sched.cur.l.plot) = some fid)
include hfree hfield hfid

theorem holdBeat_given : holdBeat sp s x cls sub i0 i1 =
    giveFid (recorded (heldAt sp s x n) (beatRecord sp s x n cls sub i0 i1)) (beatRecord sp s x n cls sub i0 i1).id fid := by
  rw [holdBeat_eq hfree]
  exact raiseFault_given ofFiring_beatFault (decide_eq_false (Nat.not_le.2 hfield)) hfid

variable (hids : ∀ r ∈ s.faults, r.id < s.sched.nextId)
include hids

/-- The entry shows the identifier, aside from which the elements are those in which the beat is held. -/
theorem holdBeat_shown : ∃ u, Aside (heldAt sp s x n) u ∧
    holdBeat sp s x cls sub i0 i1 = modRq u s.sched.cur.l n fun y => { y with fid := fid, wfid := false } := by
  obtain ⟨u, haside, hgive⟩ := giveFid_items (findFault_beatRecord (sp := sp) (x := x) (n := n) (cls := cls) (sub := sub) (i0 := i0) (i1 := i1) hids) fid
  exact ⟨u, aside_trans (aside_recorded ..) haside, (holdBeat_given hfree hfield hfid).trans hgive⟩

theorem getElem_holdBeat_same :
    Machine.getElem (holdBeat sp s x cls sub i0 i1) s.sched.cur.l = holding sp s x n false fid (Machine.getElem s s.sched.cur.l) := by
  obtain ⟨u, haside, hshown⟩ := holdBeat_shown (sp := sp) (x := x) (cls := cls) (sub := sub) (i0 := i0) (i1 := i1) hfree hfield hfid hids
  rw [hshown, modRq, getElem_modElem_same u _ rfl, getElem_aside haside, heldAt, getElem_modElem_same s _ rfl]
  exact congrArg (fun q => { holding sp s x n false fid (Machine.getElem s s.sched.cur.l) with rq := q }) (alter_put ..)

theorem getElem_holdBeat_other {m : Loc} (h : locKey m ≠ locKey s.sched.cur.l) :
    Machine.getElem (holdBeat sp s x cls sub i0 i1) m = Machine.getElem s m := by
  obtain ⟨u, haside, hshown⟩ := holdBeat_shown (sp := sp) (x := x) (cls := cls) (sub := sub) (i0 := i0) (i1 := i1) hfree hfield hfid hids
  rw [hshown, modRq, getElem_modElem_other u _ h, getElem_aside haside, heldAt, getElem_modElem_other s _ h]

theorem memReqs_holdBeat : (holdBeat sp s x cls sub i0 i1).mem = s.mem ∧ (holdBeat sp s x cls sub i0 i1).reqs = s.reqs := by
  obtain ⟨u, haside, hshown⟩ := holdBeat_shown (sp := sp) (x := x) (cls := cls) (sub := sub) (i0 := i0) (i1 := i1) hfree hfield hfid hids
  rw [hshown]
  exact ⟨haside.mem, haside.reqs⟩

/-- The record with its identifier stands behind the others. -/
theorem faults_holdBeat : (holdBeat sp s x cls sub i0 i1).faults =
    s.faults ++ [identified (recorded (heldAt sp s x n) (beatRecord sp s x n cls sub i0 i1)) (beatRecord sp s x n cls sub i0 i1) fid] := by
  rw [holdBeat_given hfree hfield hfid, (giveFid_gives (findFault_beatRecord hids) fid).1]
  exact setFault_recorded (s := heldAt sp s x n) (fun q hq => Nat.ne_of_lt (hids q hq)) rfl

theorem store_holdBeat : (getDie (holdBeat sp s x cls sub i0 i1) (dieOf s.sched.cur.l.plot)).store =
    (getDie s (dieOf s.sched.cur.l.plot)).store ++ [(beatRecord sp s x n cls sub i0 i1).id] := by
  rw [holdBeat_given hfree hfield hfid]
  exact congrArg Die.store (getDie_giveFid (findFault_beatRecord hids) fid)

end

end

/-- Settles O58: the element holds the beat under the identifier of its record, which stands behind the others and in the die's store. -/
theorem beatHeld : Obligations.BeatHeld := by
  unfold Obligations.BeatHeld
  intro sp s x cls sub i0 i1 n fid c l e _ hcls hbeat hfield hfree hfid hids
  obtain ⟨hmem, hreqs⟩ := memReqs_holdBeat (sp := sp) (x := x) (cls := cls) (sub := sub) (i0 := i0) (i1 := i1) hfree hfield hfid hids
  refine ⟨?_, fun m hm => getElem_holdBeat_other hfree hfield hfid hids hm, hmem, hreqs, _, faults_holdBeat hfree hfield hfid hids, rfl, rfl, rfl, rfl, if_neg hcls, rfl,
    rfl, rfl, rfl, rfl, rfl, store_holdBeat hfree hfield hfid hids⟩
  refine (getElem_holdBeat_same hfree hfield hfid hids).trans ?_
  rw [holding, pixWord_held hbeat]
  rfl

end Sys2Proof.Proofs
end

section
/-!
SUPPORT. What a held firing leaves alone wherever it is held (spec 08 R136, 18 R316): registers, counters, predicates and flags of every element, memory and the
contexts.
-/

namespace Sys2Proof.Proofs

open Machine Laws

/-- Registers, counters, predicates, modes, slots, pointers and flags of an element. -/
structure SameRegs (e e' : Elem) : Prop where
  d : e'.d = e.d
  c0 : e'.c0 = e.c0
  c1 : e'.c1 = e.c1
  p : e'.p = e.p
  k : e'.k = e.k
  fpm : e'.fpm = e.fpm
  ws : e'.ws = e.ws
  slots : e'.slots = e.slots
  ptr : e'.ptr = e.ptr
  flg : e'.flg = e.flg

theorem sameRegs_refl (e : Elem) : SameRegs e e := ⟨rfl, rfl, rfl, rfl, rfl, rfl, rfl, rfl, rfl, rfl⟩

theorem sameRegs_trans {a b c : Elem} (h : SameRegs a b) (k : SameRegs b c) : SameRegs a c :=
  ⟨k.d.trans h.d, k.c0.trans h.c0, k.c1.trans h.c1, k.p.trans h.p, k.k.trans h.k, k.fpm.trans h.fpm, k.ws.trans h.ws, k.slots.trans h.slots, k.ptr.trans h.ptr,
    k.flg.trans h.flg⟩

theorem sameRegs_of_flow {e e' : Elem} (h : ElemFlow e e') : SameRegs e e' := by
  have hregs (a : Elem) (hrest : { e' with ins := e.ins, outs := e.outs, joined := e.joined } = a) : SameRegs a e' :=
    hrest ▸ ⟨rfl, rfl, rfl, rfl, rfl, rfl, rfl, rfl, rfl, rfl⟩
  exact hregs e h.rest

/-- Memory and contexts stand, and every element keeps its registers. -/
structure Calm (s t : State) : Prop where
  mem : t.mem = s.mem
  memPoison : t.memPoison = s.memPoison
  ctxs : t.ctxs = s.ctxs
  elem : ∀ m, SameRegs (Machine.getElem s m) (Machine.getElem t m)

section
variable {s t u : State}

theorem calm_refl (s : State) : Calm s s := ⟨rfl, rfl, rfl, fun _ => sameRegs_refl _⟩

theorem calm_trans (h : Calm s t) (k : Calm t u) : Calm s u :=
  ⟨k.mem.trans h.mem, k.memPoison.trans h.memPoison, k.ctxs.trans h.ctxs, fun m => sameRegs_trans (h.elem m) (k.elem m)⟩

theorem calm_of_aside (h : Aside s t) : Calm s t :=
  ⟨h.mem, h.memPoison, h.ctxs, fun m => (getElem_aside h m).symm ▸ sameRegs_refl _⟩

theorem calm_modElem (s : State) (l : Loc) {f : Elem → Elem} (h : ∀ e, SameRegs e (f e)) : Calm s (modElem s l f) := by
  refine ⟨rfl, rfl, rfl, fun m => ?_⟩
  by_cases hm : locKey m = locKey l
  · rw [getElem_modElem_same s f hm]
    exact h _
  · rw [getElem_modElem_other s f hm]
    exact sameRegs_refl _

/-- A change that keeps the registers of every element of the table keeps those of every element. -/
theorem sameRegs_map {f : Elem → Elem} (h : ∀ e, SameRegs e (f e)) (ht : t.elems = s.elems.map fun x => (x.1, f x.2)) (m : Loc) :
    SameRegs (Machine.getElem s m) (Machine.getElem t m) := by
  rw [Machine.getElem, Machine.getElem, ht, Tbl.findD, Tbl.findD, find_map_snd]
  cases Tbl.find s.elems (locKey m) with
  | none => exact sameRegs_refl _
  | some e => exact h e

theorem calm_showItem (r : FaultRec) (s : State) (h : Held) : Calm s (showItem r s h) := by
  have hfill (rid : Nat) (tok : Token) : Calm s (fillRid s rid tok) :=
    ⟨rfl, rfl, rfl, sameRegs_map (f := fillElem rid tok (now s + 1)) (fun _ => ⟨rfl, rfl, rfl, rfl, rfl, rfl, rfl, rfl, rfl, rfl⟩) rfl⟩
  unfold showItem
  split
  · exact hfill ..
  · exact hfill ..
  · exact calm_modElem _ _ fun _ => ⟨rfl, rfl, rfl, rfl, rfl, rfl, rfl, rfl, rfl, rfl⟩
  · exact ⟨rfl, rfl, rfl, sameRegs_map (f := fun e => { e with rq := e.rq.map _ }) (fun _ => ⟨rfl, rfl, rfl, rfl, rfl, rfl, rfl, rfl, rfl, rfl⟩) rfl⟩
  · exact calm_refl s

theorem calm_foldl {α : Type} {f : State → α → State} (h : ∀ s x, Calm s (f s x)) : ∀ (xs : List α) (s : State), Calm s (xs.foldl f s)
  | [], s => calm_refl s
  | x :: xs, s => calm_trans (h s x) (calm_foldl h xs (f s x))

theorem calm_giveFid (s : State) (id fid : Nat) : Calm s (giveFid s id fid) := by
  cases hfind : findFault s id with
  | none =>
    unfold giveFid
    rw [hfind]
    exact calm_refl s
  | some r =>
    obtain ⟨u, haside, hgive⟩ := giveFid_items hfind fid
    rw [hgive]
    exact calm_trans (calm_of_aside haside) (calm_foldl (calm_showItem _) _ u)

/-- The Reeve is told of a fault of a headland element. -/
def toldReeve (s : State) (f : FaultInfo) : State := { s with reeve := { s.reeve with told := s.reeve.told ++ [(⟨f.plot, f.site⟩, f.cls, f.sub)] } }

/-- The fault of a firing, of a headland element or with an identifier free or none. -/
theorem calm_raiseFault {f : FaultInfo} {l : Loc} {n : Nat} (hof : OfFiring f l n) : Calm s (raiseFault s f) := by
  cases hland : isHeadland f.plot with
  | true =>
    have hblocks : (isHeadland f.plot && f.die.isNone) = true := by rw [hland, hof.die]; rfl
    unfold raiseFault
    rw [if_pos hblocks]
    exact calm_trans (t := toldReeve s f) ⟨rfl, rfl, rfl, fun _ => sameRegs_refl _⟩
      (calm_modElem _ _ (f := fun e => { e with blocked := true }) fun _ => ⟨rfl, rfl, rfl, rfl, rfl, rfl, rfl, rfl, rfl, rfl⟩)
  | false =>
    cases hfree : freeFid s (dieOf f.plot) with
    | some fid =>
      rw [raiseFault_given hof hland hfree]
      exact calm_trans (calm_of_aside (aside_recorded ..)) (calm_giveFid ..)
    | none => exact calm_of_aside (raiseFault_waits hof hland hfree)

theorem calm_holdBeat (sp : FireSpec) (s : State) (x : BeatIn) (cls : FaultClass) (sub : Nat) (i0 i1 : Word) : Calm s (holdBeat sp s x cls sub i0 i1) := by
  cases hfree : freeEntry (Machine.getElem s s.sched.cur.l).rq with
  | none =>
    unfold holdBeat holdFiring
    simp only [hfree]
    exact calm_refl s
  | some n =>
    rw [holdBeat_eq hfree]
    exact calm_trans (t := heldAt sp s x n) (calm_modElem _ _ fun _ => ⟨rfl, rfl, rfl, rfl, rfl, rfl, rfl, rfl, rfl, rfl⟩) (calm_raiseFault ofFiring_beatFault)

end

end Sys2Proof.Proofs
end

section
/-!
PROOF. The frame of the plain instructions (spec 02 R35, R36, 08 R135): what a beat with no effect beside its result leaves alone, committed or held, which
instructions are described so, and from these lemmas the obligation PlainFrame.
-/

namespace Sys2Proof.Proofs

open Machine Laws Say

/-! ### The frame -/

/-- What an instruction leaves of an element, its own where own holds. -/
structure Kept (i : Instr) (s : State) (own : Prop) (e e' : Elem) : Prop where
  d : ∀ j : Fin 8, (¬own ∨ i.dst ≠ .d j) → e'.d[j] = e.d[j]
  c0 : (¬own ∨ i.dst ≠ .c0) → e'.c0 = e.c0
  c1 : (¬own ∨ (i.dst ≠ .c1 ∧ ¬Stochastic i s)) → e'.c1 = e.c1
  p : ∀ j : Fin 8, (¬own ∨ (i.upd ≠ .result j ∧ i.upd ≠ .one j ∧ i.upd ≠ .zero j)) → e'.p.getLsbD j.val = e.p.getLsbD j.val
  k : e'.k = e.k
  fpm : e'.fpm = e.fpm
  ws : e'.ws = e.ws
  slots : e'.slots = e.slots
  ptr : e'.ptr = e.ptr
  flgOwn : e.flg &&& e'.flg = e.flg
  flg : ¬own → e'.flg = e.flg

/-- What an instruction leaves of the machine, the element at the cursor being its own. -/
structure Framed (i : Instr) (s t : State) : Prop where
  mem : t.mem = s.mem
  memPoison : t.memPoison = s.memPoison
  ctxs : t.ctxs = s.ctxs
  elem : ∀ m, Kept i s (locKey m = locKey s.sched.cur.l) (Machine.getElem s m) (Machine.getElem t m)

section
variable {i : Instr} {s t : State} {own : Prop} {e e' e'' : Elem}

theorem kept_of_same (h : SameRegs e e') : Kept i s own e e' where
  d j _ := by rw [h.d]
  c0 _ := h.c0
  c1 _ := h.c1
  p j _ := by rw [h.p]
  k := h.k
  fpm := h.fpm
  ws := h.ws
  slots := h.slots
  ptr := h.ptr
  flgOwn := by rw [h.flg, BitVec.and_self]
  flg _ := h.flg

theorem kept_same (h : Kept i s own e e') (q : SameRegs e' e'') : Kept i s own e e'' where
  d j hj := by rw [q.d, h.d j hj]
  c0 hc := q.c0.trans (h.c0 hc)
  c1 hc := q.c1.trans (h.c1 hc)
  p j hj := by rw [q.p, h.p j hj]
  k := q.k.trans h.k
  fpm := q.fpm.trans h.fpm
  ws := q.ws.trans h.ws
  slots := q.slots.trans h.slots
  ptr := q.ptr.trans h.ptr
  flgOwn := by rw [q.flg, h.flgOwn]
  flg ho := q.flg.trans (h.flg ho)

theorem framed_of_calm (h : Calm s t) : Framed i s t := ⟨h.mem, h.memPoison, h.ctxs, fun m => kept_of_same (h.elem m)⟩

end

/-! ### Beats with no effect but their result -/

/-- An outcome with no effect beside its result but a new c1, which only stochastic rounding changes. -/
structure PlainOut (i : Instr) (s : State) (o : BeatOut) : Prop where
  post : o.post = id
  upd : ∃ g : Word → Word, (o.upd = fun e => { e with c1 := g e.c1 }) ∧
    (Stochastic i s ∨ g (Machine.getElem s s.sched.cur.l).c1 = (Machine.getElem s s.sched.cur.l).c1)

theorem plainOut_of_id {i : Instr} {s : State} {o : BeatOut} (hupd : o.upd = id) (hpost : o.post = id) : PlainOut i s o :=
  ⟨hpost, id, hupd, .inr rfl⟩

section
variable {i : Instr} {sp : FireSpec} {s t : State} {o : BeatOut}

/-- What a commit writes to its own element. -/
theorem kept_commitElem (hdst : sp.dst = i.dst) (hupd : sp.upd = i.upd) (ho : PlainOut i s o) {own : Prop} (c : Cursor) (n : Nat) (hown : own) :
    Kept i s own (Machine.getElem s s.sched.cur.l) (commitElem sp c n o (Machine.getElem s s.sched.cur.l)) := by
  obtain ⟨-, g, hg, hc1⟩ := ho
  generalize Machine.getElem s s.sched.cur.l = e at hc1 ⊢
  have hquiet : commitElem sp c n o e = commitElem sp c n { o with upd := id } { e with c1 := g e.c1 } := by
    unfold commitElem
    rw [hg]
    rfl
  rw [hquiet, commitElem_eq rfl]
  refine ⟨fun j hj => ?_, fun h0 => ?_, fun h1 => ?_, fun j hj => ?_, rfl, rfl, rfl, rfl, rfl, ?_, fun h => absurd hown h⟩
  · exact (d_written ..).trans (if_neg (hdst ▸ hj.resolve_left (not_not_intro hown)))
  · exact (c0_written ..).trans (if_neg (hdst ▸ h0.resolve_left (not_not_intro hown)))
  · obtain ⟨hne, hstoch⟩ := h1.resolve_left (not_not_intro hown)
    exact ((c1_written ..).trans (if_neg (hdst ▸ hne))).trans (hc1.resolve_left hstoch)
  · obtain ⟨hresult, hone, hzero⟩ := hupd ▸ hj.resolve_left (not_not_intro hown)
    refine (getLsbD_predsAfter ..).trans ?_
    rw [if_neg hresult, if_neg hone, if_neg hzero, ite_self]
  · ext b hb
    simpa using Or.inl

theorem framed_commitBeat (hdst : sp.dst = i.dst) (hupd : sp.upd = i.upd) (ho : PlainOut i s o) : Framed i s (commitBeat sp s o) := by
  obtain ⟨hrest, helem, -⟩ := commitBeat_flows sp s o ho.post
  refine ⟨by rw [hrest]; rfl, by rw [hrest]; rfl, by rw [hrest]; rfl, fun m => ?_⟩
  refine kept_same ?_ (sameRegs_of_flow (helem m))
  by_cases hm : locKey m = locKey s.sched.cur.l
  · have hsame : Machine.getElem s m = Machine.getElem s s.sched.cur.l := by rw [Machine.getElem, hm, Machine.getElem]
    rw [getElem_modElem_same s _ hm, hsame]
    exact kept_commitElem hdst hupd ho _ _ hm
  · rw [getElem_modElem_other s _ hm]
    exact kept_of_same (sameRegs_refl _)

/-- A beat of an instruction whose outcomes are plain: nothing, a commit, or a beat that is held. -/
theorem framed_runBeat (hdst : sp.dst = i.dst) (hupd : sp.upd = i.upd)
    (hout : ∀ x o, beatIn sp s = some x → sp.op x = .ok o → PlainOut i s o) (h : runBeat sp s = .next t) : Framed i s t := by
  unfold runBeat at h
  dsimp only at h
  split at h
  · cases h
  split at h
  · cases h; exact framed_of_calm (calm_refl s)
  split at h
  · cases h; exact framed_of_calm (calm_refl s)
  next x hx =>
  split at h
  · cases h; exact framed_commitBeat hdst hupd (plainOut_of_id rfl rfl)
  split at h
  · cases h; exact framed_of_calm (calm_holdBeat ..)
  next o ho =>
  split at h
  · cases h; exact framed_of_calm (calm_holdBeat ..)
  · cases h; exact framed_commitBeat hdst hupd (hout x o hx ho)

/-- An instruction whose every beat gives a result and nothing else. -/
theorem framed_of_result (hexec : exec i s = runBeat sp s) (hdst : sp.dst = i.dst) (hupd : sp.upd = i.upd)
    (hop : ∀ x, ∃ o, sp.op x = .ok o ∧ o.upd = id ∧ o.post = id) (h : exec i s = .next t) : Framed i s t := by
  refine framed_runBeat hdst hupd (fun x o _ ho => ?_) (hexec.symm.trans h)
  obtain ⟨o', ho', hid, hpost⟩ := hop x
  obtain rfl : o' = o := BeatRes.ok.inj (ho'.symm.trans ho)
  exact plainOut_of_id hid hpost

end

/-! ### The instructions that are not of one result -/

theorem framed_route {r : RAct} {s t : State} (h : exec (.route r) s = .next t) : Framed (.route r) s t := by
  refine framed_runBeat (i := .route r) (sp := specRoute r) rfl rfl (fun x o _ ho => ?_) h
  unfold specRoute specR at ho
  dsimp only at ho
  split at ho <;> obtain rfl := BeatRes.ok.inj ho <;> exact plainOut_of_id rfl rfl

theorem framed_q4dq {r : RAct} {c : FpCtl} {s t : State} (h : exec (.q4dq r c) s = .next t) : Framed (.q4dq r c) s t := by
  refine framed_runBeat (i := .q4dq r c) (sp := specQ4dq r c) rfl rfl (fun x o _ ho => ?_) h
  unfold specQ4dq specR at ho
  dsimp only at ho
  split at ho
  case h_1 => cases ho
  case h_2 =>
    obtain rfl := BeatRes.ok.inj ho
    exact plainOut_of_id rfl rfl

theorem framed_q4q {r : RAct} {c : FpCtl} {s t : State} (h : exec (.q4q r c) s = .next t) : Framed (.q4q r c) s t := by
  refine framed_runBeat (i := .q4q r c) (sp := specQ4q r c) rfl rfl (fun x o _ ho => ?_) h
  unfold specQ4q specR3 specR at ho
  dsimp only at ho
  split at ho
  case h_1 => cases ho
  case h_2 =>
    obtain rfl := BeatRes.ok.inj ho
    exact plainOut_of_id rfl rfl

/-- Only a stochastic conversion moves c1 along its lanes. -/
theorem c1_cvtStep {d : CvtDesc} (hrnd : d.rnd ≠ 4) (fcs : Fcs) (err : Bool) (k a : Word) (n i : Nat) (st : CvtState) :
    (cvtStep d fcs err k a n i st).c1 = st.c1 := by
  simp [cvtStep, hrnd]

theorem c1_foldl_cvtStep {d : CvtDesc} (hrnd : d.rnd ≠ 4) (fcs : Fcs) (err : Bool) (k a : Word) (n : Nat) : ∀ (xs : List Nat) (st : CvtState),
    (xs.foldl (fun st i => cvtStep d fcs err k a n i st) st).c1 = st.c1
  | [], _ => rfl
  | i :: xs, st => (c1_foldl_cvtStep hrnd fcs err k a n xs _).trans (c1_cvtStep hrnd fcs err k a n i st)

theorem framed_fcvt {r : RAct} {fcs : Fcs} {s t : State} (h : exec (.fcvt r fcs) s = .next t) : Framed (.fcvt r fcs) s t := by
  refine framed_runBeat (i := .fcvt r fcs) (sp := specFcvt r fcs) rfl rfl (fun x o hx ho => ?_) h
  obtain ⟨-, helem, -⟩ := beatIn_reads hx
  unfold specFcvt specR3 specR at ho
  dsimp only at ho
  split at ho
  case h_1 => cases ho
  case h_2 d hd =>
    cases ho
    refine ⟨rfl, fun _ => _, rfl, ?_⟩
    by_cases hrnd : d.rnd = 4
    · exact .inl ⟨r, fcs, x, d, rfl, hx, hd, hrnd⟩
    · exact .inr ((c1_foldl_cvtStep hrnd ..).trans (congrArg Elem.c1 helem))

/-- Every plain instruction leaves the frame. -/
theorem framed_of_plain {i : Instr} {s t : State} (hplain : plainAction i = true) (h : exec i s = .next t) : Framed i s t := by
  cases i with
  | nop r | mov r | drop r | flgRd r | movi a | cntAdd a | cntSet a | addi a | shli a => exact framed_of_result rfl rfl rfl (fun _ => ⟨_, rfl, rfl, rfl⟩) h
  | sel r n | tmrRd r n => exact framed_of_result rfl rfl rfl (fun _ => ⟨_, rfl, rfl, rfl⟩) h
  | pand a b u | por a b u | pxor a b u | pandn a b u | specRd a b u => exact framed_of_result rfl rfl rfl (fun _ => ⟨_, rfl, rfl, rfl⟩) h
  | add r c | sub r c | mul r c | mulh r c | mad r c | div r c | rem r c | neg r c | abs r c | min r c | max r c | and r c | or r c | xor r c | andn r c
  | not r c | shl r c | shr r c | sar r c | rot r c | clz r c | ctz r c | popc r c | bfe r c | bfi r c | ext r c | lea r c | iota r c | pack r c | unpk r c
  | shuf r c | bcast r c | vred r c | vscn r c | filt r c | xpnd r c | hash r c => exact framed_of_result rfl rfl rfl (fun _ => ⟨_, rfl, rfl, rfl⟩) h
  | cmp r c | ccmp r c => exact framed_of_result rfl rfl rfl (fun _ => ⟨_, rfl, rfl, rfl⟩) h
  | fadd r c | fsub r c | fmul r c | ffma r c | fmin r c | fmax r c | fabs r c | fneg r c | fclt r c | fcle r c | fceq r c | fcun r c | fscl r c | fcls r c
  | fdot r c | frcp r c | frsq r c | fsqrt r c | fex2 r c | flg2 r c | fsin r c | fcos r c | ftnh r c | fsgm r c | fslu r c | fdiv r c =>
    exact framed_of_result rfl rfl rfl (fun _ => ⟨_, rfl, rfl, rfl⟩) h
  | f2i r a b c => exact framed_of_result rfl rfl rfl (fun _ => ⟨_, rfl, rfl, rfl⟩) h
  | i2f r a c | frnd r a c => exact framed_of_result rfl rfl rfl (fun _ => ⟨_, rfl, rfl, rfl⟩) h
  | route r => exact framed_route h
  | q4dq r c => exact framed_q4dq h
  | q4q r c => exact framed_q4q h
  | fcvt r fcs => exact framed_fcvt h
  | _ => cases hplain

/-- Settles O57: the frame of `framed_of_plain`. -/
theorem plainFrame : Obligations.PlainFrame := by
  unfold Obligations.PlainFrame
  intro i s t hplain h l
  obtain ⟨hmem, hpoison, hctxs, helem⟩ := framed_of_plain hplain h
  refine ⟨hmem, hpoison, hctxs, fun m => ?_⟩
  obtain ⟨hd, hc0, hc1, hp, hk, hfpm, hws, hslots, hptr, hflgOwn, hflg⟩ := helem m
  exact ⟨hd, hc0, hc1, hp, hk, hfpm, hws, hslots, hptr, hflgOwn, hflg⟩

end Sys2Proof.Proofs
end

section
/-!
SUPPORT. Magnitudes m × 2^e as rational numbers: shifts, comparisons, the place of the leading bit, and what a rounding to a multiple of 2^g does to one
(spec 02 R33, R34).
-/

namespace Sys2Proof.Proofs

open Machine Laws

/-- The magnitude m × 2^e. -/
def mag (m : Nat) (e : Int) : ℚ := m * 2 ^ e

section
variable {m n : Nat} {e g : Int}

theorem two_zpow_pos (e : Int) : (0 : ℚ) < 2 ^ e := zpow_pos (by norm_num) e

theorem mag_lt_mag : mag m e < mag n e ↔ m < n := by
  rw [mag, mag, mul_lt_mul_iff_left₀ (two_zpow_pos e), Nat.cast_lt]

theorem mag_le_mag : mag m e ≤ mag n e ↔ m ≤ n := by
  rw [mag, mag, mul_le_mul_iff_left₀ (two_zpow_pos e), Nat.cast_le]

theorem mag_inj : mag m e = mag n e ↔ m = n := by
  rw [le_antisymm_iff, mag_le_mag, mag_le_mag, le_antisymm_iff]

theorem mag_eq_zero : mag m e = 0 ↔ m = 0 := by
  rw [mag, mul_eq_zero, Nat.cast_eq_zero, or_iff_left (two_zpow_pos e).ne']

/-- A power of 2 moves between the number and the exponent. -/
theorem mag_mul_pow (m k : Nat) (e : Int) : mag (m * 2 ^ k) e = mag m (e + k) := by
  rw [mag, mag, zpow_add₀ (by norm_num), zpow_natCast]
  push_cast
  ring

theorem mag_two_pow (k : Nat) (e : Int) : mag (2 ^ k) e = 2 ^ (e + k) := by
  rw [← one_mul (2 ^ k), mag_mul_pow, mag, Nat.cast_one, one_mul]

theorem mag_shiftLeft (h : g ≤ e) : mag (m <<< (e - g).toNat) g = mag m e := by
  rw [Nat.shiftLeft_eq, mag_mul_pow, Int.toNat_of_nonneg (by omega), add_sub_cancel]

/-- Two magnitudes compared at an exponent below both. -/
theorem shiftLeft_lt_iff {b : Int} (he : b ≤ e) (hg : b ≤ g) : m <<< (e - b).toNat < n <<< (g - b).toNat ↔ mag m e < mag n g := by
  rw [← mag_lt_mag (e := b), mag_shiftLeft he, mag_shiftLeft hg]

/-- The leading bit bounds a magnitude on both sides. -/
theorem mag_bounds (h : m ≠ 0) (e : Int) : (2 : ℚ) ^ ((Nat.log2 m : Int) + e) ≤ mag m e ∧ mag m e < 2 ^ ((Nat.log2 m : Int) + e + 1) := by
  constructor
  · rw [add_comm, ← mag_two_pow, mag_le_mag]
    exact Nat.log2_self_le h
  · rw [show (Nat.log2 m : Int) + e + 1 = e + (Nat.log2 m + 1 : Nat) by push_cast; ring, ← mag_two_pow, mag_lt_mag]
    exact Nat.lt_log2_self

/-- Equal magnitudes have their leading bits at one place. -/
theorem log2_add_eq (hm : m ≠ 0) (hn : n ≠ 0) (h : mag m e = mag n g) : (Nat.log2 m : Int) + e = Nat.log2 n + g := by
  obtain ⟨hml, hmu⟩ := mag_bounds hm e
  obtain ⟨hnl, hnu⟩ := mag_bounds hn g
  rw [h] at hml hmu
  have h1 : (Nat.log2 m : Int) + e < Nat.log2 n + g + 1 := (zpow_lt_zpow_iff_right₀ (by norm_num : (1 : ℚ) < 2)).1 (lt_of_le_of_lt hml hnu)
  have h2 : (Nat.log2 n : Int) + g < Nat.log2 m + e + 1 := (zpow_lt_zpow_iff_right₀ (by norm_num : (1 : ℚ) < 2)).1 (lt_of_le_of_lt hnl hmu)
  omega

end

/-! ### Rounding to a multiple -/

/-- The multiple of 2^g below a magnitude. -/
theorem shiftRight_floor {m : Nat} {e g : Int} (h : e < g) :
    mag (m >>> (g - e).toNat) g ≤ mag m e ∧ mag m e < mag (m >>> (g - e).toNat + 1) g := by
  have hge : g = e + ((g - e).toNat : Int) := by omega
  have hmag (n : Nat) : mag n g = mag (n * 2 ^ (g - e).toNat) e := by rw [mag_mul_pow, ← hge]
  rw [hmag, hmag, mag_le_mag, mag_lt_mag, Nat.shiftRight_eq_div_pow]
  exact ⟨Nat.div_mul_le_self .., Nat.lt_mul_of_div_lt (Nat.lt_succ_self _) (Nat.two_pow_pos _)⟩

/-- A magnitude with no part below 2^g is a multiple of it. -/
theorem shiftRight_exact {m : Nat} {e g : Int} (h : e < g) (hrem : m % 2 ^ (g - e).toNat = 0) : mag (m >>> (g - e).toNat) g = mag m e := by
  have hge : g = e + ((g - e).toNat : Int) := by omega
  have hmag : mag (m >>> (g - e).toNat) g = mag (m >>> (g - e).toNat * 2 ^ (g - e).toNat) e := by rw [mag_mul_pow, ← hge]
  rw [hmag, Nat.shiftRight_eq_div_pow, Nat.div_mul_cancel (Nat.dvd_of_mod_eq_zero hrem)]

section
variable (rd : Dir) (neg : Bool) {m : Nat} {e g : Int}

theorem roundAt_exact (h : g ≤ e) : roundAt rd neg m e g = (m <<< (e - g).toNat, true) := if_pos h

/-- A rounding stays within the multiples that enclose the magnitude. -/
theorem roundAt_le_of_lt {n : Nat} (h : mag m e < mag n g) : (roundAt rd neg m e g).1 ≤ n := by
  unfold roundAt
  split
  case isTrue hg =>
    rw [← mag_shiftLeft hg, mag_lt_mag] at h
    exact h.le
  case isFalse hg =>
    have hq := mag_lt_mag.1 (lt_of_le_of_lt (shiftRight_floor (Int.not_le.1 hg)).1 h)
    dsimp only
    split <;> omega

theorem le_roundAt_of_le {n : Nat} (h : mag n g ≤ mag m e) : n ≤ (roundAt rd neg m e g).1 := by
  unfold roundAt
  split
  case isTrue hg => rwa [← mag_shiftLeft hg, mag_le_mag] at h
  case isFalse hg =>
    have hq := mag_lt_mag.1 (lt_of_le_of_lt h (shiftRight_floor (Int.not_le.1 hg)).2)
    dsimp only
    split <;> omega

/-- Toward zero. -/
theorem roundAt_toward (h : ∀ q rem sh, roundsUp rd neg q rem sh = false) : mag (roundAt rd neg m e g).1 g ≤ mag m e := by
  unfold roundAt
  split
  case isTrue hg => exact (mag_shiftLeft hg).le
  case isFalse hg =>
    dsimp only
    rw [h, if_neg Bool.false_ne_true]
    exact (shiftRight_floor (Int.not_le.1 hg)).1

/-- Away from zero. -/
theorem roundAt_away (h : ∀ q rem sh, rem ≠ 0 → roundsUp rd neg q rem sh = true) : mag m e ≤ mag (roundAt rd neg m e g).1 g := by
  unfold roundAt
  split
  case isTrue hg => exact (mag_shiftLeft hg).ge
  case isFalse hg =>
    dsimp only
    by_cases hrem : m % 2 ^ (g - e).toNat = 0
    · rw [← shiftRight_exact (Int.not_le.1 hg) hrem, mag_le_mag]
      split <;> omega
    · rw [h _ _ _ hrem, if_pos rfl]
      exact (shiftRight_floor (Int.not_le.1 hg)).2.le

end

end Sys2Proof.Proofs
end

section
/-!
SUPPORT. The finite values of a format (spec 02 R26 to R28, R34): a significand and an offset from the lowest exponent, the bits that encode them, what the bits
are read as, and the bits that a magnitude is packed in.
-/

namespace Sys2Proof.Proofs

open Machine Laws

/-- The exponent of a format's lowest bit. -/
def emin (f : Fmt) : Int := 1 - (expBias f : Int) - fracBits f

/-- The largest finite significand, and its exponent's offset from the lowest. -/
def maxSig : Fmt → Nat
  | .e4m3 => 14
  | f => 2 ^ (fracBits f + 1) - 1

def maxOff : Fmt → Nat
  | .e4m3 => 14
  | f => 2 ^ expBits f - 3

/-- The bits of the significand s at offset k. -/
def encode (f : Fmt) (neg : Bool) (s k : Nat) : Nat :=
  signBit f neg + if s < 2 ^ fracBits f then s else (k + 1) * 2 ^ fracBits f + s % 2 ^ fracBits f

/-- A significand and an offset that the format has: the hidden bit is 0 only at the lowest exponent. -/
structure Holds (f : Fmt) (s k : Nat) : Prop where
  lt : s < 2 ^ (fracBits f + 1)
  sub : s < 2 ^ fracBits f → k = 0
  range : s * 2 ^ k ≤ maxSig f * 2 ^ maxOff f

theorem fmtWidth_eq (f : Fmt) : fmtWidth f = expBits f + fracBits f + 1 := by cases f <;> rfl

theorem unpack_maxFinite (f : Fmt) : unpack f (maxFinite f) = .fin false (maxSig f) (emin f + maxOff f) := by cases f <;> decide

theorem encode_max (f : Fmt) (neg : Bool) : encode f neg (maxSig f) (maxOff f) = signBit f neg + maxFinite f := by
  have hmax : ∀ f : Fmt, (if maxSig f < 2 ^ fracBits f then maxSig f else (maxOff f + 1) * 2 ^ fracBits f + maxSig f % 2 ^ fracBits f) = maxFinite f := by
    intro f; cases f <;> decide
  rw [encode, hmax]

theorem holds_max (f : Fmt) : Holds f (maxSig f) (maxOff f) := by cases f <;> exact ⟨by decide, by decide, le_rfl⟩

/-- A magnitude over the largest finite one. -/
theorem overMax_iff (f : Fmt) (m : Nat) (e : Int) : overMax f m e = true ↔ mag (maxSig f) (emin f + maxOff f) < mag m e := by
  have hover : overMax f m e = decide (maxSig f <<< (emin f + maxOff f - if e ≤ emin f + maxOff f then e else emin f + maxOff f).toNat <
      m <<< (e - if e ≤ emin f + maxOff f then e else emin f + maxOff f).toNat) := by
    rw [overMax, unpack_maxFinite]
  rw [hover, decide_eq_true_iff, shiftLeft_lt_iff (by split <;> omega) (by split <;> omega)]

/-! ### The fields of the bits -/

theorem signBit_eq (f : Fmt) (neg : Bool) : signBit f neg = neg.toNat * 2 ^ expBits f * 2 ^ fracBits f := by
  rw [signBit, fmtWidth_eq, Nat.add_sub_cancel, pow_add]
  cases neg <;> simp

/-- The bits of a sign, an exponent field and a fraction. -/
theorem word_fields {f : Fmt} {ex fr : Nat} (neg : Bool) (hex : ex < 2 ^ expBits f) (hfr : fr < 2 ^ fracBits f) :
    let x := signBit f neg + (ex * 2 ^ fracBits f + fr)
    x % 2 ^ fracBits f = fr ∧ (x >>> fracBits f) % 2 ^ expBits f = ex ∧ x.testBit (fmtWidth f - 1) = neg := by
  dsimp only
  have hword : signBit f neg + (ex * 2 ^ fracBits f + fr) = 2 ^ fracBits f * (2 ^ expBits f * neg.toNat + ex) + fr := by rw [signBit_eq]; ring
  have hdiv : (2 ^ fracBits f * (2 ^ expBits f * neg.toNat + ex) + fr) / 2 ^ fracBits f = 2 ^ expBits f * neg.toNat + ex := by
    rw [Nat.mul_add_div (Nat.two_pow_pos _), Nat.div_eq_of_lt hfr, add_zero]
  rw [hword]
  refine ⟨by rw [Nat.mul_add_mod, Nat.mod_eq_of_lt hfr], by rw [Nat.shiftRight_eq_div_pow, hdiv, Nat.mul_add_mod, Nat.mod_eq_of_lt hex], ?_⟩
  rw [Nat.testBit_eq_decide_div_mod_eq, fmtWidth_eq, Nat.add_sub_cancel, Nat.add_comm (expBits f), pow_add, ← Nat.div_div_eq_div_mul, hdiv,
    Nat.mul_add_div (Nat.two_pow_pos _), Nat.div_eq_of_lt hex, add_zero]
  cases neg <;> rfl

/-- Bits of the format's width are their fields. -/
theorem word_of_fields {f : Fmt} {x : Nat} (hx : x < 2 ^ fmtWidth f) :
    signBit f (x.testBit (fmtWidth f - 1)) + ((x >>> fracBits f) % 2 ^ expBits f * 2 ^ fracBits f + x % 2 ^ fracBits f) = x := by
  have htop : x / 2 ^ fracBits f / 2 ^ expBits f < 2 := by
    rw [Nat.div_div_eq_div_mul, ← pow_add, Nat.div_lt_iff_lt_mul (Nat.two_pow_pos _), ← pow_succ', Nat.add_comm (fracBits f), ← fmtWidth_eq]
    exact hx
  have hsign : (x.testBit (fmtWidth f - 1)).toNat = x / 2 ^ fracBits f / 2 ^ expBits f := by
    rw [Nat.testBit_eq_decide_div_mod_eq, fmtWidth_eq, Nat.add_sub_cancel, Nat.add_comm (expBits f), pow_add, ← Nat.div_div_eq_div_mul, Nat.mod_eq_of_lt htop]
    generalize x / 2 ^ fracBits f / 2 ^ expBits f = b at htop
    interval_cases b <;> rfl
  rw [signBit_eq, hsign, Nat.shiftRight_eq_div_pow, ← add_assoc, ← add_mul, Nat.div_add_mod', Nat.div_add_mod']

/-- The fields of a finite value. -/
def finiteFields (f : Fmt) (ex fr : Nat) : Prop := if f = .e4m3 then ¬(ex = 15 ∧ fr = 7) else ex ≠ 2 ^ expBits f - 1

/-- A finite value by its fields: the fraction with the hidden bit, at its exponent's offset. -/
def finVal (f : Fmt) (neg : Bool) (ex fr : Nat) : Val :=
  if ex = 0 then .fin neg fr (emin f) else .fin neg (fr + 2 ^ fracBits f) (ex - expBias f - fracBits f)

section
variable {f : Fmt} {x : Nat}

/-- A format but e4m3: the highest exponent field is that of infinities and NaNs. -/
theorem unpack_wide (hf : f ≠ .e4m3) : unpack f x = if (x >>> fracBits f) % 2 ^ expBits f = 2 ^ expBits f - 1 then
      if x % 2 ^ fracBits f = 0 then .inf (x.testBit (fmtWidth f - 1)) else .nan ((x % 2 ^ fracBits f).testBit (fracBits f - 1))
    else finVal f (x.testBit (fmtWidth f - 1)) ((x >>> fracBits f) % 2 ^ expBits f) (x % 2 ^ fracBits f) := by
  cases f
  case e4m3 => exact absurd rfl hf
  all_goals rfl

theorem unpack_e4m3 : unpack .e4m3 x = if (x >>> fracBits .e4m3) % 2 ^ expBits .e4m3 = 15 ∧ x % 2 ^ fracBits .e4m3 = 7 then .nan true
    else finVal .e4m3 (x.testBit (fmtWidth .e4m3 - 1)) ((x >>> fracBits .e4m3) % 2 ^ expBits .e4m3) (x % 2 ^ fracBits .e4m3) := by
  unfold unpack finVal
  dsimp only
  by_cases hnan : (x >>> fracBits .e4m3) % 2 ^ expBits .e4m3 = 15 ∧ x % 2 ^ fracBits .e4m3 = 7
  · rw [if_pos hnan, if_pos hnan]
  · rw [if_neg hnan, if_neg hnan]
    have hexp (ex : Int) : ex - 10 = ex - expBias .e4m3 - fracBits .e4m3 := by rw [expBias, fracBits]; omega
    rw [hexp]
    rfl

theorem unpack_finite (h : finiteFields f ((x >>> fracBits f) % 2 ^ expBits f) (x % 2 ^ fracBits f)) :
    unpack f x = finVal f (x.testBit (fmtWidth f - 1)) ((x >>> fracBits f) % 2 ^ expBits f) (x % 2 ^ fracBits f) := by
  by_cases hf : f = .e4m3
  · subst hf
    exact unpack_e4m3.trans (if_neg h)
  · rw [finiteFields, if_neg hf] at h
    rw [unpack_wide hf, if_neg h]

theorem finite_of_unpack {n : Bool} {m : Nat} {e : Int} (h : unpack f x = .fin n m e) :
    finiteFields f ((x >>> fracBits f) % 2 ^ expBits f) (x % 2 ^ fracBits f) := by
  by_cases hf : f = .e4m3
  · subst hf
    intro hnan
    rw [unpack_e4m3, if_pos hnan] at h
    cases h
  · rw [finiteFields, if_neg hf]
    intro hmax
    rw [unpack_wide hf, if_pos hmax] at h
    split at h <;> cases h

end

/-! ### Encodings -/

section
variable {f : Fmt} {s k : Nat} (h : Holds f s k)
include h

/-- The exponent field of a significand with its hidden bit is not beyond the finite ones. -/
theorem off_le_maxOff : k ≤ maxOff f := by
  by_cases hsub : s < 2 ^ fracBits f
  · rw [h.sub hsub]
    exact Nat.zero_le _
  · have hmax : maxSig f < 2 ^ fracBits f * 2 := by rw [← pow_succ]; exact (holds_max f).lt
    have hlow : 2 ^ fracBits f * 2 ^ k ≤ maxSig f * 2 ^ maxOff f := le_trans (Nat.mul_le_mul_right _ (Nat.not_lt.1 hsub)) h.range
    have hlt : 2 ^ fracBits f * 2 ^ k < 2 ^ fracBits f * 2 ^ (maxOff f + 1) := by
      rw [pow_succ' 2 (maxOff f), ← mul_assoc]
      exact lt_of_le_of_lt hlow (Nat.mul_lt_mul_of_pos_right hmax (Nat.two_pow_pos _))
    exact Nat.lt_succ_iff.1 ((Nat.pow_lt_pow_iff_right (by decide)).1 (Nat.lt_of_mul_lt_mul_left hlt))

/-- What an encoding is read as. -/
theorem unpack_encode (neg : Bool) : unpack f (encode f neg s k) = .fin neg s (emin f + k) := by
  have hexp : ∀ f : Fmt, maxOff f + 1 < 2 ^ expBits f := by intro f; cases f <;> decide
  by_cases hsub : s < 2 ^ fracBits f
  · obtain ⟨hfr, hex, hneg⟩ := word_fields neg (Nat.two_pow_pos (expBits f)) hsub
    rw [zero_mul, zero_add] at hfr hex hneg
    have hfin : finiteFields f 0 s := by
      unfold finiteFields
      cases f <;> simp [expBits]
    rw [encode, if_pos hsub, unpack_finite (by rw [hfr, hex]; exact hfin), hfr, hex, hneg, finVal, if_pos rfl, h.sub hsub, Nat.cast_zero, add_zero]
  · have hfrac : s % 2 ^ fracBits f = s - 2 ^ fracBits f := by
      rw [Nat.mod_eq_sub_mod (Nat.not_lt.1 hsub), Nat.mod_eq_of_lt]
      have := h.lt
      rw [pow_succ] at this
      omega
    have hoff := off_le_maxOff h
    obtain ⟨hfr, hex, hneg⟩ := word_fields neg (lt_of_le_of_lt (Nat.succ_le_succ hoff) (hexp f)) (Nat.mod_lt s (Nat.two_pow_pos (fracBits f)))
    have hfin : finiteFields f (k + 1) (s % 2 ^ fracBits f) := by
      unfold finiteFields
      split
      case isTrue hf =>
        subst hf
        rintro ⟨hk, hs⟩
        have hrange : s * 2 ^ k ≤ 14 * 2 ^ 14 := h.range
        obtain rfl : k = 14 := by omega
        rw [fracBits] at hs hsub
        omega
      case isFalse hf =>
        have hmax : maxOff f + 2 = 2 ^ expBits f - 1 := by
          cases f
          case e4m3 => exact absurd rfl hf
          all_goals rfl
        rw [← hmax]
        exact (Nat.succ_lt_succ (Nat.lt_succ_of_le hoff)).ne
    rw [encode, if_neg hsub, unpack_finite (by rw [hfr, hex]; exact hfin), hfr, hex, hneg, finVal, if_neg (Nat.succ_ne_zero k), hfrac,
      Nat.sub_add_cancel (Nat.not_lt.1 hsub)]
    exact congrArg (Val.fin _ _) (by unfold emin; push_cast; ring)

end

/-- A significand up to the hidden bit is in range at the lowest exponent. -/
theorem range_low {f : Fmt} {s : Nat} (h : s ≤ 2 ^ fracBits f) : s * 2 ^ 0 ≤ maxSig f * 2 ^ maxOff f := by
  have hmax : ∀ f : Fmt, 2 ^ fracBits f ≤ maxSig f := by intro f; cases f <;> decide
  rw [pow_zero, mul_one]
  exact le_trans (le_trans h (hmax f)) (Nat.le_mul_of_pos_right _ (Nat.two_pow_pos _))

/-- Finite fields with a hidden bit are in range. -/
theorem range_of_finiteFields {f : Fmt} {ex fr : Nat} (h : finiteFields f ex fr) (hex : ex < 2 ^ expBits f) (hfr : fr < 2 ^ fracBits f) :
    (fr + 2 ^ fracBits f) * 2 ^ (ex - 1) ≤ maxSig f * 2 ^ maxOff f := by
  unfold finiteFields at h
  split at h
  case isTrue hf =>
    subst hf
    have hfr8 : fr < 8 := hfr
    have hex16 : ex < 16 := hex
    have hgoal : (fr + 8) * 2 ^ (ex - 1) ≤ 14 * 2 ^ 14 := by
      by_cases htop : ex = 15
      · subst htop
        exact Nat.mul_le_mul_right (2 ^ 14) (by omega)
      · exact le_trans (Nat.mul_le_mul (by omega : fr + 8 ≤ 15) (Nat.pow_le_pow_right (by decide) (by omega : ex - 1 ≤ 13))) (by decide)
    exact hgoal
  case isFalse hf =>
    have hmax : maxSig f = 2 ^ (fracBits f + 1) - 1 ∧ maxOff f = 2 ^ expBits f - 3 := by
      cases f
      case e4m3 => exact absurd rfl hf
      all_goals exact ⟨rfl, rfl⟩
    rw [hmax.1, hmax.2]
    refine Nat.mul_le_mul ?_ (Nat.pow_le_pow_right (by decide) (by omega))
    rw [pow_succ]
    omega

/-- The bits of a finite value encode it. -/
theorem encode_of_unpack {f : Fmt} {x m : Nat} {n : Bool} {e : Int} (hx : x < 2 ^ fmtWidth f) (h : unpack f x = .fin n m e) :
    ∃ k : Nat, e = emin f + k ∧ Holds f m k ∧ encode f n m k = x := by
  have hfin := finite_of_unpack h
  have hword := word_of_fields hx
  have hfr : x % 2 ^ fracBits f < 2 ^ fracBits f := Nat.mod_lt _ (Nat.two_pow_pos _)
  have hex : (x >>> fracBits f) % 2 ^ expBits f < 2 ^ expBits f := Nat.mod_lt _ (Nat.two_pow_pos _)
  rw [unpack_finite hfin] at h
  generalize (x >>> fracBits f) % 2 ^ expBits f = ex at hfin hword hex h
  generalize x % 2 ^ fracBits f = fr at hfin hword hfr h
  unfold finVal at h
  split at h
  case isTrue hzero =>
    obtain ⟨rfl, rfl, rfl⟩ := Val.fin.inj h
    refine ⟨0, by simp, ⟨lt_trans hfr (Nat.pow_lt_pow_right (by decide) (Nat.lt_succ_self _)), fun _ => rfl, range_low hfr.le⟩, ?_⟩
    rw [hzero, zero_mul, zero_add] at hword
    rw [encode, if_pos hfr, hword]
  case isFalse hpos =>
    obtain ⟨rfl, rfl, rfl⟩ := Val.fin.inj h
    refine ⟨ex - 1, ?_, ⟨?_, fun hsub => absurd hsub (by omega), range_of_finiteFields hfin hex hfr⟩, ?_⟩
    · unfold emin
      omega
    · rw [pow_succ]
      omega
    · rw [encode, if_neg (by omega), Nat.sub_add_cancel (by omega), Nat.add_mod_right, Nat.mod_eq_of_lt hfr, hword]

/-! ### Packing -/

/-- A number moved from one exponent to another of the same magnitude. -/
theorem shift_eq_of_mag_eq {m s : Nat} {e g : Int} (h : mag m e = mag s g) : (if g ≤ e then m <<< (e - g).toNat else m >>> (g - e).toNat) = s := by
  split
  case isTrue hg => rwa [← mag_shiftLeft hg, mag_inj] at h
  case isFalse hg =>
    rw [← mag_shiftLeft (Int.not_le.1 hg).le, mag_inj] at h
    rw [h, Nat.shiftLeft_shiftRight]

/-- The exponent at which a number of the format's is packed. -/
theorem place_of_holds {f : Fmt} {s k : Nat} (h : Holds f s k) (hs : s ≠ 0) {top : Int} (htop : top = Nat.log2 s + (emin f + k)) :
    (if top - fracBits f < emin f then emin f else top - fracBits f) = emin f + k := by
  by_cases hsub : s < 2 ^ fracBits f
  · have hlog : Nat.log2 s < fracBits f := (Nat.log2_lt hs).2 hsub
    rw [h.sub hsub] at htop ⊢
    rw [if_pos (by omega), Nat.cast_zero, add_zero]
  · have hlog : Nat.log2 s = fracBits f := (Nat.log2_eq_iff hs).2 ⟨Nat.not_lt.1 hsub, h.lt⟩
    rw [if_neg (by omega)]
    omega

/-- A magnitude of the format's is packed in its encoding. -/
theorem packFinite_eq {f : Fmt} {m s k : Nat} {e : Int} (neg : Bool) (h : Holds f s k) (hmag : mag m e = mag s (emin f + k)) :
    packFinite f neg m e = encode f neg s k := by
  have hzero : m = 0 ↔ s = 0 := by rw [← mag_eq_zero (e := e), hmag, mag_eq_zero]
  unfold packFinite
  split
  case isTrue hm => rw [encode, hzero.1 hm, if_pos (Nat.two_pow_pos _), add_zero]
  case isFalse hm =>
    have hs : s ≠ 0 := fun hs => hm (hzero.2 hs)
    dsimp only
    rw [show 1 - (expBias f : Int) - fracBits f = emin f from rfl, place_of_holds h hs (log2_add_eq hm hs hmag), shift_eq_of_mag_eq hmag, encode]
    split
    · rfl
    · rw [show (emin f + k - emin f + 1).toNat = k + 1 by omega, Nat.shiftLeft_eq, add_assoc]

end Sys2Proof.Proofs
end

section
/-!
PROOF. Rounding (spec 02 R26 to R28, R33, R34): a magnitude that the format holds is its own encoding, every other lands on one that the format holds on the side of
its direction or beyond the largest; from these lemmas the obligation Rounding.
-/

namespace Sys2Proof.Proofs

open Machine Laws

/-! ### The steps of a rounding -/

/-- The exponent at which a magnitude has the format's precision. -/
def place (f : Fmt) (m : Nat) (e : Int) : Int := (Nat.log2 m : Int) + e - fracBits f

/-- Whether a magnitude over the largest finite one becomes an infinity. -/
def toInf (rd : Dir) (neg : Bool) : Bool :=
  match rd with
  | .rne | .rna | .sr _ => true
  | .rup => !neg
  | .rdn => neg
  | .rtz => false

def overResult (f : Fmt) (rd : Dir) (fcs : Fcs) (neg : Bool) : Nat × Flags :=
  if toInf rd neg && !fcs.s then (infBits f neg, fOF ||| fNX) else (signBit f neg + maxFinite f, fOF ||| fNX ||| flagIf (toInf rd neg && fcs.s) fSAT)

/-- A magnitude below the normal ones, rounded at the lowest exponent. -/
def subResult (f : Fmt) (rd : Dir) (fcs : Fcs) (neg : Bool) (m : Nat) (e : Int) : Nat × Flags :=
  if fcs.f then (signBit f neg, fUF ||| fNX)
  else (packFinite f neg (roundAt rd neg m e (emin f)).1 (emin f), flagIf (!(roundAt rd neg m e (emin f)).2) (fUF ||| fNX))

theorem roundFin_eq (f : Fmt) (rd : Dir) (fcs : Fcs) (neg : Bool) (m : Nat) (e : Int) : roundFin f rd fcs neg m e =
    if overMax f (roundAt rd neg m e (place f m e)).1 (place f m e) then overResult f rd fcs neg
    else if decide (place f m e < emin f) && decide ((roundAt rd neg m e (place f m e)).1 < 2 ^ fracBits f <<< (emin f - place f m e).toNat) then
      subResult f rd fcs neg m e
    else (packFinite f neg (roundAt rd neg m e (place f m e)).1 (place f m e), flagIf (!(roundAt rd neg m e (place f m e)).2) fNX) := by
  have hplace : (Nat.log2 m : Int) + e + 1 - (fracBits f + 1) = place f m e := by unfold place; omega
  unfold roundFin
  dsimp only
  rw [hplace]
  rfl

section
variable {f : Fmt} {rd : Dir} {fcs : Fcs} {neg : Bool} {m : Nat} {e : Int}

/-- A rounding at the format's precision has the format's significand, or twice the hidden bit. -/
theorem roundAt_place_bounds (hm : m ≠ 0) :
    2 ^ fracBits f ≤ (roundAt rd neg m e (place f m e)).1 ∧ (roundAt rd neg m e (place f m e)).1 ≤ 2 ^ (fracBits f + 1) := by
  obtain ⟨hlow, hhigh⟩ := mag_bounds hm e
  constructor
  · refine le_roundAt_of_le rd neg ?_
    rw [mag_two_pow, place, sub_add_cancel]
    exact hlow
  · refine roundAt_le_of_lt rd neg ?_
    rw [mag_two_pow, place, Nat.cast_succ, ← add_assoc, sub_add_cancel]
    exact hhigh

/-- Being below the normal magnitudes, as the model tests it. -/
theorem below_iff {y : Nat} {g : Int} (hg : g < emin f) : y < 2 ^ fracBits f <<< (emin f - g).toNat ↔ mag y g < mag (2 ^ fracBits f) (emin f) := by
  rw [← mag_lt_mag (e := g), mag_shiftLeft hg.le]

/-! ### Magnitudes that the format holds -/

theorem mag_le_max {s k : Nat} (h : Holds f s k) : mag s (emin f + k) ≤ mag (maxSig f) (emin f + maxOff f) := by
  rw [← mag_mul_pow, ← mag_mul_pow, mag_le_mag]
  exact h.range

theorem isSubnormal_encode {s k : Nat} (hs : s ≠ 0) (hsub : s < 2 ^ fracBits f) : isSubnormal f (encode f neg s k) = true := by
  obtain ⟨hfr, hex, -⟩ := word_fields neg (Nat.two_pow_pos (expBits f)) hsub
  rw [zero_mul, zero_add] at hfr hex
  rw [isSubnormal, encode, if_pos hsub, hfr, hex]
  simpa using hs

/-- A magnitude that the format holds is rounded to its encoding, without a flag. -/
theorem roundFin_exact {k : Nat} (h : Holds f m k) (hm : m ≠ 0) (hflush : fcs.f = true → isSubnormal f (encode f neg m k) = false) :
    roundFin f rd fcs neg m (emin f + k) = (encode f neg m k, 0#7) := by
  have hlog : Nat.log2 m < fracBits f + 1 := (Nat.log2_lt hm).2 h.lt
  have hround : roundAt rd neg m (emin f + k) (place f m (emin f + k)) = (m <<< (emin f + k - place f m (emin f + k)).toNat, true) :=
    roundAt_exact rd neg (by unfold place; omega)
  have hmag : mag (m <<< (emin f + k - place f m (emin f + k)).toNat) (place f m (emin f + k)) = mag m (emin f + k) := mag_shiftLeft (by unfold place; omega)
  have hfits : ¬overMax f (m <<< (emin f + k - place f m (emin f + k)).toNat) (place f m (emin f + k)) = true := by
    rw [overMax_iff, hmag]
    exact not_lt.2 (mag_le_max h)
  rw [roundFin_eq, hround, if_neg hfits]
  split
  case isTrue hbelow =>
    simp only [Bool.and_eq_true, decide_eq_true_eq] at hbelow
    have hsub : m < 2 ^ fracBits f := by
      have hlt := (below_iff hbelow.1).1 hbelow.2
      rw [hmag, ← mag_mul_pow, mag_lt_mag] at hlt
      exact lt_of_le_of_lt (Nat.le_mul_of_pos_right m (Nat.two_pow_pos k)) hlt
    have hnoflush : fcs.f ≠ true := fun hf => Bool.false_ne_true ((hflush hf).symm.trans (isSubnormal_encode hm hsub))
    have hlow : roundAt rd neg m (emin f + k) (emin f) = (m <<< (emin f + k - emin f).toNat, true) := roundAt_exact rd neg (by omega)
    rw [subResult, if_neg hnoflush, hlow, packFinite_eq neg h (mag_shiftLeft (by omega))]
    rfl
  case isFalse => rw [packFinite_eq neg h hmag]; rfl

/-! ### Directed rounding -/

theorem range_of_fits {y s k : Nat} {g : Int} (hfits : ¬overMax f y g = true) (hmag : mag s (emin f + k) = mag y g) :
    s * 2 ^ k ≤ maxSig f * 2 ^ maxOff f := by
  rw [overMax_iff, not_lt, ← hmag, ← mag_mul_pow, ← mag_mul_pow, mag_le_mag] at hfits
  exact hfits

/-- A multiple in range that is not below the normal magnitudes is one that the format holds. -/
theorem holds_of_normal {y : Nat} {g : Int} (hlow : 2 ^ fracBits f ≤ y) (hhigh : y ≤ 2 ^ (fracBits f + 1)) (hfits : ¬overMax f y g = true)
    (hnormal : g < emin f → 2 ^ fracBits f <<< (emin f - g).toNat ≤ y) : ∃ s k : Nat, Holds f s k ∧ mag y g = mag s (emin f + k) := by
  have hplace : g < emin f → fracBits f + (emin f - g).toNat ≤ fracBits f + 1 := fun hg => by
    have hle := le_trans (hnormal hg) hhigh
    rw [Nat.shiftLeft_eq, ← pow_add] at hle
    exact (Nat.pow_le_pow_iff_right (by decide)).1 hle
  by_cases hy : y < 2 ^ (fracBits f + 1)
  · have hg : emin f ≤ g := by
      by_contra hlt
      have hle := hnormal (Int.not_le.1 hlt)
      rw [Nat.shiftLeft_eq, ← pow_add] at hle
      exact absurd (le_trans (Nat.pow_le_pow_right (by decide) (by omega)) hle) (Nat.not_le.2 hy)
    have hmag : mag y (emin f + (g - emin f).toNat) = mag y g := by rw [show emin f + ((g - emin f).toNat : Int) = g by omega]
    exact ⟨y, (g - emin f).toNat, ⟨hy, fun hsub => absurd hsub (Nat.not_lt.2 hlow), range_of_fits hfits hmag⟩, hmag.symm⟩
  · obtain rfl : y = 2 ^ (fracBits f + 1) := le_antisymm hhigh (Nat.not_lt.1 hy)
    have hmag : mag (2 ^ fracBits f) (emin f + (g + 1 - emin f).toNat) = mag (2 ^ (fracBits f + 1)) g := by
      rw [mag_two_pow, mag_two_pow]
      congr 1
      push_cast
      omega
    exact ⟨2 ^ fracBits f, (g + 1 - emin f).toNat,
      ⟨Nat.pow_lt_pow_right (by decide) (Nat.lt_succ_self _), fun hsub => absurd hsub (lt_irrefl _), range_of_fits hfits hmag⟩, hmag.symm⟩

/-- A magnitude below the normal ones is rounded to one that the format holds at its lowest exponent. -/
theorem holds_below (hm : m ≠ 0) (hbelow : place f m e < emin f) : Holds f (roundAt rd neg m e (emin f)).1 0 := by
  have hle : (roundAt rd neg m e (emin f)).1 ≤ 2 ^ fracBits f := by
    refine roundAt_le_of_lt rd neg (lt_of_lt_of_le (mag_bounds hm e).2 ?_)
    rw [mag_two_pow]
    exact zpow_le_zpow_right₀ (by norm_num) (by unfold place at hbelow; omega)
  exact ⟨lt_of_le_of_lt hle (Nat.pow_lt_pow_right (by decide) (Nat.lt_succ_self _)), fun _ => rfl, range_low hle⟩

/-- A rounding in range is the encoding of the magnitude rounded to some multiple. -/
theorem roundFin_finite (hm : m ≠ 0) (hflush : fcs.f = false) (hfits : ¬overMax f (roundAt rd neg m e (place f m e)).1 (place f m e) = true) :
    ∃ (s k : Nat) (g : Int), Holds f s k ∧ (roundFin f rd fcs neg m e).1 = encode f neg s k ∧ mag s (emin f + k) = mag (roundAt rd neg m e g).1 g := by
  rw [roundFin_eq, if_neg hfits]
  split
  case isTrue hbelow =>
    simp only [Bool.and_eq_true, decide_eq_true_eq] at hbelow
    have hholds : Holds f (roundAt rd neg m e (emin f)).1 0 := holds_below hm hbelow.1
    have hmag : mag (roundAt rd neg m e (emin f)).1 (emin f) = mag (roundAt rd neg m e (emin f)).1 (emin f + (0 : Nat)) := by rw [Nat.cast_zero, add_zero]
    refine ⟨_, 0, emin f, hholds, ?_, hmag.symm⟩
    rw [subResult, if_neg (by rw [hflush]; exact Bool.false_ne_true)]
    exact packFinite_eq neg hholds hmag
  case isFalse hnormal =>
    simp only [Bool.and_eq_true, decide_eq_true_eq, not_and, not_lt] at hnormal
    obtain ⟨hlow, hhigh⟩ := roundAt_place_bounds (f := f) (rd := rd) (neg := neg) (e := e) hm
    obtain ⟨s, k, hholds, hmag⟩ := holds_of_normal hlow hhigh hfits hnormal
    exact ⟨s, k, _, hholds, packFinite_eq neg hholds hmag, hmag.symm⟩

/-- Directions toward zero: nothing is rounded up, and what is too large is the largest finite value. -/
structure Toward (rd : Dir) (neg : Bool) : Prop where
  down : ∀ q rem sh, roundsUp rd neg q rem sh = false
  finite : toInf rd neg = false

/-- Directions away from zero: all that is not exact is rounded up, and what is too large is an infinity. -/
structure Away (rd : Dir) (neg : Bool) : Prop where
  up : ∀ q rem sh, rem ≠ 0 → roundsUp rd neg q rem sh = true
  infinite : toInf rd neg = true

theorem toward_rtz (neg : Bool) : Toward .rtz neg := ⟨fun q rem sh => by simp [roundsUp], rfl⟩
theorem toward_rdn : Toward .rdn false := ⟨fun q rem sh => by simp [roundsUp], rfl⟩
theorem toward_rup : Toward .rup true := ⟨fun q rem sh => by simp [roundsUp], rfl⟩
theorem away_rdn : Away .rdn true := ⟨fun q rem sh h => by simp [roundsUp, h], rfl⟩
theorem away_rup : Away .rup false := ⟨fun q rem sh h => by simp [roundsUp, h], rfl⟩

/-- Toward zero the magnitude does not grow. -/
theorem unpack_toward (h : Toward rd neg) (hm : m ≠ 0) (hflush : fcs.f = false) :
    ∃ m' e', unpack f (roundFin f rd fcs neg m e).1 = .fin neg m' e' ∧ mag m' e' ≤ mag m e := by
  by_cases hover : overMax f (roundAt rd neg m e (place f m e)).1 (place f m e) = true
  · refine ⟨maxSig f, emin f + maxOff f, ?_, le_trans ((overMax_iff ..).1 hover).le (roundAt_toward rd neg h.down)⟩
    rw [roundFin_eq, if_pos hover, overResult, h.finite, Bool.false_and, if_neg Bool.false_ne_true, ← encode_max]
    exact unpack_encode (holds_max f) neg
  · obtain ⟨s, k, g, hholds, hbits, hmag⟩ := roundFin_finite hm hflush hover
    exact ⟨s, emin f + k, by rw [hbits]; exact unpack_encode hholds neg, hmag ▸ roundAt_toward rd neg h.down⟩

theorem unpack_infBits (hf : f ≠ .e4m3) (neg : Bool) : unpack f (infBits f neg) = .inf neg := by
  cases f
  case e4m3 => exact absurd rfl hf
  all_goals cases neg <;> decide

/-- Away from zero the magnitude does not shrink. -/
theorem unpack_away (hf : f ≠ .e4m3) (h : Away rd neg) (hm : m ≠ 0) (hflush : fcs.f = false) (hsat : fcs.s = false) :
    unpack f (roundFin f rd fcs neg m e).1 = .inf neg ∨
    ∃ m' e', unpack f (roundFin f rd fcs neg m e).1 = .fin neg m' e' ∧ mag m e ≤ mag m' e' := by
  by_cases hover : overMax f (roundAt rd neg m e (place f m e)).1 (place f m e) = true
  · left
    rw [roundFin_eq, if_pos hover, overResult, h.infinite, hsat, if_pos (by decide)]
    exact unpack_infBits hf neg
  · obtain ⟨s, k, g, hholds, hbits, hmag⟩ := roundFin_finite hm hflush hover
    exact .inr ⟨s, emin f + k, by rw [hbits]; exact unpack_encode hholds neg, hmag ▸ roundAt_away rd neg h.up⟩

/-- Two values of one sign are compared by their magnitudes. -/
theorem ltVal_fin (neg : Bool) (m m' : Nat) (e e' : Int) :
    ltVal (.fin neg m e) (.fin neg m' e') = decide (if neg then mag m' e' < mag m e else mag m e < mag m' e') := by
  unfold ltVal sgn
  cases neg
  · simp only [Bool.false_eq_true, if_false, Nat.cast_lt]
    exact decide_eq_decide.2 (shiftLeft_lt_iff (by split <;> omega) (by split <;> omega))
  · simp only [if_true, neg_lt_neg_iff, Nat.cast_lt]
    exact decide_eq_decide.2 (shiftLeft_lt_iff (by split <;> omega) (by split <;> omega))

end

/-! ### The bounds of the directions -/

/-- The fields of control that leave every flag and bound alone. -/
def plainFcs : Fcs := ⟨false, false, false⟩

section
variable {f : Fmt} {rd : Dir} {neg : Bool} {m : Nat} (hm : m ≠ 0) (e : Int)
include hm

theorem roundVal_fin (fcs : Fcs) : roundVal f rd fcs (.fin neg m e) = roundFin f rd fcs neg m e := if_neg hm

/-- Toward zero no value goes further from it. -/
theorem bound_toward (h : Toward rd neg) : if neg then ltVal (unpack f (roundVal f rd plainFcs (.fin neg m e)).1) (.fin neg m e) = false
    else ltVal (.fin neg m e) (unpack f (roundVal f rd plainFcs (.fin neg m e)).1) = false := by
  obtain ⟨m', e', hval, hle⟩ := unpack_toward (f := f) (fcs := plainFcs) (e := e) h hm rfl
  rw [roundVal_fin hm, hval, ltVal_fin, ltVal_fin]
  cases neg <;> simpa using hle

/-- Away from zero no value comes nearer to it. -/
theorem bound_away (hf : f ≠ .e4m3) (h : Away rd neg) : if neg then ltVal (.fin neg m e) (unpack f (roundVal f rd plainFcs (.fin neg m e)).1) = false
    else ltVal (unpack f (roundVal f rd plainFcs (.fin neg m e)).1) (.fin neg m e) = false := by
  rw [roundVal_fin hm]
  rcases unpack_away (fcs := plainFcs) (e := e) hf h hm rfl rfl with hval | ⟨m', e', hval, hle⟩
  · rw [hval]
    cases neg <;> rfl
  · rw [hval, ltVal_fin, ltVal_fin]
    cases neg <;> simpa using hle

end

/-- Settles O17: exactness is `roundFin_exact` on the encoding of the bits, and the bounds are those of rounding toward zero and away from it. -/
theorem rounding : Obligations.Rounding := by
  unfold Obligations.Rounding
  refine ⟨?exact, ?bounds⟩
  case exact =>
    intro f rd fcs bits n m e hbits hval hflush
    obtain ⟨k, rfl, hholds, rfl⟩ := encode_of_unpack hbits hval
    by_cases hm : m = 0
    · subst hm
      rw [encode, if_pos (Nat.two_pow_pos _), add_zero]
      rfl
    · rw [roundVal_fin hm]
      exact roundFin_exact hholds hm hflush
  case bounds =>
    intro f n m e hf hm no
    refine ⟨?rdn, ?rup, ?rtz⟩
    case rdn =>
      cases n
      · exact bound_toward hm e toward_rdn
      · exact bound_away hm e hf away_rdn
    case rup =>
      cases n
      · exact bound_away hm e hf away_rup
      · exact bound_toward hm e toward_rup
    case rtz => exact bound_toward hm e (toward_rtz n)

end Sys2Proof.Proofs
end
